-- ==== Sys2Proof/Word.lean ====
section
/-! DEFINITION. The plainest types of the model: a byte of a frame, a sixteen digit tag, and a table of numbered records. -/

namespace Sys2Proof

/-- One byte of a plant frame or a station frame. -/
abbrev Byte := BitVec 8

/-- A roll tag as it travels (R177): sixteen decimal digits, four bits a digit, the first digit in the top four bits. -/
abbrev Tag := BitVec 64

/-- Numbered records as (number, record) pairs in one canonical form: numbers strictly rising.
What an unlisted number reads as is said by the accessor of each table (Machine/Ops.lean). -/
abbrev Tbl (α : Type) := List (Nat × α)

end Sys2Proof
end

