-- ==== Sys2Proof/Config.lean ====
section
/-! DEFINITION. The capacities and fixed figures the spec gives the part (chapter 0 and the rules named at each). -/

namespace Sys2Proof.Config

/-- Roll record places, 1 to 480 (R1). -/
abbrev rollPlaces : Nat := 480
/-- Store bays, 1 to 120 (R27). -/
abbrev bays : Nat := 120
/-- Press lines, 1 to 4. -/
abbrev lines : Nat := 4
/-- Reelstands, 1 to 16. -/
abbrev stands : Nat := 16
/-- Vehicles, 1 to 12 (R140). -/
abbrev vehicles : Nat := 12
/-- Track segments, 1 to 64 (R141). -/
abbrev segments : Nat := 64
/-- Track nodes, 1 to 48 (R141). -/
abbrev nodes : Nat := 48
/-- Route records, 1 to 160 (R141). -/
abbrev routes : Nat := 160
/-- Job record places (R102). -/
abbrev jobPlaces : Nat := 24
/-- Transport order record places (R120). -/
abbrev orderPlaces : Nat := 40
/-- Station record places (R161). -/
abbrev stationPlaces : Nat := 40
/-- Commands an out-list holds (R161). -/
abbrev outList : Nat := 4
/-- The largest 32-bit count: arrival numbers (R9), order sequences (R121) and tallies (R108). -/
abbrev max32 : Nat := 4294967295
/-- The largest 16-bit count. -/
abbrev max16 : Nat := 65535
/-- The time base is 48 bits wide and saturates (chapter 0, Units and quantities). -/
abbrev timeBaseMax : Nat := 281474976710655
/-- The measuring threshold in m/min (R61). -/
abbrev measuringThreshold : Nat := 20
/-- The mark timer's 4 s, in µs (R75). -/
abbrev markTime : Nat := 4000000

end Sys2Proof.Config
end

