-- ==== Sys2Proof/Syntax.lean ====
section
/-! DEFINITION. The commands of the part: one constructor of Instr for each row of spec/opcode_table.json, with its operands.

A plant request's operands are the fields its rule lists (R178). A named value that a byte may fail to name is an Option:
none stands for a byte that names no value of the rule's list. A station report's operands are the content its row of R169
gives and the MORE mark (R164). A pin event or a timer expiry carries the number of the pin's or the timer's owner. -/

namespace Sys2Proof

/-- The two arms of a stand. -/
inductive Arm | A | B
deriving DecidableEq, Repr

/-- How a request names a roll: by tag or by record number (R16, R19, R20, R23, R25, R136). -/
inductive RollRef
  | byTag (t : Tag)
  | byRecord (n : Nat)
deriving DecidableEq, Repr

/-- The reasons a roll is out of ordinary use (R2). -/
inductive Hold | damaged | discrepancy | operator
deriving DecidableEq, Repr

/-- The places LIST_ROLLS by location may name (R22). -/
inductive ListPlace
  | bay (b : Nat)
  | vehicle (n : Nat)
  | arm (s : Nat) (a : Option Arm)
  | node (n key : Nat)
deriving DecidableEq, Repr

/-- The destinations PLACE_ROLL may name (R25). -/
inductive PlaceDest
  | bay (b : Nat)
  | arm (s : Nat) (a : Option Arm)
deriving DecidableEq, Repr

/-- The destinations ORDER_MOVE may name (R136). -/
inductive MoveDest
  | bay (b : Nat)
  | node (n : Nat)
deriving DecidableEq, Repr

/-- The operator-hold setting of SET_BAY (R28). -/
inductive HoldSetting | set | clear | keep
deriving DecidableEq, Repr

/-- The line-level fields WRITE_PLAN HEAD carries (R48, R50). -/
structure PlanHead where
  job : Nat
  target : Nat
  allowance : Nat
  window : Nat
  lead : Nat
  prep : Nat
  autoRestart : Option Bool
  breakBrake : Option Bool
  restartSpeed : Nat
  margin : Nat
deriving DecidableEq, Repr

/-- One position of a plan (R48). -/
structure Position where
  stand : Nat
  grade : Nat
  width : Nat
  dt : Nat
deriving DecidableEq, Repr

/-- READ_PLAN's selector (R52). -/
inductive PlanSel | working | live
deriving DecidableEq, Repr

/-- READ_PLAN's part (R52). -/
inductive PlanPart | head | positions
deriving DecidableEq, Repr

/-- The five break-source enables of a line (R97). -/
structure Enables where
  webBreak : Bool
  jam : Bool
  runout : Bool
  stopLine : Bool
  console : Bool
deriving DecidableEq, Repr

/-- A configured segment: LOOP with its next segment, or SIDING with the LOOP segment it leaves and the one it rejoins (R141). -/
inductive SegKind
  | loop (next : Nat)
  | siding (branch next : Nat)
deriving DecidableEq, Repr

/-- The roles of a track node (R141). -/
inductive NodeRole | dock | aisle | stand | stub | park
deriving DecidableEq, Repr

/-- A route record's configured fields (R141). -/
structure Route where
  src : Nat
  dst : Nat
  segs : List Nat
  time : Nat
deriving DecidableEq, Repr

/-- The roles of a station (R161). -/
inductive Role
  | vehicle (n : Nat)
  | standNode (s : Nat)
  | bayNode (first count : Nat)
  | dockReader (node : Nat)
  | scale
  | console (line : Nat)
deriving DecidableEq, Repr

/-- The line rates in kbit/s: 19.2, 38.4, 76.8 and 153.6 (R157). -/
inductive Rate | k19 | k38 | k76 | k153
deriving DecidableEq, Repr

/-- What a vehicle senses on its deck (R149). -/
inductive Deck | loaded | empty
deriving DecidableEq, Repr

/-- Where a vehicle says it is: a node or a segment (R144). -/
inductive Spot
  | node (n : Nat)
  | segment (n : Nat)
deriving DecidableEq, Repr

/-- What spoils a frame under way, but for the character gap, which has its own row (R159, R160). -/
inductive Spoil
  | badCharacter
  | longLength
  | marked (addr : Nat)
  | badCheck
deriving DecidableEq, Repr

/-- The commands of the part. -/
inductive Instr
  -- the plant port
  | requestTransaction (bytes : List Byte)
  | readTransaction (clocked : Nat)
  -- requests to the Roll Registry
  | lookupRoll (r : RollRef)
  | listRollsByGrade (grade width key : Nat)
  | listRollsByLocation (p : ListPlace)
  | announceRoll (tag : Tag) (grade width diameter : Nat) (weight : Option Nat) (node : Nat)
  | holdRoll (r : RollRef) (reason : Option Hold)
  | releaseRoll (r : RollRef)
  | retireRoll (r : RollRef)
  | placeRoll (r : RollRef) (d : PlaceDest)
  -- requests to the Store Map
  | readBayByNumber (b : Nat)
  | readBayNextHeld (b : Nat)
  | setBay (b limit aisle : Nat) (h : Option HoldSetting)
  | releaseBay (b : Nat)
  -- requests to the Grade and Plan Tables
  | setGradeConfigure (g basis caliper core threshold : Nat)
  | setGradeClear (g caliper : Nat)
  | readGrade (g : Nat)
  | writePlanHead (line : Nat) (h : PlanHead)
  | writePlanPositions (line : Nat) (ps : List Position)
  | readPlan (line : Nat) (sel : Option PlanSel) (part : Option PlanPart)
  | changeover (line : Nat)
  -- requests to the Stand Measurement Unit and the Stand Sequencer
  | readStand (st : Nat)
  | setStand (st m k offset tol pulse loading : Nat)
  | setLine (line lam w : Nat) (e : Enables)
  -- requests to the Spoilage Counter
  | openJob (job line : Nat)
  | closeJob (job : Nat)
  | readJobByNumber (job : Nat)
  | readJobNext (job : Nat)
  | retireJob (job : Nat)
  -- requests to the Stand Sequencer
  | stopLine (line : Nat)
  | restartLine (line : Nat)
  -- requests to the Dispatch Unit
  | orderMove (r : RollRef) (d : MoveDest)
  | cancelOrder (n : Nat)
  | readOrderByNumber (n : Nat)
  | readOrderNext (n : Nat)
  | retireOrder (n : Nat)
  -- requests to the Track Claim Unit
  | setServiceIn (v node : Nat)
  | setServiceOut (v : Nat)
  | setServiceSettings (progress transfer margin : Nat)
  | readVehicle (v : Nat)
  | setSegment (n : Nat) (k : Option SegKind)
  | setNode (n : Nat) (c : Option (Nat × Option NodeRole))
  | setRoute (n : Nat) (c : Option Route)
  | haltTransport
  | resumeTransport
  -- requests to the Station Line Controller
  | setStationConfigure (a : Nat) (r : Role)
  | setStationClear (a : Nat)
  | setStationSettings (rate : Option Rate) (window : Nat)
  | readStationByAddress (a : Nat)
  | readStationNext (a : Nat)
  -- requests to the Retention Monitor and the Plant Port, and the entry into standby
  | standby
  | standbyEntry
  | restartPart
  | readAttention
  -- the station line
  | poll
  | replyWindowExpiry
  | frameSpoiled (c : Spoil)
  | characterGapTimeout
  | lateReplyDiscarded
  | replyNotSuited (kind : Nat) (more : Bool)
  | broadcast
  -- good replies of the polled station
  | noneReply (order : Nat) (more : Bool)
  | position (order : Nat) (spot : Spot) (passed more : Bool)
  | claim (order seg : Nat) (more : Bool)
  | docked (order : Nat) (deck : Deck) (more : Bool)
  | loaded (order : Nat) (more : Bool)
  | unloaded (order : Nat) (more : Bool)
  | idle (order node : Nat) (more : Bool)
  | fault (order number : Nat) (more : Bool)
  | tagRead (tag : Tag) (grade width diameter : Nat) (weight : Option Nat) (more : Bool)
  | scaleWeight (tag : Tag) (weight : Nat) (more : Bool)
  | bayHeights (heights : List Nat) (more : Bool)
  | prepDone (a : Arm) (after before : Nat) (more : Bool)
  | stubOff (a : Arm) (diameter : Option Nat) (more : Bool)
  | spliceNow (st : Nat) (more : Bool)
  | consoleGood (more : Bool)
  | consoleStop (more : Bool)
  | consoleRestart (more : Bool)
  -- pins and timers
  | webPulse (line : Nat)
  | gateExpiry (line : Nat)
  | markEdge (st : Nat) (a : Arm)
  | markTimerExpiry (st : Nat)
  | pasteTimerExpiry (st : Nat)
  | webBreakPin (st : Nat)
  | folderJam (line : Nat)
  | copyPulse (line : Nat)
  | secondTick
  | progressTimeout (v : Nat)
  | transferTimeout (v : Nat)
  | powerReturn (held : Bool)
  | mainPowerLoss
  | wake
  | webBreakPinInactive (st : Nat)
  | folderJamInactive (line : Nat)
  | frameStart (addr : Nat)
  | replyOtherAddress (addr : Nat)
deriving DecidableEq, Repr

end Sys2Proof
end

