-- ==== Sys2Proof/Decode.lean ====
section
/-! DEFINITION. The words a command is spelled by: the table gives none of its rows bits, so decodeTableWord spells none; a plant
request frame (R171, R177, R178) is read by decodeRequest and written by encodeRequest. -/

namespace Sys2Proof

/-- The command a word spells by the bits of spec/opcode_table.json: no row of that table has any. -/
def decodeTableWord (_nbits _w : Nat) : Option Instr := none

/-! ## Bytes -/

/-- A number as bytes, high byte first (R177, R178). -/
def beBytes : Nat → Nat → List Byte
  | 0, _ => []
  | w + 1, n => BitVec.ofNat 8 (n / 256 ^ w) :: beBytes w n

/-- The number some bytes hold, high byte first. -/
def beNat (bs : List Byte) : Nat := bs.foldl (fun a b => a * 256 + b.toNat) 0

/-- A tag as 8 bytes, its first digit in the upper half of the first byte (R177). -/
def tagBytes (t : Tag) : List Byte := beBytes 8 t.toNat

/-- The next bytes of a payload. -/
def getBytes : Nat → List Byte → Option (List Byte × List Byte)
  | 0, bs => some ([], bs)
  | _ + 1, [] => none
  | n + 1, b :: bs => (getBytes n bs).map fun r => (b :: r.1, r.2)

/-- A number field of some bytes. -/
def getNum (w : Nat) (bs : List Byte) : Option (Nat × List Byte) := (getBytes w bs).map fun r => (beNat r.1, r.2)

/-- A tag field. -/
def getTag (bs : List Byte) : Option (Tag × List Byte) := (getNum 8 bs).map fun r => (BitVec.ofNat 64 r.1, r.2)

/-- A field read some times over. -/
def getMany {α : Type} (get : List Byte → Option (α × List Byte)) : Nat → List Byte → Option (List α × List Byte)
  | 0, bs => some ([], bs)
  | n + 1, bs => do
    let (x, bs) ← get bs
    let (xs, bs) ← getMany get n bs
    some (x :: xs, bs)

/-- A list field: its number of entries, then the entries (R178). -/
def getList {α : Type} (get : List Byte → Option (α × List Byte)) (bs : List Byte) : Option (List α × List Byte) := do
  let (n, bs) ← getNum 1 bs
  getMany get n bs

/-- The value a byte names, numbered from 1 in the order of a list (R178). -/
def nameOf {α : Type} (values : List α) (n : Nat) : Option α := if n = 0 then none else values[n - 1]?

/-- A named value's byte; 0 where no value is named. -/
def nameByte {α : Type} [DecidableEq α] (values : List α) (v : Option α) : Nat :=
  match v with
  | none => 0
  | some x => values.idxOf x + 1

/-- A named value field: none where the byte names no value of the list. -/
def getNamed {α : Type} (values : List α) (bs : List Byte) : Option (Option α × List Byte) :=
  (getNum 1 bs).map fun r => (nameOf values r.1, r.2)

/-! ## Named values, in the order their rules list them (R178) -/

def arms : List Arm := [.A, .B]
def holds : List Hold := [.damaged, .discrepancy, .operator]
def holdSettings : List HoldSetting := [.set, .clear, .keep]
def planSels : List PlanSel := [.working, .live]
def planParts : List PlanPart := [.head, .positions]
def yesNo : List Bool := [true, false]
def nodeRoles : List NodeRole := [.dock, .aisle, .stand, .stub, .park]
def rates : List Rate := [.k19, .k38, .k76, .k153]

/-! ## Fields in more than one form (R178) -/

/-- A roll named by tag (form 1) or by record number (form 2). -/
def getRef (bs : List Byte) : Option (RollRef × List Byte) := do
  let (form, bs) ← getNum 1 bs
  match form with
  | 1 => (getTag bs).map fun r => (.byTag r.1, r.2)
  | 2 => (getNum 2 bs).map fun r => (.byRecord r.1, r.2)
  | _ => none

def refBytes : RollRef → List Byte
  | .byTag t => 1 :: tagBytes t
  | .byRecord n => 2 :: beBytes 2 n

/-- The place of LIST_ROLLS by location, in the order of the table of R22. -/
def getPlace (bs : List Byte) : Option (ListPlace × List Byte) := do
  let (form, bs) ← getNum 1 bs
  let (n, bs) ← getNum 1 bs
  match form with
  | 1 => some (.bay n, bs)
  | 2 => some (.vehicle n, bs)
  | 3 => (getNamed arms bs).map fun r => (.arm n r.1, r.2)
  | 4 => (getNum 4 bs).map fun r => (.node n r.1, r.2)
  | _ => none

def placeBytes : ListPlace → List Byte
  | .bay b => 1 :: beBytes 1 b
  | .vehicle n => 2 :: beBytes 1 n
  | .arm s a => 3 :: (beBytes 1 s ++ beBytes 1 (nameByte arms a))
  | .node n key => 4 :: (beBytes 1 n ++ beBytes 4 key)

/-- The destination of PLACE_ROLL: a bay (form 1) or a stand arm (form 2). -/
def getPlaceDest (bs : List Byte) : Option (PlaceDest × List Byte) := do
  let (form, bs) ← getNum 1 bs
  let (n, bs) ← getNum 1 bs
  match form with
  | 1 => some (.bay n, bs)
  | 2 => (getNamed arms bs).map fun r => (.arm n r.1, r.2)
  | _ => none

def placeDestBytes : PlaceDest → List Byte
  | .bay b => 1 :: beBytes 1 b
  | .arm s a => 2 :: (beBytes 1 s ++ beBytes 1 (nameByte arms a))

/-- The destination of ORDER_MOVE: a bay (form 1) or a node (form 2). -/
def getMoveDest (bs : List Byte) : Option (MoveDest × List Byte) := do
  let (form, bs) ← getNum 1 bs
  let (n, bs) ← getNum 1 bs
  match form with
  | 1 => some (.bay n, bs)
  | 2 => some (.node n, bs)
  | _ => none

def moveDestBytes : MoveDest → List Byte
  | .bay b => 1 :: beBytes 1 b
  | .node n => 2 :: beBytes 1 n

/-- A position of a plan. -/
def getPosition (bs : List Byte) : Option (Position × List Byte) := do
  let (stand, bs) ← getNum 1 bs
  let (grade, bs) ← getNum 1 bs
  let (width, bs) ← getNum 2 bs
  let (dt, bs) ← getNum 2 bs
  some (⟨stand, grade, width, dt⟩, bs)

def positionBytes (p : Position) : List Byte := beBytes 1 p.stand ++ beBytes 1 p.grade ++ beBytes 2 p.width ++ beBytes 2 p.dt

/-- The line-level fields of a plan, in the order of R48. -/
def getHead (bs : List Byte) : Option (PlanHead × List Byte) := do
  let (job, bs) ← getNum 2 bs
  let (target, bs) ← getNum 4 bs
  let (allowance, bs) ← getNum 2 bs
  let (window, bs) ← getNum 2 bs
  let (lead, bs) ← getNum 2 bs
  let (prep, bs) ← getNum 2 bs
  let (autoRestart, bs) ← getNamed yesNo bs
  let (breakBrake, bs) ← getNamed yesNo bs
  let (restartSpeed, bs) ← getNum 2 bs
  let (margin, bs) ← getNum 2 bs
  some (⟨job, target, allowance, window, lead, prep, autoRestart, breakBrake, restartSpeed, margin⟩, bs)

def headBytes (h : PlanHead) : List Byte :=
  beBytes 2 h.job ++ beBytes 4 h.target ++ beBytes 2 h.allowance ++ beBytes 2 h.window ++ beBytes 2 h.lead ++ beBytes 2 h.prep ++
  beBytes 1 (nameByte yesNo h.autoRestart) ++ beBytes 1 (nameByte yesNo h.breakBrake) ++ beBytes 2 h.restartSpeed ++ beBytes 2 h.margin

/-- A segment's configured fields: LOOP (form 1) or SIDING (form 2). -/
def getSegKind (bs : List Byte) : Option (SegKind × List Byte) := do
  let (form, bs) ← getNum 1 bs
  match form with
  | 1 => (getNum 1 bs).map fun r => (.loop r.1, r.2)
  | 2 => do
    let (branch, bs) ← getNum 1 bs
    let (next, bs) ← getNum 1 bs
    some (.siding branch next, bs)
  | _ => none

def segKindBytes : SegKind → List Byte
  | .loop next => 1 :: beBytes 1 next
  | .siding branch next => 2 :: (beBytes 1 branch ++ beBytes 1 next)

/-- A route record's configured fields. -/
def getRoute (bs : List Byte) : Option (Route × List Byte) := do
  let (src, bs) ← getNum 1 bs
  let (dst, bs) ← getNum 1 bs
  let (segs, bs) ← getList (getNum 1) bs
  let (time, bs) ← getNum 2 bs
  some (⟨src, dst, segs, time⟩, bs)

def routeBytes (r : Route) : List Byte :=
  beBytes 1 r.src ++ beBytes 1 r.dst ++ beBytes 1 r.segs.length ++ r.segs.flatMap (beBytes 1) ++ beBytes 2 r.time

/-- A station role, in the order of R161, with its number or range. -/
def getRole (bs : List Byte) : Option (Role × List Byte) := do
  let (form, bs) ← getNum 1 bs
  match form with
  | 1 => (getNum 1 bs).map fun r => (.vehicle r.1, r.2)
  | 2 => (getNum 1 bs).map fun r => (.standNode r.1, r.2)
  | 3 => do
    let (first, bs) ← getNum 1 bs
    let (count, bs) ← getNum 1 bs
    some (.bayNode first count, bs)
  | 4 => (getNum 1 bs).map fun r => (.dockReader r.1, r.2)
  | 5 => some (.scale, bs)
  | 6 => (getNum 1 bs).map fun r => (.console r.1, r.2)
  | _ => none

def roleBytes : Role → List Byte
  | .vehicle n => 1 :: beBytes 1 n
  | .standNode s => 2 :: beBytes 1 s
  | .bayNode first count => 3 :: (beBytes 1 first ++ beBytes 1 count)
  | .dockReader n => 4 :: beBytes 1 n
  | .scale => [5]
  | .console l => 6 :: beBytes 1 l

/-- The five enables of SET_LINE, gathered into one byte from bit 0 (R178). -/
def Enables.toNat (e : Enables) : Nat :=
  e.webBreak.toNat + 2 * e.jam.toNat + 4 * e.runout.toNat + 8 * e.stopLine.toNat + 16 * e.console.toNat

def Enables.ofNat (n : Nat) : Enables := ⟨n.testBit 0, n.testBit 1, n.testBit 2, n.testBit 3, n.testBit 4⟩

/-! ## Request frames -/

/-- A request whose payload has been read to its end. -/
def whole (i : Instr) (bs : List Byte) : Option Instr := if bs.isEmpty then some i else none

/-- A request of one number field. -/
def one (w : Nat) (f : Nat → Instr) (bs : List Byte) : Option Instr := do
  let (n, bs) ← getNum w bs
  whole (f n) bs

/-- A request that names a roll. -/
def oneRef (f : RollRef → Instr) (bs : List Byte) : Option Instr := do
  let (r, bs) ← getRef bs
  whole (f r) bs

/-- A request of two forms of one number field each. -/
def twoForms (w : Nat) (f g : Nat → Instr) (bs : List Byte) : Option Instr := do
  let (form, bs) ← getNum 1 bs
  match form with
  | 1 => one w f bs
  | 2 => one w g bs
  | _ => none

/-- LIST_ROLLS: by grade and width (form 1) or by location (form 2). -/
def readList (bs : List Byte) : Option Instr := do
  let (form, bs) ← getNum 1 bs
  match form with
  | 1 => do
    let (g, bs) ← getNum 1 bs
    let (w, bs) ← getNum 2 bs
    let (key, bs) ← getNum 4 bs
    whole (.listRollsByGrade g w key) bs
  | 2 => do
    let (p, bs) ← getPlace bs
    whole (.listRollsByLocation p) bs
  | _ => none

/-- ANNOUNCE_ROLL: the optional weight keeps its place, its presence bit at the end. -/
def readAnnounce (bs : List Byte) : Option Instr := do
  let (t, bs) ← getTag bs
  let (g, bs) ← getNum 1 bs
  let (w, bs) ← getNum 2 bs
  let (d, bs) ← getNum 2 bs
  let (kg, bs) ← getNum 2 bs
  let (node, bs) ← getNum 1 bs
  let (bits, bs) ← getNum 1 bs
  whole (.announceRoll t g w d (if bits.testBit 0 then some kg else none) node) bs

/-- SET_GRADE: both forms carry every value of a grade. -/
def readSetGrade (bs : List Byte) : Option Instr := do
  let (form, bs) ← getNum 1 bs
  let (g, bs) ← getNum 1 bs
  let (basis, bs) ← getNum 1 bs
  let (caliper, bs) ← getNum 1 bs
  let (core, bs) ← getNum 2 bs
  let (threshold, bs) ← getNum 2 bs
  match form with
  | 1 => whole (.setGradeConfigure g basis caliper core threshold) bs
  | 2 => whole (.setGradeClear g caliper) bs
  | _ => none

/-- WRITE_PLAN: HEAD (form 1) or POSITIONS (form 2). -/
def readWritePlan (bs : List Byte) : Option Instr := do
  let (form, bs) ← getNum 1 bs
  let (l, bs) ← getNum 1 bs
  match form with
  | 1 => do
    let (h, bs) ← getHead bs
    whole (.writePlanHead l h) bs
  | 2 => do
    let (ps, bs) ← getList getPosition bs
    whole (.writePlanPositions l ps) bs
  | _ => none

/-- READ_PLAN. -/
def readReadPlan (bs : List Byte) : Option Instr := do
  let (l, bs) ← getNum 1 bs
  let (sel, bs) ← getNamed planSels bs
  let (part, bs) ← getNamed planParts bs
  whole (.readPlan l sel part) bs

/-- SET_BAY. -/
def readSetBay (bs : List Byte) : Option Instr := do
  let (b, bs) ← getNum 1 bs
  let (limit, bs) ← getNum 1 bs
  let (aisle, bs) ← getNum 1 bs
  let (h, bs) ← getNamed holdSettings bs
  whole (.setBay b limit aisle h) bs

/-- SET_STAND: the measurement part, then the sequencing part. -/
def readSetStand (bs : List Byte) : Option Instr := do
  let (st, bs) ← getNum 1 bs
  let (m, bs) ← getNum 1 bs
  let (k, bs) ← getNum 1 bs
  let (offset, bs) ← getNum 2 bs
  let (tol, bs) ← getNum 1 bs
  let (pulse, bs) ← getNum 2 bs
  let (loading, bs) ← getNum 1 bs
  whole (.setStand st m k offset tol pulse loading) bs

/-- SET_LINE: the measurement part, then the break-source part. -/
def readSetLine (bs : List Byte) : Option Instr := do
  let (l, bs) ← getNum 1 bs
  let (lam, bs) ← getNum 2 bs
  let (w, bs) ← getNum 1 bs
  let (bits, bs) ← getNum 1 bs
  whole (.setLine l lam w (Enables.ofNat bits)) bs

/-- SET_SERVICE: IN (form 1), OUT (form 2) or SETTINGS (form 3). -/
def readSetService (bs : List Byte) : Option Instr := do
  let (form, bs) ← getNum 1 bs
  match form with
  | 1 => do
    let (v, bs) ← getNum 1 bs
    let (x, bs) ← getNum 1 bs
    whole (.setServiceIn v x) bs
  | 2 => one 1 .setServiceOut bs
  | 3 => do
    let (p, bs) ← getNum 1 bs
    let (t, bs) ← getNum 1 bs
    let (m, bs) ← getNum 2 bs
    whole (.setServiceSettings p t m) bs
  | _ => none

/-- SET_SEGMENT: configured fields (form 1) or the clear form (form 2). -/
def readSetSegment (bs : List Byte) : Option Instr := do
  let (form, bs) ← getNum 1 bs
  let (n, bs) ← getNum 1 bs
  match form with
  | 1 => do
    let (k, bs) ← getSegKind bs
    whole (.setSegment n (some k)) bs
  | 2 => whole (.setSegment n none) bs
  | _ => none

/-- SET_NODE. -/
def readSetNode (bs : List Byte) : Option Instr := do
  let (form, bs) ← getNum 1 bs
  let (n, bs) ← getNum 1 bs
  match form with
  | 1 => do
    let (g, bs) ← getNum 1 bs
    let (r, bs) ← getNamed nodeRoles bs
    whole (.setNode n (some (g, r))) bs
  | 2 => whole (.setNode n none) bs
  | _ => none

/-- SET_ROUTE. -/
def readSetRoute (bs : List Byte) : Option Instr := do
  let (form, bs) ← getNum 1 bs
  let (n, bs) ← getNum 1 bs
  match form with
  | 1 => do
    let (r, bs) ← getRoute bs
    whole (.setRoute n (some r)) bs
  | 2 => whole (.setRoute n none) bs
  | _ => none

/-- SET_STATION: CONFIGURE (form 1), CLEAR (form 2) or SETTINGS (form 3). -/
def readSetStation (bs : List Byte) : Option Instr := do
  let (form, bs) ← getNum 1 bs
  match form with
  | 1 => do
    let (a, bs) ← getNum 1 bs
    let (r, bs) ← getRole bs
    whole (.setStationConfigure a r) bs
  | 2 => one 1 .setStationClear bs
  | 3 => do
    let (rate, bs) ← getNamed rates bs
    let (w, bs) ← getNum 1 bs
    whole (.setStationSettings rate w) bs
  | _ => none

/-- The request of a kind with a payload: none where the length does not suit the kind (R171, R178). The kinds are numbered in the
order of the request-set table of chapter 10. -/
def readPayload (kind : Nat) (bs : List Byte) : Option Instr :=
  match kind with
  | 1 => oneRef .lookupRoll bs
  | 2 => readList bs
  | 3 => readAnnounce bs
  | 4 => do
    let (r, bs) ← getRef bs
    let (h, bs) ← getNamed holds bs
    whole (.holdRoll r h) bs
  | 5 => oneRef .releaseRoll bs
  | 6 => oneRef .retireRoll bs
  | 7 => do
    let (r, bs) ← getRef bs
    let (d, bs) ← getPlaceDest bs
    whole (.placeRoll r d) bs
  | 8 => twoForms 1 .readBayByNumber .readBayNextHeld bs
  | 9 => readSetBay bs
  | 10 => one 1 .releaseBay bs
  | 11 => readSetGrade bs
  | 12 => one 1 .readGrade bs
  | 13 => readWritePlan bs
  | 14 => readReadPlan bs
  | 15 => one 1 .changeover bs
  | 16 => one 1 .readStand bs
  | 17 => readSetStand bs
  | 18 => readSetLine bs
  | 19 => do
    let (j, bs) ← getNum 2 bs
    let (l, bs) ← getNum 1 bs
    whole (.openJob j l) bs
  | 20 => one 2 .closeJob bs
  | 21 => twoForms 2 .readJobByNumber .readJobNext bs
  | 22 => one 2 .retireJob bs
  | 23 => one 1 .stopLine bs
  | 24 => one 1 .restartLine bs
  | 25 => do
    let (r, bs) ← getRef bs
    let (d, bs) ← getMoveDest bs
    whole (.orderMove r d) bs
  | 26 => one 1 .cancelOrder bs
  | 27 => twoForms 1 .readOrderByNumber .readOrderNext bs
  | 28 => one 1 .retireOrder bs
  | 29 => readSetService bs
  | 30 => one 1 .readVehicle bs
  | 31 => readSetSegment bs
  | 32 => readSetNode bs
  | 33 => readSetRoute bs
  | 34 => whole .haltTransport bs
  | 35 => whole .resumeTransport bs
  | 36 => readSetStation bs
  | 37 => twoForms 1 .readStationByAddress .readStationNext bs
  | 38 => whole .standby bs
  | 39 => whole .restartPart bs
  | 40 => whole .readAttention bs
  | _ => none

/-- The request a frame clocked in holds; none where it is not well formed (R171). -/
def decodeRequest : List Byte → Option Instr
  | kind :: len :: payload =>
    if payload.length = len.toNat ∧ len.toNat ≤ 64 then readPayload kind.toNat payload else none
  | _ => none

/-- A request's kind (R171) and payload (R177, R178); none for a command that is not a plant request. -/
def requestParts : Instr → Option (Nat × List Byte)
  | .lookupRoll r => some (1, refBytes r)
  | .listRollsByGrade g w key => some (2, 1 :: (beBytes 1 g ++ beBytes 2 w ++ beBytes 4 key))
  | .listRollsByLocation p => some (2, 2 :: placeBytes p)
  | .announceRoll t g w d kg node =>
    some (3, tagBytes t ++ beBytes 1 g ++ beBytes 2 w ++ beBytes 2 d ++ beBytes 2 (kg.getD 0) ++ beBytes 1 node ++
      beBytes 1 kg.isSome.toNat)
  | .holdRoll r h => some (4, refBytes r ++ beBytes 1 (nameByte holds h))
  | .releaseRoll r => some (5, refBytes r)
  | .retireRoll r => some (6, refBytes r)
  | .placeRoll r d => some (7, refBytes r ++ placeDestBytes d)
  | .readBayByNumber b => some (8, 1 :: beBytes 1 b)
  | .readBayNextHeld b => some (8, 2 :: beBytes 1 b)
  | .setBay b limit aisle h => some (9, beBytes 1 b ++ beBytes 1 limit ++ beBytes 1 aisle ++ beBytes 1 (nameByte holdSettings h))
  | .releaseBay b => some (10, beBytes 1 b)
  | .setGradeConfigure g basis caliper core threshold =>
    some (11, 1 :: (beBytes 1 g ++ beBytes 1 basis ++ beBytes 1 caliper ++ beBytes 2 core ++ beBytes 2 threshold))
  | .setGradeClear g caliper => some (11, 2 :: (beBytes 1 g ++ beBytes 1 0 ++ beBytes 1 caliper ++ beBytes 2 0 ++ beBytes 2 0))
  | .readGrade g => some (12, beBytes 1 g)
  | .writePlanHead l h => some (13, 1 :: (beBytes 1 l ++ headBytes h))
  | .writePlanPositions l ps => some (13, 2 :: (beBytes 1 l ++ beBytes 1 ps.length ++ ps.flatMap positionBytes))
  | .readPlan l sel part => some (14, beBytes 1 l ++ beBytes 1 (nameByte planSels sel) ++ beBytes 1 (nameByte planParts part))
  | .changeover l => some (15, beBytes 1 l)
  | .readStand st => some (16, beBytes 1 st)
  | .setStand st m k offset tol pulse loading =>
    some (17, beBytes 1 st ++ beBytes 1 m ++ beBytes 1 k ++ beBytes 2 offset ++ beBytes 1 tol ++ beBytes 2 pulse ++ beBytes 1 loading)
  | .setLine l lam w e => some (18, beBytes 1 l ++ beBytes 2 lam ++ beBytes 1 w ++ beBytes 1 e.toNat)
  | .openJob j l => some (19, beBytes 2 j ++ beBytes 1 l)
  | .closeJob j => some (20, beBytes 2 j)
  | .readJobByNumber j => some (21, 1 :: beBytes 2 j)
  | .readJobNext j => some (21, 2 :: beBytes 2 j)
  | .retireJob j => some (22, beBytes 2 j)
  | .stopLine l => some (23, beBytes 1 l)
  | .restartLine l => some (24, beBytes 1 l)
  | .orderMove r d => some (25, refBytes r ++ moveDestBytes d)
  | .cancelOrder n => some (26, beBytes 1 n)
  | .readOrderByNumber n => some (27, 1 :: beBytes 1 n)
  | .readOrderNext n => some (27, 2 :: beBytes 1 n)
  | .retireOrder n => some (28, beBytes 1 n)
  | .setServiceIn v x => some (29, 1 :: (beBytes 1 v ++ beBytes 1 x))
  | .setServiceOut v => some (29, 2 :: beBytes 1 v)
  | .setServiceSettings p t m => some (29, 3 :: (beBytes 1 p ++ beBytes 1 t ++ beBytes 2 m))
  | .readVehicle v => some (30, beBytes 1 v)
  | .setSegment n (some k) => some (31, 1 :: (beBytes 1 n ++ segKindBytes k))
  | .setSegment n none => some (31, 2 :: beBytes 1 n)
  | .setNode n (some (g, r)) => some (32, 1 :: (beBytes 1 n ++ beBytes 1 g ++ beBytes 1 (nameByte nodeRoles r)))
  | .setNode n none => some (32, 2 :: beBytes 1 n)
  | .setRoute n (some r) => some (33, 1 :: (beBytes 1 n ++ routeBytes r))
  | .setRoute n none => some (33, 2 :: beBytes 1 n)
  | .haltTransport => some (34, [])
  | .resumeTransport => some (35, [])
  | .setStationConfigure a r => some (36, 1 :: (beBytes 1 a ++ roleBytes r))
  | .setStationClear a => some (36, 2 :: beBytes 1 a)
  | .setStationSettings rate w => some (36, 3 :: (beBytes 1 (nameByte rates rate) ++ beBytes 1 w))
  | .readStationByAddress a => some (37, 1 :: beBytes 1 a)
  | .readStationNext a => some (37, 2 :: beBytes 1 a)
  | .standby => some (38, [])
  | .restartPart => some (39, [])
  | .readAttention => some (40, [])
  | .requestTransaction _ | .readTransaction _ | .standbyEntry | .poll | .replyWindowExpiry | .frameSpoiled _ | .characterGapTimeout
  | .lateReplyDiscarded | .replyNotSuited .. | .broadcast | .noneReply .. | .position .. | .claim .. | .docked .. | .loaded ..
  | .unloaded .. | .idle .. | .fault .. | .tagRead .. | .scaleWeight .. | .bayHeights .. | .prepDone .. | .stubOff .. | .spliceNow ..
  | .consoleGood _ | .consoleStop _ | .consoleRestart _ | .webPulse _ | .gateExpiry _ | .markEdge .. | .markTimerExpiry _
  | .pasteTimerExpiry _ | .webBreakPin _ | .folderJam _ | .copyPulse _ | .secondTick | .progressTimeout _ | .transferTimeout _
  | .powerReturn _ | .mainPowerLoss | .wake | .webBreakPinInactive _ | .folderJamInactive _ | .frameStart _ | .replyOtherAddress _ => none

/-- A request's kind, 1 to 40 (R171). -/
def Instr.requestKind (i : Instr) : Nat := ((requestParts i).map Prod.fst).getD 0

/-- The frame that carries a plant request (R177). -/
def encodeRequest (i : Instr) : Option (List Byte) :=
  (requestParts i).map fun e => BitVec.ofNat 8 e.1 :: BitVec.ofNat 8 e.2.length :: e.2

end Sys2Proof
end

