-- ==== Sys2Proof/Machine/State.lean ====
section
/-! DEFINITION. The state of the part as plain data: every record, counter, flag, queue and output the spec gives it, and
the state right after a cold start. A table lists only records that differ from their cold-start value. -/

namespace Sys2Proof.Machine

/-- A part that stops: the spec gives none of its commands such an end, so this type has no value. -/
inductive Fault
deriving DecidableEq, Repr

/-- Why a command has no meaning in the model. -/
inductive Refusal
  /-- Raised by exec alone, for a row of the table that has no meaning yet. Safe: the model stops. -/
  | notModelled (mnemonic : String)
deriving DecidableEq, Repr

/-- What exec and step answer. -/
abbrev Out (σ : Type) := Host.Outcome σ Fault Refusal

/-! ## Roll Registry -/

/-- The lifecycle states of a roll (R2). -/
inductive RollState | announced | stored | reserved | inTransit | staged | ready | running | stub
deriving DecidableEq, Repr

/-- The one place a roll is at (R2). -/
inductive Location
  | node (n : Nat)
  | bay (b level : Nat)
  | vehicle (n : Nat)
  | arm (s : Nat) (a : Arm)
deriving DecidableEq, Repr

/-- A live roll record (R2); its record number is its key. -/
structure Roll where
  tag : Tag
  grade : Nat
  width : Nat
  arrival : Nat
  state : RollState
  loc : Location
  diameter : Nat
  weight : Option Nat
  mount : Option Nat
  order : Option Nat
  job : Option Nat
  consumed : Nat
  hold : Option Hold
  /-- The partial flag. -/
  returned : Bool
deriving DecidableEq, Repr

/-! ## Store Map -/

/-- The holds of a bay (R27). -/
inductive BayHold | discrepancy | operator
deriving DecidableEq, Repr

/-- A bay record (R27). -/
structure Bay where
  limit : Nat
  aisle : Option Nat
  stack : List Nat
  hold : Option BayHold
  mark : Option Nat
  lastHeight : Option Nat
  confirm : Nat
deriving DecidableEq, Repr

/-- A bay after cold start (R27). -/
def Bay.cold : Bay := ⟨0, none, [], none, none, none, 0⟩

/-! ## Grade and Plan Tables -/

/-- A grade record (R45); caliper 0 is unconfigured. -/
structure Grade where
  basis : Nat
  caliper : Nat
  core : Nat
  threshold : Nat
deriving DecidableEq, Repr

/-- An unconfigured grade (R45). -/
def Grade.cold : Grade := ⟨0, 0, 0, 0⟩

/-- One copy of a line's plan (R48). -/
structure Plan where
  job : Option Nat
  target : Nat
  allowance : Nat
  window : Nat
  lead : Nat
  prep : Nat
  autoRestart : Bool
  breakBrake : Bool
  restartSpeed : Nat
  margin : Nat
  positions : List Position
deriving DecidableEq, Repr

/-- The empty plan (R48). -/
def Plan.empty : Plan := ⟨none, 0, 0, 0, 600, 300, false, true, 60, 200, []⟩

/-! ## Lines: plans, speed, break machine, counting -/

/-- The counting states of a line (R109). -/
inductive Counting | idle | makeready | good | splice | brk | changeover
deriving DecidableEq, Repr

/-- What put a line in BREAK (R97). -/
inductive Cause
  | webBreak (s : Nat)
  | folderJam
  | runout (s : Nat)
  | stopLine
  | console
  | warmStart
deriving DecidableEq, Repr

/-- What the part holds for one press line. -/
structure Line where
  -- plans (R48) and the pending changeover (R54)
  working : Plan
  live : Plan
  pending : Bool
  -- measurement settings (R59) and break-source enables (R97)
  lam : Nat
  w : Nat
  enables : Enables
  -- web counter (R60), its reading at the previous gate expiry and the speed (R61)
  web : BitVec 24
  gateWeb : BitVec 24
  v : Nat
  -- break machine (R97) and its STOP output
  inBreak : Bool
  cause : Option Cause
  lowMark : Bool
  stop : Bool
  -- counting record (R109); its target notices are the TARGET items of the offer orders (R116, R167)
  counting : Counting
  window : Nat
  /-- The level of the folder-jam pin. -/
  jam : Bool
deriving DecidableEq, Repr

/-- A line after cold start (R48, R59, R60, R61, R97, R109). -/
def Line.cold : Line :=
  { working := .empty, live := .empty, pending := false, lam := 500, w := 50, enables := ⟨true, true, true, true, true⟩,
    web := 0, gateWeb := 0, v := 0, inBreak := false, cause := none, lowMark := false, stop := false,
    counting := .idle, window := 0, jam := false }

/-! ## Stands: measurement and sequence -/

/-- A capture (R63): the µs counter and, at a stand that belongs to a line, the web counter. -/
structure Capture where
  us : BitVec 32
  web : Option (BitVec 24)
deriving DecidableEq, Repr

/-- A capture channel (R63). -/
structure Channel where
  count : Nat
  ref : Option Capture
deriving DecidableEq, Repr

/-- A cleared channel. -/
def Channel.clear : Channel := ⟨0, none⟩

/-- The states of an arm (R81). -/
inductive ArmState | empty | staged | ready | active | expired
deriving DecidableEq, Repr

/-- An arm record (R81) with its capture channel (R63). -/
structure ArmRec where
  state : ArmState
  roll : Option Nat
  callOff : Option Nat
  chan : Channel
deriving DecidableEq, Repr

/-- An EMPTY arm with no links. -/
def ArmRec.cold : ArmRec := ⟨.empty, none, none, .clear⟩

/-- The direction of a reject run (R68). -/
inductive Dir | up | down
deriving DecidableEq, Repr

/-- A reject run (R68); at count 0 there is none and the direction reads UP. -/
structure RejectRun where
  dir : Dir
  count : Nat
deriving DecidableEq, Repr

/-- No reject run. -/
def RejectRun.clear : RejectRun := ⟨.up, 0⟩

/-- The causes of MEASURE_LOST (R76). -/
inductive LostCause | lost | suspect
deriving DecidableEq, Repr

/-- The sequence states of a stand (R82). -/
inductive Seq | idle | running | armed | matched | pasting
deriving DecidableEq, Repr

/-- What the part holds for one stand. Timers hold the µs left; none is stopped. -/
structure Stand where
  -- settings (R62, R80)
  m : Nat
  k : Nat
  offset : Nat
  tol : Nat
  pulse : Nat
  loading : Option Nat
  -- arm records
  armA : ArmRec
  armB : ArmRec
  -- measurement (R66, R68, R75, R76, R77)
  df : Option Nat
  run : RejectRun
  ts : Nat
  markLeft : Option Nat
  measureLost : Option LostCause
  lastVs : Option Nat
  -- sequence and outputs (R82)
  seq : Seq
  matchCount : Nat
  pasteLeft : Option Nat
  pasteLine : Option Nat
  late : Bool
  runout : Bool
  drive : Bool
  paste : Bool
  brake : Bool
  /-- The level of the web-break pin. -/
  webBreak : Bool
deriving DecidableEq, Repr

/-- A stand after cold start (R62, R66, R68, R75, R76, R77, R80, R81, R82). -/
def Stand.cold : Stand :=
  { m := 1, k := 1, offset := 300, tol := 5, pulse := 200, loading := none, armA := .cold, armB := .cold,
    df := none, run := .clear, ts := 65535, markLeft := none, measureLost := none, lastVs := none,
    seq := .idle, matchCount := 0, pasteLeft := none, pasteLine := none, late := false, runout := false,
    drive := false, paste := false, brake := false, webBreak := false }

/-! ## Jobs -/

/-- The states of a job (R103). -/
inductive JobState | opened | live | closed
deriving DecidableEq, Repr

/-- A live job record (R102); its job number is its key. -/
structure Job where
  place : Nat
  line : Nat
  state : JobState
  good : Nat
  makeready : Nat
  splice : Nat
  brk : Nat
  changeover : Nat
  spliceCount : Nat
  breakCount : Nat
  consumedM : Nat
  consumedG : Nat
  stripM : Nat
  stripG : Nat
  stubM : Nat
  stubG : Nat
  target : Option Nat
  allowance : Option Nat
  excess : Bool
  targetMet : Bool
deriving DecidableEq, Repr

/-! ## Transport orders -/

/-- The kinds of order (R120). -/
inductive OrderKind | store | callOff | ret | move
deriving DecidableEq, Repr

/-- The party an order serves (R120). -/
inductive Requester
  | node (n : Nat)
  | arm (s : Nat) (a : Arm)
  | plant
deriving DecidableEq, Repr

/-- Where an order's roll is taken from (R120). -/
inductive Source
  | node (n : Nat)
  | bay (b : Nat)
deriving DecidableEq, Repr

/-- Where an order's roll is set down (R120). -/
inductive Dest
  | bay (b : Nat)
  | arm (s : Nat) (a : Arm)
  | node (n : Nat)
deriving DecidableEq, Repr

/-- The classes of order, first in rank first (R124). -/
inductive Class | urgent | callOff | plant | store
deriving DecidableEq, Repr

/-- The states of an order (R120). -/
inductive OrderState | pending | assigned | loading | carrying | unloading | failed
deriving DecidableEq, Repr

/-- A live order record (R120); its number is its key. -/
structure Order where
  place : Nat
  kind : OrderKind
  requester : Requester
  roll : Option Nat
  named : Option (Nat × Tag)
  source : Option Source
  dest : Option Dest
  namedDest : Option Dest
  grade : Option Nat
  width : Option Nat
  deadline : Option Nat
  cls : Class
  state : OrderState
  vehicle : Option Nat
  seq : Nat
  noStock : Bool
  noBay : Bool
  noRoute : Bool
  abort : Bool
deriving DecidableEq, Repr

/-! ## Vehicles and track -/

/-- The states of a vehicle (R140). -/
inductive VState | outOfService | idle | toPickup | loading | toDrop | unloading | stalled
deriving DecidableEq, Repr

/-- The causes of a stall (R140). -/
inductive StallCause | progress | transfer | silent | fault | position
deriving DecidableEq, Repr

/-- The route of the present leg and the index of the current segment in its list (R140). -/
structure Leg where
  route : Nat
  progress : Nat
deriving DecidableEq, Repr

/-- A vehicle timer, with the µs left (R140, R154). -/
inductive Timer
  | stopped
  | running (left : Nat)
  | suspended (left : Nat)
deriving DecidableEq, Repr

/-- A vehicle record (R140). Its service is OUT exactly in outOfService; its station address is derived. -/
structure Vehicle where
  state : VState
  prev : Option VState
  cause : Option StallCause
  pos : Option Spot
  held : List Nat
  waiting : Option Nat
  leg : Option Leg
  nextRoute : Option Nat
  order : Option Nat
  load : Option Nat
  lastReport : Option Nat
  docked : Nat
  deck : Option Deck
  progress : Timer
  transfer : Timer
deriving DecidableEq, Repr

/-- A vehicle after cold start (R140). -/
def Vehicle.cold : Vehicle :=
  ⟨.outOfService, none, none, none, [], none, none, none, none, none, none, 0, none, .stopped, .stopped⟩

/-- A segment record (R141). -/
structure Segment where
  kind : Option SegKind
  holder : Option Nat
  waiters : List Nat
deriving DecidableEq, Repr

/-- An unconfigured segment (R141). -/
def Segment.cold : Segment := ⟨none, none, []⟩

/-- A configured node (R141). -/
structure Node where
  seg : Nat
  role : NodeRole
deriving DecidableEq, Repr

/-! ## Station line -/

/-- The reasons a REFUSED carries (R169). -/
inductive Reason | badArgument | badState | full | duplicateTag
deriving DecidableEq, Repr

/-- The commands a block places on an out-list (R169). -/
inductive Cmd
  | task (order pickup : Nat) (drop toPickup toDrop : Option Nat)
  | grant (seg : Nat)
  | wait (seg : Nat)
  | transfer (order : Nat)
  | undock (order : Nat)
  | abort (order : Nat)
  | target (line job good : Nat)
  | accepted (kind : Nat)
  | refused (kind : Nat) (reason : Reason)
deriving DecidableEq, Repr

/-- Who keeps an item for a station (R167): the Dispatch Unit, the Track Claim Unit, the Spoilage Counter, or the owner of the report
that an ACCEPTED or REFUSED answers (R169). -/
inductive Owner | dsp | tcu | spc | report
deriving DecidableEq, Repr

/-- A kept item with its owner (R167). -/
structure KeptItem where
  owner : Owner
  cmd : Cmd
deriving DecidableEq, Repr

/-- A live station record (R161) with its offer order (R167); its address is its key. -/
structure Station where
  place : Nat
  role : Role
  silent : Bool
  miss : Nat
  reduced : Nat
  out : List Cmd
  offer : List KeptItem
deriving DecidableEq, Repr

/-- The exchange in progress (R162), with the µs left of its window and its place in its station's turn (R164). -/
structure Exchange where
  addr : Nat
  windowOpen : Bool
  left : Nat
  turn : Nat
  /-- The line rate the exchange began with (R165). -/
  rate : Rate
deriving DecidableEq, Repr

/-- The receiver (R159): hunting, or a frame under way with its address and whether the exchange in progress is decided by it. -/
inductive Receiver
  | hunting
  | frame (addr : Nat) (decides : Bool)
deriving DecidableEq, Repr

/-- The kinds of a broadcast (R168). -/
inductive Broadcast | allHalt | resume
deriving DecidableEq, Repr

/-- What the part drives on the station line (R168, R176). -/
inductive LineOut
  | lineBreak
  | frame (bytes : List Byte)
deriving DecidableEq, Repr

/-! ## Plant port and attention -/

/-- The states of the port (R170). -/
inductive PortState | idle | receiving | working | answer
deriving DecidableEq, Repr

/-- The status values of an answer (R172). -/
inductive Status | ok | busy | badArgument | badState | notFound | duplicate | full | limit
deriving DecidableEq, Repr

/-- An answer frame (R177). -/
structure Answer where
  status : Status
  kind : Nat
  payload : List Byte
deriving DecidableEq, Repr

/-- The Plant Port (R170). READY is asserted exactly in ANSWER. -/
structure Port where
  state : PortState
  held : Option Instr
  answer : Option Answer
deriving DecidableEq, Repr

/-- An idle port. -/
def Port.cold : Port := ⟨.idle, none, none⟩

/-- The conditions of the attention set, in the order of R174. -/
inductive Cond
  | coldStart | warmStart | storeFull | rollDiscrepancy | stockShort | orderFailed | vehicleStalled | stationSilent
  | lineBreak | spliceLate | measureLost | makereadyExcess | targetReached
deriving DecidableEq, Repr

/-- A present entry of the attention set (R174). -/
structure AttnEntry where
  subject : Nat
  count : Nat
deriving DecidableEq, Repr

/-! ## Retention Monitor -/

/-- The start kind (chapter 11). -/
inductive StartKind | cold | warm
deriving DecidableEq, Repr

/-- The start cause (chapter 11). -/
inductive StartCause | power | restart | wake
deriving DecidableEq, Repr

/-- The standby state (chapter 11). -/
inductive Standby | running | entering | standby
deriving DecidableEq, Repr

/-! ## Outputs of the latest step -/

/-- An output pin. -/
inductive Pin
  | drive (s : Nat)
  | paste (s : Nat)
  | brake (s : Nat)
  | stop (line : Nat)
deriving DecidableEq, Repr

/-- A change of an output pin. -/
structure Edge where
  pin : Pin
  up : Bool
deriving DecidableEq, Repr

/-- The state of the part. -/
structure State where
  /-- Main power is present and the part has not stopped (R180). -/
  powered : Bool
  /-- The time base in ms (chapter 0) and the µs of the running millisecond. -/
  timeBase : Nat
  subMs : Nat
  /-- The µs capture counter (R63). -/
  micros : BitVec 32
  -- Roll Registry (R1, R9)
  rolls : Tbl Roll
  arrival : Nat
  -- Store Map (R27)
  bays : Tbl Bay
  -- Grade and Plan Tables (R45); the plans are in the lines
  grades : Tbl Grade
  -- lines and stands
  lines : Tbl Line
  stands : Tbl Stand
  -- Spoilage Counter (R102)
  jobs : Tbl Job
  -- Dispatch Unit (R120, R121)
  orders : Tbl Order
  orderPointer : Nat
  orderSeq : Nat
  -- Track Claim Unit (R140, R141)
  vehicles : Tbl Vehicle
  segments : Tbl Segment
  nodes : Tbl Node
  routes : Tbl Route
  progressTimeout : Nat
  transferTimeout : Nat
  urgentMargin : Nat
  halted : Bool
  -- Station Line Controller (R157, R161 to R168)
  rate : Rate
  replyWindow : Nat
  stations : Tbl Station
  /-- The addresses of the running cycle whose turn has not come (R163). -/
  cycle : List Nat
  /-- A further exchange earned by MORE: the station and the exchanges its turn has held (R164). -/
  further : Option (Nat × Nat)
  exchange : Option Exchange
  receiver : Receiver
  pendingBroadcast : Option Broadcast
  -- Plant Port (R170, R174)
  port : Port
  attn : Tbl AttnEntry
  -- Retention Monitor (chapter 11)
  startKind : StartKind
  startCause : StartCause
  standby : Standby
  -- outputs of the latest step taken: bytes shifted out by the port, what was driven on the line, output pin changes in order
  shifted : List Byte
  lineOut : List LineOut
  edges : List Edge
  /-- The model's own: an event of this update leads to an assignment pass (R129). -/
  passDue : Bool
  /-- The model's own: the expiries that the latest µs of the part's own time put into the queue (notes/assumptions/2.md). -/
  expiring : List Instr
  /-- The commands waiting, first in first out. -/
  pending : List Instr
deriving DecidableEq, Repr

/-- The part right after a cold start (R179): every table empty, COLD_START raised with subject 0. -/
def State.reset : State :=
  { powered := true, timeBase := 0, subMs := 0, micros := 0, rolls := [], arrival := 0, bays := [], grades := [],
    lines := [], stands := [], jobs := [], orders := [], orderPointer := 1, orderSeq := 0, vehicles := [], segments := [],
    nodes := [], routes := [], progressTimeout := 45, transferTimeout := 90, urgentMargin := 120, halted := false,
    rate := .k38, replyWindow := 15, stations := [], cycle := [], further := none, exchange := none, receiver := .hunting,
    pendingBroadcast := none, port := .cold, attn := [(1, ⟨0, 1⟩)], startKind := .cold, startCause := .power,
    standby := .running, shifted := [], lineOut := [], edges := [], passDue := false, expiring := [], pending := [] }

end Sys2Proof.Machine
end

