-- ==== Sys2Proof/Machine/Ops.lean ====
section
/-! DEFINITION. The named operations every block uses: reading and writing a record, raising a condition, driving an output
pin, and placing a command for a station. -/

namespace Sys2Proof

/-! ## Tables -/

/-- The record at a number. -/
def Tbl.find {α : Type} : Tbl α → Nat → Option α
  | [], _ => none
  | (k, a) :: t, n => if k = n then some a else Tbl.find t n

/-- The table without a number's record. -/
def Tbl.drop {α : Type} : Tbl α → Nat → Tbl α
  | [], _ => []
  | (k, a) :: t, n => if k = n then Tbl.drop t n else (k, a) :: Tbl.drop t n

/-- The table with a record entered before the first greater number. -/
def Tbl.enter {α : Type} : Tbl α → Nat → α → Tbl α
  | [], n, x => [(n, x)]
  | (k, a) :: t, n, x => if n < k then (n, x) :: (k, a) :: t else (k, a) :: Tbl.enter t n x

/-- The one write of a table: a record put at a number, or the number's record removed. -/
def Tbl.put {α : Type} (t : Tbl α) (n : Nat) (o : Option α) : Tbl α :=
  match o with
  | none => t.drop n
  | some x => (t.drop n).enter n x

/-- A record read with the value an unlisted number has. -/
def Tbl.get {α : Type} (t : Tbl α) (n : Nat) (cold : α) : α := (t.find n).getD cold

/-- A record written; one equal to the unlisted value is not listed. -/
def Tbl.set {α : Type} [DecidableEq α] (t : Tbl α) (n : Nat) (cold x : α) : Tbl α :=
  t.put n (if x = cold then none else some x)

/-- The numbers a table lists, ascending. -/
def Tbl.keys {α : Type} (t : Tbl α) : List Nat := t.map Prod.fst

/-- The first record of a table, in number order, that meets a test. -/
def Tbl.first {α : Type} (t : Tbl α) (p : Nat → α → Bool) : Option Nat :=
  (List.find? (fun e : Nat × α => p e.1 e.2) t).map Prod.fst

/-- The other arm. -/
def Arm.other : Arm → Arm
  | .A => .B
  | .B => .A

/-- A tag is well formed: sixteen decimal digits, not all zero (R10, R20). -/
def tagOk (t : Tag) : Bool := t != 0 && (List.range 16).all fun i => (t.toNat / 16 ^ i) % 16 ≤ 9

/-- A roll reference is well formed (R16, R19, R20, R23). -/
def RollRef.ok : RollRef → Bool
  | .byTag t => tagOk t
  | .byRecord n => decide (1 ≤ n ∧ n ≤ Config.rollPlaces)

end Sys2Proof

namespace Sys2Proof.Machine

/-- The numbers lo to hi. -/
def span (lo hi : Nat) : List Nat := List.range' lo (hi + 1 - lo)

/-- The state after an update for each number of a list, in its order. -/
def State.each (ns : List Nat) (f : Nat → State → State) (s : State) : State :=
  ns.foldl (fun s n => f n s) s

/-- The lowest number of 1 to hi that a list of numbers lacks (R1, R104, R121, R161). -/
def lowestFree (hi : Nat) (used : List Nat) : Option Nat := (span 1 hi).find? (fun n => !used.contains n)

/-! ## Reading records -/

def State.roll (s : State) (n : Nat) : Option Roll := s.rolls.find n
def State.bay (s : State) (n : Nat) : Bay := s.bays.get n .cold
def State.grade (s : State) (n : Nat) : Grade := s.grades.get n .cold
def State.line (s : State) (n : Nat) : Line := s.lines.get n .cold
def State.stand (s : State) (n : Nat) : Stand := s.stands.get n .cold
def State.job (s : State) (n : Nat) : Option Job := s.jobs.find n
def State.order (s : State) (n : Nat) : Option Order := s.orders.find n
def State.vehicle (s : State) (n : Nat) : Vehicle := s.vehicles.get n .cold
def State.segment (s : State) (n : Nat) : Segment := s.segments.get n .cold
def State.node (s : State) (n : Nat) : Option Node := s.nodes.find n
def State.route (s : State) (n : Nat) : Option Route := s.routes.find n
def State.station (s : State) (n : Nat) : Option Station := s.stations.find n

/-! ## Writing records -/

def State.putRoll (s : State) (n : Nat) (r : Option Roll) : State := { s with rolls := s.rolls.put n r }
def State.setBay (s : State) (n : Nat) (b : Bay) : State := { s with bays := s.bays.set n .cold b }
def State.setGrade (s : State) (n : Nat) (g : Grade) : State := { s with grades := s.grades.set n .cold g }
def State.setLine (s : State) (n : Nat) (l : Line) : State := { s with lines := s.lines.set n .cold l }
def State.setStand (s : State) (n : Nat) (x : Stand) : State := { s with stands := s.stands.set n .cold x }
def State.putJob (s : State) (n : Nat) (j : Option Job) : State := { s with jobs := s.jobs.put n j }
def State.putOrder (s : State) (n : Nat) (o : Option Order) : State := { s with orders := s.orders.put n o }
def State.setVehicle (s : State) (n : Nat) (v : Vehicle) : State := { s with vehicles := s.vehicles.set n .cold v }
def State.setSegment (s : State) (n : Nat) (g : Segment) : State := { s with segments := s.segments.set n .cold g }
def State.putNode (s : State) (n : Nat) (x : Option Node) : State := { s with nodes := s.nodes.put n x }
def State.putRoute (s : State) (n : Nat) (r : Option Route) : State := { s with routes := s.routes.put n r }
def State.putStation (s : State) (n : Nat) (x : Option Station) : State := { s with stations := s.stations.put n x }

def State.modRoll (s : State) (n : Nat) (f : Roll → Roll) : State :=
  match s.roll n with
  | none => s
  | some r => s.putRoll n (some (f r))
def State.modBay (s : State) (n : Nat) (f : Bay → Bay) : State := s.setBay n (f (s.bay n))
def State.modLine (s : State) (n : Nat) (f : Line → Line) : State := s.setLine n (f (s.line n))
def State.modStand (s : State) (n : Nat) (f : Stand → Stand) : State := s.setStand n (f (s.stand n))
def State.modJob (s : State) (n : Nat) (f : Job → Job) : State :=
  match s.job n with
  | none => s
  | some j => s.putJob n (some (f j))
def State.modOrder (s : State) (n : Nat) (f : Order → Order) : State :=
  match s.order n with
  | none => s
  | some o => s.putOrder n (some (f o))
def State.modVehicle (s : State) (n : Nat) (f : Vehicle → Vehicle) : State := s.setVehicle n (f (s.vehicle n))
def State.modSegment (s : State) (n : Nat) (f : Segment → Segment) : State := s.setSegment n (f (s.segment n))
def State.modStation (s : State) (n : Nat) (f : Station → Station) : State :=
  match s.station n with
  | none => s
  | some x => s.putStation n (some (f x))

/-! ## Arms of a stand -/

/-- A stand's arm record (R81). -/
def Stand.arm (x : Stand) : Arm → ArmRec
  | .A => x.armA
  | .B => x.armB

/-- A stand with one arm record replaced. -/
def Stand.withArm (x : Stand) (a : Arm) (r : ArmRec) : Stand :=
  match a with
  | .A => { x with armA := r }
  | .B => { x with armB := r }

/-- The arm, A first, whose state is the one asked for. -/
def Stand.armIn (x : Stand) (st : ArmState) : Option Arm :=
  if x.armA.state = st then some .A else if x.armB.state = st then some .B else none

/-- A stand's ACTIVE arm (R81 allows one). -/
def Stand.active (x : Stand) : Option Arm := x.armIn .active

/-- An arm's state written; its channel's reference is removed and its prescale count set to 0 (R63). -/
def State.setArm (s : State) (st : Nat) (a : Arm) (r : ArmRec) : State :=
  s.modStand st fun x => x.withArm a { r with chan := .clear }

/-- The references and prescale counts of both channels of a stand cleared (R63). -/
def Stand.clearChannels (x : Stand) : Stand :=
  { x with armA := { x.armA with chan := .clear }, armB := { x.armB with chan := .clear } }

/-! ## Time -/

/-- `now`: the time base in whole seconds, floored (R120). -/
def State.now (s : State) : Nat := s.timeBase / 1000

/-! ## Attention (R174) -/

/-- A condition's place in the list of R174, 1 to 13. -/
def Cond.place : Cond → Nat
  | .coldStart => 1
  | .warmStart => 2
  | .storeFull => 3
  | .rollDiscrepancy => 4
  | .stockShort => 5
  | .orderFailed => 6
  | .vehicleStalled => 7
  | .stationSilent => 8
  | .lineBreak => 9
  | .spliceLate => 10
  | .measureLost => 11
  | .makereadyExcess => 12
  | .targetReached => 13

/-- The entry a raise leaves: the lower subject and one more raise, saturating at 255. -/
def AttnEntry.raised (o : Option AttnEntry) (subject : Nat) : AttnEntry :=
  match o with
  | none => ⟨subject, 1⟩
  | some e => ⟨min e.subject subject, min (e.count + 1) 255⟩

/-- A block raises a condition with its subject (R174). -/
def State.raise (s : State) (c : Cond) (subject : Nat) : State :=
  { s with attn := s.attn.put c.place (some (AttnEntry.raised (s.attn.find c.place) subject)) }

/-! ## Notices to the Dispatch Unit -/

/-- An event of this update leads to an assignment pass, whatever else does too: an availability notice (R34), an order that
enters PENDING or becomes URGENT, a roll that becomes STORED, a vehicle that enters IDLE (R129). -/
def State.notice (s : State) : State := { s with passDue := true }

/-! ## Output pins -/

/-- The level an output pin is driven to. -/
def State.pinLevel (s : State) : Pin → Bool
  | .drive n => (s.stand n).drive
  | .paste n => (s.stand n).paste
  | .brake n => (s.stand n).brake
  | .stop n => (s.line n).stop

/-- An output pin driven to a level; a change of level is recorded as the latest edge. -/
def State.drivePin (s : State) (p : Pin) (b : Bool) : State :=
  if s.pinLevel p = b then s
  else
    let s' := { s with edges := s.edges ++ [Edge.mk p b] }
    match p with
    | .drive n => s'.modStand n ({ · with drive := b })
    | .paste n => s'.modStand n ({ · with paste := b })
    | .brake n => s'.modStand n ({ · with brake := b })
    | .stop n => s'.modLine n ({ · with stop := b })

/-- PASTE dropped and then DRIVE (R82). -/
def State.dropPasteDrive (s : State) (st : Nat) : State := (s.drivePin (.paste st) false).drivePin (.drive st) false

/-! ## Placing commands for stations (R166, R167) -/

/-- The kinds of command of which a kept item is replaced by a newer one (R167): TASK, TRANSFER, UNDOCK, ABORT, TARGET. -/
def Cmd.replaceable : Cmd → Bool
  | .task .. | .transfer _ | .undock _ | .abort _ | .target .. => true
  | .grant _ | .wait _ | .accepted _ | .refused .. => false

/-- A command's kind in a station frame, 1 to 9 (R176). -/
def Cmd.kind : Cmd → Nat
  | .task .. => 1
  | .grant _ => 2
  | .wait _ => 3
  | .transfer _ => 4
  | .undock _ => 5
  | .abort _ => 6
  | .target .. => 7
  | .accepted _ => 8
  | .refused .. => 9

/-- The block that places a command, by its kind (R169); an ABORT of the Dispatch Unit names its owner where it is placed. -/
def Cmd.owner : Cmd → Owner
  | .task .. | .grant _ | .wait _ | .transfer _ | .undock _ | .abort _ => .tcu
  | .target .. => .spc
  | .accepted _ | .refused .. => .report

/-- A kept item gives way to a newer one: of a replaceable kind, the same kind and the same owner (R167). -/
def KeptItem.yields (k d : KeptItem) : Bool := k.cmd.replaceable && d.cmd.kind == k.cmd.kind && d.owner == k.owner

/-- An offer order in which the first item that gives way to a newer one is replaced by it, in its place (R167). -/
def replaceKept (k : KeptItem) : List KeptItem → List KeptItem
  | [] => []
  | d :: ds => if k.yields d then k :: ds else d :: replaceKept k ds

/-- An item kept in the offer order: one of a replaceable kind replaces an older item of its kind and owner; of the other kinds at
most 4 are kept and a fifth is dropped (R167). -/
def Station.keep (x : Station) (k : KeptItem) : Station :=
  if k.cmd.replaceable then
    if x.offer.any k.yields then { x with offer := replaceKept k x.offer } else { x with offer := x.offer ++ [k] }
  else if (x.offer.filter (fun d => !d.cmd.replaceable)).length < 4 then { x with offer := x.offer ++ [k] }
  else x

/-- A TASK is kept and not offered while transport is halted (R147, R154). -/
def Cmd.heldBack (halted : Bool) : Cmd → Bool
  | .task .. => halted
  | _ => false

/-- A command placed for a station by its owner: not when the same waits already, whoever keeps it (R166); at the end of the out-list
while it has room, and kept otherwise, or when a kept item is there to be replaced by it (R167). -/
def Station.placed (x : Station) (halted : Bool) (k : KeptItem) : Station :=
  if x.out.contains k.cmd || x.offer.any (·.cmd == k.cmd) then x
  else if x.out.length < Config.outList && !k.cmd.heldBack halted && !x.offer.any k.yields then { x with out := x.out ++ [k.cmd] }
  else x.keep k

/-- A command placed at an address by its owner; with no live record it is dropped (R166). -/
def State.sendKept (s : State) (addr : Nat) (k : KeptItem) : State := s.modStation addr (·.placed s.halted k)

/-- A command placed at an address by the block its kind belongs to. -/
def State.send (s : State) (addr : Nat) (c : Cmd) : State := s.sendKept addr ⟨c.owner, c⟩

/-- The station whose role is VEHICLE n (R140). -/
def State.vehicleStation (s : State) (n : Nat) : Option Nat := s.stations.first fun _ x => x.role == .vehicle n

/-- A command placed for a vehicle by its owner. -/
def State.sendVehicleKept (s : State) (n : Nat) (k : KeptItem) : State :=
  match s.vehicleStation n with
  | none => s
  | some a => s.sendKept a k

/-- A command placed for a vehicle by the block its kind belongs to. -/
def State.sendVehicle (s : State) (n : Nat) (c : Cmd) : State := s.sendVehicleKept n ⟨c.owner, c⟩

/-- Kept items taken from the front of the offer order onto the out-list while it has room, a kept TASK passed over while
transport is halted (R167). The number bounds the items looked at. -/
def offerKept (halted : Bool) : Nat → List Cmd → List KeptItem → List Cmd × List KeptItem
  | 0, out, offer => (out, offer)
  | _, out, [] => (out, [])
  | n + 1, out, k :: ks =>
    if out.length < Config.outList then
      if k.cmd.heldBack halted then
        let r := offerKept halted n out ks
        (r.1, k :: r.2)
      else offerKept halted n (out ++ [k.cmd]) ks
    else (out, k :: ks)

/-! ## Roll references and tags -/

/-- The live roll that carries a tag. -/
def State.rollByTag (s : State) (t : Tag) : Option Nat := s.rolls.first fun _ r => r.tag == t

/-- The live roll a reference names. -/
def State.resolve (s : State) : RollRef → Option (Nat × Roll)
  | .byTag t => (s.rollByTag t).bind fun n => (s.roll n).map fun r => (n, r)
  | .byRecord n => (s.roll n).map fun r => (n, r)

/-! ## Lines, stands and jobs -/

/-- The line a stand belongs to, with its position (R49). -/
def State.positionOf (s : State) (st : Nat) : Option (Nat × Position) :=
  (span 1 Config.lines).findSome? fun l => ((s.line l).live.positions.find? (·.stand == st)).map fun p => (l, p)

/-- The line a stand belongs to. -/
def State.lineOf (s : State) (st : Nat) : Option Nat := (s.positionOf st).map Prod.fst

/-- The stands of a line's live plan, in the order of its positions. -/
def State.standsOf (s : State) (l : Nat) : List Nat := (s.line l).live.positions.map Position.stand

/-- A line's live job (R103). -/
def State.liveJob (s : State) (l : Nat) : Option Nat := s.jobs.first fun _ j => j.state == .live && j.line == l

/-! ## Guards of the commands -/

/-- The part takes events: main power is present and it is not in standby (R180, R183). -/
def State.awake (s : State) : Bool := s.powered && s.standby != .standby

/-- A step that is taken begins with no output driven by it yet. -/
def State.fresh (s : State) : State := { s with shifted := [], lineOut := [], edges := [], passDue := false }

end Sys2Proof.Machine
end

