-- ==== Sys2Proof/Machine/Flags.lean ====
section
/-! DEFINITION. What the part shows without storing it: READY, ATTN, TOP and BURIED, the reserved height, and which grades,
segments, nodes and routes are in use. -/

namespace Sys2Proof.Machine

/-- READY is asserted exactly in ANSWER (R170). -/
def State.ready (s : State) : Bool := s.port.state == .answer

/-- ATTN is asserted while at least one entry is present (R174). -/
def State.attention (s : State) : Bool := !s.attn.isEmpty

/-- The top roll of a bay (R30). -/
def State.top (s : State) (b : Nat) : Option Nat := (s.bay b).stack.getLast?

/-- The bay a roll lies in. -/
def Roll.bay (r : Roll) : Option Nat :=
  match r.loc with
  | .bay b _ => some b
  | _ => none

/-- The node a roll is at. -/
def Roll.node (r : Roll) : Option Nat :=
  match r.loc with
  | .node n => some n
  | _ => none

/-- A roll in a bay is the top roll (R20). -/
def State.isTop (s : State) (n : Nat) (r : Roll) : Bool :=
  match r.bay with
  | some b => s.top b == some n
  | none => false

/-- A roll in a bay has a roll above it (R20). -/
def State.isBuried (s : State) (n : Nat) (r : Roll) : Bool := r.bay.isSome && !s.isTop n r

/-- A transfer is in progress at the bay a roll lies in (R22, R177). -/
def State.transferAt (s : State) (r : Roll) : Bool :=
  match r.bay with
  | some b => (s.bay b).mark.isSome
  | none => false

/-- The orders that have a bay as their destination; a FAILED order keeps none (R31, R37). -/
def State.putAways (s : State) (b : Nat) : List Nat :=
  (s.orders.filter fun e => e.2.dest == some (.bay b) && e.2.state != .failed).map Prod.fst

/-- A bay's reserved height (R31). -/
def State.reservedHeight (s : State) (b : Nat) : Nat := (s.putAways b).length

/-- A bay's effective height (R31). -/
def State.effectiveHeight (s : State) (b : Nat) : Nat := (s.bay b).stack.length + s.reservedHeight b

/-- A bay is open to selection and put-away: configured, unheld, without a transfer mark (R32, R35, R36). -/
def Bay.open_ (b : Bay) : Bool := decide (1 ≤ b.limit) && b.hold.isNone && b.mark.isNone

/-- A bay sensor station whose range holds a bay, with its address (2.6). -/
def State.sensorOf (s : State) (b : Nat) : Option Nat :=
  s.stations.first fun _ x =>
    match x.role with
    | .bayNode first count => decide (first ≤ b ∧ b < first + count)
    | _ => false

/-- A grade is configured (R45). -/
def Grade.configured (g : Grade) : Bool := g.caliper != 0

/-- A grade is in use (R45). -/
def State.gradeInUse (s : State) (g : Nat) : Bool :=
  s.rolls.any (·.2.grade == g) ||
  ((span 1 Config.lines).any fun l =>
    (s.line l).live.positions.any (·.grade == g) || ((s.line l).pending && (s.line l).working.positions.any (·.grade == g))) ||
  s.orders.any fun e => e.2.kind == .callOff && e.2.grade == some g

/-- A stand appears in another line's pending changeover (R51, R53). -/
def State.standPendingElsewhere (s : State) (l st : Nat) : Bool :=
  (span 1 Config.lines).any fun m => m != l && (s.line m).pending && (s.line m).working.positions.any (·.stand == st)

/-- A stand belongs to another line (R51, R53). -/
def State.standElsewhere (s : State) (l st : Nat) : Bool :=
  (span 1 Config.lines).any fun m => m != l && (s.line m).live.positions.any (·.stand == st)

/-- A vehicle is in service (R140). -/
def Vehicle.inService (v : Vehicle) : Bool := v.state != .outOfService

/-- The in-service vehicles. -/
def State.inServiceCount (s : State) : Nat := ((span 1 Config.vehicles).filter fun n => (s.vehicle n).inService).length

/-- A segment is a LOOP segment. -/
def Segment.isLoop (g : Segment) : Bool :=
  match g.kind with
  | some (.loop _) => true
  | _ => false

/-- The LOOP segments. -/
def State.loopCount (s : State) : Nat := ((span 1 Config.segments).filter fun n => (s.segment n).isLoop).length

/-- Another configured segment names a segment as next segment or branch-from (R142). -/
def State.segmentNamed (s : State) (n : Nat) : Bool :=
  s.segments.any fun e => e.1 != n &&
    match e.2.kind with
    | some (.loop next) => next == n
    | some (.siding branch next) => branch == n || next == n
    | none => false

/-- A segment is in use (R142). -/
def State.segmentInUse (s : State) (n : Nat) : Bool :=
  (s.segment n).holder.isSome || !(s.segment n).waiters.isEmpty || s.nodes.any (·.2.seg == n) || s.routes.any (·.2.segs.contains n)

/-- An order names a node as its source, destination or named destination (R142). -/
def Order.namesNode (o : Order) (n : Nat) : Bool :=
  o.source == some (.node n) || o.dest == some (.node n) || o.namedDest == some (.node n)

/-- A node is in use (R142). -/
def State.nodeInUse (s : State) (n : Nat) : Bool :=
  s.routes.any (fun e => e.2.src == n || e.2.dst == n) ||
  s.bays.any (·.2.aisle == some n) ||
  s.stands.any (·.2.loading == some n) ||
  s.stations.any (·.2.role == .dockReader n) ||
  s.vehicles.any (fun e => e.2.inService && e.2.pos == some (.node n)) ||
  s.rolls.any (fun e => e.2.state == .announced && e.2.loc == .node n) ||
  s.orders.any (·.2.namesNode n)

/-- A route is in use (R142). -/
def State.routeInUse (s : State) (n : Nat) : Bool :=
  s.vehicles.any fun e => e.2.leg.any (·.route == n) || e.2.nextRoute == some n

/-- A command is a target notice of a line. -/
def Cmd.isTarget (l : Nat) : Cmd → Bool
  | .target line _ _ => line == l
  | _ => false

/-- The target notices kept for a line: the TARGET items its consoles' offer orders hold (R116, R167). -/
def State.targetNotices (s : State) (l : Nat) : List (Nat × Cmd) :=
  s.stations.flatMap fun e => (e.2.offer.filter (·.cmd.isTarget l)).map fun k => (e.1, k.cmd)

end Sys2Proof.Machine
end

