-- ==== Sys2Proof/Machine/Moves.lean ====
section
/-! DEFINITION. The moves of a roll (R4 to R8): each changes the roll, its place at both ends and the order's roll link together. -/

namespace Sys2Proof.Machine

/-- Rolls of a stack given the levels from one on, upward (R30). -/
def State.relevel (b : Nat) : Nat → List Nat → State → State
  | _, [], s => s
  | i, r :: rs, s => State.relevel b (i + 1) rs (s.modRoll r ({ · with loc := .bay b i }))

/-- An entry leaves a bay's stack: the entries above it move down, and the bay has gained room (R30, R34). -/
def State.leaveBay (s : State) (b n : Nat) : State :=
  let stack := (s.bay b).stack.erase n
  (State.relevel b 1 stack (s.modBay b ({ · with stack := stack }))).notice

/-- A roll joins a bay's stack at the top, STORED (R30). -/
def State.joinBay (s : State) (b n : Nat) : State :=
  let level := (s.bay b).stack.length + 1
  ((s.modBay b fun x => { x with stack := x.stack ++ [n] }).modRoll n
    ({ · with state := .stored, loc := .bay b level, mount := none, job := none })).notice

/-- An arm becomes EMPTY and loses its roll link (R81). -/
def State.emptyArm (s : State) (st : Nat) (a : Arm) : State :=
  s.setArm st a { (s.stand st).arm a with state := .empty, roll := none }

/-- A roll removed from the place its record names (R23, R25). -/
def State.removeFromPlace (s : State) (n : Nat) (r : Roll) : State :=
  match r.loc with
  | .node _ => s
  | .bay b _ => s.leaveBay b n
  | .vehicle v => s.modVehicle v ({ · with load := none })
  | .arm st a => s.emptyArm st a

/-- Link (R6): an ANNOUNCED roll takes its order. -/
def State.link (s : State) (n o : Nat) : State :=
  (s.modRoll n ({ · with order := some o })).modOrder o ({ · with roll := some n })

/-- Unlink (R6): the order link of an ANNOUNCED or STORED roll is removed on both sides. -/
def State.unlink (s : State) (n o : Nat) : State :=
  (s.modRoll n ({ · with order := none })).modOrder o ({ · with roll := none })

/-- Reserve (R6): a STORED top roll becomes RESERVED by an order. -/
def State.reserve (s : State) (n o : Nat) : State :=
  (s.modRoll n ({ · with state := .reserved, order := some o, hold := none })).modOrder o ({ · with roll := some n, named := none })

/-- Release (R6): a RESERVED roll becomes STORED; its bay is available again (R34). -/
def State.release (s : State) (n o : Nat) : State :=
  ((s.modRoll n ({ · with state := .stored, order := none })).modOrder o ({ · with roll := none })).notice

/-- Load from bay (R6): the RESERVED top roll goes onto the vehicle, when the from-end holds it. -/
def State.loadFromBay (s : State) (n b v o : Nat) : Option State :=
  match s.roll n with
  | some r =>
    if r.state = .reserved ∧ r.bay = some b ∧ s.top b = some n ∧ r.order = some o ∧ (s.vehicle v).load = none then
      some (((s.leaveBay b n).modRoll n ({ · with state := .inTransit, loc := .vehicle v, mount := none, job := none })).modVehicle v
        ({ · with load := some n }))
    else none
  | none => none

/-- Load from node (R6): an ANNOUNCED roll goes onto the vehicle, when the from-end holds it. -/
def State.loadFromNode (s : State) (n x v o : Nat) : Option State :=
  match s.roll n with
  | some r =>
    if r.state = .announced ∧ r.loc = .node x ∧ r.order = some o ∧ (s.vehicle v).load = none then
      some ((s.modRoll n ({ · with state := .inTransit, loc := .vehicle v, mount := none, job := none })).modVehicle v
        ({ · with load := some n }))
    else none
  | none => none

/-- The from-end of an unload: the roll is IN_TRANSIT, the load of the vehicle, linked by the order (R5, R6). -/
def State.carries (s : State) (n v o : Nat) : Bool :=
  match s.roll n with
  | some r => r.state == .inTransit && r.loc == .vehicle v && r.order == some o && (s.vehicle v).load == some n
  | none => false

/-- A carried roll leaves its vehicle and its order. -/
def State.offVehicle (s : State) (n v : Nat) : State :=
  (s.modVehicle v ({ · with load := none })).modRoll n ({ · with order := none })

/-- Unload into bay (R6, R39): the roll joins the stack, when the from-end holds and the bay, the order's destination, has room. -/
def State.unloadIntoBay (s : State) (n b v o : Nat) : Option State :=
  if s.carries n v o ∧ (s.bay b).stack.length < (s.bay b).limit then some ((s.offVehicle n v).joinBay b n) else none

/-- Unload at node (R6): the roll is ANNOUNCED at the node, when the from-end holds. -/
def State.unloadAtNode (s : State) (n x v o : Nat) : Option State :=
  if s.carries n v o then
    some ((s.offVehicle n v).modRoll n ({ · with state := .announced, loc := .node x, mount := none, job := none }))
  else none

/-- A roll linked by an arm, STAGED (R6, R25, R81). -/
def State.stage (s : State) (n st : Nat) (a : Arm) : State :=
  (s.setArm st a { (s.stand st).arm a with state := .staged, roll := some n }).modRoll n
    ({ · with state := .staged, loc := .arm st a, mount := none, job := none })

/-- Unload at arm (R6, R93): the roll is STAGED at the arm. -/
def State.unloadAtArm (s : State) (n st : Nat) (a : Arm) (v : Nat) : State := (s.offVehicle n v).stage n st a

/-- Prepare (R6, R94): a STAGED roll becomes READY at the diameter after strip, consumed 0. -/
def State.prepare (s : State) (n st : Nat) (a : Arm) (after : Nat) : State :=
  (s.modRoll n ({ · with state := .ready, diameter := after, mount := some after, consumed := 0, job := none, hold := none })).setArm st a
    { (s.stand st).arm a with state := .ready }

/-- Start (R6, R83, R89): a READY roll becomes RUNNING under a job. -/
def State.startMove (s : State) (n st : Nat) (a : Arm) (job : Option Nat) : State :=
  (s.modRoll n ({ · with state := .running, job := job, hold := none })).setArm st a { (s.stand st).arm a with state := .active }

/-- Expire (R6, R89): the RUNNING roll becomes a STUB at D_f. -/
def State.expire (s : State) (n st : Nat) (a : Arm) (df : Option Nat) : State :=
  (s.modRoll n fun r => { r with state := .stub, diameter := df.getD r.diameter }).setArm st a
    { (s.stand st).arm a with state := .expired }

/-- Stub return (R6, R95): the stub is ANNOUNCED at the loading node, partial, linked to its RETURN order. -/
def State.stubReturn (s : State) (n st : Nat) (a : Arm) (x : Nat) (measured : Option Nat) (o : Nat) : State :=
  (s.emptyArm st a).modRoll n fun r =>
    { r with state := .announced, loc := .node x, returned := true, diameter := measured.getD r.diameter, mount := none, job := none,
             order := some o }

/-- A roll's record freed after it has left its place (R23, R24). -/
def State.retireRecord (s : State) (n : Nat) (r : Roll) : State := (s.removeFromPlace n r).putRoll n none

/-- Fail in place (R6, R17): the roll stays where it is, held DISCREPANCY if it carried no hold, its order kept. A RESERVED roll becomes
STORED, which leads to a pass (R129). -/
def State.failInPlace (s : State) (n : Nat) : State :=
  match s.roll n with
  | none => s
  | some r =>
    let t := s.putRoll n (some { r with
      state := if r.state = .reserved then .stored else r.state, hold := some (r.hold.getD .discrepancy) })
    if r.state = .reserved then t.notice else t

/-- Hold DISCREPANCY on a roll that carries no hold (R17). -/
def State.holdDiscrepancy (s : State) (n : Nat) : State := s.modRoll n fun r => { r with hold := some (r.hold.getD .discrepancy) }

end Sys2Proof.Machine
end

