-- ==== Sys2Proof/Machine/Store.lean ====
section
/-! DEFINITION. The Store Map's choices: selection of a roll (R32, R33), put-away (R35, R36), admission of a transfer (R39), and
the transfer marks (R38). -/

namespace Sys2Proof.Machine

/-- A roll is selectable where it lies (R33): the top entry of an open bay with reserved height 0, STORED, unheld, unlinked. -/
def State.selectable (s : State) (n : Nat) : Bool :=
  match s.roll n with
  | some r =>
    match r.bay with
    | some b =>
      s.top b == some n && (s.bay b).open_ && s.reservedHeight b == 0 && r.state == .stored && r.hold.isNone && r.order.isNone
    | none => false
  | none => false

/-- A roll is a candidate for a CALL_OFF of a grade and width (R32). -/
def State.candidate (s : State) (grade width n : Nat) : Bool :=
  s.selectable n && (match s.roll n with
    | some r => r.grade == grade && r.width == width
    | none => false)

/-- The arrival number of a roll. -/
def State.arrivalOf (s : State) (n : Nat) : Nat :=
  match s.roll n with
  | some r => r.arrival
  | none => 0

/-- The number of least value, the first such in the list. -/
def leastBy (f : Nat → Nat) : List Nat → Option Nat
  | [] => none
  | n :: ns =>
    match leastBy f ns with
    | none => some n
    | some m => if f m < f n then some m else some n

/-- The roll selected for a CALL_OFF: the candidate of lowest arrival number (R32). -/
def State.selectRoll (s : State) (grade width : Nat) : Option Nat :=
  leastBy s.arrivalOf (s.rolls.keys.filter (s.candidate grade width))

/-- The first step of put-away: an open bay whose top roll is of the grade and width, unheld and not RESERVED, with room (R35). -/
def State.matchingStack (s : State) (grade width b : Nat) : Bool :=
  (s.bay b).open_ && decide (s.effectiveHeight b < (s.bay b).limit) &&
    match (s.top b).bind s.roll with
    | some r => r.grade == grade && r.width == width && r.hold.isNone && r.state != .reserved
    | none => false

/-- The second step of put-away: an open empty bay with reserved height 0 (R35). -/
def State.emptyBay (s : State) (b : Nat) : Bool := (s.bay b).open_ && (s.bay b).stack.isEmpty && s.reservedHeight b == 0

/-- The bay chosen for a STORE or RETURN (R35). -/
def State.chooseBay (s : State) (grade width : Nat) : Option Nat :=
  match (span 1 Config.bays).find? (s.matchingStack grade width) with
  | some b => some b
  | none => (span 1 Config.bays).find? s.emptyBay

/-- A MOVE's named bay is admitted (R36). -/
def State.admitsMove (s : State) (b : Nat) : Bool :=
  (s.bay b).open_ && decide (s.effectiveHeight b < (s.bay b).limit) &&
    match (s.top b).bind s.roll with
    | some r => r.state != .reserved
    | none => true

/-- A bay admits the loading of an order's roll (R39). -/
def State.admitsLoading (s : State) (b n o : Nat) : Bool :=
  s.top b == some n && (match s.roll n with
    | some r => r.state == .reserved && r.order == some o
    | none => false) &&
  (s.bay b).mark.isNone && (s.bay b).hold != some .discrepancy

/-- A bay, the order's destination, admits an unloading (R39). -/
def State.admitsUnloading (s : State) (b : Nat) : Bool :=
  decide ((s.bay b).stack.length < (s.bay b).limit) && (s.bay b).mark.isNone && (s.bay b).hold != some .discrepancy

/-- A bay's transfer mark set to a vehicle (R38). -/
def State.setMark (s : State) (b v : Nat) : State := s.modBay b ({ · with mark := some v })

/-- Every transfer mark a vehicle set is removed, with the availability notice (R34, R38). -/
def State.clearMarks (s : State) (v : Nat) : State :=
  s.each ((s.bays.filter (·.2.mark == some v)).map Prod.fst) fun b s => (s.modBay b ({ · with mark := none })).notice

/-- What R41 expects of a height while a vehicle transfers at the bay: one less when it is LOADING, one more when UNLOADING. -/
def State.transferHeight (s : State) (b : Nat) : Option Nat :=
  match (s.bay b).mark with
  | none => none
  | some v =>
    match (s.vehicle v).state with
    | .loading => some ((s.bay b).stack.length - 1)
    | .unloading => some ((s.bay b).stack.length + 1)
    | _ => none

/-- A reported height matches (R41). -/
def State.heightMatches (s : State) (b h : Nat) : Bool :=
  h == (s.bay b).stack.length || ((s.transferHeight b == some h) && (s.bay b).mark.isSome)

end Sys2Proof.Machine
end

