-- ==== Sys2Proof/Machine/Track.lean ====
section
/-! DEFINITION. Routes, the progress and transfer timers, the release and grant of segments, stalls, and the TASK command. -/

namespace Sys2Proof.Machine

/-! ## Routes -/

/-- The route from a to b: the route record with that pair (R141). -/
def State.routeBetween (s : State) (a b : Nat) : Option Nat := s.routes.first fun _ r => r.src == a && r.dst == b

/-- A way from a to b: no route is needed when they are the same node. -/
def State.wayBetween (s : State) (a b : Nat) : Option (Option Nat) :=
  if a = b then some none else (s.routeBetween a b).map some

/-- The node a source names: a bay's aisle node, or the node (R120). -/
def State.sourceNode (s : State) : Source → Option Nat
  | .node n => some n
  | .bay b => (s.bay b).aisle

/-- The node a destination names: a bay's aisle node, a stand's loading node, or the node (R120). -/
def State.destNode (s : State) : Dest → Option Nat
  | .bay b => (s.bay b).aisle
  | .arm st _ => (s.stand st).loading
  | .node n => some n

/-- The pickup of an order (R120). -/
def State.pickup (s : State) (o : Order) : Option Nat := o.source.bind s.sourceNode

/-- The drop of an order (R120). -/
def State.drop (s : State) (o : Order) : Option Nat := o.dest.bind s.destNode

/-- The node at which a roll that is to be fetched lies. -/
def State.rollNode (s : State) (n : Nat) : Option Nat :=
  match s.roll n with
  | some r =>
    match r.loc with
    | .node x => some x
    | .bay b _ => (s.bay b).aisle
    | _ => none
  | none => none

/-- The node a vehicle stands at. -/
def Vehicle.standsAt (v : Vehicle) : Option Nat :=
  match v.pos with
  | some (.node n) => some n
  | _ => none

/-- The node a vehicle reaches next: the to node of its route in progress, else the node it stands at (R147). -/
def State.reaches (s : State) (v : Vehicle) : Option Nat :=
  match v.leg with
  | some l => (s.route l.route).map Route.dst
  | none => v.standsAt

/-! ## Timers -/

/-- A timer started at a number of seconds: suspended at once while transport is halted (R151, R152, R154). -/
def State.started (s : State) (seconds : Nat) : Timer :=
  if s.halted then .suspended (seconds * 1000000) else .running (seconds * 1000000)

/-- The vehicle waits with its load for a drop: TO_DROP, no route, and its order has no drop or no route to it (R130, R147). -/
def State.waitsForDrop (s : State) (v : Vehicle) : Bool :=
  v.state == .toDrop && v.leg.isNone && (match v.order.bind s.order with
    | some o => o.dest.isNone || o.noRoute
    | none => false)

/-- A vehicle's progress timer runs (R151). -/
def State.progressRuns (s : State) (v : Vehicle) : Bool :=
  (v.state == .toPickup || v.state == .toDrop) && v.waiting.isNone && !s.waitsForDrop v

/-- The progress timer restarted at the progress timeout, or stopped where R151 stops it. -/
def State.restartProgress (s : State) (n : Nat) : State :=
  s.modVehicle n fun v => { v with progress := if s.progressRuns v then s.started s.progressTimeout else .stopped }

/-- The progress timer brought into agreement with R151 without restarting one that runs. -/
def State.syncProgress (s : State) (n : Nat) : State :=
  if s.progressRuns (s.vehicle n) && (s.vehicle n).progress != .stopped then s else s.restartProgress n

/-- The time a running timer has left. -/
def Timer.left : Timer → Option Nat
  | .running l => some l
  | .suspended _ | .stopped => none

/-- A timer suspended with its time left (R154). -/
def Timer.suspend : Timer → Timer
  | .running l => .suspended l
  | t => t

/-- A suspended timer runs on (R154). -/
def Timer.resume : Timer → Timer
  | .suspended l => .running l
  | t => t

/-! ## Segments -/

/-- A held segment released; the head of its waiting list becomes holder and is sent GRANT (R144). -/
def State.releaseSegment (s : State) (g : Nat) : State :=
  match (s.segment g).waiters with
  | [] => s.modSegment g ({ · with holder := none })
  | w :: ws =>
    (((s.modSegment g ({ · with holder := some w, waiters := ws })).modVehicle w
      fun v => { v with held := v.held ++ [g], waiting := none }).sendVehicle w (.grant g)).syncProgress w

/-- A vehicle leaves the waiting list it stands in. -/
def State.leaveList (s : State) (n : Nat) : State :=
  match (s.vehicle n).waiting with
  | none => s
  | some g => (s.modSegment g fun x => { x with waiters := x.waiters.erase n }).modVehicle n ({ · with waiting := none })

/-- A vehicle's held segments but those kept are released (R146, R148). -/
def State.releaseHeld (s : State) (n : Nat) (kept : Nat → Bool) : State :=
  let held := (s.vehicle n).held
  State.each (held.filter (!kept ·)) (fun g s => s.releaseSegment g) (s.modVehicle n ({ · with held := held.filter kept }))

/-- A vehicle enters IDLE at a node (R148). -/
def State.enterIdle (s : State) (n x : Nat) : State :=
  let seg := ((s.node x).map Node.seg).getD 0
  ((((s.leaveList n).releaseHeld n (· == seg)).clearMarks n).modVehicle n fun v =>
    { v with state := .idle, prev := none, cause := none, pos := some (.node x), leg := none, nextRoute := none,
             progress := .stopped, transfer := .stopped, docked := 0 }).notice

/-- A vehicle stalls; one that is STALLED already keeps its cause and previous state (R153). -/
def State.stall (s : State) (n : Nat) (c : StallCause) (prev : Option VState) : State :=
  let v := s.vehicle n
  if v.state = .stalled ∨ v.state = .outOfService then s
  else
    ((s.clearMarks n).modVehicle n fun v =>
      { v with state := .stalled, prev := some (prev.getD v.state), cause := some c, progress := .stopped, transfer := .stopped,
               docked := 0 }).raise .vehicleStalled n

/-- A vehicle's order link removed by a withdrawal; a stalled vehicle's previous state becomes IDLE (R132, R153). -/
def State.unlinkVehicle (s : State) (n : Nat) : State :=
  s.modVehicle n fun v => { v with order := none, prev := if v.state = .stalled then some .idle else v.prev }

/-! ## TASK -/

/-- The state a vehicle is in, or was in before it stalled. -/
def Vehicle.leadState (v : Vehicle) : VState := if v.state = .stalled then v.prev.getD .stalled else v.state

/-- The TASK that tells a vehicle its order as the records stand (R129, R145, R147, R148). Before the load it names the route to the
pickup and the route from pickup to drop; after it, the route to the drop with the node that route leaves from, and without such a route
the node the vehicle reaches next. -/
def State.taskFor (s : State) (n : Nat) (o : Order) (v : Vehicle) : Cmd :=
  let pickup := (s.pickup o).getD 0
  let drop := if o.noRoute then none else s.drop o
  if o.state = .carrying ∨ o.state = .unloading then
    let r := if drop.isSome then v.nextRoute.or (v.leg.map Leg.route) else none
    let base := (r.bind fun r => (s.route r).map Route.src).getD ((s.reaches v).getD pickup)
    .task n base drop none r
  else .task n pickup drop (v.leg.map Leg.route) (drop.bind (s.routeBetween pickup))

/-- An order's TASK placed for its vehicle; a vehicle out of service is sent nothing (R146). -/
def State.sendTask (s : State) (n : Nat) : State :=
  match s.order n with
  | some o =>
    match o.vehicle with
    | some v => if (s.vehicle v).inService then s.sendVehicle v (s.taskFor n o (s.vehicle v)) else s
    | none => s
  | none => s

/-- A carrying vehicle's way to a new drop: taken at once where it stands at a node with no route in progress, else its next route
(R147). Its progress timer starts if it waited. -/
def State.steer (s : State) (v : Nat) (way : Option Nat) : State :=
  (s.modVehicle v fun x =>
    if x.leg.isNone && x.standsAt.isSome then { x with leg := way.map (⟨·, 0⟩), nextRoute := none }
    else { x with nextRoute := way }).syncProgress v

end Sys2Proof.Machine
end

