-- ==== Sys2Proof/Machine/Orders.lean ====
section
/-! DEFINITION. Transport orders: creation (R121, R122), deadlines and urgency (R125, R126), the call-off condition (R92), the
withdrawal, conversion, failure and freeing of an order (R132 to R138), and the assignment pass (R124, R127 to R130). -/

namespace Sys2Proof.Machine

/-! ## Creation -/

/-- An order with the content every kind has at creation (R122); its place, number and sequence are given by createOrder. -/
def Order.pendingOf (kind : OrderKind) (requester : Requester) (cls : Class) : Order :=
  { place := 0, kind := kind, requester := requester, roll := none, named := none, source := none, dest := none, namedDest := none,
    grade := none, width := none, deadline := none, cls := cls, state := .pending, vehicle := none, seq := 0, noStock := false,
    noBay := false, noRoute := false, abort := false }

/-- An order record can be had: a place is free and the sequence counter has not reached its end (R121). -/
def State.orderFree (s : State) : Bool := decide (s.orders.length < Config.orderPlaces) && decide (s.orderSeq < Config.max32)

/-- The first number at or after the pointer, going from 255 to 1, that no live order carries (R121). -/
def State.nextOrderNumber (s : State) : Nat :=
  (((List.range 255).map fun i => (s.orderPointer + i - 1) % 255 + 1).find? fun n => !s.orders.keys.contains n).getD 1

/-- An order created PENDING, which leads to an assignment pass (R121, R122); none when no order record can be had. -/
def State.createOrder (s : State) (o : Order) : Option (Nat × State) :=
  if s.orderFree then
    let n := s.nextOrderNumber
    let place := (lowestFree Config.orderPlaces (s.orders.map fun e => e.2.place)).getD 1
    some (n, ({ s with orderPointer := n % 255 + 1, orderSeq := s.orderSeq + 1 }.putOrder n
      (some { o with place := place, seq := s.orderSeq + 1 })).notice)
  else none

/-- The STORE order of a roll announced at a node (R10, R12, R122). -/
def Order.store (node roll : Nat) : Order :=
  { Order.pendingOf .store (.node node) .store with roll := some roll, source := some (.node node) }

/-- The RETURN order of a stub (R95, R122). -/
def Order.stubReturn (st : Nat) (a : Arm) (node roll : Nat) : Order :=
  { Order.pendingOf .ret (.arm st a) .store with roll := some roll, source := some (.node node) }

/-! ## Deadlines and urgency -/

/-- A deadline is within the urgent margin (R126). -/
def State.urgentAt (s : State) (deadline : Option Nat) : Bool := deadline.any fun d => decide (d ≤ s.now + s.urgentMargin)

/-- An order becomes URGENT (R126): a PENDING one leads to a pass. -/
def State.makeUrgent (s : State) (n : Nat) : State :=
  match s.order n with
  | some o =>
    if o.kind = .callOff ∧ o.cls ≠ .urgent ∧ o.abort = false ∧ o.state ≠ .failed then
      let t := s.modOrder n ({ · with cls := .urgent })
      if o.state = .pending then t.notice else t
    else s
  | none => s

/-- The test of R126 on one order. -/
def State.testUrgent (s : State) (n : Nat) : State :=
  match s.order n with
  | some o => if s.urgentAt o.deadline then s.makeUrgent n else s
  | none => s

/-- The deadline of a CALL_OFF at a stand of a line (R125). -/
def State.deadlineAt (s : State) (l st : Nat) : Nat := max s.now (s.now + (s.stand st).ts - (s.line l).live.prep)

/-- A requester is an arm of a stand. -/
def Requester.atStand (st : Nat) : Requester → Bool
  | .arm t _ => t == st
  | _ => false

/-- The live orders that serve an arm of a stand as call-offs. -/
def State.callOffsOf (s : State) (st : Nat) : List Nat :=
  (s.orders.filter fun e => e.2.kind == .callOff && e.2.requester.atStand st && e.2.state != .failed).map Prod.fst

/-- The deadlines of a stand's call-offs recomputed, and tested for URGENT (R125, R126). -/
def State.recomputeDeadlines (s : State) (st : Nat) : State :=
  match s.lineOf st, (s.stand st).active with
  | some l, some _ =>
    s.each (s.callOffsOf st) fun n s =>
      match s.order n with
      | some o =>
        if o.state = .unloading ∨ o.abort then s
        else (s.modOrder n ({ · with deadline := some (s.deadlineAt l st) })).testUrgent n
      | none => s
  | _, _ => s

/-! ## Call-off (R92) -/

/-- The arm a call-off is to be created for, and its deadline: the arm beside an ACTIVE one when T_s is within the lead; arm A,
undated, of a stand with both arms EMPTY and unlinked (R92). -/
def State.callOffDue (s : State) (st : Nat) : Option (Arm × Option Nat × Position) :=
  match s.positionOf st with
  | none => none
  | some (l, p) =>
    let x := s.stand st
    if x.loading.isNone then none
    else
      match x.active with
      | some a =>
        let r := x.arm a.other
        if r.state = .empty ∧ r.callOff = none ∧ x.ts ≤ (s.line l).live.lead then some (a.other, some (s.deadlineAt l st), p) else none
      | none =>
        if x.armA.state = .empty ∧ x.armB.state = .empty ∧ x.armA.callOff = none ∧ x.armB.callOff = none then some (.A, none, p)
        else none

/-- An arm's call-off link written. -/
def State.setCallOff (s : State) (st : Nat) (a : Arm) (n : Option Nat) : State :=
  s.modStand st fun x => x.withArm a { x.arm a with callOff := n }

/-- The call-off condition of a stand evaluated: a CALL_OFF is created where it holds and an order record can be had (R92). -/
def State.evalCallOff (s : State) (st : Nat) : State :=
  match s.callOffDue st with
  | none => s
  | some (a, deadline, p) =>
    let o := Order.pendingOf .callOff (.arm st a) (if s.urgentAt deadline then .urgent else .callOff)
    match s.createOrder { o with dest := some (.arm st a), grade := some p.grade, width := some p.width, deadline := deadline } with
    | some (n, t) => t.setCallOff st a (some n)
    | none => s

/-- The stand a requester names. -/
def Requester.stand : Requester → Option Nat
  | .arm st _ => some st
  | _ => none

/-- The arm's call-off link to an order cleared (R92). -/
def State.clearLink (s : State) (n : Nat) (o : Order) : State :=
  match o.requester with
  | .arm st a => if ((s.stand st).arm a).callOff = some n then s.setCallOff st a none else s
  | _ => s

/-- The call-off condition of the requesting stand evaluated after a link was cleared (R92). -/
def State.reviewCallOff (s : State) (o : Order) : State :=
  match o.kind, o.requester.stand with
  | .callOff, some st => s.evalCallOff st
  | _, _ => s

/-! ## Withdrawal, freeing and failure -/

/-- A destination is a bay. -/
def Dest.isBay : Dest → Bool
  | .bay _ => true
  | _ => false

/-- A destination bay withdrawn from an order, with the availability notice (R34, R37). -/
def State.withdrawBay (s : State) (n : Nat) (o : Order) : State :=
  if o.dest.any Dest.isBay then (s.modOrder n ({ · with dest := none })).notice else s

/-- An order's roll released where it is RESERVED, and unlinked where it is not (R6). -/
def State.dropRoll (s : State) (n : Nat) (o : Order) : State :=
  match o.roll with
  | none => s
  | some r =>
    match s.roll r with
    | some x => if x.state = .reserved then s.release r n else s.unlink r n
    | none => s

/-- The Dispatch Unit's ABORT for the vehicle of an order, unless it is out of service (R132, R133, R146). -/
def State.abortVehicle (s : State) (n : Nat) (o : Order) : State :=
  match o.vehicle with
  | some v => if (s.vehicle v).inService then s.sendVehicleKept v ⟨.dsp, .abort n⟩ else s
  | none => s

/-- A vehicle's link to an order removed (R132, R153). -/
def State.freeVehicle (s : State) (n : Nat) (o : Order) : State :=
  match o.vehicle with
  | some v => if (s.vehicle v).order = some n then s.unlinkVehicle v else s
  | none => s

/-- An order freed: its reservation released or its roll unlinked, its destination bay withdrawn, its arm's link and its vehicle's
link removed, its number free again (R131, R133, R134, R138). -/
def State.freeOrder (s : State) (n : Nat) : State :=
  match s.order n with
  | none => s
  | some o => (((((s.dropRoll n o).withdrawBay n o).clearLink n o).freeVehicle n o).putOrder n none).reviewCallOff o

/-- An order fails (R137). -/
def State.failOrder (s : State) (n : Nat) : State :=
  match s.order n with
  | none => s
  | some o =>
    (((((s.withdrawBay n o).clearLink n o).freeVehicle n o).modOrder n fun x =>
      { x with state := .failed, noStock := false, noBay := false, noRoute := false, abort := false, deadline := none, dest := none }).raise
        .orderFailed n).reviewCallOff o

/-- The roll and source an order gives up at a return to PENDING that releases its reservation: a CALL_OFF selects afresh, and a
MOVE's roll becomes its named roll again (R132). -/
def State.giveUpReservation (s : State) (n : Nat) (o : Order) : State :=
  match o.roll with
  | none => s
  | some r =>
    match s.roll r with
    | some x =>
      if x.state = .reserved then
        (s.release r n).modOrder n fun y =>
          { y with source := if o.kind = .callOff then none else y.source,
                   named := if o.kind = .move then some (r, x.tag) else y.named }
      else s
    | none => s

/-- An order returns to PENDING (R132): at a confirmation or a re-targeting its reservation is released and its vehicle sent ABORT;
at SET_SERVICE OUT and a warm start the reservation is kept. -/
def State.returnToPending (s : State) (n : Nat) (keep : Bool) : State :=
  match s.order n with
  | none => s
  | some o =>
    let t := if keep then s else (s.abortVehicle n o).giveUpReservation n o
    (((t.freeVehicle n o).withdrawBay n o).modOrder n ({ · with state := .pending, vehicle := none })).notice

/-- An order takes the abort mark (R133). -/
def State.markAbort (s : State) (n : Nat) : State :=
  match s.order n with
  | none => s
  | some o =>
    (((((s.dropRoll n o).withdrawBay n o).clearLink n o).abortVehicle n o).modOrder n
      ({ · with abort := true })).reviewCallOff o

/-! ## Destinations chosen anew (R35, R36, R37, R130, R135) -/

/-- The destination the Store Map would give an order now: R36 for a MOVE, R35 for a STORE or RETURN; a CALL_OFF keeps its arm. A MOVE
that kept its reservation has its named bay admitted again, for R132 withdrew it (DESIGN CHOICE, notes/assumptions/13.md). -/
def State.choice (s : State) (o : Order) : Option Dest :=
  match o.kind with
  | .callOff => o.dest
  | .move =>
    match o.namedDest with
    | some (.bay b) => if s.admitsMove b then some (.bay b) else none
    | d => d
  | .store | .ret =>
    match o.dest with
    | some d => some d
    | none => (o.roll.bind s.roll).bind fun r => (s.chooseBay r.grade r.width).map .bay

/-- STORE_FULL raised for a STORE or RETURN without a bay, its subject the order's pickup node (R35, R127). -/
def State.storeFull (s : State) (o : Order) : State :=
  match o.kind with
  | .store | .ret => s.raise .storeFull ((s.pickup o).getD 0)
  | _ => s

/-- The order's roll is on its vehicle. -/
def Order.carried (o : Order) : Bool := o.state == .carrying || o.state == .unloading

/-- The node from which an order's vehicle goes to the drop: the pickup until the roll is loaded, then the node the vehicle reaches
next (R130, R147). -/
def State.baseNode (s : State) (o : Order) (v : Nat) : Option Nat := if o.carried then s.reaches (s.vehicle v) else s.pickup o

/-- A way from an order's base node to a destination. -/
def State.wayTo (s : State) (o : Order) (v : Nat) (d : Dest) : Option (Option Nat) :=
  match s.baseNode o v, s.destNode d with
  | some a, some b => s.wayBetween a b
  | _, _ => none

/-- A vehicle told its order's new drop (R130, R147): with the roll on board it takes the way to it from the node it reaches next, which
the new TASK names with that way; before the load it is sent the TASK as the records stand. -/
def State.newDrop (s : State) (v n : Nat) (o : Order) (way : Option Nat) : State :=
  if o.carried then
    (s.steer v way).sendVehicle v (.task n ((s.reaches (s.vehicle v)).getD ((s.pickup o).getD 0))
      (((s.order n).filter (!·.noRoute)).bind s.drop) none way)
  else s.sendTask n

/-- An order that has lost its destination is given a new one: with a bay and a way to it the destination is written, its flags are
cleared and its vehicle is sent the new TASK; else it is marked NO_BAY or NO_ROUTE and the TASK names no drop (R37, R130, R135). An
order with no vehicle in service takes the destination alone. -/
def State.redirect (s : State) (n : Nat) : State :=
  match s.order n with
  | none => s
  | some o =>
    match o.vehicle.filter fun v => (s.vehicle v).inService with
    | none =>
      match s.choice o with
      | some d => s.modOrder n ({ · with dest := some d, noBay := false })
      | none => (s.modOrder n ({ · with noBay := true })).storeFull o
    | some v =>
      match s.choice o with
      | none => ((s.modOrder n ({ · with noBay := true, noRoute := false })).storeFull o).newDrop v n o none
      | some d =>
        match s.wayTo o v d with
        | none => (s.modOrder n ({ · with noBay := false, noRoute := true })).newDrop v n o none
        | some way => (s.modOrder n ({ · with dest := some d, noBay := false, noRoute := false })).newDrop v n o way

/-- An order that carries its roll becomes a RETURN with a new put-away bay (R135). -/
def State.convert (s : State) (n : Nat) : State :=
  match s.order n with
  | none => s
  | some o =>
    ((((s.withdrawBay n o).clearLink n o).modOrder n fun x =>
      { x with kind := .ret, cls := .store, deadline := none, grade := none, width := none, named := none, namedDest := none,
               dest := none, noStock := false, noBay := false, noRoute := false, state := .carrying }).redirect n)

/-! ## Ranking (R124) -/

/-- A class's place in the queue. -/
def Class.rank : Class → Nat
  | .urgent => 0
  | .callOff => 1
  | .plant => 2
  | .store => 3

/-- One deadline ranks before another; no deadline comes last. -/
def deadlineBefore : Option Nat → Option Nat → Bool
  | some a, some b => decide (a < b)
  | some _, none => true
  | none, _ => false

/-- One order ranks before another (R124). -/
def Order.before (a b : Order) : Bool :=
  decide (a.cls.rank < b.cls.rank) ||
  (a.cls.rank == b.cls.rank && (deadlineBefore a.deadline b.deadline ||
    (a.deadline == b.deadline && decide (a.seq < b.seq))))

/-- A numbered order put into a ranked list. -/
def rankIn (lt : Order → Order → Bool) (e : Nat × Order) : List (Nat × Order) → List (Nat × Order)
  | [] => [e]
  | d :: ds => if lt e.2 d.2 then e :: d :: ds else d :: rankIn lt e ds

/-- Numbered orders ranked. -/
def ranked (lt : Order → Order → Bool) (l : List (Nat × Order)) : List (Nat × Order) := l.foldr (rankIn lt) []

/-- The dispatch queue: the PENDING orders without the abort mark, in rank order (R124). -/
def State.queue (s : State) : List Nat :=
  (ranked Order.before (s.orders.filter fun e => e.2.state == .pending && !e.2.abort)).map Prod.fst

/-! ## The assignment pass (R127 to R130) -/

/-- The roll an order would fetch (R127). -/
def State.rollToFetch (s : State) (o : Order) : Option Nat :=
  match o.roll with
  | some r =>
    match s.roll r with
    | none => none
    | some x =>
      if x.state = .reserved then
        match x.bay with
        | some b => if s.top b = some r ∧ (s.bay b).hold = none ∧ (s.bay b).mark = none then some r else none
        | none => none
      else some r
  | none =>
    match o.kind with
    | .callOff => s.selectRoll (o.grade.getD 0) (o.width.getD 0)
    | .move => o.named.bind fun e => if s.selectable e.1 then some e.1 else none
    | _ => none

/-- A MOVE's named roll is gone: no longer live, live with another tag, or no longer in a bay (R127, R137). -/
def State.namedGone (s : State) (o : Order) : Bool :=
  o.kind == .move && o.roll.isNone &&
    match o.named with
    | none => true
    | some (r, t) =>
      match s.roll r with
      | none => true
      | some x => x.tag != t || x.bay.isNone

/-- The pickup node of an order that fetches a roll (R120, R127). -/
def State.pickupFor (s : State) (o : Order) (r : Nat) : Option Nat :=
  match o.kind with
  | .store | .ret => s.pickup o
  | _ => s.rollNode r

/-- Where an order's roll lies, as a source (R129). -/
def State.sourceFor (s : State) (o : Order) (r : Nat) : Option Source :=
  match o.kind with
  | .store | .ret => o.source
  | _ =>
    match (s.roll r).map Roll.loc with
    | some (.bay b _) => some (.bay b)
    | some (.node x) => some (.node x)
    | _ => o.source

/-- A vehicle is eligible for a pickup (R128). -/
def State.eligible (s : State) (pickup v : Nat) : Bool :=
  let x := s.vehicle v
  x.state == .idle && x.order.isNone && x.load.isNone &&
    match x.standsAt with
    | some a => (s.wayBetween a pickup).isSome
    | none => false

/-- A vehicle's travel time to a pickup (R128). -/
def State.travel (s : State) (pickup v : Nat) : Nat :=
  match (s.vehicle v).standsAt with
  | some a => if a = pickup then 0 else (((s.routeBetween a pickup).bind s.route).map Route.time).getD 0
  | none => 0

/-- The vehicle an order is paired with: least travel time, then lowest number (R128). -/
def State.nearest (s : State) (pickup : Nat) : Option Nat :=
  leastBy (s.travel pickup) ((span 1 Config.vehicles).filter (s.eligible pickup))

/-- An order paired with a vehicle (R129, R147). -/
def State.pair (s : State) (n : Nat) (o : Order) (r : Nat) (d : Dest) (pickup v : Nat) : State :=
  let source := s.sourceFor o r
  let way := ((s.vehicle v).standsAt.bind fun a => s.wayBetween a pickup).getD none
  let t := if o.roll.isNone then s.reserve r n else s
  ((((t.modOrder n fun x =>
    { x with source := source, dest := some d, vehicle := some v, state := .assigned, noStock := false, noBay := false,
             noRoute := false }).modVehicle v fun x =>
      { x with state := .toPickup, order := some n, leg := way.map (⟨·, 0⟩), nextRoute := none, docked := 0 }).restartProgress v)).sendTask n

/-- One order of the queue judged, flagged and, where a vehicle is eligible, paired (R127, R129). NO_ROUTE is clear while the order has no
roll or no bay, since there is then no route to look for (DESIGN CHOICE, notes/assumptions/13.md). -/
def State.passOne (s : State) (n : Nat) : State :=
  match s.order n with
  | none => s
  | some o =>
    if s.namedGone o then s.failOrder n
    else
      let roll := s.rollToFetch o
      let dest := s.choice o
      let pickup := roll.bind (s.pickupFor o)
      let drop := dest.bind s.destNode
      let noBay := o.kind != .callOff && dest.isNone
      let noRoute := roll.isSome && dest.isSome &&
        (match pickup, drop with
          | some a, some b => (s.wayBetween a b).isNone
          | _, _ => true)
      let s1 := s.modOrder n ({ · with noStock := roll.isNone, noBay := noBay, noRoute := noRoute })
      let s2 := if o.kind = .callOff ∧ roll = none ∧ o.noStock = false then s1.raise .stockShort (o.requester.stand.getD 0) else s1
      let s3 := if noBay then s2.storeFull o else s2
      match roll, dest, pickup with
      | some r, some d, some x =>
        if noRoute then s3
        else
          match s.nearest x with
          | some v => s3.pair n o r d x v
          | none => s3
      | _, _, _ => s3

/-- An IDLE in-service vehicle without an order is left (R129). -/
def State.idleLeft (s : State) : Bool := (span 1 Config.vehicles).any fun v => (s.vehicle v).state == .idle && (s.vehicle v).order.isNone

/-- The queue taken in rank order until no idle vehicle is left (R129). -/
def State.takeQueue : List Nat → State → State
  | [], s => s
  | n :: ns, s => if s.idleLeft then State.takeQueue ns (s.passOne n) else s

/-- An order under way that waits for a destination or a route to it (R130). -/
def Order.waitsForDest (o : Order) : Bool :=
  (o.state == .assigned || o.state == .loading || o.state == .carrying) && !o.abort && (o.dest.isNone || o.noRoute)

/-- The choice and the route check made again for one order that waits (R130). -/
def State.rechoose (s : State) (n : Nat) : State :=
  match s.order n with
  | none => s
  | some o =>
    let bare := if o.dest.any Dest.isBay then { o with dest := none } else o
    match (s.modOrder n ({ · with dest := bare.dest })).choice bare with
    | none => if o.dest.isNone then (s.modOrder n ({ · with noBay := true, noRoute := false })).storeFull o else s
    | some d =>
      match o.vehicle.filter fun v => (s.vehicle v).inService with
      | none => s.modOrder n ({ · with dest := some d, noBay := false })
      | some v =>
        match s.wayTo o v d with
        | none => s.modOrder n ({ · with noBay := false, noRoute := true })
        | some way =>
          (s.modOrder n ({ · with dest := some d, noBay := false, noRoute := false })).newDrop v n o way

/-- The orders that wait for a destination, in creation order. -/
def State.waitingOrders (s : State) : List Nat :=
  (ranked (fun a b => decide (a.seq < b.seq)) (s.orders.filter fun e => e.2.waitsForDest)).map Prod.fst

/-- An assignment pass (R129, R130). -/
def State.pass (s : State) : State :=
  let t := s.each s.waitingOrders fun n s => s.rechoose n
  State.takeQueue t.queue t

/-- The end of a step: the one pass its events lead to, none while transport is halted (R129, R154; DEDUCED, notes/assumptions/3.md). -/
def State.finish (s : State) : State :=
  let t := if s.passDue && !s.halted then s.pass else s
  { t with passDue := false }

end Sys2Proof.Machine
end

