-- ==== Sys2Proof/Machine/Spoilage.lean ====
section
/-! DEFINITION. The Spoilage Counter's operations: remaining length and grams (R65), paper charges (R108, R117), splice events
(R113), the counting of breaks (R115), the closing of a live job (R105), and copies (R110, R111, R116). -/

namespace Sys2Proof.Machine

/-- The quotient a / b rounded half up. -/
def roundHalfUp (a b : Nat) : Nat := (2 * a + b) / (2 * b)

/-- The remaining length of a roll at a diameter, in metres (R65). -/
def Grade.length (g : Grade) (d : Nat) : Nat :=
  if d ≤ g.core then 0 else min Config.max16 (355 * (d ^ 2 - g.core ^ 2) / (45200 * g.caliper))

/-- The grams of a length of paper of a width in mm (R74, R94, R95, R117). -/
def Grade.grams (g : Grade) (metres width : Nat) : Nat := metres * width * g.basis / 1000

/-- An addition that saturates at 4294967295 (R108). -/
def satAdd (a b : Nat) : Nat := min Config.max32 (a + b)

/-- A count that saturates at 65535 (R108). -/
def satCount (a : Nat) : Nat := min Config.max16 (a + 1)

/-- The consumption charge (R74, R117). -/
def Job.chargeConsumed (m g : Nat) (j : Job) : Job := { j with consumedM := satAdd j.consumedM m, consumedG := satAdd j.consumedG g }

/-- The strip charge (R94, R117). -/
def Job.chargeStrip (m g : Nat) (j : Job) : Job := { j with stripM := satAdd j.stripM m, stripG := satAdd j.stripG g }

/-- The stub charge (R95, R117). -/
def Job.chargeStub (m g : Nat) (j : Job) : Job := { j with stubM := satAdd j.stubM m, stubG := satAdd j.stubG g }

/-- An update of the job a link names, if there is one. -/
def State.modJobAt (s : State) (j : Option Nat) (f : Job → Job) : State :=
  match j with
  | some n => s.modJob n f
  | none => s

/-- The job total: good copies and the four waste categories (R110). -/
def Job.total (j : Job) : Nat := j.good + j.makeready + j.splice + j.brk + j.changeover

/-- The target notices kept for a line dropped (R105, R116). -/
def State.dropNotices (s : State) (l : Nat) : State :=
  s.each s.stations.keys fun a s => s.modStation a fun x =>
    { x with offer := x.offer.filter fun k => !k.cmd.isTarget l }

/-- A line's live job closed, with the effects of R105 steps 1 to 4. -/
def State.closeLive (s : State) (l n : Nat) : State :=
  ((s.modJob n ({ · with state := .closed })).modLine l ({ · with pending := false, counting := .idle, window := 0 })).dropNotices l

/-- A splice event taken for its paste line (R113). -/
def State.spliceEvent (s : State) (l : Nat) : State :=
  let x := s.line l
  let counted := s.modJobAt (s.liveJob l) fun j => { j with spliceCount := satCount j.spliceCount }
  match x.counting with
  | .idle => s
  | .good => if x.live.window = 0 then counted else counted.modLine l ({ · with counting := .splice, window := x.live.window })
  | .splice => counted.modLine l ({ · with window := max x.window x.live.window })
  | .makeready | .brk | .changeover => counted

/-- Break entry counted: a line with a live job goes to BREAK and the job's break count rises (R98 step 2, R115). -/
def State.countBreak (s : State) (l : Nat) : State :=
  match s.liveJob l with
  | some n =>
    (s.modJob n fun j => { j with breakCount := satCount j.breakCount }).modLine l ({ · with counting := .brk, window := 0 })
  | none => s

/-- The TARGET command placed for each console of a line, or kept (R116). -/
def State.tellTarget (s : State) (l n good : Nat) : State :=
  s.each ((s.stations.filter fun e => e.2.role == .console l).map Prod.fst) fun a s => s.send a (.target l n good)

/-- A makeready copy (R110, R111). -/
def State.countMakeready (s : State) (l n : Nat) (j : Job) : State :=
  let k := { j with makeready := satAdd j.makeready 1 }
  if j.excess = false ∧ j.allowance.any (fun a => decide (a < k.makeready)) then
    (s.putJob n (some { k with excess := true })).raise .makereadyExcess l
  else s.putJob n (some k)

/-- A good copy (R110, R116). -/
def State.countGood (s : State) (l n : Nat) (j : Job) : State :=
  let k := { j with good := satAdd j.good 1 }
  if j.targetMet = false ∧ j.target.any (fun t => decide (0 < t ∧ k.good = t)) then
    ((s.putJob n (some { k with targetMet := true })).raise .targetReached l).tellTarget l n k.good
  else s.putJob n (some k)

/-- A copy in the splice window (R110). -/
def State.countSplice (s : State) (l n : Nat) (j : Job) : State :=
  (s.putJob n (some { j with splice := satAdd j.splice 1 })).modLine l fun x =>
    { x with window := x.window - 1, counting := if x.window ≤ 1 then .good else .splice }

/-- A copy taken in the category of the counting state (R110 step 3). -/
def State.countCategory (s : State) (l n : Nat) (j : Job) : State :=
  match (s.line l).counting with
  | .idle => s
  | .makeready => s.countMakeready l n j
  | .good => s.countGood l n j
  | .splice => s.countSplice l n j
  | .brk => s.putJob n (some { j with brk := satAdd j.brk 1 })
  | .changeover => s.putJob n (some { j with changeover := satAdd j.changeover 1 })

/-- A copy pulse counted to the line's live job, which is closed when its total reaches the copy limit (R110 steps 2 to 4). -/
def State.countCopy (s : State) (l : Nat) : State :=
  match s.liveJob l with
  | none => s
  | some n =>
    match s.job n with
    | none => s
    | some j =>
      if (s.line l).counting = .idle then s
      else if (s.countCategory l n j).job n |>.any (fun k => k.total == Config.max32) then (s.countCategory l n j).closeLive l n
      else s.countCategory l n j

end Sys2Proof.Machine
end

