-- ==== Sys2Proof/Machine/Sequence.lean ====
section
/-! DEFINITION. The Stand Measurement Unit's figures and the Stand Sequencer: time to splice (R66, R67), the mark timer (R75), the
measurement flag (R76), arming and disarming (R84, R85), matching, paste and splice (R86 to R90), first start (R83), and the break
machine's entry and exit without a pending changeover (R98, R99). -/

namespace Sys2Proof.Machine

/-! ## Figures -/

/-- The stands that belong to a line, ascending. -/
def State.lineStands (s : State) (l : Nat) : List Nat := (span 1 Config.stands).filter fun st => s.lineOf st == some l

/-- The measuring threshold is reached (R61). -/
def State.measuring (s : State) (l : Nat) : Bool := decide (Config.measuringThreshold ≤ (s.line l).v)

/-- The running roll of a stand. -/
def State.runningRoll (s : State) (st : Nat) : Option (Nat × Roll) :=
  (s.stand st).active.bind fun a => ((s.stand st).arm a).roll.bind fun n => (s.roll n).map fun r => (n, r)

/-- The grade of a stand's running roll. -/
def State.runningGrade (s : State) (st : Nat) : Option Grade := (s.runningRoll st).map fun e => s.grade e.2.grade

/-- The run length to splice (R66). -/
def State.runLength (s : State) (st : Nat) : Option Nat :=
  match s.positionOf st, s.runningGrade st, (s.stand st).df with
  | some (_, p), some g, some d => some (g.length d - g.length p.dt)
  | _, _, _ => none

/-- The time to splice (R66). -/
def State.timeToSplice (s : State) (st : Nat) : Nat :=
  match s.lineOf st, s.runLength st with
  | some l, some run => if s.measuring l then min Config.max16 (run * 60 / (s.line l).v) else Config.max16
  | _, _ => Config.max16

/-- T_s recomputed and written (R67); the hand-on is handTs. -/
def State.writeTs (s : State) (st : Nat) : State := s.modStand st ({ · with ts := s.timeToSplice st })

/-- A recomputed T_s handed on: the call-off condition is evaluated and the deadlines are recomputed (R67). -/
def State.handTs (s : State) (st : Nat) : State := (s.evalCallOff st).recomputeDeadlines st

/-- Quarter revolutions between two captures (R62). -/
def Stand.quarters (x : Stand) : Nat := 4 * x.k / x.m

/-- D_min of a stand: the running roll's core plus the minimum offset (R80). -/
def State.dMin (s : State) (st : Nat) : Option Nat := (s.runningGrade st).map fun g => g.core + (s.stand st).offset

/-! ## Mark timer and measurement flag -/

/-- The three conditions of the mark timer (R75). -/
def State.markRuns (s : State) (st : Nat) : Bool :=
  (s.stand st).active.isSome &&
    match s.lineOf st with
    | some l => s.measuring l
    | none => false

/-- The mark timer restarted at 4 s where its conditions hold, and stopped where they do not (R75). -/
def State.restartMark (s : State) (st : Nat) : State :=
  s.modStand st ({ · with markLeft := if s.markRuns st then some Config.markTime else none })

/-- DRIVE dropped, match count 0 and last standby speed removed on the return to RUNNING (R77, R85). -/
def State.disarm (s : State) (st : Nat) : State :=
  let x := s.stand st
  if x.seq = .armed ∨ x.seq = .matched then
    (s.modStand st ({ · with seq := .running, matchCount := 0, lastVs := none })).drivePin (.drive st) false
  else s

/-- MEASURE_LOST set with a cause; setting a clear flag raises the condition, and the stand is disarmed (R76, R85). -/
def State.setLost (s : State) (st : Nat) (c : LostCause) : State :=
  let t := s.modStand st ({ · with measureLost := some c })
  (if (s.stand st).measureLost.isNone then t.raise .measureLost st else t).disarm st

/-! ## Splice sequence -/

/-- The splice diameter of a stand (R49). -/
def State.spliceAt (s : State) (st : Nat) : Option Nat := (s.positionOf st).map fun e => e.2.dt

/-- A present diameter is at or below a present limit. -/
def atOrBelow : Option Nat → Option Nat → Bool
  | some a, some b => decide (a ≤ b)
  | _, _ => false

/-- SPLICE_LATE of an ARMED stand at or below D_t (R90). -/
def State.lateTest (s : State) (st : Nat) : State :=
  let x := s.stand st
  if x.seq = .armed ∧ atOrBelow x.df (s.spliceAt st) ∧ x.late = false then
    (s.modStand st ({ · with late := true })).raise .spliceLate st
  else s

/-- The conditions of arming (R84). -/
def State.armable (s : State) (st : Nat) : Bool :=
  let x := s.stand st
  x.seq == .running && x.measureLost.isNone &&
    (x.active.any fun a => (x.arm a.other).state == .ready) &&
    match s.positionOf st with
    | some (l, p) => atOrBelow x.df (some (p.dt + (s.line l).live.margin)) && !(s.line l).inBreak && s.measuring l
    | none => false

/-- The arming test; a stand that arms at or below D_t is late at once (R84, R90). -/
def State.tryArm (s : State) (st : Nat) : State :=
  if s.armable st then
    ((s.modStand st ({ · with seq := .armed, matchCount := 0, lastVs := none })).drivePin (.drive st) true).lateTest st
  else s

/-- The paste fires (R87). -/
def State.firePaste (s : State) (st : Nat) : State :=
  (s.modStand st fun x => { x with seq := .pasting, pasteLeft := some (x.pulse * 1000), pasteLine := s.lineOf st }).drivePin (.paste st) true

/-- The paste test of a MATCHED stand (R87). -/
def State.pasteTest (s : State) (st : Nat) : State :=
  if (s.stand st).seq = .matched ∧ atOrBelow (s.stand st).df (s.spliceAt st) then s.firePaste st else s

/-- A standby sample matched against the line's v (R86); it is kept as the last standby speed (R77). A stand that falls back to ARMED at
or below D_t is late at once (R90). -/
def State.standbySample (s : State) (st vs : Nat) : State :=
  match s.lineOf st with
  | none => s
  | some l =>
    let x := s.stand st
    let v := (s.line l).v
    let within := decide ((if vs ≤ v then v - vs else vs - v) ≤ x.tol)
    let t := s.modStand st ({ · with lastVs := some vs })
    match x.seq with
    | .armed =>
      if within then
        if x.matchCount = 0 then t.modStand st ({ · with matchCount := 1 })
        else (t.modStand st ({ · with seq := .matched, matchCount := 0 })).pasteTest st
      else t.modStand st ({ · with matchCount := 0 })
    | .matched => if within then t else (t.modStand st ({ · with seq := .armed, matchCount := 0 })).lateTest st
    | _ => t

/-- D_f set at a start move: the mount diameter of the roll that becomes RUNNING; the reject run and MEASURE_LOST are cleared
(R68, R76). -/
def State.seedDiameter (s : State) (st n : Nat) : State :=
  s.modStand st ({ · with df := (s.roll n).bind Roll.mount, run := .clear, measureLost := none })

/-- After a start move: the mark timer, T_s, the call-off condition and the arming test (R83, R89). -/
def State.afterStart (s : State) (st : Nat) : State := (((s.restartMark st).writeTs st).handTs st).tryArm st

/-- The splice is done (R89): PASTE and DRIVE drop, the arms swap, the splice event is sent to the paste line, the flags clear. -/
def State.splice (s : State) (st : Nat) : State :=
  let x := s.stand st
  match x.active, x.armIn .ready with
  | some a, some b =>
    match (x.arm a).roll, (x.arm b).roll with
    | some old, some new =>
      let job := ((x.pasteLine.bind s.liveJob)).or ((s.roll old).bind Roll.job)
      let s1 := ((s.dropPasteDrive st).expire old st a x.df).startMove new st b job
      let s2 := (s1.seedDiameter st new).modStand st
        ({ · with seq := .running, matchCount := 0, pasteLeft := none, pasteLine := none, lastVs := none })
      let s3 := match x.pasteLine with
        | some l => s2.spliceEvent l
        | none => s2
      (s3.modStand st ({ · with late := false, runout := false })).afterStart st
    | _, _ => s
  | _, _ => s

/-- A stand makes its first start where R83 allows it. -/
def State.firstStart (s : State) (st : Nat) : State :=
  let x := s.stand st
  match (s.lineOf st).bind s.liveJob, x.active, x.armIn .ready with
  | some j, none, some b =>
    match (x.arm b).roll with
    | some n => (((s.startMove n st b (some j)).seedDiameter st n).modStand st ({ · with seq := .running })).afterStart st
    | none => s
  | _, _, _ => s

/-! ## Break machine -/

/-- An enabled pin source of a line is active (R97). -/
def State.pinActive (s : State) (l : Nat) : Bool :=
  ((s.line l).enables.webBreak && (s.lineStands l).any fun st => (s.stand st).webBreak) || ((s.line l).enables.jam && (s.line l).jam)

/-- The enabled runout source of a line is active (R97). -/
def State.runoutActive (s : State) (l : Nat) : Bool :=
  (s.line l).enables.runout && (s.lineStands l).any fun st => (s.stand st).runout

/-- The conditions on which a line may leave BREAK (R99). -/
def State.mayLeave (s : State) (l : Nat) : Bool := !s.pinActive l && !s.runoutActive l

/-- Entry into BREAK, steps 1 to 5 of R98. -/
def State.breakSteps (s : State) (l : Nat) (c : Cause) : State :=
  let s1 := (s.modLine l ({ · with inBreak := true, cause := some c, lowMark := false })).drivePin (.stop l) true
  let s2 := s1.countBreak l
  let s3 := s2.each (s2.lineStands l) fun st s => s.disarm st
  let pasting := (span 1 Config.stands).filter fun st =>
    (s3.stand st).seq == .pasting && (s3.lineOf st == some l || (s3.stand st).pasteLine == some l)
  let s4 := s3.each pasting fun st s => s.splice st
  let s5 := if (s4.line l).live.breakBrake then s4.each (s4.lineStands l) fun st s => s.drivePin (.brake st) true else s4
  s5.raise .lineBreak l

/-- A line leaves BREAK; the first starts and the arming tests follow (R83, R84, R99). The entry cause, which R99 does not name, is removed
with the state it is the cause of (DESIGN CHOICE, notes/assumptions/13.md). -/
def State.leaveBreak (s : State) (l : Nat) : State :=
  let s1 := (s.modLine l ({ · with inBreak := false, cause := none })).drivePin (.stop l) false
  let s2 := s1.each (s1.lineStands l) fun st s => s.drivePin (.brake st) false
  let s3 := if (s2.liveJob l).isSome then s2.modLine l ({ · with counting := .makeready }) else s2
  let s4 := s3.each (s3.lineStands l) fun st s => s.firstStart st
  s4.each (s4.lineStands l) fun st s => s.tryArm st

end Sys2Proof.Machine
end

