-- ==== Sys2Proof/Machine/Plans.lean ====
section
/-! DEFINITION. What a changed live plan does to stands and call-offs (R56 to R58, R78), a changeover taking effect (R54, R55), and
the entry into BREAK with a pending changeover (R98). -/

namespace Sys2Proof.Machine

/-! ## Stands (R56, R78) -/

/-- A stand leaves a line: it is disarmed, its BRAKE released, its references cleared, its mark timer stopped, T_s 65535. -/
def State.standLeaves (s : State) (st : Nat) : State :=
  ((s.disarm st).drivePin (.brake st) false).modStand st fun x =>
    { x.clearChannels with markLeft := none, ts := Config.max16 }

/-- BRAKE of a stand of a line in BREAK, as the live plan's break brake says. -/
def State.brakeByPlan (s : State) (l st : Nat) : State :=
  if (s.line l).inBreak then s.drivePin (.brake st) (s.line l).live.breakBrake else s

/-- A stand joins a line: references cleared, mark timer started where its conditions hold, BRAKE in BREAK, and a paste under way
completed at once in BREAK. -/
def State.standJoins (s : State) (l st : Nat) : State :=
  let s1 := ((s.modStand st Stand.clearChannels).restartMark st).brakeByPlan l st
  if (s1.line l).inBreak ∧ (s1.stand st).seq = .pasting then s1.splice st else s1

/-! ## Call-offs (R57) -/

/-- The live CALL_OFF orders whose requester is an arm of one of some stands, in creation order. -/
def State.callOffsAmong (s : State) (stands : List Nat) : List Nat :=
  (ranked (fun a b => decide (a.seq < b.seq)) (s.orders.filter fun e =>
    e.2.kind == .callOff && e.2.state != .failed && !e.2.abort && stands.any fun st => e.2.requester.atStand st)).map Prod.fst

/-- An order re-targeted to the position its stand has now (R57). -/
def State.retarget (s : State) (n : Nat) (p : Position) : State :=
  (s.modOrder n ({ · with grade := some p.grade, width := some p.width })).returnToPending n false

/-- One call-off dealt with at a change of the live plan (R57). -/
def State.dealCallOff (s : State) (l n : Nat) : State :=
  match s.order n with
  | none => s
  | some o =>
    match o.requester.stand.bind fun st => (s.positionOf st).filter fun e => e.1 == l with
    | some (_, p) =>
      if o.grade = some p.grade ∧ o.width = some p.width then s
      else
        match o.state with
        | .pending | .assigned | .loading => s.retarget n p
        | .carrying => s.convert n
        | .unloading | .failed => s
    | none =>
      match o.state with
      | .pending => s.freeOrder n
      | .assigned | .loading => s.markAbort n
      | .carrying => s.convert n
      | .unloading | .failed => s

/-! ## A changed list of positions -/

/-- Entry into BREAK at once for a joining stand whose web-break pin is active or that has run out, while the line is in CLEAR and
the source is enabled (R56, R98). Where several joining stands have an active source, the entry cause is the web-break pin of the lowest
stand, and without one the runout of the lowest stand (DESIGN CHOICE, notes/assumptions/13.md). -/
def State.joinBreak (s : State) (l : Nat) (joining : List Nat) : State :=
  if (s.line l).inBreak then s
  else
    match joining.find? fun st => (s.line l).enables.webBreak && (s.stand st).webBreak with
    | some st => s.breakSteps l (.webBreak st)
    | none =>
      match joining.find? fun st => (s.line l).enables.runout && (s.stand st).runout with
      | some st => s.breakSteps l (.runout st)
      | none => s

/-- A stand re-evaluated against the live plan (R56 last paragraph): T_s where it has an ACTIVE arm, arming and lateness, call-off,
deadlines. -/
def State.reevaluate (s : State) (st : Nat) : State :=
  let s1 := if (s.stand st).active.isSome then s.writeTs st else s
  ((s1.tryArm st).lateTest st).handTs st

/-- The effects of a live position list that replaced old ones: stands leaving, joining and staying, then the call-offs, the
empty-stand call-offs and a joining break source; with start, the first starts where counting is MAKEREADY or CHANGEOVER; then every
stand of the plan re-evaluated (R56, R57, R58). Of the first starts R56 names the joining stands alone and R83 has a stand wait for the
next exit from BREAK or lists the changeover as its event: every stand of the new plan that R83 allows makes it here, a staying one too
(DESIGN CHOICE, notes/assumptions/13.md). -/
def State.replan (s : State) (l : Nat) (old : List Nat) (start : Bool) : State :=
  let new := s.lineStands l
  let leaving := (span 1 Config.stands).filter fun st => old.contains st && !new.contains st
  let joining := new.filter fun st => !old.contains st
  let staying := new.filter old.contains
  let s1 := s.each leaving fun st s => s.standLeaves st
  let s2 := s1.each joining fun st s => s.standJoins l st
  let s3 := s2.each staying fun st s => s.brakeByPlan l st
  let s4 := s3.each (s3.callOffsAmong (old ++ new)) fun n s => s.dealCallOff l n
  let s5 := s4.each (joining.filter fun st => (s4.stand st).active.isNone) fun st s => s.evalCallOff st
  let s6 := s5.joinBreak l joining
  let starting := start && ((s6.line l).counting == .makeready || (s6.line l).counting == .changeover)
  let s7 := if starting then s6.each new fun st s => s.firstStart st else s6
  s7.each new fun st s => s.reevaluate st

/-! ## Changeover (R54, R55) -/

/-- The counting state after a changeover, by the one before it (R55 step 2). -/
def Counting.changed : Counting → Counting
  | .idle => .makeready
  | .makeready | .good | .splice | .changeover => .changeover
  | .brk => .brk

/-- A line's previous live job closed at a changeover, its target notices dropped (R55 step 1, R116). -/
def State.closeOutgoing (s : State) (l : Nat) : State :=
  match s.liveJob l with
  | some n => (s.modJob n ({ · with state := .closed })).dropNotices l
  | none => s

/-- A job made LIVE with the target and allowance of the new live plan (R55 step 1, R103). -/
def State.makeLive (s : State) (j : Option Nat) (p : Plan) : State :=
  s.modJobAt j ({ · with state := .live, target := some p.target, allowance := some p.allowance, excess := false, targetMet := false })

/-- A changeover takes effect (R55): jobs and counting, then the copy pulse it takes effect at, if any, then stands and orders. -/
def State.takeChangeover (s : State) (l : Nat) (pulse : Bool) : State :=
  let x := s.line l
  let old := x.live.positions.map Position.stand
  let s1 := (s.closeOutgoing l).makeLive x.working.job x.working
  let s2 := s1.modLine l fun y => { y with live := y.working, pending := false, counting := y.counting.changed, window := 0 }
  let s3 := if x.counting = .idle ∧ x.inBreak then s2.countBreak l else s2
  (if pulse then s3.countCopy l else s3).replan l old true

/-- Entry into BREAK (R98): steps 1 to 5, then a pending changeover takes effect. -/
def State.enterBreak (s : State) (l : Nat) (c : Cause) : State :=
  let t := s.breakSteps l c
  if (t.line l).pending then t.takeChangeover l false else t

/-- A source that enters its active condition: a line in CLEAR enters BREAK (R98). -/
def State.sourceActive (s : State) (l : Nat) (c : Cause) : State := if (s.line l).inBreak then s else s.enterBreak l c

/-- What keeps a line's enabled pin or runout source active, the pins first (R97). -/
def State.standingSource (s : State) (l : Nat) : Option Cause :=
  let e := (s.line l).enables
  match (s.lineStands l).find? fun st => e.webBreak && (s.stand st).webBreak with
  | some st => some (.webBreak st)
  | none =>
    if e.jam && (s.line l).jam then some .folderJam
    else ((s.lineStands l).find? fun st => e.runout && (s.stand st).runout).map .runout

/-! ## The checks of a changeover (R53) -/

/-- A plan's positions name configured grades with every D_t above the core. -/
def State.gradesFit (s : State) (ps : List Position) : Bool := ps.all fun p => (s.grade p.grade).configured && decide ((s.grade p.grade).core < p.dt)

/-- No stand of a plan belongs to another line or appears in another line's pending changeover. -/
def State.standsFree (s : State) (l : Nat) (ps : List Position) : Bool :=
  ps.all fun p => !s.standElsewhere l p.stand && !s.standPendingElsewhere l p.stand

/-- A plan's job number names an OPEN job of the line. -/
def State.jobOpen (s : State) (l : Nat) (j : Option Nat) : Bool :=
  match j.bind s.job with
  | some x => x.state == .opened && x.line == l
  | none => false

/-- A plan has a job number and 1 to 8 positions. -/
def Plan.complete (p : Plan) : Bool := p.job.isSome && !p.positions.isEmpty && decide (p.positions.length ≤ 8)

/-- A plan would pass every check of R53 for a line but the pending one. -/
def State.planPasses (s : State) (l : Nat) (p : Plan) : Bool :=
  p.complete && s.jobOpen l p.job && s.gradesFit p.positions && s.standsFree l p.positions

end Sys2Proof.Machine
end

