-- ==== Sys2Proof/Machine/Samples.lean ====
section
/-! DEFINITION. Captures and samples of the mark channels (R63, R64, R69 to R74, R77), the runout test (R91), and the speed gate
(R61) with what the blocks do at it. -/

namespace Sys2Proof.Machine

/-! ## Runout (R91) -/

/-- The live call-off of a stand's other arm made URGENT (R91, R126). -/
def State.urgentAtRunout (s : State) (st : Nat) : State :=
  let x := s.stand st
  match x.active.bind fun a => (x.arm a.other).callOff with
  | some n => s.makeUrgent n
  | none => s

/-- The runout test (R91): a stand at or below D_min runs out, its call-off becomes URGENT, and its line may enter BREAK. -/
def State.runoutTest (s : State) (st : Nat) : State :=
  let x := s.stand st
  match s.lineOf st with
  | some l =>
    if (x.seq = .running ∨ x.seq = .armed ∨ x.seq = .matched) ∧ atOrBelow x.df (s.dMin st) ∧ x.runout = false then
      let t := (s.modStand st ({ · with runout := true })).urgentAtRunout st
      if (t.line l).enables.runout then t.sourceActive l (.runout st) else t
    else s
  | none => s

/-! ## Diameter samples (R69 to R74) -/

/-- The measured diameter of a pair: W web pulses over q quarter turns (R69). -/
def measuredDiameter (w lam q : Nat) : Nat := min 15000 (roundHalfUp (w * lam * 452) (q * 35500))

/-- The filter's step toward an accepted D_new (R70). -/
def filtered (df new core : Nat) : Nat := max core (df - (df - new + 3) / 4)

/-- The consumption charge of a fall of the running roll's diameter (R74). -/
def State.chargeConsumption (s : State) (l n : Nat) (r : Roll) (before after : Nat) : State :=
  let g := s.grade r.grade
  let m := g.length before - g.length after
  (s.modRoll n fun x => { x with consumed := min Config.max16 (x.consumed + m) }).modJobAt (s.liveJob l)
    (Job.chargeConsumed m (g.grams m r.width))

/-- An accepted sample or reseed in one update (R73), and the tests it hands on: arming, paste, late splice, runout, call-off. -/
def State.acceptDiameter (s : State) (st l before after : Nat) : State :=
  match s.runningRoll st with
  | none => s
  | some (n, r) =>
    let s1 := s.modStand st ({ · with df := some after, run := .clear })
    let s2 := s1.modRoll n ({ · with diameter := after })
    let s3 := if after = before then s2 else s2.chargeConsumption l n r before after
    let s4 := (s3.modStand st ({ · with measureLost := none })).writeTs st
    ((((s4.tryArm st).pasteTest st).lateTest st).runoutTest st).handTs st

/-- An upward reject (R71): the third in a row sets MEASURE_LOST SUSPECT, and so does each further one, whose count stays 3, also where the
cause has become LOST since (DESIGN CHOICE, notes/assumptions/13.md). -/
def State.rejectUp (s : State) (st : Nat) : State :=
  let r := (s.stand st).run
  let count := if r.dir = .up ∧ 0 < r.count then min 3 (r.count + 1) else 1
  let t := s.modStand st ({ · with run := ⟨.up, count⟩ })
  if count = 3 then t.setLost st .suspect else t

/-- A downward reject (R72): the third in a row reseeds D_f. -/
def State.rejectDown (s : State) (st l before new core : Nat) : State :=
  let r := (s.stand st).run
  let count := if r.dir = .down ∧ 0 < r.count then r.count + 1 else 1
  if 3 ≤ count then s.acceptDiameter st l before (max new core) else s.modStand st ({ · with run := ⟨.down, count⟩ })

/-- A sample that is not discarded, classified by the filter (R70). -/
def State.classify (s : State) (st l new : Nat) : State :=
  match (s.stand st).df, s.runningGrade st with
  | some df, some g =>
    if df < new then s.rejectUp st
    else if df ≤ new + (s.line l).w then s.acceptDiameter st l df (filtered df new g.core)
    else s.rejectDown st l df new g.core
  | _, _ => s

/-- A pair on the ACTIVE arm (R64, R69): discarded below the measuring threshold or with W below 16. -/
def State.diameterSample (s : State) (st : Nat) (ref cap : Capture) : State :=
  match s.lineOf st, ref.web, cap.web with
  | some l, some a, some b =>
    let w := (b - a).toNat
    if s.measuring l ∧ 16 ≤ w then s.classify st l (measuredDiameter w (s.line l).lam (s.stand st).quarters) else s
  | _, _, _ => s

/-! ## Standby samples (R77) -/

/-- The surface speed of a roll of a diameter timed over q quarter turns (R77). -/
def surfaceSpeed (d q t : Nat) : Nat := min 1200 (roundHalfUp (d * q * 532500) (113 * t))

/-- A pair on a READY arm of an ARMED or MATCHED stand (R64, R77). -/
def State.standbyPair (s : State) (st n : Nat) (ref cap : Capture) : State :=
  let t := (cap.us - ref.us).toNat
  match s.roll n with
  | some r => if t = 0 ∨ 4000000 < t then s else s.standbySample st (surfaceSpeed r.diameter (s.stand st).quarters t)
  | none => s

/-! ## Mark edges (R63, R64) -/

/-- The capture a channel of a stand takes now (R63). -/
def State.captureAt (s : State) (st : Nat) : Capture := ⟨s.micros, (s.lineOf st).map fun l => (s.line l).web⟩

/-- A pair used by the state of its arm and stand (R64). -/
def State.usePair (s : State) (st : Nat) (r : ArmRec) (ref cap : Capture) : State :=
  match r.state with
  | .active => s.diameterSample st ref cap
  | .ready =>
    match (s.stand st).seq, r.roll with
    | .armed, some n | .matched, some n => s.standbyPair st n ref cap
    | _, _ => s
  | .staged | .expired | .empty => s

/-- A capture: it becomes the channel's reference, restarts the mark timer on an ACTIVE arm, and its pair is used (R63, R64, R75). -/
def State.capture (s : State) (st : Nat) (a : Arm) : State :=
  let r := (s.stand st).arm a
  let cap := s.captureAt st
  let s1 := s.modStand st fun x => x.withArm a { x.arm a with chan := ⟨0, some cap⟩ }
  let s2 := if r.state = .active then s1.restartMark st else s1
  match r.chan.ref with
  | some ref => s2.usePair st r ref cap
  | none => s2

/-- A mark edge (R63). -/
def State.markEdge (s : State) (st : Nat) (a : Arm) : State :=
  let x := s.stand st
  let n := (x.arm a).chan.count + 1
  if n < x.k then s.modStand st fun x => x.withArm a { x.arm a with chan := { (x.arm a).chan with count := n } }
  else s.capture st a

/-! ## The speed gate (R61) -/

/-- The speed of a gate with some web pulses (R61). -/
def gateSpeed (w lam : Nat) : Nat := min 1200 (roundHalfUp (w * lam * 240) 1000000)

/-- The mark timers of a line's stands at a gate: started where v came up to the threshold, stopped below it (R75). Such a gate starts the
timer also after an expiry with no capture since, of which R75 says both that it starts and that it waits for a capture (DESIGN CHOICE,
notes/assumptions/13.md). -/
def State.gateMarks (s : State) (l : Nat) (was : Bool) : State :=
  if s.measuring l = was then s else s.each (s.lineStands l) fun st s => s.restartMark st

/-- The break machine at a gate: auto-restart, or the low-speed mark (R99). -/
def State.gateBreak (s : State) (l : Nat) : State :=
  let x := s.line l
  if x.inBreak then
    if x.v < x.live.restartSpeed then s.modLine l ({ · with lowMark := true })
    else if x.live.autoRestart && x.lowMark && s.mayLeave l then s.leaveBreak l
    else s
  else s

/-- A gate expiry (R61): v, then T_s of the line's stands, the mark timers, disarming below the threshold, the break machine, and the
arming tests. Call-offs of several stands due at one gate are created in ascending stand number (R92; DESIGN CHOICE,
notes/assumptions/13.md). -/
def State.gate (s : State) (l : Nat) : State :=
  let x := s.line l
  let was := s.measuring l
  let s1 := s.modLine l ({ · with v := gateSpeed (x.web - x.gateWeb).toNat x.lam, gateWeb := x.web })
  let s2 := s1.each (s1.lineStands l) fun st s => (s.writeTs st).handTs st
  let s3 := s2.gateMarks l was
  let s4 := if s3.measuring l then s3 else s3.each (s3.lineStands l) fun st s => s.disarm st
  let s5 := s4.gateBreak l
  s5.each (s5.lineStands l) fun st s => s.tryArm st

end Sys2Proof.Machine
end

