-- ==== Sys2Proof/Machine/Operands.lean ====
section
/-! DEFINITION. How a payload is built from its fields (R177, R178), the check of a station frame (R160), and the characters and
bits of the station line (R157, R158). -/

namespace Sys2Proof.Machine

/-! ## Payloads (R178) -/

/-- A payload under construction: its bytes, and the set-or-clear fields and presence bits gathered for its end. -/
structure Pay where
  bytes : List Byte
  flags : List Bool
deriving DecidableEq, Repr

/-- A number in some bytes. -/
def Pay.num (w n : Nat) : Pay := ⟨beBytes w n, []⟩

/-- An optional number: 0 when absent, with its presence bit. -/
def Pay.opt (w : Nat) (o : Option Nat) : Pay := ⟨beBytes w (o.getD 0), [o.isSome]⟩

/-- A field that is set or clear, or a mark. -/
def Pay.flag (b : Bool) : Pay := ⟨[], [b]⟩

/-- A tag. -/
def Pay.tag (t : Tag) : Pay := ⟨tagBytes t, []⟩

/-- Fields one after another. -/
def Pay.all : List Pay → Pay
  | [] => ⟨[], []⟩
  | p :: ps => ⟨p.bytes ++ (Pay.all ps).bytes, p.flags ++ (Pay.all ps).flags⟩

/-- A list: its number of entries, then the entries. -/
def Pay.list (ps : List Pay) : Pay := Pay.all (Pay.num 1 ps.length :: ps)

/-- A form number before a form's fields. -/
def Pay.form (n : Nat) (ps : List Pay) : Pay := Pay.all (Pay.num 1 n :: ps)

/-- An optional field of several forms: the form byte 0 stands for its absence. -/
def Pay.optForm (o : Option Pay) : Pay :=
  match o with
  | some p => ⟨p.bytes, p.flags ++ [true]⟩
  | none => ⟨[0], [false]⟩

/-- The value of bits, the first the least. -/
def bitsNat : List Bool → Nat
  | [] => 0
  | b :: bs => b.toNat + 2 * bitsNat bs

/-- Flags gathered into whole bytes, from bit 0; the number bounds the bytes. -/
def packBits : Nat → List Bool → List Byte
  | 0, _ => []
  | n + 1, bs => if bs.isEmpty then [] else BitVec.ofNat 8 (bitsNat (bs.take 8)) :: packBits n (bs.drop 8)

/-- The payload built: the fields, then the flags gathered at its end (R178). -/
def Pay.build (p : Pay) : List Byte := p.bytes ++ packBits p.flags.length p.flags

/-! ## The check of a station frame (R160) -/

/-- One shift of the check register. -/
def checkShift (r : BitVec 16) : BitVec 16 := if r.msb then (r <<< 1) ^^^ 4129#16 else r <<< 1

/-- One byte taken into the check register. -/
def checkByte (r : BitVec 16) (b : Byte) : BitVec 16 :=
  let s := checkShift
  s (s (s (s (s (s (s (s (r ^^^ (b.setWidth 16 <<< 8)))))))))

/-- The check over the address to the payload (R160). -/
def check16 (bs : List Byte) : BitVec 16 := bs.foldl checkByte 65535#16

/-- A station frame: address, kind, length, payload and the check, high byte first (R159, R160, R176). -/
def stationFrame (addr kind : Nat) (payload : List Byte) : List Byte :=
  let body := BitVec.ofNat 8 addr :: BitVec.ofNat 8 kind :: BitVec.ofNat 8 payload.length :: payload
  body ++ beBytes 2 (check16 body).toNat

/-! ## Characters (R157, R158) -/

/-- The 11 bits of a character in the order they are sent: start, data least significant first, mark, stop (R157). -/
def charBits (b : Byte) (mark : Bool) : List Bool := false :: (List.range 8).map b.getLsbD ++ [mark, true]

/-- What the receiver decides on samples 7, 8 and 9 of a bit (R158). -/
inductive BitRead | low | high | noise
deriving DecidableEq, Repr

/-- The decision of a bit (R158). -/
def readBit (a b c : Bool) : BitRead := if a = b ∧ b = c then (if a then .high else .low) else .noise

/-- A frame's characters as they are sent: only the address carries the mark (R157, 9.2). -/
def frameBits : List Byte → List Bool
  | [] => []
  | a :: bs => charBits a true ++ bs.flatMap fun b => charBits b false

end Sys2Proof.Machine
end

