-- ==== Sys2Proof/Machine/Answers.lean ====
section
/-! DEFINITION. The payloads of the plant port's answers (R175, R177, R178) and the content of the commands in station frames (R176). -/

namespace Sys2Proof.Machine

/-! ## Numbers of named values (R178) -/

def rollStates : List RollState := [.announced, .stored, .reserved, .inTransit, .staged, .ready, .running, .stub]
def bayHolds : List BayHold := [.discrepancy, .operator]
def seqs : List Seq := [.idle, .running, .armed, .matched, .pasting]
def armStates : List ArmState := [.empty, .staged, .ready, .active, .expired]
def jobStates : List JobState := [.opened, .live, .closed]
def countings : List Counting := [.idle, .makeready, .good, .splice, .brk, .changeover]
def orderKinds : List OrderKind := [.store, .callOff, .ret, .move]
def classes : List Class := [.urgent, .callOff, .plant, .store]
def orderStates : List OrderState := [.pending, .assigned, .loading, .carrying, .unloading, .failed]
def vStates : List VState := [.outOfService, .idle, .toPickup, .loading, .toDrop, .unloading, .stalled]
def prevStates : List VState := [.idle, .toPickup, .loading, .toDrop, .unloading]
def stallCauses : List StallCause := [.progress, .transfer, .silent, .fault, .position]
def decks : List Deck := [.loaded, .empty]
def reasons : List Reason := [.badArgument, .badState, .full, .duplicateTag]
def statuses : List Status := [.ok, .busy, .badArgument, .badState, .notFound, .duplicate, .full, .limit]

/-- A named value as one byte. -/
def Pay.name {α : Type} [DecidableEq α] (values : List α) (v : α) : Pay := .num 1 (nameByte values (some v))

/-- An optional named value: one byte, and its presence bit. -/
def Pay.optName {α : Type} [DecidableEq α] (values : List α) (v : Option α) : Pay :=
  ⟨beBytes 1 (nameByte values v), [v.isSome]⟩

/-- A yes or no. -/
def Pay.yes (b : Bool) : Pay := .name yesNo b

/-! ## Rolls (R177, R21, R22) -/

/-- Bytes 18 to 20 of the LOOKUP_ROLL payload. -/
def Location.bytes : Location → List Byte
  | .node n => 1 :: beBytes 1 n ++ [0]
  | .bay b l => 2 :: beBytes 1 b ++ beBytes 1 l
  | .vehicle n => 3 :: beBytes 1 n ++ [0]
  | .arm s a => 4 :: beBytes 1 s ++ beBytes 1 (nameByte arms (some a))

/-- A hold's byte: 0 none (R177). -/
def holdByte (h : Option Hold) : List Byte := beBytes 1 (nameByte holds h)

/-- Bits 4 to 7 of the last byte of a roll's payload. -/
def State.rollMarks (s : State) (n : Nat) (r : Roll) : List Bool := [r.returned, s.isTop n r, s.isBuried n r, s.transferAt r]

/-- The payload of LOOKUP_ROLL (R177), 34 bytes. -/
def State.rollPayload (s : State) (n : Nat) (r : Roll) : List Byte :=
  beBytes 2 n ++ tagBytes r.tag ++ beBytes 1 r.grade ++ beBytes 2 r.width ++ beBytes 4 r.arrival ++
  beBytes 1 (nameByte rollStates (some r.state)) ++ r.loc.bytes ++ beBytes 2 r.diameter ++ beBytes 2 (r.weight.getD 0) ++
  beBytes 2 (r.mount.getD 0) ++ beBytes 1 (r.order.getD 0) ++ beBytes 2 (r.job.getD 0) ++ beBytes 2 r.consumed ++ holdByte r.hold ++
  [BitVec.ofNat 8 (bitsNat ([r.weight.isSome, r.mount.isSome, r.order.isSome, r.job.isSome] ++ s.rollMarks n r))]

/-- An entry of LIST_ROLLS (R177), 22 bytes. -/
def State.rollEntry (s : State) (n : Nat) (r : Roll) : List Byte :=
  beBytes 2 n ++ tagBytes r.tag ++ beBytes 4 r.arrival ++ beBytes 1 (nameByte rollStates (some r.state)) ++ r.loc.bytes ++
  beBytes 2 r.diameter ++ holdByte r.hold ++ [BitVec.ofNat 8 (bitsNat ([false, false, false, false] ++ s.rollMarks n r))]

/-- The payload of LIST_ROLLS (R177): at most 11 entries, and the MORE mark when more stand behind them. -/
def State.listPayload (s : State) (l : List (Nat × Roll)) : List Byte :=
  let shown := l.take 11
  BitVec.ofNat 8 (shown.length + if shown.length < l.length then 128 else 0) :: shown.flatMap fun e => s.rollEntry e.1 e.2

/-- A numbered roll put into a list ordered by arrival. -/
def byArrival (e : Nat × Roll) : List (Nat × Roll) → List (Nat × Roll)
  | [] => [e]
  | d :: ds => if e.2.arrival < d.2.arrival then e :: d :: ds else d :: byArrival e ds

/-- The live rolls that meet a test, in ascending arrival order (R21, R22). -/
def State.rollsWhere (s : State) (p : Roll → Bool) : List (Nat × Roll) := (s.rolls.filter fun e => p e.2).foldr byArrival []

/-- A record number with its record, where it is live. -/
def State.numbered (s : State) (o : Option Nat) : List (Nat × Roll) :=
  match o.bind fun n => (s.roll n).map fun r => (n, r) with
  | some e => [e]
  | none => []

/-! ## Bays (R27, R29) -/

/-- The content of READ_BAY. -/
def State.bayPayload (s : State) (b : Nat) : List Byte :=
  let x := s.bay b
  (Pay.all [.num 1 b, .num 1 x.limit, .opt 1 x.aisle, .list (x.stack.map (.num 2)), .optName bayHolds x.hold, .opt 1 x.mark,
    .opt 1 x.lastHeight, .num 1 x.confirm, .num 1 (s.reservedHeight b), .list ((s.putAways b).map (.num 1)), .opt 1 (s.sensorOf b),
    .list ((x.stack.flatMap fun n => s.numbered (some n)).map fun e =>
      .all [.num 2 e.1, .tag e.2.tag, .name rollStates e.2.state, .optName holds e.2.hold])]).build

/-! ## Grades and plans (R46, R52) -/

/-- The content of READ_GRADE. -/
def State.gradePayload (s : State) (g : Nat) : List Byte :=
  let x := s.grade g
  (Pay.all [.num 1 x.basis, .num 1 x.caliper, .num 2 x.core, .num 2 x.threshold, .flag (s.gradeInUse g)]).build

/-- The HEAD content of READ_PLAN. -/
def State.headPayload (s : State) (l : Nat) (p : Plan) : List Byte :=
  (Pay.all [.opt 2 p.job, .num 4 p.target, .num 2 p.allowance, .num 2 p.window, .num 2 p.lead, .num 2 p.prep, .yes p.autoRestart,
    .yes p.breakBrake, .num 2 p.restartSpeed, .num 2 p.margin, .flag (s.line l).pending, .name countings (s.line l).counting]).build

/-- The POSITIONS content of READ_PLAN: of the live copy, each position with its stand's T_s. -/
def State.positionsPayload (s : State) (ps : List Position) (withTs : Bool) : List Byte :=
  (Pay.list (ps.map fun p =>
    Pay.all ([.num 1 p.stand, .num 1 p.grade, .num 2 p.width, .num 2 p.dt] ++ if withTs then [.num 2 (s.stand p.stand).ts] else []))).build

/-! ## Stands (R79, R101) -/

/-- A break cause: its source, numbered in the order of R97 with WARM_START after it, and its stand where it has one. -/
def Cause.pay : Cause → Pay
  | .webBreak st => .form 1 [.num 1 st]
  | .folderJam => .form 2 []
  | .runout st => .form 3 [.num 1 st]
  | .stopLine => .form 4 []
  | .console => .form 5 []
  | .warmStart => .form 6 []

/-- The remaining paste time in ms. -/
def Stand.pasteMs (x : Stand) : Nat := (x.pasteLeft.getD 0) / 1000

/-- An arm's record in READ_STAND. -/
def ArmRec.pay (r : ArmRec) : Pay := .all [.name armStates r.state, .opt 2 r.roll, .opt 1 r.callOff]

/-- The break states, CLEAR and BREAK (R97). -/
def breakStates : List Bool := [false, true]

/-- The content of READ_STAND: the measurement part of R79, then the sequencing part of R101. -/
def State.standPayload (s : State) (st : Nat) : List Byte :=
  let x := s.stand st
  let line := (s.lineOf st).map s.line
  let lengthOf := fun d => (s.runningGrade st).bind fun g => (s.lineOf st).bind fun _ => x.df.bind fun _ => d.map g.length
  (Pay.all [.opt 1 (s.lineOf st), .num 2 ((line.map Line.v).getD 0), .num 1 x.m, .num 1 x.k, .num 1 x.quarters, .opt 2 x.df,
    .opt 2 (lengthOf x.df), .opt 2 (lengthOf (s.spliceAt st)), .opt 2 (s.runLength st), .num 2 x.ts,
    .num 1 (if x.run.dir = .up then 1 else 2), .num 1 x.run.count,
    .flag x.measureLost.isSome, .optName [LostCause.lost, LostCause.suspect] x.measureLost, .opt 2 x.lastVs,
    .flag x.armA.chan.ref.isSome, .flag x.armB.chan.ref.isSome,
    .num 2 x.offset, .num 1 x.tol, .num 2 x.pulse, .opt 1 x.loading, .opt 2 (s.dMin st),
    .name seqs x.seq, .num 1 x.matchCount, .num 2 x.pasteMs, .flag x.late, .flag x.runout, .flag x.drive, .flag x.paste, .flag x.brake,
    x.armA.pay, x.armB.pay,
    .num 1 (nameByte breakStates (line.map Line.inBreak)), .optForm ((line.bind Line.cause).map Cause.pay),
    .flag ((line.map fun l => l.enables.webBreak).getD false), .flag ((line.map fun l => l.enables.jam).getD false),
    .flag ((line.map fun l => l.enables.runout).getD false), .flag ((line.map fun l => l.enables.stopLine).getD false),
    .flag ((line.map fun l => l.enables.console).getD false)]).build

/-! ## Jobs (R102, R107) -/

/-- The content of READ_JOB; a LIVE job also gives its line's counting state and splice window, which a job that is not LIVE leaves out
(DEDUCED, notes/assumptions/5.md). -/
def State.jobPayload (s : State) (n : Nat) (j : Job) : List Byte :=
  (Pay.all ([.num 2 n, .num 1 j.line, .name jobStates j.state, .num 4 j.good, .num 4 j.makeready, .num 4 j.splice, .num 4 j.brk,
    .num 4 j.changeover, .num 2 j.spliceCount, .num 2 j.breakCount, .num 4 j.consumedM, .num 4 j.consumedG, .num 4 j.stripM,
    .num 4 j.stripG, .num 4 j.stubM, .num 4 j.stubG, .opt 4 j.target, .opt 2 j.allowance, .flag j.excess, .flag j.targetMet] ++
    if j.state = .live then [.name countings (s.line j.line).counting, .num 2 (s.line j.line).window] else [])).build

/-! ## Orders (R120, R138) -/

def Requester.pay : Requester → Pay
  | .node n => .form 1 [.num 1 n]
  | .arm s a => .form 2 [.num 1 s, .name arms a]
  | .plant => .form 3 []

def Source.pay : Source → Pay
  | .node n => .form 1 [.num 1 n]
  | .bay b => .form 2 [.num 1 b]

/-- A destination: a bay, a stand and arm, or a node (R120). -/
def Dest.pay : Dest → Pay
  | .bay b => .form 1 [.num 1 b]
  | .arm s a => .form 2 [.num 1 s, .name arms a]
  | .node n => .form 3 [.num 1 n]

/-- A MOVE's named destination: a bay or a node (R120). -/
def Dest.namedPay : Dest → Pay
  | .bay b => .form 1 [.num 1 b]
  | .node n => .form 2 [.num 1 n]
  | .arm s a => .form 3 [.num 1 s, .name arms a]

/-- An order's place in the dispatch queue, counted from 1. -/
def State.queuePlace (s : State) (n : Nat) : Option Nat := if s.queue.contains n then some (s.queue.idxOf n + 1) else none

/-- The content of READ_ORDER (R138). -/
def State.orderPayload (s : State) (n : Nat) (o : Order) : List Byte :=
  (Pay.all [.num 1 n, .name orderKinds o.kind, o.requester.pay, .opt 2 o.roll, .opt 2 (o.named.map Prod.fst),
    .tag ((o.named.map Prod.snd).getD 0), .optForm (o.source.map Source.pay), .optForm (o.dest.map Dest.pay),
    .optForm (o.namedDest.map Dest.namedPay), .opt 1 o.grade, .opt 2 o.width, .opt 6 o.deadline, .name classes o.cls,
    .name orderStates o.state, .opt 1 o.vehicle, .num 4 o.seq, .flag o.noStock, .flag o.noBay, .flag o.noRoute, .flag o.abort,
    .opt 1 (s.queuePlace n)]).build

/-! ## Vehicles (R140, R156) -/

/-- A position: a node or a segment. -/
def spotPay : Spot → Pay
  | .node n => .form 1 [.num 1 n]
  | .segment n => .form 2 [.num 1 n]

/-- A timer: running, suspended or stopped, with the time left in ms. -/
def Timer.pay : Timer → List Pay
  | .running l => [.num 1 1, .num 3 (l / 1000)]
  | .suspended l => [.num 1 2, .num 3 (l / 1000)]
  | .stopped => [.num 1 3, .num 3 0]

/-- A segment's kind byte; 0 where it is not configured. -/
def Segment.kindByte (g : Segment) : Nat :=
  match g.kind with
  | some (.loop _) => 1
  | some (.siding ..) => 2
  | none => 0

/-- The content of READ_VEHICLE (R156). -/
def State.vehiclePayload (s : State) (n : Nat) : List Byte :=
  let v := s.vehicle n
  (Pay.all ([.opt 1 (s.vehicleStation n), .num 1 (if v.inService then 2 else 1), .name vStates v.state,
    .optName prevStates v.prev, .optName stallCauses v.cause, .optForm (v.pos.map spotPay), .list (v.held.map (.num 1)),
    .opt 1 v.waiting, .opt 1 (v.leg.map Leg.route), .opt 1 (v.leg.map Leg.progress), .opt 1 v.nextRoute, .opt 1 v.order, .opt 2 v.load,
    .opt 6 v.lastReport, .num 1 v.docked, .optName decks v.deck] ++ v.progress.pay ++ v.transfer.pay ++
    [.opt 1 (v.waiting.map fun g => (s.segment g).waiters.idxOf n + 1),
     .list (v.held.map fun g => .all [.num 1 (s.segment g).kindByte, .num 1 (s.segment g).waiters.length]), .flag s.halted,
     .num 1 s.progressTimeout, .num 1 s.transferTimeout, .num 2 s.urgentMargin])).build

/-! ## Stations (R161, R165) and the content of commands (R169, R176) -/

/-- The content of a command (R169). -/
def Cmd.pay : Cmd → Pay
  | .task order pickup drop toPickup toDrop => .all [.num 1 order, .num 1 pickup, .opt 1 drop, .opt 1 toPickup, .opt 1 toDrop]
  | .grant g => .num 1 g
  | .wait g => .num 1 g
  | .transfer o => .num 1 o
  | .undock o => .num 1 o
  | .abort o => .num 1 o
  | .target line job good => .all [.num 1 line, .num 2 job, .num 4 good]
  | .accepted kind => .num 1 kind
  | .refused kind reason => .all [.num 1 kind, .name reasons reason]

/-- A station role with its number or range. -/
def rolePay : Role → Pay
  | .vehicle n => .form 1 [.num 1 n]
  | .standNode s => .form 2 [.num 1 s]
  | .bayNode first count => .form 3 [.num 1 first, .num 1 count]
  | .dockReader n => .form 4 [.num 1 n]
  | .scale => .form 5 []
  | .console l => .form 6 [.num 1 l]

/-- The line's settings and the pending broadcast, given by both forms of READ_STATION. -/
def State.lineSettings (s : State) : List Pay := [.name rates s.rate, .num 1 s.replyWindow, .flag s.pendingBroadcast.isSome]

/-- The content of READ_STATION (R165). -/
def State.stationPayload (s : State) (a : Nat) (x : Station) : List Byte :=
  (Pay.all ([.num 1 a, rolePay x.role, .num 1 (if x.silent then 2 else 1), .num 1 x.miss, .num 1 x.reduced,
    .list (x.out.map fun c => .form c.kind [c.pay]), .num 1 x.offer.length] ++ s.lineSettings)).build

/-- The content of READ_STATION, next-station form, when there is no station. -/
def State.noStationPayload (s : State) : List Byte := (Pay.all s.lineSettings).build

/-! ## Attention (R175) -/

/-- The payload of READ_ATTENTION (R175). -/
def State.attentionPayload (s : State) : List Byte :=
  BitVec.ofNat 8 s.attn.length :: s.attn.flatMap fun e => beBytes 1 e.1 ++ beBytes 2 e.2.subject ++ beBytes 1 e.2.count

/-! ## Answer frames (R177) -/

/-- A status's number: OK 0 to LIMIT 7 (R177). -/
def Status.toNat (x : Status) : Nat := statuses.idxOf x

/-- The bytes of an answer frame (R177). -/
def Answer.frame (a : Answer) : List Byte :=
  BitVec.ofNat 8 a.status.toNat :: BitVec.ofNat 8 a.kind :: BitVec.ofNat 8 a.payload.length :: a.payload

end Sys2Proof.Machine
end

