-- ==== Sys2Proof/Machine/Port.lean ====
section
/-! DEFINITION. How a command is taken: a step of the part (event), a plant request completed through the Plant Port (R170 to R173), and
a report taken in an exchange of the station line (R162 to R165). -/

namespace Sys2Proof.Machine

/-! ## Steps -/

/-- An event taken: in standby and without main power none is (R179, R183). Its effects are one update, at whose end the assignment
pass it led to is run (R129). -/
def event (f : State → State) (s : State) : Out State := if s.awake then .next (f s.fresh).finish else .next s

/-- An event that a test on the state admits; what the test turns away changes nothing (DESIGN CHOICE, notes/assumptions/1.md). -/
def eventIf (test : State → Bool) (f : State → State) (s : State) : Out State :=
  if s.awake && test s then .next (f s.fresh).finish else .next s

/-- The expiry of a timer with some µs left, none of one that does not run. One that the part's own time put into the queue is of effect
only while the timer still stands at its end: a restart or a stop taken before it calls it off (R75, R151, R152, R162). One from outside
is the end of a timer that runs (DESIGN CHOICE, notes/assumptions/2.md). -/
def expiry (c : Instr) (left : Option Nat) (f : State → State) : State → Out State :=
  eventIf (fun s => left.any fun n => n == 0 || !s.expiring.contains c) f

/-! ## Plant requests (R171, R172) -/

/-- What an owning block makes of a request: the records after it, the status and the payload. -/
structure Reply where
  state : State
  status : Status
  payload : List Byte
deriving DecidableEq, Repr

/-- A request taken, with its answer's payload. -/
def State.okWith (s : State) (payload : List Byte) : Reply := ⟨s, .ok, payload⟩

/-- A request taken, with no payload. -/
def State.ok (s : State) : Reply := ⟨s, .ok, []⟩

/-- A request refused: no change (R172). -/
def State.no (s : State) (x : Status) : Reply := ⟨s, x, []⟩

/-- The answer formed in the port (R172). -/
def State.answered (s : State) (kind : Nat) (x : Status) (payload : List Byte) : State :=
  { s with port := ⟨.answer, none, some ⟨x, kind, payload⟩⟩ }

/-- A request completed by its owner (R172). -/
def complete (c : Instr) (h : State → Reply) (s : State) : State :=
  let r := h s
  r.state.answered c.requestKind r.status r.payload

/-- Bytes shifted out in a transaction of some clocked bytes: those of a frame, then zeros (R173). -/
def clockedOut (frame : List Byte) (n : Nat) : List Byte := (frame ++ List.replicate n 0#8).take n

/-- The kind echo of the request the port holds or has answered (R171, R173). -/
def Port.kindHeld (p : Port) : Nat :=
  match p.state with
  | .working => (p.held.map Instr.requestKind).getD 0
  | .answer => (p.answer.map Answer.kind).getD 0
  | .idle | .receiving => 0

/-- The BUSY frame (R171, R173). -/
def Port.busyFrame (p : Port) : List Byte := Answer.frame ⟨.busy, p.kindHeld, []⟩

/-- A transaction whose bytes are discarded, with what the part shifts out in it. -/
def State.discards (s : State) (frame : List Byte) (n : Nat) : State := { s with shifted := clockedOut frame n }

/-- The bytes a request's frame has. -/
def frameLength (c : Instr) : Nat := ((encodeRequest c).map List.length).getD 0

/-- A plant request. A port WORKING on this request completes it. An IDLE port takes the request's transaction and completes it in the
same step, which stands for the two steps of R171 and R172 (DESIGN CHOICE, notes/assumptions/4.md); in ENTERING it is not taken (R182). A port that holds another request or an
unread answer shifts out BUSY. -/
def request (c : Instr) (h : State → Reply) (s : State) : Out State :=
  if s.awake then
    match s.port.state with
    | .working =>
      if s.port.held = some c then .next (complete c h s.fresh).finish
      else .next (s.fresh.discards s.port.busyFrame (frameLength c))
    | .answer => .next (s.fresh.discards s.port.busyFrame (frameLength c))
    | .idle | .receiving =>
      if s.standby = .running then .next ((complete c h s.fresh).discards [] (frameLength c)).finish
      else .next (s.fresh.discards [] (frameLength c))
  else .next s

/-- A read transaction of some clocked bytes (R173). -/
def State.readClocked (s : State) (n : Nat) : State :=
  match s.port.state with
  | .answer =>
    match s.port.answer with
    | some a =>
      let t := s.discards a.frame n
      if a.frame.length ≤ n then { t with port := .cold } else t
    | none => s
  | .working => s.discards s.port.busyFrame n
  | .idle | .receiving => s.discards (Answer.frame ⟨.badState, 0, []⟩) n

/-! ## Exchanges (R162 to R165) -/

/-- The kinds of report, numbered in the order of R169. -/
inductive Report
  | none_ | position | claim | docked | loaded | unloaded | idle | fault | tagRead | scaleWeight | bayHeights | prepDone | stubOff
  | spliceNow | consoleEvent
deriving DecidableEq, Repr

/-- A report kind's number, 1 to 15 (R176). -/
def Report.toNat : Report → Nat
  | .none_ => 1
  | .position => 2
  | .claim => 3
  | .docked => 4
  | .loaded => 5
  | .unloaded => 6
  | .idle => 7
  | .fault => 8
  | .tagRead => 9
  | .scaleWeight => 10
  | .bayHeights => 11
  | .prepDone => 12
  | .stubOff => 13
  | .spliceNow => 14
  | .consoleEvent => 15

/-- An exchange begun with a station: its oldest command is attached to the POLL and gone from the out-list, kept items take the room,
and the window opens (R162, R167). -/
def State.beginExchange (s : State) (a turn : Nat) : State :=
  match s.station a with
  | none => s
  | some x =>
    let r := offerKept s.halted x.offer.length x.out.tail x.offer
    let frame := match x.out.head? with
      | some c => stationFrame a c.kind c.pay.build
      | none => stationFrame a 0 []
    { s.putStation a (some { x with out := r.1, offer := r.2 }) with
      exchange := some ⟨a, true, s.replyWindow * 1000, turn, s.rate⟩, receiver := .hunting, further := none, lineOut := [.frame frame] }

/-- The next station of the cycle that is due a poll (R163): a record freed is passed over, a SILENT one with a counter above 0 is
passed over with its counter decremented, and an empty cycle begins anew. The number bounds the records taken. -/
def State.nextInCycle : Nat → State → State × Option Nat
  | 0, s => (s, none)
  | n + 1, s =>
    match s.cycle with
    | [] => if s.stations.isEmpty then (s, none) else State.nextInCycle n { s with cycle := s.stations.keys }
    | a :: rest =>
      let t := { s with cycle := rest }
      match s.station a with
      | none => State.nextInCycle n t
      | some x =>
        if x.silent && x.reduced != 0 then State.nextInCycle n (t.putStation a (some { x with reduced := x.reduced - 1 }))
        else (t, some a)

/-- Enough records to find a station due a poll: eight rounds of the most live records, each with its beginning, and one more record. -/
def cycleBound : Nat := 8 * (Config.stationPlaces + 1) + Config.stationPlaces + 2

/-- A poll: the further exchange a MORE mark earned, or the next station of the cycle (R163, R164). -/
def State.pollNext (s : State) : State :=
  match s.further.filter fun e => (s.station e.1).isSome with
  | some (a, turn) => s.beginExchange a (turn + 1)
  | none =>
    let r := State.nextInCycle cycleBound { s with further := none }
    match r.2 with
    | some a => r.1.beginExchange a 1
    | none => r.1

/-- A POLL may be sent: no exchange and no broadcast stands before it, and the part is not ENTERING (R162, R168, R182). -/
def State.mayPoll (s : State) : Bool := s.standby == .running && s.exchange.isNone && s.pendingBroadcast.isNone

/-- The exchange ends with no reply: a miss is counted (R162, R165). -/
def State.missed (s : State) : State :=
  match s.exchange with
  | none => s
  | some e =>
    let t := { s with exchange := none, receiver := .hunting, further := none }
    match s.station e.addr with
    | none => t
    | some x =>
      let miss := min 3 (x.miss + 1)
      let silenced := !x.silent && miss == 3
      let t1 := t.putStation e.addr (some { x with miss := miss, silent := x.silent || silenced,
                                                   reduced := if x.silent || silenced then 7 else x.reduced })
      let t2 := match x.role with
        | .vehicle n => if (s.vehicle n).inService then t1.modVehicle n ({ · with docked := 0 }) else t1
        | _ => t1
      if silenced then
        let t3 := t2.raise .stationSilent e.addr
        match x.role with
        | .vehicle n => t3.stall n .silent none
        | _ => t3
      else t2

/-- The exchange a good frame of the polled station would answer now: the deciding frame under way, or a frame begun and completed in
this step inside the window (R162; DESIGN CHOICE, notes/assumptions/6.md). -/
def State.replying (s : State) : Option Exchange :=
  match s.exchange, s.receiver with
  | some e, .frame a decides => if decides ∧ a = e.addr then some e else none
  | some e, .hunting => if e.windowOpen then some e else none
  | none, _ => none

/-- A good reply, steps 1 to 3 of R164; the exchange ends, and MORE earns a further one while the turn holds fewer than 4. -/
def State.goodReply (s : State) (e : Exchange) (more : Bool) : State :=
  let s1 := s.modStation e.addr fun x => { x with miss := 0, silent := false, reduced := if x.silent then 0 else x.reduced }
  let s2 := match (s.station e.addr).map Station.role with
    | some (.vehicle n) => s1.modVehicle n ({ · with lastReport := some s.timeBase })
    | _ => s1
  { s2 with exchange := none, receiver := .hunting,
            further := if more = true ∧ e.turn < 4 then some (e.addr, e.turn) else none }

/-- A good reply taken from the polled station and handed on with its address and role (R164); with no exchange to answer, the command
changes nothing. -/
def report (more : Bool) (f : Nat → Role → State → State) (s : State) : Out State :=
  if s.awake then
    match s.replying with
    | some e =>
      match s.station e.addr with
      | some x => .next (f e.addr x.role (s.fresh.goodReply e more)).finish
      | none => .next s
    | none => .next s
  else .next s

/-- ACCEPTED placed for a report (R169). -/
def State.accept (s : State) (a : Nat) (k : Report) : State := s.send a (.accepted k.toNat)

/-- REFUSED placed for a report (R169). -/
def State.refuse (s : State) (a : Nat) (k : Report) (r : Reason) : State := s.send a (.refused k.toNat r)

/-- A report of a vehicle station handed to the vehicle's owner; from a station of another role it is REFUSED (R164, R169). -/
def vehicleReport (k : Report) (more : Bool) (f : Nat → Nat → State → State) : State → Out State :=
  report more fun a role s =>
    match role with
    | .vehicle n => f a n s
    | _ => s.refuse a k .badArgument

/-! ## The receiver (R159) -/

/-- A frame that starts now would decide the exchange (R162). -/
def State.frameDecides (s : State) : Bool := s.exchange.any Exchange.windowOpen

/-- A frame spoiled, or begun and spoiled in this step: the receiver hunts, and a deciding frame is a failure to reply (R159, R162). -/
def State.spoiled (s : State) : State :=
  match s.receiver with
  | .frame _ decides => if decides then s.missed else { s with receiver := .hunting }
  | .hunting => if s.frameDecides then s.missed else s

/-- A marked character begins a frame (R159). -/
def State.frameBegins (s : State) (addr : Nat) : State := { s with receiver := .frame addr s.frameDecides }

end Sys2Proof.Machine
end

