-- ==== Sys2Proof/Machine/Registry.lean ====
section
/-! DEFINITION. The commands of the Roll Registry (chapter 1): announcement, holds, lookups, retirement, placement and the scale. -/

namespace Sys2Proof.Machine

/-! ## Lookups (R20 to R22) -/

/-- LOOKUP_ROLL (R20). -/
def State.lookup (s : State) (r : RollRef) : Reply :=
  if r.ok then
    match s.resolve r with
    | some (n, x) => s.okWith (s.rollPayload n x)
    | none => s.no .notFound
  else s.no .badArgument

def execLookupRoll (r : RollRef) (s : State) : Out State := request (.lookupRoll r) (·.lookup r) s

/-- LIST_ROLLS by grade and width (R21). -/
def State.listByGrade (s : State) (g w key : Nat) : Reply :=
  if g ≤ 15 ∧ 300 ≤ w ∧ w ≤ 2200 ∧ key ≤ Config.max32 then
    s.okWith (s.listPayload (s.rollsWhere fun r => r.grade == g && r.width == w && decide (key < r.arrival)))
  else s.no .badArgument

def execListRollsByGrade (g w key : Nat) (s : State) : Out State := request (.listRollsByGrade g w key) (·.listByGrade g w key) s

/-- A place LIST_ROLLS names is in range (R22). -/
def placeOk : ListPlace → Bool
  | .bay b => decide (1 ≤ b ∧ b ≤ Config.bays)
  | .vehicle n => decide (1 ≤ n ∧ n ≤ Config.vehicles)
  | .arm st a => decide (1 ≤ st ∧ st ≤ Config.stands) && a.isSome
  | .node n key => decide (1 ≤ n ∧ n ≤ Config.nodes ∧ key ≤ Config.max32)

/-- The rolls at a place (R22). -/
def State.rollsAt (s : State) : ListPlace → List (Nat × Roll)
  | .bay b => (s.bay b).stack.flatMap fun n => s.numbered (some n)
  | .vehicle n => s.numbered (s.vehicle n).load
  | .arm st a => s.numbered (a.bind fun a => ((s.stand st).arm a).roll)
  | .node n key => s.rollsWhere fun r => r.state == .announced && r.loc == .node n && decide (key < r.arrival)

/-- LIST_ROLLS by location (R22). -/
def State.listByPlace (s : State) (p : ListPlace) : Reply :=
  if placeOk p then s.okWith (s.listPayload (s.rollsAt p)) else s.no .badArgument

def execListRollsByLocation (p : ListPlace) (s : State) : Out State := request (.listRollsByLocation p) (·.listByPlace p) s

/-! ## Announcement (R9 to R12) -/

/-- The argument checks of an announcement but for the node (R10). -/
def State.announceArgs (s : State) (t : Tag) (g w d : Nat) (kg : Option Nat) : Bool :=
  tagOk t && decide (g ≤ 15) && (s.grade g).configured && decide (300 ≤ w ∧ w ≤ 2200) &&
  decide ((s.grade g).core ≤ d ∧ d ≤ 15000) && kg.all fun x => decide (1 ≤ x ∧ x ≤ 5000)

/-- The lowest free record place (R1). -/
def State.freeRecord (s : State) : Option Nat := lowestFree Config.rollPlaces s.rolls.keys

/-- The capacity check of an announcement: a record place, an order record and an arrival number are free (R9, R10). -/
def State.announceRoom (s : State) : Bool := s.freeRecord.isSome && s.orderFree && decide (s.arrival < Config.max32)

/-- The record of an announced roll (R10). -/
def Roll.announced (t : Tag) (g w d : Nat) (kg : Option Nat) (node arrival order : Nat) : Roll :=
  { tag := t, grade := g, width := w, arrival := arrival, state := .announced, loc := .node node, diameter := d, weight := kg,
    mount := none, order := some order, job := none, consumed := 0, hold := none, returned := false }

/-- A roll announced at a node, with its STORE order (R9, R10, R12, R122); none when there is no room. -/
def State.announce (s : State) (t : Tag) (g w d : Nat) (kg : Option Nat) (node : Nat) : Option (Nat × State) :=
  if s.announceRoom then
    match s.freeRecord with
    | none => none
    | some n =>
      match s.createOrder (Order.store node n) with
      | none => none
      | some (o, x) => some (n, { x.putRoll n (some (Roll.announced t g w d kg node (s.arrival + 1) o)) with arrival := s.arrival + 1 })
  else none

/-- A node of role DOCK or STUB (R12). -/
def State.announceNode (s : State) (node : Nat) : Bool :=
  match s.node node with
  | some x => decide (1 ≤ node ∧ node ≤ Config.nodes) && (x.role == .dock || x.role == .stub)
  | none => false

/-- ANNOUNCE_ROLL (R12). -/
def State.announceRequest (s : State) (t : Tag) (g w d : Nat) (kg : Option Nat) (node : Nat) : Reply :=
  if s.announceArgs t g w d kg && s.announceNode node then
    if (s.rollByTag t).isSome then s.no .duplicate
    else
      match s.announce t g w d kg node with
      | some (n, x) => x.okWith (beBytes 2 n ++ beBytes 4 x.arrival)
      | none => (s.raise .storeFull node).no .full
  else s.no .badArgument

def execAnnounceRoll (t : Tag) (g w d : Nat) (kg : Option Nat) (node : Nat) (s : State) : Out State :=
  request (.announceRoll t g w d kg node) (·.announceRequest t g w d kg node) s

/-- A live record is the roll of a repeated read (R11). -/
def Roll.readAgain (r : Roll) (g w node : Nat) : Bool := r.state == .announced && r.loc == .node node && r.grade == g && r.width == w

/-- A repeated read sets a receipt weight the record lacks (R11). -/
def Roll.weighedBy (r : Roll) (kg : Option Nat) : Roll := { r with weight := r.weight.or kg }

/-- TAG_READ taken from the reader of a node (R10, R11). -/
def State.tagReadAt (s : State) (a node : Nat) (t : Tag) (g w d : Nat) (kg : Option Nat) : State :=
  if s.announceArgs t g w d kg then
    match s.resolve (.byTag t) with
    | some (n, r) =>
      if r.readAgain g w node then (s.putRoll n (some (r.weighedBy kg))).accept a .tagRead else s.refuse a .tagRead .duplicateTag
    | none =>
      match s.announce t g w d kg node with
      | some (_, x) => x.accept a .tagRead
      | none => (s.raise .storeFull node).refuse a .tagRead .full
  else s.refuse a .tagRead .badArgument

/-- TAG_READ (R10, R11). -/
def execTagRead (t : Tag) (g w d : Nat) (kg : Option Nat) (more : Bool) (s : State) : Out State :=
  report more (fun a role s =>
    match role with
    | .dockReader node => s.tagReadAt a node t g w d kg
    | _ => s.refuse a .tagRead .badArgument) s

/-- SCALE_WEIGHT taken from the scale (R13). -/
def State.scaleAt (s : State) (a : Nat) (t : Tag) (kg : Nat) : State :=
  if 1 ≤ kg ∧ kg ≤ 5000 then
    match s.resolve (.byTag t) with
    | some (n, r) =>
      if r.state = .announced then (s.putRoll n (some { r with weight := some kg })).accept a .scaleWeight
      else s.refuse a .scaleWeight .badState
    | none => s.refuse a .scaleWeight .badState
  else s.refuse a .scaleWeight .badArgument

/-- SCALE_WEIGHT (R13). -/
def execScaleWeight (t : Tag) (kg : Nat) (more : Bool) (s : State) : Out State :=
  report more (fun a role s =>
    match role with
    | .scale => s.scaleAt a t kg
    | _ => s.refuse a .scaleWeight .badArgument) s

/-! ## Holds (R16, R19) -/

/-- A roll that HOLD_ROLL may hold (R16 step 3). -/
def Roll.mayHold (r : Roll) : Bool :=
  r.order.isNone && r.hold != some .discrepancy &&
    match r.state with
    | .reserved | .inTransit | .ready | .running => false
    | .announced | .stored | .staged | .stub => true

/-- HOLD_ROLL (R16). -/
def State.holdRequest (s : State) (r : RollRef) (h : Option Hold) : Reply :=
  match h with
  | none | some .discrepancy => s.no .badArgument
  | some reason =>
    if r.ok then
      match s.resolve r with
      | some (n, x) => if x.mayHold then (s.putRoll n (some { x with hold := some reason })).ok else s.no .badState
      | none => s.no .notFound
    else s.no .badArgument

def execHoldRoll (r : RollRef) (h : Option Hold) (s : State) : Out State := request (.holdRoll r h) (·.holdRequest r h) s

/-- A roll that RELEASE_ROLL may release (R19). -/
def State.mayRelease (s : State) (r : Roll) : Bool :=
  r.order.isNone &&
    match r.hold with
    | none => false
    | some .discrepancy =>
      match r.bay with
      | some b => (s.bay b).hold != some .discrepancy
      | none => true
    | some _ => true

/-- RELEASE_ROLL (R19): a released STORED roll leads to a pass (R129). -/
def State.releaseRequest (s : State) (r : RollRef) : Reply :=
  if r.ok then
    match s.resolve r with
    | some (n, x) =>
      if s.mayRelease x then
        let t := s.putRoll n (some { x with hold := none })
        (if x.state = .stored then t.notice else t).ok
      else s.no .badState
    | none => s.no .notFound
  else s.no .badArgument

def execReleaseRoll (r : RollRef) (s : State) : Out State := request (.releaseRoll r) (·.releaseRequest r) s

/-! ## Retirement and placement (R23, R25) -/

/-- A roll that RETIRE_ROLL may retire (R23). -/
def State.mayRetire (s : State) (r : Roll) : Bool :=
  r.order.isNone && (r.state == .announced || r.state == .stored || r.hold.isSome) && !s.transferAt r

/-- The stand whose arm a roll is on. -/
def Roll.stand (r : Roll) : Option Nat :=
  match r.loc with
  | .arm st _ => some st
  | _ => none

/-- The call-off condition evaluated for the stand a roll has left (R23, R92). -/
def State.reviewStand (s : State) (st : Option Nat) : State :=
  match st with
  | some st => s.evalCallOff st
  | none => s

/-- RETIRE_ROLL (R23). -/
def State.retireRequest (s : State) (r : RollRef) : Reply :=
  if r.ok then
    match s.resolve r with
    | some (n, x) => if s.mayRetire x then ((s.retireRecord n x).reviewStand x.stand).ok else s.no .badState
    | none => s.no .notFound
  else s.no .badArgument

def execRetireRoll (r : RollRef) (s : State) : Out State := request (.retireRoll r) (·.retireRequest r) s

/-- A destination of PLACE_ROLL is well formed (R25 step 1). -/
def destOk : PlaceDest → Bool
  | .bay b => decide (1 ≤ b ∧ b ≤ Config.bays)
  | .arm st a => decide (1 ≤ st ∧ st ≤ Config.stands) && a.isSome

/-- A destination is the bay the roll already lies in (R25 step 1). -/
def Roll.liesIn (r : Roll) : PlaceDest → Bool
  | .bay b => r.bay == some b
  | .arm .. => false

/-- A roll that PLACE_ROLL may move (R25 step 3). -/
def State.mayPlace (s : State) (r : Roll) : Bool :=
  !s.transferAt r && (r.hold == some .discrepancy ||
    match r.loc with
    | .vehicle v => r.state == .inTransit && ((s.vehicle v).state == .stalled || (s.vehicle v).state == .outOfService)
    | _ => false)

/-- A destination that PLACE_ROLL may set a roll in (R25 step 4). -/
def State.admitsPlace (s : State) : PlaceDest → Bool
  | .bay b => s.admitsMove b
  | .arm st a =>
    match a with
    | some a => (((s.stand st).arm a).state == .empty && ((s.stand st).arm a).callOff.isNone) && (s.stand st).loading.isSome
    | none => false

/-- A roll set in its new place (R25). -/
def State.setPlace (s : State) (n : Nat) : PlaceDest → State
  | .bay b => s.joinBay b n
  | .arm st a =>
    match a with
    | some a => s.stage n st a
    | none => s

/-- A vehicle whose load has been placed elsewhere: a STALLED one is sent ABORT (R155). -/
def State.abortPlaced (s : State) (r : Roll) (o : Nat) : State :=
  match r.loc with
  | .vehicle v => if (s.vehicle v).state = .stalled then s.sendVehicle v (.abort o) else s
  | _ => s

/-- The order link of a placed roll: a FAILED order is unlinked, the order its vehicle was carrying is freed (R25, R155). -/
def State.placeLink (s : State) (n : Nat) (r : Roll) : State :=
  match r.order with
  | none => s
  | some o =>
    match (s.order o).map Order.state with
    | some .failed => s.unlink n o
    | some _ => (s.abortPlaced r o).freeOrder o
    | none => s.modRoll n ({ · with order := none })

/-- The place move (R25). -/
def State.place (s : State) (n : Nat) (r : Roll) (d : PlaceDest) : State :=
  let s1 := (s.removeFromPlace n r).setPlace n d
  let s2 := s1.modRoll n fun x => { x with hold := if x.hold = some .discrepancy then none else x.hold }
  (s2.placeLink n r).reviewStand r.stand

/-- PLACE_ROLL (R25). -/
def State.placeRequest (s : State) (r : RollRef) (d : PlaceDest) : Reply :=
  if r.ok && destOk d then
    match s.resolve r with
    | some (n, x) =>
      if x.liesIn d then s.no .badArgument
      else if s.mayPlace x && s.admitsPlace d then (s.place n x d).ok
      else s.no .badState
    | none => s.no .notFound
  else s.no .badArgument

def execPlaceRoll (r : RollRef) (d : PlaceDest) (s : State) : Out State := request (.placeRoll r d) (·.placeRequest r d) s

end Sys2Proof.Machine
end

