-- ==== Sys2Proof/Machine/Bays.lean ====
section
/-! DEFINITION. The commands of the Store Map (chapter 2): reading, setting and releasing a bay, and the bay sensor comparison. -/

namespace Sys2Proof.Machine

/-! ## Reading (R29) -/

/-- READ_BAY by number. -/
def State.readBay (s : State) (b : Nat) : Reply :=
  if 1 ≤ b ∧ b ≤ Config.bays then s.okWith (s.bayPayload b) else s.no .badArgument

def execReadBayByNumber (b : Nat) (s : State) : Out State := request (.readBayByNumber b) (·.readBay b) s

/-- The lowest-numbered bay above b that carries hold DISCREPANCY. -/
def State.nextHeld (s : State) (b : Nat) : Option Nat :=
  (span (b + 1) Config.bays).find? fun n => (s.bay n).hold == some .discrepancy

/-- READ_BAY, next held bay. -/
def State.readNextHeld (s : State) (b : Nat) : Reply :=
  if b ≤ Config.bays then
    match s.nextHeld b with
    | some n => s.okWith (s.bayPayload n)
    | none => s.ok
  else s.no .badArgument

def execReadBayNextHeld (b : Nat) (s : State) : Out State := request (.readBayNextHeld b) (·.readNextHeld b) s

/-! ## SET_BAY (R28) -/

/-- A node is configured with a role. -/
def State.nodeIs (s : State) (n : Nat) (r : NodeRole) : Bool := decide (1 ≤ n ∧ n ≤ Config.nodes) && (s.node n).any fun x => x.role == r

/-- The arguments of SET_BAY are in range. -/
def State.setBayArgs (s : State) (b limit aisle : Nat) (h : Option HoldSetting) : Bool :=
  decide (1 ≤ b ∧ b ≤ Config.bays ∧ limit ≤ 3) && h.isSome && (limit == 0 || s.nodeIs aisle .aisle)

/-- The aisle node a request gives a bay. -/
def aisleOf (limit aisle : Nat) : Option Nat := if limit = 0 then none else some aisle

/-- A bay is in use (R28). -/
def State.bayInUse (s : State) (b : Nat) : Bool :=
  !(s.bay b).stack.isEmpty || s.reservedHeight b != 0 || (s.bay b).mark.isSome || (s.bay b).hold == some .discrepancy

/-- The operator-hold setting conflicts with the bay (R28 step 3). -/
def Bay.settingRefused (x : Bay) (limit : Nat) : HoldSetting → Bool
  | .keep => false
  | .set | .clear => x.hold == some .discrepancy || limit == 0

/-- The hold a setting leaves (R28). -/
def Bay.holdAfter (x : Bay) (limit : Nat) : HoldSetting → Option BayHold
  | .set => some .operator
  | .clear => none
  | .keep => if limit = 0 ∧ x.hold = some .operator then none else x.hold

/-- SET_BAY (R28). -/
def State.setBayRequest (s : State) (b limit aisle : Nat) (h : Option HoldSetting) : Reply :=
  if s.setBayArgs b limit aisle h then
    let x := s.bay b
    let setting := h.getD .keep
    let changed := x.limit != limit || x.aisle != aisleOf limit aisle
    if changed && s.bayInUse b then s.no .badState
    else if x.settingRefused limit setting then s.no .badState
    else
      let y := { x with limit := limit, aisle := aisleOf limit aisle, hold := x.holdAfter limit setting }
      let t := s.setBay b y
      (if 1 ≤ limit ∧ y.hold = none ∧ (changed = true ∨ x.hold ≠ none) then t.notice else t).ok
  else s.no .badArgument

def execSetBay (b limit aisle : Nat) (h : Option HoldSetting) (s : State) : Out State :=
  request (.setBay b limit aisle h) (·.setBayRequest b limit aisle h) s

/-! ## RELEASE_BAY (R44) -/

/-- The height checks of RELEASE_BAY: a bay in no station's range has none. -/
def State.heightSettled (s : State) (b : Nat) : Bool :=
  match s.sensorOf b with
  | none => true
  | some a => !((s.station a).any Station.silent) && (s.bay b).lastHeight == some (s.bay b).stack.length

/-- A roll freed from its DISCREPANCY hold at the release of its bay. -/
def Roll.unheld (r : Roll) : Roll := if r.hold = some .discrepancy ∧ r.order = none then { r with hold := none } else r

/-- RELEASE_BAY (R44). -/
def State.releaseBayRequest (s : State) (b : Nat) : Reply :=
  if 1 ≤ b ∧ b ≤ Config.bays then
    if (s.bay b).hold = some .discrepancy ∧ s.heightSettled b then
      (((s.modBay b ({ · with hold := none, confirm := 0 })).each (s.bay b).stack fun n s => s.modRoll n Roll.unheld).notice).ok
    else s.no .badState
  else s.no .badArgument

def execReleaseBay (b : Nat) (s : State) : Out State := request (.releaseBay b) (·.releaseBayRequest b) s

/-! ## Bay sensor comparison (R40 to R42) -/

/-- Step 1 of a confirmation: the reservation of the top roll released, its order PENDING (R42, R132). -/
def State.releaseTop (s : State) (b : Nat) : State :=
  match (s.top b).bind s.roll with
  | some r =>
    match r.state, r.order with
    | .reserved, some o => s.returnToPending o false
    | _, _ => s
  | none => s

/-- The put-aways a hold DISCREPANCY withdraws from a bay, in creation order: an order in UNLOADING keeps its destination (R37). -/
def State.withdrawable (s : State) (b : Nat) : List Nat :=
  (ranked (fun x y => decide (x.seq < y.seq)) (s.orders.filter fun e =>
    e.2.dest == some (.bay b) && e.2.state != .failed && e.2.state != .unloading)).map Prod.fst

/-- A put-away withdrawn and a new choice made for it (R37). -/
def State.rerouteFrom (s : State) (n : Nat) : State :=
  match s.order n with
  | none => s
  | some o => (s.withdrawBay n o).redirect n

/-- A confirmation of discrepancy (R42). -/
def State.confirmBay (s : State) (b : Nat) : State :=
  let stack := (s.bay b).stack
  let s1 := s.releaseTop b
  let s2 := (s1.modBay b ({ · with hold := some .discrepancy })).each stack fun n s => s.holdDiscrepancy n
  let s3 := s2.each (s2.withdrawable b) fun n s => s.rerouteFrom n
  s3.raise .rollDiscrepancy (stack.head?.getD 0)

/-- One reported height taken for its bay (R40, R41). -/
def State.takeHeight (s : State) (b h : Nat) : State :=
  let x := s.bay b
  let t := s.modBay b ({ · with lastHeight := some h })
  if x.limit = 0 ∨ x.hold = some .discrepancy then t
  else if s.heightMatches b h then t.modBay b ({ · with confirm := 0 })
  else if x.mark.isSome then t
  else if x.confirm = 0 then t.modBay b ({ · with confirm := 1 })
  else (t.modBay b ({ · with confirm := 0 })).confirmBay b

/-- The heights of a station's range, in ascending bay number: each bay's confirmation, with the new choices of R37 for its put-aways, is
complete before the next height is taken, so a put-away may be chosen into a bay the same report confirms next (DESIGN CHOICE,
notes/assumptions/13.md). -/
def State.takeHeights : Nat → List Nat → State → State
  | _, [], s => s
  | b, h :: hs, s => State.takeHeights (b + 1) hs (s.takeHeight b h)

/-- BAY_HEIGHTS (R40). -/
def execBayHeights (heights : List Nat) (more : Bool) (s : State) : Out State :=
  report more (fun a role s =>
    match role with
    | .bayNode first count =>
      if heights.length = count ∧ heights.all (fun h => decide (h ≤ 15)) then State.takeHeights first heights s
      else s.refuse a .bayHeights .badArgument
    | _ => s.refuse a .bayHeights .badArgument) s

end Sys2Proof.Machine
end

