-- ==== Sys2Proof/Machine/PlanTables.lean ====
section
/-! DEFINITION. The commands of the Grade and Plan Tables (chapter 3). -/

namespace Sys2Proof.Machine

/-! ## Grades (R46) -/

/-- A number lies in a range. -/
def within (lo hi n : Nat) : Bool := decide (lo ≤ n ∧ n ≤ hi)

/-- A grade's values are in the ranges of R45. -/
def Grade.inRange (x : Grade) : Bool :=
  within 30 120 x.basis && within 40 200 x.caliper && within 800 1600 x.core && within 1200 6000 x.threshold && decide (x.core < x.threshold)

/-- A grade record written: refused where it would change a grade in use (R46). -/
def State.writeGrade (s : State) (g : Nat) (x : Grade) : Reply :=
  if s.gradeInUse g ∧ s.grade g ≠ x then s.no .badState else (s.setGrade g x).ok

/-- SET_GRADE, configure form. -/
def State.configureGrade (s : State) (g : Nat) (x : Grade) : Reply :=
  if g ≤ 15 ∧ x.inRange then s.writeGrade g x else s.no .badArgument

def execSetGradeConfigure (g basis caliper core threshold : Nat) (s : State) : Out State :=
  request (.setGradeConfigure g basis caliper core threshold) (·.configureGrade g ⟨basis, caliper, core, threshold⟩) s

/-- SET_GRADE, clear form: it carries a caliper of 0. -/
def State.clearGrade (s : State) (g caliper : Nat) : Reply :=
  if g ≤ 15 ∧ caliper = 0 then s.writeGrade g .cold else s.no .badArgument

def execSetGradeClear (g caliper : Nat) (s : State) : Out State := request (.setGradeClear g caliper) (·.clearGrade g caliper) s

/-- READ_GRADE. -/
def State.readGradeRequest (s : State) (g : Nat) : Reply := if g ≤ 15 then s.okWith (s.gradePayload g) else s.no .badArgument

def execReadGrade (g : Nat) (s : State) : Out State := request (.readGrade g) (·.readGradeRequest g) s

/-! ## Writing plans (R50, R51, R58) -/

/-- A line number is in range. -/
def lineOk (l : Nat) : Bool := within 1 Config.lines l

/-- The line-level fields are in the ranges of R48. -/
def headOk (h : PlanHead) : Bool :=
  within 1 65535 h.job && within 0 Config.max32 h.target && within 0 65535 h.allowance && within 0 500 h.window && within 60 3600 h.lead &&
  within 0 1800 h.prep && h.autoRestart.isSome && h.breakBrake.isSome && within 20 300 h.restartSpeed && within 0 1000 h.margin

/-- A plan with its line-level fields replaced (R50). -/
def Plan.withHead (p : Plan) (h : PlanHead) : Plan :=
  { p with job := some h.job, target := h.target, allowance := h.allowance, window := h.window, lead := h.lead, prep := h.prep,
           autoRestart := h.autoRestart.getD false, breakBrake := h.breakBrake.getD true, restartSpeed := h.restartSpeed, margin := h.margin }

/-- A write to the working copy alone: while a changeover is pending it must leave a plan that passes R53 (R51). -/
def State.writeWorking (s : State) (l : Nat) (p : Plan) : Reply :=
  if (s.line l).pending ∧ ¬ s.planPasses l p then s.no .badState else (s.modLine l ({ · with working := p })).ok

/-- A live plan changed by a follow-write, with the working copy set equal to it (R58). -/
def State.followWrite (s : State) (l : Nat) (f : Plan → Plan) : State := s.modLine l fun x => { x with working := f x.live, live := f x.live }

/-- A HEAD follow-write: the line's stands and call-offs are re-evaluated (R58). -/
def State.followHead (s : State) (l : Nat) (h : PlanHead) : State :=
  let t := s.followWrite l (·.withHead h)
  t.each (t.lineStands l) fun st s => s.reevaluate st

/-- WRITE_PLAN HEAD. -/
def State.writeHead (s : State) (l : Nat) (h : PlanHead) : Reply :=
  if lineOk l && headOk h then
    if (s.line l).counting = .idle then (s.followHead l h).ok else s.writeWorking l ((s.line l).working.withHead h)
  else s.no .badArgument

def execWritePlanHead (l : Nat) (h : PlanHead) (s : State) : Out State := request (.writePlanHead l h) (·.writeHead l h) s

/-- A position is in the ranges of R48, on a configured grade, with a D_t above its core (R50). -/
def State.positionOk (s : State) (p : Position) : Bool :=
  within 1 Config.stands p.stand && within 0 15 p.grade && within 300 2200 p.width && within 1200 3000 p.dt &&
  (s.grade p.grade).configured && decide ((s.grade p.grade).core < p.dt)

/-- No stand appears in two positions. -/
def standsDiffer : List Position → Bool
  | [] => true
  | p :: ps => ps.all (fun q => q.stand != p.stand) && standsDiffer ps

/-- A position list passes the argument checks of R50. -/
def State.positionsOk (s : State) (ps : List Position) : Bool :=
  within 1 8 ps.length && ps.all s.positionOk && standsDiffer ps

/-- A POSITIONS follow-write, with the stand effects of R56 and the order effects of R57 (R58). -/
def State.followPositions (s : State) (l : Nat) (ps : List Position) : State :=
  let old := s.standsOf l
  (s.followWrite l ({ · with positions := ps })).replan l old false

/-- WRITE_PLAN POSITIONS. -/
def State.writePositions (s : State) (l : Nat) (ps : List Position) : Reply :=
  if lineOk l && s.positionsOk ps then
    if (s.line l).counting = .idle then
      if s.standsFree l ps then (s.followPositions l ps).ok else s.no .badState
    else s.writeWorking l { (s.line l).working with positions := ps }
  else s.no .badArgument

def execWritePlanPositions (l : Nat) (ps : List Position) (s : State) : Out State :=
  request (.writePlanPositions l ps) (·.writePositions l ps) s

/-! ## READ_PLAN (R52) -/

/-- The copy a selector names. -/
def Line.planOf (x : Line) : PlanSel → Plan
  | .working => x.working
  | .live => x.live

/-- READ_PLAN. -/
def State.readPlanRequest (s : State) (l : Nat) (sel : Option PlanSel) (part : Option PlanPart) : Reply :=
  if lineOk l then
    match sel, part with
    | some c, some .head => s.okWith (s.headPayload l ((s.line l).planOf c))
    | some c, some .positions => s.okWith (s.positionsPayload ((s.line l).planOf c).positions (c == .live))
    | _, _ => s.no .badArgument
  else s.no .badArgument

def execReadPlan (l : Nat) (sel : Option PlanSel) (part : Option PlanPart) (s : State) : Out State :=
  request (.readPlan l sel part) (·.readPlanRequest l sel part) s

/-! ## CHANGEOVER (R53, R54) -/

/-- A changeover that passed its checks: at once in IDLE or BREAK, else pending until a copy pulse (R54). -/
def State.startChangeover (s : State) (l : Nat) : Reply :=
  match (s.line l).counting with
  | .idle | .brk => (s.takeChangeover l false).okWith [1]
  | .makeready | .good | .splice | .changeover => (s.modLine l ({ · with pending := true })).okWith [2]

/-- CHANGEOVER: the checks in the order of R53. -/
def State.changeoverRequest (s : State) (l : Nat) : Reply :=
  let p := (s.line l).working
  if !lineOk l then s.no .badArgument
  else if (s.line l).pending then s.no .badState
  else if !p.complete then s.no .badState
  else if !s.jobOpen l p.job then s.no .badState
  else if !s.gradesFit p.positions then s.no .badArgument
  else if !s.standsFree l p.positions then s.no .badState
  else s.startChangeover l

def execChangeover (l : Nat) (s : State) : Out State := request (.changeover l) (·.changeoverRequest l) s

end Sys2Proof.Machine
end

