-- ==== Sys2Proof/Machine/Jobs.lean ====
section
/-! DEFINITION. The commands of the Spoilage Counter (chapter 6): jobs and copy pulses. -/

namespace Sys2Proof.Machine

/-- A job number is in range. -/
def jobOk (j : Nat) : Bool := within 1 65535 j

/-- A job record as OPEN_JOB creates it (R104). -/
def Job.opened (place line : Nat) : Job :=
  { place := place, line := line, state := .opened, good := 0, makeready := 0, splice := 0, brk := 0, changeover := 0, spliceCount := 0,
    breakCount := 0, consumedM := 0, consumedG := 0, stripM := 0, stripG := 0, stubM := 0, stubG := 0, target := none, allowance := none,
    excess := false, targetMet := false }

/-- OPEN_JOB (R104). -/
def State.openJobRequest (s : State) (j l : Nat) : Reply :=
  if jobOk j && lineOk l then
    if (s.job j).isSome then s.no .duplicate
    else
      match lowestFree Config.jobPlaces (s.jobs.map fun e => e.2.place) with
      | some p => (s.putJob j (some (.opened p l))).ok
      | none => s.no .full
  else s.no .badArgument

def execOpenJob (j l : Nat) (s : State) : Out State := request (.openJob j l) (·.openJobRequest j l) s

/-- CLOSE_JOB (R105). -/
def State.closeJobRequest (s : State) (j : Nat) : Reply :=
  if jobOk j then
    match s.job j with
    | none => s.no .notFound
    | some x => if x.state = .live then (s.closeLive x.line j).ok else s.no .badState
  else s.no .badArgument

def execCloseJob (j : Nat) (s : State) : Out State := request (.closeJob j) (·.closeJobRequest j) s

/-- READ_JOB by number (R107). -/
def State.readJob (s : State) (j : Nat) : Reply :=
  if jobOk j then
    match s.job j with
    | some x => s.okWith (s.jobPayload j x)
    | none => s.no .notFound
  else s.no .badArgument

def execReadJobByNumber (j : Nat) (s : State) : Out State := request (.readJobByNumber j) (·.readJob j) s

/-- READ_JOB, next job (R107). -/
def State.readNextJob (s : State) (j : Nat) : Reply :=
  if j ≤ 65535 then
    match s.jobs.first fun n _ => decide (j < n) with
    | some n =>
      match s.job n with
      | some x => s.okWith (s.jobPayload n x)
      | none => s.ok
    | none => s.ok
  else s.no .badArgument

def execReadJobNext (j : Nat) (s : State) : Out State := request (.readJobNext j) (·.readNextJob j) s

/-- A changeover pending on a job's line names it (R106). -/
def State.jobPending (s : State) (j l : Nat) : Bool := (s.line l).pending && (s.line l).working.job == some j

/-- RETIRE_JOB (R106). -/
def State.retireJobRequest (s : State) (j : Nat) : Reply :=
  if jobOk j then
    match s.job j with
    | none => s.no .notFound
    | some x =>
      if x.state == .live || s.jobPending j x.line || s.rolls.any (fun e => e.2.job == some j) then s.no .badState
      else (s.putJob j none).ok
  else s.no .badArgument

def execRetireJob (j : Nat) (s : State) : Out State := request (.retireJob j) (·.retireJobRequest j) s

/-- A copy pulse: at a pending changeover it takes effect and counts the pulse in its course (R55), else the copy is counted (R110). -/
def State.copy (s : State) (l : Nat) : State := if (s.line l).pending then s.takeChangeover l true else s.countCopy l

/-- COPY_PULSE (R110). -/
def execCopyPulse (l : Nat) (s : State) : Out State := eventIf (fun _ => lineOk l) (·.copy l) s

/-- CONSOLE_EVENT GOOD taken for a console's line (R112). -/
def State.consoleGoodAt (s : State) (a l : Nat) : State :=
  match (s.line l).counting with
  | .makeready | .changeover => (s.modLine l ({ · with counting := .good })).accept a .consoleEvent
  | .idle | .good | .splice | .brk => s.refuse a .consoleEvent .badState

/-- CONSOLE_EVENT GOOD (R112). -/
def execConsoleGood (more : Bool) (s : State) : Out State :=
  report more (fun a role s =>
    match role with
    | .console l => s.consoleGoodAt a l
    | _ => s.refuse a .consoleEvent .badArgument) s

end Sys2Proof.Machine
end

