-- ==== Sys2Proof/Machine/Stands.lean ====
section
/-! DEFINITION. The commands of the Stand Measurement Unit and the Stand Sequencer (chapters 4 and 5): settings, the break machine's
requests, the reports of stand nodes and consoles, and the pins and timers of stands and lines. -/

namespace Sys2Proof.Machine

/-! ## Settings (R59, R62, R79, R80, R97, R101) -/

/-- A stand number is in range. -/
def standOk (st : Nat) : Bool := within 1 Config.stands st

/-- READ_STAND. -/
def State.readStandRequest (s : State) (st : Nat) : Reply := if standOk st then s.okWith (s.standPayload st) else s.no .badArgument

def execReadStand (st : Nat) (s : State) : Out State := request (.readStand st) (·.readStandRequest st) s

/-- The arguments of SET_STAND are in range (R62, R80). -/
def State.setStandArgs (s : State) (st m k offset tol pulse loading : Nat) : Bool :=
  standOk st && [1, 2, 4].contains m && [1, 4, 16].contains k && within 100 800 offset && within 1 20 tol && within 50 500 pulse &&
  s.nodeIs loading .stand

/-- A stand is ARMED, MATCHED or PASTING. -/
def Stand.inSequence (x : Stand) : Bool := x.seq == .armed || x.seq == .matched || x.seq == .pasting

/-- A stand belongs to a line whose v is above 0. -/
def State.standTurns (s : State) (st : Nat) : Bool := (s.lineOf st).any fun l => decide (0 < (s.line l).v)

/-- A live CALL_OFF has an arm of the stand as requester. -/
def State.callOffLive (s : State) (st : Nat) : Bool := s.orders.any fun e => e.2.kind == .callOff && e.2.requester.atStand st

/-- A SET_STAND that R62 or R80 answers BAD_STATE. -/
def State.setStandConflict (s : State) (st m k offset tol pulse loading : Nat) : Bool :=
  let x := s.stand st
  ((x.m != m || x.k != k) && (x.inSequence || s.standTurns st)) ||
  ((x.offset != offset || x.tol != tol || x.pulse != pulse) && x.inSequence) ||
  (x.loading != some loading && s.callOffLive st)

/-- The settings of a stand written: a change of m or k clears the channels (R62). -/
def Stand.configured (x : Stand) (m k offset tol pulse loading : Nat) : Stand :=
  { (if x.m ≠ m ∨ x.k ≠ k then x.clearChannels else x) with
    m := m, k := k, offset := offset, tol := tol, pulse := pulse, loading := some loading }

/-- SET_STAND (R62, R80): a changed offset is tested for runout (R91), a changed loading node for a call-off (R92). -/
def State.setStandRequest (s : State) (st m k offset tol pulse loading : Nat) : Reply :=
  if s.setStandArgs st m k offset tol pulse loading then
    if s.setStandConflict st m k offset tol pulse loading then s.no .badState
    else
      let x := s.stand st
      let s1 := s.setStand st (x.configured m k offset tol pulse loading)
      let s2 := if x.offset ≠ offset then s1.runoutTest st else s1
      (if x.loading ≠ some loading then s2.evalCallOff st else s2).ok
  else s.no .badArgument

def execSetStand (st m k offset tol pulse loading : Nat) (s : State) : Out State :=
  request (.setStand st m k offset tol pulse loading) (·.setStandRequest st m k offset tol pulse loading) s

/-- The references and prescale counts of a line's stands cleared at a change of λ (R59). -/
def State.clearLineChannels (s : State) (l : Nat) : State := s.each (s.lineStands l) fun st s => s.modStand st Stand.clearChannels

/-- SET_LINE (R59, R97): an enabled pin or runout source that is active puts a line in CLEAR in BREAK. -/
def State.setLineRequest (s : State) (l lam w : Nat) (e : Enables) : Reply :=
  if lineOk l && within 50 2000 lam && within 10 200 w then
    let x := s.line l
    if x.lam ≠ lam ∧ 0 < x.v then s.no .badState
    else
      let s1 := s.modLine l ({ · with lam := lam, w := w, enables := e })
      let s2 := if x.lam ≠ lam then s1.clearLineChannels l else s1
      match s2.standingSource l with
      | some c => (s2.sourceActive l c).ok
      | none => s2.ok
  else s.no .badArgument

def execSetLine (l lam w : Nat) (e : Enables) (s : State) : Out State := request (.setLine l lam w e) (·.setLineRequest l lam w e) s

/-! ## The break machine's requests (R99, R100) -/

/-- STOP_LINE (R100). -/
def State.stopLineRequest (s : State) (l : Nat) : Reply :=
  if lineOk l then
    if (s.line l).enables.stopLine then (s.sourceActive l .stopLine).ok else s.no .badState
  else s.no .badArgument

def execStopLine (l : Nat) (s : State) : Out State := request (.stopLine l) (·.stopLineRequest l) s

/-- A line in BREAK that may leave it (R99). -/
def State.mayRestart (s : State) (l : Nat) : Bool := (s.line l).inBreak && s.mayLeave l

/-- RESTART_LINE (R99). -/
def State.restartLineRequest (s : State) (l : Nat) : Reply :=
  if lineOk l then
    if s.mayRestart l then (s.leaveBreak l).ok else s.no .badState
  else s.no .badArgument

def execRestartLine (l : Nat) (s : State) : Out State := request (.restartLine l) (·.restartLineRequest l) s

/-- CONSOLE_EVENT STOP taken for a console's line (R100). -/
def State.consoleStopAt (s : State) (a l : Nat) : State :=
  if (s.line l).enables.console then (s.sourceActive l .console).accept a .consoleEvent else s.refuse a .consoleEvent .badState

/-- CONSOLE_EVENT STOP (R100). -/
def execConsoleStop (more : Bool) (s : State) : Out State :=
  report more (fun a role s =>
    match role with
    | .console l => s.consoleStopAt a l
    | _ => s.refuse a .consoleEvent .badArgument) s

/-- CONSOLE_EVENT RESTART taken for a console's line (R99). -/
def State.consoleRestartAt (s : State) (a l : Nat) : State :=
  if s.mayRestart l then (s.leaveBreak l).accept a .consoleEvent else s.refuse a .consoleEvent .badState

/-- CONSOLE_EVENT RESTART (R99). -/
def execConsoleRestart (more : Bool) (s : State) : Out State :=
  report more (fun a role s =>
    match role with
    | .console l => s.consoleRestartAt a l
    | _ => s.refuse a .consoleEvent .badArgument) s

/-! ## SPLICE_NOW (R88) -/

/-- A station of a role may name a stand in SPLICE_NOW. -/
def State.maySplice (s : State) (role : Role) (st : Nat) : Bool :=
  match role with
  | .standNode t => t == st
  | .console l => s.lineOf st == some l
  | _ => false

/-- SPLICE_NOW taken from a station (R88). -/
def State.spliceNowAt (s : State) (a : Nat) (role : Role) (st : Nat) : State :=
  if s.maySplice role st then
    if (s.stand st).seq = .matched then (s.firePaste st).accept a .spliceNow else s.refuse a .spliceNow .badState
  else s.refuse a .spliceNow .badArgument

/-- SPLICE_NOW (R88). -/
def execSpliceNow (st : Nat) (more : Bool) (s : State) : Out State := report more (fun a role s => s.spliceNowAt a role st) s

/-! ## PREP_DONE (R94) -/

/-- A stand node's report whose from-end does not hold the roll (R7). -/
def State.armMismatch (s : State) (a : Nat) (k : Report) (r : ArmRec) : State :=
  (s.raise .rollDiscrepancy (r.roll.getD 0)).refuse a k .badState

/-- The strip charged to the live job of the stand's line (R94, R117). -/
def State.chargeStrip (s : State) (st : Nat) (r : Roll) (before after : Nat) : State :=
  let g := s.grade r.grade
  let m := g.length before - g.length after
  s.modJobAt ((s.lineOf st).bind s.liveJob) (Job.chargeStrip m (g.grams m r.width))

/-- PREP_DONE taken for a STAGED roll (R94 steps 3 and 4 and its update). -/
def State.prepareAt (s : State) (a st : Nat) (arm : Arm) (n : Nat) (r : Roll) (after before : Nat) : State :=
  if r.hold.isSome then s.refuse a .prepDone .badState
  else if after < (s.grade r.grade).core ∨ before < after ∨ 15000 < before then s.refuse a .prepDone .badArgument
  else ((((s.prepare n st arm after).chargeStrip st r before after).accept a .prepDone).tryArm st)

/-- PREP_DONE taken from a stand's node (R94). -/
def State.prepDoneAt (s : State) (a st : Nat) (arm : Arm) (after before : Nat) : State :=
  let x := (s.stand st).arm arm
  match x.state, x.roll.bind fun n => (s.roll n).map fun r => (n, r) with
  | .ready, some (_, r) => if r.mount = some after then s.accept a .prepDone else s.armMismatch a .prepDone x
  | .staged, some (n, r) => s.prepareAt a st arm n r after before
  | _, _ => s.armMismatch a .prepDone x

/-- PREP_DONE (R94). -/
def execPrepDone (arm : Arm) (after before : Nat) (more : Bool) (s : State) : Out State :=
  report more (fun a role s =>
    match role with
    | .standNode st => s.prepDoneAt a st arm after before
    | _ => s.refuse a .prepDone .badArgument) s

/-! ## STUB_OFF (R95, R96) -/

/-- A stub returned to store needs an order record (R95, R96). -/
def State.stubBlocked (s : State) (r : Roll) (d : Nat) : Bool := decide ((s.grade r.grade).threshold < d) && !s.orderFree

/-- A stub refused for want of an order record (R95, R96). -/
def State.stubFull (s : State) (a st : Nat) : State :=
  (s.raise .storeFull ((s.stand st).loading.getD 0)).refuse a .stubOff .full

/-- The stub charged to the job in its roll's job field (R24, R117). -/
def State.chargeStub (s : State) (r : Roll) (d : Nat) : State :=
  let g := s.grade r.grade
  s.modJobAt r.job (Job.chargeStub (g.length d) (g.grams (g.length d) r.width))

/-- The threshold comparison of R95 for a STUB roll on an arm: at or below the threshold it is charged and retired, above it a RETURN
order takes it back to store. -/
def State.stubAway (s : State) (st : Nat) (arm : Arm) (n : Nat) (r : Roll) (measured : Option Nat) (d : Nat) : State :=
  if d ≤ (s.grade r.grade).threshold then
    (s.chargeStub r d).retireRecord n r
  else
    let node := (s.stand st).loading.getD 0
    match s.createOrder (Order.stubReturn st arm node n) with
    | some (o, t) => t.stubReturn n st arm node measured o
    | none => s

/-- STUB_OFF of an EXPIRED arm (R95). -/
def State.stubOffExpired (s : State) (a st : Nat) (arm : Arm) (n : Nat) (r : Roll) (measured : Option Nat) : State :=
  let d := measured.getD r.diameter
  if s.stubBlocked r d then s.stubFull a st
  else ((s.stubAway st arm n r measured d).accept a .stubOff).evalCallOff st

/-- A stand that has lost its ACTIVE arm (R66, R68, R75, R76, R82, R96). -/
def Stand.rested (x : Stand) : Stand :=
  { x with seq := .idle, df := none, run := .clear, measureLost := none, markLeft := none, ts := Config.max16, runout := false,
           late := false, matchCount := 0, lastVs := none }

/-- The runout stub-off (R96). -/
def State.stubOffRunout (s : State) (a st : Nat) (arm : Arm) (n : Nat) (r : Roll) (measured : Option Nat) : State :=
  let df := (s.stand st).df
  let d := measured.getD (df.getD r.diameter)
  if s.stubBlocked r d then s.stubFull a st
  else
    let s1 := s.expire n st arm df
    let s2 := match s1.roll n with
      | some x => s1.stubAway st arm n x measured d
      | none => s1
    ((s2.modStand st Stand.rested).accept a .stubOff).handTs st

/-- A run-out stand whose line is in BREAK (R96). -/
def State.runoutStub (s : State) (st : Nat) : Bool := (s.stand st).runout && (s.lineOf st).any fun l => (s.line l).inBreak

/-- A measured stub diameter is out of range for the roll on the arm (R95 step 1). -/
def State.stubValueBad (s : State) (r : Option Roll) (measured : Option Nat) : Bool :=
  measured.any fun d => decide (15000 < d) || r.any fun r => decide (d < (s.grade r.grade).core)

/-- STUB_OFF taken from a stand's node (R95, R96). -/
def State.stubOffAt (s : State) (a st : Nat) (arm : Arm) (measured : Option Nat) : State :=
  let x := (s.stand st).arm arm
  let linked := x.roll.bind fun n => (s.roll n).map fun r => (n, r)
  if s.stubValueBad (linked.map Prod.snd) measured then s.refuse a .stubOff .badArgument
  else
    match x.state, linked with
    | .active, some (n, r) => if s.runoutStub st then s.stubOffRunout a st arm n r measured else s.armMismatch a .stubOff x
    | .expired, some (n, r) => s.stubOffExpired a st arm n r measured
    | _, _ => s.armMismatch a .stubOff x

/-- STUB_OFF (R95, R96). -/
def execStubOff (arm : Arm) (measured : Option Nat) (more : Bool) (s : State) : Out State :=
  report more (fun a role s =>
    match role with
    | .standNode st => s.stubOffAt a st arm measured
    | _ => s.refuse a .stubOff .badArgument) s

/-! ## Pins and timers -/

/-- WEB_PULSE (R60). -/
def execWebPulse (l : Nat) (s : State) : Out State :=
  eventIf (fun _ => lineOk l) (·.modLine l fun x => { x with web := x.web + 1 }) s

/-- GATE_EXPIRY (R61). -/
def execGateExpiry (l : Nat) (s : State) : Out State := eventIf (fun _ => lineOk l) (·.gate l) s

/-- MARK_EDGE (R63). -/
def execMarkEdge (st : Nat) (a : Arm) (s : State) : Out State := eventIf (fun _ => standOk st) (·.markEdge st a) s

/-- MARK_TIMER_EXPIRY of a running mark timer (R75). -/
def execMarkTimerExpiry (st : Nat) (s : State) : Out State :=
  expiry (.markTimerExpiry st) (s.stand st).markLeft (fun s => (s.modStand st ({ · with markLeft := none })).setLost st .lost) s

/-- PASTE_TIMER_EXPIRY of a PASTING stand: the splice is done (R89). -/
def execPasteTimerExpiry (st : Nat) (s : State) : Out State :=
  expiry (.pasteTimerExpiry st) (if (s.stand st).seq = .pasting then (s.stand st).pasteLeft else none) (·.splice st) s

/-- The web-break pin of a stand enters its active level: an enabled source of the stand's line (R97, R98). -/
def State.webBreak (s : State) (st : Nat) : State :=
  let t := s.modStand st ({ · with webBreak := true })
  match s.lineOf st with
  | some l => if (s.line l).enables.webBreak then t.sourceActive l (.webBreak st) else t
  | none => t

/-- WEB_BREAK_PIN: a pin that is active already changes nothing; the level of a pin is kept whether or not the part takes events. -/
def execWebBreakPin (st : Nat) (s : State) : Out State :=
  if standOk st && !(s.stand st).webBreak then
    if s.awake then .next (s.fresh.webBreak st).finish else .next (s.modStand st ({ · with webBreak := true }))
  else .next s

/-- WEB_BREAK_PIN_INACTIVE (R99). -/
def execWebBreakPinInactive (st : Nat) (s : State) : Out State :=
  if standOk st then .next ((if s.awake then s.fresh else s).modStand st ({ · with webBreak := false })) else .next s

/-- The folder-jam pin of a line enters its active level (R97, R98). -/
def State.folderJam (s : State) (l : Nat) : State :=
  let t := s.modLine l ({ · with jam := true })
  if (s.line l).enables.jam then t.sourceActive l .folderJam else t

/-- FOLDER_JAM: as for a web-break pin. -/
def execFolderJam (l : Nat) (s : State) : Out State :=
  if lineOk l && !(s.line l).jam then
    if s.awake then .next (s.fresh.folderJam l).finish else .next (s.modLine l ({ · with jam := true }))
  else .next s

/-- FOLDER_JAM_INACTIVE (R99). -/
def execFolderJamInactive (l : Nat) (s : State) : Out State :=
  if lineOk l then .next ((if s.awake then s.fresh else s).modLine l ({ · with jam := false })) else .next s

end Sys2Proof.Machine
end

