-- ==== Sys2Proof/Machine/Dispatching.lean ====
section
/-! DEFINITION. The commands of the Dispatch Unit (chapter 7): moving, cancelling, reading and retiring orders, and the second tick. -/

namespace Sys2Proof.Machine

/-- An order number is in range. -/
def orderOk (n : Nat) : Bool := within 1 255 n

/-! ## ORDER_MOVE (R136) -/

/-- A destination of ORDER_MOVE is in range and no DOCK or STUB node (R136). -/
def State.moveDestOk (s : State) : MoveDest → Bool
  | .bay b => within 1 Config.bays b
  | .node n => within 1 Config.nodes n && !(s.nodeIs n .dock || s.nodeIs n .stub)

/-- A destination is the roll's present bay or node. -/
def Roll.isAt (r : Roll) : MoveDest → Bool
  | .bay b => r.bay == some b
  | .node n => r.loc == .node n

/-- A roll that may be moved: STORED in a bay or ANNOUNCED at a node, unheld and unlinked. -/
def Roll.movable (r : Roll) : Bool := (r.state == .stored || r.state == .announced) && r.hold.isNone && r.order.isNone

/-- A destination bay is configured. -/
def State.moveBayOk (s : State) : MoveDest → Bool
  | .bay b => decide (1 ≤ (s.bay b).limit)
  | .node _ => true

/-- A destination as an order holds it. -/
def MoveDest.toDest : MoveDest → Dest
  | .bay b => .bay b
  | .node n => .node n

/-- The MOVE order of a roll: a roll at a node is linked at once, one in a bay is the order's named roll (R122, R136). -/
def Order.move (n : Nat) (r : Roll) (d : MoveDest) : Order :=
  let o := { Order.pendingOf .move .plant .plant with namedDest := some (MoveDest.toDest d) }
  match r.loc with
  | .bay b _ => { o with source := some (.bay b), named := some (n, r.tag) }
  | .node x => { o with source := some (.node x), roll := some n }
  | _ => o

/-- A MOVE order created (R136); none when no order record can be had. -/
def State.createMove (s : State) (n : Nat) (r : Roll) (d : MoveDest) : Option (Nat × State) :=
  match s.createOrder (Order.move n r d) with
  | some (o, t) => some (o, if r.bay.isSome then t else t.link n o)
  | none => none

/-- ORDER_MOVE: the checks in the order of R136. -/
def State.orderMoveRequest (s : State) (r : RollRef) (d : MoveDest) : Reply :=
  if r.ok && s.moveDestOk d then
    match s.resolve r with
    | none => s.no .notFound
    | some (n, x) =>
      if x.isAt d then s.no .badArgument
      else if !x.movable || !s.moveBayOk d then s.no .badState
      else
        match s.createMove n x d with
        | some (o, t) => t.okWith (beBytes 1 o)
        | none => s.no .full
  else s.no .badArgument

def execOrderMove (r : RollRef) (d : MoveDest) (s : State) : Out State := request (.orderMove r d) (·.orderMoveRequest r d) s

/-! ## CANCEL_ORDER (R134) -/

/-- An order's roll lies at a node. -/
def State.rollAtNode (s : State) (o : Order) : Bool := ((o.roll.bind s.roll).bind Roll.node).isSome

/-- CANCEL_ORDER on a live order, by its kind and state (R134). -/
def State.cancelLive (s : State) (n : Nat) (o : Order) : Reply :=
  if o.abort then s.no .badState
  else
    match o.state, o.kind with
    | .pending, .ret => if s.rollAtNode o then (s.freeOrder n).ok else s.no .badState
    | .pending, _ => (s.freeOrder n).ok
    | .assigned, .ret | .loading, .ret | .carrying, .ret => s.no .badState
    | .assigned, _ | .loading, _ => (s.markAbort n).ok
    | .carrying, _ => ((s.convert n).reviewCallOff o).ok
    | .unloading, _ | .failed, _ => s.no .badState

/-- CANCEL_ORDER. -/
def State.cancelRequest (s : State) (n : Nat) : Reply :=
  if orderOk n then
    match s.order n with
    | some o => s.cancelLive n o
    | none => s.no .notFound
  else s.no .badArgument

def execCancelOrder (n : Nat) (s : State) : Out State := request (.cancelOrder n) (·.cancelRequest n) s

/-! ## READ_ORDER and RETIRE_ORDER (R138) -/

/-- READ_ORDER by number. -/
def State.readOrder (s : State) (n : Nat) : Reply :=
  if orderOk n then
    match s.order n with
    | some o => s.okWith (s.orderPayload n o)
    | none => s.no .notFound
  else s.no .badArgument

def execReadOrderByNumber (n : Nat) (s : State) : Out State := request (.readOrderByNumber n) (·.readOrder n) s

/-- READ_ORDER, next order. -/
def State.readNextOrder (s : State) (n : Nat) : Reply :=
  if n ≤ 255 then
    match s.orders.first fun m _ => decide (n < m) with
    | some m =>
      match s.order m with
      | some o => s.okWith (s.orderPayload m o)
      | none => s.ok
    | none => s.ok
  else s.no .badArgument

def execReadOrderNext (n : Nat) (s : State) : Out State := request (.readOrderNext n) (·.readNextOrder n) s

/-- RETIRE_ORDER: a FAILED order is freed and its roll unlinked (R138). -/
def State.retireOrderRequest (s : State) (n : Nat) : Reply :=
  if orderOk n then
    match s.order n with
    | none => s.no .notFound
    | some o => if o.state = .failed then ((s.dropRoll n o).putOrder n none).ok else s.no .badState
  else s.no .badArgument

def execRetireOrder (n : Nat) (s : State) : Out State := request (.retireOrder n) (·.retireOrderRequest n) s

/-! ## SECOND_TICK (R126) -/

/-- Every dated CALL_OFF tested for URGENT (R126). -/
def State.secondTick (s : State) : State := s.each s.orders.keys fun n s => s.testUrgent n

/-- SECOND_TICK. -/
def execSecondTick (s : State) : Out State := event State.secondTick s

end Sys2Proof.Machine
end

