-- ==== Sys2Proof/Machine/Transport.lean ====
section
/-! DEFINITION. The plant requests of the Track Claim Unit (chapter 8): service, the track's records, halt and resume. -/

namespace Sys2Proof.Machine

/-- A vehicle number is in range. -/
def vehicleOk (v : Nat) : Bool := within 1 Config.vehicles v

/-! ## SET_SERVICE (R145, R146) -/

/-- A vehicle put at a node of the track, holding the node's segment alone (R145). -/
def State.putOnTrack (s : State) (v x seg : Nat) : State :=
  (s.modSegment seg ({ · with holder := some v })).modVehicle v
    ({ · with state := .idle, pos := some (.node x), held := [seg], docked := 0 })

/-- A vehicle with a kept order goes on to its drop from a node: an order without a drop, or without a route to it, is marked and its
TASK names no drop (R145, R147). -/
def State.resumeOrder (s : State) (v x n : Nat) (o : Order) : State :=
  let s1 := s.modVehicle v ({ · with state := .toDrop, leg := none, nextRoute := none })
  let s2 := s1.modOrder n fun y => { y with state := if y.state = .unloading then .carrying else y.state }
  let s3 := match s2.drop o with
    | none => s2.modOrder n ({ · with noBay := true })
    | some d =>
      match s2.wayBetween x d with
      | none => s2.modOrder n ({ · with noRoute := true })
      | some way => (s2.modOrder n ({ · with noBay := false, noRoute := false })).modVehicle v ({ · with leg := way.map (⟨·, 0⟩) })
  (s3.restartProgress v).sendTask n

/-- An accepted SET_SERVICE IN (R145). -/
def State.bringIn (s : State) (v x seg : Nat) : State :=
  let t := s.putOnTrack v x seg
  match (s.vehicle v).order with
  | none => t.notice
  | some n =>
    match t.order n with
    | some o => t.resumeOrder v x n o
    | none => t.notice

/-- SET_SERVICE IN: the checks in the order of R145. -/
def State.serviceIn (s : State) (v x : Nat) : Reply :=
  match (if vehicleOk v && within 1 Config.nodes x then s.node x else none) with
  | none => s.no .badArgument
  | some y =>
    if (s.vehicle v).inService || (s.vehicleStation v).isNone then s.no .badState
    else if (s.segment y.seg).holder.isSome then s.no .badState
    else if s.loopCount ≤ s.inServiceCount + 1 then s.no .limit
    else (s.bringIn v x y.seg).ok

def execSetServiceIn (v x : Nat) (s : State) : Out State := request (.setServiceIn v x) (·.serviceIn v x) s

/-- What becomes of a vehicle's order when the vehicle is taken out of service (R132, R133, R146 step 4). -/
def State.orderAtOut (s : State) (n : Nat) : State :=
  match s.order n with
  | none => s
  | some o =>
    if o.abort then s.freeOrder n
    else
      match o.state with
      | .assigned | .loading => s.returnToPending n true
      | .pending | .carrying | .unloading | .failed => s

/-- A vehicle out of service (R146 step 5). -/
def Vehicle.outed (v : Vehicle) : Vehicle :=
  { v with state := .outOfService, prev := none, cause := none, pos := none, leg := none, nextRoute := none, waiting := none, docked := 0,
           deck := none, progress := .stopped, transfer := .stopped }

/-- An accepted SET_SERVICE OUT (R146). -/
def State.takeOut (s : State) (v : Nat) : State :=
  let s1 := ((s.releaseHeld v fun _ => false).leaveList v).clearMarks v
  let s2 := match (s.vehicle v).order with
    | some n => s1.orderAtOut n
    | none => s1
  s2.modVehicle v Vehicle.outed

/-- A vehicle holds a LOOP segment. -/
def State.onLoop (s : State) (v : Nat) : Bool := (s.vehicle v).held.any fun g => (s.segment g).isLoop

/-- SET_SERVICE OUT (R146). -/
def State.serviceOut (s : State) (v : Nat) : Reply :=
  if vehicleOk v then
    if !(s.vehicle v).inService || (s.onLoop v && (s.vehicle v).state != .stalled) then s.no .badState else (s.takeOut v).ok
  else s.no .badArgument

def execSetServiceOut (v : Nat) (s : State) : Out State := request (.setServiceOut v) (·.serviceOut v) s

/-- SET_SERVICE SETTINGS (R145). -/
def State.serviceSettings (s : State) (p t m : Nat) : Reply :=
  if within 10 250 p && within 20 250 t && within 30 600 m then
    { s with progressTimeout := p, transferTimeout := t, urgentMargin := m }.ok
  else s.no .badArgument

def execSetServiceSettings (p t m : Nat) (s : State) : Out State := request (.setServiceSettings p t m) (·.serviceSettings p t m) s

/-- READ_VEHICLE (R156). -/
def State.readVehicleRequest (s : State) (v : Nat) : Reply := if vehicleOk v then s.okWith (s.vehiclePayload v) else s.no .badArgument

def execReadVehicle (v : Nat) (s : State) : Out State := request (.readVehicle v) (·.readVehicleRequest v) s

/-! ## The track's records (R142) -/

/-- A segment number is in range. -/
def segmentOk (n : Nat) : Bool := within 1 Config.segments n

/-- A segment is a configured LOOP segment other than one. -/
def State.otherLoop (s : State) (n g : Nat) : Bool := segmentOk g && g != n && (s.segment g).isLoop

/-- A segment's configured fields are well formed (R142 step 1). -/
def State.segKindOk (s : State) (n : Nat) : Option SegKind → Bool
  | none => true
  | some (.loop next) => segmentOk next && next != n
  | some (.siding branch next) => s.otherLoop n branch && s.otherLoop n next

/-- Two kinds are LOOP both or SIDING both. -/
def sameKind : Option SegKind → Option SegKind → Bool
  | some (.loop _), some (.loop _) => true
  | some (.siding ..), some (.siding ..) => true
  | none, none => true
  | _, _ => false

/-- A change of a segment that R142 step 3 refuses. -/
def State.segmentBusy (s : State) (n : Nat) (k : Option SegKind) : Bool :=
  ((s.segment n).kind != k && s.segmentInUse n) ||
  ((s.segment n).kind.isSome && !sameKind (s.segment n).kind k && s.segmentNamed n)

/-- A change that takes a LOOP segment out of a loop the vehicles in service need (R142 step 4). -/
def State.loopNeeded (s : State) (n : Nat) (k : Option SegKind) : Bool :=
  (s.segment n).isLoop && !sameKind (s.segment n).kind k && decide (0 < s.inServiceCount ∧ s.loopCount - 1 ≤ s.inServiceCount)

/-- SET_SEGMENT (R142). -/
def State.segmentRequest (s : State) (n : Nat) (k : Option SegKind) : Reply :=
  if segmentOk n && s.segKindOk n k then
    if s.segmentBusy n k then s.no .badState
    else if s.loopNeeded n k then s.no .limit
    else (s.modSegment n ({ · with kind := k })).ok
  else s.no .badArgument

def execSetSegment (n : Nat) (k : Option SegKind) (s : State) : Out State := request (.setSegment n k) (·.segmentRequest n k) s

/-- A node's role suits its segment's kind (R141). -/
def State.roleSuits (s : State) (g : Nat) : NodeRole → Bool
  | .park => (s.segment g).kind.isSome
  | .dock | .aisle | .stand | .stub => (s.segment g).kind.isSome && !(s.segment g).isLoop

/-- A node record with its fields, where they are well formed (R142 step 1). -/
def State.nodeFields (s : State) : Option (Nat × Option NodeRole) → Option (Option Node)
  | none => some none
  | some (g, some r) => if segmentOk g && s.roleSuits g r then some (some ⟨g, r⟩) else none
  | some (_, none) => none

/-- SET_NODE (R142). -/
def State.nodeRequest (s : State) (n : Nat) (c : Option (Nat × Option NodeRole)) : Reply :=
  match (if within 1 Config.nodes n then s.nodeFields c else none) with
  | none => s.no .badArgument
  | some x => if s.node n ≠ x ∧ s.nodeInUse n then s.no .badState else (s.putNode n x).ok

def execSetNode (n : Nat) (c : Option (Nat × Option NodeRole)) (s : State) : Out State := request (.setNode n c) (·.nodeRequest n c) s

/-- A segment may follow another in a route (R141). -/
def State.mayFollow (s : State) (a b : Nat) : Bool :=
  match (s.segment a).kind, (s.segment b).kind with
  | some (.loop next), some (.siding branch _) => b == next || branch == a
  | some (.loop next), _ => b == next
  | some (.siding _ next), _ => b == next
  | none, _ => false

/-- The segments of a route follow each other. -/
def State.chained (s : State) : List Nat → Bool
  | a :: b :: rest => s.mayFollow a b && s.chained (b :: rest)
  | _ => true

/-- A route's fields are well formed (R141, R142 step 1). -/
def State.routeOk (s : State) (r : Route) : Bool :=
  within 1 Config.nodes r.src && within 1 Config.nodes r.dst && r.src != r.dst && within 1 12 r.segs.length && r.segs.all segmentOk &&
  within 1 1200 r.time && s.chained r.segs && r.segs.head?.isSome &&
  r.segs.head? == (s.node r.src).map Node.seg && r.segs.getLast? == (s.node r.dst).map Node.seg

/-- Another route record carries the pair (R142 step 2). -/
def State.routeDouble (s : State) (n : Nat) (r : Route) : Bool := s.routes.any fun e => e.1 != n && e.2.src == r.src && e.2.dst == r.dst

/-- SET_ROUTE (R142): an accepted one leads to an assignment pass (R129). -/
def State.routeRequest (s : State) (n : Nat) (c : Option Route) : Reply :=
  if within 1 Config.routes n && c.all s.routeOk then
    if c.any (s.routeDouble n) then s.no .duplicate
    else if s.route n ≠ c ∧ s.routeInUse n then s.no .badState
    else ((s.putRoute n c).notice).ok
  else s.no .badArgument

def execSetRoute (n : Nat) (c : Option Route) (s : State) : Out State := request (.setRoute n c) (·.routeRequest n c) s

/-! ## Halt and resume (R154, R168) -/

/-- Both timers of every vehicle changed. -/
def State.eachTimer (s : State) (f : Timer → Timer) : State :=
  s.each (span 1 Config.vehicles) fun v s => s.modVehicle v fun x => { x with progress := f x.progress, transfer := f x.transfer }

/-- Transport halted: the mark set, the timers suspended, ALL_HALT pending (R154, R168, R182). -/
def State.halt (s : State) : State := { s.eachTimer Timer.suspend with halted := true, pendingBroadcast := some .allHalt }

/-- HALT_TRANSPORT (R154). -/
def execHaltTransport (s : State) : Out State := request .haltTransport (fun s => s.halt.ok) s

/-- RESUME_TRANSPORT (R154). -/
def State.resumeRequest (s : State) : Reply :=
  if s.halted then ({ s.eachTimer Timer.resume with halted := false, pendingBroadcast := some .resume }.notice).ok else s.no .badState

def execResumeTransport (s : State) : Out State := request .resumeTransport State.resumeRequest s

end Sys2Proof.Machine
end

