-- ==== Sys2Proof/Machine/Vehicles.lean ====
section
/-! DEFINITION. The reports of vehicle stations (R143, R144, R146, R148 to R150, R153) and the vehicles' timeouts (R151, R152). -/

namespace Sys2Proof.Machine

/-! ## What every vehicle report does -/

/-- The order a vehicle works as the records stand: its link, unless that order carries the abort mark. -/
def State.workingOrder (s : State) (v : Nat) : Option Nat :=
  (s.vehicle v).order.filter fun n => (s.order n).any fun o => !o.abort

/-- A report that names another order number than the vehicle's unmarked link shows that a command was lost: ABORT is placed again for a
vehicle with no such link, and the TASK otherwise (R148). -/
def State.lostCommand (s : State) (v reported : Nat) (link : Option Nat) : State :=
  if reported = link.getD 0 then s
  else
    match link with
    | none => s.sendVehicle v (.abort reported)
    | some n => if s.workingOrder v = some n then s.sendTask n else s

/-- A report of a vehicle in service taken by its body, from a station whose vehicle is out of service refused; any report but DOCKED
sets the docked count to 0, and a wrong order number has its command placed again (R146, R148, R149). The reason BAD_STATE is DEDUCED
(notes/assumptions/7.md). -/
def taken (k : Report) (reported : Nat) (more : Bool) (body : Nat → Nat → State → State) : State → Out State :=
  vehicleReport k more fun a v s =>
    if (s.vehicle v).inService then
      let t := if k = .docked then s else s.modVehicle v ({ · with docked := 0 })
      (body a v t).lostCommand v reported (s.workingOrder v)
    else s.refuse a k .badState

/-! ## POSITION (R144) -/

/-- The segment a spot is on. -/
def State.segmentOf (s : State) : Spot → Option Nat
  | .segment g => some g
  | .node n => (s.node n).map Node.seg

/-- A reported spot is on a segment the vehicle holds (R144). -/
def State.consistent (s : State) (v : Nat) (p : Spot) : Bool := (s.segmentOf p).any fun g => (s.vehicle v).held.contains g

/-- The index of a segment in a route's list, at or after the present one. -/
def indexFrom (segs : List Nat) (progress g : Nat) : Nat :=
  if (segs.drop progress).contains g then progress + (segs.drop progress).idxOf g else progress

/-- PASSED: the first of two held segments is released when the report names the second (R144). -/
def State.pass2 (s : State) (v : Nat) (p : Spot) : State :=
  match (s.vehicle v).held with
  | [a, b] =>
    if s.segmentOf p = some b then
      let t := s.modVehicle v fun x =>
        { x with held := [b], leg := x.leg.map fun l => { l with progress := indexFrom (((s.route l.route).map Route.segs).getD []) l.progress b } }
      t.releaseSegment a
    else s
  | _ => s

/-- A vehicle at the to node of its route has completed it and takes its next route (R144). -/
def State.completeRoute (s : State) (v : Nat) (p : Spot) : State :=
  match (s.vehicle v).leg with
  | some l =>
    if p = .node (((s.route l.route).map Route.dst).getD 0) then
      s.modVehicle v fun x => { x with leg := x.nextRoute.map (⟨·, 0⟩), nextRoute := none }
    else s
  | none => s

/-- A vehicle STALLED in TO_PICKUP or TO_DROP returns at a position-changing report (R153). -/
def Vehicle.returned (v : Vehicle) : Vehicle :=
  match v.state, v.prev with
  | .stalled, some .toPickup => { v with state := .toPickup, prev := none, cause := none }
  | .stalled, some .toDrop => { v with state := .toDrop, prev := none, cause := none }
  | _, _ => v

/-- A consistent POSITION (R144, R151, R153). -/
def State.takePosition (s : State) (v : Nat) (p : Spot) (passed : Bool) : State :=
  let changing := passed || (s.vehicle v).pos != some p
  let s1 := if changing then s.modVehicle v Vehicle.returned else s
  let s2 := s1.modVehicle v ({ · with pos := some p })
  let s3 := (if passed then s2.pass2 v p else s2).completeRoute v p
  if changing then s3.restartProgress v else s3.syncProgress v

/-- POSITION (R144). -/
def execPosition (order : Nat) (p : Spot) (passed more : Bool) (s : State) : Out State :=
  taken .position order more (fun a v s =>
    if s.consistent v p then s.takePosition v p passed
    else (s.stall v .position none).refuse a .position .badState) s

/-! ## CLAIM (R143) -/

/-- The segment that follows a vehicle's last held segment in its route, and that segment itself. -/
def State.claimable (s : State) (v g : Nat) : Bool :=
  match (s.vehicle v).leg, (s.vehicle v).held.getLast? with
  | some l, some last =>
    let segs := (((s.route l.route).map Route.segs).getD []).drop l.progress
    g == last || (segs.contains last && segs[segs.idxOf last + 1]? == some g)
  | _, _ => false

/-- A vehicle becomes holder of a free segment (R143). -/
def State.hold (s : State) (v g : Nat) : State :=
  ((((s.leaveList v).modSegment g ({ · with holder := some v })).modVehicle v fun x => { x with held := x.held ++ [g] }).sendVehicle v
    (.grant g)).syncProgress v

/-- A vehicle waits for a held segment (R143, R151). -/
def State.await (s : State) (v g : Nat) : State :=
  let s1 := if (s.segment g).waiters.contains v then s
    else (((s.leaveList v).modSegment g fun x => { x with waiters := x.waiters ++ [v] }).modVehicle v ({ · with waiting := some g })).syncProgress v
  s1.sendVehicle v (.wait g)

/-- A claim that passed its check, taken as the table of R143 says. -/
def State.takeClaim (s : State) (v g : Nat) : State :=
  match (s.segment g).holder with
  | some h =>
    if h = v then s.sendVehicle v (.grant g)
    else if (s.vehicle v).held.length = 2 then s.sendVehicle v (.wait g)
    else s.await v g
  | none => if (s.vehicle v).held.length = 2 then s.sendVehicle v (.wait g) else s.hold v g

/-- CLAIM (R143). -/
def execClaim (order g : Nat) (more : Bool) (s : State) : Out State :=
  taken .claim order more (fun a v s => if s.claimable v g then s.takeClaim v g else s.refuse a .claim .badState) s

/-! ## DOCKED (R149) -/

/-- The bay a vehicle's transfer is at: the source in LOADING, the destination in UNLOADING. -/
def Order.transferBay (o : Order) (st : VState) : Option Nat :=
  match st, o.source, o.dest with
  | .loading, some (.bay b), _ => some b
  | .unloading, _, some (.bay b) => some b
  | _, _, _ => none

/-- The transfer mark of the bay a vehicle transfers at, set (R38). -/
def State.markFor (s : State) (v : Nat) (o : Order) : State :=
  match o.transferBay (s.vehicle v).state with
  | some b => s.setMark b v
  | none => s

/-- The record of a vehicle's order. -/
def State.orderOf (s : State) (v : Nat) : Option (Nat × Order) :=
  (s.vehicle v).order.bind fun n => (s.order n).map fun o => (n, o)

/-- A vehicle STALLED in LOADING or UNLOADING returns: the mark is set again and the transfer timer restarted (R153). -/
def State.resumeTransfer (s : State) (v : Nat) : State :=
  let back := fun (st : VState) =>
    let t := s.modVehicle v fun x => { x with state := st, prev := none, cause := none, transfer := s.started s.transferTimeout }
    match t.orderOf v with
    | some (_, o) => t.markFor v o
    | none => t
  match (s.vehicle v).state, (s.vehicle v).prev with
  | .stalled, some .loading => back .loading
  | .stalled, some .unloading => back .unloading
  | _, _ => s

/-- The transfer state a docked vehicle asks for: at its pickup in TO_PICKUP, at its drop in TO_DROP (R149). -/
def State.dockState (s : State) (v : Nat) (o : Order) : Option VState :=
  let x := s.vehicle v
  match x.state with
  | .toPickup => if x.standsAt.isSome ∧ x.standsAt = s.pickup o then some .loading else none
  | .toDrop => if x.standsAt.isSome ∧ x.standsAt = s.drop o then some .unloading else none
  | _ => none

/-- The transfer is admitted (R39, R149). -/
def State.admits (s : State) (n : Nat) (o : Order) : VState → Bool
  | .loading =>
    match o.source, o.roll with
    | some (.bay b), some r => s.admitsLoading b r n
    | some (.node x), some r => (s.roll r).any fun y => y.state == .announced && y.loc == .node x && y.order == some n
    | _, _ => false
  | _ =>
    match o.dest with
    | some (.bay b) => s.admitsUnloading b
    | some _ => true
    | none => false

/-- The order's state while its vehicle transfers (R123). -/
def transferOrderState : VState → OrderState
  | .loading => .loading
  | _ => .unloading

/-- An admitted transfer (R149). -/
def State.beginTransfer (s : State) (v n : Nat) (o : Order) (st : VState) : State :=
  let s1 := s.modVehicle v fun x =>
    { x with state := st, progress := .stopped, transfer := s.started s.transferTimeout, docked := 0 }
  ((s1.markFor v o).modOrder n ({ · with state := transferOrderState st })).sendVehicle v (.transfer n)

/-- A DOCKED report of a vehicle at its pickup or drop: the first counts, later ones ask for the transfer (R149, R154). -/
def State.dock (s : State) (v : Nat) : State :=
  match s.orderOf v with
  | none => s
  | some (n, o) =>
    match s.dockState v o with
    | none => s
    | some st =>
      if (s.vehicle v).docked = 0 then s.modVehicle v ({ · with docked := 1 })
      else if s.admits n o st && !s.halted then s.beginTransfer v n o st
      else s

/-- DOCKED (R149, R153). -/
def execDocked (order : Nat) (deck : Deck) (more : Bool) (s : State) : Out State :=
  taken .docked order more (fun _ v s => ((s.modVehicle v ({ · with deck := some deck })).resumeTransfer v).dock v) s

/-! ## LOADED and UNLOADED (R150) -/

/-- The roll a vehicle's move is about: its order's, else its load (R150). -/
def State.movedRoll (s : State) (v : Nat) : Option Nat := ((s.orderOf v).bind fun e => e.2.roll).or (s.vehicle v).load

/-- A LOADED or UNLOADED whose move is refused (R7). -/
def State.moveRefused (s : State) (a v : Nat) (k : Report) : State :=
  (s.raise .rollDiscrepancy ((s.movedRoll v).getD 0)).refuse a k .badState

/-- A LOADED or UNLOADED from a vehicle in another state (R150): with neither an order's roll nor a load, REFUSED alone. -/
def State.wrongState (s : State) (a v : Nat) (k : Report) : State :=
  if (s.movedRoll v).isSome then s.moveRefused a v k else s.refuse a k .badState

/-- The load move of an order's source (R6). -/
def State.loadMove (s : State) (v n : Nat) (o : Order) : Option State :=
  match o.source, o.roll with
  | some (.bay b), some r => s.loadFromBay r b v n
  | some (.node x), some r => s.loadFromNode r x v n
  | _, _ => none

/-- The drop leg begun at the pickup: an order whose route to the drop is missing is marked NO_ROUTE and told so (R130, R147, R150). -/
def State.beginDrop (s : State) (v n : Nat) (o : Order) : State :=
  let s1 := s.modVehicle v fun x => { x with state := .toDrop, leg := none, nextRoute := none, transfer := .stopped }
  match s.pickup o, s.drop o with
  | some a, some b =>
    match s.wayBetween a b with
    | some way => (s1.modVehicle v ({ · with leg := way.map (⟨·, 0⟩) })).restartProgress v
    | none => ((s1.modOrder n ({ · with noRoute := true })).restartProgress v).sendTask n
  | _, _ => s1.restartProgress v

/-- A load move made (R150). -/
def State.loadedAt (s : State) (v n : Nat) (o : Order) : State :=
  (((s.clearMarks v).modOrder n ({ · with state := .carrying })).beginDrop v n o).sendVehicle v (.undock n)

/-- LOADED taken from a vehicle in LOADING (R150). -/
def State.takeLoaded (s : State) (a v : Nat) : State :=
  match s.orderOf v with
  | none => s.moveRefused a v .loaded
  | some (n, o) =>
    match s.loadMove v n o with
    | some t => t.loadedAt v n o
    | none => s.moveRefused a v .loaded

/-- LOADED (R150, R153). -/
def execLoaded (order : Nat) (more : Bool) (s : State) : Out State :=
  taken .loaded order more (fun a v s =>
    let t := s.resumeTransfer v
    if (t.vehicle v).state = .loading then t.takeLoaded a v else t.wrongState a v .loaded) s

/-- An unload move made: the order is freed, UNDOCK sent, and the vehicle enters IDLE at the drop (R131, R150). -/
def State.unloadedAt (s : State) (v n drop : Nat) : State := (((s.clearMarks v).freeOrder n).sendVehicle v (.undock n)).enterIdle v drop

/-- A stand's plan check passes for a roll (R93). -/
def State.planAccepts (s : State) (st r : Nat) : Bool :=
  match s.positionOf st, s.roll r with
  | some (_, p), some x => x.grade == p.grade && x.width == p.width
  | _, _ => false

/-- A delivered roll refused by the stand's plan check (R93, R135, R150). -/
def State.refuseDelivery (s : State) (a v n : Nat) (o : Order) : State :=
  let s1 := (s.refuse a .unloaded .badState).sendVehicle v (.undock n)
  let s2 := (s1.clearMarks v).modVehicle v fun x => { x with state := .toDrop, leg := none, nextRoute := none, transfer := .stopped }
  ((s2.convert n).restartProgress v).reviewCallOff o

/-- UNLOADED at a stand (R93). -/
def State.unloadedAtArm (s : State) (a v n : Nat) (o : Order) (r st : Nat) (arm : Arm) (drop : Nat) : State :=
  let x := (s.stand st).arm arm
  if s.carries r v n ∧ x.state = .empty ∧ x.callOff = some n then
    if s.planAccepts st r then ((s.unloadAtArm r st arm v).accept a .unloaded).unloadedAt v n drop
    else s.refuseDelivery a v n o
  else s.moveRefused a v .unloaded

/-- UNLOADED taken from a vehicle in UNLOADING (R150). -/
def State.takeUnloaded (s : State) (a v : Nat) : State :=
  match s.orderOf v with
  | none => s.moveRefused a v .unloaded
  | some (n, o) =>
    let drop := (s.drop o).getD 0
    match o.roll, o.dest with
    | some r, some (.bay b) =>
      match s.unloadIntoBay r b v n with
      | some t => t.unloadedAt v n drop
      | none => s.moveRefused a v .unloaded
    | some r, some (.node x) =>
      match s.unloadAtNode r x v n with
      | some t => t.unloadedAt v n drop
      | none => s.moveRefused a v .unloaded
    | some r, some (.arm st arm) => s.unloadedAtArm a v n o r st arm drop
    | _, _ => s.moveRefused a v .unloaded

/-- UNLOADED (R150, R153). -/
def execUnloaded (order : Nat) (more : Bool) (s : State) : Out State :=
  taken .unloaded order more (fun a v s =>
    let t := s.resumeTransfer v
    if (t.vehicle v).state = .unloading then t.takeUnloaded a v else t.wrongState a v .unloaded) s

/-! ## IDLE, FAULT and NONE -/

/-- A vehicle without an order to go on with enters IDLE; a marked order is freed (R133, R148). -/
def State.idleAt (s : State) (v x : Nat) : State :=
  let t := match (s.vehicle v).order with
    | some n => s.freeOrder n
    | none => s
  t.enterIdle v x

/-- The TASK placed again for a vehicle that stands idle with an order, from the node it reports; without a route from there it stalls
(R148, R153). -/
def State.retask (s : State) (v x n : Nat) (o : Order) : State :=
  let target := if (s.vehicle v).state = .toPickup then s.pickup o else if o.noRoute then none else s.drop o
  match (match target with
    | none => some none
    | some d => s.wayBetween x d) with
  | some way =>
    ((s.modVehicle v fun y => { y with pos := some (.node x), leg := way.map (⟨·, 0⟩), nextRoute := none }).syncProgress v).sendTask n
  | none => s.stall v .position none

/-- An IDLE report that names a node whose segment the vehicle holds (R148, R153). -/
def State.takeIdle (s : State) (v x : Nat) : State :=
  let y := s.vehicle v
  match y.state with
  | .idle | .outOfService => s
  | st =>
    match s.workingOrder v with
    | none => s.idleAt v x
    | some n =>
      if st = .stalled ∧ y.prev = some .idle then s.enterIdle v x
      else if st = .toPickup ∨ st = .toDrop then
        match s.order n with
        | some o => s.retask v x n o
        | none => s
      else s

/-- IDLE (R148): from a vehicle out of service it changes nothing but the last-report time (R146). -/
def execIdle (_order x : Nat) (more : Bool) (s : State) : Out State :=
  vehicleReport .idle more (fun a v s =>
    if (s.vehicle v).inService then
      let t := s.modVehicle v ({ · with docked := 0 })
      if t.consistent v (.node x) then t.takeIdle v x
      else (t.stall v .position none).refuse a .idle .badState
    else s) s

/-- FAULT: the vehicle stalls; the report is not answered (R153, R169). -/
def execFault (order _number : Nat) (more : Bool) (s : State) : Out State :=
  taken .fault order more (fun _ v s => s.stall v .fault none) s

/-- NONE: handed to no owner; for a vehicle it counts as its report for the docked count and the order number (R146, R148, R149). -/
def execNoneReply (order : Nat) (more : Bool) (s : State) : Out State :=
  report more (fun _ role s =>
    match role with
    | .vehicle v =>
      if (s.vehicle v).inService then (s.modVehicle v ({ · with docked := 0 })).lostCommand v order (s.workingOrder v) else s
    | _ => s) s

/-! ## Timeouts (R151, R152) -/

/-- PROGRESS_TIMEOUT of a running progress timer (R151). -/
def execProgressTimeout (v : Nat) (s : State) : Out State :=
  expiry (.progressTimeout v) (s.vehicle v).progress.left (·.stall v .progress none) s

/-- A LOADING order fails with its roll not loaded (R137, R152). -/
def State.failLoading (s : State) (v n : Nat) (o : Order) : State :=
  let s1 := match o.roll with
    | some r => s.failInPlace r
    | none => s
  (((s1.failOrder n).sendVehicle v (.abort n)).stall v .transfer (some .idle))

/-- A transfer expiry by the table of R152. -/
def State.transferExpires (s : State) (v : Nat) : State :=
  match (s.workingOrder v).bind fun n => (s.order n).map fun o => (n, o) with
  | none => s.stall v .transfer (some .idle)
  | some (n, o) =>
    if (s.vehicle v).state = .loading ∧ (s.vehicle v).deck = some .empty then s.failLoading v n o
    else s.stall v .transfer none

/-- TRANSFER_TIMEOUT of a running transfer timer (R152). -/
def execTransferTimeout (v : Nat) (s : State) : Out State :=
  expiry (.transferTimeout v) (s.vehicle v).transfer.left (·.transferExpires v) s

end Sys2Proof.Machine
end

