-- ==== Sys2Proof/Machine/Stations.lean ====
section
/-! DEFINITION. The commands of the Station Line Controller (chapter 9): station records, polls, the ends of exchanges, the receiver's
events and broadcasts. -/

namespace Sys2Proof.Machine

/-! ## SET_STATION (R161, R165) -/

/-- A station address is in range. -/
def addressOk (a : Nat) : Bool := within 1 60 a

/-- A role's number or range is in its range, and a dock reader's node has role DOCK (R161). -/
def State.roleOk (s : State) : Role → Bool
  | .vehicle n => vehicleOk n
  | .standNode st => standOk st
  | .bayNode first count => within 1 Config.bays first && within 1 8 count && decide (first + count - 1 ≤ Config.bays)
  | .dockReader n => s.nodeIs n .dock
  | .scale => true
  | .console l => lineOk l

/-- Two roles may not stand in two records (R161). -/
def rolesClash : Role → Role → Bool
  | .vehicle m, .vehicle n => m == n
  | .standNode m, .standNode n => m == n
  | .scale, .scale => true
  | .bayNode f c, .bayNode g d => decide (f < g + d ∧ g < f + c)
  | _, _ => false

/-- Another live record's role clashes with one. -/
def State.roleDouble (s : State) (a : Nat) (r : Role) : Bool := s.stations.any fun e => e.1 != a && rolesClash e.2.role r

/-- A record is the station of a vehicle in service. -/
def State.serves (s : State) (x : Station) : Bool :=
  match x.role with
  | .vehicle n => (s.vehicle n).inService
  | _ => false

/-- A record as it is new, or as its role has changed (R161). -/
def Station.fresh (place : Nat) (r : Role) : Station := ⟨place, r, false, 0, 0, [], []⟩

/-- SET_STATION CONFIGURE (R161). -/
def State.configureStation (s : State) (a : Nat) (r : Role) : Reply :=
  if !(addressOk a && s.roleOk r) then s.no .badArgument
  else if s.roleDouble a r then s.no .duplicate
  else
    match s.station a with
    | some x =>
      if s.serves x then s.no .badState
      else if x.role = r then s.ok
      else (s.putStation a (some (.fresh x.place r))).ok
    | none =>
      match lowestFree Config.stationPlaces (s.stations.map fun e => e.2.place) with
      | some p => (s.putStation a (some (.fresh p r))).ok
      | none => s.no .full

def execSetStationConfigure (a : Nat) (r : Role) (s : State) : Out State :=
  request (.setStationConfigure a r) (·.configureStation a r) s

/-- The exchange with a cleared station is abandoned: a reply under way belongs to none, and no miss is counted (R161, R162). -/
def State.abandon (s : State) (a : Nat) : State :=
  let t := { s with cycle := s.cycle.filter (· != a), further := s.further.filter fun e => e.1 != a }
  if s.exchange.any fun e => e.addr == a then
    { t with exchange := none, receiver := match s.receiver with
                                           | .frame b _ => .frame b false
                                           | .hunting => .hunting }
  else t

/-- SET_STATION CLEAR (R161). -/
def State.clearStation (s : State) (a : Nat) : Reply :=
  if addressOk a then
    match s.station a with
    | none => s.no .notFound
    | some x => if s.serves x then s.no .badState else ((s.putStation a none).abandon a).ok
  else s.no .badArgument

def execSetStationClear (a : Nat) (s : State) : Out State := request (.setStationClear a) (·.clearStation a) s

/-- SET_STATION SETTINGS (R157, R165): the exchange in progress keeps the values it began with. -/
def State.stationSettings (s : State) (rate : Option Rate) (window : Nat) : Reply :=
  match rate with
  | some r => if within 5 50 window then { s with rate := r, replyWindow := window }.ok else s.no .badArgument
  | none => s.no .badArgument

def execSetStationSettings (rate : Option Rate) (window : Nat) (s : State) : Out State :=
  request (.setStationSettings rate window) (·.stationSettings rate window) s

/-! ## READ_STATION (R165) -/

/-- READ_STATION by address. -/
def State.readStation (s : State) (a : Nat) : Reply :=
  if addressOk a then
    match s.station a with
    | some x => s.okWith (s.stationPayload a x)
    | none => s.no .notFound
  else s.no .badArgument

def execReadStationByAddress (a : Nat) (s : State) : Out State := request (.readStationByAddress a) (·.readStation a) s

/-- READ_STATION, next station. -/
def State.readNextStation (s : State) (a : Nat) : Reply :=
  if a ≤ 60 then
    match s.stations.first fun n _ => decide (a < n) with
    | some n =>
      match s.station n with
      | some x => s.okWith (s.stationPayload n x)
      | none => s.okWith s.noStationPayload
    | none => s.okWith s.noStationPayload
  else s.no .badArgument

def execReadStationNext (a : Nat) (s : State) : Out State := request (.readStationNext a) (·.readNextStation a) s

/-! ## Exchanges -/

/-- POLL (R162, R163). -/
def execPoll (s : State) : Out State := eventIf State.mayPoll State.pollNext s

/-- The reply window expires: with a deciding frame under way it only closes, else the exchange ends with no reply (R162). -/
def State.windowExpires (s : State) : State :=
  match s.exchange, s.receiver with
  | some e, .frame _ true => { s with exchange := some { e with windowOpen := false } }
  | some _, _ => s.missed
  | none, _ => s

/-- REPLY_WINDOW_EXPIRY of an open window (R162). -/
def execReplyWindowExpiry (s : State) : Out State :=
  expiry .replyWindowExpiry ((s.exchange.filter Exchange.windowOpen).map Exchange.left) State.windowExpires s

/-- FRAME_START: a marked good character taken while the receiver hunts (R159, R162). -/
def execFrameStart (addr : Nat) (s : State) : Out State := eventIf (fun s => s.receiver == .hunting) (·.frameBegins addr) s

/-- FRAME_SPOILED (R159, R160): a marked character before the frame is complete begins a new frame as its address. -/
def execFrameSpoiled (c : Spoil) (s : State) : Out State :=
  event (fun s =>
    match c with
    | .marked addr => s.spoiled.frameBegins addr
    | .badCharacter | .longLength | .badCheck => s.spoiled) s

/-- A frame is under way. -/
def State.frameUnderWay (s : State) : Bool := s.receiver != .hunting

/-- CHARACTER_GAP_TIMEOUT within a frame (R159). -/
def execCharacterGapTimeout (s : State) : Out State := eventIf State.frameUnderWay State.spoiled s

/-- A frame under way that belongs to no exchange. -/
def State.lateFrame (s : State) : Bool :=
  match s.receiver with
  | .frame _ decides => !decides
  | .hunting => false

/-- LATE_REPLY_DISCARDED: the frame is assembled and discarded, and no record changes (R162). -/
def execLateReplyDiscarded (s : State) : Out State := eventIf State.lateFrame (fun s => { s with receiver := .hunting }) s

/-- The deciding frame, complete and good, carries another address than the polled station's (R162). -/
def State.otherAddress (s : State) (addr : Nat) : Bool :=
  match s.exchange, s.receiver with
  | some e, .frame a decides => decides && a == addr && a != e.addr
  | some e, .hunting => e.windowOpen && addr != e.addr
  | none, _ => false

/-- REPLY_OTHER_ADDRESS: the exchange ends with no reply (R162). -/
def execReplyOtherAddress (addr : Nat) (s : State) : Out State := eventIf (·.otherAddress addr) State.missed s

/-- REPLY_NOT_SUITED: a good reply in steps 1 to 3 of R164, handed to no owner and answered REFUSED. -/
def execReplyNotSuited (kind : Nat) (more : Bool) (s : State) : Out State :=
  report more (fun a _ s => s.send a (.refused kind .badArgument)) s

/-! ## Broadcasts (R168) -/

/-- A broadcast's kind in a station frame (R176). -/
def Broadcast.kind : Broadcast → Nat
  | .allHalt => 10
  | .resume => 11

/-- The pending broadcast sent: a line break, then the frame to address 0. -/
def State.sendBroadcast (s : State) : State :=
  match s.pendingBroadcast with
  | some b => { s with pendingBroadcast := none, receiver := .hunting, lineOut := [.lineBreak, .frame (stationFrame 0 b.kind [])] }
  | none => s

/-- A pending broadcast may be sent: no exchange is in progress. -/
def State.mayBroadcast (s : State) : Bool := s.pendingBroadcast.isSome && s.exchange.isNone

/-- BROADCAST (R168). -/
def execBroadcast (s : State) : Out State := eventIf State.mayBroadcast State.sendBroadcast s

end Sys2Proof.Machine
end

