-- ==== Sys2Proof/Machine/Power.lean ====
section
/-! DEFINITION. The Retention Monitor and the Plant Port's own commands (chapters 10 and 11): starts, standby, the loss and return of
main power, the attention read, and the port's transactions. -/

namespace Sys2Proof.Machine

/-! ## Main-supply state (R179, R180) -/

/-- A bay at a warm start; entry into standby leaves it as it is (R27). -/
def Bay.started (b : Bay) : Bay := { b with mark := none, lastHeight := none, confirm := 0 }

/-- A line's main-supply state at its start values, but for its STOP output; the level of its pin is the hall's (R48, R60, R61, R97,
R109). -/
def Line.started (x : Line) : Line :=
  { x with pending := false, web := 0, gateWeb := 0, v := 0, inBreak := false, cause := none, lowMark := false, counting := .idle,
           window := 0 }

/-- A stand's main-supply state at its start values, but for its outputs (R63, R66, R68, R75 to R77, R82). -/
def Stand.started (x : Stand) : Stand :=
  { x.clearChannels with df := none, run := .clear, ts := Config.max16, markLeft := none, measureLost := none, lastVs := none,
                         seq := .idle, matchCount := 0, pasteLeft := none, pasteLine := none, late := false, runout := false }

/-- A vehicle at a start: out of service with its load and order link (R140). -/
def Vehicle.started (v : Vehicle) : Vehicle := { Vehicle.cold with order := v.order, load := v.load }

/-- A segment at a start (R141). -/
def Segment.started (g : Segment) : Segment := { g with holder := none, waiters := [] }

/-- A station record at a start (R161, R167). -/
def Station.started (x : Station) : Station := .fresh x.place x.role

/-- All state on the main supply but the outputs at its start values, the records kept (R179 step 2, R181). -/
def State.mainCleared (s : State) : State :=
  let s2 := s.each s.lines.keys fun n s => s.modLine n Line.started
  let s3 := s2.each s.stands.keys fun n s => s.modStand n Stand.started
  let s4 := s3.each s.vehicles.keys fun n s => s.modVehicle n Vehicle.started
  let s5 := s4.each s.segments.keys fun n s => s.modSegment n Segment.started
  let s6 := s5.each s.stations.keys fun n s => s.modStation n Station.started
  { s6 with timeBase := 0, subMs := 0, micros := 0, halted := false, cycle := [], further := none, exchange := none,
            receiver := .hunting, pendingBroadcast := none, port := .cold, attn := [], shifted := [], lineOut := [], passDue := false }

/-! ## Starts (R139, R179, R181) -/

/-- An order at a warm start (R139). -/
def State.orderAtStart (s : State) (n : Nat) : State :=
  match s.order n with
  | none => s
  | some o =>
    if o.abort then s.freeOrder n
    else
      match o.state with
      | .assigned | .loading => s.returnToPending n true
      | .pending | .carrying | .unloading | .failed => s

/-- A dated CALL_OFF's deadline at a warm start, where now is 0: from a T_s of 65535 at a stand with an ACTIVE arm, else now (R139). -/
def State.deadlineAtStart (s : State) (n : Nat) : State :=
  match s.order n with
  | none => s
  | some o =>
    if o.kind = .callOff ∧ o.state ≠ .failed then
      match o.requester.stand.bind fun st => (s.lineOf st).filter fun _ => (s.stand st).active.isSome, o.requester.stand with
      | some l, some st =>
        if o.state = .unloading then s.modOrder n fun x => { x with deadline := x.deadline.map fun _ => s.now }
        else s.modOrder n ({ · with deadline := some (s.deadlineAt l st) })
      | _, _ => s.modOrder n fun x => { x with deadline := x.deadline.map fun _ => s.now }
    else s

/-- A stand at a warm start: RUNNING with D_f from its running roll where it has an ACTIVE arm (R68, R82). -/
def State.standAtStart (s : State) (st : Nat) : State :=
  if (s.stand st).active.isSome then
    s.modStand st ({ · with seq := .running, df := (s.runningRoll st).map fun e => e.2.diameter })
  else s

/-- A line at a warm start: with a live job it is in BREAK with cause WARM_START, uncounted, and its STOP follows (R97, R109). -/
def State.lineAtStart (s : State) (l : Nat) : State :=
  let live := (s.liveJob l).isSome
  (if live then s.modLine l ({ · with counting := .brk, inBreak := true, cause := some .warmStart }) else s).drivePin (.stop l) live

/-- A stand's BRAKE at a warm start: it follows the break state of the stand's line (R82, R97). -/
def State.brakeAtStart (s : State) (st : Nat) : State :=
  s.drivePin (.brake st) ((s.lineOf st).any fun l => (s.line l).inBreak && (s.line l).live.breakBrake)

/-- The subject of WARM_START (R179). -/
def StartCause.subject : StartCause → Nat
  | .power => 1
  | .restart => 2
  | .wake => 3

/-- A warm start (R179, R181): PASTE and then DRIVE dropped at every stand (R82); the orders first, then the other blocks, all before any
event is taken. -/
def State.warmStart (s : State) (c : StartCause) : State :=
  let s0 := (s.fresh.each s.stands.keys fun st s => s.dropPasteDrive st).mainCleared
  let s1 := s0.each s0.bays.keys fun n s => s.modBay n Bay.started
  let s2 := s1.each s1.orders.keys fun n s => s.orderAtStart n
  let s3 := s2.each (span 1 Config.stands) fun st s => s.standAtStart st
  let s4 := (s3.each (span 1 Config.lines) fun l s => s.lineAtStart l).each (span 1 Config.stands) fun st s => s.brakeAtStart st
  let s5 := s4.each s4.orders.keys fun n s => s.deadlineAtStart n
  let s6 := s5.each (span 1 Config.stands) fun st s => s.evalCallOff st
  { s6 with powered := true, startKind := .warm, startCause := c, standby := .running, passDue := false, attn := [] }.raise
    .warmStart c.subject

/-- A cold start (R179): record memory cleared; the levels of the input pins are the hall's (DESIGN CHOICE,
notes/assumptions/10.md). -/
def State.coldStart (s : State) : State :=
  { State.reset with
    lines := s.lines.filterMap fun e => if e.2.jam then some (e.1, { Line.cold with jam := true }) else none
    stands := s.stands.filterMap fun e => if e.2.webBreak then some (e.1, { Stand.cold with webBreak := true }) else none
    expiring := s.expiring
    pending := s.pending }

/-! ## Power (R179, R180, R183) -/

/-- POWER_RETURN: a warm start when the retention-supply sense reads held, else a cold start (R179). -/
def execPowerReturn (held : Bool) (s : State) : Out State :=
  if s.powered then .next s else if held then .next (s.warmStart .power) else .next s.coldStart


/-- WAKE: taken in standby alone, while main power is present (R183). -/
def execWake (s : State) : Out State :=
  if s.powered ∧ s.standby = .standby then .next (s.warmStart .wake) else .next s

/-! ## Standby (R182) -/

/-- A vehicle's state refuses STANDBY. -/
def VState.moves : VState → Bool
  | .toPickup | .loading | .toDrop | .unloading => true
  | .outOfService | .idle | .stalled => false

/-- STANDBY is answered BAD_STATE (R182). -/
def State.standbyRefused (s : State) : Bool :=
  s.standby != .running || ((span 1 Config.vehicles).any fun v => (s.vehicle v).state.moves) ||
  ((span 1 Config.lines).any fun l => decide (0 < (s.line l).v)) || (span 1 Config.stands).any fun st => (s.stand st).seq == .pasting

/-- STANDBY (R182). -/
def State.standbyRequest (s : State) : Reply :=
  if s.standbyRefused then s.no .badState else { s.halt with standby := .entering }.ok

def execStandby (s : State) : Out State := request .standby State.standbyRequest s

/-- The part may enter standby: the broadcast has been sent and the answer read whole (R182). -/
def State.mayEnter (s : State) : Bool :=
  s.standby == .entering && s.pendingBroadcast.isNone && s.exchange.isNone && s.port.state == .idle

/-- Every output dropped: PASTE, DRIVE and BRAKE at every stand, STOP at every line (R82, R182). -/
def State.dropOutputs (s : State) : State :=
  let t := s.each s.stands.keys fun st s => (s.dropPasteDrive st).drivePin (.brake st) false
  t.each t.lines.keys fun l s => s.drivePin (.stop l) false

/-- Entry into standby (R182). -/
def State.enterStandby (s : State) : State := { s.dropOutputs.mainCleared with standby := .standby }

/-- STANDBY_ENTRY (R182). -/
def execStandbyEntry (s : State) : Out State :=
  if s.awake && s.mayEnter then .next s.fresh.enterStandby else .next s

/-- MAIN_POWER_LOSS: the outputs drop and the part stops; its records are kept on the retention supply (R180; DESIGN CHOICE,
notes/assumptions/10.md). -/
def execMainPowerLoss (s : State) : Out State :=
  if s.powered then .next { s.fresh.dropOutputs.mainCleared with powered := false, standby := .running } else .next s

/-! ## RESTART_PART (R184) -/

/-- RESTART_PART taken by an IDLE port: a warm start in the update in which the port takes it, and no answer; the transaction shifted
out zeros. -/
def State.restart (s : State) (n : Nat) : State := (s.warmStart .restart).discards [] n

/-- RESTART_PART (R184): taken in RUNNING and in ENTERING. -/
def execRestartPart (s : State) : Out State :=
  if s.awake then
    match s.port.state with
    | .idle | .receiving => .next (s.restart (frameLength .restartPart))
    | .working | .answer => .next (s.fresh.discards s.port.busyFrame (frameLength .restartPart))
  else .next s

/-! ## READ_ATTENTION (R175) -/

/-- READ_ATTENTION: the set is reported as it stands, and made empty. -/
def State.readAttentionRequest (s : State) : Reply := { s with attn := [] }.okWith s.attentionPayload

def execReadAttention (s : State) : Out State := request .readAttention State.readAttentionRequest s

/-! ## Transactions (R171, R173) -/

/-- A request frame judged by an IDLE port at select release (R171): READ_ATTENTION and RESTART_PART complete at once (R175, R184). -/
def State.judge (s : State) (kind : Byte) (bytes : List Byte) : State :=
  match decodeRequest bytes with
  | some .readAttention => (complete .readAttention State.readAttentionRequest s).discards [] bytes.length
  | some .restartPart => s.restart bytes.length
  | some i => { s with port := ⟨.working, some i, none⟩ }.discards [] bytes.length
  | none => (s.answered kind.toNat .badArgument []).discards [] bytes.length

/-- A request transaction in ENTERING: only a well-formed RESTART_PART is taken (R182). -/
def State.judgeEntering (s : State) (bytes : List Byte) : State :=
  if decodeRequest bytes = some .restartPart then s.restart bytes.length else s.discards [] bytes.length

/-- A request transaction taken according to the port's state (R171, R182). -/
def State.transaction (s : State) (kind : Byte) (bytes : List Byte) : State :=
  match s.port.state with
  | .working | .answer => s.discards s.port.busyFrame bytes.length
  | .idle | .receiving => if s.standby = .running then s.judge kind bytes else s.judgeEntering bytes

/-- REQUEST_TRANSACTION (R171): a first byte of 0 makes the transaction a read, and one with no byte changes nothing (R170, R173). -/
def execRequestTransaction (bytes : List Byte) (s : State) : Out State :=
  if s.awake then
    match bytes with
    | [] => .next s
    | b :: _ => if b = 0#8 then .next (s.fresh.readClocked bytes.length) else .next (s.fresh.transaction b bytes).finish
  else .next s

/-- READ_TRANSACTION of some clocked bytes (R173). -/
def execReadTransaction (clocked : Nat) (s : State) : Out State :=
  if s.awake && clocked != 0 then .next (s.fresh.readClocked clocked) else .next s

end Sys2Proof.Machine
end

