-- ==== Sys2Proof/Machine/Clock.lean ====
section
/-! DEFINITION. One microsecond of the part's own time, taken when no command waits: counters and timers move, and what they bring due
is put into the queue. DESIGN CHOICE (notes/assumptions/2.md). -/

namespace Sys2Proof.Machine

/-- A count of µs left, one less. -/
def countDown (o : Option Nat) : Option Nat := o.map (· - 1)

/-- A running timer, one µs less; a suspended or stopped one keeps what it has. -/
def Timer.countDown : Timer → Timer
  | .running l => .running (l - 1)
  | t => t

/-- A time left that comes to its end in this µs. -/
def ends (left : Option Nat) : Bool := left.any fun n => decide (n ≤ 1)

/-- The µs capture counter and the time base (R63, chapter 0): the time base counts ms and saturates. -/
def State.advance (s : State) : State :=
  if s.subMs = 999 then { s with micros := s.micros + 1, subMs := 0, timeBase := min Config.timeBaseMax (s.timeBase + 1) }
  else { s with micros := s.micros + 1, subMs := s.subMs + 1 }

/-- Every timer counted down. -/
def State.countTimers (s : State) : State :=
  let s1 := s.each s.stands.keys fun st s => s.modStand st fun x => { x with markLeft := countDown x.markLeft, pasteLeft := countDown x.pasteLeft }
  let s2 := s1.each s1.vehicles.keys fun v s => s.modVehicle v fun x =>
    { x with progress := x.progress.countDown, transfer := x.transfer.countDown }
  { s2 with exchange := s2.exchange.map fun e => { e with left := e.left - 1 } }

/-- A whole number of periods has passed in ms, and a ms has just ended. -/
def State.every (s : State) (period : Nat) : Bool := s.subMs == 0 && s.timeBase != 0 && s.timeBase % period == 0

/-- The timers that end in the coming µs, by the numbers of their owners, then the reply window. -/
def State.dueTimers (s : State) : List Instr :=
  ((s.stands.filter fun e => ends e.2.markLeft).map fun e => .markTimerExpiry e.1) ++
  ((s.stands.filter fun e => ends e.2.pasteLeft).map fun e => .pasteTimerExpiry e.1) ++
  ((s.vehicles.filter fun e => ends e.2.progress.left).map fun e => .progressTimeout e.1) ++
  ((s.vehicles.filter fun e => ends e.2.transfer.left).map fun e => .transferTimeout e.1) ++
  (if ends ((s.exchange.filter Exchange.windowOpen).map Exchange.left) then [.replyWindowExpiry] else [])

/-- The gates and the second that come due in the coming µs. -/
def State.duePeriods (s : State) : List Instr :=
  (if s.advance.every 250 then (span 1 Config.lines).map .gateExpiry else []) ++ (if s.advance.every 1000 then [.secondTick] else [])

/-- One microsecond: in standby and without main power nothing counts (R183). -/
def State.tick (s : State) : State :=
  if s.awake then
    { s.advance.countTimers with pending := s.pending ++ (s.dueTimers ++ s.duePeriods), expiring := s.dueTimers }
  else s

end Sys2Proof.Machine
end

