-- ==== Sys2Proof/Machine/Dispatch.lean ====
section
/-! DEFINITION. Every command of the table and its meaning. -/

namespace Sys2Proof.Machine

def exec (i : Instr) (s : State) : Host.Outcome State Fault Refusal :=
  match i with
  | .requestTransaction bytes => Sys2Proof.Machine.execRequestTransaction bytes s
  | .readTransaction clocked => Sys2Proof.Machine.execReadTransaction clocked s
  | .lookupRoll r => Sys2Proof.Machine.execLookupRoll r s
  | .listRollsByGrade grade width key => Sys2Proof.Machine.execListRollsByGrade grade width key s
  | .listRollsByLocation p => Sys2Proof.Machine.execListRollsByLocation p s
  | .announceRoll tag grade width diameter weight node => Sys2Proof.Machine.execAnnounceRoll tag grade width diameter weight node s
  | .holdRoll r reason => Sys2Proof.Machine.execHoldRoll r reason s
  | .releaseRoll r => Sys2Proof.Machine.execReleaseRoll r s
  | .retireRoll r => Sys2Proof.Machine.execRetireRoll r s
  | .placeRoll r d => Sys2Proof.Machine.execPlaceRoll r d s
  | .readBayByNumber b => Sys2Proof.Machine.execReadBayByNumber b s
  | .readBayNextHeld b => Sys2Proof.Machine.execReadBayNextHeld b s
  | .setBay b limit aisle h => Sys2Proof.Machine.execSetBay b limit aisle h s
  | .releaseBay b => Sys2Proof.Machine.execReleaseBay b s
  | .setGradeConfigure g basis caliper core threshold => Sys2Proof.Machine.execSetGradeConfigure g basis caliper core threshold s
  | .setGradeClear g caliper => Sys2Proof.Machine.execSetGradeClear g caliper s
  | .readGrade g => Sys2Proof.Machine.execReadGrade g s
  | .writePlanHead line h => Sys2Proof.Machine.execWritePlanHead line h s
  | .writePlanPositions line ps => Sys2Proof.Machine.execWritePlanPositions line ps s
  | .readPlan line sel part => Sys2Proof.Machine.execReadPlan line sel part s
  | .changeover line => Sys2Proof.Machine.execChangeover line s
  | .readStand st => Sys2Proof.Machine.execReadStand st s
  | .setStand st m k offset tol pulse loading => Sys2Proof.Machine.execSetStand st m k offset tol pulse loading s
  | .setLine line lam w e => Sys2Proof.Machine.execSetLine line lam w e s
  | .openJob job line => Sys2Proof.Machine.execOpenJob job line s
  | .closeJob job => Sys2Proof.Machine.execCloseJob job s
  | .readJobByNumber job => Sys2Proof.Machine.execReadJobByNumber job s
  | .readJobNext job => Sys2Proof.Machine.execReadJobNext job s
  | .retireJob job => Sys2Proof.Machine.execRetireJob job s
  | .stopLine line => Sys2Proof.Machine.execStopLine line s
  | .restartLine line => Sys2Proof.Machine.execRestartLine line s
  | .orderMove r d => Sys2Proof.Machine.execOrderMove r d s
  | .cancelOrder n => Sys2Proof.Machine.execCancelOrder n s
  | .readOrderByNumber n => Sys2Proof.Machine.execReadOrderByNumber n s
  | .readOrderNext n => Sys2Proof.Machine.execReadOrderNext n s
  | .retireOrder n => Sys2Proof.Machine.execRetireOrder n s
  | .setServiceIn v node => Sys2Proof.Machine.execSetServiceIn v node s
  | .setServiceOut v => Sys2Proof.Machine.execSetServiceOut v s
  | .setServiceSettings progress transfer margin => Sys2Proof.Machine.execSetServiceSettings progress transfer margin s
  | .readVehicle v => Sys2Proof.Machine.execReadVehicle v s
  | .setSegment n k => Sys2Proof.Machine.execSetSegment n k s
  | .setNode n c => Sys2Proof.Machine.execSetNode n c s
  | .setRoute n c => Sys2Proof.Machine.execSetRoute n c s
  | .haltTransport => Sys2Proof.Machine.execHaltTransport s
  | .resumeTransport => Sys2Proof.Machine.execResumeTransport s
  | .setStationConfigure a r => Sys2Proof.Machine.execSetStationConfigure a r s
  | .setStationClear a => Sys2Proof.Machine.execSetStationClear a s
  | .setStationSettings rate window => Sys2Proof.Machine.execSetStationSettings rate window s
  | .readStationByAddress a => Sys2Proof.Machine.execReadStationByAddress a s
  | .readStationNext a => Sys2Proof.Machine.execReadStationNext a s
  | .standby => Sys2Proof.Machine.execStandby s
  | .standbyEntry => Sys2Proof.Machine.execStandbyEntry s
  | .restartPart => Sys2Proof.Machine.execRestartPart s
  | .readAttention => Sys2Proof.Machine.execReadAttention s
  | .poll => Sys2Proof.Machine.execPoll s
  | .replyWindowExpiry => Sys2Proof.Machine.execReplyWindowExpiry s
  | .frameSpoiled c => Sys2Proof.Machine.execFrameSpoiled c s
  | .characterGapTimeout => Sys2Proof.Machine.execCharacterGapTimeout s
  | .lateReplyDiscarded => Sys2Proof.Machine.execLateReplyDiscarded s
  | .replyNotSuited kind more => Sys2Proof.Machine.execReplyNotSuited kind more s
  | .broadcast => Sys2Proof.Machine.execBroadcast s
  | .noneReply order more => Sys2Proof.Machine.execNoneReply order more s
  | .position order spot passed more => Sys2Proof.Machine.execPosition order spot passed more s
  | .claim order seg more => Sys2Proof.Machine.execClaim order seg more s
  | .docked order deck more => Sys2Proof.Machine.execDocked order deck more s
  | .loaded order more => Sys2Proof.Machine.execLoaded order more s
  | .unloaded order more => Sys2Proof.Machine.execUnloaded order more s
  | .idle order node more => Sys2Proof.Machine.execIdle order node more s
  | .fault order number more => Sys2Proof.Machine.execFault order number more s
  | .tagRead tag grade width diameter weight more => Sys2Proof.Machine.execTagRead tag grade width diameter weight more s
  | .scaleWeight tag weight more => Sys2Proof.Machine.execScaleWeight tag weight more s
  | .bayHeights heights more => Sys2Proof.Machine.execBayHeights heights more s
  | .prepDone a after before more => Sys2Proof.Machine.execPrepDone a after before more s
  | .stubOff a diameter more => Sys2Proof.Machine.execStubOff a diameter more s
  | .spliceNow st more => Sys2Proof.Machine.execSpliceNow st more s
  | .consoleGood more => Sys2Proof.Machine.execConsoleGood more s
  | .consoleStop more => Sys2Proof.Machine.execConsoleStop more s
  | .consoleRestart more => Sys2Proof.Machine.execConsoleRestart more s
  | .webPulse line => Sys2Proof.Machine.execWebPulse line s
  | .gateExpiry line => Sys2Proof.Machine.execGateExpiry line s
  | .markEdge st a => Sys2Proof.Machine.execMarkEdge st a s
  | .markTimerExpiry st => Sys2Proof.Machine.execMarkTimerExpiry st s
  | .pasteTimerExpiry st => Sys2Proof.Machine.execPasteTimerExpiry st s
  | .webBreakPin st => Sys2Proof.Machine.execWebBreakPin st s
  | .folderJam line => Sys2Proof.Machine.execFolderJam line s
  | .copyPulse line => Sys2Proof.Machine.execCopyPulse line s
  | .secondTick => Sys2Proof.Machine.execSecondTick s
  | .progressTimeout v => Sys2Proof.Machine.execProgressTimeout v s
  | .transferTimeout v => Sys2Proof.Machine.execTransferTimeout v s
  | .powerReturn held => Sys2Proof.Machine.execPowerReturn held s
  | .mainPowerLoss => Sys2Proof.Machine.execMainPowerLoss s
  | .wake => Sys2Proof.Machine.execWake s
  | .webBreakPinInactive st => Sys2Proof.Machine.execWebBreakPinInactive st s
  | .folderJamInactive line => Sys2Proof.Machine.execFolderJamInactive line s
  | .frameStart addr => Sys2Proof.Machine.execFrameStart addr s
  | .replyOtherAddress addr => Sys2Proof.Machine.execReplyOtherAddress addr s

end Sys2Proof.Machine
end

