-- ==== Sys2Proof/Safety.lean ====
section
/-! DEFINITION. What a state of the part must be: its tables in canonical form, and the laws the spec states of the device. And the words
the statements use: when a command is taken, and what its answer leaves in the port. -/

namespace Sys2Proof

/-- A table's numbers rise strictly. -/
def Tbl.rising {α : Type} : Tbl α → Bool
  | [] => true
  | [_] => true
  | (a, _) :: (b, y) :: t => decide (a < b) && Tbl.rising ((b, y) :: t)

/-- A table with an unlisted value is canonical: its numbers rise and no entry equals that value. -/
def Tbl.canonical {α : Type} [DecidableEq α] (t : Tbl α) (cold : α) : Bool := t.rising && t.all fun e => e.2 != cold

end Sys2Proof

namespace Sys2Proof.Machine

/-! ## Laws of every state -/

/-- Every table of the state is in canonical form. -/
def State.canonical (s : State) : Bool :=
  s.rolls.rising && s.bays.canonical .cold && s.grades.canonical .cold && s.lines.canonical .cold && s.stands.canonical .cold &&
  s.jobs.rising && s.orders.rising && s.vehicles.canonical .cold && s.segments.canonical .cold && s.nodes.rising && s.routes.rising &&
  s.stations.rising && s.attn.rising

/-- No two live roll records carry the same tag (R11). -/
def State.tagsDiffer (s : State) : Prop := ∀ m n q r, s.roll m = some q → s.roll n = some r → q.tag = r.tag → m = n

/-- The arrival counter and the order sequence are in range, no record is numbered beyond them, and no two live rolls carry the same
arrival number (R9, R121). -/
def State.counted (s : State) : Prop :=
  s.arrival ≤ Config.max32 ∧ s.orderSeq ≤ Config.max32 ∧ (∀ n r, s.roll n = some r → r.arrival ≤ s.arrival) ∧
  (∀ m n q r, s.roll m = some q → s.roll n = some r → q.arrival = r.arrival → m = n) ∧
  ∀ n o, s.order n = some o → o.seq ≤ s.orderSeq

/-- A bay's stack keeps within its level limit, which is at most 3 (R27, R30). -/
def Bay.inLimit (b : Bay) : Prop := b.stack.length ≤ b.limit ∧ b.limit ≤ 3

/-- Every bay keeps within its limit. -/
def State.baysInLimit (s : State) : Prop := ∀ b, (s.bay b).inLimit

/-- At most one arm of a stand is ACTIVE (R81). -/
def Stand.oneActive (x : Stand) : Prop := x.armA.state = .active → x.armB.state ≠ .active

/-- Every stand has at most one ACTIVE arm. -/
def State.armsLawful (s : State) : Prop := ∀ st, (s.stand st).oneActive

/-- The tallies of a job do not pass their maxima (R108). -/
def Job.bounded (j : Job) : Prop :=
  j.consumedM ≤ Config.max32 ∧ j.consumedG ≤ Config.max32 ∧ j.stripM ≤ Config.max32 ∧ j.stripG ≤ Config.max32 ∧
  j.stubM ≤ Config.max32 ∧ j.stubG ≤ Config.max32 ∧ j.spliceCount ≤ Config.max16 ∧ j.breakCount ≤ Config.max16 ∧
  j.good ≤ Config.max32 ∧ j.makeready ≤ Config.max32 ∧ j.splice ≤ Config.max32 ∧ j.brk ≤ Config.max32 ∧ j.changeover ≤ Config.max32

/-- Every job's tallies are bounded. -/
def State.talliesBounded (s : State) : Prop := ∀ n j, s.job n = some j → j.bounded

/-- A station's counters and out-list are in the ranges of R161. -/
def Station.bounded (x : Station) : Prop := x.miss ≤ 3 ∧ x.reduced ≤ 7 ∧ x.out.length ≤ 4

/-- Every station record is in range. -/
def State.stationsBounded (s : State) : Prop := ∀ a x, s.station a = some x → x.bounded

/-- The attention set holds the conditions of R174 alone, each raised 1 to 255 times. -/
def State.attentionBounded (s : State) : Prop := ∀ e ∈ s.attn, 1 ≤ e.1 ∧ e.1 ≤ 13 ∧ 1 ≤ e.2.count ∧ e.2.count ≤ 255

/-! ## The words of the statements -/

/-- A plant request is taken by this step: the port is WORKING on it, or is IDLE in a RUNNING part (R171, R172, R182). -/
def State.takes (s : State) (i : Instr) : Bool :=
  s.awake &&
    match s.port.state with
    | .working => s.port.held == some i
    | .idle | .receiving => s.standby == .running
    | .answer => false

/-- The answer to a request formed in the port (R172); a port that took the request in this step shifted out zeros (R171). -/
def State.replied (s : State) (i : Instr) (x : Status) (payload : List Byte) : State :=
  { s with port := ⟨.answer, none, some ⟨x, i.requestKind, payload⟩⟩,
           shifted := if s.port.state = .working then s.shifted else List.replicate (frameLength i) 0#8 }

/-- A state whose port holds this answer to a request, unread (R172). -/
def State.answers (t : State) (i : Instr) (x : Status) (payload : List Byte) : Prop :=
  t.port = ⟨.answer, none, some ⟨x, i.requestKind, payload⟩⟩

/-- The exchange in progress is answered by a good frame of its station, whose record this is (R162, R164). -/
def State.hears (s : State) (e : Exchange) (x : Station) : Prop :=
  s.awake = true ∧ s.replying = some e ∧ s.station e.addr = some x

/-- The state in which the owner of a good reply takes it: the update begun, and steps 1 to 3 of R164 made. -/
def State.heard (s : State) (e : Exchange) (more : Bool) : State := s.fresh.goodReply e more

/-- A roll enrolled by an announcement at a node, with its STORE order and the pass it leads to (R9, R10 step 4, R121, R122). -/
def State.enrolled (s : State) (n : Nat) (tag : Tag) (grade width diameter : Nat) (weight : Option Nat) (node : Nat) : State :=
  { s with
    arrival := s.arrival + 1,
    rolls := s.rolls.put n (some (Roll.announced tag grade width diameter weight node (s.arrival + 1) s.nextOrderNumber)),
    orders := s.orders.put s.nextOrderNumber (some { Order.store node n with
      place := (lowestFree Config.orderPlaces (s.orders.map fun e => e.2.place)).getD 1, seq := s.orderSeq + 1 }),
    orderSeq := s.orderSeq + 1, orderPointer := s.nextOrderNumber % 255 + 1, passDue := true }

end Sys2Proof.Machine
end

