-- ==== Sys2Proof/WellFormed.lean ====
section
/-! DEFINITION. When a command is well formed: each operand fits the bytes its frame gives it (R176 to R178), and a pin or timer has an
owner the part has. A request's values may still lie outside the ranges of its rule: those are answered BAD_ARGUMENT. -/

namespace Sys2Proof

/-- A number fits some bytes. -/
def fits (w n : Nat) : Bool := decide (n < 256 ^ w)

/-- A present number fits some bytes. -/
def fitsOpt (w : Nat) (o : Option Nat) : Bool := o.all (fits w)

/-- A number names one of some owners. -/
def owner (hi n : Nat) : Bool := decide (1 ≤ n ∧ n ≤ hi)

def RollRef.wf : RollRef → Bool
  | .byTag _ => true
  | .byRecord n => fits 2 n

def ListPlace.wf : ListPlace → Bool
  | .bay b => fits 1 b
  | .vehicle n => fits 1 n
  | .arm s _ => fits 1 s
  | .node n key => fits 1 n && fits 4 key

def PlaceDest.wf : PlaceDest → Bool
  | .bay b => fits 1 b
  | .arm s _ => fits 1 s

def MoveDest.wf : MoveDest → Bool
  | .bay b => fits 1 b
  | .node n => fits 1 n

def PlanHead.wf (h : PlanHead) : Bool :=
  fits 2 h.job && fits 4 h.target && fits 2 h.allowance && fits 2 h.window && fits 2 h.lead && fits 2 h.prep && fits 2 h.restartSpeed &&
  fits 2 h.margin

def Position.wf (p : Position) : Bool := fits 1 p.stand && fits 1 p.grade && fits 2 p.width && fits 2 p.dt

def SegKind.wf : SegKind → Bool
  | .loop next => fits 1 next
  | .siding branch next => fits 1 branch && fits 1 next

/-- A route's list fits a frame of at most 64 payload bytes. -/
def Route.wf (r : Route) : Bool :=
  fits 1 r.src && fits 1 r.dst && decide (r.segs.length ≤ 57) && r.segs.all (fits 1) && fits 2 r.time

def Role.wf : Role → Bool
  | .vehicle n => fits 1 n
  | .standNode s => fits 1 s
  | .bayNode first count => fits 1 first && fits 1 count
  | .dockReader n => fits 1 n
  | .scale => true
  | .console l => fits 1 l

def Spot.wf : Spot → Bool
  | .node n => fits 1 n
  | .segment n => fits 1 n

def Spoil.wf : Spoil → Bool
  | .marked addr => fits 1 addr
  | .badCharacter | .longLength | .badCheck => true

/-- A command is well formed. -/
def Instr.wf : Instr → Bool
  | .requestTransaction _ => true
  | .readTransaction _ => true
  | .lookupRoll r => r.wf
  | .listRollsByGrade g w key => fits 1 g && fits 2 w && fits 4 key
  | .listRollsByLocation p => p.wf
  | .announceRoll _ g w d kg node => fits 1 g && fits 2 w && fits 2 d && fitsOpt 2 kg && fits 1 node
  | .holdRoll r _ => r.wf
  | .releaseRoll r => r.wf
  | .retireRoll r => r.wf
  | .placeRoll r d => r.wf && d.wf
  | .readBayByNumber b => fits 1 b
  | .readBayNextHeld b => fits 1 b
  | .setBay b limit aisle _ => fits 1 b && fits 1 limit && fits 1 aisle
  | .releaseBay b => fits 1 b
  | .setGradeConfigure g basis caliper core threshold => fits 1 g && fits 1 basis && fits 1 caliper && fits 2 core && fits 2 threshold
  | .setGradeClear g caliper => fits 1 g && fits 1 caliper
  | .readGrade g => fits 1 g
  | .writePlanHead l h => fits 1 l && h.wf
  | .writePlanPositions l ps => fits 1 l && decide (ps.length ≤ 10) && ps.all Position.wf
  | .readPlan l _ _ => fits 1 l
  | .changeover l => fits 1 l
  | .readStand st => fits 1 st
  | .setStand st m k offset tol pulse loading =>
    fits 1 st && fits 1 m && fits 1 k && fits 2 offset && fits 1 tol && fits 2 pulse && fits 1 loading
  | .setLine l lam w _ => fits 1 l && fits 2 lam && fits 1 w
  | .openJob j l => fits 2 j && fits 1 l
  | .closeJob j => fits 2 j
  | .readJobByNumber j => fits 2 j
  | .readJobNext j => fits 2 j
  | .retireJob j => fits 2 j
  | .stopLine l => fits 1 l
  | .restartLine l => fits 1 l
  | .orderMove r d => r.wf && d.wf
  | .cancelOrder n => fits 1 n
  | .readOrderByNumber n => fits 1 n
  | .readOrderNext n => fits 1 n
  | .retireOrder n => fits 1 n
  | .setServiceIn v x => fits 1 v && fits 1 x
  | .setServiceOut v => fits 1 v
  | .setServiceSettings p t m => fits 1 p && fits 1 t && fits 2 m
  | .readVehicle v => fits 1 v
  | .setSegment n k => fits 1 n && k.all SegKind.wf
  | .setNode n c => fits 1 n && c.all fun e => fits 1 e.1
  | .setRoute n c => fits 1 n && c.all Route.wf
  | .haltTransport => true
  | .resumeTransport => true
  | .setStationConfigure a r => fits 1 a && r.wf
  | .setStationClear a => fits 1 a
  | .setStationSettings _ w => fits 1 w
  | .readStationByAddress a => fits 1 a
  | .readStationNext a => fits 1 a
  | .standby => true
  | .standbyEntry => true
  | .restartPart => true
  | .readAttention => true
  | .poll => true
  | .replyWindowExpiry => true
  | .frameSpoiled c => c.wf
  | .characterGapTimeout => true
  | .lateReplyDiscarded => true
  | .replyNotSuited kind _ => decide (kind < 128)
  | .broadcast => true
  | .noneReply order _ => fits 1 order
  | .position order p _ _ => fits 1 order && p.wf
  | .claim order g _ => fits 1 order && fits 1 g
  | .docked order _ _ => fits 1 order
  | .loaded order _ => fits 1 order
  | .unloaded order _ => fits 1 order
  | .idle order x _ => fits 1 order && fits 1 x
  | .fault order number _ => fits 1 order && fits 1 number
  | .tagRead _ g w d kg _ => fits 1 g && fits 2 w && fits 2 d && fitsOpt 2 kg
  | .scaleWeight _ kg _ => fits 2 kg
  | .bayHeights hs _ => decide (hs.length ≤ 39) && hs.all (fits 1)
  | .prepDone _ after before _ => fits 2 after && fits 2 before
  | .stubOff _ d _ => fitsOpt 2 d
  | .spliceNow st _ => fits 1 st
  | .consoleGood _ => true
  | .consoleStop _ => true
  | .consoleRestart _ => true
  | .webPulse l => owner Config.lines l
  | .gateExpiry l => owner Config.lines l
  | .markEdge st _ => owner Config.stands st
  | .markTimerExpiry st => owner Config.stands st
  | .pasteTimerExpiry st => owner Config.stands st
  | .webBreakPin st => owner Config.stands st
  | .folderJam l => owner Config.lines l
  | .copyPulse l => owner Config.lines l
  | .secondTick => true
  | .progressTimeout v => owner Config.vehicles v
  | .transferTimeout v => owner Config.vehicles v
  | .powerReturn _ => true
  | .mainPowerLoss => true
  | .wake => true
  | .webBreakPinInactive st => owner Config.stands st
  | .folderJamInactive l => owner Config.lines l
  | .frameStart addr => fits 1 addr
  | .replyOtherAddress addr => fits 1 addr

end Sys2Proof
end

