-- ==== Sys2Proof/Certificates/Slice0/Obligations.lean ====
section
/-! DEFINITION. The statements for the provers. -/

section
open Sys2Proof Sys2Proof.Machine

/-! ## The laws of every state -/

/-- Every step keeps every table in its one canonical form: record numbers rise strictly, and where an unlisted number reads as a cold-
start record no listed record is one. -/
def Obligations.EveryStepKeepsTablesCanonical : Prop :=
  ∀ s t : State, s.canonical = true → step s = .next t → t.canonical = true

/-- Every step keeps the law of R11: no two live roll records carry the same tag. Every step keeps the counters in range, no live record
numbered beyond its counter, and arrival numbers given once (R9, R121). -/
def Obligations.EveryStepKeepsTagsAndNumbersUnique : Prop :=
  (∀ s t : State, s.tagsDiffer → step s = .next t → t.tagsDiffer) ∧
  (∀ s t : State, s.counted → step s = .next t → t.counted)

/-- Every step keeps every bay's stack within its level limit and the limit at most 3 (R27, R30). Every step keeps at most one arm of each
stand ACTIVE (R81). -/
def Obligations.EveryStepKeepsBaysInLimit : Prop :=
  (∀ s t : State, s.baysInLimit → step s = .next t → t.baysInLimit) ∧
  (∀ s t : State, s.armsLawful → step s = .next t → t.armsLawful)

/-- Every step keeps the metres, grams and counts of every job at or below their maxima (R108). Every step keeps miss counts, reduced-rate
counters and out-lists of all stations in the ranges of R161. Every step keeps the attention set to the 13 conditions of R174, each with a
raise count of 1 to 255. -/
def Obligations.EveryStepKeepsCountsInRange : Prop :=
  (∀ s t : State, s.talliesBounded → step s = .next t → t.talliesBounded) ∧
  (∀ s t : State, s.stationsBounded → step s = .next t → t.stationsBounded) ∧
  (∀ s t : State, s.attentionBounded → step s = .next t → t.attentionBounded)

/-- The state after reset meets every law the steps keep. -/
def Obligations.ResetMeetsTheLaws : Prop :=
  State.reset.canonical = true ∧ State.reset.tagsDiffer ∧ State.reset.counted ∧ State.reset.baysInLimit ∧ State.reset.armsLawful ∧
  State.reset.talliesBounded ∧ State.reset.stationsBounded ∧ State.reset.attentionBounded

/-! ## The Roll Registry -/

/-- LOOKUP_ROLL, the checks and the answer of R20. How a roll is named (R20): a tag of 16 decimal digits, not all zero, or a record number
1 to 480; it names the live record that carries it. The payload of LOOKUP_ROLL (R177): 34 bytes, each field of a record in range read back
from its place. -/
def Obligations.LookupRollAnswersTheRecord : Prop :=
  (∀ (s : State) (r : RollRef), s.takes (.lookupRoll r) = true →
     (r.ok = false → exec (.lookupRoll r) s = .next (s.fresh.replied (.lookupRoll r) .badArgument [])) ∧
     (r.ok = true → s.resolve r = none → exec (.lookupRoll r) s = .next (s.fresh.replied (.lookupRoll r) .notFound [])) ∧
     ∀ (n : Nat) (x : Roll), r.ok = true → s.resolve r = some (n, x) →
       exec (.lookupRoll r) s = .next (s.fresh.replied (.lookupRoll r) .ok (s.rollPayload n x))) ∧
  (∀ s : State,
     (∀ n, (RollRef.byRecord n).ok = true ↔ 1 ≤ n ∧ n ≤ 480) ∧
     (∀ t, (RollRef.byTag t).ok = true ↔ t ≠ 0 ∧ ∀ i, i < 16 → t.toNat / 16 ^ i % 16 ≤ 9) ∧
     (∀ n, s.resolve (.byRecord n) = (s.roll n).map fun x => (n, x)) ∧
     (s.rolls.rising = true →
       (∀ t n x, s.resolve (.byTag t) = some (n, x) → s.roll n = some x ∧ x.tag = t) ∧
       ∀ t, s.resolve (.byTag t) = none ↔ ∀ n x, s.roll n = some x → x.tag ≠ t)) ∧
  (∀ (s : State) (n : Nat) (x : Roll), n < 65536 → x.grade < 256 → x.width < 65536 → x.arrival ≤ Config.max32 → x.diameter < 65536 →
     (∀ w, x.weight = some w → w < 65536) → (∀ m, x.mount = some m → m < 65536) → (∀ o, x.order = some o → o < 256) →
     (∀ j, x.job = some j → j < 65536) → x.consumed < 65536 →
     (s.rollPayload n x).length = 34 ∧
     beNat ((s.rollPayload n x).take 2) = n ∧
     beNat (((s.rollPayload n x).drop 2).take 8) = x.tag.toNat ∧
     beNat (((s.rollPayload n x).drop 10).take 1) = x.grade ∧
     beNat (((s.rollPayload n x).drop 11).take 2) = x.width ∧
     beNat (((s.rollPayload n x).drop 13).take 4) = x.arrival ∧
     beNat (((s.rollPayload n x).drop 17).take 1) = [RollState.announced, .stored, .reserved, .inTransit, .staged, .ready, .running, .stub].idxOf x.state + 1 ∧
     ((s.rollPayload n x).drop 18).take 3 = (match x.loc with
       | .node k => [1#8, BitVec.ofNat 8 k, 0#8]
       | .bay b l => [2#8, BitVec.ofNat 8 b, BitVec.ofNat 8 l]
       | .vehicle v => [3#8, BitVec.ofNat 8 v, 0#8]
       | .arm st a => [4#8, BitVec.ofNat 8 st, if a = .A then 1#8 else 2#8]) ∧
     beNat (((s.rollPayload n x).drop 21).take 2) = x.diameter ∧
     beNat (((s.rollPayload n x).drop 23).take 2) = x.weight.getD 0 ∧
     beNat (((s.rollPayload n x).drop 25).take 2) = x.mount.getD 0 ∧
     beNat (((s.rollPayload n x).drop 27).take 1) = x.order.getD 0 ∧
     beNat (((s.rollPayload n x).drop 28).take 2) = x.job.getD 0 ∧
     beNat (((s.rollPayload n x).drop 30).take 2) = x.consumed ∧
     ((s.rollPayload n x).drop 32).take 1 = (match x.hold with
       | none => [0#8]
       | some .damaged => [1#8]
       | some .discrepancy => [2#8]
       | some .operator => [3#8]) ∧
     (s.isTop n x = match x.loc with
       | .bay b _ => (s.bay b).stack.getLast? == some n
       | _ => false) ∧
     (s.isBuried n x = match x.loc with
       | .bay b _ => !((s.bay b).stack.getLast? == some n)
       | _ => false) ∧
     ((s.rollPayload n x)[33]?).map (fun b => (List.range 8).map b.getLsbD) =
       some [x.weight.isSome, x.mount.isSome, x.order.isSome, x.job.isSome, x.returned, s.isTop n x, s.isBuried n x, s.transferAt x])

/-- LIST_ROLLS in both forms (R21, R22): the ranges, and the list the answer carries: the live rolls of a grade and width, or announced at
a node, beyond an arrival number in ascending arrival order; those of a bay from the bottom upward; the load of a vehicle; the roll of an
arm. The payload (R177) lists at most 11 of them with the MORE mark exactly when more stand behind them, in 22 bytes each, from which each
field reads back. -/
def Obligations.ListRollsAnswersInOrder : Prop :=
  ((∀ (s : State) (g w key : Nat), s.takes (.listRollsByGrade g w key) = true →
     exec (.listRollsByGrade g w key) s = .next (
       if g ≤ 15 ∧ 300 ≤ w ∧ w ≤ 2200 ∧ key ≤ 4294967295 then
         s.fresh.replied (.listRollsByGrade g w key) .ok
           (s.listPayload (s.rollsWhere fun r => r.grade == g && r.width == w && decide (key < r.arrival)))
       else s.fresh.replied (.listRollsByGrade g w key) .badArgument [])) ∧
   ∀ (s : State) (p : ListPlace), s.takes (.listRollsByLocation p) = true →
     let fits := match p with
       | .bay b => 1 ≤ b ∧ b ≤ 120
       | .vehicle v => 1 ≤ v ∧ v ≤ 12
       | .arm st a => 1 ≤ st ∧ st ≤ 16 ∧ a ≠ none
       | .node y key => 1 ≤ y ∧ y ≤ 48 ∧ key ≤ 4294967295
     let one := fun n => match (s.roll n) with
       | some r => [(n, r)]
       | none => []
     (¬ fits → exec (.listRollsByLocation p) s = .next (s.fresh.replied (.listRollsByLocation p) .badArgument [])) ∧
     (fits → exec (.listRollsByLocation p) s = .next (s.fresh.replied (.listRollsByLocation p) .ok (s.listPayload (match p with
       | .bay b => (s.bay b).stack.flatMap one
       | .vehicle v => (s.vehicle v).load.toList.flatMap one
       | .arm st a => (a.bind fun a => ((s.stand st).arm a).roll).toList.flatMap one
       | .node y key => s.rollsWhere fun r => r.state == .announced && r.loc == .node y && decide (key < r.arrival)))))) ∧
  (∀ (s : State) (p : Roll → Bool),
     (s.rollsWhere p).Pairwise (fun a b => a.2.arrival ≤ b.2.arrival) ∧
     (s.rollsWhere p).Perm (s.rolls.filter fun e => p e.2)) ∧
  (∀ (s : State) (l : List (Nat × Roll)),
     s.listPayload l = BitVec.ofNat 8 (min 11 l.length + if 11 < l.length then 128 else 0) ::
       (l.take 11).flatMap (fun e => s.rollEntry e.1 e.2) ∧
     (s.listPayload l).length = 1 + 22 * min 11 l.length) ∧
  (∀ (s : State) (n : Nat) (x : Roll), n < 65536 → x.arrival ≤ Config.max32 → x.diameter < 65536 →
     let e := s.rollEntry n x
     e.length = 22 ∧ beNat (e.take 2) = n ∧ beNat ((e.drop 2).take 8) = x.tag.toNat ∧ beNat ((e.drop 10).take 4) = x.arrival ∧
     beNat ((e.drop 14).take 1) = [RollState.announced, .stored, .reserved, .inTransit, .staged, .ready, .running, .stub].idxOf x.state + 1 ∧
     (e.drop 15).take 3 = (match x.loc with
       | .node k => [1#8, BitVec.ofNat 8 k, 0#8]
       | .bay b l => [2#8, BitVec.ofNat 8 b, BitVec.ofNat 8 l]
       | .vehicle v => [3#8, BitVec.ofNat 8 v, 0#8]
       | .arm st a => [4#8, BitVec.ofNat 8 st, if a = .A then 1#8 else 2#8]) ∧
     beNat ((e.drop 18).take 2) = x.diameter ∧
     (e.drop 20).take 1 = (match x.hold with
       | none => [0#8]
       | some .damaged => [1#8]
       | some .discrepancy => [2#8]
       | some .operator => [3#8]) ∧
     (e[21]?).map (fun b => (List.range 8).map b.getLsbD) =
       some [false, false, false, false, x.returned, s.isTop n x, s.isBuried n x, s.transferAt x])

/-- ANNOUNCE_ROLL (R12): the first check that fails gives the answer; a capacity failure raises STORE_FULL with the node as subject; an
accepted roll is enrolled at the node with the lowest free record number and the next arrival number, and both are answered. TAG_READ from
the reader of a node (R10, R11): BAD_ARGUMENT first, then the repeated read, the duplicate tag, FULL with STORE_FULL, and acceptance; from
a station of another role BAD_ARGUMENT. SCALE_WEIGHT (R13): the receipt weight of a live ANNOUNCED roll is set and the scale sent
ACCEPTED; else REFUSED with its reason. -/
def Obligations.ArrivingRollsAreRecorded : Prop :=
  (∀ (s : State) (t : Tag) (g w d : Nat) (kg : Option Nat) (node : Nat), s.takes (.announceRoll t g w d kg node) = true →
     ((s.announceArgs t g w d kg && s.announceNode node) = false →
       exec (.announceRoll t g w d kg node) s = .next (s.fresh.replied (.announceRoll t g w d kg node) .badArgument [])) ∧
     ((s.announceArgs t g w d kg && s.announceNode node) = true → (s.rollByTag t).isSome = true →
       exec (.announceRoll t g w d kg node) s = .next (s.fresh.replied (.announceRoll t g w d kg node) .duplicate [])) ∧
     ((s.announceArgs t g w d kg && s.announceNode node) = true → (s.rollByTag t).isSome = false → s.announceRoom = false →
       exec (.announceRoll t g w d kg node) s =
         .next ((s.fresh.raise .storeFull node).replied (.announceRoll t g w d kg node) .full [])) ∧
     ∀ n, (s.announceArgs t g w d kg && s.announceNode node) = true → (s.rollByTag t).isSome = false → s.announceRoom = true →
       s.freeRecord = some n →
       exec (.announceRoll t g w d kg node) s =
         .next ((s.fresh.enrolled n t g w d kg node).replied (.announceRoll t g w d kg node) .ok
           (beBytes 2 n ++ beBytes 4 (s.arrival + 1))).finish) ∧
  (∀ (s : State) (e : Exchange) (x : Station) (t : Tag) (g w d : Nat) (kg : Option Nat) (more : Bool), s.hears e x →
     ((∀ node, x.role ≠ .dockReader node) →
       exec (.tagRead t g w d kg more) s = .next ((s.heard e more).refuse e.addr .tagRead .badArgument)) ∧
     ∀ node, x.role = .dockReader node →
       (s.announceArgs t g w d kg = false →
         exec (.tagRead t g w d kg more) s = .next ((s.heard e more).refuse e.addr .tagRead .badArgument)) ∧
       (∀ (n : Nat) (r : Roll), s.announceArgs t g w d kg = true → s.resolve (.byTag t) = some (n, r) → r.readAgain g w node = true →
         exec (.tagRead t g w d kg more) s =
           .next (((s.heard e more).putRoll n (some { r with weight := r.weight.or kg })).accept e.addr .tagRead)) ∧
       (∀ (n : Nat) (r : Roll), s.announceArgs t g w d kg = true → s.resolve (.byTag t) = some (n, r) → r.readAgain g w node = false →
         exec (.tagRead t g w d kg more) s = .next ((s.heard e more).refuse e.addr .tagRead .duplicateTag)) ∧
       (s.announceArgs t g w d kg = true → s.resolve (.byTag t) = none → s.announceRoom = false →
         exec (.tagRead t g w d kg more) s =
           .next (((s.heard e more).raise .storeFull node).refuse e.addr .tagRead .full)) ∧
       ∀ n, s.announceArgs t g w d kg = true → s.resolve (.byTag t) = none → s.announceRoom = true → s.freeRecord = some n →
         exec (.tagRead t g w d kg more) s =
           .next (((s.heard e more).enrolled n t g w d kg node).accept e.addr .tagRead).finish) ∧
  (∀ (s : State) (e : Exchange) (x : Station) (t : Tag) (kg : Nat) (more : Bool), s.hears e x →
     ((x.role ≠ .scale ∨ kg < 1 ∨ 5000 < kg) →
       exec (.scaleWeight t kg more) s = .next ((s.heard e more).refuse e.addr .scaleWeight .badArgument)) ∧
     (x.role = .scale → 1 ≤ kg → kg ≤ 5000 → s.resolve (.byTag t) = none →
       exec (.scaleWeight t kg more) s = .next ((s.heard e more).refuse e.addr .scaleWeight .badState)) ∧
     ∀ (n : Nat) (r : Roll), x.role = .scale → 1 ≤ kg → kg ≤ 5000 → s.resolve (.byTag t) = some (n, r) →
       exec (.scaleWeight t kg more) s = .next (
         if r.state = .announced then ((s.heard e more).putRoll n (some { r with weight := some kg })).accept e.addr .scaleWeight
         else (s.heard e more).refuse e.addr .scaleWeight .badState))

/-- HOLD_ROLL (R16): the checks in their order; an accepted hold is written over no hold, DAMAGED or OPERATOR, and nothing else changes.
RELEASE_ROLL (R19): the checks in their order; the hold of the roll is removed, and a STORED roll leads to an assignment pass. RETIRE_ROLL
(R23): the checks in their order; a roll at a node, in a bay or on an arm leaves it and its record is freed. -/
def Obligations.RollRecordsAreHeldReleasedAndRetired : Prop :=
  (∀ (s : State) (r : RollRef) (h : Option Hold), s.takes (.holdRoll r h) = true →
     ((h = none ∨ h = some .discrepancy ∨ r.ok = false) →
       exec (.holdRoll r h) s = .next (s.fresh.replied (.holdRoll r h) .badArgument [])) ∧
     ((h = some .damaged ∨ h = some .operator) → r.ok = true → s.resolve r = none →
       exec (.holdRoll r h) s = .next (s.fresh.replied (.holdRoll r h) .notFound [])) ∧
     ∀ (n : Nat) (x : Roll), (h = some .damaged ∨ h = some .operator) → r.ok = true → s.resolve r = some (n, x) →
       exec (.holdRoll r h) s = .next (
         if x.order.isSome ∨ x.state = .reserved ∨ x.state = .inTransit ∨ x.state = .ready ∨ x.state = .running ∨ x.hold = some .discrepancy
         then s.fresh.replied (.holdRoll r h) .badState []
         else (s.fresh.putRoll n (some { x with hold := h })).replied (.holdRoll r h) .ok [])) ∧
  (∀ (s : State) (r : RollRef), s.takes (.releaseRoll r) = true →
     (r.ok = false → exec (.releaseRoll r) s = .next (s.fresh.replied (.releaseRoll r) .badArgument [])) ∧
     (r.ok = true → s.resolve r = none → exec (.releaseRoll r) s = .next (s.fresh.replied (.releaseRoll r) .notFound [])) ∧
     ∀ (n : Nat) (x : Roll), r.ok = true → s.resolve r = some (n, x) →
       (x.hold = none ∨ x.order.isSome ∨ (x.hold = some .discrepancy ∧ ∃ b, x.bay = some b ∧ (s.bay b).hold = some .discrepancy) →
         exec (.releaseRoll r) s = .next (s.fresh.replied (.releaseRoll r) .badState [])) ∧
       (x.hold ≠ none → x.order = none → (x.hold = some .discrepancy → ∀ b, x.bay = some b → (s.bay b).hold ≠ some .discrepancy) →
         exec (.releaseRoll r) s =
           .next ((({ s.fresh with passDue := x.state == RollState.stored }).putRoll n (some { x with hold := none })).replied
             (.releaseRoll r) .ok []).finish)) ∧
  (∀ (s : State) (r : RollRef), s.takes (.retireRoll r) = true →
     (r.ok = false → exec (.retireRoll r) s = .next (s.fresh.replied (.retireRoll r) .badArgument [])) ∧
     (r.ok = true → s.resolve r = none → exec (.retireRoll r) s = .next (s.fresh.replied (.retireRoll r) .notFound [])) ∧
     ∀ (n : Nat) (x : Roll), r.ok = true → s.resolve r = some (n, x) →
       (x.order.isSome ∨ (x.state ≠ .announced ∧ x.state ≠ .stored ∧ x.hold = none) ∨ s.transferAt x = true →
         exec (.retireRoll r) s = .next (s.fresh.replied (.retireRoll r) .badState [])) ∧
       (x.order = none → (x.state = .announced ∨ x.state = .stored ∨ x.hold ≠ none) → s.transferAt x = false →
         (∀ y, x.loc = .node y →
           exec (.retireRoll r) s = .next ((s.fresh.putRoll n none).replied (.retireRoll r) .ok [])) ∧
         (∀ b l, x.loc = .bay b l →
           ∃ u : State, exec (.retireRoll r) s = .next (u.replied (.retireRoll r) .ok []).finish ∧ u.passDue = true ∧ u.roll n = none ∧
             (u.bay b).stack = (s.bay b).stack.erase n ∧ (∀ c, c ≠ b → u.bay c = s.bay c) ∧ u.jobs = s.jobs ∧ u.orders = s.orders ∧
             (∀ m, m ≠ n → m ∉ (s.bay b).stack → u.roll m = s.roll m) ∧
             ((s.bay b).stack.Nodup → ∀ i m, (u.bay b).stack[i]? = some m →
               u.roll m = (s.roll m).map fun y => { y with loc := .bay b (i + 1) })) ∧
         ∀ st a, x.loc = .arm st a →
           exec (.retireRoll r) s = .next ((({ s.fresh with
             rolls := s.rolls.put n none,
             stands := s.stands.set st .cold ((s.stand st).withArm a
               { (s.stand st).arm a with state := .empty, roll := none, chan := .clear }) }.evalCallOff st).replied
             (.retireRoll r) .ok []).finish)))

/-- PLACE_ROLL (R25, R155): the refusals in their order. A roll that passes leaves its bay, its vehicle or its arm and joins the bay at the
top, STORED, or is STAGED on the arm; a DISCREPANCY hold is removed, another kept; a FAILED order it is linked to is unlinked, another one
freed, and a STALLED vehicle whose load it was is sent ABORT and left with previous state IDLE. -/
def Obligations.PlaceRollSetsThePlace : Prop :=
  ∀ (s : State) (r : RollRef) (d : PlaceDest), s.takes (.placeRoll r d) = true →
    (r.ok = false ∨ destOk d = false → exec (.placeRoll r d) s = .next (s.fresh.replied (.placeRoll r d) .badArgument [])) ∧
    (r.ok = true → destOk d = true → s.resolve r = none → exec (.placeRoll r d) s = .next (s.fresh.replied (.placeRoll r d) .notFound [])) ∧
    ∀ (n : Nat) (x : Roll), r.ok = true → destOk d = true → s.resolve r = some (n, x) →
      (x.liesIn d = true → exec (.placeRoll r d) s = .next (s.fresh.replied (.placeRoll r d) .badArgument [])) ∧
      (x.liesIn d = false → s.mayPlace x = false ∨ s.admitsPlace d = false →
        exec (.placeRoll r d) s = .next (s.fresh.replied (.placeRoll r d) .badState [])) ∧
      (x.liesIn d = false → s.mayPlace x = true → s.admitsPlace d = true →
        let placed := fun (st : RollState) loc =>
          { x with state := st, loc := loc, mount := none, job := none, order := none,
                   hold := if x.hold = some Hold.discrepancy then none else x.hold }
        (x.order = none → ∀ y, x.loc = .node y →
          (∀ b, d = .bay b →
            exec (.placeRoll r d) s = .next (({ s.fresh with
              bays := s.bays.set b .cold { s.bay b with stack := (s.bay b).stack ++ [n] },
              rolls := s.rolls.put n (some (placed .stored (.bay b ((s.bay b).stack.length + 1)))),
              passDue := true }.replied (.placeRoll r d) .ok []).finish)) ∧
          ∀ st a, d = .arm st (some a) →
            exec (.placeRoll r d) s = .next ({ s.fresh with
              stands := s.stands.set st .cold ((s.stand st).withArm a
                { (s.stand st).arm a with state := .staged, roll := some n, chan := .clear }),
              rolls := s.rolls.put n (some (placed .staged (.arm st a))) }.replied (.placeRoll r d) .ok [])) ∧
        ((∀ o p, x.order = some o → s.order o = some p → p.state = .failed ∨ p.roll = some n) →
          ∃ u : State, exec (.placeRoll r d) s = .next (u.replied (.placeRoll r d) .ok []).finish ∧
            (∀ b, d = .bay b → (u.bay b).stack = (s.bay b).stack ++ [n] ∧ u.passDue = true ∧
              u.roll n = some (placed .stored (.bay b ((s.bay b).stack.length + 1)))) ∧
            (∀ st a, d = .arm st (some a) → ((u.stand st).arm a).state = .staged ∧ ((u.stand st).arm a).roll = some n ∧
              u.roll n = some (placed .staged (.arm st a))) ∧
            (∀ b l, x.loc = .bay b l → (u.bay b).stack = (s.bay b).stack.erase n ∧ u.passDue = true) ∧
            (∀ v, x.loc = .vehicle v → (u.vehicle v).load = none ∧ (u.vehicle v).held = (s.vehicle v).held ∧
              (u.vehicle v).pos = (s.vehicle v).pos ∧ (u.vehicle v).state = (s.vehicle v).state) ∧
            (∀ st a, x.loc = .arm st a → d ≠ .arm st (some a) →
              ((u.stand st).arm a).state = .empty ∧ ((u.stand st).arm a).roll = none) ∧
            ∀ o p, x.order = some o → s.order o = some p →
              (p.state = .failed → u.order o = some { p with roll := none }) ∧
              (p.state ≠ .failed → (∀ q, u.order o = some q → q.kind = .callOff ∧ s.orderSeq < q.seq) ∧
                ∀ v, x.loc = .vehicle v → p.vehicle = some v → (s.vehicle v).order = some o → (u.vehicle v).order = none ∧
                  ((s.vehicle v).state = .stalled → (u.vehicle v).prev = some .idle ∧
                    ∀ a z, s.vehicleStation v = some a → s.station a = some z →
                      u.station a = some (z.placed s.halted ⟨.tcu, .abort o⟩)))))

/-! ## The queue, the tick and the part that takes nothing -/

/-- A step takes the command at the front of the queue and runs exec on it with the queue's rest. -/
def Obligations.StepTakesTheFrontCommand : Prop :=
  ∀ (c : Instr) (cs : List Instr) (s : State), step { s with pending := c :: cs } = exec c { s with pending := cs }

/-- The model's own choice (notes/assumptions/2.md): with no command waiting, one microsecond passes in a part that is awake: the µs counter
and the time base count, every running timer has one µs less, and the expiries of the timers that end in it, by their owners' numbers, the
reply window last, and then the gates and the second of the time base are queued; nothing else changes. Asleep, nothing changes. -/
def Obligations.EmptyQueueIsOneMicrosecond : Prop :=
  (∀ s : State, s.pending = [] → s.awake = false → step s = .next s) ∧
  ∀ s : State, s.pending = [] → s.awake = true → ∃ t, step s = .next t ∧
    t = { s with micros := s.micros + 1, subMs := t.subMs, timeBase := t.timeBase, stands := t.stands, vehicles := t.vehicles,
                 exchange := s.exchange.map (fun e => { e with left := e.left - 1 }), expiring := t.expiring, pending := t.pending } ∧
    (s.subMs = 999 → t.subMs = 0 ∧ t.timeBase = min 281474976710655 (s.timeBase + 1)) ∧
    (s.subMs ≠ 999 → t.subMs = s.subMs + 1 ∧ t.timeBase = s.timeBase) ∧
    (s.stands.rising = true → s.vehicles.rising = true →
      let count := fun x : Timer => match x with
        | .running l => .running (l - 1)
        | x => x
      let ends := fun left : Option Nat => left = some 0 ∨ left = some 1
      let due := fun x : Timer => x = .running 0 ∨ x = .running 1
      (∀ st, t.stand st = { s.stand st with
        markLeft := (s.stand st).markLeft.map (· - 1), pasteLeft := (s.stand st).pasteLeft.map (· - 1) }) ∧
      (∀ v, t.vehicle v = { s.vehicle v with progress := count (s.vehicle v).progress, transfer := count (s.vehicle v).transfer }) ∧
      ∃ marks pastes stalls losses : List Nat,
        t.expiring = marks.map .markTimerExpiry ++ pastes.map .pasteTimerExpiry ++ stalls.map .progressTimeout ++
          losses.map .transferTimeout ++
          (if ∃ e, s.exchange = some e ∧ e.windowOpen = true ∧ e.left ≤ 1 then [.replyWindowExpiry] else []) ∧
        (∀ st, st ∈ marks ↔ ends (s.stand st).markLeft) ∧ marks.Pairwise (· < ·) ∧
        (∀ st, st ∈ pastes ↔ ends (s.stand st).pasteLeft) ∧ pastes.Pairwise (· < ·) ∧
        (∀ v, v ∈ stalls ↔ due (s.vehicle v).progress) ∧ stalls.Pairwise (· < ·) ∧
        (∀ v, v ∈ losses ↔ due (s.vehicle v).transfer) ∧ losses.Pairwise (· < ·)) ∧
    t.pending = t.expiring ++
      (if s.subMs = 999 ∧ t.timeBase % 250 = 0 then [.gateExpiry 1, .gateExpiry 2, .gateExpiry 3, .gateExpiry 4] else []) ++
      (if s.subMs = 999 ∧ t.timeBase % 1000 = 0 then [.secondTick] else [])

/-- In standby and without main power the part takes no command but the return and loss of power, WAKE and the levels of its input pins
(R180, R183). A port WORKING on another request or holding an unread answer takes no request: its bytes are discarded, the part shifts out
the BUSY frame, and nothing else changes (R171). While the part is ENTERING standby an idle port takes no request but RESTART_PART (R182).
-/
def Obligations.PartTakesNoRequest : Prop :=
  (∀ (s : State) (i : Instr), s.awake = false → (∀ h, i ≠ .powerReturn h) → i ≠ .mainPowerLoss → i ≠ .wake →
     (∀ st, i ≠ .webBreakPin st) → (∀ l, i ≠ .folderJam l) → (∀ st, i ≠ .webBreakPinInactive st) → (∀ l, i ≠ .folderJamInactive l) →
     exec i s = .next s) ∧
  (∀ (s : State) (i : Instr) (bs : List Byte), encodeRequest i = some bs → s.awake = true →
     (s.port.state = .answer ∨ (s.port.state = .working ∧ s.port.held ≠ some i)) →
     exec i s = .next { s.fresh with
       shifted := ([1#8, BitVec.ofNat 8 s.port.kindHeld, 0#8] ++ List.replicate bs.length 0#8).take bs.length }) ∧
  (∀ (s : State) (i : Instr) (bs : List Byte), encodeRequest i = some bs → i ≠ .restartPart → s.powered = true → s.standby = .entering →
     s.port.state = .idle → exec i s = .next { s.fresh with shifted := List.replicate bs.length 0#8 })

/-! ## The plant port -/

/-- A request answered with any status but OK changed nothing but the port, and its answer carries no payload (R172); the one exception is
ANNOUNCE_ROLL answered FULL, which raises STORE_FULL (R12). -/
def Obligations.RefusedRequestChangesNothing : Prop :=
  ∀ (s t : State) (i : Instr) (bs : List Byte) (a : Answer), encodeRequest i = some bs → i ≠ .restartPart → s.takes i = true →
    exec i s = .next t → t.port.answer = some a → a.status ≠ .ok →
    t = s.fresh.replied i a.status [] ∨
    ∃ tag g w d kg node, i = .announceRoll tag g w d kg node ∧ a.status = .full ∧
      t = (s.fresh.raise .storeFull node).replied i .full []

/-- REQUEST_TRANSACTION (R171, R175, R182, R184): no byte changes nothing; a first byte of 0 makes it a read; a busy port shifts out BUSY;
an idle port judges the frame, answers a malformed one BAD_ARGUMENT, completes READ_ATTENTION and RESTART_PART at once and moves to
WORKING with any other. -/
def Obligations.RequestTransactionIsJudged : Prop :=
  ∀ s : State, s.awake = true →
    exec (.requestTransaction []) s = .next s ∧
    (∀ bs, exec (.requestTransaction (0#8 :: bs)) s = exec (.readTransaction (bs.length + 1)) s) ∧
    ∀ (b : Byte) (bs : List Byte), b ≠ 0#8 →
      ((s.port.state = .working ∨ s.port.state = .answer) → exec (.requestTransaction (b :: bs)) s = .next { s.fresh with
        shifted := ([1#8, BitVec.ofNat 8 s.port.kindHeld, 0#8] ++ List.replicate (bs.length + 1) 0#8).take (bs.length + 1) }) ∧
      (s.port.state = .idle →
        (s.standby = .running → decodeRequest (b :: bs) = none →
          exec (.requestTransaction (b :: bs)) s = .next { s.fresh with
            port := ⟨.answer, none, some ⟨.badArgument, b.toNat, []⟩⟩, shifted := List.replicate (bs.length + 1) 0#8 }) ∧
        (∀ i, s.standby = .running → decodeRequest (b :: bs) = some i → i ≠ .readAttention → i ≠ .restartPart →
          exec (.requestTransaction (b :: bs)) s = .next { s.fresh with
            port := ⟨.working, some i, none⟩, shifted := List.replicate (bs.length + 1) 0#8 }) ∧
        (s.standby = .running → decodeRequest (b :: bs) = some .readAttention →
          exec (.requestTransaction (b :: bs)) s = .next { s.fresh with
            port := ⟨.answer, none, some ⟨.ok, 40, s.attentionPayload⟩⟩, attn := [], shifted := List.replicate (bs.length + 1) 0#8 }) ∧
        (decodeRequest (b :: bs) = some .restartPart →
          exec (.requestTransaction (b :: bs)) s = .next { s.fresh.warmStart .restart with shifted := List.replicate (bs.length + 1) 0#8 }) ∧
        (s.standby = .entering → decodeRequest (b :: bs) ≠ some .restartPart →
          exec (.requestTransaction (b :: bs)) s = .next { s.fresh with shifted := List.replicate (bs.length + 1) 0#8 }))

/-- READ_TRANSACTION by port state (R173): the answer frame from its first byte, and IDLE once it was clocked out whole; the BUSY frame
while WORKING; BAD_STATE, kind 0 and length 0 while IDLE; zeros behind the end of a frame. -/
def Obligations.ReadTransactionGivesTheAnswer : Prop :=
  ∀ (s : State) (n : Nat), s.awake = true → 0 < n →
    (∀ a, s.port.state = .answer → s.port.answer = some a →
      exec (.readTransaction n) s = .next (
        if a.frame.length ≤ n then { s.fresh with port := ⟨.idle, none, none⟩, shifted := a.frame ++ List.replicate (n - a.frame.length) 0#8 }
        else { s.fresh with shifted := a.frame.take n })) ∧
    (s.port.state = .working → exec (.readTransaction n) s = .next { s.fresh with
      shifted := ([1#8, BitVec.ofNat 8 s.port.kindHeld, 0#8] ++ List.replicate n 0#8).take n }) ∧
    (s.port.state = .idle → exec (.readTransaction n) s = .next { s.fresh with
      shifted := ([3#8, 0#8, 0#8] ++ List.replicate n 0#8).take n })

/-- Every well-formed plant request is read back from the frame that carries it, and the frame is at most 66 bytes (R171, R177, R178). -/
def Obligations.RequestFramesRoundTrip : Prop :=
  ∀ (i : Instr) (bs : List Byte), i.wf = true → encodeRequest i = some bs → decodeRequest bs = some i ∧ bs.length ≤ 66

/-- READ_ATTENTION (R175): the answer reports every present entry in the order of R174 and the set is made empty; it carries no payload,
and one answered BUSY clears nothing. Raising a condition (R174): an absent entry becomes present with the subject and count 1, a present
one takes the lower subject and one more raise up to 255, no other entry changes, two raises in either order agree, and ATTN is up; a
start leaves its own entry alone. -/
def Obligations.AttentionSetIsRaisedAndRead : Prop :=
  ((∀ s : State, s.takes .readAttention = true →
     exec .readAttention s = .next ({ s.fresh with attn := [] }.replied .readAttention .ok
       (BitVec.ofNat 8 s.attn.length :: s.attn.flatMap fun (e : Nat × AttnEntry) =>
         [BitVec.ofNat 8 e.1, BitVec.ofNat 8 (e.2.subject / 256), BitVec.ofNat 8 e.2.subject, BitVec.ofNat 8 e.2.count]))) ∧
   (∀ s t : State, s.awake = true → (s.port.state = .answer ∨ (s.port.state = .working ∧ s.port.held ≠ some .readAttention)) →
     exec .readAttention s = .next t → t.attn = s.attn) ∧
   ∀ (l : Byte) (p : List Byte), decodeRequest (40#8 :: l :: p) = if l = 0#8 ∧ p = [] then some .readAttention else none) ∧
  ((∀ (s : State) (c : Cond) (n : Nat),
     (s.attn.find c.place = none → (s.raise c n).attn.find c.place = some ⟨n, 1⟩) ∧
     (∀ e, s.attn.find c.place = some e → (s.raise c n).attn.find c.place = some ⟨min e.subject n, min (e.count + 1) 255⟩) ∧
     (∀ p, p ≠ c.place → (s.raise c n).attn.find p = s.attn.find p) ∧
     (∀ m, (s.raise c m).raise c n = (s.raise c n).raise c m) ∧
     (s.raise c n).attention = true) ∧
   (∀ s : State, s.attention = false ↔ s.attn = []) ∧
   [Cond.coldStart, .warmStart, .storeFull, .rollDiscrepancy, .stockShort, .orderFailed, .vehicleStalled, .stationSilent, .lineBreak,
     .spliceLate, .measureLost, .makereadyExcess, .targetReached].map Cond.place = [1, 2, 3, 4, 5, 6, 7, 8, 9, 10, 11, 12, 13] ∧
   ∀ s : State, s.coldStart.attn = [(1, ⟨0, 1⟩)] ∧ ∀ c, (s.warmStart c).attn = [(2, ⟨c.subject, 1⟩)])

/-! ## The Store Map -/

/-- SET_BAY (R28): the argument checks, the in-use check and the operator-hold check in their order; an accepted request writes the limit,
the aisle node and the hold, and leads to an assignment pass where it leaves the bay configured and without a hold and changed its
configuration or removed its hold (notes/assumptions/9.md). -/
def Obligations.SetBayWritesTheBay : Prop :=
  ∀ (s : State) (b limit aisle : Nat) (h : Option HoldSetting), s.takes (.setBay b limit aisle h) = true →
    (b < 1 ∨ 120 < b ∨ 3 < limit ∨ h = none ∨
        (limit ≠ 0 ∧ (aisle < 1 ∨ 48 < aisle ∨ ∀ x, s.node aisle = some x → x.role ≠ .aisle)) →
      exec (.setBay b limit aisle h) s = .next (s.fresh.replied (.setBay b limit aisle h) .badArgument [])) ∧
    ∀ k, h = some k → 1 ≤ b → b ≤ 120 → limit ≤ 3 →
      (limit ≠ 0 → 1 ≤ aisle ∧ aisle ≤ 48 ∧ ∃ x, s.node aisle = some x ∧ x.role = .aisle) →
      ((((s.bay b).limit ≠ limit ∨ (s.bay b).aisle ≠ aisleOf limit aisle) ∧
            ((s.bay b).stack ≠ [] ∨ s.reservedHeight b ≠ 0 ∨ (s.bay b).mark ≠ none ∨ (s.bay b).hold = some .discrepancy)) ∨
          (k ≠ .keep ∧ ((s.bay b).hold = some .discrepancy ∨ limit = 0)) →
        exec (.setBay b limit aisle h) s = .next (s.fresh.replied (.setBay b limit aisle h) .badState [])) ∧
      ((((s.bay b).limit ≠ limit ∨ (s.bay b).aisle ≠ aisleOf limit aisle) →
            (s.bay b).stack = [] ∧ s.reservedHeight b = 0 ∧ (s.bay b).mark = none ∧ (s.bay b).hold ≠ some .discrepancy) →
          (k ≠ .keep → (s.bay b).hold ≠ some .discrepancy ∧ limit ≠ 0) →
        ∀ y, y = (match k with
            | .set => some BayHold.operator
            | .clear => none
            | .keep => if limit = 0 ∧ (s.bay b).hold = some .operator then none else (s.bay b).hold) →
          exec (.setBay b limit aisle h) s = .next (({ s.fresh with
            bays := s.bays.set b .cold { s.bay b with limit := limit, aisle := aisleOf limit aisle, hold := y },
            passDue := decide (1 ≤ limit ∧ y = none ∧ ((s.bay b).hold ≠ none ∨ (s.bay b).limit ≠ limit ∨
              (s.bay b).aisle ≠ aisleOf limit aisle)) }.replied (.setBay b limit aisle h) .ok []).finish))

/-- RELEASE_BAY (R44): a bay held DISCREPANCY that lies in no sensor's range, or whose last height equals its stack length under a POLLING
sensor, loses its hold, its count is 0, and each roll of its stack that is unlinked loses its DISCREPANCY hold. -/
def Obligations.ReleaseBayFreesItsRolls : Prop :=
  ∀ (s : State) (b : Nat), s.takes (.releaseBay b) = true →
    (b < 1 ∨ 120 < b → exec (.releaseBay b) s = .next (s.fresh.replied (.releaseBay b) .badArgument [])) ∧
    (1 ≤ b → b ≤ 120 →
      ((s.bay b).hold ≠ some .discrepancy ∨ (∃ a x, s.sensorOf b = some a ∧ s.station a = some x ∧ x.silent = true) ∨
          (s.sensorOf b ≠ none ∧ (s.bay b).lastHeight ≠ some (s.bay b).stack.length) →
        exec (.releaseBay b) s = .next (s.fresh.replied (.releaseBay b) .badState [])) ∧
      ((s.bay b).hold = some .discrepancy →
          (∀ a, s.sensorOf b = some a →
            (∀ x, s.station a = some x → x.silent = false) ∧ (s.bay b).lastHeight = some (s.bay b).stack.length) →
        ∃ u : State, exec (.releaseBay b) s = .next (u.replied (.releaseBay b) .ok []).finish ∧
          u.bays = s.bays.set b .cold { s.bay b with hold := none, confirm := 0 } ∧ u.passDue = true ∧
          (∀ n r, n ∈ (s.bay b).stack → s.roll n = some r →
            u.roll n = some (if r.hold = some .discrepancy ∧ r.order = none then { r with hold := none } else r)) ∧
          (∀ n, n ∉ (s.bay b).stack → u.roll n = s.roll n) ∧ u.orders = s.orders ∧ u.lines = s.lines ∧ u.stands = s.stands ∧
          u.jobs = s.jobs ∧ u.vehicles = s.vehicles ∧ u.attn = s.attn))

/-- BAY_HEIGHTS (R40): from a station of another role, or with a list of another length, the report is REFUSED whole and no bay changes;
otherwise each height is taken for its bay, one after the other in ascending bay number (that a bay's confirmation is complete before the
next height is taken is the model's choice, log entry 13), and the bays outside the range are as they were. One height taken for its bay
(R40, R41, R42): the last height is written; a match clears the count, a first mismatch without a transfer mark sets it to 1, one under a
mark or at a bay held DISCREPANCY leaves it, and a second one confirms: the bay and every roll of its stack are held DISCREPANCY, a RESERVED
top roll is released and its order PENDING without it, the put-aways under way to the bay lose it, but one UNLOADING, and ROLL_DISCREPANCY
is raised with the record number of the roll at level 1. -/
def Obligations.BayHeightsAreCompared : Prop :=
  (∀ (s : State) (e : Exchange) (x : Station) (hs : List Nat) (more : Bool), s.hears e x →
     ((∀ f c, x.role = .bayNode f c → hs.length ≠ c) →
       exec (.bayHeights hs more) s = .next ((s.heard e more).refuse e.addr .bayHeights .badArgument)) ∧
     ∀ f c, x.role = .bayNode f c → hs.length = c → (∀ h ∈ hs, h ≤ 15) →
       exec (.bayHeights hs more) s = .next (State.takeHeights f hs (s.heard e more)).finish ∧
       ∀ b, b < f ∨ f + c ≤ b → (State.takeHeights f hs (s.heard e more)).bay b = s.bay b) ∧
  (∀ (s : State) (f h : Nat) (hs : List Nat),
     State.takeHeights f [] s = s ∧ State.takeHeights f (h :: hs) s = State.takeHeights (f + 1) hs (s.takeHeight f h)) ∧
  ∀ (s : State) (b h : Nat),
     let t := s.takeHeight b h
     (t.bay b).lastHeight = some h ∧
     ((s.bay b).limit = 0 ∨ (s.bay b).hold = some .discrepancy → t.bay b = { s.bay b with lastHeight := some h }) ∧
     ((s.bay b).limit ≠ 0 → (s.bay b).hold ≠ some .discrepancy →
       (h = (s.bay b).stack.length → t.bay b = { s.bay b with lastHeight := some h, confirm := 0 }) ∧
       (∀ v, (s.bay b).mark = some v → h ≠ (s.bay b).stack.length →
         t.bay b =
           if ((s.vehicle v).state = .loading ∧ h = (s.bay b).stack.length - 1) ∨
               ((s.vehicle v).state = .unloading ∧ h = (s.bay b).stack.length + 1)
           then { s.bay b with lastHeight := some h, confirm := 0 } else { s.bay b with lastHeight := some h }) ∧
       ((s.bay b).mark = none → h ≠ (s.bay b).stack.length → (s.bay b).confirm = 0 →
         t = { s with bays := s.bays.set b .cold { s.bay b with lastHeight := some h, confirm := 1 } }) ∧
       ((s.bay b).mark = none → h ≠ (s.bay b).stack.length → (s.bay b).confirm ≠ 0 →
         t.bay b = { s.bay b with lastHeight := some h, confirm := 0, hold := some .discrepancy } ∧
         t.attn.find Cond.rollDiscrepancy.place =
           some (AttnEntry.raised (s.attn.find Cond.rollDiscrepancy.place) ((s.bay b).stack.head?.getD 0)) ∧
         (∀ n r, n ∈ (s.bay b).stack → s.roll n = some r →
           ∃ r', t.roll n = some r' ∧ r'.hold = some (r.hold.getD .discrepancy)) ∧
         (∀ n r o p, (s.bay b).stack.getLast? = some n → s.roll n = some r → r.state = .reserved → r.order = some o → s.order o = some p →
           p.roll = some n →
           t.roll n = some { r with state := .stored, order := none, hold := some (r.hold.getD .discrepancy) } ∧
           (∃ q, t.order o = some q ∧ q.state = .pending ∧ q.vehicle = none ∧ q.roll = none ∧ q.seq = p.seq) ∧
           ∀ v, p.vehicle = some v → (s.vehicle v).order = some o → (t.vehicle v).order = none) ∧
         ∀ m p, s.orders.rising = true → s.order m = some p → p.dest = some (.bay b) →
           ((p.state = .pending ∨ p.state = .assigned ∨ p.state = .loading ∨ p.state = .carrying) →
             ∃ q, t.order m = some q ∧ q.dest ≠ some (.bay b)) ∧
           (p.state = .unloading → (∀ n r, (s.bay b).stack.getLast? = some n → s.roll n = some r → r.order ≠ some m) →
             ∃ q, t.order m = some q ∧ q.dest = some (.bay b) ∧ q.state = .unloading)))

/-- Selection (R32): the roll selected for a CALL_OFF of a grade and width is a live roll of that grade and width, STORED, unheld and
unlinked, on top of a configured bay without a hold, a mark or a reserved height, and no such roll has a lower arrival number; none is
selected exactly when there is no such roll. Put-away (R35): the bay chosen for a roll of a grade and width is the lowest-numbered open
bay whose unheld, unreserved top roll is of that grade and width and whose effective height is below its limit; failing that the lowest-
numbered open bay with an empty stack and no reserved height; failing that none. -/
def Obligations.RollAndBayAreChosen : Prop :=
  (∀ (s : State) (g w : Nat),
     let fits := fun (n : Nat) (r : Roll) => r.grade = g ∧ r.width = w ∧ r.state = .stored ∧ r.hold = none ∧ r.order = none ∧
       ∃ b l, r.loc = .bay b l ∧ (s.bay b).stack.getLast? = some n ∧ 1 ≤ (s.bay b).limit ∧ (s.bay b).hold = none ∧
         (s.bay b).mark = none ∧ s.reservedHeight b = 0
     (∀ n, s.selectRoll g w = some n → ∃ r, s.roll n = some r ∧ fits n r ∧
       ∀ m q, s.roll m = some q → fits m q → r.arrival ≤ q.arrival) ∧
     (s.selectRoll g w = none ↔ ∀ n r, s.roll n = some r → ¬ fits n r)) ∧
  (∀ (s : State) (g w : Nat),
     let isOpen := fun b => 1 ≤ b ∧ b ≤ 120 ∧ 1 ≤ (s.bay b).limit ∧ (s.bay b).hold = none ∧ (s.bay b).mark = none
     let holdsOwn := fun b => isOpen b ∧ (s.bay b).stack.length + s.reservedHeight b < (s.bay b).limit ∧
       ∃ n r, (s.bay b).stack.getLast? = some n ∧ s.roll n = some r ∧ r.grade = g ∧ r.width = w ∧ r.hold = none ∧ r.state ≠ .reserved
     let empty := fun b => isOpen b ∧ (s.bay b).stack = [] ∧ s.reservedHeight b = 0
     (∀ b, holdsOwn b → (∀ c, c < b → ¬ holdsOwn c) → s.chooseBay g w = some b) ∧
     ((∀ c, ¬ holdsOwn c) → (∀ b, empty b → (∀ c, c < b → ¬ empty c) → s.chooseBay g w = some b) ∧
       ((∀ c, ¬ empty c) → s.chooseBay g w = none)) ∧
     ∀ b, s.reservedHeight b =
       (s.orders.filter fun e => decide (e.2.dest = some (.bay b)) && decide (e.2.state ∈ [.pending, .assigned, .loading, .carrying, .unloading])).length)

/-! ## The Grade and Plan Tables -/

/-- SET_GRADE in both forms (R45, R46): the ranges; a request that would change a grade in use is answered BAD_STATE; otherwise the four
fields are written, or cleared. A clear form that carries a caliper is BAD_ARGUMENT (notes/assumptions/5.md). -/
def Obligations.SetGradeWritesTheGrade : Prop :=
  ∀ (s : State) (g : Nat),
    let used := (∃ e ∈ s.rolls, e.2.grade = g) ∨
      (∃ l, 1 ≤ l ∧ l ≤ 4 ∧ ((∃ p ∈ (s.line l).live.positions, p.grade = g) ∨
        ((s.line l).pending = true ∧ ∃ p ∈ (s.line l).working.positions, p.grade = g))) ∨
      ∃ e ∈ s.orders, e.2.kind = .callOff ∧ e.2.grade = some g
    (∀ (basis caliper core threshold : Nat), s.takes (.setGradeConfigure g basis caliper core threshold) = true →
      let fits := g ≤ 15 ∧ 30 ≤ basis ∧ basis ≤ 120 ∧ 40 ≤ caliper ∧ caliper ≤ 200 ∧ 800 ≤ core ∧ core ≤ 1600 ∧ 1200 ≤ threshold ∧
        threshold ≤ 6000 ∧ core < threshold
      (¬ fits → exec (.setGradeConfigure g basis caliper core threshold) s =
        .next (s.fresh.replied (.setGradeConfigure g basis caliper core threshold) .badArgument [])) ∧
      (fits → used → s.grade g ≠ ⟨basis, caliper, core, threshold⟩ → exec (.setGradeConfigure g basis caliper core threshold) s =
        .next (s.fresh.replied (.setGradeConfigure g basis caliper core threshold) .badState [])) ∧
      (fits → ¬ used ∨ s.grade g = ⟨basis, caliper, core, threshold⟩ → exec (.setGradeConfigure g basis caliper core threshold) s =
        .next ({ s.fresh with grades := s.grades.set g .cold ⟨basis, caliper, core, threshold⟩ }.replied
          (.setGradeConfigure g basis caliper core threshold) .ok []))) ∧
    ∀ caliper, s.takes (.setGradeClear g caliper) = true →
      (15 < g ∨ caliper ≠ 0 → exec (.setGradeClear g caliper) s = .next (s.fresh.replied (.setGradeClear g caliper) .badArgument [])) ∧
      (g ≤ 15 → caliper = 0 → used → s.grade g ≠ ⟨0, 0, 0, 0⟩ →
        exec (.setGradeClear g caliper) s = .next (s.fresh.replied (.setGradeClear g caliper) .badState [])) ∧
      (g ≤ 15 → caliper = 0 → ¬ used ∨ s.grade g = ⟨0, 0, 0, 0⟩ → exec (.setGradeClear g caliper) s =
        .next ({ s.fresh with grades := s.grades.set g .cold ⟨0, 0, 0, 0⟩ }.replied (.setGradeClear g caliper) .ok []))

/-- WRITE_PLAN HEAD (R48, R50, R51, R58): the ranges; on a line that is not IDLE the working copy alone is written, refused where a
pending changeover could then not pass; on an IDLE line the live copy takes the new fields, with every position kept, and the working copy
is equal to it. WRITE_PLAN POSITIONS (R48, R50, R51, R58): as for HEAD; on an IDLE line a stand of another line, or of another line's
pending changeover, is answered BAD_STATE. That a follow-write sets the working copy to the whole new live copy is the model's reading (log
entry 9). -/
def Obligations.WritePlanWritesTheCopies : Prop :=
  (∀ (s : State) (l : Nat) (h : PlanHead), s.takes (.writePlanHead l h) = true →
     let fits := 1 ≤ l ∧ l ≤ 4 ∧ 1 ≤ h.job ∧ h.job ≤ 65535 ∧ h.target ≤ 4294967295 ∧ h.allowance ≤ 65535 ∧ h.window ≤ 500 ∧ 60 ≤ h.lead ∧
       h.lead ≤ 3600 ∧ h.prep ≤ 1800 ∧ h.autoRestart ≠ none ∧ h.breakBrake ≠ none ∧ 20 ≤ h.restartSpeed ∧ h.restartSpeed ≤ 300 ∧
       h.margin ≤ 1000
     (¬ fits → exec (.writePlanHead l h) s = .next (s.fresh.replied (.writePlanHead l h) .badArgument [])) ∧
     (fits → (s.line l).counting ≠ .idle →
       ((s.line l).pending = true → s.planPasses l ((s.line l).working.withHead h) = false →
         exec (.writePlanHead l h) s = .next (s.fresh.replied (.writePlanHead l h) .badState [])) ∧
       ((s.line l).pending = false ∨ s.planPasses l ((s.line l).working.withHead h) = true →
         exec (.writePlanHead l h) s = .next ({ s.fresh with
           lines := s.lines.set l .cold { s.line l with working := (s.line l).working.withHead h } }.replied (.writePlanHead l h) .ok []))) ∧
     (fits → (s.line l).counting = .idle → ∃ t, exec (.writePlanHead l h) s = .next t ∧ t.answers (.writePlanHead l h) .ok [] ∧
       t.lines = s.lines.set l .cold { s.line l with working := (s.line l).live.withHead h, live := (s.line l).live.withHead h } ∧
       t.jobs = s.jobs ∧ t.grades = s.grades) ∧
     ∀ (p : Plan) (a b : Bool), h.autoRestart = some a → h.breakBrake = some b → p.withHead h =
       ⟨some h.job, h.target, h.allowance, h.window, h.lead, h.prep, a, b, h.restartSpeed, h.margin, p.positions⟩) ∧
  (∀ (s : State) (l : Nat) (ps : List Position), s.takes (.writePlanPositions l ps) = true →
     let fits := 1 ≤ l ∧ l ≤ 4 ∧ 1 ≤ ps.length ∧ ps.length ≤ 8 ∧ (ps.map Position.stand).Nodup ∧ ∀ p ∈ ps, 1 ≤ p.stand ∧ p.stand ≤ 16 ∧
       p.grade ≤ 15 ∧ 300 ≤ p.width ∧ p.width ≤ 2200 ∧ 1200 ≤ p.dt ∧ p.dt ≤ 3000 ∧ (s.grade p.grade).caliper ≠ 0 ∧ (s.grade p.grade).core < p.dt
     let taken := ∃ p ∈ ps, ∃ m q, 1 ≤ m ∧ m ≤ 4 ∧ m ≠ l ∧ q.stand = p.stand ∧
       (q ∈ (s.line m).live.positions ∨ ((s.line m).pending = true ∧ q ∈ (s.line m).working.positions))
     (¬ fits → exec (.writePlanPositions l ps) s = .next (s.fresh.replied (.writePlanPositions l ps) .badArgument [])) ∧
     (fits → (s.line l).counting ≠ .idle →
       ((s.line l).pending = true → s.planPasses l { (s.line l).working with positions := ps } = false →
         exec (.writePlanPositions l ps) s = .next (s.fresh.replied (.writePlanPositions l ps) .badState [])) ∧
       ((s.line l).pending = false ∨ s.planPasses l { (s.line l).working with positions := ps } = true →
         exec (.writePlanPositions l ps) s = .next ({ s.fresh with
           lines := s.lines.set l .cold { s.line l with working := { (s.line l).working with positions := ps } } }.replied
             (.writePlanPositions l ps) .ok []))) ∧
     (fits → (s.line l).counting = .idle → taken →
       exec (.writePlanPositions l ps) s = .next (s.fresh.replied (.writePlanPositions l ps) .badState [])) ∧
     (fits → (s.line l).counting = .idle → ¬ taken → ∃ t, exec (.writePlanPositions l ps) s = .next t ∧
       t.answers (.writePlanPositions l ps) .ok [] ∧
       (t.line l).working = { (s.line l).live with positions := ps } ∧ (t.line l).live = { (s.line l).live with positions := ps } ∧
       (∀ m, m ≠ l → (t.line m).working = (s.line m).working ∧ (t.line m).live = (s.line m).live) ∧
       ∀ n j, s.job n = some j → ∃ k, t.job n = some k ∧ k.state = j.state))

/-- CHANGEOVER (R53, R54, R55): the checks in their order; in MAKEREADY, GOOD, SPLICE or CHANGEOVER it is pending and nothing else
changes; in IDLE or BREAK the live plan becomes the working plan, the plan's job LIVE with its target and allowance, and the line's
previous live job CLOSED. That the answer is the byte 1 for taken and 2 for pending is R178 as log entry 5 reads it. -/
def Obligations.ChangeoverTakesEffect : Prop :=
  ∀ (s : State) (l : Nat), s.takes (.changeover l) = true →
    let p := (s.line l).working
    let complete := p.job ≠ none ∧ 1 ≤ p.positions.length ∧ p.positions.length ≤ 8
    let opened := ∃ n j, p.job = some n ∧ s.job n = some j ∧ j.state = .opened ∧ j.line = l
    let fits := ∀ q ∈ p.positions, (s.grade q.grade).caliper ≠ 0 ∧ (s.grade q.grade).core < q.dt
    let taken := ∃ q ∈ p.positions, ∃ m r, 1 ≤ m ∧ m ≤ 4 ∧ m ≠ l ∧ r.stand = q.stand ∧
      (r ∈ (s.line m).live.positions ∨ ((s.line m).pending = true ∧ r ∈ (s.line m).working.positions))
    (l < 1 ∨ 4 < l → exec (.changeover l) s = .next (s.fresh.replied (.changeover l) .badArgument [])) ∧
    (1 ≤ l → l ≤ 4 →
      ((s.line l).pending = true ∨ ¬ complete ∨ ¬ opened →
        exec (.changeover l) s = .next (s.fresh.replied (.changeover l) .badState [])) ∧
      ((s.line l).pending = false → complete → opened → ¬ fits →
        exec (.changeover l) s = .next (s.fresh.replied (.changeover l) .badArgument [])) ∧
      ((s.line l).pending = false → complete → opened → fits → taken →
        exec (.changeover l) s = .next (s.fresh.replied (.changeover l) .badState [])) ∧
      ((s.line l).pending = false → complete → opened → fits → ¬ taken →
        ((s.line l).counting ≠ .idle → (s.line l).counting ≠ .brk →
          exec (.changeover l) s = .next ({ s.fresh with
            lines := s.lines.set l .cold { s.line l with pending := true } }.replied (.changeover l) .ok [2#8])) ∧
        ((s.line l).counting = .idle ∨ (s.line l).counting = .brk →
          ∃ t, exec (.changeover l) s = .next t ∧ t.answers (.changeover l) .ok [1#8] ∧ (t.line l).live = p ∧ (t.line l).working = p ∧
            (t.line l).pending = false ∧
            (∀ n, p.job = some n → ∃ j, t.job n = some j ∧ j.state = .live ∧ j.line = l ∧ j.target = some p.target ∧
              j.allowance = some p.allowance) ∧
            ∀ n j, s.liveJob l = some n → s.job n = some j → j.state = .live → ∃ k, t.job n = some k ∧ k.state = .closed)))

/-- What a changed list of live positions does (R56, R57, R78). A stand that leaves returns to RUNNING from ARMED or MATCHED, drops DRIVE
there and BRAKE, loses its channels' references and its mark timer, and its T_s is 65535; one that joins loses the references, has its mark
timer started where it has an ACTIVE arm and its line measures, and BRAKE as the plan says where its line is in BREAK (a stand in PASTING
there also completes its splice). Each live CALL_OFF of the stands that matches its stand's position stays; of those that do not, one before
the load whose stand stays becomes PENDING with the new grade and width, without vehicle or reserved roll, one whose stand left is freed when
PENDING and marked for ABORT when ASSIGNED or LOADING, and one CARRYING becomes a RETURN with its roll. At a changeover in IDLE or BREAK a
stand that leaves, not PASTING, is after it as said, but for its call-off links. -/
def Obligations.ChangedPlanMovesStandsAndOrders : Prop :=
  let left := fun (x : Stand) =>
    let armed := x.seq = .armed ∨ x.seq = .matched
    { x with
      seq := if armed then .running else x.seq, matchCount := if armed then 0 else x.matchCount
      lastVs := if armed then none else x.lastVs, drive := if armed then false else x.drive, brake := false
      armA := { x.armA with chan := ⟨0, none⟩ }, armB := { x.armB with chan := ⟨0, none⟩ }, markLeft := none, ts := 65535 }
  (∀ (s : State) (st : Nat), (s.standLeaves st).stand st = left (s.stand st) ∧
    ∀ c, c ≠ st → (s.standLeaves st).stand c = s.stand c) ∧
  (∀ (s : State) (l st : Nat), ((s.line l).inBreak = false ∨ (s.stand st).seq ≠ .pasting) →
    let x := s.stand st
    let runs := x.active ≠ none ∧ ∃ m, s.lineOf st = some m ∧ 20 ≤ (s.line m).v
    (s.standJoins l st).stand st = { x with
      armA := { x.armA with chan := ⟨0, none⟩ }, armB := { x.armB with chan := ⟨0, none⟩ }
      markLeft := if runs then some 4000000 else none
      brake := if (s.line l).inBreak then (s.line l).live.breakBrake else x.brake }) ∧
  (∀ (s : State) (l n st : Nat) (a : Arm) (o : Order), s.order n = some o → o.requester = .arm st a →
    let t := s.dealCallOff l n
    let returned := ∃ q, t.order n = some q ∧ q.kind = .ret ∧ q.cls = .store ∧ q.state = .carrying ∧ q.deadline = none ∧ q.grade = none ∧
      q.width = none ∧ q.roll = o.roll ∧ q.vehicle = o.vehicle ∧ q.seq = o.seq
    (o.state = .unloading ∨ o.state = .failed → t = s) ∧
    (∀ p, s.positionOf st = some (l, p) →
      (o.grade = some p.grade → o.width = some p.width → t = s) ∧
      (¬ (o.grade = some p.grade ∧ o.width = some p.width) →
        (o.state = .pending ∨ o.state = .assigned ∨ o.state = .loading → ∃ q, t.order n = some q ∧ q.grade = some p.grade ∧
          q.width = some p.width ∧ q.state = .pending ∧ q.vehicle = none ∧ q.kind = o.kind ∧ q.seq = o.seq ∧
          ∀ r x, o.roll = some r → s.roll r = some x → x.state = .reserved →
            q.roll = none ∧ t.roll r = some { x with state := .stored, order := none }) ∧
        (o.state = .carrying → returned))) ∧
    ((∀ p, s.positionOf st ≠ some (l, p)) →
      (o.state = .pending → ∀ q, t.order n = some q → q.kind = .callOff ∧ q.seq = s.orderSeq + 1) ∧
      (o.state = .assigned ∨ o.state = .loading → ∃ q, t.order n = some q ∧ q.abort = true ∧ q.state = o.state ∧ q.vehicle = o.vehicle ∧
        q.seq = o.seq) ∧
      (o.state = .carrying → returned))) ∧
  ∀ (s : State) (l st : Nat), s.takes (.changeover l) = true → 1 ≤ l → l ≤ 4 → (s.line l).pending = false →
    s.planPasses l (s.line l).working = true → ((s.line l).counting = .idle ∨ (s.line l).counting = .brk) →
    1 ≤ st → st ≤ 16 → (∃ p ∈ (s.line l).live.positions, p.stand = st) → (∀ p ∈ (s.line l).working.positions, p.stand ≠ st) →
    (∀ m, 1 ≤ m → m ≤ 4 → m ≠ l → ∀ p ∈ (s.line m).live.positions, p.stand ≠ st) → (s.stand st).seq ≠ .pasting →
    ∃ t a b, exec (.changeover l) s = .next t ∧ t.lineOf st = none ∧
      t.stand st = { left (s.stand st) with
        armA := { (s.stand st).armA with chan := ⟨0, none⟩, callOff := a }, armB := { (s.stand st).armB with chan := ⟨0, none⟩, callOff := b } }

/-! ## Reading records -/

/-- The requests that read one record by its number: out of range BAD_ARGUMENT, no such record NOT_FOUND, else OK with the record's
content; nothing but the port changes (R29, R46, R52, R79, R107, R138, R156, R165). And the content of a bay, a plan's head and positions, a
stand, a job, an order, a vehicle and a station, byte by byte: the fields in their order, and behind them the flags and presence bits in
their order from bit 0 of the first byte (R178, as log entry 5 reads it). -/
def Obligations.ReadsByNumberAnswerTheRecord : Prop :=
  let carries := fun (payload fields : List Byte) (flags : List Bool) => ∃ tail, payload = fields ++ tail ∧
    tail.length = (flags.length + 7) / 8 ∧ ∀ i, i < flags.length → (tail[i / 8]?).map (fun b => b.getLsbD (i % 8)) = flags[i]?
  let opt := fun (w : Nat) (o : Option Nat) => beBytes w (o.getD 0)
  let armByte := fun a : Arm => if a = .A then 1#8 else 2#8
  let holdByte := fun h : Option Hold => match h with
    | none => 0#8
    | some .damaged => 1#8
    | some .discrepancy => 2#8
    | some .operator => 3#8
  (∀ s : State,
    (∀ b, let x := s.bay b
      carries (s.bayPayload b)
        (beBytes 1 b ++ beBytes 1 x.limit ++ opt 1 x.aisle ++ beBytes 1 x.stack.length ++ x.stack.flatMap (beBytes 2) ++
          [match x.hold with
            | none => 0#8
            | some .discrepancy => 1#8
            | some .operator => 2#8] ++ opt 1 x.mark ++ opt 1 x.lastHeight ++ beBytes 1 x.confirm ++ beBytes 1 (s.reservedHeight b) ++
          beBytes 1 (s.putAways b).length ++ (s.putAways b).flatMap (beBytes 1) ++ opt 1 (s.sensorOf b) ++
          beBytes 1 (x.stack.filter fun n => (s.roll n).isSome).length ++ x.stack.flatMap fun n => match s.roll n with
            | some r => beBytes 2 n ++ beBytes 8 r.tag.toNat ++
                beBytes 1 ([RollState.announced, .stored, .reserved, .inTransit, .staged, .ready, .running, .stub].idxOf r.state + 1) ++
                [holdByte r.hold]
            | none => [])
        ([x.aisle.isSome, x.hold.isSome, x.mark.isSome, x.lastHeight.isSome, (s.sensorOf b).isSome] ++
          x.stack.flatMap fun n => match s.roll n with
            | some r => [r.hold.isSome]
            | none => [])) ∧
    (∀ l (p : Plan),
      carries (s.headPayload l p)
        (opt 2 p.job ++ beBytes 4 p.target ++ beBytes 2 p.allowance ++ beBytes 2 p.window ++ beBytes 2 p.lead ++ beBytes 2 p.prep ++
          [if p.autoRestart then 1#8 else 2#8, if p.breakBrake then 1#8 else 2#8] ++ beBytes 2 p.restartSpeed ++ beBytes 2 p.margin ++
          beBytes 1 ([Counting.idle, .makeready, .good, .splice, .brk, .changeover].idxOf (s.line l).counting + 1))
        [p.job.isSome, (s.line l).pending]) ∧
    (∀ ps (live : Bool), s.positionsPayload ps live = beBytes 1 ps.length ++ ps.flatMap fun p =>
      beBytes 1 p.stand ++ beBytes 1 p.grade ++ beBytes 2 p.width ++ beBytes 2 p.dt ++
        if live then beBytes 2 (s.stand p.stand).ts else []) ∧
    (∀ st, let x := s.stand st
      let line := (s.lineOf st).map s.line
      let length := fun d : Option Nat => match s.lineOf st, s.runningGrade st, x.df, d with
        | some _, some g, some _, some d => some (g.length d)
        | _, _, _, _ => none
      let armBytes := fun r : ArmRec => beBytes 1 ([ArmState.empty, .staged, .ready, .active, .expired].idxOf r.state + 1) ++
        opt 2 r.roll ++ opt 1 r.callOff
      let on := fun f : Enables → Bool => (line.map fun l => f l.enables).getD false
      carries (s.standPayload st)
        (opt 1 (s.lineOf st) ++ opt 2 (line.map Line.v) ++ beBytes 1 x.m ++ beBytes 1 x.k ++ beBytes 1 (4 * x.k / x.m) ++ opt 2 x.df ++
          opt 2 (length x.df) ++ opt 2 (length (s.spliceAt st)) ++ opt 2 (s.runLength st) ++ beBytes 2 x.ts ++
          [if x.run.dir = .up then 1#8 else 2#8] ++ beBytes 1 x.run.count ++
          [match x.measureLost with
            | none => 0#8
            | some .lost => 1#8
            | some .suspect => 2#8] ++ opt 2 x.lastVs ++
          beBytes 2 x.offset ++ beBytes 1 x.tol ++ beBytes 2 x.pulse ++ opt 1 x.loading ++ opt 2 (s.dMin st) ++
          beBytes 1 ([Seq.idle, .running, .armed, .matched, .pasting].idxOf x.seq + 1) ++ beBytes 1 x.matchCount ++
          beBytes 2 (x.pasteLeft.getD 0 / 1000) ++ armBytes x.armA ++ armBytes x.armB ++
          [match line with
            | none => 0#8
            | some l => if l.inBreak then 2#8 else 1#8] ++
          match line.bind Line.cause with
            | none => [0#8]
            | some (.webBreak n) => 1#8 :: beBytes 1 n
            | some .folderJam => [2#8]
            | some (.runout n) => 3#8 :: beBytes 1 n
            | some .stopLine => [4#8]
            | some .console => [5#8]
            | some .warmStart => [6#8])
        [(s.lineOf st).isSome, x.df.isSome, (length x.df).isSome, (length (s.spliceAt st)).isSome, (s.runLength st).isSome,
          x.measureLost.isSome, x.measureLost.isSome, x.lastVs.isSome, x.armA.chan.ref.isSome, x.armB.chan.ref.isSome,
          x.loading.isSome, (s.dMin st).isSome, x.late, x.runout, x.drive, x.paste, x.brake,
          x.armA.roll.isSome, x.armA.callOff.isSome, x.armB.roll.isSome, x.armB.callOff.isSome, (line.bind Line.cause).isSome,
          on Enables.webBreak, on Enables.jam, on Enables.runout, on Enables.stopLine, on Enables.console]) ∧
    (∀ n (j : Job),
      carries (s.jobPayload n j)
        (beBytes 2 n ++ beBytes 1 j.line ++ beBytes 1 ([JobState.opened, .live, .closed].idxOf j.state + 1) ++ beBytes 4 j.good ++
          beBytes 4 j.makeready ++ beBytes 4 j.splice ++ beBytes 4 j.brk ++ beBytes 4 j.changeover ++ beBytes 2 j.spliceCount ++
          beBytes 2 j.breakCount ++ beBytes 4 j.consumedM ++ beBytes 4 j.consumedG ++ beBytes 4 j.stripM ++ beBytes 4 j.stripG ++
          beBytes 4 j.stubM ++ beBytes 4 j.stubG ++ opt 4 j.target ++ opt 2 j.allowance ++
          if j.state = .live then
            beBytes 1 ([Counting.idle, .makeready, .good, .splice, .brk, .changeover].idxOf (s.line j.line).counting + 1) ++
              beBytes 2 (s.line j.line).window
          else [])
        [j.target.isSome, j.allowance.isSome, j.excess, j.targetMet]) ∧
    (∀ n (o : Order),
      carries (s.orderPayload n o)
        (beBytes 1 n ++ beBytes 1 ([OrderKind.store, .callOff, .ret, .move].idxOf o.kind + 1) ++
          (match o.requester with
            | .node k => 1#8 :: beBytes 1 k
            | .arm st a => 2#8 :: beBytes 1 st ++ [armByte a]
            | .plant => [3#8]) ++ opt 2 o.roll ++ opt 2 (o.named.map Prod.fst) ++ beBytes 8 ((o.named.map Prod.snd).getD 0).toNat ++
          (match o.source with
            | none => [0#8]
            | some (.node k) => 1#8 :: beBytes 1 k
            | some (.bay b) => 2#8 :: beBytes 1 b) ++
          (match o.dest with
            | none => [0#8]
            | some (.bay b) => 1#8 :: beBytes 1 b
            | some (.arm st a) => 2#8 :: beBytes 1 st ++ [armByte a]
            | some (.node k) => 3#8 :: beBytes 1 k) ++
          (match o.namedDest with
            | none => [0#8]
            | some (.bay b) => 1#8 :: beBytes 1 b
            | some (.node k) => 2#8 :: beBytes 1 k
            | some (.arm st a) => 3#8 :: beBytes 1 st ++ [armByte a]) ++
          opt 1 o.grade ++ opt 2 o.width ++ opt 6 o.deadline ++
          beBytes 1 ([Sys2Proof.Machine.Class.urgent, .callOff, .plant, .store].idxOf o.cls + 1) ++
          beBytes 1 ([OrderState.pending, .assigned, .loading, .carrying, .unloading, .failed].idxOf o.state + 1) ++ opt 1 o.vehicle ++
          beBytes 4 o.seq ++ opt 1 (s.queuePlace n))
        [o.roll.isSome, o.named.isSome, o.source.isSome, o.dest.isSome, o.namedDest.isSome, o.grade.isSome, o.width.isSome,
          o.deadline.isSome, o.vehicle.isSome, o.noStock, o.noBay, o.noRoute, o.abort, (s.queuePlace n).isSome]) ∧
    (∀ n, let v := s.vehicle n
      let timer := fun t : Timer => match t with
        | .running l => 1#8 :: beBytes 3 (l / 1000)
        | .suspended l => 2#8 :: beBytes 3 (l / 1000)
        | .stopped => 3#8 :: beBytes 3 0
      carries (s.vehiclePayload n)
        (opt 1 (s.vehicleStation n) ++ [if v.inService then 2#8 else 1#8] ++
          beBytes 1 ([VState.outOfService, .idle, .toPickup, .loading, .toDrop, .unloading, .stalled].idxOf v.state + 1) ++
          beBytes 1 ((v.prev.map fun p => [VState.idle, .toPickup, .loading, .toDrop, .unloading].idxOf p + 1).getD 0) ++
          beBytes 1 ((v.cause.map fun c => [StallCause.progress, .transfer, .silent, .fault, .position].idxOf c + 1).getD 0) ++
          (match v.pos with
            | none => [0#8]
            | some (.node k) => 1#8 :: beBytes 1 k
            | some (.segment g) => 2#8 :: beBytes 1 g) ++ beBytes 1 v.held.length ++ v.held.flatMap (beBytes 1) ++ opt 1 v.waiting ++
          opt 1 (v.leg.map Leg.route) ++ opt 1 (v.leg.map Leg.progress) ++ opt 1 v.nextRoute ++ opt 1 v.order ++ opt 2 v.load ++
          opt 6 v.lastReport ++ beBytes 1 v.docked ++
          [match v.deck with
            | none => 0#8
            | some .loaded => 1#8
            | some .empty => 2#8] ++ timer v.progress ++ timer v.transfer ++
          opt 1 (v.waiting.map fun g => (s.segment g).waiters.idxOf n + 1) ++
          beBytes 1 v.held.length ++ (v.held.flatMap fun g => (match (s.segment g).kind with
            | none => 0#8
            | some (.loop _) => 1#8
            | some (.siding ..) => 2#8) :: beBytes 1 (s.segment g).waiters.length) ++
          beBytes 1 s.progressTimeout ++ beBytes 1 s.transferTimeout ++ beBytes 2 s.urgentMargin)
        [(s.vehicleStation n).isSome, v.prev.isSome, v.cause.isSome, v.pos.isSome, v.waiting.isSome, v.leg.isSome, v.leg.isSome,
          v.nextRoute.isSome, v.order.isSome, v.load.isSome, v.lastReport.isSome, v.deck.isSome, v.waiting.isSome, s.halted]) ∧
    ∀ a (x : Station),
      carries (s.stationPayload a x)
        (beBytes 1 a ++
          (match x.role with
            | .vehicle n => 1#8 :: beBytes 1 n
            | .standNode st => 2#8 :: beBytes 1 st
            | .bayNode f c => 3#8 :: beBytes 1 f ++ beBytes 1 c
            | .dockReader n => 4#8 :: beBytes 1 n
            | .scale => [5#8]
            | .console l => 6#8 :: beBytes 1 l) ++
          [if x.silent then 2#8 else 1#8] ++ beBytes 1 x.miss ++ beBytes 1 x.reduced ++ beBytes 1 x.out.length ++
          x.out.flatMap (fun c => match c with
            | .task n p d tp td => 1#8 :: beBytes 1 n ++ beBytes 1 p ++ opt 1 d ++ opt 1 tp ++ opt 1 td
            | .grant g => 2#8 :: beBytes 1 g
            | .wait g => 3#8 :: beBytes 1 g
            | .transfer n => 4#8 :: beBytes 1 n
            | .undock n => 5#8 :: beBytes 1 n
            | .abort n => 6#8 :: beBytes 1 n
            | .target l n g => 7#8 :: beBytes 1 l ++ beBytes 2 n ++ beBytes 4 g
            | .accepted k => 8#8 :: beBytes 1 k
            | .refused k r => 9#8 :: beBytes 1 k ++ beBytes 1 ([Reason.badArgument, .badState, .full, .duplicateTag].idxOf r + 1)) ++
          beBytes 1 x.offer.length ++ beBytes 1 ([Rate.k19, .k38, .k76, .k153].idxOf s.rate + 1) ++ beBytes 1 s.replyWindow)
        ((x.out.flatMap fun c => match c with
          | .task _ _ d tp td => [d.isSome, tp.isSome, td.isSome]
          | _ => []) ++ [s.pendingBroadcast.isSome])) ∧
  ∀ s : State,
    (∀ b, s.takes (.readBayByNumber b) = true → exec (.readBayByNumber b) s = .next (
      if 1 ≤ b ∧ b ≤ 120 then s.fresh.replied (.readBayByNumber b) .ok (s.bayPayload b)
      else s.fresh.replied (.readBayByNumber b) .badArgument [])) ∧
    (∀ g, s.takes (.readGrade g) = true → exec (.readGrade g) s = .next (
      if g ≤ 15 then s.fresh.replied (.readGrade g) .ok
        (beBytes 1 (s.grade g).basis ++ beBytes 1 (s.grade g).caliper ++ beBytes 2 (s.grade g).core ++ beBytes 2 (s.grade g).threshold ++
          [if s.gradeInUse g then 1#8 else 0#8])
      else s.fresh.replied (.readGrade g) .badArgument [])) ∧
    (∀ l c p, s.takes (.readPlan l c p) = true →
      (l < 1 ∨ 4 < l ∨ c = none ∨ p = none → exec (.readPlan l c p) s = .next (s.fresh.replied (.readPlan l c p) .badArgument [])) ∧
      (1 ≤ l → l ≤ 4 → ∀ copy, (c = some .working ∧ copy = (s.line l).working) ∨ (c = some .live ∧ copy = (s.line l).live) →
        (p = some .head → exec (.readPlan l c p) s = .next (s.fresh.replied (.readPlan l c p) .ok (s.headPayload l copy))) ∧
        (p = some .positions → exec (.readPlan l c p) s =
          .next (s.fresh.replied (.readPlan l c p) .ok (s.positionsPayload copy.positions (c == some .live)))))) ∧
    (∀ st, s.takes (.readStand st) = true → exec (.readStand st) s = .next (
      if 1 ≤ st ∧ st ≤ 16 then s.fresh.replied (.readStand st) .ok (s.standPayload st)
      else s.fresh.replied (.readStand st) .badArgument [])) ∧
    (∀ j, s.takes (.readJobByNumber j) = true → exec (.readJobByNumber j) s = .next (
      if 1 ≤ j ∧ j ≤ 65535 then
        (match s.job j with
        | some x => s.fresh.replied (.readJobByNumber j) .ok (s.jobPayload j x)
        | none => s.fresh.replied (.readJobByNumber j) .notFound [])
      else s.fresh.replied (.readJobByNumber j) .badArgument [])) ∧
    (∀ n, s.takes (.readOrderByNumber n) = true → exec (.readOrderByNumber n) s = .next (
      if 1 ≤ n ∧ n ≤ 255 then
        (match s.order n with
        | some o => s.fresh.replied (.readOrderByNumber n) .ok (s.orderPayload n o)
        | none => s.fresh.replied (.readOrderByNumber n) .notFound [])
      else s.fresh.replied (.readOrderByNumber n) .badArgument [])) ∧
    (∀ v, s.takes (.readVehicle v) = true → exec (.readVehicle v) s = .next (
      if 1 ≤ v ∧ v ≤ 12 then s.fresh.replied (.readVehicle v) .ok (s.vehiclePayload v)
      else s.fresh.replied (.readVehicle v) .badArgument [])) ∧
    ∀ a, s.takes (.readStationByAddress a) = true → exec (.readStationByAddress a) s = .next (
      if 1 ≤ a ∧ a ≤ 60 then
        (match s.station a with
        | some x => s.fresh.replied (.readStationByAddress a) .ok (s.stationPayload a x)
        | none => s.fresh.replied (.readStationByAddress a) .notFound [])
      else s.fresh.replied (.readStationByAddress a) .badArgument [])

/-- The requests that walk records upward (R29, R107, R138, R165): the record of the lowest number above the one named, or none; in a
state whose tables are canonical. That an answer of no record is empty, but for the line settings of READ_STATION, is log entry 5. -/
def Obligations.ReadsOfTheNextRecordWalkUpward : Prop :=
  ∀ s : State, s.canonical = true →
    (∀ b, s.takes (.readBayNextHeld b) = true →
      (120 < b → exec (.readBayNextHeld b) s = .next (s.fresh.replied (.readBayNextHeld b) .badArgument [])) ∧
      (b ≤ 120 → (∀ c, b < c → c ≤ 120 → (s.bay c).hold ≠ some .discrepancy) →
        exec (.readBayNextHeld b) s = .next (s.fresh.replied (.readBayNextHeld b) .ok [])) ∧
      ∀ n, b ≤ 120 → b < n → n ≤ 120 → (s.bay n).hold = some .discrepancy → (∀ c, b < c → c < n → (s.bay c).hold ≠ some .discrepancy) →
        exec (.readBayNextHeld b) s = .next (s.fresh.replied (.readBayNextHeld b) .ok (s.bayPayload n))) ∧
    (∀ j, s.takes (.readJobNext j) = true →
      (65535 < j → exec (.readJobNext j) s = .next (s.fresh.replied (.readJobNext j) .badArgument [])) ∧
      (j ≤ 65535 → (∀ k, j < k → s.job k = none) → exec (.readJobNext j) s = .next (s.fresh.replied (.readJobNext j) .ok [])) ∧
      ∀ n x, j ≤ 65535 → j < n → s.job n = some x → (∀ k, j < k → k < n → s.job k = none) →
        exec (.readJobNext j) s = .next (s.fresh.replied (.readJobNext j) .ok (s.jobPayload n x))) ∧
    (∀ j, s.takes (.readOrderNext j) = true →
      (255 < j → exec (.readOrderNext j) s = .next (s.fresh.replied (.readOrderNext j) .badArgument [])) ∧
      (j ≤ 255 → (∀ k, j < k → s.order k = none) → exec (.readOrderNext j) s = .next (s.fresh.replied (.readOrderNext j) .ok [])) ∧
      ∀ n x, j ≤ 255 → j < n → s.order n = some x → (∀ k, j < k → k < n → s.order k = none) →
        exec (.readOrderNext j) s = .next (s.fresh.replied (.readOrderNext j) .ok (s.orderPayload n x))) ∧
    ∀ j, s.takes (.readStationNext j) = true →
      (60 < j → exec (.readStationNext j) s = .next (s.fresh.replied (.readStationNext j) .badArgument [])) ∧
      (j ≤ 60 → (∀ k, j < k → s.station k = none) →
        exec (.readStationNext j) s = .next (s.fresh.replied (.readStationNext j) .ok s.noStationPayload)) ∧
      ∀ n x, j ≤ 60 → j < n → s.station n = some x → (∀ k, j < k → k < n → s.station k = none) →
        exec (.readStationNext j) s = .next (s.fresh.replied (.readStationNext j) .ok (s.stationPayload n x))

/-! ## The Spoilage Counter -/

/-- OPEN_JOB (R104): the checks in their order; an accepted job is OPEN in the lowest free place, every tally and count 0, no target, no
allowance, both flags clear, and nothing else changes. CLOSE_JOB and RETIRE_JOB (R105, R106): the checks in their order; closing makes the
job CLOSED, cancels a pending changeover, makes its line IDLE with an empty window and drops the line's target notices; retiring frees the
record. -/
def Obligations.JobsOpenCloseAndRetire : Prop :=
  (∀ (s : State) (j l : Nat), s.takes (.openJob j l) = true →
     (j < 1 ∨ 65535 < j ∨ l < 1 ∨ 4 < l → exec (.openJob j l) s = .next (s.fresh.replied (.openJob j l) .badArgument [])) ∧
     (1 ≤ j → j ≤ 65535 → 1 ≤ l → l ≤ 4 →
       (s.job j ≠ none → exec (.openJob j l) s = .next (s.fresh.replied (.openJob j l) .duplicate [])) ∧
       (s.job j = none → (∀ p, 1 ≤ p → p ≤ 24 → ∃ e ∈ s.jobs, e.2.place = p) →
         exec (.openJob j l) s = .next (s.fresh.replied (.openJob j l) .full [])) ∧
       ∀ p, s.job j = none → 1 ≤ p → p ≤ 24 → (∀ e ∈ s.jobs, e.2.place ≠ p) → (∀ q, 1 ≤ q → q < p → ∃ e ∈ s.jobs, e.2.place = q) →
         exec (.openJob j l) s = .next ({ s.fresh with
           jobs := s.jobs.put j (some
             { place := p, line := l, state := JobState.opened, good := 0, makeready := 0, splice := 0, brk := 0, changeover := 0,
               spliceCount := 0, breakCount := 0, consumedM := 0, consumedG := 0, stripM := 0, stripG := 0, stubM := 0, stubG := 0,
               target := none, allowance := none, excess := false, targetMet := false }) }.replied (.openJob j l) .ok []))) ∧
  ((∀ (s : State) (j : Nat), s.takes (.closeJob j) = true →
     (j < 1 ∨ 65535 < j → exec (.closeJob j) s = .next (s.fresh.replied (.closeJob j) .badArgument [])) ∧
     (1 ≤ j → j ≤ 65535 → s.job j = none → exec (.closeJob j) s = .next (s.fresh.replied (.closeJob j) .notFound [])) ∧
     ∀ x, 1 ≤ j → j ≤ 65535 → s.job j = some x →
       (x.state ≠ .live → exec (.closeJob j) s = .next (s.fresh.replied (.closeJob j) .badState [])) ∧
       (x.state = .live → ∃ notices, exec (.closeJob j) s = .next ({ s.fresh with
           jobs := s.jobs.put j (some { x with state := .closed }),
           lines := s.lines.set x.line .cold { s.line x.line with pending := false, counting := .idle, window := 0 },
           stations := notices }.replied (.closeJob j) .ok []) ∧
         ∀ a st, s.station a = some st → ∃ kept, notices.find a = some { st with offer := kept } ∧
           ∀ k, k ∈ kept ↔ k ∈ st.offer ∧ ∀ n g, k.cmd ≠ .target x.line n g)) ∧
   ∀ (s : State) (j : Nat), s.takes (.retireJob j) = true →
     (j < 1 ∨ 65535 < j → exec (.retireJob j) s = .next (s.fresh.replied (.retireJob j) .badArgument [])) ∧
     (1 ≤ j → j ≤ 65535 → s.job j = none → exec (.retireJob j) s = .next (s.fresh.replied (.retireJob j) .notFound [])) ∧
     ∀ x, 1 ≤ j → j ≤ 65535 → s.job j = some x →
       let used := x.state = .live ∨ ((s.line x.line).pending = true ∧ (s.line x.line).working.job = some j) ∨ ∃ e ∈ s.rolls, e.2.job = some j
       (used → exec (.retireJob j) s = .next (s.fresh.replied (.retireJob j) .badState [])) ∧
       (¬ used → exec (.retireJob j) s = .next ({ s.fresh with jobs := s.jobs.put j none }.replied (.retireJob j) .ok [])))

/-- COPY_PULSE (R110, R111, R114, R116) on a line with no changeover pending: not counted in IDLE; else one copy in the category of the
counting state, with the allowance test, the target test and the window; a pulse that brings the job's total to the copy limit is counted
and closes the job. A copy pulse on a line with a changeover pending (R54, R55, R110): the outgoing job is CLOSED with the tallies it had,
the plan's job is the line's LIVE job, the pulse is its first copy, in the category of the counting state the changeover gives, and the live
plan is the working plan. -/
def Obligations.CopyPulseCounts : Prop :=
  (∀ (s : State) (l n : Nat) (j : Job), s.awake = true → 1 ≤ l → l ≤ 4 → (s.line l).pending = false →
     (s.liveJob l = none ∨ (s.line l).counting = .idle → exec (.copyPulse l) s = .next s.fresh) ∧
     (s.liveJob l = some n → s.job n = some j →
       j.good + j.makeready + j.splice + j.brk + j.changeover + 1 < 4294967295 →
       ((s.line l).counting = .makeready →
         (j.excess = true ∨ (∀ a, j.allowance = some a → j.makeready + 1 ≤ a) → exec (.copyPulse l) s =
           .next { s.fresh with jobs := s.jobs.put n (some { j with makeready := j.makeready + 1 }) }) ∧
         (∀ a, j.excess = false → j.allowance = some a → a < j.makeready + 1 → exec (.copyPulse l) s =
           .next ({ s.fresh with
             jobs := s.jobs.put n (some { j with makeready := j.makeready + 1, excess := true }) }.raise .makereadyExcess l))) ∧
       ((s.line l).counting = .good →
         (j.targetMet = true ∨ (∀ a, j.target = some a → a = 0 ∨ j.good + 1 ≠ a) → exec (.copyPulse l) s =
           .next { s.fresh with jobs := s.jobs.put n (some { j with good := j.good + 1 }) }) ∧
         (j.targetMet = false → j.target = some (j.good + 1) → exec (.copyPulse l) s =
           .next (({ s.fresh with
             jobs := s.jobs.put n (some { j with good := j.good + 1, targetMet := true }) }.raise .targetReached l).tellTarget l n
               (j.good + 1)))) ∧
       ((s.line l).counting = .splice → exec (.copyPulse l) s = .next { s.fresh with
         jobs := s.jobs.put n (some { j with splice := j.splice + 1 }),
         lines := s.lines.set l .cold { s.line l with
           window := (s.line l).window - 1, counting := if (s.line l).window ≤ 1 then .good else .splice } }) ∧
       ((s.line l).counting = .brk → exec (.copyPulse l) s =
         .next { s.fresh with jobs := s.jobs.put n (some { j with brk := j.brk + 1 }) }) ∧
       ((s.line l).counting = .changeover → exec (.copyPulse l) s =
         .next { s.fresh with jobs := s.jobs.put n (some { j with changeover := j.changeover + 1 }) })) ∧
     (s.liveJob l = some n → s.job n = some j → (s.line l).counting ≠ .idle →
       j.good + j.makeready + j.splice + j.brk + j.changeover + 1 = 4294967295 →
       let counted : Job := match (s.line l).counting with
         | .makeready => { j with
             makeready := j.makeready + 1, excess := j.excess || j.allowance.any fun a => decide (a < j.makeready + 1) }
         | .good => { j with good := j.good + 1, targetMet := j.targetMet || j.target.any fun a => decide (a = j.good + 1) }
         | .splice => { j with splice := j.splice + 1 }
         | .brk => { j with brk := j.brk + 1 }
         | .changeover => { j with changeover := j.changeover + 1 }
         | .idle => j
       ∃ t, exec (.copyPulse l) s = .next t ∧ t.job n = some { counted with state := .closed } ∧
         t.line l = { s.line l with pending := false, counting := .idle, window := 0 })) ∧
  (∀ (s : State) (l n m : Nat) (j k : Job), s.awake = true → 1 ≤ l → l ≤ 4 → (s.line l).pending = true → (s.line l).counting ≠ .idle →
     s.jobs.rising = true → s.liveJob l = some n → s.job n = some j →
     (∀ x y, s.job x = some y → y.state = .live → y.line = l → x = n) →
     (s.line l).working.job = some m → s.job m = some k → k.state = .opened → k.line = l →
     k.good + k.makeready + k.splice + k.brk + k.changeover + 1 < 4294967295 →
     let p := (s.line l).working
     ∃ t x, exec (.copyPulse l) s = .next t ∧ (t.line l).live = p ∧ (t.line l).working = p ∧ (t.line l).pending = false ∧
       t.job n = some { j with state := .closed } ∧ t.job m = some x ∧
       x = { k with
         state := .live, target := some p.target, allowance := some p.allowance, excess := false, targetMet := false
         brk := if (s.line l).counting = .brk then k.brk + 1 else k.brk
         changeover := if (s.line l).counting = .brk then k.changeover else k.changeover + 1
         spliceCount := x.spliceCount, breakCount := x.breakCount } ∧
       ((s.line l).counting = .brk → (t.line l).counting = .brk) ∧
       ((s.line l).counting ≠ .brk → (t.line l).inBreak = (s.line l).inBreak → (t.line l).counting = .changeover))

/-- CONSOLE_EVENT GOOD (R112): the counting state of the console's line becomes GOOD from MAKEREADY or CHANGEOVER and the console is sent
ACCEPTED; in any other state, and from a station of another role, the report is REFUSED and nothing else changes. -/
def Obligations.ConsoleGoodStartsTheCount : Prop :=
  ∀ (s : State) (e : Exchange) (x : Station) (more : Bool), s.hears e x →
    ((∀ l, x.role ≠ .console l) →
      exec (.consoleGood more) s = .next ((s.heard e more).refuse e.addr .consoleEvent .badArgument)) ∧
    ∀ l, x.role = .console l →
      ((s.line l).counting = .makeready ∨ (s.line l).counting = .changeover → exec (.consoleGood more) s =
        .next ({ s.heard e more with lines := s.lines.set l .cold { s.line l with counting := .good } }.accept e.addr .consoleEvent)) ∧
      ((s.line l).counting ≠ .makeready → (s.line l).counting ≠ .changeover → exec (.consoleGood more) s =
        .next ((s.heard e more).refuse e.addr .consoleEvent .badState))

/-- The remaining length of R65: the formula, 0 at or below the core, never above 65535, never falling as the diameter grows, and at most
44052 m, which the widest range reaches, for every configured grade at every diameter a roll may have. -/
def Obligations.RemainingLength : Prop :=
  ∀ (g : Grade) (d : Nat),
    (d ≤ g.core → g.length d = 0) ∧
    (g.core < d → 355 * (d * d - g.core * g.core) / (45200 * g.caliper) ≤ 65535 →
      g.length d = 355 * (d * d - g.core * g.core) / (45200 * g.caliper)) ∧
    (∀ e, d ≤ e → g.length d ≤ g.length e) ∧ g.length d ≤ 65535 ∧
    (40 ≤ g.caliper → 800 ≤ g.core → d ≤ 15000 → g.length d ≤ 44052) ∧
    (g.caliper = 40 → g.core = 800 → g.length 15000 = 44052)

/-! ## Stand Measurement -/

/-- SET_STAND (R62, R80): the checks in their order; the settings are written, a change of m or k clears both channels, and a request that
leaves the offset and the loading node does nothing else. SET_LINE (R59, R97): the checks in their order; the settings and enables are
written, a change of λ clears the channels of the line's stands, and a line in CLEAR with an enabled pin or runout source active enters
BREAK. -/
def Obligations.StandAndLineSettingsAreWritten : Prop :=
  (∀ (s : State) (st m k offset tol pulse loading : Nat) (i : Instr), i = .setStand st m k offset tol pulse loading → s.takes i = true →
     let x := s.stand st
     let bad := st < 1 ∨ 16 < st ∨ (m ≠ 1 ∧ m ≠ 2 ∧ m ≠ 4) ∨ (k ≠ 1 ∧ k ≠ 4 ∧ k ≠ 16) ∨ offset < 100 ∨ 800 < offset ∨ tol < 1 ∨ 20 < tol ∨
       pulse < 50 ∨ 500 < pulse ∨ loading < 1 ∨ 48 < loading ∨ ∀ g, s.node loading ≠ some ⟨g, .stand⟩
     let sequence := x.seq = .armed ∨ x.seq = .matched ∨ x.seq = .pasting
     let conflict := ((x.m ≠ m ∨ x.k ≠ k) ∧ (sequence ∨ ∃ l, s.lineOf st = some l ∧ 0 < (s.line l).v)) ∨
       ((x.offset ≠ offset ∨ x.tol ≠ tol ∨ x.pulse ≠ pulse) ∧ sequence) ∨
       (x.loading ≠ some loading ∧ ∃ e ∈ s.orders, e.2.kind = .callOff ∧ ∃ a, e.2.requester = .arm st a)
     (bad → exec i s = .next (s.fresh.replied i .badArgument [])) ∧
     (¬ bad → conflict → exec i s = .next (s.fresh.replied i .badState [])) ∧
     (¬ bad → ¬ conflict →
       (x.offset = offset → x.loading = some loading → exec i s = .next ({ s.fresh with
         stands := s.stands.set st .cold { x with
           m := m, k := k, tol := tol, pulse := pulse,
           armA := if x.m = m ∧ x.k = k then x.armA else { x.armA with chan := ⟨0, none⟩ },
           armB := if x.m = m ∧ x.k = k then x.armB else { x.armB with chan := ⟨0, none⟩ } } }.replied i .ok [])) ∧
       ∃ t, exec i s = .next t ∧ t.answers i .ok [] ∧ (t.stand st).m = m ∧ (t.stand st).k = k ∧ (t.stand st).offset = offset ∧
         (t.stand st).tol = tol ∧ (t.stand st).pulse = pulse ∧ (t.stand st).loading = some loading ∧
         ∀ c, c ≠ st → (t.stand c).m = (s.stand c).m ∧ (t.stand c).k = (s.stand c).k ∧ (t.stand c).offset = (s.stand c).offset ∧
           (t.stand c).tol = (s.stand c).tol ∧ (t.stand c).pulse = (s.stand c).pulse ∧ (t.stand c).loading = (s.stand c).loading)) ∧
  (∀ (s : State) (l lam w : Nat) (e : Enables) (i : Instr), i = .setLine l lam w e → s.takes i = true →
     let x := s.line l
     let bad := l < 1 ∨ 4 < l ∨ lam < 50 ∨ 2000 < lam ∨ w < 10 ∨ 200 < w
     let active := (e.webBreak = true ∧ ∃ st ∈ s.lineStands l, (s.stand st).webBreak = true) ∨ (e.jam = true ∧ x.jam = true) ∨
       (e.runout = true ∧ ∃ st ∈ s.lineStands l, (s.stand st).runout = true)
     (bad → exec i s = .next (s.fresh.replied i .badArgument [])) ∧
     (¬ bad → x.lam ≠ lam → 0 < x.v → exec i s = .next (s.fresh.replied i .badState [])) ∧
     (¬ bad → x.lam = lam ∨ x.v = 0 → ∃ t, exec i s = .next t ∧ t.answers i .ok [] ∧
       (t.line l).lam = lam ∧ (t.line l).w = w ∧ (t.line l).enables = e ∧
       (x.inBreak = false → active → (t.line l).inBreak = true) ∧
       (x.inBreak = true ∨ ¬ active →
         t = { s.fresh with lines := s.lines.set l .cold { x with lam := lam, w := w, enables := e }, stands := t.stands }.replied i .ok [] ∧
         ∀ st, t.stand st = if x.lam ≠ lam ∧ st ∈ s.lineStands l
           then { s.stand st with armA := { (s.stand st).armA with chan := ⟨0, none⟩ }, armB := { (s.stand st).armB with chan := ⟨0, none⟩ } }
           else s.stand st)))

/-- WEB_PULSE (R60) and GATE_EXPIRY (R61, R75, R85, R99): a pulse counts one, modulo 2^24; at a gate the line's v is the pulses since the
last gate times λ times 240 over 1000000, rounded half up and at most 1200; below 20 m/min no stand of the line stays ARMED or MATCHED; a
line in BREAK below its restart speed takes the low-speed mark, and one that has it and reaches the speed with auto-restart leaves BREAK.
The time to splice T_s of each stand of the line with a running roll (R66, R67): the length left above D_t times 60 over v, floored and at
most 65535, and 65535 below 20 m/min. (That the cause goes with the break is log entry 13.) -/
def Obligations.GateExpiryMeasuresTheSpeed : Prop :=
  (∀ (s : State) (l : Nat), s.awake = true → 1 ≤ l → l ≤ 4 →
    exec (.webPulse l) s = .next { s.fresh with lines := s.lines.set l .cold { s.line l with web := (s.line l).web + 1#24 } }) ∧
  ∀ (s : State) (l v : Nat), s.awake = true → 1 ≤ l → l ≤ 4 →
    2 * v * 1000000 ≤ 2 * (((s.line l).web - (s.line l).gateWeb).toNat * (s.line l).lam * 240) + 1000000 →
    2 * (((s.line l).web - (s.line l).gateWeb).toNat * (s.line l).lam * 240) + 1000000 < 2 * (v + 1) * 1000000 →
    ∃ t, exec (.gateExpiry l) s = .next t ∧ (t.line l).v = min 1200 v ∧ (t.line l).web = (s.line l).web ∧
      (t.line l).gateWeb = (s.line l).web ∧ (∀ m, m ≠ l → t.line m = s.line m) ∧
      (v < 20 → ∀ st ∈ s.lineStands l, (t.stand st).seq ≠ .armed ∧ (t.stand st).seq ≠ .matched) ∧
      (∀ st ∈ s.lineStands l, ∀ n r d m p, s.runningRoll st = some (n, r) → (s.stand st).df = some d → s.positionOf st = some (m, p) →
        (t.stand st).ts = if v < 20 then 65535
          else min 65535 (((s.grade r.grade).length d - (s.grade r.grade).length p.dt) * 60 / min 1200 v)) ∧
      ((s.line l).inBreak = true → min 1200 v < (s.line l).live.restartSpeed → (t.line l).lowMark = true ∧ (t.line l).inBreak = true) ∧
      ((s.line l).inBreak = true → (s.line l).live.restartSpeed ≤ min 1200 v → (s.line l).live.autoRestart = true →
        (s.line l).lowMark = true → s.mayLeave l = true → (t.line l).inBreak = false ∧ (t.line l).cause = none ∧ (t.line l).stop = false)

/-- MARK_EDGE (R63, R64): below the prescale an edge is counted and nothing else happens; the edge that reaches it takes a capture of the
µs counter and of the line's web counter, which becomes the reference; on an arm that is neither ACTIVE nor READY, and for the first
capture of a READY arm, nothing else happens. A pair on the ACTIVE arm of a stand of a line restarts the mark timer and is the diameter
sample of R69; one on a READY arm of an ARMED or MATCHED stand (R77) is a standby sample at the roll's diameter times the quarter turns
times 532500 over 113 times the µs between, rounded half up and at most 1200, and none when no µs or more than 4 s lie between; in another
state of the stand it is not used. MARK_TIMER_EXPIRY (R75, R76, R85): the timer stops and MEASURE_LOST is set with cause LOST; setting a
clear flag raises the condition for the stand; an ARMED or MATCHED stand returns to RUNNING, drops DRIVE and loses its match count and last
standby speed. That an expiry the part's own time queued acts only while the timer stands at its end is the model's choice (log entry 2). -/
def Obligations.MarkTimerMeasures : Prop :=
  (∀ (s : State) (st : Nat) (a : Arm), s.awake = true → 1 ≤ st → st ≤ 16 →
     let x := s.stand st
     let r := x.arm a
     let cap : Capture := ⟨s.micros, (s.lineOf st).map fun l => (s.line l).web⟩
     let taken := x.withArm a { r with chan := ⟨0, some cap⟩ }
     (r.chan.count + 1 < x.k → exec (.markEdge st a) s = .next { s.fresh with
       stands := s.stands.set st .cold (x.withArm a { r with chan := ⟨r.chan.count + 1, r.chan.ref⟩ }) }) ∧
     (x.k ≤ r.chan.count + 1 → r.state ≠ .active → (r.state = .ready → r.chan.ref = none) → exec (.markEdge st a) s = .next { s.fresh with
       stands := s.stands.set st .cold taken }) ∧
     (x.k ≤ r.chan.count + 1 → r.state = .active → ∀ l, s.lineOf st = some l →
       let u := { s.fresh with
         stands := s.stands.set st .cold { taken with markLeft := if 20 ≤ (s.line l).v then some 4000000 else none } }
       (r.chan.ref = none → exec (.markEdge st a) s = .next u) ∧
       ∀ ref, r.chan.ref = some ref → exec (.markEdge st a) s = .next (u.diameterSample st ref cap).finish) ∧
     (x.k ≤ r.chan.count + 1 → r.state = .ready → ∀ ref, r.chan.ref = some ref →
       let u := { s.fresh with stands := s.stands.set st .cold taken }
       let t := (s.micros - ref.us).toNat
       let q := 4 * x.k / x.m
       (x.seq ≠ .armed → x.seq ≠ .matched → exec (.markEdge st a) s = .next u) ∧
       ∀ n p, x.seq = .armed ∨ x.seq = .matched → r.roll = some n → s.roll n = some p →
         (t = 0 ∨ 4000000 < t → exec (.markEdge st a) s = .next u) ∧
         (0 < t → t ≤ 4000000 → exec (.markEdge st a) s =
           .next (u.standbySample st (min 1200 ((2 * (p.diameter * q * 532500) + 113 * t) / (2 * (113 * t))))).finish))) ∧
  (∀ (s : State) (st left : Nat), s.awake = true → (s.stand st).markLeft = some left →
     let x := s.stand st
     let armed := x.seq = .armed ∨ x.seq = .matched
     let y := { x with markLeft := none, measureLost := some .lost }
     let u := { s.fresh with
       stands := s.stands.set st .cold (if armed then { y with seq := .running, matchCount := 0, lastVs := none, drive := false } else y),
       edges := if armed ∧ x.drive = true then [⟨.drive st, false⟩] else [] }
     (left = 0 ∨ Instr.markTimerExpiry st ∉ s.expiring →
       exec (.markTimerExpiry st) s = .next (if x.measureLost = none then u.raise .measureLost st else u)) ∧
     (left ≠ 0 → Instr.markTimerExpiry st ∈ s.expiring → exec (.markTimerExpiry st) s = .next s))

/-- The diameter filter (R69 to R74, R68): a sample below 20 m/min or of fewer than 16 web pulses is discarded; the measured diameter is W
λ 452 over 35500 q rounded half up, at most 15000; above D_f it is an upward reject, the third in a row sets MEASURE_LOST SUSPECT; more
than the window below it a downward reject, the third in a row reseeds; else D_f falls by the excess over four rounded up, not below the
core, the run and the flag are cleared, and the fall of remaining length is charged to the roll and to the line's live job. A stand in
RUNNING or ARMED whose new D_f is at or below the core plus the offset has run out (R91): the call-off of its other arm becomes URGENT, and
its line in CLEAR, with the runout source enabled and no changeover pending, enters BREAK with this cause. -/
def Obligations.DiameterFilter : Prop :=
  ∀ (s : State) (st l n df new : Nat) (r : Roll) (c d : Capture) (a b : BitVec 24),
    s.lineOf st = some l → s.runningRoll st = some (n, r) → (s.stand st).df = some df → c.web = some a → d.web = some b →
    let x := s.stand st
    let run := x.run
    let g := s.grade r.grade
    let w := (b - a).toNat
    let q := 4 * x.k / x.m
    let up := if run.dir = .up then min 3 (run.count + 1) else 1
    let down := if run.dir = .down then run.count + 1 else 1
    let t := s.diameterSample st c d
    ((s.line l).v < 20 ∨ w < 16 → t = s) ∧
    (20 ≤ (s.line l).v → 16 ≤ w → 0 < q → new ≤ 15000 →
      (new < 15000 → 2 * (w * (s.line l).lam * 452) + q * 35500 < 2 * (new + 1) * (q * 35500)) →
      2 * new * (q * 35500) ≤ 2 * (w * (s.line l).lam * 452) + q * 35500 →
      (df < new → up < 3 → t = s.setStand st { x with run := ⟨.up, up⟩ }) ∧
      (df < new → up = 3 → (t.stand st).run = ⟨.up, 3⟩ ∧ (t.stand st).measureLost = some .suspect ∧ (t.stand st).df = some df) ∧
      (new + (s.line l).w < df → down < 3 → t = s.setStand st { x with run := ⟨.down, down⟩ }) ∧
      ∀ after, ((new ≤ df ∧ df ≤ new + (s.line l).w ∧ ∃ k, 4 * k < df - new + 4 ∧ df - new ≤ 4 * k ∧ after = max g.core (df - k)) ∨
          (new + (s.line l).w < df ∧ 3 ≤ down ∧ after = max new g.core)) →
        ((x.runout = false → x.seq = .running ∨ x.seq = .armed → after ≤ g.core + x.offset → (s.line l).pending = false →
          (t.stand st).df = some after ∧ (t.stand st).runout = true ∧
          (∀ a o q, x.active = some a → (x.arm a.other).callOff = some o → s.order o = some q → q.kind = .callOff → q.abort = false →
            q.state ≠ .failed → ∃ q', t.order o = some q' ∧ q'.cls = .urgent) ∧
          ((s.line l).enables.runout = true → (s.line l).inBreak = false →
            (t.line l).inBreak = true ∧ (t.line l).cause = some (.runout st) ∧ (t.line l).stop = true))) ∧
        ((g.core + x.offset < after ∨ x.runout = true ∨ (s.line l).enables.runout = false ∨ (s.line l).inBreak = true) →
        (t.stand st).df = some after ∧ (t.stand st).run.count = 0 ∧ (t.stand st).measureLost = none ∧
        (∃ p, t.roll n = some p ∧ p.diameter = after ∧
          p.consumed = if after = df then r.consumed else min 65535 (r.consumed + (g.length df - g.length after))) ∧
        (∀ m j, s.liveJob l = some m → s.job m = some j → ∃ k, t.job m = some k ∧
          k.consumedM = (if after = df then j.consumedM else min 4294967295 (j.consumedM + (g.length df - g.length after))) ∧
          k.consumedG = if after = df then j.consumedG
            else min 4294967295 (j.consumedG + (g.length df - g.length after) * r.width * g.basis / 1000)) ∧
        (∀ m, m ≠ n → ∀ p, s.roll m = some p → ∃ p', t.roll m = some p' ∧ p'.diameter = p.diameter ∧ p'.consumed = p.consumed)))

/-! ## The splice sequence -/

/-- Matching and SPLICE_NOW (R86, R88): a standby sample within the tolerance of the line's v counts once in ARMED and stays in MATCHED,
one outside clears the count or returns MATCHED to ARMED, where a stand at or below D_t is late at once (R90). Arming (R84): a RUNNING stand
arms exactly when MEASURE_LOST is clear, its other arm READY, D_f at most D_t plus the arming margin, its line in CLEAR and at 20 m/min or
more; its DRIVE is asserted, and at or below D_t SPLICE_LATE is set and raised (R90). SPLICE_NOW of a MATCHED stand from its node or its line's console fires the
paste, and is refused BAD_STATE in any other state and BAD_ARGUMENT from another station. -/
def Obligations.MatchAndSpliceNow : Prop :=
  (∀ (s : State) (st l vs : Nat), s.lineOf st = some l →
    let x := s.stand st
    let within := vs ≤ (s.line l).v + x.tol ∧ (s.line l).v ≤ vs + x.tol
    let y := { x with lastVs := some vs }
    (x.seq = .armed → x.matchCount = 0 → within → s.standbySample st vs = s.setStand st { y with matchCount := 1 }) ∧
    (x.seq = .armed → ¬ within → s.standbySample st vs = s.setStand st { y with matchCount := 0 }) ∧
    (x.seq = .armed → x.matchCount ≠ 0 → within → ∀ df l' p, x.df = some df → s.positionOf st = some (l', p) → p.dt < df →
      s.standbySample st vs = s.setStand st { y with seq := .matched, matchCount := 0 }) ∧
    (x.seq = .armed → x.matchCount ≠ 0 → within → ∀ df l' p, x.df = some df → s.positionOf st = some (l', p) → df ≤ p.dt →
      s.standbySample st vs = (s.setStand st { y with
        seq := .pasting, matchCount := 0, pasteLeft := some (x.pulse * 1000), pasteLine := some l }).drivePin (.paste st) true) ∧
    (x.seq = .matched → within → s.standbySample st vs = s.setStand st y) ∧
    let atEnd := ∃ df l' p, x.df = some df ∧ s.positionOf st = some (l', p) ∧ df ≤ p.dt
    (x.seq = .matched → ¬ within → (¬ atEnd ∨ x.late = true) →
      s.standbySample st vs = s.setStand st { y with seq := .armed, matchCount := 0 }) ∧
    (x.seq = .matched → ¬ within → atEnd → x.late = false →
      s.standbySample st vs = (s.setStand st { y with seq := .armed, matchCount := 0, late := true }).raise .spliceLate st)) ∧
  (∀ (s : State) (st l : Nat) (p : Position), s.positionOf st = some (l, p) →
    let x := s.stand st
    let may := x.seq = .running ∧ x.measureLost = none ∧ (∃ a, x.active = some a ∧ (x.arm a.other).state = .ready) ∧
      (∃ df, x.df = some df ∧ df ≤ p.dt + (s.line l).live.margin) ∧ (s.line l).inBreak = false ∧ 20 ≤ (s.line l).v
    let y := { x with seq := .armed, matchCount := 0, lastVs := none, drive := true }
    let u := { s with
      stands := s.stands.set st .cold y, edges := if x.drive = true then s.edges else s.edges ++ [⟨.drive st, true⟩] }
    (¬ may → s.tryArm st = s) ∧
    ∀ df, may → x.df = some df →
      (p.dt < df ∨ x.late = true → s.tryArm st = u) ∧
      (df ≤ p.dt → x.late = false → s.tryArm st =
        { u with stands := s.stands.set st .cold { y with late := true } }.raise .spliceLate st)) ∧
  ∀ (s : State) (e : Exchange) (a : Station) (st : Nat) (more : Bool), s.hears e a →
    let owner := a.role = .standNode st ∨ ∃ l, a.role = .console l ∧ s.lineOf st = some l
    (¬ owner → exec (.spliceNow st more) s = .next ((s.heard e more).refuse e.addr .spliceNow .badArgument)) ∧
    (owner → (s.stand st).seq ≠ .matched → exec (.spliceNow st more) s = .next ((s.heard e more).refuse e.addr .spliceNow .badState)) ∧
    (owner → (s.stand st).seq = .matched → exec (.spliceNow st more) s = .next ((((s.heard e more).setStand st { s.stand st with
      seq := .pasting, pasteLeft := some ((s.stand st).pulse * 1000), pasteLine := s.lineOf st }).drivePin (.paste st) true).accept e.addr
        .spliceNow))

/-- PASTE_TIMER_EXPIRY (R89) of a PASTING stand (an expiry the part's own time queued acts only while the timer stands at its end; that and
the expiry of a timer that does not run changing nothing are the model's choices, log entries 2 and 1): the ACTIVE arm becomes EXPIRED and its roll a STUB at D_f, the READY arm ACTIVE and its roll RUNNING under
the paste line's live job, else the expired roll's job; D_f takes the mount diameter; both outputs, the flags and the paste line are
cleared; the paste line's live job counts a splice event, and a GOOD line with a splice window starts it. -/
def Obligations.SpliceSwapsTheArms : Prop :=
  let due := fun (s : State) (st : Nat) => (s.stand st).seq = .pasting ∧ ∃ left, (s.stand st).pasteLeft = some left ∧
    (left = 0 ∨ Instr.pasteTimerExpiry st ∉ s.expiring)
  (∀ (s : State) (st : Nat), s.awake = false ∨ ¬ due s st → exec (.pasteTimerExpiry st) s = .next s) ∧
  ∀ (s : State) (st old new : Nat) (a : Arm) (p q : Roll), s.awake = true →
    let x := s.stand st
    due s st → x.active = some a → (x.arm a.other).state = .ready → (x.arm a).roll = some old →
    (x.arm a.other).roll = some new → old ≠ new → s.roll old = some p → s.roll new = some q →
    ∃ t, exec (.pasteTimerExpiry st) s = .next t ∧
      ((t.stand st).arm a).state = .expired ∧ ((t.stand st).arm a).roll = some old ∧
      ((t.stand st).arm a.other).state = .active ∧ ((t.stand st).arm a.other).roll = some new ∧
      (t.stand st).seq = .running ∧ (t.stand st).matchCount = 0 ∧ (t.stand st).pasteLeft = none ∧ (t.stand st).pasteLine = none ∧
      (t.stand st).drive = false ∧ (t.stand st).paste = false ∧ (t.stand st).late = false ∧ (t.stand st).runout = false ∧
      (t.stand st).lastVs = none ∧ (t.stand st).df = q.mount ∧ (t.stand st).run.count = 0 ∧ (t.stand st).measureLost = none ∧
      t.roll old = some { p with state := .stub, diameter := x.df.getD p.diameter } ∧
      t.roll new = some { q with state := .running, job := ((x.pasteLine.bind s.liveJob)).or p.job, hold := none } ∧
      (∀ l, x.pasteLine ≠ some l → t.line l = s.line l) ∧
      ∀ l, x.pasteLine = some l →
        (∀ n j, (s.line l).counting ≠ .idle → s.liveJob l = some n → s.job n = some j → ∃ k, t.job n = some k ∧
          k.spliceCount = min 65535 (j.spliceCount + 1)) ∧
        ((s.line l).counting = .good → (s.line l).live.window ≠ 0 →
          (t.line l).counting = .splice ∧ (t.line l).window = (s.line l).live.window) ∧
        ((s.line l).counting = .splice → (t.line l).counting = .splice ∧
          (t.line l).window = max (s.line l).window (s.line l).live.window) ∧
        ((s.line l).counting ≠ .good → (s.line l).counting ≠ .splice → t.line l = s.line l)

/-! ## Rolls at the stands -/

/-- PREP_DONE (R94, R7, R18): the checks in their order; a STAGED roll becomes READY at the diameter after strip, which is its mount
diameter, with consumed 0, and the strip is charged to the live job of the stand's line. -/
def Obligations.PrepDonePreparesTheRoll : Prop :=
  ∀ (s : State) (e : Exchange) (y : Station) (a : Arm) (after before : Nat) (more : Bool), s.hears e y →
    let h := s.heard e more
    let i := Instr.prepDone a after before more
    ((∀ st, y.role ≠ .standNode st) → exec i s = .next (h.refuse e.addr .prepDone .badArgument)) ∧
    ∀ st, y.role = .standNode st →
      let x := (s.stand st).arm a
      let bad := (h.raise .rollDiscrepancy (x.roll.getD 0)).refuse e.addr .prepDone .badState
      (x.state ≠ .staged → x.state ≠ .ready → exec i s = .next bad) ∧
      ∀ n r, x.roll = some n → s.roll n = some r →
        (x.state = .ready → r.mount = some after → exec i s = .next (h.accept e.addr .prepDone)) ∧
        (x.state = .ready → r.mount ≠ some after → exec i s = .next bad) ∧
        (x.state = .staged → r.hold ≠ none → exec i s = .next (h.refuse e.addr .prepDone .badState)) ∧
        (x.state = .staged → r.hold = none → (after < (s.grade r.grade).core ∨ before < after ∨ 15000 < before) →
          exec i s = .next (h.refuse e.addr .prepDone .badArgument)) ∧
        (x.state = .staged → r.hold = none → (s.grade r.grade).core ≤ after → after ≤ before → before ≤ 15000 →
          ∃ t, exec i s = .next t ∧ ((t.stand st).arm a).state = .ready ∧ ((t.stand st).arm a).roll = some n ∧
            t.rolls = s.rolls.put n (some
              { r with state := .ready, diameter := after, mount := some after, consumed := 0, job := none, hold := none }) ∧
            (∀ l m j, s.lineOf st = some l → s.liveJob l = some m → s.job m = some j → ∃ k, t.job m = some k ∧
              k.stripM = min 4294967295 (j.stripM + ((s.grade r.grade).length before - (s.grade r.grade).length after)) ∧
              k.stripG = min 4294967295 (j.stripG +
                ((s.grade r.grade).length before - (s.grade r.grade).length after) * r.width * (s.grade r.grade).basis / 1000)) ∧
            ((∀ l, s.lineOf st = some l → s.liveJob l = none) → t.jobs = s.jobs))

/-- STUB_OFF (R95, R96, R24): the checks in their order; a stub at or below its grade's threshold is charged to the job in its job field
and its record freed; one above it returns to store as a partial roll at the loading node, linked to a RETURN order that is created PENDING
with the next number and sequence, that node its source, and a pass follows; it is refused FULL when no order record can be had; the arm
becomes EMPTY, and a run-out stand in BREAK becomes IDLE. -/
def Obligations.StubOffEmptiesTheArm : Prop :=
  ∀ (s : State) (e : Exchange) (y : Station) (a : Arm) (measured : Option Nat) (more : Bool), s.hears e y →
    let h := s.heard e more
    let i := Instr.stubOff a measured more
    ((∀ st, y.role ≠ .standNode st) → exec i s = .next (h.refuse e.addr .stubOff .badArgument)) ∧
    ∀ st, y.role = .standNode st →
      let x := (s.stand st).arm a
      let bad := (h.raise .rollDiscrepancy (x.roll.getD 0)).refuse e.addr .stubOff .badState
      let node := (s.stand st).loading.getD 0
      (∀ d, measured = some d → 15000 < d → exec i s = .next (h.refuse e.addr .stubOff .badArgument)) ∧
      ((∀ d, measured = some d → d ≤ 15000) → x.roll = none → exec i s = .next bad) ∧
      ∀ n r, x.roll = some n → s.roll n = some r →
        let g := s.grade r.grade
        let out := (s.stand st).runout = true ∧ ∃ l, s.lineOf st = some l ∧ (s.line l).inBreak = true
        let taken := x.state = .expired ∨ (x.state = .active ∧ out)
        let kept := if x.state = .expired then r.diameter else (s.stand st).df.getD r.diameter
        let d := measured.getD kept
        ((∃ d, measured = some d ∧ d < g.core) → exec i s = .next (h.refuse e.addr .stubOff .badArgument)) ∧
        ((∀ d, measured = some d → g.core ≤ d ∧ d ≤ 15000) →
          (¬ taken → exec i s = .next bad) ∧
          (taken → g.threshold < d → s.orderFree = false →
            exec i s = .next ((h.raise .storeFull node).refuse e.addr .stubOff .full)) ∧
          (taken → g.threshold < d → s.orderFree = true → r.loc = .arm st a → ∃ u : State, exec i s = .next u.finish ∧ u.passDue = true ∧
            u.order s.nextOrderNumber = some { Order.pendingOf .ret (.arm st a) .store with
              place := (lowestFree 40 (s.orders.map fun e : Nat × Order => e.2.place)).getD 1, seq := s.orderSeq + 1
              roll := some n, source := some (.node node) }) ∧
          (taken → (d ≤ g.threshold ∨ s.orderFree = true) → r.loc = .arm st a → ∃ t, exec i s = .next t ∧
            ((t.stand st).arm a).state = .empty ∧ ((t.stand st).arm a).roll = none ∧
            (x.state = .active → (t.stand st).seq = .idle ∧ (t.stand st).df = none ∧ (t.stand st).runout = false ∧
              (t.stand st).late = false ∧ (t.stand st).ts = 65535) ∧
            (d ≤ g.threshold → t.roll n = none ∧
              (∀ m j, r.job = some m → s.job m = some j → ∃ k, t.job m = some k ∧
                k.stubM = min 4294967295 (j.stubM + g.length d) ∧
                k.stubG = min 4294967295 (j.stubG + g.length d * r.width * g.basis / 1000))) ∧
            (g.threshold < d → t.jobs = s.jobs ∧ t.roll n = some
              { r with state := .announced, loc := .node node, returned := true, diameter := d, mount := none, job := none,
                       order := some s.nextOrderNumber })))

/-! ## The line break machine -/

/-- Break entry (R97, R98, R100): STOP_LINE, console STOP, a web-break pin and a folder-jam pin, each only while its source is enabled,
put a line in CLEAR in BREAK and change nothing but the pin's level on a line in BREAK (that a pin that is active already changes nothing is
the model's choice, log entry 1); the entry records its cause, clears the low-speed mark, asserts STOP and raises LINE_BREAK. With no
changeover pending it counts one break to the live job, whose counting goes to BREAK, takes every stand out of ARMED and MATCHED, completes
the splice of every PASTING stand of the line, and asserts BRAKE where the live plan says so; a pending changeover takes effect: the plan
becomes live, its job LIVE, the job before it CLOSED. -/
def Obligations.BreakEntry : Prop :=
  let entered := fun (s t : State) (l : Nat) (c : Cause) =>
    (t.line l).inBreak = true ∧ (t.line l).cause = some c ∧ (t.line l).stop = true ∧ (t.line l).lowMark = false ∧
    (t.line l).pending = false ∧
    t.attn.find Cond.lineBreak.place = some (AttnEntry.raised (s.attn.find Cond.lineBreak.place) l) ∧
    ((s.line l).pending = false →
      (∀ n j, s.liveJob l = some n → s.job n = some j → (t.line l).counting = .brk ∧ ∃ k, t.job n = some k ∧
        k.breakCount = min 65535 (j.breakCount + 1)) ∧
      (∀ st ∈ s.lineStands l, (t.stand st).seq ≠ .armed ∧ (t.stand st).seq ≠ .matched) ∧
      ((s.line l).live.breakBrake = true → ∀ st ∈ s.lineStands l, (t.stand st).brake = true) ∧
      ∀ st a x y, 1 ≤ st → st ≤ 16 → (s.lineOf st = some l ∨ (s.stand st).pasteLine = some l) → (s.stand st).seq = .pasting →
        (s.stand st).active = some a → (s.stand st).armIn .ready = some a.other → ((s.stand st).arm a).roll = some x →
        ((s.stand st).arm a.other).roll = some y →
        (t.stand st).seq = .running ∧ (t.stand st).paste = false ∧ (t.stand st).drive = false ∧ (t.stand st).pasteLine = none ∧
          ((t.stand st).arm a).state = .expired ∧ ((t.stand st).arm a).roll = some x ∧
          ((t.stand st).arm a.other).state = .active ∧ ((t.stand st).arm a.other).roll = some y) ∧
    ((s.line l).pending = true → (t.line l).live = (s.line l).working ∧ (t.line l).working = (s.line l).working ∧
      ∀ n j, s.jobs.rising = true → s.liveJob l = some n → s.job n = some j → (s.line l).working.job ≠ some n →
        (∃ k, t.job n = some k ∧ k.state = .closed) ∧
        ∀ m k, (s.line l).working.job = some m → s.job m = some k → ∃ x, t.job m = some x ∧ x.state = .live ∧
          x.target = some (s.line l).working.target ∧ x.allowance = some (s.line l).working.allowance)
  (∀ (s : State) (l : Nat), s.takes (.stopLine l) = true →
    ((l < 1 ∨ 4 < l) → exec (.stopLine l) s = .next (s.fresh.replied (.stopLine l) .badArgument [])) ∧
    (1 ≤ l → l ≤ 4 → (s.line l).enables.stopLine = false →
      exec (.stopLine l) s = .next (s.fresh.replied (.stopLine l) .badState [])) ∧
    (1 ≤ l → l ≤ 4 → (s.line l).enables.stopLine = true → (s.line l).inBreak = true →
      exec (.stopLine l) s = .next (s.fresh.replied (.stopLine l) .ok [])) ∧
    (1 ≤ l → l ≤ 4 → (s.line l).enables.stopLine = true → (s.line l).inBreak = false →
      ∃ t, exec (.stopLine l) s = .next t ∧ t.answers (.stopLine l) .ok [] ∧ entered s t l .stopLine)) ∧
  (∀ (s : State) (e : Exchange) (y : Station) (more : Bool), s.hears e y →
    ((∀ l, y.role ≠ .console l) → exec (.consoleStop more) s = .next ((s.heard e more).refuse e.addr .consoleEvent .badArgument)) ∧
    ∀ l, y.role = .console l →
      ((s.line l).enables.console = false → exec (.consoleStop more) s = .next ((s.heard e more).refuse e.addr .consoleEvent .badState)) ∧
      ((s.line l).enables.console = true → (s.line l).inBreak = true →
        exec (.consoleStop more) s = .next ((s.heard e more).accept e.addr .consoleEvent)) ∧
      ((s.line l).enables.console = true → (s.line l).inBreak = false →
        ∃ t, exec (.consoleStop more) s = .next t ∧ entered s t l .console)) ∧
  (∀ (s : State) (st : Nat), s.awake = true → 1 ≤ st → st ≤ 16 →
    ((s.stand st).webBreak = true → exec (.webBreakPin st) s = .next s) ∧
    ((s.stand st).webBreak = false → (∀ l, s.lineOf st = some l → (s.line l).enables.webBreak = false ∨ (s.line l).inBreak = true) →
      exec (.webBreakPin st) s = .next { s.fresh with stands := s.stands.set st .cold { s.stand st with webBreak := true } }) ∧
    ∀ l, (s.stand st).webBreak = false → s.lineOf st = some l → (s.line l).enables.webBreak = true → (s.line l).inBreak = false →
      ∃ t, exec (.webBreakPin st) s = .next t ∧ entered s t l (.webBreak st) ∧ ((s.line l).pending = false → (t.stand st).webBreak = true)) ∧
  ∀ (s : State) (l : Nat), s.awake = true → 1 ≤ l → l ≤ 4 →
    ((s.line l).jam = true → exec (.folderJam l) s = .next s) ∧
    ((s.line l).jam = false → ((s.line l).enables.jam = false ∨ (s.line l).inBreak = true) →
      exec (.folderJam l) s = .next { s.fresh with lines := s.lines.set l .cold { s.line l with jam := true } }) ∧
    ((s.line l).jam = false → (s.line l).enables.jam = true → (s.line l).inBreak = false →
      ∃ t, exec (.folderJam l) s = .next t ∧ entered s t l .folderJam ∧ ((s.line l).pending = false → (t.line l).jam = true))

/-- Leaving BREAK (R99, R83): RESTART_LINE and console RESTART are refused unless the line is in BREAK with no enabled pin source active
and, where the runout source is enabled, no stand run out; leaving clears the state and its cause, drops STOP, makes the counting
MAKEREADY where there is a live job, and the stands with a READY arm and no ACTIVE one start. A pin that goes inactive changes its level
alone. (That the cause goes too is log entry 13, and that a pin gone inactive does no more log entry 9.) -/
def Obligations.BreakExit : Prop :=
  let may := fun (s : State) (l : Nat) => (s.line l).inBreak = true ∧
    ¬ ((s.line l).enables.webBreak = true ∧ ∃ st ∈ s.lineStands l, (s.stand st).webBreak = true) ∧
    ¬ ((s.line l).enables.jam = true ∧ (s.line l).jam = true) ∧
    ¬ ((s.line l).enables.runout = true ∧ ∃ st ∈ s.lineStands l, (s.stand st).runout = true)
  let left := fun (s t : State) (l : Nat) =>
    (t.line l).inBreak = false ∧ (t.line l).cause = none ∧ (t.line l).stop = false ∧
    (s.liveJob l ≠ none → (t.line l).counting = .makeready) ∧ (s.liveJob l = none → (t.line l).counting = (s.line l).counting) ∧
    (∀ m, m ≠ l → t.line m = s.line m) ∧ t.jobs = s.jobs ∧
    ∀ st b n j, s.liveJob l = some j → st ∈ s.lineStands l → (s.stand st).active = none → (s.stand st).armIn .ready = some b →
      ((s.stand st).arm b).roll = some n → ((t.stand st).arm b).state = .active ∧ ((t.stand st).arm b).roll = some n
  (∀ (s : State) (l : Nat), s.takes (.restartLine l) = true →
    ((l < 1 ∨ 4 < l) → exec (.restartLine l) s = .next (s.fresh.replied (.restartLine l) .badArgument [])) ∧
    (1 ≤ l → l ≤ 4 → ¬ may s l → exec (.restartLine l) s = .next (s.fresh.replied (.restartLine l) .badState [])) ∧
    (1 ≤ l → l ≤ 4 → may s l → ∃ t, exec (.restartLine l) s = .next t ∧ t.answers (.restartLine l) .ok [] ∧ left s t l)) ∧
  (∀ (s : State) (e : Exchange) (y : Station) (more : Bool), s.hears e y →
    ((∀ l, y.role ≠ .console l) → exec (.consoleRestart more) s = .next ((s.heard e more).refuse e.addr .consoleEvent .badArgument)) ∧
    ∀ l, y.role = .console l →
      (¬ may s l → exec (.consoleRestart more) s = .next ((s.heard e more).refuse e.addr .consoleEvent .badState)) ∧
      (may s l → ∃ t, exec (.consoleRestart more) s = .next t ∧ left s t l)) ∧
  (∀ (s : State) (st : Nat), s.awake = true → 1 ≤ st → st ≤ 16 → exec (.webBreakPinInactive st) s =
    .next { s.fresh with stands := s.stands.set st .cold { s.stand st with webBreak := false } }) ∧
  ∀ (s : State) (l : Nat), s.awake = true → 1 ≤ l → l ≤ 4 → exec (.folderJamInactive l) s =
    .next { s.fresh with lines := s.lines.set l .cold { s.line l with jam := false } }

/-! ## Transport orders -/

/-- ORDER_MOVE (R136, R121, R122): the checks in their order; a MOVE order is created PENDING of class PLANT with the next number and
sequence, its destination named; a roll at a node is linked at once, one in a bay becomes the order's named roll; the answer is the order
number, and an assignment pass follows. -/
def Obligations.OrderMoveCreatesTheOrder : Prop :=
  ∀ (s : State) (r : RollRef) (d : MoveDest), s.takes (.orderMove r d) = true →
    let i := Instr.orderMove r d
    let fits := match d with
      | .bay b => 1 ≤ b ∧ b ≤ 120
      | .node y => 1 ≤ y ∧ y ≤ 48 ∧ ∀ z, s.node y = some z → z.role ≠ .dock ∧ z.role ≠ .stub
    let named := match d with
      | .bay b => Dest.bay b
      | .node y => Dest.node y
    let made := { Order.pendingOf .move .plant .plant with
      place := (lowestFree 40 (s.orders.map fun e : Nat × Order => e.2.place)).getD 1, seq := s.orderSeq + 1, namedDest := some named }
    let m := s.nextOrderNumber
    let base := { s.fresh with orderSeq := s.orderSeq + 1, orderPointer := m % 255 + 1, passDue := true }
    (r.ok = false ∨ ¬ fits → exec i s = .next (s.fresh.replied i .badArgument [])) ∧
    (r.ok = true → fits → s.resolve r = none → exec i s = .next (s.fresh.replied i .notFound [])) ∧
    ∀ (n : Nat) (x : Roll), r.ok = true → fits → s.resolve r = some (n, x) →
      let here := match d with
        | .bay b => ∃ l, x.loc = .bay b l
        | .node y => x.loc = .node y
      let movable := (x.state = .stored ∨ x.state = .announced) ∧ x.hold = none ∧ x.order = none ∧ ∀ b, d = .bay b → 1 ≤ (s.bay b).limit
      (here → exec i s = .next (s.fresh.replied i .badArgument [])) ∧
      (¬ here → ¬ movable → exec i s = .next (s.fresh.replied i .badState [])) ∧
      (¬ here → movable → s.orderFree = false → exec i s = .next (s.fresh.replied i .full [])) ∧
      (¬ here → movable → s.orderFree = true →
        (∀ b l, x.loc = .bay b l → exec i s = .next ({ base with
          orders := s.orders.put m (some { made with source := some (.bay b), named := some (n, x.tag) }) }.replied i .ok
            (beBytes 1 m)).finish) ∧
        ∀ y, x.loc = .node y → exec i s = .next ({ base with
          orders := s.orders.put m (some { made with source := some (.node y), roll := some n }),
          rolls := s.rolls.put n (some { x with order := some m }) }.replied i .ok (beBytes 1 m)).finish)

/-- CANCEL_ORDER (R133, R134, R135): the checks in their order; a PENDING order is freed; an ASSIGNED or LOADING one takes the abort mark,
loses its roll and a destination bay and keeps its state and vehicle, which is sent ABORT; a CARRYING one becomes a RETURN that keeps its
roll, vehicle and sequence. -/
def Obligations.CancelOrderByState : Prop :=
  ∀ (s : State) (n : Nat), s.takes (.cancelOrder n) = true →
    let i := Instr.cancelOrder n
    ((n < 1 ∨ 255 < n) → exec i s = .next (s.fresh.replied i .badArgument [])) ∧
    (1 ≤ n → n ≤ 255 → s.order n = none → exec i s = .next (s.fresh.replied i .notFound [])) ∧
    ∀ o, 1 ≤ n → n ≤ 255 → s.order n = some o →
      ((o.abort = true ∨ o.state = .unloading ∨ o.state = .failed ∨
          (o.kind = .ret ∧ (o.state = .assigned ∨ o.state = .loading ∨ o.state = .carrying))) →
        exec i s = .next (s.fresh.replied i .badState [])) ∧
      (o.abort = false → o.state = .pending → (o.kind = .ret → ∃ r x y, o.roll = some r ∧ s.roll r = some x ∧ x.loc = .node y) →
        ∃ t, exec i s = .next t ∧ t.answers i .ok [] ∧ (∀ q, t.order n = some q → q.kind = .callOff ∧ q.seq = s.orderSeq + 1) ∧
          (s.halted = true → ∀ r x, o.roll = some r → s.roll r = some x →
            t.roll r = some (if x.state = .reserved then { x with state := .stored, order := none } else { x with order := none }))) ∧
      (s.orders.rising = true → o.abort = false → (o.state = .assigned ∨ o.state = .loading) → o.kind ≠ .ret →
        ∃ t q, exec i s = .next t ∧ t.answers i .ok [] ∧ t.order n = some q ∧ q.abort = true ∧ q.state = o.state ∧
          q.vehicle = o.vehicle ∧ q.seq = o.seq ∧ (∀ r x, o.roll = some r → s.roll r = some x → q.roll = none) ∧
          (∀ b, o.dest = some (.bay b) → q.dest = none) ∧
          (s.halted = true → ∀ v a x, o.vehicle = some v → (s.vehicle v).inService = true → s.vehicleStation v = some a →
            s.station a = some x → t.station a = some (x.placed true ⟨.dsp, .abort n⟩))) ∧
      (s.orders.rising = true → o.abort = false → o.state = .carrying → o.kind ≠ .ret →
        ∃ t q, exec i s = .next t ∧ t.answers i .ok [] ∧ t.order n = some q ∧ q.kind = .ret ∧ q.cls = .store ∧ q.state = .carrying ∧
          q.deadline = none ∧ q.grade = none ∧ q.width = none ∧ q.roll = o.roll ∧ q.vehicle = o.vehicle ∧ q.seq = o.seq)

/-- RETIRE_ORDER (R138): only a FAILED order is freed, and a roll it still links is unlinked and keeps its hold. SECOND_TICK (R126): each
CALL_OFF within the urgent margin of its deadline becomes URGENT, and no other order's class changes. The call-off condition of a stand
(R92): with a loading node and a free order record a CALL_OFF for the position's grade and width is created for the EMPTY unlinked arm beside
an ACTIVE one when T_s is within the call-off lead, and, undated, for arm A when both arms are EMPTY and unlinked; else nothing happens. Its
deadline is now plus T_s minus the preparation time and not before now (R125); a recomputation at a stand with an ACTIVE arm gives each of
its CALL_OFFs that deadline, but one UNLOADING, FAILED or with the abort mark, and makes one within the urgent margin URGENT. -/
def Obligations.RetireOrderAndSecondTick : Prop :=
  (∀ (s : State) (n : Nat), s.takes (.retireOrder n) = true →
    let i := Instr.retireOrder n
    ((n < 1 ∨ 255 < n) → exec i s = .next (s.fresh.replied i .badArgument [])) ∧
    (1 ≤ n → n ≤ 255 → s.order n = none → exec i s = .next (s.fresh.replied i .notFound [])) ∧
    ∀ o, 1 ≤ n → n ≤ 255 → s.order n = some o →
      (o.state ≠ .failed → exec i s = .next (s.fresh.replied i .badState [])) ∧
      (o.state = .failed → o.roll = none →
        exec i s = .next ({ s.fresh with orders := s.orders.put n none }.replied i .ok [])) ∧
      ∀ r x, o.state = .failed → o.roll = some r → s.roll r = some x → x.state ≠ .reserved →
        exec i s = .next ({ s.fresh with orders := s.orders.put n none, rolls := s.rolls.put r (some { x with order := none }) }.replied
          i .ok [])) ∧
  (∀ s : State, s.awake = true → ∃ t, exec .secondTick s = .next t ∧ ∀ n o, s.order n = some o → ∃ q, t.order n = some q ∧
    let due := o.kind = .callOff ∧ o.abort = false ∧ o.state ≠ .failed ∧ ∃ d, o.deadline = some d ∧ d ≤ s.timeBase / 1000 + s.urgentMargin
    (due → q.cls = .urgent) ∧ (¬ due → q.cls = o.cls)) ∧
  (∀ (s : State) (st : Nat),
    let x := s.stand st
    let now := s.timeBase / 1000
    let created := fun (b : Arm) (d : Option Nat) (p : Position) =>
      let o := Order.pendingOf .callOff (.arm st b) (if ∃ e, d = some e ∧ e ≤ now + s.urgentMargin then .urgent else .callOff)
      { s with
        orders := s.orders.put s.nextOrderNumber (some { o with
          place := (lowestFree 40 (s.orders.map fun e : Nat × Order => e.2.place)).getD 1, seq := s.orderSeq + 1
          dest := some (.arm st b), grade := some p.grade, width := some p.width, deadline := d })
        orderSeq := s.orderSeq + 1, orderPointer := s.nextOrderNumber % 255 + 1, passDue := true
        stands := s.stands.set st .cold (x.withArm b { x.arm b with callOff := some s.nextOrderNumber }) }
    let beside := fun (a : Arm) (l : Nat) => x.active = some a ∧ (x.arm a.other).state = .empty ∧ (x.arm a.other).callOff = none ∧
      x.ts ≤ (s.line l).live.lead
    let bothEmpty := x.armA.state = .empty ∧ x.armB.state = .empty ∧ x.armA.callOff = none ∧ x.armB.callOff = none
    (s.positionOf st = none ∨ x.loading = none ∨ s.orderFree = false → s.evalCallOff st = s) ∧
    ∀ l p, s.positionOf st = some (l, p) → x.loading ≠ none → s.orderFree = true →
      (∀ a, beside a l → s.evalCallOff st = created a.other (some (max now (now + x.ts - (s.line l).live.prep))) p) ∧
      (bothEmpty → s.evalCallOff st = created .A none p) ∧
      ((∀ a, ¬ beside a l) → ¬ bothEmpty → s.evalCallOff st = s)) ∧
  ∀ (s : State) (st : Nat),
    (s.lineOf st = none ∨ (s.stand st).active = none → s.recomputeDeadlines st = s) ∧
    ∀ l a, s.lineOf st = some l → (s.stand st).active = some a → s.orders.rising = true → ∀ n o, s.order n = some o →
      let now := s.timeBase / 1000
      let d := max now (now + (s.stand st).ts - (s.line l).live.prep)
      let served := o.kind = .callOff ∧ (∃ b, o.requester = .arm st b) ∧ o.state ≠ .failed ∧ o.state ≠ .unloading ∧ o.abort = false
      (served → (s.recomputeDeadlines st).order n =
        some { o with deadline := some d, cls := if d ≤ now + s.urgentMargin then .urgent else o.cls }) ∧
      (¬ served → (s.recomputeDeadlines st).order n = some o)

/-- The assignment pass (R124, R128, R129): the dispatch queue holds the PENDING orders without the abort mark, by class, then by deadline
with the undated last, then by sequence; the vehicle paired is an eligible one of least travel time and then of lowest number; an order
with a roll, a destination, a route between them and such a vehicle is ASSIGNED to it, its flags cleared and a selected roll RESERVED. -/
def Obligations.AssignmentPass : Prop :=
  ∀ s : State,
    ((s.orders.rising = true → ∀ n, n ∈ s.queue ↔ ∃ o, s.order n = some o ∧ o.state = .pending ∧ o.abort = false) ∧
      (s.orders.rising = true → s.queue.Pairwise fun m n => ∀ o p, s.order m = some o → s.order n = some p →
        let place := fun c => [Sys2Proof.Machine.Class.urgent, .callOff, .plant, .store].idxOf c
        let sooner := ∃ a, o.deadline = some a ∧ ∀ b, p.deadline = some b → a < b
        place o.cls < place p.cls ∨ (o.cls = p.cls ∧ (sooner ∨ (o.deadline = p.deadline ∧ o.seq ≤ p.seq))))) ∧
    (∀ pickup v, s.eligible pickup v = true ↔ (s.vehicle v).state = .idle ∧ (s.vehicle v).order = none ∧ (s.vehicle v).load = none ∧
      ∃ a, (s.vehicle v).pos = some (.node a) ∧ (a = pickup ∨ ∃ n, s.routeBetween a pickup = some n)) ∧
    (∀ pickup v, s.nearest pickup = some v → 1 ≤ v ∧ v ≤ 12 ∧ s.eligible pickup v = true ∧
      ∀ w, 1 ≤ w → w ≤ 12 → s.eligible pickup w = true → s.travel pickup v < s.travel pickup w ∨
        (s.travel pickup v = s.travel pickup w ∧ v ≤ w)) ∧
    (∀ pickup, s.nearest pickup = none → ∀ w, 1 ≤ w → w ≤ 12 → s.eligible pickup w = false) ∧
    ∀ n o r d x y v, s.order n = some o → s.namedGone o = false → s.rollToFetch o = some r → s.choice o = some d →
      s.pickupFor o r = some x → s.destNode d = some y → (x = y ∨ ∃ k, s.routeBetween x y = some k) → s.nearest x = some v →
      ∃ q, (s.passOne n).order n = some q ∧ q.state = .assigned ∧ q.vehicle = some v ∧ q.dest = some d ∧ q.roll = some r ∧
        q.noStock = false ∧ q.noBay = false ∧ q.noRoute = false ∧ q.seq = o.seq ∧
        ((s.passOne n).vehicle v).state = .toPickup ∧ ((s.passOne n).vehicle v).order = some n ∧
        (∀ z, o.roll = none → s.roll r = some z → (s.passOne n).roll r = some { z with state := .reserved, order := some n, hold := none })

/-! ## Vehicles in service and the track -/

/-- SET_SERVICE (R145, R146): SETTINGS writes three values in range. IN puts a vehicle that is out of service and has a station on a free
segment, while the vehicles in service stay fewer than the LOOP segments: without an order it is IDLE and a pass follows, with a kept
order it goes TO_DROP from the node. OUT releases what the vehicle holds, returns an ASSIGNED or LOADING order to PENDING with its roll,
keeps a CARRYING or UNLOADING one and leaves the vehicle's load, last-report time and nothing else. -/
def Obligations.SetServiceMovesVehicles : Prop :=
  (∀ (s : State) (p t m : Nat), s.takes (.setServiceSettings p t m) = true → exec (.setServiceSettings p t m) s = .next (
    if 10 ≤ p ∧ p ≤ 250 ∧ 20 ≤ t ∧ t ≤ 250 ∧ 30 ≤ m ∧ m ≤ 600 then
      { s.fresh with progressTimeout := p, transferTimeout := t, urgentMargin := m }.replied (.setServiceSettings p t m) .ok []
    else s.fresh.replied (.setServiceSettings p t m) .badArgument [])) ∧
  (∀ (s : State) (v x : Nat), s.takes (.setServiceIn v x) = true →
    let i := Instr.setServiceIn v x
    ((v < 1 ∨ 12 < v ∨ x < 1 ∨ 48 < x ∨ s.node x = none) → exec i s = .next (s.fresh.replied i .badArgument [])) ∧
    ∀ y, 1 ≤ v → v ≤ 12 → 1 ≤ x → x ≤ 48 → s.node x = some y →
      let idle := (s.vehicle v).state = .outOfService ∧ s.vehicleStation v ≠ none ∧ (s.segment y.seg).holder = none
      let onTrack := fun (st : VState) (leg : Option Leg) => { s.vehicle v with
        state := st, pos := some (.node x), held := [y.seg], docked := 0, leg := leg, nextRoute := none }
      let held := s.segments.set y.seg .cold { s.segment y.seg with holder := some v }
      (¬ idle → exec i s = .next (s.fresh.replied i .badState [])) ∧
      (idle → s.loopCount ≤ s.inServiceCount + 1 → exec i s = .next (s.fresh.replied i .limit [])) ∧
      (idle → s.inServiceCount + 1 < s.loopCount → (s.vehicle v).order = none →
        exec i s = .next ({ s.fresh with segments := held, passDue := true, vehicles := s.vehicles.set v .cold { s.vehicle v with
          state := .idle, pos := some (.node x), held := [y.seg], docked := 0 } }.replied i .ok []).finish) ∧
      ∀ n o, idle → s.inServiceCount + 1 < s.loopCount → (s.vehicle v).order = some n → s.order n = some o →
        ∃ (t : State) (q : Order), exec i s = .next t ∧ t.answers i .ok [] ∧ t.segments = held ∧ t.order n = some q ∧
          q.state = (if o.state = .unloading then .carrying else o.state) ∧ (s.drop o = none → q.noBay = true) ∧
          (s.drop o = some x → q.noRoute = false ∧ { t.vehicle v with progress := (s.vehicle v).progress } = onTrack .toDrop none) ∧
          ∀ d, s.drop o = some d → d ≠ x →
            (s.routeBetween x d = none → q.noRoute = true) ∧
            ∀ k, s.routeBetween x d = some k → q.noRoute = false ∧
              { t.vehicle v with progress := (s.vehicle v).progress } = onTrack .toDrop (some ⟨k, 0⟩)) ∧
  ∀ (s : State) (v : Nat), s.takes (.setServiceOut v) = true →
    let i := Instr.setServiceOut v
    let onLoop := ∃ g ∈ (s.vehicle v).held, ∃ next, (s.segment g).kind = some (.loop next)
    ((v < 1 ∨ 12 < v) → exec i s = .next (s.fresh.replied i .badArgument [])) ∧
    (1 ≤ v → v ≤ 12 → ((s.vehicle v).state = .outOfService ∨ (onLoop ∧ (s.vehicle v).state ≠ .stalled)) →
      exec i s = .next (s.fresh.replied i .badState [])) ∧
    (1 ≤ v → v ≤ 12 → (s.vehicle v).state ≠ .outOfService → ¬ (onLoop ∧ (s.vehicle v).state ≠ .stalled) →
      ∃ u : State, exec i s = .next (u.replied i .ok []).finish ∧
        (u.vehicle v).state = .outOfService ∧ (u.vehicle v).pos = none ∧ (u.vehicle v).leg = none ∧ (u.vehicle v).nextRoute = none ∧
        (u.vehicle v).waiting = none ∧ (u.vehicle v).prev = none ∧ (u.vehicle v).deck = none ∧ (u.vehicle v).docked = 0 ∧
        (u.vehicle v).progress = .stopped ∧ (u.vehicle v).transfer = .stopped ∧ (u.vehicle v).load = (s.vehicle v).load ∧
        (u.vehicle v).lastReport = (s.vehicle v).lastReport ∧
        (∀ g, (s.vehicle v).held = [g] → v ∉ (s.segment g).waiters →
          (u.vehicle v).held = [] ∧ (u.segment g).holder = (s.segment g).waiters.head? ∧
          ∀ a, s.stations.rising = true → s.vehicleStation v = some a → u.station a = s.station a) ∧
        ∀ n o, (s.vehicle v).order = some n → s.order n = some o →
          (o.abort = false → (o.state = .assigned ∨ o.state = .loading) → ∃ q, u.order n = some q ∧ q.state = .pending ∧
            q.vehicle = none ∧ q.roll = o.roll ∧ u.rolls = s.rolls ∧ u.passDue = true) ∧
          (o.abort = false → (o.state = .carrying ∨ o.state = .unloading) → u.order n = some o ∧ (u.vehicle v).order = some n))

/-- SET_SEGMENT, SET_NODE and SET_ROUTE (R141, R142): arguments, duplicate, in use and limit are checked in this order; an accepted
request writes or clears its record, and a route leads to an assignment pass. That a SIDING may not name itself is log entry 7. -/
def Obligations.TrackRecordsAreWritten : Prop :=
  (∀ (s : State) (n : Nat) (k : Option SegKind), s.takes (.setSegment n k) = true →
    let i := Instr.setSegment n k
    let loop := fun g => 1 ≤ g ∧ g ≤ 64 ∧ g ≠ n ∧ ∃ next, (s.segment g).kind = some (.loop next)
    let fields := 1 ≤ n ∧ n ≤ 64 ∧ (∀ next, k = some (.loop next) → 1 ≤ next ∧ next ≤ 64 ∧ next ≠ n) ∧
      ∀ branch next, k = some (.siding branch next) → loop branch ∧ loop next
    let used := ((s.segment n).kind ≠ k ∧ s.segmentInUse n = true) ∨
      ((s.segment n).kind ≠ none ∧ sameKind (s.segment n).kind k = false ∧ s.segmentNamed n = true)
    let needed := (∃ next, (s.segment n).kind = some (.loop next)) ∧ (∀ next, k ≠ some (.loop next)) ∧ 0 < s.inServiceCount ∧
      s.loopCount - 1 ≤ s.inServiceCount
    (¬ fields → exec i s = .next (s.fresh.replied i .badArgument [])) ∧
    (fields → used → exec i s = .next (s.fresh.replied i .badState [])) ∧
    (fields → ¬ used → needed → exec i s = .next (s.fresh.replied i .limit [])) ∧
    (fields → ¬ used → ¬ needed → exec i s =
      .next ({ s.fresh with segments := s.segments.set n .cold { s.segment n with kind := k } }.replied i .ok []))) ∧
  (∀ (s : State) (n : Nat) (c : Option (Nat × Option NodeRole)), s.takes (.setNode n c) = true →
    let i := Instr.setNode n c
    let suits := fun g r => 1 ≤ g ∧ g ≤ 64 ∧ (s.segment g).kind ≠ none ∧ (r ≠ NodeRole.park → ∀ next, (s.segment g).kind ≠ some (.loop next))
    ((n < 1 ∨ 48 < n ∨ (∃ g, c = some (g, none)) ∨ ∃ g r, c = some (g, some r) ∧ ¬ suits g r) →
      exec i s = .next (s.fresh.replied i .badArgument [])) ∧
    (1 ≤ n → n ≤ 48 → ∀ x, (c = none ∧ x = none ∨ ∃ g r, c = some (g, some r) ∧ suits g r ∧ x = some ⟨g, r⟩) → exec i s = .next (
      if s.node n ≠ x ∧ s.nodeInUse n = true then s.fresh.replied i .badState []
      else { s.fresh with nodes := s.nodes.put n x }.replied i .ok []))) ∧
  ∀ (s : State) (n : Nat) (c : Option Route), s.takes (.setRoute n c) = true →
    let i := Instr.setRoute n c
    let follows := fun a b => (s.segment a).kind = some (.loop b) ∨ (∃ next, (s.segment a).kind = some (.loop next) ∧
      ∃ z, (s.segment b).kind = some (.siding a z)) ∨ ∃ z, (s.segment a).kind = some (.siding z b)
    let fits := fun r : Route => 1 ≤ r.src ∧ r.src ≤ 48 ∧ 1 ≤ r.dst ∧ r.dst ≤ 48 ∧ r.src ≠ r.dst ∧ 1 ≤ r.segs.length ∧ r.segs.length ≤ 12 ∧
      (∀ g ∈ r.segs, 1 ≤ g ∧ g ≤ 64) ∧ 1 ≤ r.time ∧ r.time ≤ 1200 ∧ List.IsChain follows r.segs ∧
      r.segs.head? = (s.node r.src).map Node.seg ∧ r.segs.getLast? = (s.node r.dst).map Node.seg
    ((n < 1 ∨ 160 < n ∨ ∃ r, c = some r ∧ ¬ fits r) → exec i s = .next (s.fresh.replied i .badArgument [])) ∧
    (1 ≤ n → n ≤ 160 → (∀ r, c = some r → fits r) →
      ((∃ r, c = some r ∧ s.routeDouble n r = true) → exec i s = .next (s.fresh.replied i .duplicate [])) ∧
      ((∀ r, c = some r → s.routeDouble n r = false) →
        (s.route n ≠ c → s.routeInUse n = true → exec i s = .next (s.fresh.replied i .badState [])) ∧
        (s.route n = c ∨ s.routeInUse n = false →
          exec i s = .next ({ s.fresh with routes := s.routes.put n c, passDue := true }.replied i .ok []).finish)))

/-- HALT_TRANSPORT and RESUME_TRANSPORT (R154): a halt sets the mark, has ALL_HALT broadcast and suspends the running timers with their
time left; a resume of a halted part clears the mark, has RESUME broadcast, lets the suspended timers run on and leads to a pass. -/
def Obligations.HaltAndResumeTransport : Prop :=
  let timers := fun (s u : State) (f : Timer → Timer) => ∀ v, u.vehicle v = if 1 ≤ v ∧ v ≤ 12 then
    { s.vehicle v with progress := f (s.vehicle v).progress, transfer := f (s.vehicle v).transfer } else s.vehicle v
  let suspend := fun t : Timer => match t with
    | .running l => .suspended l
    | x => x
  let resume := fun t : Timer => match t with
    | .suspended l => .running l
    | x => x
  (∀ s : State, s.takes .haltTransport = true → ∃ t : State, exec .haltTransport s = .next t ∧ t.answers .haltTransport .ok [] ∧
    t.halted = true ∧ t.pendingBroadcast = some .allHalt ∧ timers s t suspend ∧ t.orders = s.orders ∧ t.stations = s.stations) ∧
  ∀ s : State, s.takes .resumeTransport = true →
    (s.halted = false → exec .resumeTransport s = .next (s.fresh.replied .resumeTransport .badState [])) ∧
    (s.halted = true → ∃ u : State, exec .resumeTransport s = .next (u.replied .resumeTransport .ok []).finish ∧ u.passDue = true ∧
      u.halted = false ∧ u.pendingBroadcast = some .resume ∧ timers s u resume ∧ u.orders = s.orders ∧ u.stations = s.stations)

/-! ## Reports of vehicles -/

/-- CLAIM (R143) of a vehicle in service, its order number agreeing: without a route, or of a segment that is neither the last held one
nor the one that follows it in the route, it is answered REFUSED and nothing else changes but the docked count (R149); a claim that passes
is answered and taken as the table of R143 says. The reason BAD_STATE of the REFUSED is the model's choice (notes/assumptions/7.md). -/
def Obligations.ClaimsFollowTheTable : Prop :=
  ∀ (s : State) (e : Exchange) (x : Station) (n g v : Nat) (more : Bool), s.hears e x → x.role = .vehicle v →
    (s.vehicle v).state ≠ .outOfService → n = (s.workingOrder v).getD 0 →
    let i := Instr.claim n g more
    let y := s.vehicle v
    let h := (s.heard e more).modVehicle v ({ · with docked := 0 })
    (y.leg = none → exec i s = .next (h.send e.addr (.refused 3 .badState))) ∧
    ∀ l r a, y.leg = some l → s.route l.route = some r → y.held.getLast? = some a →
      let follows := g = a ∨ ∃ front back, r.segs.drop l.progress = front ++ a :: g :: back ∧ a ∉ front
      (¬ follows → exec i s = .next (h.send e.addr (.refused 3 .badState))) ∧
      (follows → (s.segment g).holder = some v → exec i s = .next (h.sendVehicle v (.grant g))) ∧
      (follows → (s.segment g).holder ≠ some v → y.held.length = 2 → exec i s = .next (h.sendVehicle v (.wait g))) ∧
      (follows → (s.segment g).holder = none → y.held.length ≠ 2 → ∃ t : State, exec i s = .next t ∧ (t.segment g).holder = some v ∧
        (t.vehicle v).held = y.held ++ [g] ∧ (t.vehicle v).waiting = none ∧ t.stations = (h.sendVehicle v (.grant g)).stations) ∧
      ∀ w, follows → (s.segment g).holder = some w → w ≠ v → y.held.length ≠ 2 →
        (v ∈ (s.segment g).waiters → exec i s = .next (h.sendVehicle v (.wait g))) ∧
        (v ∉ (s.segment g).waiters → ∃ t : State, exec i s = .next t ∧ (t.segment g).holder = some w ∧
          (t.segment g).waiters = (s.segment g).waiters ++ [v] ∧ (t.vehicle v).waiting = some g ∧ (t.vehicle v).held = y.held ∧
          (t.vehicle v).progress = .stopped ∧ t.stations = (h.sendVehicle v (.wait g)).stations)

/-- POSITION (R144, R151, R153) of a vehicle in service, its order number agreeing: an inconsistent one stalls the vehicle with cause
POSITION and is REFUSED (its reason the model's choice, notes/assumptions/7.md); a consistent one sets the position; PASSED at the second
of two held segments releases the first, which its waiting list's head then holds; a route is complete at its to node; a position-changing
report returns a vehicle stalled on its way and restarts the progress timer. -/
def Obligations.PositionMovesTheVehicle : Prop :=
  ∀ (s : State) (e : Exchange) (x : Station) (n v : Nat) (p : Spot) (passed more : Bool), s.hears e x → x.role = .vehicle v →
    (s.vehicle v).state ≠ .outOfService → n = (s.workingOrder v).getD 0 →
    let i := Instr.position n p passed more
    let y := s.vehicle v
    let seg := match p with
      | .segment g => some g
      | .node k => (s.node k).map Node.seg
    let consistent := ∃ g ∈ y.held, seg = some g
    let changing := passed = true ∨ y.pos ≠ some p
    let released := fun a b => passed = true ∧ y.held = [a, b] ∧ seg = some b
    (¬ consistent → ∃ u : State, exec i s = .next (u.send e.addr (.refused 2 .badState)).finish ∧ (u.vehicle v).state = .stalled ∧
      (y.state ≠ .stalled → (u.vehicle v).prev = some y.state ∧ (u.vehicle v).cause = some .position ∧ (u.vehicle v).progress = .stopped ∧
        (u.vehicle v).transfer = .stopped ∧ u.attn = (s.raise .vehicleStalled v).attn) ∧
      (y.state = .stalled → (u.vehicle v).prev = y.prev ∧ (u.vehicle v).cause = y.cause ∧ u.attn = s.attn)) ∧
    (consistent → ∃ t : State, exec i s = .next t ∧ (t.vehicle v).pos = some p ∧ (t.vehicle v).docked = 0 ∧ t.orders = s.orders ∧
      ((∀ a b, ¬ released a b) → (t.vehicle v).held = y.held ∧ t.segments = s.segments) ∧
      (∀ a b, released a b → a ≠ b → v ∉ (s.segment a).waiters → (t.vehicle v).held = [b] ∧
        t.segment a = { s.segment a with holder := (s.segment a).waiters.head?, waiters := (s.segment a).waiters.tail } ∧
        ∀ w, (s.segment a).waiters.head? = some w → (t.vehicle w).held = (s.vehicle w).held ++ [a] ∧ (t.vehicle w).waiting = none) ∧
      (∀ l r, y.leg = some l → s.route l.route = some r →
        (p = .node r.dst → (t.vehicle v).leg = y.nextRoute.map (⟨·, 0⟩) ∧ (t.vehicle v).nextRoute = none) ∧
        (p ≠ .node r.dst → (t.vehicle v).leg.map Leg.route = some l.route ∧ (t.vehicle v).nextRoute = y.nextRoute)) ∧
      (t.vehicle v).state = (if changing ∧ y.state = .stalled ∧ y.prev = some .toPickup then .toPickup
        else if changing ∧ y.state = .stalled ∧ y.prev = some .toDrop then .toDrop else y.state) ∧
      (changing → (t.vehicle v).progress = if t.progressRuns (t.vehicle v) then s.started s.progressTimeout else .stopped))

/-- DOCKED (R149, R39, R153) of a vehicle in service, its order number agreeing: it writes the deck; away from its pickup or drop nothing
else changes; the first one there counts, a later one asks for the transfer, which is not given while transport is halted or the bay or
node does not admit it; given, the vehicle transfers, the bay is marked, the timers change over and TRANSFER is sent. One of a vehicle
stalled in a transfer returns it. -/
def Obligations.DockedAsksForTheTransfer : Prop :=
  ∀ (s : State) (e : Exchange) (x : Station) (n v : Nat) (d : Deck) (more : Bool), s.hears e x → x.role = .vehicle v →
    (s.vehicle v).state ≠ .outOfService → n = (s.workingOrder v).getD 0 →
    let i := Instr.docked n d more
    let y := s.vehicle v
    let h := (s.heard e more).modVehicle v ({ · with deck := some d })
    let clear := fun b => (s.bay b).mark = none ∧ (s.bay b).hold ≠ some .discrepancy
    let atPickup := fun m o => y.order = some m ∧ s.order m = some o ∧ y.state = .toPickup ∧ ∃ k, y.pos = some (.node k) ∧ s.pickup o = some k
    let atDrop := fun m o => y.order = some m ∧ s.order m = some o ∧ y.state = .toDrop ∧ ∃ k, y.pos = some (.node k) ∧ s.drop o = some k
    let lets := fun (m : Nat) (o : Order) => ∃ r z, o.roll = some r ∧ s.roll r = some z ∧ z.order = some m ∧
      ((∃ b, o.source = some (.bay b) ∧ (s.bay b).stack.getLast? = some r ∧ z.state = .reserved ∧ clear b) ∨
        ∃ k, o.source = some (.node k) ∧ z.state = .announced ∧ z.loc = .node k)
    let takes := fun (o : Order) => ∀ b, o.dest = some (.bay b) → (s.bay b).stack.length < (s.bay b).limit ∧ clear b
    let given := fun (t : State) (m : Nat) => (t.vehicle v).docked = 0 ∧ (t.vehicle v).progress = .stopped ∧
      (t.vehicle v).transfer = .running (s.transferTimeout * 1000000) ∧ t.stations = (h.sendVehicle v (.transfer m)).stations
    (y.state ≠ .stalled → (∀ m o, ¬ atPickup m o ∧ ¬ atDrop m o) → exec i s = .next h) ∧
    (∀ m o, atPickup m o ∨ atDrop m o → y.docked = 0 → exec i s = .next (h.modVehicle v ({ · with docked := 1 }))) ∧
    (∀ m o, atPickup m o → y.docked ≠ 0 → (s.halted = true ∨ ¬ lets m o) → exec i s = .next h) ∧
    (∀ m o, atDrop m o → y.docked ≠ 0 → (s.halted = true ∨ ¬ takes o) → exec i s = .next h) ∧
    (∀ m o, atPickup m o → y.docked ≠ 0 → s.halted = false → lets m o → ∃ t : State, exec i s = .next t ∧ given t m ∧
      (t.vehicle v).state = .loading ∧ t.order m = some { o with state := .loading } ∧
      ∀ b, o.source = some (.bay b) → t.bay b = { s.bay b with mark := some v }) ∧
    (∀ m o, atDrop m o → y.docked ≠ 0 → s.halted = false → takes o → ∃ t : State, exec i s = .next t ∧ given t m ∧
      (t.vehicle v).state = .unloading ∧ t.order m = some { o with state := .unloading } ∧
      ∀ b, o.dest = some (.bay b) → t.bay b = { s.bay b with mark := some v }) ∧
    ∀ m o st, y.state = .stalled → y.prev = some st → (st = .loading ∨ st = .unloading) → y.order = some m → s.order m = some o →
      ∃ t : State, exec i s = .next t ∧ (t.vehicle v).state = st ∧ (t.vehicle v).prev = none ∧ (t.vehicle v).cause = none ∧
        (t.vehicle v).transfer = s.started s.transferTimeout ∧ t.stations = h.stations ∧
        (st = .loading → ∀ b, o.source = some (.bay b) → t.bay b = { s.bay b with mark := some v }) ∧
        (st = .unloading → ∀ b, o.dest = some (.bay b) → t.bay b = { s.bay b with mark := some v })

/-- LOADED and UNLOADED (R150, R6, R7, R131, R93) of a vehicle in service, its order number agreeing. From a vehicle in another state, or
when the move's from-end does not hold, the report is REFUSED and ROLL_DISCREPANCY raised. LOADED puts the roll on the vehicle, takes the
mark off the bay, makes the order CARRYING and starts the leg to the drop; UNLOADED puts it into the bay, at the node or on the arm, frees
the order and leaves the vehicle IDLE at the drop; a roll that the stand's plan check refuses stays on the vehicle, its order a RETURN. -/
def Obligations.LoadedAndUnloadedMoveTheRoll : Prop :=
  (∀ (s : State) (e : Exchange) (x : Station) (n v : Nat) (more : Bool), s.hears e x → x.role = .vehicle v →
    (s.vehicle v).state ≠ .outOfService → n = (s.workingOrder v).getD 0 → ∀ m o, (s.vehicle v).order = some m → s.order m = some o →
    let y := s.vehicle v
    let h := (s.heard e more).modVehicle v ({ · with docked := 0 })
    let refused := fun k => (h.raise .rollDiscrepancy ((o.roll.or y.load).getD 0)).send e.addr (.refused k .badState)
    let back := fun st => y.state = .stalled ∧ y.prev = some st
    let inBay := fun b r (z : Roll) => o.source = some (.bay b) ∧ (∃ l, z.loc = .bay b l) ∧ z.state = .reserved ∧
      (s.bay b).stack.getLast? = some r ∧ z.order = some m ∧ y.load = none
    let atNode := fun k (z : Roll) => o.source = some (.node k) ∧ z.loc = .node k ∧ z.state = .announced ∧ z.order = some m ∧ y.load = none
    let holds := ∃ r z, o.roll = some r ∧ s.roll r = some z ∧ ((∃ b, inBay b r z) ∨ ∃ k, atNode k z)
    (y.state ≠ .loading → ¬ back .loading → ¬ back .unloading → (o.roll.or y.load).isSome = true →
      exec (.loaded n more) s = .next (refused 5)) ∧
    (y.state ≠ .unloading → ¬ back .loading → ¬ back .unloading → (o.roll.or y.load).isSome = true →
      exec (.unloaded n more) s = .next (refused 6)) ∧
    (y.state = .loading → ¬ holds → exec (.loaded n more) s = .next (refused 5)) ∧
    (∀ r z, y.state = .loading → o.roll = some r → s.roll r = some z → ((∃ b, inBay b r z) ∨ ∃ k, atNode k z) →
      ∃ u : State, exec (.loaded n more) s = .next u.finish ∧ (u.vehicle v).load = some r ∧ (u.vehicle v).state = .toDrop ∧
        (u.vehicle v).transfer = .stopped ∧ u.roll r = some { z with state := .inTransit, loc := .vehicle v, mount := none, job := none } ∧
        (∃ q, u.order m = some q ∧ q.state = .carrying ∧ q.roll = some r ∧ q.dest = o.dest ∧ q.vehicle = o.vehicle) ∧
        (∀ b, o.source = some (.bay b) → (u.bay b).stack = (s.bay b).stack.erase r ∧ u.passDue = true) ∧
        (∀ b, (u.bay b).mark ≠ some v) ∧
        ∀ a d, s.pickup o = some a → s.drop o = some d → (a = d → (u.vehicle v).leg = none) ∧
          ∀ k, a ≠ d → s.routeBetween a d = some k → (u.vehicle v).leg = some ⟨k, 0⟩ ∧
            (y.waiting = none → (u.vehicle v).progress = s.started s.progressTimeout)) ∧
    let carried := fun r => o.roll = some r ∧ ∃ z, s.roll r = some z ∧ z.state = .inTransit ∧ z.loc = .vehicle v ∧ z.order = some m ∧
      y.load = some r
    let delivered := fun (u : State) => exec (.unloaded n more) s = .next u.finish ∧ u.passDue = true ∧ (u.vehicle v).state = .idle ∧
      (u.vehicle v).load = none ∧ (u.vehicle v).order = none ∧ (u.vehicle v).pos = (s.drop o).map .node ∧
      (∀ q, u.order m = some q → q.kind = .callOff ∧ q.seq = s.orderSeq + 1)
    (y.state = .unloading → (∀ r, ¬ carried r) → exec (.unloaded n more) s = .next (refused 6)) ∧
    ∀ r z, y.state = .unloading → carried r → s.roll r = some z → o.vehicle = some v → s.drop o ≠ none →
      (∀ b, o.dest = some (.bay b) → (s.bay b).limit ≤ (s.bay b).stack.length → exec (.unloaded n more) s = .next (refused 6)) ∧
      (∀ b, o.dest = some (.bay b) → (s.bay b).stack.length < (s.bay b).limit → ∃ u, delivered u ∧
        (u.bay b).stack = (s.bay b).stack ++ [r] ∧ u.roll r = some
          { z with state := .stored, loc := .bay b ((s.bay b).stack.length + 1), mount := none, job := none, order := none }) ∧
      (∀ k, o.dest = some (.node k) → ∃ u, delivered u ∧
        u.roll r = some { z with state := .announced, loc := .node k, mount := none, job := none, order := none }) ∧
      ∀ st a, o.dest = some (.arm st a) →
        let w := (s.stand st).arm a
        let awaited := w.state = .empty ∧ w.callOff = some m
        let fits := ∃ l p, s.positionOf st = some (l, p) ∧ p.grade = z.grade ∧ p.width = z.width
        (¬ awaited → exec (.unloaded n more) s = .next (refused 6)) ∧
        (awaited → fits → ∃ u, delivered u ∧ ((u.stand st).arm a).state = .staged ∧ ((u.stand st).arm a).roll = some r ∧
          u.roll r = some { z with state := .staged, loc := .arm st a, mount := none, job := none, order := none }) ∧
        (awaited → ¬ fits → ∃ u : State, exec (.unloaded n more) s = .next u.finish ∧ u.roll r = some z ∧
          (u.vehicle v).state = .toDrop ∧ (u.vehicle v).load = some r ∧ (u.vehicle v).transfer = .stopped ∧
          ∃ q, u.order m = some q ∧ q.kind = .ret ∧ q.state = .carrying ∧ q.roll = some r ∧ q.seq = o.seq)) ∧
  ∀ (s : State) (e : Exchange) (x : Station) (n v : Nat) (more : Bool), s.hears e x → x.role = .vehicle v →
    (s.vehicle v).state ≠ .outOfService → n = (s.workingOrder v).getD 0 → (s.vehicle v).order = none → (s.vehicle v).load = none →
    (s.vehicle v).state ≠ .loading → (s.vehicle v).state ≠ .unloading → (s.vehicle v).state ≠ .stalled →
    let h := (s.heard e more).modVehicle v ({ · with docked := 0 })
    exec (.loaded n more) s = .next (h.send e.addr (.refused 5 .badState)) ∧
    exec (.unloaded n more) s = .next (h.send e.addr (.refused 6 .badState))

/-- IDLE, FAULT and NONE (R148, R149, R153), and the reports of a vehicle out of service (R146): IDLE at a node whose segment the vehicle
does not hold stalls it and is REFUSED; otherwise it frees a marked order and lets a vehicle without an unmarked order enter IDLE, has the
TASK of a vehicle on its way placed again with the route from the reported node, and changes nothing else; without such a route the vehicle
stalls with the position and route it had. FAULT stalls. NONE sets the docked count to 0, and a wrong order number has ABORT or the TASK
placed again. The reasons of the REFUSED, the position that an IDLE drawing a TASK sets, and that an inconsistent IDLE stalls a vehicle in
state IDLE too, are the model's readings (log entry 7). -/
def Obligations.IdleFaultAndNone : Prop :=
  ∀ (s : State) (e : Exchange) (z : Station) (v n : Nat) (more : Bool), s.hears e z → z.role = .vehicle v →
    let y := s.vehicle v
    let h := s.heard e more
    let h0 := h.modVehicle v ({ · with docked := 0 })
    let works := fun m o => y.order = some m ∧ s.order m = some o ∧ o.abort = false
    let stalled := fun (u : State) c => (u.vehicle v).state = .stalled ∧ (u.vehicle v).prev = some y.state ∧ (u.vehicle v).cause = some c ∧
      (u.vehicle v).progress = .stopped ∧ (u.vehicle v).transfer = .stopped ∧ (u.vehicle v).docked = 0 ∧
      u.attn = (s.raise .vehicleStalled v).attn ∧ (u.vehicle v).order = y.order ∧ (u.vehicle v).held = y.held
    let idleAt := fun (u : State) x => u.passDue = true ∧ (u.vehicle v).state = .idle ∧ (u.vehicle v).pos = some (.node x) ∧
      (u.vehicle v).leg = none ∧ (u.vehicle v).nextRoute = none ∧ (u.vehicle v).progress = .stopped ∧ (u.vehicle v).transfer = .stopped ∧
      ((∀ g, v ∉ (s.segment g).waiters) → (u.vehicle v).held = y.held.filter (fun g => some g = (s.node x).map Node.seg) ∧
        (u.vehicle v).waiting = none) ∧ ∀ b, (u.bay b).mark ≠ some v
    (y.state = .outOfService → exec (.noneReply n more) s = .next h ∧ (∀ x, exec (.idle n x more) s = .next h) ∧
      (∀ f, exec (.fault n f more) s = .next (h.send e.addr (.refused 8 .badState))) ∧
      (∀ p b, exec (.position n p b more) s = .next (h.send e.addr (.refused 2 .badState))) ∧
      (∀ g, exec (.claim n g more) s = .next (h.send e.addr (.refused 3 .badState))) ∧
      (∀ d, exec (.docked n d more) s = .next (h.send e.addr (.refused 4 .badState))) ∧
      exec (.loaded n more) s = .next (h.send e.addr (.refused 5 .badState)) ∧
      exec (.unloaded n more) s = .next (h.send e.addr (.refused 6 .badState))) ∧
    (y.state ≠ .outOfService →
      (n = (s.workingOrder v).getD 0 → exec (.noneReply n more) s = .next h0) ∧
      (n ≠ 0 → (∀ m o, ¬ works m o) → exec (.noneReply n more) s = .next (h0.sendVehicle v (.abort n))) ∧
      (∀ m o, works m o → n ≠ m → exec (.noneReply n more) s = .next (h0.sendTask m)) ∧
      (∀ f, n = (s.workingOrder v).getD 0 → (y.state = .stalled → exec (.fault n f more) s = .next h0) ∧
        (y.state ≠ .stalled → ∃ u : State, exec (.fault n f more) s = .next u.finish ∧ stalled u .fault)) ∧
      ∀ x, let here := ∃ g ∈ y.held, (s.node x).map Node.seg = some g
        let i := Instr.idle n x more
        (¬ here → y.state ≠ .stalled → ∃ u : State, exec i s = .next (u.send e.addr (.refused 7 .badState)).finish ∧ stalled u .position) ∧
        (here → y.state = .idle → exec i s = .next h0) ∧
        (here → y.state ≠ .idle → y.order = none → ∃ u : State, exec i s = .next u.finish ∧ idleAt u x) ∧
        (∀ m o, here → y.state ≠ .idle → y.order = some m → s.order m = some o → o.abort = true → o.vehicle = some v →
          ∃ u : State, exec i s = .next u.finish ∧ idleAt u x ∧ (u.vehicle v).order = none ∧
            ∀ q, u.order m = some q → q.kind = .callOff ∧ q.seq = s.orderSeq + 1) ∧
        (here → y.state = .stalled → y.prev = some .idle → ∃ u : State, exec i s = .next u.finish ∧ idleAt u x) ∧
        ∀ m o, here → works m o →
          (y.state = .loading ∨ y.state = .unloading ∨ (y.state = .stalled ∧ y.prev ≠ some .idle) → exec i s = .next h0) ∧
          ∀ d, (y.state = .toPickup ∧ s.pickup o = some d) ∨ (y.state = .toDrop ∧ o.noRoute = false ∧ s.drop o = some d) →
            (x = d → ∃ u : State, exec i s = .next (u.sendTask m) ∧ u.orders = s.orders ∧ (u.vehicle v).state = y.state ∧
              (u.vehicle v).pos = some (.node x) ∧ (u.vehicle v).leg = none ∧ (u.vehicle v).nextRoute = none) ∧
            (∀ k, x ≠ d → s.routeBetween x d = some k → ∃ u : State, exec i s = .next (u.sendTask m) ∧ u.orders = s.orders ∧
              (u.vehicle v).state = y.state ∧ (u.vehicle v).pos = some (.node x) ∧ (u.vehicle v).leg = some ⟨k, 0⟩ ∧
              (u.vehicle v).nextRoute = none) ∧
            (x ≠ d → s.routeBetween x d = none → ∃ u : State, exec i s = .next u.finish ∧ stalled u .position ∧
              (u.vehicle v).pos = y.pos ∧ (u.vehicle v).leg = y.leg ∧ (u.vehicle v).nextRoute = y.nextRoute))

/-- PROGRESS_TIMEOUT and TRANSFER_TIMEOUT (R151, R152, R137, R153): the expiry of a timer that does not run, or in a part asleep, changes
nothing (the model's choice, log entry 1), and so does one the part's own time queued for a timer that was restarted before it (log entry
2). A running one stalls the vehicle; a transfer expiry of a LOADING vehicle that sensed its deck empty fails the order in place, with ORDER_FAILED and
ABORT, and leaves the previous state IDLE, as does one of a vehicle with no unmarked order. -/
def Obligations.TimeoutsStallTheVehicle : Prop :=
  ∀ (s : State) (v : Nat),
    let y := s.vehicle v
    let works := fun m o => y.order = some m ∧ s.order m = some o ∧ o.abort = false
    let stalled := fun (u : State) c p => (u.vehicle v).state = .stalled ∧ (u.vehicle v).prev = some p ∧ (u.vehicle v).cause = some c ∧
      (u.vehicle v).progress = .stopped ∧ (u.vehicle v).transfer = .stopped ∧ (u.vehicle v).docked = 0 ∧ (u.vehicle v).held = y.held ∧
      (u.vehicle v).load = y.load ∧ (∀ b, (u.bay b).mark ≠ some v)
    ((s.awake = false ∨ ∀ l, y.progress = .running l → l ≠ 0 ∧ .progressTimeout v ∈ s.expiring) →
      exec (.progressTimeout v) s = .next s) ∧
    ((s.awake = false ∨ ∀ l, y.transfer = .running l → l ≠ 0 ∧ .transferTimeout v ∈ s.expiring) →
      exec (.transferTimeout v) s = .next s) ∧
    (∀ l, s.awake = true → y.progress = .running l → l = 0 ∨ .progressTimeout v ∉ s.expiring → y.state ≠ .stalled → y.state ≠ .outOfService →
      ∃ u : State, exec (.progressTimeout v) s = .next u.finish ∧ stalled u .progress y.state ∧ u.orders = s.orders ∧
        (u.vehicle v).order = y.order ∧ u.attn = (s.raise .vehicleStalled v).attn) ∧
    ∀ l, s.awake = true → y.transfer = .running l → l = 0 ∨ .transferTimeout v ∉ s.expiring → y.state = .loading ∨ y.state = .unloading →
      ((∀ m o, ¬ works m o) → ∃ u : State, exec (.transferTimeout v) s = .next u.finish ∧ stalled u .transfer .idle ∧ u.orders = s.orders ∧
        u.attn = (s.raise .vehicleStalled v).attn) ∧
      ∀ m o, works m o →
        (y.state = .unloading ∨ y.deck ≠ some .empty → ∃ u : State, exec (.transferTimeout v) s = .next u.finish ∧
          stalled u .transfer y.state ∧ u.orders = s.orders ∧ (u.vehicle v).order = y.order ∧ u.attn = (s.raise .vehicleStalled v).attn) ∧
        (y.state = .loading → y.deck = some .empty → o.vehicle = some v → ∃ u q, exec (.transferTimeout v) s = .next (State.finish u) ∧
          stalled u .transfer .idle ∧ (u.vehicle v).order = none ∧ u.order m = some q ∧ q.state = .failed ∧ q.deadline = none ∧
          q.roll = o.roll ∧ q.vehicle = some v ∧ u.attn = ((s.raise .orderFailed m).raise .vehicleStalled v).attn ∧
          ∀ r x, o.roll = some r → s.roll r = some x → u.roll r = some { x with
            state := if x.state = .reserved then .stored else x.state, hold := some (x.hold.getD .discrepancy) })

/-! ## The station line -/

/-- SET_STATION (R161, R165): CONFIGURE is checked for arguments, a clashing role, a vehicle in service and a free place, in this order; a
new record takes the lowest free place, a changed role empties the record's state, a repeated role changes nothing. CLEAR frees the
record, and an exchange with it ends without a miss. SETTINGS writes the line rate and the reply window. (That a repeated role is checked
too is log entry 9, and that CLEAR takes the address out of the running cycle log entry 6.) -/
def Obligations.SetStationWritesTheRecord : Prop :=
  let serves := fun (s : State) (x : Station) => ∃ v, x.role = .vehicle v ∧ (s.vehicle v).state ≠ .outOfService
  (∀ (s : State) (a : Nat) (r : Role), s.takes (.setStationConfigure a r) = true →
    let i := Instr.setStationConfigure a r
    let fits := 1 ≤ a ∧ a ≤ 60 ∧ match r with
      | .vehicle n => 1 ≤ n ∧ n ≤ 12
      | .standNode st => 1 ≤ st ∧ st ≤ 16
      | .bayNode f c => 1 ≤ f ∧ f ≤ 120 ∧ 1 ≤ c ∧ c ≤ 8 ∧ f + c - 1 ≤ 120
      | .dockReader n => 1 ≤ n ∧ n ≤ 48 ∧ ∃ x, s.node n = some x ∧ x.role = .dock
      | .scale => True
      | .console l => 1 ≤ l ∧ l ≤ 4
    let clash := ∃ b x, (b, x) ∈ s.stations ∧ b ≠ a ∧ ((r = x.role ∧ ((∃ n, r = .vehicle n) ∨ (∃ st, r = .standNode st) ∨ r = .scale)) ∨
      ∃ f c g d, r = .bayNode f c ∧ x.role = .bayNode g d ∧ f < g + d ∧ g < f + c)
    let written := fun p => { s.fresh with stations := s.stations.put a (some ⟨p, r, false, 0, 0, [], []⟩) }.replied i .ok []
    (¬ fits → exec i s = .next (s.fresh.replied i .badArgument [])) ∧
    (fits → clash → exec i s = .next (s.fresh.replied i .duplicate [])) ∧
    (fits → ¬ clash → ∀ x, s.station a = some x →
      (serves s x → exec i s = .next (s.fresh.replied i .badState [])) ∧
      (¬ serves s x → exec i s = .next (if x.role = r then s.fresh.replied i .ok [] else written x.place))) ∧
    (fits → ¬ clash → s.station a = none →
      ((∀ p, 1 ≤ p → p ≤ 40 → ∃ e ∈ s.stations, e.2.place = p) → exec i s = .next (s.fresh.replied i .full [])) ∧
      ∀ p, 1 ≤ p → p ≤ 40 → (∀ e ∈ s.stations, e.2.place ≠ p) → (∀ q, 1 ≤ q → q < p → ∃ e ∈ s.stations, e.2.place = q) →
        exec i s = .next (written p))) ∧
  (∀ (s : State) (a : Nat), s.takes (.setStationClear a) = true →
    let i := Instr.setStationClear a
    ((a < 1 ∨ 60 < a) → exec i s = .next (s.fresh.replied i .badArgument [])) ∧
    (1 ≤ a → a ≤ 60 → s.station a = none → exec i s = .next (s.fresh.replied i .notFound [])) ∧
    ∀ x, 1 ≤ a → a ≤ 60 → s.station a = some x →
      (serves s x → exec i s = .next (s.fresh.replied i .badState [])) ∧
      (¬ serves s x → ∃ t : State, exec i s = .next t ∧ t.answers i .ok [] ∧ t.stations = s.stations.put a none ∧ a ∉ t.cycle ∧
        (∀ e, s.exchange = some e → t.exchange = if e.addr = a then none else some e))) ∧
  ∀ (s : State) (r : Option Rate) (w : Nat), s.takes (.setStationSettings r w) = true →
    let i := Instr.setStationSettings r w
    ((r = none ∨ w < 5 ∨ 50 < w) → exec i s = .next (s.fresh.replied i .badArgument [])) ∧
    ∀ k, r = some k → 5 ≤ w → w ≤ 50 → exec i s = .next ({ s.fresh with rate := k, replyWindow := w }.replied i .ok [])

/-- POLL and BROADCAST (R162, R163, R164, R167, R168): a poll is sent only in a RUNNING part with no exchange and no broadcast standing
before it; it goes to the station that MORE earned a further exchange, else to the next record of the cycle, a freed one passed over and a
SILENT one with a counter above 0 passed over with its counter decremented, and an empty cycle begins anew. The oldest command goes with
the poll, kept items take the room, and the window opens. A pending broadcast is sent after a line break when no exchange is in progress.
(That the window opens in the step of the POLL, the receiver hunts and a cycle begins at a POLL is log entry 6, and that a POLL or BROADCAST
held back changes nothing log entry 1.) -/
def Obligations.PollBeginsAnExchange : Prop :=
  ∀ s : State, s.awake = true →
    let may := s.standby = .running ∧ s.exchange = none ∧ s.pendingBroadcast = none
    let begins := fun (u : State) a turn rest => ∃ x t, u.station a = some x ∧ exec .poll s = .next t ∧ t.passDue = false ∧
      t.exchange = some ⟨a, true, s.replyWindow * 1000, turn, s.rate⟩ ∧ t.receiver = .hunting ∧ t.further = none ∧ t.cycle = rest ∧
      t.lineOut = [.frame (match x.out with
        | [] => stationFrame a 0 []
        | c :: _ => stationFrame a c.kind c.pay.build)] ∧
      (s.halted = false → t.station a = some
        { x with out := x.out.tail ++ (x.offer.take (4 - x.out.tail.length)).map KeptItem.cmd, offer := x.offer.drop (4 - x.out.tail.length) }) ∧ ∀ b, b ≠ a → t.station b = u.station b
    let due := fun b => ∃ x, s.station b = some x ∧ (x.silent = false ∨ x.reduced = 0)
    (¬ may → exec .poll s = .next s) ∧
    (may → ∀ a n, s.further = some (a, n) → s.station a ≠ none → begins s a (n + 1) s.cycle) ∧
    (may → s.further = none → s.cycle = [] → s.stations = [] → exec .poll s = .next s.fresh) ∧
    (may → s.further = none → ∀ a rest, s.cycle = a :: rest → due a → begins s a 1 rest) ∧
    (may → s.further = none → ∀ b a rest, s.cycle = b :: a :: rest → s.station b = none → due a → begins s a 1 rest) ∧
    (may → s.further = none → ∀ b a x rest, s.cycle = b :: a :: rest → s.station b = some x → x.silent = true → x.reduced ≠ 0 → b ≠ a →
      due a → begins { s with stations := s.stations.put b (some { x with reduced := x.reduced - 1 }) } a 1 rest) ∧
    (may → s.further = none → s.cycle = [] → ∀ a x rest, s.stations = (a, x) :: rest → due a → begins s a 1 (rest.map Prod.fst)) ∧
    ((s.pendingBroadcast = none ∨ s.exchange ≠ none) → exec .broadcast s = .next s) ∧
    ∀ b, s.pendingBroadcast = some b → s.exchange = none → exec .broadcast s = .next { s.fresh with
      pendingBroadcast := none, receiver := .hunting, lineOut := [.lineBreak, .frame (stationFrame 0 (match b with
        | .allHalt => 10
        | .resume => 11) [])] }

/-- How an exchange ends (R159, R162, R164, R165; that the owner's row may come with no FRAME_START before it is log entry 6, that an event
with no window or no frame changes nothing log entry 1, and that a queued expiry acts only at its timer's end log entry 2). A frame begun in the open window decides it. It ends with no reply when the window
expires with no deciding frame under way, or the deciding frame is spoiled or has another address: a miss is counted, to 3, and a POLLING
station whose count reaches 3 becomes SILENT with STATION_SILENT raised and its vehicle stalled. A late frame changes no record. A good
reply clears the miss count and the silence, writes the vehicle's last-report time and earns a further exchange by MORE in a turn of fewer
than 4; one that does not suit its kind or role is answered REFUSED. -/
def Obligations.ExchangesEnd : Prop :=
  ∀ s : State, s.awake = true →
    let opened := ∃ e, s.exchange = some e ∧ e.windowOpen = true
    let decides := ∃ a, s.receiver = .frame a true
    let missed := fun (t : State) => ∀ e, s.exchange = some e → ∃ u : State, t = u.finish ∧ u.exchange = none ∧ u.receiver = .hunting ∧
      u.further = none ∧ ∀ x, s.station e.addr = some x →
        let lost := x.silent = false ∧ 2 ≤ x.miss
        u.station e.addr = some { x with
          miss := min 3 (x.miss + 1)
          silent := if lost then true else x.silent
          reduced := if lost ∨ x.silent = true then 7 else x.reduced } ∧
        (∀ v, x.role = .vehicle v → (s.vehicle v).state ≠ .outOfService → (u.vehicle v).docked = 0 ∧
          (lost → (u.vehicle v).state = .stalled ∧ ((s.vehicle v).state ≠ .stalled → (u.vehicle v).cause = some .silent))) ∧
        (¬ lost → u.attn = s.attn) ∧ (lost → (∀ v, x.role ≠ .vehicle v) → u.attn = (s.raise .stationSilent e.addr).attn)
    let ends := ∃ e, s.exchange = some e ∧ e.windowOpen = true ∧ (e.left = 0 ∨ Instr.replyWindowExpiry ∉ s.expiring)
    (¬ ends → exec .replyWindowExpiry s = .next s) ∧
    (∀ e, s.exchange = some e → ends → decides →
      exec .replyWindowExpiry s = .next { s.fresh with exchange := some { e with windowOpen := false } }) ∧
    (ends → ¬ decides → ∃ t, exec .replyWindowExpiry s = .next t ∧ missed t) ∧
    (∀ a, (s.receiver ≠ .hunting → exec (.frameStart a) s = .next s) ∧
      (s.receiver = .hunting → exec (.frameStart a) s =
        .next { s.fresh with receiver := .frame a (s.exchange.any Exchange.windowOpen) })) ∧
    (s.receiver = .hunting → exec .characterGapTimeout s = .next s) ∧
    (decides → s.exchange ≠ none → ∃ t, exec .characterGapTimeout s = .next t ∧ missed t) ∧
    (∀ a, s.receiver = .frame a false → exec .characterGapTimeout s = .next { s.fresh with receiver := .hunting } ∧
      exec .lateReplyDiscarded s = .next { s.fresh with receiver := .hunting }) ∧
    ((∀ a, s.receiver ≠ .frame a false) → exec .lateReplyDiscarded s = .next s) ∧
    (∀ c, (∀ a, c ≠ .marked a) →
      (s.exchange ≠ none → decides ∨ (s.receiver = .hunting ∧ opened) → ∃ t, exec (.frameSpoiled c) s = .next t ∧ missed t) ∧
      (∀ a, s.receiver = .frame a false → exec (.frameSpoiled c) s = .next { s.fresh with receiver := .hunting }) ∧
      (s.receiver = .hunting → ¬ opened → exec (.frameSpoiled c) s = .next s.fresh)) ∧
    (∀ a, (∀ b, s.receiver = .frame b false → exec (.frameSpoiled (.marked a)) s =
        .next { s.fresh with receiver := .frame a (s.exchange.any Exchange.windowOpen) }) ∧
      (s.exchange ≠ none → decides → ∃ u : State, exec (.frameSpoiled (.marked a)) s = .next u.finish ∧ u.receiver = .frame a false ∧
        u.exchange = none)) ∧
    (∀ a e, s.exchange = some e → (s.receiver = .frame a true ∨ (s.receiver = .hunting ∧ e.windowOpen = true)) →
      (a ≠ e.addr → ∃ t, exec (.replyOtherAddress a) s = .next t ∧ missed t) ∧
      (a = e.addr → exec (.replyOtherAddress a) s = .next s)) ∧
    ∀ e x k more, s.replying = some e → s.station e.addr = some x →
      let h := s.heard e more
      exec (.replyNotSuited k more) s = .next (h.send e.addr (.refused k .badArgument)) ∧ h.exchange = none ∧ h.receiver = .hunting ∧
      h.station e.addr = some { x with miss := 0, silent := false, reduced := if x.silent = true then 0 else x.reduced } ∧
      (∀ v, x.role = .vehicle v → (h.vehicle v).lastReport = some s.timeBase) ∧
      h.further = (if more = true ∧ e.turn < 4 then some (e.addr, e.turn) else none) ∧ h.orders = s.orders ∧ h.rolls = s.rolls

/-! ## Standby, power and starts -/

/-- STANDBY, STANDBY_ENTRY and MAIN_POWER_LOSS (R180, R182, R183). STANDBY is refused with the port's part not RUNNING, a vehicle moving
or transferring, a line's v above 0 or a stand PASTING; else the part is ENTERING, transport is halted and ALL_HALT is pending. Entry
comes once the broadcast is sent, no exchange is in progress and the answer is read: every driven output falls, PASTE before DRIVE at a
stand, the bays and the other records are kept and the main-supply state is at its start values. A loss of main power drops the outputs and
keeps the records likewise, and the part is unpowered. (That the main-supply state is at its start values already here, the wait for the
exchange's end, and the edges at a power loss are log entry 10; that STANDBY_ENTRY held back and MAIN_POWER_LOSS without power change nothing
is log entry 1.) -/
def Obligations.StandbyAndPowerLossKeepTheRecords : Prop :=
  let cleared := fun (s t : State) =>
    (∀ b, t.bay b = s.bay b) ∧
    (∀ l, t.line l = { s.line l with
      pending := false, web := 0, gateWeb := 0, v := 0, inBreak := false, cause := none, lowMark := false, stop := false, counting := .idle, window := 0 }) ∧
    (∀ n, t.stand n = { s.stand n with
      armA := { (s.stand n).armA with chan := .clear }, armB := { (s.stand n).armB with chan := .clear }, df := none, run := .clear, ts := 65535,
      markLeft := none, measureLost := none, lastVs := none, seq := .idle, matchCount := 0, pasteLeft := none, pasteLine := none, late := false,
      runout := false, drive := false, paste := false, brake := false }) ∧
    (∀ v, t.vehicle v = { Vehicle.cold with order := (s.vehicle v).order, load := (s.vehicle v).load }) ∧
    (∀ g, t.segment g = { s.segment g with holder := none, waiters := [] }) ∧
    (∀ a, t.station a = (s.station a).map fun x => ⟨x.place, x.role, false, 0, 0, [], []⟩) ∧
    t.rolls = s.rolls ∧ t.arrival = s.arrival ∧ t.grades = s.grades ∧ t.jobs = s.jobs ∧ t.orders = s.orders ∧ t.orderPointer = s.orderPointer ∧
    t.orderSeq = s.orderSeq ∧ t.nodes = s.nodes ∧ t.routes = s.routes ∧ t.progressTimeout = s.progressTimeout ∧
    t.transferTimeout = s.transferTimeout ∧ t.urgentMargin = s.urgentMargin ∧ t.rate = s.rate ∧ t.replyWindow = s.replyWindow ∧
    t.halted = false ∧ t.exchange = none ∧ t.pendingBroadcast = none ∧ t.port = Port.cold ∧ t.attn = []
  let falls := fun (s t : State) => (∀ e ∈ t.edges, e.up = false) ∧
    (∀ n, ((s.stand n).drive = true → ⟨.drive n, false⟩ ∈ t.edges) ∧ ((s.stand n).paste = true → ⟨.paste n, false⟩ ∈ t.edges) ∧
      ((s.stand n).brake = true → ⟨.brake n, false⟩ ∈ t.edges) ∧
      ((s.stand n).paste = true → (s.stand n).drive = true → [⟨.paste n, false⟩, ⟨.drive n, false⟩].Sublist t.edges)) ∧
    ∀ l, (s.line l).stop = true → ⟨.stop l, false⟩ ∈ t.edges
  (∀ s : State, s.takes .standby = true →
    let refused := s.standby ≠ .running ∨ (∃ v, 1 ≤ v ∧ v ≤ 12 ∧ (s.vehicle v).state ∈ [.toPickup, .loading, .toDrop, .unloading]) ∨
      (∃ l, 1 ≤ l ∧ l ≤ 4 ∧ 0 < (s.line l).v) ∨ ∃ n, 1 ≤ n ∧ n ≤ 16 ∧ (s.stand n).seq = .pasting
    (refused → exec .standby s = .next (s.fresh.replied .standby .badState [])) ∧
    (¬ refused → ∃ vs, exec .standby s = .next ({ s.fresh with
      standby := .entering, halted := true, pendingBroadcast := some .allHalt, vehicles := vs }.replied .standby .ok []))) ∧
  (∀ s : State, s.awake = true →
    let may := s.standby = .entering ∧ s.pendingBroadcast = none ∧ s.exchange = none ∧ s.port.state = .idle
    (¬ may → exec .standbyEntry s = .next s) ∧
    (may → ∃ t, exec .standbyEntry s = .next t ∧ t.standby = .standby ∧ t.powered = true ∧ cleared s t ∧ falls s t)) ∧
  ∀ s : State, (s.powered = false → exec .mainPowerLoss s = .next s) ∧
    (s.powered = true → ∃ t, exec .mainPowerLoss s = .next t ∧ t.powered = false ∧ cleared s t ∧ falls s t)

/-- The starts (R139, R179, R181, R183, R184). RESTART_PART taken by an IDLE port, POWER_RETURN with the sense held and WAKE in standby
make a warm start with their cause: WARM_START alone in the attention set with its subject, the port IDLE and nothing halted; the
configuration, the rolls, the jobs and the arms kept; every vehicle OUT_OF_SERVICE with its load; stations POLLING with empty lists; an
unmarked order kept, an ASSIGNED or LOADING one PENDING without a vehicle; a stand with an ACTIVE arm RUNNING with T_s 65535; a line with
a live job in BREAK, uncounted, its STOP asserted; a stand whose PASTE and DRIVE were asserted drops PASTE and then DRIVE (R82). With the
sense lost, or from a cold part, the state is the reset state, with the pins' levels and the queue. (The pins' levels and the queue kept over
a cold start are log entry 10, POWER_RETURN with power present changing nothing log entry 1, and RESTART_PART as one step log entry 4.) -/
def Obligations.StartsReconcileTheRecords : Prop :=
  let warm := fun (s t : State) (c : StartCause) (subject : Nat) =>
    (t.powered = true ∧ t.standby = .running ∧ t.startKind = .warm ∧ t.startCause = c ∧ t.attn = [(2, ⟨subject, 1⟩)] ∧ t.halted = false ∧
      t.pendingBroadcast = none ∧ t.exchange = none ∧ t.port = Port.cold ∧ t.timeBase = 0 ∧ t.micros = 0 ∧ t.passDue = false) ∧
    (∀ n, (s.stand n).paste = true → (s.stand n).drive = true → [⟨.paste n, false⟩, ⟨.drive n, false⟩].Sublist t.edges) ∧
    (t.arrival = s.arrival ∧ t.grades = s.grades ∧ t.nodes = s.nodes ∧ t.routes = s.routes ∧ t.jobs = s.jobs ∧ t.progressTimeout = s.progressTimeout ∧
      t.transferTimeout = s.transferTimeout ∧ t.urgentMargin = s.urgentMargin ∧ t.rate = s.rate ∧ t.replyWindow = s.replyWindow) ∧
    (∀ n r, s.roll n = some r → ∃ q, t.roll n = some q ∧ q.tag = r.tag ∧ q.arrival = r.arrival ∧ q.grade = r.grade ∧ q.width = r.width ∧
      q.diameter = r.diameter ∧ q.consumed = r.consumed) ∧ (∀ n, s.roll n = none → t.roll n = none) ∧
    (∀ b, t.bay b = { s.bay b with mark := none, lastHeight := none, confirm := 0 }) ∧
    (∀ g, t.segment g = { s.segment g with holder := none, waiters := [] }) ∧
    (∀ a, t.station a = (s.station a).map fun x => ⟨x.place, x.role, false, 0, 0, [], []⟩) ∧
    (∀ v, (t.vehicle v).state = .outOfService ∧ (t.vehicle v).load = (s.vehicle v).load ∧ (t.vehicle v).held = []) ∧
    (∀ n o, s.order n = some o → o.abort = false → ∃ q, t.order n = some q ∧ q.kind = o.kind ∧ q.cls = o.cls ∧ q.roll = o.roll ∧ q.seq = o.seq ∧
      if o.state = .assigned ∨ o.state = .loading then q.state = .pending ∧ q.vehicle = none else q.state = o.state ∧ q.vehicle = o.vehicle) ∧
    (∀ n, 1 ≤ n → n ≤ 16 → let x := s.stand n; let y := t.stand n
      y.ts = 65535 ∧ y.drive = false ∧ y.paste = false ∧ y.late = false ∧ y.runout = false ∧ y.armA.state = x.armA.state ∧
      y.armA.roll = x.armA.roll ∧ y.armB.state = x.armB.state ∧ y.armB.roll = x.armB.roll ∧
      y.seq = (if x.armA.state = .active ∨ x.armB.state = .active then .running else .idle)) ∧
    ∀ l, 1 ≤ l → l ≤ 4 → let live := ∃ n j, s.jobs.find n = some j ∧ j.state = .live ∧ j.line = l
      (t.line l).live = (s.line l).live ∧ (t.line l).working = (s.line l).working ∧ (t.line l).pending = false ∧ (t.line l).v = 0 ∧
      (live → (t.line l).counting = .brk ∧ (t.line l).inBreak = true ∧ (t.line l).cause = some .warmStart ∧ (t.line l).stop = true) ∧
      (s.jobs.rising = true → ¬ live → (t.line l).counting = .idle ∧ (t.line l).inBreak = false ∧ (t.line l).stop = false)
  (∀ s : State,
    ((s.awake = true ∧ s.port.state = .idle) → ∃ t, exec .restartPart s = .next t ∧ warm s t .restart 2 ∧ t.shifted = [0, 0]) ∧
    ((s.awake = true ∧ (s.port.state = .working ∨ s.port.state = .answer)) → ∃ b, exec .restartPart s = .next { s.fresh with shifted := b }) ∧
    (s.awake = false → exec .restartPart s = .next s)) ∧
  (∀ (s : State) (held : Bool), s.powered = true → exec (.powerReturn held) s = .next s) ∧
  (∀ s : State, s.powered = false → (∃ t, exec (.powerReturn true) s = .next t ∧ warm s t .power 1) ∧
    ∃ t, exec (.powerReturn false) s = .next t ∧ t = { State.reset with
        lines := t.lines, stands := t.stands, expiring := s.expiring, pending := s.pending } ∧
      (s.lines.rising = true → ∀ l, t.line l = { Line.cold with jam := (s.line l).jam }) ∧
      (s.stands.rising = true → ∀ n, t.stand n = { Stand.cold with webBreak := (s.stand n).webBreak })) ∧
  ∀ s : State, (¬ (s.powered = true ∧ s.standby = .standby) → exec .wake s = .next s) ∧
    (s.powered = true → s.standby = .standby → ∃ t, exec .wake s = .next t ∧ warm s t .wake 3)

end
end

