-- ==== Sys2Proof/Laws/State.lean ====
section
/-! SUPPORT. What each update of the state leaves as it was, field by field. -/

namespace Sys2Proof.Machine

@[simp] theorem State.putRoll_rolls (s : State) (n : Nat) (r : Option Roll) : (s.putRoll n r).rolls = s.rolls.put n r := rfl
@[simp] theorem State.putRoll_powered (s : State) (n : Nat) (r : Option Roll) : (s.putRoll n r).powered = s.powered := rfl
@[simp] theorem State.putRoll_timeBase (s : State) (n : Nat) (r : Option Roll) : (s.putRoll n r).timeBase = s.timeBase := rfl
@[simp] theorem State.putRoll_subMs (s : State) (n : Nat) (r : Option Roll) : (s.putRoll n r).subMs = s.subMs := rfl
@[simp] theorem State.putRoll_micros (s : State) (n : Nat) (r : Option Roll) : (s.putRoll n r).micros = s.micros := rfl
@[simp] theorem State.putRoll_arrival (s : State) (n : Nat) (r : Option Roll) : (s.putRoll n r).arrival = s.arrival := rfl
@[simp] theorem State.putRoll_bays (s : State) (n : Nat) (r : Option Roll) : (s.putRoll n r).bays = s.bays := rfl
@[simp] theorem State.putRoll_grades (s : State) (n : Nat) (r : Option Roll) : (s.putRoll n r).grades = s.grades := rfl
@[simp] theorem State.putRoll_lines (s : State) (n : Nat) (r : Option Roll) : (s.putRoll n r).lines = s.lines := rfl
@[simp] theorem State.putRoll_stands (s : State) (n : Nat) (r : Option Roll) : (s.putRoll n r).stands = s.stands := rfl
@[simp] theorem State.putRoll_jobs (s : State) (n : Nat) (r : Option Roll) : (s.putRoll n r).jobs = s.jobs := rfl
@[simp] theorem State.putRoll_orders (s : State) (n : Nat) (r : Option Roll) : (s.putRoll n r).orders = s.orders := rfl
@[simp] theorem State.putRoll_orderPointer (s : State) (n : Nat) (r : Option Roll) : (s.putRoll n r).orderPointer = s.orderPointer := rfl
@[simp] theorem State.putRoll_orderSeq (s : State) (n : Nat) (r : Option Roll) : (s.putRoll n r).orderSeq = s.orderSeq := rfl
@[simp] theorem State.putRoll_vehicles (s : State) (n : Nat) (r : Option Roll) : (s.putRoll n r).vehicles = s.vehicles := rfl
@[simp] theorem State.putRoll_segments (s : State) (n : Nat) (r : Option Roll) : (s.putRoll n r).segments = s.segments := rfl
@[simp] theorem State.putRoll_nodes (s : State) (n : Nat) (r : Option Roll) : (s.putRoll n r).nodes = s.nodes := rfl
@[simp] theorem State.putRoll_routes (s : State) (n : Nat) (r : Option Roll) : (s.putRoll n r).routes = s.routes := rfl
@[simp] theorem State.putRoll_progressTimeout (s : State) (n : Nat) (r : Option Roll) : (s.putRoll n r).progressTimeout = s.progressTimeout := rfl
@[simp] theorem State.putRoll_transferTimeout (s : State) (n : Nat) (r : Option Roll) : (s.putRoll n r).transferTimeout = s.transferTimeout := rfl
@[simp] theorem State.putRoll_urgentMargin (s : State) (n : Nat) (r : Option Roll) : (s.putRoll n r).urgentMargin = s.urgentMargin := rfl
@[simp] theorem State.putRoll_halted (s : State) (n : Nat) (r : Option Roll) : (s.putRoll n r).halted = s.halted := rfl
@[simp] theorem State.putRoll_rate (s : State) (n : Nat) (r : Option Roll) : (s.putRoll n r).rate = s.rate := rfl
@[simp] theorem State.putRoll_replyWindow (s : State) (n : Nat) (r : Option Roll) : (s.putRoll n r).replyWindow = s.replyWindow := rfl
@[simp] theorem State.putRoll_stations (s : State) (n : Nat) (r : Option Roll) : (s.putRoll n r).stations = s.stations := rfl
@[simp] theorem State.putRoll_cycle (s : State) (n : Nat) (r : Option Roll) : (s.putRoll n r).cycle = s.cycle := rfl
@[simp] theorem State.putRoll_further (s : State) (n : Nat) (r : Option Roll) : (s.putRoll n r).further = s.further := rfl
@[simp] theorem State.putRoll_exchange (s : State) (n : Nat) (r : Option Roll) : (s.putRoll n r).exchange = s.exchange := rfl
@[simp] theorem State.putRoll_receiver (s : State) (n : Nat) (r : Option Roll) : (s.putRoll n r).receiver = s.receiver := rfl
@[simp] theorem State.putRoll_pendingBroadcast (s : State) (n : Nat) (r : Option Roll) : (s.putRoll n r).pendingBroadcast = s.pendingBroadcast := rfl
@[simp] theorem State.putRoll_port (s : State) (n : Nat) (r : Option Roll) : (s.putRoll n r).port = s.port := rfl
@[simp] theorem State.putRoll_attn (s : State) (n : Nat) (r : Option Roll) : (s.putRoll n r).attn = s.attn := rfl
@[simp] theorem State.putRoll_startKind (s : State) (n : Nat) (r : Option Roll) : (s.putRoll n r).startKind = s.startKind := rfl
@[simp] theorem State.putRoll_startCause (s : State) (n : Nat) (r : Option Roll) : (s.putRoll n r).startCause = s.startCause := rfl
@[simp] theorem State.putRoll_standby (s : State) (n : Nat) (r : Option Roll) : (s.putRoll n r).standby = s.standby := rfl
@[simp] theorem State.putRoll_shifted (s : State) (n : Nat) (r : Option Roll) : (s.putRoll n r).shifted = s.shifted := rfl
@[simp] theorem State.putRoll_lineOut (s : State) (n : Nat) (r : Option Roll) : (s.putRoll n r).lineOut = s.lineOut := rfl
@[simp] theorem State.putRoll_edges (s : State) (n : Nat) (r : Option Roll) : (s.putRoll n r).edges = s.edges := rfl
@[simp] theorem State.putRoll_passDue (s : State) (n : Nat) (r : Option Roll) : (s.putRoll n r).passDue = s.passDue := rfl
@[simp] theorem State.putRoll_pending (s : State) (n : Nat) (r : Option Roll) : (s.putRoll n r).pending = s.pending := rfl
@[simp] theorem State.putRoll_expiring (s : State) (n : Nat) (r : Option Roll) : (s.putRoll n r).expiring = s.expiring := rfl
@[simp] theorem State.setBay_bays (s : State) (n : Nat) (b : Bay) : (s.setBay n b).bays = s.bays.set n .cold b := rfl
@[simp] theorem State.setBay_powered (s : State) (n : Nat) (b : Bay) : (s.setBay n b).powered = s.powered := rfl
@[simp] theorem State.setBay_timeBase (s : State) (n : Nat) (b : Bay) : (s.setBay n b).timeBase = s.timeBase := rfl
@[simp] theorem State.setBay_subMs (s : State) (n : Nat) (b : Bay) : (s.setBay n b).subMs = s.subMs := rfl
@[simp] theorem State.setBay_micros (s : State) (n : Nat) (b : Bay) : (s.setBay n b).micros = s.micros := rfl
@[simp] theorem State.setBay_rolls (s : State) (n : Nat) (b : Bay) : (s.setBay n b).rolls = s.rolls := rfl
@[simp] theorem State.setBay_arrival (s : State) (n : Nat) (b : Bay) : (s.setBay n b).arrival = s.arrival := rfl
@[simp] theorem State.setBay_grades (s : State) (n : Nat) (b : Bay) : (s.setBay n b).grades = s.grades := rfl
@[simp] theorem State.setBay_lines (s : State) (n : Nat) (b : Bay) : (s.setBay n b).lines = s.lines := rfl
@[simp] theorem State.setBay_stands (s : State) (n : Nat) (b : Bay) : (s.setBay n b).stands = s.stands := rfl
@[simp] theorem State.setBay_jobs (s : State) (n : Nat) (b : Bay) : (s.setBay n b).jobs = s.jobs := rfl
@[simp] theorem State.setBay_orders (s : State) (n : Nat) (b : Bay) : (s.setBay n b).orders = s.orders := rfl
@[simp] theorem State.setBay_orderPointer (s : State) (n : Nat) (b : Bay) : (s.setBay n b).orderPointer = s.orderPointer := rfl
@[simp] theorem State.setBay_orderSeq (s : State) (n : Nat) (b : Bay) : (s.setBay n b).orderSeq = s.orderSeq := rfl
@[simp] theorem State.setBay_vehicles (s : State) (n : Nat) (b : Bay) : (s.setBay n b).vehicles = s.vehicles := rfl
@[simp] theorem State.setBay_segments (s : State) (n : Nat) (b : Bay) : (s.setBay n b).segments = s.segments := rfl
@[simp] theorem State.setBay_nodes (s : State) (n : Nat) (b : Bay) : (s.setBay n b).nodes = s.nodes := rfl
@[simp] theorem State.setBay_routes (s : State) (n : Nat) (b : Bay) : (s.setBay n b).routes = s.routes := rfl
@[simp] theorem State.setBay_progressTimeout (s : State) (n : Nat) (b : Bay) : (s.setBay n b).progressTimeout = s.progressTimeout := rfl
@[simp] theorem State.setBay_transferTimeout (s : State) (n : Nat) (b : Bay) : (s.setBay n b).transferTimeout = s.transferTimeout := rfl
@[simp] theorem State.setBay_urgentMargin (s : State) (n : Nat) (b : Bay) : (s.setBay n b).urgentMargin = s.urgentMargin := rfl
@[simp] theorem State.setBay_halted (s : State) (n : Nat) (b : Bay) : (s.setBay n b).halted = s.halted := rfl
@[simp] theorem State.setBay_rate (s : State) (n : Nat) (b : Bay) : (s.setBay n b).rate = s.rate := rfl
@[simp] theorem State.setBay_replyWindow (s : State) (n : Nat) (b : Bay) : (s.setBay n b).replyWindow = s.replyWindow := rfl
@[simp] theorem State.setBay_stations (s : State) (n : Nat) (b : Bay) : (s.setBay n b).stations = s.stations := rfl
@[simp] theorem State.setBay_cycle (s : State) (n : Nat) (b : Bay) : (s.setBay n b).cycle = s.cycle := rfl
@[simp] theorem State.setBay_further (s : State) (n : Nat) (b : Bay) : (s.setBay n b).further = s.further := rfl
@[simp] theorem State.setBay_exchange (s : State) (n : Nat) (b : Bay) : (s.setBay n b).exchange = s.exchange := rfl
@[simp] theorem State.setBay_receiver (s : State) (n : Nat) (b : Bay) : (s.setBay n b).receiver = s.receiver := rfl
@[simp] theorem State.setBay_pendingBroadcast (s : State) (n : Nat) (b : Bay) : (s.setBay n b).pendingBroadcast = s.pendingBroadcast := rfl
@[simp] theorem State.setBay_port (s : State) (n : Nat) (b : Bay) : (s.setBay n b).port = s.port := rfl
@[simp] theorem State.setBay_attn (s : State) (n : Nat) (b : Bay) : (s.setBay n b).attn = s.attn := rfl
@[simp] theorem State.setBay_startKind (s : State) (n : Nat) (b : Bay) : (s.setBay n b).startKind = s.startKind := rfl
@[simp] theorem State.setBay_startCause (s : State) (n : Nat) (b : Bay) : (s.setBay n b).startCause = s.startCause := rfl
@[simp] theorem State.setBay_standby (s : State) (n : Nat) (b : Bay) : (s.setBay n b).standby = s.standby := rfl
@[simp] theorem State.setBay_shifted (s : State) (n : Nat) (b : Bay) : (s.setBay n b).shifted = s.shifted := rfl
@[simp] theorem State.setBay_lineOut (s : State) (n : Nat) (b : Bay) : (s.setBay n b).lineOut = s.lineOut := rfl
@[simp] theorem State.setBay_edges (s : State) (n : Nat) (b : Bay) : (s.setBay n b).edges = s.edges := rfl
@[simp] theorem State.setBay_passDue (s : State) (n : Nat) (b : Bay) : (s.setBay n b).passDue = s.passDue := rfl
@[simp] theorem State.setBay_pending (s : State) (n : Nat) (b : Bay) : (s.setBay n b).pending = s.pending := rfl
@[simp] theorem State.setBay_expiring (s : State) (n : Nat) (b : Bay) : (s.setBay n b).expiring = s.expiring := rfl
@[simp] theorem State.setGrade_grades (s : State) (n : Nat) (g : Grade) : (s.setGrade n g).grades = s.grades.set n .cold g := rfl
@[simp] theorem State.setGrade_powered (s : State) (n : Nat) (g : Grade) : (s.setGrade n g).powered = s.powered := rfl
@[simp] theorem State.setGrade_timeBase (s : State) (n : Nat) (g : Grade) : (s.setGrade n g).timeBase = s.timeBase := rfl
@[simp] theorem State.setGrade_subMs (s : State) (n : Nat) (g : Grade) : (s.setGrade n g).subMs = s.subMs := rfl
@[simp] theorem State.setGrade_micros (s : State) (n : Nat) (g : Grade) : (s.setGrade n g).micros = s.micros := rfl
@[simp] theorem State.setGrade_rolls (s : State) (n : Nat) (g : Grade) : (s.setGrade n g).rolls = s.rolls := rfl
@[simp] theorem State.setGrade_arrival (s : State) (n : Nat) (g : Grade) : (s.setGrade n g).arrival = s.arrival := rfl
@[simp] theorem State.setGrade_bays (s : State) (n : Nat) (g : Grade) : (s.setGrade n g).bays = s.bays := rfl
@[simp] theorem State.setGrade_lines (s : State) (n : Nat) (g : Grade) : (s.setGrade n g).lines = s.lines := rfl
@[simp] theorem State.setGrade_stands (s : State) (n : Nat) (g : Grade) : (s.setGrade n g).stands = s.stands := rfl
@[simp] theorem State.setGrade_jobs (s : State) (n : Nat) (g : Grade) : (s.setGrade n g).jobs = s.jobs := rfl
@[simp] theorem State.setGrade_orders (s : State) (n : Nat) (g : Grade) : (s.setGrade n g).orders = s.orders := rfl
@[simp] theorem State.setGrade_orderPointer (s : State) (n : Nat) (g : Grade) : (s.setGrade n g).orderPointer = s.orderPointer := rfl
@[simp] theorem State.setGrade_orderSeq (s : State) (n : Nat) (g : Grade) : (s.setGrade n g).orderSeq = s.orderSeq := rfl
@[simp] theorem State.setGrade_vehicles (s : State) (n : Nat) (g : Grade) : (s.setGrade n g).vehicles = s.vehicles := rfl
@[simp] theorem State.setGrade_segments (s : State) (n : Nat) (g : Grade) : (s.setGrade n g).segments = s.segments := rfl
@[simp] theorem State.setGrade_nodes (s : State) (n : Nat) (g : Grade) : (s.setGrade n g).nodes = s.nodes := rfl
@[simp] theorem State.setGrade_routes (s : State) (n : Nat) (g : Grade) : (s.setGrade n g).routes = s.routes := rfl
@[simp] theorem State.setGrade_progressTimeout (s : State) (n : Nat) (g : Grade) : (s.setGrade n g).progressTimeout = s.progressTimeout := rfl
@[simp] theorem State.setGrade_transferTimeout (s : State) (n : Nat) (g : Grade) : (s.setGrade n g).transferTimeout = s.transferTimeout := rfl
@[simp] theorem State.setGrade_urgentMargin (s : State) (n : Nat) (g : Grade) : (s.setGrade n g).urgentMargin = s.urgentMargin := rfl
@[simp] theorem State.setGrade_halted (s : State) (n : Nat) (g : Grade) : (s.setGrade n g).halted = s.halted := rfl
@[simp] theorem State.setGrade_rate (s : State) (n : Nat) (g : Grade) : (s.setGrade n g).rate = s.rate := rfl
@[simp] theorem State.setGrade_replyWindow (s : State) (n : Nat) (g : Grade) : (s.setGrade n g).replyWindow = s.replyWindow := rfl
@[simp] theorem State.setGrade_stations (s : State) (n : Nat) (g : Grade) : (s.setGrade n g).stations = s.stations := rfl
@[simp] theorem State.setGrade_cycle (s : State) (n : Nat) (g : Grade) : (s.setGrade n g).cycle = s.cycle := rfl
@[simp] theorem State.setGrade_further (s : State) (n : Nat) (g : Grade) : (s.setGrade n g).further = s.further := rfl
@[simp] theorem State.setGrade_exchange (s : State) (n : Nat) (g : Grade) : (s.setGrade n g).exchange = s.exchange := rfl
@[simp] theorem State.setGrade_receiver (s : State) (n : Nat) (g : Grade) : (s.setGrade n g).receiver = s.receiver := rfl
@[simp] theorem State.setGrade_pendingBroadcast (s : State) (n : Nat) (g : Grade) : (s.setGrade n g).pendingBroadcast = s.pendingBroadcast := rfl
@[simp] theorem State.setGrade_port (s : State) (n : Nat) (g : Grade) : (s.setGrade n g).port = s.port := rfl
@[simp] theorem State.setGrade_attn (s : State) (n : Nat) (g : Grade) : (s.setGrade n g).attn = s.attn := rfl
@[simp] theorem State.setGrade_startKind (s : State) (n : Nat) (g : Grade) : (s.setGrade n g).startKind = s.startKind := rfl
@[simp] theorem State.setGrade_startCause (s : State) (n : Nat) (g : Grade) : (s.setGrade n g).startCause = s.startCause := rfl
@[simp] theorem State.setGrade_standby (s : State) (n : Nat) (g : Grade) : (s.setGrade n g).standby = s.standby := rfl
@[simp] theorem State.setGrade_shifted (s : State) (n : Nat) (g : Grade) : (s.setGrade n g).shifted = s.shifted := rfl
@[simp] theorem State.setGrade_lineOut (s : State) (n : Nat) (g : Grade) : (s.setGrade n g).lineOut = s.lineOut := rfl
@[simp] theorem State.setGrade_edges (s : State) (n : Nat) (g : Grade) : (s.setGrade n g).edges = s.edges := rfl
@[simp] theorem State.setGrade_passDue (s : State) (n : Nat) (g : Grade) : (s.setGrade n g).passDue = s.passDue := rfl
@[simp] theorem State.setGrade_pending (s : State) (n : Nat) (g : Grade) : (s.setGrade n g).pending = s.pending := rfl
@[simp] theorem State.setGrade_expiring (s : State) (n : Nat) (g : Grade) : (s.setGrade n g).expiring = s.expiring := rfl
@[simp] theorem State.setLine_lines (s : State) (n : Nat) (l : Line) : (s.setLine n l).lines = s.lines.set n .cold l := rfl
@[simp] theorem State.setLine_powered (s : State) (n : Nat) (l : Line) : (s.setLine n l).powered = s.powered := rfl
@[simp] theorem State.setLine_timeBase (s : State) (n : Nat) (l : Line) : (s.setLine n l).timeBase = s.timeBase := rfl
@[simp] theorem State.setLine_subMs (s : State) (n : Nat) (l : Line) : (s.setLine n l).subMs = s.subMs := rfl
@[simp] theorem State.setLine_micros (s : State) (n : Nat) (l : Line) : (s.setLine n l).micros = s.micros := rfl
@[simp] theorem State.setLine_rolls (s : State) (n : Nat) (l : Line) : (s.setLine n l).rolls = s.rolls := rfl
@[simp] theorem State.setLine_arrival (s : State) (n : Nat) (l : Line) : (s.setLine n l).arrival = s.arrival := rfl
@[simp] theorem State.setLine_bays (s : State) (n : Nat) (l : Line) : (s.setLine n l).bays = s.bays := rfl
@[simp] theorem State.setLine_grades (s : State) (n : Nat) (l : Line) : (s.setLine n l).grades = s.grades := rfl
@[simp] theorem State.setLine_stands (s : State) (n : Nat) (l : Line) : (s.setLine n l).stands = s.stands := rfl
@[simp] theorem State.setLine_jobs (s : State) (n : Nat) (l : Line) : (s.setLine n l).jobs = s.jobs := rfl
@[simp] theorem State.setLine_orders (s : State) (n : Nat) (l : Line) : (s.setLine n l).orders = s.orders := rfl
@[simp] theorem State.setLine_orderPointer (s : State) (n : Nat) (l : Line) : (s.setLine n l).orderPointer = s.orderPointer := rfl
@[simp] theorem State.setLine_orderSeq (s : State) (n : Nat) (l : Line) : (s.setLine n l).orderSeq = s.orderSeq := rfl
@[simp] theorem State.setLine_vehicles (s : State) (n : Nat) (l : Line) : (s.setLine n l).vehicles = s.vehicles := rfl
@[simp] theorem State.setLine_segments (s : State) (n : Nat) (l : Line) : (s.setLine n l).segments = s.segments := rfl
@[simp] theorem State.setLine_nodes (s : State) (n : Nat) (l : Line) : (s.setLine n l).nodes = s.nodes := rfl
@[simp] theorem State.setLine_routes (s : State) (n : Nat) (l : Line) : (s.setLine n l).routes = s.routes := rfl
@[simp] theorem State.setLine_progressTimeout (s : State) (n : Nat) (l : Line) : (s.setLine n l).progressTimeout = s.progressTimeout := rfl
@[simp] theorem State.setLine_transferTimeout (s : State) (n : Nat) (l : Line) : (s.setLine n l).transferTimeout = s.transferTimeout := rfl
@[simp] theorem State.setLine_urgentMargin (s : State) (n : Nat) (l : Line) : (s.setLine n l).urgentMargin = s.urgentMargin := rfl
@[simp] theorem State.setLine_halted (s : State) (n : Nat) (l : Line) : (s.setLine n l).halted = s.halted := rfl
@[simp] theorem State.setLine_rate (s : State) (n : Nat) (l : Line) : (s.setLine n l).rate = s.rate := rfl
@[simp] theorem State.setLine_replyWindow (s : State) (n : Nat) (l : Line) : (s.setLine n l).replyWindow = s.replyWindow := rfl
@[simp] theorem State.setLine_stations (s : State) (n : Nat) (l : Line) : (s.setLine n l).stations = s.stations := rfl
@[simp] theorem State.setLine_cycle (s : State) (n : Nat) (l : Line) : (s.setLine n l).cycle = s.cycle := rfl
@[simp] theorem State.setLine_further (s : State) (n : Nat) (l : Line) : (s.setLine n l).further = s.further := rfl
@[simp] theorem State.setLine_exchange (s : State) (n : Nat) (l : Line) : (s.setLine n l).exchange = s.exchange := rfl
@[simp] theorem State.setLine_receiver (s : State) (n : Nat) (l : Line) : (s.setLine n l).receiver = s.receiver := rfl
@[simp] theorem State.setLine_pendingBroadcast (s : State) (n : Nat) (l : Line) : (s.setLine n l).pendingBroadcast = s.pendingBroadcast := rfl
@[simp] theorem State.setLine_port (s : State) (n : Nat) (l : Line) : (s.setLine n l).port = s.port := rfl
@[simp] theorem State.setLine_attn (s : State) (n : Nat) (l : Line) : (s.setLine n l).attn = s.attn := rfl
@[simp] theorem State.setLine_startKind (s : State) (n : Nat) (l : Line) : (s.setLine n l).startKind = s.startKind := rfl
@[simp] theorem State.setLine_startCause (s : State) (n : Nat) (l : Line) : (s.setLine n l).startCause = s.startCause := rfl
@[simp] theorem State.setLine_standby (s : State) (n : Nat) (l : Line) : (s.setLine n l).standby = s.standby := rfl
@[simp] theorem State.setLine_shifted (s : State) (n : Nat) (l : Line) : (s.setLine n l).shifted = s.shifted := rfl
@[simp] theorem State.setLine_lineOut (s : State) (n : Nat) (l : Line) : (s.setLine n l).lineOut = s.lineOut := rfl
@[simp] theorem State.setLine_edges (s : State) (n : Nat) (l : Line) : (s.setLine n l).edges = s.edges := rfl
@[simp] theorem State.setLine_passDue (s : State) (n : Nat) (l : Line) : (s.setLine n l).passDue = s.passDue := rfl
@[simp] theorem State.setLine_pending (s : State) (n : Nat) (l : Line) : (s.setLine n l).pending = s.pending := rfl
@[simp] theorem State.setLine_expiring (s : State) (n : Nat) (l : Line) : (s.setLine n l).expiring = s.expiring := rfl
@[simp] theorem State.setStand_stands (s : State) (n : Nat) (x : Stand) : (s.setStand n x).stands = s.stands.set n .cold x := rfl
@[simp] theorem State.setStand_powered (s : State) (n : Nat) (x : Stand) : (s.setStand n x).powered = s.powered := rfl
@[simp] theorem State.setStand_timeBase (s : State) (n : Nat) (x : Stand) : (s.setStand n x).timeBase = s.timeBase := rfl
@[simp] theorem State.setStand_subMs (s : State) (n : Nat) (x : Stand) : (s.setStand n x).subMs = s.subMs := rfl
@[simp] theorem State.setStand_micros (s : State) (n : Nat) (x : Stand) : (s.setStand n x).micros = s.micros := rfl
@[simp] theorem State.setStand_rolls (s : State) (n : Nat) (x : Stand) : (s.setStand n x).rolls = s.rolls := rfl
@[simp] theorem State.setStand_arrival (s : State) (n : Nat) (x : Stand) : (s.setStand n x).arrival = s.arrival := rfl
@[simp] theorem State.setStand_bays (s : State) (n : Nat) (x : Stand) : (s.setStand n x).bays = s.bays := rfl
@[simp] theorem State.setStand_grades (s : State) (n : Nat) (x : Stand) : (s.setStand n x).grades = s.grades := rfl
@[simp] theorem State.setStand_lines (s : State) (n : Nat) (x : Stand) : (s.setStand n x).lines = s.lines := rfl
@[simp] theorem State.setStand_jobs (s : State) (n : Nat) (x : Stand) : (s.setStand n x).jobs = s.jobs := rfl
@[simp] theorem State.setStand_orders (s : State) (n : Nat) (x : Stand) : (s.setStand n x).orders = s.orders := rfl
@[simp] theorem State.setStand_orderPointer (s : State) (n : Nat) (x : Stand) : (s.setStand n x).orderPointer = s.orderPointer := rfl
@[simp] theorem State.setStand_orderSeq (s : State) (n : Nat) (x : Stand) : (s.setStand n x).orderSeq = s.orderSeq := rfl
@[simp] theorem State.setStand_vehicles (s : State) (n : Nat) (x : Stand) : (s.setStand n x).vehicles = s.vehicles := rfl
@[simp] theorem State.setStand_segments (s : State) (n : Nat) (x : Stand) : (s.setStand n x).segments = s.segments := rfl
@[simp] theorem State.setStand_nodes (s : State) (n : Nat) (x : Stand) : (s.setStand n x).nodes = s.nodes := rfl
@[simp] theorem State.setStand_routes (s : State) (n : Nat) (x : Stand) : (s.setStand n x).routes = s.routes := rfl
@[simp] theorem State.setStand_progressTimeout (s : State) (n : Nat) (x : Stand) : (s.setStand n x).progressTimeout = s.progressTimeout := rfl
@[simp] theorem State.setStand_transferTimeout (s : State) (n : Nat) (x : Stand) : (s.setStand n x).transferTimeout = s.transferTimeout := rfl
@[simp] theorem State.setStand_urgentMargin (s : State) (n : Nat) (x : Stand) : (s.setStand n x).urgentMargin = s.urgentMargin := rfl
@[simp] theorem State.setStand_halted (s : State) (n : Nat) (x : Stand) : (s.setStand n x).halted = s.halted := rfl
@[simp] theorem State.setStand_rate (s : State) (n : Nat) (x : Stand) : (s.setStand n x).rate = s.rate := rfl
@[simp] theorem State.setStand_replyWindow (s : State) (n : Nat) (x : Stand) : (s.setStand n x).replyWindow = s.replyWindow := rfl
@[simp] theorem State.setStand_stations (s : State) (n : Nat) (x : Stand) : (s.setStand n x).stations = s.stations := rfl
@[simp] theorem State.setStand_cycle (s : State) (n : Nat) (x : Stand) : (s.setStand n x).cycle = s.cycle := rfl
@[simp] theorem State.setStand_further (s : State) (n : Nat) (x : Stand) : (s.setStand n x).further = s.further := rfl
@[simp] theorem State.setStand_exchange (s : State) (n : Nat) (x : Stand) : (s.setStand n x).exchange = s.exchange := rfl
@[simp] theorem State.setStand_receiver (s : State) (n : Nat) (x : Stand) : (s.setStand n x).receiver = s.receiver := rfl
@[simp] theorem State.setStand_pendingBroadcast (s : State) (n : Nat) (x : Stand) : (s.setStand n x).pendingBroadcast = s.pendingBroadcast := rfl
@[simp] theorem State.setStand_port (s : State) (n : Nat) (x : Stand) : (s.setStand n x).port = s.port := rfl
@[simp] theorem State.setStand_attn (s : State) (n : Nat) (x : Stand) : (s.setStand n x).attn = s.attn := rfl
@[simp] theorem State.setStand_startKind (s : State) (n : Nat) (x : Stand) : (s.setStand n x).startKind = s.startKind := rfl
@[simp] theorem State.setStand_startCause (s : State) (n : Nat) (x : Stand) : (s.setStand n x).startCause = s.startCause := rfl
@[simp] theorem State.setStand_standby (s : State) (n : Nat) (x : Stand) : (s.setStand n x).standby = s.standby := rfl
@[simp] theorem State.setStand_shifted (s : State) (n : Nat) (x : Stand) : (s.setStand n x).shifted = s.shifted := rfl
@[simp] theorem State.setStand_lineOut (s : State) (n : Nat) (x : Stand) : (s.setStand n x).lineOut = s.lineOut := rfl
@[simp] theorem State.setStand_edges (s : State) (n : Nat) (x : Stand) : (s.setStand n x).edges = s.edges := rfl
@[simp] theorem State.setStand_passDue (s : State) (n : Nat) (x : Stand) : (s.setStand n x).passDue = s.passDue := rfl
@[simp] theorem State.setStand_pending (s : State) (n : Nat) (x : Stand) : (s.setStand n x).pending = s.pending := rfl
@[simp] theorem State.setStand_expiring (s : State) (n : Nat) (x : Stand) : (s.setStand n x).expiring = s.expiring := rfl
@[simp] theorem State.putJob_jobs (s : State) (n : Nat) (j : Option Job) : (s.putJob n j).jobs = s.jobs.put n j := rfl
@[simp] theorem State.putJob_powered (s : State) (n : Nat) (j : Option Job) : (s.putJob n j).powered = s.powered := rfl
@[simp] theorem State.putJob_timeBase (s : State) (n : Nat) (j : Option Job) : (s.putJob n j).timeBase = s.timeBase := rfl
@[simp] theorem State.putJob_subMs (s : State) (n : Nat) (j : Option Job) : (s.putJob n j).subMs = s.subMs := rfl
@[simp] theorem State.putJob_micros (s : State) (n : Nat) (j : Option Job) : (s.putJob n j).micros = s.micros := rfl
@[simp] theorem State.putJob_rolls (s : State) (n : Nat) (j : Option Job) : (s.putJob n j).rolls = s.rolls := rfl
@[simp] theorem State.putJob_arrival (s : State) (n : Nat) (j : Option Job) : (s.putJob n j).arrival = s.arrival := rfl
@[simp] theorem State.putJob_bays (s : State) (n : Nat) (j : Option Job) : (s.putJob n j).bays = s.bays := rfl
@[simp] theorem State.putJob_grades (s : State) (n : Nat) (j : Option Job) : (s.putJob n j).grades = s.grades := rfl
@[simp] theorem State.putJob_lines (s : State) (n : Nat) (j : Option Job) : (s.putJob n j).lines = s.lines := rfl
@[simp] theorem State.putJob_stands (s : State) (n : Nat) (j : Option Job) : (s.putJob n j).stands = s.stands := rfl
@[simp] theorem State.putJob_orders (s : State) (n : Nat) (j : Option Job) : (s.putJob n j).orders = s.orders := rfl
@[simp] theorem State.putJob_orderPointer (s : State) (n : Nat) (j : Option Job) : (s.putJob n j).orderPointer = s.orderPointer := rfl
@[simp] theorem State.putJob_orderSeq (s : State) (n : Nat) (j : Option Job) : (s.putJob n j).orderSeq = s.orderSeq := rfl
@[simp] theorem State.putJob_vehicles (s : State) (n : Nat) (j : Option Job) : (s.putJob n j).vehicles = s.vehicles := rfl
@[simp] theorem State.putJob_segments (s : State) (n : Nat) (j : Option Job) : (s.putJob n j).segments = s.segments := rfl
@[simp] theorem State.putJob_nodes (s : State) (n : Nat) (j : Option Job) : (s.putJob n j).nodes = s.nodes := rfl
@[simp] theorem State.putJob_routes (s : State) (n : Nat) (j : Option Job) : (s.putJob n j).routes = s.routes := rfl
@[simp] theorem State.putJob_progressTimeout (s : State) (n : Nat) (j : Option Job) : (s.putJob n j).progressTimeout = s.progressTimeout := rfl
@[simp] theorem State.putJob_transferTimeout (s : State) (n : Nat) (j : Option Job) : (s.putJob n j).transferTimeout = s.transferTimeout := rfl
@[simp] theorem State.putJob_urgentMargin (s : State) (n : Nat) (j : Option Job) : (s.putJob n j).urgentMargin = s.urgentMargin := rfl
@[simp] theorem State.putJob_halted (s : State) (n : Nat) (j : Option Job) : (s.putJob n j).halted = s.halted := rfl
@[simp] theorem State.putJob_rate (s : State) (n : Nat) (j : Option Job) : (s.putJob n j).rate = s.rate := rfl
@[simp] theorem State.putJob_replyWindow (s : State) (n : Nat) (j : Option Job) : (s.putJob n j).replyWindow = s.replyWindow := rfl
@[simp] theorem State.putJob_stations (s : State) (n : Nat) (j : Option Job) : (s.putJob n j).stations = s.stations := rfl
@[simp] theorem State.putJob_cycle (s : State) (n : Nat) (j : Option Job) : (s.putJob n j).cycle = s.cycle := rfl
@[simp] theorem State.putJob_further (s : State) (n : Nat) (j : Option Job) : (s.putJob n j).further = s.further := rfl
@[simp] theorem State.putJob_exchange (s : State) (n : Nat) (j : Option Job) : (s.putJob n j).exchange = s.exchange := rfl
@[simp] theorem State.putJob_receiver (s : State) (n : Nat) (j : Option Job) : (s.putJob n j).receiver = s.receiver := rfl
@[simp] theorem State.putJob_pendingBroadcast (s : State) (n : Nat) (j : Option Job) : (s.putJob n j).pendingBroadcast = s.pendingBroadcast := rfl
@[simp] theorem State.putJob_port (s : State) (n : Nat) (j : Option Job) : (s.putJob n j).port = s.port := rfl
@[simp] theorem State.putJob_attn (s : State) (n : Nat) (j : Option Job) : (s.putJob n j).attn = s.attn := rfl
@[simp] theorem State.putJob_startKind (s : State) (n : Nat) (j : Option Job) : (s.putJob n j).startKind = s.startKind := rfl
@[simp] theorem State.putJob_startCause (s : State) (n : Nat) (j : Option Job) : (s.putJob n j).startCause = s.startCause := rfl
@[simp] theorem State.putJob_standby (s : State) (n : Nat) (j : Option Job) : (s.putJob n j).standby = s.standby := rfl
@[simp] theorem State.putJob_shifted (s : State) (n : Nat) (j : Option Job) : (s.putJob n j).shifted = s.shifted := rfl
@[simp] theorem State.putJob_lineOut (s : State) (n : Nat) (j : Option Job) : (s.putJob n j).lineOut = s.lineOut := rfl
@[simp] theorem State.putJob_edges (s : State) (n : Nat) (j : Option Job) : (s.putJob n j).edges = s.edges := rfl
@[simp] theorem State.putJob_passDue (s : State) (n : Nat) (j : Option Job) : (s.putJob n j).passDue = s.passDue := rfl
@[simp] theorem State.putJob_pending (s : State) (n : Nat) (j : Option Job) : (s.putJob n j).pending = s.pending := rfl
@[simp] theorem State.putJob_expiring (s : State) (n : Nat) (j : Option Job) : (s.putJob n j).expiring = s.expiring := rfl
@[simp] theorem State.putOrder_orders (s : State) (n : Nat) (o : Option Order) : (s.putOrder n o).orders = s.orders.put n o := rfl
@[simp] theorem State.putOrder_powered (s : State) (n : Nat) (o : Option Order) : (s.putOrder n o).powered = s.powered := rfl
@[simp] theorem State.putOrder_timeBase (s : State) (n : Nat) (o : Option Order) : (s.putOrder n o).timeBase = s.timeBase := rfl
@[simp] theorem State.putOrder_subMs (s : State) (n : Nat) (o : Option Order) : (s.putOrder n o).subMs = s.subMs := rfl
@[simp] theorem State.putOrder_micros (s : State) (n : Nat) (o : Option Order) : (s.putOrder n o).micros = s.micros := rfl
@[simp] theorem State.putOrder_rolls (s : State) (n : Nat) (o : Option Order) : (s.putOrder n o).rolls = s.rolls := rfl
@[simp] theorem State.putOrder_arrival (s : State) (n : Nat) (o : Option Order) : (s.putOrder n o).arrival = s.arrival := rfl
@[simp] theorem State.putOrder_bays (s : State) (n : Nat) (o : Option Order) : (s.putOrder n o).bays = s.bays := rfl
@[simp] theorem State.putOrder_grades (s : State) (n : Nat) (o : Option Order) : (s.putOrder n o).grades = s.grades := rfl
@[simp] theorem State.putOrder_lines (s : State) (n : Nat) (o : Option Order) : (s.putOrder n o).lines = s.lines := rfl
@[simp] theorem State.putOrder_stands (s : State) (n : Nat) (o : Option Order) : (s.putOrder n o).stands = s.stands := rfl
@[simp] theorem State.putOrder_jobs (s : State) (n : Nat) (o : Option Order) : (s.putOrder n o).jobs = s.jobs := rfl
@[simp] theorem State.putOrder_orderPointer (s : State) (n : Nat) (o : Option Order) : (s.putOrder n o).orderPointer = s.orderPointer := rfl
@[simp] theorem State.putOrder_orderSeq (s : State) (n : Nat) (o : Option Order) : (s.putOrder n o).orderSeq = s.orderSeq := rfl
@[simp] theorem State.putOrder_vehicles (s : State) (n : Nat) (o : Option Order) : (s.putOrder n o).vehicles = s.vehicles := rfl
@[simp] theorem State.putOrder_segments (s : State) (n : Nat) (o : Option Order) : (s.putOrder n o).segments = s.segments := rfl
@[simp] theorem State.putOrder_nodes (s : State) (n : Nat) (o : Option Order) : (s.putOrder n o).nodes = s.nodes := rfl
@[simp] theorem State.putOrder_routes (s : State) (n : Nat) (o : Option Order) : (s.putOrder n o).routes = s.routes := rfl
@[simp] theorem State.putOrder_progressTimeout (s : State) (n : Nat) (o : Option Order) : (s.putOrder n o).progressTimeout = s.progressTimeout := rfl
@[simp] theorem State.putOrder_transferTimeout (s : State) (n : Nat) (o : Option Order) : (s.putOrder n o).transferTimeout = s.transferTimeout := rfl
@[simp] theorem State.putOrder_urgentMargin (s : State) (n : Nat) (o : Option Order) : (s.putOrder n o).urgentMargin = s.urgentMargin := rfl
@[simp] theorem State.putOrder_halted (s : State) (n : Nat) (o : Option Order) : (s.putOrder n o).halted = s.halted := rfl
@[simp] theorem State.putOrder_rate (s : State) (n : Nat) (o : Option Order) : (s.putOrder n o).rate = s.rate := rfl
@[simp] theorem State.putOrder_replyWindow (s : State) (n : Nat) (o : Option Order) : (s.putOrder n o).replyWindow = s.replyWindow := rfl
@[simp] theorem State.putOrder_stations (s : State) (n : Nat) (o : Option Order) : (s.putOrder n o).stations = s.stations := rfl
@[simp] theorem State.putOrder_cycle (s : State) (n : Nat) (o : Option Order) : (s.putOrder n o).cycle = s.cycle := rfl
@[simp] theorem State.putOrder_further (s : State) (n : Nat) (o : Option Order) : (s.putOrder n o).further = s.further := rfl
@[simp] theorem State.putOrder_exchange (s : State) (n : Nat) (o : Option Order) : (s.putOrder n o).exchange = s.exchange := rfl
@[simp] theorem State.putOrder_receiver (s : State) (n : Nat) (o : Option Order) : (s.putOrder n o).receiver = s.receiver := rfl
@[simp] theorem State.putOrder_pendingBroadcast (s : State) (n : Nat) (o : Option Order) : (s.putOrder n o).pendingBroadcast = s.pendingBroadcast := rfl
@[simp] theorem State.putOrder_port (s : State) (n : Nat) (o : Option Order) : (s.putOrder n o).port = s.port := rfl
@[simp] theorem State.putOrder_attn (s : State) (n : Nat) (o : Option Order) : (s.putOrder n o).attn = s.attn := rfl
@[simp] theorem State.putOrder_startKind (s : State) (n : Nat) (o : Option Order) : (s.putOrder n o).startKind = s.startKind := rfl
@[simp] theorem State.putOrder_startCause (s : State) (n : Nat) (o : Option Order) : (s.putOrder n o).startCause = s.startCause := rfl
@[simp] theorem State.putOrder_standby (s : State) (n : Nat) (o : Option Order) : (s.putOrder n o).standby = s.standby := rfl
@[simp] theorem State.putOrder_shifted (s : State) (n : Nat) (o : Option Order) : (s.putOrder n o).shifted = s.shifted := rfl
@[simp] theorem State.putOrder_lineOut (s : State) (n : Nat) (o : Option Order) : (s.putOrder n o).lineOut = s.lineOut := rfl
@[simp] theorem State.putOrder_edges (s : State) (n : Nat) (o : Option Order) : (s.putOrder n o).edges = s.edges := rfl
@[simp] theorem State.putOrder_passDue (s : State) (n : Nat) (o : Option Order) : (s.putOrder n o).passDue = s.passDue := rfl
@[simp] theorem State.putOrder_pending (s : State) (n : Nat) (o : Option Order) : (s.putOrder n o).pending = s.pending := rfl
@[simp] theorem State.putOrder_expiring (s : State) (n : Nat) (o : Option Order) : (s.putOrder n o).expiring = s.expiring := rfl
@[simp] theorem State.setVehicle_vehicles (s : State) (n : Nat) (v : Vehicle) : (s.setVehicle n v).vehicles = s.vehicles.set n .cold v := rfl
@[simp] theorem State.setVehicle_powered (s : State) (n : Nat) (v : Vehicle) : (s.setVehicle n v).powered = s.powered := rfl
@[simp] theorem State.setVehicle_timeBase (s : State) (n : Nat) (v : Vehicle) : (s.setVehicle n v).timeBase = s.timeBase := rfl
@[simp] theorem State.setVehicle_subMs (s : State) (n : Nat) (v : Vehicle) : (s.setVehicle n v).subMs = s.subMs := rfl
@[simp] theorem State.setVehicle_micros (s : State) (n : Nat) (v : Vehicle) : (s.setVehicle n v).micros = s.micros := rfl
@[simp] theorem State.setVehicle_rolls (s : State) (n : Nat) (v : Vehicle) : (s.setVehicle n v).rolls = s.rolls := rfl
@[simp] theorem State.setVehicle_arrival (s : State) (n : Nat) (v : Vehicle) : (s.setVehicle n v).arrival = s.arrival := rfl
@[simp] theorem State.setVehicle_bays (s : State) (n : Nat) (v : Vehicle) : (s.setVehicle n v).bays = s.bays := rfl
@[simp] theorem State.setVehicle_grades (s : State) (n : Nat) (v : Vehicle) : (s.setVehicle n v).grades = s.grades := rfl
@[simp] theorem State.setVehicle_lines (s : State) (n : Nat) (v : Vehicle) : (s.setVehicle n v).lines = s.lines := rfl
@[simp] theorem State.setVehicle_stands (s : State) (n : Nat) (v : Vehicle) : (s.setVehicle n v).stands = s.stands := rfl
@[simp] theorem State.setVehicle_jobs (s : State) (n : Nat) (v : Vehicle) : (s.setVehicle n v).jobs = s.jobs := rfl
@[simp] theorem State.setVehicle_orders (s : State) (n : Nat) (v : Vehicle) : (s.setVehicle n v).orders = s.orders := rfl
@[simp] theorem State.setVehicle_orderPointer (s : State) (n : Nat) (v : Vehicle) : (s.setVehicle n v).orderPointer = s.orderPointer := rfl
@[simp] theorem State.setVehicle_orderSeq (s : State) (n : Nat) (v : Vehicle) : (s.setVehicle n v).orderSeq = s.orderSeq := rfl
@[simp] theorem State.setVehicle_segments (s : State) (n : Nat) (v : Vehicle) : (s.setVehicle n v).segments = s.segments := rfl
@[simp] theorem State.setVehicle_nodes (s : State) (n : Nat) (v : Vehicle) : (s.setVehicle n v).nodes = s.nodes := rfl
@[simp] theorem State.setVehicle_routes (s : State) (n : Nat) (v : Vehicle) : (s.setVehicle n v).routes = s.routes := rfl
@[simp] theorem State.setVehicle_progressTimeout (s : State) (n : Nat) (v : Vehicle) : (s.setVehicle n v).progressTimeout = s.progressTimeout := rfl
@[simp] theorem State.setVehicle_transferTimeout (s : State) (n : Nat) (v : Vehicle) : (s.setVehicle n v).transferTimeout = s.transferTimeout := rfl
@[simp] theorem State.setVehicle_urgentMargin (s : State) (n : Nat) (v : Vehicle) : (s.setVehicle n v).urgentMargin = s.urgentMargin := rfl
@[simp] theorem State.setVehicle_halted (s : State) (n : Nat) (v : Vehicle) : (s.setVehicle n v).halted = s.halted := rfl
@[simp] theorem State.setVehicle_rate (s : State) (n : Nat) (v : Vehicle) : (s.setVehicle n v).rate = s.rate := rfl
@[simp] theorem State.setVehicle_replyWindow (s : State) (n : Nat) (v : Vehicle) : (s.setVehicle n v).replyWindow = s.replyWindow := rfl
@[simp] theorem State.setVehicle_stations (s : State) (n : Nat) (v : Vehicle) : (s.setVehicle n v).stations = s.stations := rfl
@[simp] theorem State.setVehicle_cycle (s : State) (n : Nat) (v : Vehicle) : (s.setVehicle n v).cycle = s.cycle := rfl
@[simp] theorem State.setVehicle_further (s : State) (n : Nat) (v : Vehicle) : (s.setVehicle n v).further = s.further := rfl
@[simp] theorem State.setVehicle_exchange (s : State) (n : Nat) (v : Vehicle) : (s.setVehicle n v).exchange = s.exchange := rfl
@[simp] theorem State.setVehicle_receiver (s : State) (n : Nat) (v : Vehicle) : (s.setVehicle n v).receiver = s.receiver := rfl
@[simp] theorem State.setVehicle_pendingBroadcast (s : State) (n : Nat) (v : Vehicle) : (s.setVehicle n v).pendingBroadcast = s.pendingBroadcast := rfl
@[simp] theorem State.setVehicle_port (s : State) (n : Nat) (v : Vehicle) : (s.setVehicle n v).port = s.port := rfl
@[simp] theorem State.setVehicle_attn (s : State) (n : Nat) (v : Vehicle) : (s.setVehicle n v).attn = s.attn := rfl
@[simp] theorem State.setVehicle_startKind (s : State) (n : Nat) (v : Vehicle) : (s.setVehicle n v).startKind = s.startKind := rfl
@[simp] theorem State.setVehicle_startCause (s : State) (n : Nat) (v : Vehicle) : (s.setVehicle n v).startCause = s.startCause := rfl
@[simp] theorem State.setVehicle_standby (s : State) (n : Nat) (v : Vehicle) : (s.setVehicle n v).standby = s.standby := rfl
@[simp] theorem State.setVehicle_shifted (s : State) (n : Nat) (v : Vehicle) : (s.setVehicle n v).shifted = s.shifted := rfl
@[simp] theorem State.setVehicle_lineOut (s : State) (n : Nat) (v : Vehicle) : (s.setVehicle n v).lineOut = s.lineOut := rfl
@[simp] theorem State.setVehicle_edges (s : State) (n : Nat) (v : Vehicle) : (s.setVehicle n v).edges = s.edges := rfl
@[simp] theorem State.setVehicle_passDue (s : State) (n : Nat) (v : Vehicle) : (s.setVehicle n v).passDue = s.passDue := rfl
@[simp] theorem State.setVehicle_pending (s : State) (n : Nat) (v : Vehicle) : (s.setVehicle n v).pending = s.pending := rfl
@[simp] theorem State.setVehicle_expiring (s : State) (n : Nat) (v : Vehicle) : (s.setVehicle n v).expiring = s.expiring := rfl
@[simp] theorem State.setSegment_segments (s : State) (n : Nat) (g : Segment) : (s.setSegment n g).segments = s.segments.set n .cold g := rfl
@[simp] theorem State.setSegment_powered (s : State) (n : Nat) (g : Segment) : (s.setSegment n g).powered = s.powered := rfl
@[simp] theorem State.setSegment_timeBase (s : State) (n : Nat) (g : Segment) : (s.setSegment n g).timeBase = s.timeBase := rfl
@[simp] theorem State.setSegment_subMs (s : State) (n : Nat) (g : Segment) : (s.setSegment n g).subMs = s.subMs := rfl
@[simp] theorem State.setSegment_micros (s : State) (n : Nat) (g : Segment) : (s.setSegment n g).micros = s.micros := rfl
@[simp] theorem State.setSegment_rolls (s : State) (n : Nat) (g : Segment) : (s.setSegment n g).rolls = s.rolls := rfl
@[simp] theorem State.setSegment_arrival (s : State) (n : Nat) (g : Segment) : (s.setSegment n g).arrival = s.arrival := rfl
@[simp] theorem State.setSegment_bays (s : State) (n : Nat) (g : Segment) : (s.setSegment n g).bays = s.bays := rfl
@[simp] theorem State.setSegment_grades (s : State) (n : Nat) (g : Segment) : (s.setSegment n g).grades = s.grades := rfl
@[simp] theorem State.setSegment_lines (s : State) (n : Nat) (g : Segment) : (s.setSegment n g).lines = s.lines := rfl
@[simp] theorem State.setSegment_stands (s : State) (n : Nat) (g : Segment) : (s.setSegment n g).stands = s.stands := rfl
@[simp] theorem State.setSegment_jobs (s : State) (n : Nat) (g : Segment) : (s.setSegment n g).jobs = s.jobs := rfl
@[simp] theorem State.setSegment_orders (s : State) (n : Nat) (g : Segment) : (s.setSegment n g).orders = s.orders := rfl
@[simp] theorem State.setSegment_orderPointer (s : State) (n : Nat) (g : Segment) : (s.setSegment n g).orderPointer = s.orderPointer := rfl
@[simp] theorem State.setSegment_orderSeq (s : State) (n : Nat) (g : Segment) : (s.setSegment n g).orderSeq = s.orderSeq := rfl
@[simp] theorem State.setSegment_vehicles (s : State) (n : Nat) (g : Segment) : (s.setSegment n g).vehicles = s.vehicles := rfl
@[simp] theorem State.setSegment_nodes (s : State) (n : Nat) (g : Segment) : (s.setSegment n g).nodes = s.nodes := rfl
@[simp] theorem State.setSegment_routes (s : State) (n : Nat) (g : Segment) : (s.setSegment n g).routes = s.routes := rfl
@[simp] theorem State.setSegment_progressTimeout (s : State) (n : Nat) (g : Segment) : (s.setSegment n g).progressTimeout = s.progressTimeout := rfl
@[simp] theorem State.setSegment_transferTimeout (s : State) (n : Nat) (g : Segment) : (s.setSegment n g).transferTimeout = s.transferTimeout := rfl
@[simp] theorem State.setSegment_urgentMargin (s : State) (n : Nat) (g : Segment) : (s.setSegment n g).urgentMargin = s.urgentMargin := rfl
@[simp] theorem State.setSegment_halted (s : State) (n : Nat) (g : Segment) : (s.setSegment n g).halted = s.halted := rfl
@[simp] theorem State.setSegment_rate (s : State) (n : Nat) (g : Segment) : (s.setSegment n g).rate = s.rate := rfl
@[simp] theorem State.setSegment_replyWindow (s : State) (n : Nat) (g : Segment) : (s.setSegment n g).replyWindow = s.replyWindow := rfl
@[simp] theorem State.setSegment_stations (s : State) (n : Nat) (g : Segment) : (s.setSegment n g).stations = s.stations := rfl
@[simp] theorem State.setSegment_cycle (s : State) (n : Nat) (g : Segment) : (s.setSegment n g).cycle = s.cycle := rfl
@[simp] theorem State.setSegment_further (s : State) (n : Nat) (g : Segment) : (s.setSegment n g).further = s.further := rfl
@[simp] theorem State.setSegment_exchange (s : State) (n : Nat) (g : Segment) : (s.setSegment n g).exchange = s.exchange := rfl
@[simp] theorem State.setSegment_receiver (s : State) (n : Nat) (g : Segment) : (s.setSegment n g).receiver = s.receiver := rfl
@[simp] theorem State.setSegment_pendingBroadcast (s : State) (n : Nat) (g : Segment) : (s.setSegment n g).pendingBroadcast = s.pendingBroadcast := rfl
@[simp] theorem State.setSegment_port (s : State) (n : Nat) (g : Segment) : (s.setSegment n g).port = s.port := rfl
@[simp] theorem State.setSegment_attn (s : State) (n : Nat) (g : Segment) : (s.setSegment n g).attn = s.attn := rfl
@[simp] theorem State.setSegment_startKind (s : State) (n : Nat) (g : Segment) : (s.setSegment n g).startKind = s.startKind := rfl
@[simp] theorem State.setSegment_startCause (s : State) (n : Nat) (g : Segment) : (s.setSegment n g).startCause = s.startCause := rfl
@[simp] theorem State.setSegment_standby (s : State) (n : Nat) (g : Segment) : (s.setSegment n g).standby = s.standby := rfl
@[simp] theorem State.setSegment_shifted (s : State) (n : Nat) (g : Segment) : (s.setSegment n g).shifted = s.shifted := rfl
@[simp] theorem State.setSegment_lineOut (s : State) (n : Nat) (g : Segment) : (s.setSegment n g).lineOut = s.lineOut := rfl
@[simp] theorem State.setSegment_edges (s : State) (n : Nat) (g : Segment) : (s.setSegment n g).edges = s.edges := rfl
@[simp] theorem State.setSegment_passDue (s : State) (n : Nat) (g : Segment) : (s.setSegment n g).passDue = s.passDue := rfl
@[simp] theorem State.setSegment_pending (s : State) (n : Nat) (g : Segment) : (s.setSegment n g).pending = s.pending := rfl
@[simp] theorem State.setSegment_expiring (s : State) (n : Nat) (g : Segment) : (s.setSegment n g).expiring = s.expiring := rfl
@[simp] theorem State.putNode_nodes (s : State) (n : Nat) (x : Option Node) : (s.putNode n x).nodes = s.nodes.put n x := rfl
@[simp] theorem State.putNode_powered (s : State) (n : Nat) (x : Option Node) : (s.putNode n x).powered = s.powered := rfl
@[simp] theorem State.putNode_timeBase (s : State) (n : Nat) (x : Option Node) : (s.putNode n x).timeBase = s.timeBase := rfl
@[simp] theorem State.putNode_subMs (s : State) (n : Nat) (x : Option Node) : (s.putNode n x).subMs = s.subMs := rfl
@[simp] theorem State.putNode_micros (s : State) (n : Nat) (x : Option Node) : (s.putNode n x).micros = s.micros := rfl
@[simp] theorem State.putNode_rolls (s : State) (n : Nat) (x : Option Node) : (s.putNode n x).rolls = s.rolls := rfl
@[simp] theorem State.putNode_arrival (s : State) (n : Nat) (x : Option Node) : (s.putNode n x).arrival = s.arrival := rfl
@[simp] theorem State.putNode_bays (s : State) (n : Nat) (x : Option Node) : (s.putNode n x).bays = s.bays := rfl
@[simp] theorem State.putNode_grades (s : State) (n : Nat) (x : Option Node) : (s.putNode n x).grades = s.grades := rfl
@[simp] theorem State.putNode_lines (s : State) (n : Nat) (x : Option Node) : (s.putNode n x).lines = s.lines := rfl
@[simp] theorem State.putNode_stands (s : State) (n : Nat) (x : Option Node) : (s.putNode n x).stands = s.stands := rfl
@[simp] theorem State.putNode_jobs (s : State) (n : Nat) (x : Option Node) : (s.putNode n x).jobs = s.jobs := rfl
@[simp] theorem State.putNode_orders (s : State) (n : Nat) (x : Option Node) : (s.putNode n x).orders = s.orders := rfl
@[simp] theorem State.putNode_orderPointer (s : State) (n : Nat) (x : Option Node) : (s.putNode n x).orderPointer = s.orderPointer := rfl
@[simp] theorem State.putNode_orderSeq (s : State) (n : Nat) (x : Option Node) : (s.putNode n x).orderSeq = s.orderSeq := rfl
@[simp] theorem State.putNode_vehicles (s : State) (n : Nat) (x : Option Node) : (s.putNode n x).vehicles = s.vehicles := rfl
@[simp] theorem State.putNode_segments (s : State) (n : Nat) (x : Option Node) : (s.putNode n x).segments = s.segments := rfl
@[simp] theorem State.putNode_routes (s : State) (n : Nat) (x : Option Node) : (s.putNode n x).routes = s.routes := rfl
@[simp] theorem State.putNode_progressTimeout (s : State) (n : Nat) (x : Option Node) : (s.putNode n x).progressTimeout = s.progressTimeout := rfl
@[simp] theorem State.putNode_transferTimeout (s : State) (n : Nat) (x : Option Node) : (s.putNode n x).transferTimeout = s.transferTimeout := rfl
@[simp] theorem State.putNode_urgentMargin (s : State) (n : Nat) (x : Option Node) : (s.putNode n x).urgentMargin = s.urgentMargin := rfl
@[simp] theorem State.putNode_halted (s : State) (n : Nat) (x : Option Node) : (s.putNode n x).halted = s.halted := rfl
@[simp] theorem State.putNode_rate (s : State) (n : Nat) (x : Option Node) : (s.putNode n x).rate = s.rate := rfl
@[simp] theorem State.putNode_replyWindow (s : State) (n : Nat) (x : Option Node) : (s.putNode n x).replyWindow = s.replyWindow := rfl
@[simp] theorem State.putNode_stations (s : State) (n : Nat) (x : Option Node) : (s.putNode n x).stations = s.stations := rfl
@[simp] theorem State.putNode_cycle (s : State) (n : Nat) (x : Option Node) : (s.putNode n x).cycle = s.cycle := rfl
@[simp] theorem State.putNode_further (s : State) (n : Nat) (x : Option Node) : (s.putNode n x).further = s.further := rfl
@[simp] theorem State.putNode_exchange (s : State) (n : Nat) (x : Option Node) : (s.putNode n x).exchange = s.exchange := rfl
@[simp] theorem State.putNode_receiver (s : State) (n : Nat) (x : Option Node) : (s.putNode n x).receiver = s.receiver := rfl
@[simp] theorem State.putNode_pendingBroadcast (s : State) (n : Nat) (x : Option Node) : (s.putNode n x).pendingBroadcast = s.pendingBroadcast := rfl
@[simp] theorem State.putNode_port (s : State) (n : Nat) (x : Option Node) : (s.putNode n x).port = s.port := rfl
@[simp] theorem State.putNode_attn (s : State) (n : Nat) (x : Option Node) : (s.putNode n x).attn = s.attn := rfl
@[simp] theorem State.putNode_startKind (s : State) (n : Nat) (x : Option Node) : (s.putNode n x).startKind = s.startKind := rfl
@[simp] theorem State.putNode_startCause (s : State) (n : Nat) (x : Option Node) : (s.putNode n x).startCause = s.startCause := rfl
@[simp] theorem State.putNode_standby (s : State) (n : Nat) (x : Option Node) : (s.putNode n x).standby = s.standby := rfl
@[simp] theorem State.putNode_shifted (s : State) (n : Nat) (x : Option Node) : (s.putNode n x).shifted = s.shifted := rfl
@[simp] theorem State.putNode_lineOut (s : State) (n : Nat) (x : Option Node) : (s.putNode n x).lineOut = s.lineOut := rfl
@[simp] theorem State.putNode_edges (s : State) (n : Nat) (x : Option Node) : (s.putNode n x).edges = s.edges := rfl
@[simp] theorem State.putNode_passDue (s : State) (n : Nat) (x : Option Node) : (s.putNode n x).passDue = s.passDue := rfl
@[simp] theorem State.putNode_pending (s : State) (n : Nat) (x : Option Node) : (s.putNode n x).pending = s.pending := rfl
@[simp] theorem State.putNode_expiring (s : State) (n : Nat) (x : Option Node) : (s.putNode n x).expiring = s.expiring := rfl
@[simp] theorem State.putRoute_routes (s : State) (n : Nat) (r : Option Route) : (s.putRoute n r).routes = s.routes.put n r := rfl
@[simp] theorem State.putRoute_powered (s : State) (n : Nat) (r : Option Route) : (s.putRoute n r).powered = s.powered := rfl
@[simp] theorem State.putRoute_timeBase (s : State) (n : Nat) (r : Option Route) : (s.putRoute n r).timeBase = s.timeBase := rfl
@[simp] theorem State.putRoute_subMs (s : State) (n : Nat) (r : Option Route) : (s.putRoute n r).subMs = s.subMs := rfl
@[simp] theorem State.putRoute_micros (s : State) (n : Nat) (r : Option Route) : (s.putRoute n r).micros = s.micros := rfl
@[simp] theorem State.putRoute_rolls (s : State) (n : Nat) (r : Option Route) : (s.putRoute n r).rolls = s.rolls := rfl
@[simp] theorem State.putRoute_arrival (s : State) (n : Nat) (r : Option Route) : (s.putRoute n r).arrival = s.arrival := rfl
@[simp] theorem State.putRoute_bays (s : State) (n : Nat) (r : Option Route) : (s.putRoute n r).bays = s.bays := rfl
@[simp] theorem State.putRoute_grades (s : State) (n : Nat) (r : Option Route) : (s.putRoute n r).grades = s.grades := rfl
@[simp] theorem State.putRoute_lines (s : State) (n : Nat) (r : Option Route) : (s.putRoute n r).lines = s.lines := rfl
@[simp] theorem State.putRoute_stands (s : State) (n : Nat) (r : Option Route) : (s.putRoute n r).stands = s.stands := rfl
@[simp] theorem State.putRoute_jobs (s : State) (n : Nat) (r : Option Route) : (s.putRoute n r).jobs = s.jobs := rfl
@[simp] theorem State.putRoute_orders (s : State) (n : Nat) (r : Option Route) : (s.putRoute n r).orders = s.orders := rfl
@[simp] theorem State.putRoute_orderPointer (s : State) (n : Nat) (r : Option Route) : (s.putRoute n r).orderPointer = s.orderPointer := rfl
@[simp] theorem State.putRoute_orderSeq (s : State) (n : Nat) (r : Option Route) : (s.putRoute n r).orderSeq = s.orderSeq := rfl
@[simp] theorem State.putRoute_vehicles (s : State) (n : Nat) (r : Option Route) : (s.putRoute n r).vehicles = s.vehicles := rfl
@[simp] theorem State.putRoute_segments (s : State) (n : Nat) (r : Option Route) : (s.putRoute n r).segments = s.segments := rfl
@[simp] theorem State.putRoute_nodes (s : State) (n : Nat) (r : Option Route) : (s.putRoute n r).nodes = s.nodes := rfl
@[simp] theorem State.putRoute_progressTimeout (s : State) (n : Nat) (r : Option Route) : (s.putRoute n r).progressTimeout = s.progressTimeout := rfl
@[simp] theorem State.putRoute_transferTimeout (s : State) (n : Nat) (r : Option Route) : (s.putRoute n r).transferTimeout = s.transferTimeout := rfl
@[simp] theorem State.putRoute_urgentMargin (s : State) (n : Nat) (r : Option Route) : (s.putRoute n r).urgentMargin = s.urgentMargin := rfl
@[simp] theorem State.putRoute_halted (s : State) (n : Nat) (r : Option Route) : (s.putRoute n r).halted = s.halted := rfl
@[simp] theorem State.putRoute_rate (s : State) (n : Nat) (r : Option Route) : (s.putRoute n r).rate = s.rate := rfl
@[simp] theorem State.putRoute_replyWindow (s : State) (n : Nat) (r : Option Route) : (s.putRoute n r).replyWindow = s.replyWindow := rfl
@[simp] theorem State.putRoute_stations (s : State) (n : Nat) (r : Option Route) : (s.putRoute n r).stations = s.stations := rfl
@[simp] theorem State.putRoute_cycle (s : State) (n : Nat) (r : Option Route) : (s.putRoute n r).cycle = s.cycle := rfl
@[simp] theorem State.putRoute_further (s : State) (n : Nat) (r : Option Route) : (s.putRoute n r).further = s.further := rfl
@[simp] theorem State.putRoute_exchange (s : State) (n : Nat) (r : Option Route) : (s.putRoute n r).exchange = s.exchange := rfl
@[simp] theorem State.putRoute_receiver (s : State) (n : Nat) (r : Option Route) : (s.putRoute n r).receiver = s.receiver := rfl
@[simp] theorem State.putRoute_pendingBroadcast (s : State) (n : Nat) (r : Option Route) : (s.putRoute n r).pendingBroadcast = s.pendingBroadcast := rfl
@[simp] theorem State.putRoute_port (s : State) (n : Nat) (r : Option Route) : (s.putRoute n r).port = s.port := rfl
@[simp] theorem State.putRoute_attn (s : State) (n : Nat) (r : Option Route) : (s.putRoute n r).attn = s.attn := rfl
@[simp] theorem State.putRoute_startKind (s : State) (n : Nat) (r : Option Route) : (s.putRoute n r).startKind = s.startKind := rfl
@[simp] theorem State.putRoute_startCause (s : State) (n : Nat) (r : Option Route) : (s.putRoute n r).startCause = s.startCause := rfl
@[simp] theorem State.putRoute_standby (s : State) (n : Nat) (r : Option Route) : (s.putRoute n r).standby = s.standby := rfl
@[simp] theorem State.putRoute_shifted (s : State) (n : Nat) (r : Option Route) : (s.putRoute n r).shifted = s.shifted := rfl
@[simp] theorem State.putRoute_lineOut (s : State) (n : Nat) (r : Option Route) : (s.putRoute n r).lineOut = s.lineOut := rfl
@[simp] theorem State.putRoute_edges (s : State) (n : Nat) (r : Option Route) : (s.putRoute n r).edges = s.edges := rfl
@[simp] theorem State.putRoute_passDue (s : State) (n : Nat) (r : Option Route) : (s.putRoute n r).passDue = s.passDue := rfl
@[simp] theorem State.putRoute_pending (s : State) (n : Nat) (r : Option Route) : (s.putRoute n r).pending = s.pending := rfl
@[simp] theorem State.putRoute_expiring (s : State) (n : Nat) (r : Option Route) : (s.putRoute n r).expiring = s.expiring := rfl
@[simp] theorem State.putStation_stations (s : State) (n : Nat) (x : Option Station) : (s.putStation n x).stations = s.stations.put n x := rfl
@[simp] theorem State.putStation_powered (s : State) (n : Nat) (x : Option Station) : (s.putStation n x).powered = s.powered := rfl
@[simp] theorem State.putStation_timeBase (s : State) (n : Nat) (x : Option Station) : (s.putStation n x).timeBase = s.timeBase := rfl
@[simp] theorem State.putStation_subMs (s : State) (n : Nat) (x : Option Station) : (s.putStation n x).subMs = s.subMs := rfl
@[simp] theorem State.putStation_micros (s : State) (n : Nat) (x : Option Station) : (s.putStation n x).micros = s.micros := rfl
@[simp] theorem State.putStation_rolls (s : State) (n : Nat) (x : Option Station) : (s.putStation n x).rolls = s.rolls := rfl
@[simp] theorem State.putStation_arrival (s : State) (n : Nat) (x : Option Station) : (s.putStation n x).arrival = s.arrival := rfl
@[simp] theorem State.putStation_bays (s : State) (n : Nat) (x : Option Station) : (s.putStation n x).bays = s.bays := rfl
@[simp] theorem State.putStation_grades (s : State) (n : Nat) (x : Option Station) : (s.putStation n x).grades = s.grades := rfl
@[simp] theorem State.putStation_lines (s : State) (n : Nat) (x : Option Station) : (s.putStation n x).lines = s.lines := rfl
@[simp] theorem State.putStation_stands (s : State) (n : Nat) (x : Option Station) : (s.putStation n x).stands = s.stands := rfl
@[simp] theorem State.putStation_jobs (s : State) (n : Nat) (x : Option Station) : (s.putStation n x).jobs = s.jobs := rfl
@[simp] theorem State.putStation_orders (s : State) (n : Nat) (x : Option Station) : (s.putStation n x).orders = s.orders := rfl
@[simp] theorem State.putStation_orderPointer (s : State) (n : Nat) (x : Option Station) : (s.putStation n x).orderPointer = s.orderPointer := rfl
@[simp] theorem State.putStation_orderSeq (s : State) (n : Nat) (x : Option Station) : (s.putStation n x).orderSeq = s.orderSeq := rfl
@[simp] theorem State.putStation_vehicles (s : State) (n : Nat) (x : Option Station) : (s.putStation n x).vehicles = s.vehicles := rfl
@[simp] theorem State.putStation_segments (s : State) (n : Nat) (x : Option Station) : (s.putStation n x).segments = s.segments := rfl
@[simp] theorem State.putStation_nodes (s : State) (n : Nat) (x : Option Station) : (s.putStation n x).nodes = s.nodes := rfl
@[simp] theorem State.putStation_routes (s : State) (n : Nat) (x : Option Station) : (s.putStation n x).routes = s.routes := rfl
@[simp] theorem State.putStation_progressTimeout (s : State) (n : Nat) (x : Option Station) : (s.putStation n x).progressTimeout = s.progressTimeout := rfl
@[simp] theorem State.putStation_transferTimeout (s : State) (n : Nat) (x : Option Station) : (s.putStation n x).transferTimeout = s.transferTimeout := rfl
@[simp] theorem State.putStation_urgentMargin (s : State) (n : Nat) (x : Option Station) : (s.putStation n x).urgentMargin = s.urgentMargin := rfl
@[simp] theorem State.putStation_halted (s : State) (n : Nat) (x : Option Station) : (s.putStation n x).halted = s.halted := rfl
@[simp] theorem State.putStation_rate (s : State) (n : Nat) (x : Option Station) : (s.putStation n x).rate = s.rate := rfl
@[simp] theorem State.putStation_replyWindow (s : State) (n : Nat) (x : Option Station) : (s.putStation n x).replyWindow = s.replyWindow := rfl
@[simp] theorem State.putStation_cycle (s : State) (n : Nat) (x : Option Station) : (s.putStation n x).cycle = s.cycle := rfl
@[simp] theorem State.putStation_further (s : State) (n : Nat) (x : Option Station) : (s.putStation n x).further = s.further := rfl
@[simp] theorem State.putStation_exchange (s : State) (n : Nat) (x : Option Station) : (s.putStation n x).exchange = s.exchange := rfl
@[simp] theorem State.putStation_receiver (s : State) (n : Nat) (x : Option Station) : (s.putStation n x).receiver = s.receiver := rfl
@[simp] theorem State.putStation_pendingBroadcast (s : State) (n : Nat) (x : Option Station) : (s.putStation n x).pendingBroadcast = s.pendingBroadcast := rfl
@[simp] theorem State.putStation_port (s : State) (n : Nat) (x : Option Station) : (s.putStation n x).port = s.port := rfl
@[simp] theorem State.putStation_attn (s : State) (n : Nat) (x : Option Station) : (s.putStation n x).attn = s.attn := rfl
@[simp] theorem State.putStation_startKind (s : State) (n : Nat) (x : Option Station) : (s.putStation n x).startKind = s.startKind := rfl
@[simp] theorem State.putStation_startCause (s : State) (n : Nat) (x : Option Station) : (s.putStation n x).startCause = s.startCause := rfl
@[simp] theorem State.putStation_standby (s : State) (n : Nat) (x : Option Station) : (s.putStation n x).standby = s.standby := rfl
@[simp] theorem State.putStation_shifted (s : State) (n : Nat) (x : Option Station) : (s.putStation n x).shifted = s.shifted := rfl
@[simp] theorem State.putStation_lineOut (s : State) (n : Nat) (x : Option Station) : (s.putStation n x).lineOut = s.lineOut := rfl
@[simp] theorem State.putStation_edges (s : State) (n : Nat) (x : Option Station) : (s.putStation n x).edges = s.edges := rfl
@[simp] theorem State.putStation_passDue (s : State) (n : Nat) (x : Option Station) : (s.putStation n x).passDue = s.passDue := rfl
@[simp] theorem State.putStation_pending (s : State) (n : Nat) (x : Option Station) : (s.putStation n x).pending = s.pending := rfl
@[simp] theorem State.putStation_expiring (s : State) (n : Nat) (x : Option Station) : (s.putStation n x).expiring = s.expiring := rfl
@[simp] theorem State.notice_passDue (s : State) : s.notice.passDue = true := rfl
@[simp] theorem State.notice_powered (s : State) : s.notice.powered = s.powered := rfl
@[simp] theorem State.notice_timeBase (s : State) : s.notice.timeBase = s.timeBase := rfl
@[simp] theorem State.notice_subMs (s : State) : s.notice.subMs = s.subMs := rfl
@[simp] theorem State.notice_micros (s : State) : s.notice.micros = s.micros := rfl
@[simp] theorem State.notice_rolls (s : State) : s.notice.rolls = s.rolls := rfl
@[simp] theorem State.notice_arrival (s : State) : s.notice.arrival = s.arrival := rfl
@[simp] theorem State.notice_bays (s : State) : s.notice.bays = s.bays := rfl
@[simp] theorem State.notice_grades (s : State) : s.notice.grades = s.grades := rfl
@[simp] theorem State.notice_lines (s : State) : s.notice.lines = s.lines := rfl
@[simp] theorem State.notice_stands (s : State) : s.notice.stands = s.stands := rfl
@[simp] theorem State.notice_jobs (s : State) : s.notice.jobs = s.jobs := rfl
@[simp] theorem State.notice_orders (s : State) : s.notice.orders = s.orders := rfl
@[simp] theorem State.notice_orderPointer (s : State) : s.notice.orderPointer = s.orderPointer := rfl
@[simp] theorem State.notice_orderSeq (s : State) : s.notice.orderSeq = s.orderSeq := rfl
@[simp] theorem State.notice_vehicles (s : State) : s.notice.vehicles = s.vehicles := rfl
@[simp] theorem State.notice_segments (s : State) : s.notice.segments = s.segments := rfl
@[simp] theorem State.notice_nodes (s : State) : s.notice.nodes = s.nodes := rfl
@[simp] theorem State.notice_routes (s : State) : s.notice.routes = s.routes := rfl
@[simp] theorem State.notice_progressTimeout (s : State) : s.notice.progressTimeout = s.progressTimeout := rfl
@[simp] theorem State.notice_transferTimeout (s : State) : s.notice.transferTimeout = s.transferTimeout := rfl
@[simp] theorem State.notice_urgentMargin (s : State) : s.notice.urgentMargin = s.urgentMargin := rfl
@[simp] theorem State.notice_halted (s : State) : s.notice.halted = s.halted := rfl
@[simp] theorem State.notice_rate (s : State) : s.notice.rate = s.rate := rfl
@[simp] theorem State.notice_replyWindow (s : State) : s.notice.replyWindow = s.replyWindow := rfl
@[simp] theorem State.notice_stations (s : State) : s.notice.stations = s.stations := rfl
@[simp] theorem State.notice_cycle (s : State) : s.notice.cycle = s.cycle := rfl
@[simp] theorem State.notice_further (s : State) : s.notice.further = s.further := rfl
@[simp] theorem State.notice_exchange (s : State) : s.notice.exchange = s.exchange := rfl
@[simp] theorem State.notice_receiver (s : State) : s.notice.receiver = s.receiver := rfl
@[simp] theorem State.notice_pendingBroadcast (s : State) : s.notice.pendingBroadcast = s.pendingBroadcast := rfl
@[simp] theorem State.notice_port (s : State) : s.notice.port = s.port := rfl
@[simp] theorem State.notice_attn (s : State) : s.notice.attn = s.attn := rfl
@[simp] theorem State.notice_startKind (s : State) : s.notice.startKind = s.startKind := rfl
@[simp] theorem State.notice_startCause (s : State) : s.notice.startCause = s.startCause := rfl
@[simp] theorem State.notice_standby (s : State) : s.notice.standby = s.standby := rfl
@[simp] theorem State.notice_shifted (s : State) : s.notice.shifted = s.shifted := rfl
@[simp] theorem State.notice_lineOut (s : State) : s.notice.lineOut = s.lineOut := rfl
@[simp] theorem State.notice_edges (s : State) : s.notice.edges = s.edges := rfl
@[simp] theorem State.notice_pending (s : State) : s.notice.pending = s.pending := rfl
@[simp] theorem State.notice_expiring (s : State) : s.notice.expiring = s.expiring := rfl
@[simp] theorem State.raise_attn (s : State) (c : Cond) (n : Nat) :
    (s.raise c n).attn = s.attn.put c.place (some (AttnEntry.raised (s.attn.find c.place) n)) := rfl
@[simp] theorem State.raise_powered (s : State) (c : Cond) (n : Nat) : (s.raise c n).powered = s.powered := rfl
@[simp] theorem State.raise_timeBase (s : State) (c : Cond) (n : Nat) : (s.raise c n).timeBase = s.timeBase := rfl
@[simp] theorem State.raise_subMs (s : State) (c : Cond) (n : Nat) : (s.raise c n).subMs = s.subMs := rfl
@[simp] theorem State.raise_micros (s : State) (c : Cond) (n : Nat) : (s.raise c n).micros = s.micros := rfl
@[simp] theorem State.raise_rolls (s : State) (c : Cond) (n : Nat) : (s.raise c n).rolls = s.rolls := rfl
@[simp] theorem State.raise_arrival (s : State) (c : Cond) (n : Nat) : (s.raise c n).arrival = s.arrival := rfl
@[simp] theorem State.raise_bays (s : State) (c : Cond) (n : Nat) : (s.raise c n).bays = s.bays := rfl
@[simp] theorem State.raise_grades (s : State) (c : Cond) (n : Nat) : (s.raise c n).grades = s.grades := rfl
@[simp] theorem State.raise_lines (s : State) (c : Cond) (n : Nat) : (s.raise c n).lines = s.lines := rfl
@[simp] theorem State.raise_stands (s : State) (c : Cond) (n : Nat) : (s.raise c n).stands = s.stands := rfl
@[simp] theorem State.raise_jobs (s : State) (c : Cond) (n : Nat) : (s.raise c n).jobs = s.jobs := rfl
@[simp] theorem State.raise_orders (s : State) (c : Cond) (n : Nat) : (s.raise c n).orders = s.orders := rfl
@[simp] theorem State.raise_orderPointer (s : State) (c : Cond) (n : Nat) : (s.raise c n).orderPointer = s.orderPointer := rfl
@[simp] theorem State.raise_orderSeq (s : State) (c : Cond) (n : Nat) : (s.raise c n).orderSeq = s.orderSeq := rfl
@[simp] theorem State.raise_vehicles (s : State) (c : Cond) (n : Nat) : (s.raise c n).vehicles = s.vehicles := rfl
@[simp] theorem State.raise_segments (s : State) (c : Cond) (n : Nat) : (s.raise c n).segments = s.segments := rfl
@[simp] theorem State.raise_nodes (s : State) (c : Cond) (n : Nat) : (s.raise c n).nodes = s.nodes := rfl
@[simp] theorem State.raise_routes (s : State) (c : Cond) (n : Nat) : (s.raise c n).routes = s.routes := rfl
@[simp] theorem State.raise_progressTimeout (s : State) (c : Cond) (n : Nat) : (s.raise c n).progressTimeout = s.progressTimeout := rfl
@[simp] theorem State.raise_transferTimeout (s : State) (c : Cond) (n : Nat) : (s.raise c n).transferTimeout = s.transferTimeout := rfl
@[simp] theorem State.raise_urgentMargin (s : State) (c : Cond) (n : Nat) : (s.raise c n).urgentMargin = s.urgentMargin := rfl
@[simp] theorem State.raise_halted (s : State) (c : Cond) (n : Nat) : (s.raise c n).halted = s.halted := rfl
@[simp] theorem State.raise_rate (s : State) (c : Cond) (n : Nat) : (s.raise c n).rate = s.rate := rfl
@[simp] theorem State.raise_replyWindow (s : State) (c : Cond) (n : Nat) : (s.raise c n).replyWindow = s.replyWindow := rfl
@[simp] theorem State.raise_stations (s : State) (c : Cond) (n : Nat) : (s.raise c n).stations = s.stations := rfl
@[simp] theorem State.raise_cycle (s : State) (c : Cond) (n : Nat) : (s.raise c n).cycle = s.cycle := rfl
@[simp] theorem State.raise_further (s : State) (c : Cond) (n : Nat) : (s.raise c n).further = s.further := rfl
@[simp] theorem State.raise_exchange (s : State) (c : Cond) (n : Nat) : (s.raise c n).exchange = s.exchange := rfl
@[simp] theorem State.raise_receiver (s : State) (c : Cond) (n : Nat) : (s.raise c n).receiver = s.receiver := rfl
@[simp] theorem State.raise_pendingBroadcast (s : State) (c : Cond) (n : Nat) : (s.raise c n).pendingBroadcast = s.pendingBroadcast := rfl
@[simp] theorem State.raise_port (s : State) (c : Cond) (n : Nat) : (s.raise c n).port = s.port := rfl
@[simp] theorem State.raise_startKind (s : State) (c : Cond) (n : Nat) : (s.raise c n).startKind = s.startKind := rfl
@[simp] theorem State.raise_startCause (s : State) (c : Cond) (n : Nat) : (s.raise c n).startCause = s.startCause := rfl
@[simp] theorem State.raise_standby (s : State) (c : Cond) (n : Nat) : (s.raise c n).standby = s.standby := rfl
@[simp] theorem State.raise_shifted (s : State) (c : Cond) (n : Nat) : (s.raise c n).shifted = s.shifted := rfl
@[simp] theorem State.raise_lineOut (s : State) (c : Cond) (n : Nat) : (s.raise c n).lineOut = s.lineOut := rfl
@[simp] theorem State.raise_edges (s : State) (c : Cond) (n : Nat) : (s.raise c n).edges = s.edges := rfl
@[simp] theorem State.raise_passDue (s : State) (c : Cond) (n : Nat) : (s.raise c n).passDue = s.passDue := rfl
@[simp] theorem State.raise_pending (s : State) (c : Cond) (n : Nat) : (s.raise c n).pending = s.pending := rfl
@[simp] theorem State.raise_expiring (s : State) (c : Cond) (n : Nat) : (s.raise c n).expiring = s.expiring := rfl
@[simp] theorem State.fresh_shifted (s : State) : s.fresh.shifted = [] := rfl
@[simp] theorem State.fresh_lineOut (s : State) : s.fresh.lineOut = [] := rfl
@[simp] theorem State.fresh_edges (s : State) : s.fresh.edges = [] := rfl
@[simp] theorem State.fresh_passDue (s : State) : s.fresh.passDue = false := rfl
@[simp] theorem State.fresh_powered (s : State) : s.fresh.powered = s.powered := rfl
@[simp] theorem State.fresh_timeBase (s : State) : s.fresh.timeBase = s.timeBase := rfl
@[simp] theorem State.fresh_subMs (s : State) : s.fresh.subMs = s.subMs := rfl
@[simp] theorem State.fresh_micros (s : State) : s.fresh.micros = s.micros := rfl
@[simp] theorem State.fresh_rolls (s : State) : s.fresh.rolls = s.rolls := rfl
@[simp] theorem State.fresh_arrival (s : State) : s.fresh.arrival = s.arrival := rfl
@[simp] theorem State.fresh_bays (s : State) : s.fresh.bays = s.bays := rfl
@[simp] theorem State.fresh_grades (s : State) : s.fresh.grades = s.grades := rfl
@[simp] theorem State.fresh_lines (s : State) : s.fresh.lines = s.lines := rfl
@[simp] theorem State.fresh_stands (s : State) : s.fresh.stands = s.stands := rfl
@[simp] theorem State.fresh_jobs (s : State) : s.fresh.jobs = s.jobs := rfl
@[simp] theorem State.fresh_orders (s : State) : s.fresh.orders = s.orders := rfl
@[simp] theorem State.fresh_orderPointer (s : State) : s.fresh.orderPointer = s.orderPointer := rfl
@[simp] theorem State.fresh_orderSeq (s : State) : s.fresh.orderSeq = s.orderSeq := rfl
@[simp] theorem State.fresh_vehicles (s : State) : s.fresh.vehicles = s.vehicles := rfl
@[simp] theorem State.fresh_segments (s : State) : s.fresh.segments = s.segments := rfl
@[simp] theorem State.fresh_nodes (s : State) : s.fresh.nodes = s.nodes := rfl
@[simp] theorem State.fresh_routes (s : State) : s.fresh.routes = s.routes := rfl
@[simp] theorem State.fresh_progressTimeout (s : State) : s.fresh.progressTimeout = s.progressTimeout := rfl
@[simp] theorem State.fresh_transferTimeout (s : State) : s.fresh.transferTimeout = s.transferTimeout := rfl
@[simp] theorem State.fresh_urgentMargin (s : State) : s.fresh.urgentMargin = s.urgentMargin := rfl
@[simp] theorem State.fresh_halted (s : State) : s.fresh.halted = s.halted := rfl
@[simp] theorem State.fresh_rate (s : State) : s.fresh.rate = s.rate := rfl
@[simp] theorem State.fresh_replyWindow (s : State) : s.fresh.replyWindow = s.replyWindow := rfl
@[simp] theorem State.fresh_stations (s : State) : s.fresh.stations = s.stations := rfl
@[simp] theorem State.fresh_cycle (s : State) : s.fresh.cycle = s.cycle := rfl
@[simp] theorem State.fresh_further (s : State) : s.fresh.further = s.further := rfl
@[simp] theorem State.fresh_exchange (s : State) : s.fresh.exchange = s.exchange := rfl
@[simp] theorem State.fresh_receiver (s : State) : s.fresh.receiver = s.receiver := rfl
@[simp] theorem State.fresh_pendingBroadcast (s : State) : s.fresh.pendingBroadcast = s.pendingBroadcast := rfl
@[simp] theorem State.fresh_port (s : State) : s.fresh.port = s.port := rfl
@[simp] theorem State.fresh_attn (s : State) : s.fresh.attn = s.attn := rfl
@[simp] theorem State.fresh_startKind (s : State) : s.fresh.startKind = s.startKind := rfl
@[simp] theorem State.fresh_startCause (s : State) : s.fresh.startCause = s.startCause := rfl
@[simp] theorem State.fresh_standby (s : State) : s.fresh.standby = s.standby := rfl
@[simp] theorem State.fresh_pending (s : State) : s.fresh.pending = s.pending := rfl
@[simp] theorem State.fresh_expiring (s : State) : s.fresh.expiring = s.expiring := rfl
@[simp] theorem State.answered_port (s : State) (k : Nat) (x : Status) (p : List Byte) :
    (s.answered k x p).port = ⟨.answer, none, some ⟨x, k, p⟩⟩ := rfl
@[simp] theorem State.answered_powered (s : State) (k : Nat) (x : Status) (p : List Byte) : (s.answered k x p).powered = s.powered := rfl
@[simp] theorem State.answered_timeBase (s : State) (k : Nat) (x : Status) (p : List Byte) : (s.answered k x p).timeBase = s.timeBase := rfl
@[simp] theorem State.answered_subMs (s : State) (k : Nat) (x : Status) (p : List Byte) : (s.answered k x p).subMs = s.subMs := rfl
@[simp] theorem State.answered_micros (s : State) (k : Nat) (x : Status) (p : List Byte) : (s.answered k x p).micros = s.micros := rfl
@[simp] theorem State.answered_rolls (s : State) (k : Nat) (x : Status) (p : List Byte) : (s.answered k x p).rolls = s.rolls := rfl
@[simp] theorem State.answered_arrival (s : State) (k : Nat) (x : Status) (p : List Byte) : (s.answered k x p).arrival = s.arrival := rfl
@[simp] theorem State.answered_bays (s : State) (k : Nat) (x : Status) (p : List Byte) : (s.answered k x p).bays = s.bays := rfl
@[simp] theorem State.answered_grades (s : State) (k : Nat) (x : Status) (p : List Byte) : (s.answered k x p).grades = s.grades := rfl
@[simp] theorem State.answered_lines (s : State) (k : Nat) (x : Status) (p : List Byte) : (s.answered k x p).lines = s.lines := rfl
@[simp] theorem State.answered_stands (s : State) (k : Nat) (x : Status) (p : List Byte) : (s.answered k x p).stands = s.stands := rfl
@[simp] theorem State.answered_jobs (s : State) (k : Nat) (x : Status) (p : List Byte) : (s.answered k x p).jobs = s.jobs := rfl
@[simp] theorem State.answered_orders (s : State) (k : Nat) (x : Status) (p : List Byte) : (s.answered k x p).orders = s.orders := rfl
@[simp] theorem State.answered_orderPointer (s : State) (k : Nat) (x : Status) (p : List Byte) : (s.answered k x p).orderPointer = s.orderPointer := rfl
@[simp] theorem State.answered_orderSeq (s : State) (k : Nat) (x : Status) (p : List Byte) : (s.answered k x p).orderSeq = s.orderSeq := rfl
@[simp] theorem State.answered_vehicles (s : State) (k : Nat) (x : Status) (p : List Byte) : (s.answered k x p).vehicles = s.vehicles := rfl
@[simp] theorem State.answered_segments (s : State) (k : Nat) (x : Status) (p : List Byte) : (s.answered k x p).segments = s.segments := rfl
@[simp] theorem State.answered_nodes (s : State) (k : Nat) (x : Status) (p : List Byte) : (s.answered k x p).nodes = s.nodes := rfl
@[simp] theorem State.answered_routes (s : State) (k : Nat) (x : Status) (p : List Byte) : (s.answered k x p).routes = s.routes := rfl
@[simp] theorem State.answered_progressTimeout (s : State) (k : Nat) (x : Status) (p : List Byte) : (s.answered k x p).progressTimeout = s.progressTimeout := rfl
@[simp] theorem State.answered_transferTimeout (s : State) (k : Nat) (x : Status) (p : List Byte) : (s.answered k x p).transferTimeout = s.transferTimeout := rfl
@[simp] theorem State.answered_urgentMargin (s : State) (k : Nat) (x : Status) (p : List Byte) : (s.answered k x p).urgentMargin = s.urgentMargin := rfl
@[simp] theorem State.answered_halted (s : State) (k : Nat) (x : Status) (p : List Byte) : (s.answered k x p).halted = s.halted := rfl
@[simp] theorem State.answered_rate (s : State) (k : Nat) (x : Status) (p : List Byte) : (s.answered k x p).rate = s.rate := rfl
@[simp] theorem State.answered_replyWindow (s : State) (k : Nat) (x : Status) (p : List Byte) : (s.answered k x p).replyWindow = s.replyWindow := rfl
@[simp] theorem State.answered_stations (s : State) (k : Nat) (x : Status) (p : List Byte) : (s.answered k x p).stations = s.stations := rfl
@[simp] theorem State.answered_cycle (s : State) (k : Nat) (x : Status) (p : List Byte) : (s.answered k x p).cycle = s.cycle := rfl
@[simp] theorem State.answered_further (s : State) (k : Nat) (x : Status) (p : List Byte) : (s.answered k x p).further = s.further := rfl
@[simp] theorem State.answered_exchange (s : State) (k : Nat) (x : Status) (p : List Byte) : (s.answered k x p).exchange = s.exchange := rfl
@[simp] theorem State.answered_receiver (s : State) (k : Nat) (x : Status) (p : List Byte) : (s.answered k x p).receiver = s.receiver := rfl
@[simp] theorem State.answered_pendingBroadcast (s : State) (k : Nat) (x : Status) (p : List Byte) : (s.answered k x p).pendingBroadcast = s.pendingBroadcast := rfl
@[simp] theorem State.answered_attn (s : State) (k : Nat) (x : Status) (p : List Byte) : (s.answered k x p).attn = s.attn := rfl
@[simp] theorem State.answered_startKind (s : State) (k : Nat) (x : Status) (p : List Byte) : (s.answered k x p).startKind = s.startKind := rfl
@[simp] theorem State.answered_startCause (s : State) (k : Nat) (x : Status) (p : List Byte) : (s.answered k x p).startCause = s.startCause := rfl
@[simp] theorem State.answered_standby (s : State) (k : Nat) (x : Status) (p : List Byte) : (s.answered k x p).standby = s.standby := rfl
@[simp] theorem State.answered_shifted (s : State) (k : Nat) (x : Status) (p : List Byte) : (s.answered k x p).shifted = s.shifted := rfl
@[simp] theorem State.answered_lineOut (s : State) (k : Nat) (x : Status) (p : List Byte) : (s.answered k x p).lineOut = s.lineOut := rfl
@[simp] theorem State.answered_edges (s : State) (k : Nat) (x : Status) (p : List Byte) : (s.answered k x p).edges = s.edges := rfl
@[simp] theorem State.answered_passDue (s : State) (k : Nat) (x : Status) (p : List Byte) : (s.answered k x p).passDue = s.passDue := rfl
@[simp] theorem State.answered_pending (s : State) (k : Nat) (x : Status) (p : List Byte) : (s.answered k x p).pending = s.pending := rfl
@[simp] theorem State.answered_expiring (s : State) (k : Nat) (x : Status) (p : List Byte) : (s.answered k x p).expiring = s.expiring := rfl
@[simp] theorem State.discards_shifted (s : State) (f : List Byte) (n : Nat) : (s.discards f n).shifted = clockedOut f n := rfl
@[simp] theorem State.discards_powered (s : State) (f : List Byte) (n : Nat) : (s.discards f n).powered = s.powered := rfl
@[simp] theorem State.discards_timeBase (s : State) (f : List Byte) (n : Nat) : (s.discards f n).timeBase = s.timeBase := rfl
@[simp] theorem State.discards_subMs (s : State) (f : List Byte) (n : Nat) : (s.discards f n).subMs = s.subMs := rfl
@[simp] theorem State.discards_micros (s : State) (f : List Byte) (n : Nat) : (s.discards f n).micros = s.micros := rfl
@[simp] theorem State.discards_rolls (s : State) (f : List Byte) (n : Nat) : (s.discards f n).rolls = s.rolls := rfl
@[simp] theorem State.discards_arrival (s : State) (f : List Byte) (n : Nat) : (s.discards f n).arrival = s.arrival := rfl
@[simp] theorem State.discards_bays (s : State) (f : List Byte) (n : Nat) : (s.discards f n).bays = s.bays := rfl
@[simp] theorem State.discards_grades (s : State) (f : List Byte) (n : Nat) : (s.discards f n).grades = s.grades := rfl
@[simp] theorem State.discards_lines (s : State) (f : List Byte) (n : Nat) : (s.discards f n).lines = s.lines := rfl
@[simp] theorem State.discards_stands (s : State) (f : List Byte) (n : Nat) : (s.discards f n).stands = s.stands := rfl
@[simp] theorem State.discards_jobs (s : State) (f : List Byte) (n : Nat) : (s.discards f n).jobs = s.jobs := rfl
@[simp] theorem State.discards_orders (s : State) (f : List Byte) (n : Nat) : (s.discards f n).orders = s.orders := rfl
@[simp] theorem State.discards_orderPointer (s : State) (f : List Byte) (n : Nat) : (s.discards f n).orderPointer = s.orderPointer := rfl
@[simp] theorem State.discards_orderSeq (s : State) (f : List Byte) (n : Nat) : (s.discards f n).orderSeq = s.orderSeq := rfl
@[simp] theorem State.discards_vehicles (s : State) (f : List Byte) (n : Nat) : (s.discards f n).vehicles = s.vehicles := rfl
@[simp] theorem State.discards_segments (s : State) (f : List Byte) (n : Nat) : (s.discards f n).segments = s.segments := rfl
@[simp] theorem State.discards_nodes (s : State) (f : List Byte) (n : Nat) : (s.discards f n).nodes = s.nodes := rfl
@[simp] theorem State.discards_routes (s : State) (f : List Byte) (n : Nat) : (s.discards f n).routes = s.routes := rfl
@[simp] theorem State.discards_progressTimeout (s : State) (f : List Byte) (n : Nat) : (s.discards f n).progressTimeout = s.progressTimeout := rfl
@[simp] theorem State.discards_transferTimeout (s : State) (f : List Byte) (n : Nat) : (s.discards f n).transferTimeout = s.transferTimeout := rfl
@[simp] theorem State.discards_urgentMargin (s : State) (f : List Byte) (n : Nat) : (s.discards f n).urgentMargin = s.urgentMargin := rfl
@[simp] theorem State.discards_halted (s : State) (f : List Byte) (n : Nat) : (s.discards f n).halted = s.halted := rfl
@[simp] theorem State.discards_rate (s : State) (f : List Byte) (n : Nat) : (s.discards f n).rate = s.rate := rfl
@[simp] theorem State.discards_replyWindow (s : State) (f : List Byte) (n : Nat) : (s.discards f n).replyWindow = s.replyWindow := rfl
@[simp] theorem State.discards_stations (s : State) (f : List Byte) (n : Nat) : (s.discards f n).stations = s.stations := rfl
@[simp] theorem State.discards_cycle (s : State) (f : List Byte) (n : Nat) : (s.discards f n).cycle = s.cycle := rfl
@[simp] theorem State.discards_further (s : State) (f : List Byte) (n : Nat) : (s.discards f n).further = s.further := rfl
@[simp] theorem State.discards_exchange (s : State) (f : List Byte) (n : Nat) : (s.discards f n).exchange = s.exchange := rfl
@[simp] theorem State.discards_receiver (s : State) (f : List Byte) (n : Nat) : (s.discards f n).receiver = s.receiver := rfl
@[simp] theorem State.discards_pendingBroadcast (s : State) (f : List Byte) (n : Nat) : (s.discards f n).pendingBroadcast = s.pendingBroadcast := rfl
@[simp] theorem State.discards_port (s : State) (f : List Byte) (n : Nat) : (s.discards f n).port = s.port := rfl
@[simp] theorem State.discards_attn (s : State) (f : List Byte) (n : Nat) : (s.discards f n).attn = s.attn := rfl
@[simp] theorem State.discards_startKind (s : State) (f : List Byte) (n : Nat) : (s.discards f n).startKind = s.startKind := rfl
@[simp] theorem State.discards_startCause (s : State) (f : List Byte) (n : Nat) : (s.discards f n).startCause = s.startCause := rfl
@[simp] theorem State.discards_standby (s : State) (f : List Byte) (n : Nat) : (s.discards f n).standby = s.standby := rfl
@[simp] theorem State.discards_lineOut (s : State) (f : List Byte) (n : Nat) : (s.discards f n).lineOut = s.lineOut := rfl
@[simp] theorem State.discards_edges (s : State) (f : List Byte) (n : Nat) : (s.discards f n).edges = s.edges := rfl
@[simp] theorem State.discards_passDue (s : State) (f : List Byte) (n : Nat) : (s.discards f n).passDue = s.passDue := rfl
@[simp] theorem State.discards_pending (s : State) (f : List Byte) (n : Nat) : (s.discards f n).pending = s.pending := rfl
@[simp] theorem State.discards_expiring (s : State) (f : List Byte) (n : Nat) : (s.discards f n).expiring = s.expiring := rfl
@[simp] theorem State.modBay_bays (s : State) (n : Nat) (f : Bay → Bay) :
    (s.modBay n f).bays = s.bays.set n .cold (f (s.bay n)) := rfl
@[simp] theorem State.modBay_powered (s : State) (n : Nat) (f : Bay → Bay) : (s.modBay n f).powered = s.powered := rfl
@[simp] theorem State.modBay_timeBase (s : State) (n : Nat) (f : Bay → Bay) : (s.modBay n f).timeBase = s.timeBase := rfl
@[simp] theorem State.modBay_subMs (s : State) (n : Nat) (f : Bay → Bay) : (s.modBay n f).subMs = s.subMs := rfl
@[simp] theorem State.modBay_micros (s : State) (n : Nat) (f : Bay → Bay) : (s.modBay n f).micros = s.micros := rfl
@[simp] theorem State.modBay_rolls (s : State) (n : Nat) (f : Bay → Bay) : (s.modBay n f).rolls = s.rolls := rfl
@[simp] theorem State.modBay_arrival (s : State) (n : Nat) (f : Bay → Bay) : (s.modBay n f).arrival = s.arrival := rfl
@[simp] theorem State.modBay_grades (s : State) (n : Nat) (f : Bay → Bay) : (s.modBay n f).grades = s.grades := rfl
@[simp] theorem State.modBay_lines (s : State) (n : Nat) (f : Bay → Bay) : (s.modBay n f).lines = s.lines := rfl
@[simp] theorem State.modBay_stands (s : State) (n : Nat) (f : Bay → Bay) : (s.modBay n f).stands = s.stands := rfl
@[simp] theorem State.modBay_jobs (s : State) (n : Nat) (f : Bay → Bay) : (s.modBay n f).jobs = s.jobs := rfl
@[simp] theorem State.modBay_orders (s : State) (n : Nat) (f : Bay → Bay) : (s.modBay n f).orders = s.orders := rfl
@[simp] theorem State.modBay_orderPointer (s : State) (n : Nat) (f : Bay → Bay) : (s.modBay n f).orderPointer = s.orderPointer := rfl
@[simp] theorem State.modBay_orderSeq (s : State) (n : Nat) (f : Bay → Bay) : (s.modBay n f).orderSeq = s.orderSeq := rfl
@[simp] theorem State.modBay_vehicles (s : State) (n : Nat) (f : Bay → Bay) : (s.modBay n f).vehicles = s.vehicles := rfl
@[simp] theorem State.modBay_segments (s : State) (n : Nat) (f : Bay → Bay) : (s.modBay n f).segments = s.segments := rfl
@[simp] theorem State.modBay_nodes (s : State) (n : Nat) (f : Bay → Bay) : (s.modBay n f).nodes = s.nodes := rfl
@[simp] theorem State.modBay_routes (s : State) (n : Nat) (f : Bay → Bay) : (s.modBay n f).routes = s.routes := rfl
@[simp] theorem State.modBay_progressTimeout (s : State) (n : Nat) (f : Bay → Bay) : (s.modBay n f).progressTimeout = s.progressTimeout := rfl
@[simp] theorem State.modBay_transferTimeout (s : State) (n : Nat) (f : Bay → Bay) : (s.modBay n f).transferTimeout = s.transferTimeout := rfl
@[simp] theorem State.modBay_urgentMargin (s : State) (n : Nat) (f : Bay → Bay) : (s.modBay n f).urgentMargin = s.urgentMargin := rfl
@[simp] theorem State.modBay_halted (s : State) (n : Nat) (f : Bay → Bay) : (s.modBay n f).halted = s.halted := rfl
@[simp] theorem State.modBay_rate (s : State) (n : Nat) (f : Bay → Bay) : (s.modBay n f).rate = s.rate := rfl
@[simp] theorem State.modBay_replyWindow (s : State) (n : Nat) (f : Bay → Bay) : (s.modBay n f).replyWindow = s.replyWindow := rfl
@[simp] theorem State.modBay_stations (s : State) (n : Nat) (f : Bay → Bay) : (s.modBay n f).stations = s.stations := rfl
@[simp] theorem State.modBay_cycle (s : State) (n : Nat) (f : Bay → Bay) : (s.modBay n f).cycle = s.cycle := rfl
@[simp] theorem State.modBay_further (s : State) (n : Nat) (f : Bay → Bay) : (s.modBay n f).further = s.further := rfl
@[simp] theorem State.modBay_exchange (s : State) (n : Nat) (f : Bay → Bay) : (s.modBay n f).exchange = s.exchange := rfl
@[simp] theorem State.modBay_receiver (s : State) (n : Nat) (f : Bay → Bay) : (s.modBay n f).receiver = s.receiver := rfl
@[simp] theorem State.modBay_pendingBroadcast (s : State) (n : Nat) (f : Bay → Bay) : (s.modBay n f).pendingBroadcast = s.pendingBroadcast := rfl
@[simp] theorem State.modBay_port (s : State) (n : Nat) (f : Bay → Bay) : (s.modBay n f).port = s.port := rfl
@[simp] theorem State.modBay_attn (s : State) (n : Nat) (f : Bay → Bay) : (s.modBay n f).attn = s.attn := rfl
@[simp] theorem State.modBay_startKind (s : State) (n : Nat) (f : Bay → Bay) : (s.modBay n f).startKind = s.startKind := rfl
@[simp] theorem State.modBay_startCause (s : State) (n : Nat) (f : Bay → Bay) : (s.modBay n f).startCause = s.startCause := rfl
@[simp] theorem State.modBay_standby (s : State) (n : Nat) (f : Bay → Bay) : (s.modBay n f).standby = s.standby := rfl
@[simp] theorem State.modBay_shifted (s : State) (n : Nat) (f : Bay → Bay) : (s.modBay n f).shifted = s.shifted := rfl
@[simp] theorem State.modBay_lineOut (s : State) (n : Nat) (f : Bay → Bay) : (s.modBay n f).lineOut = s.lineOut := rfl
@[simp] theorem State.modBay_edges (s : State) (n : Nat) (f : Bay → Bay) : (s.modBay n f).edges = s.edges := rfl
@[simp] theorem State.modBay_passDue (s : State) (n : Nat) (f : Bay → Bay) : (s.modBay n f).passDue = s.passDue := rfl
@[simp] theorem State.modBay_pending (s : State) (n : Nat) (f : Bay → Bay) : (s.modBay n f).pending = s.pending := rfl
@[simp] theorem State.modBay_expiring (s : State) (n : Nat) (f : Bay → Bay) : (s.modBay n f).expiring = s.expiring := rfl
@[simp] theorem State.modLine_lines (s : State) (n : Nat) (f : Line → Line) :
    (s.modLine n f).lines = s.lines.set n .cold (f (s.line n)) := rfl
@[simp] theorem State.modLine_powered (s : State) (n : Nat) (f : Line → Line) : (s.modLine n f).powered = s.powered := rfl
@[simp] theorem State.modLine_timeBase (s : State) (n : Nat) (f : Line → Line) : (s.modLine n f).timeBase = s.timeBase := rfl
@[simp] theorem State.modLine_subMs (s : State) (n : Nat) (f : Line → Line) : (s.modLine n f).subMs = s.subMs := rfl
@[simp] theorem State.modLine_micros (s : State) (n : Nat) (f : Line → Line) : (s.modLine n f).micros = s.micros := rfl
@[simp] theorem State.modLine_rolls (s : State) (n : Nat) (f : Line → Line) : (s.modLine n f).rolls = s.rolls := rfl
@[simp] theorem State.modLine_arrival (s : State) (n : Nat) (f : Line → Line) : (s.modLine n f).arrival = s.arrival := rfl
@[simp] theorem State.modLine_bays (s : State) (n : Nat) (f : Line → Line) : (s.modLine n f).bays = s.bays := rfl
@[simp] theorem State.modLine_grades (s : State) (n : Nat) (f : Line → Line) : (s.modLine n f).grades = s.grades := rfl
@[simp] theorem State.modLine_stands (s : State) (n : Nat) (f : Line → Line) : (s.modLine n f).stands = s.stands := rfl
@[simp] theorem State.modLine_jobs (s : State) (n : Nat) (f : Line → Line) : (s.modLine n f).jobs = s.jobs := rfl
@[simp] theorem State.modLine_orders (s : State) (n : Nat) (f : Line → Line) : (s.modLine n f).orders = s.orders := rfl
@[simp] theorem State.modLine_orderPointer (s : State) (n : Nat) (f : Line → Line) : (s.modLine n f).orderPointer = s.orderPointer := rfl
@[simp] theorem State.modLine_orderSeq (s : State) (n : Nat) (f : Line → Line) : (s.modLine n f).orderSeq = s.orderSeq := rfl
@[simp] theorem State.modLine_vehicles (s : State) (n : Nat) (f : Line → Line) : (s.modLine n f).vehicles = s.vehicles := rfl
@[simp] theorem State.modLine_segments (s : State) (n : Nat) (f : Line → Line) : (s.modLine n f).segments = s.segments := rfl
@[simp] theorem State.modLine_nodes (s : State) (n : Nat) (f : Line → Line) : (s.modLine n f).nodes = s.nodes := rfl
@[simp] theorem State.modLine_routes (s : State) (n : Nat) (f : Line → Line) : (s.modLine n f).routes = s.routes := rfl
@[simp] theorem State.modLine_progressTimeout (s : State) (n : Nat) (f : Line → Line) : (s.modLine n f).progressTimeout = s.progressTimeout := rfl
@[simp] theorem State.modLine_transferTimeout (s : State) (n : Nat) (f : Line → Line) : (s.modLine n f).transferTimeout = s.transferTimeout := rfl
@[simp] theorem State.modLine_urgentMargin (s : State) (n : Nat) (f : Line → Line) : (s.modLine n f).urgentMargin = s.urgentMargin := rfl
@[simp] theorem State.modLine_halted (s : State) (n : Nat) (f : Line → Line) : (s.modLine n f).halted = s.halted := rfl
@[simp] theorem State.modLine_rate (s : State) (n : Nat) (f : Line → Line) : (s.modLine n f).rate = s.rate := rfl
@[simp] theorem State.modLine_replyWindow (s : State) (n : Nat) (f : Line → Line) : (s.modLine n f).replyWindow = s.replyWindow := rfl
@[simp] theorem State.modLine_stations (s : State) (n : Nat) (f : Line → Line) : (s.modLine n f).stations = s.stations := rfl
@[simp] theorem State.modLine_cycle (s : State) (n : Nat) (f : Line → Line) : (s.modLine n f).cycle = s.cycle := rfl
@[simp] theorem State.modLine_further (s : State) (n : Nat) (f : Line → Line) : (s.modLine n f).further = s.further := rfl
@[simp] theorem State.modLine_exchange (s : State) (n : Nat) (f : Line → Line) : (s.modLine n f).exchange = s.exchange := rfl
@[simp] theorem State.modLine_receiver (s : State) (n : Nat) (f : Line → Line) : (s.modLine n f).receiver = s.receiver := rfl
@[simp] theorem State.modLine_pendingBroadcast (s : State) (n : Nat) (f : Line → Line) : (s.modLine n f).pendingBroadcast = s.pendingBroadcast := rfl
@[simp] theorem State.modLine_port (s : State) (n : Nat) (f : Line → Line) : (s.modLine n f).port = s.port := rfl
@[simp] theorem State.modLine_attn (s : State) (n : Nat) (f : Line → Line) : (s.modLine n f).attn = s.attn := rfl
@[simp] theorem State.modLine_startKind (s : State) (n : Nat) (f : Line → Line) : (s.modLine n f).startKind = s.startKind := rfl
@[simp] theorem State.modLine_startCause (s : State) (n : Nat) (f : Line → Line) : (s.modLine n f).startCause = s.startCause := rfl
@[simp] theorem State.modLine_standby (s : State) (n : Nat) (f : Line → Line) : (s.modLine n f).standby = s.standby := rfl
@[simp] theorem State.modLine_shifted (s : State) (n : Nat) (f : Line → Line) : (s.modLine n f).shifted = s.shifted := rfl
@[simp] theorem State.modLine_lineOut (s : State) (n : Nat) (f : Line → Line) : (s.modLine n f).lineOut = s.lineOut := rfl
@[simp] theorem State.modLine_edges (s : State) (n : Nat) (f : Line → Line) : (s.modLine n f).edges = s.edges := rfl
@[simp] theorem State.modLine_passDue (s : State) (n : Nat) (f : Line → Line) : (s.modLine n f).passDue = s.passDue := rfl
@[simp] theorem State.modLine_pending (s : State) (n : Nat) (f : Line → Line) : (s.modLine n f).pending = s.pending := rfl
@[simp] theorem State.modLine_expiring (s : State) (n : Nat) (f : Line → Line) : (s.modLine n f).expiring = s.expiring := rfl
@[simp] theorem State.modStand_stands (s : State) (n : Nat) (f : Stand → Stand) :
    (s.modStand n f).stands = s.stands.set n .cold (f (s.stand n)) := rfl
@[simp] theorem State.modStand_powered (s : State) (n : Nat) (f : Stand → Stand) : (s.modStand n f).powered = s.powered := rfl
@[simp] theorem State.modStand_timeBase (s : State) (n : Nat) (f : Stand → Stand) : (s.modStand n f).timeBase = s.timeBase := rfl
@[simp] theorem State.modStand_subMs (s : State) (n : Nat) (f : Stand → Stand) : (s.modStand n f).subMs = s.subMs := rfl
@[simp] theorem State.modStand_micros (s : State) (n : Nat) (f : Stand → Stand) : (s.modStand n f).micros = s.micros := rfl
@[simp] theorem State.modStand_rolls (s : State) (n : Nat) (f : Stand → Stand) : (s.modStand n f).rolls = s.rolls := rfl
@[simp] theorem State.modStand_arrival (s : State) (n : Nat) (f : Stand → Stand) : (s.modStand n f).arrival = s.arrival := rfl
@[simp] theorem State.modStand_bays (s : State) (n : Nat) (f : Stand → Stand) : (s.modStand n f).bays = s.bays := rfl
@[simp] theorem State.modStand_grades (s : State) (n : Nat) (f : Stand → Stand) : (s.modStand n f).grades = s.grades := rfl
@[simp] theorem State.modStand_lines (s : State) (n : Nat) (f : Stand → Stand) : (s.modStand n f).lines = s.lines := rfl
@[simp] theorem State.modStand_jobs (s : State) (n : Nat) (f : Stand → Stand) : (s.modStand n f).jobs = s.jobs := rfl
@[simp] theorem State.modStand_orders (s : State) (n : Nat) (f : Stand → Stand) : (s.modStand n f).orders = s.orders := rfl
@[simp] theorem State.modStand_orderPointer (s : State) (n : Nat) (f : Stand → Stand) : (s.modStand n f).orderPointer = s.orderPointer := rfl
@[simp] theorem State.modStand_orderSeq (s : State) (n : Nat) (f : Stand → Stand) : (s.modStand n f).orderSeq = s.orderSeq := rfl
@[simp] theorem State.modStand_vehicles (s : State) (n : Nat) (f : Stand → Stand) : (s.modStand n f).vehicles = s.vehicles := rfl
@[simp] theorem State.modStand_segments (s : State) (n : Nat) (f : Stand → Stand) : (s.modStand n f).segments = s.segments := rfl
@[simp] theorem State.modStand_nodes (s : State) (n : Nat) (f : Stand → Stand) : (s.modStand n f).nodes = s.nodes := rfl
@[simp] theorem State.modStand_routes (s : State) (n : Nat) (f : Stand → Stand) : (s.modStand n f).routes = s.routes := rfl
@[simp] theorem State.modStand_progressTimeout (s : State) (n : Nat) (f : Stand → Stand) : (s.modStand n f).progressTimeout = s.progressTimeout := rfl
@[simp] theorem State.modStand_transferTimeout (s : State) (n : Nat) (f : Stand → Stand) : (s.modStand n f).transferTimeout = s.transferTimeout := rfl
@[simp] theorem State.modStand_urgentMargin (s : State) (n : Nat) (f : Stand → Stand) : (s.modStand n f).urgentMargin = s.urgentMargin := rfl
@[simp] theorem State.modStand_halted (s : State) (n : Nat) (f : Stand → Stand) : (s.modStand n f).halted = s.halted := rfl
@[simp] theorem State.modStand_rate (s : State) (n : Nat) (f : Stand → Stand) : (s.modStand n f).rate = s.rate := rfl
@[simp] theorem State.modStand_replyWindow (s : State) (n : Nat) (f : Stand → Stand) : (s.modStand n f).replyWindow = s.replyWindow := rfl
@[simp] theorem State.modStand_stations (s : State) (n : Nat) (f : Stand → Stand) : (s.modStand n f).stations = s.stations := rfl
@[simp] theorem State.modStand_cycle (s : State) (n : Nat) (f : Stand → Stand) : (s.modStand n f).cycle = s.cycle := rfl
@[simp] theorem State.modStand_further (s : State) (n : Nat) (f : Stand → Stand) : (s.modStand n f).further = s.further := rfl
@[simp] theorem State.modStand_exchange (s : State) (n : Nat) (f : Stand → Stand) : (s.modStand n f).exchange = s.exchange := rfl
@[simp] theorem State.modStand_receiver (s : State) (n : Nat) (f : Stand → Stand) : (s.modStand n f).receiver = s.receiver := rfl
@[simp] theorem State.modStand_pendingBroadcast (s : State) (n : Nat) (f : Stand → Stand) : (s.modStand n f).pendingBroadcast = s.pendingBroadcast := rfl
@[simp] theorem State.modStand_port (s : State) (n : Nat) (f : Stand → Stand) : (s.modStand n f).port = s.port := rfl
@[simp] theorem State.modStand_attn (s : State) (n : Nat) (f : Stand → Stand) : (s.modStand n f).attn = s.attn := rfl
@[simp] theorem State.modStand_startKind (s : State) (n : Nat) (f : Stand → Stand) : (s.modStand n f).startKind = s.startKind := rfl
@[simp] theorem State.modStand_startCause (s : State) (n : Nat) (f : Stand → Stand) : (s.modStand n f).startCause = s.startCause := rfl
@[simp] theorem State.modStand_standby (s : State) (n : Nat) (f : Stand → Stand) : (s.modStand n f).standby = s.standby := rfl
@[simp] theorem State.modStand_shifted (s : State) (n : Nat) (f : Stand → Stand) : (s.modStand n f).shifted = s.shifted := rfl
@[simp] theorem State.modStand_lineOut (s : State) (n : Nat) (f : Stand → Stand) : (s.modStand n f).lineOut = s.lineOut := rfl
@[simp] theorem State.modStand_edges (s : State) (n : Nat) (f : Stand → Stand) : (s.modStand n f).edges = s.edges := rfl
@[simp] theorem State.modStand_passDue (s : State) (n : Nat) (f : Stand → Stand) : (s.modStand n f).passDue = s.passDue := rfl
@[simp] theorem State.modStand_pending (s : State) (n : Nat) (f : Stand → Stand) : (s.modStand n f).pending = s.pending := rfl
@[simp] theorem State.modStand_expiring (s : State) (n : Nat) (f : Stand → Stand) : (s.modStand n f).expiring = s.expiring := rfl
@[simp] theorem State.modVehicle_vehicles (s : State) (n : Nat) (f : Vehicle → Vehicle) :
    (s.modVehicle n f).vehicles = s.vehicles.set n .cold (f (s.vehicle n)) := rfl
@[simp] theorem State.modVehicle_powered (s : State) (n : Nat) (f : Vehicle → Vehicle) : (s.modVehicle n f).powered = s.powered := rfl
@[simp] theorem State.modVehicle_timeBase (s : State) (n : Nat) (f : Vehicle → Vehicle) : (s.modVehicle n f).timeBase = s.timeBase := rfl
@[simp] theorem State.modVehicle_subMs (s : State) (n : Nat) (f : Vehicle → Vehicle) : (s.modVehicle n f).subMs = s.subMs := rfl
@[simp] theorem State.modVehicle_micros (s : State) (n : Nat) (f : Vehicle → Vehicle) : (s.modVehicle n f).micros = s.micros := rfl
@[simp] theorem State.modVehicle_rolls (s : State) (n : Nat) (f : Vehicle → Vehicle) : (s.modVehicle n f).rolls = s.rolls := rfl
@[simp] theorem State.modVehicle_arrival (s : State) (n : Nat) (f : Vehicle → Vehicle) : (s.modVehicle n f).arrival = s.arrival := rfl
@[simp] theorem State.modVehicle_bays (s : State) (n : Nat) (f : Vehicle → Vehicle) : (s.modVehicle n f).bays = s.bays := rfl
@[simp] theorem State.modVehicle_grades (s : State) (n : Nat) (f : Vehicle → Vehicle) : (s.modVehicle n f).grades = s.grades := rfl
@[simp] theorem State.modVehicle_lines (s : State) (n : Nat) (f : Vehicle → Vehicle) : (s.modVehicle n f).lines = s.lines := rfl
@[simp] theorem State.modVehicle_stands (s : State) (n : Nat) (f : Vehicle → Vehicle) : (s.modVehicle n f).stands = s.stands := rfl
@[simp] theorem State.modVehicle_jobs (s : State) (n : Nat) (f : Vehicle → Vehicle) : (s.modVehicle n f).jobs = s.jobs := rfl
@[simp] theorem State.modVehicle_orders (s : State) (n : Nat) (f : Vehicle → Vehicle) : (s.modVehicle n f).orders = s.orders := rfl
@[simp] theorem State.modVehicle_orderPointer (s : State) (n : Nat) (f : Vehicle → Vehicle) : (s.modVehicle n f).orderPointer = s.orderPointer := rfl
@[simp] theorem State.modVehicle_orderSeq (s : State) (n : Nat) (f : Vehicle → Vehicle) : (s.modVehicle n f).orderSeq = s.orderSeq := rfl
@[simp] theorem State.modVehicle_segments (s : State) (n : Nat) (f : Vehicle → Vehicle) : (s.modVehicle n f).segments = s.segments := rfl
@[simp] theorem State.modVehicle_nodes (s : State) (n : Nat) (f : Vehicle → Vehicle) : (s.modVehicle n f).nodes = s.nodes := rfl
@[simp] theorem State.modVehicle_routes (s : State) (n : Nat) (f : Vehicle → Vehicle) : (s.modVehicle n f).routes = s.routes := rfl
@[simp] theorem State.modVehicle_progressTimeout (s : State) (n : Nat) (f : Vehicle → Vehicle) : (s.modVehicle n f).progressTimeout = s.progressTimeout := rfl
@[simp] theorem State.modVehicle_transferTimeout (s : State) (n : Nat) (f : Vehicle → Vehicle) : (s.modVehicle n f).transferTimeout = s.transferTimeout := rfl
@[simp] theorem State.modVehicle_urgentMargin (s : State) (n : Nat) (f : Vehicle → Vehicle) : (s.modVehicle n f).urgentMargin = s.urgentMargin := rfl
@[simp] theorem State.modVehicle_halted (s : State) (n : Nat) (f : Vehicle → Vehicle) : (s.modVehicle n f).halted = s.halted := rfl
@[simp] theorem State.modVehicle_rate (s : State) (n : Nat) (f : Vehicle → Vehicle) : (s.modVehicle n f).rate = s.rate := rfl
@[simp] theorem State.modVehicle_replyWindow (s : State) (n : Nat) (f : Vehicle → Vehicle) : (s.modVehicle n f).replyWindow = s.replyWindow := rfl
@[simp] theorem State.modVehicle_stations (s : State) (n : Nat) (f : Vehicle → Vehicle) : (s.modVehicle n f).stations = s.stations := rfl
@[simp] theorem State.modVehicle_cycle (s : State) (n : Nat) (f : Vehicle → Vehicle) : (s.modVehicle n f).cycle = s.cycle := rfl
@[simp] theorem State.modVehicle_further (s : State) (n : Nat) (f : Vehicle → Vehicle) : (s.modVehicle n f).further = s.further := rfl
@[simp] theorem State.modVehicle_exchange (s : State) (n : Nat) (f : Vehicle → Vehicle) : (s.modVehicle n f).exchange = s.exchange := rfl
@[simp] theorem State.modVehicle_receiver (s : State) (n : Nat) (f : Vehicle → Vehicle) : (s.modVehicle n f).receiver = s.receiver := rfl
@[simp] theorem State.modVehicle_pendingBroadcast (s : State) (n : Nat) (f : Vehicle → Vehicle) : (s.modVehicle n f).pendingBroadcast = s.pendingBroadcast := rfl
@[simp] theorem State.modVehicle_port (s : State) (n : Nat) (f : Vehicle → Vehicle) : (s.modVehicle n f).port = s.port := rfl
@[simp] theorem State.modVehicle_attn (s : State) (n : Nat) (f : Vehicle → Vehicle) : (s.modVehicle n f).attn = s.attn := rfl
@[simp] theorem State.modVehicle_startKind (s : State) (n : Nat) (f : Vehicle → Vehicle) : (s.modVehicle n f).startKind = s.startKind := rfl
@[simp] theorem State.modVehicle_startCause (s : State) (n : Nat) (f : Vehicle → Vehicle) : (s.modVehicle n f).startCause = s.startCause := rfl
@[simp] theorem State.modVehicle_standby (s : State) (n : Nat) (f : Vehicle → Vehicle) : (s.modVehicle n f).standby = s.standby := rfl
@[simp] theorem State.modVehicle_shifted (s : State) (n : Nat) (f : Vehicle → Vehicle) : (s.modVehicle n f).shifted = s.shifted := rfl
@[simp] theorem State.modVehicle_lineOut (s : State) (n : Nat) (f : Vehicle → Vehicle) : (s.modVehicle n f).lineOut = s.lineOut := rfl
@[simp] theorem State.modVehicle_edges (s : State) (n : Nat) (f : Vehicle → Vehicle) : (s.modVehicle n f).edges = s.edges := rfl
@[simp] theorem State.modVehicle_passDue (s : State) (n : Nat) (f : Vehicle → Vehicle) : (s.modVehicle n f).passDue = s.passDue := rfl
@[simp] theorem State.modVehicle_pending (s : State) (n : Nat) (f : Vehicle → Vehicle) : (s.modVehicle n f).pending = s.pending := rfl
@[simp] theorem State.modVehicle_expiring (s : State) (n : Nat) (f : Vehicle → Vehicle) : (s.modVehicle n f).expiring = s.expiring := rfl
@[simp] theorem State.modSegment_segments (s : State) (n : Nat) (f : Segment → Segment) :
    (s.modSegment n f).segments = s.segments.set n .cold (f (s.segment n)) := rfl
@[simp] theorem State.modSegment_powered (s : State) (n : Nat) (f : Segment → Segment) : (s.modSegment n f).powered = s.powered := rfl
@[simp] theorem State.modSegment_timeBase (s : State) (n : Nat) (f : Segment → Segment) : (s.modSegment n f).timeBase = s.timeBase := rfl
@[simp] theorem State.modSegment_subMs (s : State) (n : Nat) (f : Segment → Segment) : (s.modSegment n f).subMs = s.subMs := rfl
@[simp] theorem State.modSegment_micros (s : State) (n : Nat) (f : Segment → Segment) : (s.modSegment n f).micros = s.micros := rfl
@[simp] theorem State.modSegment_rolls (s : State) (n : Nat) (f : Segment → Segment) : (s.modSegment n f).rolls = s.rolls := rfl
@[simp] theorem State.modSegment_arrival (s : State) (n : Nat) (f : Segment → Segment) : (s.modSegment n f).arrival = s.arrival := rfl
@[simp] theorem State.modSegment_bays (s : State) (n : Nat) (f : Segment → Segment) : (s.modSegment n f).bays = s.bays := rfl
@[simp] theorem State.modSegment_grades (s : State) (n : Nat) (f : Segment → Segment) : (s.modSegment n f).grades = s.grades := rfl
@[simp] theorem State.modSegment_lines (s : State) (n : Nat) (f : Segment → Segment) : (s.modSegment n f).lines = s.lines := rfl
@[simp] theorem State.modSegment_stands (s : State) (n : Nat) (f : Segment → Segment) : (s.modSegment n f).stands = s.stands := rfl
@[simp] theorem State.modSegment_jobs (s : State) (n : Nat) (f : Segment → Segment) : (s.modSegment n f).jobs = s.jobs := rfl
@[simp] theorem State.modSegment_orders (s : State) (n : Nat) (f : Segment → Segment) : (s.modSegment n f).orders = s.orders := rfl
@[simp] theorem State.modSegment_orderPointer (s : State) (n : Nat) (f : Segment → Segment) : (s.modSegment n f).orderPointer = s.orderPointer := rfl
@[simp] theorem State.modSegment_orderSeq (s : State) (n : Nat) (f : Segment → Segment) : (s.modSegment n f).orderSeq = s.orderSeq := rfl
@[simp] theorem State.modSegment_vehicles (s : State) (n : Nat) (f : Segment → Segment) : (s.modSegment n f).vehicles = s.vehicles := rfl
@[simp] theorem State.modSegment_nodes (s : State) (n : Nat) (f : Segment → Segment) : (s.modSegment n f).nodes = s.nodes := rfl
@[simp] theorem State.modSegment_routes (s : State) (n : Nat) (f : Segment → Segment) : (s.modSegment n f).routes = s.routes := rfl
@[simp] theorem State.modSegment_progressTimeout (s : State) (n : Nat) (f : Segment → Segment) : (s.modSegment n f).progressTimeout = s.progressTimeout := rfl
@[simp] theorem State.modSegment_transferTimeout (s : State) (n : Nat) (f : Segment → Segment) : (s.modSegment n f).transferTimeout = s.transferTimeout := rfl
@[simp] theorem State.modSegment_urgentMargin (s : State) (n : Nat) (f : Segment → Segment) : (s.modSegment n f).urgentMargin = s.urgentMargin := rfl
@[simp] theorem State.modSegment_halted (s : State) (n : Nat) (f : Segment → Segment) : (s.modSegment n f).halted = s.halted := rfl
@[simp] theorem State.modSegment_rate (s : State) (n : Nat) (f : Segment → Segment) : (s.modSegment n f).rate = s.rate := rfl
@[simp] theorem State.modSegment_replyWindow (s : State) (n : Nat) (f : Segment → Segment) : (s.modSegment n f).replyWindow = s.replyWindow := rfl
@[simp] theorem State.modSegment_stations (s : State) (n : Nat) (f : Segment → Segment) : (s.modSegment n f).stations = s.stations := rfl
@[simp] theorem State.modSegment_cycle (s : State) (n : Nat) (f : Segment → Segment) : (s.modSegment n f).cycle = s.cycle := rfl
@[simp] theorem State.modSegment_further (s : State) (n : Nat) (f : Segment → Segment) : (s.modSegment n f).further = s.further := rfl
@[simp] theorem State.modSegment_exchange (s : State) (n : Nat) (f : Segment → Segment) : (s.modSegment n f).exchange = s.exchange := rfl
@[simp] theorem State.modSegment_receiver (s : State) (n : Nat) (f : Segment → Segment) : (s.modSegment n f).receiver = s.receiver := rfl
@[simp] theorem State.modSegment_pendingBroadcast (s : State) (n : Nat) (f : Segment → Segment) : (s.modSegment n f).pendingBroadcast = s.pendingBroadcast := rfl
@[simp] theorem State.modSegment_port (s : State) (n : Nat) (f : Segment → Segment) : (s.modSegment n f).port = s.port := rfl
@[simp] theorem State.modSegment_attn (s : State) (n : Nat) (f : Segment → Segment) : (s.modSegment n f).attn = s.attn := rfl
@[simp] theorem State.modSegment_startKind (s : State) (n : Nat) (f : Segment → Segment) : (s.modSegment n f).startKind = s.startKind := rfl
@[simp] theorem State.modSegment_startCause (s : State) (n : Nat) (f : Segment → Segment) : (s.modSegment n f).startCause = s.startCause := rfl
@[simp] theorem State.modSegment_standby (s : State) (n : Nat) (f : Segment → Segment) : (s.modSegment n f).standby = s.standby := rfl
@[simp] theorem State.modSegment_shifted (s : State) (n : Nat) (f : Segment → Segment) : (s.modSegment n f).shifted = s.shifted := rfl
@[simp] theorem State.modSegment_lineOut (s : State) (n : Nat) (f : Segment → Segment) : (s.modSegment n f).lineOut = s.lineOut := rfl
@[simp] theorem State.modSegment_edges (s : State) (n : Nat) (f : Segment → Segment) : (s.modSegment n f).edges = s.edges := rfl
@[simp] theorem State.modSegment_passDue (s : State) (n : Nat) (f : Segment → Segment) : (s.modSegment n f).passDue = s.passDue := rfl
@[simp] theorem State.modSegment_pending (s : State) (n : Nat) (f : Segment → Segment) : (s.modSegment n f).pending = s.pending := rfl
@[simp] theorem State.modSegment_expiring (s : State) (n : Nat) (f : Segment → Segment) : (s.modSegment n f).expiring = s.expiring := rfl
@[simp] theorem State.modRoll_powered (s : State) (n : Nat) (f : Roll → Roll) : (s.modRoll n f).powered = s.powered := by
  unfold State.modRoll; split <;> rfl
@[simp] theorem State.modRoll_timeBase (s : State) (n : Nat) (f : Roll → Roll) : (s.modRoll n f).timeBase = s.timeBase := by
  unfold State.modRoll; split <;> rfl
@[simp] theorem State.modRoll_subMs (s : State) (n : Nat) (f : Roll → Roll) : (s.modRoll n f).subMs = s.subMs := by
  unfold State.modRoll; split <;> rfl
@[simp] theorem State.modRoll_micros (s : State) (n : Nat) (f : Roll → Roll) : (s.modRoll n f).micros = s.micros := by
  unfold State.modRoll; split <;> rfl
@[simp] theorem State.modRoll_arrival (s : State) (n : Nat) (f : Roll → Roll) : (s.modRoll n f).arrival = s.arrival := by
  unfold State.modRoll; split <;> rfl
@[simp] theorem State.modRoll_bays (s : State) (n : Nat) (f : Roll → Roll) : (s.modRoll n f).bays = s.bays := by
  unfold State.modRoll; split <;> rfl
@[simp] theorem State.modRoll_grades (s : State) (n : Nat) (f : Roll → Roll) : (s.modRoll n f).grades = s.grades := by
  unfold State.modRoll; split <;> rfl
@[simp] theorem State.modRoll_lines (s : State) (n : Nat) (f : Roll → Roll) : (s.modRoll n f).lines = s.lines := by
  unfold State.modRoll; split <;> rfl
@[simp] theorem State.modRoll_stands (s : State) (n : Nat) (f : Roll → Roll) : (s.modRoll n f).stands = s.stands := by
  unfold State.modRoll; split <;> rfl
@[simp] theorem State.modRoll_jobs (s : State) (n : Nat) (f : Roll → Roll) : (s.modRoll n f).jobs = s.jobs := by
  unfold State.modRoll; split <;> rfl
@[simp] theorem State.modRoll_orders (s : State) (n : Nat) (f : Roll → Roll) : (s.modRoll n f).orders = s.orders := by
  unfold State.modRoll; split <;> rfl
@[simp] theorem State.modRoll_orderPointer (s : State) (n : Nat) (f : Roll → Roll) : (s.modRoll n f).orderPointer = s.orderPointer := by
  unfold State.modRoll; split <;> rfl
@[simp] theorem State.modRoll_orderSeq (s : State) (n : Nat) (f : Roll → Roll) : (s.modRoll n f).orderSeq = s.orderSeq := by
  unfold State.modRoll; split <;> rfl
@[simp] theorem State.modRoll_vehicles (s : State) (n : Nat) (f : Roll → Roll) : (s.modRoll n f).vehicles = s.vehicles := by
  unfold State.modRoll; split <;> rfl
@[simp] theorem State.modRoll_segments (s : State) (n : Nat) (f : Roll → Roll) : (s.modRoll n f).segments = s.segments := by
  unfold State.modRoll; split <;> rfl
@[simp] theorem State.modRoll_nodes (s : State) (n : Nat) (f : Roll → Roll) : (s.modRoll n f).nodes = s.nodes := by
  unfold State.modRoll; split <;> rfl
@[simp] theorem State.modRoll_routes (s : State) (n : Nat) (f : Roll → Roll) : (s.modRoll n f).routes = s.routes := by
  unfold State.modRoll; split <;> rfl
@[simp] theorem State.modRoll_progressTimeout (s : State) (n : Nat) (f : Roll → Roll) : (s.modRoll n f).progressTimeout = s.progressTimeout := by
  unfold State.modRoll; split <;> rfl
@[simp] theorem State.modRoll_transferTimeout (s : State) (n : Nat) (f : Roll → Roll) : (s.modRoll n f).transferTimeout = s.transferTimeout := by
  unfold State.modRoll; split <;> rfl
@[simp] theorem State.modRoll_urgentMargin (s : State) (n : Nat) (f : Roll → Roll) : (s.modRoll n f).urgentMargin = s.urgentMargin := by
  unfold State.modRoll; split <;> rfl
@[simp] theorem State.modRoll_halted (s : State) (n : Nat) (f : Roll → Roll) : (s.modRoll n f).halted = s.halted := by
  unfold State.modRoll; split <;> rfl
@[simp] theorem State.modRoll_rate (s : State) (n : Nat) (f : Roll → Roll) : (s.modRoll n f).rate = s.rate := by
  unfold State.modRoll; split <;> rfl
@[simp] theorem State.modRoll_replyWindow (s : State) (n : Nat) (f : Roll → Roll) : (s.modRoll n f).replyWindow = s.replyWindow := by
  unfold State.modRoll; split <;> rfl
@[simp] theorem State.modRoll_stations (s : State) (n : Nat) (f : Roll → Roll) : (s.modRoll n f).stations = s.stations := by
  unfold State.modRoll; split <;> rfl
@[simp] theorem State.modRoll_cycle (s : State) (n : Nat) (f : Roll → Roll) : (s.modRoll n f).cycle = s.cycle := by
  unfold State.modRoll; split <;> rfl
@[simp] theorem State.modRoll_further (s : State) (n : Nat) (f : Roll → Roll) : (s.modRoll n f).further = s.further := by
  unfold State.modRoll; split <;> rfl
@[simp] theorem State.modRoll_exchange (s : State) (n : Nat) (f : Roll → Roll) : (s.modRoll n f).exchange = s.exchange := by
  unfold State.modRoll; split <;> rfl
@[simp] theorem State.modRoll_receiver (s : State) (n : Nat) (f : Roll → Roll) : (s.modRoll n f).receiver = s.receiver := by
  unfold State.modRoll; split <;> rfl
@[simp] theorem State.modRoll_pendingBroadcast (s : State) (n : Nat) (f : Roll → Roll) : (s.modRoll n f).pendingBroadcast = s.pendingBroadcast := by
  unfold State.modRoll; split <;> rfl
@[simp] theorem State.modRoll_port (s : State) (n : Nat) (f : Roll → Roll) : (s.modRoll n f).port = s.port := by
  unfold State.modRoll; split <;> rfl
@[simp] theorem State.modRoll_attn (s : State) (n : Nat) (f : Roll → Roll) : (s.modRoll n f).attn = s.attn := by
  unfold State.modRoll; split <;> rfl
@[simp] theorem State.modRoll_startKind (s : State) (n : Nat) (f : Roll → Roll) : (s.modRoll n f).startKind = s.startKind := by
  unfold State.modRoll; split <;> rfl
@[simp] theorem State.modRoll_startCause (s : State) (n : Nat) (f : Roll → Roll) : (s.modRoll n f).startCause = s.startCause := by
  unfold State.modRoll; split <;> rfl
@[simp] theorem State.modRoll_standby (s : State) (n : Nat) (f : Roll → Roll) : (s.modRoll n f).standby = s.standby := by
  unfold State.modRoll; split <;> rfl
@[simp] theorem State.modRoll_shifted (s : State) (n : Nat) (f : Roll → Roll) : (s.modRoll n f).shifted = s.shifted := by
  unfold State.modRoll; split <;> rfl
@[simp] theorem State.modRoll_lineOut (s : State) (n : Nat) (f : Roll → Roll) : (s.modRoll n f).lineOut = s.lineOut := by
  unfold State.modRoll; split <;> rfl
@[simp] theorem State.modRoll_edges (s : State) (n : Nat) (f : Roll → Roll) : (s.modRoll n f).edges = s.edges := by
  unfold State.modRoll; split <;> rfl
@[simp] theorem State.modRoll_passDue (s : State) (n : Nat) (f : Roll → Roll) : (s.modRoll n f).passDue = s.passDue := by
  unfold State.modRoll; split <;> rfl
@[simp] theorem State.modRoll_pending (s : State) (n : Nat) (f : Roll → Roll) : (s.modRoll n f).pending = s.pending := by
  unfold State.modRoll; split <;> rfl
@[simp] theorem State.modRoll_expiring (s : State) (n : Nat) (f : Roll → Roll) : (s.modRoll n f).expiring = s.expiring := by
  unfold State.modRoll; split <;> rfl
@[simp] theorem State.modJob_powered (s : State) (n : Nat) (f : Job → Job) : (s.modJob n f).powered = s.powered := by
  unfold State.modJob; split <;> rfl
@[simp] theorem State.modJob_timeBase (s : State) (n : Nat) (f : Job → Job) : (s.modJob n f).timeBase = s.timeBase := by
  unfold State.modJob; split <;> rfl
@[simp] theorem State.modJob_subMs (s : State) (n : Nat) (f : Job → Job) : (s.modJob n f).subMs = s.subMs := by
  unfold State.modJob; split <;> rfl
@[simp] theorem State.modJob_micros (s : State) (n : Nat) (f : Job → Job) : (s.modJob n f).micros = s.micros := by
  unfold State.modJob; split <;> rfl
@[simp] theorem State.modJob_rolls (s : State) (n : Nat) (f : Job → Job) : (s.modJob n f).rolls = s.rolls := by
  unfold State.modJob; split <;> rfl
@[simp] theorem State.modJob_arrival (s : State) (n : Nat) (f : Job → Job) : (s.modJob n f).arrival = s.arrival := by
  unfold State.modJob; split <;> rfl
@[simp] theorem State.modJob_bays (s : State) (n : Nat) (f : Job → Job) : (s.modJob n f).bays = s.bays := by
  unfold State.modJob; split <;> rfl
@[simp] theorem State.modJob_grades (s : State) (n : Nat) (f : Job → Job) : (s.modJob n f).grades = s.grades := by
  unfold State.modJob; split <;> rfl
@[simp] theorem State.modJob_lines (s : State) (n : Nat) (f : Job → Job) : (s.modJob n f).lines = s.lines := by
  unfold State.modJob; split <;> rfl
@[simp] theorem State.modJob_stands (s : State) (n : Nat) (f : Job → Job) : (s.modJob n f).stands = s.stands := by
  unfold State.modJob; split <;> rfl
@[simp] theorem State.modJob_orders (s : State) (n : Nat) (f : Job → Job) : (s.modJob n f).orders = s.orders := by
  unfold State.modJob; split <;> rfl
@[simp] theorem State.modJob_orderPointer (s : State) (n : Nat) (f : Job → Job) : (s.modJob n f).orderPointer = s.orderPointer := by
  unfold State.modJob; split <;> rfl
@[simp] theorem State.modJob_orderSeq (s : State) (n : Nat) (f : Job → Job) : (s.modJob n f).orderSeq = s.orderSeq := by
  unfold State.modJob; split <;> rfl
@[simp] theorem State.modJob_vehicles (s : State) (n : Nat) (f : Job → Job) : (s.modJob n f).vehicles = s.vehicles := by
  unfold State.modJob; split <;> rfl
@[simp] theorem State.modJob_segments (s : State) (n : Nat) (f : Job → Job) : (s.modJob n f).segments = s.segments := by
  unfold State.modJob; split <;> rfl
@[simp] theorem State.modJob_nodes (s : State) (n : Nat) (f : Job → Job) : (s.modJob n f).nodes = s.nodes := by
  unfold State.modJob; split <;> rfl
@[simp] theorem State.modJob_routes (s : State) (n : Nat) (f : Job → Job) : (s.modJob n f).routes = s.routes := by
  unfold State.modJob; split <;> rfl
@[simp] theorem State.modJob_progressTimeout (s : State) (n : Nat) (f : Job → Job) : (s.modJob n f).progressTimeout = s.progressTimeout := by
  unfold State.modJob; split <;> rfl
@[simp] theorem State.modJob_transferTimeout (s : State) (n : Nat) (f : Job → Job) : (s.modJob n f).transferTimeout = s.transferTimeout := by
  unfold State.modJob; split <;> rfl
@[simp] theorem State.modJob_urgentMargin (s : State) (n : Nat) (f : Job → Job) : (s.modJob n f).urgentMargin = s.urgentMargin := by
  unfold State.modJob; split <;> rfl
@[simp] theorem State.modJob_halted (s : State) (n : Nat) (f : Job → Job) : (s.modJob n f).halted = s.halted := by
  unfold State.modJob; split <;> rfl
@[simp] theorem State.modJob_rate (s : State) (n : Nat) (f : Job → Job) : (s.modJob n f).rate = s.rate := by
  unfold State.modJob; split <;> rfl
@[simp] theorem State.modJob_replyWindow (s : State) (n : Nat) (f : Job → Job) : (s.modJob n f).replyWindow = s.replyWindow := by
  unfold State.modJob; split <;> rfl
@[simp] theorem State.modJob_stations (s : State) (n : Nat) (f : Job → Job) : (s.modJob n f).stations = s.stations := by
  unfold State.modJob; split <;> rfl
@[simp] theorem State.modJob_cycle (s : State) (n : Nat) (f : Job → Job) : (s.modJob n f).cycle = s.cycle := by
  unfold State.modJob; split <;> rfl
@[simp] theorem State.modJob_further (s : State) (n : Nat) (f : Job → Job) : (s.modJob n f).further = s.further := by
  unfold State.modJob; split <;> rfl
@[simp] theorem State.modJob_exchange (s : State) (n : Nat) (f : Job → Job) : (s.modJob n f).exchange = s.exchange := by
  unfold State.modJob; split <;> rfl
@[simp] theorem State.modJob_receiver (s : State) (n : Nat) (f : Job → Job) : (s.modJob n f).receiver = s.receiver := by
  unfold State.modJob; split <;> rfl
@[simp] theorem State.modJob_pendingBroadcast (s : State) (n : Nat) (f : Job → Job) : (s.modJob n f).pendingBroadcast = s.pendingBroadcast := by
  unfold State.modJob; split <;> rfl
@[simp] theorem State.modJob_port (s : State) (n : Nat) (f : Job → Job) : (s.modJob n f).port = s.port := by
  unfold State.modJob; split <;> rfl
@[simp] theorem State.modJob_attn (s : State) (n : Nat) (f : Job → Job) : (s.modJob n f).attn = s.attn := by
  unfold State.modJob; split <;> rfl
@[simp] theorem State.modJob_startKind (s : State) (n : Nat) (f : Job → Job) : (s.modJob n f).startKind = s.startKind := by
  unfold State.modJob; split <;> rfl
@[simp] theorem State.modJob_startCause (s : State) (n : Nat) (f : Job → Job) : (s.modJob n f).startCause = s.startCause := by
  unfold State.modJob; split <;> rfl
@[simp] theorem State.modJob_standby (s : State) (n : Nat) (f : Job → Job) : (s.modJob n f).standby = s.standby := by
  unfold State.modJob; split <;> rfl
@[simp] theorem State.modJob_shifted (s : State) (n : Nat) (f : Job → Job) : (s.modJob n f).shifted = s.shifted := by
  unfold State.modJob; split <;> rfl
@[simp] theorem State.modJob_lineOut (s : State) (n : Nat) (f : Job → Job) : (s.modJob n f).lineOut = s.lineOut := by
  unfold State.modJob; split <;> rfl
@[simp] theorem State.modJob_edges (s : State) (n : Nat) (f : Job → Job) : (s.modJob n f).edges = s.edges := by
  unfold State.modJob; split <;> rfl
@[simp] theorem State.modJob_passDue (s : State) (n : Nat) (f : Job → Job) : (s.modJob n f).passDue = s.passDue := by
  unfold State.modJob; split <;> rfl
@[simp] theorem State.modJob_pending (s : State) (n : Nat) (f : Job → Job) : (s.modJob n f).pending = s.pending := by
  unfold State.modJob; split <;> rfl
@[simp] theorem State.modJob_expiring (s : State) (n : Nat) (f : Job → Job) : (s.modJob n f).expiring = s.expiring := by
  unfold State.modJob; split <;> rfl
@[simp] theorem State.modOrder_powered (s : State) (n : Nat) (f : Order → Order) : (s.modOrder n f).powered = s.powered := by
  unfold State.modOrder; split <;> rfl
@[simp] theorem State.modOrder_timeBase (s : State) (n : Nat) (f : Order → Order) : (s.modOrder n f).timeBase = s.timeBase := by
  unfold State.modOrder; split <;> rfl
@[simp] theorem State.modOrder_subMs (s : State) (n : Nat) (f : Order → Order) : (s.modOrder n f).subMs = s.subMs := by
  unfold State.modOrder; split <;> rfl
@[simp] theorem State.modOrder_micros (s : State) (n : Nat) (f : Order → Order) : (s.modOrder n f).micros = s.micros := by
  unfold State.modOrder; split <;> rfl
@[simp] theorem State.modOrder_rolls (s : State) (n : Nat) (f : Order → Order) : (s.modOrder n f).rolls = s.rolls := by
  unfold State.modOrder; split <;> rfl
@[simp] theorem State.modOrder_arrival (s : State) (n : Nat) (f : Order → Order) : (s.modOrder n f).arrival = s.arrival := by
  unfold State.modOrder; split <;> rfl
@[simp] theorem State.modOrder_bays (s : State) (n : Nat) (f : Order → Order) : (s.modOrder n f).bays = s.bays := by
  unfold State.modOrder; split <;> rfl
@[simp] theorem State.modOrder_grades (s : State) (n : Nat) (f : Order → Order) : (s.modOrder n f).grades = s.grades := by
  unfold State.modOrder; split <;> rfl
@[simp] theorem State.modOrder_lines (s : State) (n : Nat) (f : Order → Order) : (s.modOrder n f).lines = s.lines := by
  unfold State.modOrder; split <;> rfl
@[simp] theorem State.modOrder_stands (s : State) (n : Nat) (f : Order → Order) : (s.modOrder n f).stands = s.stands := by
  unfold State.modOrder; split <;> rfl
@[simp] theorem State.modOrder_jobs (s : State) (n : Nat) (f : Order → Order) : (s.modOrder n f).jobs = s.jobs := by
  unfold State.modOrder; split <;> rfl
@[simp] theorem State.modOrder_orderPointer (s : State) (n : Nat) (f : Order → Order) : (s.modOrder n f).orderPointer = s.orderPointer := by
  unfold State.modOrder; split <;> rfl
@[simp] theorem State.modOrder_orderSeq (s : State) (n : Nat) (f : Order → Order) : (s.modOrder n f).orderSeq = s.orderSeq := by
  unfold State.modOrder; split <;> rfl
@[simp] theorem State.modOrder_vehicles (s : State) (n : Nat) (f : Order → Order) : (s.modOrder n f).vehicles = s.vehicles := by
  unfold State.modOrder; split <;> rfl
@[simp] theorem State.modOrder_segments (s : State) (n : Nat) (f : Order → Order) : (s.modOrder n f).segments = s.segments := by
  unfold State.modOrder; split <;> rfl
@[simp] theorem State.modOrder_nodes (s : State) (n : Nat) (f : Order → Order) : (s.modOrder n f).nodes = s.nodes := by
  unfold State.modOrder; split <;> rfl
@[simp] theorem State.modOrder_routes (s : State) (n : Nat) (f : Order → Order) : (s.modOrder n f).routes = s.routes := by
  unfold State.modOrder; split <;> rfl
@[simp] theorem State.modOrder_progressTimeout (s : State) (n : Nat) (f : Order → Order) : (s.modOrder n f).progressTimeout = s.progressTimeout := by
  unfold State.modOrder; split <;> rfl
@[simp] theorem State.modOrder_transferTimeout (s : State) (n : Nat) (f : Order → Order) : (s.modOrder n f).transferTimeout = s.transferTimeout := by
  unfold State.modOrder; split <;> rfl
@[simp] theorem State.modOrder_urgentMargin (s : State) (n : Nat) (f : Order → Order) : (s.modOrder n f).urgentMargin = s.urgentMargin := by
  unfold State.modOrder; split <;> rfl
@[simp] theorem State.modOrder_halted (s : State) (n : Nat) (f : Order → Order) : (s.modOrder n f).halted = s.halted := by
  unfold State.modOrder; split <;> rfl
@[simp] theorem State.modOrder_rate (s : State) (n : Nat) (f : Order → Order) : (s.modOrder n f).rate = s.rate := by
  unfold State.modOrder; split <;> rfl
@[simp] theorem State.modOrder_replyWindow (s : State) (n : Nat) (f : Order → Order) : (s.modOrder n f).replyWindow = s.replyWindow := by
  unfold State.modOrder; split <;> rfl
@[simp] theorem State.modOrder_stations (s : State) (n : Nat) (f : Order → Order) : (s.modOrder n f).stations = s.stations := by
  unfold State.modOrder; split <;> rfl
@[simp] theorem State.modOrder_cycle (s : State) (n : Nat) (f : Order → Order) : (s.modOrder n f).cycle = s.cycle := by
  unfold State.modOrder; split <;> rfl
@[simp] theorem State.modOrder_further (s : State) (n : Nat) (f : Order → Order) : (s.modOrder n f).further = s.further := by
  unfold State.modOrder; split <;> rfl
@[simp] theorem State.modOrder_exchange (s : State) (n : Nat) (f : Order → Order) : (s.modOrder n f).exchange = s.exchange := by
  unfold State.modOrder; split <;> rfl
@[simp] theorem State.modOrder_receiver (s : State) (n : Nat) (f : Order → Order) : (s.modOrder n f).receiver = s.receiver := by
  unfold State.modOrder; split <;> rfl
@[simp] theorem State.modOrder_pendingBroadcast (s : State) (n : Nat) (f : Order → Order) : (s.modOrder n f).pendingBroadcast = s.pendingBroadcast := by
  unfold State.modOrder; split <;> rfl
@[simp] theorem State.modOrder_port (s : State) (n : Nat) (f : Order → Order) : (s.modOrder n f).port = s.port := by
  unfold State.modOrder; split <;> rfl
@[simp] theorem State.modOrder_attn (s : State) (n : Nat) (f : Order → Order) : (s.modOrder n f).attn = s.attn := by
  unfold State.modOrder; split <;> rfl
@[simp] theorem State.modOrder_startKind (s : State) (n : Nat) (f : Order → Order) : (s.modOrder n f).startKind = s.startKind := by
  unfold State.modOrder; split <;> rfl
@[simp] theorem State.modOrder_startCause (s : State) (n : Nat) (f : Order → Order) : (s.modOrder n f).startCause = s.startCause := by
  unfold State.modOrder; split <;> rfl
@[simp] theorem State.modOrder_standby (s : State) (n : Nat) (f : Order → Order) : (s.modOrder n f).standby = s.standby := by
  unfold State.modOrder; split <;> rfl
@[simp] theorem State.modOrder_shifted (s : State) (n : Nat) (f : Order → Order) : (s.modOrder n f).shifted = s.shifted := by
  unfold State.modOrder; split <;> rfl
@[simp] theorem State.modOrder_lineOut (s : State) (n : Nat) (f : Order → Order) : (s.modOrder n f).lineOut = s.lineOut := by
  unfold State.modOrder; split <;> rfl
@[simp] theorem State.modOrder_edges (s : State) (n : Nat) (f : Order → Order) : (s.modOrder n f).edges = s.edges := by
  unfold State.modOrder; split <;> rfl
@[simp] theorem State.modOrder_passDue (s : State) (n : Nat) (f : Order → Order) : (s.modOrder n f).passDue = s.passDue := by
  unfold State.modOrder; split <;> rfl
@[simp] theorem State.modOrder_pending (s : State) (n : Nat) (f : Order → Order) : (s.modOrder n f).pending = s.pending := by
  unfold State.modOrder; split <;> rfl
@[simp] theorem State.modOrder_expiring (s : State) (n : Nat) (f : Order → Order) : (s.modOrder n f).expiring = s.expiring := by
  unfold State.modOrder; split <;> rfl
@[simp] theorem State.modStation_powered (s : State) (n : Nat) (f : Station → Station) : (s.modStation n f).powered = s.powered := by
  unfold State.modStation; split <;> rfl
@[simp] theorem State.modStation_timeBase (s : State) (n : Nat) (f : Station → Station) : (s.modStation n f).timeBase = s.timeBase := by
  unfold State.modStation; split <;> rfl
@[simp] theorem State.modStation_subMs (s : State) (n : Nat) (f : Station → Station) : (s.modStation n f).subMs = s.subMs := by
  unfold State.modStation; split <;> rfl
@[simp] theorem State.modStation_micros (s : State) (n : Nat) (f : Station → Station) : (s.modStation n f).micros = s.micros := by
  unfold State.modStation; split <;> rfl
@[simp] theorem State.modStation_rolls (s : State) (n : Nat) (f : Station → Station) : (s.modStation n f).rolls = s.rolls := by
  unfold State.modStation; split <;> rfl
@[simp] theorem State.modStation_arrival (s : State) (n : Nat) (f : Station → Station) : (s.modStation n f).arrival = s.arrival := by
  unfold State.modStation; split <;> rfl
@[simp] theorem State.modStation_bays (s : State) (n : Nat) (f : Station → Station) : (s.modStation n f).bays = s.bays := by
  unfold State.modStation; split <;> rfl
@[simp] theorem State.modStation_grades (s : State) (n : Nat) (f : Station → Station) : (s.modStation n f).grades = s.grades := by
  unfold State.modStation; split <;> rfl
@[simp] theorem State.modStation_lines (s : State) (n : Nat) (f : Station → Station) : (s.modStation n f).lines = s.lines := by
  unfold State.modStation; split <;> rfl
@[simp] theorem State.modStation_stands (s : State) (n : Nat) (f : Station → Station) : (s.modStation n f).stands = s.stands := by
  unfold State.modStation; split <;> rfl
@[simp] theorem State.modStation_jobs (s : State) (n : Nat) (f : Station → Station) : (s.modStation n f).jobs = s.jobs := by
  unfold State.modStation; split <;> rfl
@[simp] theorem State.modStation_orders (s : State) (n : Nat) (f : Station → Station) : (s.modStation n f).orders = s.orders := by
  unfold State.modStation; split <;> rfl
@[simp] theorem State.modStation_orderPointer (s : State) (n : Nat) (f : Station → Station) : (s.modStation n f).orderPointer = s.orderPointer := by
  unfold State.modStation; split <;> rfl
@[simp] theorem State.modStation_orderSeq (s : State) (n : Nat) (f : Station → Station) : (s.modStation n f).orderSeq = s.orderSeq := by
  unfold State.modStation; split <;> rfl
@[simp] theorem State.modStation_vehicles (s : State) (n : Nat) (f : Station → Station) : (s.modStation n f).vehicles = s.vehicles := by
  unfold State.modStation; split <;> rfl
@[simp] theorem State.modStation_segments (s : State) (n : Nat) (f : Station → Station) : (s.modStation n f).segments = s.segments := by
  unfold State.modStation; split <;> rfl
@[simp] theorem State.modStation_nodes (s : State) (n : Nat) (f : Station → Station) : (s.modStation n f).nodes = s.nodes := by
  unfold State.modStation; split <;> rfl
@[simp] theorem State.modStation_routes (s : State) (n : Nat) (f : Station → Station) : (s.modStation n f).routes = s.routes := by
  unfold State.modStation; split <;> rfl
@[simp] theorem State.modStation_progressTimeout (s : State) (n : Nat) (f : Station → Station) : (s.modStation n f).progressTimeout = s.progressTimeout := by
  unfold State.modStation; split <;> rfl
@[simp] theorem State.modStation_transferTimeout (s : State) (n : Nat) (f : Station → Station) : (s.modStation n f).transferTimeout = s.transferTimeout := by
  unfold State.modStation; split <;> rfl
@[simp] theorem State.modStation_urgentMargin (s : State) (n : Nat) (f : Station → Station) : (s.modStation n f).urgentMargin = s.urgentMargin := by
  unfold State.modStation; split <;> rfl
@[simp] theorem State.modStation_halted (s : State) (n : Nat) (f : Station → Station) : (s.modStation n f).halted = s.halted := by
  unfold State.modStation; split <;> rfl
@[simp] theorem State.modStation_rate (s : State) (n : Nat) (f : Station → Station) : (s.modStation n f).rate = s.rate := by
  unfold State.modStation; split <;> rfl
@[simp] theorem State.modStation_replyWindow (s : State) (n : Nat) (f : Station → Station) : (s.modStation n f).replyWindow = s.replyWindow := by
  unfold State.modStation; split <;> rfl
@[simp] theorem State.modStation_cycle (s : State) (n : Nat) (f : Station → Station) : (s.modStation n f).cycle = s.cycle := by
  unfold State.modStation; split <;> rfl
@[simp] theorem State.modStation_further (s : State) (n : Nat) (f : Station → Station) : (s.modStation n f).further = s.further := by
  unfold State.modStation; split <;> rfl
@[simp] theorem State.modStation_exchange (s : State) (n : Nat) (f : Station → Station) : (s.modStation n f).exchange = s.exchange := by
  unfold State.modStation; split <;> rfl
@[simp] theorem State.modStation_receiver (s : State) (n : Nat) (f : Station → Station) : (s.modStation n f).receiver = s.receiver := by
  unfold State.modStation; split <;> rfl
@[simp] theorem State.modStation_pendingBroadcast (s : State) (n : Nat) (f : Station → Station) : (s.modStation n f).pendingBroadcast = s.pendingBroadcast := by
  unfold State.modStation; split <;> rfl
@[simp] theorem State.modStation_port (s : State) (n : Nat) (f : Station → Station) : (s.modStation n f).port = s.port := by
  unfold State.modStation; split <;> rfl
@[simp] theorem State.modStation_attn (s : State) (n : Nat) (f : Station → Station) : (s.modStation n f).attn = s.attn := by
  unfold State.modStation; split <;> rfl
@[simp] theorem State.modStation_startKind (s : State) (n : Nat) (f : Station → Station) : (s.modStation n f).startKind = s.startKind := by
  unfold State.modStation; split <;> rfl
@[simp] theorem State.modStation_startCause (s : State) (n : Nat) (f : Station → Station) : (s.modStation n f).startCause = s.startCause := by
  unfold State.modStation; split <;> rfl
@[simp] theorem State.modStation_standby (s : State) (n : Nat) (f : Station → Station) : (s.modStation n f).standby = s.standby := by
  unfold State.modStation; split <;> rfl
@[simp] theorem State.modStation_shifted (s : State) (n : Nat) (f : Station → Station) : (s.modStation n f).shifted = s.shifted := by
  unfold State.modStation; split <;> rfl
@[simp] theorem State.modStation_lineOut (s : State) (n : Nat) (f : Station → Station) : (s.modStation n f).lineOut = s.lineOut := by
  unfold State.modStation; split <;> rfl
@[simp] theorem State.modStation_edges (s : State) (n : Nat) (f : Station → Station) : (s.modStation n f).edges = s.edges := by
  unfold State.modStation; split <;> rfl
@[simp] theorem State.modStation_passDue (s : State) (n : Nat) (f : Station → Station) : (s.modStation n f).passDue = s.passDue := by
  unfold State.modStation; split <;> rfl
@[simp] theorem State.modStation_pending (s : State) (n : Nat) (f : Station → Station) : (s.modStation n f).pending = s.pending := by
  unfold State.modStation; split <;> rfl
@[simp] theorem State.modStation_expiring (s : State) (n : Nat) (f : Station → Station) : (s.modStation n f).expiring = s.expiring := by
  unfold State.modStation; split <;> rfl
@[simp] theorem State.drivePin_powered (s : State) (p : Pin) (b : Bool) : (s.drivePin p b).powered = s.powered := by
  unfold State.drivePin; split; · rfl
  · cases p <;> rfl
@[simp] theorem State.drivePin_timeBase (s : State) (p : Pin) (b : Bool) : (s.drivePin p b).timeBase = s.timeBase := by
  unfold State.drivePin; split; · rfl
  · cases p <;> rfl
@[simp] theorem State.drivePin_subMs (s : State) (p : Pin) (b : Bool) : (s.drivePin p b).subMs = s.subMs := by
  unfold State.drivePin; split; · rfl
  · cases p <;> rfl
@[simp] theorem State.drivePin_micros (s : State) (p : Pin) (b : Bool) : (s.drivePin p b).micros = s.micros := by
  unfold State.drivePin; split; · rfl
  · cases p <;> rfl
@[simp] theorem State.drivePin_rolls (s : State) (p : Pin) (b : Bool) : (s.drivePin p b).rolls = s.rolls := by
  unfold State.drivePin; split; · rfl
  · cases p <;> rfl
@[simp] theorem State.drivePin_arrival (s : State) (p : Pin) (b : Bool) : (s.drivePin p b).arrival = s.arrival := by
  unfold State.drivePin; split; · rfl
  · cases p <;> rfl
@[simp] theorem State.drivePin_bays (s : State) (p : Pin) (b : Bool) : (s.drivePin p b).bays = s.bays := by
  unfold State.drivePin; split; · rfl
  · cases p <;> rfl
@[simp] theorem State.drivePin_grades (s : State) (p : Pin) (b : Bool) : (s.drivePin p b).grades = s.grades := by
  unfold State.drivePin; split; · rfl
  · cases p <;> rfl
@[simp] theorem State.drivePin_jobs (s : State) (p : Pin) (b : Bool) : (s.drivePin p b).jobs = s.jobs := by
  unfold State.drivePin; split; · rfl
  · cases p <;> rfl
@[simp] theorem State.drivePin_orders (s : State) (p : Pin) (b : Bool) : (s.drivePin p b).orders = s.orders := by
  unfold State.drivePin; split; · rfl
  · cases p <;> rfl
@[simp] theorem State.drivePin_orderPointer (s : State) (p : Pin) (b : Bool) : (s.drivePin p b).orderPointer = s.orderPointer := by
  unfold State.drivePin; split; · rfl
  · cases p <;> rfl
@[simp] theorem State.drivePin_orderSeq (s : State) (p : Pin) (b : Bool) : (s.drivePin p b).orderSeq = s.orderSeq := by
  unfold State.drivePin; split; · rfl
  · cases p <;> rfl
@[simp] theorem State.drivePin_vehicles (s : State) (p : Pin) (b : Bool) : (s.drivePin p b).vehicles = s.vehicles := by
  unfold State.drivePin; split; · rfl
  · cases p <;> rfl
@[simp] theorem State.drivePin_segments (s : State) (p : Pin) (b : Bool) : (s.drivePin p b).segments = s.segments := by
  unfold State.drivePin; split; · rfl
  · cases p <;> rfl
@[simp] theorem State.drivePin_nodes (s : State) (p : Pin) (b : Bool) : (s.drivePin p b).nodes = s.nodes := by
  unfold State.drivePin; split; · rfl
  · cases p <;> rfl
@[simp] theorem State.drivePin_routes (s : State) (p : Pin) (b : Bool) : (s.drivePin p b).routes = s.routes := by
  unfold State.drivePin; split; · rfl
  · cases p <;> rfl
@[simp] theorem State.drivePin_progressTimeout (s : State) (p : Pin) (b : Bool) : (s.drivePin p b).progressTimeout = s.progressTimeout := by
  unfold State.drivePin; split; · rfl
  · cases p <;> rfl
@[simp] theorem State.drivePin_transferTimeout (s : State) (p : Pin) (b : Bool) : (s.drivePin p b).transferTimeout = s.transferTimeout := by
  unfold State.drivePin; split; · rfl
  · cases p <;> rfl
@[simp] theorem State.drivePin_urgentMargin (s : State) (p : Pin) (b : Bool) : (s.drivePin p b).urgentMargin = s.urgentMargin := by
  unfold State.drivePin; split; · rfl
  · cases p <;> rfl
@[simp] theorem State.drivePin_halted (s : State) (p : Pin) (b : Bool) : (s.drivePin p b).halted = s.halted := by
  unfold State.drivePin; split; · rfl
  · cases p <;> rfl
@[simp] theorem State.drivePin_rate (s : State) (p : Pin) (b : Bool) : (s.drivePin p b).rate = s.rate := by
  unfold State.drivePin; split; · rfl
  · cases p <;> rfl
@[simp] theorem State.drivePin_replyWindow (s : State) (p : Pin) (b : Bool) : (s.drivePin p b).replyWindow = s.replyWindow := by
  unfold State.drivePin; split; · rfl
  · cases p <;> rfl
@[simp] theorem State.drivePin_stations (s : State) (p : Pin) (b : Bool) : (s.drivePin p b).stations = s.stations := by
  unfold State.drivePin; split; · rfl
  · cases p <;> rfl
@[simp] theorem State.drivePin_cycle (s : State) (p : Pin) (b : Bool) : (s.drivePin p b).cycle = s.cycle := by
  unfold State.drivePin; split; · rfl
  · cases p <;> rfl
@[simp] theorem State.drivePin_further (s : State) (p : Pin) (b : Bool) : (s.drivePin p b).further = s.further := by
  unfold State.drivePin; split; · rfl
  · cases p <;> rfl
@[simp] theorem State.drivePin_exchange (s : State) (p : Pin) (b : Bool) : (s.drivePin p b).exchange = s.exchange := by
  unfold State.drivePin; split; · rfl
  · cases p <;> rfl
@[simp] theorem State.drivePin_receiver (s : State) (p : Pin) (b : Bool) : (s.drivePin p b).receiver = s.receiver := by
  unfold State.drivePin; split; · rfl
  · cases p <;> rfl
@[simp] theorem State.drivePin_pendingBroadcast (s : State) (p : Pin) (b : Bool) : (s.drivePin p b).pendingBroadcast = s.pendingBroadcast := by
  unfold State.drivePin; split; · rfl
  · cases p <;> rfl
@[simp] theorem State.drivePin_port (s : State) (p : Pin) (b : Bool) : (s.drivePin p b).port = s.port := by
  unfold State.drivePin; split; · rfl
  · cases p <;> rfl
@[simp] theorem State.drivePin_attn (s : State) (p : Pin) (b : Bool) : (s.drivePin p b).attn = s.attn := by
  unfold State.drivePin; split; · rfl
  · cases p <;> rfl
@[simp] theorem State.drivePin_startKind (s : State) (p : Pin) (b : Bool) : (s.drivePin p b).startKind = s.startKind := by
  unfold State.drivePin; split; · rfl
  · cases p <;> rfl
@[simp] theorem State.drivePin_startCause (s : State) (p : Pin) (b : Bool) : (s.drivePin p b).startCause = s.startCause := by
  unfold State.drivePin; split; · rfl
  · cases p <;> rfl
@[simp] theorem State.drivePin_standby (s : State) (p : Pin) (b : Bool) : (s.drivePin p b).standby = s.standby := by
  unfold State.drivePin; split; · rfl
  · cases p <;> rfl
@[simp] theorem State.drivePin_shifted (s : State) (p : Pin) (b : Bool) : (s.drivePin p b).shifted = s.shifted := by
  unfold State.drivePin; split; · rfl
  · cases p <;> rfl
@[simp] theorem State.drivePin_lineOut (s : State) (p : Pin) (b : Bool) : (s.drivePin p b).lineOut = s.lineOut := by
  unfold State.drivePin; split; · rfl
  · cases p <;> rfl
@[simp] theorem State.drivePin_passDue (s : State) (p : Pin) (b : Bool) : (s.drivePin p b).passDue = s.passDue := by
  unfold State.drivePin; split; · rfl
  · cases p <;> rfl
@[simp] theorem State.drivePin_pending (s : State) (p : Pin) (b : Bool) : (s.drivePin p b).pending = s.pending := by
  unfold State.drivePin; split; · rfl
  · cases p <;> rfl
@[simp] theorem State.drivePin_expiring (s : State) (p : Pin) (b : Bool) : (s.drivePin p b).expiring = s.expiring := by
  unfold State.drivePin; split; · rfl
  · cases p <;> rfl
@[simp] theorem State.send_powered (s : State) (a : Nat) (c : Cmd) : (s.send a c).powered = s.powered := by
  simp [State.send, State.sendKept]
@[simp] theorem State.send_timeBase (s : State) (a : Nat) (c : Cmd) : (s.send a c).timeBase = s.timeBase := by
  simp [State.send, State.sendKept]
@[simp] theorem State.send_subMs (s : State) (a : Nat) (c : Cmd) : (s.send a c).subMs = s.subMs := by
  simp [State.send, State.sendKept]
@[simp] theorem State.send_micros (s : State) (a : Nat) (c : Cmd) : (s.send a c).micros = s.micros := by
  simp [State.send, State.sendKept]
@[simp] theorem State.send_rolls (s : State) (a : Nat) (c : Cmd) : (s.send a c).rolls = s.rolls := by
  simp [State.send, State.sendKept]
@[simp] theorem State.send_arrival (s : State) (a : Nat) (c : Cmd) : (s.send a c).arrival = s.arrival := by
  simp [State.send, State.sendKept]
@[simp] theorem State.send_bays (s : State) (a : Nat) (c : Cmd) : (s.send a c).bays = s.bays := by
  simp [State.send, State.sendKept]
@[simp] theorem State.send_grades (s : State) (a : Nat) (c : Cmd) : (s.send a c).grades = s.grades := by
  simp [State.send, State.sendKept]
@[simp] theorem State.send_lines (s : State) (a : Nat) (c : Cmd) : (s.send a c).lines = s.lines := by
  simp [State.send, State.sendKept]
@[simp] theorem State.send_stands (s : State) (a : Nat) (c : Cmd) : (s.send a c).stands = s.stands := by
  simp [State.send, State.sendKept]
@[simp] theorem State.send_jobs (s : State) (a : Nat) (c : Cmd) : (s.send a c).jobs = s.jobs := by
  simp [State.send, State.sendKept]
@[simp] theorem State.send_orders (s : State) (a : Nat) (c : Cmd) : (s.send a c).orders = s.orders := by
  simp [State.send, State.sendKept]
@[simp] theorem State.send_orderPointer (s : State) (a : Nat) (c : Cmd) : (s.send a c).orderPointer = s.orderPointer := by
  simp [State.send, State.sendKept]
@[simp] theorem State.send_orderSeq (s : State) (a : Nat) (c : Cmd) : (s.send a c).orderSeq = s.orderSeq := by
  simp [State.send, State.sendKept]
@[simp] theorem State.send_vehicles (s : State) (a : Nat) (c : Cmd) : (s.send a c).vehicles = s.vehicles := by
  simp [State.send, State.sendKept]
@[simp] theorem State.send_segments (s : State) (a : Nat) (c : Cmd) : (s.send a c).segments = s.segments := by
  simp [State.send, State.sendKept]
@[simp] theorem State.send_nodes (s : State) (a : Nat) (c : Cmd) : (s.send a c).nodes = s.nodes := by
  simp [State.send, State.sendKept]
@[simp] theorem State.send_routes (s : State) (a : Nat) (c : Cmd) : (s.send a c).routes = s.routes := by
  simp [State.send, State.sendKept]
@[simp] theorem State.send_progressTimeout (s : State) (a : Nat) (c : Cmd) : (s.send a c).progressTimeout = s.progressTimeout := by
  simp [State.send, State.sendKept]
@[simp] theorem State.send_transferTimeout (s : State) (a : Nat) (c : Cmd) : (s.send a c).transferTimeout = s.transferTimeout := by
  simp [State.send, State.sendKept]
@[simp] theorem State.send_urgentMargin (s : State) (a : Nat) (c : Cmd) : (s.send a c).urgentMargin = s.urgentMargin := by
  simp [State.send, State.sendKept]
@[simp] theorem State.send_halted (s : State) (a : Nat) (c : Cmd) : (s.send a c).halted = s.halted := by
  simp [State.send, State.sendKept]
@[simp] theorem State.send_rate (s : State) (a : Nat) (c : Cmd) : (s.send a c).rate = s.rate := by
  simp [State.send, State.sendKept]
@[simp] theorem State.send_replyWindow (s : State) (a : Nat) (c : Cmd) : (s.send a c).replyWindow = s.replyWindow := by
  simp [State.send, State.sendKept]
@[simp] theorem State.send_cycle (s : State) (a : Nat) (c : Cmd) : (s.send a c).cycle = s.cycle := by
  simp [State.send, State.sendKept]
@[simp] theorem State.send_further (s : State) (a : Nat) (c : Cmd) : (s.send a c).further = s.further := by
  simp [State.send, State.sendKept]
@[simp] theorem State.send_exchange (s : State) (a : Nat) (c : Cmd) : (s.send a c).exchange = s.exchange := by
  simp [State.send, State.sendKept]
@[simp] theorem State.send_receiver (s : State) (a : Nat) (c : Cmd) : (s.send a c).receiver = s.receiver := by
  simp [State.send, State.sendKept]
@[simp] theorem State.send_pendingBroadcast (s : State) (a : Nat) (c : Cmd) : (s.send a c).pendingBroadcast = s.pendingBroadcast := by
  simp [State.send, State.sendKept]
@[simp] theorem State.send_port (s : State) (a : Nat) (c : Cmd) : (s.send a c).port = s.port := by
  simp [State.send, State.sendKept]
@[simp] theorem State.send_attn (s : State) (a : Nat) (c : Cmd) : (s.send a c).attn = s.attn := by
  simp [State.send, State.sendKept]
@[simp] theorem State.send_startKind (s : State) (a : Nat) (c : Cmd) : (s.send a c).startKind = s.startKind := by
  simp [State.send, State.sendKept]
@[simp] theorem State.send_startCause (s : State) (a : Nat) (c : Cmd) : (s.send a c).startCause = s.startCause := by
  simp [State.send, State.sendKept]
@[simp] theorem State.send_standby (s : State) (a : Nat) (c : Cmd) : (s.send a c).standby = s.standby := by
  simp [State.send, State.sendKept]
@[simp] theorem State.send_shifted (s : State) (a : Nat) (c : Cmd) : (s.send a c).shifted = s.shifted := by
  simp [State.send, State.sendKept]
@[simp] theorem State.send_lineOut (s : State) (a : Nat) (c : Cmd) : (s.send a c).lineOut = s.lineOut := by
  simp [State.send, State.sendKept]
@[simp] theorem State.send_edges (s : State) (a : Nat) (c : Cmd) : (s.send a c).edges = s.edges := by
  simp [State.send, State.sendKept]
@[simp] theorem State.send_passDue (s : State) (a : Nat) (c : Cmd) : (s.send a c).passDue = s.passDue := by
  simp [State.send, State.sendKept]
@[simp] theorem State.send_pending (s : State) (a : Nat) (c : Cmd) : (s.send a c).pending = s.pending := by
  simp [State.send, State.sendKept]
@[simp] theorem State.send_expiring (s : State) (a : Nat) (c : Cmd) : (s.send a c).expiring = s.expiring := by
  simp [State.send, State.sendKept]

end Sys2Proof.Machine
end

