-- ==== Sys2Proof/Laws/Tables.lean ====
section
/-! SUPPORT. Numbered tables: what a write of one record does, and that it keeps the canonical form. -/

namespace Sys2Proof

variable {α : Type}

/-! ## Reading after a write -/

theorem Tbl.find_drop_same (t : Tbl α) (n : Nat) : (t.drop n).find n = none := by
  induction t with
  | nil => rfl
  | cons e t ih =>
    obtain ⟨k, a⟩ := e
    by_cases h : k = n <;> simp [Tbl.drop, Tbl.find, h, ih]

theorem Tbl.find_drop_other (t : Tbl α) {m n : Nat} (h : m ≠ n) : (t.drop n).find m = t.find m := by
  induction t with
  | nil => rfl
  | cons e t ih =>
    obtain ⟨k, a⟩ := e
    by_cases hk : k = n
    · have : k ≠ m := fun e => h (e ▸ hk)
      simp [Tbl.drop, Tbl.find, hk, ih]; intro e; exact absurd (hk.trans e) this
    · simp [Tbl.drop, Tbl.find, hk, ih]

theorem Tbl.find_enter_other (t : Tbl α) {m n : Nat} (x : α) (h : m ≠ n) : (t.enter n x).find m = t.find m := by
  induction t with
  | nil => simp [Tbl.enter, Tbl.find, Ne.symm h]
  | cons e t ih =>
    obtain ⟨k, a⟩ := e
    by_cases hk : n < k <;> simp [Tbl.enter, Tbl.find, hk, ih, Ne.symm h]

theorem Tbl.find_enter_same (t : Tbl α) (n : Nat) (x : α) (h : t.find n = none) : (t.enter n x).find n = some x := by
  induction t with
  | nil => simp [Tbl.enter, Tbl.find]
  | cons e t ih =>
    obtain ⟨k, a⟩ := e
    simp only [Tbl.find] at h
    split at h
    · cases h
    · rename_i hk
      by_cases hn : n < k <;> simp [Tbl.enter, Tbl.find, hn, ih h, hk]

/-- A record read after a write at its own number is what was written. -/
@[simp] theorem Tbl.find_put_same (t : Tbl α) (n : Nat) (o : Option α) : (t.put n o).find n = o := by
  cases o with
  | none => exact t.find_drop_same n
  | some x => exact Tbl.find_enter_same _ n x (t.find_drop_same n)

/-- A write leaves every other number's record as it was. -/
theorem Tbl.find_put_other (t : Tbl α) {m n : Nat} (o : Option α) (h : m ≠ n) : (t.put n o).find m = t.find m := by
  cases o with
  | none => exact t.find_drop_other h
  | some x => exact (Tbl.find_enter_other _ x h).trans (t.find_drop_other h)

/-- A record read anywhere after a write. -/
theorem Tbl.find_put (t : Tbl α) (m n : Nat) (o : Option α) : (t.put n o).find m = if m = n then o else t.find m := by
  split
  · next h => rw [h, t.find_put_same]
  · next h => exact t.find_put_other o h

theorem Tbl.drop_enter (t : Tbl α) (n : Nat) (x : α) : (t.enter n x).drop n = t.drop n := by
  induction t with
  | nil => simp [Tbl.enter, Tbl.drop]
  | cons e t ih =>
    unfold Tbl.enter
    split
    · simp [Tbl.drop]
    · simp [Tbl.drop, ih]

theorem Tbl.drop_drop (t : Tbl α) (n : Nat) : (t.drop n).drop n = t.drop n := by
  induction t with
  | nil => rfl
  | cons e t ih =>
    by_cases h : e.1 = n
    · simp [Tbl.drop, h, ih]
    · simp [Tbl.drop, h, ih]

/-- The later of two writes at one number stands. -/
@[simp] theorem Tbl.put_put (t : Tbl α) (n : Nat) (a b : Option α) : (t.put n a).put n b = t.put n b := by
  have h : (t.put n a).drop n = t.drop n := by
    cases a with
    | none => exact t.drop_drop n
    | some x => exact (Tbl.drop_enter _ n x).trans (t.drop_drop n)
  cases b with
  | none => exact h
  | some y => exact congrArg (fun u => Tbl.enter u n y) h

@[simp] theorem Tbl.set_set [DecidableEq α] (t : Tbl α) (n : Nat) (cold a b : α) : (t.set n cold a).set n cold b = t.set n cold b := by
  simp [Tbl.set]

@[simp] theorem Tbl.get_set_same [DecidableEq α] (t : Tbl α) (n : Nat) (cold x : α) : (t.set n cold x).get n cold = x := by
  by_cases h : x = cold <;> simp [Tbl.set, Tbl.get, h]

theorem Tbl.get_set_other [DecidableEq α] (t : Tbl α) {m n : Nat} (cold x : α) (h : m ≠ n) :
    (t.set n cold x).get m cold = t.get m cold := by
  simp [Tbl.set, Tbl.get, t.find_put_other _ h]

/-- A record of a table with an unlisted value read anywhere after a write. -/
theorem Tbl.get_set [DecidableEq α] (t : Tbl α) (m n : Nat) (cold x : α) :
    (t.set n cold x).get m cold = if m = n then x else t.get m cold := by
  split
  · next h => rw [h, t.get_set_same]
  · next h => exact t.get_set_other cold x h

/-! ## Entries after a write -/

theorem Tbl.mem_drop {t : Tbl α} {n : Nat} {e : Nat × α} : e ∈ t.drop n ↔ e ∈ t ∧ e.1 ≠ n := by
  induction t with
  | nil => simp [Tbl.drop]
  | cons d t ih =>
    obtain ⟨k, a⟩ := d
    by_cases h : k = n
    · simp only [Tbl.drop, h, if_pos]
      rw [ih]
      constructor
      · exact fun ⟨a, b⟩ => ⟨List.mem_cons_of_mem _ a, b⟩
      · rintro ⟨a, b⟩
        cases a with
        | head => exact absurd rfl b
        | tail _ a => exact ⟨a, b⟩
    · simp only [Tbl.drop, h, if_neg, not_false_iff, List.mem_cons, ih]
      constructor
      · rintro (rfl | ⟨a, b⟩)
        · exact ⟨.inl rfl, h⟩
        · exact ⟨.inr a, b⟩
      · rintro ⟨rfl | a, b⟩
        · exact .inl rfl
        · exact .inr ⟨a, b⟩

theorem Tbl.mem_enter {t : Tbl α} {n : Nat} {x : α} {e : Nat × α} : e ∈ t.enter n x ↔ e = (n, x) ∨ e ∈ t := by
  induction t with
  | nil => simp [Tbl.enter]
  | cons d t ih =>
    obtain ⟨k, a⟩ := d
    by_cases h : n < k
    · simp [Tbl.enter, h]
    · simp only [Tbl.enter, h, if_neg, not_false_iff, List.mem_cons, ih]
      constructor
      · rintro (h | h | h) <;> simp [h]
      · rintro (h | h | h) <;> simp [h]

/-- The entries of a table after a write: the one written, and the old ones of other numbers. -/
theorem Tbl.mem_put {t : Tbl α} {n : Nat} {o : Option α} {e : Nat × α} :
    e ∈ t.put n o ↔ (∃ x, o = some x ∧ e = (n, x)) ∨ (e ∈ t ∧ e.1 ≠ n) := by
  cases o with
  | none => simp [Tbl.put, Tbl.mem_drop]
  | some x => simp [Tbl.put, Tbl.mem_drop, Tbl.mem_enter]

theorem Tbl.mem_of_find {t : Tbl α} {n : Nat} {x : α} (h : t.find n = some x) : (n, x) ∈ t := by
  induction t with
  | nil => cases h
  | cons d t ih =>
    obtain ⟨k, a⟩ := d
    simp only [Tbl.find] at h
    split at h
    · next hk => cases h; cases hk; exact List.mem_cons_self
    · exact List.mem_cons_of_mem _ (ih h)

/-- A test that every entry passes holds after a write of a record that passes it. -/
theorem Tbl.all_put {t : Tbl α} {n : Nat} {o : Option α} {p : Nat × α → Bool} (ht : t.all p = true)
    (ho : ∀ x, o = some x → p (n, x) = true) : (t.put n o).all p = true := by
  rw [List.all_eq_true] at ht ⊢
  intro e he
  rcases Tbl.mem_put.mp he with ⟨x, hx, rfl⟩ | ⟨he, _⟩
  · exact ho x hx
  · exact ht e he

/-! ## The canonical form -/

theorem Tbl.rising_iff {t : Tbl α} : t.rising = true ↔ List.Pairwise (fun a b : Nat × α => a.1 < b.1) t := by
  induction t with
  | nil => simp [Tbl.rising]
  | cons d t ih =>
    obtain ⟨k, a⟩ := d
    cases t with
    | nil => simp [Tbl.rising]
    | cons e t =>
      obtain ⟨m, b⟩ := e
      rw [Tbl.rising, Bool.and_eq_true, decide_eq_true_eq, ih, List.pairwise_cons (a := (k, a))]
      refine and_congr_left fun h => ⟨fun hk e he => ?_, fun hk => hk _ List.mem_cons_self⟩
      cases he with
      | head => exact hk
      | tail _ he => exact Nat.lt_trans hk ((List.pairwise_cons.mp h).1 e he)

theorem Tbl.rising_drop {t : Tbl α} (n : Nat) (h : t.rising = true) : (t.drop n).rising = true := by
  rw [Tbl.rising_iff] at h ⊢
  have : t.drop n = List.filter (fun e : Nat × α => e.1 != n) t := by
    clear h
    induction t with
    | nil => rfl
    | cons d t ih =>
      obtain ⟨k, a⟩ := d
      by_cases hk : k = n <;> simp [Tbl.drop, hk, ih]
  rw [this]
  exact h.filter _

theorem Tbl.rising_enter {t : Tbl α} (n : Nat) (x : α) (h : t.rising = true) (hn : ∀ e ∈ t, e.1 ≠ n) : (t.enter n x).rising = true := by
  rw [Tbl.rising_iff] at h ⊢
  induction t with
  | nil => simp [Tbl.enter]
  | cons d t ih =>
    obtain ⟨k, a⟩ := d
    have hc := List.pairwise_cons.mp h
    by_cases hk : n < k
    · simp only [Tbl.enter, hk, if_pos]
      refine List.pairwise_cons.mpr ⟨fun e he => ?_, h⟩
      cases he with
      | head => exact hk
      | tail _ he => exact Nat.lt_trans hk (hc.1 e he)
    · simp only [Tbl.enter, hk, if_neg, not_false_iff]
      refine List.pairwise_cons.mpr ⟨fun e he => ?_, ih hc.2 fun e he => hn e (List.mem_cons_of_mem _ he)⟩
      rcases Tbl.mem_enter.mp he with rfl | he
      · have := hn (k, a) List.mem_cons_self
        simp only at this ⊢
        omega
      · exact hc.1 e he

/-- A write keeps a table's numbers rising. -/
theorem Tbl.rising_put {t : Tbl α} (n : Nat) (o : Option α) (h : t.rising = true) : (t.put n o).rising = true := by
  cases o with
  | none => exact Tbl.rising_drop n h
  | some x => exact Tbl.rising_enter n x (Tbl.rising_drop n h) fun e he => (Tbl.mem_drop.mp he).2

/-- A write keeps a table with an unlisted value canonical. -/
theorem Tbl.canonical_set [DecidableEq α] {t : Tbl α} (n : Nat) (cold x : α) (h : t.canonical cold = true) :
    (t.set n cold x).canonical cold = true := by
  simp only [Tbl.canonical, Bool.and_eq_true] at h ⊢
  refine ⟨Tbl.rising_put n _ h.1, Tbl.all_put h.2 fun y hy => ?_⟩
  split at hy
  · cases hy
  · next hx => cases hy; simpa using hx

end Sys2Proof
end

