-- ==== Sys2Proof/Laws/Writes.lean ====
section
/-! SUPPORT. What a chain of writes can do, said once: every operation of the part is such a chain, so a law that each single write
keeps is a law that every step keeps. The level k says how far the writes reach: 0 the sequence of a stand, the orders and what serves
them; 1 also first starts, measurement and bays; 2 also the break machines, the counting and the charges; 3 also the plans and the jobs'
states; 4 everything. -/

namespace Sys2Proof.Machine

/-- The fields no operation on a roll changes, and those a level below 2 keeps. -/
def Roll.same (k : Nat) (r r' : Roll) : Prop :=
  r'.tag = r.tag ∧ r'.arrival = r.arrival ∧ r'.grade = r.grade ∧ r'.width = r.width ∧
  (k < 2 → r'.diameter = r.diameter ∧ r'.consumed = r.consumed ∧ r'.mount = r.mount)

/-- The fields of a stand the levels keep. -/
def Stand.same (k : Nat) (x y : Stand) : Prop :=
  (k < 4 → y.m = x.m ∧ y.k = x.k ∧ y.offset = x.offset ∧ y.tol = x.tol ∧ y.pulse = x.pulse ∧ y.loading = x.loading ∧
    y.webBreak = x.webBreak) ∧
  (k < 1 → y.df = x.df ∧ y.run = x.run ∧ y.ts = x.ts ∧ y.measureLost = x.measureLost ∧ y.markLeft = x.markLeft ∧
    y.runout = x.runout ∧ y.brake = x.brake ∧ y.armA.state = x.armA.state ∧ y.armA.roll = x.armA.roll ∧ y.armB.state = x.armB.state ∧
    y.armB.roll = x.armB.roll)

/-- The fields of a line the levels keep. -/
def Line.same (k : Nat) (x y : Line) : Prop :=
  (k < 4 → y.lam = x.lam ∧ y.w = x.w ∧ y.enables = x.enables ∧ y.web = x.web ∧ y.gateWeb = x.gateWeb ∧ y.v = x.v ∧ y.jam = x.jam) ∧
  (k < 3 → y.live = x.live ∧ y.working = x.working ∧ y.pending = x.pending)

/-- The fields of a job the levels keep; its tallies stay in their bounds. -/
def Job.same (k : Nat) (j j' : Job) : Prop :=
  j'.line = j.line ∧ (j.bounded → j'.bounded) ∧ (k < 3 → j'.state = j.state ∧ j'.target = j.target ∧ j'.allowance = j.allowance)

/-- A bay keeps within its limit, or its stack and limit are kept or the stack shortened. -/
def Bay.fits (x y : Bay) : Prop :=
  (y.stack.length ≤ y.limit ∧ y.limit ≤ 3) ∨ (y.limit = x.limit ∧ (y.stack.length ≤ x.stack.length ∨ y.stack.length ≤ y.limit))

/-- What every level below 4 keeps of a station. -/
def Station.same (k : Nat) (x y : Station) : Prop :=
  (x.bounded → y.bounded) ∧ (k < 4 → y.role = x.role ∧ y.place = x.place ∧ y.silent = x.silent ∧ y.miss = x.miss ∧ y.reduced = x.reduced)

/-- Two states with the same tables and counters. -/
structure SameTables (s t : State) : Prop where
  rolls : t.rolls = s.rolls
  arrival : t.arrival = s.arrival
  bays : t.bays = s.bays
  grades : t.grades = s.grades
  lines : t.lines = s.lines
  stands : t.stands = s.stands
  jobs : t.jobs = s.jobs
  orders : t.orders = s.orders
  orderSeq : t.orderSeq = s.orderSeq
  vehicles : t.vehicles = s.vehicles
  segments : t.segments = s.segments
  nodes : t.nodes = s.nodes
  routes : t.routes = s.routes
  stations : t.stations = s.stations
  attn : t.attn = s.attn

/-- A chain of writes of a level from one state. -/
inductive Wr (k : Nat) (s₀ : State) : State → Prop
  | refl : Wr k s₀ s₀
  | other {s t : State} (h : Wr k s₀ s) (hk : 4 ≤ k) (ht : SameTables s t) : Wr k s₀ t
  | small {s : State} (h : Wr k s₀ s) (due : Bool) (edges : List Edge) : Wr k s₀ { s with passDue := due, edges := edges }
  | roll {s : State} (h : Wr k s₀ s) {n : Nat} {r r' : Roll} (hr : s.roll n = some r) (hs : Roll.same k r r') : Wr k s₀ (s.putRoll n (some r'))
  | freeRoll {s : State} (h : Wr k s₀ s) (hk : 2 ≤ k) (n : Nat) : Wr k s₀ (s.putRoll n none)
  | newRoll {s : State} (h : Wr k s₀ s) (hk : 4 ≤ k) {n : Nat} {r : Roll} (hf : ∀ e ∈ s.rolls, e.2.tag ≠ r.tag)
      (ha : r.arrival = s.arrival + 1) (hm : s.arrival + 1 ≤ Config.max32) :
      Wr k s₀ { s.putRoll n (some r) with arrival := s.arrival + 1 }
  | bay {s : State} (h : Wr k s₀ s) (hk : 1 ≤ k) {n : Nat} {b : Bay} (hb : (s.bay n).fits b) : Wr k s₀ (s.setBay n b)
  | grade {s : State} (h : Wr k s₀ s) (hk : 4 ≤ k) (n : Nat) (g : Grade) : Wr k s₀ (s.setGrade n g)
  | line {s : State} (h : Wr k s₀ s) (hk : 2 ≤ k) {n : Nat} {x : Line} (hx : (s.line n).same k x) : Wr k s₀ (s.setLine n x)
  | stand {s : State} (h : Wr k s₀ s) {n : Nat} {x : Stand} (hx : (s.stand n).same k x) (ho : (s.stand n).oneActive → x.oneActive) :
      Wr k s₀ (s.setStand n x)
  | job {s : State} (h : Wr k s₀ s) (hk : 2 ≤ k) {n : Nat} {j j' : Job} (hj : s.job n = some j) (hs : j.same k j') :
      Wr k s₀ (s.putJob n (some j'))
  | putJob {s : State} (h : Wr k s₀ s) (hk : 4 ≤ k) (n : Nat) {o : Option Job} (ho : ∀ j, o = some j → j.bounded) : Wr k s₀ (s.putJob n o)
  | order {s : State} (h : Wr k s₀ s) {n : Nat} {o o' : Order} (ho : s.order n = some o) (hs : o'.seq = o.seq) :
      Wr k s₀ (s.putOrder n (some o'))
  | freeOrder {s : State} (h : Wr k s₀ s) (n : Nat) : Wr k s₀ (s.putOrder n none)
  | newOrder {s : State} (h : Wr k s₀ s) (p n : Nat) {o : Order} (hs : o.seq = s.orderSeq + 1) (hm : s.orderSeq + 1 ≤ Config.max32) :
      Wr k s₀ ({ s with orderPointer := p, orderSeq := s.orderSeq + 1 }.putOrder n (some o))
  | vehicle {s : State} (h : Wr k s₀ s) (n : Nat) (v : Vehicle) : Wr k s₀ (s.setVehicle n v)
  | segment {s : State} (h : Wr k s₀ s) (hk : 1 ≤ k) {n : Nat} {g : Segment} (hg : k < 4 → g.kind = (s.segment n).kind) :
      Wr k s₀ (s.setSegment n g)
  | node {s : State} (h : Wr k s₀ s) (hk : 4 ≤ k) (n : Nat) (x : Option Node) : Wr k s₀ (s.putNode n x)
  | route {s : State} (h : Wr k s₀ s) (hk : 4 ≤ k) (n : Nat) (x : Option Route) : Wr k s₀ (s.putRoute n x)
  | station {s : State} (h : Wr k s₀ s) {n : Nat} {x y : Station} (hx : s.station n = some x) (hs : x.same k y) :
      Wr k s₀ (s.putStation n (some y))
  | putStation {s : State} (h : Wr k s₀ s) (hk : 4 ≤ k) (n : Nat) {x : Option Station} (hb : ∀ y, x = some y → y.bounded) :
      Wr k s₀ (s.putStation n x)
  | raised {s : State} (h : Wr k s₀ s) (c : Cond) (n : Nat) (hb : k < 2 → c ≠ .lineBreak) (hd : k < 1 → c ≠ .rollDiscrepancy) :
      Wr k s₀ (s.raise c n)
  | attnClear {s : State} (h : Wr k s₀ s) (hk : 4 ≤ k) : Wr k s₀ { s with attn := [] }
  | cold {s : State} (h : Wr k s₀ s) (hk : 4 ≤ k) : Wr k s₀ s.coldStart

variable {k : Nat} {s₀ s : State}

theorem Wr.trans {b c : State} (h : Wr k s₀ b) (g : Wr k b c) : Wr k s₀ c := by
  induction g with
  | refl => exact h
  | other _ hk ht ih => exact ih.other hk ht
  | small _ d e ih => exact ih.small d e
  | roll _ hr hs ih => exact ih.roll hr hs
  | freeRoll _ hk n ih => exact ih.freeRoll hk n
  | newRoll _ hk hf ha hm ih => exact ih.newRoll hk hf ha hm
  | bay _ hk hb ih => exact ih.bay hk hb
  | grade _ hk n g ih => exact ih.grade hk n g
  | line _ hk hx ih => exact ih.line hk hx
  | stand _ hx ho ih => exact ih.stand hx ho
  | job _ hk hj hs ih => exact ih.job hk hj hs
  | putJob _ hk n ho ih => exact ih.putJob hk n ho
  | order _ ho hs ih => exact ih.order ho hs
  | freeOrder _ n ih => exact ih.freeOrder n
  | newOrder _ p n hs hm ih => exact ih.newOrder p n hs hm
  | vehicle _ n v ih => exact ih.vehicle n v
  | segment _ hk hg ih => exact ih.segment hk hg
  | node _ hk n x ih => exact ih.node hk n x
  | route _ hk n x ih => exact ih.route hk n x
  | station _ hx hs ih => exact ih.station hx hs
  | putStation _ hk n hb ih => exact ih.putStation hk n hb
  | raised _ c n hb hd ih => exact ih.raised c n hb hd
  | attnClear _ hk ih => exact ih.attnClear hk
  | cold _ hk ih => exact ih.cold hk

/-! ## The named updates as writes -/

theorem Roll.same_refl (k : Nat) (r : Roll) : Roll.same k r r := ⟨rfl, rfl, rfl, rfl, fun _ => ⟨rfl, rfl, rfl⟩⟩

theorem State.wr_modRoll (h : Wr k s₀ s) (n : Nat) (f : Roll → Roll) (hf : ∀ r, Roll.same k r (f r)) : Wr k s₀ (s.modRoll n f) := by
  unfold State.modRoll
  split
  · exact h
  · next r hr => exact h.roll hr (hf r)

theorem State.wr_modBay (h : Wr k s₀ s) (hk : 1 ≤ k) (n : Nat) (f : Bay → Bay) (hf : ∀ b : Bay, b.fits (f b)) : Wr k s₀ (s.modBay n f) :=
  h.bay hk (hf _)

theorem State.wr_modLine (h : Wr k s₀ s) (hk : 2 ≤ k) (n : Nat) (f : Line → Line) (hf : ∀ x : Line, x.same k (f x)) :
    Wr k s₀ (s.modLine n f) := h.line hk (hf _)

theorem State.wr_modStand (h : Wr k s₀ s) (n : Nat) (f : Stand → Stand) (hf : ∀ x : Stand, x.same k (f x))
    (ho : ∀ x : Stand, x.oneActive → (f x).oneActive := by exact fun _ h => h) : Wr k s₀ (s.modStand n f) :=
  h.stand (hf _) (ho _)

theorem State.wr_modJob (h : Wr k s₀ s) (hk : 2 ≤ k) (n : Nat) (f : Job → Job) (hf : ∀ j : Job, j.same k (f j)) :
    Wr k s₀ (s.modJob n f) := by
  unfold State.modJob
  split
  · exact h
  · next j hj => exact h.job hk hj (hf j)

theorem State.wr_modOrder (h : Wr k s₀ s) (n : Nat) (f : Order → Order) (hf : ∀ o, (f o).seq = o.seq) : Wr k s₀ (s.modOrder n f) := by
  unfold State.modOrder
  split
  · exact h
  · next o ho => exact h.order ho (hf o)

theorem State.wr_modVehicle (h : Wr k s₀ s) (n : Nat) (f : Vehicle → Vehicle) : Wr k s₀ (s.modVehicle n f) := h.vehicle n _

theorem State.wr_modSegment (h : Wr k s₀ s) (hk : 1 ≤ k) (n : Nat) (f : Segment → Segment) (hf : ∀ g, (f g).kind = g.kind) :
    Wr k s₀ (s.modSegment n f) := h.segment hk fun _ => hf _

theorem State.wr_modStation (h : Wr k s₀ s) (n : Nat) (f : Station → Station) (hf : ∀ x : Station, x.same k (f x)) :
    Wr k s₀ (s.modStation n f) := by
  unfold State.modStation
  split
  · exact h
  · next x hx => exact h.station hx (hf x)

theorem State.wr_notice (h : Wr k s₀ s) : Wr k s₀ s.notice := h.small true s.edges

theorem State.wr_each (h : Wr k s₀ s) (ns : List Nat) (f : Nat → State → State) (hf : ∀ n t, Wr k s₀ t → Wr k s₀ (f n t)) :
    Wr k s₀ (s.each ns f) := by
  unfold State.each
  induction ns generalizing s with
  | nil => exact h
  | cons n ns ih => exact ih (hf n s h)

end Sys2Proof.Machine
end

