-- ==== Sys2Proof/Laws/WritesOps.lean ====
section
/-! SUPPORT. Every operation the commands share is a chain of writes, with the level its writes reach. -/

namespace Sys2Proof.Machine

variable {k : Nat} {s₀ s : State}

theorem State.wr_raise (h : Wr k s₀ s) (c : Cond) (n : Nat)
    (hc : (k < 2 → c ≠ .lineBreak) ∧ (k < 1 → c ≠ .rollDiscrepancy) := by
      first | exact ⟨nofun, nofun⟩ | exact ⟨fun _ => nofun, fun _ => nofun⟩ | (constructor <;> intro hk <;> first | omega | exact nofun)) :
    Wr k s₀ (s.raise c n) := h.raised c n hc.1 hc.2

/-- An arm record replaced by one of the same state and roll. -/
theorem Stand.same_withArm (x : Stand) (b : Arm) (r : ArmRec) (hs : r.state = (x.arm b).state) (hr : r.roll = (x.arm b).roll) :
    Stand.same k x (x.withArm b r) := by
  cases b
  · exact ⟨fun _ => ⟨rfl, rfl, rfl, rfl, rfl, rfl, rfl⟩, fun _ => ⟨rfl, rfl, rfl, rfl, rfl, rfl, rfl, hs, hr, rfl, rfl⟩⟩
  · exact ⟨fun _ => ⟨rfl, rfl, rfl, rfl, rfl, rfl, rfl⟩, fun _ => ⟨rfl, rfl, rfl, rfl, rfl, rfl, rfl, rfl, rfl, hs, hr⟩⟩

theorem Stand.same_withArm1 (hk : 1 ≤ k) (x : Stand) (b : Arm) (r : ArmRec) : Stand.same k x (x.withArm b r) := by
  cases b <;> exact ⟨fun _ => ⟨rfl, rfl, rfl, rfl, rfl, rfl, rfl⟩, fun h => absurd h (by omega)⟩

/-- An arm record whose state is not ACTIVE makes no second ACTIVE arm (R81). -/
theorem Stand.oneActive_withArm {x : Stand} {b : Arm} {r : ArmRec} (hr : r.state ≠ .active) (h : x.oneActive) : (x.withArm b r).oneActive := by
  cases b
  · exact fun e => absurd e hr
  · exact fun _ => hr

/-- An arm record of the same state makes no second ACTIVE arm. -/
theorem Stand.oneActive_sameArm {x : Stand} {b : Arm} {r : ArmRec} (hr : r.state = (x.arm b).state) (h : x.oneActive) :
    (x.withArm b r).oneActive := by
  cases b
  · exact fun e => h (hr.symm.trans e)
  · exact fun e f => h e (hr.symm.trans f)

theorem State.wr_setArm (h : Wr k s₀ s) (hk : 1 ≤ k) (st : Nat) (b : Arm) (r : ArmRec)
    (ho : (s.stand st).oneActive → ((s.stand st).withArm b { r with chan := .clear }).oneActive := by
      exact Stand.oneActive_withArm nofun) : Wr k s₀ (s.setArm st b r) :=
  h.stand (Stand.same_withArm1 hk _ b _) ho

theorem State.wr_setCallOff (h : Wr k s₀ s) (st : Nat) (b : Arm) (n : Option Nat) : Wr k s₀ (s.setCallOff st b n) :=
  State.wr_modStand h st _ (fun x => Stand.same_withArm x b _ rfl rfl) fun _ => Stand.oneActive_sameArm rfl

theorem State.wr_drivePin (h : Wr k s₀ s) (p : Pin) (b : Bool) (hk : (∀ l, p = .stop l → 2 ≤ k) ∧ (∀ st, p = .brake st → 1 ≤ k)) :
    Wr k s₀ (s.drivePin p b) := by
  unfold State.drivePin
  split
  · exact h
  · have g := h.small s.passDue (s.edges ++ [⟨p, b⟩])
    cases p with
    | drive n => exact State.wr_modStand g n _ fun x => ⟨fun _ => ⟨rfl, rfl, rfl, rfl, rfl, rfl, rfl⟩, fun _ => by simp [Stand.same]⟩
    | paste n => exact State.wr_modStand g n _ fun x => ⟨fun _ => ⟨rfl, rfl, rfl, rfl, rfl, rfl, rfl⟩, fun _ => by simp [Stand.same]⟩
    | brake n =>
      exact State.wr_modStand g n _ fun x => ⟨fun _ => ⟨rfl, rfl, rfl, rfl, rfl, rfl, rfl⟩, fun e => absurd e (by have := hk.2 n rfl; omega)⟩
    | stop n =>
      exact State.wr_modLine g (hk.1 n rfl) n _ fun x => ⟨fun _ => ⟨rfl, rfl, rfl, rfl, rfl, rfl, rfl⟩, fun _ => ⟨rfl, rfl, rfl⟩⟩

theorem State.wr_drive (h : Wr k s₀ s) (st : Nat) (b : Bool) : Wr k s₀ (s.drivePin (.drive st) b) :=
  State.wr_drivePin h _ b ⟨fun _ e => (by cases e), fun _ e => (by cases e)⟩
theorem State.wr_paste (h : Wr k s₀ s) (st : Nat) (b : Bool) : Wr k s₀ (s.drivePin (.paste st) b) :=
  State.wr_drivePin h _ b ⟨fun _ e => (by cases e), fun _ e => (by cases e)⟩
theorem State.wr_brake (h : Wr k s₀ s) (hk : 1 ≤ k) (st : Nat) (b : Bool) : Wr k s₀ (s.drivePin (.brake st) b) :=
  State.wr_drivePin h _ b ⟨fun _ e => (by cases e), fun _ _ => hk⟩
theorem State.wr_stop (h : Wr k s₀ s) (hk : 2 ≤ k) (l : Nat) (b : Bool) : Wr k s₀ (s.drivePin (.stop l) b) :=
  State.wr_drivePin h _ b ⟨fun _ _ => hk, fun _ e => (by cases e)⟩

theorem State.wr_dropPasteDrive (h : Wr k s₀ s) (st : Nat) : Wr k s₀ (s.dropPasteDrive st) := by
  unfold State.dropPasteDrive
  try dsimp only
  repeat' first
      | with_reducible assumption
      | split
      | with_reducible apply State.wr_drive
      | with_reducible apply State.wr_paste
      | (intro x; exact ⟨rfl, rfl, rfl, rfl, fun _ => ⟨rfl, rfl, rfl⟩⟩)
      | (intro x; exact ⟨rfl, rfl, rfl, rfl, fun hlt => absurd hlt (by omega)⟩)
      | (intro x; refine ⟨fun _ => ?_, fun _ => ?_⟩ <;> first | omega | ((repeat' apply And.intro) <;> rfl))
      | (intro x; exact .inr ⟨rfl, .inl (Nat.le_refl _)⟩)
      | (intro x; rfl)
      | omega

theorem Station.keep_same (x : Station) (c : KeptItem) : Station.same k x (x.keep c) := by
  unfold Station.keep
  repeat' split
  all_goals exact ⟨fun b => b, fun _ => ⟨rfl, rfl, rfl, rfl, rfl⟩⟩

/-- A command placed changes a station's out-list and kept items alone, the list within its 4 commands. -/
theorem Station.placed_same (x : Station) (halted : Bool) (c : KeptItem) : Station.same k x (x.placed halted c) := by
  unfold Station.placed
  split
  · exact ⟨fun b => b, fun _ => ⟨rfl, rfl, rfl, rfl, rfl⟩⟩
  · split
    · next hc =>
      refine ⟨fun b => ⟨b.1, b.2.1, ?_⟩, fun _ => ⟨rfl, rfl, rfl, rfl, rfl⟩⟩
      simp only [Bool.and_eq_true, decide_eq_true_eq, Config.outList] at hc
      simp only [List.length_append, List.length_singleton]
      omega
    · exact Station.keep_same x c

theorem State.wr_sendKept (h : Wr k s₀ s) (addr : Nat) (c : KeptItem) : Wr k s₀ (s.sendKept addr c) :=
  State.wr_modStation h addr _ fun x => Station.placed_same x s.halted c

theorem State.wr_send (h : Wr k s₀ s) (addr : Nat) (c : Cmd) : Wr k s₀ (s.send addr c) := State.wr_sendKept h addr _

theorem State.wr_sendVehicleKept (h : Wr k s₀ s) (n : Nat) (c : KeptItem) : Wr k s₀ (s.sendVehicleKept n c) := by
  unfold State.sendVehicleKept
  split
  · exact h
  · exact State.wr_sendKept h _ c

theorem State.wr_sendVehicle (h : Wr k s₀ s) (n : Nat) (c : Cmd) : Wr k s₀ (s.sendVehicle n c) := State.wr_sendVehicleKept h n _

theorem State.wr_relevel (h : Wr k s₀ s) (b i : Nat) (rs : List Nat) : Wr k s₀ (State.relevel b i rs s) := by
  induction rs generalizing i s with
  | nil => exact h
  | cons r rs ih => exact ih (State.wr_modRoll h r ({ · with loc := .bay b i }) fun _ => ⟨rfl, rfl, rfl, rfl, fun _ => ⟨rfl, rfl, rfl⟩⟩) (i + 1)

theorem State.wr_leaveBay (h : Wr k s₀ s) (hk : 1 ≤ k) (b n : Nat) : Wr k s₀ (s.leaveBay b n) := by
  unfold State.leaveBay State.modBay
  refine State.wr_notice (State.wr_relevel (h.bay hk ?_) b 1 _)
  exact .inr ⟨rfl, .inl List.length_erase_le⟩

theorem State.wr_joinBay (h : Wr k s₀ s) (hk : 2 ≤ k) (b n : Nat) (hb : (s.bay b).stack.length < (s.bay b).limit) :
    Wr k s₀ (s.joinBay b n) := by
  unfold State.joinBay State.modBay
  refine State.wr_notice (State.wr_modRoll (h.bay (by omega) ?_) n _ ?_)
  · refine .inr ⟨rfl, .inr ?_⟩
    simp only [List.length_append, List.length_singleton]
    omega
  · exact fun x => ⟨rfl, rfl, rfl, rfl, fun hlt => absurd hlt (by omega)⟩

theorem State.wr_emptyArm (h : Wr k s₀ s) (hk : 1 ≤ k) (st : Nat) (a : Arm) : Wr k s₀ (s.emptyArm st a) := by
  unfold State.emptyArm
  try dsimp only
  repeat' first
      | with_reducible assumption
      | split
      | with_reducible apply State.wr_setArm
      | (intro x; exact ⟨rfl, rfl, rfl, rfl, fun _ => ⟨rfl, rfl, rfl⟩⟩)
      | (intro x; exact ⟨rfl, rfl, rfl, rfl, fun hlt => absurd hlt (by omega)⟩)
      | (intro x; refine ⟨fun _ => ?_, fun _ => ?_⟩ <;> first | omega | ((repeat' apply And.intro) <;> rfl))
      | (intro x; exact .inr ⟨rfl, .inl (Nat.le_refl _)⟩)
      | (intro x; rfl)
      | exact Stand.oneActive_withArm nofun
      | omega

theorem State.wr_removeFromPlace (h : Wr k s₀ s) (hk : 1 ≤ k) (n : Nat) (r : Roll) : Wr k s₀ (s.removeFromPlace n r) := by
  unfold State.removeFromPlace
  try dsimp only
  repeat' first
      | with_reducible assumption
      | split
      | with_reducible apply State.wr_modVehicle
      | with_reducible apply State.wr_leaveBay
      | with_reducible apply State.wr_emptyArm
      | (intro x; exact ⟨rfl, rfl, rfl, rfl, fun _ => ⟨rfl, rfl, rfl⟩⟩)
      | (intro x; exact ⟨rfl, rfl, rfl, rfl, fun hlt => absurd hlt (by omega)⟩)
      | (intro x; refine ⟨fun _ => ?_, fun _ => ?_⟩ <;> first | omega | ((repeat' apply And.intro) <;> rfl))
      | (intro x; exact .inr ⟨rfl, .inl (Nat.le_refl _)⟩)
      | (intro x; rfl)
      | omega

theorem State.wr_link (h : Wr k s₀ s) (n o : Nat) : Wr k s₀ (s.link n o) := by
  unfold State.link
  try dsimp only
  repeat' first
      | with_reducible assumption
      | split
      | with_reducible apply State.wr_modRoll
      | with_reducible apply State.wr_modOrder
      | (intro x; exact ⟨rfl, rfl, rfl, rfl, fun _ => ⟨rfl, rfl, rfl⟩⟩)
      | (intro x; exact ⟨rfl, rfl, rfl, rfl, fun hlt => absurd hlt (by omega)⟩)
      | (intro x; refine ⟨fun _ => ?_, fun _ => ?_⟩ <;> first | omega | ((repeat' apply And.intro) <;> rfl))
      | (intro x; exact .inr ⟨rfl, .inl (Nat.le_refl _)⟩)
      | (intro x; rfl)
      | omega

theorem State.wr_unlink (h : Wr k s₀ s) (n o : Nat) : Wr k s₀ (s.unlink n o) := by
  unfold State.unlink
  try dsimp only
  repeat' first
      | with_reducible assumption
      | split
      | with_reducible apply State.wr_modRoll
      | with_reducible apply State.wr_modOrder
      | (intro x; exact ⟨rfl, rfl, rfl, rfl, fun _ => ⟨rfl, rfl, rfl⟩⟩)
      | (intro x; exact ⟨rfl, rfl, rfl, rfl, fun hlt => absurd hlt (by omega)⟩)
      | (intro x; refine ⟨fun _ => ?_, fun _ => ?_⟩ <;> first | omega | ((repeat' apply And.intro) <;> rfl))
      | (intro x; exact .inr ⟨rfl, .inl (Nat.le_refl _)⟩)
      | (intro x; rfl)
      | omega

theorem State.wr_reserve (h : Wr k s₀ s) (n o : Nat) : Wr k s₀ (s.reserve n o) := by
  unfold State.reserve
  try dsimp only
  repeat' first
      | with_reducible assumption
      | split
      | with_reducible apply State.wr_modRoll
      | with_reducible apply State.wr_modOrder
      | (intro x; exact ⟨rfl, rfl, rfl, rfl, fun _ => ⟨rfl, rfl, rfl⟩⟩)
      | (intro x; exact ⟨rfl, rfl, rfl, rfl, fun hlt => absurd hlt (by omega)⟩)
      | (intro x; refine ⟨fun _ => ?_, fun _ => ?_⟩ <;> first | omega | ((repeat' apply And.intro) <;> rfl))
      | (intro x; exact .inr ⟨rfl, .inl (Nat.le_refl _)⟩)
      | (intro x; rfl)
      | omega

theorem State.wr_release (h : Wr k s₀ s) (n o : Nat) : Wr k s₀ (s.release n o) := by
  unfold State.release
  try dsimp only
  repeat' first
      | with_reducible assumption
      | split
      | with_reducible apply State.wr_modRoll
      | with_reducible apply State.wr_modOrder
      | with_reducible apply State.wr_notice
      | (intro x; exact ⟨rfl, rfl, rfl, rfl, fun _ => ⟨rfl, rfl, rfl⟩⟩)
      | (intro x; exact ⟨rfl, rfl, rfl, rfl, fun hlt => absurd hlt (by omega)⟩)
      | (intro x; refine ⟨fun _ => ?_, fun _ => ?_⟩ <;> first | omega | ((repeat' apply And.intro) <;> rfl))
      | (intro x; exact .inr ⟨rfl, .inl (Nat.le_refl _)⟩)
      | (intro x; rfl)
      | omega

theorem State.wr_offVehicle (h : Wr k s₀ s) (n v : Nat) : Wr k s₀ (s.offVehicle n v) := by
  unfold State.offVehicle
  try dsimp only
  repeat' first
      | with_reducible assumption
      | split
      | with_reducible apply State.wr_modRoll
      | with_reducible apply State.wr_modVehicle
      | (intro x; exact ⟨rfl, rfl, rfl, rfl, fun _ => ⟨rfl, rfl, rfl⟩⟩)
      | (intro x; exact ⟨rfl, rfl, rfl, rfl, fun hlt => absurd hlt (by omega)⟩)
      | (intro x; refine ⟨fun _ => ?_, fun _ => ?_⟩ <;> first | omega | ((repeat' apply And.intro) <;> rfl))
      | (intro x; exact .inr ⟨rfl, .inl (Nat.le_refl _)⟩)
      | (intro x; rfl)
      | omega

theorem State.wr_failInPlace (h : Wr k s₀ s) (n : Nat) : Wr k s₀ (s.failInPlace n) := by
  unfold State.failInPlace
  split
  · exact h
  · next r hr =>
    dsimp only
    split
    · exact State.wr_notice (h.roll hr ⟨rfl, rfl, rfl, rfl, fun _ => ⟨rfl, rfl, rfl⟩⟩)
    · exact h.roll hr ⟨rfl, rfl, rfl, rfl, fun _ => ⟨rfl, rfl, rfl⟩⟩

theorem State.wr_holdDiscrepancy (h : Wr k s₀ s) (n : Nat) : Wr k s₀ (s.holdDiscrepancy n) := by
  unfold State.holdDiscrepancy
  try dsimp only
  repeat' first
      | with_reducible assumption
      | split
      | with_reducible apply State.wr_modRoll
      | (intro x; exact ⟨rfl, rfl, rfl, rfl, fun _ => ⟨rfl, rfl, rfl⟩⟩)
      | (intro x; exact ⟨rfl, rfl, rfl, rfl, fun hlt => absurd hlt (by omega)⟩)
      | (intro x; refine ⟨fun _ => ?_, fun _ => ?_⟩ <;> first | omega | ((repeat' apply And.intro) <;> rfl))
      | (intro x; exact .inr ⟨rfl, .inl (Nat.le_refl _)⟩)
      | (intro x; rfl)
      | omega

theorem State.wr_stage (h : Wr k s₀ s) (hk : 2 ≤ k) (n st : Nat) (a : Arm) : Wr k s₀ (s.stage n st a) := by
  unfold State.stage
  try dsimp only
  repeat' first
      | with_reducible assumption
      | split
      | with_reducible apply State.wr_modRoll
      | with_reducible apply State.wr_setArm
      | (intro x; exact ⟨rfl, rfl, rfl, rfl, fun _ => ⟨rfl, rfl, rfl⟩⟩)
      | (intro x; exact ⟨rfl, rfl, rfl, rfl, fun hlt => absurd hlt (by omega)⟩)
      | (intro x; refine ⟨fun _ => ?_, fun _ => ?_⟩ <;> first | omega | ((repeat' apply And.intro) <;> rfl))
      | (intro x; exact .inr ⟨rfl, .inl (Nat.le_refl _)⟩)
      | (intro x; rfl)
      | exact Stand.oneActive_withArm nofun
      | omega

theorem State.wr_unloadAtArm (h : Wr k s₀ s) (hk : 2 ≤ k) (n st : Nat) (a : Arm) (v : Nat) : Wr k s₀ (s.unloadAtArm n st a v) := by
  unfold State.unloadAtArm
  try dsimp only
  repeat' first
      | with_reducible assumption
      | split
      | with_reducible apply State.wr_offVehicle
      | with_reducible apply State.wr_stage
      | (intro x; exact ⟨rfl, rfl, rfl, rfl, fun _ => ⟨rfl, rfl, rfl⟩⟩)
      | (intro x; exact ⟨rfl, rfl, rfl, rfl, fun hlt => absurd hlt (by omega)⟩)
      | (intro x; refine ⟨fun _ => ?_, fun _ => ?_⟩ <;> first | omega | ((repeat' apply And.intro) <;> rfl))
      | (intro x; exact .inr ⟨rfl, .inl (Nat.le_refl _)⟩)
      | (intro x; rfl)
      | omega

theorem State.wr_prepare (h : Wr k s₀ s) (hk : 2 ≤ k) (n st : Nat) (a : Arm) (after : Nat) : Wr k s₀ (s.prepare n st a after) := by
  unfold State.prepare
  try dsimp only
  repeat' first
      | with_reducible assumption
      | split
      | with_reducible apply State.wr_modRoll
      | with_reducible apply State.wr_setArm
      | (intro x; exact ⟨rfl, rfl, rfl, rfl, fun _ => ⟨rfl, rfl, rfl⟩⟩)
      | (intro x; exact ⟨rfl, rfl, rfl, rfl, fun hlt => absurd hlt (by omega)⟩)
      | (intro x; refine ⟨fun _ => ?_, fun _ => ?_⟩ <;> first | omega | ((repeat' apply And.intro) <;> rfl))
      | (intro x; exact .inr ⟨rfl, .inl (Nat.le_refl _)⟩)
      | (intro x; rfl)
      | exact Stand.oneActive_withArm nofun
      | omega

/-- Starting an arm beside one that is not ACTIVE makes no second ACTIVE arm. -/
theorem Stand.oneActive_start {x : Stand} {b : Arm} {r : ArmRec} (ho : (x.arm b.other).state ≠ .active) : (x.withArm b r).oneActive := by
  cases b
  · exact fun _ => ho
  · exact fun e => absurd e ho

theorem State.wr_startMove (h : Wr k s₀ s) (hk : 1 ≤ k) (n st : Nat) (a : Arm) (job : Option Nat)
    (ho : ((s.stand st).arm a.other).state ≠ .active) : Wr k s₀ (s.startMove n st a job) := by
  unfold State.startMove
  refine State.wr_setArm (State.wr_modRoll h n _ ?_) hk st a _ fun _ => Stand.oneActive_start ?_
  · exact fun x => ⟨rfl, rfl, rfl, rfl, fun _ => ⟨rfl, rfl, rfl⟩⟩
  unfold State.modRoll
  split <;> exact ho

/-- An arm that has expired is not ACTIVE. -/
theorem State.expire_arm (s : State) (n st : Nat) (a : Arm) (df : Option Nat) : (((s.expire n st a df).stand st).arm a).state ≠ .active := by
  unfold State.expire State.setArm State.modStand State.stand State.setStand
  dsimp only
  rw [Tbl.get_set, if_pos rfl]
  cases a <;> exact nofun

theorem State.wr_expire (h : Wr k s₀ s) (hk : 2 ≤ k) (n st : Nat) (a : Arm) (df : Option Nat) : Wr k s₀ (s.expire n st a df) := by
  unfold State.expire
  try dsimp only
  repeat' first
      | with_reducible assumption
      | split
      | with_reducible apply State.wr_modRoll
      | with_reducible apply State.wr_setArm
      | (intro x; exact ⟨rfl, rfl, rfl, rfl, fun _ => ⟨rfl, rfl, rfl⟩⟩)
      | (intro x; exact ⟨rfl, rfl, rfl, rfl, fun hlt => absurd hlt (by omega)⟩)
      | (intro x; refine ⟨fun _ => ?_, fun _ => ?_⟩ <;> first | omega | ((repeat' apply And.intro) <;> rfl))
      | (intro x; exact .inr ⟨rfl, .inl (Nat.le_refl _)⟩)
      | (intro x; rfl)
      | exact Stand.oneActive_withArm nofun
      | omega

theorem State.wr_stubReturn (h : Wr k s₀ s) (hk : 2 ≤ k) (n st : Nat) (a : Arm) (x : Nat) (measured : Option Nat) (o : Nat) : Wr k s₀ (s.stubReturn n st a x measured o) := by
  unfold State.stubReturn
  try dsimp only
  repeat' first
      | with_reducible assumption
      | split
      | with_reducible apply State.wr_modRoll
      | with_reducible apply State.wr_emptyArm
      | (intro x; exact ⟨rfl, rfl, rfl, rfl, fun _ => ⟨rfl, rfl, rfl⟩⟩)
      | (intro x; exact ⟨rfl, rfl, rfl, rfl, fun hlt => absurd hlt (by omega)⟩)
      | (intro x; refine ⟨fun _ => ?_, fun _ => ?_⟩ <;> first | omega | ((repeat' apply And.intro) <;> rfl))
      | (intro x; exact .inr ⟨rfl, .inl (Nat.le_refl _)⟩)
      | (intro x; rfl)
      | omega

theorem State.wr_retireRecord (h : Wr k s₀ s) (hk : 2 ≤ k) (n : Nat) (r : Roll) : Wr k s₀ (s.retireRecord n r) :=
  (State.wr_removeFromPlace h (by omega) n r).freeRoll hk n

theorem State.wr_setMark (h : Wr k s₀ s) (hk : 1 ≤ k) (b v : Nat) : Wr k s₀ (s.setMark b v) := by
  unfold State.setMark
  try dsimp only
  repeat' first
      | with_reducible assumption
      | split
      | with_reducible apply State.wr_modBay
      | (intro x; exact ⟨rfl, rfl, rfl, rfl, fun _ => ⟨rfl, rfl, rfl⟩⟩)
      | (intro x; exact ⟨rfl, rfl, rfl, rfl, fun hlt => absurd hlt (by omega)⟩)
      | (intro x; refine ⟨fun _ => ?_, fun _ => ?_⟩ <;> first | omega | ((repeat' apply And.intro) <;> rfl))
      | (intro x; exact .inr ⟨rfl, .inl (Nat.le_refl _)⟩)
      | (intro x; rfl)
      | omega

theorem State.wr_clearMarks (h : Wr k s₀ s) (hk : 1 ≤ k) (v : Nat) : Wr k s₀ (s.clearMarks v) := by
  unfold State.clearMarks
  try dsimp only
  repeat' first
      | with_reducible assumption
      | (intro n t ht)
      | split
      | with_reducible apply State.wr_modBay
      | with_reducible apply State.wr_notice
      | with_reducible apply State.wr_each
      | (intro x; exact ⟨rfl, rfl, rfl, rfl, fun _ => ⟨rfl, rfl, rfl⟩⟩)
      | (intro x; exact ⟨rfl, rfl, rfl, rfl, fun hlt => absurd hlt (by omega)⟩)
      | (intro x; refine ⟨fun _ => ?_, fun _ => ?_⟩ <;> first | omega | ((repeat' apply And.intro) <;> rfl))
      | (intro x; exact .inr ⟨rfl, .inl (Nat.le_refl _)⟩)
      | (intro x; rfl)
      | omega

theorem State.wr_restartProgress (h : Wr k s₀ s) (n : Nat) : Wr k s₀ (s.restartProgress n) := by
  unfold State.restartProgress
  try dsimp only
  repeat' first
      | with_reducible assumption
      | split
      | with_reducible apply State.wr_modVehicle
      | (intro x; exact ⟨rfl, rfl, rfl, rfl, fun _ => ⟨rfl, rfl, rfl⟩⟩)
      | (intro x; exact ⟨rfl, rfl, rfl, rfl, fun hlt => absurd hlt (by omega)⟩)
      | (intro x; refine ⟨fun _ => ?_, fun _ => ?_⟩ <;> first | omega | ((repeat' apply And.intro) <;> rfl))
      | (intro x; exact .inr ⟨rfl, .inl (Nat.le_refl _)⟩)
      | (intro x; rfl)
      | omega

theorem State.wr_syncProgress (h : Wr k s₀ s) (n : Nat) : Wr k s₀ (s.syncProgress n) := by
  unfold State.syncProgress
  try dsimp only
  repeat' first
      | with_reducible assumption
      | split
      | with_reducible apply State.wr_restartProgress
      | (intro x; exact ⟨rfl, rfl, rfl, rfl, fun _ => ⟨rfl, rfl, rfl⟩⟩)
      | (intro x; exact ⟨rfl, rfl, rfl, rfl, fun hlt => absurd hlt (by omega)⟩)
      | (intro x; refine ⟨fun _ => ?_, fun _ => ?_⟩ <;> first | omega | ((repeat' apply And.intro) <;> rfl))
      | (intro x; exact .inr ⟨rfl, .inl (Nat.le_refl _)⟩)
      | (intro x; rfl)
      | omega

theorem State.wr_releaseSegment (h : Wr k s₀ s) (hk : 1 ≤ k) (g : Nat) : Wr k s₀ (s.releaseSegment g) := by
  unfold State.releaseSegment
  try dsimp only
  repeat' first
      | with_reducible assumption
      | split
      | with_reducible apply State.wr_modVehicle
      | with_reducible apply State.wr_modSegment
      | with_reducible apply State.wr_sendVehicle
      | with_reducible apply State.wr_syncProgress
      | (intro x; exact ⟨rfl, rfl, rfl, rfl, fun _ => ⟨rfl, rfl, rfl⟩⟩)
      | (intro x; exact ⟨rfl, rfl, rfl, rfl, fun hlt => absurd hlt (by omega)⟩)
      | (intro x; refine ⟨fun _ => ?_, fun _ => ?_⟩ <;> first | omega | ((repeat' apply And.intro) <;> rfl))
      | (intro x; exact .inr ⟨rfl, .inl (Nat.le_refl _)⟩)
      | (intro x; rfl)
      | omega

theorem State.wr_leaveList (h : Wr k s₀ s) (hk : 1 ≤ k) (n : Nat) : Wr k s₀ (s.leaveList n) := by
  unfold State.leaveList
  try dsimp only
  repeat' first
      | with_reducible assumption
      | split
      | with_reducible apply State.wr_modVehicle
      | with_reducible apply State.wr_modSegment
      | (intro x; exact ⟨rfl, rfl, rfl, rfl, fun _ => ⟨rfl, rfl, rfl⟩⟩)
      | (intro x; exact ⟨rfl, rfl, rfl, rfl, fun hlt => absurd hlt (by omega)⟩)
      | (intro x; refine ⟨fun _ => ?_, fun _ => ?_⟩ <;> first | omega | ((repeat' apply And.intro) <;> rfl))
      | (intro x; exact .inr ⟨rfl, .inl (Nat.le_refl _)⟩)
      | (intro x; rfl)
      | omega

theorem State.wr_releaseHeld (h : Wr k s₀ s) (hk : 1 ≤ k) (n : Nat) (kept : Nat → Bool) : Wr k s₀ (s.releaseHeld n kept) := by
  unfold State.releaseHeld
  try dsimp only
  repeat' first
      | with_reducible assumption
      | (intro n t ht)
      | split
      | with_reducible apply State.wr_modVehicle
      | with_reducible apply State.wr_each
      | with_reducible apply State.wr_releaseSegment
      | (intro x; exact ⟨rfl, rfl, rfl, rfl, fun _ => ⟨rfl, rfl, rfl⟩⟩)
      | (intro x; exact ⟨rfl, rfl, rfl, rfl, fun hlt => absurd hlt (by omega)⟩)
      | (intro x; refine ⟨fun _ => ?_, fun _ => ?_⟩ <;> first | omega | ((repeat' apply And.intro) <;> rfl))
      | (intro x; exact .inr ⟨rfl, .inl (Nat.le_refl _)⟩)
      | (intro x; rfl)
      | omega

theorem State.wr_enterIdle (h : Wr k s₀ s) (hk : 1 ≤ k) (n x : Nat) : Wr k s₀ (s.enterIdle n x) := by
  unfold State.enterIdle
  try dsimp only
  repeat' first
      | with_reducible assumption
      | split
      | with_reducible apply State.wr_modVehicle
      | with_reducible apply State.wr_notice
      | with_reducible apply State.wr_clearMarks
      | with_reducible apply State.wr_leaveList
      | with_reducible apply State.wr_releaseHeld
      | (intro x; exact ⟨rfl, rfl, rfl, rfl, fun _ => ⟨rfl, rfl, rfl⟩⟩)
      | (intro x; exact ⟨rfl, rfl, rfl, rfl, fun hlt => absurd hlt (by omega)⟩)
      | (intro x; refine ⟨fun _ => ?_, fun _ => ?_⟩ <;> first | omega | ((repeat' apply And.intro) <;> rfl))
      | (intro x; exact .inr ⟨rfl, .inl (Nat.le_refl _)⟩)
      | (intro x; rfl)
      | omega

theorem State.wr_stall (h : Wr k s₀ s) (hk : 1 ≤ k) (n : Nat) (c : StallCause) (prev : Option VState) : Wr k s₀ (s.stall n c prev) := by
  unfold State.stall
  try dsimp only
  repeat' first
      | with_reducible assumption
      | split
      | with_reducible apply State.wr_modVehicle
      | with_reducible apply State.wr_raise
      | with_reducible apply State.wr_clearMarks
      | (intro x; exact ⟨rfl, rfl, rfl, rfl, fun _ => ⟨rfl, rfl, rfl⟩⟩)
      | (intro x; exact ⟨rfl, rfl, rfl, rfl, fun hlt => absurd hlt (by omega)⟩)
      | (intro x; refine ⟨fun _ => ?_, fun _ => ?_⟩ <;> first | omega | ((repeat' apply And.intro) <;> rfl))
      | (intro x; exact .inr ⟨rfl, .inl (Nat.le_refl _)⟩)
      | (intro x; rfl)
      | (constructor <;> intro hk' <;> first | omega | exact nofun)
      | omega

theorem State.wr_unlinkVehicle (h : Wr k s₀ s) (n : Nat) : Wr k s₀ (s.unlinkVehicle n) := by
  unfold State.unlinkVehicle
  try dsimp only
  repeat' first
      | with_reducible assumption
      | split
      | with_reducible apply State.wr_modVehicle
      | (intro x; exact ⟨rfl, rfl, rfl, rfl, fun _ => ⟨rfl, rfl, rfl⟩⟩)
      | (intro x; exact ⟨rfl, rfl, rfl, rfl, fun hlt => absurd hlt (by omega)⟩)
      | (intro x; refine ⟨fun _ => ?_, fun _ => ?_⟩ <;> first | omega | ((repeat' apply And.intro) <;> rfl))
      | (intro x; exact .inr ⟨rfl, .inl (Nat.le_refl _)⟩)
      | (intro x; rfl)
      | omega

theorem State.wr_sendTask (h : Wr k s₀ s) (n : Nat) : Wr k s₀ (s.sendTask n) := by
  unfold State.sendTask
  try dsimp only
  repeat' first
      | with_reducible assumption
      | split
      | with_reducible apply State.wr_sendVehicle
      | (intro x; exact ⟨rfl, rfl, rfl, rfl, fun _ => ⟨rfl, rfl, rfl⟩⟩)
      | (intro x; exact ⟨rfl, rfl, rfl, rfl, fun hlt => absurd hlt (by omega)⟩)
      | (intro x; refine ⟨fun _ => ?_, fun _ => ?_⟩ <;> first | omega | ((repeat' apply And.intro) <;> rfl))
      | (intro x; exact .inr ⟨rfl, .inl (Nat.le_refl _)⟩)
      | (intro x; rfl)
      | omega

theorem State.wr_steer (h : Wr k s₀ s) (v : Nat) (way : Option Nat) : Wr k s₀ (s.steer v way) := by
  unfold State.steer
  try dsimp only
  repeat' first
      | with_reducible assumption
      | split
      | with_reducible apply State.wr_modVehicle
      | with_reducible apply State.wr_syncProgress
      | (intro x; exact ⟨rfl, rfl, rfl, rfl, fun _ => ⟨rfl, rfl, rfl⟩⟩)
      | (intro x; exact ⟨rfl, rfl, rfl, rfl, fun hlt => absurd hlt (by omega)⟩)
      | (intro x; refine ⟨fun _ => ?_, fun _ => ?_⟩ <;> first | omega | ((repeat' apply And.intro) <;> rfl))
      | (intro x; exact .inr ⟨rfl, .inl (Nat.le_refl _)⟩)
      | (intro x; rfl)
      | omega

theorem State.wr_createOrder (h : Wr k s₀ s) (o : Order) {n : Nat} {t : State} (e : s.createOrder o = some (n, t)) : Wr k s₀ t := by
  unfold State.createOrder at e
  split at e
  · next hf =>
    simp only [State.orderFree, Bool.and_eq_true, decide_eq_true_eq, Config.max32] at hf
    cases e
    exact State.wr_notice (h.newOrder _ _ rfl (by unfold Config.max32; omega))
  · cases e

theorem State.wr_makeUrgent (h : Wr k s₀ s) (n : Nat) : Wr k s₀ (s.makeUrgent n) := by
  unfold State.makeUrgent
  try dsimp only
  repeat' first
      | with_reducible assumption
      | split
      | with_reducible apply State.wr_modOrder
      | with_reducible apply State.wr_notice
      | (intro x; exact ⟨rfl, rfl, rfl, rfl, fun _ => ⟨rfl, rfl, rfl⟩⟩)
      | (intro x; exact ⟨rfl, rfl, rfl, rfl, fun hlt => absurd hlt (by omega)⟩)
      | (intro x; refine ⟨fun _ => ?_, fun _ => ?_⟩ <;> first | omega | ((repeat' apply And.intro) <;> rfl))
      | (intro x; exact .inr ⟨rfl, .inl (Nat.le_refl _)⟩)
      | (intro x; rfl)
      | omega

theorem State.wr_testUrgent (h : Wr k s₀ s) (n : Nat) : Wr k s₀ (s.testUrgent n) := by
  unfold State.testUrgent
  try dsimp only
  repeat' first
      | with_reducible assumption
      | split
      | with_reducible apply State.wr_makeUrgent
      | (intro x; exact ⟨rfl, rfl, rfl, rfl, fun _ => ⟨rfl, rfl, rfl⟩⟩)
      | (intro x; exact ⟨rfl, rfl, rfl, rfl, fun hlt => absurd hlt (by omega)⟩)
      | (intro x; refine ⟨fun _ => ?_, fun _ => ?_⟩ <;> first | omega | ((repeat' apply And.intro) <;> rfl))
      | (intro x; exact .inr ⟨rfl, .inl (Nat.le_refl _)⟩)
      | (intro x; rfl)
      | omega

theorem State.wr_recomputeDeadlines (h : Wr k s₀ s) (st : Nat) : Wr k s₀ (s.recomputeDeadlines st) := by
  unfold State.recomputeDeadlines
  try dsimp only
  repeat' first
      | with_reducible assumption
      | (intro n t ht)
      | split
      | with_reducible apply State.wr_modOrder
      | with_reducible apply State.wr_each
      | with_reducible apply State.wr_testUrgent
      | (intro x; exact ⟨rfl, rfl, rfl, rfl, fun _ => ⟨rfl, rfl, rfl⟩⟩)
      | (intro x; exact ⟨rfl, rfl, rfl, rfl, fun hlt => absurd hlt (by omega)⟩)
      | (intro x; refine ⟨fun _ => ?_, fun _ => ?_⟩ <;> first | omega | ((repeat' apply And.intro) <;> rfl))
      | (intro x; exact .inr ⟨rfl, .inl (Nat.le_refl _)⟩)
      | (intro x; rfl)
      | omega

theorem State.wr_evalCallOff (h : Wr k s₀ s) (st : Nat) : Wr k s₀ (s.evalCallOff st) := by
  unfold State.evalCallOff
  split
  · exact h
  · dsimp only
    split
    · next e => exact State.wr_setCallOff (State.wr_createOrder h _ e) _ _ _
    · exact h

theorem State.wr_clearLink (h : Wr k s₀ s) (n : Nat) (o : Order) : Wr k s₀ (s.clearLink n o) := by
  unfold State.clearLink
  try dsimp only
  repeat' first
      | with_reducible assumption
      | split
      | with_reducible apply State.wr_setCallOff
      | (intro x; exact ⟨rfl, rfl, rfl, rfl, fun _ => ⟨rfl, rfl, rfl⟩⟩)
      | (intro x; exact ⟨rfl, rfl, rfl, rfl, fun hlt => absurd hlt (by omega)⟩)
      | (intro x; refine ⟨fun _ => ?_, fun _ => ?_⟩ <;> first | omega | ((repeat' apply And.intro) <;> rfl))
      | (intro x; exact .inr ⟨rfl, .inl (Nat.le_refl _)⟩)
      | (intro x; rfl)
      | omega

theorem State.wr_reviewCallOff (h : Wr k s₀ s) (o : Order) : Wr k s₀ (s.reviewCallOff o) := by
  unfold State.reviewCallOff
  try dsimp only
  repeat' first
      | with_reducible assumption
      | split
      | with_reducible apply State.wr_evalCallOff
      | (intro x; exact ⟨rfl, rfl, rfl, rfl, fun _ => ⟨rfl, rfl, rfl⟩⟩)
      | (intro x; exact ⟨rfl, rfl, rfl, rfl, fun hlt => absurd hlt (by omega)⟩)
      | (intro x; refine ⟨fun _ => ?_, fun _ => ?_⟩ <;> first | omega | ((repeat' apply And.intro) <;> rfl))
      | (intro x; exact .inr ⟨rfl, .inl (Nat.le_refl _)⟩)
      | (intro x; rfl)
      | omega

theorem State.wr_withdrawBay (h : Wr k s₀ s) (n : Nat) (o : Order) : Wr k s₀ (s.withdrawBay n o) := by
  unfold State.withdrawBay
  try dsimp only
  repeat' first
      | with_reducible assumption
      | split
      | with_reducible apply State.wr_modOrder
      | with_reducible apply State.wr_notice
      | (intro x; exact ⟨rfl, rfl, rfl, rfl, fun _ => ⟨rfl, rfl, rfl⟩⟩)
      | (intro x; exact ⟨rfl, rfl, rfl, rfl, fun hlt => absurd hlt (by omega)⟩)
      | (intro x; refine ⟨fun _ => ?_, fun _ => ?_⟩ <;> first | omega | ((repeat' apply And.intro) <;> rfl))
      | (intro x; exact .inr ⟨rfl, .inl (Nat.le_refl _)⟩)
      | (intro x; rfl)
      | omega

theorem State.wr_dropRoll (h : Wr k s₀ s) (n : Nat) (o : Order) : Wr k s₀ (s.dropRoll n o) := by
  unfold State.dropRoll
  try dsimp only
  repeat' first
      | with_reducible assumption
      | split
      | with_reducible apply State.wr_unlink
      | with_reducible apply State.wr_release
      | (intro x; exact ⟨rfl, rfl, rfl, rfl, fun _ => ⟨rfl, rfl, rfl⟩⟩)
      | (intro x; exact ⟨rfl, rfl, rfl, rfl, fun hlt => absurd hlt (by omega)⟩)
      | (intro x; refine ⟨fun _ => ?_, fun _ => ?_⟩ <;> first | omega | ((repeat' apply And.intro) <;> rfl))
      | (intro x; exact .inr ⟨rfl, .inl (Nat.le_refl _)⟩)
      | (intro x; rfl)
      | omega

theorem State.wr_abortVehicle (h : Wr k s₀ s) (n : Nat) (o : Order) : Wr k s₀ (s.abortVehicle n o) := by
  unfold State.abortVehicle
  try dsimp only
  repeat' first
      | with_reducible assumption
      | split
      | with_reducible apply State.wr_sendVehicleKept
      | (intro x; exact ⟨rfl, rfl, rfl, rfl, fun _ => ⟨rfl, rfl, rfl⟩⟩)
      | (intro x; exact ⟨rfl, rfl, rfl, rfl, fun hlt => absurd hlt (by omega)⟩)
      | (intro x; refine ⟨fun _ => ?_, fun _ => ?_⟩ <;> first | omega | ((repeat' apply And.intro) <;> rfl))
      | (intro x; exact .inr ⟨rfl, .inl (Nat.le_refl _)⟩)
      | (intro x; rfl)
      | omega

theorem State.wr_freeVehicle (h : Wr k s₀ s) (n : Nat) (o : Order) : Wr k s₀ (s.freeVehicle n o) := by
  unfold State.freeVehicle
  try dsimp only
  repeat' first
      | with_reducible assumption
      | split
      | with_reducible apply State.wr_unlinkVehicle
      | (intro x; exact ⟨rfl, rfl, rfl, rfl, fun _ => ⟨rfl, rfl, rfl⟩⟩)
      | (intro x; exact ⟨rfl, rfl, rfl, rfl, fun hlt => absurd hlt (by omega)⟩)
      | (intro x; refine ⟨fun _ => ?_, fun _ => ?_⟩ <;> first | omega | ((repeat' apply And.intro) <;> rfl))
      | (intro x; exact .inr ⟨rfl, .inl (Nat.le_refl _)⟩)
      | (intro x; rfl)
      | omega

theorem State.wr_freeOrder (h : Wr k s₀ s) (n : Nat) : Wr k s₀ (s.freeOrder n) := by
  unfold State.freeOrder
  split
  · exact h
  · exact State.wr_reviewCallOff ((State.wr_freeVehicle (State.wr_clearLink (State.wr_withdrawBay (State.wr_dropRoll h _ _) _ _) _ _) _
      _).freeOrder n) _

theorem State.wr_failOrder (h : Wr k s₀ s) (n : Nat) : Wr k s₀ (s.failOrder n) := by
  unfold State.failOrder
  try dsimp only
  repeat' first
      | with_reducible assumption
      | split
      | with_reducible apply State.wr_modOrder
      | with_reducible apply State.wr_raise
      | with_reducible apply State.wr_clearLink
      | with_reducible apply State.wr_reviewCallOff
      | with_reducible apply State.wr_withdrawBay
      | with_reducible apply State.wr_freeVehicle
      | (intro x; exact ⟨rfl, rfl, rfl, rfl, fun _ => ⟨rfl, rfl, rfl⟩⟩)
      | (intro x; exact ⟨rfl, rfl, rfl, rfl, fun hlt => absurd hlt (by omega)⟩)
      | (intro x; refine ⟨fun _ => ?_, fun _ => ?_⟩ <;> first | omega | ((repeat' apply And.intro) <;> rfl))
      | (intro x; exact .inr ⟨rfl, .inl (Nat.le_refl _)⟩)
      | (intro x; rfl)
      | (constructor <;> intro hk' <;> first | omega | exact nofun)
      | omega

theorem State.wr_giveUpReservation (h : Wr k s₀ s) (n : Nat) (o : Order) : Wr k s₀ (s.giveUpReservation n o) := by
  unfold State.giveUpReservation
  try dsimp only
  repeat' first
      | with_reducible assumption
      | split
      | with_reducible apply State.wr_modOrder
      | with_reducible apply State.wr_release
      | (intro x; exact ⟨rfl, rfl, rfl, rfl, fun _ => ⟨rfl, rfl, rfl⟩⟩)
      | (intro x; exact ⟨rfl, rfl, rfl, rfl, fun hlt => absurd hlt (by omega)⟩)
      | (intro x; refine ⟨fun _ => ?_, fun _ => ?_⟩ <;> first | omega | ((repeat' apply And.intro) <;> rfl))
      | (intro x; exact .inr ⟨rfl, .inl (Nat.le_refl _)⟩)
      | (intro x; rfl)
      | omega

theorem State.wr_returnToPending (h : Wr k s₀ s) (n : Nat) (keep : Bool) : Wr k s₀ (s.returnToPending n keep) := by
  unfold State.returnToPending
  try dsimp only
  repeat' first
      | with_reducible assumption
      | split
      | with_reducible apply State.wr_modOrder
      | with_reducible apply State.wr_notice
      | with_reducible apply State.wr_withdrawBay
      | with_reducible apply State.wr_abortVehicle
      | with_reducible apply State.wr_freeVehicle
      | with_reducible apply State.wr_giveUpReservation
      | (intro x; exact ⟨rfl, rfl, rfl, rfl, fun _ => ⟨rfl, rfl, rfl⟩⟩)
      | (intro x; exact ⟨rfl, rfl, rfl, rfl, fun hlt => absurd hlt (by omega)⟩)
      | (intro x; refine ⟨fun _ => ?_, fun _ => ?_⟩ <;> first | omega | ((repeat' apply And.intro) <;> rfl))
      | (intro x; exact .inr ⟨rfl, .inl (Nat.le_refl _)⟩)
      | (intro x; rfl)
      | omega

theorem State.wr_markAbort (h : Wr k s₀ s) (n : Nat) : Wr k s₀ (s.markAbort n) := by
  unfold State.markAbort
  try dsimp only
  repeat' first
      | with_reducible assumption
      | split
      | with_reducible apply State.wr_modOrder
      | with_reducible apply State.wr_clearLink
      | with_reducible apply State.wr_reviewCallOff
      | with_reducible apply State.wr_withdrawBay
      | with_reducible apply State.wr_dropRoll
      | with_reducible apply State.wr_abortVehicle
      | (intro x; exact ⟨rfl, rfl, rfl, rfl, fun _ => ⟨rfl, rfl, rfl⟩⟩)
      | (intro x; exact ⟨rfl, rfl, rfl, rfl, fun hlt => absurd hlt (by omega)⟩)
      | (intro x; refine ⟨fun _ => ?_, fun _ => ?_⟩ <;> first | omega | ((repeat' apply And.intro) <;> rfl))
      | (intro x; exact .inr ⟨rfl, .inl (Nat.le_refl _)⟩)
      | (intro x; rfl)
      | omega

theorem State.wr_storeFull (h : Wr k s₀ s) (o : Order) : Wr k s₀ (s.storeFull o) := by
  unfold State.storeFull
  try dsimp only
  repeat' first
      | with_reducible assumption
      | split
      | with_reducible apply State.wr_raise
      | (intro x; exact ⟨rfl, rfl, rfl, rfl, fun _ => ⟨rfl, rfl, rfl⟩⟩)
      | (intro x; exact ⟨rfl, rfl, rfl, rfl, fun hlt => absurd hlt (by omega)⟩)
      | (intro x; refine ⟨fun _ => ?_, fun _ => ?_⟩ <;> first | omega | ((repeat' apply And.intro) <;> rfl))
      | (intro x; exact .inr ⟨rfl, .inl (Nat.le_refl _)⟩)
      | (intro x; rfl)
      | (constructor <;> intro hk' <;> first | omega | exact nofun)
      | omega

theorem State.wr_newDrop (h : Wr k s₀ s) (v n : Nat) (o : Order) (way : Option Nat) : Wr k s₀ (s.newDrop v n o way) := by
  unfold State.newDrop
  try dsimp only
  repeat' first
      | with_reducible assumption
      | split
      | with_reducible apply State.wr_sendVehicle
      | with_reducible apply State.wr_steer
      | with_reducible apply State.wr_sendTask
      | (intro x; exact ⟨rfl, rfl, rfl, rfl, fun _ => ⟨rfl, rfl, rfl⟩⟩)
      | (intro x; exact ⟨rfl, rfl, rfl, rfl, fun hlt => absurd hlt (by omega)⟩)
      | (intro x; refine ⟨fun _ => ?_, fun _ => ?_⟩ <;> first | omega | ((repeat' apply And.intro) <;> rfl))
      | (intro x; exact .inr ⟨rfl, .inl (Nat.le_refl _)⟩)
      | (intro x; rfl)
      | omega

theorem State.wr_redirect (h : Wr k s₀ s) (n : Nat) : Wr k s₀ (s.redirect n) := by
  unfold State.redirect
  try dsimp only
  repeat' first
      | with_reducible assumption
      | split
      | with_reducible apply State.wr_modOrder
      | with_reducible apply State.wr_sendTask
      | with_reducible apply State.wr_steer
      | with_reducible apply State.wr_storeFull
      | with_reducible apply State.wr_newDrop
      | (intro x; exact ⟨rfl, rfl, rfl, rfl, fun _ => ⟨rfl, rfl, rfl⟩⟩)
      | (intro x; exact ⟨rfl, rfl, rfl, rfl, fun hlt => absurd hlt (by omega)⟩)
      | (intro x; refine ⟨fun _ => ?_, fun _ => ?_⟩ <;> first | omega | ((repeat' apply And.intro) <;> rfl))
      | (intro x; exact .inr ⟨rfl, .inl (Nat.le_refl _)⟩)
      | (intro x; rfl)
      | omega

theorem State.wr_convert (h : Wr k s₀ s) (n : Nat) : Wr k s₀ (s.convert n) := by
  unfold State.convert
  try dsimp only
  repeat' first
      | with_reducible assumption
      | split
      | with_reducible apply State.wr_modOrder
      | with_reducible apply State.wr_clearLink
      | with_reducible apply State.wr_withdrawBay
      | with_reducible apply State.wr_redirect
      | (intro x; exact ⟨rfl, rfl, rfl, rfl, fun _ => ⟨rfl, rfl, rfl⟩⟩)
      | (intro x; exact ⟨rfl, rfl, rfl, rfl, fun hlt => absurd hlt (by omega)⟩)
      | (intro x; refine ⟨fun _ => ?_, fun _ => ?_⟩ <;> first | omega | ((repeat' apply And.intro) <;> rfl))
      | (intro x; exact .inr ⟨rfl, .inl (Nat.le_refl _)⟩)
      | (intro x; rfl)
      | omega

theorem State.wr_pair (h : Wr k s₀ s) (n : Nat) (o : Order) (r : Nat) (d : Dest) (pickup v : Nat) : Wr k s₀ (s.pair n o r d pickup v) := by
  unfold State.pair
  try dsimp only
  repeat' first
      | with_reducible assumption
      | split
      | with_reducible apply State.wr_modOrder
      | with_reducible apply State.wr_modVehicle
      | with_reducible apply State.wr_reserve
      | with_reducible apply State.wr_restartProgress
      | with_reducible apply State.wr_sendTask
      | (intro x; exact ⟨rfl, rfl, rfl, rfl, fun _ => ⟨rfl, rfl, rfl⟩⟩)
      | (intro x; exact ⟨rfl, rfl, rfl, rfl, fun hlt => absurd hlt (by omega)⟩)
      | (intro x; refine ⟨fun _ => ?_, fun _ => ?_⟩ <;> first | omega | ((repeat' apply And.intro) <;> rfl))
      | (intro x; exact .inr ⟨rfl, .inl (Nat.le_refl _)⟩)
      | (intro x; rfl)
      | omega

theorem State.wr_passOne (h : Wr k s₀ s) (n : Nat) : Wr k s₀ (s.passOne n) := by
  unfold State.passOne
  try dsimp only
  repeat' first
      | with_reducible assumption
      | split
      | with_reducible apply State.wr_modOrder
      | with_reducible apply State.wr_raise
      | with_reducible apply State.wr_failOrder
      | with_reducible apply State.wr_storeFull
      | with_reducible apply State.wr_pair
      | (intro x; exact ⟨rfl, rfl, rfl, rfl, fun _ => ⟨rfl, rfl, rfl⟩⟩)
      | (intro x; exact ⟨rfl, rfl, rfl, rfl, fun hlt => absurd hlt (by omega)⟩)
      | (intro x; refine ⟨fun _ => ?_, fun _ => ?_⟩ <;> first | omega | ((repeat' apply And.intro) <;> rfl))
      | (intro x; exact .inr ⟨rfl, .inl (Nat.le_refl _)⟩)
      | (intro x; rfl)
      | (constructor <;> intro hk' <;> first | omega | exact nofun)
      | omega

theorem State.wr_takeQueue (h : Wr k s₀ s) (ns : List Nat) : Wr k s₀ (State.takeQueue ns s) := by
  induction ns generalizing s with
  | nil => exact h
  | cons n ns ih =>
    unfold State.takeQueue
    split
    · exact ih (State.wr_passOne h n)
    · exact h

theorem State.wr_rechoose (h : Wr k s₀ s) (n : Nat) : Wr k s₀ (s.rechoose n) := by
  unfold State.rechoose
  try dsimp only
  repeat' first
      | with_reducible assumption
      | split
      | with_reducible apply State.wr_modOrder
      | with_reducible apply State.wr_sendTask
      | with_reducible apply State.wr_steer
      | with_reducible apply State.wr_storeFull
      | with_reducible apply State.wr_newDrop
      | (intro x; exact ⟨rfl, rfl, rfl, rfl, fun _ => ⟨rfl, rfl, rfl⟩⟩)
      | (intro x; exact ⟨rfl, rfl, rfl, rfl, fun hlt => absurd hlt (by omega)⟩)
      | (intro x; refine ⟨fun _ => ?_, fun _ => ?_⟩ <;> first | omega | ((repeat' apply And.intro) <;> rfl))
      | (intro x; exact .inr ⟨rfl, .inl (Nat.le_refl _)⟩)
      | (intro x; rfl)
      | omega

theorem State.wr_pass (h : Wr k s₀ s) : Wr k s₀ s.pass :=
  State.wr_takeQueue (State.wr_each h _ _ fun n _ ht => State.wr_rechoose ht n) _

theorem State.wr_finish (h : Wr k s₀ s) : Wr k s₀ s.finish := by
  unfold State.finish
  split
  · exact (State.wr_pass h).small false _
  · exact h.small false _

theorem State.wr_modJobAt (h : Wr k s₀ s) (hk : 2 ≤ k) (j : Option Nat) (f : Job → Job) (hf : ∀ j : Job, j.same k (f j)) :
    Wr k s₀ (s.modJobAt j f) := by
  unfold State.modJobAt
  split
  · exact State.wr_modJob h hk _ f hf
  · exact h

theorem satAdd_le (x y : Nat) : satAdd x y ≤ Config.max32 := Nat.min_le_left ..
theorem satCount_le (x : Nat) : satCount x ≤ Config.max16 := Nat.min_le_left ..

theorem Job.chargeConsumed_same (m g : Nat) (j : Job) : Job.same k j (j.chargeConsumed m g) :=
  ⟨rfl, fun ⟨_, _, b⟩ => ⟨satAdd_le .., satAdd_le .., b⟩, fun _ => ⟨rfl, rfl, rfl⟩⟩
theorem Job.chargeStrip_same (m g : Nat) (j : Job) : Job.same k j (j.chargeStrip m g) :=
  ⟨rfl, fun ⟨b, c, _, _, d⟩ => ⟨b, c, satAdd_le .., satAdd_le .., d⟩, fun _ => ⟨rfl, rfl, rfl⟩⟩
theorem Job.chargeStub_same (m g : Nat) (j : Job) : Job.same k j (j.chargeStub m g) :=
  ⟨rfl, fun ⟨b, c, d, e, _, _, f⟩ => ⟨b, c, d, e, satAdd_le .., satAdd_le .., f⟩, fun _ => ⟨rfl, rfl, rfl⟩⟩
theorem Job.splices_same (j : Job) : Job.same k j { j with spliceCount := satCount j.spliceCount } :=
  ⟨rfl, fun ⟨b, c, d, e, f, g, _, i⟩ => ⟨b, c, d, e, f, g, satCount_le .., i⟩, fun _ => ⟨rfl, rfl, rfl⟩⟩
theorem Job.breaks_same (j : Job) : Job.same k j { j with breakCount := satCount j.breakCount } :=
  ⟨rfl, fun ⟨b, c, d, e, f, g, i, _, z⟩ => ⟨b, c, d, e, f, g, i, satCount_le .., z⟩, fun _ => ⟨rfl, rfl, rfl⟩⟩
theorem Job.good_bounded {j : Job} (h : j.bounded) (t : Bool) : ({ j with good := satAdd j.good 1, targetMet := t } : Job).bounded := by
  obtain ⟨a, b, c, d, e, f, g, i, _, z⟩ := h
  exact ⟨a, b, c, d, e, f, g, i, satAdd_le .., z⟩
theorem Job.makeready_bounded {j : Job} (h : j.bounded) (t : Bool) : ({ j with makeready := satAdd j.makeready 1, excess := t } : Job).bounded := by
  obtain ⟨a, b, c, d, e, f, g, i, x, _, z⟩ := h
  exact ⟨a, b, c, d, e, f, g, i, x, satAdd_le .., z⟩
theorem Job.splice_bounded {j : Job} (h : j.bounded) : ({ j with splice := satAdd j.splice 1 } : Job).bounded := by
  obtain ⟨a, b, c, d, e, f, g, i, x, y, _, z⟩ := h
  exact ⟨a, b, c, d, e, f, g, i, x, y, satAdd_le .., z⟩
theorem Job.brk_bounded {j : Job} (h : j.bounded) : ({ j with brk := satAdd j.brk 1 } : Job).bounded := by
  obtain ⟨a, b, c, d, e, f, g, i, x, y, w, _, z⟩ := h
  exact ⟨a, b, c, d, e, f, g, i, x, y, w, satAdd_le .., z⟩
theorem Job.changeover_bounded {j : Job} (h : j.bounded) : ({ j with changeover := satAdd j.changeover 1 } : Job).bounded := by
  obtain ⟨a, b, c, d, e, f, g, i, x, y, w, v, _⟩ := h
  exact ⟨a, b, c, d, e, f, g, i, x, y, w, v, satAdd_le ..⟩

theorem State.wr_dropNotices (h : Wr k s₀ s) (l : Nat) : Wr k s₀ (s.dropNotices l) := by
  unfold State.dropNotices
  try dsimp only
  repeat' first
      | with_reducible assumption
      | (intro n t ht)
      | split
      | with_reducible apply State.wr_modStation
      | with_reducible apply State.wr_each
      | (intro x; exact ⟨rfl, rfl, rfl, rfl, fun _ => ⟨rfl, rfl, rfl⟩⟩)
      | (intro x; exact ⟨rfl, rfl, rfl, rfl, fun hlt => absurd hlt (by omega)⟩)
      | (intro x; refine ⟨fun _ => ?_, fun _ => ?_⟩ <;> first | omega | ((repeat' apply And.intro) <;> rfl))
      | (intro x; exact .inr ⟨rfl, .inl (Nat.le_refl _)⟩)
      | (intro x; rfl)
      | (intro x; exact Stand.same_withArm x _ _ rfl rfl)
      | exact Job.splices_same
      | exact Job.breaks_same
      | exact Job.chargeConsumed_same _ _
      | (intro j; exact ⟨rfl, id, fun _ => ⟨rfl, rfl, rfl⟩⟩)
      | (intro j; exact ⟨rfl, id, fun hlt => absurd hlt (by omega)⟩)
      | (intro x; exact ⟨fun b => b, fun _ => ⟨rfl, rfl, rfl, rfl, rfl⟩⟩)
      | omega

theorem State.wr_closeLive (h : Wr k s₀ s) (hk : 3 ≤ k) (l n : Nat) : Wr k s₀ (s.closeLive l n) := by
  unfold State.closeLive
  try dsimp only
  repeat' first
      | with_reducible assumption
      | split
      | with_reducible apply State.wr_modLine
      | with_reducible apply State.wr_modJob
      | with_reducible apply State.wr_dropNotices
      | (intro x; exact ⟨rfl, rfl, rfl, rfl, fun _ => ⟨rfl, rfl, rfl⟩⟩)
      | (intro x; exact ⟨rfl, rfl, rfl, rfl, fun hlt => absurd hlt (by omega)⟩)
      | (intro x; refine ⟨fun _ => ?_, fun _ => ?_⟩ <;> first | omega | ((repeat' apply And.intro) <;> rfl))
      | (intro x; exact .inr ⟨rfl, .inl (Nat.le_refl _)⟩)
      | (intro x; rfl)
      | (intro x; exact Stand.same_withArm x _ _ rfl rfl)
      | exact Job.splices_same
      | exact Job.breaks_same
      | exact Job.chargeConsumed_same _ _
      | (intro j; exact ⟨rfl, id, fun _ => ⟨rfl, rfl, rfl⟩⟩)
      | (intro j; exact ⟨rfl, id, fun hlt => absurd hlt (by omega)⟩)
      | (intro x; exact ⟨fun b => b, fun _ => ⟨rfl, rfl, rfl, rfl, rfl⟩⟩)
      | omega

theorem State.wr_spliceEvent (h : Wr k s₀ s) (hk : 2 ≤ k) (l : Nat) : Wr k s₀ (s.spliceEvent l) := by
  unfold State.spliceEvent
  try dsimp only
  repeat' first
      | with_reducible assumption
      | split
      | with_reducible apply State.wr_modLine
      | with_reducible apply State.wr_modJobAt
      | (intro x; exact ⟨rfl, rfl, rfl, rfl, fun _ => ⟨rfl, rfl, rfl⟩⟩)
      | (intro x; exact ⟨rfl, rfl, rfl, rfl, fun hlt => absurd hlt (by omega)⟩)
      | (intro x; refine ⟨fun _ => ?_, fun _ => ?_⟩ <;> first | omega | ((repeat' apply And.intro) <;> rfl))
      | (intro x; exact .inr ⟨rfl, .inl (Nat.le_refl _)⟩)
      | (intro x; rfl)
      | (intro x; exact Stand.same_withArm x _ _ rfl rfl)
      | exact Job.splices_same
      | exact Job.breaks_same
      | exact Job.chargeConsumed_same _ _
      | (intro j; exact ⟨rfl, id, fun _ => ⟨rfl, rfl, rfl⟩⟩)
      | (intro j; exact ⟨rfl, id, fun hlt => absurd hlt (by omega)⟩)
      | (intro x; exact ⟨fun b => b, fun _ => ⟨rfl, rfl, rfl, rfl, rfl⟩⟩)
      | omega

theorem State.wr_countBreak (h : Wr k s₀ s) (hk : 2 ≤ k) (l : Nat) : Wr k s₀ (s.countBreak l) := by
  unfold State.countBreak
  try dsimp only
  repeat' first
      | with_reducible assumption
      | split
      | with_reducible apply State.wr_modLine
      | with_reducible apply State.wr_modJob
      | (intro x; exact ⟨rfl, rfl, rfl, rfl, fun _ => ⟨rfl, rfl, rfl⟩⟩)
      | (intro x; exact ⟨rfl, rfl, rfl, rfl, fun hlt => absurd hlt (by omega)⟩)
      | (intro x; refine ⟨fun _ => ?_, fun _ => ?_⟩ <;> first | omega | ((repeat' apply And.intro) <;> rfl))
      | (intro x; exact .inr ⟨rfl, .inl (Nat.le_refl _)⟩)
      | (intro x; rfl)
      | (intro x; exact Stand.same_withArm x _ _ rfl rfl)
      | exact Job.splices_same
      | exact Job.breaks_same
      | exact Job.chargeConsumed_same _ _
      | (intro j; exact ⟨rfl, id, fun _ => ⟨rfl, rfl, rfl⟩⟩)
      | (intro j; exact ⟨rfl, id, fun hlt => absurd hlt (by omega)⟩)
      | (intro x; exact ⟨fun b => b, fun _ => ⟨rfl, rfl, rfl, rfl, rfl⟩⟩)
      | omega

theorem State.wr_tellTarget (h : Wr k s₀ s) (l n good : Nat) : Wr k s₀ (s.tellTarget l n good) := by
  unfold State.tellTarget
  try dsimp only
  repeat' first
      | with_reducible assumption
      | (intro n t ht)
      | split
      | with_reducible apply State.wr_each
      | with_reducible apply State.wr_send
      | (intro x; exact ⟨rfl, rfl, rfl, rfl, fun _ => ⟨rfl, rfl, rfl⟩⟩)
      | (intro x; exact ⟨rfl, rfl, rfl, rfl, fun hlt => absurd hlt (by omega)⟩)
      | (intro x; refine ⟨fun _ => ?_, fun _ => ?_⟩ <;> first | omega | ((repeat' apply And.intro) <;> rfl))
      | (intro x; exact .inr ⟨rfl, .inl (Nat.le_refl _)⟩)
      | (intro x; rfl)
      | (intro x; exact Stand.same_withArm x _ _ rfl rfl)
      | exact Job.splices_same
      | exact Job.breaks_same
      | exact Job.chargeConsumed_same _ _
      | (intro j; exact ⟨rfl, id, fun _ => ⟨rfl, rfl, rfl⟩⟩)
      | (intro j; exact ⟨rfl, id, fun hlt => absurd hlt (by omega)⟩)
      | (intro x; exact ⟨fun b => b, fun _ => ⟨rfl, rfl, rfl, rfl, rfl⟩⟩)
      | omega

theorem State.wr_countMakeready (h : Wr k s₀ s) (hk : 2 ≤ k) (l n : Nat) (j : Job) (hj : s.job n = some j) : Wr k s₀ (s.countMakeready l n j) := by
  unfold State.countMakeready
  dsimp only
  split
  · refine State.wr_raise (Wr.job h hk hj ?_) _ _
    exact ⟨rfl, fun b => Job.makeready_bounded b true, fun _ => ⟨rfl, rfl, rfl⟩⟩
  · exact h.job hk hj ⟨rfl, fun b => Job.makeready_bounded b j.excess, fun _ => ⟨rfl, rfl, rfl⟩⟩

theorem State.wr_countGood (h : Wr k s₀ s) (hk : 2 ≤ k) (l n : Nat) (j : Job) (hj : s.job n = some j) : Wr k s₀ (s.countGood l n j) := by
  unfold State.countGood
  dsimp only
  split
  · refine State.wr_tellTarget (State.wr_raise (Wr.job h hk hj ?_) _ _) _ _ _
    exact ⟨rfl, fun b => Job.good_bounded b true, fun _ => ⟨rfl, rfl, rfl⟩⟩
  · exact h.job hk hj ⟨rfl, fun b => Job.good_bounded b j.targetMet, fun _ => ⟨rfl, rfl, rfl⟩⟩

theorem State.wr_countSplice (h : Wr k s₀ s) (hk : 2 ≤ k) (l n : Nat) (j : Job) (hj : s.job n = some j) : Wr k s₀ (s.countSplice l n j) := by
  unfold State.countSplice
  refine State.wr_modLine (Wr.job h hk hj ?_) hk _ _
    (fun x => ⟨fun _ => ⟨rfl, rfl, rfl, rfl, rfl, rfl, rfl⟩, fun _ => ⟨rfl, rfl, rfl⟩⟩)
  exact ⟨rfl, Job.splice_bounded, fun _ => ⟨rfl, rfl, rfl⟩⟩

theorem State.wr_countCategory (h : Wr k s₀ s) (hk : 2 ≤ k) (l n : Nat) (j : Job) (hj : s.job n = some j) :
    Wr k s₀ (s.countCategory l n j) := by
  unfold State.countCategory
  split
  · exact h
  · exact State.wr_countMakeready h hk l n j hj
  · exact State.wr_countGood h hk l n j hj
  · exact State.wr_countSplice h hk l n j hj
  · exact h.job hk hj ⟨rfl, Job.brk_bounded, fun _ => ⟨rfl, rfl, rfl⟩⟩
  · exact h.job hk hj ⟨rfl, Job.changeover_bounded, fun _ => ⟨rfl, rfl, rfl⟩⟩

theorem State.wr_countCopy (h : Wr k s₀ s) (hk : 3 ≤ k) (l : Nat) : Wr k s₀ (s.countCopy l) := by
  unfold State.countCopy
  split
  · exact h
  · split
    · exact h
    · next hj =>
      split
      · exact h
      · have g := State.wr_countCategory h (by omega : 2 ≤ k) l _ _ hj
        split
        · exact State.wr_closeLive g hk _ _
        · exact g

theorem State.wr_writeTs (h : Wr k s₀ s) (hk : 1 ≤ k) (st : Nat) : Wr k s₀ (s.writeTs st) := by
  unfold State.writeTs
  try dsimp only
  repeat' first
      | with_reducible assumption
      | split
      | with_reducible apply State.wr_modStand
      | (intro x; exact ⟨rfl, rfl, rfl, rfl, fun _ => ⟨rfl, rfl, rfl⟩⟩)
      | (intro x; exact ⟨rfl, rfl, rfl, rfl, fun hlt => absurd hlt (by omega)⟩)
      | (intro x; refine ⟨fun _ => ?_, fun _ => ?_⟩ <;> first | omega | ((repeat' apply And.intro) <;> rfl))
      | (intro x; exact .inr ⟨rfl, .inl (Nat.le_refl _)⟩)
      | (intro x; rfl)
      | (intro x; exact Stand.same_withArm x _ _ rfl rfl)
      | exact Job.splices_same
      | exact Job.breaks_same
      | exact Job.chargeConsumed_same _ _
      | (intro j; exact ⟨rfl, id, fun _ => ⟨rfl, rfl, rfl⟩⟩)
      | (intro j; exact ⟨rfl, id, fun hlt => absurd hlt (by omega)⟩)
      | (intro x; exact ⟨fun b => b, fun _ => ⟨rfl, rfl, rfl, rfl, rfl⟩⟩)
      | exact fun _ h => h
      | omega

theorem State.wr_handTs (h : Wr k s₀ s) (st : Nat) : Wr k s₀ (s.handTs st) := by
  unfold State.handTs
  try dsimp only
  repeat' first
      | with_reducible assumption
      | split
      | with_reducible apply State.wr_recomputeDeadlines
      | with_reducible apply State.wr_evalCallOff
      | (intro x; exact ⟨rfl, rfl, rfl, rfl, fun _ => ⟨rfl, rfl, rfl⟩⟩)
      | (intro x; exact ⟨rfl, rfl, rfl, rfl, fun hlt => absurd hlt (by omega)⟩)
      | (intro x; refine ⟨fun _ => ?_, fun _ => ?_⟩ <;> first | omega | ((repeat' apply And.intro) <;> rfl))
      | (intro x; exact .inr ⟨rfl, .inl (Nat.le_refl _)⟩)
      | (intro x; rfl)
      | (intro x; exact Stand.same_withArm x _ _ rfl rfl)
      | exact Job.splices_same
      | exact Job.breaks_same
      | exact Job.chargeConsumed_same _ _
      | (intro j; exact ⟨rfl, id, fun _ => ⟨rfl, rfl, rfl⟩⟩)
      | (intro j; exact ⟨rfl, id, fun hlt => absurd hlt (by omega)⟩)
      | (intro x; exact ⟨fun b => b, fun _ => ⟨rfl, rfl, rfl, rfl, rfl⟩⟩)
      | omega

theorem State.wr_restartMark (h : Wr k s₀ s) (hk : 1 ≤ k) (st : Nat) : Wr k s₀ (s.restartMark st) := by
  unfold State.restartMark
  try dsimp only
  repeat' first
      | with_reducible assumption
      | split
      | with_reducible apply State.wr_modStand
      | (intro x; exact ⟨rfl, rfl, rfl, rfl, fun _ => ⟨rfl, rfl, rfl⟩⟩)
      | (intro x; exact ⟨rfl, rfl, rfl, rfl, fun hlt => absurd hlt (by omega)⟩)
      | (intro x; refine ⟨fun _ => ?_, fun _ => ?_⟩ <;> first | omega | ((repeat' apply And.intro) <;> rfl))
      | (intro x; exact .inr ⟨rfl, .inl (Nat.le_refl _)⟩)
      | (intro x; rfl)
      | (intro x; exact Stand.same_withArm x _ _ rfl rfl)
      | exact Job.splices_same
      | exact Job.breaks_same
      | exact Job.chargeConsumed_same _ _
      | (intro j; exact ⟨rfl, id, fun _ => ⟨rfl, rfl, rfl⟩⟩)
      | (intro j; exact ⟨rfl, id, fun hlt => absurd hlt (by omega)⟩)
      | (intro x; exact ⟨fun b => b, fun _ => ⟨rfl, rfl, rfl, rfl, rfl⟩⟩)
      | exact fun _ h => h
      | omega

theorem State.wr_disarm (h : Wr k s₀ s) (st : Nat) : Wr k s₀ (s.disarm st) := by
  unfold State.disarm
  try dsimp only
  repeat' first
      | with_reducible assumption
      | split
      | with_reducible apply State.wr_modStand
      | with_reducible apply State.wr_drive
      | with_reducible apply State.wr_paste
      | (intro x; exact ⟨rfl, rfl, rfl, rfl, fun _ => ⟨rfl, rfl, rfl⟩⟩)
      | (intro x; exact ⟨rfl, rfl, rfl, rfl, fun hlt => absurd hlt (by omega)⟩)
      | (intro x; refine ⟨fun _ => ?_, fun _ => ?_⟩ <;> first | omega | ((repeat' apply And.intro) <;> rfl))
      | (intro x; exact .inr ⟨rfl, .inl (Nat.le_refl _)⟩)
      | (intro x; rfl)
      | (intro x; exact Stand.same_withArm x _ _ rfl rfl)
      | exact Job.splices_same
      | exact Job.breaks_same
      | exact Job.chargeConsumed_same _ _
      | (intro j; exact ⟨rfl, id, fun _ => ⟨rfl, rfl, rfl⟩⟩)
      | (intro j; exact ⟨rfl, id, fun hlt => absurd hlt (by omega)⟩)
      | (intro x; exact ⟨fun b => b, fun _ => ⟨rfl, rfl, rfl, rfl, rfl⟩⟩)
      | exact fun _ h => h
      | omega

theorem State.wr_setLost (h : Wr k s₀ s) (hk : 1 ≤ k) (st : Nat) (c : LostCause) : Wr k s₀ (s.setLost st c) := by
  unfold State.setLost
  try dsimp only
  repeat' first
      | with_reducible assumption
      | split
      | with_reducible apply State.wr_modStand
      | with_reducible apply State.wr_raise
      | with_reducible apply State.wr_disarm
      | (intro x; exact ⟨rfl, rfl, rfl, rfl, fun _ => ⟨rfl, rfl, rfl⟩⟩)
      | (intro x; exact ⟨rfl, rfl, rfl, rfl, fun hlt => absurd hlt (by omega)⟩)
      | (intro x; refine ⟨fun _ => ?_, fun _ => ?_⟩ <;> first | omega | ((repeat' apply And.intro) <;> rfl))
      | (intro x; exact .inr ⟨rfl, .inl (Nat.le_refl _)⟩)
      | (intro x; rfl)
      | (intro x; exact Stand.same_withArm x _ _ rfl rfl)
      | exact Job.splices_same
      | exact Job.breaks_same
      | exact Job.chargeConsumed_same _ _
      | (intro j; exact ⟨rfl, id, fun _ => ⟨rfl, rfl, rfl⟩⟩)
      | (intro j; exact ⟨rfl, id, fun hlt => absurd hlt (by omega)⟩)
      | (intro x; exact ⟨fun b => b, fun _ => ⟨rfl, rfl, rfl, rfl, rfl⟩⟩)
      | exact fun _ h => h
      | (constructor <;> intro hk' <;> first | omega | exact nofun)
      | omega

theorem State.wr_lateTest (h : Wr k s₀ s) (st : Nat) : Wr k s₀ (s.lateTest st) := by
  unfold State.lateTest
  try dsimp only
  repeat' first
      | with_reducible assumption
      | split
      | with_reducible apply State.wr_modStand
      | with_reducible apply State.wr_raise
      | (intro x; exact ⟨rfl, rfl, rfl, rfl, fun _ => ⟨rfl, rfl, rfl⟩⟩)
      | (intro x; exact ⟨rfl, rfl, rfl, rfl, fun hlt => absurd hlt (by omega)⟩)
      | (intro x; refine ⟨fun _ => ?_, fun _ => ?_⟩ <;> first | omega | ((repeat' apply And.intro) <;> rfl))
      | (intro x; exact .inr ⟨rfl, .inl (Nat.le_refl _)⟩)
      | (intro x; rfl)
      | (intro x; exact Stand.same_withArm x _ _ rfl rfl)
      | exact Job.splices_same
      | exact Job.breaks_same
      | exact Job.chargeConsumed_same _ _
      | (intro j; exact ⟨rfl, id, fun _ => ⟨rfl, rfl, rfl⟩⟩)
      | (intro j; exact ⟨rfl, id, fun hlt => absurd hlt (by omega)⟩)
      | (intro x; exact ⟨fun b => b, fun _ => ⟨rfl, rfl, rfl, rfl, rfl⟩⟩)
      | exact fun _ h => h
      | (constructor <;> intro hk' <;> first | omega | exact nofun)
      | omega

theorem State.wr_tryArm (h : Wr k s₀ s) (st : Nat) : Wr k s₀ (s.tryArm st) := by
  unfold State.tryArm
  try dsimp only
  repeat' first
      | with_reducible assumption
      | split
      | with_reducible apply State.wr_modStand
      | with_reducible apply State.wr_lateTest
      | with_reducible apply State.wr_drive
      | with_reducible apply State.wr_paste
      | (intro x; exact ⟨rfl, rfl, rfl, rfl, fun _ => ⟨rfl, rfl, rfl⟩⟩)
      | (intro x; exact ⟨rfl, rfl, rfl, rfl, fun hlt => absurd hlt (by omega)⟩)
      | (intro x; refine ⟨fun _ => ?_, fun _ => ?_⟩ <;> first | omega | ((repeat' apply And.intro) <;> rfl))
      | (intro x; exact .inr ⟨rfl, .inl (Nat.le_refl _)⟩)
      | (intro x; rfl)
      | (intro x; exact Stand.same_withArm x _ _ rfl rfl)
      | exact Job.splices_same
      | exact Job.breaks_same
      | exact Job.chargeConsumed_same _ _
      | (intro j; exact ⟨rfl, id, fun _ => ⟨rfl, rfl, rfl⟩⟩)
      | (intro j; exact ⟨rfl, id, fun hlt => absurd hlt (by omega)⟩)
      | (intro x; exact ⟨fun b => b, fun _ => ⟨rfl, rfl, rfl, rfl, rfl⟩⟩)
      | exact fun _ h => h
      | omega

theorem State.wr_firePaste (h : Wr k s₀ s) (st : Nat) : Wr k s₀ (s.firePaste st) := by
  unfold State.firePaste
  try dsimp only
  repeat' first
      | with_reducible assumption
      | split
      | with_reducible apply State.wr_modStand
      | with_reducible apply State.wr_drive
      | with_reducible apply State.wr_paste
      | (intro x; exact ⟨rfl, rfl, rfl, rfl, fun _ => ⟨rfl, rfl, rfl⟩⟩)
      | (intro x; exact ⟨rfl, rfl, rfl, rfl, fun hlt => absurd hlt (by omega)⟩)
      | (intro x; refine ⟨fun _ => ?_, fun _ => ?_⟩ <;> first | omega | ((repeat' apply And.intro) <;> rfl))
      | (intro x; exact .inr ⟨rfl, .inl (Nat.le_refl _)⟩)
      | (intro x; rfl)
      | (intro x; exact Stand.same_withArm x _ _ rfl rfl)
      | exact Job.splices_same
      | exact Job.breaks_same
      | exact Job.chargeConsumed_same _ _
      | (intro j; exact ⟨rfl, id, fun _ => ⟨rfl, rfl, rfl⟩⟩)
      | (intro j; exact ⟨rfl, id, fun hlt => absurd hlt (by omega)⟩)
      | (intro x; exact ⟨fun b => b, fun _ => ⟨rfl, rfl, rfl, rfl, rfl⟩⟩)
      | exact fun _ h => h
      | omega

theorem State.wr_pasteTest (h : Wr k s₀ s) (st : Nat) : Wr k s₀ (s.pasteTest st) := by
  unfold State.pasteTest
  try dsimp only
  repeat' first
      | with_reducible assumption
      | split
      | with_reducible apply State.wr_firePaste
      | (intro x; exact ⟨rfl, rfl, rfl, rfl, fun _ => ⟨rfl, rfl, rfl⟩⟩)
      | (intro x; exact ⟨rfl, rfl, rfl, rfl, fun hlt => absurd hlt (by omega)⟩)
      | (intro x; refine ⟨fun _ => ?_, fun _ => ?_⟩ <;> first | omega | ((repeat' apply And.intro) <;> rfl))
      | (intro x; exact .inr ⟨rfl, .inl (Nat.le_refl _)⟩)
      | (intro x; rfl)
      | (intro x; exact Stand.same_withArm x _ _ rfl rfl)
      | exact Job.splices_same
      | exact Job.breaks_same
      | exact Job.chargeConsumed_same _ _
      | (intro j; exact ⟨rfl, id, fun _ => ⟨rfl, rfl, rfl⟩⟩)
      | (intro j; exact ⟨rfl, id, fun hlt => absurd hlt (by omega)⟩)
      | (intro x; exact ⟨fun b => b, fun _ => ⟨rfl, rfl, rfl, rfl, rfl⟩⟩)
      | omega

theorem State.wr_standbySample (h : Wr k s₀ s) (st vs : Nat) : Wr k s₀ (s.standbySample st vs) := by
  unfold State.standbySample
  try dsimp only
  repeat' first
      | with_reducible assumption
      | split
      | with_reducible apply State.wr_modStand
      | with_reducible apply State.wr_pasteTest
      | with_reducible apply State.wr_lateTest
      | (intro x; exact ⟨rfl, rfl, rfl, rfl, fun _ => ⟨rfl, rfl, rfl⟩⟩)
      | (intro x; exact ⟨rfl, rfl, rfl, rfl, fun hlt => absurd hlt (by omega)⟩)
      | (intro x; refine ⟨fun _ => ?_, fun _ => ?_⟩ <;> first | omega | ((repeat' apply And.intro) <;> rfl))
      | (intro x; exact .inr ⟨rfl, .inl (Nat.le_refl _)⟩)
      | (intro x; rfl)
      | (intro x; exact Stand.same_withArm x _ _ rfl rfl)
      | exact Job.splices_same
      | exact Job.breaks_same
      | exact Job.chargeConsumed_same _ _
      | (intro j; exact ⟨rfl, id, fun _ => ⟨rfl, rfl, rfl⟩⟩)
      | (intro j; exact ⟨rfl, id, fun hlt => absurd hlt (by omega)⟩)
      | (intro x; exact ⟨fun b => b, fun _ => ⟨rfl, rfl, rfl, rfl, rfl⟩⟩)
      | exact fun _ h => h
      | omega

theorem State.wr_seedDiameter (h : Wr k s₀ s) (hk : 1 ≤ k) (st n : Nat) : Wr k s₀ (s.seedDiameter st n) := by
  unfold State.seedDiameter
  try dsimp only
  repeat' first
      | with_reducible assumption
      | split
      | with_reducible apply State.wr_modStand
      | (intro x; exact ⟨rfl, rfl, rfl, rfl, fun _ => ⟨rfl, rfl, rfl⟩⟩)
      | (intro x; exact ⟨rfl, rfl, rfl, rfl, fun hlt => absurd hlt (by omega)⟩)
      | (intro x; refine ⟨fun _ => ?_, fun _ => ?_⟩ <;> first | omega | ((repeat' apply And.intro) <;> rfl))
      | (intro x; exact .inr ⟨rfl, .inl (Nat.le_refl _)⟩)
      | (intro x; rfl)
      | (intro x; exact Stand.same_withArm x _ _ rfl rfl)
      | exact Job.splices_same
      | exact Job.breaks_same
      | exact Job.chargeConsumed_same _ _
      | (intro j; exact ⟨rfl, id, fun _ => ⟨rfl, rfl, rfl⟩⟩)
      | (intro j; exact ⟨rfl, id, fun hlt => absurd hlt (by omega)⟩)
      | (intro x; exact ⟨fun b => b, fun _ => ⟨rfl, rfl, rfl, rfl, rfl⟩⟩)
      | exact fun _ h => h
      | omega

theorem State.wr_afterStart (h : Wr k s₀ s) (hk : 1 ≤ k) (st : Nat) : Wr k s₀ (s.afterStart st) := by
  unfold State.afterStart
  try dsimp only
  repeat' first
      | with_reducible assumption
      | split
      | with_reducible apply State.wr_writeTs
      | with_reducible apply State.wr_handTs
      | with_reducible apply State.wr_restartMark
      | with_reducible apply State.wr_tryArm
      | (intro x; exact ⟨rfl, rfl, rfl, rfl, fun _ => ⟨rfl, rfl, rfl⟩⟩)
      | (intro x; exact ⟨rfl, rfl, rfl, rfl, fun hlt => absurd hlt (by omega)⟩)
      | (intro x; refine ⟨fun _ => ?_, fun _ => ?_⟩ <;> first | omega | ((repeat' apply And.intro) <;> rfl))
      | (intro x; exact .inr ⟨rfl, .inl (Nat.le_refl _)⟩)
      | (intro x; rfl)
      | (intro x; exact Stand.same_withArm x _ _ rfl rfl)
      | exact Job.splices_same
      | exact Job.breaks_same
      | exact Job.chargeConsumed_same _ _
      | (intro j; exact ⟨rfl, id, fun _ => ⟨rfl, rfl, rfl⟩⟩)
      | (intro j; exact ⟨rfl, id, fun hlt => absurd hlt (by omega)⟩)
      | (intro x; exact ⟨fun b => b, fun _ => ⟨rfl, rfl, rfl, rfl, rfl⟩⟩)
      | omega

/-- Beside a READY arm the ACTIVE arm of a stand is the other one. -/
theorem Stand.active_ready (x : Stand) {a b : Arm} (ha : x.active = some a) (hb : x.armIn .ready = some b) : b.other = a := by
  unfold Stand.active Stand.armIn at *
  cases a <;> cases b <;> simp_all [Arm.other] <;> grind

theorem State.expire_arm' (s : State) (n st : Nat) (df : Option Nat) {a b : Arm} (h : b.other = a) :
    (((s.expire n st a df).stand st).arm b.other).state ≠ .active := by
  rw [h]
  exact State.expire_arm s n st a df

/-- A stand without an ACTIVE arm. -/
theorem Stand.inactive (x : Stand) (a : Arm) (h : x.active = none) : (x.arm a).state ≠ .active := by
  unfold Stand.active Stand.armIn at h
  cases a <;> grind [Stand.arm]

theorem State.wr_splice (h : Wr k s₀ s) (hk : 2 ≤ k) (st : Nat) : Wr k s₀ (s.splice st) := by
  unfold State.splice
  try dsimp only
  repeat' first
      | with_reducible assumption
      | split
      | with_reducible apply State.wr_modStand
      | with_reducible apply State.wr_dropPasteDrive
      | with_reducible apply State.wr_startMove
      | with_reducible apply State.wr_expire
      | with_reducible apply State.wr_spliceEvent
      | with_reducible apply State.wr_seedDiameter
      | with_reducible apply State.wr_afterStart
      | (intro x; exact ⟨rfl, rfl, rfl, rfl, fun _ => ⟨rfl, rfl, rfl⟩⟩)
      | (intro x; exact ⟨rfl, rfl, rfl, rfl, fun hlt => absurd hlt (by omega)⟩)
      | (intro x; refine ⟨fun _ => ?_, fun _ => ?_⟩ <;> first | omega | ((repeat' apply And.intro) <;> rfl))
      | (intro x; exact .inr ⟨rfl, .inl (Nat.le_refl _)⟩)
      | (intro x; rfl)
      | (intro x; exact Stand.same_withArm x _ _ rfl rfl)
      | exact Job.splices_same
      | exact Job.breaks_same
      | exact Job.chargeConsumed_same _ _
      | (intro j; exact ⟨rfl, id, fun _ => ⟨rfl, rfl, rfl⟩⟩)
      | (intro j; exact ⟨rfl, id, fun hlt => absurd hlt (by omega)⟩)
      | (intro x; exact ⟨fun b => b, fun _ => ⟨rfl, rfl, rfl, rfl, rfl⟩⟩)
      | exact fun _ h => h
      | exact State.expire_arm' _ _ _ _ (Stand.active_ready _ (by assumption) (by assumption))
      | omega

theorem State.wr_firstStart (h : Wr k s₀ s) (hk : 1 ≤ k) (st : Nat) : Wr k s₀ (s.firstStart st) := by
  unfold State.firstStart
  try dsimp only
  repeat' first
      | with_reducible assumption
      | split
      | with_reducible apply State.wr_modStand
      | with_reducible apply State.wr_startMove
      | with_reducible apply State.wr_seedDiameter
      | with_reducible apply State.wr_afterStart
      | (intro x; exact ⟨rfl, rfl, rfl, rfl, fun _ => ⟨rfl, rfl, rfl⟩⟩)
      | (intro x; exact ⟨rfl, rfl, rfl, rfl, fun hlt => absurd hlt (by omega)⟩)
      | (intro x; refine ⟨fun _ => ?_, fun _ => ?_⟩ <;> first | omega | ((repeat' apply And.intro) <;> rfl))
      | (intro x; exact .inr ⟨rfl, .inl (Nat.le_refl _)⟩)
      | (intro x; rfl)
      | (intro x; exact Stand.same_withArm x _ _ rfl rfl)
      | exact Job.splices_same
      | exact Job.breaks_same
      | exact Job.chargeConsumed_same _ _
      | (intro j; exact ⟨rfl, id, fun _ => ⟨rfl, rfl, rfl⟩⟩)
      | (intro j; exact ⟨rfl, id, fun hlt => absurd hlt (by omega)⟩)
      | (intro x; exact ⟨fun b => b, fun _ => ⟨rfl, rfl, rfl, rfl, rfl⟩⟩)
      | exact fun _ h => h
      | exact Stand.inactive _ _ (by assumption)
      | omega

theorem State.wr_breakSteps (h : Wr k s₀ s) (hk : 2 ≤ k) (l : Nat) (c : Cause) : Wr k s₀ (s.breakSteps l c) := by
  unfold State.breakSteps
  extract_lets s1 s2 s3 pasting s4 s5
  have h_s1 : Wr k s₀ s1 := by
    dsimp only [s1]
    repeat' first
        | with_reducible assumption
        | (intro n t ht)
        | split
        | with_reducible apply State.wr_modLine
        | with_reducible apply State.wr_each
        | with_reducible apply State.wr_raise
        | with_reducible apply State.wr_countBreak
        | with_reducible apply State.wr_disarm
        | with_reducible apply State.wr_splice
        | with_reducible apply State.wr_drive
        | with_reducible apply State.wr_paste
        | with_reducible apply State.wr_brake
        | with_reducible apply State.wr_stop
        | (intro x; exact ⟨rfl, rfl, rfl, rfl, fun _ => ⟨rfl, rfl, rfl⟩⟩)
        | (intro x; exact ⟨rfl, rfl, rfl, rfl, fun hlt => absurd hlt (by omega)⟩)
        | (intro x; refine ⟨fun _ => ?_, fun _ => ?_⟩ <;> first | omega | ((repeat' apply And.intro) <;> rfl))
        | (intro x; exact .inr ⟨rfl, .inl (Nat.le_refl _)⟩)
        | (intro x; rfl)
        | (intro x; exact Stand.same_withArm x _ _ rfl rfl)
        | exact Job.splices_same
        | exact Job.breaks_same
        | exact Job.chargeConsumed_same _ _
        | (intro j; exact ⟨rfl, id, fun _ => ⟨rfl, rfl, rfl⟩⟩)
        | (intro j; exact ⟨rfl, id, fun hlt => absurd hlt (by omega)⟩)
        | (intro x; exact ⟨fun b => b, fun _ => ⟨rfl, rfl, rfl, rfl, rfl⟩⟩)
        | (constructor <;> intro hk' <;> first | omega | exact nofun)
        | omega
  clear_value s1
  have h_s2 : Wr k s₀ s2 := by
    dsimp only [s2]
    repeat' first
        | with_reducible assumption
        | (intro n t ht)
        | split
        | with_reducible apply State.wr_modLine
        | with_reducible apply State.wr_each
        | with_reducible apply State.wr_raise
        | with_reducible apply State.wr_countBreak
        | with_reducible apply State.wr_disarm
        | with_reducible apply State.wr_splice
        | with_reducible apply State.wr_drive
        | with_reducible apply State.wr_paste
        | with_reducible apply State.wr_brake
        | with_reducible apply State.wr_stop
        | (intro x; exact ⟨rfl, rfl, rfl, rfl, fun _ => ⟨rfl, rfl, rfl⟩⟩)
        | (intro x; exact ⟨rfl, rfl, rfl, rfl, fun hlt => absurd hlt (by omega)⟩)
        | (intro x; refine ⟨fun _ => ?_, fun _ => ?_⟩ <;> first | omega | ((repeat' apply And.intro) <;> rfl))
        | (intro x; exact .inr ⟨rfl, .inl (Nat.le_refl _)⟩)
        | (intro x; rfl)
        | (intro x; exact Stand.same_withArm x _ _ rfl rfl)
        | exact Job.splices_same
        | exact Job.breaks_same
        | exact Job.chargeConsumed_same _ _
        | (intro j; exact ⟨rfl, id, fun _ => ⟨rfl, rfl, rfl⟩⟩)
        | (intro j; exact ⟨rfl, id, fun hlt => absurd hlt (by omega)⟩)
        | (intro x; exact ⟨fun b => b, fun _ => ⟨rfl, rfl, rfl, rfl, rfl⟩⟩)
        | (constructor <;> intro hk' <;> first | omega | exact nofun)
        | omega
  clear_value s2
  have h_s3 : Wr k s₀ s3 := by
    dsimp only [s3]
    repeat' first
        | with_reducible assumption
        | (intro n t ht)
        | split
        | with_reducible apply State.wr_modLine
        | with_reducible apply State.wr_each
        | with_reducible apply State.wr_raise
        | with_reducible apply State.wr_countBreak
        | with_reducible apply State.wr_disarm
        | with_reducible apply State.wr_splice
        | with_reducible apply State.wr_drive
        | with_reducible apply State.wr_paste
        | with_reducible apply State.wr_brake
        | with_reducible apply State.wr_stop
        | (intro x; exact ⟨rfl, rfl, rfl, rfl, fun _ => ⟨rfl, rfl, rfl⟩⟩)
        | (intro x; exact ⟨rfl, rfl, rfl, rfl, fun hlt => absurd hlt (by omega)⟩)
        | (intro x; refine ⟨fun _ => ?_, fun _ => ?_⟩ <;> first | omega | ((repeat' apply And.intro) <;> rfl))
        | (intro x; exact .inr ⟨rfl, .inl (Nat.le_refl _)⟩)
        | (intro x; rfl)
        | (intro x; exact Stand.same_withArm x _ _ rfl rfl)
        | exact Job.splices_same
        | exact Job.breaks_same
        | exact Job.chargeConsumed_same _ _
        | (intro j; exact ⟨rfl, id, fun _ => ⟨rfl, rfl, rfl⟩⟩)
        | (intro j; exact ⟨rfl, id, fun hlt => absurd hlt (by omega)⟩)
        | (intro x; exact ⟨fun b => b, fun _ => ⟨rfl, rfl, rfl, rfl, rfl⟩⟩)
        | (constructor <;> intro hk' <;> first | omega | exact nofun)
        | omega
  clear_value s3
  have h_s4 : Wr k s₀ s4 := by
    dsimp only [s4]
    repeat' first
        | with_reducible assumption
        | (intro n t ht)
        | split
        | with_reducible apply State.wr_modLine
        | with_reducible apply State.wr_each
        | with_reducible apply State.wr_raise
        | with_reducible apply State.wr_countBreak
        | with_reducible apply State.wr_disarm
        | with_reducible apply State.wr_splice
        | with_reducible apply State.wr_drive
        | with_reducible apply State.wr_paste
        | with_reducible apply State.wr_brake
        | with_reducible apply State.wr_stop
        | (intro x; exact ⟨rfl, rfl, rfl, rfl, fun _ => ⟨rfl, rfl, rfl⟩⟩)
        | (intro x; exact ⟨rfl, rfl, rfl, rfl, fun hlt => absurd hlt (by omega)⟩)
        | (intro x; refine ⟨fun _ => ?_, fun _ => ?_⟩ <;> first | omega | ((repeat' apply And.intro) <;> rfl))
        | (intro x; exact .inr ⟨rfl, .inl (Nat.le_refl _)⟩)
        | (intro x; rfl)
        | (intro x; exact Stand.same_withArm x _ _ rfl rfl)
        | exact Job.splices_same
        | exact Job.breaks_same
        | exact Job.chargeConsumed_same _ _
        | (intro j; exact ⟨rfl, id, fun _ => ⟨rfl, rfl, rfl⟩⟩)
        | (intro j; exact ⟨rfl, id, fun hlt => absurd hlt (by omega)⟩)
        | (intro x; exact ⟨fun b => b, fun _ => ⟨rfl, rfl, rfl, rfl, rfl⟩⟩)
        | (constructor <;> intro hk' <;> first | omega | exact nofun)
        | omega
  clear_value s4
  have h_s5 : Wr k s₀ s5 := by
    dsimp only [s5]
    repeat' first
        | with_reducible assumption
        | (intro n t ht)
        | split
        | with_reducible apply State.wr_modLine
        | with_reducible apply State.wr_each
        | with_reducible apply State.wr_raise
        | with_reducible apply State.wr_countBreak
        | with_reducible apply State.wr_disarm
        | with_reducible apply State.wr_splice
        | with_reducible apply State.wr_drive
        | with_reducible apply State.wr_paste
        | with_reducible apply State.wr_brake
        | with_reducible apply State.wr_stop
        | (intro x; exact ⟨rfl, rfl, rfl, rfl, fun _ => ⟨rfl, rfl, rfl⟩⟩)
        | (intro x; exact ⟨rfl, rfl, rfl, rfl, fun hlt => absurd hlt (by omega)⟩)
        | (intro x; refine ⟨fun _ => ?_, fun _ => ?_⟩ <;> first | omega | ((repeat' apply And.intro) <;> rfl))
        | (intro x; exact .inr ⟨rfl, .inl (Nat.le_refl _)⟩)
        | (intro x; rfl)
        | (intro x; exact Stand.same_withArm x _ _ rfl rfl)
        | exact Job.splices_same
        | exact Job.breaks_same
        | exact Job.chargeConsumed_same _ _
        | (intro j; exact ⟨rfl, id, fun _ => ⟨rfl, rfl, rfl⟩⟩)
        | (intro j; exact ⟨rfl, id, fun hlt => absurd hlt (by omega)⟩)
        | (intro x; exact ⟨fun b => b, fun _ => ⟨rfl, rfl, rfl, rfl, rfl⟩⟩)
        | (constructor <;> intro hk' <;> first | omega | exact nofun)
        | omega
  clear_value s5
  repeat' first
      | with_reducible assumption
      | (intro n t ht)
      | split
      | with_reducible apply State.wr_modLine
      | with_reducible apply State.wr_each
      | with_reducible apply State.wr_raise
      | with_reducible apply State.wr_countBreak
      | with_reducible apply State.wr_disarm
      | with_reducible apply State.wr_splice
      | with_reducible apply State.wr_drive
      | with_reducible apply State.wr_paste
      | with_reducible apply State.wr_brake
      | with_reducible apply State.wr_stop
      | (intro x; exact ⟨rfl, rfl, rfl, rfl, fun _ => ⟨rfl, rfl, rfl⟩⟩)
      | (intro x; exact ⟨rfl, rfl, rfl, rfl, fun hlt => absurd hlt (by omega)⟩)
      | (intro x; refine ⟨fun _ => ?_, fun _ => ?_⟩ <;> first | omega | ((repeat' apply And.intro) <;> rfl))
      | (intro x; exact .inr ⟨rfl, .inl (Nat.le_refl _)⟩)
      | (intro x; rfl)
      | (intro x; exact Stand.same_withArm x _ _ rfl rfl)
      | exact Job.splices_same
      | exact Job.breaks_same
      | exact Job.chargeConsumed_same _ _
      | (intro j; exact ⟨rfl, id, fun _ => ⟨rfl, rfl, rfl⟩⟩)
      | (intro j; exact ⟨rfl, id, fun hlt => absurd hlt (by omega)⟩)
      | (intro x; exact ⟨fun b => b, fun _ => ⟨rfl, rfl, rfl, rfl, rfl⟩⟩)
      | (constructor <;> intro hk' <;> first | omega | exact nofun)
      | omega

theorem State.wr_leaveBreak (h : Wr k s₀ s) (hk : 2 ≤ k) (l : Nat) : Wr k s₀ (s.leaveBreak l) := by
  unfold State.leaveBreak
  extract_lets s1 s2 s3 s4
  have h_s1 : Wr k s₀ s1 := by
    dsimp only [s1]
    repeat' first
        | with_reducible assumption
        | (intro n t ht)
        | split
        | with_reducible apply State.wr_modLine
        | with_reducible apply State.wr_each
        | with_reducible apply State.wr_tryArm
        | with_reducible apply State.wr_firstStart
        | with_reducible apply State.wr_drive
        | with_reducible apply State.wr_paste
        | with_reducible apply State.wr_brake
        | with_reducible apply State.wr_stop
        | (intro x; exact ⟨rfl, rfl, rfl, rfl, fun _ => ⟨rfl, rfl, rfl⟩⟩)
        | (intro x; exact ⟨rfl, rfl, rfl, rfl, fun hlt => absurd hlt (by omega)⟩)
        | (intro x; refine ⟨fun _ => ?_, fun _ => ?_⟩ <;> first | omega | ((repeat' apply And.intro) <;> rfl))
        | (intro x; exact .inr ⟨rfl, .inl (Nat.le_refl _)⟩)
        | (intro x; rfl)
        | (intro x; exact Stand.same_withArm x _ _ rfl rfl)
        | exact Job.splices_same
        | exact Job.breaks_same
        | exact Job.chargeConsumed_same _ _
        | (intro j; exact ⟨rfl, id, fun _ => ⟨rfl, rfl, rfl⟩⟩)
        | (intro j; exact ⟨rfl, id, fun hlt => absurd hlt (by omega)⟩)
        | (intro x; exact ⟨fun b => b, fun _ => ⟨rfl, rfl, rfl, rfl, rfl⟩⟩)
        | omega
  clear_value s1
  have h_s2 : Wr k s₀ s2 := by
    dsimp only [s2]
    repeat' first
        | with_reducible assumption
        | (intro n t ht)
        | split
        | with_reducible apply State.wr_modLine
        | with_reducible apply State.wr_each
        | with_reducible apply State.wr_tryArm
        | with_reducible apply State.wr_firstStart
        | with_reducible apply State.wr_drive
        | with_reducible apply State.wr_paste
        | with_reducible apply State.wr_brake
        | with_reducible apply State.wr_stop
        | (intro x; exact ⟨rfl, rfl, rfl, rfl, fun _ => ⟨rfl, rfl, rfl⟩⟩)
        | (intro x; exact ⟨rfl, rfl, rfl, rfl, fun hlt => absurd hlt (by omega)⟩)
        | (intro x; refine ⟨fun _ => ?_, fun _ => ?_⟩ <;> first | omega | ((repeat' apply And.intro) <;> rfl))
        | (intro x; exact .inr ⟨rfl, .inl (Nat.le_refl _)⟩)
        | (intro x; rfl)
        | (intro x; exact Stand.same_withArm x _ _ rfl rfl)
        | exact Job.splices_same
        | exact Job.breaks_same
        | exact Job.chargeConsumed_same _ _
        | (intro j; exact ⟨rfl, id, fun _ => ⟨rfl, rfl, rfl⟩⟩)
        | (intro j; exact ⟨rfl, id, fun hlt => absurd hlt (by omega)⟩)
        | (intro x; exact ⟨fun b => b, fun _ => ⟨rfl, rfl, rfl, rfl, rfl⟩⟩)
        | omega
  clear_value s2
  have h_s3 : Wr k s₀ s3 := by
    dsimp only [s3]
    repeat' first
        | with_reducible assumption
        | (intro n t ht)
        | split
        | with_reducible apply State.wr_modLine
        | with_reducible apply State.wr_each
        | with_reducible apply State.wr_tryArm
        | with_reducible apply State.wr_firstStart
        | with_reducible apply State.wr_drive
        | with_reducible apply State.wr_paste
        | with_reducible apply State.wr_brake
        | with_reducible apply State.wr_stop
        | (intro x; exact ⟨rfl, rfl, rfl, rfl, fun _ => ⟨rfl, rfl, rfl⟩⟩)
        | (intro x; exact ⟨rfl, rfl, rfl, rfl, fun hlt => absurd hlt (by omega)⟩)
        | (intro x; refine ⟨fun _ => ?_, fun _ => ?_⟩ <;> first | omega | ((repeat' apply And.intro) <;> rfl))
        | (intro x; exact .inr ⟨rfl, .inl (Nat.le_refl _)⟩)
        | (intro x; rfl)
        | (intro x; exact Stand.same_withArm x _ _ rfl rfl)
        | exact Job.splices_same
        | exact Job.breaks_same
        | exact Job.chargeConsumed_same _ _
        | (intro j; exact ⟨rfl, id, fun _ => ⟨rfl, rfl, rfl⟩⟩)
        | (intro j; exact ⟨rfl, id, fun hlt => absurd hlt (by omega)⟩)
        | (intro x; exact ⟨fun b => b, fun _ => ⟨rfl, rfl, rfl, rfl, rfl⟩⟩)
        | omega
  clear_value s3
  have h_s4 : Wr k s₀ s4 := by
    dsimp only [s4]
    repeat' first
        | with_reducible assumption
        | (intro n t ht)
        | split
        | with_reducible apply State.wr_modLine
        | with_reducible apply State.wr_each
        | with_reducible apply State.wr_tryArm
        | with_reducible apply State.wr_firstStart
        | with_reducible apply State.wr_drive
        | with_reducible apply State.wr_paste
        | with_reducible apply State.wr_brake
        | with_reducible apply State.wr_stop
        | (intro x; exact ⟨rfl, rfl, rfl, rfl, fun _ => ⟨rfl, rfl, rfl⟩⟩)
        | (intro x; exact ⟨rfl, rfl, rfl, rfl, fun hlt => absurd hlt (by omega)⟩)
        | (intro x; refine ⟨fun _ => ?_, fun _ => ?_⟩ <;> first | omega | ((repeat' apply And.intro) <;> rfl))
        | (intro x; exact .inr ⟨rfl, .inl (Nat.le_refl _)⟩)
        | (intro x; rfl)
        | (intro x; exact Stand.same_withArm x _ _ rfl rfl)
        | exact Job.splices_same
        | exact Job.breaks_same
        | exact Job.chargeConsumed_same _ _
        | (intro j; exact ⟨rfl, id, fun _ => ⟨rfl, rfl, rfl⟩⟩)
        | (intro j; exact ⟨rfl, id, fun hlt => absurd hlt (by omega)⟩)
        | (intro x; exact ⟨fun b => b, fun _ => ⟨rfl, rfl, rfl, rfl, rfl⟩⟩)
        | omega
  clear_value s4
  repeat' first
      | with_reducible assumption
      | (intro n t ht)
      | split
      | with_reducible apply State.wr_modLine
      | with_reducible apply State.wr_each
      | with_reducible apply State.wr_tryArm
      | with_reducible apply State.wr_firstStart
      | with_reducible apply State.wr_drive
      | with_reducible apply State.wr_paste
      | with_reducible apply State.wr_brake
      | with_reducible apply State.wr_stop
      | (intro x; exact ⟨rfl, rfl, rfl, rfl, fun _ => ⟨rfl, rfl, rfl⟩⟩)
      | (intro x; exact ⟨rfl, rfl, rfl, rfl, fun hlt => absurd hlt (by omega)⟩)
      | (intro x; refine ⟨fun _ => ?_, fun _ => ?_⟩ <;> first | omega | ((repeat' apply And.intro) <;> rfl))
      | (intro x; exact .inr ⟨rfl, .inl (Nat.le_refl _)⟩)
      | (intro x; rfl)
      | (intro x; exact Stand.same_withArm x _ _ rfl rfl)
      | exact Job.splices_same
      | exact Job.breaks_same
      | exact Job.chargeConsumed_same _ _
      | (intro j; exact ⟨rfl, id, fun _ => ⟨rfl, rfl, rfl⟩⟩)
      | (intro j; exact ⟨rfl, id, fun hlt => absurd hlt (by omega)⟩)
      | (intro x; exact ⟨fun b => b, fun _ => ⟨rfl, rfl, rfl, rfl, rfl⟩⟩)
      | omega

theorem State.wr_standLeaves (h : Wr k s₀ s) (hk : 1 ≤ k) (st : Nat) : Wr k s₀ (s.standLeaves st) := by
  unfold State.standLeaves
  try dsimp only
  repeat' first
      | with_reducible assumption
      | split
      | with_reducible apply State.wr_modStand
      | with_reducible apply State.wr_disarm
      | with_reducible apply State.wr_drive
      | with_reducible apply State.wr_paste
      | with_reducible apply State.wr_brake
      | (intro x; exact ⟨rfl, rfl, rfl, rfl, fun _ => ⟨rfl, rfl, rfl⟩⟩)
      | (intro x; exact ⟨rfl, rfl, rfl, rfl, fun hlt => absurd hlt (by omega)⟩)
      | (intro x; refine ⟨fun _ => ?_, fun _ => ?_⟩ <;> first | omega | ((repeat' apply And.intro) <;> rfl))
      | (intro x; exact .inr ⟨rfl, .inl (Nat.le_refl _)⟩)
      | (intro x; rfl)
      | (intro x; exact Stand.same_withArm x _ _ rfl rfl)
      | exact Job.splices_same
      | exact Job.breaks_same
      | exact Job.chargeConsumed_same _ _
      | (intro j; exact ⟨rfl, id, fun _ => ⟨rfl, rfl, rfl⟩⟩)
      | (intro j; exact ⟨rfl, id, fun hlt => absurd hlt (by omega)⟩)
      | (intro x; exact ⟨fun b => b, fun _ => ⟨rfl, rfl, rfl, rfl, rfl⟩⟩)
      | exact fun _ h => h
      | omega

theorem State.wr_brakeByPlan (h : Wr k s₀ s) (hk : 1 ≤ k) (l st : Nat) : Wr k s₀ (s.brakeByPlan l st) := by
  unfold State.brakeByPlan
  try dsimp only
  repeat' first
      | with_reducible assumption
      | split
      | with_reducible apply State.wr_drive
      | with_reducible apply State.wr_paste
      | with_reducible apply State.wr_brake
      | (intro x; exact ⟨rfl, rfl, rfl, rfl, fun _ => ⟨rfl, rfl, rfl⟩⟩)
      | (intro x; exact ⟨rfl, rfl, rfl, rfl, fun hlt => absurd hlt (by omega)⟩)
      | (intro x; refine ⟨fun _ => ?_, fun _ => ?_⟩ <;> first | omega | ((repeat' apply And.intro) <;> rfl))
      | (intro x; exact .inr ⟨rfl, .inl (Nat.le_refl _)⟩)
      | (intro x; rfl)
      | (intro x; exact Stand.same_withArm x _ _ rfl rfl)
      | exact Job.splices_same
      | exact Job.breaks_same
      | exact Job.chargeConsumed_same _ _
      | (intro j; exact ⟨rfl, id, fun _ => ⟨rfl, rfl, rfl⟩⟩)
      | (intro j; exact ⟨rfl, id, fun hlt => absurd hlt (by omega)⟩)
      | (intro x; exact ⟨fun b => b, fun _ => ⟨rfl, rfl, rfl, rfl, rfl⟩⟩)
      | omega

theorem State.wr_standJoins (h : Wr k s₀ s) (hk : 2 ≤ k) (l st : Nat) : Wr k s₀ (s.standJoins l st) := by
  unfold State.standJoins
  try dsimp only
  repeat' first
      | with_reducible assumption
      | split
      | with_reducible apply State.wr_modStand
      | with_reducible apply State.wr_restartMark
      | with_reducible apply State.wr_splice
      | with_reducible apply State.wr_brakeByPlan
      | (intro x; exact ⟨rfl, rfl, rfl, rfl, fun _ => ⟨rfl, rfl, rfl⟩⟩)
      | (intro x; exact ⟨rfl, rfl, rfl, rfl, fun hlt => absurd hlt (by omega)⟩)
      | (intro x; refine ⟨fun _ => ?_, fun _ => ?_⟩ <;> first | omega | ((repeat' apply And.intro) <;> rfl))
      | (intro x; exact .inr ⟨rfl, .inl (Nat.le_refl _)⟩)
      | (intro x; rfl)
      | (intro x; exact Stand.same_withArm x _ _ rfl rfl)
      | exact Job.splices_same
      | exact Job.breaks_same
      | exact Job.chargeConsumed_same _ _
      | (intro j; exact ⟨rfl, id, fun _ => ⟨rfl, rfl, rfl⟩⟩)
      | (intro j; exact ⟨rfl, id, fun hlt => absurd hlt (by omega)⟩)
      | (intro x; exact ⟨fun b => b, fun _ => ⟨rfl, rfl, rfl, rfl, rfl⟩⟩)
      | exact fun _ h => h
      | omega

theorem State.wr_retarget (h : Wr k s₀ s) (n : Nat) (p : Position) : Wr k s₀ (s.retarget n p) := by
  unfold State.retarget
  try dsimp only
  repeat' first
      | with_reducible assumption
      | split
      | with_reducible apply State.wr_modOrder
      | with_reducible apply State.wr_returnToPending
      | (intro x; exact ⟨rfl, rfl, rfl, rfl, fun _ => ⟨rfl, rfl, rfl⟩⟩)
      | (intro x; exact ⟨rfl, rfl, rfl, rfl, fun hlt => absurd hlt (by omega)⟩)
      | (intro x; refine ⟨fun _ => ?_, fun _ => ?_⟩ <;> first | omega | ((repeat' apply And.intro) <;> rfl))
      | (intro x; exact .inr ⟨rfl, .inl (Nat.le_refl _)⟩)
      | (intro x; rfl)
      | (intro x; exact Stand.same_withArm x _ _ rfl rfl)
      | exact Job.splices_same
      | exact Job.breaks_same
      | exact Job.chargeConsumed_same _ _
      | (intro j; exact ⟨rfl, id, fun _ => ⟨rfl, rfl, rfl⟩⟩)
      | (intro j; exact ⟨rfl, id, fun hlt => absurd hlt (by omega)⟩)
      | (intro x; exact ⟨fun b => b, fun _ => ⟨rfl, rfl, rfl, rfl, rfl⟩⟩)
      | omega

theorem State.wr_dealCallOff (h : Wr k s₀ s) (l n : Nat) : Wr k s₀ (s.dealCallOff l n) := by
  unfold State.dealCallOff
  try dsimp only
  repeat' first
      | with_reducible assumption
      | split
      | with_reducible apply State.wr_freeOrder
      | with_reducible apply State.wr_markAbort
      | with_reducible apply State.wr_convert
      | with_reducible apply State.wr_retarget
      | (intro x; exact ⟨rfl, rfl, rfl, rfl, fun _ => ⟨rfl, rfl, rfl⟩⟩)
      | (intro x; exact ⟨rfl, rfl, rfl, rfl, fun hlt => absurd hlt (by omega)⟩)
      | (intro x; refine ⟨fun _ => ?_, fun _ => ?_⟩ <;> first | omega | ((repeat' apply And.intro) <;> rfl))
      | (intro x; exact .inr ⟨rfl, .inl (Nat.le_refl _)⟩)
      | (intro x; rfl)
      | (intro x; exact Stand.same_withArm x _ _ rfl rfl)
      | exact Job.splices_same
      | exact Job.breaks_same
      | exact Job.chargeConsumed_same _ _
      | (intro j; exact ⟨rfl, id, fun _ => ⟨rfl, rfl, rfl⟩⟩)
      | (intro j; exact ⟨rfl, id, fun hlt => absurd hlt (by omega)⟩)
      | (intro x; exact ⟨fun b => b, fun _ => ⟨rfl, rfl, rfl, rfl, rfl⟩⟩)
      | omega

theorem State.wr_joinBreak (h : Wr k s₀ s) (hk : 2 ≤ k) (l : Nat) (joining : List Nat) : Wr k s₀ (s.joinBreak l joining) := by
  unfold State.joinBreak
  try dsimp only
  repeat' first
      | with_reducible assumption
      | split
      | with_reducible apply State.wr_breakSteps
      | (intro x; exact ⟨rfl, rfl, rfl, rfl, fun _ => ⟨rfl, rfl, rfl⟩⟩)
      | (intro x; exact ⟨rfl, rfl, rfl, rfl, fun hlt => absurd hlt (by omega)⟩)
      | (intro x; refine ⟨fun _ => ?_, fun _ => ?_⟩ <;> first | omega | ((repeat' apply And.intro) <;> rfl))
      | (intro x; exact .inr ⟨rfl, .inl (Nat.le_refl _)⟩)
      | (intro x; rfl)
      | (intro x; exact Stand.same_withArm x _ _ rfl rfl)
      | exact Job.splices_same
      | exact Job.breaks_same
      | exact Job.chargeConsumed_same _ _
      | (intro j; exact ⟨rfl, id, fun _ => ⟨rfl, rfl, rfl⟩⟩)
      | (intro j; exact ⟨rfl, id, fun hlt => absurd hlt (by omega)⟩)
      | (intro x; exact ⟨fun b => b, fun _ => ⟨rfl, rfl, rfl, rfl, rfl⟩⟩)
      | omega

theorem State.wr_reevaluate (h : Wr k s₀ s) (hk : 1 ≤ k) (st : Nat) : Wr k s₀ (s.reevaluate st) := by
  unfold State.reevaluate
  try dsimp only
  repeat' first
      | with_reducible assumption
      | split
      | with_reducible apply State.wr_writeTs
      | with_reducible apply State.wr_handTs
      | with_reducible apply State.wr_lateTest
      | with_reducible apply State.wr_tryArm
      | (intro x; exact ⟨rfl, rfl, rfl, rfl, fun _ => ⟨rfl, rfl, rfl⟩⟩)
      | (intro x; exact ⟨rfl, rfl, rfl, rfl, fun hlt => absurd hlt (by omega)⟩)
      | (intro x; refine ⟨fun _ => ?_, fun _ => ?_⟩ <;> first | omega | ((repeat' apply And.intro) <;> rfl))
      | (intro x; exact .inr ⟨rfl, .inl (Nat.le_refl _)⟩)
      | (intro x; rfl)
      | (intro x; exact Stand.same_withArm x _ _ rfl rfl)
      | exact Job.splices_same
      | exact Job.breaks_same
      | exact Job.chargeConsumed_same _ _
      | (intro j; exact ⟨rfl, id, fun _ => ⟨rfl, rfl, rfl⟩⟩)
      | (intro j; exact ⟨rfl, id, fun hlt => absurd hlt (by omega)⟩)
      | (intro x; exact ⟨fun b => b, fun _ => ⟨rfl, rfl, rfl, rfl, rfl⟩⟩)
      | omega

theorem State.wr_replan (h : Wr k s₀ s) (hk : 2 ≤ k) (l : Nat) (old : List Nat) (start : Bool) : Wr k s₀ (s.replan l old start) := by
  unfold State.replan
  extract_lets new leaving joining staying s1 s2 s3 s4 s5 s6 starting s7
  have h_s1 : Wr k s₀ s1 := by
    dsimp only [s1]
    repeat' first
        | with_reducible assumption
        | (intro n t ht)
        | split
        | with_reducible apply State.wr_each
        | with_reducible apply State.wr_evalCallOff
        | with_reducible apply State.wr_firstStart
        | with_reducible apply State.wr_standLeaves
        | with_reducible apply State.wr_brakeByPlan
        | with_reducible apply State.wr_standJoins
        | with_reducible apply State.wr_dealCallOff
        | with_reducible apply State.wr_joinBreak
        | with_reducible apply State.wr_reevaluate
        | (intro x; exact ⟨rfl, rfl, rfl, rfl, fun _ => ⟨rfl, rfl, rfl⟩⟩)
        | (intro x; exact ⟨rfl, rfl, rfl, rfl, fun hlt => absurd hlt (by omega)⟩)
        | (intro x; refine ⟨fun _ => ?_, fun _ => ?_⟩ <;> first | omega | ((repeat' apply And.intro) <;> rfl))
        | (intro x; exact .inr ⟨rfl, .inl (Nat.le_refl _)⟩)
        | (intro x; rfl)
        | (intro x; exact Stand.same_withArm x _ _ rfl rfl)
        | exact Job.splices_same
        | exact Job.breaks_same
        | exact Job.chargeConsumed_same _ _
        | (intro j; exact ⟨rfl, id, fun _ => ⟨rfl, rfl, rfl⟩⟩)
        | (intro j; exact ⟨rfl, id, fun hlt => absurd hlt (by omega)⟩)
        | (intro x; exact ⟨fun b => b, fun _ => ⟨rfl, rfl, rfl, rfl, rfl⟩⟩)
        | omega
  clear_value s1
  have h_s2 : Wr k s₀ s2 := by
    dsimp only [s2]
    repeat' first
        | with_reducible assumption
        | (intro n t ht)
        | split
        | with_reducible apply State.wr_each
        | with_reducible apply State.wr_evalCallOff
        | with_reducible apply State.wr_firstStart
        | with_reducible apply State.wr_standLeaves
        | with_reducible apply State.wr_brakeByPlan
        | with_reducible apply State.wr_standJoins
        | with_reducible apply State.wr_dealCallOff
        | with_reducible apply State.wr_joinBreak
        | with_reducible apply State.wr_reevaluate
        | (intro x; exact ⟨rfl, rfl, rfl, rfl, fun _ => ⟨rfl, rfl, rfl⟩⟩)
        | (intro x; exact ⟨rfl, rfl, rfl, rfl, fun hlt => absurd hlt (by omega)⟩)
        | (intro x; refine ⟨fun _ => ?_, fun _ => ?_⟩ <;> first | omega | ((repeat' apply And.intro) <;> rfl))
        | (intro x; exact .inr ⟨rfl, .inl (Nat.le_refl _)⟩)
        | (intro x; rfl)
        | (intro x; exact Stand.same_withArm x _ _ rfl rfl)
        | exact Job.splices_same
        | exact Job.breaks_same
        | exact Job.chargeConsumed_same _ _
        | (intro j; exact ⟨rfl, id, fun _ => ⟨rfl, rfl, rfl⟩⟩)
        | (intro j; exact ⟨rfl, id, fun hlt => absurd hlt (by omega)⟩)
        | (intro x; exact ⟨fun b => b, fun _ => ⟨rfl, rfl, rfl, rfl, rfl⟩⟩)
        | omega
  clear_value s2
  have h_s3 : Wr k s₀ s3 := by
    dsimp only [s3]
    repeat' first
        | with_reducible assumption
        | (intro n t ht)
        | split
        | with_reducible apply State.wr_each
        | with_reducible apply State.wr_evalCallOff
        | with_reducible apply State.wr_firstStart
        | with_reducible apply State.wr_standLeaves
        | with_reducible apply State.wr_brakeByPlan
        | with_reducible apply State.wr_standJoins
        | with_reducible apply State.wr_dealCallOff
        | with_reducible apply State.wr_joinBreak
        | with_reducible apply State.wr_reevaluate
        | (intro x; exact ⟨rfl, rfl, rfl, rfl, fun _ => ⟨rfl, rfl, rfl⟩⟩)
        | (intro x; exact ⟨rfl, rfl, rfl, rfl, fun hlt => absurd hlt (by omega)⟩)
        | (intro x; refine ⟨fun _ => ?_, fun _ => ?_⟩ <;> first | omega | ((repeat' apply And.intro) <;> rfl))
        | (intro x; exact .inr ⟨rfl, .inl (Nat.le_refl _)⟩)
        | (intro x; rfl)
        | (intro x; exact Stand.same_withArm x _ _ rfl rfl)
        | exact Job.splices_same
        | exact Job.breaks_same
        | exact Job.chargeConsumed_same _ _
        | (intro j; exact ⟨rfl, id, fun _ => ⟨rfl, rfl, rfl⟩⟩)
        | (intro j; exact ⟨rfl, id, fun hlt => absurd hlt (by omega)⟩)
        | (intro x; exact ⟨fun b => b, fun _ => ⟨rfl, rfl, rfl, rfl, rfl⟩⟩)
        | omega
  clear_value s3
  have h_s4 : Wr k s₀ s4 := by
    dsimp only [s4]
    repeat' first
        | with_reducible assumption
        | (intro n t ht)
        | split
        | with_reducible apply State.wr_each
        | with_reducible apply State.wr_evalCallOff
        | with_reducible apply State.wr_firstStart
        | with_reducible apply State.wr_standLeaves
        | with_reducible apply State.wr_brakeByPlan
        | with_reducible apply State.wr_standJoins
        | with_reducible apply State.wr_dealCallOff
        | with_reducible apply State.wr_joinBreak
        | with_reducible apply State.wr_reevaluate
        | (intro x; exact ⟨rfl, rfl, rfl, rfl, fun _ => ⟨rfl, rfl, rfl⟩⟩)
        | (intro x; exact ⟨rfl, rfl, rfl, rfl, fun hlt => absurd hlt (by omega)⟩)
        | (intro x; refine ⟨fun _ => ?_, fun _ => ?_⟩ <;> first | omega | ((repeat' apply And.intro) <;> rfl))
        | (intro x; exact .inr ⟨rfl, .inl (Nat.le_refl _)⟩)
        | (intro x; rfl)
        | (intro x; exact Stand.same_withArm x _ _ rfl rfl)
        | exact Job.splices_same
        | exact Job.breaks_same
        | exact Job.chargeConsumed_same _ _
        | (intro j; exact ⟨rfl, id, fun _ => ⟨rfl, rfl, rfl⟩⟩)
        | (intro j; exact ⟨rfl, id, fun hlt => absurd hlt (by omega)⟩)
        | (intro x; exact ⟨fun b => b, fun _ => ⟨rfl, rfl, rfl, rfl, rfl⟩⟩)
        | omega
  clear_value s4
  have h_s5 : Wr k s₀ s5 := by
    dsimp only [s5]
    repeat' first
        | with_reducible assumption
        | (intro n t ht)
        | split
        | with_reducible apply State.wr_each
        | with_reducible apply State.wr_evalCallOff
        | with_reducible apply State.wr_firstStart
        | with_reducible apply State.wr_standLeaves
        | with_reducible apply State.wr_brakeByPlan
        | with_reducible apply State.wr_standJoins
        | with_reducible apply State.wr_dealCallOff
        | with_reducible apply State.wr_joinBreak
        | with_reducible apply State.wr_reevaluate
        | (intro x; exact ⟨rfl, rfl, rfl, rfl, fun _ => ⟨rfl, rfl, rfl⟩⟩)
        | (intro x; exact ⟨rfl, rfl, rfl, rfl, fun hlt => absurd hlt (by omega)⟩)
        | (intro x; refine ⟨fun _ => ?_, fun _ => ?_⟩ <;> first | omega | ((repeat' apply And.intro) <;> rfl))
        | (intro x; exact .inr ⟨rfl, .inl (Nat.le_refl _)⟩)
        | (intro x; rfl)
        | (intro x; exact Stand.same_withArm x _ _ rfl rfl)
        | exact Job.splices_same
        | exact Job.breaks_same
        | exact Job.chargeConsumed_same _ _
        | (intro j; exact ⟨rfl, id, fun _ => ⟨rfl, rfl, rfl⟩⟩)
        | (intro j; exact ⟨rfl, id, fun hlt => absurd hlt (by omega)⟩)
        | (intro x; exact ⟨fun b => b, fun _ => ⟨rfl, rfl, rfl, rfl, rfl⟩⟩)
        | omega
  clear_value s5
  have h_s6 : Wr k s₀ s6 := by
    dsimp only [s6]
    repeat' first
        | with_reducible assumption
        | (intro n t ht)
        | split
        | with_reducible apply State.wr_each
        | with_reducible apply State.wr_evalCallOff
        | with_reducible apply State.wr_firstStart
        | with_reducible apply State.wr_standLeaves
        | with_reducible apply State.wr_brakeByPlan
        | with_reducible apply State.wr_standJoins
        | with_reducible apply State.wr_dealCallOff
        | with_reducible apply State.wr_joinBreak
        | with_reducible apply State.wr_reevaluate
        | (intro x; exact ⟨rfl, rfl, rfl, rfl, fun _ => ⟨rfl, rfl, rfl⟩⟩)
        | (intro x; exact ⟨rfl, rfl, rfl, rfl, fun hlt => absurd hlt (by omega)⟩)
        | (intro x; refine ⟨fun _ => ?_, fun _ => ?_⟩ <;> first | omega | ((repeat' apply And.intro) <;> rfl))
        | (intro x; exact .inr ⟨rfl, .inl (Nat.le_refl _)⟩)
        | (intro x; rfl)
        | (intro x; exact Stand.same_withArm x _ _ rfl rfl)
        | exact Job.splices_same
        | exact Job.breaks_same
        | exact Job.chargeConsumed_same _ _
        | (intro j; exact ⟨rfl, id, fun _ => ⟨rfl, rfl, rfl⟩⟩)
        | (intro j; exact ⟨rfl, id, fun hlt => absurd hlt (by omega)⟩)
        | (intro x; exact ⟨fun b => b, fun _ => ⟨rfl, rfl, rfl, rfl, rfl⟩⟩)
        | omega
  clear_value s6
  have h_s7 : Wr k s₀ s7 := by
    dsimp only [s7]
    repeat' first
        | with_reducible assumption
        | (intro n t ht)
        | split
        | with_reducible apply State.wr_each
        | with_reducible apply State.wr_evalCallOff
        | with_reducible apply State.wr_firstStart
        | with_reducible apply State.wr_standLeaves
        | with_reducible apply State.wr_brakeByPlan
        | with_reducible apply State.wr_standJoins
        | with_reducible apply State.wr_dealCallOff
        | with_reducible apply State.wr_joinBreak
        | with_reducible apply State.wr_reevaluate
        | (intro x; exact ⟨rfl, rfl, rfl, rfl, fun _ => ⟨rfl, rfl, rfl⟩⟩)
        | (intro x; exact ⟨rfl, rfl, rfl, rfl, fun hlt => absurd hlt (by omega)⟩)
        | (intro x; refine ⟨fun _ => ?_, fun _ => ?_⟩ <;> first | omega | ((repeat' apply And.intro) <;> rfl))
        | (intro x; exact .inr ⟨rfl, .inl (Nat.le_refl _)⟩)
        | (intro x; rfl)
        | (intro x; exact Stand.same_withArm x _ _ rfl rfl)
        | exact Job.splices_same
        | exact Job.breaks_same
        | exact Job.chargeConsumed_same _ _
        | (intro j; exact ⟨rfl, id, fun _ => ⟨rfl, rfl, rfl⟩⟩)
        | (intro j; exact ⟨rfl, id, fun hlt => absurd hlt (by omega)⟩)
        | (intro x; exact ⟨fun b => b, fun _ => ⟨rfl, rfl, rfl, rfl, rfl⟩⟩)
        | omega
  clear_value s7
  repeat' first
      | with_reducible assumption
      | (intro n t ht)
      | split
      | with_reducible apply State.wr_each
      | with_reducible apply State.wr_evalCallOff
      | with_reducible apply State.wr_firstStart
      | with_reducible apply State.wr_standLeaves
      | with_reducible apply State.wr_brakeByPlan
      | with_reducible apply State.wr_standJoins
      | with_reducible apply State.wr_dealCallOff
      | with_reducible apply State.wr_joinBreak
      | with_reducible apply State.wr_reevaluate
      | (intro x; exact ⟨rfl, rfl, rfl, rfl, fun _ => ⟨rfl, rfl, rfl⟩⟩)
      | (intro x; exact ⟨rfl, rfl, rfl, rfl, fun hlt => absurd hlt (by omega)⟩)
      | (intro x; refine ⟨fun _ => ?_, fun _ => ?_⟩ <;> first | omega | ((repeat' apply And.intro) <;> rfl))
      | (intro x; exact .inr ⟨rfl, .inl (Nat.le_refl _)⟩)
      | (intro x; rfl)
      | (intro x; exact Stand.same_withArm x _ _ rfl rfl)
      | exact Job.splices_same
      | exact Job.breaks_same
      | exact Job.chargeConsumed_same _ _
      | (intro j; exact ⟨rfl, id, fun _ => ⟨rfl, rfl, rfl⟩⟩)
      | (intro j; exact ⟨rfl, id, fun hlt => absurd hlt (by omega)⟩)
      | (intro x; exact ⟨fun b => b, fun _ => ⟨rfl, rfl, rfl, rfl, rfl⟩⟩)
      | omega

theorem State.wr_closeOutgoing (h : Wr k s₀ s) (hk : 3 ≤ k) (l : Nat) : Wr k s₀ (s.closeOutgoing l) := by
  unfold State.closeOutgoing
  try dsimp only
  repeat' first
      | with_reducible assumption
      | split
      | with_reducible apply State.wr_modJob
      | with_reducible apply State.wr_dropNotices
      | (intro x; exact ⟨rfl, rfl, rfl, rfl, fun _ => ⟨rfl, rfl, rfl⟩⟩)
      | (intro x; exact ⟨rfl, rfl, rfl, rfl, fun hlt => absurd hlt (by omega)⟩)
      | (intro x; refine ⟨fun _ => ?_, fun _ => ?_⟩ <;> first | omega | ((repeat' apply And.intro) <;> rfl))
      | (intro x; exact .inr ⟨rfl, .inl (Nat.le_refl _)⟩)
      | (intro x; rfl)
      | (intro x; exact Stand.same_withArm x _ _ rfl rfl)
      | exact Job.splices_same
      | exact Job.breaks_same
      | exact Job.chargeConsumed_same _ _
      | (intro j; exact ⟨rfl, id, fun _ => ⟨rfl, rfl, rfl⟩⟩)
      | (intro j; exact ⟨rfl, id, fun hlt => absurd hlt (by omega)⟩)
      | (intro x; exact ⟨fun b => b, fun _ => ⟨rfl, rfl, rfl, rfl, rfl⟩⟩)
      | omega

theorem State.wr_makeLive (h : Wr k s₀ s) (hk : 3 ≤ k) (j : Option Nat) (p : Plan) : Wr k s₀ (s.makeLive j p) := by
  unfold State.makeLive
  try dsimp only
  repeat' first
      | with_reducible assumption
      | split
      | with_reducible apply State.wr_modJobAt
      | (intro x; exact ⟨rfl, rfl, rfl, rfl, fun _ => ⟨rfl, rfl, rfl⟩⟩)
      | (intro x; exact ⟨rfl, rfl, rfl, rfl, fun hlt => absurd hlt (by omega)⟩)
      | (intro x; refine ⟨fun _ => ?_, fun _ => ?_⟩ <;> first | omega | ((repeat' apply And.intro) <;> rfl))
      | (intro x; exact .inr ⟨rfl, .inl (Nat.le_refl _)⟩)
      | (intro x; rfl)
      | (intro x; exact Stand.same_withArm x _ _ rfl rfl)
      | exact Job.splices_same
      | exact Job.breaks_same
      | exact Job.chargeConsumed_same _ _
      | (intro j; exact ⟨rfl, id, fun _ => ⟨rfl, rfl, rfl⟩⟩)
      | (intro j; exact ⟨rfl, id, fun hlt => absurd hlt (by omega)⟩)
      | (intro x; exact ⟨fun b => b, fun _ => ⟨rfl, rfl, rfl, rfl, rfl⟩⟩)
      | omega

theorem State.wr_takeChangeover (h : Wr k s₀ s) (hk : 3 ≤ k) (l : Nat) (pulse : Bool) : Wr k s₀ (s.takeChangeover l pulse) := by
  unfold State.takeChangeover
  extract_lets x old s1 s2 s3
  have h_s1 : Wr k s₀ s1 := by
    dsimp only [s1]
    repeat' first
        | with_reducible assumption
        | split
        | with_reducible apply State.wr_modLine
        | with_reducible apply State.wr_countBreak
        | with_reducible apply State.wr_replan
        | with_reducible apply State.wr_closeOutgoing
        | with_reducible apply State.wr_makeLive
        | (intro x; exact ⟨rfl, rfl, rfl, rfl, fun _ => ⟨rfl, rfl, rfl⟩⟩)
        | (intro x; exact ⟨rfl, rfl, rfl, rfl, fun hlt => absurd hlt (by omega)⟩)
        | (intro x; refine ⟨fun _ => ?_, fun _ => ?_⟩ <;> first | omega | ((repeat' apply And.intro) <;> rfl))
        | (intro x; exact .inr ⟨rfl, .inl (Nat.le_refl _)⟩)
        | (intro x; rfl)
        | (intro x; exact Stand.same_withArm x _ _ rfl rfl)
        | exact Job.splices_same
        | exact Job.breaks_same
        | exact Job.chargeConsumed_same _ _
        | (intro j; exact ⟨rfl, id, fun _ => ⟨rfl, rfl, rfl⟩⟩)
        | (intro j; exact ⟨rfl, id, fun hlt => absurd hlt (by omega)⟩)
        | (intro x; exact ⟨fun b => b, fun _ => ⟨rfl, rfl, rfl, rfl, rfl⟩⟩)
        | omega
  clear_value s1
  have h_s2 : Wr k s₀ s2 := by
    dsimp only [s2]
    repeat' first
        | with_reducible assumption
        | split
        | with_reducible apply State.wr_modLine
        | with_reducible apply State.wr_countBreak
        | with_reducible apply State.wr_replan
        | with_reducible apply State.wr_closeOutgoing
        | with_reducible apply State.wr_makeLive
        | (intro x; exact ⟨rfl, rfl, rfl, rfl, fun _ => ⟨rfl, rfl, rfl⟩⟩)
        | (intro x; exact ⟨rfl, rfl, rfl, rfl, fun hlt => absurd hlt (by omega)⟩)
        | (intro x; refine ⟨fun _ => ?_, fun _ => ?_⟩ <;> first | omega | ((repeat' apply And.intro) <;> rfl))
        | (intro x; exact .inr ⟨rfl, .inl (Nat.le_refl _)⟩)
        | (intro x; rfl)
        | (intro x; exact Stand.same_withArm x _ _ rfl rfl)
        | exact Job.splices_same
        | exact Job.breaks_same
        | exact Job.chargeConsumed_same _ _
        | (intro j; exact ⟨rfl, id, fun _ => ⟨rfl, rfl, rfl⟩⟩)
        | (intro j; exact ⟨rfl, id, fun hlt => absurd hlt (by omega)⟩)
        | (intro x; exact ⟨fun b => b, fun _ => ⟨rfl, rfl, rfl, rfl, rfl⟩⟩)
        | omega
  clear_value s2
  have h_s3 : Wr k s₀ s3 := by
    dsimp only [s3]
    repeat' first
        | with_reducible assumption
        | split
        | with_reducible apply State.wr_modLine
        | with_reducible apply State.wr_countBreak
        | with_reducible apply State.wr_replan
        | with_reducible apply State.wr_closeOutgoing
        | with_reducible apply State.wr_makeLive
        | (intro x; exact ⟨rfl, rfl, rfl, rfl, fun _ => ⟨rfl, rfl, rfl⟩⟩)
        | (intro x; exact ⟨rfl, rfl, rfl, rfl, fun hlt => absurd hlt (by omega)⟩)
        | (intro x; refine ⟨fun _ => ?_, fun _ => ?_⟩ <;> first | omega | ((repeat' apply And.intro) <;> rfl))
        | (intro x; exact .inr ⟨rfl, .inl (Nat.le_refl _)⟩)
        | (intro x; rfl)
        | (intro x; exact Stand.same_withArm x _ _ rfl rfl)
        | exact Job.splices_same
        | exact Job.breaks_same
        | exact Job.chargeConsumed_same _ _
        | (intro j; exact ⟨rfl, id, fun _ => ⟨rfl, rfl, rfl⟩⟩)
        | (intro j; exact ⟨rfl, id, fun hlt => absurd hlt (by omega)⟩)
        | (intro x; exact ⟨fun b => b, fun _ => ⟨rfl, rfl, rfl, rfl, rfl⟩⟩)
        | omega
  clear_value s3
  repeat' first
      | with_reducible assumption
      | split
      | with_reducible apply State.wr_modLine
      | with_reducible apply State.wr_countBreak
      | with_reducible apply State.wr_replan
      | with_reducible apply State.wr_closeOutgoing
      | with_reducible apply State.wr_makeLive
      | with_reducible apply State.wr_countCopy
      | (intro x; exact ⟨rfl, rfl, rfl, rfl, fun _ => ⟨rfl, rfl, rfl⟩⟩)
      | (intro x; exact ⟨rfl, rfl, rfl, rfl, fun hlt => absurd hlt (by omega)⟩)
      | (intro x; refine ⟨fun _ => ?_, fun _ => ?_⟩ <;> first | omega | ((repeat' apply And.intro) <;> rfl))
      | (intro x; exact .inr ⟨rfl, .inl (Nat.le_refl _)⟩)
      | (intro x; rfl)
      | (intro x; exact Stand.same_withArm x _ _ rfl rfl)
      | exact Job.splices_same
      | exact Job.breaks_same
      | exact Job.chargeConsumed_same _ _
      | (intro j; exact ⟨rfl, id, fun _ => ⟨rfl, rfl, rfl⟩⟩)
      | (intro j; exact ⟨rfl, id, fun hlt => absurd hlt (by omega)⟩)
      | (intro x; exact ⟨fun b => b, fun _ => ⟨rfl, rfl, rfl, rfl, rfl⟩⟩)
      | omega

theorem State.wr_enterBreak (h : Wr k s₀ s) (hk : 3 ≤ k) (l : Nat) (c : Cause) : Wr k s₀ (s.enterBreak l c) := by
  unfold State.enterBreak
  try dsimp only
  repeat' first
      | with_reducible assumption
      | split
      | with_reducible apply State.wr_breakSteps
      | with_reducible apply State.wr_takeChangeover
      | (intro x; exact ⟨rfl, rfl, rfl, rfl, fun _ => ⟨rfl, rfl, rfl⟩⟩)
      | (intro x; exact ⟨rfl, rfl, rfl, rfl, fun hlt => absurd hlt (by omega)⟩)
      | (intro x; refine ⟨fun _ => ?_, fun _ => ?_⟩ <;> first | omega | ((repeat' apply And.intro) <;> rfl))
      | (intro x; exact .inr ⟨rfl, .inl (Nat.le_refl _)⟩)
      | (intro x; rfl)
      | (intro x; exact Stand.same_withArm x _ _ rfl rfl)
      | exact Job.splices_same
      | exact Job.breaks_same
      | exact Job.chargeConsumed_same _ _
      | (intro j; exact ⟨rfl, id, fun _ => ⟨rfl, rfl, rfl⟩⟩)
      | (intro j; exact ⟨rfl, id, fun hlt => absurd hlt (by omega)⟩)
      | (intro x; exact ⟨fun b => b, fun _ => ⟨rfl, rfl, rfl, rfl, rfl⟩⟩)
      | omega

theorem State.wr_sourceActive (h : Wr k s₀ s) (hk : 3 ≤ k) (l : Nat) (c : Cause) : Wr k s₀ (s.sourceActive l c) := by
  unfold State.sourceActive
  try dsimp only
  repeat' first
      | with_reducible assumption
      | split
      | with_reducible apply State.wr_enterBreak
      | (intro x; exact ⟨rfl, rfl, rfl, rfl, fun _ => ⟨rfl, rfl, rfl⟩⟩)
      | (intro x; exact ⟨rfl, rfl, rfl, rfl, fun hlt => absurd hlt (by omega)⟩)
      | (intro x; refine ⟨fun _ => ?_, fun _ => ?_⟩ <;> first | omega | ((repeat' apply And.intro) <;> rfl))
      | (intro x; exact .inr ⟨rfl, .inl (Nat.le_refl _)⟩)
      | (intro x; rfl)
      | (intro x; exact Stand.same_withArm x _ _ rfl rfl)
      | exact Job.splices_same
      | exact Job.breaks_same
      | exact Job.chargeConsumed_same _ _
      | (intro j; exact ⟨rfl, id, fun _ => ⟨rfl, rfl, rfl⟩⟩)
      | (intro j; exact ⟨rfl, id, fun hlt => absurd hlt (by omega)⟩)
      | (intro x; exact ⟨fun b => b, fun _ => ⟨rfl, rfl, rfl, rfl, rfl⟩⟩)
      | omega

theorem State.wr_urgentAtRunout (h : Wr k s₀ s) (st : Nat) : Wr k s₀ (s.urgentAtRunout st) := by
  unfold State.urgentAtRunout
  try dsimp only
  repeat' first
      | with_reducible assumption
      | split
      | with_reducible apply State.wr_makeUrgent
      | (intro x; exact ⟨rfl, rfl, rfl, rfl, fun _ => ⟨rfl, rfl, rfl⟩⟩)
      | (intro x; exact ⟨rfl, rfl, rfl, rfl, fun hlt => absurd hlt (by omega)⟩)
      | (intro x; refine ⟨fun _ => ?_, fun _ => ?_⟩ <;> first | omega | ((repeat' apply And.intro) <;> rfl))
      | (intro x; exact .inr ⟨rfl, .inl (Nat.le_refl _)⟩)
      | (intro x; rfl)
      | (intro x; exact Stand.same_withArm x _ _ rfl rfl)
      | exact Job.splices_same
      | exact Job.breaks_same
      | exact Job.chargeConsumed_same _ _
      | (intro j; exact ⟨rfl, id, fun _ => ⟨rfl, rfl, rfl⟩⟩)
      | (intro j; exact ⟨rfl, id, fun hlt => absurd hlt (by omega)⟩)
      | (intro x; exact ⟨fun b => b, fun _ => ⟨rfl, rfl, rfl, rfl, rfl⟩⟩)
      | omega

theorem State.wr_runoutTest (h : Wr k s₀ s) (hk : 3 ≤ k) (st : Nat) : Wr k s₀ (s.runoutTest st) := by
  unfold State.runoutTest
  try dsimp only
  repeat' first
      | with_reducible assumption
      | split
      | with_reducible apply State.wr_modStand
      | with_reducible apply State.wr_sourceActive
      | with_reducible apply State.wr_urgentAtRunout
      | (intro x; exact ⟨rfl, rfl, rfl, rfl, fun _ => ⟨rfl, rfl, rfl⟩⟩)
      | (intro x; exact ⟨rfl, rfl, rfl, rfl, fun hlt => absurd hlt (by omega)⟩)
      | (intro x; refine ⟨fun _ => ?_, fun _ => ?_⟩ <;> first | omega | ((repeat' apply And.intro) <;> rfl))
      | (intro x; exact .inr ⟨rfl, .inl (Nat.le_refl _)⟩)
      | (intro x; rfl)
      | (intro x; exact Stand.same_withArm x _ _ rfl rfl)
      | exact Job.splices_same
      | exact Job.breaks_same
      | exact Job.chargeConsumed_same _ _
      | (intro j; exact ⟨rfl, id, fun _ => ⟨rfl, rfl, rfl⟩⟩)
      | (intro j; exact ⟨rfl, id, fun hlt => absurd hlt (by omega)⟩)
      | (intro x; exact ⟨fun b => b, fun _ => ⟨rfl, rfl, rfl, rfl, rfl⟩⟩)
      | exact fun _ h => h
      | omega

theorem State.wr_chargeConsumption (h : Wr k s₀ s) (hk : 2 ≤ k) (l n : Nat) (r : Roll) (before after : Nat) : Wr k s₀ (s.chargeConsumption l n r before after) := by
  unfold State.chargeConsumption
  try dsimp only
  repeat' first
      | with_reducible assumption
      | split
      | with_reducible apply State.wr_modRoll
      | with_reducible apply State.wr_modJobAt
      | (intro x; exact ⟨rfl, rfl, rfl, rfl, fun _ => ⟨rfl, rfl, rfl⟩⟩)
      | (intro x; exact ⟨rfl, rfl, rfl, rfl, fun hlt => absurd hlt (by omega)⟩)
      | (intro x; refine ⟨fun _ => ?_, fun _ => ?_⟩ <;> first | omega | ((repeat' apply And.intro) <;> rfl))
      | (intro x; exact .inr ⟨rfl, .inl (Nat.le_refl _)⟩)
      | (intro x; rfl)
      | (intro x; exact Stand.same_withArm x _ _ rfl rfl)
      | exact Job.splices_same
      | exact Job.breaks_same
      | exact Job.chargeConsumed_same _ _
      | (intro j; exact ⟨rfl, id, fun _ => ⟨rfl, rfl, rfl⟩⟩)
      | (intro j; exact ⟨rfl, id, fun hlt => absurd hlt (by omega)⟩)
      | (intro x; exact ⟨fun b => b, fun _ => ⟨rfl, rfl, rfl, rfl, rfl⟩⟩)
      | omega

theorem State.wr_acceptDiameter (h : Wr k s₀ s) (hk : 3 ≤ k) (st l before after : Nat) : Wr k s₀ (s.acceptDiameter st l before after) := by
  unfold State.acceptDiameter
  try dsimp only
  repeat' first
      | with_reducible assumption
      | split
      | with_reducible apply State.wr_modRoll
      | with_reducible apply State.wr_modStand
      | with_reducible apply State.wr_writeTs
      | with_reducible apply State.wr_handTs
      | with_reducible apply State.wr_lateTest
      | with_reducible apply State.wr_tryArm
      | with_reducible apply State.wr_pasteTest
      | with_reducible apply State.wr_runoutTest
      | with_reducible apply State.wr_chargeConsumption
      | (intro x; exact ⟨rfl, rfl, rfl, rfl, fun _ => ⟨rfl, rfl, rfl⟩⟩)
      | (intro x; exact ⟨rfl, rfl, rfl, rfl, fun hlt => absurd hlt (by omega)⟩)
      | (intro x; refine ⟨fun _ => ?_, fun _ => ?_⟩ <;> first | omega | ((repeat' apply And.intro) <;> rfl))
      | (intro x; exact .inr ⟨rfl, .inl (Nat.le_refl _)⟩)
      | (intro x; rfl)
      | (intro x; exact Stand.same_withArm x _ _ rfl rfl)
      | exact Job.splices_same
      | exact Job.breaks_same
      | exact Job.chargeConsumed_same _ _
      | (intro j; exact ⟨rfl, id, fun _ => ⟨rfl, rfl, rfl⟩⟩)
      | (intro j; exact ⟨rfl, id, fun hlt => absurd hlt (by omega)⟩)
      | (intro x; exact ⟨fun b => b, fun _ => ⟨rfl, rfl, rfl, rfl, rfl⟩⟩)
      | exact fun _ h => h
      | omega

theorem State.wr_rejectUp (h : Wr k s₀ s) (hk : 1 ≤ k) (st : Nat) : Wr k s₀ (s.rejectUp st) := by
  unfold State.rejectUp
  try dsimp only
  repeat' first
      | with_reducible assumption
      | split
      | with_reducible apply State.wr_modStand
      | with_reducible apply State.wr_setLost
      | (intro x; exact ⟨rfl, rfl, rfl, rfl, fun _ => ⟨rfl, rfl, rfl⟩⟩)
      | (intro x; exact ⟨rfl, rfl, rfl, rfl, fun hlt => absurd hlt (by omega)⟩)
      | (intro x; refine ⟨fun _ => ?_, fun _ => ?_⟩ <;> first | omega | ((repeat' apply And.intro) <;> rfl))
      | (intro x; exact .inr ⟨rfl, .inl (Nat.le_refl _)⟩)
      | (intro x; rfl)
      | (intro x; exact Stand.same_withArm x _ _ rfl rfl)
      | exact Job.splices_same
      | exact Job.breaks_same
      | exact Job.chargeConsumed_same _ _
      | (intro j; exact ⟨rfl, id, fun _ => ⟨rfl, rfl, rfl⟩⟩)
      | (intro j; exact ⟨rfl, id, fun hlt => absurd hlt (by omega)⟩)
      | (intro x; exact ⟨fun b => b, fun _ => ⟨rfl, rfl, rfl, rfl, rfl⟩⟩)
      | exact fun _ h => h
      | omega

theorem State.wr_rejectDown (h : Wr k s₀ s) (hk : 3 ≤ k) (st l before new core : Nat) : Wr k s₀ (s.rejectDown st l before new core) := by
  unfold State.rejectDown
  try dsimp only
  repeat' first
      | with_reducible assumption
      | split
      | with_reducible apply State.wr_modStand
      | with_reducible apply State.wr_acceptDiameter
      | (intro x; exact ⟨rfl, rfl, rfl, rfl, fun _ => ⟨rfl, rfl, rfl⟩⟩)
      | (intro x; exact ⟨rfl, rfl, rfl, rfl, fun hlt => absurd hlt (by omega)⟩)
      | (intro x; refine ⟨fun _ => ?_, fun _ => ?_⟩ <;> first | omega | ((repeat' apply And.intro) <;> rfl))
      | (intro x; exact .inr ⟨rfl, .inl (Nat.le_refl _)⟩)
      | (intro x; rfl)
      | (intro x; exact Stand.same_withArm x _ _ rfl rfl)
      | exact Job.splices_same
      | exact Job.breaks_same
      | exact Job.chargeConsumed_same _ _
      | (intro j; exact ⟨rfl, id, fun _ => ⟨rfl, rfl, rfl⟩⟩)
      | (intro j; exact ⟨rfl, id, fun hlt => absurd hlt (by omega)⟩)
      | (intro x; exact ⟨fun b => b, fun _ => ⟨rfl, rfl, rfl, rfl, rfl⟩⟩)
      | exact fun _ h => h
      | omega

theorem State.wr_classify (h : Wr k s₀ s) (hk : 3 ≤ k) (st l new : Nat) : Wr k s₀ (s.classify st l new) := by
  unfold State.classify
  try dsimp only
  repeat' first
      | with_reducible assumption
      | split
      | with_reducible apply State.wr_acceptDiameter
      | with_reducible apply State.wr_rejectUp
      | with_reducible apply State.wr_rejectDown
      | (intro x; exact ⟨rfl, rfl, rfl, rfl, fun _ => ⟨rfl, rfl, rfl⟩⟩)
      | (intro x; exact ⟨rfl, rfl, rfl, rfl, fun hlt => absurd hlt (by omega)⟩)
      | (intro x; refine ⟨fun _ => ?_, fun _ => ?_⟩ <;> first | omega | ((repeat' apply And.intro) <;> rfl))
      | (intro x; exact .inr ⟨rfl, .inl (Nat.le_refl _)⟩)
      | (intro x; rfl)
      | (intro x; exact Stand.same_withArm x _ _ rfl rfl)
      | exact Job.splices_same
      | exact Job.breaks_same
      | exact Job.chargeConsumed_same _ _
      | (intro j; exact ⟨rfl, id, fun _ => ⟨rfl, rfl, rfl⟩⟩)
      | (intro j; exact ⟨rfl, id, fun hlt => absurd hlt (by omega)⟩)
      | (intro x; exact ⟨fun b => b, fun _ => ⟨rfl, rfl, rfl, rfl, rfl⟩⟩)
      | omega

theorem State.wr_diameterSample (h : Wr k s₀ s) (hk : 3 ≤ k) (st : Nat) (ref cap : Capture) : Wr k s₀ (s.diameterSample st ref cap) := by
  unfold State.diameterSample
  try dsimp only
  repeat' first
      | with_reducible assumption
      | split
      | with_reducible apply State.wr_classify
      | (intro x; exact ⟨rfl, rfl, rfl, rfl, fun _ => ⟨rfl, rfl, rfl⟩⟩)
      | (intro x; exact ⟨rfl, rfl, rfl, rfl, fun hlt => absurd hlt (by omega)⟩)
      | (intro x; refine ⟨fun _ => ?_, fun _ => ?_⟩ <;> first | omega | ((repeat' apply And.intro) <;> rfl))
      | (intro x; exact .inr ⟨rfl, .inl (Nat.le_refl _)⟩)
      | (intro x; rfl)
      | (intro x; exact Stand.same_withArm x _ _ rfl rfl)
      | exact Job.splices_same
      | exact Job.breaks_same
      | exact Job.chargeConsumed_same _ _
      | (intro j; exact ⟨rfl, id, fun _ => ⟨rfl, rfl, rfl⟩⟩)
      | (intro j; exact ⟨rfl, id, fun hlt => absurd hlt (by omega)⟩)
      | (intro x; exact ⟨fun b => b, fun _ => ⟨rfl, rfl, rfl, rfl, rfl⟩⟩)
      | omega

theorem State.wr_standbyPair (h : Wr k s₀ s) (st n : Nat) (ref cap : Capture) : Wr k s₀ (s.standbyPair st n ref cap) := by
  unfold State.standbyPair
  try dsimp only
  repeat' first
      | with_reducible assumption
      | split
      | with_reducible apply State.wr_standbySample
      | (intro x; exact ⟨rfl, rfl, rfl, rfl, fun _ => ⟨rfl, rfl, rfl⟩⟩)
      | (intro x; exact ⟨rfl, rfl, rfl, rfl, fun hlt => absurd hlt (by omega)⟩)
      | (intro x; refine ⟨fun _ => ?_, fun _ => ?_⟩ <;> first | omega | ((repeat' apply And.intro) <;> rfl))
      | (intro x; exact .inr ⟨rfl, .inl (Nat.le_refl _)⟩)
      | (intro x; rfl)
      | (intro x; exact Stand.same_withArm x _ _ rfl rfl)
      | exact Job.splices_same
      | exact Job.breaks_same
      | exact Job.chargeConsumed_same _ _
      | (intro j; exact ⟨rfl, id, fun _ => ⟨rfl, rfl, rfl⟩⟩)
      | (intro j; exact ⟨rfl, id, fun hlt => absurd hlt (by omega)⟩)
      | (intro x; exact ⟨fun b => b, fun _ => ⟨rfl, rfl, rfl, rfl, rfl⟩⟩)
      | omega

theorem State.wr_usePair (h : Wr k s₀ s) (hk : 3 ≤ k) (st : Nat) (r : ArmRec) (ref cap : Capture) : Wr k s₀ (s.usePair st r ref cap) := by
  unfold State.usePair
  try dsimp only
  repeat' first
      | with_reducible assumption
      | split
      | with_reducible apply State.wr_diameterSample
      | with_reducible apply State.wr_standbyPair
      | (intro x; exact ⟨rfl, rfl, rfl, rfl, fun _ => ⟨rfl, rfl, rfl⟩⟩)
      | (intro x; exact ⟨rfl, rfl, rfl, rfl, fun hlt => absurd hlt (by omega)⟩)
      | (intro x; refine ⟨fun _ => ?_, fun _ => ?_⟩ <;> first | omega | ((repeat' apply And.intro) <;> rfl))
      | (intro x; exact .inr ⟨rfl, .inl (Nat.le_refl _)⟩)
      | (intro x; rfl)
      | (intro x; exact Stand.same_withArm x _ _ rfl rfl)
      | exact Job.splices_same
      | exact Job.breaks_same
      | exact Job.chargeConsumed_same _ _
      | (intro j; exact ⟨rfl, id, fun _ => ⟨rfl, rfl, rfl⟩⟩)
      | (intro j; exact ⟨rfl, id, fun hlt => absurd hlt (by omega)⟩)
      | (intro x; exact ⟨fun b => b, fun _ => ⟨rfl, rfl, rfl, rfl, rfl⟩⟩)
      | omega

theorem State.wr_capture (h : Wr k s₀ s) (hk : 3 ≤ k) (st : Nat) (a : Arm) : Wr k s₀ (s.capture st a) := by
  unfold State.capture
  extract_lets r cap s1 s2
  have h_s1 : Wr k s₀ s1 := by
    dsimp only [s1]
    repeat' first
        | with_reducible assumption
        | split
        | with_reducible apply State.wr_modStand
        | with_reducible apply State.wr_restartMark
        | with_reducible apply State.wr_usePair
        | (intro x; exact ⟨rfl, rfl, rfl, rfl, fun _ => ⟨rfl, rfl, rfl⟩⟩)
        | (intro x; exact ⟨rfl, rfl, rfl, rfl, fun hlt => absurd hlt (by omega)⟩)
        | (intro x; refine ⟨fun _ => ?_, fun _ => ?_⟩ <;> first | omega | ((repeat' apply And.intro) <;> rfl))
        | (intro x; exact .inr ⟨rfl, .inl (Nat.le_refl _)⟩)
        | (intro x; rfl)
        | (intro x; exact Stand.same_withArm x _ _ rfl rfl)
        | exact Job.splices_same
        | exact Job.breaks_same
        | exact Job.chargeConsumed_same _ _
        | (intro j; exact ⟨rfl, id, fun _ => ⟨rfl, rfl, rfl⟩⟩)
        | (intro j; exact ⟨rfl, id, fun hlt => absurd hlt (by omega)⟩)
        | (intro x; exact ⟨fun b => b, fun _ => ⟨rfl, rfl, rfl, rfl, rfl⟩⟩)
        | exact fun _ h => h
        | exact fun _ => Stand.oneActive_sameArm rfl
        | omega
  clear_value s1
  have h_s2 : Wr k s₀ s2 := by
    dsimp only [s2]
    repeat' first
        | with_reducible assumption
        | split
        | with_reducible apply State.wr_modStand
        | with_reducible apply State.wr_restartMark
        | with_reducible apply State.wr_usePair
        | (intro x; exact ⟨rfl, rfl, rfl, rfl, fun _ => ⟨rfl, rfl, rfl⟩⟩)
        | (intro x; exact ⟨rfl, rfl, rfl, rfl, fun hlt => absurd hlt (by omega)⟩)
        | (intro x; refine ⟨fun _ => ?_, fun _ => ?_⟩ <;> first | omega | ((repeat' apply And.intro) <;> rfl))
        | (intro x; exact .inr ⟨rfl, .inl (Nat.le_refl _)⟩)
        | (intro x; rfl)
        | (intro x; exact Stand.same_withArm x _ _ rfl rfl)
        | exact Job.splices_same
        | exact Job.breaks_same
        | exact Job.chargeConsumed_same _ _
        | (intro j; exact ⟨rfl, id, fun _ => ⟨rfl, rfl, rfl⟩⟩)
        | (intro j; exact ⟨rfl, id, fun hlt => absurd hlt (by omega)⟩)
        | (intro x; exact ⟨fun b => b, fun _ => ⟨rfl, rfl, rfl, rfl, rfl⟩⟩)
        | exact fun _ h => h
        | exact fun _ => Stand.oneActive_sameArm rfl
        | omega
  clear_value s2
  repeat' first
      | with_reducible assumption
      | split
      | with_reducible apply State.wr_modStand
      | with_reducible apply State.wr_restartMark
      | with_reducible apply State.wr_usePair
      | (intro x; exact ⟨rfl, rfl, rfl, rfl, fun _ => ⟨rfl, rfl, rfl⟩⟩)
      | (intro x; exact ⟨rfl, rfl, rfl, rfl, fun hlt => absurd hlt (by omega)⟩)
      | (intro x; refine ⟨fun _ => ?_, fun _ => ?_⟩ <;> first | omega | ((repeat' apply And.intro) <;> rfl))
      | (intro x; exact .inr ⟨rfl, .inl (Nat.le_refl _)⟩)
      | (intro x; rfl)
      | (intro x; exact Stand.same_withArm x _ _ rfl rfl)
      | exact Job.splices_same
      | exact Job.breaks_same
      | exact Job.chargeConsumed_same _ _
      | (intro j; exact ⟨rfl, id, fun _ => ⟨rfl, rfl, rfl⟩⟩)
      | (intro j; exact ⟨rfl, id, fun hlt => absurd hlt (by omega)⟩)
      | (intro x; exact ⟨fun b => b, fun _ => ⟨rfl, rfl, rfl, rfl, rfl⟩⟩)
      | exact fun _ h => h
      | exact fun _ => Stand.oneActive_sameArm rfl
      | omega

theorem State.wr_markEdge (h : Wr k s₀ s) (hk : 3 ≤ k) (st : Nat) (a : Arm) : Wr k s₀ (s.markEdge st a) := by
  unfold State.markEdge
  try dsimp only
  repeat' first
      | with_reducible assumption
      | split
      | with_reducible apply State.wr_modStand
      | with_reducible apply State.wr_capture
      | (intro x; exact ⟨rfl, rfl, rfl, rfl, fun _ => ⟨rfl, rfl, rfl⟩⟩)
      | (intro x; exact ⟨rfl, rfl, rfl, rfl, fun hlt => absurd hlt (by omega)⟩)
      | (intro x; refine ⟨fun _ => ?_, fun _ => ?_⟩ <;> first | omega | ((repeat' apply And.intro) <;> rfl))
      | (intro x; exact .inr ⟨rfl, .inl (Nat.le_refl _)⟩)
      | (intro x; rfl)
      | (intro x; exact Stand.same_withArm x _ _ rfl rfl)
      | exact Job.splices_same
      | exact Job.breaks_same
      | exact Job.chargeConsumed_same _ _
      | (intro j; exact ⟨rfl, id, fun _ => ⟨rfl, rfl, rfl⟩⟩)
      | (intro j; exact ⟨rfl, id, fun hlt => absurd hlt (by omega)⟩)
      | (intro x; exact ⟨fun b => b, fun _ => ⟨rfl, rfl, rfl, rfl, rfl⟩⟩)
      | exact fun _ h => h
      | exact fun _ => Stand.oneActive_sameArm rfl
      | omega

theorem State.wr_gateMarks (h : Wr k s₀ s) (hk : 1 ≤ k) (l : Nat) (was : Bool) : Wr k s₀ (s.gateMarks l was) := by
  unfold State.gateMarks
  try dsimp only
  repeat' first
      | with_reducible assumption
      | (intro n t ht)
      | split
      | with_reducible apply State.wr_each
      | with_reducible apply State.wr_restartMark
      | (intro x; exact ⟨rfl, rfl, rfl, rfl, fun _ => ⟨rfl, rfl, rfl⟩⟩)
      | (intro x; exact ⟨rfl, rfl, rfl, rfl, fun hlt => absurd hlt (by omega)⟩)
      | (intro x; refine ⟨fun _ => ?_, fun _ => ?_⟩ <;> first | omega | ((repeat' apply And.intro) <;> rfl))
      | (intro x; exact .inr ⟨rfl, .inl (Nat.le_refl _)⟩)
      | (intro x; rfl)
      | (intro x; exact Stand.same_withArm x _ _ rfl rfl)
      | exact Job.splices_same
      | exact Job.breaks_same
      | exact Job.chargeConsumed_same _ _
      | (intro j; exact ⟨rfl, id, fun _ => ⟨rfl, rfl, rfl⟩⟩)
      | (intro j; exact ⟨rfl, id, fun hlt => absurd hlt (by omega)⟩)
      | (intro x; exact ⟨fun b => b, fun _ => ⟨rfl, rfl, rfl, rfl, rfl⟩⟩)
      | omega

theorem State.wr_gateBreak (h : Wr k s₀ s) (hk : 2 ≤ k) (l : Nat) : Wr k s₀ (s.gateBreak l) := by
  unfold State.gateBreak
  try dsimp only
  repeat' first
      | with_reducible assumption
      | split
      | with_reducible apply State.wr_modLine
      | with_reducible apply State.wr_leaveBreak
      | (intro x; exact ⟨rfl, rfl, rfl, rfl, fun _ => ⟨rfl, rfl, rfl⟩⟩)
      | (intro x; exact ⟨rfl, rfl, rfl, rfl, fun hlt => absurd hlt (by omega)⟩)
      | (intro x; refine ⟨fun _ => ?_, fun _ => ?_⟩ <;> first | omega | ((repeat' apply And.intro) <;> rfl))
      | (intro x; exact .inr ⟨rfl, .inl (Nat.le_refl _)⟩)
      | (intro x; rfl)
      | (intro x; exact Stand.same_withArm x _ _ rfl rfl)
      | exact Job.splices_same
      | exact Job.breaks_same
      | exact Job.chargeConsumed_same _ _
      | (intro j; exact ⟨rfl, id, fun _ => ⟨rfl, rfl, rfl⟩⟩)
      | (intro j; exact ⟨rfl, id, fun hlt => absurd hlt (by omega)⟩)
      | (intro x; exact ⟨fun b => b, fun _ => ⟨rfl, rfl, rfl, rfl, rfl⟩⟩)
      | omega

theorem State.wr_gate (h : Wr k s₀ s) (hk : 4 ≤ k) (l : Nat) : Wr k s₀ (s.gate l) := by
  unfold State.gate
  extract_lets x was s1 s2 s3 s4 s5
  have h_s1 : Wr k s₀ s1 := by
    dsimp only [s1]
    repeat' first
        | with_reducible assumption
        | (intro n t ht)
        | split
        | with_reducible apply State.wr_modLine
        | with_reducible apply State.wr_each
        | with_reducible apply State.wr_writeTs
        | with_reducible apply State.wr_handTs
        | with_reducible apply State.wr_disarm
        | with_reducible apply State.wr_tryArm
        | with_reducible apply State.wr_gateMarks
        | with_reducible apply State.wr_gateBreak
        | (intro x; exact ⟨rfl, rfl, rfl, rfl, fun _ => ⟨rfl, rfl, rfl⟩⟩)
        | (intro x; exact ⟨rfl, rfl, rfl, rfl, fun hlt => absurd hlt (by omega)⟩)
        | (intro x; refine ⟨fun _ => ?_, fun _ => ?_⟩ <;> first | omega | ((repeat' apply And.intro) <;> rfl))
        | (intro x; exact .inr ⟨rfl, .inl (Nat.le_refl _)⟩)
        | (intro x; rfl)
        | (intro x; exact Stand.same_withArm x _ _ rfl rfl)
        | exact Job.splices_same
        | exact Job.breaks_same
        | exact Job.chargeConsumed_same _ _
        | (intro j; exact ⟨rfl, id, fun _ => ⟨rfl, rfl, rfl⟩⟩)
        | (intro j; exact ⟨rfl, id, fun hlt => absurd hlt (by omega)⟩)
        | (intro x; exact ⟨fun b => b, fun _ => ⟨rfl, rfl, rfl, rfl, rfl⟩⟩)
        | omega
  clear_value s1
  have h_s2 : Wr k s₀ s2 := by
    dsimp only [s2]
    repeat' first
        | with_reducible assumption
        | (intro n t ht)
        | split
        | with_reducible apply State.wr_modLine
        | with_reducible apply State.wr_each
        | with_reducible apply State.wr_writeTs
        | with_reducible apply State.wr_handTs
        | with_reducible apply State.wr_disarm
        | with_reducible apply State.wr_tryArm
        | with_reducible apply State.wr_gateMarks
        | with_reducible apply State.wr_gateBreak
        | (intro x; exact ⟨rfl, rfl, rfl, rfl, fun _ => ⟨rfl, rfl, rfl⟩⟩)
        | (intro x; exact ⟨rfl, rfl, rfl, rfl, fun hlt => absurd hlt (by omega)⟩)
        | (intro x; refine ⟨fun _ => ?_, fun _ => ?_⟩ <;> first | omega | ((repeat' apply And.intro) <;> rfl))
        | (intro x; exact .inr ⟨rfl, .inl (Nat.le_refl _)⟩)
        | (intro x; rfl)
        | (intro x; exact Stand.same_withArm x _ _ rfl rfl)
        | exact Job.splices_same
        | exact Job.breaks_same
        | exact Job.chargeConsumed_same _ _
        | (intro j; exact ⟨rfl, id, fun _ => ⟨rfl, rfl, rfl⟩⟩)
        | (intro j; exact ⟨rfl, id, fun hlt => absurd hlt (by omega)⟩)
        | (intro x; exact ⟨fun b => b, fun _ => ⟨rfl, rfl, rfl, rfl, rfl⟩⟩)
        | omega
  clear_value s2
  have h_s3 : Wr k s₀ s3 := by
    dsimp only [s3]
    repeat' first
        | with_reducible assumption
        | (intro n t ht)
        | split
        | with_reducible apply State.wr_modLine
        | with_reducible apply State.wr_each
        | with_reducible apply State.wr_writeTs
        | with_reducible apply State.wr_handTs
        | with_reducible apply State.wr_disarm
        | with_reducible apply State.wr_tryArm
        | with_reducible apply State.wr_gateMarks
        | with_reducible apply State.wr_gateBreak
        | (intro x; exact ⟨rfl, rfl, rfl, rfl, fun _ => ⟨rfl, rfl, rfl⟩⟩)
        | (intro x; exact ⟨rfl, rfl, rfl, rfl, fun hlt => absurd hlt (by omega)⟩)
        | (intro x; refine ⟨fun _ => ?_, fun _ => ?_⟩ <;> first | omega | ((repeat' apply And.intro) <;> rfl))
        | (intro x; exact .inr ⟨rfl, .inl (Nat.le_refl _)⟩)
        | (intro x; rfl)
        | (intro x; exact Stand.same_withArm x _ _ rfl rfl)
        | exact Job.splices_same
        | exact Job.breaks_same
        | exact Job.chargeConsumed_same _ _
        | (intro j; exact ⟨rfl, id, fun _ => ⟨rfl, rfl, rfl⟩⟩)
        | (intro j; exact ⟨rfl, id, fun hlt => absurd hlt (by omega)⟩)
        | (intro x; exact ⟨fun b => b, fun _ => ⟨rfl, rfl, rfl, rfl, rfl⟩⟩)
        | omega
  clear_value s3
  have h_s4 : Wr k s₀ s4 := by
    dsimp only [s4]
    repeat' first
        | with_reducible assumption
        | (intro n t ht)
        | split
        | with_reducible apply State.wr_modLine
        | with_reducible apply State.wr_each
        | with_reducible apply State.wr_writeTs
        | with_reducible apply State.wr_handTs
        | with_reducible apply State.wr_disarm
        | with_reducible apply State.wr_tryArm
        | with_reducible apply State.wr_gateMarks
        | with_reducible apply State.wr_gateBreak
        | (intro x; exact ⟨rfl, rfl, rfl, rfl, fun _ => ⟨rfl, rfl, rfl⟩⟩)
        | (intro x; exact ⟨rfl, rfl, rfl, rfl, fun hlt => absurd hlt (by omega)⟩)
        | (intro x; refine ⟨fun _ => ?_, fun _ => ?_⟩ <;> first | omega | ((repeat' apply And.intro) <;> rfl))
        | (intro x; exact .inr ⟨rfl, .inl (Nat.le_refl _)⟩)
        | (intro x; rfl)
        | (intro x; exact Stand.same_withArm x _ _ rfl rfl)
        | exact Job.splices_same
        | exact Job.breaks_same
        | exact Job.chargeConsumed_same _ _
        | (intro j; exact ⟨rfl, id, fun _ => ⟨rfl, rfl, rfl⟩⟩)
        | (intro j; exact ⟨rfl, id, fun hlt => absurd hlt (by omega)⟩)
        | (intro x; exact ⟨fun b => b, fun _ => ⟨rfl, rfl, rfl, rfl, rfl⟩⟩)
        | omega
  clear_value s4
  have h_s5 : Wr k s₀ s5 := by
    dsimp only [s5]
    repeat' first
        | with_reducible assumption
        | (intro n t ht)
        | split
        | with_reducible apply State.wr_modLine
        | with_reducible apply State.wr_each
        | with_reducible apply State.wr_writeTs
        | with_reducible apply State.wr_handTs
        | with_reducible apply State.wr_disarm
        | with_reducible apply State.wr_tryArm
        | with_reducible apply State.wr_gateMarks
        | with_reducible apply State.wr_gateBreak
        | (intro x; exact ⟨rfl, rfl, rfl, rfl, fun _ => ⟨rfl, rfl, rfl⟩⟩)
        | (intro x; exact ⟨rfl, rfl, rfl, rfl, fun hlt => absurd hlt (by omega)⟩)
        | (intro x; refine ⟨fun _ => ?_, fun _ => ?_⟩ <;> first | omega | ((repeat' apply And.intro) <;> rfl))
        | (intro x; exact .inr ⟨rfl, .inl (Nat.le_refl _)⟩)
        | (intro x; rfl)
        | (intro x; exact Stand.same_withArm x _ _ rfl rfl)
        | exact Job.splices_same
        | exact Job.breaks_same
        | exact Job.chargeConsumed_same _ _
        | (intro j; exact ⟨rfl, id, fun _ => ⟨rfl, rfl, rfl⟩⟩)
        | (intro j; exact ⟨rfl, id, fun hlt => absurd hlt (by omega)⟩)
        | (intro x; exact ⟨fun b => b, fun _ => ⟨rfl, rfl, rfl, rfl, rfl⟩⟩)
        | omega
  clear_value s5
  repeat' first
      | with_reducible assumption
      | (intro n t ht)
      | split
      | with_reducible apply State.wr_modLine
      | with_reducible apply State.wr_each
      | with_reducible apply State.wr_writeTs
      | with_reducible apply State.wr_handTs
      | with_reducible apply State.wr_disarm
      | with_reducible apply State.wr_tryArm
      | with_reducible apply State.wr_gateMarks
      | with_reducible apply State.wr_gateBreak
      | (intro x; exact ⟨rfl, rfl, rfl, rfl, fun _ => ⟨rfl, rfl, rfl⟩⟩)
      | (intro x; exact ⟨rfl, rfl, rfl, rfl, fun hlt => absurd hlt (by omega)⟩)
      | (intro x; refine ⟨fun _ => ?_, fun _ => ?_⟩ <;> first | omega | ((repeat' apply And.intro) <;> rfl))
      | (intro x; exact .inr ⟨rfl, .inl (Nat.le_refl _)⟩)
      | (intro x; rfl)
      | (intro x; exact Stand.same_withArm x _ _ rfl rfl)
      | exact Job.splices_same
      | exact Job.breaks_same
      | exact Job.chargeConsumed_same _ _
      | (intro j; exact ⟨rfl, id, fun _ => ⟨rfl, rfl, rfl⟩⟩)
      | (intro j; exact ⟨rfl, id, fun hlt => absurd hlt (by omega)⟩)
      | (intro x; exact ⟨fun b => b, fun _ => ⟨rfl, rfl, rfl, rfl, rfl⟩⟩)
      | omega

end Sys2Proof.Machine
end

