-- ==== Sys2Proof/Laws/WritesCmds.lean ====
section
/-! SUPPORT. What the commands do is a chain of writes too. -/

namespace Sys2Proof.Machine

variable {k : Nat} {s₀ s : State}

theorem State.wr_ok (h : Wr k s₀ s) : Wr k s₀ s.ok.state := h
theorem State.wr_no (h : Wr k s₀ s) (x : Status) : Wr k s₀ (s.no x).state := h
theorem State.wr_okWith (h : Wr k s₀ s) (p : List Byte) : Wr k s₀ (s.okWith p).state := h
theorem State.wr_accept (h : Wr k s₀ s) (a : Nat) (r : Report) : Wr k s₀ (s.accept a r) := State.wr_send h _ _
theorem State.wr_refuse (h : Wr k s₀ s) (a : Nat) (r : Report) (x : Reason) : Wr k s₀ (s.refuse a r x) := State.wr_send h _ _
theorem State.wr_fresh (h : Wr k s₀ s) (hk : 4 ≤ k) : Wr k s₀ s.fresh := h.other hk ⟨rfl, rfl, rfl, rfl, rfl, rfl, rfl, rfl, rfl, rfl, rfl, rfl, rfl, rfl, rfl⟩
theorem State.wr_answered (h : Wr k s₀ s) (hk : 4 ≤ k) (n : Nat) (x : Status) (p : List Byte) : Wr k s₀ (s.answered n x p) :=
  h.other hk ⟨rfl, rfl, rfl, rfl, rfl, rfl, rfl, rfl, rfl, rfl, rfl, rfl, rfl, rfl, rfl⟩
theorem State.wr_discards (h : Wr k s₀ s) (hk : 4 ≤ k) (f : List Byte) (n : Nat) : Wr k s₀ (s.discards f n) :=
  h.other hk ⟨rfl, rfl, rfl, rfl, rfl, rfl, rfl, rfl, rfl, rfl, rfl, rfl, rfl, rfl, rfl⟩
theorem State.wr_frameBegins (h : Wr k s₀ s) (hk : 4 ≤ k) (a : Nat) : Wr k s₀ (s.frameBegins a) :=
  h.other hk ⟨rfl, rfl, rfl, rfl, rfl, rfl, rfl, rfl, rfl, rfl, rfl, rfl, rfl, rfl, rfl⟩

theorem State.wr_readClocked (h : Wr k s₀ s) (hk : 4 ≤ k) (n : Nat) : Wr k s₀ (s.readClocked n) := by
  unfold State.readClocked
  try dsimp only
  repeat' split
  all_goals first
    | exact h
    | exact h.other hk ⟨rfl, rfl, rfl, rfl, rfl, rfl, rfl, rfl, rfl, rfl, rfl, rfl, rfl, rfl, rfl⟩

/-- Items offered keep the out-list within its 4 commands. -/
theorem offerKept_le (halted : Bool) (n : Nat) (out : List Cmd) (offer : List KeptItem) (h : out.length ≤ 4) : (offerKept halted n out offer).1.length ≤ 4 := by
  induction n generalizing out offer with
  | zero => exact h
  | succ n ih =>
    cases offer with
    | nil => exact h
    | cons c cs =>
      unfold offerKept
      split
      · next hlt =>
        split
        · exact ih out cs h
        · exact ih _ cs (by simp [Config.outList] at hlt ⊢; omega)
      · exact h

theorem State.wr_beginExchange (h : Wr k s₀ s) (hk : 4 ≤ k) (a turn : Nat) : Wr k s₀ (s.beginExchange a turn) := by
  unfold State.beginExchange
  split
  · exact h
  · next x hx =>
    have hl := offerKept_le s.halted x.offer.length x.out.tail x.offer
    generalize offerKept s.halted x.offer.length x.out.tail x.offer = r at hl
    have g : Wr k s₀ (s.putStation a (some { x with out := r.1, offer := r.2 })) :=
      h.station hx ⟨fun b => ⟨b.1, b.2.1, hl (by have := b.2.2; rw [List.length_tail]; omega)⟩, fun hlt => absurd hlt (by omega)⟩
    exact g.other hk ⟨rfl, rfl, rfl, rfl, rfl, rfl, rfl, rfl, rfl, rfl, rfl, rfl, rfl, rfl, rfl⟩

theorem State.wr_nextInCycle (h : Wr k s₀ s) (hk : 4 ≤ k) (n : Nat) : Wr k s₀ (State.nextInCycle n s).1 := by
  induction n generalizing s with
  | zero => exact h
  | succ n ih =>
    unfold State.nextInCycle
    dsimp only
    split
    · split
      · exact h
      · exact ih (h.other hk ⟨rfl, rfl, rfl, rfl, rfl, rfl, rfl, rfl, rfl, rfl, rfl, rfl, rfl, rfl, rfl⟩)
    · next a rest hc =>
      have g : Wr k s₀ { s with cycle := rest } := h.other hk ⟨rfl, rfl, rfl, rfl, rfl, rfl, rfl, rfl, rfl, rfl, rfl, rfl, rfl, rfl, rfl⟩
      split
      · exact ih g
      · next x hx =>
        split
        · exact ih (g.station hx ⟨fun b => ⟨b.1, by have := b.2.1; dsimp only; omega, b.2.2⟩, fun hlt => absurd hlt (by omega)⟩)
        · exact g

theorem State.wr_pollNext (h : Wr k s₀ s) (hk : 4 ≤ k) : Wr k s₀ s.pollNext := by
  unfold State.pollNext
  split
  · exact State.wr_beginExchange h hk _ _
  · have g := State.wr_nextInCycle (h.other (t := { s with further := none }) hk
      ⟨rfl, rfl, rfl, rfl, rfl, rfl, rfl, rfl, rfl, rfl, rfl, rfl, rfl, rfl, rfl⟩) hk cycleBound
    dsimp only
    split
    · exact State.wr_beginExchange g hk _ _
    · exact g

theorem State.wr_missed (h : Wr k s₀ s) (hk : 4 ≤ k) : Wr k s₀ s.missed := by
  unfold State.missed
  split
  · exact h
  · next e he =>
    extract_lets t
    have ht : Wr k s₀ t := h.other hk ⟨rfl, rfl, rfl, rfl, rfl, rfl, rfl, rfl, rfl, rfl, rfl, rfl, rfl, rfl, rfl⟩
    split
    · exact ht
    · next x hx =>
      extract_lets miss silenced t1 t2 t3
      have h1 : Wr k s₀ t1 := ht.station (n := e.addr) (x := x) hx
        ⟨fun b => ⟨Nat.min_le_left .., by have := b.2.1; dsimp only; split <;> omega, b.2.2⟩, fun hlt => absurd hlt (by omega)⟩
      have h2 : Wr k s₀ t2 := by
        dsimp only [t2]
        split
        · split
          · exact State.wr_modVehicle h1 _ _
          · exact h1
        · exact h1
      split
      · split
        · exact State.wr_stall (State.wr_raise h2 _ _) (by omega) _ _ _
        · exact State.wr_raise h2 _ _
      · exact h2

theorem State.wr_goodReply (h : Wr k s₀ s) (hk : 4 ≤ k) (e : Exchange) (more : Bool) : Wr k s₀ (s.goodReply e more) := by
  unfold State.goodReply
  extract_lets s1 s2
  have h1 : Wr k s₀ s1 := by
    refine State.wr_modStation h _ _ fun x => ⟨fun b => ⟨Nat.zero_le _, ?_, b.2.2⟩, fun hlt => absurd hlt (by omega)⟩
    have := b.2.1
    dsimp only
    split <;> omega
  have h2 : Wr k s₀ s2 := by
    dsimp only [s2]
    split
    · exact State.wr_modVehicle h1 _ _
    · exact h1
  clear_value s2
  exact h2.other hk ⟨rfl, rfl, rfl, rfl, rfl, rfl, rfl, rfl, rfl, rfl, rfl, rfl, rfl, rfl, rfl⟩

theorem State.wr_spoiled (h : Wr k s₀ s) (hk : 4 ≤ k) : Wr k s₀ s.spoiled := by
  unfold State.spoiled
  repeat' split
  all_goals first
    | exact State.wr_missed h hk
    | exact h
    | exact h.other hk ⟨rfl, rfl, rfl, rfl, rfl, rfl, rfl, rfl, rfl, rfl, rfl, rfl, rfl, rfl, rfl⟩

theorem State.wr_lookup (h : Wr k s₀ s) (_hk : 4 ≤ k) (r : RollRef) : Wr k s₀ (s.lookup r).state := by
  unfold State.lookup
  try dsimp only
  repeat' first
      | with_reducible assumption
      | split
      | with_reducible apply State.wr_ok
      | with_reducible apply State.wr_no
      | with_reducible apply State.wr_okWith
      | with_reducible apply State.wr_ok
      | (intro x; exact ⟨rfl, rfl, rfl, rfl, fun _ => ⟨rfl, rfl, rfl⟩⟩)
      | (intro x; exact ⟨rfl, rfl, rfl, rfl, fun hlt => absurd hlt (by omega)⟩)
      | (intro x; refine ⟨fun _ => ?_, fun _ => ?_⟩ <;> first | omega | ((repeat' apply And.intro) <;> rfl))
      | (intro x; exact .inr ⟨rfl, .inl (Nat.le_refl _)⟩)
      | (intro x; rfl)
      | (intro x; exact Stand.same_withArm x _ _ rfl rfl)
      | exact Job.splices_same
      | exact Job.breaks_same
      | exact Job.chargeConsumed_same _ _
      | (intro j; exact ⟨rfl, id, fun _ => ⟨rfl, rfl, rfl⟩⟩)
      | (intro j; exact ⟨rfl, id, fun hlt => absurd hlt (by omega)⟩)
      | (intro x; exact ⟨fun b => b, fun _ => ⟨rfl, rfl, rfl, rfl, rfl⟩⟩)
      | (intro x; exact ⟨fun b => ⟨by omega, by (try split) <;> simp_all [Station.bounded], b.2.2⟩, fun hlt => absurd hlt (by omega)⟩)
      | omega

theorem State.wr_listByGrade (h : Wr k s₀ s) (_hk : 4 ≤ k) (g w key : Nat) : Wr k s₀ (s.listByGrade g w key).state := by
  unfold State.listByGrade
  try dsimp only
  repeat' first
      | with_reducible assumption
      | split
      | with_reducible apply State.wr_no
      | with_reducible apply State.wr_okWith
      | (intro x; exact ⟨rfl, rfl, rfl, rfl, fun _ => ⟨rfl, rfl, rfl⟩⟩)
      | (intro x; exact ⟨rfl, rfl, rfl, rfl, fun hlt => absurd hlt (by omega)⟩)
      | (intro x; refine ⟨fun _ => ?_, fun _ => ?_⟩ <;> first | omega | ((repeat' apply And.intro) <;> rfl))
      | (intro x; exact .inr ⟨rfl, .inl (Nat.le_refl _)⟩)
      | (intro x; rfl)
      | (intro x; exact Stand.same_withArm x _ _ rfl rfl)
      | exact Job.splices_same
      | exact Job.breaks_same
      | exact Job.chargeConsumed_same _ _
      | (intro j; exact ⟨rfl, id, fun _ => ⟨rfl, rfl, rfl⟩⟩)
      | (intro j; exact ⟨rfl, id, fun hlt => absurd hlt (by omega)⟩)
      | (intro x; exact ⟨fun b => b, fun _ => ⟨rfl, rfl, rfl, rfl, rfl⟩⟩)
      | (intro x; exact ⟨fun b => ⟨by omega, by (try split) <;> simp_all [Station.bounded], b.2.2⟩, fun hlt => absurd hlt (by omega)⟩)
      | omega

theorem State.wr_listByPlace (h : Wr k s₀ s) (_hk : 4 ≤ k) (p : ListPlace) : Wr k s₀ (s.listByPlace p).state := by
  unfold State.listByPlace
  try dsimp only
  repeat' first
      | with_reducible assumption
      | split
      | with_reducible apply State.wr_no
      | with_reducible apply State.wr_okWith
      | (intro x; exact ⟨rfl, rfl, rfl, rfl, fun _ => ⟨rfl, rfl, rfl⟩⟩)
      | (intro x; exact ⟨rfl, rfl, rfl, rfl, fun hlt => absurd hlt (by omega)⟩)
      | (intro x; refine ⟨fun _ => ?_, fun _ => ?_⟩ <;> first | omega | ((repeat' apply And.intro) <;> rfl))
      | (intro x; exact .inr ⟨rfl, .inl (Nat.le_refl _)⟩)
      | (intro x; rfl)
      | (intro x; exact Stand.same_withArm x _ _ rfl rfl)
      | exact Job.splices_same
      | exact Job.breaks_same
      | exact Job.chargeConsumed_same _ _
      | (intro j; exact ⟨rfl, id, fun _ => ⟨rfl, rfl, rfl⟩⟩)
      | (intro j; exact ⟨rfl, id, fun hlt => absurd hlt (by omega)⟩)
      | (intro x; exact ⟨fun b => b, fun _ => ⟨rfl, rfl, rfl, rfl, rfl⟩⟩)
      | (intro x; exact ⟨fun b => ⟨by omega, by (try split) <;> simp_all [Station.bounded], b.2.2⟩, fun hlt => absurd hlt (by omega)⟩)
      | omega

/-- A tag that resolves to no roll is carried by none. -/
theorem State.tag_free (t : Tag) (h : (s.rollByTag t) = none) : ∀ e ∈ s.rolls, e.2.tag ≠ t := by
  intro e he ht
  unfold State.rollByTag Tbl.first at h
  rw [Option.map_eq_none_iff, List.find?_eq_none] at h
  exact h e he (by simp [ht])

theorem State.wr_announce (h : Wr k s₀ s) (hk : 4 ≤ k) (t : Tag) (g w d : Nat) (kg : Option Nat) (node : Nat) {n : Nat} {x : State}
    (hf : s.rollByTag t = none) (e : s.announce t g w d kg node = some (n, x)) : Wr k s₀ x := by
  unfold State.announce at e
  split at e
  · next hr =>
    split at e
    · cases e
    · next m hm =>
      split at e
      · cases e
      · next o y hy =>
        cases e
        have hs : y.rolls = s.rolls ∧ y.arrival = s.arrival := by
          unfold State.createOrder at hy
          split at hy
          · cases hy; exact ⟨rfl, rfl⟩
          · cases hy
        have ha : s.arrival + 1 ≤ Config.max32 := by
          simp only [State.announceRoom, Bool.and_eq_true, decide_eq_true_eq] at hr
          exact hr.2
        rw [← hs.2] at ha
        have g := (State.wr_createOrder h _ hy).newRoll (n := n) (r := Roll.announced t g w d kg node (y.arrival + 1) o) hk
          (by rw [hs.1]; exact State.tag_free t hf) rfl ha
        rw [hs.2] at g
        exact g
  · cases e

theorem State.wr_announceRequest (h : Wr k s₀ s) (hk : 4 ≤ k) (t : Tag) (g w d : Nat) (kg : Option Nat) (node : Nat) :
    Wr k s₀ (s.announceRequest t g w d kg node).state := by
  unfold State.announceRequest
  split
  · split
    · exact h
    · next hn =>
      split
      · next e => exact State.wr_announce h hk t g w d kg node (by simpa using hn) e
      · exact State.wr_raise h _ _
  · exact h

theorem State.roll_of_resolve {r : RollRef} {n : Nat} {x : Roll} (e : s.resolve r = some (n, x)) : s.roll n = some x := by
  cases r with
  | byTag t =>
    unfold State.resolve at e
    rw [Option.bind_eq_some_iff] at e
    obtain ⟨m, _, e⟩ := e
    rw [Option.map_eq_some_iff] at e
    obtain ⟨y, hy, e⟩ := e
    cases e
    exact hy
  | byRecord m =>
    unfold State.resolve at e
    rw [Option.map_eq_some_iff] at e
    obtain ⟨y, hy, e⟩ := e
    cases e
    exact hy

theorem Tbl.isSome_of_mem {α : Type} (t : Tbl α) (e : Nat × α) (h : e ∈ t) : (t.find e.1).isSome := by
  induction t with
  | nil => cases h
  | cons c t ih =>
    unfold Tbl.find
    split
    · rfl
    · next hne =>
      cases h with
      | head => exact absurd rfl hne
      | tail _ h => exact ih h

theorem State.unresolved {t : Tag} (e : s.resolve (.byTag t) = none) : s.rollByTag t = none := by
  have e : ((s.rollByTag t).bind fun n => (s.roll n).map fun r => (n, r)) = none := e
  cases h : s.rollByTag t with
  | none => rfl
  | some n =>
    rw [h] at e
    unfold State.rollByTag Tbl.first at h
    rw [Option.map_eq_some_iff] at h
    obtain ⟨a, ha, hn⟩ := h
    have hm := Tbl.isSome_of_mem s.rolls a (List.mem_of_find?_eq_some ha)
    rw [hn] at hm
    unfold State.roll at e
    obtain ⟨r, hr⟩ := Option.isSome_iff_exists.mp hm
    simp [hr] at e

theorem State.wr_tagReadAt (h : Wr k s₀ s) (hk : 4 ≤ k) (a node : Nat) (t : Tag) (g w d : Nat) (kg : Option Nat) :
    Wr k s₀ (s.tagReadAt a node t g w d kg) := by
  unfold State.tagReadAt
  split
  · split
    · next n r e =>
      split
      · exact State.wr_accept (h.roll (r' := r.weighedBy kg) (State.roll_of_resolve e) ⟨rfl, rfl, rfl, rfl, fun _ => ⟨rfl, rfl, rfl⟩⟩) _ _
      · exact State.wr_refuse h _ _ _
    · next e =>
      split
      · next e2 => exact State.wr_accept (State.wr_announce h hk t g w d kg node (State.unresolved e) e2) _ _
      · exact State.wr_refuse (State.wr_raise h _ _) _ _ _
  · exact State.wr_refuse h _ _ _

theorem State.wr_scaleAt (h : Wr k s₀ s) (a : Nat) (t : Tag) (kg : Nat) : Wr k s₀ (s.scaleAt a t kg) := by
  unfold State.scaleAt
  split
  · split
    · next n r e =>
      split
      · exact State.wr_accept (h.roll (r' := { r with weight := some kg }) (State.roll_of_resolve e) ⟨rfl, rfl, rfl, rfl, fun _ => ⟨rfl, rfl, rfl⟩⟩) _ _
      · exact State.wr_refuse h _ _ _
    · exact State.wr_refuse h _ _ _
  · exact State.wr_refuse h _ _ _

theorem State.wr_holdRequest (h : Wr k s₀ s) (r : RollRef) (x : Option Hold) : Wr k s₀ (s.holdRequest r x).state := by
  unfold State.holdRequest
  split
  · exact h
  · exact h
  · split
    · split
      · next n y e =>
        split
        · exact h.roll (State.roll_of_resolve e) ⟨rfl, rfl, rfl, rfl, fun _ => ⟨rfl, rfl, rfl⟩⟩
        · exact h
      · exact h
    · exact h

theorem State.wr_releaseRequest (h : Wr k s₀ s) (r : RollRef) : Wr k s₀ (s.releaseRequest r).state := by
  unfold State.releaseRequest
  split
  · split
    · next n y e =>
      split
      · have g : Wr k s₀ (s.putRoll n (some { y with hold := none })) :=
          h.roll (State.roll_of_resolve e) ⟨rfl, rfl, rfl, rfl, fun _ => ⟨rfl, rfl, rfl⟩⟩
        dsimp only
        split
        · exact State.wr_notice g
        · exact g
      · exact h
    · exact h
  · exact h

theorem State.wr_reviewStand (h : Wr k s₀ s) (st : Option Nat) : Wr k s₀ (s.reviewStand st) := by
  unfold State.reviewStand
  try dsimp only
  repeat' first
      | with_reducible assumption
      | split
      | with_reducible apply State.wr_evalCallOff
      | (intro x; exact ⟨rfl, rfl, rfl, rfl, fun _ => ⟨rfl, rfl, rfl⟩⟩)
      | (intro x; exact ⟨rfl, rfl, rfl, rfl, fun hlt => absurd hlt (by omega)⟩)
      | (intro x; refine ⟨fun _ => ?_, fun _ => ?_⟩ <;> first | omega | ((repeat' apply And.intro) <;> rfl))
      | (intro x; exact .inr ⟨rfl, .inl (Nat.le_refl _)⟩)
      | (intro x; rfl)
      | (intro x; exact Stand.same_withArm x _ _ rfl rfl)
      | exact Job.splices_same
      | exact Job.breaks_same
      | exact Job.chargeConsumed_same _ _
      | (intro j; exact ⟨rfl, id, fun _ => ⟨rfl, rfl, rfl⟩⟩)
      | (intro j; exact ⟨rfl, id, fun hlt => absurd hlt (by omega)⟩)
      | (intro x; exact ⟨fun b => b, fun _ => ⟨rfl, rfl, rfl, rfl, rfl⟩⟩)
      | (intro x; exact ⟨fun b => ⟨by omega, by (try split) <;> simp_all [Station.bounded], b.2.2⟩, fun hlt => absurd hlt (by omega)⟩)
      | omega

theorem State.wr_retireRequest (h : Wr k s₀ s) (hk : 4 ≤ k) (r : RollRef) : Wr k s₀ (s.retireRequest r).state := by
  unfold State.retireRequest
  try dsimp only
  repeat' first
      | with_reducible assumption
      | split
      | with_reducible apply State.wr_retireRecord
      | with_reducible apply State.wr_ok
      | with_reducible apply State.wr_no
      | with_reducible apply State.wr_ok
      | with_reducible apply State.wr_reviewStand
      | (intro x; exact ⟨rfl, rfl, rfl, rfl, fun _ => ⟨rfl, rfl, rfl⟩⟩)
      | (intro x; exact ⟨rfl, rfl, rfl, rfl, fun hlt => absurd hlt (by omega)⟩)
      | (intro x; refine ⟨fun _ => ?_, fun _ => ?_⟩ <;> first | omega | ((repeat' apply And.intro) <;> rfl))
      | (intro x; exact .inr ⟨rfl, .inl (Nat.le_refl _)⟩)
      | (intro x; rfl)
      | (intro x; exact Stand.same_withArm x _ _ rfl rfl)
      | exact Job.splices_same
      | exact Job.breaks_same
      | exact Job.chargeConsumed_same _ _
      | (intro j; exact ⟨rfl, id, fun _ => ⟨rfl, rfl, rfl⟩⟩)
      | (intro j; exact ⟨rfl, id, fun hlt => absurd hlt (by omega)⟩)
      | (intro x; exact ⟨fun b => b, fun _ => ⟨rfl, rfl, rfl, rfl, rfl⟩⟩)
      | (intro x; exact ⟨fun b => ⟨by omega, by (try split) <;> simp_all [Station.bounded], b.2.2⟩, fun hlt => absurd hlt (by omega)⟩)
      | omega

theorem State.wr_abortPlaced (h : Wr k s₀ s) (r : Roll) (o : Nat) : Wr k s₀ (s.abortPlaced r o) := by
  unfold State.abortPlaced
  try dsimp only
  repeat' first
      | with_reducible assumption
      | split
      | with_reducible apply State.wr_sendVehicle
      | (intro x; exact ⟨rfl, rfl, rfl, rfl, fun _ => ⟨rfl, rfl, rfl⟩⟩)
      | (intro x; exact ⟨rfl, rfl, rfl, rfl, fun hlt => absurd hlt (by omega)⟩)
      | (intro x; refine ⟨fun _ => ?_, fun _ => ?_⟩ <;> first | omega | ((repeat' apply And.intro) <;> rfl))
      | (intro x; exact .inr ⟨rfl, .inl (Nat.le_refl _)⟩)
      | (intro x; rfl)
      | (intro x; exact Stand.same_withArm x _ _ rfl rfl)
      | exact Job.splices_same
      | exact Job.breaks_same
      | exact Job.chargeConsumed_same _ _
      | (intro j; exact ⟨rfl, id, fun _ => ⟨rfl, rfl, rfl⟩⟩)
      | (intro j; exact ⟨rfl, id, fun hlt => absurd hlt (by omega)⟩)
      | (intro x; exact ⟨fun b => b, fun _ => ⟨rfl, rfl, rfl, rfl, rfl⟩⟩)
      | (intro x; exact ⟨fun b => ⟨by omega, by (try split) <;> simp_all [Station.bounded], b.2.2⟩, fun hlt => absurd hlt (by omega)⟩)
      | omega

theorem State.wr_placeLink (h : Wr k s₀ s) (n : Nat) (r : Roll) : Wr k s₀ (s.placeLink n r) := by
  unfold State.placeLink
  try dsimp only
  repeat' first
      | with_reducible assumption
      | split
      | with_reducible apply State.wr_modRoll
      | with_reducible apply State.wr_unlink
      | with_reducible apply State.wr_freeOrder
      | with_reducible apply State.wr_abortPlaced
      | (intro x; exact ⟨rfl, rfl, rfl, rfl, fun _ => ⟨rfl, rfl, rfl⟩⟩)
      | (intro x; exact ⟨rfl, rfl, rfl, rfl, fun hlt => absurd hlt (by omega)⟩)
      | (intro x; refine ⟨fun _ => ?_, fun _ => ?_⟩ <;> first | omega | ((repeat' apply And.intro) <;> rfl))
      | (intro x; exact .inr ⟨rfl, .inl (Nat.le_refl _)⟩)
      | (intro x; rfl)
      | (intro x; exact Stand.same_withArm x _ _ rfl rfl)
      | exact Job.splices_same
      | exact Job.breaks_same
      | exact Job.chargeConsumed_same _ _
      | (intro j; exact ⟨rfl, id, fun _ => ⟨rfl, rfl, rfl⟩⟩)
      | (intro j; exact ⟨rfl, id, fun hlt => absurd hlt (by omega)⟩)
      | (intro x; exact ⟨fun b => b, fun _ => ⟨rfl, rfl, rfl, rfl, rfl⟩⟩)
      | (intro x; exact ⟨fun b => ⟨by omega, by (try split) <;> simp_all [Station.bounded], b.2.2⟩, fun hlt => absurd hlt (by omega)⟩)
      | omega

theorem State.bay_removeFromPlace (n b : Nat) (r : Roll) :
    ((s.removeFromPlace n r).bay b).stack.length ≤ (s.bay b).stack.length ∧ ((s.removeFromPlace n r).bay b).limit = (s.bay b).limit := by
  unfold State.removeFromPlace
  split
  · exact ⟨Nat.le_refl _, rfl⟩
  · next c _ _ =>
    unfold State.leaveBay State.modBay
    have hr : ∀ (rs : List Nat) (i : Nat) (t : State), (State.relevel c i rs t).bays = t.bays := by
      intro rs
      induction rs with
      | nil => intro i t; rfl
      | cons x rs ih => intro i t; unfold State.relevel; rw [ih]; simp
    have hb : ∀ t : State, ((State.relevel c 1 ((s.bay c).stack.erase n) t).notice).bay b = t.bay b := by
      intro t; unfold State.bay; show Tbl.get (State.relevel c 1 _ t).bays b _ = _; rw [hr]
    rw [hb]
    unfold State.bay State.setBay
    simp only [Tbl.get_set]
    split
    · next e => subst e; exact ⟨List.length_erase_le, rfl⟩
    · exact ⟨Nat.le_refl _, rfl⟩
  · exact ⟨Nat.le_refl _, rfl⟩
  · exact ⟨Nat.le_refl _, rfl⟩

theorem State.wr_place (h : Wr k s₀ s) (hk : 4 ≤ k) (n : Nat) (r : Roll) (d : PlaceDest) (ha : s.admitsPlace d = true) :
    Wr k s₀ (s.place n r d) := by
  unfold State.place
  extract_lets s1 s2
  have h1 : Wr k s₀ s1 := by
    have g := State.wr_removeFromPlace h (by omega) n r
    dsimp only [s1]
    unfold State.setPlace
    cases d with
    | bay b =>
      refine State.wr_joinBay g (by omega) b n ?_
      have hb := State.bay_removeFromPlace (s := s) n b r
      have ha : s.admitsMove b = true := ha
      unfold State.admitsMove at ha
      rw [Bool.and_eq_true, Bool.and_eq_true, decide_eq_true_eq] at ha
      have := ha.1.2
      unfold State.effectiveHeight at this
      omega
    | arm st a =>
      cases a with
      | some a => exact State.wr_stage g (by omega) n st a
      | none => exact g
  have h2 : Wr k s₀ s2 := State.wr_modRoll h1 _ _ fun _ => ⟨rfl, rfl, rfl, rfl, fun _ => ⟨rfl, rfl, rfl⟩⟩
  exact State.wr_reviewStand (State.wr_placeLink h2 n r) r.stand

theorem State.wr_placeRequest (h : Wr k s₀ s) (hk : 4 ≤ k) (r : RollRef) (d : PlaceDest) : Wr k s₀ (s.placeRequest r d).state := by
  unfold State.placeRequest
  split
  · split
    · split
      · exact h
      · split
        · next hc =>
          rw [Bool.and_eq_true] at hc
          exact State.wr_place h hk _ _ d hc.2
        · exact h
    · exact h
  · exact h

theorem State.wr_readBay (h : Wr k s₀ s) (_hk : 4 ≤ k) (b : Nat) : Wr k s₀ (s.readBay b).state := by
  unfold State.readBay
  try dsimp only
  repeat' first
      | with_reducible assumption
      | split
      | with_reducible apply State.wr_no
      | with_reducible apply State.wr_okWith
      | (intro x; exact ⟨rfl, rfl, rfl, rfl, fun _ => ⟨rfl, rfl, rfl⟩⟩)
      | (intro x; exact ⟨rfl, rfl, rfl, rfl, fun hlt => absurd hlt (by omega)⟩)
      | (intro x; refine ⟨fun _ => ?_, fun _ => ?_⟩ <;> first | omega | ((repeat' apply And.intro) <;> rfl))
      | (intro x; exact .inr ⟨rfl, .inl (Nat.le_refl _)⟩)
      | (intro x; rfl)
      | (intro x; exact Stand.same_withArm x _ _ rfl rfl)
      | exact Job.splices_same
      | exact Job.breaks_same
      | exact Job.chargeConsumed_same _ _
      | (intro j; exact ⟨rfl, id, fun _ => ⟨rfl, rfl, rfl⟩⟩)
      | (intro j; exact ⟨rfl, id, fun hlt => absurd hlt (by omega)⟩)
      | (intro x; exact ⟨fun b => b, fun _ => ⟨rfl, rfl, rfl, rfl, rfl⟩⟩)
      | (intro x; exact ⟨fun b => ⟨by omega, by (try split) <;> simp_all [Station.bounded], b.2.2⟩, fun hlt => absurd hlt (by omega)⟩)
      | omega

theorem State.wr_readNextHeld (h : Wr k s₀ s) (_hk : 4 ≤ k) (b : Nat) : Wr k s₀ (s.readNextHeld b).state := by
  unfold State.readNextHeld
  try dsimp only
  repeat' first
      | with_reducible assumption
      | split
      | with_reducible apply State.wr_ok
      | with_reducible apply State.wr_no
      | with_reducible apply State.wr_okWith
      | with_reducible apply State.wr_ok
      | (intro x; exact ⟨rfl, rfl, rfl, rfl, fun _ => ⟨rfl, rfl, rfl⟩⟩)
      | (intro x; exact ⟨rfl, rfl, rfl, rfl, fun hlt => absurd hlt (by omega)⟩)
      | (intro x; refine ⟨fun _ => ?_, fun _ => ?_⟩ <;> first | omega | ((repeat' apply And.intro) <;> rfl))
      | (intro x; exact .inr ⟨rfl, .inl (Nat.le_refl _)⟩)
      | (intro x; rfl)
      | (intro x; exact Stand.same_withArm x _ _ rfl rfl)
      | exact Job.splices_same
      | exact Job.breaks_same
      | exact Job.chargeConsumed_same _ _
      | (intro j; exact ⟨rfl, id, fun _ => ⟨rfl, rfl, rfl⟩⟩)
      | (intro j; exact ⟨rfl, id, fun hlt => absurd hlt (by omega)⟩)
      | (intro x; exact ⟨fun b => b, fun _ => ⟨rfl, rfl, rfl, rfl, rfl⟩⟩)
      | (intro x; exact ⟨fun b => ⟨by omega, by (try split) <;> simp_all [Station.bounded], b.2.2⟩, fun hlt => absurd hlt (by omega)⟩)
      | omega

theorem State.wr_setBayRequest (h : Wr k s₀ s) (hk : 4 ≤ k) (b limit aisle : Nat) (x : Option HoldSetting) :
    Wr k s₀ (s.setBayRequest b limit aisle x).state := by
  unfold State.setBayRequest
  extract_lets x0 _ changed _ t
  split
  · next ha =>
    split
    · exact h
    · next hc =>
      split
      · exact h
      · have g : Wr k s₀ t := by
          refine h.bay (by omega) ?_
          by_cases hl : (s.bay b).limit = limit
          · exact .inr ⟨hl.symm, .inl (Nat.le_refl _)⟩
          · have hch : changed = true := by
              show ((_ != _) || _) = true
              rw [Bool.or_eq_true]
              exact .inl (by simpa using hl)
            have hu : s.bayInUse b = false := by simpa [hch] using hc
            simp only [State.bayInUse, Bool.or_eq_false_iff, Bool.not_eq_false', List.isEmpty_iff] at hu
            simp only [State.setBayArgs, Bool.and_eq_true, decide_eq_true_eq] at ha
            refine .inl ⟨?_, ha.1.1.2.2⟩
            show (s.bay b).stack.length ≤ _
            rw [hu.1.1.1]
            exact Nat.zero_le _
        split
        · exact State.wr_notice g
        · exact g
  · exact h

theorem State.wr_releaseBayRequest (h : Wr k s₀ s) (hk : 4 ≤ k) (b : Nat) : Wr k s₀ (s.releaseBayRequest b).state := by
  unfold State.releaseBayRequest
  try dsimp only
  repeat' first
      | with_reducible assumption
      | (intro n t ht)
      | split
      | with_reducible apply State.wr_modRoll
      | with_reducible apply State.wr_modBay
      | with_reducible apply State.wr_notice
      | with_reducible apply State.wr_each
      | with_reducible apply State.wr_ok
      | with_reducible apply State.wr_no
      | with_reducible apply State.wr_ok
      | (intro x; exact ⟨rfl, rfl, rfl, rfl, fun _ => ⟨rfl, rfl, rfl⟩⟩)
      | (intro x; exact ⟨rfl, rfl, rfl, rfl, fun hlt => absurd hlt (by omega)⟩)
      | (intro x; refine ⟨fun _ => ?_, fun _ => ?_⟩ <;> first | omega | ((repeat' apply And.intro) <;> rfl))
      | (intro x; exact .inr ⟨rfl, .inl (Nat.le_refl _)⟩)
      | (intro x; rfl)
      | (intro x; exact Stand.same_withArm x _ _ rfl rfl)
      | exact Job.splices_same
      | exact Job.breaks_same
      | exact Job.chargeConsumed_same _ _
      | (intro j; exact ⟨rfl, id, fun _ => ⟨rfl, rfl, rfl⟩⟩)
      | (intro j; exact ⟨rfl, id, fun hlt => absurd hlt (by omega)⟩)
      | (intro x; exact ⟨fun b => b, fun _ => ⟨rfl, rfl, rfl, rfl, rfl⟩⟩)
      | (intro x; exact ⟨fun b => ⟨by omega, by (try split) <;> simp_all [Station.bounded], b.2.2⟩, fun hlt => absurd hlt (by omega)⟩)
      | (intro r; unfold Roll.unheld; split <;> exact ⟨rfl, rfl, rfl, rfl, fun _ => ⟨rfl, rfl, rfl⟩⟩)
      | omega

theorem State.wr_releaseTop (h : Wr k s₀ s) (b : Nat) : Wr k s₀ (s.releaseTop b) := by
  unfold State.releaseTop
  try dsimp only
  repeat' first
      | with_reducible assumption
      | split
      | with_reducible apply State.wr_returnToPending
      | (intro x; exact ⟨rfl, rfl, rfl, rfl, fun _ => ⟨rfl, rfl, rfl⟩⟩)
      | (intro x; exact ⟨rfl, rfl, rfl, rfl, fun hlt => absurd hlt (by omega)⟩)
      | (intro x; refine ⟨fun _ => ?_, fun _ => ?_⟩ <;> first | omega | ((repeat' apply And.intro) <;> rfl))
      | (intro x; exact .inr ⟨rfl, .inl (Nat.le_refl _)⟩)
      | (intro x; rfl)
      | (intro x; exact Stand.same_withArm x _ _ rfl rfl)
      | exact Job.splices_same
      | exact Job.breaks_same
      | exact Job.chargeConsumed_same _ _
      | (intro j; exact ⟨rfl, id, fun _ => ⟨rfl, rfl, rfl⟩⟩)
      | (intro j; exact ⟨rfl, id, fun hlt => absurd hlt (by omega)⟩)
      | (intro x; exact ⟨fun b => b, fun _ => ⟨rfl, rfl, rfl, rfl, rfl⟩⟩)
      | (intro x; exact ⟨fun b => ⟨by omega, by (try split) <;> simp_all [Station.bounded], b.2.2⟩, fun hlt => absurd hlt (by omega)⟩)
      | omega

theorem State.wr_rerouteFrom (h : Wr k s₀ s) (n : Nat) : Wr k s₀ (s.rerouteFrom n) := by
  unfold State.rerouteFrom
  try dsimp only
  repeat' first
      | with_reducible assumption
      | split
      | with_reducible apply State.wr_withdrawBay
      | with_reducible apply State.wr_redirect
      | (intro x; exact ⟨rfl, rfl, rfl, rfl, fun _ => ⟨rfl, rfl, rfl⟩⟩)
      | (intro x; exact ⟨rfl, rfl, rfl, rfl, fun hlt => absurd hlt (by omega)⟩)
      | (intro x; refine ⟨fun _ => ?_, fun _ => ?_⟩ <;> first | omega | ((repeat' apply And.intro) <;> rfl))
      | (intro x; exact .inr ⟨rfl, .inl (Nat.le_refl _)⟩)
      | (intro x; rfl)
      | (intro x; exact Stand.same_withArm x _ _ rfl rfl)
      | exact Job.splices_same
      | exact Job.breaks_same
      | exact Job.chargeConsumed_same _ _
      | (intro j; exact ⟨rfl, id, fun _ => ⟨rfl, rfl, rfl⟩⟩)
      | (intro j; exact ⟨rfl, id, fun hlt => absurd hlt (by omega)⟩)
      | (intro x; exact ⟨fun b => b, fun _ => ⟨rfl, rfl, rfl, rfl, rfl⟩⟩)
      | (intro x; exact ⟨fun b => ⟨by omega, by (try split) <;> simp_all [Station.bounded], b.2.2⟩, fun hlt => absurd hlt (by omega)⟩)
      | omega

theorem State.wr_confirmBay (h : Wr k s₀ s) (hk : 1 ≤ k) (b : Nat) : Wr k s₀ (s.confirmBay b) := by
  unfold State.confirmBay
  extract_lets stack s1 s2 s3
  have h_s1 : Wr k s₀ s1 := by
    dsimp only [s1]
    repeat' first
        | with_reducible assumption
        | (intro n t ht)
        | split
        | with_reducible apply State.wr_modBay
        | with_reducible apply State.wr_each
        | with_reducible apply State.wr_raise
        | with_reducible apply State.wr_holdDiscrepancy
        | with_reducible apply State.wr_releaseTop
        | with_reducible apply State.wr_rerouteFrom
        | (intro x; exact ⟨rfl, rfl, rfl, rfl, fun _ => ⟨rfl, rfl, rfl⟩⟩)
        | (intro x; exact ⟨rfl, rfl, rfl, rfl, fun hlt => absurd hlt (by omega)⟩)
        | (intro x; refine ⟨fun _ => ?_, fun _ => ?_⟩ <;> first | omega | ((repeat' apply And.intro) <;> rfl))
        | (intro x; exact .inr ⟨rfl, .inl (Nat.le_refl _)⟩)
        | (intro x; rfl)
        | (intro x; exact Stand.same_withArm x _ _ rfl rfl)
        | exact Job.splices_same
        | exact Job.breaks_same
        | exact Job.chargeConsumed_same _ _
        | (intro j; exact ⟨rfl, id, fun _ => ⟨rfl, rfl, rfl⟩⟩)
        | (intro j; exact ⟨rfl, id, fun hlt => absurd hlt (by omega)⟩)
        | (intro x; exact ⟨fun b => b, fun _ => ⟨rfl, rfl, rfl, rfl, rfl⟩⟩)
        | (intro x; exact ⟨fun b => ⟨by omega, by (try split) <;> simp_all [Station.bounded], b.2.2⟩, fun hlt => absurd hlt (by omega)⟩)
        | (constructor <;> intro hk' <;> first | omega | exact nofun)
        | omega
  clear_value s1
  have h_s2 : Wr k s₀ s2 := by
    dsimp only [s2]
    repeat' first
        | with_reducible assumption
        | (intro n t ht)
        | split
        | with_reducible apply State.wr_modBay
        | with_reducible apply State.wr_each
        | with_reducible apply State.wr_raise
        | with_reducible apply State.wr_holdDiscrepancy
        | with_reducible apply State.wr_releaseTop
        | with_reducible apply State.wr_rerouteFrom
        | (intro x; exact ⟨rfl, rfl, rfl, rfl, fun _ => ⟨rfl, rfl, rfl⟩⟩)
        | (intro x; exact ⟨rfl, rfl, rfl, rfl, fun hlt => absurd hlt (by omega)⟩)
        | (intro x; refine ⟨fun _ => ?_, fun _ => ?_⟩ <;> first | omega | ((repeat' apply And.intro) <;> rfl))
        | (intro x; exact .inr ⟨rfl, .inl (Nat.le_refl _)⟩)
        | (intro x; rfl)
        | (intro x; exact Stand.same_withArm x _ _ rfl rfl)
        | exact Job.splices_same
        | exact Job.breaks_same
        | exact Job.chargeConsumed_same _ _
        | (intro j; exact ⟨rfl, id, fun _ => ⟨rfl, rfl, rfl⟩⟩)
        | (intro j; exact ⟨rfl, id, fun hlt => absurd hlt (by omega)⟩)
        | (intro x; exact ⟨fun b => b, fun _ => ⟨rfl, rfl, rfl, rfl, rfl⟩⟩)
        | (intro x; exact ⟨fun b => ⟨by omega, by (try split) <;> simp_all [Station.bounded], b.2.2⟩, fun hlt => absurd hlt (by omega)⟩)
        | (constructor <;> intro hk' <;> first | omega | exact nofun)
        | omega
  clear_value s2
  have h_s3 : Wr k s₀ s3 := by
    dsimp only [s3]
    repeat' first
        | with_reducible assumption
        | (intro n t ht)
        | split
        | with_reducible apply State.wr_modBay
        | with_reducible apply State.wr_each
        | with_reducible apply State.wr_raise
        | with_reducible apply State.wr_holdDiscrepancy
        | with_reducible apply State.wr_releaseTop
        | with_reducible apply State.wr_rerouteFrom
        | (intro x; exact ⟨rfl, rfl, rfl, rfl, fun _ => ⟨rfl, rfl, rfl⟩⟩)
        | (intro x; exact ⟨rfl, rfl, rfl, rfl, fun hlt => absurd hlt (by omega)⟩)
        | (intro x; refine ⟨fun _ => ?_, fun _ => ?_⟩ <;> first | omega | ((repeat' apply And.intro) <;> rfl))
        | (intro x; exact .inr ⟨rfl, .inl (Nat.le_refl _)⟩)
        | (intro x; rfl)
        | (intro x; exact Stand.same_withArm x _ _ rfl rfl)
        | exact Job.splices_same
        | exact Job.breaks_same
        | exact Job.chargeConsumed_same _ _
        | (intro j; exact ⟨rfl, id, fun _ => ⟨rfl, rfl, rfl⟩⟩)
        | (intro j; exact ⟨rfl, id, fun hlt => absurd hlt (by omega)⟩)
        | (intro x; exact ⟨fun b => b, fun _ => ⟨rfl, rfl, rfl, rfl, rfl⟩⟩)
        | (intro x; exact ⟨fun b => ⟨by omega, by (try split) <;> simp_all [Station.bounded], b.2.2⟩, fun hlt => absurd hlt (by omega)⟩)
        | (constructor <;> intro hk' <;> first | omega | exact nofun)
        | omega
  clear_value s3
  repeat' first
      | with_reducible assumption
      | (intro n t ht)
      | split
      | with_reducible apply State.wr_modBay
      | with_reducible apply State.wr_each
      | with_reducible apply State.wr_raise
      | with_reducible apply State.wr_holdDiscrepancy
      | with_reducible apply State.wr_releaseTop
      | with_reducible apply State.wr_rerouteFrom
      | (intro x; exact ⟨rfl, rfl, rfl, rfl, fun _ => ⟨rfl, rfl, rfl⟩⟩)
      | (intro x; exact ⟨rfl, rfl, rfl, rfl, fun hlt => absurd hlt (by omega)⟩)
      | (intro x; refine ⟨fun _ => ?_, fun _ => ?_⟩ <;> first | omega | ((repeat' apply And.intro) <;> rfl))
      | (intro x; exact .inr ⟨rfl, .inl (Nat.le_refl _)⟩)
      | (intro x; rfl)
      | (intro x; exact Stand.same_withArm x _ _ rfl rfl)
      | exact Job.splices_same
      | exact Job.breaks_same
      | exact Job.chargeConsumed_same _ _
      | (intro j; exact ⟨rfl, id, fun _ => ⟨rfl, rfl, rfl⟩⟩)
      | (intro j; exact ⟨rfl, id, fun hlt => absurd hlt (by omega)⟩)
      | (intro x; exact ⟨fun b => b, fun _ => ⟨rfl, rfl, rfl, rfl, rfl⟩⟩)
      | (intro x; exact ⟨fun b => ⟨by omega, by (try split) <;> simp_all [Station.bounded], b.2.2⟩, fun hlt => absurd hlt (by omega)⟩)
      | (constructor <;> intro hk' <;> first | omega | exact nofun)
      | omega

theorem State.wr_takeHeight (h : Wr k s₀ s) (hk : 1 ≤ k) (b h : Nat) : Wr k s₀ (s.takeHeight b h) := by
  unfold State.takeHeight
  try dsimp only
  repeat' first
      | with_reducible assumption
      | split
      | with_reducible apply State.wr_modBay
      | with_reducible apply State.wr_confirmBay
      | (intro x; exact ⟨rfl, rfl, rfl, rfl, fun _ => ⟨rfl, rfl, rfl⟩⟩)
      | (intro x; exact ⟨rfl, rfl, rfl, rfl, fun hlt => absurd hlt (by omega)⟩)
      | (intro x; refine ⟨fun _ => ?_, fun _ => ?_⟩ <;> first | omega | ((repeat' apply And.intro) <;> rfl))
      | (intro x; exact .inr ⟨rfl, .inl (Nat.le_refl _)⟩)
      | (intro x; rfl)
      | (intro x; exact Stand.same_withArm x _ _ rfl rfl)
      | exact Job.splices_same
      | exact Job.breaks_same
      | exact Job.chargeConsumed_same _ _
      | (intro j; exact ⟨rfl, id, fun _ => ⟨rfl, rfl, rfl⟩⟩)
      | (intro j; exact ⟨rfl, id, fun hlt => absurd hlt (by omega)⟩)
      | (intro x; exact ⟨fun b => b, fun _ => ⟨rfl, rfl, rfl, rfl, rfl⟩⟩)
      | (intro x; exact ⟨fun b => ⟨by omega, by (try split) <;> simp_all [Station.bounded], b.2.2⟩, fun hlt => absurd hlt (by omega)⟩)
      | omega

theorem State.wr_takeHeights (h : Wr k s₀ s) (hk : 1 ≤ k) (b : Nat) (hs : List Nat) : Wr k s₀ (State.takeHeights b hs s) := by
  induction hs generalizing b s with
  | nil => exact h
  | cons x xs ih => exact ih (State.wr_takeHeight h hk b x) (b + 1)

theorem State.wr_writeGrade (h : Wr k s₀ s) (hk : 4 ≤ k) (g : Nat) (x : Grade) : Wr k s₀ (s.writeGrade g x).state := by
  unfold State.writeGrade
  split
  · exact h
  · exact h.grade hk g x

theorem State.wr_configureGrade (h : Wr k s₀ s) (hk : 4 ≤ k) (g : Nat) (x : Grade) : Wr k s₀ (s.configureGrade g x).state := by
  unfold State.configureGrade
  try dsimp only
  repeat' first
      | with_reducible assumption
      | split
      | with_reducible apply State.wr_no
      | with_reducible apply State.wr_writeGrade
      | (intro x; exact ⟨rfl, rfl, rfl, rfl, fun _ => ⟨rfl, rfl, rfl⟩⟩)
      | (intro x; exact ⟨rfl, rfl, rfl, rfl, fun hlt => absurd hlt (by omega)⟩)
      | (intro x; refine ⟨fun _ => ?_, fun _ => ?_⟩ <;> first | omega | ((repeat' apply And.intro) <;> rfl))
      | (intro x; exact .inr ⟨rfl, .inl (Nat.le_refl _)⟩)
      | (intro x; rfl)
      | (intro x; exact Stand.same_withArm x _ _ rfl rfl)
      | exact Job.splices_same
      | exact Job.breaks_same
      | exact Job.chargeConsumed_same _ _
      | (intro j; exact ⟨rfl, id, fun _ => ⟨rfl, rfl, rfl⟩⟩)
      | (intro j; exact ⟨rfl, id, fun hlt => absurd hlt (by omega)⟩)
      | (intro x; exact ⟨fun b => b, fun _ => ⟨rfl, rfl, rfl, rfl, rfl⟩⟩)
      | (intro x; exact ⟨fun b => ⟨by omega, by (try split) <;> simp_all [Station.bounded], b.2.2⟩, fun hlt => absurd hlt (by omega)⟩)
      | omega

theorem State.wr_clearGrade (h : Wr k s₀ s) (hk : 4 ≤ k) (g caliper : Nat) : Wr k s₀ (s.clearGrade g caliper).state := by
  unfold State.clearGrade
  try dsimp only
  repeat' first
      | with_reducible assumption
      | split
      | with_reducible apply State.wr_no
      | with_reducible apply State.wr_writeGrade
      | (intro x; exact ⟨rfl, rfl, rfl, rfl, fun _ => ⟨rfl, rfl, rfl⟩⟩)
      | (intro x; exact ⟨rfl, rfl, rfl, rfl, fun hlt => absurd hlt (by omega)⟩)
      | (intro x; refine ⟨fun _ => ?_, fun _ => ?_⟩ <;> first | omega | ((repeat' apply And.intro) <;> rfl))
      | (intro x; exact .inr ⟨rfl, .inl (Nat.le_refl _)⟩)
      | (intro x; rfl)
      | (intro x; exact Stand.same_withArm x _ _ rfl rfl)
      | exact Job.splices_same
      | exact Job.breaks_same
      | exact Job.chargeConsumed_same _ _
      | (intro j; exact ⟨rfl, id, fun _ => ⟨rfl, rfl, rfl⟩⟩)
      | (intro j; exact ⟨rfl, id, fun hlt => absurd hlt (by omega)⟩)
      | (intro x; exact ⟨fun b => b, fun _ => ⟨rfl, rfl, rfl, rfl, rfl⟩⟩)
      | (intro x; exact ⟨fun b => ⟨by omega, by (try split) <;> simp_all [Station.bounded], b.2.2⟩, fun hlt => absurd hlt (by omega)⟩)
      | omega

theorem State.wr_readGradeRequest (h : Wr k s₀ s) (_hk : 4 ≤ k) (g : Nat) : Wr k s₀ (s.readGradeRequest g).state := by
  unfold State.readGradeRequest
  try dsimp only
  repeat' first
      | with_reducible assumption
      | split
      | with_reducible apply State.wr_no
      | with_reducible apply State.wr_okWith
      | (intro x; exact ⟨rfl, rfl, rfl, rfl, fun _ => ⟨rfl, rfl, rfl⟩⟩)
      | (intro x; exact ⟨rfl, rfl, rfl, rfl, fun hlt => absurd hlt (by omega)⟩)
      | (intro x; refine ⟨fun _ => ?_, fun _ => ?_⟩ <;> first | omega | ((repeat' apply And.intro) <;> rfl))
      | (intro x; exact .inr ⟨rfl, .inl (Nat.le_refl _)⟩)
      | (intro x; rfl)
      | (intro x; exact Stand.same_withArm x _ _ rfl rfl)
      | exact Job.splices_same
      | exact Job.breaks_same
      | exact Job.chargeConsumed_same _ _
      | (intro j; exact ⟨rfl, id, fun _ => ⟨rfl, rfl, rfl⟩⟩)
      | (intro j; exact ⟨rfl, id, fun hlt => absurd hlt (by omega)⟩)
      | (intro x; exact ⟨fun b => b, fun _ => ⟨rfl, rfl, rfl, rfl, rfl⟩⟩)
      | (intro x; exact ⟨fun b => ⟨by omega, by (try split) <;> simp_all [Station.bounded], b.2.2⟩, fun hlt => absurd hlt (by omega)⟩)
      | omega

theorem State.wr_writeWorking (h : Wr k s₀ s) (hk : 4 ≤ k) (l : Nat) (p : Plan) : Wr k s₀ (s.writeWorking l p).state := by
  unfold State.writeWorking
  try dsimp only
  repeat' first
      | with_reducible assumption
      | split
      | with_reducible apply State.wr_modLine
      | with_reducible apply State.wr_ok
      | with_reducible apply State.wr_no
      | with_reducible apply State.wr_ok
      | (intro x; exact ⟨rfl, rfl, rfl, rfl, fun _ => ⟨rfl, rfl, rfl⟩⟩)
      | (intro x; exact ⟨rfl, rfl, rfl, rfl, fun hlt => absurd hlt (by omega)⟩)
      | (intro x; refine ⟨fun _ => ?_, fun _ => ?_⟩ <;> first | omega | ((repeat' apply And.intro) <;> rfl))
      | (intro x; exact .inr ⟨rfl, .inl (Nat.le_refl _)⟩)
      | (intro x; rfl)
      | (intro x; exact Stand.same_withArm x _ _ rfl rfl)
      | exact Job.splices_same
      | exact Job.breaks_same
      | exact Job.chargeConsumed_same _ _
      | (intro j; exact ⟨rfl, id, fun _ => ⟨rfl, rfl, rfl⟩⟩)
      | (intro j; exact ⟨rfl, id, fun hlt => absurd hlt (by omega)⟩)
      | (intro x; exact ⟨fun b => b, fun _ => ⟨rfl, rfl, rfl, rfl, rfl⟩⟩)
      | (intro x; exact ⟨fun b => ⟨by omega, by (try split) <;> simp_all [Station.bounded], b.2.2⟩, fun hlt => absurd hlt (by omega)⟩)
      | omega

theorem State.wr_followWrite (h : Wr k s₀ s) (hk : 4 ≤ k) (l : Nat) (f : Plan → Plan) : Wr k s₀ (s.followWrite l f) :=
  State.wr_modLine h (by omega) l _ fun _ => ⟨fun hlt => absurd hlt (by omega), fun hlt => absurd hlt (by omega)⟩

theorem State.wr_followHead (h : Wr k s₀ s) (hk : 4 ≤ k) (l : Nat) (h : PlanHead) : Wr k s₀ (s.followHead l h) := by
  unfold State.followHead
  try dsimp only
  repeat' first
      | with_reducible assumption
      | (intro n t ht)
      | split
      | with_reducible apply State.wr_followWrite
      | with_reducible apply State.wr_each
      | with_reducible apply State.wr_reevaluate
      | (intro x; exact ⟨rfl, rfl, rfl, rfl, fun _ => ⟨rfl, rfl, rfl⟩⟩)
      | (intro x; exact ⟨rfl, rfl, rfl, rfl, fun hlt => absurd hlt (by omega)⟩)
      | (intro x; refine ⟨fun _ => ?_, fun _ => ?_⟩ <;> first | omega | ((repeat' apply And.intro) <;> rfl))
      | (intro x; exact .inr ⟨rfl, .inl (Nat.le_refl _)⟩)
      | (intro x; rfl)
      | (intro x; exact Stand.same_withArm x _ _ rfl rfl)
      | exact Job.splices_same
      | exact Job.breaks_same
      | exact Job.chargeConsumed_same _ _
      | (intro j; exact ⟨rfl, id, fun _ => ⟨rfl, rfl, rfl⟩⟩)
      | (intro j; exact ⟨rfl, id, fun hlt => absurd hlt (by omega)⟩)
      | (intro x; exact ⟨fun b => b, fun _ => ⟨rfl, rfl, rfl, rfl, rfl⟩⟩)
      | (intro x; exact ⟨fun b => ⟨by omega, by (try split) <;> simp_all [Station.bounded], b.2.2⟩, fun hlt => absurd hlt (by omega)⟩)
      | omega

theorem State.wr_writeHead (h : Wr k s₀ s) (hk : 4 ≤ k) (l : Nat) (h : PlanHead) : Wr k s₀ (s.writeHead l h).state := by
  unfold State.writeHead
  try dsimp only
  repeat' first
      | with_reducible assumption
      | split
      | with_reducible apply State.wr_ok
      | with_reducible apply State.wr_no
      | with_reducible apply State.wr_ok
      | with_reducible apply State.wr_writeWorking
      | with_reducible apply State.wr_followHead
      | (intro x; exact ⟨rfl, rfl, rfl, rfl, fun _ => ⟨rfl, rfl, rfl⟩⟩)
      | (intro x; exact ⟨rfl, rfl, rfl, rfl, fun hlt => absurd hlt (by omega)⟩)
      | (intro x; refine ⟨fun _ => ?_, fun _ => ?_⟩ <;> first | omega | ((repeat' apply And.intro) <;> rfl))
      | (intro x; exact .inr ⟨rfl, .inl (Nat.le_refl _)⟩)
      | (intro x; rfl)
      | (intro x; exact Stand.same_withArm x _ _ rfl rfl)
      | exact Job.splices_same
      | exact Job.breaks_same
      | exact Job.chargeConsumed_same _ _
      | (intro j; exact ⟨rfl, id, fun _ => ⟨rfl, rfl, rfl⟩⟩)
      | (intro j; exact ⟨rfl, id, fun hlt => absurd hlt (by omega)⟩)
      | (intro x; exact ⟨fun b => b, fun _ => ⟨rfl, rfl, rfl, rfl, rfl⟩⟩)
      | (intro x; exact ⟨fun b => ⟨by omega, by (try split) <;> simp_all [Station.bounded], b.2.2⟩, fun hlt => absurd hlt (by omega)⟩)
      | omega

theorem State.wr_followPositions (h : Wr k s₀ s) (hk : 4 ≤ k) (l : Nat) (ps : List Position) : Wr k s₀ (s.followPositions l ps) := by
  unfold State.followPositions
  try dsimp only
  repeat' first
      | with_reducible assumption
      | split
      | with_reducible apply State.wr_followWrite
      | with_reducible apply State.wr_replan
      | (intro x; exact ⟨rfl, rfl, rfl, rfl, fun _ => ⟨rfl, rfl, rfl⟩⟩)
      | (intro x; exact ⟨rfl, rfl, rfl, rfl, fun hlt => absurd hlt (by omega)⟩)
      | (intro x; refine ⟨fun _ => ?_, fun _ => ?_⟩ <;> first | omega | ((repeat' apply And.intro) <;> rfl))
      | (intro x; exact .inr ⟨rfl, .inl (Nat.le_refl _)⟩)
      | (intro x; rfl)
      | (intro x; exact Stand.same_withArm x _ _ rfl rfl)
      | exact Job.splices_same
      | exact Job.breaks_same
      | exact Job.chargeConsumed_same _ _
      | (intro j; exact ⟨rfl, id, fun _ => ⟨rfl, rfl, rfl⟩⟩)
      | (intro j; exact ⟨rfl, id, fun hlt => absurd hlt (by omega)⟩)
      | (intro x; exact ⟨fun b => b, fun _ => ⟨rfl, rfl, rfl, rfl, rfl⟩⟩)
      | (intro x; exact ⟨fun b => ⟨by omega, by (try split) <;> simp_all [Station.bounded], b.2.2⟩, fun hlt => absurd hlt (by omega)⟩)
      | omega

theorem State.wr_writePositions (h : Wr k s₀ s) (hk : 4 ≤ k) (l : Nat) (ps : List Position) : Wr k s₀ (s.writePositions l ps).state := by
  unfold State.writePositions
  try dsimp only
  repeat' first
      | with_reducible assumption
      | split
      | with_reducible apply State.wr_ok
      | with_reducible apply State.wr_no
      | with_reducible apply State.wr_ok
      | with_reducible apply State.wr_writeWorking
      | with_reducible apply State.wr_followPositions
      | (intro x; exact ⟨rfl, rfl, rfl, rfl, fun _ => ⟨rfl, rfl, rfl⟩⟩)
      | (intro x; exact ⟨rfl, rfl, rfl, rfl, fun hlt => absurd hlt (by omega)⟩)
      | (intro x; refine ⟨fun _ => ?_, fun _ => ?_⟩ <;> first | omega | ((repeat' apply And.intro) <;> rfl))
      | (intro x; exact .inr ⟨rfl, .inl (Nat.le_refl _)⟩)
      | (intro x; rfl)
      | (intro x; exact Stand.same_withArm x _ _ rfl rfl)
      | exact Job.splices_same
      | exact Job.breaks_same
      | exact Job.chargeConsumed_same _ _
      | (intro j; exact ⟨rfl, id, fun _ => ⟨rfl, rfl, rfl⟩⟩)
      | (intro j; exact ⟨rfl, id, fun hlt => absurd hlt (by omega)⟩)
      | (intro x; exact ⟨fun b => b, fun _ => ⟨rfl, rfl, rfl, rfl, rfl⟩⟩)
      | (intro x; exact ⟨fun b => ⟨by omega, by (try split) <;> simp_all [Station.bounded], b.2.2⟩, fun hlt => absurd hlt (by omega)⟩)
      | omega

theorem State.wr_readPlanRequest (h : Wr k s₀ s) (_hk : 4 ≤ k) (l : Nat) (sel : Option PlanSel) (part : Option PlanPart) : Wr k s₀ (s.readPlanRequest l sel part).state := by
  unfold State.readPlanRequest
  try dsimp only
  repeat' first
      | with_reducible assumption
      | split
      | with_reducible apply State.wr_no
      | with_reducible apply State.wr_okWith
      | (intro x; exact ⟨rfl, rfl, rfl, rfl, fun _ => ⟨rfl, rfl, rfl⟩⟩)
      | (intro x; exact ⟨rfl, rfl, rfl, rfl, fun hlt => absurd hlt (by omega)⟩)
      | (intro x; refine ⟨fun _ => ?_, fun _ => ?_⟩ <;> first | omega | ((repeat' apply And.intro) <;> rfl))
      | (intro x; exact .inr ⟨rfl, .inl (Nat.le_refl _)⟩)
      | (intro x; rfl)
      | (intro x; exact Stand.same_withArm x _ _ rfl rfl)
      | exact Job.splices_same
      | exact Job.breaks_same
      | exact Job.chargeConsumed_same _ _
      | (intro j; exact ⟨rfl, id, fun _ => ⟨rfl, rfl, rfl⟩⟩)
      | (intro j; exact ⟨rfl, id, fun hlt => absurd hlt (by omega)⟩)
      | (intro x; exact ⟨fun b => b, fun _ => ⟨rfl, rfl, rfl, rfl, rfl⟩⟩)
      | (intro x; exact ⟨fun b => ⟨by omega, by (try split) <;> simp_all [Station.bounded], b.2.2⟩, fun hlt => absurd hlt (by omega)⟩)
      | omega

theorem State.wr_startChangeover (h : Wr k s₀ s) (hk : 4 ≤ k) (l : Nat) : Wr k s₀ (s.startChangeover l).state := by
  unfold State.startChangeover
  try dsimp only
  repeat' first
      | with_reducible assumption
      | split
      | with_reducible apply State.wr_modLine
      | with_reducible apply State.wr_splice
      | with_reducible apply State.wr_takeChangeover
      | with_reducible apply State.wr_okWith
      | (intro x; exact ⟨rfl, rfl, rfl, rfl, fun _ => ⟨rfl, rfl, rfl⟩⟩)
      | (intro x; exact ⟨rfl, rfl, rfl, rfl, fun hlt => absurd hlt (by omega)⟩)
      | (intro x; refine ⟨fun _ => ?_, fun _ => ?_⟩ <;> first | omega | ((repeat' apply And.intro) <;> rfl))
      | (intro x; exact .inr ⟨rfl, .inl (Nat.le_refl _)⟩)
      | (intro x; rfl)
      | (intro x; exact Stand.same_withArm x _ _ rfl rfl)
      | exact Job.splices_same
      | exact Job.breaks_same
      | exact Job.chargeConsumed_same _ _
      | (intro j; exact ⟨rfl, id, fun _ => ⟨rfl, rfl, rfl⟩⟩)
      | (intro j; exact ⟨rfl, id, fun hlt => absurd hlt (by omega)⟩)
      | (intro x; exact ⟨fun b => b, fun _ => ⟨rfl, rfl, rfl, rfl, rfl⟩⟩)
      | (intro x; exact ⟨fun b => ⟨by omega, by (try split) <;> simp_all [Station.bounded], b.2.2⟩, fun hlt => absurd hlt (by omega)⟩)
      | omega

theorem State.wr_changeoverRequest (h : Wr k s₀ s) (hk : 4 ≤ k) (l : Nat) : Wr k s₀ (s.changeoverRequest l).state := by
  unfold State.changeoverRequest
  try dsimp only
  repeat' first
      | with_reducible assumption
      | split
      | with_reducible apply State.wr_no
      | with_reducible apply State.wr_startChangeover
      | (intro x; exact ⟨rfl, rfl, rfl, rfl, fun _ => ⟨rfl, rfl, rfl⟩⟩)
      | (intro x; exact ⟨rfl, rfl, rfl, rfl, fun hlt => absurd hlt (by omega)⟩)
      | (intro x; refine ⟨fun _ => ?_, fun _ => ?_⟩ <;> first | omega | ((repeat' apply And.intro) <;> rfl))
      | (intro x; exact .inr ⟨rfl, .inl (Nat.le_refl _)⟩)
      | (intro x; rfl)
      | (intro x; exact Stand.same_withArm x _ _ rfl rfl)
      | exact Job.splices_same
      | exact Job.breaks_same
      | exact Job.chargeConsumed_same _ _
      | (intro j; exact ⟨rfl, id, fun _ => ⟨rfl, rfl, rfl⟩⟩)
      | (intro j; exact ⟨rfl, id, fun hlt => absurd hlt (by omega)⟩)
      | (intro x; exact ⟨fun b => b, fun _ => ⟨rfl, rfl, rfl, rfl, rfl⟩⟩)
      | (intro x; exact ⟨fun b => ⟨by omega, by (try split) <;> simp_all [Station.bounded], b.2.2⟩, fun hlt => absurd hlt (by omega)⟩)
      | omega

theorem Job.opened_bounded (p l : Nat) : (Job.opened p l).bounded := by simp [Job.bounded, Job.opened]

theorem State.wr_openJobRequest (h : Wr k s₀ s) (hk : 4 ≤ k) (j l : Nat) : Wr k s₀ (s.openJobRequest j l).state := by
  unfold State.openJobRequest
  split
  · split
    · exact h
    · split
      · exact h.putJob hk j (by intro x hx; cases hx; exact Job.opened_bounded _ _)
      · exact h
  · exact h

theorem State.wr_closeJobRequest (h : Wr k s₀ s) (hk : 4 ≤ k) (j : Nat) : Wr k s₀ (s.closeJobRequest j).state := by
  unfold State.closeJobRequest
  try dsimp only
  repeat' first
      | with_reducible assumption
      | split
      | with_reducible apply State.wr_closeLive
      | with_reducible apply State.wr_ok
      | with_reducible apply State.wr_no
      | with_reducible apply State.wr_ok
      | (intro x; exact ⟨rfl, rfl, rfl, rfl, fun _ => ⟨rfl, rfl, rfl⟩⟩)
      | (intro x; exact ⟨rfl, rfl, rfl, rfl, fun hlt => absurd hlt (by omega)⟩)
      | (intro x; refine ⟨fun _ => ?_, fun _ => ?_⟩ <;> first | omega | ((repeat' apply And.intro) <;> rfl))
      | (intro x; exact .inr ⟨rfl, .inl (Nat.le_refl _)⟩)
      | (intro x; rfl)
      | (intro x; exact Stand.same_withArm x _ _ rfl rfl)
      | exact Job.splices_same
      | exact Job.breaks_same
      | exact Job.chargeConsumed_same _ _
      | (intro j; exact ⟨rfl, id, fun _ => ⟨rfl, rfl, rfl⟩⟩)
      | (intro j; exact ⟨rfl, id, fun hlt => absurd hlt (by omega)⟩)
      | (intro x; exact ⟨fun b => b, fun _ => ⟨rfl, rfl, rfl, rfl, rfl⟩⟩)
      | (intro x; exact ⟨fun b => ⟨by omega, by (try split) <;> simp_all [Station.bounded], b.2.2⟩, fun hlt => absurd hlt (by omega)⟩)
      | omega

theorem State.wr_readJob (h : Wr k s₀ s) (_hk : 4 ≤ k) (j : Nat) : Wr k s₀ (s.readJob j).state := by
  unfold State.readJob
  try dsimp only
  repeat' first
      | with_reducible assumption
      | split
      | with_reducible apply State.wr_no
      | with_reducible apply State.wr_okWith
      | (intro x; exact ⟨rfl, rfl, rfl, rfl, fun _ => ⟨rfl, rfl, rfl⟩⟩)
      | (intro x; exact ⟨rfl, rfl, rfl, rfl, fun hlt => absurd hlt (by omega)⟩)
      | (intro x; refine ⟨fun _ => ?_, fun _ => ?_⟩ <;> first | omega | ((repeat' apply And.intro) <;> rfl))
      | (intro x; exact .inr ⟨rfl, .inl (Nat.le_refl _)⟩)
      | (intro x; rfl)
      | (intro x; exact Stand.same_withArm x _ _ rfl rfl)
      | exact Job.splices_same
      | exact Job.breaks_same
      | exact Job.chargeConsumed_same _ _
      | (intro j; exact ⟨rfl, id, fun _ => ⟨rfl, rfl, rfl⟩⟩)
      | (intro j; exact ⟨rfl, id, fun hlt => absurd hlt (by omega)⟩)
      | (intro x; exact ⟨fun b => b, fun _ => ⟨rfl, rfl, rfl, rfl, rfl⟩⟩)
      | (intro x; exact ⟨fun b => ⟨by omega, by (try split) <;> simp_all [Station.bounded], b.2.2⟩, fun hlt => absurd hlt (by omega)⟩)
      | omega

theorem State.wr_readNextJob (h : Wr k s₀ s) (_hk : 4 ≤ k) (j : Nat) : Wr k s₀ (s.readNextJob j).state := by
  unfold State.readNextJob
  try dsimp only
  repeat' first
      | with_reducible assumption
      | split
      | with_reducible apply State.wr_ok
      | with_reducible apply State.wr_no
      | with_reducible apply State.wr_okWith
      | with_reducible apply State.wr_ok
      | (intro x; exact ⟨rfl, rfl, rfl, rfl, fun _ => ⟨rfl, rfl, rfl⟩⟩)
      | (intro x; exact ⟨rfl, rfl, rfl, rfl, fun hlt => absurd hlt (by omega)⟩)
      | (intro x; refine ⟨fun _ => ?_, fun _ => ?_⟩ <;> first | omega | ((repeat' apply And.intro) <;> rfl))
      | (intro x; exact .inr ⟨rfl, .inl (Nat.le_refl _)⟩)
      | (intro x; rfl)
      | (intro x; exact Stand.same_withArm x _ _ rfl rfl)
      | exact Job.splices_same
      | exact Job.breaks_same
      | exact Job.chargeConsumed_same _ _
      | (intro j; exact ⟨rfl, id, fun _ => ⟨rfl, rfl, rfl⟩⟩)
      | (intro j; exact ⟨rfl, id, fun hlt => absurd hlt (by omega)⟩)
      | (intro x; exact ⟨fun b => b, fun _ => ⟨rfl, rfl, rfl, rfl, rfl⟩⟩)
      | (intro x; exact ⟨fun b => ⟨by omega, by (try split) <;> simp_all [Station.bounded], b.2.2⟩, fun hlt => absurd hlt (by omega)⟩)
      | omega

theorem State.wr_retireJobRequest (h : Wr k s₀ s) (hk : 4 ≤ k) (j : Nat) : Wr k s₀ (s.retireJobRequest j).state := by
  unfold State.retireJobRequest
  repeat' split
  all_goals first
    | exact h
    | exact h.putJob hk j (by intro x hx; cases hx)

theorem State.wr_copy (h : Wr k s₀ s) (hk : 4 ≤ k) (l : Nat) : Wr k s₀ (s.copy l) := by
  unfold State.copy
  try dsimp only
  repeat' first
      | with_reducible assumption
      | split
      | with_reducible apply State.wr_countCopy
      | with_reducible apply State.wr_takeChangeover
      | (intro x; exact ⟨rfl, rfl, rfl, rfl, fun _ => ⟨rfl, rfl, rfl⟩⟩)
      | (intro x; exact ⟨rfl, rfl, rfl, rfl, fun hlt => absurd hlt (by omega)⟩)
      | (intro x; refine ⟨fun _ => ?_, fun _ => ?_⟩ <;> first | omega | ((repeat' apply And.intro) <;> rfl))
      | (intro x; exact .inr ⟨rfl, .inl (Nat.le_refl _)⟩)
      | (intro x; rfl)
      | (intro x; exact Stand.same_withArm x _ _ rfl rfl)
      | exact Job.splices_same
      | exact Job.breaks_same
      | exact Job.chargeConsumed_same _ _
      | (intro j; exact ⟨rfl, id, fun _ => ⟨rfl, rfl, rfl⟩⟩)
      | (intro j; exact ⟨rfl, id, fun hlt => absurd hlt (by omega)⟩)
      | (intro x; exact ⟨fun b => b, fun _ => ⟨rfl, rfl, rfl, rfl, rfl⟩⟩)
      | (intro x; exact ⟨fun b => ⟨by omega, by (try split) <;> simp_all [Station.bounded], b.2.2⟩, fun hlt => absurd hlt (by omega)⟩)
      | omega

theorem State.wr_consoleGoodAt (h : Wr k s₀ s) (hk : 4 ≤ k) (a l : Nat) : Wr k s₀ (s.consoleGoodAt a l) := by
  unfold State.consoleGoodAt
  try dsimp only
  repeat' first
      | with_reducible assumption
      | split
      | with_reducible apply State.wr_modLine
      | with_reducible apply State.wr_splice
      | with_reducible apply State.wr_accept
      | with_reducible apply State.wr_refuse
      | (intro x; exact ⟨rfl, rfl, rfl, rfl, fun _ => ⟨rfl, rfl, rfl⟩⟩)
      | (intro x; exact ⟨rfl, rfl, rfl, rfl, fun hlt => absurd hlt (by omega)⟩)
      | (intro x; refine ⟨fun _ => ?_, fun _ => ?_⟩ <;> first | omega | ((repeat' apply And.intro) <;> rfl))
      | (intro x; exact .inr ⟨rfl, .inl (Nat.le_refl _)⟩)
      | (intro x; rfl)
      | (intro x; exact Stand.same_withArm x _ _ rfl rfl)
      | exact Job.splices_same
      | exact Job.breaks_same
      | exact Job.chargeConsumed_same _ _
      | (intro j; exact ⟨rfl, id, fun _ => ⟨rfl, rfl, rfl⟩⟩)
      | (intro j; exact ⟨rfl, id, fun hlt => absurd hlt (by omega)⟩)
      | (intro x; exact ⟨fun b => b, fun _ => ⟨rfl, rfl, rfl, rfl, rfl⟩⟩)
      | (intro x; exact ⟨fun b => ⟨by omega, by (try split) <;> simp_all [Station.bounded], b.2.2⟩, fun hlt => absurd hlt (by omega)⟩)
      | omega

theorem State.wr_readStandRequest (h : Wr k s₀ s) (_hk : 4 ≤ k) (st : Nat) : Wr k s₀ (s.readStandRequest st).state := by
  unfold State.readStandRequest
  try dsimp only
  repeat' first
      | with_reducible assumption
      | split
      | with_reducible apply State.wr_no
      | with_reducible apply State.wr_okWith
      | (intro x; exact ⟨rfl, rfl, rfl, rfl, fun _ => ⟨rfl, rfl, rfl⟩⟩)
      | (intro x; exact ⟨rfl, rfl, rfl, rfl, fun hlt => absurd hlt (by omega)⟩)
      | (intro x; refine ⟨fun _ => ?_, fun _ => ?_⟩ <;> first | omega | ((repeat' apply And.intro) <;> rfl))
      | (intro x; exact .inr ⟨rfl, .inl (Nat.le_refl _)⟩)
      | (intro x; rfl)
      | (intro x; exact Stand.same_withArm x _ _ rfl rfl)
      | exact Job.splices_same
      | exact Job.breaks_same
      | exact Job.chargeConsumed_same _ _
      | (intro j; exact ⟨rfl, id, fun _ => ⟨rfl, rfl, rfl⟩⟩)
      | (intro j; exact ⟨rfl, id, fun hlt => absurd hlt (by omega)⟩)
      | (intro x; exact ⟨fun b => b, fun _ => ⟨rfl, rfl, rfl, rfl, rfl⟩⟩)
      | (intro x; exact ⟨fun b => ⟨by omega, by (try split) <;> simp_all [Station.bounded], b.2.2⟩, fun hlt => absurd hlt (by omega)⟩)
      | omega

theorem State.wr_setStandRequest (h : Wr k s₀ s) (hk : 4 ≤ k) (st m q offset tol pulse loading : Nat) :
    Wr k s₀ (s.setStandRequest st m q offset tol pulse loading).state := by
  unfold State.setStandRequest
  extract_lets _ s1 s2
  have h1 : Wr k s₀ s1 := by
    refine h.stand ⟨fun hlt => absurd hlt (by omega), fun hlt => absurd hlt (by omega)⟩ fun ho => ?_
    unfold Stand.configured
    dsimp only
    split <;> exact ho
  have h2 : Wr k s₀ s2 := by
    dsimp only [s2]
    split
    · exact State.wr_runoutTest h1 (by omega) st
    · exact h1
  repeat' split
  all_goals first
    | exact h
    | exact State.wr_evalCallOff h2 st
    | exact h2

theorem State.wr_clearLineChannels (h : Wr k s₀ s) (hk : 1 ≤ k) (l : Nat) : Wr k s₀ (s.clearLineChannels l) :=
  State.wr_each h _ _ fun n _ ht => State.wr_modStand ht n _ fun _ => ⟨fun _ => ⟨rfl, rfl, rfl, rfl, rfl, rfl, rfl⟩, fun hlt => absurd hlt (by omega)⟩

theorem State.wr_setLineRequest (h : Wr k s₀ s) (hk : 4 ≤ k) (l lam w : Nat) (e : Enables) : Wr k s₀ (s.setLineRequest l lam w e).state := by
  unfold State.setLineRequest
  try dsimp only
  repeat' first
      | with_reducible assumption
      | split
      | with_reducible apply State.wr_modLine
      | with_reducible apply State.wr_sourceActive
      | with_reducible apply State.wr_ok
      | with_reducible apply State.wr_no
      | with_reducible apply State.wr_ok
      | with_reducible apply State.wr_clearLineChannels
      | (intro x; exact ⟨rfl, rfl, rfl, rfl, fun _ => ⟨rfl, rfl, rfl⟩⟩)
      | (intro x; exact ⟨rfl, rfl, rfl, rfl, fun hlt => absurd hlt (by omega)⟩)
      | (intro x; refine ⟨fun _ => ?_, fun _ => ?_⟩ <;> first | omega | ((repeat' apply And.intro) <;> rfl))
      | (intro x; exact .inr ⟨rfl, .inl (Nat.le_refl _)⟩)
      | (intro x; rfl)
      | (intro x; exact Stand.same_withArm x _ _ rfl rfl)
      | exact Job.splices_same
      | exact Job.breaks_same
      | exact Job.chargeConsumed_same _ _
      | (intro j; exact ⟨rfl, id, fun _ => ⟨rfl, rfl, rfl⟩⟩)
      | (intro j; exact ⟨rfl, id, fun hlt => absurd hlt (by omega)⟩)
      | (intro x; exact ⟨fun b => b, fun _ => ⟨rfl, rfl, rfl, rfl, rfl⟩⟩)
      | (intro x; exact ⟨fun b => ⟨by omega, by (try split) <;> simp_all [Station.bounded], b.2.2⟩, fun hlt => absurd hlt (by omega)⟩)
      | omega

theorem State.wr_stopLineRequest (h : Wr k s₀ s) (hk : 4 ≤ k) (l : Nat) : Wr k s₀ (s.stopLineRequest l).state := by
  unfold State.stopLineRequest
  try dsimp only
  repeat' first
      | with_reducible assumption
      | split
      | with_reducible apply State.wr_sourceActive
      | with_reducible apply State.wr_ok
      | with_reducible apply State.wr_no
      | with_reducible apply State.wr_ok
      | (intro x; exact ⟨rfl, rfl, rfl, rfl, fun _ => ⟨rfl, rfl, rfl⟩⟩)
      | (intro x; exact ⟨rfl, rfl, rfl, rfl, fun hlt => absurd hlt (by omega)⟩)
      | (intro x; refine ⟨fun _ => ?_, fun _ => ?_⟩ <;> first | omega | ((repeat' apply And.intro) <;> rfl))
      | (intro x; exact .inr ⟨rfl, .inl (Nat.le_refl _)⟩)
      | (intro x; rfl)
      | (intro x; exact Stand.same_withArm x _ _ rfl rfl)
      | exact Job.splices_same
      | exact Job.breaks_same
      | exact Job.chargeConsumed_same _ _
      | (intro j; exact ⟨rfl, id, fun _ => ⟨rfl, rfl, rfl⟩⟩)
      | (intro j; exact ⟨rfl, id, fun hlt => absurd hlt (by omega)⟩)
      | (intro x; exact ⟨fun b => b, fun _ => ⟨rfl, rfl, rfl, rfl, rfl⟩⟩)
      | (intro x; exact ⟨fun b => ⟨by omega, by (try split) <;> simp_all [Station.bounded], b.2.2⟩, fun hlt => absurd hlt (by omega)⟩)
      | omega

theorem State.wr_restartLineRequest (h : Wr k s₀ s) (hk : 4 ≤ k) (l : Nat) : Wr k s₀ (s.restartLineRequest l).state := by
  unfold State.restartLineRequest
  try dsimp only
  repeat' first
      | with_reducible assumption
      | split
      | with_reducible apply State.wr_leaveBreak
      | with_reducible apply State.wr_ok
      | with_reducible apply State.wr_no
      | with_reducible apply State.wr_ok
      | (intro x; exact ⟨rfl, rfl, rfl, rfl, fun _ => ⟨rfl, rfl, rfl⟩⟩)
      | (intro x; exact ⟨rfl, rfl, rfl, rfl, fun hlt => absurd hlt (by omega)⟩)
      | (intro x; refine ⟨fun _ => ?_, fun _ => ?_⟩ <;> first | omega | ((repeat' apply And.intro) <;> rfl))
      | (intro x; exact .inr ⟨rfl, .inl (Nat.le_refl _)⟩)
      | (intro x; rfl)
      | (intro x; exact Stand.same_withArm x _ _ rfl rfl)
      | exact Job.splices_same
      | exact Job.breaks_same
      | exact Job.chargeConsumed_same _ _
      | (intro j; exact ⟨rfl, id, fun _ => ⟨rfl, rfl, rfl⟩⟩)
      | (intro j; exact ⟨rfl, id, fun hlt => absurd hlt (by omega)⟩)
      | (intro x; exact ⟨fun b => b, fun _ => ⟨rfl, rfl, rfl, rfl, rfl⟩⟩)
      | (intro x; exact ⟨fun b => ⟨by omega, by (try split) <;> simp_all [Station.bounded], b.2.2⟩, fun hlt => absurd hlt (by omega)⟩)
      | omega

theorem State.wr_consoleStopAt (h : Wr k s₀ s) (hk : 4 ≤ k) (a l : Nat) : Wr k s₀ (s.consoleStopAt a l) := by
  unfold State.consoleStopAt
  try dsimp only
  repeat' first
      | with_reducible assumption
      | split
      | with_reducible apply State.wr_sourceActive
      | with_reducible apply State.wr_accept
      | with_reducible apply State.wr_refuse
      | (intro x; exact ⟨rfl, rfl, rfl, rfl, fun _ => ⟨rfl, rfl, rfl⟩⟩)
      | (intro x; exact ⟨rfl, rfl, rfl, rfl, fun hlt => absurd hlt (by omega)⟩)
      | (intro x; refine ⟨fun _ => ?_, fun _ => ?_⟩ <;> first | omega | ((repeat' apply And.intro) <;> rfl))
      | (intro x; exact .inr ⟨rfl, .inl (Nat.le_refl _)⟩)
      | (intro x; rfl)
      | (intro x; exact Stand.same_withArm x _ _ rfl rfl)
      | exact Job.splices_same
      | exact Job.breaks_same
      | exact Job.chargeConsumed_same _ _
      | (intro j; exact ⟨rfl, id, fun _ => ⟨rfl, rfl, rfl⟩⟩)
      | (intro j; exact ⟨rfl, id, fun hlt => absurd hlt (by omega)⟩)
      | (intro x; exact ⟨fun b => b, fun _ => ⟨rfl, rfl, rfl, rfl, rfl⟩⟩)
      | (intro x; exact ⟨fun b => ⟨by omega, by (try split) <;> simp_all [Station.bounded], b.2.2⟩, fun hlt => absurd hlt (by omega)⟩)
      | omega

theorem State.wr_consoleRestartAt (h : Wr k s₀ s) (hk : 4 ≤ k) (a l : Nat) : Wr k s₀ (s.consoleRestartAt a l) := by
  unfold State.consoleRestartAt
  try dsimp only
  repeat' first
      | with_reducible assumption
      | split
      | with_reducible apply State.wr_leaveBreak
      | with_reducible apply State.wr_accept
      | with_reducible apply State.wr_refuse
      | (intro x; exact ⟨rfl, rfl, rfl, rfl, fun _ => ⟨rfl, rfl, rfl⟩⟩)
      | (intro x; exact ⟨rfl, rfl, rfl, rfl, fun hlt => absurd hlt (by omega)⟩)
      | (intro x; refine ⟨fun _ => ?_, fun _ => ?_⟩ <;> first | omega | ((repeat' apply And.intro) <;> rfl))
      | (intro x; exact .inr ⟨rfl, .inl (Nat.le_refl _)⟩)
      | (intro x; rfl)
      | (intro x; exact Stand.same_withArm x _ _ rfl rfl)
      | exact Job.splices_same
      | exact Job.breaks_same
      | exact Job.chargeConsumed_same _ _
      | (intro j; exact ⟨rfl, id, fun _ => ⟨rfl, rfl, rfl⟩⟩)
      | (intro j; exact ⟨rfl, id, fun hlt => absurd hlt (by omega)⟩)
      | (intro x; exact ⟨fun b => b, fun _ => ⟨rfl, rfl, rfl, rfl, rfl⟩⟩)
      | (intro x; exact ⟨fun b => ⟨by omega, by (try split) <;> simp_all [Station.bounded], b.2.2⟩, fun hlt => absurd hlt (by omega)⟩)
      | omega

theorem State.wr_spliceNowAt (h : Wr k s₀ s) (_hk : 4 ≤ k) (a : Nat) (role : Role) (st : Nat) : Wr k s₀ (s.spliceNowAt a role st) := by
  unfold State.spliceNowAt
  try dsimp only
  repeat' first
      | with_reducible assumption
      | split
      | with_reducible apply State.wr_firePaste
      | with_reducible apply State.wr_accept
      | with_reducible apply State.wr_refuse
      | (intro x; exact ⟨rfl, rfl, rfl, rfl, fun _ => ⟨rfl, rfl, rfl⟩⟩)
      | (intro x; exact ⟨rfl, rfl, rfl, rfl, fun hlt => absurd hlt (by omega)⟩)
      | (intro x; refine ⟨fun _ => ?_, fun _ => ?_⟩ <;> first | omega | ((repeat' apply And.intro) <;> rfl))
      | (intro x; exact .inr ⟨rfl, .inl (Nat.le_refl _)⟩)
      | (intro x; rfl)
      | (intro x; exact Stand.same_withArm x _ _ rfl rfl)
      | exact Job.splices_same
      | exact Job.breaks_same
      | exact Job.chargeConsumed_same _ _
      | (intro j; exact ⟨rfl, id, fun _ => ⟨rfl, rfl, rfl⟩⟩)
      | (intro j; exact ⟨rfl, id, fun hlt => absurd hlt (by omega)⟩)
      | (intro x; exact ⟨fun b => b, fun _ => ⟨rfl, rfl, rfl, rfl, rfl⟩⟩)
      | (intro x; exact ⟨fun b => ⟨by omega, by (try split) <;> simp_all [Station.bounded], b.2.2⟩, fun hlt => absurd hlt (by omega)⟩)
      | omega

theorem State.wr_armMismatch (h : Wr k s₀ s) (_hk : 4 ≤ k) (a : Nat) (kd : Report) (r : ArmRec) : Wr k s₀ (s.armMismatch a kd r) := by
  unfold State.armMismatch
  try dsimp only
  repeat' first
      | with_reducible assumption
      | split
      | with_reducible apply State.wr_raise
      | with_reducible apply State.wr_refuse
      | (intro x; exact ⟨rfl, rfl, rfl, rfl, fun _ => ⟨rfl, rfl, rfl⟩⟩)
      | (intro x; exact ⟨rfl, rfl, rfl, rfl, fun hlt => absurd hlt (by omega)⟩)
      | (intro x; refine ⟨fun _ => ?_, fun _ => ?_⟩ <;> first | omega | ((repeat' apply And.intro) <;> rfl))
      | (intro x; exact .inr ⟨rfl, .inl (Nat.le_refl _)⟩)
      | (intro x; rfl)
      | (intro x; exact Stand.same_withArm x _ _ rfl rfl)
      | exact Job.splices_same
      | exact Job.breaks_same
      | exact Job.chargeConsumed_same _ _
      | (intro j; exact ⟨rfl, id, fun _ => ⟨rfl, rfl, rfl⟩⟩)
      | (intro j; exact ⟨rfl, id, fun hlt => absurd hlt (by omega)⟩)
      | (intro x; exact ⟨fun b => b, fun _ => ⟨rfl, rfl, rfl, rfl, rfl⟩⟩)
      | (intro x; exact ⟨fun b => ⟨by omega, by (try split) <;> simp_all [Station.bounded], b.2.2⟩, fun hlt => absurd hlt (by omega)⟩)
      | (constructor <;> intro hk' <;> first | omega | exact nofun)
      | omega

theorem State.wr_chargeStrip (h : Wr k s₀ s) (hk : 4 ≤ k) (st : Nat) (r : Roll) (before after : Nat) : Wr k s₀ (s.chargeStrip st r before after) := by
  unfold State.chargeStrip
  try dsimp only
  repeat' first
      | with_reducible assumption
      | split
      | with_reducible apply State.wr_modJobAt
      | (intro x; exact ⟨rfl, rfl, rfl, rfl, fun _ => ⟨rfl, rfl, rfl⟩⟩)
      | (intro x; exact ⟨rfl, rfl, rfl, rfl, fun hlt => absurd hlt (by omega)⟩)
      | (intro x; refine ⟨fun _ => ?_, fun _ => ?_⟩ <;> first | omega | ((repeat' apply And.intro) <;> rfl))
      | (intro x; exact .inr ⟨rfl, .inl (Nat.le_refl _)⟩)
      | (intro x; rfl)
      | (intro x; exact Stand.same_withArm x _ _ rfl rfl)
      | exact Job.splices_same
      | exact Job.breaks_same
      | exact Job.chargeConsumed_same _ _
      | (intro j; exact ⟨rfl, id, fun _ => ⟨rfl, rfl, rfl⟩⟩)
      | (intro j; exact ⟨rfl, id, fun hlt => absurd hlt (by omega)⟩)
      | (intro x; exact ⟨fun b => b, fun _ => ⟨rfl, rfl, rfl, rfl, rfl⟩⟩)
      | (intro x; exact ⟨fun b => ⟨by omega, by (try split) <;> simp_all [Station.bounded], b.2.2⟩, fun hlt => absurd hlt (by omega)⟩)
      | exact Job.chargeStrip_same _ _
      | exact Job.chargeStub_same _ _
      | omega

theorem State.wr_prepareAt (h : Wr k s₀ s) (hk : 4 ≤ k) (a st : Nat) (arm : Arm) (n : Nat) (r : Roll) (after before : Nat) : Wr k s₀ (s.prepareAt a st arm n r after before) := by
  unfold State.prepareAt
  try dsimp only
  repeat' first
      | with_reducible assumption
      | split
      | with_reducible apply State.wr_prepare
      | with_reducible apply State.wr_tryArm
      | with_reducible apply State.wr_accept
      | with_reducible apply State.wr_refuse
      | with_reducible apply State.wr_chargeStrip
      | (intro x; exact ⟨rfl, rfl, rfl, rfl, fun _ => ⟨rfl, rfl, rfl⟩⟩)
      | (intro x; exact ⟨rfl, rfl, rfl, rfl, fun hlt => absurd hlt (by omega)⟩)
      | (intro x; refine ⟨fun _ => ?_, fun _ => ?_⟩ <;> first | omega | ((repeat' apply And.intro) <;> rfl))
      | (intro x; exact .inr ⟨rfl, .inl (Nat.le_refl _)⟩)
      | (intro x; rfl)
      | (intro x; exact Stand.same_withArm x _ _ rfl rfl)
      | exact Job.splices_same
      | exact Job.breaks_same
      | exact Job.chargeConsumed_same _ _
      | (intro j; exact ⟨rfl, id, fun _ => ⟨rfl, rfl, rfl⟩⟩)
      | (intro j; exact ⟨rfl, id, fun hlt => absurd hlt (by omega)⟩)
      | (intro x; exact ⟨fun b => b, fun _ => ⟨rfl, rfl, rfl, rfl, rfl⟩⟩)
      | (intro x; exact ⟨fun b => ⟨by omega, by (try split) <;> simp_all [Station.bounded], b.2.2⟩, fun hlt => absurd hlt (by omega)⟩)
      | exact Job.chargeStrip_same _ _
      | exact Job.chargeStub_same _ _
      | omega

theorem State.wr_prepDoneAt (h : Wr k s₀ s) (hk : 4 ≤ k) (a st : Nat) (arm : Arm) (after before : Nat) : Wr k s₀ (s.prepDoneAt a st arm after before) := by
  unfold State.prepDoneAt
  try dsimp only
  repeat' first
      | with_reducible assumption
      | split
      | with_reducible apply State.wr_accept
      | with_reducible apply State.wr_armMismatch
      | with_reducible apply State.wr_prepareAt
      | (intro x; exact ⟨rfl, rfl, rfl, rfl, fun _ => ⟨rfl, rfl, rfl⟩⟩)
      | (intro x; exact ⟨rfl, rfl, rfl, rfl, fun hlt => absurd hlt (by omega)⟩)
      | (intro x; refine ⟨fun _ => ?_, fun _ => ?_⟩ <;> first | omega | ((repeat' apply And.intro) <;> rfl))
      | (intro x; exact .inr ⟨rfl, .inl (Nat.le_refl _)⟩)
      | (intro x; rfl)
      | (intro x; exact Stand.same_withArm x _ _ rfl rfl)
      | exact Job.splices_same
      | exact Job.breaks_same
      | exact Job.chargeConsumed_same _ _
      | (intro j; exact ⟨rfl, id, fun _ => ⟨rfl, rfl, rfl⟩⟩)
      | (intro j; exact ⟨rfl, id, fun hlt => absurd hlt (by omega)⟩)
      | (intro x; exact ⟨fun b => b, fun _ => ⟨rfl, rfl, rfl, rfl, rfl⟩⟩)
      | (intro x; exact ⟨fun b => ⟨by omega, by (try split) <;> simp_all [Station.bounded], b.2.2⟩, fun hlt => absurd hlt (by omega)⟩)
      | exact Job.chargeStrip_same _ _
      | exact Job.chargeStub_same _ _
      | omega

theorem State.wr_stubFull (h : Wr k s₀ s) (_hk : 4 ≤ k) (a st : Nat) : Wr k s₀ (s.stubFull a st) := by
  unfold State.stubFull
  try dsimp only
  repeat' first
      | with_reducible assumption
      | split
      | with_reducible apply State.wr_raise
      | with_reducible apply State.wr_storeFull
      | with_reducible apply State.wr_refuse
      | (intro x; exact ⟨rfl, rfl, rfl, rfl, fun _ => ⟨rfl, rfl, rfl⟩⟩)
      | (intro x; exact ⟨rfl, rfl, rfl, rfl, fun hlt => absurd hlt (by omega)⟩)
      | (intro x; refine ⟨fun _ => ?_, fun _ => ?_⟩ <;> first | omega | ((repeat' apply And.intro) <;> rfl))
      | (intro x; exact .inr ⟨rfl, .inl (Nat.le_refl _)⟩)
      | (intro x; rfl)
      | (intro x; exact Stand.same_withArm x _ _ rfl rfl)
      | exact Job.splices_same
      | exact Job.breaks_same
      | exact Job.chargeConsumed_same _ _
      | (intro j; exact ⟨rfl, id, fun _ => ⟨rfl, rfl, rfl⟩⟩)
      | (intro j; exact ⟨rfl, id, fun hlt => absurd hlt (by omega)⟩)
      | (intro x; exact ⟨fun b => b, fun _ => ⟨rfl, rfl, rfl, rfl, rfl⟩⟩)
      | (intro x; exact ⟨fun b => ⟨by omega, by (try split) <;> simp_all [Station.bounded], b.2.2⟩, fun hlt => absurd hlt (by omega)⟩)
      | exact Job.chargeStrip_same _ _
      | exact Job.chargeStub_same _ _
      | (constructor <;> intro hk' <;> first | omega | exact nofun)
      | omega

theorem State.wr_chargeStub (h : Wr k s₀ s) (hk : 4 ≤ k) (r : Roll) (d : Nat) : Wr k s₀ (s.chargeStub r d) := by
  unfold State.chargeStub
  try dsimp only
  repeat' first
      | with_reducible assumption
      | split
      | with_reducible apply State.wr_modJobAt
      | (intro x; exact ⟨rfl, rfl, rfl, rfl, fun _ => ⟨rfl, rfl, rfl⟩⟩)
      | (intro x; exact ⟨rfl, rfl, rfl, rfl, fun hlt => absurd hlt (by omega)⟩)
      | (intro x; refine ⟨fun _ => ?_, fun _ => ?_⟩ <;> first | omega | ((repeat' apply And.intro) <;> rfl))
      | (intro x; exact .inr ⟨rfl, .inl (Nat.le_refl _)⟩)
      | (intro x; rfl)
      | (intro x; exact Stand.same_withArm x _ _ rfl rfl)
      | exact Job.splices_same
      | exact Job.breaks_same
      | exact Job.chargeConsumed_same _ _
      | (intro j; exact ⟨rfl, id, fun _ => ⟨rfl, rfl, rfl⟩⟩)
      | (intro j; exact ⟨rfl, id, fun hlt => absurd hlt (by omega)⟩)
      | (intro x; exact ⟨fun b => b, fun _ => ⟨rfl, rfl, rfl, rfl, rfl⟩⟩)
      | (intro x; exact ⟨fun b => ⟨by omega, by (try split) <;> simp_all [Station.bounded], b.2.2⟩, fun hlt => absurd hlt (by omega)⟩)
      | exact Job.chargeStrip_same _ _
      | exact Job.chargeStub_same _ _
      | omega

theorem State.wr_stubAway (h : Wr k s₀ s) (hk : 4 ≤ k) (st : Nat) (arm : Arm) (n : Nat) (r : Roll) (measured : Option Nat) (d : Nat) :
    Wr k s₀ (s.stubAway st arm n r measured d) := by
  unfold State.stubAway
  dsimp only
  split
  · exact State.wr_retireRecord (State.wr_chargeStub h hk r d) (by omega) n r
  · split
    · next e => exact State.wr_stubReturn (State.wr_createOrder h _ e) (by omega) _ _ _ _ _ _
    · exact h

theorem State.wr_stubOffExpired (h : Wr k s₀ s) (hk : 4 ≤ k) (a st : Nat) (arm : Arm) (n : Nat) (r : Roll) (measured : Option Nat) : Wr k s₀ (s.stubOffExpired a st arm n r measured) := by
  unfold State.stubOffExpired
  try dsimp only
  repeat' first
      | with_reducible assumption
      | split
      | with_reducible apply State.wr_evalCallOff
      | with_reducible apply State.wr_accept
      | with_reducible apply State.wr_stubFull
      | with_reducible apply State.wr_stubAway
      | (intro x; exact ⟨rfl, rfl, rfl, rfl, fun _ => ⟨rfl, rfl, rfl⟩⟩)
      | (intro x; exact ⟨rfl, rfl, rfl, rfl, fun hlt => absurd hlt (by omega)⟩)
      | (intro x; refine ⟨fun _ => ?_, fun _ => ?_⟩ <;> first | omega | ((repeat' apply And.intro) <;> rfl))
      | (intro x; exact .inr ⟨rfl, .inl (Nat.le_refl _)⟩)
      | (intro x; rfl)
      | (intro x; exact Stand.same_withArm x _ _ rfl rfl)
      | exact Job.splices_same
      | exact Job.breaks_same
      | exact Job.chargeConsumed_same _ _
      | (intro j; exact ⟨rfl, id, fun _ => ⟨rfl, rfl, rfl⟩⟩)
      | (intro j; exact ⟨rfl, id, fun hlt => absurd hlt (by omega)⟩)
      | (intro x; exact ⟨fun b => b, fun _ => ⟨rfl, rfl, rfl, rfl, rfl⟩⟩)
      | (intro x; exact ⟨fun b => ⟨by omega, by (try split) <;> simp_all [Station.bounded], b.2.2⟩, fun hlt => absurd hlt (by omega)⟩)
      | exact Job.chargeStrip_same _ _
      | exact Job.chargeStub_same _ _
      | omega

theorem State.wr_stubOffRunout (h : Wr k s₀ s) (hk : 4 ≤ k) (a st : Nat) (arm : Arm) (n : Nat) (r : Roll) (measured : Option Nat) : Wr k s₀ (s.stubOffRunout a st arm n r measured) := by
  unfold State.stubOffRunout
  try dsimp only
  repeat' first
      | with_reducible assumption
      | split
      | with_reducible apply State.wr_modStand
      | with_reducible apply State.wr_expire
      | with_reducible apply State.wr_handTs
      | with_reducible apply State.wr_accept
      | with_reducible apply State.wr_stubFull
      | with_reducible apply State.wr_stubAway
      | (intro x; exact ⟨rfl, rfl, rfl, rfl, fun _ => ⟨rfl, rfl, rfl⟩⟩)
      | (intro x; exact ⟨rfl, rfl, rfl, rfl, fun hlt => absurd hlt (by omega)⟩)
      | (intro x; refine ⟨fun _ => ?_, fun _ => ?_⟩ <;> first | omega | ((repeat' apply And.intro) <;> rfl))
      | (intro x; exact .inr ⟨rfl, .inl (Nat.le_refl _)⟩)
      | (intro x; rfl)
      | (intro x; exact Stand.same_withArm x _ _ rfl rfl)
      | exact Job.splices_same
      | exact Job.breaks_same
      | exact Job.chargeConsumed_same _ _
      | (intro j; exact ⟨rfl, id, fun _ => ⟨rfl, rfl, rfl⟩⟩)
      | (intro j; exact ⟨rfl, id, fun hlt => absurd hlt (by omega)⟩)
      | (intro x; exact ⟨fun b => b, fun _ => ⟨rfl, rfl, rfl, rfl, rfl⟩⟩)
      | (intro x; exact ⟨fun b => ⟨by omega, by (try split) <;> simp_all [Station.bounded], b.2.2⟩, fun hlt => absurd hlt (by omega)⟩)
      | exact Job.chargeStrip_same _ _
      | exact Job.chargeStub_same _ _
      | exact fun _ h => h
      | omega

theorem State.wr_stubOffAt (h : Wr k s₀ s) (hk : 4 ≤ k) (a st : Nat) (arm : Arm) (measured : Option Nat) : Wr k s₀ (s.stubOffAt a st arm measured) := by
  unfold State.stubOffAt
  try dsimp only
  repeat' first
      | with_reducible assumption
      | split
      | with_reducible apply State.wr_refuse
      | with_reducible apply State.wr_armMismatch
      | with_reducible apply State.wr_stubOffExpired
      | with_reducible apply State.wr_stubOffRunout
      | (intro x; exact ⟨rfl, rfl, rfl, rfl, fun _ => ⟨rfl, rfl, rfl⟩⟩)
      | (intro x; exact ⟨rfl, rfl, rfl, rfl, fun hlt => absurd hlt (by omega)⟩)
      | (intro x; refine ⟨fun _ => ?_, fun _ => ?_⟩ <;> first | omega | ((repeat' apply And.intro) <;> rfl))
      | (intro x; exact .inr ⟨rfl, .inl (Nat.le_refl _)⟩)
      | (intro x; rfl)
      | (intro x; exact Stand.same_withArm x _ _ rfl rfl)
      | exact Job.splices_same
      | exact Job.breaks_same
      | exact Job.chargeConsumed_same _ _
      | (intro j; exact ⟨rfl, id, fun _ => ⟨rfl, rfl, rfl⟩⟩)
      | (intro j; exact ⟨rfl, id, fun hlt => absurd hlt (by omega)⟩)
      | (intro x; exact ⟨fun b => b, fun _ => ⟨rfl, rfl, rfl, rfl, rfl⟩⟩)
      | (intro x; exact ⟨fun b => ⟨by omega, by (try split) <;> simp_all [Station.bounded], b.2.2⟩, fun hlt => absurd hlt (by omega)⟩)
      | exact Job.chargeStrip_same _ _
      | exact Job.chargeStub_same _ _
      | omega

theorem State.wr_webBreak (h : Wr k s₀ s) (hk : 4 ≤ k) (st : Nat) : Wr k s₀ (s.webBreak st) := by
  unfold State.webBreak
  try dsimp only
  repeat' first
      | with_reducible assumption
      | split
      | with_reducible apply State.wr_modStand
      | with_reducible apply State.wr_sourceActive
      | (intro x; exact ⟨rfl, rfl, rfl, rfl, fun _ => ⟨rfl, rfl, rfl⟩⟩)
      | (intro x; exact ⟨rfl, rfl, rfl, rfl, fun hlt => absurd hlt (by omega)⟩)
      | (intro x; refine ⟨fun _ => ?_, fun _ => ?_⟩ <;> first | omega | ((repeat' apply And.intro) <;> rfl))
      | (intro x; exact .inr ⟨rfl, .inl (Nat.le_refl _)⟩)
      | (intro x; rfl)
      | (intro x; exact Stand.same_withArm x _ _ rfl rfl)
      | exact Job.splices_same
      | exact Job.breaks_same
      | exact Job.chargeConsumed_same _ _
      | (intro j; exact ⟨rfl, id, fun _ => ⟨rfl, rfl, rfl⟩⟩)
      | (intro j; exact ⟨rfl, id, fun hlt => absurd hlt (by omega)⟩)
      | (intro x; exact ⟨fun b => b, fun _ => ⟨rfl, rfl, rfl, rfl, rfl⟩⟩)
      | (intro x; exact ⟨fun b => ⟨by omega, by (try split) <;> simp_all [Station.bounded], b.2.2⟩, fun hlt => absurd hlt (by omega)⟩)
      | exact Job.chargeStrip_same _ _
      | exact Job.chargeStub_same _ _
      | exact fun _ h => h
      | omega

theorem State.wr_folderJam (h : Wr k s₀ s) (hk : 4 ≤ k) (l : Nat) : Wr k s₀ (s.folderJam l) := by
  unfold State.folderJam
  try dsimp only
  repeat' first
      | with_reducible assumption
      | split
      | with_reducible apply State.wr_modLine
      | with_reducible apply State.wr_sourceActive
      | (intro x; exact ⟨rfl, rfl, rfl, rfl, fun _ => ⟨rfl, rfl, rfl⟩⟩)
      | (intro x; exact ⟨rfl, rfl, rfl, rfl, fun hlt => absurd hlt (by omega)⟩)
      | (intro x; refine ⟨fun _ => ?_, fun _ => ?_⟩ <;> first | omega | ((repeat' apply And.intro) <;> rfl))
      | (intro x; exact .inr ⟨rfl, .inl (Nat.le_refl _)⟩)
      | (intro x; rfl)
      | (intro x; exact Stand.same_withArm x _ _ rfl rfl)
      | exact Job.splices_same
      | exact Job.breaks_same
      | exact Job.chargeConsumed_same _ _
      | (intro j; exact ⟨rfl, id, fun _ => ⟨rfl, rfl, rfl⟩⟩)
      | (intro j; exact ⟨rfl, id, fun hlt => absurd hlt (by omega)⟩)
      | (intro x; exact ⟨fun b => b, fun _ => ⟨rfl, rfl, rfl, rfl, rfl⟩⟩)
      | (intro x; exact ⟨fun b => ⟨by omega, by (try split) <;> simp_all [Station.bounded], b.2.2⟩, fun hlt => absurd hlt (by omega)⟩)
      | exact Job.chargeStrip_same _ _
      | exact Job.chargeStub_same _ _
      | omega

theorem State.wr_createMove (h : Wr k s₀ s) (n : Nat) (r : Roll) (d : MoveDest) {o : Nat} {t : State}
    (e : s.createMove n r d = some (o, t)) : Wr k s₀ t := by
  unfold State.createMove at e
  split at e
  · next e2 =>
    cases e
    split
    · exact State.wr_createOrder h _ e2
    · exact State.wr_link (State.wr_createOrder h _ e2) _ _
  · cases e

theorem State.wr_orderMoveRequest (h : Wr k s₀ s) (r : RollRef) (d : MoveDest) : Wr k s₀ (s.orderMoveRequest r d).state := by
  unfold State.orderMoveRequest
  repeat' split
  all_goals first
    | exact h
    | (next e => exact State.wr_createMove h _ _ _ e)

theorem State.wr_cancelLive (h : Wr k s₀ s) (_hk : 4 ≤ k) (n : Nat) (o : Order) : Wr k s₀ (s.cancelLive n o).state := by
  unfold State.cancelLive
  try dsimp only
  repeat' first
      | with_reducible assumption
      | split
      | with_reducible apply State.wr_reviewCallOff
      | with_reducible apply State.wr_freeOrder
      | with_reducible apply State.wr_markAbort
      | with_reducible apply State.wr_convert
      | with_reducible apply State.wr_ok
      | with_reducible apply State.wr_no
      | with_reducible apply State.wr_ok
      | (intro x; exact ⟨rfl, rfl, rfl, rfl, fun _ => ⟨rfl, rfl, rfl⟩⟩)
      | (intro x; exact ⟨rfl, rfl, rfl, rfl, fun hlt => absurd hlt (by omega)⟩)
      | (intro x; refine ⟨fun _ => ?_, fun _ => ?_⟩ <;> first | omega | ((repeat' apply And.intro) <;> rfl))
      | (intro x; exact .inr ⟨rfl, .inl (Nat.le_refl _)⟩)
      | (intro x; rfl)
      | (intro x; exact Stand.same_withArm x _ _ rfl rfl)
      | exact Job.splices_same
      | exact Job.breaks_same
      | exact Job.chargeConsumed_same _ _
      | (intro j; exact ⟨rfl, id, fun _ => ⟨rfl, rfl, rfl⟩⟩)
      | (intro j; exact ⟨rfl, id, fun hlt => absurd hlt (by omega)⟩)
      | (intro x; exact ⟨fun b => b, fun _ => ⟨rfl, rfl, rfl, rfl, rfl⟩⟩)
      | (intro x; exact ⟨fun b => ⟨by omega, by (try split) <;> simp_all [Station.bounded], b.2.2⟩, fun hlt => absurd hlt (by omega)⟩)
      | exact Job.chargeStrip_same _ _
      | exact Job.chargeStub_same _ _
      | omega

theorem State.wr_cancelRequest (h : Wr k s₀ s) (hk : 4 ≤ k) (n : Nat) : Wr k s₀ (s.cancelRequest n).state := by
  unfold State.cancelRequest
  try dsimp only
  repeat' first
      | with_reducible assumption
      | split
      | with_reducible apply State.wr_no
      | with_reducible apply State.wr_cancelLive
      | (intro x; exact ⟨rfl, rfl, rfl, rfl, fun _ => ⟨rfl, rfl, rfl⟩⟩)
      | (intro x; exact ⟨rfl, rfl, rfl, rfl, fun hlt => absurd hlt (by omega)⟩)
      | (intro x; refine ⟨fun _ => ?_, fun _ => ?_⟩ <;> first | omega | ((repeat' apply And.intro) <;> rfl))
      | (intro x; exact .inr ⟨rfl, .inl (Nat.le_refl _)⟩)
      | (intro x; rfl)
      | (intro x; exact Stand.same_withArm x _ _ rfl rfl)
      | exact Job.splices_same
      | exact Job.breaks_same
      | exact Job.chargeConsumed_same _ _
      | (intro j; exact ⟨rfl, id, fun _ => ⟨rfl, rfl, rfl⟩⟩)
      | (intro j; exact ⟨rfl, id, fun hlt => absurd hlt (by omega)⟩)
      | (intro x; exact ⟨fun b => b, fun _ => ⟨rfl, rfl, rfl, rfl, rfl⟩⟩)
      | (intro x; exact ⟨fun b => ⟨by omega, by (try split) <;> simp_all [Station.bounded], b.2.2⟩, fun hlt => absurd hlt (by omega)⟩)
      | exact Job.chargeStrip_same _ _
      | exact Job.chargeStub_same _ _
      | omega

theorem State.wr_readOrder (h : Wr k s₀ s) (_hk : 4 ≤ k) (n : Nat) : Wr k s₀ (s.readOrder n).state := by
  unfold State.readOrder
  try dsimp only
  repeat' first
      | with_reducible assumption
      | split
      | with_reducible apply State.wr_no
      | with_reducible apply State.wr_okWith
      | (intro x; exact ⟨rfl, rfl, rfl, rfl, fun _ => ⟨rfl, rfl, rfl⟩⟩)
      | (intro x; exact ⟨rfl, rfl, rfl, rfl, fun hlt => absurd hlt (by omega)⟩)
      | (intro x; refine ⟨fun _ => ?_, fun _ => ?_⟩ <;> first | omega | ((repeat' apply And.intro) <;> rfl))
      | (intro x; exact .inr ⟨rfl, .inl (Nat.le_refl _)⟩)
      | (intro x; rfl)
      | (intro x; exact Stand.same_withArm x _ _ rfl rfl)
      | exact Job.splices_same
      | exact Job.breaks_same
      | exact Job.chargeConsumed_same _ _
      | (intro j; exact ⟨rfl, id, fun _ => ⟨rfl, rfl, rfl⟩⟩)
      | (intro j; exact ⟨rfl, id, fun hlt => absurd hlt (by omega)⟩)
      | (intro x; exact ⟨fun b => b, fun _ => ⟨rfl, rfl, rfl, rfl, rfl⟩⟩)
      | (intro x; exact ⟨fun b => ⟨by omega, by (try split) <;> simp_all [Station.bounded], b.2.2⟩, fun hlt => absurd hlt (by omega)⟩)
      | exact Job.chargeStrip_same _ _
      | exact Job.chargeStub_same _ _
      | omega

theorem State.wr_readNextOrder (h : Wr k s₀ s) (_hk : 4 ≤ k) (n : Nat) : Wr k s₀ (s.readNextOrder n).state := by
  unfold State.readNextOrder
  try dsimp only
  repeat' first
      | with_reducible assumption
      | split
      | with_reducible apply State.wr_ok
      | with_reducible apply State.wr_no
      | with_reducible apply State.wr_okWith
      | with_reducible apply State.wr_ok
      | (intro x; exact ⟨rfl, rfl, rfl, rfl, fun _ => ⟨rfl, rfl, rfl⟩⟩)
      | (intro x; exact ⟨rfl, rfl, rfl, rfl, fun hlt => absurd hlt (by omega)⟩)
      | (intro x; refine ⟨fun _ => ?_, fun _ => ?_⟩ <;> first | omega | ((repeat' apply And.intro) <;> rfl))
      | (intro x; exact .inr ⟨rfl, .inl (Nat.le_refl _)⟩)
      | (intro x; rfl)
      | (intro x; exact Stand.same_withArm x _ _ rfl rfl)
      | exact Job.splices_same
      | exact Job.breaks_same
      | exact Job.chargeConsumed_same _ _
      | (intro j; exact ⟨rfl, id, fun _ => ⟨rfl, rfl, rfl⟩⟩)
      | (intro j; exact ⟨rfl, id, fun hlt => absurd hlt (by omega)⟩)
      | (intro x; exact ⟨fun b => b, fun _ => ⟨rfl, rfl, rfl, rfl, rfl⟩⟩)
      | (intro x; exact ⟨fun b => ⟨by omega, by (try split) <;> simp_all [Station.bounded], b.2.2⟩, fun hlt => absurd hlt (by omega)⟩)
      | exact Job.chargeStrip_same _ _
      | exact Job.chargeStub_same _ _
      | omega

theorem State.wr_retireOrderRequest (h : Wr k s₀ s) (n : Nat) : Wr k s₀ (s.retireOrderRequest n).state := by
  unfold State.retireOrderRequest
  repeat' split
  all_goals first
    | exact h
    | exact (State.wr_dropRoll h _ _).freeOrder n

theorem State.wr_secondTick (h : Wr k s₀ s) : Wr k s₀ s.secondTick := by
  unfold State.secondTick
  try dsimp only
  repeat' first
      | with_reducible assumption
      | (intro n t ht)
      | split
      | with_reducible apply State.wr_each
      | with_reducible apply State.wr_testUrgent
      | (intro x; exact ⟨rfl, rfl, rfl, rfl, fun _ => ⟨rfl, rfl, rfl⟩⟩)
      | (intro x; exact ⟨rfl, rfl, rfl, rfl, fun hlt => absurd hlt (by omega)⟩)
      | (intro x; refine ⟨fun _ => ?_, fun _ => ?_⟩ <;> first | omega | ((repeat' apply And.intro) <;> rfl))
      | (intro x; exact .inr ⟨rfl, .inl (Nat.le_refl _)⟩)
      | (intro x; rfl)
      | (intro x; exact Stand.same_withArm x _ _ rfl rfl)
      | exact Job.splices_same
      | exact Job.breaks_same
      | exact Job.chargeConsumed_same _ _
      | (intro j; exact ⟨rfl, id, fun _ => ⟨rfl, rfl, rfl⟩⟩)
      | (intro j; exact ⟨rfl, id, fun hlt => absurd hlt (by omega)⟩)
      | (intro x; exact ⟨fun b => b, fun _ => ⟨rfl, rfl, rfl, rfl, rfl⟩⟩)
      | (intro x; exact ⟨fun b => ⟨by omega, by (try split) <;> simp_all [Station.bounded], b.2.2⟩, fun hlt => absurd hlt (by omega)⟩)
      | exact Job.chargeStrip_same _ _
      | exact Job.chargeStub_same _ _
      | omega

theorem State.wr_putOnTrack (h : Wr k s₀ s) (hk : 4 ≤ k) (v x seg : Nat) : Wr k s₀ (s.putOnTrack v x seg) := by
  unfold State.putOnTrack
  try dsimp only
  repeat' first
      | with_reducible assumption
      | split
      | with_reducible apply State.wr_modVehicle
      | with_reducible apply State.wr_modSegment
      | (intro x; exact ⟨rfl, rfl, rfl, rfl, fun _ => ⟨rfl, rfl, rfl⟩⟩)
      | (intro x; exact ⟨rfl, rfl, rfl, rfl, fun hlt => absurd hlt (by omega)⟩)
      | (intro x; refine ⟨fun _ => ?_, fun _ => ?_⟩ <;> first | omega | ((repeat' apply And.intro) <;> rfl))
      | (intro x; exact .inr ⟨rfl, .inl (Nat.le_refl _)⟩)
      | (intro x; rfl)
      | (intro x; exact Stand.same_withArm x _ _ rfl rfl)
      | exact Job.splices_same
      | exact Job.breaks_same
      | exact Job.chargeConsumed_same _ _
      | (intro j; exact ⟨rfl, id, fun _ => ⟨rfl, rfl, rfl⟩⟩)
      | (intro j; exact ⟨rfl, id, fun hlt => absurd hlt (by omega)⟩)
      | (intro x; exact ⟨fun b => b, fun _ => ⟨rfl, rfl, rfl, rfl, rfl⟩⟩)
      | (intro x; exact ⟨fun b => ⟨by omega, by (try split) <;> simp_all [Station.bounded], b.2.2⟩, fun hlt => absurd hlt (by omega)⟩)
      | exact Job.chargeStrip_same _ _
      | exact Job.chargeStub_same _ _
      | omega

theorem State.wr_resumeOrder (h : Wr k s₀ s) (_hk : 4 ≤ k) (v x n : Nat) (o : Order) : Wr k s₀ (s.resumeOrder v x n o) := by
  unfold State.resumeOrder
  extract_lets s1 s2 s3
  have h_s1 : Wr k s₀ s1 := by
    dsimp only [s1]
    repeat' first
        | with_reducible assumption
        | split
        | with_reducible apply State.wr_modOrder
        | with_reducible apply State.wr_modVehicle
        | with_reducible apply State.wr_restartProgress
        | with_reducible apply State.wr_sendTask
        | (intro x; exact ⟨rfl, rfl, rfl, rfl, fun _ => ⟨rfl, rfl, rfl⟩⟩)
        | (intro x; exact ⟨rfl, rfl, rfl, rfl, fun hlt => absurd hlt (by omega)⟩)
        | (intro x; refine ⟨fun _ => ?_, fun _ => ?_⟩ <;> first | omega | ((repeat' apply And.intro) <;> rfl))
        | (intro x; exact .inr ⟨rfl, .inl (Nat.le_refl _)⟩)
        | (intro x; rfl)
        | (intro x; exact Stand.same_withArm x _ _ rfl rfl)
        | exact Job.splices_same
        | exact Job.breaks_same
        | exact Job.chargeConsumed_same _ _
        | (intro j; exact ⟨rfl, id, fun _ => ⟨rfl, rfl, rfl⟩⟩)
        | (intro j; exact ⟨rfl, id, fun hlt => absurd hlt (by omega)⟩)
        | (intro x; exact ⟨fun b => b, fun _ => ⟨rfl, rfl, rfl, rfl, rfl⟩⟩)
        | (intro x; exact ⟨fun b => ⟨by omega, by (try split) <;> simp_all [Station.bounded], b.2.2⟩, fun hlt => absurd hlt (by omega)⟩)
        | exact Job.chargeStrip_same _ _
        | exact Job.chargeStub_same _ _
        | omega
  clear_value s1
  have h_s2 : Wr k s₀ s2 := by
    dsimp only [s2]
    repeat' first
        | with_reducible assumption
        | split
        | with_reducible apply State.wr_modOrder
        | with_reducible apply State.wr_modVehicle
        | with_reducible apply State.wr_restartProgress
        | with_reducible apply State.wr_sendTask
        | (intro x; exact ⟨rfl, rfl, rfl, rfl, fun _ => ⟨rfl, rfl, rfl⟩⟩)
        | (intro x; exact ⟨rfl, rfl, rfl, rfl, fun hlt => absurd hlt (by omega)⟩)
        | (intro x; refine ⟨fun _ => ?_, fun _ => ?_⟩ <;> first | omega | ((repeat' apply And.intro) <;> rfl))
        | (intro x; exact .inr ⟨rfl, .inl (Nat.le_refl _)⟩)
        | (intro x; rfl)
        | (intro x; exact Stand.same_withArm x _ _ rfl rfl)
        | exact Job.splices_same
        | exact Job.breaks_same
        | exact Job.chargeConsumed_same _ _
        | (intro j; exact ⟨rfl, id, fun _ => ⟨rfl, rfl, rfl⟩⟩)
        | (intro j; exact ⟨rfl, id, fun hlt => absurd hlt (by omega)⟩)
        | (intro x; exact ⟨fun b => b, fun _ => ⟨rfl, rfl, rfl, rfl, rfl⟩⟩)
        | (intro x; exact ⟨fun b => ⟨by omega, by (try split) <;> simp_all [Station.bounded], b.2.2⟩, fun hlt => absurd hlt (by omega)⟩)
        | exact Job.chargeStrip_same _ _
        | exact Job.chargeStub_same _ _
        | omega
  clear_value s2
  have h_s3 : Wr k s₀ s3 := by
    dsimp only [s3]
    repeat' first
        | with_reducible assumption
        | split
        | with_reducible apply State.wr_modOrder
        | with_reducible apply State.wr_modVehicle
        | with_reducible apply State.wr_restartProgress
        | with_reducible apply State.wr_sendTask
        | (intro x; exact ⟨rfl, rfl, rfl, rfl, fun _ => ⟨rfl, rfl, rfl⟩⟩)
        | (intro x; exact ⟨rfl, rfl, rfl, rfl, fun hlt => absurd hlt (by omega)⟩)
        | (intro x; refine ⟨fun _ => ?_, fun _ => ?_⟩ <;> first | omega | ((repeat' apply And.intro) <;> rfl))
        | (intro x; exact .inr ⟨rfl, .inl (Nat.le_refl _)⟩)
        | (intro x; rfl)
        | (intro x; exact Stand.same_withArm x _ _ rfl rfl)
        | exact Job.splices_same
        | exact Job.breaks_same
        | exact Job.chargeConsumed_same _ _
        | (intro j; exact ⟨rfl, id, fun _ => ⟨rfl, rfl, rfl⟩⟩)
        | (intro j; exact ⟨rfl, id, fun hlt => absurd hlt (by omega)⟩)
        | (intro x; exact ⟨fun b => b, fun _ => ⟨rfl, rfl, rfl, rfl, rfl⟩⟩)
        | (intro x; exact ⟨fun b => ⟨by omega, by (try split) <;> simp_all [Station.bounded], b.2.2⟩, fun hlt => absurd hlt (by omega)⟩)
        | exact Job.chargeStrip_same _ _
        | exact Job.chargeStub_same _ _
        | omega
  clear_value s3
  repeat' first
      | with_reducible assumption
      | split
      | with_reducible apply State.wr_modOrder
      | with_reducible apply State.wr_modVehicle
      | with_reducible apply State.wr_restartProgress
      | with_reducible apply State.wr_sendTask
      | (intro x; exact ⟨rfl, rfl, rfl, rfl, fun _ => ⟨rfl, rfl, rfl⟩⟩)
      | (intro x; exact ⟨rfl, rfl, rfl, rfl, fun hlt => absurd hlt (by omega)⟩)
      | (intro x; refine ⟨fun _ => ?_, fun _ => ?_⟩ <;> first | omega | ((repeat' apply And.intro) <;> rfl))
      | (intro x; exact .inr ⟨rfl, .inl (Nat.le_refl _)⟩)
      | (intro x; rfl)
      | (intro x; exact Stand.same_withArm x _ _ rfl rfl)
      | exact Job.splices_same
      | exact Job.breaks_same
      | exact Job.chargeConsumed_same _ _
      | (intro j; exact ⟨rfl, id, fun _ => ⟨rfl, rfl, rfl⟩⟩)
      | (intro j; exact ⟨rfl, id, fun hlt => absurd hlt (by omega)⟩)
      | (intro x; exact ⟨fun b => b, fun _ => ⟨rfl, rfl, rfl, rfl, rfl⟩⟩)
      | (intro x; exact ⟨fun b => ⟨by omega, by (try split) <;> simp_all [Station.bounded], b.2.2⟩, fun hlt => absurd hlt (by omega)⟩)
      | exact Job.chargeStrip_same _ _
      | exact Job.chargeStub_same _ _
      | omega

theorem State.wr_bringIn (h : Wr k s₀ s) (hk : 4 ≤ k) (v x seg : Nat) : Wr k s₀ (s.bringIn v x seg) := by
  unfold State.bringIn
  try dsimp only
  repeat' first
      | with_reducible assumption
      | split
      | with_reducible apply State.wr_notice
      | with_reducible apply State.wr_putOnTrack
      | with_reducible apply State.wr_resumeOrder
      | (intro x; exact ⟨rfl, rfl, rfl, rfl, fun _ => ⟨rfl, rfl, rfl⟩⟩)
      | (intro x; exact ⟨rfl, rfl, rfl, rfl, fun hlt => absurd hlt (by omega)⟩)
      | (intro x; refine ⟨fun _ => ?_, fun _ => ?_⟩ <;> first | omega | ((repeat' apply And.intro) <;> rfl))
      | (intro x; exact .inr ⟨rfl, .inl (Nat.le_refl _)⟩)
      | (intro x; rfl)
      | (intro x; exact Stand.same_withArm x _ _ rfl rfl)
      | exact Job.splices_same
      | exact Job.breaks_same
      | exact Job.chargeConsumed_same _ _
      | (intro j; exact ⟨rfl, id, fun _ => ⟨rfl, rfl, rfl⟩⟩)
      | (intro j; exact ⟨rfl, id, fun hlt => absurd hlt (by omega)⟩)
      | (intro x; exact ⟨fun b => b, fun _ => ⟨rfl, rfl, rfl, rfl, rfl⟩⟩)
      | (intro x; exact ⟨fun b => ⟨by omega, by (try split) <;> simp_all [Station.bounded], b.2.2⟩, fun hlt => absurd hlt (by omega)⟩)
      | exact Job.chargeStrip_same _ _
      | exact Job.chargeStub_same _ _
      | omega

theorem State.wr_serviceIn (h : Wr k s₀ s) (hk : 4 ≤ k) (v x : Nat) : Wr k s₀ (s.serviceIn v x).state := by
  unfold State.serviceIn
  try dsimp only
  repeat' first
      | with_reducible assumption
      | split
      | with_reducible apply State.wr_ok
      | with_reducible apply State.wr_no
      | with_reducible apply State.wr_ok
      | with_reducible apply State.wr_bringIn
      | (intro x; exact ⟨rfl, rfl, rfl, rfl, fun _ => ⟨rfl, rfl, rfl⟩⟩)
      | (intro x; exact ⟨rfl, rfl, rfl, rfl, fun hlt => absurd hlt (by omega)⟩)
      | (intro x; refine ⟨fun _ => ?_, fun _ => ?_⟩ <;> first | omega | ((repeat' apply And.intro) <;> rfl))
      | (intro x; exact .inr ⟨rfl, .inl (Nat.le_refl _)⟩)
      | (intro x; rfl)
      | (intro x; exact Stand.same_withArm x _ _ rfl rfl)
      | exact Job.splices_same
      | exact Job.breaks_same
      | exact Job.chargeConsumed_same _ _
      | (intro j; exact ⟨rfl, id, fun _ => ⟨rfl, rfl, rfl⟩⟩)
      | (intro j; exact ⟨rfl, id, fun hlt => absurd hlt (by omega)⟩)
      | (intro x; exact ⟨fun b => b, fun _ => ⟨rfl, rfl, rfl, rfl, rfl⟩⟩)
      | (intro x; exact ⟨fun b => ⟨by omega, by (try split) <;> simp_all [Station.bounded], b.2.2⟩, fun hlt => absurd hlt (by omega)⟩)
      | exact Job.chargeStrip_same _ _
      | exact Job.chargeStub_same _ _
      | omega

theorem State.wr_orderAtOut (h : Wr k s₀ s) (n : Nat) : Wr k s₀ (s.orderAtOut n) := by
  unfold State.orderAtOut
  try dsimp only
  repeat' first
      | with_reducible assumption
      | split
      | with_reducible apply State.wr_freeOrder
      | with_reducible apply State.wr_returnToPending
      | (intro x; exact ⟨rfl, rfl, rfl, rfl, fun _ => ⟨rfl, rfl, rfl⟩⟩)
      | (intro x; exact ⟨rfl, rfl, rfl, rfl, fun hlt => absurd hlt (by omega)⟩)
      | (intro x; refine ⟨fun _ => ?_, fun _ => ?_⟩ <;> first | omega | ((repeat' apply And.intro) <;> rfl))
      | (intro x; exact .inr ⟨rfl, .inl (Nat.le_refl _)⟩)
      | (intro x; rfl)
      | (intro x; exact Stand.same_withArm x _ _ rfl rfl)
      | exact Job.splices_same
      | exact Job.breaks_same
      | exact Job.chargeConsumed_same _ _
      | (intro j; exact ⟨rfl, id, fun _ => ⟨rfl, rfl, rfl⟩⟩)
      | (intro j; exact ⟨rfl, id, fun hlt => absurd hlt (by omega)⟩)
      | (intro x; exact ⟨fun b => b, fun _ => ⟨rfl, rfl, rfl, rfl, rfl⟩⟩)
      | (intro x; exact ⟨fun b => ⟨by omega, by (try split) <;> simp_all [Station.bounded], b.2.2⟩, fun hlt => absurd hlt (by omega)⟩)
      | exact Job.chargeStrip_same _ _
      | exact Job.chargeStub_same _ _
      | omega

theorem State.wr_takeOut (h : Wr k s₀ s) (hk : 4 ≤ k) (v : Nat) : Wr k s₀ (s.takeOut v) := by
  unfold State.takeOut
  extract_lets s1 s2
  have h_s1 : Wr k s₀ s1 := by
    dsimp only [s1]
    repeat' first
        | with_reducible assumption
        | split
        | with_reducible apply State.wr_modVehicle
        | with_reducible apply State.wr_clearMarks
        | with_reducible apply State.wr_leaveList
        | with_reducible apply State.wr_releaseHeld
        | with_reducible apply State.wr_orderAtOut
        | (intro x; exact ⟨rfl, rfl, rfl, rfl, fun _ => ⟨rfl, rfl, rfl⟩⟩)
        | (intro x; exact ⟨rfl, rfl, rfl, rfl, fun hlt => absurd hlt (by omega)⟩)
        | (intro x; refine ⟨fun _ => ?_, fun _ => ?_⟩ <;> first | omega | ((repeat' apply And.intro) <;> rfl))
        | (intro x; exact .inr ⟨rfl, .inl (Nat.le_refl _)⟩)
        | (intro x; rfl)
        | (intro x; exact Stand.same_withArm x _ _ rfl rfl)
        | exact Job.splices_same
        | exact Job.breaks_same
        | exact Job.chargeConsumed_same _ _
        | (intro j; exact ⟨rfl, id, fun _ => ⟨rfl, rfl, rfl⟩⟩)
        | (intro j; exact ⟨rfl, id, fun hlt => absurd hlt (by omega)⟩)
        | (intro x; exact ⟨fun b => b, fun _ => ⟨rfl, rfl, rfl, rfl, rfl⟩⟩)
        | (intro x; exact ⟨fun b => ⟨by omega, by (try split) <;> simp_all [Station.bounded], b.2.2⟩, fun hlt => absurd hlt (by omega)⟩)
        | exact Job.chargeStrip_same _ _
        | exact Job.chargeStub_same _ _
        | omega
  clear_value s1
  have h_s2 : Wr k s₀ s2 := by
    dsimp only [s2]
    repeat' first
        | with_reducible assumption
        | split
        | with_reducible apply State.wr_modVehicle
        | with_reducible apply State.wr_clearMarks
        | with_reducible apply State.wr_leaveList
        | with_reducible apply State.wr_releaseHeld
        | with_reducible apply State.wr_orderAtOut
        | (intro x; exact ⟨rfl, rfl, rfl, rfl, fun _ => ⟨rfl, rfl, rfl⟩⟩)
        | (intro x; exact ⟨rfl, rfl, rfl, rfl, fun hlt => absurd hlt (by omega)⟩)
        | (intro x; refine ⟨fun _ => ?_, fun _ => ?_⟩ <;> first | omega | ((repeat' apply And.intro) <;> rfl))
        | (intro x; exact .inr ⟨rfl, .inl (Nat.le_refl _)⟩)
        | (intro x; rfl)
        | (intro x; exact Stand.same_withArm x _ _ rfl rfl)
        | exact Job.splices_same
        | exact Job.breaks_same
        | exact Job.chargeConsumed_same _ _
        | (intro j; exact ⟨rfl, id, fun _ => ⟨rfl, rfl, rfl⟩⟩)
        | (intro j; exact ⟨rfl, id, fun hlt => absurd hlt (by omega)⟩)
        | (intro x; exact ⟨fun b => b, fun _ => ⟨rfl, rfl, rfl, rfl, rfl⟩⟩)
        | (intro x; exact ⟨fun b => ⟨by omega, by (try split) <;> simp_all [Station.bounded], b.2.2⟩, fun hlt => absurd hlt (by omega)⟩)
        | exact Job.chargeStrip_same _ _
        | exact Job.chargeStub_same _ _
        | omega
  clear_value s2
  repeat' first
      | with_reducible assumption
      | split
      | with_reducible apply State.wr_modVehicle
      | with_reducible apply State.wr_clearMarks
      | with_reducible apply State.wr_leaveList
      | with_reducible apply State.wr_releaseHeld
      | with_reducible apply State.wr_orderAtOut
      | (intro x; exact ⟨rfl, rfl, rfl, rfl, fun _ => ⟨rfl, rfl, rfl⟩⟩)
      | (intro x; exact ⟨rfl, rfl, rfl, rfl, fun hlt => absurd hlt (by omega)⟩)
      | (intro x; refine ⟨fun _ => ?_, fun _ => ?_⟩ <;> first | omega | ((repeat' apply And.intro) <;> rfl))
      | (intro x; exact .inr ⟨rfl, .inl (Nat.le_refl _)⟩)
      | (intro x; rfl)
      | (intro x; exact Stand.same_withArm x _ _ rfl rfl)
      | exact Job.splices_same
      | exact Job.breaks_same
      | exact Job.chargeConsumed_same _ _
      | (intro j; exact ⟨rfl, id, fun _ => ⟨rfl, rfl, rfl⟩⟩)
      | (intro j; exact ⟨rfl, id, fun hlt => absurd hlt (by omega)⟩)
      | (intro x; exact ⟨fun b => b, fun _ => ⟨rfl, rfl, rfl, rfl, rfl⟩⟩)
      | (intro x; exact ⟨fun b => ⟨by omega, by (try split) <;> simp_all [Station.bounded], b.2.2⟩, fun hlt => absurd hlt (by omega)⟩)
      | exact Job.chargeStrip_same _ _
      | exact Job.chargeStub_same _ _
      | omega

theorem State.wr_serviceOut (h : Wr k s₀ s) (hk : 4 ≤ k) (v : Nat) : Wr k s₀ (s.serviceOut v).state := by
  unfold State.serviceOut
  try dsimp only
  repeat' first
      | with_reducible assumption
      | split
      | with_reducible apply State.wr_ok
      | with_reducible apply State.wr_no
      | with_reducible apply State.wr_ok
      | with_reducible apply State.wr_takeOut
      | (intro x; exact ⟨rfl, rfl, rfl, rfl, fun _ => ⟨rfl, rfl, rfl⟩⟩)
      | (intro x; exact ⟨rfl, rfl, rfl, rfl, fun hlt => absurd hlt (by omega)⟩)
      | (intro x; refine ⟨fun _ => ?_, fun _ => ?_⟩ <;> first | omega | ((repeat' apply And.intro) <;> rfl))
      | (intro x; exact .inr ⟨rfl, .inl (Nat.le_refl _)⟩)
      | (intro x; rfl)
      | (intro x; exact Stand.same_withArm x _ _ rfl rfl)
      | exact Job.splices_same
      | exact Job.breaks_same
      | exact Job.chargeConsumed_same _ _
      | (intro j; exact ⟨rfl, id, fun _ => ⟨rfl, rfl, rfl⟩⟩)
      | (intro j; exact ⟨rfl, id, fun hlt => absurd hlt (by omega)⟩)
      | (intro x; exact ⟨fun b => b, fun _ => ⟨rfl, rfl, rfl, rfl, rfl⟩⟩)
      | (intro x; exact ⟨fun b => ⟨by omega, by (try split) <;> simp_all [Station.bounded], b.2.2⟩, fun hlt => absurd hlt (by omega)⟩)
      | exact Job.chargeStrip_same _ _
      | exact Job.chargeStub_same _ _
      | omega

theorem State.wr_serviceSettings (h : Wr k s₀ s) (hk : 4 ≤ k) (p t m : Nat) : Wr k s₀ (s.serviceSettings p t m).state := by
  unfold State.serviceSettings
  split
  · exact h.other hk ⟨rfl, rfl, rfl, rfl, rfl, rfl, rfl, rfl, rfl, rfl, rfl, rfl, rfl, rfl, rfl⟩
  · exact h

theorem State.wr_segmentRequest (h : Wr k s₀ s) (hk : 4 ≤ k) (n : Nat) (x : Option SegKind) : Wr k s₀ (s.segmentRequest n x).state := by
  unfold State.segmentRequest
  repeat' split
  all_goals first
    | exact h
    | exact h.segment (by omega) (fun hlt => absurd hlt (by omega))

theorem State.wr_nodeRequest (h : Wr k s₀ s) (hk : 4 ≤ k) (n : Nat) (c : Option (Nat × Option NodeRole)) :
    Wr k s₀ (s.nodeRequest n c).state := by
  unfold State.nodeRequest
  split
  · exact h
  · split
    · exact h
    · exact h.node hk n _

theorem State.wr_routeRequest (h : Wr k s₀ s) (hk : 4 ≤ k) (n : Nat) (c : Option Route) : Wr k s₀ (s.routeRequest n c).state := by
  unfold State.routeRequest
  repeat' split
  all_goals first
    | exact h
    | exact State.wr_notice (h.route hk n c)

theorem State.wr_readVehicleRequest (h : Wr k s₀ s) (_hk : 4 ≤ k) (v : Nat) : Wr k s₀ (s.readVehicleRequest v).state := by
  unfold State.readVehicleRequest
  try dsimp only
  repeat' first
      | with_reducible assumption
      | split
      | with_reducible apply State.wr_no
      | with_reducible apply State.wr_okWith
      | (intro x; exact ⟨rfl, rfl, rfl, rfl, fun _ => ⟨rfl, rfl, rfl⟩⟩)
      | (intro x; exact ⟨rfl, rfl, rfl, rfl, fun hlt => absurd hlt (by omega)⟩)
      | (intro x; refine ⟨fun _ => ?_, fun _ => ?_⟩ <;> first | omega | ((repeat' apply And.intro) <;> rfl))
      | (intro x; exact .inr ⟨rfl, .inl (Nat.le_refl _)⟩)
      | (intro x; rfl)
      | (intro x; exact Stand.same_withArm x _ _ rfl rfl)
      | exact Job.splices_same
      | exact Job.breaks_same
      | exact Job.chargeConsumed_same _ _
      | (intro j; exact ⟨rfl, id, fun _ => ⟨rfl, rfl, rfl⟩⟩)
      | (intro j; exact ⟨rfl, id, fun hlt => absurd hlt (by omega)⟩)
      | (intro x; exact ⟨fun b => b, fun _ => ⟨rfl, rfl, rfl, rfl, rfl⟩⟩)
      | (intro x; exact ⟨fun b => ⟨by omega, by (try split) <;> simp_all [Station.bounded], b.2.2⟩, fun hlt => absurd hlt (by omega)⟩)
      | exact Job.chargeStrip_same _ _
      | exact Job.chargeStub_same _ _
      | omega

theorem State.wr_eachTimer (h : Wr k s₀ s) (_hk : 4 ≤ k) (f : Timer → Timer) : Wr k s₀ (s.eachTimer f) := by
  unfold State.eachTimer
  try dsimp only
  repeat' first
      | with_reducible assumption
      | (intro n t ht)
      | split
      | with_reducible apply State.wr_modVehicle
      | with_reducible apply State.wr_each
      | (intro x; exact ⟨rfl, rfl, rfl, rfl, fun _ => ⟨rfl, rfl, rfl⟩⟩)
      | (intro x; exact ⟨rfl, rfl, rfl, rfl, fun hlt => absurd hlt (by omega)⟩)
      | (intro x; refine ⟨fun _ => ?_, fun _ => ?_⟩ <;> first | omega | ((repeat' apply And.intro) <;> rfl))
      | (intro x; exact .inr ⟨rfl, .inl (Nat.le_refl _)⟩)
      | (intro x; rfl)
      | (intro x; exact Stand.same_withArm x _ _ rfl rfl)
      | exact Job.splices_same
      | exact Job.breaks_same
      | exact Job.chargeConsumed_same _ _
      | (intro j; exact ⟨rfl, id, fun _ => ⟨rfl, rfl, rfl⟩⟩)
      | (intro j; exact ⟨rfl, id, fun hlt => absurd hlt (by omega)⟩)
      | (intro x; exact ⟨fun b => b, fun _ => ⟨rfl, rfl, rfl, rfl, rfl⟩⟩)
      | (intro x; exact ⟨fun b => ⟨by omega, by (try split) <;> simp_all [Station.bounded], b.2.2⟩, fun hlt => absurd hlt (by omega)⟩)
      | exact Job.chargeStrip_same _ _
      | exact Job.chargeStub_same _ _
      | omega

theorem State.wr_halt (h : Wr k s₀ s) (hk : 4 ≤ k) : Wr k s₀ s.halt := by
  have g := State.wr_eachTimer h hk Timer.suspend
  unfold State.halt
  generalize s.eachTimer Timer.suspend = u at g
  exact g.other hk ⟨rfl, rfl, rfl, rfl, rfl, rfl, rfl, rfl, rfl, rfl, rfl, rfl, rfl, rfl, rfl⟩

theorem State.wr_resumeRequest (h : Wr k s₀ s) (hk : 4 ≤ k) : Wr k s₀ s.resumeRequest.state := by
  have g := State.wr_eachTimer h hk Timer.resume
  unfold State.resumeRequest
  generalize s.eachTimer Timer.resume = u at g
  split
  · exact State.wr_notice (g.other hk ⟨rfl, rfl, rfl, rfl, rfl, rfl, rfl, rfl, rfl, rfl, rfl, rfl, rfl, rfl, rfl⟩)
  · exact h

theorem State.wr_lostCommand (h : Wr k s₀ s) (v reported : Nat) (link : Option Nat) : Wr k s₀ (s.lostCommand v reported link) := by
  unfold State.lostCommand
  try dsimp only
  repeat' first
      | with_reducible assumption
      | split
      | with_reducible apply State.wr_sendVehicle
      | with_reducible apply State.wr_link
      | with_reducible apply State.wr_sendTask
      | (intro x; exact ⟨rfl, rfl, rfl, rfl, fun _ => ⟨rfl, rfl, rfl⟩⟩)
      | (intro x; exact ⟨rfl, rfl, rfl, rfl, fun hlt => absurd hlt (by omega)⟩)
      | (intro x; refine ⟨fun _ => ?_, fun _ => ?_⟩ <;> first | omega | ((repeat' apply And.intro) <;> rfl))
      | (intro x; exact .inr ⟨rfl, .inl (Nat.le_refl _)⟩)
      | (intro x; rfl)
      | (intro x; exact Stand.same_withArm x _ _ rfl rfl)
      | exact Job.splices_same
      | exact Job.breaks_same
      | exact Job.chargeConsumed_same _ _
      | (intro j; exact ⟨rfl, id, fun _ => ⟨rfl, rfl, rfl⟩⟩)
      | (intro j; exact ⟨rfl, id, fun hlt => absurd hlt (by omega)⟩)
      | (intro x; exact ⟨fun b => b, fun _ => ⟨rfl, rfl, rfl, rfl, rfl⟩⟩)
      | (intro x; exact ⟨fun b => ⟨by omega, by (try split) <;> simp_all [Station.bounded], b.2.2⟩, fun hlt => absurd hlt (by omega)⟩)
      | exact Job.chargeStrip_same _ _
      | exact Job.chargeStub_same _ _
      | omega

theorem State.wr_pass2 (h : Wr k s₀ s) (hk : 4 ≤ k) (v : Nat) (p : Spot) : Wr k s₀ (s.pass2 v p) := by
  unfold State.pass2
  try dsimp only
  repeat' first
      | with_reducible assumption
      | split
      | with_reducible apply State.wr_modVehicle
      | with_reducible apply State.wr_releaseSegment
      | (intro x; exact ⟨rfl, rfl, rfl, rfl, fun _ => ⟨rfl, rfl, rfl⟩⟩)
      | (intro x; exact ⟨rfl, rfl, rfl, rfl, fun hlt => absurd hlt (by omega)⟩)
      | (intro x; refine ⟨fun _ => ?_, fun _ => ?_⟩ <;> first | omega | ((repeat' apply And.intro) <;> rfl))
      | (intro x; exact .inr ⟨rfl, .inl (Nat.le_refl _)⟩)
      | (intro x; rfl)
      | (intro x; exact Stand.same_withArm x _ _ rfl rfl)
      | exact Job.splices_same
      | exact Job.breaks_same
      | exact Job.chargeConsumed_same _ _
      | (intro j; exact ⟨rfl, id, fun _ => ⟨rfl, rfl, rfl⟩⟩)
      | (intro j; exact ⟨rfl, id, fun hlt => absurd hlt (by omega)⟩)
      | (intro x; exact ⟨fun b => b, fun _ => ⟨rfl, rfl, rfl, rfl, rfl⟩⟩)
      | (intro x; exact ⟨fun b => ⟨by omega, by (try split) <;> simp_all [Station.bounded], b.2.2⟩, fun hlt => absurd hlt (by omega)⟩)
      | exact Job.chargeStrip_same _ _
      | exact Job.chargeStub_same _ _
      | omega

theorem State.wr_completeRoute (h : Wr k s₀ s) (_hk : 4 ≤ k) (v : Nat) (p : Spot) : Wr k s₀ (s.completeRoute v p) := by
  unfold State.completeRoute
  try dsimp only
  repeat' first
      | with_reducible assumption
      | split
      | with_reducible apply State.wr_modVehicle
      | (intro x; exact ⟨rfl, rfl, rfl, rfl, fun _ => ⟨rfl, rfl, rfl⟩⟩)
      | (intro x; exact ⟨rfl, rfl, rfl, rfl, fun hlt => absurd hlt (by omega)⟩)
      | (intro x; refine ⟨fun _ => ?_, fun _ => ?_⟩ <;> first | omega | ((repeat' apply And.intro) <;> rfl))
      | (intro x; exact .inr ⟨rfl, .inl (Nat.le_refl _)⟩)
      | (intro x; rfl)
      | (intro x; exact Stand.same_withArm x _ _ rfl rfl)
      | exact Job.splices_same
      | exact Job.breaks_same
      | exact Job.chargeConsumed_same _ _
      | (intro j; exact ⟨rfl, id, fun _ => ⟨rfl, rfl, rfl⟩⟩)
      | (intro j; exact ⟨rfl, id, fun hlt => absurd hlt (by omega)⟩)
      | (intro x; exact ⟨fun b => b, fun _ => ⟨rfl, rfl, rfl, rfl, rfl⟩⟩)
      | (intro x; exact ⟨fun b => ⟨by omega, by (try split) <;> simp_all [Station.bounded], b.2.2⟩, fun hlt => absurd hlt (by omega)⟩)
      | exact Job.chargeStrip_same _ _
      | exact Job.chargeStub_same _ _
      | omega

theorem State.wr_takePosition (h : Wr k s₀ s) (hk : 4 ≤ k) (v : Nat) (p : Spot) (passed : Bool) : Wr k s₀ (s.takePosition v p passed) := by
  unfold State.takePosition
  extract_lets changing s1 s2 s3
  have h_s1 : Wr k s₀ s1 := by
    dsimp only [s1]
    repeat' first
        | with_reducible assumption
        | split
        | with_reducible apply State.wr_modVehicle
        | with_reducible apply State.wr_restartProgress
        | with_reducible apply State.wr_syncProgress
        | with_reducible apply State.wr_pass2
        | with_reducible apply State.wr_completeRoute
        | (intro x; exact ⟨rfl, rfl, rfl, rfl, fun _ => ⟨rfl, rfl, rfl⟩⟩)
        | (intro x; exact ⟨rfl, rfl, rfl, rfl, fun hlt => absurd hlt (by omega)⟩)
        | (intro x; refine ⟨fun _ => ?_, fun _ => ?_⟩ <;> first | omega | ((repeat' apply And.intro) <;> rfl))
        | (intro x; exact .inr ⟨rfl, .inl (Nat.le_refl _)⟩)
        | (intro x; rfl)
        | (intro x; exact Stand.same_withArm x _ _ rfl rfl)
        | exact Job.splices_same
        | exact Job.breaks_same
        | exact Job.chargeConsumed_same _ _
        | (intro j; exact ⟨rfl, id, fun _ => ⟨rfl, rfl, rfl⟩⟩)
        | (intro j; exact ⟨rfl, id, fun hlt => absurd hlt (by omega)⟩)
        | (intro x; exact ⟨fun b => b, fun _ => ⟨rfl, rfl, rfl, rfl, rfl⟩⟩)
        | (intro x; exact ⟨fun b => ⟨by omega, by (try split) <;> simp_all [Station.bounded], b.2.2⟩, fun hlt => absurd hlt (by omega)⟩)
        | exact Job.chargeStrip_same _ _
        | exact Job.chargeStub_same _ _
        | omega
  clear_value s1
  have h_s2 : Wr k s₀ s2 := by
    dsimp only [s2]
    repeat' first
        | with_reducible assumption
        | split
        | with_reducible apply State.wr_modVehicle
        | with_reducible apply State.wr_restartProgress
        | with_reducible apply State.wr_syncProgress
        | with_reducible apply State.wr_pass2
        | with_reducible apply State.wr_completeRoute
        | (intro x; exact ⟨rfl, rfl, rfl, rfl, fun _ => ⟨rfl, rfl, rfl⟩⟩)
        | (intro x; exact ⟨rfl, rfl, rfl, rfl, fun hlt => absurd hlt (by omega)⟩)
        | (intro x; refine ⟨fun _ => ?_, fun _ => ?_⟩ <;> first | omega | ((repeat' apply And.intro) <;> rfl))
        | (intro x; exact .inr ⟨rfl, .inl (Nat.le_refl _)⟩)
        | (intro x; rfl)
        | (intro x; exact Stand.same_withArm x _ _ rfl rfl)
        | exact Job.splices_same
        | exact Job.breaks_same
        | exact Job.chargeConsumed_same _ _
        | (intro j; exact ⟨rfl, id, fun _ => ⟨rfl, rfl, rfl⟩⟩)
        | (intro j; exact ⟨rfl, id, fun hlt => absurd hlt (by omega)⟩)
        | (intro x; exact ⟨fun b => b, fun _ => ⟨rfl, rfl, rfl, rfl, rfl⟩⟩)
        | (intro x; exact ⟨fun b => ⟨by omega, by (try split) <;> simp_all [Station.bounded], b.2.2⟩, fun hlt => absurd hlt (by omega)⟩)
        | exact Job.chargeStrip_same _ _
        | exact Job.chargeStub_same _ _
        | omega
  clear_value s2
  have h_s3 : Wr k s₀ s3 := by
    dsimp only [s3]
    repeat' first
        | with_reducible assumption
        | split
        | with_reducible apply State.wr_modVehicle
        | with_reducible apply State.wr_restartProgress
        | with_reducible apply State.wr_syncProgress
        | with_reducible apply State.wr_pass2
        | with_reducible apply State.wr_completeRoute
        | (intro x; exact ⟨rfl, rfl, rfl, rfl, fun _ => ⟨rfl, rfl, rfl⟩⟩)
        | (intro x; exact ⟨rfl, rfl, rfl, rfl, fun hlt => absurd hlt (by omega)⟩)
        | (intro x; refine ⟨fun _ => ?_, fun _ => ?_⟩ <;> first | omega | ((repeat' apply And.intro) <;> rfl))
        | (intro x; exact .inr ⟨rfl, .inl (Nat.le_refl _)⟩)
        | (intro x; rfl)
        | (intro x; exact Stand.same_withArm x _ _ rfl rfl)
        | exact Job.splices_same
        | exact Job.breaks_same
        | exact Job.chargeConsumed_same _ _
        | (intro j; exact ⟨rfl, id, fun _ => ⟨rfl, rfl, rfl⟩⟩)
        | (intro j; exact ⟨rfl, id, fun hlt => absurd hlt (by omega)⟩)
        | (intro x; exact ⟨fun b => b, fun _ => ⟨rfl, rfl, rfl, rfl, rfl⟩⟩)
        | (intro x; exact ⟨fun b => ⟨by omega, by (try split) <;> simp_all [Station.bounded], b.2.2⟩, fun hlt => absurd hlt (by omega)⟩)
        | exact Job.chargeStrip_same _ _
        | exact Job.chargeStub_same _ _
        | omega
  clear_value s3
  repeat' first
      | with_reducible assumption
      | split
      | with_reducible apply State.wr_modVehicle
      | with_reducible apply State.wr_restartProgress
      | with_reducible apply State.wr_syncProgress
      | with_reducible apply State.wr_pass2
      | with_reducible apply State.wr_completeRoute
      | (intro x; exact ⟨rfl, rfl, rfl, rfl, fun _ => ⟨rfl, rfl, rfl⟩⟩)
      | (intro x; exact ⟨rfl, rfl, rfl, rfl, fun hlt => absurd hlt (by omega)⟩)
      | (intro x; refine ⟨fun _ => ?_, fun _ => ?_⟩ <;> first | omega | ((repeat' apply And.intro) <;> rfl))
      | (intro x; exact .inr ⟨rfl, .inl (Nat.le_refl _)⟩)
      | (intro x; rfl)
      | (intro x; exact Stand.same_withArm x _ _ rfl rfl)
      | exact Job.splices_same
      | exact Job.breaks_same
      | exact Job.chargeConsumed_same _ _
      | (intro j; exact ⟨rfl, id, fun _ => ⟨rfl, rfl, rfl⟩⟩)
      | (intro j; exact ⟨rfl, id, fun hlt => absurd hlt (by omega)⟩)
      | (intro x; exact ⟨fun b => b, fun _ => ⟨rfl, rfl, rfl, rfl, rfl⟩⟩)
      | (intro x; exact ⟨fun b => ⟨by omega, by (try split) <;> simp_all [Station.bounded], b.2.2⟩, fun hlt => absurd hlt (by omega)⟩)
      | exact Job.chargeStrip_same _ _
      | exact Job.chargeStub_same _ _
      | omega

theorem State.wr_hold (h : Wr k s₀ s) (hk : 4 ≤ k) (v g : Nat) : Wr k s₀ (s.hold v g) := by
  unfold State.hold
  try dsimp only
  repeat' first
      | with_reducible assumption
      | split
      | with_reducible apply State.wr_modVehicle
      | with_reducible apply State.wr_modSegment
      | with_reducible apply State.wr_sendVehicle
      | with_reducible apply State.wr_syncProgress
      | with_reducible apply State.wr_leaveList
      | (intro x; exact ⟨rfl, rfl, rfl, rfl, fun _ => ⟨rfl, rfl, rfl⟩⟩)
      | (intro x; exact ⟨rfl, rfl, rfl, rfl, fun hlt => absurd hlt (by omega)⟩)
      | (intro x; refine ⟨fun _ => ?_, fun _ => ?_⟩ <;> first | omega | ((repeat' apply And.intro) <;> rfl))
      | (intro x; exact .inr ⟨rfl, .inl (Nat.le_refl _)⟩)
      | (intro x; rfl)
      | (intro x; exact Stand.same_withArm x _ _ rfl rfl)
      | exact Job.splices_same
      | exact Job.breaks_same
      | exact Job.chargeConsumed_same _ _
      | (intro j; exact ⟨rfl, id, fun _ => ⟨rfl, rfl, rfl⟩⟩)
      | (intro j; exact ⟨rfl, id, fun hlt => absurd hlt (by omega)⟩)
      | (intro x; exact ⟨fun b => b, fun _ => ⟨rfl, rfl, rfl, rfl, rfl⟩⟩)
      | (intro x; exact ⟨fun b => ⟨by omega, by (try split) <;> simp_all [Station.bounded], b.2.2⟩, fun hlt => absurd hlt (by omega)⟩)
      | exact Job.chargeStrip_same _ _
      | exact Job.chargeStub_same _ _
      | omega

theorem State.wr_await (h : Wr k s₀ s) (hk : 4 ≤ k) (v g : Nat) : Wr k s₀ (s.await v g) := by
  unfold State.await
  try dsimp only
  repeat' first
      | with_reducible assumption
      | split
      | with_reducible apply State.wr_modVehicle
      | with_reducible apply State.wr_modSegment
      | with_reducible apply State.wr_sendVehicle
      | with_reducible apply State.wr_syncProgress
      | with_reducible apply State.wr_leaveList
      | (intro x; exact ⟨rfl, rfl, rfl, rfl, fun _ => ⟨rfl, rfl, rfl⟩⟩)
      | (intro x; exact ⟨rfl, rfl, rfl, rfl, fun hlt => absurd hlt (by omega)⟩)
      | (intro x; refine ⟨fun _ => ?_, fun _ => ?_⟩ <;> first | omega | ((repeat' apply And.intro) <;> rfl))
      | (intro x; exact .inr ⟨rfl, .inl (Nat.le_refl _)⟩)
      | (intro x; rfl)
      | (intro x; exact Stand.same_withArm x _ _ rfl rfl)
      | exact Job.splices_same
      | exact Job.breaks_same
      | exact Job.chargeConsumed_same _ _
      | (intro j; exact ⟨rfl, id, fun _ => ⟨rfl, rfl, rfl⟩⟩)
      | (intro j; exact ⟨rfl, id, fun hlt => absurd hlt (by omega)⟩)
      | (intro x; exact ⟨fun b => b, fun _ => ⟨rfl, rfl, rfl, rfl, rfl⟩⟩)
      | (intro x; exact ⟨fun b => ⟨by omega, by (try split) <;> simp_all [Station.bounded], b.2.2⟩, fun hlt => absurd hlt (by omega)⟩)
      | exact Job.chargeStrip_same _ _
      | exact Job.chargeStub_same _ _
      | omega

theorem State.wr_takeClaim (h : Wr k s₀ s) (hk : 4 ≤ k) (v g : Nat) : Wr k s₀ (s.takeClaim v g) := by
  unfold State.takeClaim
  try dsimp only
  repeat' first
      | with_reducible assumption
      | split
      | with_reducible apply State.wr_sendVehicle
      | with_reducible apply State.wr_hold
      | with_reducible apply State.wr_await
      | (intro x; exact ⟨rfl, rfl, rfl, rfl, fun _ => ⟨rfl, rfl, rfl⟩⟩)
      | (intro x; exact ⟨rfl, rfl, rfl, rfl, fun hlt => absurd hlt (by omega)⟩)
      | (intro x; refine ⟨fun _ => ?_, fun _ => ?_⟩ <;> first | omega | ((repeat' apply And.intro) <;> rfl))
      | (intro x; exact .inr ⟨rfl, .inl (Nat.le_refl _)⟩)
      | (intro x; rfl)
      | (intro x; exact Stand.same_withArm x _ _ rfl rfl)
      | exact Job.splices_same
      | exact Job.breaks_same
      | exact Job.chargeConsumed_same _ _
      | (intro j; exact ⟨rfl, id, fun _ => ⟨rfl, rfl, rfl⟩⟩)
      | (intro j; exact ⟨rfl, id, fun hlt => absurd hlt (by omega)⟩)
      | (intro x; exact ⟨fun b => b, fun _ => ⟨rfl, rfl, rfl, rfl, rfl⟩⟩)
      | (intro x; exact ⟨fun b => ⟨by omega, by (try split) <;> simp_all [Station.bounded], b.2.2⟩, fun hlt => absurd hlt (by omega)⟩)
      | exact Job.chargeStrip_same _ _
      | exact Job.chargeStub_same _ _
      | omega

theorem State.wr_markFor (h : Wr k s₀ s) (hk : 4 ≤ k) (v : Nat) (o : Order) : Wr k s₀ (s.markFor v o) := by
  unfold State.markFor
  try dsimp only
  repeat' first
      | with_reducible assumption
      | split
      | with_reducible apply State.wr_setMark
      | (intro x; exact ⟨rfl, rfl, rfl, rfl, fun _ => ⟨rfl, rfl, rfl⟩⟩)
      | (intro x; exact ⟨rfl, rfl, rfl, rfl, fun hlt => absurd hlt (by omega)⟩)
      | (intro x; refine ⟨fun _ => ?_, fun _ => ?_⟩ <;> first | omega | ((repeat' apply And.intro) <;> rfl))
      | (intro x; exact .inr ⟨rfl, .inl (Nat.le_refl _)⟩)
      | (intro x; rfl)
      | (intro x; exact Stand.same_withArm x _ _ rfl rfl)
      | exact Job.splices_same
      | exact Job.breaks_same
      | exact Job.chargeConsumed_same _ _
      | (intro j; exact ⟨rfl, id, fun _ => ⟨rfl, rfl, rfl⟩⟩)
      | (intro j; exact ⟨rfl, id, fun hlt => absurd hlt (by omega)⟩)
      | (intro x; exact ⟨fun b => b, fun _ => ⟨rfl, rfl, rfl, rfl, rfl⟩⟩)
      | (intro x; exact ⟨fun b => ⟨by omega, by (try split) <;> simp_all [Station.bounded], b.2.2⟩, fun hlt => absurd hlt (by omega)⟩)
      | exact Job.chargeStrip_same _ _
      | exact Job.chargeStub_same _ _
      | omega

theorem State.wr_resumeTransfer (h : Wr k s₀ s) (hk : 4 ≤ k) (v : Nat) : Wr k s₀ (s.resumeTransfer v) := by
  unfold State.resumeTransfer
  dsimp only
  repeat' split
  all_goals first
    | exact State.wr_markFor (State.wr_modVehicle h v _) hk _ _
    | exact State.wr_modVehicle h v _
    | exact h

theorem State.wr_beginTransfer (h : Wr k s₀ s) (hk : 4 ≤ k) (v n : Nat) (o : Order) (st : VState) : Wr k s₀ (s.beginTransfer v n o st) := by
  unfold State.beginTransfer
  try dsimp only
  repeat' first
      | with_reducible assumption
      | split
      | with_reducible apply State.wr_modOrder
      | with_reducible apply State.wr_modVehicle
      | with_reducible apply State.wr_sendVehicle
      | with_reducible apply State.wr_markFor
      | (intro x; exact ⟨rfl, rfl, rfl, rfl, fun _ => ⟨rfl, rfl, rfl⟩⟩)
      | (intro x; exact ⟨rfl, rfl, rfl, rfl, fun hlt => absurd hlt (by omega)⟩)
      | (intro x; refine ⟨fun _ => ?_, fun _ => ?_⟩ <;> first | omega | ((repeat' apply And.intro) <;> rfl))
      | (intro x; exact .inr ⟨rfl, .inl (Nat.le_refl _)⟩)
      | (intro x; rfl)
      | (intro x; exact Stand.same_withArm x _ _ rfl rfl)
      | exact Job.splices_same
      | exact Job.breaks_same
      | exact Job.chargeConsumed_same _ _
      | (intro j; exact ⟨rfl, id, fun _ => ⟨rfl, rfl, rfl⟩⟩)
      | (intro j; exact ⟨rfl, id, fun hlt => absurd hlt (by omega)⟩)
      | (intro x; exact ⟨fun b => b, fun _ => ⟨rfl, rfl, rfl, rfl, rfl⟩⟩)
      | (intro x; exact ⟨fun b => ⟨by omega, by (try split) <;> simp_all [Station.bounded], b.2.2⟩, fun hlt => absurd hlt (by omega)⟩)
      | exact Job.chargeStrip_same _ _
      | exact Job.chargeStub_same _ _
      | omega

theorem State.wr_dock (h : Wr k s₀ s) (hk : 4 ≤ k) (v : Nat) : Wr k s₀ (s.dock v) := by
  unfold State.dock
  try dsimp only
  repeat' first
      | with_reducible assumption
      | split
      | with_reducible apply State.wr_modVehicle
      | with_reducible apply State.wr_beginTransfer
      | (intro x; exact ⟨rfl, rfl, rfl, rfl, fun _ => ⟨rfl, rfl, rfl⟩⟩)
      | (intro x; exact ⟨rfl, rfl, rfl, rfl, fun hlt => absurd hlt (by omega)⟩)
      | (intro x; refine ⟨fun _ => ?_, fun _ => ?_⟩ <;> first | omega | ((repeat' apply And.intro) <;> rfl))
      | (intro x; exact .inr ⟨rfl, .inl (Nat.le_refl _)⟩)
      | (intro x; rfl)
      | (intro x; exact Stand.same_withArm x _ _ rfl rfl)
      | exact Job.splices_same
      | exact Job.breaks_same
      | exact Job.chargeConsumed_same _ _
      | (intro j; exact ⟨rfl, id, fun _ => ⟨rfl, rfl, rfl⟩⟩)
      | (intro j; exact ⟨rfl, id, fun hlt => absurd hlt (by omega)⟩)
      | (intro x; exact ⟨fun b => b, fun _ => ⟨rfl, rfl, rfl, rfl, rfl⟩⟩)
      | (intro x; exact ⟨fun b => ⟨by omega, by (try split) <;> simp_all [Station.bounded], b.2.2⟩, fun hlt => absurd hlt (by omega)⟩)
      | exact Job.chargeStrip_same _ _
      | exact Job.chargeStub_same _ _
      | omega

theorem State.wr_moveRefused (h : Wr k s₀ s) (_hk : 4 ≤ k) (a v : Nat) (kd : Report) : Wr k s₀ (s.moveRefused a v kd) := by
  unfold State.moveRefused
  try dsimp only
  repeat' first
      | with_reducible assumption
      | split
      | with_reducible apply State.wr_raise
      | with_reducible apply State.wr_refuse
      | (intro x; exact ⟨rfl, rfl, rfl, rfl, fun _ => ⟨rfl, rfl, rfl⟩⟩)
      | (intro x; exact ⟨rfl, rfl, rfl, rfl, fun hlt => absurd hlt (by omega)⟩)
      | (intro x; refine ⟨fun _ => ?_, fun _ => ?_⟩ <;> first | omega | ((repeat' apply And.intro) <;> rfl))
      | (intro x; exact .inr ⟨rfl, .inl (Nat.le_refl _)⟩)
      | (intro x; rfl)
      | (intro x; exact Stand.same_withArm x _ _ rfl rfl)
      | exact Job.splices_same
      | exact Job.breaks_same
      | exact Job.chargeConsumed_same _ _
      | (intro j; exact ⟨rfl, id, fun _ => ⟨rfl, rfl, rfl⟩⟩)
      | (intro j; exact ⟨rfl, id, fun hlt => absurd hlt (by omega)⟩)
      | (intro x; exact ⟨fun b => b, fun _ => ⟨rfl, rfl, rfl, rfl, rfl⟩⟩)
      | (intro x; exact ⟨fun b => ⟨by omega, by (try split) <;> simp_all [Station.bounded], b.2.2⟩, fun hlt => absurd hlt (by omega)⟩)
      | exact Job.chargeStrip_same _ _
      | exact Job.chargeStub_same _ _
      | (constructor <;> intro hk' <;> first | omega | exact nofun)
      | omega

theorem State.wr_wrongState (h : Wr k s₀ s) (hk : 4 ≤ k) (a v : Nat) (kd : Report) : Wr k s₀ (s.wrongState a v kd) := by
  unfold State.wrongState
  try dsimp only
  repeat' first
      | with_reducible assumption
      | split
      | with_reducible apply State.wr_refuse
      | with_reducible apply State.wr_moveRefused
      | (intro x; exact ⟨rfl, rfl, rfl, rfl, fun _ => ⟨rfl, rfl, rfl⟩⟩)
      | (intro x; exact ⟨rfl, rfl, rfl, rfl, fun hlt => absurd hlt (by omega)⟩)
      | (intro x; refine ⟨fun _ => ?_, fun _ => ?_⟩ <;> first | omega | ((repeat' apply And.intro) <;> rfl))
      | (intro x; exact .inr ⟨rfl, .inl (Nat.le_refl _)⟩)
      | (intro x; rfl)
      | (intro x; exact Stand.same_withArm x _ _ rfl rfl)
      | exact Job.splices_same
      | exact Job.breaks_same
      | exact Job.chargeConsumed_same _ _
      | (intro j; exact ⟨rfl, id, fun _ => ⟨rfl, rfl, rfl⟩⟩)
      | (intro j; exact ⟨rfl, id, fun hlt => absurd hlt (by omega)⟩)
      | (intro x; exact ⟨fun b => b, fun _ => ⟨rfl, rfl, rfl, rfl, rfl⟩⟩)
      | (intro x; exact ⟨fun b => ⟨by omega, by (try split) <;> simp_all [Station.bounded], b.2.2⟩, fun hlt => absurd hlt (by omega)⟩)
      | exact Job.chargeStrip_same _ _
      | exact Job.chargeStub_same _ _
      | omega

theorem State.wr_loadFromBay (h : Wr k s₀ s) (hk : 2 ≤ k) (n b v o : Nat) {t : State} (e : s.loadFromBay n b v o = some t) : Wr k s₀ t := by
  unfold State.loadFromBay at e
  repeat' split at e
  all_goals first
    | cases e; done
    | (cases e
       refine State.wr_modVehicle (State.wr_modRoll (State.wr_leaveBay h (by omega) b n) n _ fun r => ?_) v _
       exact ⟨rfl, rfl, rfl, rfl, fun hlt => absurd hlt (by omega)⟩)

theorem State.wr_loadFromNode (h : Wr k s₀ s) (hk : 2 ≤ k) (n x v o : Nat) {t : State} (e : s.loadFromNode n x v o = some t) :
    Wr k s₀ t := by
  unfold State.loadFromNode at e
  repeat' split at e
  all_goals first
    | cases e; done
    | (cases e
       refine State.wr_modVehicle (State.wr_modRoll h n _ fun r => ?_) v _
       exact ⟨rfl, rfl, rfl, rfl, fun hlt => absurd hlt (by omega)⟩)

theorem State.wr_loadMove (h : Wr k s₀ s) (hk : 2 ≤ k) (v n : Nat) (o : Order) {t : State} (e : s.loadMove v n o = some t) : Wr k s₀ t := by
  unfold State.loadMove at e
  split at e
  · exact State.wr_loadFromBay h hk _ _ _ _ e
  · exact State.wr_loadFromNode h hk _ _ _ _ e
  · cases e

theorem State.wr_unloadIntoBay (h : Wr k s₀ s) (hk : 2 ≤ k) (n b v o : Nat) {t : State} (e : s.unloadIntoBay n b v o = some t) :
    Wr k s₀ t := by
  unfold State.unloadIntoBay at e
  split at e
  · next hc =>
    cases e
    refine State.wr_joinBay (State.wr_offVehicle h n v) hk b n ?_
    have hb : (s.offVehicle n v).bay b = s.bay b := by
      unfold State.bay State.offVehicle
      simp
    rw [hb]
    exact hc.2
  · cases e

theorem State.wr_unloadAtNode (h : Wr k s₀ s) (hk : 2 ≤ k) (n x v o : Nat) {t : State} (e : s.unloadAtNode n x v o = some t) :
    Wr k s₀ t := by
  unfold State.unloadAtNode at e
  split at e
  · cases e
    exact State.wr_modRoll (State.wr_offVehicle h n v) n _ fun r => ⟨rfl, rfl, rfl, rfl, fun hlt => absurd hlt (by omega)⟩
  · cases e

theorem State.wr_beginDrop (h : Wr k s₀ s) (v n : Nat) (o : Order) : Wr k s₀ (s.beginDrop v n o) := by
  unfold State.beginDrop
  try dsimp only
  repeat' first
      | with_reducible assumption
      | split
      | with_reducible apply State.wr_modOrder
      | with_reducible apply State.wr_modVehicle
      | with_reducible apply State.wr_restartProgress
      | with_reducible apply State.wr_sendTask
      | (intro x; exact ⟨rfl, rfl, rfl, rfl, fun _ => ⟨rfl, rfl, rfl⟩⟩)
      | (intro x; exact ⟨rfl, rfl, rfl, rfl, fun hlt => absurd hlt (by omega)⟩)
      | (intro x; refine ⟨fun _ => ?_, fun _ => ?_⟩ <;> first | omega | ((repeat' apply And.intro) <;> rfl))
      | (intro x; exact .inr ⟨rfl, .inl (Nat.le_refl _)⟩)
      | (intro x; rfl)
      | (intro x; exact Stand.same_withArm x _ _ rfl rfl)
      | exact Job.splices_same
      | exact Job.breaks_same
      | exact Job.chargeConsumed_same _ _
      | (intro j; exact ⟨rfl, id, fun _ => ⟨rfl, rfl, rfl⟩⟩)
      | (intro j; exact ⟨rfl, id, fun hlt => absurd hlt (by omega)⟩)
      | (intro x; exact ⟨fun b => b, fun _ => ⟨rfl, rfl, rfl, rfl, rfl⟩⟩)
      | (intro x; exact ⟨fun b => ⟨by omega, by (try split) <;> simp_all [Station.bounded], b.2.2⟩, fun hlt => absurd hlt (by omega)⟩)
      | exact Job.chargeStrip_same _ _
      | exact Job.chargeStub_same _ _
      | omega

theorem State.wr_loadedAt (h : Wr k s₀ s) (hk : 4 ≤ k) (v n : Nat) (o : Order) : Wr k s₀ (s.loadedAt v n o) := by
  unfold State.loadedAt
  try dsimp only
  repeat' first
      | with_reducible assumption
      | split
      | with_reducible apply State.wr_modOrder
      | with_reducible apply State.wr_sendVehicle
      | with_reducible apply State.wr_clearMarks
      | with_reducible apply State.wr_beginDrop
      | (intro x; exact ⟨rfl, rfl, rfl, rfl, fun _ => ⟨rfl, rfl, rfl⟩⟩)
      | (intro x; exact ⟨rfl, rfl, rfl, rfl, fun hlt => absurd hlt (by omega)⟩)
      | (intro x; refine ⟨fun _ => ?_, fun _ => ?_⟩ <;> first | omega | ((repeat' apply And.intro) <;> rfl))
      | (intro x; exact .inr ⟨rfl, .inl (Nat.le_refl _)⟩)
      | (intro x; rfl)
      | (intro x; exact Stand.same_withArm x _ _ rfl rfl)
      | exact Job.splices_same
      | exact Job.breaks_same
      | exact Job.chargeConsumed_same _ _
      | (intro j; exact ⟨rfl, id, fun _ => ⟨rfl, rfl, rfl⟩⟩)
      | (intro j; exact ⟨rfl, id, fun hlt => absurd hlt (by omega)⟩)
      | (intro x; exact ⟨fun b => b, fun _ => ⟨rfl, rfl, rfl, rfl, rfl⟩⟩)
      | (intro x; exact ⟨fun b => ⟨by omega, by (try split) <;> simp_all [Station.bounded], b.2.2⟩, fun hlt => absurd hlt (by omega)⟩)
      | exact Job.chargeStrip_same _ _
      | exact Job.chargeStub_same _ _
      | omega

theorem State.wr_takeLoaded (h : Wr k s₀ s) (hk : 4 ≤ k) (a v : Nat) : Wr k s₀ (s.takeLoaded a v) := by
  unfold State.takeLoaded
  split
  · exact State.wr_moveRefused h hk _ _ _
  · split
    · next e => exact State.wr_loadedAt (State.wr_loadMove h (by omega) _ _ _ e) hk _ _ _
    · exact State.wr_moveRefused h hk _ _ _

theorem State.wr_unloadedAt (h : Wr k s₀ s) (hk : 4 ≤ k) (v n drop : Nat) : Wr k s₀ (s.unloadedAt v n drop) := by
  unfold State.unloadedAt
  try dsimp only
  repeat' first
      | with_reducible assumption
      | split
      | with_reducible apply State.wr_sendVehicle
      | with_reducible apply State.wr_clearMarks
      | with_reducible apply State.wr_enterIdle
      | with_reducible apply State.wr_freeOrder
      | (intro x; exact ⟨rfl, rfl, rfl, rfl, fun _ => ⟨rfl, rfl, rfl⟩⟩)
      | (intro x; exact ⟨rfl, rfl, rfl, rfl, fun hlt => absurd hlt (by omega)⟩)
      | (intro x; refine ⟨fun _ => ?_, fun _ => ?_⟩ <;> first | omega | ((repeat' apply And.intro) <;> rfl))
      | (intro x; exact .inr ⟨rfl, .inl (Nat.le_refl _)⟩)
      | (intro x; rfl)
      | (intro x; exact Stand.same_withArm x _ _ rfl rfl)
      | exact Job.splices_same
      | exact Job.breaks_same
      | exact Job.chargeConsumed_same _ _
      | (intro j; exact ⟨rfl, id, fun _ => ⟨rfl, rfl, rfl⟩⟩)
      | (intro j; exact ⟨rfl, id, fun hlt => absurd hlt (by omega)⟩)
      | (intro x; exact ⟨fun b => b, fun _ => ⟨rfl, rfl, rfl, rfl, rfl⟩⟩)
      | (intro x; exact ⟨fun b => ⟨by omega, by (try split) <;> simp_all [Station.bounded], b.2.2⟩, fun hlt => absurd hlt (by omega)⟩)
      | exact Job.chargeStrip_same _ _
      | exact Job.chargeStub_same _ _
      | omega

theorem State.wr_refuseDelivery (h : Wr k s₀ s) (hk : 4 ≤ k) (a v n : Nat) (o : Order) : Wr k s₀ (s.refuseDelivery a v n o) := by
  unfold State.refuseDelivery
  extract_lets s1 s2
  have h_s1 : Wr k s₀ s1 := by
    dsimp only [s1]
    repeat' first
        | with_reducible assumption
        | split
        | with_reducible apply State.wr_modVehicle
        | with_reducible apply State.wr_sendVehicle
        | with_reducible apply State.wr_clearMarks
        | with_reducible apply State.wr_restartProgress
        | with_reducible apply State.wr_reviewCallOff
        | with_reducible apply State.wr_convert
        | with_reducible apply State.wr_refuse
        | (intro x; exact ⟨rfl, rfl, rfl, rfl, fun _ => ⟨rfl, rfl, rfl⟩⟩)
        | (intro x; exact ⟨rfl, rfl, rfl, rfl, fun hlt => absurd hlt (by omega)⟩)
        | (intro x; refine ⟨fun _ => ?_, fun _ => ?_⟩ <;> first | omega | ((repeat' apply And.intro) <;> rfl))
        | (intro x; exact .inr ⟨rfl, .inl (Nat.le_refl _)⟩)
        | (intro x; rfl)
        | (intro x; exact Stand.same_withArm x _ _ rfl rfl)
        | exact Job.splices_same
        | exact Job.breaks_same
        | exact Job.chargeConsumed_same _ _
        | (intro j; exact ⟨rfl, id, fun _ => ⟨rfl, rfl, rfl⟩⟩)
        | (intro j; exact ⟨rfl, id, fun hlt => absurd hlt (by omega)⟩)
        | (intro x; exact ⟨fun b => b, fun _ => ⟨rfl, rfl, rfl, rfl, rfl⟩⟩)
        | (intro x; exact ⟨fun b => ⟨by omega, by (try split) <;> simp_all [Station.bounded], b.2.2⟩, fun hlt => absurd hlt (by omega)⟩)
        | exact Job.chargeStrip_same _ _
        | exact Job.chargeStub_same _ _
        | omega
  clear_value s1
  have h_s2 : Wr k s₀ s2 := by
    dsimp only [s2]
    repeat' first
        | with_reducible assumption
        | split
        | with_reducible apply State.wr_modVehicle
        | with_reducible apply State.wr_sendVehicle
        | with_reducible apply State.wr_clearMarks
        | with_reducible apply State.wr_restartProgress
        | with_reducible apply State.wr_reviewCallOff
        | with_reducible apply State.wr_convert
        | with_reducible apply State.wr_refuse
        | (intro x; exact ⟨rfl, rfl, rfl, rfl, fun _ => ⟨rfl, rfl, rfl⟩⟩)
        | (intro x; exact ⟨rfl, rfl, rfl, rfl, fun hlt => absurd hlt (by omega)⟩)
        | (intro x; refine ⟨fun _ => ?_, fun _ => ?_⟩ <;> first | omega | ((repeat' apply And.intro) <;> rfl))
        | (intro x; exact .inr ⟨rfl, .inl (Nat.le_refl _)⟩)
        | (intro x; rfl)
        | (intro x; exact Stand.same_withArm x _ _ rfl rfl)
        | exact Job.splices_same
        | exact Job.breaks_same
        | exact Job.chargeConsumed_same _ _
        | (intro j; exact ⟨rfl, id, fun _ => ⟨rfl, rfl, rfl⟩⟩)
        | (intro j; exact ⟨rfl, id, fun hlt => absurd hlt (by omega)⟩)
        | (intro x; exact ⟨fun b => b, fun _ => ⟨rfl, rfl, rfl, rfl, rfl⟩⟩)
        | (intro x; exact ⟨fun b => ⟨by omega, by (try split) <;> simp_all [Station.bounded], b.2.2⟩, fun hlt => absurd hlt (by omega)⟩)
        | exact Job.chargeStrip_same _ _
        | exact Job.chargeStub_same _ _
        | omega
  clear_value s2
  repeat' first
      | with_reducible assumption
      | split
      | with_reducible apply State.wr_modVehicle
      | with_reducible apply State.wr_sendVehicle
      | with_reducible apply State.wr_clearMarks
      | with_reducible apply State.wr_restartProgress
      | with_reducible apply State.wr_reviewCallOff
      | with_reducible apply State.wr_convert
      | with_reducible apply State.wr_refuse
      | (intro x; exact ⟨rfl, rfl, rfl, rfl, fun _ => ⟨rfl, rfl, rfl⟩⟩)
      | (intro x; exact ⟨rfl, rfl, rfl, rfl, fun hlt => absurd hlt (by omega)⟩)
      | (intro x; refine ⟨fun _ => ?_, fun _ => ?_⟩ <;> first | omega | ((repeat' apply And.intro) <;> rfl))
      | (intro x; exact .inr ⟨rfl, .inl (Nat.le_refl _)⟩)
      | (intro x; rfl)
      | (intro x; exact Stand.same_withArm x _ _ rfl rfl)
      | exact Job.splices_same
      | exact Job.breaks_same
      | exact Job.chargeConsumed_same _ _
      | (intro j; exact ⟨rfl, id, fun _ => ⟨rfl, rfl, rfl⟩⟩)
      | (intro j; exact ⟨rfl, id, fun hlt => absurd hlt (by omega)⟩)
      | (intro x; exact ⟨fun b => b, fun _ => ⟨rfl, rfl, rfl, rfl, rfl⟩⟩)
      | (intro x; exact ⟨fun b => ⟨by omega, by (try split) <;> simp_all [Station.bounded], b.2.2⟩, fun hlt => absurd hlt (by omega)⟩)
      | exact Job.chargeStrip_same _ _
      | exact Job.chargeStub_same _ _
      | omega

theorem State.wr_unloadedAtArm (h : Wr k s₀ s) (hk : 4 ≤ k) (a v n : Nat) (o : Order) (r st : Nat) (arm : Arm) (drop : Nat) : Wr k s₀ (s.unloadedAtArm a v n o r st arm drop) := by
  unfold State.unloadedAtArm
  try dsimp only
  repeat' first
      | with_reducible assumption
      | split
      | with_reducible apply State.wr_unloadAtArm
      | with_reducible apply State.wr_accept
      | with_reducible apply State.wr_moveRefused
      | with_reducible apply State.wr_unloadedAt
      | with_reducible apply State.wr_refuseDelivery
      | (intro x; exact ⟨rfl, rfl, rfl, rfl, fun _ => ⟨rfl, rfl, rfl⟩⟩)
      | (intro x; exact ⟨rfl, rfl, rfl, rfl, fun hlt => absurd hlt (by omega)⟩)
      | (intro x; refine ⟨fun _ => ?_, fun _ => ?_⟩ <;> first | omega | ((repeat' apply And.intro) <;> rfl))
      | (intro x; exact .inr ⟨rfl, .inl (Nat.le_refl _)⟩)
      | (intro x; rfl)
      | (intro x; exact Stand.same_withArm x _ _ rfl rfl)
      | exact Job.splices_same
      | exact Job.breaks_same
      | exact Job.chargeConsumed_same _ _
      | (intro j; exact ⟨rfl, id, fun _ => ⟨rfl, rfl, rfl⟩⟩)
      | (intro j; exact ⟨rfl, id, fun hlt => absurd hlt (by omega)⟩)
      | (intro x; exact ⟨fun b => b, fun _ => ⟨rfl, rfl, rfl, rfl, rfl⟩⟩)
      | (intro x; exact ⟨fun b => ⟨by omega, by (try split) <;> simp_all [Station.bounded], b.2.2⟩, fun hlt => absurd hlt (by omega)⟩)
      | exact Job.chargeStrip_same _ _
      | exact Job.chargeStub_same _ _
      | omega

theorem State.wr_takeUnloaded (h : Wr k s₀ s) (hk : 4 ≤ k) (a v : Nat) : Wr k s₀ (s.takeUnloaded a v) := by
  unfold State.takeUnloaded
  split
  · exact State.wr_moveRefused h hk _ _ _
  · dsimp only
    split
    · split
      · next e => exact State.wr_unloadedAt (State.wr_unloadIntoBay h (by omega) _ _ _ _ e) hk _ _ _
      · exact State.wr_moveRefused h hk _ _ _
    · split
      · next e => exact State.wr_unloadedAt (State.wr_unloadAtNode h (by omega) _ _ _ _ e) hk _ _ _
      · exact State.wr_moveRefused h hk _ _ _
    · exact State.wr_unloadedAtArm h hk _ _ _ _ _ _ _ _
    · exact State.wr_moveRefused h hk _ _ _

theorem State.wr_idleAt (h : Wr k s₀ s) (hk : 4 ≤ k) (v x : Nat) : Wr k s₀ (s.idleAt v x) := by
  unfold State.idleAt
  try dsimp only
  repeat' first
      | with_reducible assumption
      | split
      | with_reducible apply State.wr_enterIdle
      | with_reducible apply State.wr_freeOrder
      | (intro x; exact ⟨rfl, rfl, rfl, rfl, fun _ => ⟨rfl, rfl, rfl⟩⟩)
      | (intro x; exact ⟨rfl, rfl, rfl, rfl, fun hlt => absurd hlt (by omega)⟩)
      | (intro x; refine ⟨fun _ => ?_, fun _ => ?_⟩ <;> first | omega | ((repeat' apply And.intro) <;> rfl))
      | (intro x; exact .inr ⟨rfl, .inl (Nat.le_refl _)⟩)
      | (intro x; rfl)
      | (intro x; exact Stand.same_withArm x _ _ rfl rfl)
      | exact Job.splices_same
      | exact Job.breaks_same
      | exact Job.chargeConsumed_same _ _
      | (intro j; exact ⟨rfl, id, fun _ => ⟨rfl, rfl, rfl⟩⟩)
      | (intro j; exact ⟨rfl, id, fun hlt => absurd hlt (by omega)⟩)
      | (intro x; exact ⟨fun b => b, fun _ => ⟨rfl, rfl, rfl, rfl, rfl⟩⟩)
      | (intro x; exact ⟨fun b => ⟨by omega, by (try split) <;> simp_all [Station.bounded], b.2.2⟩, fun hlt => absurd hlt (by omega)⟩)
      | exact Job.chargeStrip_same _ _
      | exact Job.chargeStub_same _ _
      | omega

theorem State.wr_retask (h : Wr k s₀ s) (hk : 4 ≤ k) (v x n : Nat) (o : Order) : Wr k s₀ (s.retask v x n o) := by
  unfold State.retask
  try dsimp only
  repeat' first
      | with_reducible assumption
      | split
      | with_reducible apply State.wr_modVehicle
      | with_reducible apply State.wr_syncProgress
      | with_reducible apply State.wr_stall
      | with_reducible apply State.wr_sendTask
      | (intro x; exact ⟨rfl, rfl, rfl, rfl, fun _ => ⟨rfl, rfl, rfl⟩⟩)
      | (intro x; exact ⟨rfl, rfl, rfl, rfl, fun hlt => absurd hlt (by omega)⟩)
      | (intro x; refine ⟨fun _ => ?_, fun _ => ?_⟩ <;> first | omega | ((repeat' apply And.intro) <;> rfl))
      | (intro x; exact .inr ⟨rfl, .inl (Nat.le_refl _)⟩)
      | (intro x; rfl)
      | (intro x; exact Stand.same_withArm x _ _ rfl rfl)
      | exact Job.splices_same
      | exact Job.breaks_same
      | exact Job.chargeConsumed_same _ _
      | (intro j; exact ⟨rfl, id, fun _ => ⟨rfl, rfl, rfl⟩⟩)
      | (intro j; exact ⟨rfl, id, fun hlt => absurd hlt (by omega)⟩)
      | (intro x; exact ⟨fun b => b, fun _ => ⟨rfl, rfl, rfl, rfl, rfl⟩⟩)
      | (intro x; exact ⟨fun b => ⟨by omega, by (try split) <;> simp_all [Station.bounded], b.2.2⟩, fun hlt => absurd hlt (by omega)⟩)
      | exact Job.chargeStrip_same _ _
      | exact Job.chargeStub_same _ _
      | omega

theorem State.wr_takeIdle (h : Wr k s₀ s) (hk : 4 ≤ k) (v x : Nat) : Wr k s₀ (s.takeIdle v x) := by
  unfold State.takeIdle
  try dsimp only
  repeat' first
      | with_reducible assumption
      | split
      | with_reducible apply State.wr_enterIdle
      | with_reducible apply State.wr_idleAt
      | with_reducible apply State.wr_retask
      | (intro x; exact ⟨rfl, rfl, rfl, rfl, fun _ => ⟨rfl, rfl, rfl⟩⟩)
      | (intro x; exact ⟨rfl, rfl, rfl, rfl, fun hlt => absurd hlt (by omega)⟩)
      | (intro x; refine ⟨fun _ => ?_, fun _ => ?_⟩ <;> first | omega | ((repeat' apply And.intro) <;> rfl))
      | (intro x; exact .inr ⟨rfl, .inl (Nat.le_refl _)⟩)
      | (intro x; rfl)
      | (intro x; exact Stand.same_withArm x _ _ rfl rfl)
      | exact Job.splices_same
      | exact Job.breaks_same
      | exact Job.chargeConsumed_same _ _
      | (intro j; exact ⟨rfl, id, fun _ => ⟨rfl, rfl, rfl⟩⟩)
      | (intro j; exact ⟨rfl, id, fun hlt => absurd hlt (by omega)⟩)
      | (intro x; exact ⟨fun b => b, fun _ => ⟨rfl, rfl, rfl, rfl, rfl⟩⟩)
      | (intro x; exact ⟨fun b => ⟨by omega, by (try split) <;> simp_all [Station.bounded], b.2.2⟩, fun hlt => absurd hlt (by omega)⟩)
      | exact Job.chargeStrip_same _ _
      | exact Job.chargeStub_same _ _
      | omega

theorem State.wr_failLoading (h : Wr k s₀ s) (hk : 4 ≤ k) (v n : Nat) (o : Order) : Wr k s₀ (s.failLoading v n o) := by
  unfold State.failLoading
  try dsimp only
  repeat' first
      | with_reducible assumption
      | split
      | with_reducible apply State.wr_notice
      | with_reducible apply State.wr_sendVehicle
      | with_reducible apply State.wr_failInPlace
      | with_reducible apply State.wr_stall
      | with_reducible apply State.wr_failOrder
      | (intro x; exact ⟨rfl, rfl, rfl, rfl, fun _ => ⟨rfl, rfl, rfl⟩⟩)
      | (intro x; exact ⟨rfl, rfl, rfl, rfl, fun hlt => absurd hlt (by omega)⟩)
      | (intro x; refine ⟨fun _ => ?_, fun _ => ?_⟩ <;> first | omega | ((repeat' apply And.intro) <;> rfl))
      | (intro x; exact .inr ⟨rfl, .inl (Nat.le_refl _)⟩)
      | (intro x; rfl)
      | (intro x; exact Stand.same_withArm x _ _ rfl rfl)
      | exact Job.splices_same
      | exact Job.breaks_same
      | exact Job.chargeConsumed_same _ _
      | (intro j; exact ⟨rfl, id, fun _ => ⟨rfl, rfl, rfl⟩⟩)
      | (intro j; exact ⟨rfl, id, fun hlt => absurd hlt (by omega)⟩)
      | (intro x; exact ⟨fun b => b, fun _ => ⟨rfl, rfl, rfl, rfl, rfl⟩⟩)
      | (intro x; exact ⟨fun b => ⟨by omega, by (try split) <;> simp_all [Station.bounded], b.2.2⟩, fun hlt => absurd hlt (by omega)⟩)
      | exact Job.chargeStrip_same _ _
      | exact Job.chargeStub_same _ _
      | omega

theorem State.wr_transferExpires (h : Wr k s₀ s) (hk : 4 ≤ k) (v : Nat) : Wr k s₀ (s.transferExpires v) := by
  unfold State.transferExpires
  try dsimp only
  repeat' first
      | with_reducible assumption
      | split
      | with_reducible apply State.wr_stall
      | with_reducible apply State.wr_failLoading
      | (intro x; exact ⟨rfl, rfl, rfl, rfl, fun _ => ⟨rfl, rfl, rfl⟩⟩)
      | (intro x; exact ⟨rfl, rfl, rfl, rfl, fun hlt => absurd hlt (by omega)⟩)
      | (intro x; refine ⟨fun _ => ?_, fun _ => ?_⟩ <;> first | omega | ((repeat' apply And.intro) <;> rfl))
      | (intro x; exact .inr ⟨rfl, .inl (Nat.le_refl _)⟩)
      | (intro x; rfl)
      | (intro x; exact Stand.same_withArm x _ _ rfl rfl)
      | exact Job.splices_same
      | exact Job.breaks_same
      | exact Job.chargeConsumed_same _ _
      | (intro j; exact ⟨rfl, id, fun _ => ⟨rfl, rfl, rfl⟩⟩)
      | (intro j; exact ⟨rfl, id, fun hlt => absurd hlt (by omega)⟩)
      | (intro x; exact ⟨fun b => b, fun _ => ⟨rfl, rfl, rfl, rfl, rfl⟩⟩)
      | (intro x; exact ⟨fun b => ⟨by omega, by (try split) <;> simp_all [Station.bounded], b.2.2⟩, fun hlt => absurd hlt (by omega)⟩)
      | exact Job.chargeStrip_same _ _
      | exact Job.chargeStub_same _ _
      | omega

theorem Station.fresh_bounded (p : Nat) (r : Role) : (Station.fresh p r).bounded := by simp [Station.bounded, Station.fresh]

theorem State.wr_configureStation (h : Wr k s₀ s) (hk : 4 ≤ k) (a : Nat) (r : Role) : Wr k s₀ (s.configureStation a r).state := by
  unfold State.configureStation
  repeat' split
  all_goals first
    | exact h
    | exact h.putStation hk a (by intro x hx; cases hx; exact Station.fresh_bounded _ _)

theorem State.wr_abandon (h : Wr k s₀ s) (hk : 4 ≤ k) (a : Nat) : Wr k s₀ (s.abandon a) := by
  unfold State.abandon
  dsimp only
  split
  · exact h.other hk ⟨rfl, rfl, rfl, rfl, rfl, rfl, rfl, rfl, rfl, rfl, rfl, rfl, rfl, rfl, rfl⟩
  · exact h.other hk ⟨rfl, rfl, rfl, rfl, rfl, rfl, rfl, rfl, rfl, rfl, rfl, rfl, rfl, rfl, rfl⟩

theorem State.wr_clearStation (h : Wr k s₀ s) (hk : 4 ≤ k) (a : Nat) : Wr k s₀ (s.clearStation a).state := by
  unfold State.clearStation
  repeat' split
  all_goals first
    | exact h
    | exact State.wr_abandon (h.putStation hk a (by intro x hx; cases hx)) hk a

theorem State.wr_stationSettings (h : Wr k s₀ s) (hk : 4 ≤ k) (r : Option Rate) (w : Nat) : Wr k s₀ (s.stationSettings r w).state := by
  unfold State.stationSettings
  repeat' split
  all_goals first
    | exact h
    | exact h.other hk ⟨rfl, rfl, rfl, rfl, rfl, rfl, rfl, rfl, rfl, rfl, rfl, rfl, rfl, rfl, rfl⟩

theorem State.wr_readStation (h : Wr k s₀ s) (_hk : 4 ≤ k) (a : Nat) : Wr k s₀ (s.readStation a).state := by
  unfold State.readStation
  try dsimp only
  repeat' first
      | with_reducible assumption
      | split
      | with_reducible apply State.wr_no
      | with_reducible apply State.wr_okWith
      | (intro x; exact ⟨rfl, rfl, rfl, rfl, fun _ => ⟨rfl, rfl, rfl⟩⟩)
      | (intro x; exact ⟨rfl, rfl, rfl, rfl, fun hlt => absurd hlt (by omega)⟩)
      | (intro x; refine ⟨fun _ => ?_, fun _ => ?_⟩ <;> first | omega | ((repeat' apply And.intro) <;> rfl))
      | (intro x; exact .inr ⟨rfl, .inl (Nat.le_refl _)⟩)
      | (intro x; rfl)
      | (intro x; exact Stand.same_withArm x _ _ rfl rfl)
      | exact Job.splices_same
      | exact Job.breaks_same
      | exact Job.chargeConsumed_same _ _
      | (intro j; exact ⟨rfl, id, fun _ => ⟨rfl, rfl, rfl⟩⟩)
      | (intro j; exact ⟨rfl, id, fun hlt => absurd hlt (by omega)⟩)
      | (intro x; exact ⟨fun b => b, fun _ => ⟨rfl, rfl, rfl, rfl, rfl⟩⟩)
      | (intro x; exact ⟨fun b => ⟨by omega, by (try split) <;> simp_all [Station.bounded], b.2.2⟩, fun hlt => absurd hlt (by omega)⟩)
      | exact Job.chargeStrip_same _ _
      | exact Job.chargeStub_same _ _
      | omega

theorem State.wr_readNextStation (h : Wr k s₀ s) (_hk : 4 ≤ k) (a : Nat) : Wr k s₀ (s.readNextStation a).state := by
  unfold State.readNextStation
  try dsimp only
  repeat' first
      | with_reducible assumption
      | split
      | with_reducible apply State.wr_no
      | with_reducible apply State.wr_okWith
      | (intro x; exact ⟨rfl, rfl, rfl, rfl, fun _ => ⟨rfl, rfl, rfl⟩⟩)
      | (intro x; exact ⟨rfl, rfl, rfl, rfl, fun hlt => absurd hlt (by omega)⟩)
      | (intro x; refine ⟨fun _ => ?_, fun _ => ?_⟩ <;> first | omega | ((repeat' apply And.intro) <;> rfl))
      | (intro x; exact .inr ⟨rfl, .inl (Nat.le_refl _)⟩)
      | (intro x; rfl)
      | (intro x; exact Stand.same_withArm x _ _ rfl rfl)
      | exact Job.splices_same
      | exact Job.breaks_same
      | exact Job.chargeConsumed_same _ _
      | (intro j; exact ⟨rfl, id, fun _ => ⟨rfl, rfl, rfl⟩⟩)
      | (intro j; exact ⟨rfl, id, fun hlt => absurd hlt (by omega)⟩)
      | (intro x; exact ⟨fun b => b, fun _ => ⟨rfl, rfl, rfl, rfl, rfl⟩⟩)
      | (intro x; exact ⟨fun b => ⟨by omega, by (try split) <;> simp_all [Station.bounded], b.2.2⟩, fun hlt => absurd hlt (by omega)⟩)
      | exact Job.chargeStrip_same _ _
      | exact Job.chargeStub_same _ _
      | omega

theorem State.wr_windowExpires (h : Wr k s₀ s) (hk : 4 ≤ k) : Wr k s₀ s.windowExpires := by
  unfold State.windowExpires
  repeat' split
  all_goals first
    | exact State.wr_missed h hk
    | exact h
    | exact h.other hk ⟨rfl, rfl, rfl, rfl, rfl, rfl, rfl, rfl, rfl, rfl, rfl, rfl, rfl, rfl, rfl⟩

theorem State.wr_sendBroadcast (h : Wr k s₀ s) (hk : 4 ≤ k) : Wr k s₀ s.sendBroadcast := by
  unfold State.sendBroadcast
  split
  · exact h.other hk ⟨rfl, rfl, rfl, rfl, rfl, rfl, rfl, rfl, rfl, rfl, rfl, rfl, rfl, rfl, rfl⟩
  · exact h

theorem State.wr_mainCleared (h : Wr k s₀ s) (hk : 4 ≤ k) : Wr k s₀ s.mainCleared := by
  unfold State.mainCleared
  extract_lets s2 s3 s4 s5 s6
  have h2 : Wr k s₀ s2 := State.wr_each h _ _ fun n t ht =>
    State.wr_modLine ht (by omega) n _ fun x => ⟨fun hlt => absurd hlt (by omega), fun hlt => absurd hlt (by omega)⟩
  have h3 : Wr k s₀ s3 := State.wr_each h2 _ _ fun n t ht =>
    State.wr_modStand ht n _ fun x => ⟨fun hlt => absurd hlt (by omega), fun hlt => absurd hlt (by omega)⟩
  have h4 : Wr k s₀ s4 := State.wr_each h3 _ _ fun n t ht => State.wr_modVehicle ht n _
  have h5 : Wr k s₀ s5 := State.wr_each h4 _ _ fun n t ht => ht.segment (by omega) fun hlt => absurd hlt (by omega)
  have h6 : Wr k s₀ s6 := State.wr_each h5 _ _ fun n t ht =>
    State.wr_modStation ht n _ fun x => ⟨fun _ => Station.fresh_bounded _ _, fun hlt => absurd hlt (by omega)⟩
  clear_value s6
  exact (h6.attnClear hk).other hk ⟨rfl, rfl, rfl, rfl, rfl, rfl, rfl, rfl, rfl, rfl, rfl, rfl, rfl, rfl, rfl⟩

theorem State.wr_orderAtStart (h : Wr k s₀ s) (_hk : 4 ≤ k) (n : Nat) : Wr k s₀ (s.orderAtStart n) := by
  unfold State.orderAtStart
  try dsimp only
  repeat' first
      | with_reducible assumption
      | split
      | with_reducible apply State.wr_freeOrder
      | with_reducible apply State.wr_returnToPending
      | (intro x; exact ⟨rfl, rfl, rfl, rfl, fun _ => ⟨rfl, rfl, rfl⟩⟩)
      | (intro x; exact ⟨rfl, rfl, rfl, rfl, fun hlt => absurd hlt (by omega)⟩)
      | (intro x; refine ⟨fun _ => ?_, fun _ => ?_⟩ <;> first | omega | ((repeat' apply And.intro) <;> rfl))
      | (intro x; exact .inr ⟨rfl, .inl (Nat.le_refl _)⟩)
      | (intro x; rfl)
      | (intro x; exact Stand.same_withArm x _ _ rfl rfl)
      | exact Job.splices_same
      | exact Job.breaks_same
      | exact Job.chargeConsumed_same _ _
      | (intro j; exact ⟨rfl, id, fun _ => ⟨rfl, rfl, rfl⟩⟩)
      | (intro j; exact ⟨rfl, id, fun hlt => absurd hlt (by omega)⟩)
      | (intro x; exact ⟨fun b => b, fun _ => ⟨rfl, rfl, rfl, rfl, rfl⟩⟩)
      | (intro x; exact ⟨fun b => ⟨by omega, by (try split) <;> simp_all [Station.bounded], b.2.2⟩, fun hlt => absurd hlt (by omega)⟩)
      | exact Job.chargeStrip_same _ _
      | exact Job.chargeStub_same _ _
      | omega

theorem State.wr_deadlineAtStart (h : Wr k s₀ s) (_hk : 4 ≤ k) (n : Nat) : Wr k s₀ (s.deadlineAtStart n) := by
  unfold State.deadlineAtStart
  try dsimp only
  repeat' first
      | with_reducible assumption
      | split
      | with_reducible apply State.wr_modOrder
      | (intro x; exact ⟨rfl, rfl, rfl, rfl, fun _ => ⟨rfl, rfl, rfl⟩⟩)
      | (intro x; exact ⟨rfl, rfl, rfl, rfl, fun hlt => absurd hlt (by omega)⟩)
      | (intro x; refine ⟨fun _ => ?_, fun _ => ?_⟩ <;> first | omega | ((repeat' apply And.intro) <;> rfl))
      | (intro x; exact .inr ⟨rfl, .inl (Nat.le_refl _)⟩)
      | (intro x; rfl)
      | (intro x; exact Stand.same_withArm x _ _ rfl rfl)
      | exact Job.splices_same
      | exact Job.breaks_same
      | exact Job.chargeConsumed_same _ _
      | (intro j; exact ⟨rfl, id, fun _ => ⟨rfl, rfl, rfl⟩⟩)
      | (intro j; exact ⟨rfl, id, fun hlt => absurd hlt (by omega)⟩)
      | (intro x; exact ⟨fun b => b, fun _ => ⟨rfl, rfl, rfl, rfl, rfl⟩⟩)
      | (intro x; exact ⟨fun b => ⟨by omega, by (try split) <;> simp_all [Station.bounded], b.2.2⟩, fun hlt => absurd hlt (by omega)⟩)
      | exact Job.chargeStrip_same _ _
      | exact Job.chargeStub_same _ _
      | omega

theorem State.wr_standAtStart (h : Wr k s₀ s) (hk : 4 ≤ k) (st : Nat) : Wr k s₀ (s.standAtStart st) := by
  unfold State.standAtStart
  try dsimp only
  repeat' first
      | with_reducible assumption
      | split
      | with_reducible apply State.wr_modStand
      | (intro x; exact ⟨rfl, rfl, rfl, rfl, fun _ => ⟨rfl, rfl, rfl⟩⟩)
      | (intro x; exact ⟨rfl, rfl, rfl, rfl, fun hlt => absurd hlt (by omega)⟩)
      | (intro x; refine ⟨fun _ => ?_, fun _ => ?_⟩ <;> first | omega | ((repeat' apply And.intro) <;> rfl))
      | (intro x; exact .inr ⟨rfl, .inl (Nat.le_refl _)⟩)
      | (intro x; rfl)
      | (intro x; exact Stand.same_withArm x _ _ rfl rfl)
      | exact Job.splices_same
      | exact Job.breaks_same
      | exact Job.chargeConsumed_same _ _
      | (intro j; exact ⟨rfl, id, fun _ => ⟨rfl, rfl, rfl⟩⟩)
      | (intro j; exact ⟨rfl, id, fun hlt => absurd hlt (by omega)⟩)
      | (intro x; exact ⟨fun b => b, fun _ => ⟨rfl, rfl, rfl, rfl, rfl⟩⟩)
      | (intro x; exact ⟨fun b => ⟨by omega, by (try split) <;> simp_all [Station.bounded], b.2.2⟩, fun hlt => absurd hlt (by omega)⟩)
      | exact Job.chargeStrip_same _ _
      | exact Job.chargeStub_same _ _
      | exact fun _ h => h
      | omega

theorem State.wr_lineAtStart (h : Wr k s₀ s) (hk : 4 ≤ k) (l : Nat) : Wr k s₀ (s.lineAtStart l) := by
  unfold State.lineAtStart
  refine State.wr_stop ?_ (by omega) l _
  split
  · exact State.wr_modLine h (by omega) l _ fun _ => ⟨fun hlt => absurd hlt (by omega), fun hlt => absurd hlt (by omega)⟩
  · exact h

theorem State.wr_warmStart (h : Wr k s₀ s) (hk : 4 ≤ k) (c : StartCause) : Wr k s₀ (s.warmStart c) := by
  unfold State.warmStart
  extract_lets s0 s1 s2 s3 s4 s5 s6
  have h0 : Wr k s₀ s0 := State.wr_mainCleared (State.wr_each (State.wr_fresh h hk) _ _ fun st t ht => State.wr_dropPasteDrive ht st) hk
  have h1 : Wr k s₀ s1 := State.wr_each h0 _ _ fun n t ht =>
    State.wr_modBay ht (by omega) n _ fun b => .inr ⟨rfl, .inl (Nat.le_refl _)⟩
  have h2 : Wr k s₀ s2 := State.wr_each h1 _ _ fun n t ht => State.wr_orderAtStart ht hk n
  have h3 : Wr k s₀ s3 := State.wr_each h2 _ _ fun n t ht => State.wr_standAtStart ht hk n
  have h4 : Wr k s₀ s4 := State.wr_each (State.wr_each h3 _ _ fun n t ht => State.wr_lineAtStart ht hk n) _ _ fun n t ht =>
    State.wr_brake ht (by omega) n _
  have h5 : Wr k s₀ s5 := State.wr_each h4 _ _ fun n t ht => State.wr_deadlineAtStart ht hk n
  have h6 : Wr k s₀ s6 := State.wr_each h5 _ _ fun n t ht => State.wr_evalCallOff ht n
  clear_value s6
  have g : Wr k s₀ { s6 with powered := true, startKind := .warm, startCause := c, standby := .running, passDue := false, attn := [] } :=
    (h6.attnClear hk).other hk ⟨rfl, rfl, rfl, rfl, rfl, rfl, rfl, rfl, rfl, rfl, rfl, rfl, rfl, rfl, rfl⟩
  exact State.wr_raise g _ _

theorem State.wr_standbyRequest (h : Wr k s₀ s) (hk : 4 ≤ k) : Wr k s₀ s.standbyRequest.state := by
  have g := State.wr_halt h hk
  unfold State.standbyRequest
  generalize s.halt = u at g
  split
  · exact h
  · exact g.other hk ⟨rfl, rfl, rfl, rfl, rfl, rfl, rfl, rfl, rfl, rfl, rfl, rfl, rfl, rfl, rfl⟩

theorem State.wr_dropOutputs (h : Wr k s₀ s) (hk : 4 ≤ k) : Wr k s₀ s.dropOutputs :=
  State.wr_each (State.wr_each h _ _ fun st _ ht => State.wr_brake (State.wr_dropPasteDrive ht st) (by omega) st false) _ _
    fun l _ ht => State.wr_stop ht (by omega) l false

theorem State.wr_enterStandby (h : Wr k s₀ s) (hk : 4 ≤ k) : Wr k s₀ s.enterStandby := by
  have g := State.wr_mainCleared (State.wr_dropOutputs h hk) hk
  unfold State.enterStandby
  dsimp only
  generalize s.dropOutputs.mainCleared = u at g
  exact g.other hk ⟨rfl, rfl, rfl, rfl, rfl, rfl, rfl, rfl, rfl, rfl, rfl, rfl, rfl, rfl, rfl⟩

theorem State.wr_restart (h : Wr k s₀ s) (hk : 4 ≤ k) (n : Nat) : Wr k s₀ (s.restart n) :=
  State.wr_discards (State.wr_warmStart h hk _) hk _ _

theorem State.wr_readAttentionRequest (h : Wr k s₀ s) (hk : 4 ≤ k) : Wr k s₀ s.readAttentionRequest.state := h.attnClear hk

theorem State.wr_judge (h : Wr k s₀ s) (hk : 4 ≤ k) (kind : Byte) (bytes : List Byte) : Wr k s₀ (s.judge kind bytes) := by
  unfold State.judge
  split
  · exact State.wr_discards (State.wr_answered (h.attnClear hk) hk _ _ _) hk _ _
  · exact State.wr_restart h hk _
  · exact h.other hk ⟨rfl, rfl, rfl, rfl, rfl, rfl, rfl, rfl, rfl, rfl, rfl, rfl, rfl, rfl, rfl⟩
  · exact State.wr_discards (State.wr_answered h hk _ _ _) hk _ _

theorem State.wr_transaction (h : Wr k s₀ s) (hk : 4 ≤ k) (kind : Byte) (bytes : List Byte) : Wr k s₀ (s.transaction kind bytes) := by
  unfold State.transaction State.judgeEntering
  repeat' split
  all_goals first
    | exact State.wr_discards h hk _ _
    | exact State.wr_judge h hk _ _
    | exact State.wr_restart h hk _

theorem State.wr_countTimers (h : Wr k s₀ s) (hk : 4 ≤ k) : Wr k s₀ s.countTimers := by
  unfold State.countTimers
  extract_lets s1 s2
  have h1 : Wr k s₀ s1 := State.wr_each h _ _ fun n t ht =>
    State.wr_modStand ht n _ fun x => ⟨fun _ => ⟨rfl, rfl, rfl, rfl, rfl, rfl, rfl⟩, fun hlt => absurd hlt (by omega)⟩
  have h2 : Wr k s₀ s2 := State.wr_each h1 _ _ fun n t ht => State.wr_modVehicle ht n _
  clear_value s2
  exact h2.other hk ⟨rfl, rfl, rfl, rfl, rfl, rfl, rfl, rfl, rfl, rfl, rfl, rfl, rfl, rfl, rfl⟩

theorem State.wr_tick (h : Wr k s₀ s) (hk : 4 ≤ k) : Wr k s₀ s.tick := by
  unfold State.tick
  split
  · refine (State.wr_countTimers (s := s.advance) ?_ hk).other hk ⟨rfl, rfl, rfl, rfl, rfl, rfl, rfl, rfl, rfl, rfl, rfl, rfl, rfl, rfl, rfl⟩
    unfold State.advance
    split
    · exact h.other hk ⟨rfl, rfl, rfl, rfl, rfl, rfl, rfl, rfl, rfl, rfl, rfl, rfl, rfl, rfl, rfl⟩
    · exact h.other hk ⟨rfl, rfl, rfl, rfl, rfl, rfl, rfl, rfl, rfl, rfl, rfl, rfl, rfl, rfl, rfl⟩
  · exact h

end Sys2Proof.Machine
end

