-- ==== Sys2Proof/Laws/Kept.lean ====
section
/-! SUPPORT. What a chain of writes leaves as it was, by its level. -/

namespace Sys2Proof.Machine

variable {k : Nat} {s t : State}

/-- Two states alike in everything but the tables that a chain of writes below level 4 may write. -/
structure Kept (s t : State) : Prop where
  powered : t.powered = s.powered
  timeBase : t.timeBase = s.timeBase
  subMs : t.subMs = s.subMs
  micros : t.micros = s.micros
  arrival : t.arrival = s.arrival
  grades : t.grades = s.grades
  nodes : t.nodes = s.nodes
  routes : t.routes = s.routes
  progressTimeout : t.progressTimeout = s.progressTimeout
  transferTimeout : t.transferTimeout = s.transferTimeout
  urgentMargin : t.urgentMargin = s.urgentMargin
  halted : t.halted = s.halted
  rate : t.rate = s.rate
  replyWindow : t.replyWindow = s.replyWindow
  cycle : t.cycle = s.cycle
  further : t.further = s.further
  exchange : t.exchange = s.exchange
  receiver : t.receiver = s.receiver
  pendingBroadcast : t.pendingBroadcast = s.pendingBroadcast
  port : t.port = s.port
  startKind : t.startKind = s.startKind
  startCause : t.startCause = s.startCause
  standby : t.standby = s.standby
  shifted : t.shifted = s.shifted
  lineOut : t.lineOut = s.lineOut
  pending : t.pending = s.pending

theorem Kept.refl (s : State) : Kept s s := ⟨rfl, rfl, rfl, rfl, rfl, rfl, rfl, rfl, rfl, rfl, rfl, rfl, rfl, rfl, rfl, rfl, rfl, rfl, rfl, rfl, rfl, rfl, rfl, rfl, rfl, rfl⟩

/-- A chain of writes below level 4 leaves all but the tables. -/
theorem Wr.kept (h : Wr k s t) (hk : k < 4) : Kept s t := by
  induction h with
  | refl => exact Kept.refl s
  | other _ h4 _ _ => omega
  | freeRoll _ _ _ ih | small _ _ _ ih | roll _ _ _ ih | bay _ _ _ ih | line _ _ _ ih | stand _ _ _ ih | job _ _ _ _ ih
  | order _ _ _ ih | freeOrder _ _ ih | newOrder _ _ _ _ _ ih | vehicle _ _ _ ih | segment _ _ _ ih | station _ _ _ ih | raised _ _ _ _ _ ih =>
    obtain ⟨a1, a2, a3, a4, a5, a6, a7, a8, a9, b1, b2, b3, b4, b5, b6, b7, b8, b9, c1, c2, c3, c4, c5, c6, c7, c8⟩ := ih
    exact ⟨a1, a2, a3, a4, a5, a6, a7, a8, a9, b1, b2, b3, b4, b5, b6, b7, b8, b9, c1, c2, c3, c4, c5, c6, c7, c8⟩
  | newRoll _ h4 | grade _ h4 | putJob _ h4 | node _ h4 | route _ h4 | putStation _ h4 | attnClear _ h4 | cold _ h4 => omega

/-- A chain of writes below level 2 leaves lines and jobs. -/
theorem Wr.kept_lines (h : Wr k s t) (hk : k < 2) : t.lines = s.lines ∧ t.jobs = s.jobs := by
  induction h with
  | refl => exact ⟨rfl, rfl⟩
  | other _ h4 _ _ => omega
  | small _ _ _ ih | roll _ _ _ ih | bay _ _ _ ih | stand _ _ _ ih
  | order _ _ _ ih | freeOrder _ _ ih | newOrder _ _ _ _ _ ih | vehicle _ _ _ ih | segment _ _ _ ih | station _ _ _ ih | raised _ _ _ _ _ ih =>
    exact ih
  | freeRoll _ h4 | line _ h4 | job _ h4 | newRoll _ h4 | grade _ h4 | putJob _ h4 | node _ h4 | route _ h4 | putStation _ h4 | attnClear _ h4
  | cold _ h4 => omega

/-- A chain of writes of level 0 leaves bays and segments. -/
theorem Wr.kept_bays (h : Wr k s t) (hk : k < 1) : t.bays = s.bays ∧ t.segments = s.segments := by
  induction h with
  | refl => exact ⟨rfl, rfl⟩
  | other _ h4 _ _ => omega
  | small _ _ _ ih | roll _ _ _ ih | stand _ _ _ ih
  | order _ _ _ ih | freeOrder _ _ ih | newOrder _ _ _ _ _ ih | vehicle _ _ _ ih | station _ _ _ ih | raised _ _ _ _ _ ih =>
    exact ih
  | bay _ h4 | segment _ h4 | freeRoll _ h4 | line _ h4 | job _ h4 | newRoll _ h4 | grade _ h4 | putJob _ h4 | node _ h4 | route _ h4
  | putStation _ h4 | attnClear _ h4 | cold _ h4 => omega

/-- The entry of a condition that a write does not raise is as it was. -/
theorem State.find_raise_other (s : State) {c d : Cond} (n : Nat) (h : c ≠ d) : (s.raise c n).attn.find d.place = s.attn.find d.place := by
  have hp : d.place ≠ c.place := fun e => h (by cases c <;> cases d <;> first | rfl | exact absurd e (by decide))
  exact Tbl.find_put_other s.attn (some (AttnEntry.raised (s.attn.find c.place) n)) hp

/-- A chain of writes below level 2 raises no LINE_BREAK. -/
theorem Wr.kept_break (h : Wr k s t) (hk : k < 2) : t.attn.find Cond.lineBreak.place = s.attn.find Cond.lineBreak.place := by
  induction h with
  | refl => rfl
  | other _ h4 _ _ => omega
  | raised _ c n hb _ ih => exact (State.find_raise_other _ n (hb hk)).trans ih
  | small _ _ _ ih | roll _ _ _ ih | bay _ _ _ ih | stand _ _ _ ih | freeRoll _ _ _ ih | line _ _ _ ih | job _ _ _ _ ih
  | order _ _ _ ih | freeOrder _ _ ih | newOrder _ _ _ _ _ ih | vehicle _ _ _ ih | segment _ _ _ ih | station _ _ _ ih => exact ih
  | newRoll _ h4 | grade _ h4 | putJob _ h4 | node _ h4 | route _ h4 | putStation _ h4 | attnClear _ h4 | cold _ h4 => omega

/-- A chain of writes of level 0 raises no ROLL_DISCREPANCY. -/
theorem Wr.kept_discrepancy (h : Wr k s t) (hk : k < 1) :
    t.attn.find Cond.rollDiscrepancy.place = s.attn.find Cond.rollDiscrepancy.place := by
  induction h with
  | refl => rfl
  | other _ h4 _ _ => omega
  | raised _ c n _ hd ih => exact (State.find_raise_other _ n (hd hk)).trans ih
  | small _ _ _ ih | roll _ _ _ ih | bay _ _ _ ih | stand _ _ _ ih | freeRoll _ _ _ ih | line _ _ _ ih | job _ _ _ _ ih
  | order _ _ _ ih | freeOrder _ _ ih | newOrder _ _ _ _ _ ih | vehicle _ _ _ ih | segment _ _ _ ih | station _ _ _ ih => exact ih
  | newRoll _ h4 | grade _ h4 | putJob _ h4 | node _ h4 | route _ h4 | putStation _ h4 | attnClear _ h4 | cold _ h4 => omega

theorem Roll.same_trans {a b c : Roll} (h : Roll.same k a b) (g : Roll.same k b c) : Roll.same k a c := by
  obtain ⟨h1, h2, h3, h4, h5⟩ := h
  obtain ⟨g1, g2, g3, g4, g5⟩ := g
  refine ⟨g1.trans h1, g2.trans h2, g3.trans h3, g4.trans h4, fun hk => ?_⟩
  obtain ⟨p, q, r⟩ := h5 hk
  obtain ⟨p', q', r'⟩ := g5 hk
  exact ⟨p'.trans p, q'.trans q, r'.trans r⟩

/-- A chain of writes below level 2 keeps every roll record, its tag, arrival number, grade and width. -/
theorem Wr.kept_roll (h : Wr k s t) (hk : k < 2) (n : Nat) (r : Roll) (hr : s.roll n = some r) : ∃ r', t.roll n = some r' ∧ Roll.same k r r' := by
  induction h with
  | refl => exact ⟨r, hr, Roll.same_refl k r⟩
  | other _ h4 _ _ => omega
  | small _ _ _ ih | bay _ _ _ ih | stand _ _ _ ih
  | order _ _ _ ih | freeOrder _ _ ih | newOrder _ _ _ _ _ ih | vehicle _ _ _ ih | segment _ _ _ ih | station _ _ _ ih | raised _ _ _ _ _ ih =>
    exact ih
  | @roll u _ m q q' hq hs ih =>
    obtain ⟨r', h1, h2⟩ := ih
    by_cases hm : n = m
    · subst hm
      rw [hq] at h1
      cases h1
      refine ⟨q', ?_, Roll.same_trans h2 hs⟩
      show (u.rolls.put n (some q')).find n = _
      exact Tbl.find_put_same _ _ _
    · refine ⟨r', ?_, h2⟩
      show (u.rolls.put m (some q')).find n = _
      exact (Tbl.find_put_other _ _ hm).trans h1
  | freeRoll _ h4 | line _ h4 | job _ h4 | newRoll _ h4 | grade _ h4 | putJob _ h4 | node _ h4 | route _ h4 | putStation _ h4 | attnClear _ h4
  | cold _ h4 => omega

/-- A chain of writes below level 2 makes no roll record. -/
theorem Wr.kept_free (h : Wr k s t) (hk : k < 2) (n : Nat) (hr : s.roll n = none) : t.roll n = none := by
  induction h with
  | refl => exact hr
  | other _ h4 _ _ => omega
  | small _ _ _ ih | bay _ _ _ ih | stand _ _ _ ih
  | order _ _ _ ih | freeOrder _ _ ih | newOrder _ _ _ _ _ ih | vehicle _ _ _ ih | segment _ _ _ ih | station _ _ _ ih | raised _ _ _ _ _ ih =>
    exact ih
  | @roll u _ m q q' hq hs ih =>
    by_cases hm : n = m
    · subst hm
      rw [hq] at ih
      cases ih
    · show (u.rolls.put m (some q')).find n = _
      exact (Tbl.find_put_other _ _ hm).trans ih
  | freeRoll _ h4 | line _ h4 | job _ h4 | newRoll _ h4 | grade _ h4 | putJob _ h4 | node _ h4 | route _ h4 | putStation _ h4 | attnClear _ h4
  | cold _ h4 => omega

theorem Stand.same_trans {a b c : Stand} (h : a.same k b) (g : b.same k c) : a.same k c := by
  obtain ⟨h1, h2⟩ := h
  obtain ⟨g1, g2⟩ := g
  refine ⟨fun hk => ?_, fun hk => ?_⟩
  · obtain ⟨a1, a2, a3, a4, a5, a6, a7⟩ := h1 hk
    obtain ⟨b1, b2, b3, b4, b5, b6, b7⟩ := g1 hk
    exact ⟨b1.trans a1, b2.trans a2, b3.trans a3, b4.trans a4, b5.trans a5, b6.trans a6, b7.trans a7⟩
  · obtain ⟨a1, a2, a3, a4, a5, a6, a7, a8, a9, a10, a11⟩ := h2 hk
    obtain ⟨b1, b2, b3, b4, b5, b6, b7, b8, b9, b10, b11⟩ := g2 hk
    exact ⟨b1.trans a1, b2.trans a2, b3.trans a3, b4.trans a4, b5.trans a5, b6.trans a6, b7.trans a7, b8.trans a8, b9.trans a9,
      b10.trans a10, b11.trans a11⟩

/-- A chain of writes keeps of every stand what its level keeps. -/
theorem Wr.kept_stand (h : Wr k s t) (hk : k < 4) (n : Nat) : (s.stand n).same k (t.stand n) := by
  have refl : ∀ x : Stand, x.same k x := fun x =>
    ⟨fun _ => ⟨rfl, rfl, rfl, rfl, rfl, rfl, rfl⟩, fun _ => ⟨rfl, rfl, rfl, rfl, rfl, rfl, rfl, rfl, rfl, rfl, rfl⟩⟩
  induction h with
  | refl => exact refl _
  | other _ h4 _ _ => omega
  | small _ _ _ ih | roll _ _ _ ih | bay _ _ _ ih | order _ _ _ ih | freeOrder _ _ ih | newOrder _ _ _ _ _ ih | vehicle _ _ _ ih
  | segment _ _ _ ih | station _ _ _ ih | raised _ _ _ _ _ ih | freeRoll _ _ _ ih | line _ _ _ ih | job _ _ _ _ ih => exact ih
  | @stand u _ m x hx _ ih =>
    refine Stand.same_trans ih ?_
    by_cases hm : n = m
    · subst hm
      show (u.stand n).same k ((u.stands.set n .cold x).get n .cold)
      rw [Tbl.get_set_same]
      exact hx
    · show (u.stand n).same k ((u.stands.set m .cold x).get n .cold)
      rw [Tbl.get_set_other _ _ _ hm]
      exact refl _
  | newRoll _ h4 | grade _ h4 | putJob _ h4 | node _ h4 | route _ h4 | putStation _ h4 | attnClear _ h4 | cold _ h4 => omega

theorem Line.same_trans {a b c : Line} (h : a.same k b) (g : b.same k c) : a.same k c := by
  obtain ⟨h1, h2⟩ := h
  obtain ⟨g1, g2⟩ := g
  refine ⟨fun hk => ?_, fun hk => ?_⟩
  · obtain ⟨a1, a2, a3, a4, a5, a6, a7⟩ := h1 hk
    obtain ⟨b1, b2, b3, b4, b5, b6, b7⟩ := g1 hk
    exact ⟨b1.trans a1, b2.trans a2, b3.trans a3, b4.trans a4, b5.trans a5, b6.trans a6, b7.trans a7⟩
  · obtain ⟨a1, a2, a3⟩ := h2 hk
    obtain ⟨b1, b2, b3⟩ := g2 hk
    exact ⟨b1.trans a1, b2.trans a2, b3.trans a3⟩

/-- A chain of writes keeps of every line what its level keeps. -/
theorem Wr.kept_line (h : Wr k s t) (hk : k < 4) (n : Nat) : (s.line n).same k (t.line n) := by
  have refl : ∀ x : Line, x.same k x := fun x => ⟨fun _ => ⟨rfl, rfl, rfl, rfl, rfl, rfl, rfl⟩, fun _ => ⟨rfl, rfl, rfl⟩⟩
  induction h with
  | refl => exact refl _
  | other _ h4 _ _ => omega
  | small _ _ _ ih | roll _ _ _ ih | bay _ _ _ ih | order _ _ _ ih | freeOrder _ _ ih | newOrder _ _ _ _ _ ih | vehicle _ _ _ ih
  | segment _ _ _ ih | station _ _ _ ih | raised _ _ _ _ _ ih | freeRoll _ _ _ ih | stand _ _ _ ih | job _ _ _ _ ih => exact ih
  | @line u _ _ m x hx ih =>
    refine Line.same_trans ih ?_
    by_cases hm : n = m
    · subst hm
      show (u.line n).same k ((u.lines.set n .cold x).get n .cold)
      rw [Tbl.get_set_same]
      exact hx
    · show (u.line n).same k ((u.lines.set m .cold x).get n .cold)
      rw [Tbl.get_set_other _ _ _ hm]
      exact refl _
  | newRoll _ h4 | grade _ h4 | putJob _ h4 | node _ h4 | route _ h4 | putStation _ h4 | attnClear _ h4 | cold _ h4 => omega

/-- A chain of writes below level 4 keeps every job record, and of each what its level keeps. -/
theorem Wr.kept_job (h : Wr k s t) (hk : k < 4) (n : Nat) (j : Job) (hj : s.job n = some j) : ∃ j', t.job n = some j' ∧ j.same k j' := by
  induction h with
  | refl => exact ⟨j, hj, rfl, fun h => h, fun _ => ⟨rfl, rfl, rfl⟩⟩
  | other _ h4 _ _ => omega
  | small _ _ _ ih | roll _ _ _ ih | bay _ _ _ ih | order _ _ _ ih | freeOrder _ _ ih | newOrder _ _ _ _ _ ih | vehicle _ _ _ ih
  | segment _ _ _ ih | station _ _ _ ih | raised _ _ _ _ _ ih | freeRoll _ _ _ ih | stand _ _ _ ih | line _ _ _ ih => exact ih
  | @job u _ _ m q q' hq hs ih =>
    obtain ⟨r', h1, h2, h3, h4⟩ := ih
    by_cases hm : n = m
    · subst hm
      rw [hq] at h1
      cases h1
      refine ⟨q', ?_, hs.1.trans h2, fun hb => hs.2.1 (h3 hb), fun h => ?_⟩
      · show (u.jobs.put n (some q')).find n = _
        exact Tbl.find_put_same _ _ _
      · obtain ⟨a, b, c⟩ := h4 h
        obtain ⟨a', b', c'⟩ := hs.2.2 h
        exact ⟨a'.trans a, b'.trans b, c'.trans c⟩
    · refine ⟨r', ?_, h2, h3, h4⟩
      show (u.jobs.put m (some q')).find n = _
      exact (Tbl.find_put_other _ _ hm).trans h1
  | newRoll _ h4 | grade _ h4 | putJob _ h4 | node _ h4 | route _ h4 | putStation _ h4 | attnClear _ h4 | cold _ h4 => omega

/-- What a pass leaves as it was. -/
theorem State.finish_writes (u : State) : Wr 0 u u.finish := by
  exact State.wr_finish .refl

end Sys2Proof.Machine
end

