-- ==== Sys2Proof/Laws/Steps.lean ====
section
/-! SUPPORT. Every command, and every step, is a chain of writes from the state it is taken in. -/

namespace Sys2Proof.Machine

variable {s s' : State}

theorem wr_self (s : State) : Wr 4 s s := .refl

/-- A plant request's step is what its owner writes, and the answer. -/
theorem request_writes {c : Instr} {h : State → Reply} (hw : ∀ u, Wr 4 s u → Wr 4 s (h u).state) (e : request c h s = .next s') :
    Wr 4 s s' := by
  unfold request complete at e
  have hf := State.wr_fresh (wr_self s) (Nat.le_refl 4)
  have hd := fun f n => State.wr_discards hf (Nat.le_refl 4) f n
  have hc := fun k x p => State.wr_answered (hw _ hf) (Nat.le_refl 4) k x p
  dsimp only at e
  repeat' split at e
  all_goals
    cases e
    first
      | exact hd _ _
      | exact State.wr_finish (hc _ _ _)
      | exact State.wr_finish (State.wr_discards (hc _ _ _) (Nat.le_refl 4) _ _)
      | exact wr_self s

theorem event_writes {f : State → State} (hw : ∀ u, Wr 4 s u → Wr 4 s (f u)) (e : event f s = .next s') : Wr 4 s s' := by
  unfold event at e
  split at e
  · cases e; exact State.wr_finish (hw _ (State.wr_fresh (wr_self s) (Nat.le_refl 4)))
  · cases e; exact wr_self s

theorem eventIf_writes {p : State → Bool} {f : State → State} (hw : ∀ u, Wr 4 s u → Wr 4 s (f u)) (e : eventIf p f s = .next s') :
    Wr 4 s s' := by
  unfold eventIf at e
  split at e
  · cases e; exact State.wr_finish (hw _ (State.wr_fresh (wr_self s) (Nat.le_refl 4)))
  · cases e; exact wr_self s

theorem expiry_writes {c : Instr} {left : Option Nat} {f : State → State} (hw : ∀ u, Wr 4 s u → Wr 4 s (f u))
    (e : expiry c left f s = .next s') : Wr 4 s s' := by
  unfold expiry at e
  exact eventIf_writes hw e

theorem report_writes {more : Bool} {f : Nat → Role → State → State} (hw : ∀ a r u, Wr 4 s u → Wr 4 s (f a r u))
    (e : report more f s = .next s') : Wr 4 s s' := by
  unfold report at e
  repeat' split at e
  all_goals
    cases e
    first
      | exact State.wr_finish (hw _ _ _ (State.wr_goodReply (State.wr_fresh (wr_self s) (Nat.le_refl 4)) (Nat.le_refl 4) _ _))
      | exact wr_self s

theorem vehicleReport_writes {k : Report} {more : Bool} {f : Nat → Nat → State → State} (hw : ∀ a v u, Wr 4 s u → Wr 4 s (f a v u))
    (e : vehicleReport k more f s = .next s') : Wr 4 s s' := by
  refine report_writes (fun a r u hu => ?_) e
  try dsimp only
  split
  · exact hw _ _ _ hu
  · exact State.wr_refuse hu _ _ _

theorem taken_writes {k : Report} {o : Nat} {more : Bool} {f : Nat → Nat → State → State} (hw : ∀ a v u, Wr 4 s u → Wr 4 s (f a v u))
    (e : taken k o more f s = .next s') : Wr 4 s s' := by
  refine vehicleReport_writes (fun a v u hu => ?_) e
  try dsimp only
  split
  · refine State.wr_lostCommand (hw _ _ _ ?_) _ _ _
    split
    · exact hu
    · exact State.wr_modVehicle hu _ _
  · exact State.wr_refuse hu _ _ _

theorem execRequestTransaction_writes {bytes : List Byte} (e : execRequestTransaction bytes s = .next s') : Wr 4 s s' := by
  unfold execRequestTransaction at e
  have hf := State.wr_fresh (wr_self s) (Nat.le_refl 4)
  repeat' split at e
  all_goals
    cases e
    first
      | exact State.wr_readClocked hf (Nat.le_refl 4) _
      | exact State.wr_finish (State.wr_transaction hf (Nat.le_refl 4) _ _)
      | exact wr_self s

theorem execReadTransaction_writes {clocked : Nat} (e : execReadTransaction clocked s = .next s') : Wr 4 s s' := by
  unfold execReadTransaction at e
  split at e
  · cases e; exact State.wr_readClocked (State.wr_fresh (wr_self s) (Nat.le_refl 4)) (Nat.le_refl 4) _
  · cases e; exact wr_self s

theorem execLookupRoll_writes {r : RollRef} (e : execLookupRoll r s = .next s') : Wr 4 s s' := by
  refine request_writes (fun u hu => ?_) e
  try dsimp only
  repeat' first
      | with_reducible exact hu
      | split
      | with_reducible apply State.wr_lookup
      | (intro x; exact ⟨fun hlt => absurd hlt (by decide), fun hlt => absurd hlt (by decide)⟩)
      | exact hu.other (by decide) ⟨rfl, rfl, rfl, rfl, rfl, rfl, rfl, rfl, rfl, rfl, rfl, rfl, rfl, rfl, rfl⟩
      | decide

theorem execListRollsByGrade_writes {g w key : Nat} (e : execListRollsByGrade g w key s = .next s') : Wr 4 s s' := by
  refine request_writes (fun u hu => ?_) e
  try dsimp only
  repeat' first
      | with_reducible exact hu
      | split
      | with_reducible apply State.wr_listByGrade
      | (intro x; exact ⟨fun hlt => absurd hlt (by decide), fun hlt => absurd hlt (by decide)⟩)
      | exact hu.other (by decide) ⟨rfl, rfl, rfl, rfl, rfl, rfl, rfl, rfl, rfl, rfl, rfl, rfl, rfl, rfl, rfl⟩
      | decide

theorem execListRollsByLocation_writes {p : ListPlace} (e : execListRollsByLocation p s = .next s') : Wr 4 s s' := by
  refine request_writes (fun u hu => ?_) e
  try dsimp only
  repeat' first
      | with_reducible exact hu
      | split
      | with_reducible apply State.wr_listByPlace
      | (intro x; exact ⟨fun hlt => absurd hlt (by decide), fun hlt => absurd hlt (by decide)⟩)
      | exact hu.other (by decide) ⟨rfl, rfl, rfl, rfl, rfl, rfl, rfl, rfl, rfl, rfl, rfl, rfl, rfl, rfl, rfl⟩
      | decide

theorem execAnnounceRoll_writes {t : Tag} {g w d : Nat} {kg : Option Nat} {node : Nat} (e : execAnnounceRoll t g w d kg node s = .next s') : Wr 4 s s' := by
  refine request_writes (fun u hu => ?_) e
  try dsimp only
  repeat' first
      | with_reducible exact hu
      | split
      | with_reducible apply State.wr_announceRequest
      | (intro x; exact ⟨fun hlt => absurd hlt (by decide), fun hlt => absurd hlt (by decide)⟩)
      | exact hu.other (by decide) ⟨rfl, rfl, rfl, rfl, rfl, rfl, rfl, rfl, rfl, rfl, rfl, rfl, rfl, rfl, rfl⟩
      | decide

theorem execHoldRoll_writes {r : RollRef} {h : Option Hold} (e : execHoldRoll r h s = .next s') : Wr 4 s s' := by
  refine request_writes (fun u hu => ?_) e
  try dsimp only
  repeat' first
      | with_reducible exact hu
      | split
      | with_reducible apply State.wr_holdRequest
      | (intro x; exact ⟨fun hlt => absurd hlt (by decide), fun hlt => absurd hlt (by decide)⟩)
      | exact hu.other (by decide) ⟨rfl, rfl, rfl, rfl, rfl, rfl, rfl, rfl, rfl, rfl, rfl, rfl, rfl, rfl, rfl⟩
      | decide

theorem execReleaseRoll_writes {r : RollRef} (e : execReleaseRoll r s = .next s') : Wr 4 s s' := by
  refine request_writes (fun u hu => ?_) e
  try dsimp only
  repeat' first
      | with_reducible exact hu
      | split
      | with_reducible apply State.wr_releaseRequest
      | (intro x; exact ⟨fun hlt => absurd hlt (by decide), fun hlt => absurd hlt (by decide)⟩)
      | exact hu.other (by decide) ⟨rfl, rfl, rfl, rfl, rfl, rfl, rfl, rfl, rfl, rfl, rfl, rfl, rfl, rfl, rfl⟩
      | decide

theorem execRetireRoll_writes {r : RollRef} (e : execRetireRoll r s = .next s') : Wr 4 s s' := by
  refine request_writes (fun u hu => ?_) e
  try dsimp only
  repeat' first
      | with_reducible exact hu
      | split
      | with_reducible apply State.wr_retireRequest
      | (intro x; exact ⟨fun hlt => absurd hlt (by decide), fun hlt => absurd hlt (by decide)⟩)
      | exact hu.other (by decide) ⟨rfl, rfl, rfl, rfl, rfl, rfl, rfl, rfl, rfl, rfl, rfl, rfl, rfl, rfl, rfl⟩
      | decide

theorem execPlaceRoll_writes {r : RollRef} {d : PlaceDest} (e : execPlaceRoll r d s = .next s') : Wr 4 s s' := by
  refine request_writes (fun u hu => ?_) e
  try dsimp only
  repeat' first
      | with_reducible exact hu
      | split
      | with_reducible apply State.wr_placeRequest
      | (intro x; exact ⟨fun hlt => absurd hlt (by decide), fun hlt => absurd hlt (by decide)⟩)
      | exact hu.other (by decide) ⟨rfl, rfl, rfl, rfl, rfl, rfl, rfl, rfl, rfl, rfl, rfl, rfl, rfl, rfl, rfl⟩
      | decide

theorem execReadBayByNumber_writes {b : Nat} (e : execReadBayByNumber b s = .next s') : Wr 4 s s' := by
  refine request_writes (fun u hu => ?_) e
  try dsimp only
  repeat' first
      | with_reducible exact hu
      | split
      | with_reducible apply State.wr_readBay
      | (intro x; exact ⟨fun hlt => absurd hlt (by decide), fun hlt => absurd hlt (by decide)⟩)
      | exact hu.other (by decide) ⟨rfl, rfl, rfl, rfl, rfl, rfl, rfl, rfl, rfl, rfl, rfl, rfl, rfl, rfl, rfl⟩
      | decide

theorem execReadBayNextHeld_writes {b : Nat} (e : execReadBayNextHeld b s = .next s') : Wr 4 s s' := by
  refine request_writes (fun u hu => ?_) e
  try dsimp only
  repeat' first
      | with_reducible exact hu
      | split
      | with_reducible apply State.wr_readNextHeld
      | (intro x; exact ⟨fun hlt => absurd hlt (by decide), fun hlt => absurd hlt (by decide)⟩)
      | exact hu.other (by decide) ⟨rfl, rfl, rfl, rfl, rfl, rfl, rfl, rfl, rfl, rfl, rfl, rfl, rfl, rfl, rfl⟩
      | decide

theorem execSetBay_writes {b limit aisle : Nat} {h : Option HoldSetting} (e : execSetBay b limit aisle h s = .next s') : Wr 4 s s' := by
  refine request_writes (fun u hu => ?_) e
  try dsimp only
  repeat' first
      | with_reducible exact hu
      | split
      | with_reducible apply State.wr_setBayRequest
      | (intro x; exact ⟨fun hlt => absurd hlt (by decide), fun hlt => absurd hlt (by decide)⟩)
      | exact hu.other (by decide) ⟨rfl, rfl, rfl, rfl, rfl, rfl, rfl, rfl, rfl, rfl, rfl, rfl, rfl, rfl, rfl⟩
      | decide

theorem execReleaseBay_writes {b : Nat} (e : execReleaseBay b s = .next s') : Wr 4 s s' := by
  refine request_writes (fun u hu => ?_) e
  try dsimp only
  repeat' first
      | with_reducible exact hu
      | split
      | with_reducible apply State.wr_releaseBayRequest
      | (intro x; exact ⟨fun hlt => absurd hlt (by decide), fun hlt => absurd hlt (by decide)⟩)
      | exact hu.other (by decide) ⟨rfl, rfl, rfl, rfl, rfl, rfl, rfl, rfl, rfl, rfl, rfl, rfl, rfl, rfl, rfl⟩
      | decide

theorem execSetGradeConfigure_writes {g basis caliper core threshold : Nat} (e : execSetGradeConfigure g basis caliper core threshold s = .next s') : Wr 4 s s' := by
  refine request_writes (fun u hu => ?_) e
  try dsimp only
  repeat' first
      | with_reducible exact hu
      | split
      | with_reducible apply State.wr_configureGrade
      | (intro x; exact ⟨fun hlt => absurd hlt (by decide), fun hlt => absurd hlt (by decide)⟩)
      | exact hu.other (by decide) ⟨rfl, rfl, rfl, rfl, rfl, rfl, rfl, rfl, rfl, rfl, rfl, rfl, rfl, rfl, rfl⟩
      | decide

theorem execSetGradeClear_writes {g caliper : Nat} (e : execSetGradeClear g caliper s = .next s') : Wr 4 s s' := by
  refine request_writes (fun u hu => ?_) e
  try dsimp only
  repeat' first
      | with_reducible exact hu
      | split
      | with_reducible apply State.wr_clearGrade
      | (intro x; exact ⟨fun hlt => absurd hlt (by decide), fun hlt => absurd hlt (by decide)⟩)
      | exact hu.other (by decide) ⟨rfl, rfl, rfl, rfl, rfl, rfl, rfl, rfl, rfl, rfl, rfl, rfl, rfl, rfl, rfl⟩
      | decide

theorem execReadGrade_writes {g : Nat} (e : execReadGrade g s = .next s') : Wr 4 s s' := by
  refine request_writes (fun u hu => ?_) e
  try dsimp only
  repeat' first
      | with_reducible exact hu
      | split
      | with_reducible apply State.wr_readGradeRequest
      | (intro x; exact ⟨fun hlt => absurd hlt (by decide), fun hlt => absurd hlt (by decide)⟩)
      | exact hu.other (by decide) ⟨rfl, rfl, rfl, rfl, rfl, rfl, rfl, rfl, rfl, rfl, rfl, rfl, rfl, rfl, rfl⟩
      | decide

theorem execWritePlanHead_writes {l : Nat} {h : PlanHead} (e : execWritePlanHead l h s = .next s') : Wr 4 s s' := by
  refine request_writes (fun u hu => ?_) e
  try dsimp only
  repeat' first
      | with_reducible exact hu
      | split
      | with_reducible apply State.wr_writeHead
      | (intro x; exact ⟨fun hlt => absurd hlt (by decide), fun hlt => absurd hlt (by decide)⟩)
      | exact hu.other (by decide) ⟨rfl, rfl, rfl, rfl, rfl, rfl, rfl, rfl, rfl, rfl, rfl, rfl, rfl, rfl, rfl⟩
      | decide

theorem execWritePlanPositions_writes {l : Nat} {ps : List Position} (e : execWritePlanPositions l ps s = .next s') : Wr 4 s s' := by
  refine request_writes (fun u hu => ?_) e
  try dsimp only
  repeat' first
      | with_reducible exact hu
      | split
      | with_reducible apply State.wr_writePositions
      | (intro x; exact ⟨fun hlt => absurd hlt (by decide), fun hlt => absurd hlt (by decide)⟩)
      | exact hu.other (by decide) ⟨rfl, rfl, rfl, rfl, rfl, rfl, rfl, rfl, rfl, rfl, rfl, rfl, rfl, rfl, rfl⟩
      | decide

theorem execReadPlan_writes {l : Nat} {sel : Option PlanSel} {part : Option PlanPart} (e : execReadPlan l sel part s = .next s') : Wr 4 s s' := by
  refine request_writes (fun u hu => ?_) e
  try dsimp only
  repeat' first
      | with_reducible exact hu
      | split
      | with_reducible apply State.wr_readPlanRequest
      | (intro x; exact ⟨fun hlt => absurd hlt (by decide), fun hlt => absurd hlt (by decide)⟩)
      | exact hu.other (by decide) ⟨rfl, rfl, rfl, rfl, rfl, rfl, rfl, rfl, rfl, rfl, rfl, rfl, rfl, rfl, rfl⟩
      | decide

theorem execChangeover_writes {l : Nat} (e : execChangeover l s = .next s') : Wr 4 s s' := by
  refine request_writes (fun u hu => ?_) e
  try dsimp only
  repeat' first
      | with_reducible exact hu
      | split
      | with_reducible apply State.wr_changeoverRequest
      | (intro x; exact ⟨fun hlt => absurd hlt (by decide), fun hlt => absurd hlt (by decide)⟩)
      | exact hu.other (by decide) ⟨rfl, rfl, rfl, rfl, rfl, rfl, rfl, rfl, rfl, rfl, rfl, rfl, rfl, rfl, rfl⟩
      | decide

theorem execReadStand_writes {st : Nat} (e : execReadStand st s = .next s') : Wr 4 s s' := by
  refine request_writes (fun u hu => ?_) e
  try dsimp only
  repeat' first
      | with_reducible exact hu
      | split
      | with_reducible apply State.wr_readStandRequest
      | (intro x; exact ⟨fun hlt => absurd hlt (by decide), fun hlt => absurd hlt (by decide)⟩)
      | exact hu.other (by decide) ⟨rfl, rfl, rfl, rfl, rfl, rfl, rfl, rfl, rfl, rfl, rfl, rfl, rfl, rfl, rfl⟩
      | decide

theorem execSetStand_writes {st m k offset tol pulse loading : Nat} (e : execSetStand st m k offset tol pulse loading s = .next s') : Wr 4 s s' := by
  refine request_writes (fun u hu => ?_) e
  try dsimp only
  repeat' first
      | with_reducible exact hu
      | split
      | with_reducible apply State.wr_setStandRequest
      | (intro x; exact ⟨fun hlt => absurd hlt (by decide), fun hlt => absurd hlt (by decide)⟩)
      | exact hu.other (by decide) ⟨rfl, rfl, rfl, rfl, rfl, rfl, rfl, rfl, rfl, rfl, rfl, rfl, rfl, rfl, rfl⟩
      | decide

theorem execSetLine_writes {l lam w : Nat} {e : Enables} (e : execSetLine l lam w e s = .next s') : Wr 4 s s' := by
  refine request_writes (fun u hu => ?_) e
  try dsimp only
  repeat' first
      | with_reducible exact hu
      | split
      | with_reducible apply State.wr_setLineRequest
      | (intro x; exact ⟨fun hlt => absurd hlt (by decide), fun hlt => absurd hlt (by decide)⟩)
      | exact hu.other (by decide) ⟨rfl, rfl, rfl, rfl, rfl, rfl, rfl, rfl, rfl, rfl, rfl, rfl, rfl, rfl, rfl⟩
      | decide

theorem execOpenJob_writes {j l : Nat} (e : execOpenJob j l s = .next s') : Wr 4 s s' := by
  refine request_writes (fun u hu => ?_) e
  try dsimp only
  repeat' first
      | with_reducible exact hu
      | split
      | with_reducible apply State.wr_openJobRequest
      | (intro x; exact ⟨fun hlt => absurd hlt (by decide), fun hlt => absurd hlt (by decide)⟩)
      | exact hu.other (by decide) ⟨rfl, rfl, rfl, rfl, rfl, rfl, rfl, rfl, rfl, rfl, rfl, rfl, rfl, rfl, rfl⟩
      | decide

theorem execCloseJob_writes {j : Nat} (e : execCloseJob j s = .next s') : Wr 4 s s' := by
  refine request_writes (fun u hu => ?_) e
  try dsimp only
  repeat' first
      | with_reducible exact hu
      | split
      | with_reducible apply State.wr_closeJobRequest
      | (intro x; exact ⟨fun hlt => absurd hlt (by decide), fun hlt => absurd hlt (by decide)⟩)
      | exact hu.other (by decide) ⟨rfl, rfl, rfl, rfl, rfl, rfl, rfl, rfl, rfl, rfl, rfl, rfl, rfl, rfl, rfl⟩
      | decide

theorem execReadJobByNumber_writes {j : Nat} (e : execReadJobByNumber j s = .next s') : Wr 4 s s' := by
  refine request_writes (fun u hu => ?_) e
  try dsimp only
  repeat' first
      | with_reducible exact hu
      | split
      | with_reducible apply State.wr_readJob
      | (intro x; exact ⟨fun hlt => absurd hlt (by decide), fun hlt => absurd hlt (by decide)⟩)
      | exact hu.other (by decide) ⟨rfl, rfl, rfl, rfl, rfl, rfl, rfl, rfl, rfl, rfl, rfl, rfl, rfl, rfl, rfl⟩
      | decide

theorem execReadJobNext_writes {j : Nat} (e : execReadJobNext j s = .next s') : Wr 4 s s' := by
  refine request_writes (fun u hu => ?_) e
  try dsimp only
  repeat' first
      | with_reducible exact hu
      | split
      | with_reducible apply State.wr_readNextJob
      | (intro x; exact ⟨fun hlt => absurd hlt (by decide), fun hlt => absurd hlt (by decide)⟩)
      | exact hu.other (by decide) ⟨rfl, rfl, rfl, rfl, rfl, rfl, rfl, rfl, rfl, rfl, rfl, rfl, rfl, rfl, rfl⟩
      | decide

theorem execRetireJob_writes {j : Nat} (e : execRetireJob j s = .next s') : Wr 4 s s' := by
  refine request_writes (fun u hu => ?_) e
  try dsimp only
  repeat' first
      | with_reducible exact hu
      | split
      | with_reducible apply State.wr_retireJobRequest
      | (intro x; exact ⟨fun hlt => absurd hlt (by decide), fun hlt => absurd hlt (by decide)⟩)
      | exact hu.other (by decide) ⟨rfl, rfl, rfl, rfl, rfl, rfl, rfl, rfl, rfl, rfl, rfl, rfl, rfl, rfl, rfl⟩
      | decide

theorem execStopLine_writes {l : Nat} (e : execStopLine l s = .next s') : Wr 4 s s' := by
  refine request_writes (fun u hu => ?_) e
  try dsimp only
  repeat' first
      | with_reducible exact hu
      | split
      | with_reducible apply State.wr_stopLineRequest
      | (intro x; exact ⟨fun hlt => absurd hlt (by decide), fun hlt => absurd hlt (by decide)⟩)
      | exact hu.other (by decide) ⟨rfl, rfl, rfl, rfl, rfl, rfl, rfl, rfl, rfl, rfl, rfl, rfl, rfl, rfl, rfl⟩
      | decide

theorem execRestartLine_writes {l : Nat} (e : execRestartLine l s = .next s') : Wr 4 s s' := by
  refine request_writes (fun u hu => ?_) e
  try dsimp only
  repeat' first
      | with_reducible exact hu
      | split
      | with_reducible apply State.wr_restartLineRequest
      | (intro x; exact ⟨fun hlt => absurd hlt (by decide), fun hlt => absurd hlt (by decide)⟩)
      | exact hu.other (by decide) ⟨rfl, rfl, rfl, rfl, rfl, rfl, rfl, rfl, rfl, rfl, rfl, rfl, rfl, rfl, rfl⟩
      | decide

theorem execOrderMove_writes {r : RollRef} {d : MoveDest} (e : execOrderMove r d s = .next s') : Wr 4 s s' := by
  refine request_writes (fun u hu => ?_) e
  try dsimp only
  repeat' first
      | with_reducible exact hu
      | split
      | with_reducible apply State.wr_orderMoveRequest
      | (intro x; exact ⟨fun hlt => absurd hlt (by decide), fun hlt => absurd hlt (by decide)⟩)
      | exact hu.other (by decide) ⟨rfl, rfl, rfl, rfl, rfl, rfl, rfl, rfl, rfl, rfl, rfl, rfl, rfl, rfl, rfl⟩
      | decide

theorem execCancelOrder_writes {n : Nat} (e : execCancelOrder n s = .next s') : Wr 4 s s' := by
  refine request_writes (fun u hu => ?_) e
  try dsimp only
  repeat' first
      | with_reducible exact hu
      | split
      | with_reducible apply State.wr_cancelRequest
      | (intro x; exact ⟨fun hlt => absurd hlt (by decide), fun hlt => absurd hlt (by decide)⟩)
      | exact hu.other (by decide) ⟨rfl, rfl, rfl, rfl, rfl, rfl, rfl, rfl, rfl, rfl, rfl, rfl, rfl, rfl, rfl⟩
      | decide

theorem execReadOrderByNumber_writes {n : Nat} (e : execReadOrderByNumber n s = .next s') : Wr 4 s s' := by
  refine request_writes (fun u hu => ?_) e
  try dsimp only
  repeat' first
      | with_reducible exact hu
      | split
      | with_reducible apply State.wr_readOrder
      | (intro x; exact ⟨fun hlt => absurd hlt (by decide), fun hlt => absurd hlt (by decide)⟩)
      | exact hu.other (by decide) ⟨rfl, rfl, rfl, rfl, rfl, rfl, rfl, rfl, rfl, rfl, rfl, rfl, rfl, rfl, rfl⟩
      | decide

theorem execReadOrderNext_writes {n : Nat} (e : execReadOrderNext n s = .next s') : Wr 4 s s' := by
  refine request_writes (fun u hu => ?_) e
  try dsimp only
  repeat' first
      | with_reducible exact hu
      | split
      | with_reducible apply State.wr_readNextOrder
      | (intro x; exact ⟨fun hlt => absurd hlt (by decide), fun hlt => absurd hlt (by decide)⟩)
      | exact hu.other (by decide) ⟨rfl, rfl, rfl, rfl, rfl, rfl, rfl, rfl, rfl, rfl, rfl, rfl, rfl, rfl, rfl⟩
      | decide

theorem execRetireOrder_writes {n : Nat} (e : execRetireOrder n s = .next s') : Wr 4 s s' := by
  refine request_writes (fun u hu => ?_) e
  try dsimp only
  repeat' first
      | with_reducible exact hu
      | split
      | with_reducible apply State.wr_retireOrderRequest
      | (intro x; exact ⟨fun hlt => absurd hlt (by decide), fun hlt => absurd hlt (by decide)⟩)
      | exact hu.other (by decide) ⟨rfl, rfl, rfl, rfl, rfl, rfl, rfl, rfl, rfl, rfl, rfl, rfl, rfl, rfl, rfl⟩
      | decide

theorem execSetServiceIn_writes {v x : Nat} (e : execSetServiceIn v x s = .next s') : Wr 4 s s' := by
  refine request_writes (fun u hu => ?_) e
  try dsimp only
  repeat' first
      | with_reducible exact hu
      | split
      | with_reducible apply State.wr_serviceIn
      | (intro x; exact ⟨fun hlt => absurd hlt (by decide), fun hlt => absurd hlt (by decide)⟩)
      | exact hu.other (by decide) ⟨rfl, rfl, rfl, rfl, rfl, rfl, rfl, rfl, rfl, rfl, rfl, rfl, rfl, rfl, rfl⟩
      | decide

theorem execSetServiceOut_writes {v : Nat} (e : execSetServiceOut v s = .next s') : Wr 4 s s' := by
  refine request_writes (fun u hu => ?_) e
  try dsimp only
  repeat' first
      | with_reducible exact hu
      | split
      | with_reducible apply State.wr_serviceOut
      | (intro x; exact ⟨fun hlt => absurd hlt (by decide), fun hlt => absurd hlt (by decide)⟩)
      | exact hu.other (by decide) ⟨rfl, rfl, rfl, rfl, rfl, rfl, rfl, rfl, rfl, rfl, rfl, rfl, rfl, rfl, rfl⟩
      | decide

theorem execSetServiceSettings_writes {p t m : Nat} (e : execSetServiceSettings p t m s = .next s') : Wr 4 s s' := by
  refine request_writes (fun u hu => ?_) e
  try dsimp only
  repeat' first
      | with_reducible exact hu
      | split
      | with_reducible apply State.wr_serviceSettings
      | (intro x; exact ⟨fun hlt => absurd hlt (by decide), fun hlt => absurd hlt (by decide)⟩)
      | exact hu.other (by decide) ⟨rfl, rfl, rfl, rfl, rfl, rfl, rfl, rfl, rfl, rfl, rfl, rfl, rfl, rfl, rfl⟩
      | decide

theorem execReadVehicle_writes {v : Nat} (e : execReadVehicle v s = .next s') : Wr 4 s s' := by
  refine request_writes (fun u hu => ?_) e
  try dsimp only
  repeat' first
      | with_reducible exact hu
      | split
      | with_reducible apply State.wr_readVehicleRequest
      | (intro x; exact ⟨fun hlt => absurd hlt (by decide), fun hlt => absurd hlt (by decide)⟩)
      | exact hu.other (by decide) ⟨rfl, rfl, rfl, rfl, rfl, rfl, rfl, rfl, rfl, rfl, rfl, rfl, rfl, rfl, rfl⟩
      | decide

theorem execSetSegment_writes {n : Nat} {k : Option SegKind} (e : execSetSegment n k s = .next s') : Wr 4 s s' := by
  refine request_writes (fun u hu => ?_) e
  try dsimp only
  repeat' first
      | with_reducible exact hu
      | split
      | with_reducible apply State.wr_segmentRequest
      | (intro x; exact ⟨fun hlt => absurd hlt (by decide), fun hlt => absurd hlt (by decide)⟩)
      | exact hu.other (by decide) ⟨rfl, rfl, rfl, rfl, rfl, rfl, rfl, rfl, rfl, rfl, rfl, rfl, rfl, rfl, rfl⟩
      | decide

theorem execSetNode_writes {n : Nat} {c : Option (Nat × Option NodeRole)} (e : execSetNode n c s = .next s') : Wr 4 s s' := by
  refine request_writes (fun u hu => ?_) e
  try dsimp only
  repeat' first
      | with_reducible exact hu
      | split
      | with_reducible apply State.wr_nodeRequest
      | (intro x; exact ⟨fun hlt => absurd hlt (by decide), fun hlt => absurd hlt (by decide)⟩)
      | exact hu.other (by decide) ⟨rfl, rfl, rfl, rfl, rfl, rfl, rfl, rfl, rfl, rfl, rfl, rfl, rfl, rfl, rfl⟩
      | decide

theorem execSetRoute_writes {n : Nat} {c : Option Route} (e : execSetRoute n c s = .next s') : Wr 4 s s' := by
  refine request_writes (fun u hu => ?_) e
  try dsimp only
  repeat' first
      | with_reducible exact hu
      | split
      | with_reducible apply State.wr_routeRequest
      | (intro x; exact ⟨fun hlt => absurd hlt (by decide), fun hlt => absurd hlt (by decide)⟩)
      | exact hu.other (by decide) ⟨rfl, rfl, rfl, rfl, rfl, rfl, rfl, rfl, rfl, rfl, rfl, rfl, rfl, rfl, rfl⟩
      | decide

theorem execHaltTransport_writes (e : execHaltTransport s = .next s') : Wr 4 s s' := by
  refine request_writes (fun u hu => ?_) e
  try dsimp only
  repeat' first
      | with_reducible exact hu
      | split
      | with_reducible apply State.wr_ok
      | with_reducible apply State.wr_halt
      | (intro x; exact ⟨fun hlt => absurd hlt (by decide), fun hlt => absurd hlt (by decide)⟩)
      | exact hu.other (by decide) ⟨rfl, rfl, rfl, rfl, rfl, rfl, rfl, rfl, rfl, rfl, rfl, rfl, rfl, rfl, rfl⟩
      | decide

theorem execResumeTransport_writes (e : execResumeTransport s = .next s') : Wr 4 s s' := by
  refine request_writes (fun u hu => ?_) e
  try dsimp only
  repeat' first
      | with_reducible exact hu
      | split
      | with_reducible apply State.wr_resumeRequest
      | (intro x; exact ⟨fun hlt => absurd hlt (by decide), fun hlt => absurd hlt (by decide)⟩)
      | exact hu.other (by decide) ⟨rfl, rfl, rfl, rfl, rfl, rfl, rfl, rfl, rfl, rfl, rfl, rfl, rfl, rfl, rfl⟩
      | decide

theorem execSetStationConfigure_writes {a : Nat} {r : Role} (e : execSetStationConfigure a r s = .next s') : Wr 4 s s' := by
  refine request_writes (fun u hu => ?_) e
  try dsimp only
  repeat' first
      | with_reducible exact hu
      | split
      | with_reducible apply State.wr_configureStation
      | (intro x; exact ⟨fun hlt => absurd hlt (by decide), fun hlt => absurd hlt (by decide)⟩)
      | exact hu.other (by decide) ⟨rfl, rfl, rfl, rfl, rfl, rfl, rfl, rfl, rfl, rfl, rfl, rfl, rfl, rfl, rfl⟩
      | decide

theorem execSetStationClear_writes {a : Nat} (e : execSetStationClear a s = .next s') : Wr 4 s s' := by
  refine request_writes (fun u hu => ?_) e
  try dsimp only
  repeat' first
      | with_reducible exact hu
      | split
      | with_reducible apply State.wr_clearStation
      | (intro x; exact ⟨fun hlt => absurd hlt (by decide), fun hlt => absurd hlt (by decide)⟩)
      | exact hu.other (by decide) ⟨rfl, rfl, rfl, rfl, rfl, rfl, rfl, rfl, rfl, rfl, rfl, rfl, rfl, rfl, rfl⟩
      | decide

theorem execSetStationSettings_writes {rate : Option Rate} {window : Nat} (e : execSetStationSettings rate window s = .next s') : Wr 4 s s' := by
  refine request_writes (fun u hu => ?_) e
  try dsimp only
  repeat' first
      | with_reducible exact hu
      | split
      | with_reducible apply State.wr_stationSettings
      | (intro x; exact ⟨fun hlt => absurd hlt (by decide), fun hlt => absurd hlt (by decide)⟩)
      | exact hu.other (by decide) ⟨rfl, rfl, rfl, rfl, rfl, rfl, rfl, rfl, rfl, rfl, rfl, rfl, rfl, rfl, rfl⟩
      | decide

theorem execReadStationByAddress_writes {a : Nat} (e : execReadStationByAddress a s = .next s') : Wr 4 s s' := by
  refine request_writes (fun u hu => ?_) e
  try dsimp only
  repeat' first
      | with_reducible exact hu
      | split
      | with_reducible apply State.wr_readStation
      | (intro x; exact ⟨fun hlt => absurd hlt (by decide), fun hlt => absurd hlt (by decide)⟩)
      | exact hu.other (by decide) ⟨rfl, rfl, rfl, rfl, rfl, rfl, rfl, rfl, rfl, rfl, rfl, rfl, rfl, rfl, rfl⟩
      | decide

theorem execReadStationNext_writes {a : Nat} (e : execReadStationNext a s = .next s') : Wr 4 s s' := by
  refine request_writes (fun u hu => ?_) e
  try dsimp only
  repeat' first
      | with_reducible exact hu
      | split
      | with_reducible apply State.wr_readNextStation
      | (intro x; exact ⟨fun hlt => absurd hlt (by decide), fun hlt => absurd hlt (by decide)⟩)
      | exact hu.other (by decide) ⟨rfl, rfl, rfl, rfl, rfl, rfl, rfl, rfl, rfl, rfl, rfl, rfl, rfl, rfl, rfl⟩
      | decide

theorem execStandby_writes (e : execStandby s = .next s') : Wr 4 s s' := by
  refine request_writes (fun u hu => ?_) e
  try dsimp only
  repeat' first
      | with_reducible exact hu
      | split
      | with_reducible apply State.wr_standbyRequest
      | (intro x; exact ⟨fun hlt => absurd hlt (by decide), fun hlt => absurd hlt (by decide)⟩)
      | exact hu.other (by decide) ⟨rfl, rfl, rfl, rfl, rfl, rfl, rfl, rfl, rfl, rfl, rfl, rfl, rfl, rfl, rfl⟩
      | decide

theorem execStandbyEntry_writes (e : execStandbyEntry s = .next s') : Wr 4 s s' := by
  unfold execStandbyEntry at e
  split at e
  · rw [← Host.Outcome.next.inj e]; exact State.wr_enterStandby (State.wr_fresh (wr_self s) (Nat.le_refl 4)) (Nat.le_refl 4)
  · cases e; exact wr_self s

theorem execRestartPart_writes (e : execRestartPart s = .next s') : Wr 4 s s' := by
  unfold execRestartPart at e
  repeat' split at e
  all_goals
    cases e
    first
      | with_reducible exact State.wr_restart (wr_self s) (Nat.le_refl 4) _
      | exact State.wr_discards (State.wr_fresh (wr_self s) (Nat.le_refl 4)) (Nat.le_refl 4) _ _
      | exact wr_self s

theorem execReadAttention_writes (e : execReadAttention s = .next s') : Wr 4 s s' := by
  refine request_writes (fun u hu => ?_) e
  try dsimp only
  repeat' first
      | with_reducible exact hu
      | split
      | with_reducible apply State.wr_readAttentionRequest
      | (intro x; exact ⟨fun hlt => absurd hlt (by decide), fun hlt => absurd hlt (by decide)⟩)
      | exact hu.other (by decide) ⟨rfl, rfl, rfl, rfl, rfl, rfl, rfl, rfl, rfl, rfl, rfl, rfl, rfl, rfl, rfl⟩
      | decide

theorem execPoll_writes (e : execPoll s = .next s') : Wr 4 s s' := by
  refine eventIf_writes (fun u hu => ?_) e
  try dsimp only
  repeat' first
      | with_reducible exact hu
      | split
      | with_reducible apply State.wr_pollNext
      | (intro x; exact ⟨fun hlt => absurd hlt (by decide), fun hlt => absurd hlt (by decide)⟩)
      | exact hu.other (by decide) ⟨rfl, rfl, rfl, rfl, rfl, rfl, rfl, rfl, rfl, rfl, rfl, rfl, rfl, rfl, rfl⟩
      | decide

theorem execReplyWindowExpiry_writes (e : execReplyWindowExpiry s = .next s') : Wr 4 s s' := by
  refine expiry_writes (fun u hu => ?_) e
  try dsimp only
  repeat' first
      | with_reducible exact hu
      | split
      | with_reducible apply State.wr_windowExpires
      | (intro x; exact ⟨fun hlt => absurd hlt (by decide), fun hlt => absurd hlt (by decide)⟩)
      | exact hu.other (by decide) ⟨rfl, rfl, rfl, rfl, rfl, rfl, rfl, rfl, rfl, rfl, rfl, rfl, rfl, rfl, rfl⟩
      | decide

theorem execFrameSpoiled_writes {c : Spoil} (e : execFrameSpoiled c s = .next s') : Wr 4 s s' := by
  refine event_writes (fun u hu => ?_) e
  try dsimp only
  repeat' first
      | with_reducible exact hu
      | split
      | with_reducible apply State.wr_frameBegins
      | with_reducible apply State.wr_spoiled
      | (intro x; exact ⟨fun hlt => absurd hlt (by decide), fun hlt => absurd hlt (by decide)⟩)
      | exact hu.other (by decide) ⟨rfl, rfl, rfl, rfl, rfl, rfl, rfl, rfl, rfl, rfl, rfl, rfl, rfl, rfl, rfl⟩
      | decide

theorem execCharacterGapTimeout_writes (e : execCharacterGapTimeout s = .next s') : Wr 4 s s' := by
  refine eventIf_writes (fun u hu => ?_) e
  try dsimp only
  repeat' first
      | with_reducible exact hu
      | split
      | with_reducible apply State.wr_spoiled
      | (intro x; exact ⟨fun hlt => absurd hlt (by decide), fun hlt => absurd hlt (by decide)⟩)
      | exact hu.other (by decide) ⟨rfl, rfl, rfl, rfl, rfl, rfl, rfl, rfl, rfl, rfl, rfl, rfl, rfl, rfl, rfl⟩
      | decide

theorem execLateReplyDiscarded_writes (e : execLateReplyDiscarded s = .next s') : Wr 4 s s' := by
  refine eventIf_writes (fun u hu => ?_) e
  try dsimp only
  repeat' first
      | with_reducible exact hu
      | split

      | (intro x; exact ⟨fun hlt => absurd hlt (by decide), fun hlt => absurd hlt (by decide)⟩)
      | exact hu.other (by decide) ⟨rfl, rfl, rfl, rfl, rfl, rfl, rfl, rfl, rfl, rfl, rfl, rfl, rfl, rfl, rfl⟩
      | decide

theorem execReplyNotSuited_writes {kind : Nat} {more : Bool} (e : execReplyNotSuited kind more s = .next s') : Wr 4 s s' := by
  refine report_writes (fun a r u hu => ?_) e
  try dsimp only
  repeat' first
      | with_reducible exact hu
      | split
      | with_reducible apply State.wr_send
      | (intro x; exact ⟨fun hlt => absurd hlt (by decide), fun hlt => absurd hlt (by decide)⟩)
      | exact hu.other (by decide) ⟨rfl, rfl, rfl, rfl, rfl, rfl, rfl, rfl, rfl, rfl, rfl, rfl, rfl, rfl, rfl⟩
      | decide

theorem execBroadcast_writes (e : execBroadcast s = .next s') : Wr 4 s s' := by
  refine eventIf_writes (fun u hu => ?_) e
  try dsimp only
  repeat' first
      | with_reducible exact hu
      | split
      | with_reducible apply State.wr_sendBroadcast
      | (intro x; exact ⟨fun hlt => absurd hlt (by decide), fun hlt => absurd hlt (by decide)⟩)
      | exact hu.other (by decide) ⟨rfl, rfl, rfl, rfl, rfl, rfl, rfl, rfl, rfl, rfl, rfl, rfl, rfl, rfl, rfl⟩
      | decide

theorem execNoneReply_writes {order : Nat} {more : Bool} (e : execNoneReply order more s = .next s') : Wr 4 s s' := by
  refine report_writes (fun a r u hu => ?_) e
  try dsimp only
  repeat' first
      | with_reducible exact hu
      | split
      | with_reducible apply State.wr_lostCommand
      | with_reducible apply State.wr_modVehicle
      | (intro x; exact ⟨fun hlt => absurd hlt (by decide), fun hlt => absurd hlt (by decide)⟩)
      | exact hu.other (by decide) ⟨rfl, rfl, rfl, rfl, rfl, rfl, rfl, rfl, rfl, rfl, rfl, rfl, rfl, rfl, rfl⟩
      | decide

theorem execPosition_writes {order : Nat} {p : Spot} {passed more : Bool} (e : execPosition order p passed more s = .next s') : Wr 4 s s' := by
  refine taken_writes (fun a v u hu => ?_) e
  try dsimp only
  repeat' first
      | with_reducible exact hu
      | split
      | with_reducible apply State.wr_stall
      | with_reducible apply State.wr_refuse
      | with_reducible apply State.wr_takePosition
      | (intro x; exact ⟨fun hlt => absurd hlt (by decide), fun hlt => absurd hlt (by decide)⟩)
      | exact hu.other (by decide) ⟨rfl, rfl, rfl, rfl, rfl, rfl, rfl, rfl, rfl, rfl, rfl, rfl, rfl, rfl, rfl⟩
      | decide

theorem execClaim_writes {order g : Nat} {more : Bool} (e : execClaim order g more s = .next s') : Wr 4 s s' := by
  refine taken_writes (fun a v u hu => ?_) e
  try dsimp only
  repeat' first
      | with_reducible exact hu
      | split
      | with_reducible apply State.wr_refuse
      | with_reducible apply State.wr_takeClaim
      | (intro x; exact ⟨fun hlt => absurd hlt (by decide), fun hlt => absurd hlt (by decide)⟩)
      | exact hu.other (by decide) ⟨rfl, rfl, rfl, rfl, rfl, rfl, rfl, rfl, rfl, rfl, rfl, rfl, rfl, rfl, rfl⟩
      | decide

theorem execDocked_writes {order : Nat} {deck : Deck} {more : Bool} (e : execDocked order deck more s = .next s') : Wr 4 s s' := by
  refine taken_writes (fun a v u hu => ?_) e
  try dsimp only
  repeat' first
      | with_reducible exact hu
      | split
      | with_reducible apply State.wr_resumeTransfer
      | with_reducible apply State.wr_dock
      | with_reducible apply State.wr_modVehicle
      | (intro x; exact ⟨fun hlt => absurd hlt (by decide), fun hlt => absurd hlt (by decide)⟩)
      | exact hu.other (by decide) ⟨rfl, rfl, rfl, rfl, rfl, rfl, rfl, rfl, rfl, rfl, rfl, rfl, rfl, rfl, rfl⟩
      | decide

theorem execLoaded_writes {order : Nat} {more : Bool} (e : execLoaded order more s = .next s') : Wr 4 s s' := by
  refine taken_writes (fun a v u hu => ?_) e
  try dsimp only
  repeat' first
      | with_reducible exact hu
      | split
      | with_reducible apply State.wr_resumeTransfer
      | with_reducible apply State.wr_wrongState
      | with_reducible apply State.wr_takeLoaded
      | (intro x; exact ⟨fun hlt => absurd hlt (by decide), fun hlt => absurd hlt (by decide)⟩)
      | exact hu.other (by decide) ⟨rfl, rfl, rfl, rfl, rfl, rfl, rfl, rfl, rfl, rfl, rfl, rfl, rfl, rfl, rfl⟩
      | decide

theorem execUnloaded_writes {order : Nat} {more : Bool} (e : execUnloaded order more s = .next s') : Wr 4 s s' := by
  refine taken_writes (fun a v u hu => ?_) e
  try dsimp only
  repeat' first
      | with_reducible exact hu
      | split
      | with_reducible apply State.wr_resumeTransfer
      | with_reducible apply State.wr_wrongState
      | with_reducible apply State.wr_takeUnloaded
      | (intro x; exact ⟨fun hlt => absurd hlt (by decide), fun hlt => absurd hlt (by decide)⟩)
      | exact hu.other (by decide) ⟨rfl, rfl, rfl, rfl, rfl, rfl, rfl, rfl, rfl, rfl, rfl, rfl, rfl, rfl, rfl⟩
      | decide

theorem execIdle_writes {_order x : Nat} {more : Bool} (e : execIdle _order x more s = .next s') : Wr 4 s s' := by
  refine vehicleReport_writes (fun a v u hu => ?_) e
  try dsimp only
  repeat' first
      | with_reducible exact hu
      | split
      | with_reducible apply State.wr_stall
      | with_reducible apply State.wr_refuse
      | with_reducible apply State.wr_takeIdle
      | with_reducible apply State.wr_modVehicle
      | (intro x; exact ⟨fun hlt => absurd hlt (by decide), fun hlt => absurd hlt (by decide)⟩)
      | exact hu.other (by decide) ⟨rfl, rfl, rfl, rfl, rfl, rfl, rfl, rfl, rfl, rfl, rfl, rfl, rfl, rfl, rfl⟩
      | decide

theorem execFault_writes {order _number : Nat} {more : Bool} (e : execFault order _number more s = .next s') : Wr 4 s s' := by
  refine taken_writes (fun a v u hu => ?_) e
  try dsimp only
  repeat' first
      | with_reducible exact hu
      | split
      | with_reducible apply State.wr_stall
      | (intro x; exact ⟨fun hlt => absurd hlt (by decide), fun hlt => absurd hlt (by decide)⟩)
      | exact hu.other (by decide) ⟨rfl, rfl, rfl, rfl, rfl, rfl, rfl, rfl, rfl, rfl, rfl, rfl, rfl, rfl, rfl⟩
      | decide

theorem execTagRead_writes {t : Tag} {g w d : Nat} {kg : Option Nat} {more : Bool} (e : execTagRead t g w d kg more s = .next s') : Wr 4 s s' := by
  refine report_writes (fun a r u hu => ?_) e
  try dsimp only
  repeat' first
      | with_reducible exact hu
      | split
      | with_reducible apply State.wr_refuse
      | with_reducible apply State.wr_tagReadAt
      | (intro x; exact ⟨fun hlt => absurd hlt (by decide), fun hlt => absurd hlt (by decide)⟩)
      | exact hu.other (by decide) ⟨rfl, rfl, rfl, rfl, rfl, rfl, rfl, rfl, rfl, rfl, rfl, rfl, rfl, rfl, rfl⟩
      | decide

theorem execScaleWeight_writes {t : Tag} {kg : Nat} {more : Bool} (e : execScaleWeight t kg more s = .next s') : Wr 4 s s' := by
  refine report_writes (fun a r u hu => ?_) e
  try dsimp only
  repeat' first
      | with_reducible exact hu
      | split
      | with_reducible apply State.wr_refuse
      | with_reducible apply State.wr_scaleAt
      | (intro x; exact ⟨fun hlt => absurd hlt (by decide), fun hlt => absurd hlt (by decide)⟩)
      | exact hu.other (by decide) ⟨rfl, rfl, rfl, rfl, rfl, rfl, rfl, rfl, rfl, rfl, rfl, rfl, rfl, rfl, rfl⟩
      | decide

theorem execBayHeights_writes {heights : List Nat} {more : Bool} (e : execBayHeights heights more s = .next s') : Wr 4 s s' := by
  refine report_writes (fun a r u hu => ?_) e
  try dsimp only
  repeat' first
      | with_reducible exact hu
      | split
      | with_reducible apply State.wr_refuse
      | with_reducible apply State.wr_takeHeights
      | (intro x; exact ⟨fun hlt => absurd hlt (by decide), fun hlt => absurd hlt (by decide)⟩)
      | exact hu.other (by decide) ⟨rfl, rfl, rfl, rfl, rfl, rfl, rfl, rfl, rfl, rfl, rfl, rfl, rfl, rfl, rfl⟩
      | decide

theorem execPrepDone_writes {arm : Arm} {after before : Nat} {more : Bool} (e : execPrepDone arm after before more s = .next s') : Wr 4 s s' := by
  refine report_writes (fun a r u hu => ?_) e
  try dsimp only
  repeat' first
      | with_reducible exact hu
      | split
      | with_reducible apply State.wr_refuse
      | with_reducible apply State.wr_prepDoneAt
      | (intro x; exact ⟨fun hlt => absurd hlt (by decide), fun hlt => absurd hlt (by decide)⟩)
      | exact hu.other (by decide) ⟨rfl, rfl, rfl, rfl, rfl, rfl, rfl, rfl, rfl, rfl, rfl, rfl, rfl, rfl, rfl⟩
      | decide

theorem execStubOff_writes {arm : Arm} {measured : Option Nat} {more : Bool} (e : execStubOff arm measured more s = .next s') : Wr 4 s s' := by
  refine report_writes (fun a r u hu => ?_) e
  try dsimp only
  repeat' first
      | with_reducible exact hu
      | split
      | with_reducible apply State.wr_refuse
      | with_reducible apply State.wr_stubOffAt
      | (intro x; exact ⟨fun hlt => absurd hlt (by decide), fun hlt => absurd hlt (by decide)⟩)
      | exact hu.other (by decide) ⟨rfl, rfl, rfl, rfl, rfl, rfl, rfl, rfl, rfl, rfl, rfl, rfl, rfl, rfl, rfl⟩
      | decide

theorem execSpliceNow_writes {st : Nat} {more : Bool} (e : execSpliceNow st more s = .next s') : Wr 4 s s' := by
  refine report_writes (fun a r u hu => ?_) e
  try dsimp only
  repeat' first
      | with_reducible exact hu
      | split
      | with_reducible apply State.wr_spliceNowAt
      | (intro x; exact ⟨fun hlt => absurd hlt (by decide), fun hlt => absurd hlt (by decide)⟩)
      | exact hu.other (by decide) ⟨rfl, rfl, rfl, rfl, rfl, rfl, rfl, rfl, rfl, rfl, rfl, rfl, rfl, rfl, rfl⟩
      | decide

theorem execConsoleGood_writes {more : Bool} (e : execConsoleGood more s = .next s') : Wr 4 s s' := by
  refine report_writes (fun a r u hu => ?_) e
  try dsimp only
  repeat' first
      | with_reducible exact hu
      | split
      | with_reducible apply State.wr_refuse
      | with_reducible apply State.wr_consoleGoodAt
      | (intro x; exact ⟨fun hlt => absurd hlt (by decide), fun hlt => absurd hlt (by decide)⟩)
      | exact hu.other (by decide) ⟨rfl, rfl, rfl, rfl, rfl, rfl, rfl, rfl, rfl, rfl, rfl, rfl, rfl, rfl, rfl⟩
      | decide

theorem execConsoleStop_writes {more : Bool} (e : execConsoleStop more s = .next s') : Wr 4 s s' := by
  refine report_writes (fun a r u hu => ?_) e
  try dsimp only
  repeat' first
      | with_reducible exact hu
      | split
      | with_reducible apply State.wr_refuse
      | with_reducible apply State.wr_consoleStopAt
      | (intro x; exact ⟨fun hlt => absurd hlt (by decide), fun hlt => absurd hlt (by decide)⟩)
      | exact hu.other (by decide) ⟨rfl, rfl, rfl, rfl, rfl, rfl, rfl, rfl, rfl, rfl, rfl, rfl, rfl, rfl, rfl⟩
      | decide

theorem execConsoleRestart_writes {more : Bool} (e : execConsoleRestart more s = .next s') : Wr 4 s s' := by
  refine report_writes (fun a r u hu => ?_) e
  try dsimp only
  repeat' first
      | with_reducible exact hu
      | split
      | with_reducible apply State.wr_refuse
      | with_reducible apply State.wr_consoleRestartAt
      | (intro x; exact ⟨fun hlt => absurd hlt (by decide), fun hlt => absurd hlt (by decide)⟩)
      | exact hu.other (by decide) ⟨rfl, rfl, rfl, rfl, rfl, rfl, rfl, rfl, rfl, rfl, rfl, rfl, rfl, rfl, rfl⟩
      | decide

theorem execWebPulse_writes {l : Nat} (e : execWebPulse l s = .next s') : Wr 4 s s' := by
  refine eventIf_writes (fun u hu => ?_) e
  try dsimp only
  repeat' first
      | with_reducible exact hu
      | split
      | with_reducible apply State.wr_modLine
      | (intro x; exact ⟨fun hlt => absurd hlt (by decide), fun hlt => absurd hlt (by decide)⟩)
      | exact hu.other (by decide) ⟨rfl, rfl, rfl, rfl, rfl, rfl, rfl, rfl, rfl, rfl, rfl, rfl, rfl, rfl, rfl⟩
      | decide

theorem execGateExpiry_writes {l : Nat} (e : execGateExpiry l s = .next s') : Wr 4 s s' := by
  refine eventIf_writes (fun u hu => ?_) e
  try dsimp only
  repeat' first
      | with_reducible exact hu
      | split
      | with_reducible apply State.wr_gate
      | (intro x; exact ⟨fun hlt => absurd hlt (by decide), fun hlt => absurd hlt (by decide)⟩)
      | exact hu.other (by decide) ⟨rfl, rfl, rfl, rfl, rfl, rfl, rfl, rfl, rfl, rfl, rfl, rfl, rfl, rfl, rfl⟩
      | decide

theorem execMarkEdge_writes {st : Nat} {a : Arm} (e : execMarkEdge st a s = .next s') : Wr 4 s s' := by
  refine eventIf_writes (fun u hu => ?_) e
  try dsimp only
  repeat' first
      | with_reducible exact hu
      | split
      | with_reducible apply State.wr_markEdge
      | (intro x; exact ⟨fun hlt => absurd hlt (by decide), fun hlt => absurd hlt (by decide)⟩)
      | exact hu.other (by decide) ⟨rfl, rfl, rfl, rfl, rfl, rfl, rfl, rfl, rfl, rfl, rfl, rfl, rfl, rfl, rfl⟩
      | decide

theorem execMarkTimerExpiry_writes {st : Nat} (e : execMarkTimerExpiry st s = .next s') : Wr 4 s s' := by
  refine expiry_writes (fun u hu => ?_) e
  try dsimp only
  repeat' first
      | with_reducible exact hu
      | split
      | with_reducible apply State.wr_setLost
      | with_reducible apply State.wr_modStand
      | (intro x; exact ⟨fun hlt => absurd hlt (by decide), fun hlt => absurd hlt (by decide)⟩)
      | exact hu.other (by decide) ⟨rfl, rfl, rfl, rfl, rfl, rfl, rfl, rfl, rfl, rfl, rfl, rfl, rfl, rfl, rfl⟩
      | exact fun _ h => h
      | decide

theorem execPasteTimerExpiry_writes {st : Nat} (e : execPasteTimerExpiry st s = .next s') : Wr 4 s s' := by
  refine expiry_writes (fun u hu => ?_) e
  try dsimp only
  repeat' first
      | with_reducible exact hu
      | split
      | with_reducible apply State.wr_splice
      | (intro x; exact ⟨fun hlt => absurd hlt (by decide), fun hlt => absurd hlt (by decide)⟩)
      | exact hu.other (by decide) ⟨rfl, rfl, rfl, rfl, rfl, rfl, rfl, rfl, rfl, rfl, rfl, rfl, rfl, rfl, rfl⟩
      | decide

theorem execWebBreakPin_writes {st : Nat} (e : execWebBreakPin st s = .next s') : Wr 4 s s' := by
  unfold execWebBreakPin at e
  repeat' split at e
  all_goals
    cases e
    first
      | exact State.wr_finish (State.wr_webBreak (State.wr_fresh (wr_self s) (Nat.le_refl 4)) (Nat.le_refl 4) _)
      | exact State.wr_modStand (wr_self s) _ _ fun x => ⟨fun hlt => absurd hlt (by decide), fun hlt => absurd hlt (by decide)⟩
      | exact wr_self s

theorem execFolderJam_writes {l : Nat} (e : execFolderJam l s = .next s') : Wr 4 s s' := by
  unfold execFolderJam at e
  repeat' split at e
  all_goals
    cases e
    first
      | exact State.wr_finish (State.wr_folderJam (State.wr_fresh (wr_self s) (Nat.le_refl 4)) (Nat.le_refl 4) _)
      | exact State.wr_modLine (wr_self s) (by decide) _ _ fun x => ⟨fun hlt => absurd hlt (by decide), fun hlt => absurd hlt (by decide)⟩
      | exact wr_self s

theorem execCopyPulse_writes {l : Nat} (e : execCopyPulse l s = .next s') : Wr 4 s s' := by
  refine eventIf_writes (fun u hu => ?_) e
  try dsimp only
  repeat' first
      | with_reducible exact hu
      | split
      | with_reducible apply State.wr_copy
      | (intro x; exact ⟨fun hlt => absurd hlt (by decide), fun hlt => absurd hlt (by decide)⟩)
      | exact hu.other (by decide) ⟨rfl, rfl, rfl, rfl, rfl, rfl, rfl, rfl, rfl, rfl, rfl, rfl, rfl, rfl, rfl⟩
      | decide

theorem execSecondTick_writes (e : execSecondTick s = .next s') : Wr 4 s s' := by
  refine event_writes (fun u hu => ?_) e
  try dsimp only
  repeat' first
      | with_reducible exact hu
      | split
      | with_reducible apply State.wr_secondTick
      | (intro x; exact ⟨fun hlt => absurd hlt (by decide), fun hlt => absurd hlt (by decide)⟩)
      | exact hu.other (by decide) ⟨rfl, rfl, rfl, rfl, rfl, rfl, rfl, rfl, rfl, rfl, rfl, rfl, rfl, rfl, rfl⟩
      | decide

theorem execProgressTimeout_writes {v : Nat} (e : execProgressTimeout v s = .next s') : Wr 4 s s' := by
  refine expiry_writes (fun u hu => ?_) e
  try dsimp only
  repeat' first
      | with_reducible exact hu
      | split
      | with_reducible apply State.wr_stall
      | (intro x; exact ⟨fun hlt => absurd hlt (by decide), fun hlt => absurd hlt (by decide)⟩)
      | exact hu.other (by decide) ⟨rfl, rfl, rfl, rfl, rfl, rfl, rfl, rfl, rfl, rfl, rfl, rfl, rfl, rfl, rfl⟩
      | decide

theorem execTransferTimeout_writes {v : Nat} (e : execTransferTimeout v s = .next s') : Wr 4 s s' := by
  refine expiry_writes (fun u hu => ?_) e
  try dsimp only
  repeat' first
      | with_reducible exact hu
      | split
      | with_reducible apply State.wr_transferExpires
      | (intro x; exact ⟨fun hlt => absurd hlt (by decide), fun hlt => absurd hlt (by decide)⟩)
      | exact hu.other (by decide) ⟨rfl, rfl, rfl, rfl, rfl, rfl, rfl, rfl, rfl, rfl, rfl, rfl, rfl, rfl, rfl⟩
      | decide

theorem execPowerReturn_writes {held : Bool} (e : execPowerReturn held s = .next s') : Wr 4 s s' := by
  unfold execPowerReturn at e
  repeat' split at e
  all_goals
    cases e
    first
      | with_reducible exact State.wr_warmStart (wr_self s) (Nat.le_refl 4) _
      | exact (wr_self s).cold (Nat.le_refl 4)
      | exact wr_self s

theorem execMainPowerLoss_writes (e : execMainPowerLoss s = .next s') : Wr 4 s s' := by
  unfold execMainPowerLoss at e
  split at e
  · cases e
    have g := State.wr_mainCleared (State.wr_dropOutputs (State.wr_fresh (wr_self s) (Nat.le_refl 4)) (Nat.le_refl 4)) (Nat.le_refl 4)
    generalize s.fresh.dropOutputs.mainCleared = u at g
    exact g.other (Nat.le_refl 4) ⟨rfl, rfl, rfl, rfl, rfl, rfl, rfl, rfl, rfl, rfl, rfl, rfl, rfl, rfl, rfl⟩
  · cases e; exact wr_self s

theorem execWake_writes (e : execWake s = .next s') : Wr 4 s s' := by
  unfold execWake at e
  split at e
  · cases e; exact State.wr_warmStart (wr_self s) (Nat.le_refl 4) _
  · cases e; exact wr_self s

theorem execWebBreakPinInactive_writes {st : Nat} (e : execWebBreakPinInactive st s = .next s') : Wr 4 s s' := by
  unfold execWebBreakPinInactive at e
  split at e
  · cases e
    refine State.wr_modStand ?_ _ _ fun x => ⟨fun hlt => absurd hlt (by decide), fun hlt => absurd hlt (by decide)⟩
    split
    · exact State.wr_fresh (wr_self s) (Nat.le_refl 4)
    · exact wr_self s
  · cases e; exact wr_self s

theorem execFolderJamInactive_writes {l : Nat} (e : execFolderJamInactive l s = .next s') : Wr 4 s s' := by
  unfold execFolderJamInactive at e
  split at e
  · cases e
    refine State.wr_modLine ?_ (by decide) _ _ fun x => ⟨fun hlt => absurd hlt (by decide), fun hlt => absurd hlt (by decide)⟩
    split
    · exact State.wr_fresh (wr_self s) (Nat.le_refl 4)
    · exact wr_self s
  · cases e; exact wr_self s

theorem execFrameStart_writes {addr : Nat} (e : execFrameStart addr s = .next s') : Wr 4 s s' := by
  refine eventIf_writes (fun u hu => ?_) e
  try dsimp only
  repeat' first
      | with_reducible exact hu
      | split
      | with_reducible apply State.wr_frameBegins
      | (intro x; exact ⟨fun hlt => absurd hlt (by decide), fun hlt => absurd hlt (by decide)⟩)
      | exact hu.other (by decide) ⟨rfl, rfl, rfl, rfl, rfl, rfl, rfl, rfl, rfl, rfl, rfl, rfl, rfl, rfl, rfl⟩
      | decide

theorem execReplyOtherAddress_writes {addr : Nat} (e : execReplyOtherAddress addr s = .next s') : Wr 4 s s' := by
  refine eventIf_writes (fun u hu => ?_) e
  try dsimp only
  repeat' first
      | with_reducible exact hu
      | split
      | with_reducible apply State.wr_missed
      | (intro x; exact ⟨fun hlt => absurd hlt (by decide), fun hlt => absurd hlt (by decide)⟩)
      | exact hu.other (by decide) ⟨rfl, rfl, rfl, rfl, rfl, rfl, rfl, rfl, rfl, rfl, rfl, rfl, rfl, rfl, rfl⟩
      | decide

/-- Every command's next state is a chain of writes from the state it is taken in. -/
theorem exec_writes {i : Instr} (e : exec i s = .next s') : Wr 4 s s' := by
  cases i with
  | requestTransaction => exact execRequestTransaction_writes e
  | readTransaction => exact execReadTransaction_writes e
  | lookupRoll => exact execLookupRoll_writes e
  | listRollsByGrade => exact execListRollsByGrade_writes e
  | listRollsByLocation => exact execListRollsByLocation_writes e
  | announceRoll => exact execAnnounceRoll_writes e
  | holdRoll => exact execHoldRoll_writes e
  | releaseRoll => exact execReleaseRoll_writes e
  | retireRoll => exact execRetireRoll_writes e
  | placeRoll => exact execPlaceRoll_writes e
  | readBayByNumber => exact execReadBayByNumber_writes e
  | readBayNextHeld => exact execReadBayNextHeld_writes e
  | setBay => exact execSetBay_writes e
  | releaseBay => exact execReleaseBay_writes e
  | setGradeConfigure => exact execSetGradeConfigure_writes e
  | setGradeClear => exact execSetGradeClear_writes e
  | readGrade => exact execReadGrade_writes e
  | writePlanHead => exact execWritePlanHead_writes e
  | writePlanPositions => exact execWritePlanPositions_writes e
  | readPlan => exact execReadPlan_writes e
  | changeover => exact execChangeover_writes e
  | readStand => exact execReadStand_writes e
  | setStand => exact execSetStand_writes e
  | setLine => exact execSetLine_writes e
  | openJob => exact execOpenJob_writes e
  | closeJob => exact execCloseJob_writes e
  | readJobByNumber => exact execReadJobByNumber_writes e
  | readJobNext => exact execReadJobNext_writes e
  | retireJob => exact execRetireJob_writes e
  | stopLine => exact execStopLine_writes e
  | restartLine => exact execRestartLine_writes e
  | orderMove => exact execOrderMove_writes e
  | cancelOrder => exact execCancelOrder_writes e
  | readOrderByNumber => exact execReadOrderByNumber_writes e
  | readOrderNext => exact execReadOrderNext_writes e
  | retireOrder => exact execRetireOrder_writes e
  | setServiceIn => exact execSetServiceIn_writes e
  | setServiceOut => exact execSetServiceOut_writes e
  | setServiceSettings => exact execSetServiceSettings_writes e
  | readVehicle => exact execReadVehicle_writes e
  | setSegment => exact execSetSegment_writes e
  | setNode => exact execSetNode_writes e
  | setRoute => exact execSetRoute_writes e
  | haltTransport => exact execHaltTransport_writes e
  | resumeTransport => exact execResumeTransport_writes e
  | setStationConfigure => exact execSetStationConfigure_writes e
  | setStationClear => exact execSetStationClear_writes e
  | setStationSettings => exact execSetStationSettings_writes e
  | readStationByAddress => exact execReadStationByAddress_writes e
  | readStationNext => exact execReadStationNext_writes e
  | standby => exact execStandby_writes e
  | standbyEntry => exact execStandbyEntry_writes e
  | restartPart => exact execRestartPart_writes e
  | readAttention => exact execReadAttention_writes e
  | poll => exact execPoll_writes e
  | replyWindowExpiry => exact execReplyWindowExpiry_writes e
  | frameSpoiled => exact execFrameSpoiled_writes e
  | characterGapTimeout => exact execCharacterGapTimeout_writes e
  | lateReplyDiscarded => exact execLateReplyDiscarded_writes e
  | replyNotSuited => exact execReplyNotSuited_writes e
  | broadcast => exact execBroadcast_writes e
  | noneReply => exact execNoneReply_writes e
  | position => exact execPosition_writes e
  | claim => exact execClaim_writes e
  | docked => exact execDocked_writes e
  | loaded => exact execLoaded_writes e
  | unloaded => exact execUnloaded_writes e
  | idle => exact execIdle_writes (_order := 0) e
  | fault => exact execFault_writes (_number := 0) e
  | tagRead => exact execTagRead_writes e
  | scaleWeight => exact execScaleWeight_writes e
  | bayHeights => exact execBayHeights_writes e
  | prepDone => exact execPrepDone_writes e
  | stubOff => exact execStubOff_writes e
  | spliceNow => exact execSpliceNow_writes e
  | consoleGood => exact execConsoleGood_writes e
  | consoleStop => exact execConsoleStop_writes e
  | consoleRestart => exact execConsoleRestart_writes e
  | webPulse => exact execWebPulse_writes e
  | gateExpiry => exact execGateExpiry_writes e
  | markEdge => exact execMarkEdge_writes e
  | markTimerExpiry => exact execMarkTimerExpiry_writes e
  | pasteTimerExpiry => exact execPasteTimerExpiry_writes e
  | webBreakPin => exact execWebBreakPin_writes e
  | folderJam => exact execFolderJam_writes e
  | copyPulse => exact execCopyPulse_writes e
  | secondTick => exact execSecondTick_writes e
  | progressTimeout => exact execProgressTimeout_writes e
  | transferTimeout => exact execTransferTimeout_writes e
  | powerReturn => exact execPowerReturn_writes e
  | mainPowerLoss => exact execMainPowerLoss_writes e
  | wake => exact execWake_writes e
  | webBreakPinInactive => exact execWebBreakPinInactive_writes e
  | folderJamInactive => exact execFolderJamInactive_writes e
  | frameStart => exact execFrameStart_writes e
  | replyOtherAddress => exact execReplyOtherAddress_writes e

/-- Every step's next state is a chain of writes. -/
theorem step_writes (e : step s = .next s') : Wr 4 s s' := by
  unfold step at e
  split at e
  · cases e; exact State.wr_tick (wr_self s) (Nat.le_refl 4)
  · next c cs _ =>
    have g : Wr 4 s { s with pending := cs } :=
      (wr_self s).other (Nat.le_refl 4) ⟨rfl, rfl, rfl, rfl, rfl, rfl, rfl, rfl, rfl, rfl, rfl, rfl, rfl, rfl, rfl⟩
    exact g.trans (exec_writes e)

end Sys2Proof.Machine
end

