-- ==== Sys2Proof/Laws/Requests.lean ====
section
/-! SUPPORT. What taking a command does before and after its owner's part: the request, event and report frames. -/

namespace Sys2Proof.Machine

variable {s : State} {e : Exchange} {x : Station} {more : Bool}

/-- With no pass due the end of a step changes nothing. -/
theorem State.finish_idle (h : s.passDue = false) : s.finish = s := by
  unfold State.finish
  rw [h]
  simp only [Bool.false_and, Bool.false_eq_true, if_false]
  rw [← h]

/-- While transport is halted no pass is run (R154). -/
theorem State.finish_halted (h : s.halted = true) : s.finish = { s with passDue := false } := by
  unfold State.finish
  simp [h]

theorem clockedOut_nil (n : Nat) : clockedOut [] n = List.replicate n 0#8 := by simp [clockedOut]

/-- A request taken by the port is what its owner makes of it, and the answer. -/
theorem request_taken {c : Instr} {h : State → Reply} (ht : s.takes c = true) (hp : (h s.fresh).state.port = s.port) :
    request c h s = .next (((h s.fresh).state.replied c (h s.fresh).status (h s.fresh).payload).finish) := by
  unfold State.takes at ht
  rw [Bool.and_eq_true] at ht
  unfold request State.replied complete State.answered State.discards
  rw [if_pos ht.1, hp, clockedOut_nil]
  revert ht
  cases hs : s.port.state with
  | working => intro ht; simp only [beq_iff_eq] at ht; simp only [if_pos ht.2, if_true]
  | idle => intro ht; simp only [beq_iff_eq] at ht; simp only [if_pos ht.2, reduceCtorEq, if_false]
  | receiving => intro ht; simp only [beq_iff_eq] at ht; simp only [if_pos ht.2, reduceCtorEq, if_false]
  | answer => intro ht; simp at ht

/-- A request taken with no pass due. -/
theorem request_quiet {c : Instr} {h : State → Reply} (ht : s.takes c = true) (hp : (h s.fresh).state.port = s.port)
    (hq : (h s.fresh).state.passDue = false) :
    request c h s = .next ((h s.fresh).state.replied c (h s.fresh).status (h s.fresh).payload) := by
  rw [request_taken ht hp, State.finish_idle]
  exact hq

/-- A request whose owner's reply is known. -/
theorem request_eq {c : Instr} {h : State → Reply} {q : Reply} (ht : s.takes c = true) (hq : h s.fresh = q) (hp : q.state.port = s.port) :
    request c h s = .next ((q.state.replied c q.status q.payload).finish) := by
  subst hq
  exact request_taken ht hp

/-- A request whose owner's reply is known and leads to no pass. -/
theorem request_eq_quiet {c : Instr} {h : State → Reply} {q : Reply} (ht : s.takes c = true) (hq : h s.fresh = q)
    (hp : q.state.port = s.port) (hd : q.state.passDue = false) : request c h s = .next (q.state.replied c q.status q.payload) := by
  subst hq
  exact request_quiet ht hp hd

/-- A request refused. -/
theorem request_refused {c : Instr} {h : State → Reply} {x : Status} (ht : s.takes c = true) (hq : h s.fresh = s.fresh.no x) :
    request c h s = .next (s.fresh.replied c x []) := request_eq_quiet ht hq rfl rfl

theorem event_awake {f : State → State} (h : s.awake = true) : event f s = .next (f s.fresh).finish := by
  unfold event
  rw [if_pos h]

theorem eventIf_taken {p : State → Bool} {f : State → State} (h : s.awake = true) (hp : p s = true) :
    eventIf p f s = .next (f s.fresh).finish := by
  unfold eventIf
  rw [h, hp]
  rfl

/-- A good reply taken from the polled station. -/
theorem report_heard {f : Nat → Role → State → State} (h : s.hears e x) :
    report more f s = .next (f e.addr x.role (s.heard e more)).finish := by
  unfold report
  rw [if_pos h.1, h.2.1]
  dsimp only
  rw [h.2.2]
  rfl

theorem vehicleReport_heard {k : Report} {f : Nat → Nat → State → State} {v : Nat} (h : s.hears e x) (hr : x.role = .vehicle v) :
    vehicleReport k more f s = .next (f e.addr v (s.heard e more)).finish := by
  unfold vehicleReport
  rw [report_heard h, hr]

/-! ## What the state of a good reply is -/

@[simp] theorem State.heard_powered : (s.heard e more).powered = s.powered := by
  unfold State.heard State.goodReply
  dsimp only
  split <;> simp [State.fresh]

@[simp] theorem State.heard_timeBase : (s.heard e more).timeBase = s.timeBase := by
  unfold State.heard State.goodReply
  dsimp only
  split <;> simp [State.fresh]

@[simp] theorem State.heard_subMs : (s.heard e more).subMs = s.subMs := by
  unfold State.heard State.goodReply
  dsimp only
  split <;> simp [State.fresh]

@[simp] theorem State.heard_micros : (s.heard e more).micros = s.micros := by
  unfold State.heard State.goodReply
  dsimp only
  split <;> simp [State.fresh]

@[simp] theorem State.heard_rolls : (s.heard e more).rolls = s.rolls := by
  unfold State.heard State.goodReply
  dsimp only
  split <;> simp [State.fresh]

@[simp] theorem State.heard_arrival : (s.heard e more).arrival = s.arrival := by
  unfold State.heard State.goodReply
  dsimp only
  split <;> simp [State.fresh]

@[simp] theorem State.heard_bays : (s.heard e more).bays = s.bays := by
  unfold State.heard State.goodReply
  dsimp only
  split <;> simp [State.fresh]

@[simp] theorem State.heard_grades : (s.heard e more).grades = s.grades := by
  unfold State.heard State.goodReply
  dsimp only
  split <;> simp [State.fresh]

@[simp] theorem State.heard_lines : (s.heard e more).lines = s.lines := by
  unfold State.heard State.goodReply
  dsimp only
  split <;> simp [State.fresh]

@[simp] theorem State.heard_stands : (s.heard e more).stands = s.stands := by
  unfold State.heard State.goodReply
  dsimp only
  split <;> simp [State.fresh]

@[simp] theorem State.heard_jobs : (s.heard e more).jobs = s.jobs := by
  unfold State.heard State.goodReply
  dsimp only
  split <;> simp [State.fresh]

@[simp] theorem State.heard_orders : (s.heard e more).orders = s.orders := by
  unfold State.heard State.goodReply
  dsimp only
  split <;> simp [State.fresh]

@[simp] theorem State.heard_orderPointer : (s.heard e more).orderPointer = s.orderPointer := by
  unfold State.heard State.goodReply
  dsimp only
  split <;> simp [State.fresh]

@[simp] theorem State.heard_orderSeq : (s.heard e more).orderSeq = s.orderSeq := by
  unfold State.heard State.goodReply
  dsimp only
  split <;> simp [State.fresh]

@[simp] theorem State.heard_segments : (s.heard e more).segments = s.segments := by
  unfold State.heard State.goodReply
  dsimp only
  split <;> simp [State.fresh]

@[simp] theorem State.heard_nodes : (s.heard e more).nodes = s.nodes := by
  unfold State.heard State.goodReply
  dsimp only
  split <;> simp [State.fresh]

@[simp] theorem State.heard_routes : (s.heard e more).routes = s.routes := by
  unfold State.heard State.goodReply
  dsimp only
  split <;> simp [State.fresh]

@[simp] theorem State.heard_progressTimeout : (s.heard e more).progressTimeout = s.progressTimeout := by
  unfold State.heard State.goodReply
  dsimp only
  split <;> simp [State.fresh]

@[simp] theorem State.heard_transferTimeout : (s.heard e more).transferTimeout = s.transferTimeout := by
  unfold State.heard State.goodReply
  dsimp only
  split <;> simp [State.fresh]

@[simp] theorem State.heard_urgentMargin : (s.heard e more).urgentMargin = s.urgentMargin := by
  unfold State.heard State.goodReply
  dsimp only
  split <;> simp [State.fresh]

@[simp] theorem State.heard_halted : (s.heard e more).halted = s.halted := by
  unfold State.heard State.goodReply
  dsimp only
  split <;> simp [State.fresh]

@[simp] theorem State.heard_rate : (s.heard e more).rate = s.rate := by
  unfold State.heard State.goodReply
  dsimp only
  split <;> simp [State.fresh]

@[simp] theorem State.heard_replyWindow : (s.heard e more).replyWindow = s.replyWindow := by
  unfold State.heard State.goodReply
  dsimp only
  split <;> simp [State.fresh]

@[simp] theorem State.heard_cycle : (s.heard e more).cycle = s.cycle := by
  unfold State.heard State.goodReply
  dsimp only
  split <;> simp [State.fresh]

@[simp] theorem State.heard_pendingBroadcast : (s.heard e more).pendingBroadcast = s.pendingBroadcast := by
  unfold State.heard State.goodReply
  dsimp only
  split <;> simp [State.fresh]

@[simp] theorem State.heard_port : (s.heard e more).port = s.port := by
  unfold State.heard State.goodReply
  dsimp only
  split <;> simp [State.fresh]

@[simp] theorem State.heard_attn : (s.heard e more).attn = s.attn := by
  unfold State.heard State.goodReply
  dsimp only
  split <;> simp [State.fresh]

@[simp] theorem State.heard_startKind : (s.heard e more).startKind = s.startKind := by
  unfold State.heard State.goodReply
  dsimp only
  split <;> simp [State.fresh]

@[simp] theorem State.heard_startCause : (s.heard e more).startCause = s.startCause := by
  unfold State.heard State.goodReply
  dsimp only
  split <;> simp [State.fresh]

@[simp] theorem State.heard_standby : (s.heard e more).standby = s.standby := by
  unfold State.heard State.goodReply
  dsimp only
  split <;> simp [State.fresh]

@[simp] theorem State.heard_pending : (s.heard e more).pending = s.pending := by
  unfold State.heard State.goodReply
  dsimp only
  split <;> simp [State.fresh]

@[simp] theorem State.heard_shifted : (s.heard e more).shifted = [] := by
  unfold State.heard State.goodReply
  dsimp only
  split <;> simp [State.fresh]

@[simp] theorem State.heard_lineOut : (s.heard e more).lineOut = [] := by
  unfold State.heard State.goodReply
  dsimp only
  split <;> simp [State.fresh]

@[simp] theorem State.heard_edges : (s.heard e more).edges = [] := by
  unfold State.heard State.goodReply
  dsimp only
  split <;> simp [State.fresh]

@[simp] theorem State.heard_passDue : (s.heard e more).passDue = false := by
  unfold State.heard State.goodReply
  dsimp only
  split <;> simp [State.fresh]

@[simp] theorem State.heard_exchange : (s.heard e more).exchange = none := rfl
@[simp] theorem State.heard_receiver : (s.heard e more).receiver = .hunting := rfl
@[simp] theorem State.heard_further : (s.heard e more).further = if more = true ∧ e.turn < 4 then some (e.addr, e.turn) else none := rfl

/-- The station record after steps 1 and 2 of R164. -/
theorem State.heard_stations (h : s.hears e x) : (s.heard e more).stations =
    s.stations.put e.addr (some { x with miss := 0, silent := false, reduced := if x.silent then 0 else x.reduced }) := by
  unfold State.heard State.goodReply
  have hs : s.fresh.station e.addr = some x := h.2.2
  dsimp only
  split <;> simp [State.modStation, hs] <;> rfl

/-- The vehicle of the station has its last-report time, no other record changes (R164 step 3). -/
theorem State.heard_vehicles (h : s.hears e x) : (s.heard e more).vehicles =
    match x.role with
    | .vehicle n => s.vehicles.set n .cold { s.vehicle n with lastReport := some s.timeBase }
    | _ => s.vehicles := by
  unfold State.heard State.goodReply
  have hs : s.fresh.station e.addr = some x := h.2.2
  dsimp only
  rw [hs]
  cases hr : x.role <;> simp [State.modStation, hs, State.modVehicle, hr, State.setVehicle, State.vehicle] <;> rfl

end Sys2Proof.Machine
end

