-- ==== Sys2Proof/Laws/Reads.lean ====
section
/-! SUPPORT. What reading gives after a write, the bytes of a number, the least of a list, and how a request or report that is done answers. -/

namespace Sys2Proof.Machine

theorem resolve_fresh (s : State) (r : RollRef) : s.fresh.resolve r = s.resolve r := by cases r <;> rfl

theorem beBytes_length (w n : Nat) : (beBytes w n).length = w := by
  induction w with
  | zero => rfl
  | succ w ih => simp [beBytes, ih]
theorem tagBytes_length (t : Tag) : (tagBytes t).length = 8 := beBytes_length ..
theorem loc_length (l : Location) : l.bytes.length = 3 := by cases l <;> simp [Location.bytes, beBytes_length]
theorem heard_resolve {s : State} {e : Exchange} {more : Bool} (r : RollRef) : (s.heard e more).resolve r = s.resolve r := by
  cases r <;> simp [State.resolve, State.rollByTag, State.roll]
theorem heard_args {s : State} {e : Exchange} {more : Bool} (t g w d kg) : (s.heard e more).announceArgs t g w d kg = s.announceArgs t g w d kg := by
  unfold State.announceArgs State.grade; rw [State.heard_grades]
theorem heard_room {s : State} {e : Exchange} {more : Bool} : (s.heard e more).announceRoom = s.announceRoom := by
  simp [State.announceRoom, State.freeRecord, State.orderFree]
theorem heard_free {s : State} {e : Exchange} {more : Bool} : (s.heard e more).freeRecord = s.freeRecord := by
  simp [State.freeRecord]

theorem report_quiet {s : State} {e : Exchange} {x : Station} {more : Bool} {f : Nat → Role → State → State} {u : State} (h : s.hears e x)
    (hu : f e.addr x.role (s.heard e more) = u) (hd : u.passDue = false) : report more f s = .next u := by
  rw [report_heard h, hu, State.finish_idle hd]

theorem roll_put (s : State) (n m : Nat) (o : Option Roll) : (s.putRoll n o).roll m = if m = n then o else s.roll m := Tbl.find_put ..

theorem roll_modRoll (s : State) (n m : Nat) (f : Roll → Roll) : (s.modRoll n f).roll m = if m = n then (s.roll n).map f else s.roll m := by
  unfold State.modRoll
  split
  · next h => split
              · next e => rw [e, h]; rfl
              · rfl
  · next r h => rw [h, roll_put]; rfl

theorem beNat_append (a b : List Byte) : beNat (a ++ b) = beNat a * 256 ^ b.length + beNat b := by
  have : ∀ (b : List Byte) (z : Nat), b.foldl (fun a c => a * 256 + c.toNat) z = z * 256 ^ b.length + b.foldl (fun a c => a * 256 + c.toNat) 0 := by
    intro b
    induction b with
    | nil => intro z; simp
    | cons c b ih => intro z; rw [List.foldl_cons, ih, List.foldl_cons, ih (0 * 256 + c.toNat), List.length_cons, Nat.pow_succ, Nat.add_mul]; simp [Nat.mul_assoc, Nat.mul_comm 256, Nat.add_assoc]
  unfold beNat
  rw [List.foldl_append, this]
theorem beNat_beBytes (w n : Nat) : beNat (beBytes w n) = n % 256 ^ w := by
  induction w with
  | zero => simp [beBytes, beNat, Nat.mod_one]
  | succ w ih =>
    have : beBytes (w + 1) n = [BitVec.ofNat 8 (n / 256 ^ w)] ++ beBytes w n := rfl
    rw [this, beNat_append, ih, beBytes_length]
    have : beNat [BitVec.ofNat 8 (n / 256 ^ w)] = n / 256 ^ w % 256 := by simp [beNat]
    rw [this, Nat.pow_succ, Nat.mod_mul, Nat.mul_comm]; omega
theorem slice (a b c : List Byte) (k w : Nat) (h : a.length = k) (h2 : b.length = w) : ((a ++ (b ++ c)).drop k).take w = b := by
  subst h; subst h2; simp

theorem Law.Wr_bay {k : Nat} {s t : State} (h : Wr k s t) (hk : k < 1) (b : Nat) : t.bay b = s.bay b := by
  unfold State.bay; rw [(h.kept_bays hk).1]

theorem Law.bay_set (s : State) (n c : Nat) (x : Bay) : (s.setBay n x).bay c = if c = n then x else s.bay c := Tbl.get_set ..

theorem Law.bay_mod (s : State) (n c : Nat) (f : Bay → Bay) : (s.modBay n f).bay c = if c = n then f (s.bay n) else s.bay c := Tbl.get_set ..


theorem Law.stand_mod (s : State) (n c : Nat) (f : Stand → Stand) : (s.modStand n f).stand c = if c = n then f (s.stand n) else s.stand c := Tbl.get_set ..
theorem Law.line_mod (s : State) (n c : Nat) (f : Line → Line) : (s.modLine n f).line c = if c = n then f (s.line n) else s.line c := Tbl.get_set ..
theorem Law.vehicle_mod (s : State) (n c : Nat) (f : Vehicle → Vehicle) : (s.modVehicle n f).vehicle c = if c = n then f (s.vehicle n) else s.vehicle c := Tbl.get_set ..
theorem Law.segment_mod (s : State) (n c : Nat) (f : Segment → Segment) : (s.modSegment n f).segment c = if c = n then f (s.segment n) else s.segment c := Tbl.get_set ..
theorem Law.order_put (s : State) (n m : Nat) (o : Option Order) : (s.putOrder n o).order m = if m = n then o else s.order m := Tbl.find_put ..
theorem Law.job_put (s : State) (n m : Nat) (o : Option Job) : (s.putJob n o).job m = if m = n then o else s.job m := Tbl.find_put ..
theorem Law.station_put (s : State) (n m : Nat) (o : Option Station) : (s.putStation n o).station m = if m = n then o else s.station m := Tbl.find_put ..
theorem Law.order_mod (s : State) (n m : Nat) (f : Order → Order) : (s.modOrder n f).order m = if m = n then (s.order n).map f else s.order m := by
  unfold State.modOrder
  cases hr : s.order n with
  | none => by_cases h : m = n
            · subst h; simp [hr]
            · simp [h]
  | some r => dsimp only; rw [Law.order_put]; rfl
theorem Law.job_mod (s : State) (n m : Nat) (f : Job → Job) : (s.modJob n f).job m = if m = n then (s.job n).map f else s.job m := by
  unfold State.modJob
  cases hr : s.job n with
  | none => by_cases h : m = n
            · subst h; simp [hr]
            · simp [h]
  | some r => dsimp only; rw [Law.job_put]; rfl
theorem Law.station_mod (s : State) (n m : Nat) (f : Station → Station) : (s.modStation n f).station m = if m = n then (s.station n).map f else s.station m := by
  unfold State.modStation
  cases hr : s.station n with
  | none => by_cases h : m = n
            · subst h; simp [hr]
            · simp [h]
  | some r => dsimp only; rw [Law.station_put]; rfl
theorem Law.refuse_quiet (s : State) (a : Nat) (k : Report) (r : Reason) : (s.refuse a k r).passDue = s.passDue := by simp [State.refuse]
theorem Law.accept_quiet (s : State) (a : Nat) (k : Report) : (s.accept a k).passDue = s.passDue := by simp [State.accept]
theorem Law.leastBy_none (f : Nat → Nat) (l : List Nat) : leastBy f l = none ↔ l = [] := by
  cases l with
  | nil => simp [leastBy]
  | cons n ns => simp only [leastBy]; repeat' split
                 all_goals simp

theorem Law.leastBy_some (f : Nat → Nat) (l : List Nat) (n : Nat) (h : leastBy f l = some n) : n ∈ l ∧ ∀ m ∈ l, f n ≤ f m := by
  induction l generalizing n with
  | nil => cases h
  | cons a l ih =>
    simp only [leastBy] at h
    split at h
    · next hn => rw [Law.leastBy_none] at hn; subst hn; cases h; simp
    · next m hm =>
      obtain ⟨h1, h2⟩ := ih m hm
      split at h
      · next hlt => cases h; exact ⟨List.mem_cons_of_mem _ h1, fun b hb => by
          cases hb with
          | head => omega
          | tail _ hb => exact h2 b hb⟩
      · next hlt => cases h; exact ⟨List.mem_cons_self, fun b hb => by
          cases hb with
          | head => omega
          | tail _ hb => have := h2 b hb; omega⟩

theorem Law.mem_keys (s : State) (n : Nat) (r : Roll) (h : s.roll n = some r) : n ∈ s.rolls.keys := by
  unfold Tbl.keys
  exact List.mem_map.mpr ⟨(n, r), Tbl.mem_of_find h, rfl⟩

theorem Law.mem_span (lo hi n : Nat) : n ∈ span lo hi ↔ lo ≤ n ∧ n ≤ hi := by
  unfold span
  rw [List.mem_range'_1]
  omega

theorem Law.find_range (p : Nat → Bool) (b : Nat) (hb : p b = true) : ∀ (len lo : Nat), lo ≤ b → b < lo + len →
    (∀ c, lo ≤ c → c < b → p c = false) → (List.range' lo len).find? p = some b := by
  intro len
  induction len with
  | zero => intro lo h1 h2; omega
  | succ len ih =>
    intro lo h1 h2 h3
    rw [List.range'_succ, List.find?_cons]
    by_cases h : lo = b
    · subst h; rw [hb]
    · rw [h3 lo (Nat.le_refl _) (by omega)]
      exact ih (lo + 1) (by omega) (by omega) fun c hc hc2 => h3 c (by omega) hc2

theorem Law.find_span (p : Nat → Bool) (lo hi b : Nat) (h1 : lo ≤ b) (h2 : b ≤ hi) (hb : p b = true) (hc : ∀ c, lo ≤ c → c < b → p c = false) :
    (span lo hi).find? p = some b := Law.find_range p b hb _ _ h1 (by omega) hc


theorem Law.request_done {s u : State} {i : Instr} {h : State → Reply} {x : Status} {p : List Byte} (ht : s.takes i = true) (hq : h s.fresh = ⟨u, x, p⟩)
    (hp : u.port = s.port) : ∃ t, request i h s = .next t ∧ t.answers i x p ∧ Wr 0 (u.replied i x p) t ∧ t.passDue = false := by
  refine ⟨_, request_eq ht hq hp, ?_, State.finish_writes _, ?_⟩
  · exact ((State.finish_writes _).kept (by omega)).port
  · unfold State.finish; rfl
theorem Law.request_done_line {u t : State} {i : Instr} {x : Status} {p : List Byte} (h : Wr 0 (u.replied i x p) t) (m : Nat) : t.line m = u.line m := by
  unfold State.line; rw [(h.kept_lines (by omega)).1]; rfl
theorem Law.request_done_job {u t : State} {i : Instr} {x : Status} {p : List Byte} (h : Wr 0 (u.replied i x p) t) (m : Nat) : t.job m = u.job m := by
  unfold State.job; rw [(h.kept_lines (by omega)).2]; rfl
theorem Law.request_done_bay {u t : State} {i : Instr} {x : Status} {p : List Byte} (h : Wr 0 (u.replied i x p) t) (m : Nat) : t.bay m = u.bay m := by
  unfold State.bay; rw [(h.kept_bays (by omega)).1]; rfl
theorem Law.request_done_lines {u t : State} {i : Instr} {x : Status} {p : List Byte} (h : Wr 0 (u.replied i x p) t) :
    t.lines = u.lines ∧ t.jobs = u.jobs ∧ t.bays = u.bays ∧ t.segments = u.segments ∧ t.grades = u.grades ∧ t.nodes = u.nodes ∧ t.routes = u.routes ∧
    t.arrival = u.arrival ∧ t.pending = u.pending ∧ t.exchange = u.exchange ∧ t.standby = u.standby ∧ t.halted = u.halted :=
  ⟨(h.kept_lines (by omega)).1, (h.kept_lines (by omega)).2, (h.kept_bays (by omega)).1, (h.kept_bays (by omega)).2, (h.kept (by omega)).grades,
    (h.kept (by omega)).nodes, (h.kept (by omega)).routes, (h.kept (by omega)).arrival, (h.kept (by omega)).pending, (h.kept (by omega)).exchange,
    (h.kept (by omega)).standby, (h.kept (by omega)).halted⟩

theorem Law.report_refuse {s : State} {e : Exchange} {x : Station} {more : Bool} {f : Nat → Role → State → State} {k : Report} {r : Reason} (h : s.hears e x)
    (hf : f e.addr x.role (s.heard e more) = (s.heard e more).refuse e.addr k r) : report more f s = .next ((s.heard e more).refuse e.addr k r) := by
  refine report_quiet h hf ?_
  rw [Law.refuse_quiet]; simp
theorem Law.report_accept {s u : State} {e : Exchange} {x : Station} {more : Bool} {f : Nat → Role → State → State} {k : Report} (h : s.hears e x)
    (hf : f e.addr x.role (s.heard e more) = u.accept e.addr k) (hu : u.passDue = false) : report more f s = .next (u.accept e.addr k) := by
  refine report_quiet h hf ?_
  rw [Law.accept_quiet]; exact hu
/-- What a report leads to, with the pass after it. -/
theorem Law.heardDone {s u : State} {e : Exchange} {x : Station} {more : Bool} {f : Nat → Role → State → State} (h : s.hears e x)
    (hf : f e.addr x.role (s.heard e more) = u) : ∃ t, report more f s = .next t ∧ Wr 0 u t ∧ t.passDue = false := by
  refine ⟨_, report_heard h, ?_, ?_⟩
  · rw [hf]; exact State.finish_writes _
  · unfold State.finish; rfl
theorem Law.heard_line {s : State} {e : Exchange} {more : Bool} (l : Nat) : (s.heard e more).line l = s.line l := by unfold State.line; rw [State.heard_lines]
theorem Law.heard_stand {s : State} {e : Exchange} {more : Bool} (l : Nat) : (s.heard e more).stand l = s.stand l := by unfold State.stand; rw [State.heard_stands]
theorem Law.heard_roll {s : State} {e : Exchange} {more : Bool} (l : Nat) : (s.heard e more).roll l = s.roll l := by unfold State.roll; rw [State.heard_rolls]
theorem Law.heard_order {s : State} {e : Exchange} {more : Bool} (l : Nat) : (s.heard e more).order l = s.order l := by unfold State.order; rw [State.heard_orders]
theorem Law.heard_job {s : State} {e : Exchange} {more : Bool} (l : Nat) : (s.heard e more).job l = s.job l := by unfold State.job; rw [State.heard_jobs]
theorem Law.heard_bay {s : State} {e : Exchange} {more : Bool} (l : Nat) : (s.heard e more).bay l = s.bay l := by unfold State.bay; rw [State.heard_bays]
theorem Law.heard_grade {s : State} {e : Exchange} {more : Bool} (l : Nat) : (s.heard e more).grade l = s.grade l := by unfold State.grade; rw [State.heard_grades]
theorem Law.heard_segment {s : State} {e : Exchange} {more : Bool} (l : Nat) : (s.heard e more).segment l = s.segment l := by unfold State.segment; rw [State.heard_segments]

end Sys2Proof.Machine
end

