-- ==== Sys2Proof/Laws/Breaks.lean ====
section
/-! SUPPORT. A changeover taking effect and the entry into BREAK, said once: what becomes of a line's machine, and which writes leave a stand's record but for its call-off links. -/

namespace Sys2Proof.Machine

theorem Law.mapEach (f : Roll → Roll) (hf : ∀ r, f (f r) = f r) (ns : List Nat) (s : State) :
    (∀ n r, s.roll n = some r → (s.each ns fun n s => s.modRoll n f).roll n = some (if n ∈ ns then f r else r)) ∧
    (∀ n, s.roll n = none → (s.each ns fun n s => s.modRoll n f).roll n = none) := by
  induction ns generalizing s with
  | nil => exact ⟨fun n r h => by simpa [State.each] using h, fun n h => h⟩
  | cons m ns ih =>
    have hm : ∀ n, (s.modRoll m f).roll n = if n = m then (s.roll n).map f else s.roll n := by
      intro n
      unfold State.modRoll
      cases hr : s.roll m with
      | none => by_cases h : n = m
                · subst h; simp [hr]
                · simp [h]
      | some r =>
        dsimp only
        show (s.rolls.put m (some (f r))).find n = _
        rw [Tbl.find_put]
        by_cases h : n = m
        · subst h; simp [hr]
        · simp [h]; rfl
    refine ⟨fun n r h => ?_, fun n h => ?_⟩
    · show ((s.modRoll m f).each ns _).roll n = _
      by_cases h2 : n = m
      · subst h2
        rw [(ih (s.modRoll n f)).1 n (f r) (by rw [hm, if_pos rfl, h]; rfl)]
        simp [hf]
      · rw [(ih (s.modRoll m f)).1 n r (by rw [hm, if_neg h2, h])]
        simp [h2]
    · show ((s.modRoll m f).each ns _).roll n = _
      refine (ih (s.modRoll m f)).2 n ?_
      rw [hm, h]
      split <;> rfl

theorem Law.eachOnly (ns : List Nat) (f : Roll → Roll) (s : State) :
    ∃ t, (s.each ns fun n s => s.modRoll n f) = { s with rolls := t } := by
  induction ns generalizing s with
  | nil => exact ⟨s.rolls, rfl⟩
  | cons m ns ih =>
    obtain ⟨t, ht⟩ := ih (s.modRoll m f)
    refine ⟨t, ?_⟩
    show (s.modRoll m f).each ns _ = _
    rw [ht]
    unfold State.modRoll
    split <;> rfl

theorem RollsAfter.sendVehicle (s : State) (n : Nat) (c : Cmd) : (s.sendVehicle n c).rolls = s.rolls := by
  unfold State.sendVehicle State.sendVehicleKept State.sendKept; split <;> simp
theorem RollsAfter.restartProgress (s : State) (n : Nat) : (s.restartProgress n).rolls = s.rolls := by
  unfold State.restartProgress; simp
theorem RollsAfter.syncProgress (s : State) (n : Nat) : (s.syncProgress n).rolls = s.rolls := by
  unfold State.syncProgress; split <;> simp [RollsAfter.restartProgress]
theorem RollsAfter.sendTask (s : State) (n : Nat) : (s.sendTask n).rolls = s.rolls := by
  unfold State.sendTask; repeat' split
  all_goals simp [RollsAfter.sendVehicle]
theorem RollsAfter.steer (s : State) (v : Nat) (w : Option Nat) : (s.steer v w).rolls = s.rolls := by
  unfold State.steer; simp [RollsAfter.syncProgress]
theorem RollsAfter.withdrawBay (s : State) (n : Nat) (o : Order) : (s.withdrawBay n o).rolls = s.rolls := by
  unfold State.withdrawBay; split <;> simp
theorem RollsAfter.storeFull (s : State) (o : Order) : (s.storeFull o).rolls = s.rolls := by
  unfold State.storeFull; split <;> simp
theorem RollsAfter.newDrop (s : State) (v n : Nat) (o : Order) (w : Option Nat) : (s.newDrop v n o w).rolls = s.rolls := by
  unfold State.newDrop; split <;> simp [RollsAfter.sendVehicle, RollsAfter.steer, RollsAfter.sendTask]
theorem RollsAfter.redirect (s : State) (n : Nat) : (s.redirect n).rolls = s.rolls := by
  unfold State.redirect
  repeat' split
  all_goals simp [RollsAfter.newDrop, RollsAfter.storeFull]
theorem RollsAfter.rerouteFrom (s : State) (n : Nat) : (s.rerouteFrom n).rolls = s.rolls := by
  unfold State.rerouteFrom
  split <;> simp [RollsAfter.redirect, RollsAfter.withdrawBay]
theorem RollsAfter.each {α : Type} (g : State → α) (f : Nat → State → State) (hf : ∀ n s, g (f n s) = g s) (ns : List Nat) (s : State) : g (s.each ns f) = g s := by
  unfold State.each
  induction ns generalizing s with
  | nil => rfl
  | cons n ns ih => exact (ih (f n s)).trans (hf n s)

theorem Law.dropNotices_jobs (s : State) (l : Nat) : (s.dropNotices l).jobs = s.jobs ∧ (s.dropNotices l).lines = s.lines := by
  unfold State.dropNotices
  exact ⟨RollsAfter.each State.jobs _ (fun n s => by simp) _ _, RollsAfter.each State.lines _ (fun n s => by simp) _ _⟩


theorem Law.takeChangeover (s : State) (l : Nat) :
    let p := (s.line l).working
    let u := s.takeChangeover l false
    (u.line l).live = p ∧ (u.line l).working = p ∧ (u.line l).pending = false ∧
    (∀ n j, p.job = some n → s.job n = some j → ∃ k, u.job n = some k ∧ k.state = .live ∧ k.line = j.line ∧ k.target = some p.target ∧ k.allowance = some p.allowance) ∧
    (∀ n j, s.liveJob l = some n → s.job n = some j → p.job ≠ some n → ∃ k, u.job n = some k ∧ k.state = .closed) := by
  intro p u
  let s2 := ((s.closeOutgoing l).makeLive p.job p).modLine l fun y => { y with live := y.working, pending := false, counting := y.counting.changed, window := 0 }
  have hlines : ((s.closeOutgoing l).makeLive p.job p).lines = s.lines := by
    unfold State.makeLive State.modJobAt State.closeOutgoing
    repeat' split
    all_goals simp [Law.dropNotices_jobs]
  have hs2 : s2.line l = { s.line l with live := p, pending := false, counting := (s.line l).counting.changed, window := 0 } := by
    show (State.modLine _ l _).line l = _
    rw [Law.line_mod, if_pos rfl]
    have : ((s.closeOutgoing l).makeLive p.job p).line l = s.line l := by unfold State.line; rw [hlines]
    rw [this]
  have hwr : Wr 2 s2 (s.takeChangeover l false) := by
    unfold State.takeChangeover
    dsimp only
    rw [if_neg Bool.false_ne_true]
    refine State.wr_replan ?_ (Nat.le_refl 2) _ _ _
    split
    · exact State.wr_countBreak .refl (Nat.le_refl 2) _
    · exact .refl
  have hkl := (hwr.kept_line (by omega) l).2 (by omega)
  have hclose : ∀ n j, s.job n = some j → (s.closeOutgoing l).job n = some (if s.liveJob l = some n then { j with state := .closed } else j) := by
    intro n j hj
    unfold State.closeOutgoing
    split
    · next m hm =>
      show State.job (State.dropNotices _ _) n = _
      unfold State.job
      rw [(Law.dropNotices_jobs _ _).1]
      show State.job (s.modJob m ({ · with state := .closed })) n = _
      rw [Law.job_mod]
      by_cases e : n = m
      · subst e; rw [if_pos rfl, hj, if_pos hm]; rfl
      · rw [if_neg e, hj, if_neg (by rw [hm]; simpa using fun h => e h.symm)]
    · next hm => rw [hj, if_neg (by rw [hm]; simp)]
  refine ⟨hkl.1.trans (by rw [hs2]), hkl.2.1.trans (by rw [hs2]), hkl.2.2.trans (by rw [hs2]), fun n j hn hj => ?_, fun n j hn hj hp => ?_⟩
  · have hj2 : s2.job n = some { (if s.liveJob l = some n then { j with state := .closed } else j) with state := .live, target := some p.target, allowance := some p.allowance, excess := false, targetMet := false } := by
      show State.job (State.makeLive _ _ _) n = _
      unfold State.makeLive
      rw [hn]
      unfold State.modJobAt
      show State.job (State.modJob _ _ _) n = _
      rw [Law.job_mod, if_pos rfl, hclose n j hj]
      rfl
    obtain ⟨j', p1, p2, p3, p4⟩ := hwr.kept_job (by omega) n _ hj2
    obtain ⟨p5, p6, p7⟩ := p4 (by omega)
    refine ⟨j', p1, p5, p2.trans ?_, p6, p7⟩
    dsimp only
    split <;> rfl
  · have hj2 : s2.job n = some { j with state := .closed } := by
      show State.job (State.makeLive _ _ _) n = _
      unfold State.makeLive State.modJobAt
      split
      · next m hm =>
        rw [Law.job_mod, if_neg, hclose n j hj, if_pos hn]
        rintro rfl
        exact hp hm
      · rw [hclose n j hj, if_pos hn]
    obtain ⟨j', p1, p2, p3, p4⟩ := hwr.kept_job (by omega) n _ hj2
    exact ⟨j', p1, (p4 (by omega)).1⟩

/-! lines in BREAK -/
/-- A line but for its counting state and its splice window. -/
def Law.uncounted (x : Line) : Line := { x with counting := .idle, window := 0 }
/-- A line of a state, but for its counting state and window. -/
def Law.lineUncounted (s : State) (m : Nat) : Line := Law.uncounted (s.line m)
theorem LineCore.wr {k : Nat} {s t : State} (h : Wr k s t) (hk : k < 2) (m : Nat) : Law.lineUncounted t m = Law.lineUncounted s m := by
  unfold Law.lineUncounted State.line; rw [(h.kept_lines hk).1]
theorem LineCore.lines {s t : State} (h : t.lines = s.lines) (m : Nat) : Law.lineUncounted t m = Law.lineUncounted s m := by
  unfold Law.lineUncounted State.line; rw [h]
theorem LineCore.modLine (s : State) (l : Nat) (f : Line → Line) (hf : ∀ x, Law.uncounted (f x) = Law.uncounted x) (m : Nat) :
    Law.lineUncounted (s.modLine l f) m = Law.lineUncounted s m := by
  unfold Law.lineUncounted
  rw [Law.line_mod]
  split
  · next h => rw [hf, h]
  · rfl
theorem LineCore.modJob (s : State) (n m : Nat) (f : Job → Job) : Law.lineUncounted (s.modJob n f) m = Law.lineUncounted s m :=
  LineCore.lines (State.modJob_lines s n f) m
theorem LineCore.modJobAt (s : State) (n : Option Nat) (m : Nat) (f : Job → Job) : Law.lineUncounted (s.modJobAt n f) m = Law.lineUncounted s m := by
  cases n with
  | none => rfl
  | some n => exact LineCore.modJob s n m f
theorem LineCore.spliceEvent (s : State) (l m : Nat) : Law.lineUncounted (s.spliceEvent l) m = Law.lineUncounted s m := by
  unfold State.spliceEvent
  dsimp only
  generalize hc : s.modJobAt (s.liveJob l) _ = u
  have hu : Law.lineUncounted u m = Law.lineUncounted s m := by rw [← hc]; exact LineCore.modJobAt ..
  split
  · rfl
  · split
    · exact hu
    · refine (LineCore.modLine _ _ _ ?_ m).trans hu; intro x; rfl
  · refine (LineCore.modLine _ _ _ ?_ m).trans hu; intro x; rfl
  · exact hu
  · exact hu
  · exact hu
theorem LineCore.countBreak (s : State) (l m : Nat) : Law.lineUncounted (s.countBreak l) m = Law.lineUncounted s m := by
  unfold State.countBreak
  split
  · refine (LineCore.modLine _ _ _ ?_ m).trans (LineCore.modJob ..); intro x; rfl
  · rfl
theorem LineCore.modStand (s : State) (n m : Nat) (f : Stand → Stand) : Law.lineUncounted (s.modStand n f) m = Law.lineUncounted s m := rfl
theorem LineCore.modRoll (s : State) (n m : Nat) (f : Roll → Roll) : Law.lineUncounted (s.modRoll n f) m = Law.lineUncounted s m :=
  LineCore.lines (State.modRoll_lines s n f) m
theorem LineCore.drivePin (s : State) (p : Pin) (b : Bool) (hp : ∀ l, p ≠ .stop l) (m : Nat) : Law.lineUncounted (s.drivePin p b) m = Law.lineUncounted s m := by
  unfold State.drivePin
  split
  · rfl
  · cases p with
    | stop l => exact absurd rfl (hp l)
    | _ => rfl
theorem LineCore.splice (s : State) (st m : Nat) : Law.lineUncounted (s.splice st) m = Law.lineUncounted s m := by
  unfold State.splice
  dsimp only
  split
  · split
    · next a b _ _ _ _ old new _ _ =>
      refine (LineCore.wr (State.wr_afterStart .refl (Nat.le_refl 1) _) (by omega) m).trans ?_
      refine (LineCore.modStand _ _ _ _).trans ?_
      have hz : ∀ (x : Stand) (j : Option Nat), Law.lineUncounted (((((s.dropPasteDrive st).expire old st a x.df).startMove new st b j).seedDiameter st new).modStand st
        ({ · with seq := .running, matchCount := 0, pasteLeft := none, pasteLine := none, lastVs := none })) m = Law.lineUncounted s m := by
        intro x j
        refine (LineCore.modStand _ _ _ _).trans ?_
        refine (LineCore.modStand _ _ _ _).trans ?_
        refine (LineCore.modStand _ _ _ _).trans ?_
        refine (LineCore.modRoll _ _ _ _).trans ?_
        refine (LineCore.modStand _ _ _ _).trans ?_
        refine (LineCore.modRoll _ _ _ _).trans ?_
        refine (LineCore.drivePin _ _ _ (by intro l h; cases h) m).trans ?_
        exact LineCore.drivePin _ _ _ (by intro l h; cases h) m
      split
      · exact (LineCore.spliceEvent _ _ m).trans (hz _ _)
      · exact hz _ _
    · rfl
  · rfl
theorem LineCore.each (f : Nat → State → State) (m : Nat) (hf : ∀ n s, Law.lineUncounted (f n s) m = Law.lineUncounted s m) (ns : List Nat) (s : State) :
    Law.lineUncounted (s.each ns f) m = Law.lineUncounted s m := RollsAfter.each (fun s => Law.lineUncounted s m) f hf ns s
theorem LineCore.joinBreak (s : State) (l : Nat) (j : List Nat) (h : (s.line l).inBreak = true) : s.joinBreak l j = s := by
  unfold State.joinBreak; rw [if_pos h]
theorem Law.breakSteps (s : State) (l m : Nat) (c : Cause) : Law.lineUncounted (s.breakSteps l c) m =
    Law.uncounted (if m = l then { s.line l with inBreak := true, cause := some c, lowMark := false, stop := true } else s.line m) := by
  unfold State.breakSteps
  dsimp only
  refine (LineCore.lines (State.raise_lines _ _ _) m).trans ?_
  have h1 : ∀ u : State, Law.lineUncounted (if (u.line l).live.breakBrake = true then u.each (u.lineStands l) fun st s => s.drivePin (.brake st) true else u) m = Law.lineUncounted u m := by
    intro u; split
    · exact LineCore.each _ m (fun n s => LineCore.drivePin s _ _ (by intro l h; cases h) m) _ _
    · rfl
  refine (h1 _).trans ?_
  refine (LineCore.each _ m (fun n s => LineCore.splice s n m) _ _).trans ?_
  refine (LineCore.each _ m (fun n s => LineCore.wr (State.wr_disarm (k := 0) .refl n) (by omega) m) _ _).trans ?_
  refine (LineCore.countBreak _ l m).trans ?_
  unfold Law.lineUncounted State.drivePin
  dsimp only
  split
  · next h =>
    rw [Law.line_mod]
    unfold State.pinLevel at h
    dsimp only at h
    rw [Law.line_mod, if_pos rfl] at h
    dsimp only at h
    split
    · rw [h]
    · rfl
  · next h =>
    rw [Law.line_mod]
    by_cases e : m = l
    · rw [if_pos e, if_pos e]
      show Law.uncounted { State.line (State.modLine s l fun x => { x with inBreak := true, cause := some c, lowMark := false }) l with stop := true } = _
      rw [Law.line_mod, if_pos rfl]
    · rw [if_neg e, if_neg e]
      show Law.uncounted (State.line (State.modLine s l fun x => { x with inBreak := true, cause := some c, lowMark := false }) m) = _
      rw [Law.line_mod, if_neg e]

theorem LineCore.replan (s : State) (l m : Nat) (old : List Nat) (start : Bool) (h : (s.line l).inBreak = true) :
    Law.lineUncounted (s.replan l old start) m = Law.lineUncounted s m := by
  have keep : ∀ (u : State), Law.lineUncounted u l = Law.lineUncounted s l → (u.line l).inBreak = true := by
    intro u hu; have := congrArg Line.inBreak hu; exact this.trans h
  unfold State.replan
  dsimp only
  generalize hn : s.lineStands l = new
  have a1 : ∀ (u : State) (ns : List Nat) (k : Nat), Law.lineUncounted (u.each ns fun st s => s.standLeaves st) k = Law.lineUncounted u k := fun u ns k =>
    LineCore.each _ k (fun n s => LineCore.wr (State.wr_standLeaves .refl (Nat.le_refl 1) n) (by omega) k) _ _
  have a2 : ∀ (u : State) (ns : List Nat) (k : Nat), Law.lineUncounted (u.each ns fun st s => s.standJoins l st) k = Law.lineUncounted u k := fun u ns k =>
    LineCore.each _ k (fun n s => by
      unfold State.standJoins
      dsimp only
      have : Law.lineUncounted (((s.modStand n Stand.clearChannels).restartMark n).brakeByPlan l n) k = Law.lineUncounted s k := by
        refine (LineCore.wr (State.wr_brakeByPlan .refl (Nat.le_refl 1) _ _) (by omega) k).trans ?_
        refine (LineCore.wr (State.wr_restartMark .refl (Nat.le_refl 1) _) (by omega) k).trans ?_
        exact LineCore.lines (by simp) k
      split
      · exact (LineCore.splice _ _ k).trans this
      · exact this) _ _
  have a3 : ∀ (u : State) (ns : List Nat) (k : Nat), Law.lineUncounted (u.each ns fun st s => s.brakeByPlan l st) k = Law.lineUncounted u k := fun u ns k =>
    LineCore.each _ k (fun n s => LineCore.wr (State.wr_brakeByPlan .refl (Nat.le_refl 1) l n) (by omega) k) _ _
  have a4 : ∀ (u : State) (ns : List Nat) (k : Nat), Law.lineUncounted (u.each ns fun n s => s.dealCallOff l n) k = Law.lineUncounted u k := fun u ns k =>
    LineCore.each _ k (fun n s => LineCore.wr (State.wr_dealCallOff (k := 0) .refl l n) (by omega) k) _ _
  have a5 : ∀ (u : State) (ns : List Nat) (k : Nat), Law.lineUncounted (u.each ns fun st s => s.evalCallOff st) k = Law.lineUncounted u k := fun u ns k =>
    LineCore.each _ k (fun n s => LineCore.wr (State.wr_evalCallOff (k := 0) .refl n) (by omega) k) _ _
  have a7 : ∀ (u : State) (ns : List Nat) (k : Nat), Law.lineUncounted (u.each ns fun st s => s.firstStart st) k = Law.lineUncounted u k := fun u ns k =>
    LineCore.each _ k (fun n s => LineCore.wr (State.wr_firstStart .refl (Nat.le_refl 1) n) (by omega) k) _ _
  have a8 : ∀ (u : State) (ns : List Nat) (k : Nat), Law.lineUncounted (u.each ns fun st s => s.reevaluate st) k = Law.lineUncounted u k := fun u ns k =>
    LineCore.each _ k (fun n s => LineCore.wr (State.wr_reevaluate .refl (Nat.le_refl 1) n) (by omega) k) _ _
  refine (a8 _ _ m).trans ?_
  have a9 : ∀ (b : Bool) (u : State) (ns : List Nat) (k : Nat), Law.lineUncounted (if b = true then u.each ns fun st s => s.firstStart st else u) k = Law.lineUncounted u k := by
    intro b u ns k; split
    · exact a7 ..
    · rfl
  refine (a9 _ _ _ m).trans ?_
  rw [LineCore.joinBreak]
  · rw [a5, a4, a3, a2, a1]
  · exact keep _ (by rw [a5, a4, a3, a2, a1])
theorem LineCore.ite (b : Prop) [Decidable b] (v : State) (l m : Nat) : Law.lineUncounted (if b then v.countBreak l else v) m = Law.lineUncounted v m := by
  split
  · exact LineCore.countBreak _ _ _
  · rfl
theorem LineCore.taken (u : State) (l : Nat) (h : (u.line l).inBreak = true) :
    Law.lineUncounted (u.takeChangeover l false) l = Law.uncounted { u.line l with live := (u.line l).working, pending := false } := by
  unfold State.takeChangeover
  dsimp only
  generalize hs1 : (u.closeOutgoing l).makeLive (u.line l).working.job (u.line l).working = s1
  have hlines : s1.line l = u.line l := by
    rw [← hs1]
    unfold State.line
    congr 1
    unfold State.makeLive State.modJobAt State.closeOutgoing
    repeat' split
    all_goals simp [Law.dropNotices_jobs]
  generalize hs2 : s1.modLine l _ = s2
  have hc : Law.lineUncounted s2 l = Law.uncounted { u.line l with live := (u.line l).working, pending := false } := by
    rw [← hs2]
    unfold Law.lineUncounted
    rw [Law.line_mod, if_pos rfl, hlines]
    rfl
  generalize hs3 : (if (u.line l).counting = Counting.idle ∧ (u.line l).inBreak = true then s2.countBreak l else s2) = s3
  have hz : Law.lineUncounted s3 l = Law.uncounted { u.line l with live := (u.line l).working, pending := false } := by
    rw [← hs3, LineCore.ite, hc]
  rw [if_neg Bool.false_ne_true, LineCore.replan _ _ _ _ _ ((congrArg Line.inBreak hz).trans h), hz]
theorem Law.enterBreak (s : State) (l : Nat) (c : Cause) :
    let x := (s.enterBreak l c).line l
    x.inBreak = true ∧ x.cause = some c ∧ x.stop = true ∧ x.lowMark = false ∧ x.pending = false := by
  have hb := Law.breakSteps s l l c
  rw [if_pos rfl] at hb
  unfold State.enterBreak
  dsimp only
  generalize s.breakSteps l c = u at *
  have b1 : (u.line l).inBreak = true := congrArg Line.inBreak hb
  have b2 : (u.line l).cause = some c := congrArg Line.cause hb
  have b3 : (u.line l).stop = true := congrArg Line.stop hb
  have b4 : (u.line l).lowMark = false := congrArg Line.lowMark hb
  split
  · next hp =>
    have h4 := LineCore.taken u l b1
    generalize u.takeChangeover l false = z at *
    have c1 : (z.line l).inBreak = (u.line l).inBreak := by have := congrArg Line.inBreak h4; exact this
    have c2 : (z.line l).cause = (u.line l).cause := by have := congrArg Line.cause h4; exact this
    have c3 : (z.line l).stop = (u.line l).stop := by have := congrArg Line.stop h4; exact this
    have c4 : (z.line l).lowMark = (u.line l).lowMark := by have := congrArg Line.lowMark h4; exact this
    have c5 : (z.line l).pending = false := congrArg Line.pending h4
    exact ⟨c1.trans b1, c2.trans b2, c3.trans b3, c4.trans b4, c5⟩
  · next hp => exact ⟨b1, b2, b3, b4, by simpa using hp⟩

/-! what a pass leaves of a stand -/
/-- A stand but for the call-off links of its arms. -/
def Law.withoutCallOffs (x : Stand) : Stand := { x with armA := { x.armA with callOff := none }, armB := { x.armB with callOff := none } }
/-- A stand of a state, but for its call-off links. -/
def Law.standBare (n : Nat) (s : State) : Stand := Law.withoutCallOffs (s.stand n)
theorem BareStand.stands {s t : State} (h : t.stands = s.stands) (n : Nat) : Law.standBare n t = Law.standBare n s := by
  unfold Law.standBare State.stand; rw [h]
theorem BareStand.setCallOff (s : State) (st : Nat) (a : Arm) (o : Option Nat) (n : Nat) : Law.standBare n (s.setCallOff st a o) = Law.standBare n s := by
  unfold Law.standBare State.setCallOff
  rw [Law.stand_mod]
  split
  · next h => subst h; cases a <;> rfl
  · rfl
theorem StandsAfter.sendVehicle (s : State) (n : Nat) (c : Cmd) : (s.sendVehicle n c).stands = s.stands := by
  unfold State.sendVehicle State.sendVehicleKept State.sendKept; split <;> simp
theorem StandsAfter.restartProgress (s : State) (n : Nat) : (s.restartProgress n).stands = s.stands := by
  unfold State.restartProgress; simp
theorem StandsAfter.syncProgress (s : State) (n : Nat) : (s.syncProgress n).stands = s.stands := by
  unfold State.syncProgress; split <;> simp [StandsAfter.restartProgress]
theorem StandsAfter.sendTask (s : State) (n : Nat) : (s.sendTask n).stands = s.stands := by
  unfold State.sendTask; repeat' split
  all_goals simp [StandsAfter.sendVehicle]
theorem StandsAfter.steer (s : State) (v : Nat) (w : Option Nat) : (s.steer v w).stands = s.stands := by
  unfold State.steer; simp [StandsAfter.syncProgress]
theorem StandsAfter.withdrawBay (s : State) (n : Nat) (o : Order) : (s.withdrawBay n o).stands = s.stands := by
  unfold State.withdrawBay; split <;> simp
theorem StandsAfter.storeFull (s : State) (o : Order) : (s.storeFull o).stands = s.stands := by
  unfold State.storeFull; split <;> simp
theorem StandsAfter.newDrop (s : State) (v n : Nat) (o : Order) (w : Option Nat) : (s.newDrop v n o w).stands = s.stands := by
  unfold State.newDrop; split <;> simp [StandsAfter.sendVehicle, StandsAfter.steer, StandsAfter.sendTask]
theorem StandsAfter.redirect (s : State) (n : Nat) : (s.redirect n).stands = s.stands := by
  unfold State.redirect
  repeat' split
  all_goals simp [StandsAfter.newDrop, StandsAfter.storeFull]
theorem StandsAfter.makeUrgent (s : State) (n : Nat) : (s.makeUrgent n).stands = s.stands := by
  unfold State.makeUrgent; dsimp only; repeat' split
  all_goals simp
theorem StandsAfter.testUrgent (s : State) (n : Nat) : (s.testUrgent n).stands = s.stands := by
  unfold State.testUrgent; repeat' split
  all_goals simp [StandsAfter.makeUrgent]
theorem StandsAfter.recomputeDeadlines (s : State) (st : Nat) : (s.recomputeDeadlines st).stands = s.stands := by
  unfold State.recomputeDeadlines
  split
  · refine RollsAfter.each State.stands _ (fun n s => ?_) _ _
    repeat' split
    all_goals simp [StandsAfter.testUrgent]
  · rfl
theorem StandsAfter.createOrder (s : State) (o : Order) (n : Nat) (t : State) (h : s.createOrder o = some (n, t)) : t.stands = s.stands := by
  unfold State.createOrder at h
  split at h
  · cases h; rfl
  · cases h
theorem BareStand.evalCallOff (s : State) (st n : Nat) : Law.standBare n (s.evalCallOff st) = Law.standBare n s := by
  unfold State.evalCallOff
  split
  · rfl
  · next a d p _ =>
    generalize (Order.pendingOf _ _ (if s.urgentAt d = true then _ else _)) = o
    dsimp only
    split
    · next h => rw [BareStand.setCallOff]; exact BareStand.stands (StandsAfter.createOrder _ _ _ _ h) n
    · rfl
theorem BareStand.handTs (s : State) (st n : Nat) : Law.standBare n (s.handTs st) = Law.standBare n s :=
  (BareStand.stands (StandsAfter.recomputeDeadlines _ _) n).trans (BareStand.evalCallOff ..)
theorem BareStand.clearLink (s : State) (m : Nat) (o : Order) (n : Nat) : Law.standBare n (s.clearLink m o) = Law.standBare n s := by
  unfold State.clearLink
  split
  · split
    · exact BareStand.setCallOff ..
    · rfl
  · rfl
theorem BareStand.reviewCallOff (s : State) (o : Order) (n : Nat) : Law.standBare n (s.reviewCallOff o) = Law.standBare n s := by
  unfold State.reviewCallOff
  split
  · exact BareStand.evalCallOff ..
  · rfl
theorem StandsAfter.freeVehicle (s : State) (n : Nat) (o : Order) : (s.freeVehicle n o).stands = s.stands := by
  unfold State.freeVehicle State.unlinkVehicle; repeat' split
  all_goals simp
theorem BareStand.failOrder (s : State) (m n : Nat) : Law.standBare n (s.failOrder m) = Law.standBare n s := by
  unfold State.failOrder
  split
  · rfl
  · rw [BareStand.reviewCallOff]
    refine (BareStand.stands (State.raise_stands _ _ _) n).trans ?_
    refine (BareStand.stands (State.modOrder_stands _ _ _) n).trans ?_
    refine (BareStand.stands (StandsAfter.freeVehicle _ _ _) n).trans ?_
    rw [BareStand.clearLink]
    exact BareStand.stands (StandsAfter.withdrawBay _ _ _) n
theorem StandsAfter.pair (s : State) (n : Nat) (o : Order) (r : Nat) (d : Dest) (p v : Nat) : (s.pair n o r d p v).stands = s.stands := by
  unfold State.pair State.reserve
  dsimp only
  rw [StandsAfter.sendTask, StandsAfter.restartProgress]
  split <;> simp
theorem BareStand.passOne (s : State) (m n : Nat) : Law.standBare n (s.passOne m) = Law.standBare n s := by
  unfold State.passOne
  split
  · rfl
  · next o _ =>
    split
    · exact BareStand.failOrder ..
    · refine BareStand.stands ?_ n
      have h2 : ∀ (b : Prop) [Decidable b] (u : State) (k : Nat), (if b then u.raise .stockShort k else u).stands = u.stands := by
        intro b _ u k; split <;> simp
      have h3 : ∀ (b : Bool) (u : State), (if b = true then u.storeFull o else u).stands = u.stands := by
        intro b u; split <;> simp [StandsAfter.storeFull]
      have h1 := State.modOrder_stands
      dsimp only
      repeat' split
      all_goals try simp only [StandsAfter.pair, StandsAfter.storeFull, h3, h2, h1, State.raise_stands]
theorem BareStand.takeQueue (ns : List Nat) (n : Nat) : ∀ s : State, Law.standBare n (State.takeQueue ns s) = Law.standBare n s := by
  induction ns with
  | nil => intro s; rfl
  | cons m ns ih =>
    intro s
    unfold State.takeQueue
    split
    · exact (ih _).trans (BareStand.passOne ..)
    · rfl
theorem StandsAfter.rechoose (s : State) (n : Nat) : (s.rechoose n).stands = s.stands := by
  unfold State.rechoose
  dsimp only
  repeat' split
  all_goals simp [StandsAfter.newDrop, StandsAfter.storeFull]
theorem BareStand.pass (s : State) (n : Nat) : Law.standBare n s.pass = Law.standBare n s := by
  unfold State.pass
  dsimp only
  rw [BareStand.takeQueue]
  exact RollsAfter.each (fun s => Law.standBare n s) _ (fun m s => BareStand.stands (StandsAfter.rechoose s m) n) _ _
theorem BareStand.finish (s : State) (n : Nat) : Law.standBare n s.finish = Law.standBare n s := by
  unfold State.finish
  dsimp only
  split
  · exact BareStand.pass s n
  · rfl

theorem Law.stand_field_mod {α : Type} (g : Stand → α) (s : State) (st n : Nat) (f : Stand → Stand) (hf : ∀ x, g (f x) = g x) :
    g ((s.modStand st f).stand n) = g (s.stand n) := by
  rw [Law.stand_mod]
  split
  · next h => rw [hf, h]
  · rfl
theorem Law.stand_field_pin {α : Type} (g : Stand → α) (s : State) (p : Pin) (b : Bool) (n : Nat) (h1 : ∀ x : Stand, g { x with drive := b } = g x)
    (h2 : ∀ x : Stand, g { x with paste := b } = g x) (h3 : ∀ x : Stand, g { x with brake := b } = g x) : g ((s.drivePin p b).stand n) = g (s.stand n) := by
  unfold State.drivePin
  split
  · rfl
  · cases p with
    | drive m => exact Law.stand_field_mod g { s with edges := s.edges ++ [⟨.drive m, b⟩] } m n ({ · with drive := b }) h1
    | paste m => exact Law.stand_field_mod g { s with edges := s.edges ++ [⟨.paste m, b⟩] } m n ({ · with paste := b }) h2
    | brake m => exact Law.stand_field_mod g { s with edges := s.edges ++ [⟨.brake m, b⟩] } m n ({ · with brake := b }) h3
    | stop m => rfl
theorem Law.stand_field_arm {α : Type} (g : Stand → α) (s : State) (st : Nat) (a : Arm) (r : ArmRec) (n : Nat) (hA : ∀ x : Stand, ∀ q, g { x with armA := q } = g x)
    (hB : ∀ x : Stand, ∀ q, g { x with armB := q } = g x) : g ((s.setArm st a r).stand n) = g (s.stand n) := by
  unfold State.setArm
  refine Law.stand_field_mod g s st n _ fun x => ?_
  cases a
  · exact hA ..
  · exact hB ..
theorem Law.stand_field_bare {α : Type} (g : Stand → α) (hg : ∀ x, g (Law.withoutCallOffs x) = g x) {s t : State} {n : Nat} (h : Law.standBare n t = Law.standBare n s) :
    g (t.stand n) = g (s.stand n) := by
  have := congrArg g h
  unfold Law.standBare at this
  rw [hg, hg] at this
  exact this
theorem Law.stand_field_stands {α : Type} (g : Stand → α) {s t : State} (h : t.stands = s.stands) (n : Nat) : g (t.stand n) = g (s.stand n) := by
  unfold State.stand; rw [h]
theorem Law.stand_field_each {α : Type} (g : Stand → α) (n : Nat) (f : Nat → State → State) (hf : ∀ m s, g ((f m s).stand n) = g (s.stand n)) (ns : List Nat) (s : State) :
    g ((s.each ns f).stand n) = g (s.stand n) := RollsAfter.each (fun s => g (s.stand n)) f hf ns s

theorem Law.modStand_eq (s : State) (st : Nat) (f : Stand → Stand) (y : Stand) (h : f (s.stand st) = y) :
    s.modStand st f = { s with stands := s.stands.set st .cold y } := by
  subst h; rfl

/-! what a pass leaves of rolls -/

end Sys2Proof.Machine
end

