-- ==== Sys2Proof/Laws/Passes.lean ====
section
/-! SUPPORT. What an assignment pass leaves as it was, who is in the queue, how an order is created, and what freeing, withdrawing and converting an order do. -/

namespace Sys2Proof.Machine

/-- Every roll that is not STORED is as it was. -/
def Law.onlyStoredRollsChange (s t : State) : Prop := (∀ n r, s.roll n = some r → r.state ≠ .stored → t.roll n = some r)
theorem Law.onlyStoredRollsChange_refl (s : State) : Law.onlyStoredRollsChange s s := fun _ _ h _ => h
theorem Law.onlyStoredRollsChange_trans {s t u : State} (h : Law.onlyStoredRollsChange s t) (g : Law.onlyStoredRollsChange t u) : Law.onlyStoredRollsChange s u := fun n r hr hs => g n r (h n r hr hs) hs
theorem Law.onlyStoredRollsChange_rolls {s t : State} (h : t.rolls = s.rolls) : Law.onlyStoredRollsChange s t := fun n r hr _ => by unfold State.roll at hr ⊢; rw [h]; exact hr
theorem Law.onlyStoredRollsChange_each (f : Nat → State → State) (hf : ∀ n s, Law.onlyStoredRollsChange s (f n s)) (ns : List Nat) : ∀ s : State, Law.onlyStoredRollsChange s (s.each ns f) := by
  induction ns with
  | nil => intro s; exact Law.onlyStoredRollsChange_refl s
  | cons n ns ih => intro s; exact Law.onlyStoredRollsChange_trans (hf n s) (ih (f n s))
theorem RollsAfter.setCallOff (s : State) (st : Nat) (a : Arm) (o : Option Nat) : (s.setCallOff st a o).rolls = s.rolls := rfl
theorem RollsAfter.createOrder (s : State) (o : Order) (n : Nat) (t : State) (h : s.createOrder o = some (n, t)) : t.rolls = s.rolls := by
  unfold State.createOrder at h
  split at h
  · cases h; rfl
  · cases h
theorem RollsAfter.evalCallOff (s : State) (st : Nat) : (s.evalCallOff st).rolls = s.rolls := by
  unfold State.evalCallOff
  split
  · rfl
  · next a d p _ =>
    generalize (Order.pendingOf _ _ (if s.urgentAt d = true then _ else _)) = o
    dsimp only
    split
    · next h => exact (RollsAfter.setCallOff ..).trans (RollsAfter.createOrder _ _ _ _ h)
    · rfl
theorem RollsAfter.makeUrgent (s : State) (n : Nat) : (s.makeUrgent n).rolls = s.rolls := by
  unfold State.makeUrgent; dsimp only; repeat' split
  all_goals simp
theorem RollsAfter.testUrgent (s : State) (n : Nat) : (s.testUrgent n).rolls = s.rolls := by
  unfold State.testUrgent; repeat' split
  all_goals simp [RollsAfter.makeUrgent]
theorem RollsAfter.recomputeDeadlines (s : State) (st : Nat) : (s.recomputeDeadlines st).rolls = s.rolls := by
  unfold State.recomputeDeadlines
  split
  · refine RollsAfter.each State.rolls _ (fun n s => ?_) _ _
    repeat' split
    all_goals simp [RollsAfter.testUrgent]
  · rfl
theorem RollsAfter.handTs (s : State) (st : Nat) : (s.handTs st).rolls = s.rolls := (RollsAfter.recomputeDeadlines _ _).trans (RollsAfter.evalCallOff _ _)
theorem RollsAfter.clearLink (s : State) (m : Nat) (o : Order) : (s.clearLink m o).rolls = s.rolls := by
  unfold State.clearLink; repeat' split
  all_goals rfl
theorem RollsAfter.reviewCallOff (s : State) (o : Order) : (s.reviewCallOff o).rolls = s.rolls := by
  unfold State.reviewCallOff
  split
  · exact RollsAfter.evalCallOff ..
  · rfl
theorem RollsAfter.freeVehicle (s : State) (n : Nat) (o : Order) : (s.freeVehicle n o).rolls = s.rolls := by
  unfold State.freeVehicle State.unlinkVehicle; repeat' split
  all_goals simp
theorem RollsAfter.failOrder (s : State) (m : Nat) : (s.failOrder m).rolls = s.rolls := by
  unfold State.failOrder
  split
  · rfl
  · rw [RollsAfter.reviewCallOff, State.raise_rolls, State.modOrder_rolls, RollsAfter.freeVehicle, RollsAfter.clearLink, RollsAfter.withdrawBay]
theorem RollsAfter.rechoose (s : State) (n : Nat) : (s.rechoose n).rolls = s.rolls := by
  unfold State.rechoose
  dsimp only
  repeat' split
  all_goals simp [RollsAfter.newDrop, RollsAfter.storeFull]
theorem Law.selectable_stored {s : State} {n : Nat} (h : s.selectable n = true) : ∃ r, s.roll n = some r ∧ r.state = .stored := by
  unfold State.selectable at h
  cases hr : s.roll n with
  | none => rw [hr] at h; cases h
  | some r =>
    rw [hr] at h
    dsimp only at h
    cases hb : r.bay with
    | none => rw [hb] at h; cases h
    | some b =>
      rw [hb] at h
      simp only [Bool.and_eq_true, beq_iff_eq] at h
      exact ⟨r, rfl, h.1.1.2⟩
theorem Law.fetched_stored {s : State} {o : Order} {r : Nat} (h : s.rollToFetch o = some r) (ho : o.roll = none) : ∃ q, s.roll r = some q ∧ q.state = .stored := by
  unfold State.rollToFetch at h
  rw [ho] at h
  dsimp only at h
  split at h
  · have := (Law.leastBy_some _ _ _ h).1
    rw [List.mem_filter] at this
    have h2 := this.2
    unfold State.candidate at h2
    rw [Bool.and_eq_true] at h2
    exact Law.selectable_stored h2.1
  · cases hn : o.named with
    | none => rw [hn] at h; cases h
    | some e =>
      rw [hn] at h
      simp only [Option.bind] at h
      split at h
      · next hs => cases h; exact Law.selectable_stored hs
      · cases h
  · cases h
theorem Law.onlyStoredRollsChange_pair (s : State) (n : Nat) (o : Order) (r : Nat) (d : Dest) (p v : Nat) (h : o.roll = none → ∃ q, s.roll r = some q ∧ q.state = .stored) :
    Law.onlyStoredRollsChange s (s.pair n o r d p v) := by
  unfold State.pair
  dsimp only
  have : ∀ t u : State, u.rolls = t.rolls → Law.onlyStoredRollsChange s t → Law.onlyStoredRollsChange s u := fun t u h g => Law.onlyStoredRollsChange_trans g (Law.onlyStoredRollsChange_rolls h)
  generalize hu : (if o.roll.isNone = true then s.reserve r n else s) = u
  refine this u _ ?_ ?_
  · rw [RollsAfter.sendTask, RollsAfter.restartProgress]; simp
  · rw [← hu]
    split
    · next hn =>
      obtain ⟨q, hq, hs⟩ := h (by simpa using hn)
      intro m x hm hx
      unfold State.reserve
      have : ((s.modRoll r fun x => { x with state := .reserved, order := some n, hold := none }).modOrder n fun x => { x with roll := some r, named := none }).roll m =
          (s.modRoll r fun x => { x with state := .reserved, order := some n, hold := none }).roll m := by
        unfold State.roll; simp
      rw [this, roll_modRoll, if_neg, hm]
      rintro rfl
      rw [hq] at hm
      cases hm
      exact hx hs
    · exact Law.onlyStoredRollsChange_refl s
theorem Law.onlyStoredRollsChange_passOne (s : State) (m : Nat) : Law.onlyStoredRollsChange s (s.passOne m) := by
  unfold State.passOne
  split
  · exact Law.onlyStoredRollsChange_refl s
  · next o ho =>
    split
    · exact Law.onlyStoredRollsChange_rolls (RollsAfter.failOrder ..)
    · dsimp only
      generalize hu : (if (o.kind != .callOff && (s.choice o).isNone) = true then
          State.storeFull (if o.kind = OrderKind.callOff ∧ s.rollToFetch o = none ∧ o.noStock = false then State.raise _ .stockShort ((o.requester.stand.getD 0)) else _) o
          else if o.kind = OrderKind.callOff ∧ s.rollToFetch o = none ∧ o.noStock = false then State.raise _ .stockShort ((o.requester.stand.getD 0)) else _) = u
      have hur : u.rolls = s.rolls := by
        rw [← hu]
        repeat' split
        all_goals simp [RollsAfter.storeFull]
      split
      · next r d x hrf _ _ =>
        have hp : ∀ v, Law.onlyStoredRollsChange s (u.pair m o r d x v) := fun v => by
          refine Law.onlyStoredRollsChange_trans (Law.onlyStoredRollsChange_rolls hur) (Law.onlyStoredRollsChange_pair _ _ _ _ _ _ _ fun hn => ?_)
          obtain ⟨q, h1, h2⟩ := Law.fetched_stored hrf hn
          exact ⟨q, by unfold State.roll at h1 ⊢; rw [hur]; exact h1, h2⟩
        repeat' split
        all_goals first
          | exact Law.onlyStoredRollsChange_rolls hur
          | exact hp _
      · exact Law.onlyStoredRollsChange_rolls hur
theorem Law.onlyStoredRollsChange_takeQueue (ns : List Nat) : ∀ s : State, Law.onlyStoredRollsChange s (State.takeQueue ns s) := by
  induction ns with
  | nil => intro s; exact Law.onlyStoredRollsChange_refl s
  | cons m ns ih =>
    intro s
    unfold State.takeQueue
    split
    · exact Law.onlyStoredRollsChange_trans (Law.onlyStoredRollsChange_passOne s m) (ih _)
    · exact Law.onlyStoredRollsChange_refl s
theorem Law.onlyStoredRollsChange_finish (s : State) : Law.onlyStoredRollsChange s s.finish := by
  unfold State.finish
  dsimp only
  split
  · refine Law.onlyStoredRollsChange_trans (t := s.pass) ?_ (Law.onlyStoredRollsChange_rolls rfl)
    unfold State.pass
    dsimp only
    exact Law.onlyStoredRollsChange_trans (Law.onlyStoredRollsChange_each _ (fun n s => Law.onlyStoredRollsChange_rolls (RollsAfter.rechoose s n)) _ s) (Law.onlyStoredRollsChange_takeQueue _ _)
  · exact Law.onlyStoredRollsChange_rolls rfl

theorem Law.stand_field_ts {α : Type} (g : Stand → α) (s : State) (st n : Nat) (hg : ∀ (x : Stand) t, g { x with ts := t } = g x) : g ((s.writeTs st).stand n) = g (s.stand n) := by
  unfold State.writeTs
  exact Law.stand_field_mod g s st n (fun x => { x with ts := s.timeToSplice st }) fun x => hg x _
theorem Law.stand_field_mark {α : Type} (g : Stand → α) (s : State) (st n : Nat) (hg : ∀ (x : Stand) t, g { x with markLeft := t } = g x) : g ((s.restartMark st).stand n) = g (s.stand n) := by
  unfold State.restartMark
  exact Law.stand_field_mod g s st n (fun x => { x with markLeft := if s.markRuns st then some Config.markTime else none }) fun x => hg x _

/-! orders through a pass -/
theorem OrdersAfter.sendVehicle (s : State) (n : Nat) (c : Cmd) : (s.sendVehicle n c).orders = s.orders := by
  unfold State.sendVehicle State.sendVehicleKept State.sendKept; split <;> simp
theorem OrdersAfter.restartProgress (s : State) (n : Nat) : (s.restartProgress n).orders = s.orders := by
  unfold State.restartProgress; simp
theorem OrdersAfter.syncProgress (s : State) (n : Nat) : (s.syncProgress n).orders = s.orders := by
  unfold State.syncProgress; split <;> simp [OrdersAfter.restartProgress]
theorem OrdersAfter.sendTask (s : State) (n : Nat) : (s.sendTask n).orders = s.orders := by
  unfold State.sendTask; repeat' split
  all_goals simp [OrdersAfter.sendVehicle]
theorem OrdersAfter.steer (s : State) (v : Nat) (w : Option Nat) : (s.steer v w).orders = s.orders := by
  unfold State.steer; simp [OrdersAfter.syncProgress]
theorem OrdersAfter.newDrop (s : State) (v n : Nat) (o : Order) (w : Option Nat) : (s.newDrop v n o w).orders = s.orders := by
  unfold State.newDrop; split <;> simp [OrdersAfter.sendVehicle, OrdersAfter.steer, OrdersAfter.sendTask]
theorem OrdersAfter.storeFull (s : State) (o : Order) : (s.storeFull o).orders = s.orders := by
  unfold State.storeFull; split <;> simp
theorem OrdersAfter.freeVehicle (s : State) (n : Nat) (o : Order) : (s.freeVehicle n o).orders = s.orders := by
  unfold State.freeVehicle State.unlinkVehicle; repeat' split
  all_goals simp
theorem OrdersAfter.clearLink (s : State) (n : Nat) (o : Order) : (s.clearLink n o).orders = s.orders := by
  unfold State.clearLink State.setCallOff; repeat' split
  all_goals simp
/-- An order with the same kind, class and sequence. -/
def Law.sameRank (o q : Order) : Prop := q.kind = o.kind ∧ q.cls = o.cls ∧ q.seq = o.seq
/-- An order as it was but for its destination and the flags that go with it. -/
def Law.newDestination (o q : Order) : Prop := q = { o with dest := q.dest, noBay := q.noBay, noRoute := q.noRoute }
theorem Law.newDestination_refl (o : Order) : Law.newDestination o o := rfl
theorem Law.newDestination_like {o q : Order} (h : Law.newDestination o q) : Law.sameRank o q := by
  unfold Law.newDestination at h; rw [h]; exact ⟨rfl, rfl, rfl⟩
theorem Law.sameRank_trans {a b c : Order} (h : Law.sameRank a b) (g : Law.sameRank b c) : Law.sameRank a c := ⟨g.1.trans h.1, g.2.1.trans h.2.1, g.2.2.trans h.2.2⟩
/-- Of all orders at most one is changed, as a relation says. -/
def Law.changesOnly (R : Order → Order → Prop) (n : Nat) (s t : State) : Prop :=
  (∀ m, m ≠ n → t.order m = s.order m) ∧ (s.order n = none → t.order n = none) ∧ ∀ o, s.order n = some o → ∃ q, t.order n = some q ∧ R o q
theorem Law.changesOnly_mod (R : Order → Order → Prop) (s : State) (n : Nat) (f : Order → Order) (hf : ∀ o, s.order n = some o → R o (f o)) :
    Law.changesOnly R n s (s.modOrder n f) := by
  refine ⟨fun m hm => by rw [Law.order_mod, if_neg hm], fun h => by rw [Law.order_mod, if_pos rfl, h]; rfl, fun o h => ⟨f o, by rw [Law.order_mod, if_pos rfl, h]; rfl, hf o h⟩⟩
theorem Law.changesOnly_same (R : Order → Order → Prop) (hR : ∀ o, R o o) (n : Nat) {s t : State} (h : t.orders = s.orders) : Law.changesOnly R n s t := by
  have : ∀ m, t.order m = s.order m := by intro m; unfold State.order; rw [h]
  exact ⟨fun m _ => this m, fun h => by rw [this]; exact h, fun o h => ⟨o, by rw [this]; exact h, hR o⟩⟩
theorem Law.changesOnly_then {R : Order → Order → Prop} {n : Nat} {s t u : State} (h : Law.changesOnly R n s t) (g : u.orders = t.orders) : Law.changesOnly R n s u := by
  have : ∀ m, u.order m = t.order m := by intro m; unfold State.order; rw [g]
  exact ⟨fun m hm => (this m).trans (h.1 m hm), fun a => (this n).trans (h.2.1 a), fun o a => by rw [this]; exact h.2.2 o a⟩
theorem Law.changesOnly_after {R : Order → Order → Prop} {n : Nat} {s t u : State} (g : t.orders = s.orders) (h : Law.changesOnly R n t u) : Law.changesOnly R n s u := by
  have : ∀ m, t.order m = s.order m := by intro m; unfold State.order; rw [g]
  unfold Law.changesOnly at *
  simp only [this] at h
  exact h
theorem Law.rechoose_only (s : State) (n : Nat) : Law.changesOnly Law.newDestination n s (s.rechoose n) := by
  unfold State.rechoose
  have hs : Law.changesOnly Law.newDestination n s s := Law.changesOnly_same _ Law.newDestination_refl n rfl
  split
  · exact hs
  · next o ho =>
    dsimp only
    split
    · split
      · refine Law.changesOnly_then (Law.changesOnly_mod _ s n ({ · with noBay := true, noRoute := false }) fun o _ => rfl) (OrdersAfter.storeFull _ _)
      · exact hs
    · next d _ =>
      split
      · exact Law.changesOnly_mod _ s n ({ · with dest := some d, noBay := false }) fun o _ => rfl
      · split
        · exact Law.changesOnly_mod _ s n ({ · with noBay := false, noRoute := true }) fun o _ => rfl
        · refine Law.changesOnly_then (Law.changesOnly_mod _ s n ({ · with dest := some d, noBay := false, noRoute := false }) fun o _ => rfl)
            (OrdersAfter.newDrop ..)
theorem Law.withdraw_only (s : State) (n : Nat) (o : Order) : Law.changesOnly Law.sameRank n s (s.withdrawBay n o) := by
  unfold State.withdrawBay
  split
  · exact Law.changesOnly_then (Law.changesOnly_mod _ s n ({ · with dest := none }) fun o _ => ⟨rfl, rfl, rfl⟩) rfl
  · exact Law.changesOnly_same _ (fun _ => ⟨rfl, rfl, rfl⟩) n rfl
theorem Law.changesOnly_comp {R : Order → Order → Prop} (hR : ∀ a b c, R a b → R b c → R a c) {n : Nat} {s t u : State} (h : Law.changesOnly R n s t) (g : Law.changesOnly R n t u) : Law.changesOnly R n s u := by
  refine ⟨fun m hm => (g.1 m hm).trans (h.1 m hm), fun a => g.2.1 (h.2.1 a), fun o ho => ?_⟩
  obtain ⟨q, h1, h2⟩ := h.2.2 o ho
  obtain ⟨r, g1, g2⟩ := g.2.2 q h1
  exact ⟨r, g1, hR _ _ _ h2 g2⟩
theorem Law.fail_only (s : State) (n : Nat) (o : Order) (ho : s.order n = some o) (hk : o.kind = .move) : Law.changesOnly Law.sameRank n s (s.failOrder n) := by
  unfold State.failOrder
  rw [ho]
  dsimp only
  have hr : ∀ u : State, u.reviewCallOff o = u := by
    intro u; unfold State.reviewCallOff; rw [hk]
  rw [hr]
  refine Law.changesOnly_then (t := ((((s.withdrawBay n o).clearLink n o).freeVehicle n o).modOrder n fun x =>
      { x with state := .failed, noStock := false, noBay := false, noRoute := false, abort := false, deadline := none, dest := none })) ?_ rfl
  refine Law.changesOnly_comp (R := Law.sameRank) (fun _ _ _ => Law.sameRank_trans) (t := ((s.withdrawBay n o).clearLink n o).freeVehicle n o) ?_ ?_
  · exact Law.changesOnly_then (Law.withdraw_only s n o) ((OrdersAfter.freeVehicle _ _ _).trans (OrdersAfter.clearLink _ _ _))
  · exact Law.changesOnly_mod _ _ n _ fun o _ => ⟨rfl, rfl, rfl⟩
theorem Law.pair_only (s : State) (n : Nat) (o : Order) (r : Nat) (d : Dest) (p v : Nat) : Law.changesOnly Law.sameRank n s (s.pair n o r d p v) := by
  unfold State.pair
  dsimp only
  generalize ht : (if o.roll.isNone = true then s.reserve r n else s) = t
  have h1 : Law.changesOnly Law.sameRank n s t := by
    rw [← ht]
    split
    · unfold State.reserve
      refine Law.changesOnly_after (t := s.modRoll r _) (State.modRoll_orders _ _ _) (Law.changesOnly_mod _ _ n _ fun o _ => ⟨rfl, rfl, rfl⟩)
    · exact Law.changesOnly_same _ (fun _ => ⟨rfl, rfl, rfl⟩) n rfl
  refine Law.changesOnly_then (t := t.modOrder n fun x =>
    { x with source := s.sourceFor o r, dest := some d, vehicle := some v, state := .assigned, noStock := false, noBay := false,
             noRoute := false }) ?_ ?_
  · exact Law.changesOnly_comp (R := Law.sameRank) (fun _ _ _ => Law.sameRank_trans) h1 (Law.changesOnly_mod _ _ n _ fun o _ => ⟨rfl, rfl, rfl⟩)
  · rw [OrdersAfter.sendTask, OrdersAfter.restartProgress]; simp
theorem Law.gone_move {s : State} {o : Order} (h : s.namedGone o = true) : o.kind = .move := by
  unfold State.namedGone at h
  simp only [Bool.and_eq_true, beq_iff_eq] at h
  exact h.1.1
theorem Law.passOne_only (s : State) (n : Nat) : Law.changesOnly Law.sameRank n s (s.passOne n) := by
  unfold State.passOne
  split
  · exact Law.changesOnly_same _ (fun _ => ⟨rfl, rfl, rfl⟩) n rfl
  · next o ho =>
    split
    · next hg => exact Law.fail_only s n o ho (Law.gone_move hg)
    · dsimp only
      generalize hu : (if (o.kind != .callOff && (s.choice o).isNone) = true then
          State.storeFull (if o.kind = OrderKind.callOff ∧ s.rollToFetch o = none ∧ o.noStock = false then State.raise _ .stockShort ((o.requester.stand.getD 0)) else _) o
          else if o.kind = OrderKind.callOff ∧ s.rollToFetch o = none ∧ o.noStock = false then State.raise _ .stockShort ((o.requester.stand.getD 0)) else _) = u
      have hur : Law.changesOnly Law.sameRank n s u := by
        have hm : ∀ f : Order → Order, (∀ o, Law.sameRank o (f o)) → Law.changesOnly Law.sameRank n s (s.modOrder n f) := fun f hf => Law.changesOnly_mod _ s n f fun o _ => hf o
        rw [← hu]
        split
        · split
          · refine Law.changesOnly_then (hm _ ?_) ((OrdersAfter.storeFull _ _).trans (State.raise_orders _ _ _))
            exact fun _ => ⟨rfl, rfl, rfl⟩
          · refine Law.changesOnly_then (hm _ ?_) (OrdersAfter.storeFull _ _)
            exact fun _ => ⟨rfl, rfl, rfl⟩
        · split
          · refine Law.changesOnly_then (hm _ ?_) (State.raise_orders _ _ _)
            exact fun _ => ⟨rfl, rfl, rfl⟩
          · refine hm _ ?_; exact fun _ => ⟨rfl, rfl, rfl⟩
      have hp : ∀ r d x v, Law.changesOnly Law.sameRank n s (u.pair n o r d x v) := fun r d x v =>
        Law.changesOnly_comp (R := Law.sameRank) (fun _ _ _ => Law.sameRank_trans) hur (Law.pair_only ..)
      repeat' split
      all_goals first
        | exact hur
        | exact hp _ _ _ _
/-- Every order stays live with its kind, class and sequence, and none appears. -/
def Law.ordersStay (s t : State) : Prop := ∀ n, (s.order n = none → t.order n = none) ∧ ∀ o, s.order n = some o → ∃ q, t.order n = some q ∧ Law.sameRank o q
theorem Law.ordersStay_refl (s : State) : Law.ordersStay s s := fun n => ⟨id, fun o h => ⟨o, h, rfl, rfl, rfl⟩⟩
theorem Law.ordersStay_trans {s t u : State} (h : Law.ordersStay s t) (g : Law.ordersStay t u) : Law.ordersStay s u := by
  intro n
  refine ⟨fun a => (g n).1 ((h n).1 a), fun o a => ?_⟩
  obtain ⟨q, h1, h2⟩ := (h n).2 o a
  obtain ⟨r, g1, g2⟩ := (g n).2 q h1
  exact ⟨r, g1, Law.sameRank_trans h2 g2⟩
theorem Law.ordersStay_only {R : Order → Order → Prop} (hR : ∀ o q, R o q → Law.sameRank o q) {n : Nat} {s t : State} (h : Law.changesOnly R n s t) : Law.ordersStay s t := by
  intro m
  by_cases hm : m = n
  · subst hm
    refine ⟨h.2.1, fun o ho => ?_⟩
    obtain ⟨q, a, b⟩ := h.2.2 o ho
    exact ⟨q, a, hR _ _ b⟩
  · rw [h.1 m hm]; exact (Law.ordersStay_refl s) m
theorem Law.ordersStay_same {s t : State} (h : t.orders = s.orders) : Law.ordersStay s t := by
  intro m
  have : t.order m = s.order m := by unfold State.order; rw [h]
  rw [this]; exact Law.ordersStay_refl s m
theorem Law.ordersStay_each (f : Nat → State → State) (hf : ∀ n s, Law.ordersStay s (f n s)) (ns : List Nat) : ∀ s : State, Law.ordersStay s (s.each ns f) := by
  induction ns with
  | nil => intro s; exact Law.ordersStay_refl s
  | cons n ns ih => intro s; exact Law.ordersStay_trans (hf n s) (ih (f n s))
theorem Law.ordersStay_takeQueue (ns : List Nat) : ∀ s : State, Law.ordersStay s (State.takeQueue ns s) := by
  induction ns with
  | nil => intro s; exact Law.ordersStay_refl s
  | cons m ns ih =>
    intro s
    unfold State.takeQueue
    split
    · exact Law.ordersStay_trans (Law.ordersStay_only (fun _ _ h => h) (Law.passOne_only s m)) (ih _)
    · exact Law.ordersStay_refl s
theorem Law.ordersStay_finish (s : State) : Law.ordersStay s s.finish := by
  unfold State.finish
  dsimp only
  split
  · refine Law.ordersStay_trans (t := s.pass) ?_ (Law.ordersStay_same rfl)
    unfold State.pass
    dsimp only
    exact Law.ordersStay_trans (Law.ordersStay_each _ (fun n s => Law.ordersStay_only (fun _ _ h => Law.newDestination_like h) (Law.rechoose_only s n)) _ s) (Law.ordersStay_takeQueue _ _)
  · exact Law.ordersStay_same rfl
/-- An order out of the queue keeps all but its destination and its marks; one with the abort mark keeps all. -/
theorem Law.find_rising {α : Type} {t : Tbl α} (h : t.rising = true) {n : Nat} {x : α} (hm : (n, x) ∈ t) : t.find n = some x := by
  rw [Tbl.rising_iff] at h
  induction t with
  | nil => cases hm
  | cons e t ih =>
    obtain ⟨k, a⟩ := e
    rw [List.pairwise_cons] at h
    unfold Tbl.find
    cases hm with
    | head => rw [if_pos rfl]
    | tail _ hm =>
      have := h.1 _ hm
      rw [if_neg (by dsimp only at this; omega)]
      exact ih h.2 hm
theorem Law.mem_rankIn (lt : Order → Order → Bool) (e : Nat × Order) (l : List (Nat × Order)) (x : Nat × Order) : x ∈ rankIn lt e l ↔ x = e ∨ x ∈ l := by
  induction l with
  | nil => simp [rankIn]
  | cons d ds ih =>
    unfold rankIn
    split
    · simp
    · simp only [List.mem_cons, ih]
      constructor
      · rintro (h | h | h)
        · exact .inr (.inl h)
        · exact .inl h
        · exact .inr (.inr h)
      · rintro (h | h | h)
        · exact .inr (.inl h)
        · exact .inl h
        · exact .inr (.inr h)
theorem Law.mem_ranked (lt : Order → Order → Bool) (l : List (Nat × Order)) (x : Nat × Order) : x ∈ ranked lt l ↔ x ∈ l := by
  unfold ranked
  induction l with
  | nil => simp
  | cons d ds ih => rw [List.foldr_cons, Law.mem_rankIn, ih]; simp
theorem Law.mem_queue {s : State} (h : s.orders.rising = true) (n : Nat) : n ∈ s.queue ↔ ∃ o, s.order n = some o ∧ o.state = .pending ∧ o.abort = false := by
  unfold State.queue
  rw [List.mem_map]
  constructor
  · rintro ⟨⟨m, o⟩, h1, rfl⟩
    rw [Law.mem_ranked, List.mem_filter] at h1
    simp only [Bool.and_eq_true, beq_iff_eq, Bool.not_eq_true'] at h1
    exact ⟨o, Law.find_rising h h1.1, h1.2⟩
  · rintro ⟨o, h1, h2, h3⟩
    refine ⟨(n, o), ?_, rfl⟩
    rw [Law.mem_ranked, List.mem_filter]
    exact ⟨Tbl.mem_of_find h1, by simp [h2, h3]⟩
theorem Law.mem_waiting {s : State} (h : s.orders.rising = true) (n : Nat) : n ∈ s.waitingOrders ↔ ∃ o, s.order n = some o ∧ o.waitsForDest = true := by
  unfold State.waitingOrders
  rw [List.mem_map]
  constructor
  · rintro ⟨⟨m, o⟩, h1, rfl⟩
    rw [Law.mem_ranked, List.mem_filter] at h1
    exact ⟨o, Law.find_rising h h1.1, h1.2⟩
  · rintro ⟨o, h1, h2⟩
    refine ⟨(n, o), ?_, rfl⟩
    rw [Law.mem_ranked, List.mem_filter]
    exact ⟨Tbl.mem_of_find h1, h2⟩
theorem Law.each_other {α : Type} (g : State → α) (f : Nat → State → State) (ns : List Nat) (hf : ∀ n ∈ ns, ∀ s, g (f n s) = g s) : ∀ s : State, g (s.each ns f) = g s := by
  induction ns with
  | nil => intro s; rfl
  | cons n ns ih => intro s; exact (ih (fun m hm => hf m (List.mem_cons_of_mem _ hm)) (f n s)).trans (hf n List.mem_cons_self s)
theorem Law.take_other (n : Nat) (ns : List Nat) (h : n ∉ ns) : ∀ s : State, (State.takeQueue ns s).order n = s.order n := by
  induction ns with
  | nil => intro s; rfl
  | cons m ns ih =>
    intro s
    rw [List.mem_cons, not_or] at h
    unfold State.takeQueue
    split
    · exact (ih h.2 _).trans ((Law.passOne_only s m).1 n h.1)
    · rfl
theorem Law.rise_put (s : State) (n : Nat) (o : Option Order) (h : s.orders.rising = true) : (s.putOrder n o).orders.rising = true :=
  Tbl.rising_put (t := s.orders) n o h
theorem Law.rise {s t : State} (w : Wr 0 s t) (h : s.orders.rising = true) : t.orders.rising = true := by
  induction w with
  | refl => exact h
  | other _ h4 _ _ => omega
  | cold _ h4 => omega
  | small _ _ _ ih | roll _ _ _ ih | freeRoll _ _ _ ih | newRoll _ _ _ _ _ ih | bay _ _ _ ih | grade _ _ _ _ ih | line _ _ _ ih | stand _ _ _ ih
  | job _ _ _ _ ih | putJob _ _ _ _ ih | vehicle _ _ _ ih | segment _ _ _ ih | node _ _ _ _ ih | route _ _ _ _ ih | station _ _ _ ih
  | putStation _ _ _ _ ih | raised _ _ _ _ _ ih | attnClear _ _ ih => exact ih
  | order _ _ _ ih => exact Law.rise_put _ _ _ ih
  | freeOrder _ _ ih => exact Law.rise_put _ _ _ ih
  | newOrder _ _ _ _ _ ih => exact Law.rise_put _ _ _ ih
theorem Law.fin_order (s : State) (n : Nat) (o : Order) (hs : s.orders.rising = true) (h : s.order n = some o) (hq : ¬ (o.state = .pending ∧ o.abort = false)) :
    ∃ q, s.finish.order n = some q ∧ Law.newDestination o q ∧ (o.waitsForDest = false → q = o) := by
  unfold State.finish
  dsimp only
  split
  · show ∃ q, s.pass.order n = some q ∧ _
    unfold State.pass
    dsimp only
    have w : Wr 0 s (s.each s.waitingOrders fun n s => s.rechoose n) := State.wr_each .refl _ _ fun n t h => State.wr_rechoose h n
    have hn : ∃ q, (s.each s.waitingOrders fun n s => s.rechoose n).order n = some q ∧ Law.newDestination o q := by
      have : ∀ (ns : List Nat) (u : State) (p : Order), u.order n = some p → Law.newDestination o p → ∃ q, (u.each ns fun n s => s.rechoose n).order n = some q ∧ Law.newDestination o q := by
        intro ns
        induction ns with
        | nil => intro u p h1 h2; exact ⟨p, h1, h2⟩
        | cons m ns ih =>
          intro u p h1 h2
          by_cases hm : n = m
          · subst hm
            obtain ⟨q, a, b⟩ := (Law.rechoose_only u n).2.2 p h1
            refine ih (u.rechoose n) q a ?_
            unfold Law.newDestination at *
            rw [b, h2]
          · exact ih (u.rechoose m) p (((Law.rechoose_only u m).1 n hm).trans h1) h2
      exact this _ s o h rfl
    have hn2 : o.waitsForDest = false → (s.each s.waitingOrders fun n s => s.rechoose n).order n = some o := by
      intro hw
      refine (Law.each_other (fun s => s.order n) (fun n s => s.rechoose n) _ (fun m hm u => (Law.rechoose_only u m).1 n ?_) s).trans h
      rintro rfl
      rw [Law.mem_waiting hs] at hm
      obtain ⟨o', h1, h2⟩ := hm
      rw [h] at h1
      cases h1
      rw [hw] at h2; cases h2
    have hw := Law.rise w hs
    generalize (s.each s.waitingOrders fun n s => s.rechoose n) = t at *
    obtain ⟨q, h1, h2⟩ := hn
    have hnq : n ∉ t.queue := by
      rw [Law.mem_queue hw]
      rintro ⟨o', h3, h4, h5⟩
      rw [h1] at h3; cases h3
      unfold Law.newDestination at h2
      rw [h2] at h4 h5
      exact hq ⟨h4, h5⟩
    rw [Law.take_other n _ hnq]
    refine ⟨q, h1, h2, fun hw => ?_⟩
    have := hn2 hw
    rw [h1] at this; cases this; rfl
  · exact ⟨o, h, rfl, fun _ => rfl⟩

/-- The number a new order takes is no live order's (R121). -/
theorem Law.number_new {s : State} (hf : s.orderFree = true) : s.order s.nextOrderNumber = none := by
  cases hc : s.order s.nextOrderNumber with
  | none => rfl
  | some o =>
    exfalso
    have hlen : s.orders.length < 40 := by
      unfold State.orderFree at hf
      rw [Bool.and_eq_true] at hf
      simpa [Config.orderPlaces] using hf.1
    have hmem : ∀ m, s.order m ≠ none → m ∈ s.orders.keys := by
      intro m hm
      cases h : s.order m with
      | none => exact absurd h hm
      | some q => exact List.mem_map.mpr ⟨(m, q), Tbl.mem_of_find h, rfl⟩
    unfold State.nextOrderNumber at hc
    generalize hl : ((List.range 255).map fun i => (s.orderPointer + i - 1) % 255 + 1) = l at hc
    cases hfd : l.find? (fun n => !s.orders.keys.contains n) with
    | some m =>
      have h1 := List.find?_some hfd
      rw [hfd] at hc
      have h2 := hmem m (by rw [show s.order m = some o from hc]; simp)
      simp [h2] at h1
    | none =>
      rw [List.find?_eq_none] at hfd
      have hsub : (List.range' 1 254).map (fun i => (s.orderPointer + i - 1) % 255 + 1) ⊆ s.orders.keys := by
        intro m hm
        rw [List.mem_map] at hm
        obtain ⟨i, hi, rfl⟩ := hm
        rw [List.mem_range'_1] at hi
        have := hfd ((s.orderPointer + i - 1) % 255 + 1) (by rw [← hl]; exact List.mem_map.mpr ⟨i, List.mem_range.mpr (by omega), rfl⟩)
        simpa using this
      have hnd : ((List.range' 1 254).map (fun i => (s.orderPointer + i - 1) % 255 + 1)).Nodup := by
        refine List.Nodup.map_on ?_ List.nodup_range'
        intro a ha b hb hab
        rw [List.mem_range'_1] at ha hb
        omega
      have := (hnd.subperm hsub).length_le
      rw [List.length_map, List.length_range'] at this
      unfold Tbl.keys at this
      rw [List.length_map] at this
      omega
theorem Law.create_order {s t : State} {o : Order} {n : Nat} (h : s.createOrder o = some (n, t)) (m : Nat) :
    (∀ p, s.order m = some p → t.order m = some p) ∧ (s.order m = none → ∀ q, t.order m = some q → q.kind = o.kind ∧ q.seq = s.orderSeq + 1) := by
  unfold State.createOrder at h
  by_cases hf : s.orderFree = true
  · rw [if_pos hf] at h
    have hnew := Law.number_new hf
    dsimp only at h
    generalize s.nextOrderNumber = k at *
    injection h with h
    injection h with h1 h2
    subst h1
    subst h2
    have e : ∀ q, (State.notice (State.putOrder { s with orderPointer := k % 255 + 1, orderSeq := s.orderSeq + 1 } k (some q))).order m = if m = k then some q else s.order m :=
      fun q => by show Tbl.find (Tbl.put s.orders k (some q)) m = _; rw [Tbl.find_put]; rfl
    rw [e]
    by_cases hm : m = k
    · subst hm
      rw [if_pos rfl]
      exact ⟨fun p h => (by rw [hnew] at h; cases h), fun _ q hq => (by cases hq; exact ⟨rfl, rfl⟩)⟩
    · rw [if_neg hm]
      exact ⟨fun p h => h, fun h q hq => (by rw [h] at hq; cases hq)⟩
  · rw [if_neg hf] at h; cases h
/-- What the evaluation after a cleared link leaves of the orders: all are kept, and a new one is a call-off of the next sequence. -/
theorem Law.review_order (s : State) (o : Order) (n : Nat) : (∀ p, s.order n = some p → (s.reviewCallOff o).order n = some p) ∧
    (s.order n = none → ∀ q, (s.reviewCallOff o).order n = some q → q.kind = .callOff ∧ q.seq = s.orderSeq + 1) := by
  unfold State.reviewCallOff
  have triv : (∀ p, s.order n = some p → s.order n = some p) ∧ (s.order n = none → ∀ q, s.order n = some q → q.kind = .callOff ∧ q.seq = s.orderSeq + 1) :=
    ⟨fun _ h => h, fun h q hq => by rw [h] at hq; cases hq⟩
  split
  · unfold State.evalCallOff
    split
    · exact triv
    · next a d p _ =>
      generalize ho : (Order.pendingOf _ _ (if s.urgentAt d = true then _ else _)) = o'
      have hk : o'.kind = .callOff := by rw [← ho]; rfl
      dsimp only
      split
      · next k t hc =>
        have := Law.create_order hc n
        exact ⟨this.1, fun h q hq => ⟨(this.2 h q hq).1.trans hk, (this.2 h q hq).2⟩⟩
      · exact triv
  · exact triv

theorem OrderLaw.rolls_review (s : State) (o : Order) : (s.reviewCallOff o).rolls = s.rolls := RollsAfter.reviewCallOff ..
theorem OrderLaw.drop_order (s : State) (n : Nat) (o : Order) (h : s.order n = some o) : ∃ q, (s.dropRoll n o).order n = some q ∧ q = { o with roll := q.roll } ∧
    ∀ r x, o.roll = some r → s.roll r = some x → q.roll = none := by
  unfold State.dropRoll
  have hm : ∀ (r : Nat) (f : Roll → Roll), ((s.modRoll r f).modOrder n ({ · with roll := none })).order n = some { o with roll := none } := by
    intro r f
    rw [Law.order_mod, if_pos rfl]
    have : (s.modRoll r f).order n = some o := by unfold State.order; rw [State.modRoll_orders]; exact h
    rw [this]; rfl
  split
  · next hr => exact ⟨o, h, rfl, fun r x h1 _ => by rw [hr] at h1; cases h1⟩
  · next r hr =>
    split
    · next x hx =>
      split
      · exact ⟨_, hm r _, rfl, fun _ _ _ _ => rfl⟩
      · exact ⟨_, hm r _, rfl, fun _ _ _ _ => rfl⟩
    · next hx => exact ⟨o, h, rfl, fun r' x h1 h2 => by rw [hr] at h1; cases h1; rw [hx] at h2; cases h2⟩
theorem OrderLaw.drop_rest (s : State) (n : Nat) (o : Order) : (s.dropRoll n o).orderSeq = s.orderSeq ∧ (s.dropRoll n o).stations = s.stations ∧
    (s.dropRoll n o).vehicles = s.vehicles ∧ (s.dropRoll n o).halted = s.halted ∧ (s.dropRoll n o).port = s.port := by
  unfold State.dropRoll State.release State.unlink; repeat' split
  all_goals simp
theorem OrderLaw.drop_roll (s : State) (n : Nat) (o : Order) (r : Nat) (x : Roll) (h : o.roll = some r) (hx : s.roll r = some x) :
    (s.dropRoll n o).roll r = some (if x.state = .reserved then { x with state := .stored, order := none } else { x with order := none }) := by
  unfold State.dropRoll
  rw [h]
  dsimp only
  rw [hx]
  dsimp only
  have hm : ∀ (f : Roll → Roll) (u : State), u.rolls = (s.modRoll r f).rolls → u.roll r = some (f x) := by
    intro f u hu
    have : u.roll r = (s.modRoll r f).roll r := by unfold State.roll; rw [hu]
    rw [this, roll_modRoll, if_pos rfl, hx]; rfl
  split
  · exact hm _ _ (State.modOrder_rolls _ _ _)
  · exact hm _ _ (State.modOrder_rolls _ _ _)
theorem OrderLaw.with_rest (s : State) (n : Nat) (o : Order) : (s.withdrawBay n o).orderSeq = s.orderSeq ∧ (s.withdrawBay n o).stations = s.stations ∧
    (s.withdrawBay n o).vehicles = s.vehicles ∧ (s.withdrawBay n o).rolls = s.rolls ∧ (s.withdrawBay n o).halted = s.halted := by
  unfold State.withdrawBay; split <;> simp
theorem OrderLaw.clear_rest (s : State) (n : Nat) (o : Order) : (s.clearLink n o).orderSeq = s.orderSeq ∧ (s.clearLink n o).stations = s.stations ∧
    (s.clearLink n o).vehicles = s.vehicles ∧ (s.clearLink n o).rolls = s.rolls ∧ (s.clearLink n o).orders = s.orders ∧ (s.clearLink n o).halted = s.halted := by
  unfold State.clearLink State.setCallOff; repeat' split
  all_goals simp
theorem OrderLaw.freeV_rest (s : State) (n : Nat) (o : Order) : (s.freeVehicle n o).orderSeq = s.orderSeq ∧ (s.freeVehicle n o).stations = s.stations ∧
    (s.freeVehicle n o).rolls = s.rolls ∧ (s.freeVehicle n o).orders = s.orders := by
  unfold State.freeVehicle State.unlinkVehicle; repeat' split
  all_goals simp
theorem OrderLaw.tell_rest (s : State) (n : Nat) (o : Order) : (s.abortVehicle n o).orders = s.orders ∧ (s.abortVehicle n o).rolls = s.rolls := by
  unfold State.abortVehicle State.sendVehicleKept State.sendKept; repeat' split
  all_goals simp
theorem OrderLaw.with_order (s : State) (n : Nat) (o p : Order) (h : s.order n = some p) : ∃ q, (s.withdrawBay n o).order n = some q ∧ q = { p with dest := q.dest } ∧
    (∀ b, o.dest = some (.bay b) → q.dest = none) := by
  unfold State.withdrawBay
  split
  · exact ⟨_, (Law.order_mod _ _ _ _).trans (by rw [if_pos rfl, h]; rfl), rfl, fun _ _ => rfl⟩
  · next hb => exact ⟨p, h, rfl, fun b hd => by rw [hd] at hb; exact absurd rfl hb⟩
theorem OrderLaw.review_stations (s : State) (o : Order) : (s.reviewCallOff o).stations = s.stations := by
  unfold State.reviewCallOff
  split
  · unfold State.evalCallOff
    split
    · rfl
    · dsimp only
      split
      · next h =>
        unfold State.createOrder at h
        split at h
        · cases h; rfl
        · cases h
      · rfl
  · rfl
theorem OrderLaw.halt_finish (s : State) (h : s.halted = true) : s.finish = { s with passDue := false } := by
  unfold State.finish; simp [h]
/-- The order and roll of an order freed. -/
theorem OrderLaw.free (s : State) (n : Nat) (o : Order) (h : s.order n = some o) :
    (∀ q, (s.freeOrder n).order n = some q → q.kind = .callOff ∧ q.seq = s.orderSeq + 1) ∧
    ∀ r x, o.roll = some r → s.roll r = some x → (s.freeOrder n).roll r =
      some (if x.state = .reserved then { x with state := .stored, order := none } else { x with order := none }) := by
  unfold State.freeOrder
  rw [h]
  dsimp only
  generalize ht : ((((s.dropRoll n o).withdrawBay n o).clearLink n o).freeVehicle n o) = t
  have e1 : t.orderSeq = s.orderSeq := by
    rw [← ht, (OrderLaw.freeV_rest _ _ _).1, (OrderLaw.clear_rest _ _ _).1, (OrderLaw.with_rest _ _ _).1, (OrderLaw.drop_rest _ _ _).1]
  have e2 : t.rolls = (s.dropRoll n o).rolls := by
    rw [← ht, (OrderLaw.freeV_rest _ _ _).2.2.1, (OrderLaw.clear_rest _ _ _).2.2.2.1, (OrderLaw.with_rest _ _ _).2.2.2.1]
  refine ⟨fun q hq => ?_, fun r x hr hx => ?_⟩
  · have hn : (t.putOrder n none).order n = none := by rw [Law.order_put, if_pos rfl]
    have := (Law.review_order (t.putOrder n none) o n).2 hn q hq
    exact ⟨this.1, this.2.trans (congrArg (· + 1) e1)⟩
  · have : ((t.putOrder n none).reviewCallOff o).roll r = (s.dropRoll n o).roll r := by
      unfold State.roll; rw [OrderLaw.rolls_review]; exact congrArg (fun q => Tbl.find q r) e2
    rw [this]; exact OrderLaw.drop_roll s n o r x hr hx
theorem OrderLaw.redirect_only (s : State) (n : Nat) : Law.changesOnly Law.newDestination n s (s.redirect n) := by
  unfold State.redirect
  have hs : Law.changesOnly Law.newDestination n s s := Law.changesOnly_same _ Law.newDestination_refl n rfl
  split
  · exact hs
  · next o ho =>
    split
    · split
      · next d _ => exact Law.changesOnly_mod _ s n ({ · with dest := some d, noBay := false }) fun o _ => rfl
      · exact Law.changesOnly_then (Law.changesOnly_mod _ s n ({ · with noBay := true }) fun o _ => rfl) (OrdersAfter.storeFull _ _)
    · next v _ =>
      split
      · exact Law.changesOnly_then (Law.changesOnly_mod _ s n ({ · with noBay := true, noRoute := false }) fun o _ => rfl) ((OrdersAfter.newDrop ..).trans (OrdersAfter.storeFull _ _))
      · next d _ =>
        split
        · exact Law.changesOnly_then (Law.changesOnly_mod _ s n ({ · with noBay := false, noRoute := true }) fun o _ => rfl) (OrdersAfter.newDrop ..)
        · exact Law.changesOnly_then (Law.changesOnly_mod _ s n ({ · with dest := some d, noBay := false, noRoute := false }) fun o _ => rfl) (OrdersAfter.newDrop ..)
theorem OrderLaw.conv0 (s : State) (n : Nat) (o : Order) (h : s.order n = some o) : ∃ q, (s.convert n).order n = some q ∧ q.kind = .ret ∧ q.cls = .store ∧ q.state = .carrying ∧ q.deadline = none ∧ q.grade = none ∧ q.width = none ∧ q.roll = o.roll ∧
    q.vehicle = o.vehicle ∧ q.seq = o.seq ∧ q.abort = o.abort := by
  unfold State.convert
  rw [h]
  dsimp only
  obtain ⟨q2, b1, b2, b3⟩ := OrderLaw.with_order s n o o h
  have t1 : ((s.withdrawBay n o).clearLink n o).order n = some q2 := by unfold State.order; rw [(OrderLaw.clear_rest _ _ _).2.2.2.2.1]; exact b1
  generalize (s.withdrawBay n o).clearLink n o = t at t1 ⊢
  generalize hf : (fun x : Order => { x with
    kind := .ret, cls := .store, deadline := none, grade := none, width := none, named := none, namedDest := none,
             dest := none, noStock := false, noBay := false, noRoute := false, state := .carrying }) = f
  have m1 : (t.modOrder n f).order n = some (f q2) := by rw [Law.order_mod, if_pos rfl, t1]; rfl
  obtain ⟨q, c1, c2⟩ := (OrderLaw.redirect_only (t.modOrder n f) n).2.2 _ m1
  unfold Law.newDestination at c2
  refine ⟨q, c1, ?_⟩
  rw [c2, ← hf, b2]
  exact ⟨rfl, rfl, rfl, rfl, rfl, rfl, rfl, rfl, rfl, rfl⟩
theorem OrderLaw.conv (s : State) (n : Nat) (o : Order) (h : s.order n = some o) : ∃ q, ((s.convert n).reviewCallOff o).order n = some q ∧
    q.kind = .ret ∧ q.cls = .store ∧ q.state = .carrying ∧ q.deadline = none ∧ q.grade = none ∧ q.width = none ∧ q.roll = o.roll ∧
    q.vehicle = o.vehicle ∧ q.seq = o.seq ∧ q.abort = o.abort := by
  obtain ⟨q, h1, h2⟩ := OrderLaw.conv0 s n o h
  exact ⟨q, (Law.review_order _ o n).1 _ h1, h2⟩

end Sys2Proof.Machine
end

