-- ==== Sys2Proof/Laws/PerInstr.lean ====
section
/-! SUPPORT. The family of statements made for each command of the table. -/

namespace Sys2Proof.Laws

/-- The frame of a plant request opens with its kind, 1 to 40, and a byte that counts the payload behind it (R171); a command that is no
plant request has no frame. -/
def FrameOpensWithItsKind.Statement (i : Instr) : Prop :=
  ∀ bs, encodeRequest i = some bs → 1 ≤ i.requestKind ∧ i.requestKind ≤ 40 ∧
    ∃ p : List Byte, bs = BitVec.ofNat 8 i.requestKind :: BitVec.ofNat 8 p.length :: p

/-- A request of a kind from 1 to 40 meets the statement. -/
theorem frame_of_parts {i : Instr} {k : Nat} {p : List Byte} (h : requestParts i = some (k, p)) (h1 : 1 ≤ k) (h2 : k ≤ 40) :
    FrameOpensWithItsKind.Statement i := by
  have hk : i.requestKind = k := by unfold Instr.requestKind; rw [h]; rfl
  intro bs e
  unfold encodeRequest at e
  rw [h] at e
  rw [hk]
  exact ⟨h1, h2, p, (Option.some.inj e).symm⟩

/-- A command that is no plant request meets it. -/
theorem no_frame {i : Instr} (h : requestParts i = none) : FrameOpensWithItsKind.Statement i := by
  intro bs e
  unfold encodeRequest at e
  rw [h] at e
  cases e

theorem FrameOpensWithItsKind.requestTransaction (bytes : List Byte) : FrameOpensWithItsKind.Statement (.requestTransaction bytes) :=
  no_frame rfl
theorem FrameOpensWithItsKind.readTransaction (clocked : Nat) : FrameOpensWithItsKind.Statement (.readTransaction clocked) := no_frame rfl
theorem FrameOpensWithItsKind.lookupRoll (r : RollRef) : FrameOpensWithItsKind.Statement (.lookupRoll r) :=
  frame_of_parts rfl (by decide) (by decide)
theorem FrameOpensWithItsKind.listRollsByGrade (grade width key : Nat) :
    FrameOpensWithItsKind.Statement (.listRollsByGrade grade width key) :=
  frame_of_parts rfl (by decide) (by decide)
theorem FrameOpensWithItsKind.listRollsByLocation (p : ListPlace) : FrameOpensWithItsKind.Statement (.listRollsByLocation p) :=
  frame_of_parts rfl (by decide) (by decide)
theorem FrameOpensWithItsKind.announceRoll (tag : Tag) (grade width diameter : Nat) (weight : Option Nat) (node : Nat) :
    FrameOpensWithItsKind.Statement (.announceRoll tag grade width diameter weight node) :=
  frame_of_parts rfl (by decide) (by decide)
theorem FrameOpensWithItsKind.holdRoll (r : RollRef) (reason : Option Hold) : FrameOpensWithItsKind.Statement (.holdRoll r reason) :=
  frame_of_parts rfl (by decide) (by decide)
theorem FrameOpensWithItsKind.releaseRoll (r : RollRef) : FrameOpensWithItsKind.Statement (.releaseRoll r) :=
  frame_of_parts rfl (by decide) (by decide)
theorem FrameOpensWithItsKind.retireRoll (r : RollRef) : FrameOpensWithItsKind.Statement (.retireRoll r) :=
  frame_of_parts rfl (by decide) (by decide)
theorem FrameOpensWithItsKind.placeRoll (r : RollRef) (d : PlaceDest) : FrameOpensWithItsKind.Statement (.placeRoll r d) :=
  frame_of_parts rfl (by decide) (by decide)
theorem FrameOpensWithItsKind.readBayByNumber (b : Nat) : FrameOpensWithItsKind.Statement (.readBayByNumber b) :=
  frame_of_parts rfl (by decide) (by decide)
theorem FrameOpensWithItsKind.readBayNextHeld (b : Nat) : FrameOpensWithItsKind.Statement (.readBayNextHeld b) :=
  frame_of_parts rfl (by decide) (by decide)
theorem FrameOpensWithItsKind.setBay (b limit aisle : Nat) (h : Option HoldSetting) :
    FrameOpensWithItsKind.Statement (.setBay b limit aisle h) :=
  frame_of_parts rfl (by decide) (by decide)
theorem FrameOpensWithItsKind.releaseBay (b : Nat) : FrameOpensWithItsKind.Statement (.releaseBay b) :=
  frame_of_parts rfl (by decide) (by decide)
theorem FrameOpensWithItsKind.setGradeConfigure (g basis caliper core threshold : Nat) :
    FrameOpensWithItsKind.Statement (.setGradeConfigure g basis caliper core threshold) :=
  frame_of_parts rfl (by decide) (by decide)
theorem FrameOpensWithItsKind.setGradeClear (g caliper : Nat) : FrameOpensWithItsKind.Statement (.setGradeClear g caliper) :=
  frame_of_parts rfl (by decide) (by decide)
theorem FrameOpensWithItsKind.readGrade (g : Nat) : FrameOpensWithItsKind.Statement (.readGrade g) :=
  frame_of_parts rfl (by decide) (by decide)
theorem FrameOpensWithItsKind.writePlanHead (line : Nat) (h : PlanHead) : FrameOpensWithItsKind.Statement (.writePlanHead line h) :=
  frame_of_parts rfl (by decide) (by decide)
theorem FrameOpensWithItsKind.writePlanPositions (line : Nat) (ps : List Position) :
    FrameOpensWithItsKind.Statement (.writePlanPositions line ps) :=
  frame_of_parts rfl (by decide) (by decide)
theorem FrameOpensWithItsKind.readPlan (line : Nat) (sel : Option PlanSel) (part : Option PlanPart) :
    FrameOpensWithItsKind.Statement (.readPlan line sel part) :=
  frame_of_parts rfl (by decide) (by decide)
theorem FrameOpensWithItsKind.changeover (line : Nat) : FrameOpensWithItsKind.Statement (.changeover line) :=
  frame_of_parts rfl (by decide) (by decide)
theorem FrameOpensWithItsKind.readStand (st : Nat) : FrameOpensWithItsKind.Statement (.readStand st) :=
  frame_of_parts rfl (by decide) (by decide)
theorem FrameOpensWithItsKind.setStand (st m k offset tol pulse loading : Nat) :
    FrameOpensWithItsKind.Statement (.setStand st m k offset tol pulse loading) :=
  frame_of_parts rfl (by decide) (by decide)
theorem FrameOpensWithItsKind.setLine (line lam w : Nat) (e : Enables) : FrameOpensWithItsKind.Statement (.setLine line lam w e) :=
  frame_of_parts rfl (by decide) (by decide)
theorem FrameOpensWithItsKind.openJob (job line : Nat) : FrameOpensWithItsKind.Statement (.openJob job line) :=
  frame_of_parts rfl (by decide) (by decide)
theorem FrameOpensWithItsKind.closeJob (job : Nat) : FrameOpensWithItsKind.Statement (.closeJob job) :=
  frame_of_parts rfl (by decide) (by decide)
theorem FrameOpensWithItsKind.readJobByNumber (job : Nat) : FrameOpensWithItsKind.Statement (.readJobByNumber job) :=
  frame_of_parts rfl (by decide) (by decide)
theorem FrameOpensWithItsKind.readJobNext (job : Nat) : FrameOpensWithItsKind.Statement (.readJobNext job) :=
  frame_of_parts rfl (by decide) (by decide)
theorem FrameOpensWithItsKind.retireJob (job : Nat) : FrameOpensWithItsKind.Statement (.retireJob job) :=
  frame_of_parts rfl (by decide) (by decide)
theorem FrameOpensWithItsKind.stopLine (line : Nat) : FrameOpensWithItsKind.Statement (.stopLine line) :=
  frame_of_parts rfl (by decide) (by decide)
theorem FrameOpensWithItsKind.restartLine (line : Nat) : FrameOpensWithItsKind.Statement (.restartLine line) :=
  frame_of_parts rfl (by decide) (by decide)
theorem FrameOpensWithItsKind.orderMove (r : RollRef) (d : MoveDest) : FrameOpensWithItsKind.Statement (.orderMove r d) :=
  frame_of_parts rfl (by decide) (by decide)
theorem FrameOpensWithItsKind.cancelOrder (n : Nat) : FrameOpensWithItsKind.Statement (.cancelOrder n) :=
  frame_of_parts rfl (by decide) (by decide)
theorem FrameOpensWithItsKind.readOrderByNumber (n : Nat) : FrameOpensWithItsKind.Statement (.readOrderByNumber n) :=
  frame_of_parts rfl (by decide) (by decide)
theorem FrameOpensWithItsKind.readOrderNext (n : Nat) : FrameOpensWithItsKind.Statement (.readOrderNext n) :=
  frame_of_parts rfl (by decide) (by decide)
theorem FrameOpensWithItsKind.retireOrder (n : Nat) : FrameOpensWithItsKind.Statement (.retireOrder n) :=
  frame_of_parts rfl (by decide) (by decide)
theorem FrameOpensWithItsKind.setServiceIn (v node : Nat) : FrameOpensWithItsKind.Statement (.setServiceIn v node) :=
  frame_of_parts rfl (by decide) (by decide)
theorem FrameOpensWithItsKind.setServiceOut (v : Nat) : FrameOpensWithItsKind.Statement (.setServiceOut v) :=
  frame_of_parts rfl (by decide) (by decide)
theorem FrameOpensWithItsKind.setServiceSettings (progress transfer margin : Nat) :
    FrameOpensWithItsKind.Statement (.setServiceSettings progress transfer margin) :=
  frame_of_parts rfl (by decide) (by decide)
theorem FrameOpensWithItsKind.readVehicle (v : Nat) : FrameOpensWithItsKind.Statement (.readVehicle v) :=
  frame_of_parts rfl (by decide) (by decide)
theorem FrameOpensWithItsKind.setSegment (n : Nat) (k : Option SegKind) : FrameOpensWithItsKind.Statement (.setSegment n k) := by
  cases k <;> exact frame_of_parts rfl (by decide) (by decide)
theorem FrameOpensWithItsKind.setNode (n : Nat) (c : Option (Nat × Option NodeRole)) : FrameOpensWithItsKind.Statement (.setNode n c) := by
  rcases c with _ | ⟨g, r⟩ <;> exact frame_of_parts rfl (by decide) (by decide)
theorem FrameOpensWithItsKind.setRoute (n : Nat) (c : Option Route) : FrameOpensWithItsKind.Statement (.setRoute n c) := by
  cases c <;> exact frame_of_parts rfl (by decide) (by decide)
theorem FrameOpensWithItsKind.haltTransport : FrameOpensWithItsKind.Statement .haltTransport := frame_of_parts rfl (by decide) (by decide)
theorem FrameOpensWithItsKind.resumeTransport : FrameOpensWithItsKind.Statement .resumeTransport :=
  frame_of_parts rfl (by decide) (by decide)
theorem FrameOpensWithItsKind.setStationConfigure (a : Nat) (r : Role) : FrameOpensWithItsKind.Statement (.setStationConfigure a r) :=
  frame_of_parts rfl (by decide) (by decide)
theorem FrameOpensWithItsKind.setStationClear (a : Nat) : FrameOpensWithItsKind.Statement (.setStationClear a) :=
  frame_of_parts rfl (by decide) (by decide)
theorem FrameOpensWithItsKind.setStationSettings (rate : Option Rate) (window : Nat) :
    FrameOpensWithItsKind.Statement (.setStationSettings rate window) :=
  frame_of_parts rfl (by decide) (by decide)
theorem FrameOpensWithItsKind.readStationByAddress (a : Nat) : FrameOpensWithItsKind.Statement (.readStationByAddress a) :=
  frame_of_parts rfl (by decide) (by decide)
theorem FrameOpensWithItsKind.readStationNext (a : Nat) : FrameOpensWithItsKind.Statement (.readStationNext a) :=
  frame_of_parts rfl (by decide) (by decide)
theorem FrameOpensWithItsKind.standby : FrameOpensWithItsKind.Statement .standby := frame_of_parts rfl (by decide) (by decide)
theorem FrameOpensWithItsKind.standbyEntry : FrameOpensWithItsKind.Statement .standbyEntry := no_frame rfl
theorem FrameOpensWithItsKind.restartPart : FrameOpensWithItsKind.Statement .restartPart := frame_of_parts rfl (by decide) (by decide)
theorem FrameOpensWithItsKind.readAttention : FrameOpensWithItsKind.Statement .readAttention := frame_of_parts rfl (by decide) (by decide)
theorem FrameOpensWithItsKind.poll : FrameOpensWithItsKind.Statement .poll := no_frame rfl
theorem FrameOpensWithItsKind.replyWindowExpiry : FrameOpensWithItsKind.Statement .replyWindowExpiry := no_frame rfl
theorem FrameOpensWithItsKind.frameSpoiled (c : Spoil) : FrameOpensWithItsKind.Statement (.frameSpoiled c) := no_frame rfl
theorem FrameOpensWithItsKind.characterGapTimeout : FrameOpensWithItsKind.Statement .characterGapTimeout := no_frame rfl
theorem FrameOpensWithItsKind.lateReplyDiscarded : FrameOpensWithItsKind.Statement .lateReplyDiscarded := no_frame rfl
theorem FrameOpensWithItsKind.replyNotSuited (kind : Nat) (more : Bool) : FrameOpensWithItsKind.Statement (.replyNotSuited kind more) :=
  no_frame rfl
theorem FrameOpensWithItsKind.broadcast : FrameOpensWithItsKind.Statement .broadcast := no_frame rfl
theorem FrameOpensWithItsKind.noneReply (order : Nat) (more : Bool) : FrameOpensWithItsKind.Statement (.noneReply order more) :=
  no_frame rfl
theorem FrameOpensWithItsKind.position (order : Nat) (spot : Spot) (passed more : Bool) :
    FrameOpensWithItsKind.Statement (.position order spot passed more) :=
  no_frame rfl
theorem FrameOpensWithItsKind.claim (order seg : Nat) (more : Bool) : FrameOpensWithItsKind.Statement (.claim order seg more) :=
  no_frame rfl
theorem FrameOpensWithItsKind.docked (order : Nat) (deck : Deck) (more : Bool) : FrameOpensWithItsKind.Statement (.docked order deck more) :=
  no_frame rfl
theorem FrameOpensWithItsKind.loaded (order : Nat) (more : Bool) : FrameOpensWithItsKind.Statement (.loaded order more) := no_frame rfl
theorem FrameOpensWithItsKind.unloaded (order : Nat) (more : Bool) : FrameOpensWithItsKind.Statement (.unloaded order more) := no_frame rfl
theorem FrameOpensWithItsKind.idle (order node : Nat) (more : Bool) : FrameOpensWithItsKind.Statement (.idle order node more) :=
  no_frame rfl
theorem FrameOpensWithItsKind.fault (order number : Nat) (more : Bool) : FrameOpensWithItsKind.Statement (.fault order number more) :=
  no_frame rfl
theorem FrameOpensWithItsKind.tagRead (tag : Tag) (grade width diameter : Nat) (weight : Option Nat) (more : Bool) :
    FrameOpensWithItsKind.Statement (.tagRead tag grade width diameter weight more) :=
  no_frame rfl
theorem FrameOpensWithItsKind.scaleWeight (tag : Tag) (weight : Nat) (more : Bool) :
    FrameOpensWithItsKind.Statement (.scaleWeight tag weight more) :=
  no_frame rfl
theorem FrameOpensWithItsKind.bayHeights (heights : List Nat) (more : Bool) : FrameOpensWithItsKind.Statement (.bayHeights heights more) :=
  no_frame rfl
theorem FrameOpensWithItsKind.prepDone (a : Arm) (after before : Nat) (more : Bool) :
    FrameOpensWithItsKind.Statement (.prepDone a after before more) :=
  no_frame rfl
theorem FrameOpensWithItsKind.stubOff (a : Arm) (diameter : Option Nat) (more : Bool) :
    FrameOpensWithItsKind.Statement (.stubOff a diameter more) :=
  no_frame rfl
theorem FrameOpensWithItsKind.spliceNow (st : Nat) (more : Bool) : FrameOpensWithItsKind.Statement (.spliceNow st more) := no_frame rfl
theorem FrameOpensWithItsKind.consoleGood (more : Bool) : FrameOpensWithItsKind.Statement (.consoleGood more) := no_frame rfl
theorem FrameOpensWithItsKind.consoleStop (more : Bool) : FrameOpensWithItsKind.Statement (.consoleStop more) := no_frame rfl
theorem FrameOpensWithItsKind.consoleRestart (more : Bool) : FrameOpensWithItsKind.Statement (.consoleRestart more) := no_frame rfl
theorem FrameOpensWithItsKind.webPulse (line : Nat) : FrameOpensWithItsKind.Statement (.webPulse line) := no_frame rfl
theorem FrameOpensWithItsKind.gateExpiry (line : Nat) : FrameOpensWithItsKind.Statement (.gateExpiry line) := no_frame rfl
theorem FrameOpensWithItsKind.markEdge (st : Nat) (a : Arm) : FrameOpensWithItsKind.Statement (.markEdge st a) := no_frame rfl
theorem FrameOpensWithItsKind.markTimerExpiry (st : Nat) : FrameOpensWithItsKind.Statement (.markTimerExpiry st) := no_frame rfl
theorem FrameOpensWithItsKind.pasteTimerExpiry (st : Nat) : FrameOpensWithItsKind.Statement (.pasteTimerExpiry st) := no_frame rfl
theorem FrameOpensWithItsKind.webBreakPin (st : Nat) : FrameOpensWithItsKind.Statement (.webBreakPin st) := no_frame rfl
theorem FrameOpensWithItsKind.folderJam (line : Nat) : FrameOpensWithItsKind.Statement (.folderJam line) := no_frame rfl
theorem FrameOpensWithItsKind.copyPulse (line : Nat) : FrameOpensWithItsKind.Statement (.copyPulse line) := no_frame rfl
theorem FrameOpensWithItsKind.secondTick : FrameOpensWithItsKind.Statement .secondTick := no_frame rfl
theorem FrameOpensWithItsKind.progressTimeout (v : Nat) : FrameOpensWithItsKind.Statement (.progressTimeout v) := no_frame rfl
theorem FrameOpensWithItsKind.transferTimeout (v : Nat) : FrameOpensWithItsKind.Statement (.transferTimeout v) := no_frame rfl
theorem FrameOpensWithItsKind.powerReturn (held : Bool) : FrameOpensWithItsKind.Statement (.powerReturn held) := no_frame rfl
theorem FrameOpensWithItsKind.mainPowerLoss : FrameOpensWithItsKind.Statement .mainPowerLoss := no_frame rfl
theorem FrameOpensWithItsKind.wake : FrameOpensWithItsKind.Statement .wake := no_frame rfl
theorem FrameOpensWithItsKind.webBreakPinInactive (st : Nat) : FrameOpensWithItsKind.Statement (.webBreakPinInactive st) := no_frame rfl
theorem FrameOpensWithItsKind.folderJamInactive (line : Nat) : FrameOpensWithItsKind.Statement (.folderJamInactive line) := no_frame rfl
theorem FrameOpensWithItsKind.frameStart (addr : Nat) : FrameOpensWithItsKind.Statement (.frameStart addr) := no_frame rfl
theorem FrameOpensWithItsKind.replyOtherAddress (addr : Nat) : FrameOpensWithItsKind.Statement (.replyOtherAddress addr) := no_frame rfl

end Sys2Proof.Laws
end

