-- ==== Sys2Proof/Laws/VehicleLaws.lean ====
section
/-! SUPPORT. The operations of the Track Claim Unit, said once each: a report taken, a stall, a release, a completed route, the entry into IDLE. -/

namespace Sys2Proof.Machine

theorem VehicleLaw.heardVeh {s : State} {e : Exchange} {x : Station} {v : Nat} {more : Bool} (hh : s.hears e x) (hr : x.role = .vehicle v) :
    (s.heard e more).vehicle v = { s.vehicle v with lastReport := some s.timeBase } := by
  unfold State.heard State.goodReply
  have : (s.fresh.station e.addr) = some x := hh.2.2
  dsimp only
  rw [this]
  dsimp only [Option.map_some]
  rw [hr]
  unfold State.vehicle
  dsimp only
  have := Law.vehicle_mod (s.fresh.modStation e.addr fun x => { x with miss := 0, silent := false, reduced := if x.silent then 0 else x.reduced }) v v ({ · with lastReport := some s.fresh.timeBase })
  rw [if_pos rfl] at this
  unfold State.vehicle at this
  rw [this, State.modStation_vehicles]
  rfl
theorem VehicleLaw.working {s : State} {e : Exchange} {x : Station} {v : Nat} {more : Bool} (hh : s.hears e x) (hr : x.role = .vehicle v) :
    (s.heard e more).workingOrder v = s.workingOrder v := by
  unfold State.workingOrder
  rw [VehicleLaw.heardVeh hh hr]
  have : (s.heard e more).order = s.order := funext fun n => Law.heard_order n
  rw [this]
theorem VehicleLaw.taken {s : State} {e : Exchange} {x : Station} {v n : Nat} {more : Bool} {k : Report} {body : Nat → Nat → State → State} (hh : s.hears e x) (hr : x.role = .vehicle v)
    (hv : (s.vehicle v).state ≠ .outOfService) (hk : k ≠ .docked) (hn : n = (s.workingOrder v).getD 0) :
    taken k n more body s = .next (body e.addr v ((s.heard e more).modVehicle v ({ · with docked := 0 }))).finish := by
  unfold Sys2Proof.Machine.taken
  rw [vehicleReport_heard hh hr]
  dsimp only
  have h1 : ((s.heard e more).vehicle v).inService = true := by
    rw [VehicleLaw.heardVeh hh hr]; unfold Vehicle.inService; simpa using hv
  rw [if_pos h1, if_neg hk, VehicleLaw.working hh hr]
  unfold State.lostCommand
  rw [if_pos hn]
theorem VehicleLaw.seen {s : State} {e : Exchange} {x : Station} {v : Nat} {more : Bool} (hh : s.hears e x) (hr : x.role = .vehicle v) :
    ((s.heard e more).modVehicle v ({ · with docked := 0 })).vehicle v = { s.vehicle v with lastReport := some s.timeBase, docked := 0 } := by
  rw [Law.vehicle_mod, if_pos rfl, VehicleLaw.heardVeh hh hr]
theorem VehicleLaw.sendVehicle_passDue (s : State) (v : Nat) (c : Cmd) : (s.sendVehicle v c).passDue = s.passDue := by
  unfold State.sendVehicle State.sendVehicleKept State.sendKept; split <;> simp
theorem VehicleLaw.seg_mv (s : State) (n : Nat) (f : Vehicle → Vehicle) (g : Nat) : (s.modVehicle n f).segment g = s.segment g := by
  unfold State.segment; rw [State.modVehicle_segments]
theorem VehicleLaw.veh_ms (s : State) (n : Nat) (f : Segment → Segment) (g : Nat) : (s.modSegment n f).vehicle g = s.vehicle g := by
  unfold State.vehicle; rw [State.modSegment_vehicles]
theorem VehicleLaw.leave_vehicle (s : State) (v w : Nat) : (s.leaveList v).vehicle w = if w = v then { s.vehicle v with waiting := none } else s.vehicle w := by
  unfold State.leaveList
  split
  · next h =>
    split
    · next q => subst q; generalize s.vehicle w = x at h ⊢; cases x; cases h; rfl
    · rfl
  · rw [Law.vehicle_mod, VehicleLaw.veh_ms]
    rfl
theorem VehicleLaw.leave_segment (s : State) (v g : Nat) : (s.leaveList v).segment g =
    if (s.vehicle v).waiting = some g then { s.segment g with waiters := (s.segment g).waiters.erase v } else s.segment g := by
  unfold State.leaveList
  split
  · next h => rw [h]; simp
  · next k h =>
    rw [h]
    dsimp only
    rw [VehicleLaw.seg_mv, Law.segment_mod]
    by_cases hk : g = k
    · subst hk; simp
    · rw [if_neg hk, if_neg (by simpa using fun q => hk q.symm)]
theorem VehicleLaw.leave_rest (s : State) (v : Nat) : (s.leaveList v).stations = s.stations ∧ (s.leaveList v).passDue = s.passDue ∧ (s.leaveList v).halted = s.halted := by
  unfold State.leaveList; split <;> simp
theorem VehicleLaw.sync_vehicle (s : State) (v w : Nat) : (s.syncProgress v).vehicle w = if w = v then { s.vehicle v with progress := 
      (if (s.progressRuns (s.vehicle v) && (s.vehicle v).progress != .stopped) = true then (s.vehicle v).progress else 
        if s.progressRuns (s.vehicle v) then s.started s.progressTimeout else .stopped) } else s.vehicle w := by
  unfold State.syncProgress
  split
  · split
    · next h => subst h; rfl
    · rfl
  · unfold State.restartProgress
    rw [Law.vehicle_mod]
theorem VehicleLaw.sync_rest (s : State) (v : Nat) : (s.syncProgress v).stations = s.stations ∧ (s.syncProgress v).passDue = s.passDue ∧ (s.syncProgress v).halted = s.halted ∧ (s.syncProgress v).segments = s.segments := by
  unfold State.syncProgress State.restartProgress; split <;> simp
theorem VehicleLaw.send_rest (s : State) (v : Nat) (c : Cmd) : (s.sendVehicle v c).vehicles = s.vehicles ∧ (s.sendVehicle v c).segments = s.segments ∧ (s.sendVehicle v c).halted = s.halted := by
  unfold State.sendVehicle State.sendVehicleKept State.sendKept; split <;> simp
theorem VehicleLaw.send_stations {s t : State} (v : Nat) (c : Cmd) (h1 : s.stations = t.stations) (h2 : s.halted = t.halted) : (s.sendVehicle v c).stations = (t.sendVehicle v c).stations := by
  unfold State.sendVehicle State.sendVehicleKept State.sendKept State.vehicleStation
  rw [h1]
  split
  · exact h1
  · unfold State.modStation State.station
    rw [h1, h2]
    split
    · exact h1
    · simp [h1]
theorem VehicleLaw.clearMarks_rest (s : State) (v : Nat) : (s.clearMarks v).vehicles = s.vehicles ∧ (s.clearMarks v).attn = s.attn ∧ (s.clearMarks v).stations = s.stations ∧
    (s.clearMarks v).segments = s.segments ∧ (s.clearMarks v).orders = s.orders := by
  unfold State.clearMarks
  refine ⟨?_, ?_, ?_, ?_, ?_⟩
  · apply RollsAfter.each State.vehicles; intro _ _; rfl
  · apply RollsAfter.each State.attn; intro _ _; rfl
  · apply RollsAfter.each State.stations; intro _ _; rfl
  · apply RollsAfter.each State.segments; intro _ _; rfl
  · apply RollsAfter.each State.orders; intro _ _; rfl
theorem VehicleLaw.stall_vehicle (s : State) (v w : Nat) (c : StallCause) (p : Option VState) : (s.stall v c p).vehicle w =
    if w = v ∧ (s.vehicle v).state ≠ .stalled ∧ (s.vehicle v).state ≠ .outOfService then
      { s.vehicle v with state := .stalled, prev := some (p.getD (s.vehicle v).state), cause := some c, progress := .stopped, transfer := .stopped, docked := 0 }
    else s.vehicle w := by
  unfold State.stall
  dsimp only
  split
  · next h => rw [if_neg (by rintro ⟨_, a, b⟩; rcases h with h | h <;> contradiction)]
  · next h =>
    have hm : (s.clearMarks v).vehicle = s.vehicle := by funext k; unfold State.vehicle; rw [(VehicleLaw.clearMarks_rest s v).1]
    unfold State.vehicle
    rw [State.raise_vehicles]
    have := Law.vehicle_mod (s.clearMarks v) v w (fun x => { x with state := .stalled, prev := some (p.getD x.state), cause := some c, progress := .stopped, transfer := .stopped, docked := 0 })
    unfold State.vehicle at this
    rw [this]
    by_cases hw : w = v
    · rw [if_pos hw, if_pos ⟨hw, fun q => h (.inl q), fun q => h (.inr q)⟩]
      rw [(VehicleLaw.clearMarks_rest s v).1]
    · rw [if_neg hw, if_neg (fun q => hw q.1)]
      rw [(VehicleLaw.clearMarks_rest s v).1]
theorem VehicleLaw.stall_attn (s : State) (v : Nat) (c : StallCause) (p : Option VState) : (s.stall v c p).attn =
    if (s.vehicle v).state = .stalled ∨ (s.vehicle v).state = .outOfService then s.attn else (s.raise .vehicleStalled v).attn := by
  unfold State.stall
  dsimp only
  split
  · rfl
  · unfold State.raise
    dsimp only
    rw [State.modVehicle_attn, (VehicleLaw.clearMarks_rest s v).2.1]

theorem VehicleLaw.segmentOf (s : State) (p : Spot) : s.segmentOf p = match p with
      | .segment g => some g
      | .node k => (s.node k).map Node.seg := by cases p <;> rfl
theorem VehicleLaw.release_vehicle (s : State) (a w : Nat) : (s.releaseSegment a).vehicle w = if (s.segment a).waiters.head? = some w then
      { s.vehicle w with held := (s.vehicle w).held ++ [a], waiting := none, progress := ((s.releaseSegment a).vehicle w).progress } else s.vehicle w := by
  unfold State.releaseSegment
  cases hw : (s.segment a).waiters with
  | nil => dsimp only; rw [if_neg (by simp), VehicleLaw.veh_ms]
  | cons c cs =>
    dsimp only
    rw [VehicleLaw.sync_vehicle]
    have : ∀ k, (((s.modSegment a ({ · with holder := some c, waiters := cs })).modVehicle c fun v => { v with held := v.held ++ [a], waiting := none }).sendVehicle c (.grant a)).vehicle k
        = if k = c then { s.vehicle c with held := (s.vehicle c).held ++ [a], waiting := none } else s.vehicle k := by
      intro k
      unfold State.vehicle
      rw [(VehicleLaw.send_rest _ _ _).1]
      have := Law.vehicle_mod (s.modSegment a ({ · with holder := some c, waiters := cs })) c k (fun v => { v with held := v.held ++ [a], waiting := none })
      unfold State.vehicle at this
      rw [this, State.modSegment_vehicles]
    by_cases hk : w = c
    · subst hk
      have h2 : (w :: cs).head? = some w := rfl
      rw [if_pos rfl, if_pos h2, this, if_pos rfl]
    · have h2 : (c :: cs).head? ≠ some w := fun q => hk (Option.some.inj q).symm
      rw [if_neg hk, if_neg h2, this, if_neg hk]
theorem VehicleLaw.release_segment (s : State) (a g : Nat) : (s.releaseSegment a).segment g = if g = a then
      { s.segment a with holder := (s.segment a).waiters.head?, waiters := (s.segment a).waiters.tail } else s.segment g := by
  unfold State.releaseSegment
  cases hw : (s.segment a).waiters with
  | nil =>
    dsimp only; rw [Law.segment_mod]
    split
    · generalize s.segment a = x at hw ⊢; cases x; cases hw; rfl
    · rfl
  | cons c cs =>
    dsimp only
    have : ∀ (u : State), ((u.sendVehicle c (.grant a)).syncProgress c).segment g = u.segment g := by
      intro u; unfold State.segment; rw [(VehicleLaw.sync_rest _ _).2.2.2, (VehicleLaw.send_rest _ _ _).2.1]
    rw [this, VehicleLaw.seg_mv, Law.segment_mod]
    rfl
theorem VehicleLaw.release_rest (s : State) (a : Nat) : (s.releaseSegment a).orders = s.orders ∧ (s.releaseSegment a).passDue = s.passDue ∧ (s.releaseSegment a).routes = s.routes ∧
    (s.releaseSegment a).halted = s.halted ∧ (s.releaseSegment a).progressTimeout = s.progressTimeout := by
  unfold State.releaseSegment State.syncProgress State.restartProgress State.sendVehicle State.sendVehicleKept State.sendKept
  repeat' split
  all_goals simp

theorem VehicleLaw.pass2_vehicle (u : State) (v : Nat) (p : Spot) : 
    ((u.pass2 v p).vehicle v).pos = (u.vehicle v).pos ∧ ((u.pass2 v p).vehicle v).docked = (u.vehicle v).docked ∧ ((u.pass2 v p).vehicle v).state = (u.vehicle v).state ∧
    ((u.pass2 v p).vehicle v).leg.map Leg.route = (u.vehicle v).leg.map Leg.route ∧ ((u.pass2 v p).vehicle v).nextRoute = (u.vehicle v).nextRoute ∧
    (u.pass2 v p).orders = u.orders ∧ (u.pass2 v p).routes = u.routes ∧ (u.pass2 v p).passDue = u.passDue ∧ (u.pass2 v p).halted = u.halted ∧ 
    (u.pass2 v p).progressTimeout = u.progressTimeout := by
  unfold State.pass2
  split
  · next a b hab =>
    split
    · next hb =>
      dsimp only
      rw [VehicleLaw.release_vehicle, Law.vehicle_mod, if_pos rfl]
      have hl : ∀ (o : Option Leg) (f : Leg → Nat), (o.map fun l => { l with progress := f l }).map Leg.route = o.map Leg.route := by
        intro o f; cases o <;> rfl
      have hr := VehicleLaw.release_rest
      split
      · exact ⟨rfl, rfl, rfl, hl _ _, rfl, (hr _ _).1, (hr _ _).2.2.1, (hr _ _).2.1, (hr _ _).2.2.2.1, (hr _ _).2.2.2.2⟩
      · exact ⟨rfl, rfl, rfl, hl _ _, rfl, (hr _ _).1, (hr _ _).2.2.1, (hr _ _).2.1, (hr _ _).2.2.2.1, (hr _ _).2.2.2.2⟩
    · exact ⟨rfl, rfl, rfl, rfl, rfl, rfl, rfl, rfl, rfl, rfl⟩
  · exact ⟨rfl, rfl, rfl, rfl, rfl, rfl, rfl, rfl, rfl, rfl⟩
theorem VehicleLaw.complete_vehicle (u : State) (v w : Nat) (p : Spot) : (u.completeRoute v p).vehicle w =
    if w = v then match (u.vehicle v).leg with
      | some l => if p = .node (((u.route l.route).map Route.dst).getD 0) then { u.vehicle v with leg := (u.vehicle v).nextRoute.map (⟨·, 0⟩), nextRoute := none } else u.vehicle v
      | none => u.vehicle v
    else u.vehicle w := by
  unfold State.completeRoute
  cases hl : (u.vehicle v).leg with
  | none =>
    dsimp only
    split
    · next q => rw [q]
    · rfl
  | some l =>
    dsimp only
    by_cases q : p = .node (((u.route l.route).map Route.dst).getD 0)
    · rw [if_pos q, if_pos q, Law.vehicle_mod]
    · rw [if_neg q, if_neg q]
      split
      · next q => rw [q]
      · rfl
theorem VehicleLaw.complete_rest (u : State) (v : Nat) (p : Spot) : (u.completeRoute v p).orders = u.orders ∧ (u.completeRoute v p).segments = u.segments ∧
    (u.completeRoute v p).passDue = u.passDue ∧ (u.completeRoute v p).halted = u.halted ∧ (u.completeRoute v p).progressTimeout = u.progressTimeout := by
  unfold State.completeRoute
  repeat' split
  all_goals simp
theorem VehicleLaw.restart_vehicle (s : State) (v w : Nat) : (s.restartProgress v).vehicle w = if w = v then { s.vehicle v with progress := 
        (if s.progressRuns (s.vehicle v) then s.started s.progressTimeout else .stopped) } else s.vehicle w := by
  unfold State.restartProgress
  rw [Law.vehicle_mod]
theorem VehicleLaw.restart_rest (s : State) (v : Nat) : (s.restartProgress v).orders = s.orders ∧ (s.restartProgress v).segments = s.segments ∧ (s.restartProgress v).passDue = s.passDue := by
  unfold State.restartProgress; simp
theorem VehicleLaw.sync_orders (s : State) (v : Nat) : (s.syncProgress v).orders = s.orders := by
  unfold State.syncProgress State.restartProgress; split <;> simp
theorem VehicleLaw.pass2_no (u : State) (v : Nat) (p : Spot) (h : ∀ a b, (u.vehicle v).held = [a, b] → u.segmentOf p ≠ some b) : u.pass2 v p = u := by
  unfold State.pass2
  split
  · next a b hab => rw [if_neg (h a b hab)]
  · rfl

theorem VehicleLaw.bay_mv (s : State) (n : Nat) (f : Vehicle → Vehicle) (g : Nat) : (s.modVehicle n f).bay g = s.bay g := by
  unfold State.bay; rw [State.modVehicle_bays]

theorem VehicleLaw.mark_bay (s : State) (v b : Nat) (o : Order) (st : VState) (hs : (s.vehicle v).state = st) (ho : o.transferBay st = some b) :
    (s.markFor v o).bay b = { s.bay b with mark := some v } := by
  unfold State.markFor
  rw [hs, ho]
  dsimp only
  unfold State.setMark
  rw [Law.bay_mod, if_pos rfl]
theorem VehicleLaw.mark_rest (s : State) (v : Nat) (o : Order) : (s.markFor v o).vehicles = s.vehicles ∧ (s.markFor v o).orders = s.orders ∧ (s.markFor v o).stations = s.stations ∧
    (s.markFor v o).halted = s.halted ∧ (s.markFor v o).passDue = s.passDue := by
  unfold State.markFor State.setMark
  split <;> simp
theorem VehicleLaw.review (s : State) (o : Order) : (s.reviewCallOff o).vehicles = s.vehicles ∧ (s.reviewCallOff o).bays = s.bays := by
  unfold State.reviewCallOff
  split
  · unfold State.evalCallOff
    split
    · exact ⟨rfl, rfl⟩
    · dsimp only
      split
      · next h =>
        unfold State.createOrder at h
        split at h
        · cases h; exact ⟨rfl, rfl⟩
        · cases h
      · exact ⟨rfl, rfl⟩
  · exact ⟨rfl, rfl⟩
theorem VehicleLaw.leave (s : State) (b n : Nat) : (s.leaveBay b n).vehicles = s.vehicles ∧ (s.leaveBay b n).orders = s.orders ∧ (s.leaveBay b n).routes = s.routes ∧
    (s.leaveBay b n).halted = s.halted ∧ (s.leaveBay b n).progressTimeout = s.progressTimeout ∧ (s.leaveBay b n).stands = s.stands := by
  have : ∀ (l : List Nat) (i : Nat) (u : State), (State.relevel b i l u).vehicles = u.vehicles ∧ (State.relevel b i l u).orders = u.orders ∧ (State.relevel b i l u).routes = u.routes ∧
    (State.relevel b i l u).halted = u.halted ∧ (State.relevel b i l u).progressTimeout = u.progressTimeout ∧ (State.relevel b i l u).stands = u.stands := by
    intro l
    induction l with
    | nil => intro i u; exact ⟨rfl, rfl, rfl, rfl, rfl, rfl⟩
    | cons r rs ih =>
      intro i u
      unfold State.relevel
      obtain ⟨h1, h2, h3, h4, h5, h6⟩ := ih (i + 1) (u.modRoll r ({ · with loc := .bay b i }))
      rw [h1, h2, h3, h4, h5, h6]
      simp
  obtain ⟨h1, h2, h3, h4, h5, h6⟩ := this ((s.bay b).stack.erase n) 1 (s.modBay b ({ · with stack := (s.bay b).stack.erase n }))
  exact ⟨h1, h2, h3, h4, h5, h6⟩
theorem VehicleLaw.leave_roll (s : State) (b n r : Nat) (z : Roll) (h : s.roll r = some z) : ∃ l, (s.leaveBay b n).roll r = some { z with loc := l } := by
  have : ∀ (l : List Nat) (i : Nat) (u : State) (z : Roll), u.roll r = some z → ∃ l', (State.relevel b i l u).roll r = some { z with loc := l' } := by
    intro l
    induction l with
    | nil => intro i u z hz; exact ⟨z.loc, hz⟩
    | cons k ks ih =>
      intro i u z hz
      unfold State.relevel
      by_cases hk : r = k
      · have : (u.modRoll k ({ · with loc := .bay b i })).roll r = some { z with loc := .bay b i } := by
          rw [roll_modRoll, if_pos hk, ← hk, hz]; rfl
        obtain ⟨l', h'⟩ := ih (i + 1) _ _ this
        exact ⟨l', h'⟩
      · have : (u.modRoll k ({ · with loc := .bay b i })).roll r = some z := by
          rw [roll_modRoll, if_neg hk, hz]
        exact ih (i + 1) _ _ this
  exact this _ 1 _ z (by unfold State.roll; rw [State.modBay_rolls]; exact h)
theorem VehicleLaw.leave_bay (s : State) (b n c : Nat) : (s.leaveBay b n).bay c = if c = b then { s.bay b with stack := (s.bay b).stack.erase n } else s.bay c := by
  have : ∀ (l : List Nat) (i : Nat) (u : State), (State.relevel b i l u).bays = u.bays := by
    intro l
    induction l with
    | nil => intro i u; rfl
    | cons r rs ih => intro i u; unfold State.relevel; rw [ih]; simp
  have h2 : (s.leaveBay b n).bay c = (s.modBay b ({ · with stack := (s.bay b).stack.erase n })).bay c := by
    unfold State.leaveBay State.bay
    dsimp only
    show Tbl.get (State.relevel _ _ _ _).bays _ _ = _
    rw [this]
  rw [h2, Law.bay_mod]
theorem VehicleLaw.marks (s : State) (v b : Nat) : ∃ m, (s.clearMarks v).bay b = { s.bay b with mark := m } ∧ m ≠ some v := by
  have e : ∀ (ns : List Nat) (u : State), (u.each ns fun b s => (s.modBay b ({ · with mark := none })).notice).bay b =
      if b ∈ ns then { u.bay b with mark := none } else u.bay b := by
    intro ns
    induction ns with
    | nil => intro u; rfl
    | cons k ks ih =>
      intro u
      show ((State.notice (u.modBay k ({ · with mark := none }))).each ks _).bay b = _
      rw [ih]
      have : (State.notice (u.modBay k ({ · with mark := none }))).bay b = if b = k then { u.bay k with mark := none } else u.bay b := Law.bay_mod u k b ({ · with mark := none })
      rw [this]
      by_cases hk : b = k
      · subst hk; simp
      · rw [if_neg hk]; simp [hk]
  unfold State.clearMarks
  rw [e]
  split
  · exact ⟨none, rfl, by simp⟩
  · next hm =>
    refine ⟨(s.bay b).mark, rfl, fun h => hm ?_⟩
    have : ∃ y, s.bays.find b = some y ∧ y.mark = some v := by
      unfold State.bay Tbl.get at h
      cases hf : s.bays.find b with
      | none => rw [hf] at h; cases h
      | some y => rw [hf] at h; exact ⟨y, rfl, h⟩
    obtain ⟨y, h1, h2⟩ := this
    exact List.mem_map.mpr ⟨(b, y), List.mem_filter.mpr ⟨Tbl.mem_of_find h1, by simpa using h2⟩, rfl⟩
theorem VehicleLaw.marks_rolls (s : State) (v : Nat) : (s.clearMarks v).rolls = s.rolls ∧ (s.clearMarks v).stands = s.stands ∧ (s.clearMarks v).nodes = s.nodes ∧ (s.clearMarks v).routes = s.routes ∧
    (s.clearMarks v).halted = s.halted ∧ (s.clearMarks v).progressTimeout = s.progressTimeout := by
  unfold State.clearMarks
  refine ⟨?_, ?_, ?_, ?_, ?_, ?_⟩
  · apply RollsAfter.each State.rolls; intro _ _; rfl
  · apply RollsAfter.each State.stands; intro _ _; rfl
  · apply RollsAfter.each State.nodes; intro _ _; rfl
  · apply RollsAfter.each State.routes; intro _ _; rfl
  · apply RollsAfter.each State.halted; intro _ _; rfl
  · apply RollsAfter.each State.progressTimeout; intro _ _; rfl
theorem VehicleLaw.relHeld (s : State) (v : Nat) (kept : Nat → Bool) : (∃ hl wt pg, (s.releaseHeld v kept).vehicle v = { s.vehicle v with held := hl, waiting := wt, progress := pg }) ∧
    (s.releaseHeld v kept).rolls = s.rolls ∧ (s.releaseHeld v kept).bays = s.bays ∧ (s.releaseHeld v kept).stands = s.stands ∧ (s.releaseHeld v kept).orders = s.orders := by
  unfold State.releaseHeld
  dsimp only
  have e : ∀ (ns : List Nat) (u : State), (∃ hl wt pg, (u.each ns fun g s => s.releaseSegment g).vehicle v = { u.vehicle v with held := hl, waiting := wt, progress := pg }) := by
    intro ns
    induction ns with
    | nil => intro u; exact ⟨_, _, _, rfl⟩
    | cons k ks ih =>
      intro u
      obtain ⟨hl, wt, pg, h1⟩ := ih (u.releaseSegment k)
      refine ⟨hl, wt, pg, ?_⟩
      show ((u.releaseSegment k).each ks _).vehicle v = _
      rw [h1, VehicleLaw.release_vehicle]
      split <;> rfl
  have R : ∀ (u : State) (g : Nat), (u.releaseSegment g).rolls = u.rolls ∧ (u.releaseSegment g).bays = u.bays ∧ (u.releaseSegment g).stands = u.stands ∧ (u.releaseSegment g).orders = u.orders := by
    intro u g
    unfold State.releaseSegment State.syncProgress State.restartProgress State.sendVehicle State.sendVehicleKept State.sendKept
    repeat' split
    all_goals simp
  obtain ⟨hl, wt, pg, h1⟩ := e ((s.vehicle v).held.filter (!kept ·)) (s.modVehicle v ({ · with held := (s.vehicle v).held.filter kept }))
  refine ⟨⟨hl, wt, pg, ?_⟩, ?_, ?_, ?_, ?_⟩
  · rw [h1, Law.vehicle_mod, if_pos rfl]
  · rw [RollsAfter.each State.rolls _ (fun n s => (R s n).1)]; simp
  · rw [RollsAfter.each State.bays _ (fun n s => (R s n).2.1)]; simp
  · rw [RollsAfter.each State.stands _ (fun n s => (R s n).2.2.1)]; simp
  · rw [RollsAfter.each State.orders _ (fun n s => (R s n).2.2.2)]; simp
theorem VehicleLaw.enterIdle (s : State) (v x : Nat) : (∃ hl wt, (s.enterIdle v x).vehicle v = { s.vehicle v with state := .idle, prev := none, cause := none, pos := some (.node x), leg := none, nextRoute := none, progress := .stopped, transfer := .stopped, docked := 0, held := hl, waiting := wt }) ∧ (s.enterIdle v x).passDue = true ∧
    (s.enterIdle v x).rolls = s.rolls ∧ (∀ b, ∃ m, (s.enterIdle v x).bay b = { s.bay b with mark := m }) ∧ (s.enterIdle v x).stands = s.stands ∧ (s.enterIdle v x).orders = s.orders := by
  unfold State.enterIdle
  dsimp only
  obtain ⟨⟨hl, wt, pg, h1⟩, h2, h3, h4, h5⟩ := VehicleLaw.relHeld (s.leaveList v) v (· == ((s.node x).map Node.seg).getD 0)
  have L : (s.leaveList v).rolls = s.rolls ∧ (s.leaveList v).bays = s.bays ∧ (s.leaveList v).stands = s.stands ∧ (s.leaveList v).orders = s.orders := by
    unfold State.leaveList; split <;> simp
  generalize (s.leaveList v).releaseHeld v (· == ((s.node x).map Node.seg).getD 0) = t at *
  refine ⟨⟨hl, wt, ?_⟩, rfl, ?_, fun b => ?_, ?_, ?_⟩
  · refine Eq.trans (Law.vehicle_mod (t.clearMarks v) v v (fun y => { y with
      state := .idle, prev := none, cause := none, pos := some (.node x), leg := none, nextRoute := none, progress := .stopped, transfer := .stopped, docked := 0 })) ?_
    rw [if_pos rfl]
    have : (t.clearMarks v).vehicle v = t.vehicle v := by unfold State.vehicle; rw [(VehicleLaw.clearMarks_rest _ _).1]
    rw [this, h1, VehicleLaw.leave_vehicle, if_pos rfl]
  · show (t.clearMarks v).rolls = _
    rw [(VehicleLaw.marks_rolls _ _).1, h2, L.1]
  · obtain ⟨m, e, _⟩ := VehicleLaw.marks t v b
    refine ⟨m, ?_⟩
    show (t.clearMarks v).bay b = _
    rw [e]
    unfold State.bay
    rw [h3, L.2.1]
  · show (t.clearMarks v).stands = _
    rw [(VehicleLaw.marks_rolls _ _).2.1, h4, L.2.2.1]
  · show (t.clearMarks v).orders = _
    rw [(VehicleLaw.clearMarks_rest _ _).2.2.2.2, h5, L.2.2.2]
theorem VehicleLaw.freed (s : State) (n v : Nat) (o : Order) (h : s.order n = some o) (hv : o.vehicle = some v) (hn : (s.vehicle v).order = some n) :
    (∃ p, (s.freeOrder n).vehicle v = { s.vehicle v with order := none, prev := p }) ∧ (s.freeOrder n).bays = s.bays ∧
    ∀ st a, ((s.freeOrder n).stand st).arm a = { (s.stand st).arm a with callOff := (((s.freeOrder n).stand st).arm a).callOff } := by
  have D : (s.dropRoll n o).bays = s.bays ∧ (s.dropRoll n o).stands = s.stands := by
    unfold State.dropRoll State.release State.unlink; repeat' split
    all_goals simp
  have W : ∀ u : State, (u.withdrawBay n o).bays = u.bays ∧ (u.withdrawBay n o).stands = u.stands := by
    intro u; unfold State.withdrawBay; split <;> simp
  have C : ∀ u : State, (u.clearLink n o).bays = u.bays := by
    intro u; unfold State.clearLink State.setCallOff; repeat' split
    all_goals simp
  have V : ∀ u : State, (u.freeVehicle n o).bays = u.bays ∧ (u.freeVehicle n o).stands = u.stands := by
    intro u; unfold State.freeVehicle State.unlinkVehicle; repeat' split
    all_goals simp
  unfold State.freeOrder
  rw [h]
  dsimp only
  generalize ht : (((s.dropRoll n o).withdrawBay n o).clearLink n o) = t
  have tv : t.vehicles = s.vehicles := by rw [← ht, (OrderLaw.clear_rest _ _ _).2.2.1, (OrderLaw.with_rest _ _ _).2.2.1, (OrderLaw.drop_rest _ _ _).2.2.1]
  refine ⟨?_, ?_, fun st a => ?_⟩
  · have e1 : (((t.freeVehicle n o).putOrder n none).reviewCallOff o).vehicle v = (t.freeVehicle n o).vehicle v := by
      unfold State.vehicle; rw [(VehicleLaw.review _ _).1]; rfl
    rw [e1]
    unfold State.freeVehicle
    rw [hv]
    dsimp only
    have : t.vehicle v = s.vehicle v := by unfold State.vehicle; rw [tv]
    rw [this, if_pos hn]
    unfold State.unlinkVehicle
    rw [Law.vehicle_mod, if_pos rfl, this]
    exact ⟨_, rfl⟩
  · rw [(VehicleLaw.review _ _).2]
    show (t.freeVehicle n o).bays = _
    rw [(V _).1, ← ht, C, (W _).1, D.1]
  · have e1 : Law.standBare st (((t.freeVehicle n o).putOrder n none).reviewCallOff o) = Law.standBare st s := by
      rw [BareStand.reviewCallOff]
      have : Law.standBare st ((t.freeVehicle n o).putOrder n none) = Law.standBare st t := BareStand.stands (V _).2 _
      rw [this, ← ht, BareStand.clearLink, BareStand.stands (W _).2, BareStand.stands D.2]
    have : ∀ x y : Stand, Law.withoutCallOffs y = Law.withoutCallOffs x → y.arm a = { x.arm a with callOff := (y.arm a).callOff } := by
      intro x y hxy
      cases a
      · have := congrArg Stand.armA hxy
        unfold Law.withoutCallOffs at this
        dsimp only at this
        show y.armA = { x.armA with callOff := y.armA.callOff }
        generalize y.armA = p at *; generalize x.armA = q at *
        cases p; cases q; cases this; rfl
      · have := congrArg Stand.armB hxy
        unfold Law.withoutCallOffs at this
        dsimp only at this
        show y.armB = { x.armB with callOff := y.armB.callOff }
        generalize y.armB = p at *; generalize x.armB = q at *
        cases p; cases q; cases this; rfl
    exact this _ _ e1

theorem VehicleLaw.works {s : State} {v m : Nat} {o : Order} (h1 : (s.vehicle v).order = some m) (h2 : s.order m = some o) (h3 : o.abort = false) : s.workingOrder v = some m := by
  unfold State.workingOrder
  rw [h1]
  simp [Option.filter, h2, h3]
theorem VehicleLaw.noWork {s : State} {v : Nat} (h : ∀ m o, ¬ ((s.vehicle v).order = some m ∧ s.order m = some o ∧ o.abort = false)) : s.workingOrder v = none := by
  unfold State.workingOrder
  cases h1 : (s.vehicle v).order with
  | none => rfl
  | some m =>
    cases h2 : s.order m with
    | none => simp [Option.filter, h2]
    | some o =>
      cases h3 : o.abort with
      | false => exact absurd ⟨h1, h2, h3⟩ (h m o)
      | true => simp [Option.filter, h2, h3]
theorem VehicleLaw.stall (u : State) (v : Nat) (c : StallCause) (p : Option VState) (h1 : (u.vehicle v).state ≠ .stalled) (h2 : (u.vehicle v).state ≠ .outOfService) :
    (u.stall v c p).vehicle v = { u.vehicle v with state := .stalled, prev := some (p.getD (u.vehicle v).state), cause := some c, progress := .stopped, transfer := .stopped, docked := 0 } ∧
    (u.stall v c p).attn = (u.raise .vehicleStalled v).attn ∧ (u.stall v c p).orders = u.orders ∧ (u.stall v c p).rolls = u.rolls ∧
    ∀ b, ((u.stall v c p).bay b).mark ≠ some v := by
  refine ⟨?_, ?_, ?_, ?_, fun b => ?_⟩
  · rw [VehicleLaw.stall_vehicle, if_pos ⟨rfl, h1, h2⟩]
  · rw [VehicleLaw.stall_attn, if_neg (by rintro (a | a); exact h1 a; exact h2 a)]
  · unfold State.stall; dsimp only; rw [if_neg (by rintro (a | a); exact h1 a; exact h2 a)]
    rw [State.raise_orders, State.modVehicle_orders, (VehicleLaw.clearMarks_rest _ _).2.2.2.2]
  · unfold State.stall; dsimp only; rw [if_neg (by rintro (a | a); exact h1 a; exact h2 a)]
    rw [State.raise_rolls, State.modVehicle_rolls, (VehicleLaw.marks_rolls _ _).1]
  · unfold State.stall; dsimp only; rw [if_neg (by rintro (a | a); exact h1 a; exact h2 a)]
    unfold State.bay
    rw [State.raise_bays, State.modVehicle_bays]
    obtain ⟨m, e1, e2⟩ := VehicleLaw.marks u v b
    unfold State.bay at e1
    rw [e1]
    exact e2
theorem VehicleLaw.fail (s : State) (n v : Nat) (o : Order) (h : s.order n = some o) (hv : o.vehicle = some v) (hn : (s.vehicle v).order = some n) :
    ∃ q, (s.failOrder n).order n = some q ∧ q.state = .failed ∧ q.deadline = none ∧ q.roll = o.roll ∧ q.vehicle = some v ∧ q.seq = o.seq ∧
    (∃ p, (s.failOrder n).vehicle v = { s.vehicle v with order := none, prev := p }) ∧ (s.failOrder n).attn = (s.raise .orderFailed n).attn := by
  unfold State.failOrder
  rw [h]
  dsimp only
  obtain ⟨q2, b1, b2, b3⟩ := OrderLaw.with_order s n o o h
  have wa : (s.withdrawBay n o).attn = s.attn := by unfold State.withdrawBay; split <;> simp
  have wv : (s.withdrawBay n o).vehicles = s.vehicles := (OrderLaw.with_rest _ _ _).2.2.1
  generalize s.withdrawBay n o = w at *
  have ca : (w.clearLink n o).attn = w.attn := by
    unfold State.clearLink State.setCallOff; repeat' split
    all_goals simp
  have cv : (w.clearLink n o).vehicles = w.vehicles := (OrderLaw.clear_rest _ _ _).2.2.1
  have co : (w.clearLink n o).orders = w.orders := OrdersAfter.clearLink _ _ _
  generalize w.clearLink n o = c at *
  have fv : ∃ p, (c.freeVehicle n o).vehicle v = { s.vehicle v with order := none, prev := p } := by
    unfold State.freeVehicle
    rw [hv]
    dsimp only
    have : c.vehicle v = s.vehicle v := by unfold State.vehicle; rw [cv, wv]
    rw [this, if_pos hn]
    unfold State.unlinkVehicle
    rw [Law.vehicle_mod, if_pos rfl, this]
    exact ⟨_, rfl⟩
  have fa : (c.freeVehicle n o).attn = c.attn := by
    unfold State.freeVehicle State.unlinkVehicle; repeat' split
    all_goals simp
  have fo : (c.freeVehicle n o).orders = c.orders := OrdersAfter.freeVehicle _ _ _
  generalize c.freeVehicle n o = f at *
  obtain ⟨p, fv⟩ := fv
  generalize hg : (fun x : Order => { x with state := .failed, noStock := false, noBay := false, noRoute := false, abort := false, deadline := none, dest := none }) = g
  have RA : ∀ u : State, (u.reviewCallOff o).attn = u.attn := by
    intro u
    unfold State.reviewCallOff
    split
    · unfold State.evalCallOff
      split
      · rfl
      · dsimp only
        split
        · next h =>
          unfold State.createOrder at h
          split at h
          · cases h; rfl
          · cases h
        · rfl
    · rfl
  have f1 : f.order n = some q2 := by unfold State.order; rw [fo, co]; exact b1
  have m1 : ((f.modOrder n g).raise .orderFailed n).order n = some (g q2) := by
    show (f.modOrder n g).order n = _
    rw [Law.order_mod, if_pos rfl, f1]; rfl
  refine ⟨g q2, (Law.review_order _ o n).1 _ m1, by rw [← hg], by rw [← hg], ?_, ?_, ?_, ⟨p, ?_⟩, ?_⟩
  · rw [← hg, b2]
  · rw [← hg, b2]; exact hv
  · rw [← hg, b2]
  · have : (((f.modOrder n g).raise .orderFailed n).reviewCallOff o).vehicle v = f.vehicle v := by
      unfold State.vehicle; rw [(VehicleLaw.review _ _).1, State.raise_vehicles, State.modOrder_vehicles]
    rw [this, fv]
  · rw [RA]
    unfold State.raise
    dsimp only
    rw [State.modOrder_attn, fa, ca, wa]

end Sys2Proof.Machine
end

