-- ==== Sys2Proof/Machine/Receiver.lean ====
section
/-! DEFINITION. What the part receives on the station line: the characters its samples decide (R157, R158), the frame they assemble
(R159, R160, R176), and the command of the table that each brings (R162, R164, R169, R178). The commands reach the queue from outside, so
no step reads these definitions (DESIGN CHOICE, notes/assumptions/6.md). -/

namespace Sys2Proof.Machine

/-! ## Characters (R158) -/

/-- What the receiver makes of a start bit and the ten bits after it (R158). -/
inductive CharRead
  | falseStart
  | bad
  | good (b : Byte) (mark : Bool)
deriving DecidableEq, Repr

/-- A bit is decided 1. -/
def BitRead.isHigh : BitRead → Bool
  | .high => true
  | .low | .noise => false

/-- A character read from the decisions of its start bit and of its data, mark and stop bits: noise on any bit, or a stop bit of 0, makes
it bad (R157, R158). -/
def readChar (start : BitRead) (bits : List BitRead) : CharRead :=
  match start with
  | .high => .falseStart
  | .noise => .bad
  | .low =>
    if bits.contains .noise || bits[9]? != some .high then .bad
    else .good (BitVec.ofNat 8 (bitsNat ((bits.take 8).map BitRead.isHigh))) ((bits[8]?.map BitRead.isHigh).getD false)

/-- The decision of a bit of 16 samples: on samples 7, 8 and 9, numbered from 1 (R158). -/
def decideBit (samples : List Bool) : BitRead :=
  match samples.drop 6 with
  | a :: b :: c :: _ => readBit a b c
  | _ => .noise

/-- The decisions of some bits from their beginning. -/
def decideBits : Nat → List Bool → List BitRead
  | 0, _ => []
  | n + 1, samples => decideBit samples :: decideBits n (samples.drop 16)

/-- The samples from the first 0 that follows a 1, where the receiver looks for a start bit (R158). -/
def fromFall : Bool → List Bool → List Bool
  | _, [] => []
  | before, b :: bs => if before && !b then b :: bs else fromFall b bs

/-- The level of the last of some samples. -/
def lastLevel (n : Nat) (samples : List Bool) : Bool := ((samples.take n).getLast?).getD true

/-- The characters the receiver reads from the samples of the line, with the level before them. It looks past a false start from its
decision, and past a character from the decision of its stop bit (R158). The number bounds the characters. -/
def receive : Nat → Bool → List Bool → List CharRead
  | 0, _, _ => []
  | n + 1, before, samples =>
    let start := fromFall before samples
    if start.length < 169 then []
    else
      match readChar (decideBit start) (decideBits 10 (start.drop 16)) with
      | .falseStart => .falseStart :: receive n (lastLevel 9 start) (start.drop 9)
      | c => c :: receive n (lastLevel 169 start) (start.drop 169)

/-! ## Report frames (R169, R176, R178) -/

/-- What a station's frame says. -/
structure ReportFrame where
  addr : Nat
  kind : Nat
  more : Bool
  content : List Byte
deriving DecidableEq, Repr

/-- A complete frame of a station read: the length its third byte gives, at most 40, and the check over the bytes before it (R159,
R160); the kind is in bits 0 to 6 of its byte and MORE in bit 7 (R176). -/
def readFrame (bs : List Byte) : Option ReportFrame :=
  match bs with
  | a :: k :: n :: rest =>
    let content := rest.take n.toNat
    if n.toNat ≤ 40 ∧ rest.length = n.toNat + 2 ∧ rest.drop n.toNat = beBytes 2 (check16 (a :: k :: n :: content)).toNat then
      some ⟨a.toNat, k.toNat % 128, decide (128 ≤ k.toNat), content⟩
    else none
  | _ => none

/-- What a console says (R169). -/
def consoleEvents : List (Bool → Instr) := [.consoleGood, .consoleStop, .consoleRestart]

/-- A report kind is sent by a station of a role (R169). -/
def sends (r : Role) (kind : Nat) : Bool :=
  kind == 1 ||
    match r with
    | .vehicle _ => decide (2 ≤ kind ∧ kind ≤ 8)
    | .dockReader _ => kind == 9
    | .scale => kind == 10
    | .bayNode .. => kind == 11
    | .standNode _ => decide (12 ≤ kind ∧ kind ≤ 14)
    | .console _ => kind == 14 || kind == 15

/-- A role is a vehicle's. -/
def isVehicle : Role → Bool
  | .vehicle _ => true
  | .standNode _ | .bayNode .. | .dockReader _ | .scale | .console _ => false

/-- The report whose content is read: none where the length does not suit the kind, or a named value names none of its list (R164, R178).
A VEHICLE station's content begins with the order number it carries. -/
def readReport (vehicle : Bool) (kind : Nat) (more : Bool) (bs : List Byte) : Option Instr := do
  let (order, bs) ← if vehicle then getNum 1 bs else some (0, bs)
  match kind with
  | 1 => whole (.noneReply order more) bs
  | 2 => do
    let (form, bs) ← getNum 1 bs
    let (n, bs) ← getNum 1 bs
    let (bits, bs) ← getNum 1 bs
    match form with
    | 1 => whole (.position order (.node n) (bits.testBit 0) more) bs
    | 2 => whole (.position order (.segment n) (bits.testBit 0) more) bs
    | _ => none
  | 3 => one 1 (.claim order · more) bs
  | 4 => do
    let (deck, bs) ← getNamed [Deck.loaded, Deck.empty] bs
    whole (.docked order (← deck) more) bs
  | 5 => whole (.loaded order more) bs
  | 6 => whole (.unloaded order more) bs
  | 7 => one 1 (.idle order · more) bs
  | 8 => one 1 (.fault order · more) bs
  | 9 => do
    let (t, bs) ← getTag bs
    let (g, bs) ← getNum 1 bs
    let (w, bs) ← getNum 2 bs
    let (d, bs) ← getNum 2 bs
    let (kg, bs) ← getNum 2 bs
    let (bits, bs) ← getNum 1 bs
    whole (.tagRead t g w d (if bits.testBit 0 then some kg else none) more) bs
  | 10 => do
    let (t, bs) ← getTag bs
    one 2 (.scaleWeight t · more) bs
  | 11 => do
    let (hs, bs) ← getList (getNum 1) bs
    whole (.bayHeights hs more) bs
  | 12 => do
    let (arm, bs) ← getNamed arms bs
    let (after, bs) ← getNum 2 bs
    let (before, bs) ← getNum 2 bs
    whole (.prepDone (← arm) after before more) bs
  | 13 => do
    let (arm, bs) ← getNamed arms bs
    let (d, bs) ← getNum 2 bs
    let (bits, bs) ← getNum 1 bs
    whole (.stubOff (← arm) (if bits.testBit 0 then some d else none) more) bs
  | 14 => one 1 (.spliceNow · more) bs
  | 15 => do
    let (event, bs) ← getNum 1 bs
    whole ((← nameOf consoleEvents event) more) bs
  | _ => none

/-- The command a good frame of the polled station brings: the report, or a reply that suits no kind, its length or the station's role
(R164, R169). -/
def replyOf (r : Role) (f : ReportFrame) : Instr :=
  ((if sends r f.kind then readReport (isVehicle r) f.kind f.more f.content else none)).getD (.replyNotSuited f.kind f.more)

/-- A report's kind and content as its station sends them (R169, R176, R178). -/
def reportParts (vehicle : Bool) : Instr → Option (Report × Bool × List Byte)
  | .noneReply order more => some (.none_, more, if vehicle then beBytes 1 order else [])
  | .position order (.node n) passed more => some (.position, more, beBytes 1 order ++ 1 :: (beBytes 1 n ++ beBytes 1 passed.toNat))
  | .position order (.segment n) passed more => some (.position, more, beBytes 1 order ++ 2 :: (beBytes 1 n ++ beBytes 1 passed.toNat))
  | .claim order g more => some (.claim, more, beBytes 1 order ++ beBytes 1 g)
  | .docked order deck more => some (.docked, more, beBytes 1 order ++ beBytes 1 (nameByte [Deck.loaded, Deck.empty] (some deck)))
  | .loaded order more => some (.loaded, more, beBytes 1 order)
  | .unloaded order more => some (.unloaded, more, beBytes 1 order)
  | .idle order x more => some (.idle, more, beBytes 1 order ++ beBytes 1 x)
  | .fault order n more => some (.fault, more, beBytes 1 order ++ beBytes 1 n)
  | .tagRead t g w d kg more =>
    some (.tagRead, more, tagBytes t ++ beBytes 1 g ++ beBytes 2 w ++ beBytes 2 d ++ beBytes 2 (kg.getD 0) ++ beBytes 1 kg.isSome.toNat)
  | .scaleWeight t kg more => some (.scaleWeight, more, tagBytes t ++ beBytes 2 kg)
  | .bayHeights hs more => some (.bayHeights, more, beBytes 1 hs.length ++ hs.flatMap (beBytes 1))
  | .prepDone a after before more => some (.prepDone, more, beBytes 1 (nameByte arms (some a)) ++ beBytes 2 after ++ beBytes 2 before)
  | .stubOff a d more =>
    some (.stubOff, more, beBytes 1 (nameByte arms (some a)) ++ beBytes 2 (d.getD 0) ++ beBytes 1 d.isSome.toNat)
  | .spliceNow st more => some (.spliceNow, more, beBytes 1 st)
  | .consoleGood more => some (.consoleEvent, more, [1])
  | .consoleStop more => some (.consoleEvent, more, [2])
  | .consoleRestart more => some (.consoleEvent, more, [3])
  | _ => none

/-- The frame a station sends a report in (R176): MORE in bit 7 of the kind's byte. -/
def reportFrame (addr : Nat) (vehicle : Bool) (i : Instr) : Option (List Byte) :=
  (reportParts vehicle i).map fun e => stationFrame addr (e.1.toNat + 128 * e.2.1.toNat) e.2.2

/-! ## Assembly (R159, R162) -/

/-- The command a complete frame brings: late where it decides no exchange, spoiled where its check does not agree, from another address,
or the polled station's reply (R160, R162, R164). -/
def State.frameCommand (s : State) (bs : List Byte) : Instr :=
  match readFrame bs, s.receiver, s.exchange with
  | none, _, _ => .frameSpoiled .badCheck
  | some f, .frame _ true, some e =>
    if f.addr = e.addr then
      match s.station e.addr with
      | some x => replyOf x.role f
      | none => .lateReplyDiscarded
    else .replyOtherAddress f.addr
  | some _, _, _ => .lateReplyDiscarded

/-- A character taken by the receiver with the bytes of the frame under way, none while it hunts: the bytes after it, and the command it
brings (R159). -/
def State.takeChar (s : State) (got : List Byte) (c : CharRead) : List Byte × Option Instr :=
  match got, c with
  | _, .falseStart => (got, none)
  | _, .bad => ([], some (.frameSpoiled .badCharacter))
  | [], .good b mark => if mark then ([b], some (.frameStart b.toNat)) else ([], none)
  | _ :: _, .good b true => ([b], some (.frameSpoiled (.marked b.toNat)))
  | _ :: _, .good b false =>
    let bs := got ++ [b]
    match bs[2]? with
    | none => (bs, none)
    | some n =>
      if 40 < n.toNat then ([], some (.frameSpoiled .longLength))
      else if bs.length = n.toNat + 5 then ([], some (s.frameCommand bs))
      else (bs, none)

end Sys2Proof.Machine
end

