-- ==== Sys2Proof/Tests/Slice0.lean ====
section
/-! SUPPORT. The tests: ill-formed commands refused by WellFormed, request frames written out from the layouts of the spec, the spec's worked
figures, and for each statement a state and operands that meet its hypotheses. -/

namespace Sys2Proof.Tests

open Sys2Proof Sys2Proof.Machine

/-! ## Well-formedness: an ill-formed term for each check -/

theorem test_wf_refuses_registry :
    ([.lookupRoll (.byRecord 65536), .listRollsByGrade 256 1450 0, .listRollsByGrade 3 65536 0, .listRollsByGrade 3 1450 4294967296,
      .listRollsByLocation (.bay 256), .listRollsByLocation (.vehicle 256), .listRollsByLocation (.arm 256 none),
      .listRollsByLocation (.node 256 0), .listRollsByLocation (.node 1 4294967296), .announceRoll 1 256 1450 12560 none 1,
      .announceRoll 1 3 65536 12560 none 1, .announceRoll 1 3 1450 65536 none 1, .announceRoll 1 3 1450 12560 (some 65536) 1,
      .announceRoll 1 3 1450 12560 none 256, .holdRoll (.byRecord 65536) none, .releaseRoll (.byRecord 65536),
      .retireRoll (.byRecord 65536), .placeRoll (.byRecord 65536) (.bay 1), .placeRoll (.byRecord 1) (.bay 256),
      .placeRoll (.byRecord 1) (.arm 256 none)] : List Instr).all (fun i => !i.wf) = true := by decide

theorem test_wf_refuses_store_and_plans :
    ([.readBayByNumber 256, .readBayNextHeld 256, .setBay 256 1 1 none, .setBay 1 256 1 none, .setBay 1 1 256 none, .releaseBay 256,
      .setGradeConfigure 256 45 70 1100 2000, .setGradeConfigure 3 256 70 1100 2000, .setGradeConfigure 3 45 256 1100 2000,
      .setGradeConfigure 3 45 70 65536 2000, .setGradeConfigure 3 45 70 1100 65536, .setGradeClear 256 0, .setGradeClear 3 256,
      .readGrade 256, .writePlanHead 256 ⟨1, 0, 0, 0, 60, 0, none, none, 20, 0⟩, .writePlanHead 1 ⟨65536, 0, 0, 0, 60, 0, none, none, 20, 0⟩,
      .writePlanHead 1 ⟨1, 4294967296, 0, 0, 60, 0, none, none, 20, 0⟩, .writePlanHead 1 ⟨1, 0, 65536, 0, 60, 0, none, none, 20, 0⟩,
      .writePlanHead 1 ⟨1, 0, 0, 65536, 60, 0, none, none, 20, 0⟩, .writePlanHead 1 ⟨1, 0, 0, 0, 65536, 0, none, none, 20, 0⟩,
      .writePlanHead 1 ⟨1, 0, 0, 0, 60, 65536, none, none, 20, 0⟩, .writePlanHead 1 ⟨1, 0, 0, 0, 60, 0, none, none, 65536, 0⟩,
      .writePlanHead 1 ⟨1, 0, 0, 0, 60, 0, none, none, 20, 65536⟩, .writePlanPositions 256 [], .writePlanPositions 1 [⟨256, 3, 1450, 1800⟩],
      .writePlanPositions 1 [⟨7, 256, 1450, 1800⟩], .writePlanPositions 1 [⟨7, 3, 65536, 1800⟩], .writePlanPositions 1 [⟨7, 3, 1450, 65536⟩],
      .writePlanPositions 1 (List.replicate 11 ⟨7, 3, 1450, 1800⟩), .readPlan 256 none none, .changeover 256] : List Instr).all
      (fun i => !i.wf) = true := by decide

theorem test_wf_refuses_stands_and_jobs :
    ([.readStand 256, .setStand 256 1 1 300 5 200 3, .setStand 7 256 1 300 5 200 3, .setStand 7 1 256 300 5 200 3,
      .setStand 7 1 1 65536 5 200 3, .setStand 7 1 1 300 256 200 3, .setStand 7 1 1 300 5 65536 3, .setStand 7 1 1 300 5 200 256,
      .setLine 256 500 50 ⟨true, true, true, true, true⟩, .setLine 1 65536 50 ⟨true, true, true, true, true⟩,
      .setLine 1 500 256 ⟨true, true, true, true, true⟩, .openJob 65536 1, .openJob 1 256, .closeJob 65536, .readJobByNumber 65536,
      .readJobNext 65536, .retireJob 65536, .stopLine 256, .restartLine 256] : List Instr).all (fun i => !i.wf) = true := by decide

theorem test_wf_refuses_transport :
    ([.orderMove (.byRecord 65536) (.bay 1), .orderMove (.byRecord 1) (.bay 256), .orderMove (.byRecord 1) (.node 256), .cancelOrder 256,
      .readOrderByNumber 256, .readOrderNext 256, .retireOrder 256, .setServiceIn 256 1, .setServiceIn 1 256, .setServiceOut 256,
      .setServiceSettings 256 90 120, .setServiceSettings 45 256 120, .setServiceSettings 45 90 65536, .readVehicle 256,
      .setSegment 256 none, .setSegment 1 (some (.loop 256)), .setSegment 1 (some (.siding 256 1)), .setSegment 1 (some (.siding 1 256)),
      .setNode 256 none, .setNode 1 (some (256, none)), .setRoute 256 none, .setRoute 1 (some ⟨256, 1, [1], 1⟩),
      .setRoute 1 (some ⟨1, 256, [1], 1⟩), .setRoute 1 (some ⟨1, 2, [256], 1⟩), .setRoute 1 (some ⟨1, 2, [1], 65536⟩),
      .setRoute 1 (some ⟨1, 2, List.replicate 58 1, 1⟩)] : List Instr).all (fun i => !i.wf) = true := by decide

theorem test_wf_refuses_stations_and_events :
    ([.setStationConfigure 256 .scale, .setStationConfigure 1 (.vehicle 256), .setStationConfigure 1 (.standNode 256),
      .setStationConfigure 1 (.bayNode 256 1), .setStationConfigure 1 (.bayNode 1 256), .setStationConfigure 1 (.dockReader 256),
      .setStationConfigure 1 (.console 256), .setStationClear 256, .setStationSettings none 256, .readStationByAddress 256,
      .readStationNext 256, .frameSpoiled (.marked 256), .replyNotSuited 128 false, .noneReply 256 false, .position 256 (.node 1) true false,
      .position 1 (.node 256) true false, .position 1 (.segment 256) true false, .claim 256 1 false, .claim 1 256 false,
      .docked 256 .empty false, .loaded 256 false, .unloaded 256 false, .idle 256 1 false, .idle 1 256 false, .fault 256 1 false,
      .fault 1 256 false, .tagRead 1 256 1450 12560 none false, .tagRead 1 3 65536 12560 none false, .tagRead 1 3 1450 65536 none false,
      .tagRead 1 3 1450 12560 (some 65536) false, .scaleWeight 1 65536 false, .bayHeights [256] false,
      .bayHeights (List.replicate 40 0) false, .prepDone .A 65536 1 false, .prepDone .A 1 65536 false, .stubOff .A (some 65536) false,
      .spliceNow 256 false, .webPulse 0, .webPulse 5, .gateExpiry 5, .markEdge 17 .A, .markTimerExpiry 17, .pasteTimerExpiry 0,
      .webBreakPin 17, .folderJam 5, .copyPulse 5, .progressTimeout 13, .transferTimeout 0, .webBreakPinInactive 17, .folderJamInactive 0,
      .frameStart 256, .replyOtherAddress 256] : List Instr).all (fun i => !i.wf) = true := by decide

/-! ## Request frames, written out byte by byte from R177, R178 and the request set of chapter 10 -/

/-- LOOKUP_ROLL, kind 1: a tag (form 1), two digits a byte. -/
theorem test_decode_lookup : decodeRequest [1, 9, 1, 0x12, 0x34, 0x56, 0x78, 0x90, 0x12, 0x34, 0x56] =
    some (.lookupRoll (.byTag 0x1234567890123456)) := by decide

/-- HOLD_ROLL, kind 4: a record number (form 2) of two bytes, and the third hold of R2. -/
theorem test_decode_hold : decodeRequest [4, 4, 2, 1, 0xE0, 3] = some (.holdRoll (.byRecord 480) (some .operator)) := by decide

/-- ANNOUNCE_ROLL, kind 3: the weight absent is sent as 0 and its presence bit is clear. -/
theorem test_decode_announce : decodeRequest [3, 17, 0, 0, 0, 0, 0, 0, 0, 0x57, 3, 0x05, 0xAA, 0x31, 0x10, 0, 0, 1, 0] =
    some (.announceRoll 0x57 3 1450 12560 none 1) := by decide

/-- SET_BAY, kind 9: KEEP is the third setting. -/
theorem test_decode_setBay : decodeRequest [9, 4, 120, 3, 48, 3] = some (.setBay 120 3 48 (some .keep)) := by decide

/-- SET_GRADE, kind 11: the configure form, and a request of too few bytes. -/
theorem test_decode_setGrade : decodeRequest [11, 8, 1, 3, 45, 70, 0x04, 0x4C, 0x07, 0xD0] = some (.setGradeConfigure 3 45 70 1100 2000) ∧
    decodeRequest [11, 7, 1, 3, 45, 70, 0x04, 0x4C, 0x07] = none := by decide

/-- WRITE_PLAN, kind 13: POSITIONS is the second part, its list begins with its length. -/
theorem test_decode_writePlan : decodeRequest [13, 9, 2, 2, 1, 7, 3, 0x05, 0xAA, 0x07, 0x08] =
    some (.writePlanPositions 2 [⟨7, 3, 1450, 1800⟩]) := by decide

/-- SET_LINE, kind 18: the five enables from bit 0 of the last byte. -/
theorem test_decode_setLine : decodeRequest [18, 5, 2, 0x01, 0xF4, 50, 0b10001] =
    some (.setLine 2 500 50 ⟨true, false, false, false, true⟩) := by decide

/-- OPEN_JOB, kind 19. -/
theorem test_decode_openJob : decodeRequest [19, 3, 0x08, 0x03, 2] = some (.openJob 2051 2) := by decide

/-- ORDER_MOVE, kind 25: a node is the second form of destination. -/
theorem test_decode_orderMove : decodeRequest [25, 5, 2, 0, 57, 2, 48] = some (.orderMove (.byRecord 57) (.node 48)) := by decide

/-- SET_SERVICE, kind 29: SETTINGS is the third form, its margin of up to 600 takes two bytes. -/
theorem test_decode_setService : decodeRequest [29, 5, 3, 250, 250, 0x02, 0x58] = some (.setServiceSettings 250 250 600) := by decide

/-- SET_ROUTE, kind 33: the segment list begins with its length. -/
theorem test_decode_setRoute : decodeRequest [33, 9, 1, 160, 5, 2, 2, 1, 11, 0, 10] = some (.setRoute 160 (some ⟨5, 2, [1, 11], 10⟩)) := by
  decide

/-- SET_STATION, kind 36: CONFIGURE of a BAY_NODE, the third role. -/
theorem test_decode_setStation : decodeRequest [36, 5, 1, 21, 3, 31, 8] = some (.setStationConfigure 21 (.bayNode 31 8)) := by decide

/-- READ_ATTENTION, kind 40, carries no payload: a length above 0 and a kind outside 1 to 40 are not well formed. -/
theorem test_decode_readAttention : decodeRequest [40, 0] = some .readAttention ∧ decodeRequest [40, 1, 0] = none ∧
    decodeRequest [41, 0] = none := by decide

/-- No row of the command table has bits: a word spells none, and changes no state. -/
theorem test_no_table_words : decodeTableWord 0 0 = none ∧ (State.reset.withFetchWord 0 0).pending = [] := by decide

/-! ## Worked figures of the spec -/

/-- Chapter 4, Worked figures: the grade of the examples. -/
def grade3 : Grade := ⟨45, 70, 1100, 1500⟩

/-- Chapter 4, Remaining length: L(10000), L(1800), and the limits of grade 15. -/
theorem test_length_figures : grade3.length 10000 = 11084 ∧ grade3.length 1800 = 227 ∧ grade3.length 12560 = 17564 ∧
    Grade.length ⟨45, 40, 800, 1200⟩ 15000 = 44052 ∧ Grade.length ⟨45, 40, 800, 1200⟩ 1200 = 157 := by decide

/-- Chapter 4, Diameter: W 6283, and W 6716 across a counter wrap. -/
theorem test_diameter_figures : measuredDiameter 6283 500 4 = 10000 ∧ measuredDiameter 6716 500 4 = 10689 ∧
    measuredDiameter 16777215 2000 4 = 15000 := by decide

/-- Chapter 4, Standby speed: a roll of 12500 dmm timed over one revolution. -/
theorem test_speed_figures : surfaceSpeed 12500 4 785398 = 300 ∧ surfaceSpeed 12500 4 392699 = 600 := by decide

/-- Chapter 4, six samples and a reseed: the filter's steps of samples 1, 3 and 6. -/
theorem test_filter_figures : filtered 10000 9990 1100 = 9997 ∧ filtered 9997 9979 1100 = 9992 ∧ filtered 9992 9973 1100 = 9987 := by decide

/-! ## A small hall

Line 2 prints job 2051 on stand 7 with roll 57, roll 58 stands READY beside it, rolls 88 and 91 lie in bay 35, roll 60 waits at the dock
for order 1, vehicle 1 is IDLE at the parking node. The segments 1 to 3 make the loop. -/

def plan2 : Plan := ⟨some 2051, 100000, 500, 40, 1200, 300, false, true, 60, 200, [⟨7, 3, 1450, 1800⟩]⟩

def job2051 : Job :=
  { place := 1, line := 2, state := .live, good := 10, makeready := 5, splice := 0, brk := 0, changeover := 0, spliceCount := 0, breakCount := 0,
    consumedM := 100, consumedG := 6525, stripM := 0, stripG := 0, stubM := 0, stubG := 0, target := some 100000, allowance := some 500,
    excess := false, targetMet := false }

def roll57 : Roll :=
  ⟨0x1057, 3, 1450, 1, .running, .arm 7 .B, 10000, none, some 12560, none, some 2051, 6480, none, false⟩

def roll58 : Roll := ⟨0x1058, 3, 1450, 2, .ready, .arm 7 .A, 12500, none, some 12500, none, none, 0, none, false⟩

def roll60 : Roll := ⟨0x1060, 3, 1450, 5, .announced, .node 1, 12560, none, none, some 1, none, 0, none, false⟩

def roll88 : Roll := ⟨0x1088, 3, 1450, 3, .stored, .bay 35 1, 12560, some 900, none, none, none, 0, none, false⟩

def roll91 : Roll := ⟨0x1091, 3, 1450, 4, .stored, .bay 35 2, 12560, none, none, none, none, 0, none, false⟩

def bay35 : Bay := ⟨3, some 2, [88, 91], none, none, some 2, 0⟩

def bay36 : Bay := ⟨3, some 2, [], none, none, none, 0⟩

def line2 : Line := { Line.cold with working := plan2, live := plan2, v := 600, counting := .good }

def stand7 : Stand :=
  { Stand.cold with
    loading := some 3, armA := ⟨.ready, some 58, none, .clear⟩, armB := ⟨.active, some 57, none, .clear⟩, df := some 10000, ts := 1085,
    markLeft := some 4000000, seq := .running }

def order1 : Order := { Order.store 1 60 with place := 1, seq := 1 }

def vehicle1 : Vehicle := { Vehicle.cold with state := .idle, pos := some (.node 5), held := [1] }

/-- A station record of a role, POLLING, with empty lists. -/
def stationOf (place : Nat) (r : Role) : Station := ⟨place, r, false, 0, 0, [], []⟩

def hall : State :=
  { State.reset with
    attn := [], arrival := 5, orderPointer := 2, orderSeq := 1,
    rolls := [(57, roll57), (58, roll58), (60, roll60), (88, roll88), (91, roll91)],
    bays := [(35, bay35), (36, bay36)], grades := [(3, grade3)], lines := [(2, line2)], stands := [(7, stand7)],
    jobs := [(2051, job2051)], orders := [(1, order1)], vehicles := [(1, vehicle1)],
    segments := [(1, ⟨some (.loop 2), some 1, []⟩), (2, ⟨some (.loop 3), none, []⟩), (3, ⟨some (.loop 1), none, []⟩),
      (10, ⟨some (.siding 1 2), none, []⟩), (11, ⟨some (.siding 1 2), none, []⟩), (12, ⟨some (.siding 2 3), none, []⟩),
      (13, ⟨some (.siding 3 1), none, []⟩)],
    nodes := [(1, ⟨10, .dock⟩), (2, ⟨11, .aisle⟩), (3, ⟨12, .stand⟩), (4, ⟨13, .stub⟩), (5, ⟨1, .park⟩)],
    routes := [(1, ⟨5, 1, [1, 10], 10⟩), (2, ⟨1, 2, [10, 2, 3, 1, 11], 60⟩), (3, ⟨2, 3, [11, 2, 12], 30⟩), (4, ⟨5, 2, [1, 11], 12⟩)],
    stations := [(1, stationOf 1 (.vehicle 1)), (7, stationOf 2 (.standNode 7)), (21, stationOf 3 (.bayNode 35 2)),
      (30, stationOf 4 (.dockReader 1)), (31, stationOf 5 .scale), (32, stationOf 6 (.console 2))] }

/-- A state in which the station of an address gives a good reply. -/
def State.repliedBy (s : State) (a : Nat) : State :=
  { s with exchange := some ⟨a, true, 15000, 1, .k38⟩, receiver := .frame a true }

/-- The exchange of such a state. -/
def ex (a : Nat) : Exchange := ⟨a, true, 15000, 1, .k38⟩

/-- An idle port in a running part takes any request. -/
theorem test_hall_takes (i : Instr) : hall.takes i = true := rfl

/-- Each station's good reply is heard. -/
theorem test_hall_hears :
    (State.repliedBy hall 1).hears (ex 1) (stationOf 1 (.vehicle 1)) ∧ (State.repliedBy hall 7).hears (ex 7) (stationOf 2 (.standNode 7)) ∧
    (State.repliedBy hall 21).hears (ex 21) (stationOf 3 (.bayNode 35 2)) ∧
    (State.repliedBy hall 30).hears (ex 30) (stationOf 4 (.dockReader 1)) ∧ (State.repliedBy hall 31).hears (ex 31) (stationOf 5 .scale) ∧
    (State.repliedBy hall 32).hears (ex 32) (stationOf 6 (.console 2)) :=
  ⟨⟨rfl, rfl, rfl⟩, ⟨rfl, rfl, rfl⟩, ⟨rfl, rfl, rfl⟩, ⟨rfl, rfl, rfl⟩, ⟨rfl, rfl, rfl⟩, ⟨rfl, rfl, rfl⟩⟩

/-- The state after a command; the reset state where there is none. -/
def after (i : Instr) (s : State) : State :=
  match exec i s with
  | .next t => t
  | .fault _ => .reset
  | .refused _ => .reset

/-- A property of every value an option may hold, seen from its value. -/
theorem all_some {α : Type} {o : Option α} {p : α → Prop} [∀ x, Decidable (p x)] (h : o.all (fun x => decide (p x)) = true) :
    ∀ x, o = some x → p x := by
  intro x e
  subst e
  simpa using h

/-- A property of every record of a table, seen from its list. -/
theorem all_find {α : Type} {t : Tbl α} {p : α → Prop} [∀ x, Decidable (p x)] (h : t.all (fun e => decide (p e.2)) = true) :
    ∀ n x, t.find n = some x → p x := by
  intro n x e
  simpa using (List.all_eq_true.mp h) _ (Tbl.mem_of_find e)

/-! ## What single commands do in the hall -/

/-- R16: an operator hold is set. -/
theorem test_holdRoll : (after (.holdRoll (.byRecord 88) (some .operator)) hall).roll 88 = some { roll88 with hold := some .operator } := by
  decide

/-- R23: the roll above a retired one moves down a level. -/
theorem test_retireRoll : ((after (.retireRoll (.byTag 0x1088)) hall).bay 35).stack = [91] ∧
    ((after (.retireRoll (.byTag 0x1088)) hall).roll 91).map Roll.loc = some (.bay 35 1) := by decide

/-- R172, R177: the BUSY and OK frames begin with the status and the kind echo. -/
theorem test_read_answer : (after (.readTransaction 3) (after (.stopLine 2) hall)).shifted = [0, 23, 0] ∧
    (after (.readTransaction 3) (after (.stopLine 2) hall)).port.state = .idle ∧
    (after (.readTransaction 2) (after (.stopLine 2) hall)).port.state = .answer := by decide

/-- R98: STOP_LINE puts the line in BREAK, STOP and BRAKE rise, one break is counted and LINE_BREAK is raised. -/
theorem test_stopLine : ((after (.stopLine 2) hall).line 2).inBreak = true ∧ ((after (.stopLine 2) hall).line 2).counting = .brk ∧
    (after (.stopLine 2) hall).edges = [⟨.stop 2, true⟩, ⟨.brake 7, true⟩] ∧
    ((after (.stopLine 2) hall).job 2051).map Job.breakCount = some 1 ∧ (after (.stopLine 2) hall).attn = [(9, ⟨2, 1⟩)] := by decide

/-- R110: a copy pulse in GOOD counts a good copy. -/
theorem test_copyPulse : ((after (.copyPulse 2) hall).job 2051).map Job.good = some 11 := by decide

/-- R60: the web counter wraps from 16777215 to 0. -/
theorem test_webPulse : ((after (.webPulse 2) { hall with lines := [(2, { line2 with web := 16777215 })] }).line 2).web = 0 := by decide

/-- Chapter 4, Speed: 5000, 163 and 162 pulses in a gate at 500 µm give 600, 20 and 19 m/min. -/
theorem test_gateExpiry : [5000, 163, 162, 0].map (fun n : Nat =>
    ((after (.gateExpiry 2) { hall with lines := [(2, { line2 with web := BitVec.ofNat 24 n })] }).line 2).v) = [600, 20, 19, 0] := by decide

/-- Stand 7 with a reference capture on its ACTIVE arm, the web counter now some pulses further. -/
def turned (df w : Nat) (run : RejectRun) (consumed : Nat) : State :=
  { hall with
    lines := [(2, { line2 with web := BitVec.ofNat 24 w })], micros := 1000000,
    rolls := [(57, { roll57 with diameter := df, consumed := consumed }), (58, roll58)],
    stands := [(7, { stand7 with df := some df, run := run, armB := ⟨.active, some 57, none, ⟨0, some ⟨0, some 0⟩⟩⟩ })] }

/-- Chapter 4, six samples, sample 1: W 6277 brings D_f from 10000 to 9997, charges 7 m and 456 g, and T_s is 1085. -/
theorem test_markEdge_accepts : let t := after (.markEdge 7 .B) (turned 10000 6277 .clear 6480)
    (t.stand 7).df = some 9997 ∧ (t.stand 7).ts = 1085 ∧ (t.roll 57).map Roll.consumed = some 6487 ∧
    (t.job 2051).map Job.consumedM = some 107 ∧ (t.job 2051).map Job.consumedG = some 6981 := by decide

/-- Chapter 4, sample 9: the third downward reject in a row reseeds D_f at 9799, charging 418 m, and T_s is 1041. -/
theorem test_markEdge_reseeds : let t := after (.markEdge 7 .B) (turned 9987 6157 ⟨.down, 2⟩ 6509)
    (t.stand 7).df = some 9799 ∧ (t.stand 7).run = .clear ∧ (t.stand 7).ts = 1041 ∧ (t.roll 57).map Roll.consumed = some 6927 ∧
    (t.job 2051).map Job.consumedG = some (6525 + 27274) := by decide

/-- R89: the splice makes roll 57 a STUB at D_f and roll 58 RUNNING under the live job, and a window of 40 copies begins. -/
theorem test_pasteTimerExpiry : let s := { hall with stands := [(7, { stand7 with
        seq := .pasting, drive := true, paste := true, pasteLeft := some 0, pasteLine := some 2 })] }
    let t := after (.pasteTimerExpiry 7) s
    (t.roll 57).map Roll.state = some .stub ∧ (t.roll 58).map Roll.state = some .running ∧ (t.roll 58).bind Roll.job = some 2051 ∧
    t.edges.take 2 = [⟨.paste 7, false⟩, ⟨.drive 7, false⟩] ∧ (t.line 2).counting = .splice ∧ (t.line 2).window = 40 := by decide

/-- R41, R42: two mismatching heights in a row confirm a discrepancy. -/
theorem test_bayHeights : let t := after (.bayHeights [3, 0] false) (State.repliedBy { hall with bays := [(35, { bay35 with confirm := 1 })] } 21)
    (t.bay 35).hold = some .discrepancy ∧ (t.roll 88).bind Roll.hold = some .discrepancy ∧ t.attn = [(4, ⟨88, 1⟩)] := by decide

/-- R10: a roll read at the dock takes the lowest free record and the next arrival number, and a pass assigns its order to the vehicle. -/
theorem test_tagRead : let t := after (.tagRead 0x61 3 1450 12560 none false) (State.repliedBy { hall with halted := true } 30)
    (t.roll 1).map Roll.arrival = some 6 ∧ (t.order 2).map Order.kind = some .store ∧
    (t.station 30).map Station.out = some [.accepted 9] := by decide

/-- R129: the pass of RESUME_TRANSPORT assigns order 1 to vehicle 1, which is sent TASK with both routes. -/
theorem test_resumeTransport : let t := after .resumeTransport { hall with halted := true }
    (t.order 1).map Order.state = some .assigned ∧ (t.order 1).bind Order.dest = some (.bay 35) ∧ (t.vehicle 1).state = .toPickup ∧
    (t.station 1).map Station.out = some [.task 1 1 (some 2) (some 1) (some 2)] := by decide

set_option maxRecDepth 8000 in
/-- R163, R176: a cycle begins with the station of the lowest address, polled bare with its check. -/
theorem test_poll : let t := after .poll hall
    t.exchange.map Exchange.addr = some 1 ∧ t.lineOut = [.frame (stationFrame 1 0 [])] ∧ t.cycle = [7, 21, 30, 31, 32] := by decide

/-- R165: the third miss in a row silences a station. -/
theorem test_replyWindowExpiry :
    let t := after .replyWindowExpiry { State.repliedBy { hall with stations := [(31, { stationOf 5 .scale with miss := 2 })] } 31 with
      receiver := .hunting }
    (t.station 31).map Station.silent = some true ∧ (t.station 31).map Station.reduced = some 7 ∧ t.attn = [(8, ⟨31, 1⟩)] := by decide

set_option maxRecDepth 8000 in
/-- R184: the restart leaves WARM_START with subject 2, the line with a live job in BREAK. -/
theorem test_restartPart : let t := after .restartPart hall
    t.attn = [(2, ⟨2, 1⟩)] ∧ t.startKind = .warm ∧ (t.line 2).counting = .brk ∧ (t.vehicle 1).state = .outOfService := by decide

/-- R105: closing the live job leaves the line IDLE. -/
theorem test_closeJob : ((after (.closeJob 2051) hall).job 2051).map Job.state = some .closed ∧
    ((after (.closeJob 2051) hall).line 2).counting = .idle := by decide

/-- R151, log entry 2: an expiry that the part's own time queued is void once its timer was restarted. -/
theorem test_progressTimeout_void :
    let s := { hall with
      vehicles := [(1, { vehicle1 with state := .toPickup, progress := .running 45000000 })], expiring := [.progressTimeout 1] }
    exec (.progressTimeout 1) s = .next s := rfl

/-- R90: a sample outside the tolerance returns a MATCHED stand below D_t to ARMED, late at once. -/
theorem test_markEdge_late :
    let s := { hall with
      micros := 785398,
      stands := [(7, { stand7 with seq := .matched, drive := true, df := some 1700, armA := ⟨.ready, some 58, none, ⟨0, some ⟨0, some 0⟩⟩⟩ })] }
    let t := after (.markEdge 7 .A) s
    (t.stand 7).seq = .armed ∧ (t.stand 7).lastVs = some 300 ∧ (t.stand 7).late = true ∧ t.attn = [(10, ⟨7, 1⟩)] := by decide

/-- Line 2 with a pending changeover to job 9 on stands 7 and 8, the web-break pin of stand 8 active. -/
def waiting : State :=
  { hall with
    lines := [(2, { line2 with
      pending := true, working := { plan2 with job := some 9, positions := [⟨7, 3, 1450, 1800⟩, ⟨8, 3, 1450, 1800⟩] } })]
    jobs := [(9, { job2051 with state := .opened, place := 2 }), (2051, job2051)]
    stands := [(7, stand7), (8, { Stand.cold with webBreak := true })] }

set_option maxRecDepth 8000 in
/-- R55: the pulse a changeover takes effect at is changeover waste of the new job, before a joining stand's source breaks the line. -/
theorem test_copyPulse_changeover : let t := after (.copyPulse 2) waiting
    (t.job 2051).map Job.state = some .closed ∧ (t.job 9).map Job.changeover = some 1 ∧ (t.job 9).map Job.brk = some 0 ∧
    (t.line 2).counting = .brk ∧ (t.line 2).cause = some (.webBreak 8) := by decide

/-- R58: a follow-write leaves the two copies equal. -/
theorem test_followWrite :
    let s := { hall with lines := [(2, { line2 with counting := .idle, working := { plan2 with lead := 60, job := some 9 } })] }
    let t := after (.writePlanPositions 2 [⟨8, 3, 1450, 1801⟩]) s
    (t.line 2).live = { plan2 with positions := [⟨8, 3, 1450, 1801⟩] } ∧ (t.line 2).working = (t.line 2).live := by decide

set_option maxRecDepth 8000 in
/-- R27: entry into standby leaves the bay records; R82: a warm start drops PASTE and then DRIVE. -/
theorem test_standby_and_start :
    (after .standbyEntry { hall with standby := .entering }).bays = hall.bays ∧
    (after .restartPart { hall with stands := [(7, { stand7 with seq := .pasting, drive := true, paste := true })] }).edges.take 2 =
      [⟨.paste 7, false⟩, ⟨.drive 7, false⟩] := by decide

/-! ## The receiver -/

set_option maxRecDepth 4000 in
/-- R160: the check of nine bytes of values 49 to 57. -/
theorem test_check16 : (check16 [49, 50, 51, 52, 53, 54, 55, 56, 57]).toNat = 10673 := by decide

/-- R157, R158: the character of the byte 3 with its mark, a false start, a stop bit of 0 and noise. -/
theorem test_readChar : let b : Bool → BitRead := fun x => if x then .high else .low
    readChar .low ([true, true, false, false, false, false, false, false, true, true].map b) = .good 3 true ∧
    readChar .high [] = .falseStart ∧
    readChar .low ([true, true, false, false, false, false, false, false, true, false].map b) = .bad ∧
    readChar .low (.noise :: [true, false, false, false, false, false, false, true, true].map b) = .bad := by decide

set_option maxRecDepth 4000 in
/-- R158: the same character from 16 samples of each bit, after a spike that no start bit follows. -/
theorem test_receive : receive 2 true ([false, false] ++ List.replicate 20 true ++
    [false, true, true, false, false, false, false, false, false, true, true].flatMap (List.replicate 16)) = [.falseStart, .good 3 true] := by
  decide

set_option maxRecDepth 4000 in
/-- R159, R160, R169, R176, R178: the CLAIM of segment 3 by the vehicle of station 3 on order 141, with MORE; kind 9 from a vehicle suits
no role; a check that does not agree. -/
theorem test_readFrame : let bs : List Byte := [0x03, 0x83, 0x02, 0x8D, 0x03, 0x8A, 0xFD]
    readFrame bs = some ⟨3, 3, true, [0x8D, 0x03]⟩ ∧ replyOf (.vehicle 1) ⟨3, 3, true, [0x8D, 0x03]⟩ = .claim 141 3 true ∧
    reportFrame 3 true (.claim 141 3 true) = some bs ∧ replyOf (.vehicle 1) ⟨3, 9, false, [0x8D, 0x03]⟩ = .replyNotSuited 9 false ∧
    readFrame [0x03, 0x83, 0x02, 0x8D, 0x03, 0x8A, 0xFC] = none := by decide

/-- R159: the receiver hunting takes a marked character as an address, ignores an unmarked one, and a bad one spoils the frame it would
have begun. -/
theorem test_takeChar : hall.takeChar [] (.good 3 true) = ([3], some (.frameStart 3)) ∧ hall.takeChar [] (.good 3 false) = ([], none) ∧
    hall.takeChar [] .bad = ([], some (.frameSpoiled .badCharacter)) ∧
    hall.takeChar [3, 1] (.good 41 false) = ([], some (.frameSpoiled .longLength)) := by decide

/-! ## Witnesses: for each statement with hypotheses, a state and operands that meet them, clause by clause -/

theorem test_witness_EveryStepKeepsTablesCanonical :
    { hall with pending := [.stopLine 2] }.canonical = true ∧ ∃ t, step { hall with pending := [.stopLine 2] } = .next t :=
  ⟨by decide, _, rfl⟩

theorem test_witness_EveryStepKeepsTagsAndNumbersUnique : hall.tagsDiffer ∧ hall.counted ∧ ∃ t, step hall = .next t := by
  have k1 : ∀ a ∈ hall.rolls, ∀ b ∈ hall.rolls, a.2.tag = b.2.tag → a.1 = b.1 := by decide
  have k2 : ∀ a ∈ hall.rolls, ∀ b ∈ hall.rolls, a.2.arrival = b.2.arrival → a.1 = b.1 := by decide
  exact ⟨fun m n q r hq hr h => k1 _ (Tbl.mem_of_find hq) _ (Tbl.mem_of_find hr) h,
    ⟨by decide, by decide, all_find (by decide), fun m n q r hq hr h => k2 _ (Tbl.mem_of_find hq) _ (Tbl.mem_of_find hr) h,
      all_find (by decide)⟩, _, rfl⟩

theorem test_witness_EveryStepKeepsBaysInLimit : hall.baysInLimit ∧ hall.armsLawful ∧ ∃ t, step hall = .next t := by
  have a : ∀ e ∈ hall.stands, e.2.oneActive := by unfold Stand.oneActive; decide
  have k : ∀ e ∈ hall.bays, e.2.stack.length ≤ e.2.limit ∧ e.2.limit ≤ 3 := by decide
  refine ⟨fun b => ?_, fun st => ?_, _, rfl⟩
  · show ((hall.bays.find b).getD .cold).inLimit
    cases h : hall.bays.find b with
    | none => exact ⟨Nat.le_refl 0, Nat.zero_le 3⟩
    | some x => exact k _ (Tbl.mem_of_find h)
  · show ((hall.stands.find st).getD .cold).oneActive
    cases h : hall.stands.find st with
    | none => exact fun e => by cases e
    | some x => exact a _ (Tbl.mem_of_find h)

theorem test_witness_EveryStepKeepsCountsInRange :
    hall.talliesBounded ∧ hall.stationsBounded ∧ { hall with attn := [(4, ⟨88, 255⟩)] }.attentionBounded ∧ ∃ t, step hall = .next t := by
  refine ⟨fun n j h => ?_, fun a x h => ?_, by unfold State.attentionBounded; decide, _, rfl⟩
  · exact (by unfold Job.bounded; decide : ∀ e ∈ hall.jobs, e.2.bounded) _ (Tbl.mem_of_find h)
  · exact (by unfold Station.bounded; decide : ∀ e ∈ hall.stations, e.2.bounded) _ (Tbl.mem_of_find h)

theorem test_witness_LookupRollAnswersTheRecord :
    hall.takes (.lookupRoll (.byRecord 0)) = true ∧ (RollRef.byRecord 0).ok = false ∧ (RollRef.byRecord 481).ok = false ∧
    (RollRef.byTag 0xA).ok = false ∧ (RollRef.byRecord 480).ok = true ∧ hall.resolve (.byRecord 480) = none ∧
    (RollRef.byTag 0x1088).ok = true ∧ hall.resolve (.byTag 0x1088) = some (88, roll88) ∧ hall.rolls.rising = true ∧
    roll57.grade < 256 ∧ roll57.width < 65536 ∧ roll57.arrival ≤ Config.max32 ∧ roll57.diameter < 65536 ∧
    (∀ w, roll88.weight = some w → w < 65536) ∧ (∀ m, roll57.mount = some m → m < 65536) ∧ (∀ o, roll60.order = some o → o < 256) ∧
    (∀ j, roll57.job = some j → j < 65536) ∧ roll57.consumed < 65536 :=
  ⟨rfl, by decide, by decide, by decide, by decide, by decide, by decide, by decide, by decide, by decide, by decide, by decide, by decide,
    all_some (by decide), all_some (by decide), all_some (by decide), all_some (by decide), by decide⟩

theorem test_witness_ListRollsAnswersInOrder :
    hall.takes (.listRollsByGrade 15 300 4294967295) = true ∧ placeOk (.bay 0) = false ∧ placeOk (.bay 121) = false ∧
    placeOk (.bay 120) = true ∧ placeOk (.vehicle 13) = false ∧ placeOk (.vehicle 12) = true ∧ placeOk (.arm 16 none) = false ∧
    placeOk (.arm 16 (some .B)) = true ∧ placeOk (.node 49 0) = false ∧ placeOk (.node 48 0) = true ∧
    (hall.rollsWhere fun r => r.grade == 3 && r.width == 1450 && decide (3 < r.arrival)).map Prod.fst = [91, 60] ∧
    (88 < 65536 ∧ roll88.arrival ≤ Config.max32 ∧ roll88.diameter < 65536) := by decide

theorem test_witness_ArrivingRollsAreRecorded :
    (hall.announceArgs 0x61 3 299 12560 none && hall.announceNode 1) = false ∧ (hall.announceArgs 0x61 3 300 12560 none && hall.announceNode 2) = false ∧
    (hall.announceArgs 0x1060 3 300 1100 (some 5000) && hall.announceNode 4) = true ∧ (hall.rollByTag 0x1060).isSome = true ∧
    (hall.announceArgs 0x61 3 2200 15000 (some 1) && hall.announceNode 1) = true ∧ (hall.rollByTag 0x61).isSome = false ∧
    { hall with arrival := 4294967295 }.announceRoom = false ∧ { hall with arrival := 4294967294 }.announceRoom = true ∧
    hall.freeRecord = some 1 ∧
    -- TAG_READ
    (∀ node, (stationOf 5 .scale).role ≠ .dockReader node) ∧ (stationOf 4 (.dockReader 1)).role = .dockReader 1 ∧
    hall.announceArgs 0x61 15 1450 12560 none = false ∧ hall.announceArgs 0x1060 3 1450 12560 none = true ∧
    hall.resolve (.byTag 0x1060) = some (60, roll60) ∧ roll60.readAgain 3 1450 1 = true ∧ roll60.readAgain 3 1451 1 = false ∧
    hall.resolve (.byTag 0x61) = none ∧
    -- SCALE_WEIGHT
    (stationOf 5 .scale).role = .scale ∧ hall.resolve (.byTag 0x1088) = some (88, roll88) ∧ roll60.state = .announced ∧
    roll88.state ≠ .announced :=
  ⟨by decide, by decide, by decide, by decide, by decide, by decide, by decide, by decide, by decide, (fun _ h => by cases h), rfl, by decide,
    by decide, by decide, by decide, by decide, by decide, rfl, by decide, rfl, by decide⟩

theorem test_witness_RollRecordsAreHeldReleasedAndRetired :
    let held := { roll88 with hold := some Hold.discrepancy }
    hall.takes (.holdRoll (.byRecord 88) (some .damaged)) = true ∧ (RollRef.byRecord 481).ok = false ∧ (RollRef.byRecord 480).ok = true ∧
    hall.resolve (.byRecord 480) = none ∧ hall.resolve (.byRecord 88) = some (88, roll88) ∧ roll60.order.isSome = true ∧
    -- RELEASE_ROLL
    roll88.hold = none ∧ { hall with rolls := [(88, held)] }.resolve (.byRecord 88) = some (88, held) ∧ held.hold ≠ none ∧ held.order = none ∧
    (∀ b, held.bay = some b → (hall.bay b).hold ≠ some .discrepancy) ∧
    (held.hold = some .discrepancy ∧ ∃ b, held.bay = some b ∧
      ({ hall with bays := [(35, { bay35 with hold := some .discrepancy })] }.bay b).hold = some .discrepancy) ∧
    -- RETIRE_ROLL
    hall.transferAt roll88 = false ∧ { hall with bays := [(35, { bay35 with mark := some 1 })] }.transferAt roll88 = true ∧
    roll88.loc = .bay 35 1 ∧ (hall.bay 35).stack.Nodup ∧ { roll60 with order := none }.loc = .node 1 ∧
    { roll58 with state := .staged, hold := some .damaged }.loc = .arm 7 .A ∧ (roll57.state ≠ .announced ∧ roll57.hold = none) :=
  ⟨rfl, by decide, by decide, by decide, by decide, by decide, by decide, by decide, by decide, by decide, all_some (by decide),
    ⟨rfl, 35, by decide, by decide⟩, by decide, by decide, rfl, by decide, rfl, rfl, by decide⟩

theorem test_witness_PlaceRollSetsThePlace :
    let held := { roll60 with hold := some Hold.discrepancy, order := none }
    let s := { hall with rolls := [(60, held)] }
    let e := { s with stands := [(7, { stand7 with armA := ArmRec.cold })] }
    s.takes (.placeRoll (.byRecord 60) (.bay 36)) = true ∧ destOk (.bay 0) = false ∧ destOk (.bay 121) = false ∧ destOk (.bay 120) = true ∧
    destOk (.arm 17 (some .A)) = false ∧ destOk (.arm 16 (some .A)) = true ∧ destOk (.arm 7 none) = false ∧
    s.resolve (.byRecord 480) = none ∧ s.resolve (.byRecord 60) = some (60, held) ∧ roll88.liesIn (.bay 35) = true ∧
    held.liesIn (.bay 36) = false ∧ s.mayPlace held = true ∧ s.mayPlace roll88 = false ∧ s.admitsPlace (.bay 36) = true ∧
    s.admitsPlace (.bay 37) = false ∧ held.order = none ∧ held.loc = .node 1 ∧ e.admitsPlace (.arm 7 (some .A)) = true ∧
    -- a roll in a bay; a roll on the vehicle of a FAILED order, and of a STALLED vehicle's live one
    (hall.mayPlace { roll88 with hold := some .discrepancy } = true ∧ roll88.order = none ∧ roll88.loc = .bay 35 1) ∧
    (let p := { order1 with state := .failed }
     let f := { hall with
       orders := [(1, p)], rolls := [(60, { roll60 with state := .inTransit, loc := .vehicle 1 })],
       vehicles := [(1, { vehicle1 with state := .stalled, load := some 60 })] }
     f.mayPlace { roll60 with state := .inTransit, loc := .vehicle 1 } = true ∧ f.order 1 = some p ∧ p.state = .failed) ∧
    (let p := { order1 with state := .carrying, vehicle := some 1, dest := some (.bay 35) }
     let c := { hall with
       orders := [(1, p)], rolls := [(60, { roll60 with state := .inTransit, loc := .vehicle 1 })],
       vehicles := [(1, { vehicle1 with state := .stalled, prev := some .toDrop, order := some 1, load := some 60 })] }
     c.mayPlace { roll60 with state := .inTransit, loc := .vehicle 1 } = true ∧ c.order 1 = some p ∧ p.roll = some 60 ∧ p.vehicle = some 1 ∧
       (c.vehicle 1).order = some 1 ∧ (c.vehicle 1).state = .stalled ∧ c.vehicleStation 1 = some 1 ∧
       c.station 1 = some (stationOf 1 (.vehicle 1))) := by decide

theorem test_witness_EmptyQueueIsOneMicrosecond :
    hall.pending = [] ∧ { hall with powered := false }.awake = false ∧ hall.awake = true ∧ { hall with subMs := 999 }.subMs = 999 ∧
    hall.subMs ≠ 999 ∧ hall.stands.rising = true ∧ hall.vehicles.rising = true := by decide

theorem test_witness_PartTakesNoRequest :
    { hall with standby := .standby }.awake = false ∧ { hall with powered := false }.awake = false ∧
    encodeRequest (.stopLine 2) = some [23, 1, 2] ∧ hall.awake = true ∧
    { hall with port := ⟨.answer, none, some ⟨.ok, 23, []⟩⟩ }.port.state = .answer ∧
    ({ hall with port := ⟨.working, some (.readBayByNumber 35), none⟩ }.port.state = .working ∧
      { hall with port := ⟨.working, some (.readBayByNumber 35), none⟩ }.port.held ≠ some (.stopLine 2)) ∧
    { hall with standby := .entering }.powered = true ∧ { hall with standby := .entering }.standby = .entering ∧ hall.port.state = .idle := by
  decide

theorem test_witness_RefusedRequestChangesNothing :
    encodeRequest (.stopLine 5) = some [23, 1, 5] ∧ hall.takes (.stopLine 5) = true ∧
    exec (.stopLine 5) hall = .next (after (.stopLine 5) hall) ∧
    (after (.stopLine 5) hall).port.answer = some ⟨.badArgument, 23, []⟩ ∧ Status.badArgument ≠ .ok :=
  ⟨by decide, rfl, rfl, by decide, by decide⟩

theorem test_witness_RequestTransactionIsJudged :
    hall.awake = true ∧ (23#8 ≠ 0#8) ∧ hall.port.state = .idle ∧ hall.standby = .running ∧ decodeRequest [23, 2, 2] = none ∧
    decodeRequest [23, 1, 2] = some (.stopLine 2) ∧ decodeRequest [40, 0] = some .readAttention ∧ decodeRequest [39, 0] = some .restartPart ∧
    { hall with standby := .entering }.awake = true ∧ { hall with standby := .entering }.standby = .entering ∧
    { hall with port := ⟨.working, some (.stopLine 2), none⟩ }.port.state = .working := by decide

theorem test_witness_ReadTransactionGivesTheAnswer :
    hall.awake = true ∧ { hall with port := ⟨.answer, none, some ⟨.ok, 23, []⟩⟩ }.port.state = .answer ∧
    { hall with port := ⟨.answer, none, some ⟨.ok, 23, []⟩⟩ }.port.answer = some ⟨.ok, 23, []⟩ ∧
    { hall with port := ⟨.working, some (.stopLine 2), none⟩ }.port.state = .working ∧ hall.port.state = .idle := by decide

theorem test_witness_RequestFramesRoundTrip :
    (Instr.writePlanPositions 2 [⟨7, 3, 1450, 1800⟩, ⟨16, 15, 2200, 3000⟩]).wf = true ∧
    (encodeRequest (.writePlanPositions 2 [⟨7, 3, 1450, 1800⟩, ⟨16, 15, 2200, 3000⟩])).isSome = true ∧
    (encodeRequest (.writePlanPositions 2 (List.replicate 10 ⟨7, 3, 1450, 1800⟩))).map List.length = some 65 := by decide

theorem test_witness_AttentionSetIsRaisedAndRead :
    hall.takes .readAttention = true ∧
    { hall with port := ⟨.answer, none, some ⟨.ok, 23, []⟩⟩ }.awake = true ∧
    (∃ t, exec .readAttention { hall with port := ⟨.answer, none, some ⟨.ok, 23, []⟩⟩ } = .next t) ∧
    hall.attn.find Cond.storeFull.place = none ∧
    { hall with attn := [(3, ⟨4, 255⟩)] }.attn.find Cond.storeFull.place = some ⟨4, 255⟩ ∧ (1 ≠ Cond.storeFull.place) :=
  ⟨rfl, rfl, ⟨_, rfl⟩, rfl, rfl, by decide⟩

/-! ### The Store Map -/

theorem test_witness_SetBayWritesTheBay :
    hall.takes (.setBay 120 3 2 (some .keep)) = true ∧ (∀ x, hall.node 5 = some x → x.role ≠ .aisle) ∧ (∀ x, hall.node 48 = some x → x.role ≠ .aisle) ∧
    (hall.node 2 = some ⟨11, .aisle⟩) ∧
    -- in use: bay 35 holds a stack, and the request changes its limit
    ((hall.bay 35).limit ≠ 2 ∧ (hall.bay 35).stack ≠ []) ∧
    -- an operator hold on a bay without a limit
    (HoldSetting.set ≠ .keep ∧ (0 = 0)) ∧
    -- taken: bay 36 is empty, bay 35 repeats its configuration
    ((hall.bay 36).stack = [] ∧ hall.reservedHeight 36 = 0 ∧ (hall.bay 36).mark = none ∧ (hall.bay 36).hold ≠ some .discrepancy) ∧
    ¬ ((hall.bay 35).limit ≠ 3 ∨ (hall.bay 35).aisle ≠ aisleOf 3 2) :=
  ⟨rfl, all_some (by decide), all_some (by decide), by decide, by decide, by decide, by decide, by decide⟩

theorem test_witness_ReleaseBayFreesItsRolls :
    let d := { hall with bays := [(35, { bay35 with hold := some .discrepancy }), (120, { bay36 with hold := some .discrepancy })] }
    let q := { d with stations := [(21, { stationOf 3 (.bayNode 35 2) with silent := true })] }
    hall.takes (.releaseBay 35) = true ∧ (hall.bay 35).hold ≠ some .discrepancy ∧ d.sensorOf 35 = some 21 ∧
    (q.sensorOf 35 = some 21 ∧ (q.station 21).map Station.silent = some true) ∧
    ((d.bay 35).hold = some .discrepancy ∧ (d.station 21).map Station.silent = some false ∧
      (d.bay 35).lastHeight = some (d.bay 35).stack.length) ∧
    ((d.bay 120).hold = some .discrepancy ∧ d.sensorOf 120 = none) ∧
    ({ d with bays := [(35, { bay35 with hold := some .discrepancy, lastHeight := some 3 })] }.bay 35).lastHeight ≠ some 2 := by decide

theorem test_witness_BayHeightsAreCompared :
    (stationOf 3 (.bayNode 35 2)).role = .bayNode 35 2 ∧ [2, 15].length = 2 ∧ (∀ h ∈ [2, 15], h ≤ 15) ∧
    (∀ f c, (stationOf 5 .scale).role = .bayNode f c → [2, 15].length ≠ c) ∧ (hall.bay 37).limit = 0 ∧ (hall.bay 35).limit ≠ 0 ∧
    (hall.bay 35).hold ≠ some .discrepancy ∧ 2 = (hall.bay 35).stack.length ∧ 3 ≠ (hall.bay 35).stack.length ∧ (hall.bay 35).mark = none ∧
    (hall.bay 35).confirm = 0 ∧ ({ hall with bays := [(35, { bay35 with confirm := 1 })] }.bay 35).confirm ≠ 0 ∧
    ({ hall with bays := [(35, { bay35 with mark := some 1 })] }.bay 35).mark = some 1 ∧ hall.roll 88 = some roll88 ∧
    -- the top roll RESERVED for an order, and put-aways to the bay in each state
    (let o := { order1 with kind := OrderKind.callOff, state := .assigned, vehicle := some 1, roll := some 91 }
     let s := { hall with
       rolls := [(88, roll88), (91, { roll91 with state := .reserved, order := some 1 })], orders := [(1, o)],
       vehicles := [(1, { vehicle1 with state := .toPickup, order := some 1 })] }
     (s.bay 35).stack.getLast? = some 91 ∧ (s.roll 91).bind Roll.order = some 1 ∧ s.order 1 = some o ∧ (s.vehicle 1).order = some 1 ∧
       s.orders.rising = true) ∧
    (let s := { hall with orders := [(1, { order1 with dest := some (.bay 35) }),
       (2, { order1 with state := .unloading, dest := some (.bay 35) })] }
     (s.order 1).bind Order.dest = some (.bay 35) ∧ (s.order 2).map Order.state = some .unloading ∧ roll91.order ≠ some 2) :=
  ⟨rfl, rfl, by decide, (fun _ _ h => by cases h), by decide, by decide, by decide, by decide, by decide, by decide, by decide, by decide,
    by decide, by decide, by decide, by decide⟩

/-- R32, R35: the top roll of bay 35 is selected, and the bay chosen for a roll of its kind is bay 35, for another kind bay 36, and none
for another kind once bay 36 has a reserved height. -/
theorem test_witness_RollAndBayAreChosen :
    hall.selectRoll 3 1450 = some 91 ∧ hall.selectRoll 3 1451 = none ∧ hall.chooseBay 3 1450 = some 35 ∧ hall.chooseBay 3 1451 = some 36 ∧
    { hall with orders := [(1, { order1 with dest := some (.bay 36) })] }.chooseBay 3 1451 = none := by decide

/-! ### Grades and plans -/

theorem test_witness_SetGradeWritesTheGrade :
    hall.takes (.setGradeConfigure 3 45 70 1100 1500) = true ∧ (∃ e ∈ hall.rolls, e.2.grade = 3) ∧ hall.grade 3 = ⟨45, 70, 1100, 1500⟩ ∧
    hall.grade 3 ≠ ⟨0, 0, 0, 0⟩ ∧ (∀ e ∈ hall.rolls, e.2.grade ≠ 15) ∧ (∀ p ∈ (hall.line 2).live.positions, p.grade ≠ 15) ∧
    (∀ e ∈ hall.orders, e.2.kind ≠ .callOff) ∧
    (15 ≤ 15 ∧ 30 ≤ 120 ∧ 120 ≤ 120 ∧ 40 ≤ 200 ∧ 200 ≤ 200 ∧ 800 ≤ 1600 ∧ 1600 ≤ 1600 ∧ 1200 ≤ 6000 ∧ 6000 ≤ 6000 ∧ 1600 < 6000) := by decide

theorem test_witness_WritePlanWritesTheCopies :
    let h : PlanHead := ⟨65535, 4294967295, 65535, 500, 3600, 1800, some true, some false, 300, 1000⟩
    let idle := { hall with lines := [(1, Line.cold), (2, line2)] }
    let waits := { hall with lines := [(2, { line2 with pending := true })] }
    let ps : List Position := [⟨16, 3, 2200, 3000⟩, ⟨1, 3, 300, 1200⟩]
    hall.takes (.writePlanHead 2 h) = true ∧ (h.autoRestart ≠ none ∧ h.breakBrake ≠ none) ∧ (hall.line 2).counting ≠ .idle ∧
    (hall.line 2).pending = false ∧ (idle.line 1).counting = .idle ∧ (waits.line 2).pending = true ∧
    waits.planPasses 2 ((waits.line 2).working.withHead h) = false ∧
    -- POSITIONS
    ((ps.map Position.stand).Nodup ∧ ∀ p ∈ ps, (hall.grade p.grade).caliper ≠ 0 ∧ (hall.grade p.grade).core < p.dt) ∧
    ⟨7, 3, 1450, 1800⟩ ∈ (idle.line 2).live.positions ∧ (∀ q ∈ (idle.line 2).live.positions, ∀ p ∈ ps, q.stand ≠ p.stand) := by decide

theorem test_witness_ChangeoverTakesEffect :
    let j := { job2051 with state := JobState.opened, place := 2 }
    let w := { hall with
      lines := [(2, { line2 with working := { plan2 with job := some 9 } })], jobs := [(9, j), (2051, job2051)] }
    let stopped := { w with lines := [(2, { line2 with working := { plan2 with job := some 9 }, counting := .brk, inBreak := true })] }
    hall.takes (.changeover 4) = true ∧ ((hall.line 1).working.job = none) ∧ ({ hall with lines := [(2, { line2 with pending := true })] }.line 2).pending = true ∧
    ((w.line 2).working.job = some 9 ∧ w.job 9 = some j ∧ j.state = .opened ∧ j.line = 2 ∧ (w.line 2).pending = false) ∧
    (∀ q ∈ (w.line 2).working.positions, (w.grade q.grade).caliper ≠ 0 ∧ (w.grade q.grade).core < q.dt) ∧
    (w.line 2).counting ≠ .idle ∧ (stopped.line 2).counting = .brk ∧ (hall.liveJob 2 = some 2051 ∧ hall.job 2051 = some job2051) ∧
    ¬ ({ w with grades := [] }.grade 3).caliper ≠ 0 ∧
    -- a stand of another line's live plan
    ({ w with lines := [(1, { line2 with working := { plan2 with job := some 9 } }), (2, line2)] }.line 2).live.positions =
      [⟨7, 3, 1450, 1800⟩] := by decide

/-- Stand 7 leaves line 2 and stand 8 joins it, with line 2 in BREAK; order 1 a call-off of stand 7 or of stand 8, in some state. -/
def changing (st : Nat) (x : OrderState) : State :=
  { hall with
    lines := [(2, { line2 with
      working := { plan2 with job := some 9, positions := [⟨8, 3, 1450, 1800⟩] }, counting := .brk, inBreak := true, cause := some .stopLine })]
    jobs := [(9, { job2051 with state := .opened, place := 2 }), (2051, job2051)]
    stands := [(7, { stand7 with seq := .armed, drive := true, brake := true }), (8, Stand.cold)]
    orders := [(1, { order1 with kind := .callOff, requester := .arm st .A, state := x, grade := some 3, width := some 1451 })] }

theorem test_witness_ChangedPlanMovesStandsAndOrders :
    let s := changing 7 .pending
    (hall.line 2).inBreak = false ∧ (s.line 2).inBreak = true ∧ (s.stand 7).seq ≠ .pasting ∧
    -- a call-off of a stand that stays, one that fits it and one that does not; one of a stand that left
    (s.order 1).map Order.requester = some (.arm 7 .A) ∧ s.positionOf 7 = some (2, ⟨7, 3, 1450, 1800⟩) ∧
    ((s.order 1).bind Order.grade = some 3 ∧ (s.order 1).bind Order.width ≠ some 1450) ∧
    ((changing 8 .carrying).order 1).map Order.state = some .carrying ∧ (changing 8 .carrying).positionOf 8 = none ∧
    -- the changeover
    s.takes (.changeover 2) = true ∧ (s.line 2).pending = false ∧ s.planPasses 2 (s.line 2).working = true ∧ (s.line 2).counting = .brk ∧
    (∃ p ∈ (s.line 2).live.positions, p.stand = 7) ∧ (∀ p ∈ (s.line 2).working.positions, p.stand ≠ 7) ∧
    ((s.line 1).live.positions = [] ∧ (s.line 3).live.positions = [] ∧ (s.line 4).live.positions = []) := by decide

theorem test_witness_ReadsByNumberAnswerTheRecord :
    hall.takes (.readBayByNumber 120) = true ∧ hall.job 2051 = some job2051 ∧ hall.job 65535 = none ∧ hall.order 1 = some order1 ∧
    hall.order 255 = none ∧ hall.station 1 = some (stationOf 1 (.vehicle 1)) ∧ hall.station 60 = none := by decide

theorem test_witness_ReadsOfTheNextRecordWalkUpward :
    let d := { hall with bays := [(35, { bay35 with hold := some .discrepancy }), (120, { bay36 with hold := some .discrepancy })] }
    d.canonical = true ∧ d.takes (.readBayNextHeld 35) = true ∧ (d.bay 120).hold = some .discrepancy ∧
    (∀ c, 35 < c → c < 120 → (d.bay c).hold ≠ some .discrepancy) ∧ (hall.job 2051 = some job2051 ∧ ∀ k, 2050 < k → k < 2051 → hall.job k = none) ∧
    (hall.order 1 = some order1 ∧ ∀ k, 0 < k → k < 1 → hall.order k = none) ∧
    (hall.station 7 = some (stationOf 2 (.standNode 7)) ∧ ∀ k, 6 < k → k < 7 → hall.station k = none) := by
  refine ⟨by decide, rfl, by decide, ?_, ⟨rfl, fun k h1 h2 => absurd h1 (by omega)⟩, ⟨rfl, fun k h1 h2 => absurd h1 (by omega)⟩,
    ⟨rfl, fun k h1 h2 => absurd h1 (by omega)⟩⟩
  intro c h1 h2
  simp [State.bay, Tbl.get, Tbl.find, show ¬ 35 = c by omega, show ¬ 120 = c by omega, Bay.cold]

theorem test_witness_JobsOpenCloseAndRetire :
    hall.takes (.openJob 65535 4) = true ∧ hall.job 2051 ≠ none ∧ hall.job 65535 = none ∧
    ((∀ e ∈ hall.jobs, e.2.place ≠ 2) ∧ ∃ e ∈ hall.jobs, e.2.place = 1) ∧
    -- all places taken
    (let full := { hall with jobs := (List.range 24).map fun i => (i + 1, { job2051 with place := i + 1, state := .closed }) }
     full.job 65535 = none ∧ ∀ p ∈ List.range 24, ∃ e ∈ full.jobs, e.2.place = p + 1) ∧
    -- CLOSE_JOB
    (hall.job 2051 = some job2051 ∧ job2051.state = .live) ∧ hall.station 32 = some (stationOf 6 (.console 2)) ∧
    { job2051 with state := .closed }.state ≠ .live ∧
    -- RETIRE_JOB: named by roll 57, and free to go once no roll names it
    (∃ e ∈ hall.rolls, e.2.job = some 2051) ∧
    (let done := { hall with jobs := [(9, { job2051 with state := .closed })] }
     (done.line 2).pending = false ∧ ∀ e ∈ done.rolls, e.2.job ≠ some 9) := by decide

theorem test_witness_CopyPulseCounts :
    let at_ := fun c => { hall with lines := [(2, { line2 with counting := c })] }
    let near := { hall with
      lines := [(2, { line2 with counting := .brk })], jobs := [(2051, { job2051 with brk := 4294967279 })] }
    let waits := { hall with
      lines := [(2, { line2 with pending := true, working := { plan2 with job := some 9 } })],
      jobs := [(9, { job2051 with state := .opened, place := 2 }), (2051, job2051)] }
    (hall.awake = true ∧ (hall.line 2).pending = false ∧ hall.liveJob 1 = none ∧ hall.liveJob 2 = some 2051 ∧ hall.job 2051 = some job2051) ∧
    10 + 5 + 0 + 0 + 0 + 1 < 4294967295 ∧ ((at_ .makeready).line 2).counting = .makeready ∧ ((at_ .good).line 2).counting = .good ∧
    ((at_ .splice).line 2).counting = .splice ∧ ((at_ .brk).line 2).counting = .brk ∧ ((at_ .changeover).line 2).counting = .changeover ∧
    { job2051 with makeready := 500 }.makeready + 1 > 500 ∧ { job2051 with makeready := 499 }.makeready + 1 ≤ 500 ∧
    { job2051 with good := 99999 }.target = some (99999 + 1) ∧
    -- the copy limit
    (near.liveJob 2 = some 2051 ∧ (near.line 2).counting = .brk ∧ 10 + 5 + 0 + 4294967279 + 0 + 1 = 4294967295) ∧
    -- a pending changeover
    ((waits.line 2).pending = true ∧ waits.liveJob 2 = some 2051 ∧ (waits.line 2).working.job = some 9 ∧
      (waits.job 9).map Job.state = some .opened ∧ (waits.job 2051).map Job.state = some .live) := by decide

theorem test_witness_ConsoleGoodStartsTheCount :
    (stationOf 6 (.console 2)).role = .console 2 ∧ (∀ l, (stationOf 5 .scale).role ≠ .console l) ∧
    ({ hall with lines := [(2, { line2 with counting := .makeready })] }.line 2).counting = .makeready ∧
    ((hall.line 2).counting ≠ .makeready ∧ (hall.line 2).counting ≠ .changeover) :=
  ⟨rfl, (fun _ h => by cases h), by decide, by decide⟩

theorem test_witness_RemainingLength :
    (1100 ≤ grade3.core) ∧ grade3.core < 10000 ∧ 355 * (10000 * 10000 - grade3.core * grade3.core) / (45200 * grade3.caliper) ≤ 65535 ∧
    40 ≤ grade3.caliper ∧ 800 ≤ grade3.core ∧ (⟨45, 40, 800, 1200⟩ : Grade).caliper = 40 := by decide

/-! ### Stands, splices and breaks -/

theorem test_witness_StandAndLineSettingsAreWritten :
    let quiet := { hall with lines := [(2, { line2 with v := 0 })] }
    let pinned := { hall with stands := [(7, { stand7 with webBreak := true })], lines := [(2, { line2 with enables := ⟨false, true, true, true, true⟩ })] }
    hall.takes (.setStand 7 1 1 100 20 500 3) = true ∧ hall.node 3 = some ⟨12, .stand⟩ ∧ (hall.node 48 = none) ∧
    -- m of a stand whose line runs; the offset of an ARMED one; settings repeated
    ((hall.stand 7).m ≠ 2 ∧ hall.lineOf 7 = some 2 ∧ 0 < (hall.line 2).v) ∧
    ({ hall with stands := [(7, { stand7 with seq := .armed })] }.stand 7).seq = .armed ∧
    ((hall.stand 7).m = 1 ∧ (hall.stand 7).k = 1 ∧ (hall.stand 7).offset = 300 ∧ (hall.stand 7).tol = 5 ∧ (hall.stand 7).pulse = 200 ∧
      (hall.stand 7).loading = some 3 ∧ (hall.stand 7).seq = .running) ∧
    -- SET_LINE
    hall.takes (.setLine 4 2000 200 ⟨true, true, true, true, true⟩) = true ∧ ((hall.line 2).lam ≠ 2000 ∧ 0 < (hall.line 2).v) ∧ (quiet.line 2).v = 0 ∧
    (pinned.line 2).inBreak = false ∧ 7 ∈ pinned.lineStands 2 ∧ (pinned.stand 7).webBreak = true ∧ (hall.stand 7).webBreak = false ∧
    (hall.line 2).jam = false ∧ (hall.stand 7).runout = false := by decide

theorem test_witness_GateExpiryMeasuresTheSpeed :
    let slow := { hall with lines := [(2, { line2 with web := 162, inBreak := true, counting := .brk })] }
    let fast := { hall with lines := [(2, { line2 with
      web := 600, inBreak := true, counting := .brk, lowMark := true, live := { plan2 with autoRestart := true } })] }
    hall.awake = true ∧
    (2 * 19 * 1000000 ≤ 2 * (((slow.line 2).web - (slow.line 2).gateWeb).toNat * (slow.line 2).lam * 240) + 1000000 ∧
      2 * (((slow.line 2).web - (slow.line 2).gateWeb).toNat * (slow.line 2).lam * 240) + 1000000 < 2 * (19 + 1) * 1000000) ∧
    19 < 20 ∧ 7 ∈ slow.lineStands 2 ∧ (slow.line 2).inBreak = true ∧ min 1200 19 < (slow.line 2).live.restartSpeed ∧
    (2 * 72 * 1000000 ≤ 2 * (((fast.line 2).web - (fast.line 2).gateWeb).toNat * (fast.line 2).lam * 240) + 1000000 ∧
      2 * (((fast.line 2).web - (fast.line 2).gateWeb).toNat * (fast.line 2).lam * 240) + 1000000 < 2 * (72 + 1) * 1000000) ∧
    (fast.line 2).live.restartSpeed ≤ min 1200 72 ∧ (fast.line 2).live.autoRestart = true ∧ (fast.line 2).lowMark = true ∧
    fast.mayLeave 2 = true ∧ slow.runningRoll 7 = some (57, roll57) ∧ (slow.stand 7).df = some 10000 ∧
    slow.positionOf 7 = some (2, ⟨7, 3, 1450, 1800⟩) := by decide

theorem test_witness_MarkTimerMeasures :
    let k4 := { hall with stands := [(7, { stand7 with k := 4 })] }
    hall.awake = true ∧ ((k4.stand 7).arm .B).chan.count + 1 < (k4.stand 7).k ∧
    (hall.stand 7).k ≤ ((hall.stand 7).arm .B).chan.count + 1 ∧ ((hall.stand 7).arm .B).state = .active ∧
    ((hall.stand 7).arm .B).chan.ref = none ∧ ((hall.stand 7).arm .A).state ≠ .active ∧ ((hall.stand 7).arm .A).chan.ref = none ∧
    hall.lineOf 7 = some 2 ∧ 20 ≤ (hall.line 2).v ∧ (hall.stand 7).markLeft = some 4000000 ∧ (hall.stand 7).measureLost = none ∧
    ({ hall with stands := [(7, { stand7 with seq := .matched, drive := true, measureLost := some .suspect })] }.stand 7).seq = .matched ∧
    -- a pair on the ACTIVE arm, and on the READY arm of an ARMED stand 4 s and a microsecond more after its reference
    (let c : Channel := ⟨0, some ⟨0, some 0⟩⟩
     let x := { stand7 with seq := .armed, armA := ⟨.ready, some 58, none, c⟩, armB := ⟨.active, some 57, none, c⟩ }
     let s := { hall with stands := [(7, x)], micros := 4000000 }
     ((s.stand 7).arm .B).chan.ref = some ⟨0, some 0⟩ ∧ ((s.stand 7).arm .A).state = .ready ∧
       ((s.stand 7).arm .A).chan.ref = some ⟨0, some 0⟩ ∧ (s.stand 7).seq = .armed ∧ ((s.stand 7).arm .A).roll = some 58 ∧
       s.roll 58 = some roll58 ∧ (s.micros - 0).toNat = 4000000 ∧ ({ s with micros := 4000001 }.micros - 0).toNat = 4000001) ∧
    -- a queued expiry of a timer that was restarted, and one at its end
    (Instr.markTimerExpiry 7 ∈ { hall with expiring := [.markTimerExpiry 7] }.expiring ∧ 4000000 ≠ 0 ∧
      Instr.markTimerExpiry 7 ∉ hall.expiring) := by decide

/-- The samples of chapter 4: 6277 pulses are accepted, 6400 an upward reject, 3000 a downward one, and 6157 the third in a row. -/
theorem test_witness_DiameterFilter :
    hall.lineOf 7 = some 2 ∧ hall.runningRoll 7 = some (57, roll57) ∧ (hall.stand 7).df = some 10000 ∧ 20 ≤ (hall.line 2).v ∧
    4 * (hall.stand 7).k / (hall.stand 7).m = 4 ∧ ((hall.line 2).v < 20 ∨ 15 < 16) ∧
    (2 * 9990 * (4 * 35500) ≤ 2 * (6277 * 500 * 452) + 4 * 35500 ∧ 2 * (6277 * 500 * 452) + 4 * 35500 < 2 * (9990 + 1) * (4 * 35500)) ∧
    (9990 ≤ 10000 ∧ 10000 ≤ 9990 + (hall.line 2).w ∧ (4 * 3 < 10000 - 9990 + 4 ∧ 10000 - 9990 ≤ 4 * 3 ∧ 9997 = max grade3.core (10000 - 3)) ∧
      grade3.core + (hall.stand 7).offset < 9997) ∧
    (2 * 10186 * (4 * 35500) ≤ 2 * (6400 * 500 * 452) + 4 * 35500 ∧ 10000 < 10186) ∧
    (2 * 4775 * (4 * 35500) ≤ 2 * (3000 * 500 * 452) + 4 * 35500 ∧ 4775 + (hall.line 2).w < 10000) ∧
    (9799 + (hall.line 2).w < 9987 ∧ 3 ≤ 2 + 1 ∧ 9799 = max 9799 grade3.core) ∧
    -- at the core plus the offset, with a call-off of the other arm
    (let o := { order1 with kind := .callOff, cls := .callOff, requester := .arm 7 .A }
     let s := { hall with orders := [(1, o)], stands := [(7, { stand7 with df := some 1403, armA := ⟨.empty, none, some 1, .clear⟩ })] }
     (s.stand 7).seq = .running ∧ (s.stand 7).runout = false ∧ (s.line 2).pending = false ∧ 1400 ≤ grade3.core + (s.stand 7).offset ∧
       (s.stand 7).active = some .B ∧ ((s.stand 7).arm (Arm.other .B)).callOff = some 1 ∧ s.order 1 = some o ∧
       (s.line 2).enables.runout = true ∧ (s.line 2).inBreak = false) := by decide

theorem test_witness_MatchAndSpliceNow :
    let armed := { hall with stands := [(7, { stand7 with seq := .armed, df := some 1801 })] }
    let counted := { hall with stands := [(7, { stand7 with seq := .armed, matchCount := 1, df := some 1801 })] }
    let low := { hall with stands := [(7, { stand7 with seq := .armed, matchCount := 1, df := some 1800 })] }
    let matched := { hall with stands := [(7, { stand7 with seq := .matched })] }
    armed.lineOf 7 = some 2 ∧ (armed.stand 7).seq = .armed ∧ (armed.stand 7).matchCount = 0 ∧ (595 ≤ (armed.line 2).v + 5 ∧ (armed.line 2).v ≤ 595 + 5) ∧
    ¬ (606 ≤ (armed.line 2).v + 5) ∧ (counted.stand 7).matchCount ≠ 0 ∧ counted.positionOf 7 = some (2, ⟨7, 3, 1450, 1800⟩) ∧ 1800 < 1801 ∧
    (low.stand 7).df = some 1800 ∧ (matched.stand 7).seq = .matched ∧
    -- arming at D_t plus the margin and at D_t, and a MATCHED stand below D_t
    (let at_ := fun d => { hall with stands := [(7, { stand7 with df := some d })] }
     (at_ 2000).positionOf 7 = some (2, ⟨7, 3, 1450, 1800⟩) ∧ ((at_ 2000).stand 7).seq = .running ∧
       ((at_ 2000).stand 7).measureLost = none ∧ ((at_ 2000).stand 7).active = some .B ∧
       (((at_ 2000).stand 7).arm (Arm.other .B)).state = .ready ∧ 2000 ≤ 1800 + ((at_ 2000).line 2).live.margin ∧
       ((at_ 2000).line 2).inBreak = false ∧ 20 ≤ ((at_ 2000).line 2).v ∧ ((at_ 1800).stand 7).late = false ∧ 1800 ≤ 1800) ∧
    -- SPLICE_NOW
    (stationOf 2 (.standNode 7)).role = .standNode 7 ∧ (stationOf 6 (.console 2)).role = .console 2 ∧ (stationOf 5 .scale).role = .scale ∧
    (hall.stand 7).seq ≠ .matched := by decide

theorem test_witness_SpliceSwapsTheArms :
    let x := { stand7 with seq := .pasting, pasteLeft := some 0, pasteLine := some 2 }
    let s := { hall with stands := [(7, x)] }
    let busy := { s with lines := [(2, { line2 with counting := .splice, window := 10 })] }
    let none_ := { s with lines := [(2, { line2 with counting := .brk })] }
    s.awake = true ∧ (s.stand 7).seq = .pasting ∧ (s.stand 7).pasteLeft = some 0 ∧
    Instr.pasteTimerExpiry 7 ∉ s.expiring ∧ Instr.pasteTimerExpiry 7 ∈ { s with expiring := [.pasteTimerExpiry 7] }.expiring ∧ (s.stand 7).active = some .B ∧
    ((s.stand 7).arm (Arm.other .B)).state = .ready ∧ ((s.stand 7).arm .B).roll = some 57 ∧ ((s.stand 7).arm (Arm.other .B)).roll = some 58 ∧
    57 ≠ 58 ∧ s.roll 57 = some roll57 ∧ s.roll 58 = some roll58 ∧ (s.stand 7).pasteLine = some 2 ∧
    ((s.line 2).counting ≠ .idle ∧ s.liveJob 2 = some 2051 ∧ s.job 2051 = some job2051) ∧ (s.line 2).counting = .good ∧
    (s.line 2).live.window ≠ 0 ∧ (busy.line 2).counting = .splice ∧ ((none_.line 2).counting ≠ .good ∧ (none_.line 2).counting ≠ .splice) := by
  decide

/-- Stand 7 with a STAGED roll on arm A. -/
def staged : State :=
  { hall with
    stands := [(7, { stand7 with armA := ⟨.staged, some 58, none, .clear⟩ })],
    rolls := [(57, roll57), (58, { roll58 with state := .staged, mount := none })] }

theorem test_witness_PrepDonePreparesTheRoll :
    (∀ st, (stationOf 5 .scale).role ≠ .standNode st) ∧ (stationOf 2 (.standNode 7)).role = .standNode 7 ∧
    (((hall.stand 7).arm .B).state ≠ .staged ∧ ((hall.stand 7).arm .B).state ≠ .ready) ∧ ((hall.stand 7).arm .A).state = .ready ∧
    ((hall.stand 7).arm .A).roll = some 58 ∧ hall.roll 58 = some roll58 ∧ roll58.mount = some 12500 ∧ roll58.mount ≠ some 12501 ∧
    ((staged.stand 7).arm .A).state = .staged ∧ (staged.roll 58).map Roll.hold = some none ∧ 1099 < (staged.grade 3).core ∧
    (15001 > 15000) ∧ ((staged.grade 3).core ≤ 1100 ∧ 1100 ≤ 15000 ∧ 15000 ≤ 15000) ∧ staged.lineOf 7 = some 2 ∧ staged.liveJob 2 = some 2051 :=
  ⟨(fun _ h => by cases h), rfl, by decide, rfl, rfl, rfl, rfl, by decide, rfl, by decide, by decide, by decide, by decide, by decide, by decide⟩

/-- Stand 7 with an EXPIRED stub on arm A. -/
def expired (d : Nat) : State :=
  { hall with
    stands := [(7, { stand7 with armA := ⟨.expired, some 58, none, .clear⟩ })],
    rolls := [(57, roll57), (58, { roll58 with state := .stub, diameter := d, job := some 2051 })] }

theorem test_witness_StubOffEmptiesTheArm :
    (∀ st, (stationOf 5 .scale).role ≠ .standNode st) ∧ (stationOf 2 (.standNode 7)).role = .standNode 7 ∧ 15000 < 15001 ∧
    ({ hall with stands := [(7, { stand7 with armA := ArmRec.cold })] }.stand 7).armA.roll = none ∧ 1099 < grade3.core ∧
    ((expired 1500).stand 7).armA.state = .expired ∧ ((expired 1500).stand 7).armA.roll = some 58 ∧
    ((expired 1500).roll 58).map Roll.loc = some (.arm 7 .A) ∧ 1500 ≤ grade3.threshold ∧ grade3.threshold < 1501 ∧
    (expired 1501).orderFree = true ∧ (expired 1501).nextOrderNumber = 2 ∧ { expired 1501 with orderSeq := 4294967295 }.orderFree = false ∧
    -- not taken: READY; taken in a runout: ACTIVE on a stand that ran out, its line in BREAK
    (hall.stand 7).armA.state = .ready ∧
    (let out := { hall with
      stands := [(7, { stand7 with runout := true })], lines := [(2, { line2 with inBreak := true, counting := .brk })] }
     (out.stand 7).armB.state = .active ∧ (out.stand 7).runout = true ∧ out.lineOf 7 = some 2 ∧ (out.line 2).inBreak = true) :=
  ⟨(fun _ h => by cases h), rfl, by decide, rfl, by decide, rfl, rfl, rfl, by decide, by decide, by decide, by decide, by decide, rfl,
    by decide⟩

/-- The hall with line 2 in BREAK. -/
def broken : State := { hall with lines := [(2, { line2 with inBreak := true, cause := some .stopLine, stop := true, counting := .brk })] }

theorem test_witness_BreakEntry :
    let off := { hall with lines := [(2, { line2 with enables := ⟨false, false, false, false, false⟩ })] }
    let pinned := { hall with stands := [(7, { stand7 with webBreak := true })], lines := [(2, { line2 with jam := true })] }
    hall.takes (.stopLine 4) = true ∧ (off.line 2).enables.stopLine = false ∧ (hall.line 2).enables.stopLine = true ∧ (broken.line 2).inBreak = true ∧
    (hall.line 2).inBreak = false ∧ (hall.line 2).pending = false ∧ hall.liveJob 2 = some 2051 ∧ hall.job 2051 = some job2051 ∧
    7 ∈ hall.lineStands 2 ∧ (hall.line 2).live.breakBrake = true ∧
    -- the console, and the pins
    (off.line 2).enables.console = false ∧ (hall.line 2).enables.console = true ∧ hall.awake = true ∧ (pinned.stand 7).webBreak = true ∧
    (hall.stand 7).webBreak = false ∧ hall.lineOf 7 = some 2 ∧ (off.line 2).enables.webBreak = false ∧ (hall.line 2).enables.webBreak = true ∧
    hall.lineOf 16 = none ∧ (pinned.line 2).jam = true ∧ (hall.line 2).jam = false ∧ (off.line 2).enables.jam = false ∧
    (hall.line 2).enables.jam = true ∧
    -- a PASTING stand, and a pending changeover
    (let x := { stand7 with seq := .pasting, drive := true, paste := true, pasteLeft := some 5000, pasteLine := some 2 }
     let s := { hall with stands := [(7, x)] }
     s.lineOf 7 = some 2 ∧ (s.stand 7).pasteLine = some 2 ∧ (s.stand 7).seq = .pasting ∧ (s.stand 7).active = some .B ∧
       (s.stand 7).armIn .ready = some (Arm.other .B) ∧ ((s.stand 7).arm .B).roll = some 57 ∧
       ((s.stand 7).arm (Arm.other .B)).roll = some 58) ∧
    ((waiting.line 2).pending = true ∧ waiting.jobs.rising = true ∧ waiting.liveJob 2 = some 2051 ∧
      (waiting.job 2051).isSome = true ∧ (waiting.line 2).working.job = some 9 ∧ (waiting.job 9).isSome = true) := by decide

theorem test_witness_BreakExit :
    let pinned := { broken with stands := [(7, { stand7 with webBreak := true })] }
    let ready := { broken with stands := [(7, { stand7 with armB := ArmRec.cold, seq := .idle })] }
    broken.takes (.restartLine 2) = true ∧ (hall.line 2).inBreak = false ∧
    ((broken.line 2).inBreak = true ∧ (∀ st ∈ broken.lineStands 2, (broken.stand st).webBreak = false ∧ (broken.stand st).runout = false) ∧
      (broken.line 2).jam = false) ∧
    ((pinned.line 2).enables.webBreak = true ∧ 7 ∈ pinned.lineStands 2 ∧ (pinned.stand 7).webBreak = true) ∧
    broken.liveJob 2 = some 2051 ∧
    (7 ∈ ready.lineStands 2 ∧ (ready.stand 7).active = none ∧ (ready.stand 7).armIn .ready = some .A ∧ ((ready.stand 7).arm .A).roll = some 58) ∧
    broken.awake = true := by decide

/-! ### Transport orders -/

/-- Roll 60 at the dock without its order. -/
def loose : State := { hall with rolls := [(60, { roll60 with order := none }), (88, roll88), (91, roll91)], orders := [] }

theorem test_witness_OrderMoveCreatesTheOrder :
    loose.takes (.orderMove (.byRecord 60) (.node 2)) = true ∧ (RollRef.byRecord 481).ok = false ∧
    (∃ z, loose.node 4 = some z ∧ z.role = .stub) ∧ (∃ z, loose.node 2 = some z ∧ z.role ≠ .dock ∧ z.role ≠ .stub) ∧ loose.node 48 = none ∧
    (RollRef.byRecord 480).ok = true ∧ loose.resolve (.byRecord 480) = none ∧
    loose.resolve (.byRecord 60) = some (60, { roll60 with order := none }) ∧ loose.resolve (.byRecord 91) = some (91, roll91) ∧
    roll91.loc = .bay 35 2 ∧ ((loose.bay 36).limit = 3 ∧ (loose.bay 120).limit = 0) ∧ loose.orderFree = true ∧
    { loose with orderSeq := 4294967295 }.orderFree = false ∧ (hall.roll 60).bind Roll.order = some 1 :=
  ⟨rfl, by decide, ⟨_, rfl, rfl⟩, ⟨_, rfl, by decide, by decide⟩, rfl, by decide, rfl, rfl, rfl, rfl, by decide, by decide, by decide, rfl⟩

/-- The hall with order 1 in some state, a bay its destination, vehicle 1 at work on it. -/
def working (k : OrderKind) (st : OrderState) (v : VState) (abort : Bool) : State :=
  { hall with
    orders := [(1, { order1 with
      kind := k, state := st, vehicle := some 1, dest := some (.bay 36), abort := abort })],
    vehicles := [(1, { vehicle1 with state := v, order := some 1, pos := some (.node 1), held := [10], leg := none })],
    segments := (hall.segments.put 1 (some ⟨some (.loop 2), none, []⟩)).put 10 (some ⟨some (.siding 1 2), some 1, []⟩) }

theorem test_witness_CancelOrderByState :
    hall.takes (.cancelOrder 1) = true ∧ hall.order 255 = none ∧ hall.order 1 = some order1 ∧ order1.abort = false ∧ order1.state = .pending ∧
    order1.kind ≠ .ret ∧ ((working .store .unloading .unloading false).order 1).map Order.state = some .unloading ∧
    ((working .ret .assigned .toPickup false).order 1).map Order.kind = some .ret ∧ (working .store .assigned .toPickup false).orders.rising = true ∧
    ((working .store .assigned .toPickup false).order 1).map Order.state = some .assigned ∧
    ((working .store .carrying .toDrop false).order 1).map Order.state = some .carrying ∧ { hall with halted := true }.halted = true ∧
    order1.roll = some 60 ∧ hall.roll 60 = some roll60 ∧ ((working .store .assigned .toPickup false).vehicle 1).inService = true ∧
    (working .store .assigned .toPickup false).vehicleStation 1 = some 1 ∧
    (∃ r x y, ({ order1 with kind := .ret } : Order).roll = some r ∧ hall.roll r = some x ∧ x.loc = .node y) :=
  ⟨rfl, rfl, rfl, rfl, rfl, by decide, rfl, rfl, by decide, rfl, rfl, rfl, rfl, rfl, by decide, rfl, ⟨60, roll60, 1, rfl, rfl, rfl⟩⟩

theorem test_witness_RetireOrderAndSecondTick :
    let failed := { hall with orders := [(1, { order1 with state := .failed }), (2, { order1 with state := .failed, roll := none })] }
    let dated := { hall with orders := [(1, { order1 with kind := .callOff, cls := .callOff, deadline := some 120 }),
      (2, { order1 with kind := .callOff, cls := .callOff, deadline := some 121 })] }
    hall.takes (.retireOrder 1) = true ∧ hall.order 255 = none ∧ order1.state ≠ .failed ∧ (failed.order 2).bind Order.roll = none ∧
    (failed.order 1).bind Order.roll = some 60 ∧ failed.roll 60 = some roll60 ∧ roll60.state ≠ .reserved ∧ dated.awake = true ∧
    120 ≤ dated.timeBase / 1000 + dated.urgentMargin ∧ ¬ 121 ≤ dated.timeBase / 1000 + dated.urgentMargin ∧
    -- the call-off condition: T_s at the lead beside an ACTIVE arm, and both arms EMPTY
    (let s := { hall with stands := [(7, { stand7 with ts := 1200, armA := ArmRec.cold })] }
     s.positionOf 7 = some (2, ⟨7, 3, 1450, 1800⟩) ∧ (s.stand 7).loading ≠ none ∧ s.orderFree = true ∧ (s.stand 7).active = some .B ∧
       ((s.stand 7).arm (Arm.other .B)).state = .empty ∧ ((s.stand 7).arm (Arm.other .B)).callOff = none ∧
       (s.stand 7).ts ≤ (s.line 2).live.lead) ∧
    (let s := { hall with stands := [(7, { Stand.cold with loading := some 3 })] }
     s.positionOf 7 = some (2, ⟨7, 3, 1450, 1800⟩) ∧ (s.stand 7).armA.state = .empty ∧ (s.stand 7).armB.state = .empty ∧
       (s.stand 7).armA.callOff = none ∧ (s.stand 7).armB.callOff = none) ∧
    hall.lineOf 16 = none ∧
    -- its deadline recomputed
    (let s := { hall with orders := [(1, { order1 with kind := .callOff, cls := .callOff, requester := .arm 7 .A }), (2, order1)] }
     s.lineOf 7 = some 2 ∧ (s.stand 7).active = some .B ∧ s.orders.rising = true ∧ (s.order 1).map Order.kind = some .callOff ∧
       (s.order 2).map Order.kind = some .store) := by decide

theorem test_witness_AssignmentPass :
    let two := { hall with orders := [(1, order1), (2, { order1 with cls := .urgent, seq := 2 })] }
    two.orders.rising = true ∧ two.queue = [2, 1] ∧ hall.eligible 1 1 = true ∧ hall.eligible 3 1 = false ∧ hall.nearest 1 = some 1 ∧
    hall.nearest 3 = none ∧
    -- the pairing of order 1
    hall.order 1 = some order1 ∧ hall.namedGone order1 = false ∧ hall.rollToFetch order1 = some 60 ∧ hall.choice order1 = some (.bay 35) ∧
    hall.pickupFor order1 60 = some 1 ∧ hall.destNode (.bay 35) = some 2 ∧ hall.routeBetween 1 2 = some 2 := by decide

/-! ### Vehicles and track -/

theorem test_witness_SetServiceMovesVehicles :
    let out := { hall with vehicles := [], segments := hall.segments.put 1 (some ⟨some (.loop 2), none, []⟩) }
    let kept := { out with
      orders := [(1, { order1 with state := .unloading, vehicle := some 1, dest := some (.bay 36) })],
      vehicles := [(1, { Vehicle.cold with order := some 1, load := some 60 })] }
    let one := { out with segments := [(1, ⟨some (.loop 2), none, []⟩)] }
    let off := { hall with vehicles := [(1, { vehicle1 with held := [10] })] }
    hall.takes (.setServiceSettings 250 250 600) = true ∧ hall.node 48 = none ∧ out.node 5 = some ⟨1, .park⟩ ∧
    ((out.vehicle 1).state = .outOfService ∧ out.vehicleStation 1 ≠ none ∧ (out.segment 1).holder = none) ∧ (hall.vehicle 1).state ≠ .outOfService ∧
    one.loopCount ≤ one.inServiceCount + 1 ∧ out.inServiceCount + 1 < out.loopCount ∧ (out.vehicle 1).order = none ∧
    ((kept.vehicle 1).order = some 1 ∧ (kept.order 1).map Order.state = some .unloading ∧ kept.routeBetween 5 2 = some 4 ∧
      kept.routeBetween 4 2 = none ∧ (kept.order 1).bind kept.drop = some 2) ∧
    -- OUT
    (1 ∈ (hall.vehicle 1).held ∧ (hall.segment 1).kind = some (.loop 2) ∧ (hall.vehicle 1).state ≠ .stalled) ∧
    ((off.vehicle 1).state ≠ .outOfService ∧ (off.vehicle 1).held = [10] ∧ (off.segment 10).kind = some (.siding 1 2) ∧
      1 ∉ (off.segment 10).waiters) ∧
    (((working .store .assigned .toPickup false).vehicle 1).order = some 1 ∧
      ((working .store .assigned .toPickup false).order 1).map Order.abort = some false) ∧
    ((working .store .carrying .toDrop false).order 1).map Order.state = some .carrying := by decide

theorem test_witness_TrackRecordsAreWritten :
    let busy := { hall with segments := [(1, ⟨some (.loop 2), some 1, []⟩), (2, ⟨some (.loop 1), none, []⟩)], nodes := [], routes := [] }
    hall.takes (.setSegment 64 none) = true ∧ (hall.segment 64).kind = none ∧ hall.segmentInUse 64 = false ∧ hall.segmentInUse 10 = true ∧
    ((hall.segment 2).kind = some (.loop 3) ∧ (hall.segment 3).kind = some (.loop 1)) ∧ hall.segmentNamed 3 = true ∧
    (0 < busy.inServiceCount ∧ busy.loopCount - 1 ≤ busy.inServiceCount) ∧
    -- SET_NODE
    hall.node 48 = none ∧ hall.nodeInUse 48 = false ∧ hall.nodeInUse 1 = true ∧ (hall.segment 11).kind ≠ none ∧
    -- SET_ROUTE
    (let r : Route := ⟨5, 4, [1, 2, 3, 13], 1200⟩
     r.segs.head? = (hall.node 5).map Node.seg ∧ r.segs.getLast? = (hall.node 4).map Node.seg ∧ hall.routeDouble 160 r = false) ∧
    hall.routeDouble 160 ⟨5, 1, [1, 10], 1200⟩ = true ∧ hall.route 160 = none ∧ hall.routeInUse 1 = false := by decide

theorem test_witness_HaltAndResumeTransport :
    hall.takes .haltTransport = true ∧ hall.takes .resumeTransport = true ∧ hall.halted = false ∧
    { hall with halted := true, vehicles := [(1, { vehicle1 with progress := .suspended 5 })] }.halted = true := by decide

/-- Vehicle 1 on its way over route 1 with segment 1 held, its order assigned. -/
def rolling (held : List Nat) (pos : Spot) : State :=
  { hall with
    orders := [(1, { order1 with state := .assigned, vehicle := some 1, dest := some (.bay 36) })],
    vehicles := [(1, { vehicle1 with state := .toPickup, order := some 1, pos := some pos, held := held, leg := some ⟨1, 0⟩ })] }

theorem test_witness_ClaimsFollowTheTable :
    (stationOf 1 (.vehicle 1)).role = .vehicle 1 ∧ (State.repliedBy (rolling [1] (.node 5)) 1).awake = true ∧
    ((rolling [1] (.node 5)).vehicle 1).state ≠ .outOfService ∧ 1 = ((rolling [1] (.node 5)).workingOrder 1).getD 0 ∧
    (hall.vehicle 1).leg = none ∧ 0 = (hall.workingOrder 1).getD 0 ∧
    ((rolling [1] (.node 5)).vehicle 1).leg = some ⟨1, 0⟩ ∧ (rolling [1] (.node 5)).route 1 = some ⟨5, 1, [1, 10], 10⟩ ∧
    ((rolling [1] (.node 5)).vehicle 1).held.getLast? = some 1 ∧
    ([1, 10].drop 0 = [] ++ 1 :: 10 :: [] ∧ 1 ∉ ([] : List Nat)) ∧ 2 ≠ 1 ∧ ((rolling [1] (.node 5)).segment 1).holder = some 1 ∧
    ((rolling [1] (.node 5)).segment 10).holder = none ∧ ((rolling [1] (.node 5)).vehicle 1).held.length ≠ 2 ∧
    ((rolling [3, 1] (.node 5)).vehicle 1).held.length = 2 ∧
    (let met := { rolling [1] (.node 5) with segments := [(10, ⟨some (.siding 1 2), some 2, []⟩)] }
     (met.segment 10).holder = some 2 ∧ 2 ≠ 1 ∧ 1 ∉ (met.segment 10).waiters) ∧
    1 ∈ ({ rolling [1] (.node 5) with segments := [(10, ⟨some (.siding 1 2), some 2, [1]⟩)] }.segment 10).waiters := by decide

theorem test_witness_PositionMovesTheVehicle :
    ((rolling [1] (.node 5)).vehicle 1).state ≠ .outOfService ∧ 1 = ((rolling [1] (.node 5)).workingOrder 1).getD 0 ∧
    -- consistent: the node of segment 1 and segment 1; inconsistent: segment 10
    ((rolling [1] (.node 5)).node 5).map Node.seg = some 1 ∧ 10 ∉ ((rolling [1] (.node 5)).vehicle 1).held ∧
    -- PASSED at the second of two held segments
    (((rolling [1, 10] (.node 5)).vehicle 1).held = [1, 10] ∧ ((rolling [1, 10] (.node 5)).node 1).map Node.seg = some 10 ∧ 1 ≠ 10 ∧
      1 ∉ ((rolling [1, 10] (.node 5)).segment 1).waiters) ∧
    ((rolling [1, 10] (.node 5)).vehicle 1).leg = some ⟨1, 0⟩ ∧ (rolling [1, 10] (.node 5)).route 1 = some ⟨5, 1, [1, 10], 10⟩ ∧
    ({ rolling [1] (.node 5) with segments := [(1, ⟨some (.loop 2), some 1, [2]⟩)] }.segment 1).waiters.head? = some 2 ∧
    ({ rolling [1] (.node 5) with vehicles := [(1, { vehicle1 with state := .stalled, prev := some .toPickup, cause := some .progress })] }.vehicle
      1).prev = some .toPickup := by decide

theorem test_witness_DockedAsksForTheTransfer :
    let p := working .store .assigned .toPickup false
    let d := working .store .carrying .toDrop false
    let there := { d with vehicles := [(1, { vehicle1 with state := .toDrop, order := some 1, pos := some (.node 2), held := [11], docked := 1 })] }
    let full := { there with bays := [(36, { bay36 with stack := [88, 91, 60] })] }
    let stall := { p with vehicles := [(1, { vehicle1 with state := .stalled, prev := some .loading, order := some 1, pos := some (.node 1), held := [10] })] }
    (p.vehicle 1).state ≠ .outOfService ∧ 1 = (p.workingOrder 1).getD 0 ∧ hall.vehicle 1 = vehicle1 ∧ (hall.vehicle 1).state ≠ .stalled ∧
    (hall.vehicle 1).order = none ∧
    -- at the pickup, first and later
    ((p.vehicle 1).order = some 1 ∧ (p.vehicle 1).state = .toPickup ∧ (p.vehicle 1).pos = some (.node 1) ∧ (p.order 1).bind p.pickup = some 1 ∧
      (p.vehicle 1).docked = 0) ∧
    ((p.order 1).bind Order.roll = some 60 ∧ p.roll 60 = some roll60 ∧ roll60.order = some 1 ∧ (p.order 1).bind Order.source = some (.node 1) ∧
      roll60.state = .announced ∧ roll60.loc = .node 1 ∧ p.halted = false ∧ { p with halted := true }.halted = true) ∧
    -- at the drop
    ((there.vehicle 1).pos = some (.node 2) ∧ (there.order 1).bind there.drop = some 2 ∧ (there.vehicle 1).docked ≠ 0 ∧
      (there.bay 36).stack.length < (there.bay 36).limit ∧ (there.bay 36).mark = none ∧ (there.bay 36).hold ≠ some .discrepancy) ∧
    ¬ (full.bay 36).stack.length < (full.bay 36).limit ∧
    ((stall.vehicle 1).state = .stalled ∧ (stall.vehicle 1).prev = some .loading ∧ (stall.vehicle 1).order = some 1) := by decide

theorem test_witness_LoadedAndUnloadedMoveTheRoll :
    let l := working .store .loading .loading false
    let gone := { l with rolls := [(60, { roll60 with order := none })] }
    let u := { working .store .unloading .unloading false with
      rolls := [(60, { roll60 with state := .inTransit, loc := .vehicle 1 })],
      vehicles := [(1, { vehicle1 with state := .unloading, order := some 1, load := some 60, pos := some (.node 2), held := [11] })] }
    let full := { u with bays := [(36, { bay36 with stack := [1, 2, 3] })] }
    let arm := { u with
      orders := [(1, { order1 with state := .unloading, vehicle := some 1, kind := .callOff, dest := some (.arm 7 .A) })],
      stands := [(7, { stand7 with armA := ⟨.empty, none, some 1, .clear⟩ })] }
    let node := { u with orders := [(1, { order1 with state := .unloading, vehicle := some 1, kind := .move, dest := some (.node 2) })] }
    (l.vehicle 1).state = .loading ∧ 1 = (l.workingOrder 1).getD 0 ∧ (l.vehicle 1).order = some 1 ∧ (l.order 1).bind Order.roll = some 60 ∧
    l.roll 60 = some roll60 ∧ (l.vehicle 1).load = none ∧ (gone.roll 60).bind Roll.order = none ∧ hall.routeBetween 1 2 = some 2 ∧
    (((working .store .assigned .toPickup false).vehicle 1).state ≠ .loading ∧ ((working .store .assigned .toPickup false).vehicle 1).state ≠ .stalled) ∧
    ((u.vehicle 1).state = .unloading ∧ (u.vehicle 1).load = some 60 ∧ (u.roll 60).map Roll.state = some .inTransit ∧
      (u.order 1).bind Order.vehicle = some 1 ∧ (u.order 1).bind u.drop = some 2) ∧
    (full.bay 36).limit ≤ (full.bay 36).stack.length ∧ (u.bay 36).stack.length < (u.bay 36).limit ∧ (node.order 1).bind node.drop = some 2 ∧
    ((arm.stand 7).armA.state = .empty ∧ (arm.stand 7).armA.callOff = some 1 ∧ arm.positionOf 7 = some (2, ⟨7, 3, 1450, 1800⟩) ∧
      (arm.order 1).bind arm.drop = some 3) ∧
    (u.stand 7).armA.state ≠ .empty ∧
    -- a vehicle with nothing to do
    ((hall.vehicle 1).order = none ∧ (hall.vehicle 1).load = none ∧ (hall.vehicle 1).state = .idle ∧ 0 = (hall.workingOrder 1).getD 0) := by decide

theorem test_witness_IdleFaultAndNone :
    let out := { hall with vehicles := [] }
    let p := working .store .assigned .toPickup false
    let marked := working .store .assigned .toPickup true
    (out.vehicle 1).state = .outOfService ∧ (hall.vehicle 1).state ≠ .outOfService ∧ 0 = (hall.workingOrder 1).getD 0 ∧ (7 ≠ 0) ∧
    ((p.vehicle 1).order = some 1 ∧ (p.order 1).map Order.abort = some false ∧ 7 ≠ 1) ∧
    ({ hall with vehicles := [(1, { vehicle1 with state := .stalled })] }.vehicle 1).state = .stalled ∧
    -- IDLE at the node of a held segment, and at one whose segment is not held
    ((hall.node 5).map Node.seg = some 1 ∧ 1 ∈ (hall.vehicle 1).held ∧ (hall.node 2).map Node.seg = some 11 ∧ 11 ∉ (hall.vehicle 1).held) ∧
    ((marked.order 1).map Order.abort = some true ∧ (marked.order 1).bind Order.vehicle = some 1 ∧ (marked.node 1).map Node.seg = some 10 ∧
      10 ∈ (marked.vehicle 1).held) ∧
    ({ hall with vehicles := [(1, { vehicle1 with state := .stalled, prev := some .idle })] }.vehicle 1).prev = some .idle ∧
    ((p.vehicle 1).state = .toPickup ∧ (p.order 1).bind p.pickup = some 1) ∧
    ((working .store .carrying .toDrop false).vehicle 1).state = .toDrop ∧ p.routeBetween 1 2 = some 2 ∧ p.routeBetween 3 2 = none := by decide

theorem test_witness_TimeoutsStallTheVehicle :
    let p := { working .store .assigned .toPickup false with
      vehicles := [(1, { vehicle1 with state := .toPickup, order := some 1, progress := .running 0 })] }
    let l := { working .store .loading .loading false with
      vehicles := [(1, { vehicle1 with state := .loading, order := some 1, deck := some .empty, transfer := .running 0 })] }
    let u := { working .store .unloading .unloading false with
      vehicles := [(1, { vehicle1 with state := .unloading, order := some 1, transfer := .running 0 })] }
    (hall.vehicle 1).progress = .stopped ∧ (hall.vehicle 1).transfer = .stopped ∧ p.awake = true ∧ (p.vehicle 1).progress = .running 0 ∧
    (p.vehicle 1).state = .toPickup ∧ (l.vehicle 1).transfer = .running 0 ∧ (l.vehicle 1).deck = some .empty ∧
    (l.order 1).bind Order.vehicle = some 1 ∧ (l.order 1).map Order.abort = some false ∧ (u.vehicle 1).state = .unloading ∧
    (working .store .loading .loading true).order 1 = some { order1 with state := .loading, vehicle := some 1, dest := some (.bay 36), abort := true } ∧
    hall.roll 60 = some roll60 := by decide

/-! ### Stations, power and starts -/

theorem test_witness_SetStationWritesTheRecord :
    let full := { hall with stations := (List.range 40).map fun i => (i + 1, stationOf (i + 1) (.console 1)) }
    hall.takes (.setStationConfigure 60 (.console 4)) = true ∧ hall.station 60 = none ∧ (hall.node 1 = some ⟨10, .dock⟩) ∧
    ((1, stationOf 1 (.vehicle 1)) ∈ hall.stations ∧ 60 ≠ 1) ∧ ((21, stationOf 3 (.bayNode 35 2)) ∈ hall.stations ∧ 36 < 35 + 2 ∧ 35 < 36 + 1) ∧
    (hall.station 1 = some (stationOf 1 (.vehicle 1)) ∧ (hall.vehicle 1).state ≠ .outOfService) ∧ hall.station 31 = some (stationOf 5 .scale) ∧
    (full.station 60 = none ∧ ∀ p ∈ List.range 40, ∃ e ∈ full.stations, e.2.place = p + 1) ∧
    ((∀ e ∈ hall.stations, e.2.place ≠ 7) ∧ ∀ q ∈ [1, 2, 3, 4, 5, 6], ∃ e ∈ hall.stations, e.2.place = q) ∧
    (State.repliedBy hall 31).exchange.map Exchange.addr = some 31 := by decide

theorem test_witness_PollBeginsAnExchange :
    let quiet := { stationOf 5 .scale with silent := true, reduced := 3 }
    hall.awake = true ∧ (hall.standby = .running ∧ hall.exchange = none ∧ hall.pendingBroadcast = none) ∧
    { hall with standby := .entering }.standby ≠ .running ∧ ({ hall with further := some (31, 3) }.further = some (31, 3) ∧ hall.station 31 ≠ none) ∧
    hall.further = none ∧ (hall.cycle = [] ∧ { hall with stations := [] }.stations = []) ∧ { hall with cycle := [7, 21] }.cycle = 7 :: [21] ∧
    { hall with cycle := [60, 7, 21] }.station 60 = none ∧ hall.station 7 = some (stationOf 2 (.standNode 7)) ∧
    ({ hall with stations := [(7, stationOf 2 (.standNode 7)), (31, quiet)] }.station 31 = some quiet ∧ quiet.silent = true ∧ quiet.reduced ≠ 0 ∧ 31 ≠ 7) ∧
    hall.stations = (1, stationOf 1 (.vehicle 1)) :: hall.stations.tail ∧ hall.pendingBroadcast = none ∧
    { hall with pendingBroadcast := some .allHalt }.pendingBroadcast = some .allHalt := by decide

theorem test_witness_ExchangesEnd :
    let open_ := { State.repliedBy hall 31 with receiver := .hunting }
    hall.awake = true ∧ hall.exchange = none ∧ (open_.exchange = some (ex 31) ∧ (ex 31).windowOpen = true ∧ open_.receiver = .hunting) ∧
    (State.repliedBy hall 31).receiver = .frame 31 true ∧ { hall with receiver := .frame 31 false }.receiver = .frame 31 false ∧
    hall.receiver = .hunting ∧ (hall.station 31 = some (stationOf 5 .scale)) ∧
    ((ex 31).left ≠ 0 ∧ Instr.replyWindowExpiry ∉ hall.expiring ∧
      Instr.replyWindowExpiry ∈ { open_ with expiring := [.replyWindowExpiry] }.expiring) ∧
    ({ stationOf 5 .scale with miss := 2 }.silent = false ∧ 2 ≤ { stationOf 5 .scale with miss := 2 }.miss) ∧
    (Spoil.badCheck ≠ .marked 0) ∧ (30 ≠ (ex 31).addr) ∧ (State.repliedBy hall 31).replying = some (ex 31) ∧ open_.replying = some (ex 31) ∧
    ((stationOf 1 (.vehicle 1)).role = .vehicle 1 ∧ (hall.vehicle 1).state ≠ .outOfService) := by decide

theorem test_witness_StandbyAndPowerLossKeepTheRecords :
    let still := { hall with lines := [(2, { line2 with v := 0 })] }
    let entering := { still with standby := .entering }
    hall.takes .standby = true ∧ (0 < (hall.line 2).v) ∧
    (still.takes .standby = true ∧ still.standby = .running ∧ (still.vehicle 1).state = .idle ∧ (still.line 2).v = 0 ∧
      (still.stand 7).seq ≠ .pasting) ∧
    { still with vehicles := [(12, { vehicle1 with state := .toPickup })] }.vehicle 12 = { vehicle1 with state := .toPickup } ∧
    { still with stands := [(16, { stand7 with seq := .pasting })] }.stand 16 = { stand7 with seq := .pasting } ∧
    (entering.awake = true ∧ entering.pendingBroadcast = none ∧ entering.exchange = none ∧ entering.port.state = .idle) ∧
    { entering with pendingBroadcast := some .allHalt }.pendingBroadcast ≠ none ∧
    (let s := { entering with stands := [(7, { stand7 with drive := true, paste := true })] }
     (s.stand 7).drive = true ∧ (s.stand 7).paste = true) ∧
    (broken.line 2).stop = true ∧ hall.powered = true ∧ { hall with powered := false }.powered = false := by decide

theorem test_witness_StartsReconcileTheRecords :
    (hall.awake = true ∧ hall.port.state = .idle) ∧ { hall with port := ⟨.working, some .standby, none⟩ }.port.state = .working ∧
    { hall with powered := false }.awake = false ∧ hall.powered = true ∧
    (hall.roll 57 = some roll57 ∧ hall.roll 1 = none) ∧ (hall.order 1 = some order1 ∧ order1.abort = false) ∧
    ((working .store .assigned .toPickup false).order 1).map Order.state = some .assigned ∧
    (hall.jobs.find 2051 = some job2051 ∧ job2051.state = .live ∧ job2051.line = 2) ∧ hall.jobs.rising = true ∧
    (∀ e ∈ hall.jobs, e.2.line ≠ 1) ∧ (hall.lines.rising = true ∧ hall.stands.rising = true) ∧
    (let s := { hall with stands := [(7, { stand7 with drive := true, paste := true })] }
     (s.stand 7).drive = true ∧ (s.stand 7).paste = true) ∧
    ({ hall with standby := .standby }.powered = true ∧ { hall with standby := .standby }.standby = .standby) := by decide

end Sys2Proof.Tests
end

section
/-! Proofs about the Roll Registry's laws: what a chain of writes keeps of the roll records' tags and numbers (R9, R11, R121). -/

namespace Sys2Proof.Machine

/-! ## Distinct tags, arrival numbers and order sequences -/

/-- No two live rolls agree in a field. -/
def State.distinctBy {α : Type} (f : Roll → α) (s : State) : Prop :=
  ∀ m n q r, s.roll m = some q → s.roll n = some r → f q = f r → m = n

/-- Every live roll and every live order is numbered at or below its counter, and both counters are in range (R9, R121). -/
def State.numbersInRange (s : State) : Prop :=
  s.arrival ≤ Config.max32 ∧ s.orderSeq ≤ Config.max32 ∧ (∀ n r, s.roll n = some r → r.arrival ≤ s.arrival) ∧
  ∀ n o, s.order n = some o → o.seq ≤ s.orderSeq

theorem State.tagsDiffer_iff (s : State) : s.tagsDiffer ↔ s.distinctBy Roll.tag := Iff.rfl

theorem State.counted_iff (s : State) : s.counted ↔ s.numbersInRange ∧ s.distinctBy Roll.arrival :=
  ⟨fun ⟨ha, hs, hr, hd, ho⟩ => ⟨⟨ha, hs, hr, ho⟩, hd⟩, fun ⟨⟨ha, hs, hr, ho⟩, hd⟩ => ⟨ha, hs, hr, hd, ho⟩⟩

theorem State.distinctBy_congr {α : Type} {f : Roll → α} {s t : State} (h : t.rolls = s.rolls) (hs : s.distinctBy f) :
    t.distinctBy f := by
  unfold State.distinctBy State.roll at *
  rwa [h]

/-- A roll entered keeps a field distinct when no other roll has its value. -/
theorem State.distinctBy_putRoll {α : Type} {f : Roll → α} {s : State} {n : Nat} {x : Roll} (hs : s.distinctBy f)
    (hx : ∀ m q, m ≠ n → s.roll m = some q → f q ≠ f x) : (s.putRoll n (some x)).distinctBy f := by
  intro i j q r hi hj he
  rw [roll_put] at hi hj
  by_cases hin : i = n <;> by_cases hjn : j = n
  · rw [hin, hjn]
  · rw [if_pos hin] at hi
    rw [if_neg hjn] at hj
    cases hi
    exact absurd he.symm (hx j r hjn hj)
  · rw [if_neg hin] at hi
    rw [if_pos hjn] at hj
    cases hj
    exact absurd he (hx i q hin hi)
  · rw [if_neg hin] at hi
    rw [if_neg hjn] at hj
    exact hs i j q r hi hj he

/-- A record rewritten with the same value keeps the field distinct. -/
theorem State.distinctBy_rewrite {α : Type} {f : Roll → α} {s : State} {n : Nat} {r x : Roll} (hs : s.distinctBy f)
    (hr : s.roll n = some r) (hf : f x = f r) : (s.putRoll n (some x)).distinctBy f :=
  State.distinctBy_putRoll hs fun m q hm hq he => hm (hs m n q r hq hr (he.trans hf))

theorem State.distinctBy_freeRoll {α : Type} {f : Roll → α} {s : State} (n : Nat) (hs : s.distinctBy f) :
    (s.putRoll n none).distinctBy f := by
  have old : ∀ m q, (s.putRoll n none).roll m = some q → s.roll m = some q := by
    intro m q h
    rw [roll_put] at h
    by_cases hm : m = n
    · rw [if_pos hm] at h; cases h
    · rwa [if_neg hm] at h
  exact fun i j q r hi hj he => hs i j q r (old i q hi) (old j r hj) he

theorem State.distinctBy_noRolls {α : Type} {f : Roll → α} {s : State} (h : s.rolls = []) : s.distinctBy f := by
  intro m n q r hm
  unfold State.roll at hm
  rw [h] at hm
  cases hm

/-- A chain of writes keeps a field distinct, when no roll's field changes and a new roll's is none of the others'. -/
theorem Wr.distinctBy {α : Type} {f : Roll → α} {s t : State} (w : Wr 4 s t)
    (hsame : ∀ r r' : Roll, Roll.same 4 r r' → f r' = f r)
    (hnew : ∀ (u : State) (x : Roll), Wr 4 s u → (∀ e ∈ u.rolls, e.2.tag ≠ x.tag) → x.arrival = u.arrival + 1 →
      ∀ m q, u.roll m = some q → f q ≠ f x)
    (hs : s.distinctBy f) : t.distinctBy f := by
  induction w with
  | refl => exact hs
  | other _ _ ht ih => exact State.distinctBy_congr ht.rolls ih
  | roll _ hr hrr ih => exact State.distinctBy_rewrite ih hr (hsame _ _ hrr)
  | freeRoll _ _ n ih => exact State.distinctBy_freeRoll n ih
  | newRoll w _ hf ha _ ih =>
    exact State.distinctBy_congr (s := State.putRoll _ _ _) rfl
      (State.distinctBy_putRoll ih fun m q _ hq => hnew _ _ w hf ha m q hq)
  | cold _ _ _ => exact State.distinctBy_noRolls rfl
  | small _ _ _ ih | bay _ _ _ ih | grade _ _ _ _ ih | line _ _ _ ih | stand _ _ _ ih | job _ _ _ _ ih | putJob _ _ _ _ ih
  | order _ _ _ ih | freeOrder _ _ ih | newOrder _ _ _ _ _ ih | vehicle _ _ _ ih | segment _ _ _ ih | node _ _ _ _ ih
  | route _ _ _ _ ih | station _ _ _ ih | putStation _ _ _ _ ih | raised _ _ _ _ _ ih | attnClear _ _ ih =>
    exact State.distinctBy_congr rfl ih

theorem State.numbersInRange_congr {s t : State} (hr : t.rolls = s.rolls) (ha : t.arrival = s.arrival) (ho : t.orders = s.orders)
    (hq : t.orderSeq = s.orderSeq) (h : s.numbersInRange) : t.numbersInRange := by
  unfold State.numbersInRange State.roll State.order at *
  rwa [hr, ha, ho, hq]

/-- A roll record written keeps the numbers in range, when the roll is numbered at or below the arrival counter after the write. -/
theorem State.numbersInRange_putRoll {s t : State} {n : Nat} {o : Option Roll} (h : s.numbersInRange) (hr : t.rolls = s.rolls.put n o)
    (hx : ∀ x, o = some x → x.arrival ≤ t.arrival) (ha : s.arrival ≤ t.arrival) (hm : t.arrival ≤ Config.max32)
    (ho : t.orders = s.orders) (hq : t.orderSeq = s.orderSeq) : t.numbersInRange := by
  obtain ⟨_, hseq, hroll, hord⟩ := h
  refine ⟨hm, hq ▸ hseq, fun m x hmx => ?_, fun m p hmp => ?_⟩
  · unfold State.roll at hmx
    rw [hr, Tbl.find_put] at hmx
    split at hmx
    · exact hx x hmx
    · exact Nat.le_trans (hroll m x hmx) ha
  · unfold State.order at hmp
    rw [ho] at hmp
    rw [hq]
    exact hord m p hmp

/-- An order record written keeps the numbers in range, when its sequence is at or below the counter after the write. -/
theorem State.numbersInRange_putOrder {s t : State} {n : Nat} {o : Option Order} (h : s.numbersInRange)
    (ho : t.orders = s.orders.put n o) (hx : ∀ x, o = some x → x.seq ≤ t.orderSeq) (hq : s.orderSeq ≤ t.orderSeq)
    (hm : t.orderSeq ≤ Config.max32) (hr : t.rolls = s.rolls) (ha : t.arrival = s.arrival) : t.numbersInRange := by
  obtain ⟨harr, _, hroll, hord⟩ := h
  refine ⟨ha ▸ harr, hm, fun m x hmx => ?_, fun m p hmp => ?_⟩
  · unfold State.roll at hmx
    rw [hr] at hmx
    rw [ha]
    exact hroll m x hmx
  · unfold State.order at hmp
    rw [ho, Tbl.find_put] at hmp
    split at hmp
    · exact hx p hmp
    · exact Nat.le_trans (hord m p hmp) hq

theorem State.numbersInRange_empty {s : State} (hr : s.rolls = []) (ho : s.orders = []) (ha : s.arrival ≤ Config.max32)
    (hq : s.orderSeq ≤ Config.max32) : s.numbersInRange := by
  refine ⟨ha, hq, fun m x h => ?_, fun m x h => ?_⟩
  · unfold State.roll at h; rw [hr] at h; cases h
  · unfold State.order at h; rw [ho] at h; cases h

/-- A chain of writes keeps every number at or below its counter (R9, R121). -/
theorem Wr.numbersInRange {s t : State} (w : Wr 4 s t) (hs : s.numbersInRange) : t.numbersInRange := by
  induction w with
  | refl => exact hs
  | other _ _ ht ih => exact State.numbersInRange_congr ht.rolls ht.arrival ht.orders ht.orderSeq ih
  | roll _ hr hrr ih =>
    obtain ⟨harr, _, hroll, _⟩ := id ih
    exact State.numbersInRange_putRoll (o := some _) ih rfl (fun x hx => by cases hx; rw [hrr.2.1]; exact hroll _ _ hr) (Nat.le_refl _) harr rfl rfl
  | freeRoll _ _ n ih => exact State.numbersInRange_putRoll (o := none) ih rfl (fun _ hx => by cases hx) (Nat.le_refl _) ih.1 rfl rfl
  | newRoll _ _ _ ha hm ih =>
    exact State.numbersInRange_putRoll (o := some _) ih rfl (fun x hx => by cases hx; exact Nat.le_of_eq ha) (Nat.le_succ _) hm rfl rfl
  | order _ ho hseq ih =>
    obtain ⟨_, hmax, _, hord⟩ := id ih
    exact State.numbersInRange_putOrder (o := some _) ih rfl (fun x hx => by cases hx; rw [hseq]; exact hord _ _ ho) (Nat.le_refl _) hmax rfl rfl
  | freeOrder _ n ih => exact State.numbersInRange_putOrder (o := none) ih rfl (fun _ hx => by cases hx) (Nat.le_refl _) ih.2.1 rfl rfl
  | newOrder _ _ _ hseq hm ih =>
    exact State.numbersInRange_putOrder (o := some _) ih rfl (fun x hx => by cases hx; exact Nat.le_of_eq hseq) (Nat.le_succ _) hm rfl rfl
  | cold _ _ _ => exact State.numbersInRange_empty rfl rfl (Nat.zero_le _) (Nat.zero_le _)
  | small _ _ _ ih | bay _ _ _ ih | grade _ _ _ _ ih | line _ _ _ ih | stand _ _ _ ih | job _ _ _ _ ih | putJob _ _ _ _ ih
  | vehicle _ _ _ ih | segment _ _ _ ih | node _ _ _ _ ih | route _ _ _ _ ih | station _ _ _ ih | putStation _ _ _ _ ih
  | raised _ _ _ _ _ ih | attnClear _ _ ih =>
    exact State.numbersInRange_congr rfl rfl rfl rfl ih

/-- Settles O2: every step is a chain of writes. A new roll is entered under a tag no live roll has, and under an arrival number
beyond the counter, which no live roll has reached. -/
theorem everyStepKeepsTagsAndNumbersUnique : Obligations.EveryStepKeepsTagsAndNumbersUnique := by
  constructor
  · intro s t hs h
    refine (step_writes h).distinctBy (fun r r' hsame => hsame.1) ?_ hs
    intro u x _ hfree _ m q hq
    exact hfree (m, q) (Tbl.mem_of_find hq)
  · intro s t hs h
    rw [State.counted_iff] at hs ⊢
    obtain ⟨hrange, hdistinct⟩ := hs
    refine ⟨(step_writes h).numbersInRange hrange, ?_⟩
    refine (step_writes h).distinctBy (fun r r' hsame => hsame.2.1) ?_ hdistinct
    intro u x w _ hnext m q hq
    obtain ⟨_, _, hroll, _⟩ := w.numbersInRange hrange
    have := hroll m q hq
    omega

/-! ## The state after reset -/

theorem State.reset_inLimit (b : Nat) : (State.reset.bay b).inLimit := by
  show Bay.cold.inLimit
  exact ⟨Nat.le_refl 0, by decide⟩

/-- Settles O5: after reset the tables are empty, but for the entry of COLD_START. -/
theorem resetMeetsTheLaws : Obligations.ResetMeetsTheLaws := by
  have counted : State.reset.counted :=
    (State.counted_iff _).mpr
      ⟨State.numbersInRange_empty rfl rfl (Nat.zero_le _) (Nat.zero_le _), State.distinctBy_noRolls rfl⟩
  have arms : State.reset.armsLawful := fun st hactive => by
    have hcold : (State.reset.stand st).armA.state = .empty := rfl
    rw [hcold] at hactive
    cases hactive
  have attn : State.reset.attentionBounded := fun e he => by
    rw [List.mem_singleton.mp he]
    decide
  exact ⟨by decide, State.distinctBy_noRolls rfl, counted, State.reset_inLimit, arms,
    fun _ _ h => (by cases h), fun _ _ h => (by cases h), attn⟩

end Sys2Proof.Machine
end

section
/-! Proofs about the lookups of the Roll Registry (R20 to R22): how a roll is named, the bytes of its payloads, and the lists. -/

namespace Sys2Proof.Machine

/-! ## Fields of a payload (R177) -/

/-- A field cut out of a payload is the piece it was built from; the lengths before it say where it stands. -/
theorem flatten_slice {fs : List (List Byte)} {ls : List Nat} (hl : fs.map List.length = ls) (i : Nat) :
    (fs.flatten.drop (ls.take i).sum).take (ls.getD i 0) = fs.getD i [] := by
  subst hl
  induction fs generalizing i with
  | nil => simp
  | cons f fs ih =>
    cases i with
    | zero => simp
    | succ i => simpa [List.drop_append, List.drop_of_length_le] using ih i

theorem beNat_beBytes_of_lt {w n : Nat} (h : n < 256 ^ w) : beNat (beBytes w n) = n := by
  rw [beNat_beBytes, Nat.mod_eq_of_lt h]

theorem beNat_tagBytes (t : Tag) : beNat (tagBytes t) = t.toNat := beNat_beBytes_of_lt (w := 8) t.isLt

theorem beNat_rollState (x : RollState) : beNat (beBytes 1 (nameByte rollStates (some x))) = rollStates.idxOf x + 1 := by
  cases x <;> rfl

theorem Location.bytes_eq (l : Location) : l.bytes = match l with
    | .node k => [1#8, BitVec.ofNat 8 k, 0#8]
    | .bay b i => [2#8, BitVec.ofNat 8 b, BitVec.ofNat 8 i]
    | .vehicle v => [3#8, BitVec.ofNat 8 v, 0#8]
    | .arm st a => [4#8, BitVec.ofNat 8 st, if a = .A then 1#8 else 2#8] := by
  cases l with
  | arm st a => cases a <;> simp [Location.bytes, beBytes, nameByte, arms]
  | _ => simp [Location.bytes, beBytes]

theorem holdByte_eq (h : Option Hold) : holdByte h = match h with
    | none => [0#8]
    | some .damaged => [1#8]
    | some .discrepancy => [2#8]
    | some .operator => [3#8] := by
  rcases h with _ | h
  · rfl
  · cases h <;> rfl

theorem holdByte_length (h : Option Hold) : (holdByte h).length = 1 := beBytes_length ..

theorem bitsNat_testBit (bs : List Bool) (i : Nat) : (bitsNat bs).testBit i = bs.getD i false := by
  induction bs generalizing i with
  | nil => simp [bitsNat]
  | cons b bs ih =>
    cases i with
    | zero => cases b <;> simp [bitsNat, Nat.testBit_zero]
    | succ i =>
      have half : (b.toNat + 2 * bitsNat bs) / 2 = bitsNat bs := by cases b <;> simp; omega
      rw [bitsNat, Nat.testBit_succ, half, ih]
      rfl

/-- The eight bits of a byte that flags were gathered into. -/
theorem flagByte_bits {bs : List Bool} (h : bs.length = 8) :
    (List.range 8).map (BitVec.ofNat 8 (bitsNat bs)).getLsbD = bs := by
  refine List.ext_getElem (by simp [h]) fun i hi _ => ?_
  have hi8 : i < 8 := by simpa using hi
  rw [List.getElem_map, List.getElem_range, BitVec.getLsbD_ofNat, bitsNat_testBit]
  simp [hi8, h]

/-- The last byte of a payload, read by its place. -/
theorem getElem?_of_slice {l : List Byte} {k : Nat} {b : Byte} (h : (l.drop k).take 1 = [b]) : l[k]? = some b := by
  have : ((l.drop k).take 1)[0]? = some b := by rw [h]; rfl
  simpa using this

/-! ## How a roll is named (R20) -/

theorem RollRef.byRecord_ok (n : Nat) : (RollRef.byRecord n).ok = true ↔ 1 ≤ n ∧ n ≤ 480 := by
  simp [RollRef.ok, Config.rollPlaces]

theorem RollRef.byTag_ok (t : Tag) : (RollRef.byTag t).ok = true ↔ t ≠ 0 ∧ ∀ i, i < 16 → t.toNat / 16 ^ i % 16 ≤ 9 := by
  simp [RollRef.ok, tagOk]

theorem Tbl.first_some {α : Type} {t : Tbl α} {p : Nat → α → Bool} {n : Nat} (h : t.first p = some n) :
    ∃ x, (n, x) ∈ t ∧ p n x = true := by
  unfold Tbl.first at h
  obtain ⟨⟨m, x⟩, hfind, rfl⟩ := Option.map_eq_some_iff.mp h
  exact ⟨x, List.mem_of_find?_eq_some hfind, List.find?_some (p := fun e : Nat × α => p e.1 e.2) hfind⟩

theorem Tbl.first_none {α : Type} {t : Tbl α} {p : Nat → α → Bool} : t.first p = none ↔ ∀ n x, (n, x) ∈ t → p n x = false := by
  simp [Tbl.first]

/-- The entries of a rising table are the records it reads. -/
theorem Tbl.mem_iff_find {α : Type} {t : Tbl α} (h : t.rising = true) {n : Nat} {x : α} : (n, x) ∈ t ↔ t.find n = some x :=
  ⟨Law.find_rising h, Tbl.mem_of_find⟩

theorem State.rollByTag_some {s : State} (hs : s.rolls.rising = true) {t : Tag} {n : Nat} (h : s.rollByTag t = some n) :
    ∃ x, s.roll n = some x ∧ x.tag = t := by
  obtain ⟨x, hmem, htag⟩ := Tbl.first_some h
  exact ⟨x, (Tbl.mem_iff_find hs).mp hmem, by simpa using htag⟩

theorem State.rollByTag_none {s : State} (hs : s.rolls.rising = true) {t : Tag} :
    s.rollByTag t = none ↔ ∀ n x, s.roll n = some x → x.tag ≠ t := by
  refine Tbl.first_none.trans (forall₂_congr fun n x => ?_)
  rw [Tbl.mem_iff_find hs]
  simp [State.roll]

theorem State.resolve_byTag_some {s : State} (hs : s.rolls.rising = true) {t : Tag} {n : Nat} {x : Roll}
    (h : s.resolve (.byTag t) = some (n, x)) : s.roll n = some x ∧ x.tag = t := by
  obtain ⟨m, hm, hx⟩ := Option.bind_eq_some_iff.mp h
  obtain ⟨y, hy, hpair⟩ := Option.map_eq_some_iff.mp hx
  obtain ⟨z, hz, htag⟩ := State.rollByTag_some hs hm
  cases hpair
  rw [hy] at hz
  cases hz
  exact ⟨hy, htag⟩

theorem State.resolve_byTag_none {s : State} (hs : s.rolls.rising = true) {t : Tag} :
    s.resolve (.byTag t) = none ↔ ∀ n x, s.roll n = some x → x.tag ≠ t := by
  rw [← State.rollByTag_none hs]
  refine ⟨fun h => ?_, fun h => by simp [State.resolve, h]⟩
  cases hn : s.rollByTag t with
  | none => rfl
  | some n =>
    obtain ⟨x, hx, _⟩ := State.rollByTag_some hs hn
    simp [State.resolve, hn, hx] at h

/-! ## LOOKUP_ROLL -/

/-- The fields of a LOOKUP_ROLL payload, in their order (R177). -/
def State.rollFields (s : State) (n : Nat) (x : Roll) : List (List Byte) :=
  [beBytes 2 n, tagBytes x.tag, beBytes 1 x.grade, beBytes 2 x.width, beBytes 4 x.arrival,
    beBytes 1 (nameByte rollStates (some x.state)), x.loc.bytes, beBytes 2 x.diameter, beBytes 2 (x.weight.getD 0),
    beBytes 2 (x.mount.getD 0), beBytes 1 (x.order.getD 0), beBytes 2 (x.job.getD 0), beBytes 2 x.consumed, holdByte x.hold,
    [BitVec.ofNat 8 (bitsNat ([x.weight.isSome, x.mount.isSome, x.order.isSome, x.job.isSome] ++ s.rollMarks n x))]]

theorem State.rollPayload_eq (s : State) (n : Nat) (x : Roll) : s.rollPayload n x = (s.rollFields n x).flatten := by
  simp [State.rollPayload, State.rollFields]

theorem State.rollFields_lengths (s : State) (n : Nat) (x : Roll) :
    (s.rollFields n x).map List.length = [2, 8, 1, 2, 4, 1, 3, 2, 2, 2, 1, 2, 2, 1, 1] := by
  simp [State.rollFields, beBytes_length, tagBytes_length, loc_length, holdByte_length]

theorem State.rollPayload_length (s : State) (n : Nat) (x : Roll) : (s.rollPayload n x).length = 34 := by
  rw [State.rollPayload_eq, List.length_flatten, State.rollFields_lengths]
  rfl

/-- Each field of the payload stands at its place. -/
theorem State.rollPayload_slice (s : State) (n : Nat) (x : Roll) (i : Nat) :
    ((s.rollPayload n x).drop ([2, 8, 1, 2, 4, 1, 3, 2, 2, 2, 1, 2, 2, 1, 1].take i).sum).take
      ([2, 8, 1, 2, 4, 1, 3, 2, 2, 2, 1, 2, 2, 1, 1].getD i 0) = (s.rollFields n x).getD i [] := by
  rw [State.rollPayload_eq]
  exact flatten_slice (s.rollFields_lengths n x) i

theorem getD_lt {o : Option Nat} {k : Nat} (hk : 0 < k) (h : ∀ n, o = some n → n < k) : o.getD 0 < k := by
  cases o with
  | none => exact hk
  | some n => exact h n rfl

theorem State.isTop_eq (s : State) (n : Nat) (x : Roll) : s.isTop n x = match x.loc with
    | .bay b _ => (s.bay b).stack.getLast? == some n
    | _ => false := by
  cases h : x.loc <;> simp [State.isTop, Roll.bay, h, State.top]

theorem State.isBuried_eq (s : State) (n : Nat) (x : Roll) : s.isBuried n x = match x.loc with
    | .bay b _ => !((s.bay b).stack.getLast? == some n)
    | _ => false := by
  cases h : x.loc <;> simp [State.isBuried, State.isTop, Roll.bay, h, State.top]

/-- The three answers of LOOKUP_ROLL (R20). -/
theorem execLookupRoll_answers (s : State) (r : RollRef) (ht : s.takes (.lookupRoll r) = true) :
    (r.ok = false → exec (.lookupRoll r) s = .next (s.fresh.replied (.lookupRoll r) .badArgument [])) ∧
    (r.ok = true → s.resolve r = none → exec (.lookupRoll r) s = .next (s.fresh.replied (.lookupRoll r) .notFound [])) ∧
    ∀ (n : Nat) (x : Roll), r.ok = true → s.resolve r = some (n, x) →
      exec (.lookupRoll r) s = .next (s.fresh.replied (.lookupRoll r) .ok (s.rollPayload n x)) := by
  refine ⟨fun hok => ?_, fun hok hres => ?_, fun n x hok hres => ?_⟩
  · exact request_refused ht (by simp [State.lookup, hok])
  · exact request_refused ht (by simp [State.lookup, hok, resolve_fresh, hres])
  · exact request_eq_quiet (q := s.fresh.okWith (s.rollPayload n x)) ht
      (by simp only [State.lookup, hok, resolve_fresh, hres, if_true]; rfl) rfl rfl

/-- Settles O6: the answers of LOOKUP_ROLL, the two ways a roll is named, and the payload cut at the lengths of its fields. -/
theorem lookupRollAnswersTheRecord : Obligations.LookupRollAnswersTheRecord := by
  refine ⟨execLookupRoll_answers, fun s => ⟨RollRef.byRecord_ok, RollRef.byTag_ok, fun _ => rfl, fun hs =>
    ⟨fun _ _ _ h => State.resolve_byTag_some hs h, fun _ => State.resolve_byTag_none hs⟩⟩, ?_⟩
  intro s n x hn hgrade hwidth harrival hdiameter hweight hmount horder hjob hconsumed
  have slice := s.rollPayload_slice n x
  have bits := getElem?_of_slice (slice 14)
  refine ⟨s.rollPayload_length n x, ?_, ?_, ?_, ?_, ?_, ?_, ?_, ?_, ?_, ?_, ?_, ?_, ?_, ?_, s.isTop_eq n x, s.isBuried_eq n x, ?_⟩
  · exact (congrArg beNat (slice 0)).trans (beNat_beBytes_of_lt (w := 2) hn)
  · exact (congrArg beNat (slice 1)).trans (beNat_tagBytes x.tag)
  · exact (congrArg beNat (slice 2)).trans (beNat_beBytes_of_lt (w := 1) hgrade)
  · exact (congrArg beNat (slice 3)).trans (beNat_beBytes_of_lt (w := 2) hwidth)
  · exact (congrArg beNat (slice 4)).trans (beNat_beBytes_of_lt (w := 4) (Nat.lt_succ_of_le harrival))
  · exact (congrArg beNat (slice 5)).trans (beNat_rollState x.state)
  · exact (slice 6).trans (Location.bytes_eq x.loc)
  · exact (congrArg beNat (slice 7)).trans (beNat_beBytes_of_lt (w := 2) hdiameter)
  · exact (congrArg beNat (slice 8)).trans (beNat_beBytes_of_lt (w := 2) (getD_lt (by decide) hweight))
  · exact (congrArg beNat (slice 9)).trans (beNat_beBytes_of_lt (w := 2) (getD_lt (by decide) hmount))
  · exact (congrArg beNat (slice 10)).trans (beNat_beBytes_of_lt (w := 1) (getD_lt (by decide) horder))
  · exact (congrArg beNat (slice 11)).trans (beNat_beBytes_of_lt (w := 2) (getD_lt (by decide) hjob))
  · exact (congrArg beNat (slice 12)).trans (beNat_beBytes_of_lt (w := 2) hconsumed)
  · exact (slice 13).trans (holdByte_eq x.hold)
  · exact (congrArg (Option.map _) bits).trans (congrArg some (flagByte_bits rfl))

/-! ## LIST_ROLLS: the lists (R21, R22) -/

theorem byArrival_perm (e : Nat × Roll) (l : List (Nat × Roll)) : (byArrival e l).Perm (e :: l) := by
  induction l with
  | nil => exact .refl _
  | cons d ds ih =>
    unfold byArrival
    split
    · exact .refl _
    · exact (ih.cons d).trans (.swap e d ds)

/-- A roll put into a list in arrival order leaves it in that order. -/
theorem byArrival_sorted (e : Nat × Roll) {l : List (Nat × Roll)} (h : l.Pairwise fun a b => a.2.arrival ≤ b.2.arrival) :
    (byArrival e l).Pairwise fun a b => a.2.arrival ≤ b.2.arrival := by
  induction l with
  | nil => simp [byArrival]
  | cons d ds ih =>
    obtain ⟨hd, hds⟩ := List.pairwise_cons.mp h
    unfold byArrival
    split
    · next hlt =>
      refine List.pairwise_cons.mpr ⟨fun b hb => ?_, h⟩
      rcases List.mem_cons.mp hb with rfl | hb
      · exact Nat.le_of_lt hlt
      · exact Nat.le_trans (Nat.le_of_lt hlt) (hd b hb)
    · next hge =>
      refine List.pairwise_cons.mpr ⟨fun b hb => ?_, ih hds⟩
      rcases List.mem_cons.mp ((byArrival_perm e ds).mem_iff.mp hb) with rfl | hb
      · exact Nat.le_of_not_lt hge
      · exact hd b hb

theorem foldr_byArrival_perm (l : List (Nat × Roll)) : (l.foldr byArrival []).Perm l := by
  induction l with
  | nil => exact .refl _
  | cons e l ih => exact (byArrival_perm e _).trans (ih.cons e)

theorem foldr_byArrival_sorted (l : List (Nat × Roll)) :
    (l.foldr byArrival []).Pairwise fun a b => a.2.arrival ≤ b.2.arrival := by
  induction l with
  | nil => exact List.Pairwise.nil
  | cons e l ih => exact byArrival_sorted e ih

/-! ## LIST_ROLLS: the payload (R177) -/

/-- The fields of an entry of LIST_ROLLS, in their order (R177). -/
def State.entryFields (s : State) (n : Nat) (x : Roll) : List (List Byte) :=
  [beBytes 2 n, tagBytes x.tag, beBytes 4 x.arrival, beBytes 1 (nameByte rollStates (some x.state)), x.loc.bytes,
    beBytes 2 x.diameter, holdByte x.hold, [BitVec.ofNat 8 (bitsNat ([false, false, false, false] ++ s.rollMarks n x))]]

theorem State.rollEntry_eq (s : State) (n : Nat) (x : Roll) : s.rollEntry n x = (s.entryFields n x).flatten := by
  simp [State.rollEntry, State.entryFields]

theorem State.entryFields_lengths (s : State) (n : Nat) (x : Roll) :
    (s.entryFields n x).map List.length = [2, 8, 4, 1, 3, 2, 1, 1] := by
  simp [State.entryFields, beBytes_length, tagBytes_length, loc_length, holdByte_length]

theorem State.rollEntry_length (s : State) (n : Nat) (x : Roll) : (s.rollEntry n x).length = 22 := by
  rw [State.rollEntry_eq, List.length_flatten, State.entryFields_lengths]
  rfl

/-- Each field of an entry stands at its place. -/
theorem State.rollEntry_slice (s : State) (n : Nat) (x : Roll) (i : Nat) :
    ((s.rollEntry n x).drop ([2, 8, 4, 1, 3, 2, 1, 1].take i).sum).take ([2, 8, 4, 1, 3, 2, 1, 1].getD i 0) =
      (s.entryFields n x).getD i [] := by
  rw [State.rollEntry_eq]
  exact flatten_slice (s.entryFields_lengths n x) i

/-- The first byte counts the entries, at most 11, and marks that more stand behind them. -/
theorem State.listPayload_eq (s : State) (l : List (Nat × Roll)) :
    s.listPayload l = BitVec.ofNat 8 (min 11 l.length + if 11 < l.length then 128 else 0) ::
      (l.take 11).flatMap (fun e => s.rollEntry e.1 e.2) := by
  have more : min 11 l.length < l.length ↔ 11 < l.length := by omega
  simp only [State.listPayload, List.length_take, more]

theorem State.listPayload_length (s : State) (l : List (Nat × Roll)) : (s.listPayload l).length = 1 + 22 * min 11 l.length := by
  have entries (k : List (Nat × Roll)) : (k.flatMap fun e => s.rollEntry e.1 e.2).length = 22 * k.length := by
    induction k with
    | nil => rfl
    | cons e k ih => rw [List.flatMap_cons, List.length_append, ih, State.rollEntry_length, List.length_cons]; omega
  rw [State.listPayload_eq, List.length_cons, entries, List.length_take]
  omega

/-! ## LIST_ROLLS: the answers -/

/-- A record number with its record, listed where it is live. -/
def State.liveAt (s : State) (n : Nat) : List (Nat × Roll) :=
  match s.roll n with
  | some r => [(n, r)]
  | none => []

theorem State.numbered_some (s : State) (n : Nat) : s.numbered (some n) = s.liveAt n := by
  cases h : s.roll n <;> simp [State.numbered, State.liveAt, h]

theorem State.numbered_eq (s : State) (o : Option Nat) : s.numbered o = o.toList.flatMap s.liveAt := by
  cases o with
  | none => rfl
  | some n => simp [State.numbered_some]

theorem execListRollsByGrade_answers (s : State) (g w key : Nat) (ht : s.takes (.listRollsByGrade g w key) = true) :
    exec (.listRollsByGrade g w key) s = .next (
      if g ≤ 15 ∧ 300 ≤ w ∧ w ≤ 2200 ∧ key ≤ 4294967295 then
        s.fresh.replied (.listRollsByGrade g w key) .ok
          (s.listPayload (s.rollsWhere fun r => r.grade == g && r.width == w && decide (key < r.arrival)))
      else s.fresh.replied (.listRollsByGrade g w key) .badArgument []) := by
  by_cases h : g ≤ 15 ∧ 300 ≤ w ∧ w ≤ 2200 ∧ key ≤ 4294967295
  · rw [if_pos h]
    exact request_eq_quiet (q := s.fresh.okWith _) ht (if_pos h) rfl rfl
  · rw [if_neg h]
    exact request_refused ht (if_neg h)

theorem placeOk_iff (p : ListPlace) : placeOk p = true ↔ match p with
    | .bay b => 1 ≤ b ∧ b ≤ 120
    | .vehicle v => 1 ≤ v ∧ v ≤ 12
    | .arm st a => 1 ≤ st ∧ st ≤ 16 ∧ a ≠ none
    | .node y key => 1 ≤ y ∧ y ≤ 48 ∧ key ≤ 4294967295 := by
  cases p <;>
    simp [placeOk, Config.bays, Config.vehicles, Config.stands, Config.nodes, Config.max32, and_assoc, Option.isSome_iff_ne_none]

/-- The rolls a place's answer lists (R22): every live roll of a stack, of a load or of an arm, and the announced rolls of a node. -/
theorem State.rollsAt_eq (s : State) (p : ListPlace) : s.rollsAt p = match p with
    | .bay b => (s.bay b).stack.flatMap s.liveAt
    | .vehicle v => (s.vehicle v).load.toList.flatMap s.liveAt
    | .arm st a => (a.bind fun a => ((s.stand st).arm a).roll).toList.flatMap s.liveAt
    | .node y key => s.rollsWhere fun r => r.state == .announced && r.loc == .node y && decide (key < r.arrival) := by
  cases p with
  | node => rfl
  | bay b => simp only [State.rollsAt, State.numbered_some]
  | vehicle | arm => exact s.numbered_eq _

/-- The list a place's answer carries is the model's own list of the rolls there. -/
theorem execListRollsByLocation_answers (s : State) (p : ListPlace) (ht : s.takes (.listRollsByLocation p) = true) :
    (placeOk p = false → exec (.listRollsByLocation p) s = .next (s.fresh.replied (.listRollsByLocation p) .badArgument [])) ∧
    (placeOk p = true →
      exec (.listRollsByLocation p) s = .next (s.fresh.replied (.listRollsByLocation p) .ok (s.listPayload (s.rollsAt p)))) := by
  refine ⟨fun h => request_refused ht (by simp [State.listByPlace, h]), fun h => ?_⟩
  refine request_eq_quiet (q := s.fresh.okWith (s.listPayload (s.rollsAt p))) ht ?_ rfl rfl
  simp only [State.listByPlace, h, if_true]
  cases p <;> rfl

/-- Settles O7: the ranges and lists of both forms, the order of the lists, and the payload cut at the lengths of its fields. -/
theorem listRollsAnswersInOrder : Obligations.ListRollsAnswersInOrder := by
  refine ⟨⟨execListRollsByGrade_answers, fun s p ht => ?_⟩,
    fun s p => ⟨foldr_byArrival_sorted _, foldr_byArrival_perm _⟩,
    fun s l => ⟨s.listPayload_eq l, s.listPayload_length l⟩, fun s n x hn harrival hdiameter => ?_⟩
  · obtain ⟨bad, good⟩ := execListRollsByLocation_answers s p ht
    refine ⟨fun h => bad (Bool.eq_false_iff.mpr fun hok => h ((placeOk_iff p).mp hok)), fun h => ?_⟩
    exact (good ((placeOk_iff p).mpr h)).trans
      (congrArg (fun l => Host.Outcome.next (s.fresh.replied (.listRollsByLocation p) .ok (s.listPayload l))) (s.rollsAt_eq p))
  · have slice := s.rollEntry_slice n x
    have bits := getElem?_of_slice (slice 7)
    refine ⟨s.rollEntry_length n x, ?_, ?_, ?_, ?_, ?_, ?_, ?_, ?_⟩
    · exact (congrArg beNat (slice 0)).trans (beNat_beBytes_of_lt (w := 2) hn)
    · exact (congrArg beNat (slice 1)).trans (beNat_tagBytes x.tag)
    · exact (congrArg beNat (slice 2)).trans (beNat_beBytes_of_lt (w := 4) (Nat.lt_succ_of_le harrival))
    · exact (congrArg beNat (slice 3)).trans (beNat_rollState x.state)
    · exact (slice 4).trans (Location.bytes_eq x.loc)
    · exact (congrArg beNat (slice 5)).trans (beNat_beBytes_of_lt (w := 2) hdiameter)
    · exact (slice 6).trans (holdByte_eq x.hold)
    · exact (congrArg (Option.map _) bits).trans (congrArg some (flagByte_bits rfl))

end Sys2Proof.Machine
end

section
/-! Proofs about rolls that arrive: ANNOUNCE_ROLL, TAG_READ and SCALE_WEIGHT (R9 to R13). -/

namespace Sys2Proof.Machine

/-! ## Enrolment (R9, R10) -/

/-- With room for it, a roll announced at a node is enrolled under the lowest free record number. -/
theorem State.announce_room {s : State} {n : Nat} (hroom : s.announceRoom = true) (hfree : s.freeRecord = some n)
    (t : Tag) (g w d : Nat) (kg : Option Nat) (node : Nat) :
    s.announce t g w d kg node = some (n, s.enrolled n t g w d kg node) := by
  have horder : s.orderFree = true := by
    simp only [State.announceRoom, Bool.and_eq_true] at hroom
    exact hroom.1.2
  simp only [State.announce, State.createOrder, hroom, hfree, horder, if_true]
  rfl

theorem State.announce_full {s : State} (hroom : s.announceRoom = false) (t : Tag) (g w d : Nat) (kg : Option Nat) (node : Nat) :
    s.announce t g w d kg node = none := by
  simp [State.announce, hroom]

/-! ## ANNOUNCE_ROLL (R12) -/

theorem execAnnounceRoll_answers (s : State) (t : Tag) (g w d : Nat) (kg : Option Nat) (node : Nat)
    (ht : s.takes (.announceRoll t g w d kg node) = true) :
    ((s.announceArgs t g w d kg && s.announceNode node) = false →
      exec (.announceRoll t g w d kg node) s = .next (s.fresh.replied (.announceRoll t g w d kg node) .badArgument [])) ∧
    ((s.announceArgs t g w d kg && s.announceNode node) = true → (s.rollByTag t).isSome = true →
      exec (.announceRoll t g w d kg node) s = .next (s.fresh.replied (.announceRoll t g w d kg node) .duplicate [])) ∧
    ((s.announceArgs t g w d kg && s.announceNode node) = true → (s.rollByTag t).isSome = false → s.announceRoom = false →
      exec (.announceRoll t g w d kg node) s =
        .next ((s.fresh.raise .storeFull node).replied (.announceRoll t g w d kg node) .full [])) ∧
    ∀ n, (s.announceArgs t g w d kg && s.announceNode node) = true → (s.rollByTag t).isSome = false → s.announceRoom = true →
      s.freeRecord = some n →
      exec (.announceRoll t g w d kg node) s =
        .next ((s.fresh.enrolled n t g w d kg node).replied (.announceRoll t g w d kg node) .ok
          (beBytes 2 n ++ beBytes 4 (s.arrival + 1))).finish := by
  have args : (s.fresh.announceArgs t g w d kg && s.fresh.announceNode node) =
      (s.announceArgs t g w d kg && s.announceNode node) := rfl
  have live : s.fresh.rollByTag t = s.rollByTag t := rfl
  refine ⟨fun hbad => ?_, fun hok hdup => ?_, fun hok hnew hfull => ?_, fun n hok hnew hroom hfree => ?_⟩
  · exact request_refused ht (by simp [State.announceRequest, args, hbad])
  · exact request_refused ht (by simp only [State.announceRequest, args, hok, live, hdup, if_true])
  · have none : s.fresh.announce t g w d kg node = none := State.announce_full (s := s.fresh) hfull ..
    exact request_eq_quiet (q := (s.fresh.raise .storeFull node).no .full) ht
      (by simp only [State.announceRequest, args, hok, live, hnew, none, if_true, Bool.false_eq_true, if_false]) rfl rfl
  · have enrolled : s.fresh.announce t g w d kg node = some (n, s.fresh.enrolled n t g w d kg node) :=
      State.announce_room (s := s.fresh) hroom hfree ..
    exact request_eq (q := (s.fresh.enrolled n t g w d kg node).okWith (beBytes 2 n ++ beBytes 4 (s.arrival + 1))) ht
      (by simp only [State.announceRequest, args, hok, live, hnew, enrolled, if_true, Bool.false_eq_true, if_false]; rfl) rfl

/-! ## TAG_READ (R10, R11) -/

theorem exec_tagRead (t : Tag) (g w d : Nat) (kg : Option Nat) (more : Bool) (s : State) :
    exec (.tagRead t g w d kg more) s = execTagRead t g w d kg more s := rfl

theorem exec_scaleWeight (t : Tag) (kg : Nat) (more : Bool) (s : State) :
    exec (.scaleWeight t kg more) s = execScaleWeight t kg more s := rfl

section
variable {s : State} {e : Exchange} {x : Station} {more : Bool}

theorem execTagRead_otherRole (h : s.hears e x) (hr : ∀ node, x.role ≠ .dockReader node) (t : Tag) (g w d : Nat) (kg : Option Nat) :
    exec (.tagRead t g w d kg more) s = .next ((s.heard e more).refuse e.addr .tagRead .badArgument) := by
  rw [exec_tagRead, execTagRead]
  refine Law.report_refuse h ?_
  cases hx : x.role with
  | dockReader node => exact absurd hx (hr node)
  | _ => rfl

/-- A read of a node's reader is taken by the registry (R10, R11). -/
theorem execTagRead_reader (h : s.hears e x) {node : Nat} (hr : x.role = .dockReader node) (t : Tag) (g w d : Nat) (kg : Option Nat) :
    exec (.tagRead t g w d kg more) s = .next ((s.heard e more).tagReadAt e.addr node t g w d kg).finish := by
  rw [exec_tagRead, execTagRead, report_heard h, hr]

theorem execTagRead_answers (h : s.hears e x) {node : Nat} (hr : x.role = .dockReader node) (t : Tag) (g w d : Nat) (kg : Option Nat) :
    (s.announceArgs t g w d kg = false →
      exec (.tagRead t g w d kg more) s = .next ((s.heard e more).refuse e.addr .tagRead .badArgument)) ∧
    (∀ (n : Nat) (r : Roll), s.announceArgs t g w d kg = true → s.resolve (.byTag t) = some (n, r) → r.readAgain g w node = true →
      exec (.tagRead t g w d kg more) s =
        .next (((s.heard e more).putRoll n (some { r with weight := r.weight.or kg })).accept e.addr .tagRead)) ∧
    (∀ (n : Nat) (r : Roll), s.announceArgs t g w d kg = true → s.resolve (.byTag t) = some (n, r) → r.readAgain g w node = false →
      exec (.tagRead t g w d kg more) s = .next ((s.heard e more).refuse e.addr .tagRead .duplicateTag)) ∧
    (s.announceArgs t g w d kg = true → s.resolve (.byTag t) = none → s.announceRoom = false →
      exec (.tagRead t g w d kg more) s = .next (((s.heard e more).raise .storeFull node).refuse e.addr .tagRead .full)) ∧
    ∀ n, s.announceArgs t g w d kg = true → s.resolve (.byTag t) = none → s.announceRoom = true → s.freeRecord = some n →
      exec (.tagRead t g w d kg more) s =
        .next (((s.heard e more).enrolled n t g w d kg node).accept e.addr .tagRead).finish := by
  rw [execTagRead_reader h hr]
  simp only [State.tagReadAt, heard_args, heard_resolve]
  refine ⟨fun hbad => ?_, fun n r hok hres hagain => ?_, fun n r hok hres hother => ?_, fun hok hres hfull => ?_,
    fun n hok hres hroom hfree => ?_⟩
  · simp [hbad, State.finish_idle, Law.refuse_quiet]
  · simp [hok, hres, hagain, State.finish_idle, Law.accept_quiet, Roll.weighedBy]
  · simp [hok, hres, hother, State.finish_idle, Law.refuse_quiet]
  · have none : (s.heard e more).announce t g w d kg node = none := State.announce_full (heard_room.trans hfull) ..
    simp [hok, hres, none, State.finish_idle, Law.refuse_quiet]
  · simp [hok, hres, State.announce_room (heard_room.trans hroom) (heard_free.trans hfree)]

/-! ## SCALE_WEIGHT (R13) -/

theorem execScaleWeight_otherRole (h : s.hears e x) (hr : x.role ≠ .scale) (t : Tag) (kg : Nat) :
    exec (.scaleWeight t kg more) s = .next ((s.heard e more).refuse e.addr .scaleWeight .badArgument) := by
  rw [exec_scaleWeight, execScaleWeight]
  refine Law.report_refuse h ?_
  cases hx : x.role with
  | scale => exact absurd hx hr
  | _ => rfl

/-- A weight from the scale is taken by the registry (R13). -/
theorem execScaleWeight_scale (h : s.hears e x) (hr : x.role = .scale) (t : Tag) (kg : Nat) :
    exec (.scaleWeight t kg more) s = .next ((s.heard e more).scaleAt e.addr t kg).finish := by
  rw [exec_scaleWeight, execScaleWeight, report_heard h, hr]

theorem execScaleWeight_answers (h : s.hears e x) (t : Tag) (kg : Nat) :
    ((x.role ≠ .scale ∨ kg < 1 ∨ 5000 < kg) →
      exec (.scaleWeight t kg more) s = .next ((s.heard e more).refuse e.addr .scaleWeight .badArgument)) ∧
    (x.role = .scale → 1 ≤ kg → kg ≤ 5000 → s.resolve (.byTag t) = none →
      exec (.scaleWeight t kg more) s = .next ((s.heard e more).refuse e.addr .scaleWeight .badState)) ∧
    ∀ (n : Nat) (r : Roll), x.role = .scale → 1 ≤ kg → kg ≤ 5000 → s.resolve (.byTag t) = some (n, r) →
      exec (.scaleWeight t kg more) s = .next (
        if r.state = .announced then ((s.heard e more).putRoll n (some { r with weight := some kg })).accept e.addr .scaleWeight
        else (s.heard e more).refuse e.addr .scaleWeight .badState) := by
  refine ⟨fun hbad => ?_, fun hr hlo hhi hres => ?_, fun n r hr hlo hhi hres => ?_⟩
  · by_cases hr : x.role = .scale
    · have out : ¬ (1 ≤ kg ∧ kg ≤ 5000) := by
        have := hbad.resolve_left (not_not.mpr hr)
        omega
      rw [execScaleWeight_scale h hr, State.scaleAt, if_neg out, State.finish_idle]
      simp [Law.refuse_quiet]
    · exact execScaleWeight_otherRole h hr t kg
  · rw [execScaleWeight_scale h hr, State.scaleAt, if_pos ⟨hlo, hhi⟩, heard_resolve, hres, State.finish_idle]
    simp [Law.refuse_quiet]
  · rw [execScaleWeight_scale h hr, State.scaleAt, if_pos ⟨hlo, hhi⟩, heard_resolve, hres, State.finish_idle]
    by_cases hst : r.state = .announced <;> simp [hst, Law.refuse_quiet, Law.accept_quiet]

end

/-- Settles O8. -/
theorem arrivingRollsAreRecorded : Obligations.ArrivingRollsAreRecorded :=
  ⟨execAnnounceRoll_answers,
    fun _ _ _ t g w d kg _ h => ⟨fun hr => execTagRead_otherRole h hr t g w d kg, fun _ hr => execTagRead_answers h hr t g w d kg⟩,
    fun _ _ _ t kg _ h => execScaleWeight_answers h t kg⟩

end Sys2Proof.Machine
end

section
/-! Proofs about holds, their release and the retirement of a roll (R16, R19, R23). -/

namespace Sys2Proof.Machine

/-! ## HOLD_ROLL (R16) -/

/-- The rolls that HOLD_ROLL refuses. -/
theorem Roll.mayHold_eq_false (x : Roll) : x.mayHold = false ↔ x.order.isSome ∨ x.state = .reserved ∨ x.state = .inTransit ∨
    x.state = .ready ∨ x.state = .running ∨ x.hold = some .discrepancy := by
  cases hs : x.state <;> simp [Roll.mayHold, hs, Option.isSome_iff_ne_none, or_iff_not_imp_left]

theorem execHoldRoll_answers (s : State) (r : RollRef) (h : Option Hold) (ht : s.takes (.holdRoll r h) = true) :
    ((h = none ∨ h = some .discrepancy ∨ r.ok = false) →
      exec (.holdRoll r h) s = .next (s.fresh.replied (.holdRoll r h) .badArgument [])) ∧
    ((h = some .damaged ∨ h = some .operator) → r.ok = true → s.resolve r = none →
      exec (.holdRoll r h) s = .next (s.fresh.replied (.holdRoll r h) .notFound [])) ∧
    ∀ (n : Nat) (x : Roll), (h = some .damaged ∨ h = some .operator) → r.ok = true → s.resolve r = some (n, x) →
      exec (.holdRoll r h) s = .next (
        if x.order.isSome ∨ x.state = .reserved ∨ x.state = .inTransit ∨ x.state = .ready ∨ x.state = .running ∨ x.hold = some .discrepancy
        then s.fresh.replied (.holdRoll r h) .badState []
        else (s.fresh.putRoll n (some { x with hold := h })).replied (.holdRoll r h) .ok []) := by
  refine ⟨fun hbad => request_refused ht ?_, fun hh hok hres => request_refused ht ?_, fun n x hh hok hres => ?_⟩
  · rcases h with _ | h
    · rfl
    · cases h with
      | discrepancy => rfl
      | damaged | operator =>
        have hok : r.ok = false := by simpa using hbad
        simp [State.holdRequest, hok]
  · rcases hh with rfl | rfl <;> simp [State.holdRequest, hok, resolve_fresh, hres]
  · by_cases hm : x.mayHold = false
    · rw [if_pos (x.mayHold_eq_false.mp hm)]
      refine request_refused ht ?_
      rcases hh with rfl | rfl <;> simp [State.holdRequest, hok, resolve_fresh, hres, hm]
    · rw [if_neg fun hc => hm (x.mayHold_eq_false.mpr hc)]
      refine request_eq_quiet (q := (s.fresh.putRoll n (some { x with hold := h })).ok) ht ?_ rfl rfl
      rcases hh with rfl | rfl <;> simp [State.holdRequest, hok, resolve_fresh, hres, Bool.eq_true_of_not_eq_false hm]

/-! ## RELEASE_ROLL (R19) -/

/-- The rolls that RELEASE_ROLL refuses. -/
theorem State.mayRelease_eq_false (s : State) (x : Roll) : s.mayRelease x = false ↔
    x.hold = none ∨ x.order.isSome ∨ (x.hold = some .discrepancy ∧ ∃ b, x.bay = some b ∧ (s.bay b).hold = some .discrepancy) := by
  cases ho : x.order with
  | some o => simp [State.mayRelease, ho]
  | none =>
    rcases hh : x.hold with _ | h
    · simp [State.mayRelease, ho, hh]
    · cases h with
      | damaged | operator => simp [State.mayRelease, ho, hh]
      | discrepancy => cases hb : x.bay <;> simp [State.mayRelease, ho, hh, hb]

theorem State.mayRelease_fresh (s : State) (x : Roll) : s.fresh.mayRelease x = s.mayRelease x := rfl

theorem execReleaseRoll_refused (s : State) (r : RollRef) (ht : s.takes (.releaseRoll r) = true) :
    (r.ok = false → exec (.releaseRoll r) s = .next (s.fresh.replied (.releaseRoll r) .badArgument [])) ∧
    (r.ok = true → s.resolve r = none → exec (.releaseRoll r) s = .next (s.fresh.replied (.releaseRoll r) .notFound [])) ∧
    ∀ (n : Nat) (x : Roll), r.ok = true → s.resolve r = some (n, x) → s.mayRelease x = false →
      exec (.releaseRoll r) s = .next (s.fresh.replied (.releaseRoll r) .badState []) := by
  refine ⟨fun hok => request_refused ht ?_, fun hok hres => request_refused ht ?_, fun n x hok hres hm => request_refused ht ?_⟩
  · simp [State.releaseRequest, hok]
  · simp [State.releaseRequest, hok, resolve_fresh, hres]
  · simp [State.releaseRequest, hok, resolve_fresh, hres, State.mayRelease_fresh, hm]

/-- A released roll loses its hold, and a STORED one leads to a pass (R19, R129). -/
theorem execReleaseRoll_released {s : State} {r : RollRef} (ht : s.takes (.releaseRoll r) = true) {n : Nat} {x : Roll} (hok : r.ok = true)
    (hres : s.resolve r = some (n, x)) (hm : s.mayRelease x = true) :
    exec (.releaseRoll r) s = .next ((({ s.fresh with passDue := x.state == RollState.stored }).putRoll n
      (some { x with hold := none })).replied (.releaseRoll r) .ok []).finish := by
  refine request_eq (q := State.ok _) ht ?_ rfl
  by_cases hst : x.state = .stored
  · simp [State.releaseRequest, hok, resolve_fresh, hres, State.mayRelease_fresh, hm, hst]; rfl
  · have quiet : (x.state == RollState.stored) = false := by simpa using hst
    simp [State.releaseRequest, hok, resolve_fresh, hres, State.mayRelease_fresh, hm, quiet, hst]; rfl

theorem execReleaseRoll_answers (s : State) (r : RollRef) (ht : s.takes (.releaseRoll r) = true) :
    (r.ok = false → exec (.releaseRoll r) s = .next (s.fresh.replied (.releaseRoll r) .badArgument [])) ∧
    (r.ok = true → s.resolve r = none → exec (.releaseRoll r) s = .next (s.fresh.replied (.releaseRoll r) .notFound [])) ∧
    ∀ (n : Nat) (x : Roll), r.ok = true → s.resolve r = some (n, x) →
      (x.hold = none ∨ x.order.isSome ∨ (x.hold = some .discrepancy ∧ ∃ b, x.bay = some b ∧ (s.bay b).hold = some .discrepancy) →
        exec (.releaseRoll r) s = .next (s.fresh.replied (.releaseRoll r) .badState [])) ∧
      (x.hold ≠ none → x.order = none → (x.hold = some .discrepancy → ∀ b, x.bay = some b → (s.bay b).hold ≠ some .discrepancy) →
        exec (.releaseRoll r) s =
          .next ((({ s.fresh with passDue := x.state == RollState.stored }).putRoll n (some { x with hold := none })).replied
            (.releaseRoll r) .ok []).finish) := by
  obtain ⟨hbad, hnone, hstate⟩ := execReleaseRoll_refused s r ht
  refine ⟨hbad, hnone, fun n x hok hres => ⟨fun h => hstate n x hok hres ((s.mayRelease_eq_false x).mpr h), fun hh ho hb => ?_⟩⟩
  refine execReleaseRoll_released ht hok hres (Bool.eq_true_of_not_eq_false fun hm => ?_)
  rcases (s.mayRelease_eq_false x).mp hm with h | h | ⟨hd, b, hxb, hbh⟩
  · exact hh h
  · simp [ho] at h
  · exact hb hd b hxb hbh

/-! ## A roll leaving a bay's stack (R30) -/

theorem State.relevel_bays (b i : Nat) (rs : List Nat) (s : State) : (State.relevel b i rs s).bays = s.bays := by
  induction rs generalizing i s with
  | nil => rfl
  | cons r rs ih => rw [State.relevel, ih, State.modRoll_bays]

/-- Rolls that are not in the stack keep their records. -/
theorem State.relevel_roll_notMem {m : Nat} {rs : List Nat} (h : m ∉ rs) (b i : Nat) (s : State) :
    (State.relevel b i rs s).roll m = s.roll m := by
  induction rs generalizing i s with
  | nil => rfl
  | cons r rs ih =>
    obtain ⟨hr, hrs⟩ := not_or.mp (mt List.mem_cons.mpr h)
    rw [State.relevel, ih hrs, roll_modRoll, if_neg hr]

/-- A roll of the stack has the level of its place in it. -/
theorem State.relevel_roll_mem {m j : Nat} {rs : List Nat} (hd : rs.Nodup) (h : rs[j]? = some m) (b i : Nat) (s : State) :
    (State.relevel b i rs s).roll m = (s.roll m).map fun y => { y with loc := .bay b (i + j) } := by
  induction rs generalizing i j s with
  | nil => cases h
  | cons r rs ih =>
    obtain ⟨hr, hrs⟩ := List.nodup_cons.mp hd
    rw [State.relevel]
    cases j with
    | zero =>
      cases h
      rw [State.relevel_roll_notMem hr, roll_modRoll, if_pos rfl]
      rfl
    | succ j =>
      have hm : rs[j]? = some m := h
      have hne : m ≠ r := fun e => hr (e ▸ List.mem_of_getElem? hm)
      rw [ih hrs hm, roll_modRoll, if_neg hne]
      exact congrArg (fun l => (s.roll m).map fun y => { y with loc := .bay b l }) (Nat.succ_add_eq_add_succ i j)

theorem State.leaveBay_passDue (s : State) (b n : Nat) : (s.leaveBay b n).passDue = true := rfl

theorem State.leaveBay_roll_notMem {m b n : Nat} {s : State} (h : m ∉ (s.bay b).stack.erase n) : (s.leaveBay b n).roll m = s.roll m :=
  State.relevel_roll_notMem h b 1 _

theorem State.leaveBay_roll_mem {m b n i : Nat} {s : State} (hd : (s.bay b).stack.Nodup) (h : ((s.bay b).stack.erase n)[i]? = some m) :
    (s.leaveBay b n).roll m = (s.roll m).map fun y => { y with loc := .bay b (i + 1) } := by
  rw [Nat.add_comm]
  exact State.relevel_roll_mem (hd.erase n) h b 1 _

theorem State.leaveBay_jobs (s : State) (b n : Nat) : (s.leaveBay b n).jobs = s.jobs :=
  ((State.wr_leaveBay .refl (Nat.le_refl 1) b n).kept_lines (by decide)).2

theorem State.leaveBay_port (s : State) (b n : Nat) : (s.leaveBay b n).port = s.port :=
  ((State.wr_leaveBay .refl (Nat.le_refl 1) b n).kept (by decide)).port

theorem State.evalCallOff_port (s : State) (st : Nat) : (s.evalCallOff st).port = s.port :=
  ((State.wr_evalCallOff (k := 0) .refl st).kept (by decide)).port

/-! ## RETIRE_ROLL (R23) -/

/-- The rolls that RETIRE_ROLL refuses. -/
theorem State.mayRetire_eq_false (s : State) (x : Roll) : s.mayRetire x = false ↔
    x.order.isSome ∨ (x.state ≠ .announced ∧ x.state ≠ .stored ∧ x.hold = none) ∨ s.transferAt x = true := by
  simp only [State.mayRetire, Bool.and_eq_false_iff, Bool.or_eq_false_iff, Bool.not_eq_false', Option.isNone_eq_false_iff,
    beq_eq_false_iff_ne, Option.isSome_eq_false_iff, Option.isNone_iff_eq_none, and_assoc, or_assoc]

theorem execRetireRoll_refused (s : State) (r : RollRef) (ht : s.takes (.retireRoll r) = true) :
    (r.ok = false → exec (.retireRoll r) s = .next (s.fresh.replied (.retireRoll r) .badArgument [])) ∧
    (r.ok = true → s.resolve r = none → exec (.retireRoll r) s = .next (s.fresh.replied (.retireRoll r) .notFound [])) ∧
    ∀ (n : Nat) (x : Roll), r.ok = true → s.resolve r = some (n, x) → s.mayRetire x = false →
      exec (.retireRoll r) s = .next (s.fresh.replied (.retireRoll r) .badState []) := by
  have same (x : Roll) : s.fresh.mayRetire x = s.mayRetire x := rfl
  refine ⟨fun hok => request_refused ht ?_, fun hok hres => request_refused ht ?_, fun n x hok hres hm => request_refused ht ?_⟩
  · simp [State.retireRequest, hok]
  · simp [State.retireRequest, hok, resolve_fresh, hres]
  · simp [State.retireRequest, hok, resolve_fresh, hres, same, hm]

section
variable {s : State} {r : RollRef} {n : Nat} {x : Roll}

/-- What the registry makes of a roll that may be retired. -/
theorem State.retireRequest_eq (hok : r.ok = true) (hres : s.resolve r = some (n, x)) (hm : s.mayRetire x = true) :
    s.fresh.retireRequest r = ((s.fresh.retireRecord n x).reviewStand x.stand).ok := by
  have same : s.fresh.mayRetire x = true := hm
  simp [State.retireRequest, hok, resolve_fresh, hres, same]

theorem execRetireRoll_node (ht : s.takes (.retireRoll r) = true) (hok : r.ok = true) (hres : s.resolve r = some (n, x))
    (hm : s.mayRetire x = true) {y : Nat} (hl : x.loc = .node y) :
    exec (.retireRoll r) s = .next ((s.fresh.putRoll n none).replied (.retireRoll r) .ok []) := by
  refine request_eq_quiet (q := (s.fresh.putRoll n none).ok) ht ?_ rfl rfl
  simp [State.retireRequest_eq hok hres hm, State.retireRecord, State.removeFromPlace, Roll.stand, hl, State.reviewStand]

theorem execRetireRoll_bay (ht : s.takes (.retireRoll r) = true) (hok : r.ok = true) (hres : s.resolve r = some (n, x))
    (hm : s.mayRetire x = true) {b l : Nat} (hl : x.loc = .bay b l) :
    exec (.retireRoll r) s = .next (((s.fresh.leaveBay b n).putRoll n none).replied (.retireRoll r) .ok []).finish := by
  refine request_eq (q := ((s.fresh.leaveBay b n).putRoll n none).ok) ht ?_ (State.leaveBay_port ..)
  simp [State.retireRequest_eq hok hres hm, State.retireRecord, State.removeFromPlace, Roll.stand, hl, State.reviewStand]

theorem execRetireRoll_arm (ht : s.takes (.retireRoll r) = true) (hok : r.ok = true) (hres : s.resolve r = some (n, x))
    (hm : s.mayRetire x = true) {st : Nat} {a : Arm} (hl : x.loc = .arm st a) :
    exec (.retireRoll r) s = .next ((({ s.fresh with
      rolls := s.rolls.put n none,
      stands := s.stands.set st .cold ((s.stand st).withArm a
        { (s.stand st).arm a with state := .empty, roll := none, chan := .clear }) }.evalCallOff st).replied
      (.retireRoll r) .ok []).finish) := by
  refine request_eq (q := State.ok _) ht ?_ (State.evalCallOff_port ..)
  simp only [State.retireRequest_eq hok hres hm, State.retireRecord, State.removeFromPlace, Roll.stand, hl, State.reviewStand]
  rfl

/-- The bay a retired roll leaves: the rolls above it move down, nothing else changes (R23, R30). -/
theorem execRetireRoll_leavesBay (ht : s.takes (.retireRoll r) = true) (hok : r.ok = true) (hres : s.resolve r = some (n, x))
    (hm : s.mayRetire x = true) {b l : Nat} (hl : x.loc = .bay b l) :
    ∃ u : State, exec (.retireRoll r) s = .next (u.replied (.retireRoll r) .ok []).finish ∧ u.passDue = true ∧ u.roll n = none ∧
      (u.bay b).stack = (s.bay b).stack.erase n ∧ (∀ c, c ≠ b → u.bay c = s.bay c) ∧ u.jobs = s.jobs ∧ u.orders = s.orders ∧
      (∀ m, m ≠ n → m ∉ (s.bay b).stack → u.roll m = s.roll m) ∧
      ((s.bay b).stack.Nodup → ∀ i m, (u.bay b).stack[i]? = some m →
        u.roll m = (s.roll m).map fun y => { y with loc := .bay b (i + 1) }) := by
  have hbay (c : Nat) : ((s.fresh.leaveBay b n).putRoll n none).bay c =
      if c = b then { s.bay b with stack := (s.bay b).stack.erase n } else s.bay c := VehicleLaw.leave_bay s.fresh b n c
  have hstack : (((s.fresh.leaveBay b n).putRoll n none).bay b).stack = (s.bay b).stack.erase n := by rw [hbay, if_pos rfl]
  refine ⟨_, execRetireRoll_bay ht hok hres hm hl, rfl, by rw [roll_put, if_pos rfl], hstack,
    fun c hc => by rw [hbay, if_neg hc], State.leaveBay_jobs s.fresh b n, (VehicleLaw.leave s.fresh b n).2.1, ?_, ?_⟩
  · intro m hmn hmem
    rw [roll_put, if_neg hmn]
    exact State.leaveBay_roll_notMem (s := s.fresh) fun h => hmem (List.mem_of_mem_erase h)
  · intro hd i m hi
    rw [hstack] at hi
    have hmn : m ≠ n := fun e => hd.not_mem_erase (e ▸ List.mem_of_getElem? hi)
    rw [roll_put, if_neg hmn]
    exact State.leaveBay_roll_mem (s := s.fresh) hd hi

end

/-- Settles O9: each command's refusals are the negation of its test on the roll; what passes is the move's own writes. -/
theorem rollRecordsAreHeldReleasedAndRetired : Obligations.RollRecordsAreHeldReleasedAndRetired := by
  refine ⟨execHoldRoll_answers, execReleaseRoll_answers, fun s r ht => ?_⟩
  obtain ⟨hbad, hnone, hstate⟩ := execRetireRoll_refused s r ht
  refine ⟨hbad, hnone, fun n x hok hres => ⟨fun h => hstate n x hok hres ((s.mayRetire_eq_false x).mpr h), fun ho hst htr => ?_⟩⟩
  have hm : s.mayRetire x = true := Bool.eq_true_of_not_eq_false fun hm => by
    rcases (s.mayRetire_eq_false x).mp hm with h | ⟨h1, h2, h3⟩ | h
    · simp [ho] at h
    · exact hst.elim h1 fun h => h.elim h2 fun h => h h3
    · simp [htr] at h
  exact ⟨fun y => execRetireRoll_node ht hok hres hm, fun b l => execRetireRoll_leavesBay ht hok hres hm,
    fun st a => execRetireRoll_arm ht hok hres hm⟩

end Sys2Proof.Machine
end

section
/-! What the shared moves and the freeing of an order do, record by record: the rules the proofs about PLACE_ROLL, the stands' reports and the
vehicles' reports use. -/

namespace Sys2Proof.Machine

variable {s : State}

/-! ## Rolls -/

theorem State.modRoll_live {n : Nat} {x : Roll} (h : s.roll n = some x) (f : Roll → Roll) : s.modRoll n f = s.putRoll n (some (f x)) := by
  simp [State.modRoll, h]

theorem State.modRoll_only (s : State) (n : Nat) (f : Roll → Roll) : ∃ t, s.modRoll n f = { s with rolls := t } := by
  unfold State.modRoll
  split
  · exact ⟨s.rolls, rfl⟩
  · exact ⟨_, rfl⟩

theorem State.relevel_only (b i : Nat) (rs : List Nat) (s : State) : ∃ t, State.relevel b i rs s = { s with rolls := t } := by
  induction rs generalizing i s with
  | nil => exact ⟨s.rolls, rfl⟩
  | cons r rs ih =>
    obtain ⟨t, ht⟩ := s.modRoll_only r ({ · with loc := .bay b i })
    obtain ⟨t', ht'⟩ := ih (i + 1) { s with rolls := t }
    exact ⟨t', by rw [State.relevel, ht, ht']⟩

/-- A roll leaving a bay writes that bay and rolls' levels, and leads to a pass. -/
theorem State.leaveBay_only (s : State) (b n : Nat) : ∃ t, s.leaveBay b n =
    { s.setBay b { s.bay b with stack := (s.bay b).stack.erase n } with rolls := t, passDue := true } := by
  obtain ⟨t, ht⟩ := State.relevel_only b 1 ((s.bay b).stack.erase n) (s.modBay b ({ · with stack := (s.bay b).stack.erase n }))
  exact ⟨t, by rw [State.leaveBay, ht]; rfl⟩

/-! ## The call-off condition (R92) -/

/-- The condition evaluated for a stand is its review after an order of an arm of the stand. -/
theorem State.evalCallOff_eq_review (s : State) (st : Nat) :
    s.evalCallOff st = s.reviewCallOff (Order.pendingOf .callOff (.arm st .A) .callOff) := rfl

theorem State.evalCallOff_vehicles (s : State) (st : Nat) : (s.evalCallOff st).vehicles = s.vehicles :=
  (VehicleLaw.review s (Order.pendingOf .callOff (.arm st .A) .callOff)).1

theorem State.evalCallOff_stations (s : State) (st : Nat) : (s.evalCallOff st).stations = s.stations :=
  OrderLaw.review_stations s (Order.pendingOf .callOff (.arm st .A) .callOff)

theorem State.evalCallOff_order_live {st n : Nat} {p : Order} (h : s.order n = some p) : (s.evalCallOff st).order n = some p :=
  (Law.review_order s (Order.pendingOf .callOff (.arm st .A) .callOff) n).1 p h

theorem State.evalCallOff_order_new {st n : Nat} {q : Order} (h : s.order n = none) (hq : (s.evalCallOff st).order n = some q) :
    q.kind = .callOff ∧ q.seq = s.orderSeq + 1 :=
  (Law.review_order s (Order.pendingOf .callOff (.arm st .A) .callOff) n).2 h q hq

theorem State.createOrder_passDue {o : Order} {n : Nat} {t : State} (h : s.createOrder o = some (n, t)) : t.passDue = true := by
  unfold State.createOrder at h
  split at h
  · cases h; rfl
  · cases h

theorem State.evalCallOff_passDue {st : Nat} (h : s.passDue = true) : (s.evalCallOff st).passDue = true := by
  unfold State.evalCallOff
  split
  · exact h
  · dsimp only
    split
    · next hc =>
      have created := State.createOrder_passDue hc
      exact created
    · exact h

theorem State.reviewCallOff_passDue {o : Order} (h : s.passDue = true) : (s.reviewCallOff o).passDue = true := by
  unfold State.reviewCallOff
  split
  · exact State.evalCallOff_passDue h
  · exact h

/-! ## Counters along a chain of writes -/

/-- Below level 4 no write takes the order sequence back. -/
theorem Wr.orderSeq_le {k : Nat} {s t : State} (h : Wr k s t) (hk : k < 4) : s.orderSeq ≤ t.orderSeq := by
  induction h with
  | refl => exact Nat.le_refl _
  | newOrder _ _ _ _ _ ih => exact Nat.le_succ_of_le ih
  | other _ h4 | newRoll _ h4 | grade _ h4 | putJob _ h4 | node _ h4 | route _ h4 | putStation _ h4 | attnClear _ h4 | cold _ h4 => omega
  | small _ _ _ ih | roll _ _ _ ih | freeRoll _ _ _ ih | bay _ _ _ ih | line _ _ _ ih | stand _ _ _ ih | job _ _ _ _ ih
  | order _ _ _ ih | freeOrder _ _ ih | vehicle _ _ _ ih | segment _ _ _ ih | station _ _ _ ih | raised _ _ _ _ _ ih => exact ih

/-- A chain of writes of level 0 keeps the state and roll of every arm. -/
theorem Wr.kept_arm {s t : State} (h : Wr 0 s t) (st : Nat) (a : Arm) :
    ((t.stand st).arm a).state = ((s.stand st).arm a).state ∧ ((t.stand st).arm a).roll = ((s.stand st).arm a).roll := by
  obtain ⟨_, _, _, _, _, _, _, hAs, hAr, hBs, hBr⟩ := (h.kept_stand (by decide) st).2 (by decide)
  cases a with
  | A => exact ⟨hAs, hAr⟩
  | B => exact ⟨hBs, hBr⟩

/-! ## An order freed (R131, R134, R138) -/

theorem State.freeOrder_live {n : Nat} {o : Order} (h : s.order n = some o) : s.freeOrder n =
    (((((s.dropRoll n o).withdrawBay n o).clearLink n o).freeVehicle n o).putOrder n none).reviewCallOff o := by
  simp [State.freeOrder, h]

theorem State.dropRoll_passDue {n : Nat} {o : Order} (h : s.passDue = true) : (s.dropRoll n o).passDue = true := by
  unfold State.dropRoll State.release State.unlink
  repeat' split
  all_goals simp [h]

theorem State.freeOrder_passDue {n : Nat} (h : s.passDue = true) : (s.freeOrder n).passDue = true := by
  cases ho : s.order n with
  | none => simp [State.freeOrder, ho, h]
  | some o =>
    have hdrop := State.dropRoll_passDue (n := n) (o := o) h
    have hwith : ((s.dropRoll n o).withdrawBay n o).passDue = true := by
      unfold State.withdrawBay
      split <;> simp [hdrop]
    have hclear : (((s.dropRoll n o).withdrawBay n o).clearLink n o).passDue = true := by
      unfold State.clearLink State.setCallOff
      repeat' split
      all_goals simp [hwith]
    have hfree : ((((s.dropRoll n o).withdrawBay n o).clearLink n o).freeVehicle n o).passDue = true := by
      unfold State.freeVehicle State.unlinkVehicle
      repeat' split
      all_goals simp [hclear]
    rw [State.freeOrder_live ho]
    exact State.reviewCallOff_passDue hfree

theorem State.freeOrder_stations (s : State) (n : Nat) : (s.freeOrder n).stations = s.stations := by
  cases ho : s.order n with
  | none => simp [State.freeOrder, ho]
  | some o =>
    rw [State.freeOrder_live ho, OrderLaw.review_stations]
    exact (OrderLaw.freeV_rest _ n o).2.1.trans ((OrderLaw.clear_rest _ n o).2.1.trans
      ((OrderLaw.with_rest _ n o).2.1.trans (OrderLaw.drop_rest s n o).2.1))

/-- The vehicle that works a freed order loses its link, and a STALLED one's previous state becomes IDLE (R132, R153). -/
theorem State.freeOrder_vehicle {n : Nat} {o : Order} (h : s.order n = some o) (w : Nat) : (s.freeOrder n).vehicle w =
    if o.vehicle = some w ∧ (s.vehicle w).order = some n then
      { s.vehicle w with order := none, prev := if (s.vehicle w).state = .stalled then some .idle else (s.vehicle w).prev }
    else s.vehicle w := by
  rw [State.freeOrder_live h]
  have hv : (((s.dropRoll n o).withdrawBay n o).clearLink n o).vehicles = s.vehicles :=
    (OrderLaw.clear_rest _ n o).2.2.1.trans ((OrderLaw.with_rest _ n o).2.2.1.trans (OrderLaw.drop_rest s n o).2.2.1)
  generalize ((s.dropRoll n o).withdrawBay n o).clearLink n o = t at hv
  have hvehicle (m : Nat) : t.vehicle m = s.vehicle m := by unfold State.vehicle; rw [hv]
  have hreview : (((t.freeVehicle n o).putOrder n none).reviewCallOff o).vehicle w = (t.freeVehicle n o).vehicle w := by
    unfold State.vehicle
    rw [(VehicleLaw.review _ o).1]
    rfl
  rw [hreview]
  unfold State.freeVehicle
  cases ho : o.vehicle with
  | none => simp [hvehicle]
  | some v =>
    simp only [hvehicle, Option.some.injEq]
    by_cases hlink : (s.vehicle v).order = some n
    · rw [if_pos hlink, State.unlinkVehicle, Law.vehicle_mod, hvehicle, hvehicle]
      by_cases hw : w = v
      · subst hw; simp [hlink]
      · simp [hw, Ne.symm hw]
    · rw [if_neg hlink, hvehicle, if_neg]
      rintro ⟨rfl, h⟩
      exact hlink h

end Sys2Proof.Machine
end

section
/-! Proofs about PLACE_ROLL (R25, R155): the move from one place to another, then what becomes of the order that links the roll. -/

namespace Sys2Proof.Machine

variable {s : State} {n : Nat} {x : Roll}

/-! ## The move -/

/-- A roll set down in a new place, its order link as it was (R25). -/
def Roll.setDown (x : Roll) (st : RollState) (loc : Location) : Roll :=
  { x with state := st, loc := loc, mount := none, job := none, hold := if x.hold = some .discrepancy then none else x.hold }

/-- The state after the move, before the order link is dealt with. -/
def State.moved (s : State) (n : Nat) (x : Roll) (d : PlaceDest) : State :=
  ((s.removeFromPlace n x).setPlace n d).modRoll n fun y => { y with hold := if y.hold = some .discrepancy then none else y.hold }

theorem State.place_eq (s : State) (n : Nat) (x : Roll) (d : PlaceDest) :
    s.place n x d = ((s.moved n x d).placeLink n x).reviewStand x.stand := rfl

/-- What leaving a place does not touch. -/
theorem State.removeFromPlace_rest (s : State) (n : Nat) (x : Roll) :
    (s.removeFromPlace n x).orders = s.orders ∧ (s.removeFromPlace n x).orderSeq = s.orderSeq ∧
    (s.removeFromPlace n x).stations = s.stations ∧ (s.removeFromPlace n x).halted = s.halted ∧
    (s.removeFromPlace n x).port = s.port := by
  cases hl : x.loc with
  | bay b l =>
    obtain ⟨t, ht⟩ := s.leaveBay_only b n
    rw [State.removeFromPlace, hl]
    simp only [ht]
    trivial
  | node | vehicle | arm =>
    rw [State.removeFromPlace, hl]
    exact ⟨rfl, rfl, rfl, rfl, rfl⟩

theorem State.removeFromPlace_roll (h : s.roll n = some x) : ∃ l, (s.removeFromPlace n x).roll n = some { x with loc := l } := by
  cases hl : x.loc with
  | bay b l =>
    simp only [State.removeFromPlace, hl]
    exact VehicleLaw.leave_roll s b n n x h
  | node | vehicle | arm =>
    simp only [State.removeFromPlace, hl]
    exact ⟨x.loc, h⟩

/-- The bay a roll lay in loses it; the others keep their records. -/
theorem State.removeFromPlace_bay (s : State) (n : Nat) (x : Roll) (c : Nat) : (s.removeFromPlace n x).bay c =
    if x.bay = some c then { s.bay c with stack := (s.bay c).stack.erase n } else s.bay c := by
  cases hl : x.loc with
  | bay b l =>
    simp only [State.removeFromPlace, Roll.bay, hl, VehicleLaw.leave_bay, Option.some.injEq]
    by_cases hb : b = c
    · subst hb; simp
    · simp [hb, Ne.symm hb]
  | node | vehicle | arm =>
    simp only [State.removeFromPlace, Roll.bay, hl]
    rfl

theorem State.removeFromPlace_vehicle (s : State) (n : Nat) (x : Roll) (w : Nat) : (s.removeFromPlace n x).vehicle w =
    if x.loc = .vehicle w then { s.vehicle w with load := none } else s.vehicle w := by
  cases hl : x.loc with
  | bay b l =>
    obtain ⟨t, ht⟩ := s.leaveBay_only b n
    simp only [State.removeFromPlace, hl, ht]
    rfl
  | vehicle v =>
    simp only [State.removeFromPlace, hl, Law.vehicle_mod, Location.vehicle.injEq]
    by_cases hv : w = v
    · subst hv; simp
    · simp [hv, Ne.symm hv]
  | node | arm =>
    simp only [State.removeFromPlace, hl]
    rfl

theorem Stand.arm_withArm (x : Stand) (a b : Arm) (r : ArmRec) : (x.withArm a r).arm b = if b = a then r else x.arm b := by
  cases a <;> cases b <;> rfl

theorem State.arm_setArm (s : State) (st : Nat) (a : Arm) (r : ArmRec) (c : Nat) (b : Arm) : ((s.setArm st a r).stand c).arm b =
    if c = st ∧ b = a then { r with chan := .clear } else (s.stand c).arm b := by
  rw [State.setArm, Law.stand_mod]
  by_cases hc : c = st
  · subst hc
    rw [if_pos rfl, Stand.arm_withArm]
    simp
  · simp [hc]

theorem State.removeFromPlace_arm (s : State) (n : Nat) {x : Roll} {st : Nat} {a : Arm} (hl : x.loc = .arm st a) :
    (((s.removeFromPlace n x).stand st).arm a).state = .empty ∧ (((s.removeFromPlace n x).stand st).arm a).roll = none := by
  simp only [State.removeFromPlace, hl, State.emptyArm, State.arm_setArm]
  exact ⟨rfl, rfl⟩

/-! ## The roll in its new place -/

theorem State.roll_putRoll_same (s : State) (n : Nat) (o : Option Roll) : (s.putRoll n o).roll n = o := by
  rw [roll_put, if_pos rfl]

theorem State.putRoll_putRoll (s : State) (n : Nat) (o p : Option Roll) : (s.putRoll n o).putRoll n p = s.putRoll n p := by
  simp [State.putRoll]

/-- A roll joins a bay at the top, STORED, and a pass follows. -/
theorem State.joinBay_live {y : Roll} (h : s.roll n = some y) (b : Nat) : s.joinBay b n =
    ((s.setBay b { s.bay b with stack := (s.bay b).stack ++ [n] }).putRoll n
      (some { y with state := .stored, loc := .bay b ((s.bay b).stack.length + 1), mount := none, job := none })).notice := by
  have h' : (s.modBay b fun x => { x with stack := x.stack ++ [n] }).roll n = some y := h
  rw [State.joinBay, State.modRoll_live h']
  rfl

theorem State.stage_live {y : Roll} (h : s.roll n = some y) (st : Nat) (a : Arm) : s.stage n st a =
    (s.setArm st a { (s.stand st).arm a with state := .staged, roll := some n }).putRoll n
      (some { y with state := .staged, loc := .arm st a, mount := none, job := none }) := by
  have h' : (s.setArm st a { (s.stand st).arm a with state := .staged, roll := some n }).roll n = some y := h
  rw [State.stage, State.modRoll_live h']

theorem State.moved_bay_eq (h : s.roll n = some x) (b : Nat) : s.moved n x (.bay b) =
    (((s.removeFromPlace n x).setBay b
        { (s.removeFromPlace n x).bay b with stack := ((s.removeFromPlace n x).bay b).stack ++ [n] }).notice).putRoll n
      (some (x.setDown .stored (.bay b (((s.removeFromPlace n x).bay b).stack.length + 1)))) := by
  obtain ⟨l, hl⟩ := State.removeFromPlace_roll h
  rw [State.moved, State.setPlace, State.joinBay_live hl]
  exact (State.modRoll_live (State.roll_putRoll_same ..) _).trans (State.putRoll_putRoll (State.notice _) ..)

theorem State.moved_arm_eq (h : s.roll n = some x) (st : Nat) (a : Arm) : s.moved n x (.arm st (some a)) =
    ((s.removeFromPlace n x).setArm st a
        { ((s.removeFromPlace n x).stand st).arm a with state := .staged, roll := some n }).putRoll n
      (some (x.setDown .staged (.arm st a))) := by
  obtain ⟨l, hl⟩ := State.removeFromPlace_roll h
  rw [State.moved, State.setPlace, State.stage_live hl]
  exact (State.modRoll_live (State.roll_putRoll_same ..) _).trans (State.putRoll_putRoll ..)

/-- A destination that names a place. -/
theorem destOk_cases {d : PlaceDest} (h : destOk d = true) : (∃ b, d = .bay b) ∨ ∃ st a, d = .arm st (some a) := by
  cases d with
  | bay b => exact .inl ⟨b, rfl⟩
  | arm st a =>
    cases a with
    | none => simp [destOk] at h
    | some a => exact .inr ⟨st, a, rfl⟩

/-- What the move does not touch. -/
theorem State.moved_rest (h : s.roll n = some x) {d : PlaceDest} (hd : destOk d = true) :
    (s.moved n x d).orders = s.orders ∧ (s.moved n x d).orderSeq = s.orderSeq ∧ (s.moved n x d).stations = s.stations ∧
    (s.moved n x d).halted = s.halted ∧ (s.moved n x d).port = s.port := by
  rcases destOk_cases hd with ⟨b, rfl⟩ | ⟨st, a, rfl⟩
  · rw [State.moved_bay_eq h]
    exact s.removeFromPlace_rest n x
  · rw [State.moved_arm_eq h]
    exact s.removeFromPlace_rest n x

theorem State.moved_vehicle (h : s.roll n = some x) {d : PlaceDest} (hd : destOk d = true) (w : Nat) : (s.moved n x d).vehicle w =
    if x.loc = .vehicle w then { s.vehicle w with load := none } else s.vehicle w := by
  rcases destOk_cases hd with ⟨b, rfl⟩ | ⟨st, a, rfl⟩
  · rw [State.moved_bay_eq h]
    exact s.removeFromPlace_vehicle n x w
  · rw [State.moved_arm_eq h]
    exact s.removeFromPlace_vehicle n x w

/-- The roll moved, for some place: neither RESERVED nor differently linked than before. -/
theorem State.moved_roll (h : s.roll n = some x) {d : PlaceDest} (hd : destOk d = true) :
    ∃ st loc, (s.moved n x d).roll n = some (x.setDown st loc) ∧ st ≠ .reserved := by
  rcases destOk_cases hd with ⟨b, rfl⟩ | ⟨st, a, rfl⟩
  · rw [State.moved_bay_eq h]
    exact ⟨.stored, _, State.roll_putRoll_same .., by decide⟩
  · rw [State.moved_arm_eq h]
    exact ⟨.staged, _, State.roll_putRoll_same .., by decide⟩

/-- The bay that takes the roll, when it is another than the one the roll lay in. -/
theorem State.moved_intoBay (h : s.roll n = some x) {b : Nat} (hb : x.bay ≠ some b) :
    ((s.moved n x (.bay b)).bay b).stack = (s.bay b).stack ++ [n] ∧ (s.moved n x (.bay b)).passDue = true ∧
    (s.moved n x (.bay b)).roll n = some (x.setDown .stored (.bay b ((s.bay b).stack.length + 1))) := by
  have hkept : (s.removeFromPlace n x).bay b = s.bay b := by rw [State.removeFromPlace_bay, if_neg hb]
  rw [State.moved_bay_eq h]
  refine ⟨?_, rfl, ?_⟩
  · show (Bay.stack (Tbl.get (Tbl.set _ b _ _) b _)) = _
    rw [Tbl.get_set_same, hkept]
  · rw [← hkept]
    exact State.roll_putRoll_same ..

theorem State.moved_ontoArm (h : s.roll n = some x) (st : Nat) (a : Arm) :
    (((s.moved n x (.arm st (some a))).stand st).arm a).state = .staged ∧
    (((s.moved n x (.arm st (some a))).stand st).arm a).roll = some n ∧
    (s.moved n x (.arm st (some a))).roll n = some (x.setDown .staged (.arm st a)) := by
  have harm : ((s.moved n x (.arm st (some a))).stand st).arm a =
      { ((s.removeFromPlace n x).stand st).arm a with state := .staged, roll := some n, chan := .clear } := by
    rw [State.moved_arm_eq h]
    refine (State.arm_setArm (s.removeFromPlace n x) st a _ st a).trans ?_
    simp
  refine ⟨by rw [harm], by rw [harm], ?_⟩
  rw [State.moved_arm_eq h]
  exact State.roll_putRoll_same ..

/-- The bay the roll lay in has lost it, and a pass follows. -/
theorem State.moved_fromBay (h : s.roll n = some x) {d : PlaceDest} (hd : destOk d = true) {b l : Nat} (hl : x.loc = .bay b l)
    (hlies : x.liesIn d = false) :
    ((s.moved n x d).bay b).stack = (s.bay b).stack.erase n ∧ (s.moved n x d).passDue = true := by
  have hxb : x.bay = some b := by simp [Roll.bay, hl]
  have hleft : (s.removeFromPlace n x).bay b = { s.bay b with stack := (s.bay b).stack.erase n } := by
    rw [State.removeFromPlace_bay, if_pos hxb]
  rcases destOk_cases hd with ⟨c, rfl⟩ | ⟨st, a, rfl⟩
  · have hbc : b ≠ c := by simpa [Roll.liesIn, hxb] using hlies
    rw [State.moved_bay_eq h]
    refine ⟨?_, rfl⟩
    show (Bay.stack (Tbl.get (Tbl.set _ c _ _) b _)) = _
    rw [Tbl.get_set_other _ _ _ hbc]
    exact congrArg Bay.stack hleft
  · rw [State.moved_arm_eq h]
    refine ⟨congrArg Bay.stack hleft, ?_⟩
    simp only [State.removeFromPlace, hl]
    rfl

/-- The arm the roll was on is EMPTY, when the roll is set down elsewhere. -/
theorem State.moved_fromArm (h : s.roll n = some x) {d : PlaceDest} (hd : destOk d = true) {st : Nat} {a : Arm}
    (hl : x.loc = .arm st a) (hne : d ≠ .arm st (some a)) :
    (((s.moved n x d).stand st).arm a).state = .empty ∧ (((s.moved n x d).stand st).arm a).roll = none := by
  have hleft := s.removeFromPlace_arm n hl
  rcases destOk_cases hd with ⟨c, rfl⟩ | ⟨st', a', rfl⟩
  · rw [State.moved_bay_eq h]
    exact hleft
  · have other : ((s.moved n x (.arm st' (some a'))).stand st).arm a = ((s.removeFromPlace n x).stand st).arm a := by
      rw [State.moved_arm_eq h]
      refine (State.arm_setArm (s.removeFromPlace n x) st' a' _ st a).trans (if_neg ?_)
      rintro ⟨rfl, rfl⟩
      exact hne rfl
    rw [other]
    exact hleft

end Sys2Proof.Machine
end

section
/-! Proofs about PLACE_ROLL, continued: the order link of a placed roll, and the statement (R25, R155). -/

namespace Sys2Proof.Machine

variable {s : State} {n o : Nat} {x : Roll}

/-! ## The order link of a placed roll -/

theorem State.abortPlaced_rest (s : State) (x : Roll) (o : Nat) : (s.abortPlaced x o).rolls = s.rolls ∧
    (s.abortPlaced x o).orders = s.orders ∧ (s.abortPlaced x o).vehicles = s.vehicles ∧ (s.abortPlaced x o).passDue = s.passDue ∧
    (s.abortPlaced x o).orderSeq = s.orderSeq := by
  unfold State.abortPlaced State.sendVehicle State.sendVehicleKept State.sendKept
  repeat' split
  all_goals simp

/-- A FAILED order keeps its record without its roll; the roll loses its link. -/
theorem State.placeLink_failed {p : Order} (hx : x.order = some o) (hp : s.order o = some p) (hf : p.state = .failed) :
    s.placeLink n x = s.unlink n o := by
  simp [State.placeLink, hx, hp, hf]

/-- Another order is freed, its vehicle told when it is STALLED. -/
theorem State.placeLink_live {p : Order} (hx : x.order = some o) (hp : s.order o = some p) (hf : p.state ≠ .failed) :
    s.placeLink n x = (s.abortPlaced x o).freeOrder o := by
  cases hs : p.state <;> simp_all [State.placeLink]

theorem State.placeLink_noOrder (hx : x.order = some o) (hp : s.order o = none) :
    s.placeLink n x = s.modRoll n ({ · with order := none }) := by
  simp [State.placeLink, hx, hp]

theorem State.placeLink_unlinked (hx : x.order = none) : s.placeLink n x = s := by
  simp [State.placeLink, hx]

theorem State.unlink_roll (s : State) (n o m : Nat) :
    (s.unlink n o).roll m = if m = n then (s.roll n).map ({ · with order := none }) else s.roll m := by
  rw [← roll_modRoll]
  unfold State.unlink State.roll
  rw [State.modOrder_rolls]

theorem State.unlink_order (s : State) (n o : Nat) {p : Order} (h : s.order o = some p) :
    (s.unlink n o).order o = some { p with roll := none } := by
  have hp : (s.modRoll n ({ · with order := none })).order o = some p := by
    unfold State.order
    rw [State.modRoll_orders]
    exact h
  rw [State.unlink, Law.order_mod, if_pos rfl, hp]
  rfl

/-- The placed roll has no order link, when its order links it or has FAILED. -/
theorem State.placeLink_roll {y : Roll} (hy : s.roll n = some y) (hs : y.state ≠ .reserved) (ho : y.order = x.order)
    (hlink : ∀ o p, x.order = some o → s.order o = some p → p.state = .failed ∨ p.roll = some n) :
    (s.placeLink n x).roll n = some { y with order := none } := by
  cases hx : x.order with
  | none =>
    have hyo : y.order = none := ho.trans hx
    rw [State.placeLink_unlinked hx, hy, ← hyo]
  | some o =>
    cases hp : s.order o with
    | none => rw [State.placeLink_noOrder hx hp, roll_modRoll, if_pos rfl, hy]; rfl
    | some p =>
      by_cases hf : p.state = .failed
      · rw [State.placeLink_failed hx hp hf, State.unlink_roll, if_pos rfl, hy]
        rfl
      · obtain ⟨hrolls, horders, _⟩ := s.abortPlaced_rest x o
        have hp' : (s.abortPlaced x o).order o = some p := by unfold State.order; rw [horders]; exact hp
        have hy' : (s.abortPlaced x o).roll n = some y := by unfold State.roll; rw [hrolls]; exact hy
        rw [State.placeLink_live hx hp hf, (OrderLaw.free _ o p hp').2 n y ((hlink o p hx hp).resolve_left hf) hy', if_neg hs]

theorem State.placeLink_passDue (h : s.passDue = true) : (s.placeLink n x).passDue = true := by
  unfold State.placeLink
  split
  · exact h
  · next o _ =>
    split
    · simp [State.unlink, h]
    · exact State.freeOrder_passDue ((s.abortPlaced_rest x o).2.2.2.1.trans h)
    · simp [h]

/-- Dealing with the order link changes of a vehicle its order link and previous state alone. -/
theorem State.placeLink_vehicle (s : State) (n : Nat) (x : Roll) (w : Nat) : ∃ o p,
    (s.placeLink n x).vehicle w = { s.vehicle w with order := o, prev := p } := by
  have same : ∀ t : State, t.vehicles = s.vehicles → ∃ o p, t.vehicle w = { s.vehicle w with order := o, prev := p } := by
    intro t ht
    unfold State.vehicle
    rw [ht]
    exact ⟨_, _, rfl⟩
  cases hx : x.order with
  | none => rw [State.placeLink_unlinked hx]; exact same s rfl
  | some o =>
    cases hp : s.order o with
    | none => rw [State.placeLink_noOrder hx hp]; exact same _ (State.modRoll_vehicles ..)
    | some p =>
      by_cases hf : p.state = .failed
      · rw [State.placeLink_failed hx hp hf]
        exact same _ (by simp [State.unlink])
      · obtain ⟨_, horders, hvehicles, _⟩ := s.abortPlaced_rest x o
        have hp' : (s.abortPlaced x o).order o = some p := by unfold State.order; rw [horders]; exact hp
        have hw : (s.abortPlaced x o).vehicle w = s.vehicle w := by unfold State.vehicle; rw [hvehicles]
        rw [State.placeLink_live hx hp hf, State.freeOrder_vehicle hp', hw]
        split
        · exact ⟨_, _, rfl⟩
        · exact ⟨_, _, rfl⟩

/-- The vehicle whose load has been placed loses its order; a STALLED one goes back to IDLE and is sent ABORT (R155). -/
theorem State.placeLink_carrier {p : Order} {v : Nat} (hx : x.order = some o) (hp : s.order o = some p) (hf : p.state ≠ .failed)
    (hl : x.loc = .vehicle v) (hv : p.vehicle = some v) (ho : (s.vehicle v).order = some o) :
    ((s.placeLink n x).vehicle v).order = none ∧
    ((s.vehicle v).state = .stalled → ((s.placeLink n x).vehicle v).prev = some .idle ∧
      ∀ a z, s.vehicleStation v = some a → s.station a = some z →
        (s.placeLink n x).station a = some (z.placed s.halted ⟨.tcu, .abort o⟩)) := by
  obtain ⟨_, horders, hvehicles, _⟩ := s.abortPlaced_rest x o
  have hp' : (s.abortPlaced x o).order o = some p := by unfold State.order; rw [horders]; exact hp
  have hw : (s.abortPlaced x o).vehicle v = s.vehicle v := by unfold State.vehicle; rw [hvehicles]
  have hfreed : (s.placeLink n x).vehicle v =
      { s.vehicle v with order := none, prev := if (s.vehicle v).state = .stalled then some .idle else (s.vehicle v).prev } := by
    rw [State.placeLink_live hx hp hf, State.freeOrder_vehicle hp', hw, if_pos ⟨hv, ho⟩]
  refine ⟨by rw [hfreed], fun hst => ⟨by rw [hfreed, if_pos hst], fun a z ha hz => ?_⟩⟩
  have hsent : (s.abortPlaced x o).station a = some (z.placed s.halted ⟨.tcu, .abort o⟩) := by
    have told : s.abortPlaced x o = s.sendKept a ⟨.tcu, .abort o⟩ := by
      simp only [State.abortPlaced, hl, hst, if_true, State.sendVehicle, State.sendVehicleKept, ha]
      rfl
    rw [told, State.sendKept, Law.station_mod, if_pos rfl, hz]
    rfl
  rw [State.placeLink_live hx hp hf]
  unfold State.station
  rw [State.freeOrder_stations]
  exact hsent

/-! ## The call-off review of the stand the roll has left -/

theorem State.reviewStand_rest (s : State) (st : Option Nat) : (s.reviewStand st).rolls = s.rolls ∧
    (s.reviewStand st).vehicles = s.vehicles ∧ (s.reviewStand st).stations = s.stations := by
  cases st with
  | none => exact ⟨rfl, rfl, rfl⟩
  | some st => exact ⟨RollsAfter.evalCallOff s st, s.evalCallOff_vehicles st, s.evalCallOff_stations st⟩

theorem State.reviewStand_passDue {st : Option Nat} (h : s.passDue = true) : (s.reviewStand st).passDue = true := by
  cases st with
  | none => exact h
  | some st => exact State.evalCallOff_passDue h

theorem State.reviewStand_order_live {st : Option Nat} {p : Order} (h : s.order o = some p) : (s.reviewStand st).order o = some p := by
  cases st with
  | none => exact h
  | some st => exact State.evalCallOff_order_live h

/-- An order the review shows anew is a call-off of a later sequence. -/
theorem State.reviewStand_order {st : Option Nat} {q : Order} (h : (s.reviewStand st).order o = some q) :
    s.order o = some q ∨ (q.kind = .callOff ∧ s.orderSeq < q.seq) := by
  cases st with
  | none => exact .inl h
  | some st =>
    cases ho : s.order o with
    | some p =>
      rw [show (s.reviewStand (some st)).order o = some p from State.evalCallOff_order_live ho] at h
      exact .inl h
    | none =>
      obtain ⟨hkind, hseq⟩ := State.evalCallOff_order_new ho h
      exact .inr ⟨hkind, by omega⟩

/-! ## The place move's effects -/

section
variable {d : PlaceDest}

theorem State.place_writes (s : State) (n : Nat) (x : Roll) (d : PlaceDest) : Wr 0 (s.moved n x d) (s.place n x d) :=
  State.wr_reviewStand (State.wr_placeLink .refl n x) x.stand

theorem State.place_bay (s : State) (n : Nat) (x : Roll) (d : PlaceDest) (b : Nat) : (s.place n x d).bay b = (s.moved n x d).bay b :=
  Law.Wr_bay (s.place_writes n x d) (by decide) b

theorem State.place_passDue (h : (s.moved n x d).passDue = true) : (s.place n x d).passDue = true :=
  State.reviewStand_passDue (State.placeLink_passDue h)

theorem State.place_roll {st : RollState} {loc : Location} (h : (s.moved n x d).roll n = some (x.setDown st loc)) (hs : st ≠ .reserved)
    (hlink : ∀ o p, x.order = some o → (s.moved n x d).order o = some p → p.state = .failed ∨ p.roll = some n) :
    (s.place n x d).roll n = some { x.setDown st loc with order := none } := by
  unfold State.roll
  rw [State.place_eq, (State.reviewStand_rest _ x.stand).1]
  exact State.placeLink_roll h hs rfl hlink

/-- A vehicle the roll was on has lost its load and stands as it stood. -/
theorem State.place_vehicle (h : s.roll n = some x) (hd : destOk d = true) {v : Nat} (hl : x.loc = .vehicle v) :
    ((s.place n x d).vehicle v).load = none ∧ ((s.place n x d).vehicle v).held = (s.vehicle v).held ∧
    ((s.place n x d).vehicle v).pos = (s.vehicle v).pos ∧ ((s.place n x d).vehicle v).state = (s.vehicle v).state := by
  obtain ⟨o, p, hv⟩ := (s.moved n x d).placeLink_vehicle n x v
  have hplace : (s.place n x d).vehicle v = { s.vehicle v with load := none, order := o, prev := p } := by
    unfold State.vehicle at hv ⊢
    rw [State.place_eq, (State.reviewStand_rest _ x.stand).2.1, hv]
    have hm := State.moved_vehicle h hd v
    rw [if_pos hl] at hm
    unfold State.vehicle at hm
    rw [hm]
  rw [hplace]
  exact ⟨rfl, rfl, rfl, rfl⟩

/-- The order the roll was linked to (R25, R155). -/
theorem State.place_order (h : s.roll n = some x) (hd : destOk d = true) {p : Order} (hx : x.order = some o) (hp : s.order o = some p) :
    (p.state = .failed → (s.place n x d).order o = some { p with roll := none }) ∧
    (p.state ≠ .failed → (∀ q, (s.place n x d).order o = some q → q.kind = .callOff ∧ s.orderSeq < q.seq) ∧
      ∀ v, x.loc = .vehicle v → p.vehicle = some v → (s.vehicle v).order = some o → ((s.place n x d).vehicle v).order = none ∧
        ((s.vehicle v).state = .stalled → ((s.place n x d).vehicle v).prev = some .idle ∧
          ∀ a z, s.vehicleStation v = some a → s.station a = some z →
            (s.place n x d).station a = some (z.placed s.halted ⟨.tcu, .abort o⟩))) := by
  obtain ⟨horders, hseq, hstations, hhalted, _⟩ := State.moved_rest h hd
  have hveh (w : Nat) := State.moved_vehicle h hd w
  rw [State.place_eq]
  generalize s.moved n x d = t at horders hseq hstations hhalted hveh
  have hp' : t.order o = some p := by unfold State.order; rw [horders]; exact hp
  refine ⟨fun hf => ?_, fun hf => ⟨fun q hq => ?_, fun v hl hv ho => ?_⟩⟩
  · rw [State.placeLink_failed hx hp' hf]
    exact State.reviewStand_order_live (t.unlink_order n o hp')
  · have hle : s.orderSeq ≤ (t.placeLink n x).orderSeq :=
      hseq ▸ (State.wr_placeLink (k := 0) .refl n x).orderSeq_le (by decide)
    rcases State.reviewStand_order hq with hq | ⟨hkind, hlt⟩
    · obtain ⟨_, horders', _, _, hseq'⟩ := t.abortPlaced_rest x o
      rw [State.placeLink_live hx hp' hf] at hq
      have hp'' : (t.abortPlaced x o).order o = some p := by unfold State.order; rw [horders']; exact hp'
      obtain ⟨hkind, hnew⟩ := (OrderLaw.free _ o p hp'').1 q hq
      exact ⟨hkind, by omega⟩
    · exact ⟨hkind, Nat.lt_of_le_of_lt hle hlt⟩
  · have hvt : t.vehicle v = { s.vehicle v with load := none } := by rw [hveh, if_pos hl]
    obtain ⟨_, hvehicles, hsta⟩ := (t.placeLink n x).reviewStand_rest x.stand
    obtain ⟨hnone, hstalled⟩ := State.placeLink_carrier (n := n) hx hp' hf hl hv (by rw [hvt]; exact ho)
    unfold State.vehicle State.station
    rw [hvehicles, hsta]
    refine ⟨hnone, fun hst => ?_⟩
    obtain ⟨hprev, habort⟩ := hstalled (by rw [hvt]; exact hst)
    refine ⟨hprev, fun a z ha hz => ?_⟩
    rw [← hhalted]
    refine habort a z ?_ ?_
    · unfold State.vehicleStation; rw [hstations]; exact ha
    · unfold State.station; rw [hstations]; exact hz

/-! ## PLACE_ROLL -/

theorem execPlaceRoll_refused (s : State) (r : RollRef) (d : PlaceDest) (ht : s.takes (.placeRoll r d) = true) :
    (r.ok = false ∨ destOk d = false → exec (.placeRoll r d) s = .next (s.fresh.replied (.placeRoll r d) .badArgument [])) ∧
    (r.ok = true → destOk d = true → s.resolve r = none →
      exec (.placeRoll r d) s = .next (s.fresh.replied (.placeRoll r d) .notFound [])) ∧
    ∀ (n : Nat) (x : Roll), r.ok = true → destOk d = true → s.resolve r = some (n, x) →
      (x.liesIn d = true → exec (.placeRoll r d) s = .next (s.fresh.replied (.placeRoll r d) .badArgument [])) ∧
      (x.liesIn d = false → s.mayPlace x = false ∨ s.admitsPlace d = false →
        exec (.placeRoll r d) s = .next (s.fresh.replied (.placeRoll r d) .badState [])) := by
  have may (x : Roll) : s.fresh.mayPlace x = s.mayPlace x := rfl
  have admits : s.fresh.admitsPlace d = s.admitsPlace d := by cases d <;> rfl
  refine ⟨fun hbad => request_refused ht ?_, fun hok hd hres => request_refused ht ?_, fun n x hok hd hres =>
    ⟨fun hl => request_refused ht ?_, fun hl hbad => request_refused ht ?_⟩⟩
  · rcases hbad with h | h <;> simp [State.placeRequest, h]
  · simp [State.placeRequest, hok, hd, resolve_fresh, hres]
  · simp [State.placeRequest, hok, hd, resolve_fresh, hres, hl]
  · rcases hbad with h | h <;> simp [State.placeRequest, hok, hd, resolve_fresh, hres, hl, may, admits, h]

variable {r : RollRef}

theorem State.placeRequest_eq (hok : r.ok = true) (hd : destOk d = true) (hres : s.resolve r = some (n, x)) (hl : x.liesIn d = false)
    (hmay : s.mayPlace x = true) (hadm : s.admitsPlace d = true) : s.fresh.placeRequest r d = (s.fresh.place n x d).ok := by
  have may : s.fresh.mayPlace x = true := hmay
  have admits : s.fresh.admitsPlace d = true := Eq.trans (by cases d <;> rfl) hadm
  simp [State.placeRequest, hok, hd, resolve_fresh, hres, hl, may, admits]

theorem execPlaceRoll_placed (ht : s.takes (.placeRoll r d) = true) (hok : r.ok = true) (hd : destOk d = true)
    (hres : s.resolve r = some (n, x)) (hl : x.liesIn d = false) (hmay : s.mayPlace x = true) (hadm : s.admitsPlace d = true) :
    exec (.placeRoll r d) s = .next ((s.fresh.place n x d).replied (.placeRoll r d) .ok []).finish := by
  refine request_eq (q := (s.fresh.place n x d).ok) ht (State.placeRequest_eq hok hd hres hl hmay hadm) ?_
  exact ((s.fresh.place_writes n x d).kept (by decide)).port.trans (State.moved_rest (s := s.fresh) (State.roll_of_resolve hres) hd).2.2.2.2

/-- An unlinked roll at a node moves, and nothing else changes. -/
theorem State.place_fromNode (hx : x.order = none) {y : Nat} (hl : x.loc = .node y) (d : PlaceDest) : s.place n x d = s.moved n x d := by
  rw [State.place_eq, State.placeLink_unlinked hx]
  simp [Roll.stand, hl, State.reviewStand]

theorem State.removeFromPlace_node {y : Nat} (hl : x.loc = .node y) : s.removeFromPlace n x = s := by
  simp [State.removeFromPlace, hl]

theorem Roll.setDown_unlinked (hx : x.order = none) (st : RollState) (loc : Location) : { x.setDown st loc with order := none } = x.setDown st loc := by
  simp [Roll.setDown, hx]

end

/-- Settles O10: a roll that passes is moved, then its order link is dealt with, then the call-off condition of a stand it left is
evaluated; only the first writes bays, arms and the load. -/
theorem placeRollSetsThePlace : Obligations.PlaceRollSetsThePlace := by
  intro s r d ht
  obtain ⟨hbad, hnone, hstate⟩ := execPlaceRoll_refused s r d ht
  refine ⟨hbad, hnone, fun n x hok hd hres => ⟨(hstate n x hok hd hres).1, (hstate n x hok hd hres).2, fun hlies hmay hadm => ?_⟩⟩
  have hroll : s.fresh.roll n = some x := State.roll_of_resolve hres
  have placed := execPlaceRoll_placed ht hok hd hres hlies hmay hadm
  refine ⟨fun hx y hl => ⟨fun b hb => ?_, fun st a ha => ?_⟩, fun hlink => ⟨s.fresh.place n x d, placed, ?_⟩⟩
  · subst hb
    rw [placed, State.place_fromNode hx hl, State.moved_bay_eq hroll, State.removeFromPlace_node hl, ← Roll.setDown_unlinked hx]
    rfl
  · subst ha
    have moved := State.moved_arm_eq hroll st a
    rw [State.removeFromPlace_node hl, ← Roll.setDown_unlinked hx] at moved
    rw [placed, State.place_fromNode hx hl, moved, State.finish_idle rfl]
    rfl
  · have hlink' : ∀ o p, x.order = some o → (s.fresh.moved n x d).order o = some p → p.state = .failed ∨ p.roll = some n := by
      intro o p hx hp
      unfold State.order at hp
      rw [(State.moved_rest hroll hd).1] at hp
      exact hlink o p hx hp
    have arms (st : Nat) (a : Arm) := (s.fresh.place_writes n x d).kept_arm st a
    refine ⟨fun b hb => ?_, fun st a ha => ?_, fun b l hl => ?_, fun v hl => State.place_vehicle hroll hd hl, fun st a hl hne => ?_,
      fun o p hx hp => State.place_order hroll hd hx hp⟩
    · subst hb
      obtain ⟨hstack, hdue, hr⟩ := State.moved_intoBay hroll (b := b) (by simpa [Roll.liesIn] using hlies)
      exact ⟨(congrArg Bay.stack (s.fresh.place_bay n x _ b)).trans hstack, State.place_passDue hdue,
        State.place_roll hr (by decide) hlink'⟩
    · subst ha
      obtain ⟨hs, hr, hrec⟩ := State.moved_ontoArm hroll st a
      exact ⟨(arms st a).1.trans hs, (arms st a).2.trans hr, State.place_roll hrec (by decide) hlink'⟩
    · obtain ⟨hstack, hdue⟩ := State.moved_fromBay hroll hd hl hlies
      exact ⟨(congrArg Bay.stack (s.fresh.place_bay n x d b)).trans hstack, State.place_passDue hdue⟩
    · obtain ⟨hs, hr⟩ := State.moved_fromArm hroll hd hl hne
      exact ⟨(arms st a).1.trans hs, (arms st a).2.trans hr⟩

end Sys2Proof.Machine
end

section
/-! Proofs about PREP_DONE (R94): its checks, the roll made READY and the strip charge. -/

namespace Sys2Proof.Machine

variable {s : State}

/-! ## What arming a stand leaves unchanged (R84, R90) -/

theorem State.lateTest_rolls (s : State) (st : Nat) : (s.lateTest st).rolls = s.rolls := by
  unfold State.lateTest
  dsimp only
  split <;> rfl

theorem State.lateTest_passDue (s : State) (st : Nat) : (s.lateTest st).passDue = s.passDue := by
  unfold State.lateTest
  dsimp only
  split <;> rfl

theorem State.tryArm_rolls (s : State) (st : Nat) : (s.tryArm st).rolls = s.rolls := by
  unfold State.tryArm
  split
  · rw [State.lateTest_rolls, State.drivePin_rolls]
    rfl
  · rfl

theorem State.tryArm_passDue (s : State) (st : Nat) : (s.tryArm st).passDue = s.passDue := by
  unfold State.tryArm
  split
  · rw [State.lateTest_passDue, State.drivePin_passDue]
    rfl
  · rfl

/-! ## Charges to a job -/

/-- The lines name the line of a stand. -/
theorem State.lineOf_congr {t : State} (h : t.lines = s.lines) (st : Nat) : t.lineOf st = s.lineOf st := by
  unfold State.lineOf State.positionOf State.line
  rw [h]

theorem State.liveJob_congr {t : State} (h : t.jobs = s.jobs) (l : Nat) : t.liveJob l = s.liveJob l := by
  unfold State.liveJob
  rw [h]

theorem State.modJobAt_only (s : State) (j : Option Nat) (f : Job → Job) : ∃ t, s.modJobAt j f = { s with jobs := t } := by
  cases j with
  | none => exact ⟨s.jobs, rfl⟩
  | some n =>
    rw [State.modJobAt, State.modJob]
    cases s.job n with
    | none => exact ⟨s.jobs, rfl⟩
    | some x => exact ⟨_, rfl⟩

theorem State.modJobAt_jobs_congr {t : State} (h : t.jobs = s.jobs) (j : Option Nat) (f : Job → Job) :
    (t.modJobAt j f).jobs = (s.modJobAt j f).jobs := by
  cases j with
  | none => exact h
  | some n =>
    have hjob : t.job n = s.job n := by unfold State.job; rw [h]
    rw [State.modJobAt, State.modJobAt, State.modJob, State.modJob, hjob]
    cases s.job n with
    | none => exact h
    | some x => exact congrArg (·.put n (some (f x))) h

theorem State.chargeStrip_only (s : State) (st : Nat) (r : Roll) (before after : Nat) :
    ∃ t, s.chargeStrip st r before after = { s with jobs := t } := State.modJobAt_only ..

theorem State.job_modJobAt_some (s : State) (m : Nat) (f : Job → Job) : (s.modJobAt (some m) f).job m = (s.job m).map f := by
  rw [State.modJobAt, Law.job_mod, if_pos rfl]

/-- The strip is charged to the live job of the stand's line. -/
theorem State.chargeStrip_job {st l m : Nat} {j : Job} (hl : s.lineOf st = some l) (hm : s.liveJob l = some m) (hj : s.job m = some j)
    (r : Roll) (before after : Nat) :
    (s.chargeStrip st r before after).job m = some (j.chargeStrip
      ((s.grade r.grade).length before - (s.grade r.grade).length after)
      ((s.grade r.grade).grams ((s.grade r.grade).length before - (s.grade r.grade).length after) r.width)) := by
  have live : (s.lineOf st).bind s.liveJob = some m := by rw [hl]; exact hm
  rw [State.chargeStrip, live, State.job_modJobAt_some, hj]
  rfl

/-- Without a live job the strip is charged to none. -/
theorem State.chargeStrip_jobless {st : Nat} (h : ∀ l, s.lineOf st = some l → s.liveJob l = none) (r : Roll) (before after : Nat) :
    s.chargeStrip st r before after = s := by
  have none : (s.lineOf st).bind s.liveJob = none := by
    cases hl : s.lineOf st with
    | none => rfl
    | some l => exact h l hl
  rw [State.chargeStrip, none]
  rfl

/-! ## The preparation (R94) -/

/-- A STAGED roll made READY at the diameter after strip (R7, R94). -/
def Roll.prepared (r : Roll) (after : Nat) : Roll :=
  { r with state := .ready, diameter := after, mount := some after, consumed := 0, job := none, hold := none }

theorem State.prepare_live {n : Nat} {r : Roll} (h : s.roll n = some r) (st : Nat) (a : Arm) (after : Nat) :
    s.prepare n st a after = (s.putRoll n (some (r.prepared after))).setArm st a { (s.stand st).arm a with state := .ready } := by
  rw [State.prepare, State.modRoll_live h]
  rfl

/-- The state after a PREP_DONE that prepares the roll. -/
def State.preparedRoll (s : State) (addr st : Nat) (a : Arm) (n : Nat) (r : Roll) (after before : Nat) : State :=
  (((s.prepare n st a after).chargeStrip st r before after).accept addr .prepDone).tryArm st

section
variable {n : Nat} {r : Roll} (h : s.roll n = some r)
include h

theorem State.preparedRoll_rolls (addr st : Nat) (a : Arm) (after before : Nat) :
    (s.preparedRoll addr st a n r after before).rolls = s.rolls.put n (some (r.prepared after)) := by
  obtain ⟨t, ht⟩ := (s.prepare n st a after).chargeStrip_only st r before after
  rw [State.preparedRoll, State.tryArm_rolls, State.accept, State.send_rolls, ht, State.prepare_live h]
  rfl

theorem State.preparedRoll_passDue (addr st : Nat) (a : Arm) (after before : Nat) :
    (s.preparedRoll addr st a n r after before).passDue = s.passDue := by
  obtain ⟨t, ht⟩ := (s.prepare n st a after).chargeStrip_only st r before after
  rw [State.preparedRoll, State.tryArm_passDue, Law.accept_quiet, ht, State.prepare_live h]
  rfl

theorem State.preparedRoll_arm (addr st : Nat) (a : Arm) (after before : Nat) :
    (((s.preparedRoll addr st a n r after before).stand st).arm a).state = .ready ∧
    (((s.preparedRoll addr st a n r after before).stand st).arm a).roll = ((s.stand st).arm a).roll := by
  obtain ⟨t, ht⟩ := (s.prepare n st a after).chargeStrip_only st r before after
  have arming : Wr 0 ((s.prepare n st a after).chargeStrip st r before after) (s.preparedRoll addr st a n r after before) :=
    State.wr_tryArm (State.wr_accept .refl addr .prepDone) st
  obtain ⟨hstate, hroll⟩ := arming.kept_arm st a
  have prepared : (((s.prepare n st a after).chargeStrip st r before after).stand st).arm a =
      { (s.stand st).arm a with state := .ready, chan := .clear } := by
    rw [ht, State.prepare_live h]
    exact (State.arm_setArm ..).trans (if_pos ⟨rfl, rfl⟩)
  rw [hstate, hroll, prepared]
  exact ⟨rfl, rfl⟩

theorem State.preparedRoll_jobs (addr st : Nat) (a : Arm) (after before : Nat) :
    (s.preparedRoll addr st a n r after before).jobs = (s.chargeStrip st r before after).jobs := by
  have arming : Wr 0 ((s.prepare n st a after).chargeStrip st r before after) (s.preparedRoll addr st a n r after before) :=
    State.wr_tryArm (State.wr_accept .refl addr .prepDone) st
  have hline : (s.prepare n st a after).lineOf st = s.lineOf st := State.lineOf_congr (by rw [State.prepare_live h]; rfl) st
  have hjobs : (s.prepare n st a after).jobs = s.jobs := by rw [State.prepare_live h]; rfl
  have hgrade : (s.prepare n st a after).grade r.grade = s.grade r.grade := by rw [State.prepare_live h]; rfl
  have hlive : (s.prepare n st a after).liveJob = s.liveJob := funext (State.liveJob_congr hjobs)
  rw [(arming.kept_lines (by decide)).2, State.chargeStrip, State.chargeStrip, hline, hlive, hgrade]
  exact State.modJobAt_jobs_congr hjobs ..

end

/-! ## PREP_DONE (R94) -/

theorem exec_prepDone (a : Arm) (after before : Nat) (more : Bool) (s : State) :
    exec (.prepDone a after before more) s = execPrepDone a after before more s := rfl

section
variable {e : Exchange} {y : Station} {more : Bool}

theorem execPrepDone_otherRole (h : s.hears e y) (hr : ∀ st, y.role ≠ .standNode st) (a : Arm) (after before : Nat) :
    exec (.prepDone a after before more) s = .next ((s.heard e more).refuse e.addr .prepDone .badArgument) := by
  rw [exec_prepDone, execPrepDone]
  refine Law.report_refuse h ?_
  cases hx : y.role with
  | standNode st => exact absurd hx (hr st)
  | _ => rfl

theorem execPrepDone_stand (h : s.hears e y) {st : Nat} (hr : y.role = .standNode st) (a : Arm) (after before : Nat) :
    exec (.prepDone a after before more) s = .next ((s.heard e more).prepDoneAt e.addr st a after before).finish := by
  rw [exec_prepDone, execPrepDone, report_heard h, hr]

end

/-- A mismatch is answered at once: it leads to no pass. -/
theorem State.armMismatch_finish (h : s.passDue = false) (addr : Nat) (k : Report) (x : ArmRec) :
    (s.armMismatch addr k x).finish = (s.raise .rollDiscrepancy (x.roll.getD 0)).refuse addr k .badState :=
  State.finish_idle ((Law.refuse_quiet ..).trans h)

theorem State.refuse_finish (h : s.passDue = false) (addr : Nat) (k : Report) (r : Reason) : (s.refuse addr k r).finish = s.refuse addr k r :=
  State.finish_idle ((Law.refuse_quiet ..).trans h)

theorem State.accept_finish (h : s.passDue = false) (addr : Nat) (k : Report) : (s.accept addr k).finish = s.accept addr k :=
  State.finish_idle ((Law.accept_quiet ..).trans h)

section
variable {st addr : Nat} {a : Arm}

theorem State.prepDoneAt_mismatch (h1 : ((s.stand st).arm a).state ≠ .staged) (h2 : ((s.stand st).arm a).state ≠ .ready) (after before : Nat) :
    s.prepDoneAt addr st a after before = s.armMismatch addr .prepDone ((s.stand st).arm a) := by
  rw [State.prepDoneAt]
  cases hs : ((s.stand st).arm a).state with
  | staged => exact absurd hs h1
  | ready => exact absurd hs h2
  | _ => rfl

theorem State.prepDoneAt_ready (hs : ((s.stand st).arm a).state = .ready) {n : Nat} {r : Roll} (hx : ((s.stand st).arm a).roll = some n)
    (hr : s.roll n = some r) (after before : Nat) : s.prepDoneAt addr st a after before =
      if r.mount = some after then s.accept addr .prepDone else s.armMismatch addr .prepDone ((s.stand st).arm a) := by
  simp only [State.prepDoneAt, hs, hx, hr, Option.bind_some, Option.map_some]

theorem State.prepDoneAt_staged (hs : ((s.stand st).arm a).state = .staged) {n : Nat} {r : Roll} (hx : ((s.stand st).arm a).roll = some n)
    (hr : s.roll n = some r) (after before : Nat) : s.prepDoneAt addr st a after before = s.prepareAt addr st a n r after before := by
  simp only [State.prepDoneAt, hs, hx, hr, Option.bind_some, Option.map_some]

theorem State.prepareAt_good {n : Nat} {r : Roll} (hh : r.hold = none) {after before : Nat} (hc : (s.grade r.grade).core ≤ after)
    (hle : after ≤ before) (hmax : before ≤ 15000) :
    s.prepareAt addr st a n r after before = s.preparedRoll addr st a n r after before := by
  have good : ¬ (after < (s.grade r.grade).core ∨ before < after ∨ 15000 < before) := by omega
  simp only [State.prepareAt, hh, good, Option.isSome_none, Bool.false_eq_true, if_false]
  rfl

end

/-- Settles O38: each check by its case; a preparation writes the roll and the arm, then the charge writes a job and arming writes
neither. -/
theorem prepDonePreparesTheRoll : Obligations.PrepDonePreparesTheRoll := by
  intro s e y a after before more hy
  refine ⟨fun hr => execPrepDone_otherRole hy hr a after before, fun st hr => ?_⟩
  have quiet : (s.heard e more).passDue = false := by simp
  have heardArm : ((s.heard e more).stand st).arm a = (s.stand st).arm a := by rw [Law.heard_stand]
  rw [execPrepDone_stand hy hr]
  refine ⟨fun h1 h2 => ?_, fun n r hx hroll => ?_⟩
  · rw [State.prepDoneAt_mismatch (by rwa [heardArm]) (by rwa [heardArm]), State.armMismatch_finish quiet, heardArm]
  have hx' : (((s.heard e more).stand st).arm a).roll = some n := by rw [heardArm, hx]
  have hroll' : (s.heard e more).roll n = some r := by rw [Law.heard_roll, hroll]
  have grade : (s.heard e more).grade r.grade = s.grade r.grade := Law.heard_grade _
  have ready (hs : ((s.stand st).arm a).state = .ready) := State.prepDoneAt_ready (addr := e.addr) (by rw [heardArm, hs]) hx' hroll' after before
  have staged (hs : ((s.stand st).arm a).state = .staged) := State.prepDoneAt_staged (addr := e.addr) (by rw [heardArm, hs]) hx' hroll' after before
  refine ⟨fun hs hm => ?_, fun hs hm => ?_, fun hs hh => ?_, fun hs hh hbad => ?_, fun hs hh hc hle hmax => ?_⟩
  · rw [ready hs, if_pos hm, State.accept_finish quiet]
  · rw [ready hs, if_neg hm, State.armMismatch_finish quiet, heardArm]
  · rw [staged hs, State.prepareAt, if_pos (Option.isSome_iff_ne_none.2 hh), State.refuse_finish quiet]
  · rw [staged hs, State.prepareAt, hh, grade, if_neg (by simp), if_pos hbad, State.refuse_finish quiet]
  · rw [staged hs, State.prepareAt_good hh (by rwa [grade]) hle hmax,
      State.finish_idle ((State.preparedRoll_passDue hroll' ..).trans quiet)]
    obtain ⟨harm, harmRoll⟩ := State.preparedRoll_arm hroll' e.addr st a after before
    have jobs := State.preparedRoll_jobs hroll' e.addr st a after before
    have charge : ((s.heard e more).chargeStrip st r before after).jobs = (s.chargeStrip st r before after).jobs := by
      have lines : (s.heard e more).lineOf st = s.lineOf st := State.lineOf_congr State.heard_lines st
      have live : (s.heard e more).liveJob = s.liveJob := funext (State.liveJob_congr State.heard_jobs)
      rw [State.chargeStrip, State.chargeStrip, lines, live, grade]
      exact State.modJobAt_jobs_congr State.heard_jobs ..
    refine ⟨_, rfl, harm, harmRoll.trans hx', ?_, fun l m j hl hm hj => ?_, fun hnone => ?_⟩
    · rw [State.preparedRoll_rolls hroll', State.heard_rolls]
      rfl
    · have charged := State.chargeStrip_job hl hm hj r before after
      unfold State.job at charged ⊢
      rw [jobs, charge]
      exact ⟨_, charged, rfl, rfl⟩
    · rw [jobs, charge, State.chargeStrip_jobless hnone]

end Sys2Proof.Machine
end

section
/-! Proofs about STUB_OFF (R95, R96): its checks, the stub charged and freed or sent back to store, and the arm emptied. -/

namespace Sys2Proof.Machine

variable {s : State}

/-! ## An order kept while the call-offs are handed on (R67, R92, R125)

An order stands alone when every entry of the table at its number is that order. -/

/-- Every entry at a number is one order. -/
def State.standsAlone (s : State) (m : Nat) (o : Order) : Prop :=
  s.order m = some o ∧ ∀ e ∈ s.orders, e.1 = m → e.2 = o

theorem State.standsAlone_put (s : State) (m : Nat) (o : Order) : (s.putOrder m (some o)).standsAlone m o := by
  refine ⟨(Law.order_put ..).trans (if_pos rfl), fun e he hm => ?_⟩
  rcases (Tbl.mem_put (t := s.orders) (o := some o)).1 he with ⟨x, hx, rfl⟩ | ⟨_, hne⟩
  · cases hx
    rfl
  · exact absurd hm hne

theorem State.standsAlone_putOther {m k : Nat} {o p : Order} (h : s.standsAlone m o) (hk : k ≠ m) : (s.putOrder k (some p)).standsAlone m o := by
  refine ⟨(Law.order_put ..).trans ((if_neg hk.symm).trans h.1), fun e he hm => ?_⟩
  rcases (Tbl.mem_put (t := s.orders) (o := some p)).1 he with ⟨x, _, rfl⟩ | ⟨hold, _⟩
  · exact absurd hm hk
  · exact h.2 e hold hm

theorem State.standsAlone_create {m k : Nat} {o p : Order} {t : State} (h : s.standsAlone m o) (hc : s.createOrder p = some (k, t)) :
    t.standsAlone m o := by
  unfold State.createOrder at hc
  split at hc
  · next hfree =>
    have fresh : s.nextOrderNumber ≠ m := by
      intro heq
      have hnone := Law.number_new hfree
      rw [heq, h.1] at hnone
      cases hnone
    cases hc
    exact State.standsAlone_putOther (s := { s with orderPointer := _, orderSeq := _ }) h fresh
  · cases hc

theorem State.standsAlone_evalCallOff {m : Nat} {o : Order} (h : s.standsAlone m o) (st : Nat) : (s.evalCallOff st).standsAlone m o := by
  unfold State.evalCallOff
  split
  · exact h
  · dsimp only
    split
    · next hc =>
      have created := State.standsAlone_create h hc
      exact created
    · exact h

theorem State.order_testUrgent_other (s : State) {m n : Nat} (h : m ≠ n) : (s.testUrgent n).order m = s.order m := by
  have urgent : (s.makeUrgent n).order m = s.order m := by
    unfold State.makeUrgent
    repeat' split
    · exact (Law.order_mod ..).trans (if_neg h)
    · exact (Law.order_mod ..).trans (if_neg h)
    · rfl
    · rfl
  unfold State.testUrgent
  repeat' split
  · exact urgent
  · rfl
  · rfl

/-- The new deadlines are those of call-offs, and no other order changes. -/
theorem State.order_recomputeDeadlines {m : Nat} {o : Order} (h : s.standsAlone m o) (hk : o.kind ≠ .callOff) (st : Nat) :
    (s.recomputeDeadlines st).order m = some o := by
  have other : ∀ n ∈ s.callOffsOf st, m ≠ n := by
    rintro n hn rfl
    obtain ⟨e, he, hm⟩ := List.mem_map.1 hn
    obtain ⟨hmem, hcall⟩ := List.mem_filter.1 he
    rw [h.2 e hmem hm] at hcall
    simp [hk] at hcall
  unfold State.recomputeDeadlines
  split
  · refine (Law.each_other (State.order · m) _ _ (fun n hn t => ?_) s).trans h.1
    repeat' split
    · rfl
    · exact (State.order_testUrgent_other _ (other n hn)).trans ((Law.order_mod ..).trans (if_neg (other n hn)))
    · rfl
  · exact h.1

theorem State.each_passDue {f : Nat → State → State} (hf : ∀ n t, t.passDue = true → (f n t).passDue = true) (ns : List Nat) :
    ∀ {s : State}, s.passDue = true → (s.each ns f).passDue = true := by
  induction ns with
  | nil => exact fun h => h
  | cons n ns ih => exact fun h => ih (hf n _ h)

theorem State.testUrgent_passDue {n : Nat} (h : s.passDue = true) : (s.testUrgent n).passDue = true := by
  have urgent : (s.makeUrgent n).passDue = true := by
    unfold State.makeUrgent
    repeat' split
    all_goals simp [h]
  unfold State.testUrgent
  repeat' split
  · exact urgent
  · exact h
  · exact h

theorem State.recomputeDeadlines_passDue {st : Nat} (h : s.passDue = true) : (s.recomputeDeadlines st).passDue = true := by
  unfold State.recomputeDeadlines
  split
  · refine State.each_passDue (fun n t ht => ?_) _ h
    repeat' split
    · exact ht
    · exact State.testUrgent_passDue (by simpa using ht)
    · exact ht
  · exact h

theorem State.handTs_passDue {st : Nat} (h : s.passDue = true) : (s.handTs st).passDue = true :=
  State.recomputeDeadlines_passDue (State.evalCallOff_passDue h)

theorem State.order_handTs {m : Nat} {o : Order} (h : s.standsAlone m o) (hk : o.kind ≠ .callOff) (st : Nat) :
    (s.handTs st).order m = some o :=
  State.order_recomputeDeadlines (State.standsAlone_evalCallOff h st) hk st

/-! ## The stub taken off its arm (R24, R95) -/

theorem State.retireRecord_arm {n : Nat} {r : Roll} {st : Nat} {a : Arm} (h : r.loc = .arm st a) :
    s.retireRecord n r = (s.emptyArm st a).putRoll n none := by
  rw [State.retireRecord, State.removeFromPlace, h]

theorem State.arm_emptyArm (s : State) (st : Nat) (a : Arm) :
    (((s.emptyArm st a).stand st).arm a).state = .empty ∧ (((s.emptyArm st a).stand st).arm a).roll = none := by
  simp only [State.emptyArm, State.arm_setArm]
  exact ⟨rfl, rfl⟩

/-- A stub that goes back to store: at the loading node, partial, linked to its RETURN order. -/
def Roll.backToStore (r : Roll) (node d o : Nat) : Roll :=
  { r with state := .announced, loc := .node node, returned := true, diameter := d, mount := none, job := none, order := some o }

theorem State.stubReturn_live {n : Nat} {r : Roll} (h : s.roll n = some r) (st : Nat) (a : Arm) (node : Nat) (measured : Option Nat) (o : Nat) :
    s.stubReturn n st a node measured o = (s.emptyArm st a).putRoll n (some (r.backToStore node (measured.getD r.diameter) o)) := by
  rw [State.stubReturn, State.modRoll_live (show (s.emptyArm st a).roll n = some r from h)]
  rfl

/-- The RETURN order of a stub, numbered next. -/
def State.returnOrder (s : State) (st : Nat) (a : Arm) (node n : Nat) : Order :=
  { Order.pendingOf .ret (.arm st a) .store with
    place := (lowestFree 40 (s.orders.map fun e : Nat × Order => e.2.place)).getD 1, seq := s.orderSeq + 1
    roll := some n, source := some (.node node) }

/-- The state with the RETURN order of a stub created. -/
def State.returning (s : State) (st : Nat) (a : Arm) (node n : Nat) : State :=
  ({ s with orderPointer := s.nextOrderNumber % 255 + 1, orderSeq := s.orderSeq + 1 }.putOrder s.nextOrderNumber
    (some (s.returnOrder st a node n))).notice

theorem State.createOrder_stub (h : s.orderFree = true) (st : Nat) (a : Arm) (node n : Nat) :
    s.createOrder (Order.stubReturn st a node n) = some (s.nextOrderNumber, s.returning st a node n) := by
  rw [State.createOrder, if_pos h]
  rfl

section
variable {st n d : Nat} {a : Arm} {r : Roll} {measured : Option Nat}

theorem State.stubAway_short (hloc : r.loc = .arm st a) (hd : d ≤ (s.grade r.grade).threshold) :
    s.stubAway st a n r measured d = ((s.chargeStub r d).emptyArm st a).putRoll n none := by
  rw [State.stubAway, if_pos hd, State.retireRecord_arm hloc]

theorem State.stubAway_long (hr : s.roll n = some r) (hd : (s.grade r.grade).threshold < d) (hfree : s.orderFree = true) :
    s.stubAway st a n r measured d =
      ((s.returning st a ((s.stand st).loading.getD 0) n).emptyArm st a).putRoll n
        (some (r.backToStore ((s.stand st).loading.getD 0) (measured.getD r.diameter) s.nextOrderNumber)) := by
  have hr' : (s.returning st a ((s.stand st).loading.getD 0) n).roll n = some r := hr
  rw [State.stubAway, if_neg (by omega)]
  simp only [State.createOrder_stub hfree]
  exact State.stubReturn_live hr' ..

/-- A stub at or below the threshold is charged to the job in its job field (R24). -/
theorem State.chargeStub_job {m : Nat} {j : Job} (hm : r.job = some m) (hj : s.job m = some j) (d : Nat) :
    (s.chargeStub r d).job m = some (j.chargeStub ((s.grade r.grade).length d)
      ((s.grade r.grade).grams ((s.grade r.grade).length d) r.width)) := by
  rw [State.chargeStub, hm, State.job_modJobAt_some, hj]
  rfl

end

/-- What the stub's removal leaves: the arm EMPTY, and the record freed and charged, or back at the loading node. -/
def State.stubGone (s t : State) (st : Nat) (a : Arm) (n : Nat) (r : Roll) (d : Nat) : Prop :=
  ((t.stand st).arm a).state = .empty ∧ ((t.stand st).arm a).roll = none ∧
  (d ≤ (s.grade r.grade).threshold → t.roll n = none ∧ t.jobs = (s.chargeStub r d).jobs) ∧
  ((s.grade r.grade).threshold < d → t.jobs = s.jobs ∧
    t.roll n = some (r.backToStore ((s.stand st).loading.getD 0) d s.nextOrderNumber))

/-- A new RETURN order of a stub, which a pass is to take up. -/
def State.stubOrdered (s t : State) (st : Nat) (a : Arm) (n : Nat) : Prop :=
  t.passDue = true ∧ t.standsAlone s.nextOrderNumber (s.returnOrder st a ((s.stand st).loading.getD 0) n)

section
variable {st n d : Nat} {a : Arm} {r : Roll} {measured : Option Nat}

theorem State.stubAway_gone (hr : s.roll n = some r) (hloc : r.loc = .arm st a)
    (hfree : d ≤ (s.grade r.grade).threshold ∨ s.orderFree = true) (hd : measured.getD r.diameter = d) :
    s.stubGone (s.stubAway st a n r measured d) st a n r d := by
  by_cases hle : d ≤ (s.grade r.grade).threshold
  · obtain ⟨hstate, hroll⟩ := State.arm_emptyArm (s.chargeStub r d) st a
    rw [State.stubAway_short hloc hle]
    exact ⟨hstate, hroll, fun _ => ⟨State.roll_putRoll_same .., rfl⟩, fun hlt => absurd hle (by omega)⟩
  · have hfree : s.orderFree = true := hfree.resolve_left hle
    obtain ⟨hstate, hroll⟩ := State.arm_emptyArm (s.returning st a ((s.stand st).loading.getD 0) n) st a
    rw [State.stubAway_long hr (by omega) hfree, hd]
    exact ⟨hstate, hroll, fun hle' => absurd hle' hle, fun _ => ⟨rfl, State.roll_putRoll_same ..⟩⟩

theorem State.stubAway_ordered (hr : s.roll n = some r) (hlt : (s.grade r.grade).threshold < d) (hfree : s.orderFree = true) :
    s.stubOrdered (s.stubAway st a n r measured d) st a n := by
  rw [State.stubAway_long hr hlt hfree]
  exact ⟨rfl, State.standsAlone_put { s with orderPointer := _, orderSeq := _ } ..⟩

/-- Neither the writes of level 0 that keep the rolls nor the pass after them touch the arm, the jobs or the roll. -/
theorem State.stubGone_finish {u v : State} (h : s.stubGone u st a n r d) (hw : Wr 0 u v) (hrolls : v.rolls = u.rolls) :
    s.stubGone v.finish st a n r d := by
  obtain ⟨hstate, hroll, hshort, hlong⟩ := h
  have hfin : Wr 0 u v.finish := hw.trans (State.finish_writes v)
  obtain ⟨kstate, kroll⟩ := hfin.kept_arm st a
  have jobs : v.finish.jobs = u.jobs := (hfin.kept_lines (by decide)).2
  refine ⟨kstate.trans hstate, kroll.trans hroll, fun hle => ?_, fun hlt => ?_⟩
  · obtain ⟨hnone, hjobs⟩ := hshort hle
    exact ⟨hfin.kept_free (by decide) n hnone, jobs.trans hjobs⟩
  · obtain ⟨hjobs, hsome⟩ := hlong hlt
    have kept : v.roll n = u.roll n := by unfold State.roll; rw [hrolls]
    exact ⟨jobs.trans hjobs, Law.onlyStoredRollsChange_finish v n _ (kept.trans hsome) (by simp [Roll.backToStore])⟩

end

/-! ## The two stub-offs (R95, R96) -/

/-- Two states that agree on what a stub's removal reads. -/
structure State.StubTwin (s u : State) (st : Nat) : Prop where
  grades : u.grades = s.grades
  jobs : u.jobs = s.jobs
  orders : u.orders = s.orders
  orderPointer : u.orderPointer = s.orderPointer
  orderSeq : u.orderSeq = s.orderSeq
  loading : (u.stand st).loading = (s.stand st).loading

section
variable {u t : State} {st n d : Nat} {a : Arm} {r : Roll} {measured : Option Nat}

theorem State.StubTwin.grade (h : s.StubTwin u st) (g : Nat) : u.grade g = s.grade g := by
  unfold State.grade
  rw [h.grades]

theorem State.StubTwin.nextOrderNumber (h : s.StubTwin u st) : u.nextOrderNumber = s.nextOrderNumber := by
  unfold State.nextOrderNumber
  rw [h.orders, h.orderPointer]

theorem State.StubTwin.orderFree (h : s.StubTwin u st) : u.orderFree = s.orderFree := by
  unfold State.orderFree
  rw [h.orders, h.orderSeq]

theorem State.StubTwin.stubBlocked (h : s.StubTwin u st) (r : Roll) (d : Nat) : u.stubBlocked r d = s.stubBlocked r d := by
  rw [State.stubBlocked, State.stubBlocked, h.grade, h.orderFree]

theorem State.StubTwin.chargeStub (h : s.StubTwin u st) (r : Roll) (d : Nat) : (u.chargeStub r d).jobs = (s.chargeStub r d).jobs := by
  rw [State.chargeStub, State.chargeStub, h.grade]
  exact State.modJobAt_jobs_congr h.jobs ..

/-- The state and the diameter of the roll do not matter to its removal at a given diameter. -/
theorem State.StubTwin.stubGone (h : s.StubTwin u st) {y : RollState} {z : Nat} (hu : u.stubGone t st a n { r with state := y, diameter := z } d) :
    s.stubGone t st a n r d := by
  obtain ⟨hstate, hroll, hshort, hlong⟩ := hu
  rw [h.grade] at hshort hlong
  refine ⟨hstate, hroll, fun hle => ?_, fun hlt => ?_⟩
  · obtain ⟨hnone, hjobs⟩ := hshort hle
    exact ⟨hnone, hjobs.trans (h.chargeStub r d)⟩
  · obtain ⟨hjobs, hsome⟩ := hlong hlt
    rw [h.loading, h.nextOrderNumber] at hsome
    exact ⟨hjobs.trans h.jobs, hsome⟩

theorem State.StubTwin.stubOrdered (h : s.StubTwin u st) (hu : u.stubOrdered t st a n) : s.stubOrdered t st a n := by
  obtain ⟨hdue, halone⟩ := hu
  rw [h.loading, h.nextOrderNumber, State.returnOrder, h.orders, h.orderSeq] at halone
  exact ⟨hdue, halone⟩

theorem State.stubBlocked_iff (s : State) (r : Roll) (d : Nat) :
    s.stubBlocked r d = true ↔ (s.grade r.grade).threshold < d ∧ s.orderFree = false := by
  simp [State.stubBlocked]

theorem State.stubOffExpired_blocked (addr : Nat) (h : s.stubBlocked r (measured.getD r.diameter) = true) :
    s.stubOffExpired addr st a n r measured = s.stubFull addr st := by
  rw [State.stubOffExpired, if_pos h]

theorem State.stubOffExpired_free (addr : Nat) (h : ¬ s.stubBlocked r (measured.getD r.diameter) = true) :
    s.stubOffExpired addr st a n r measured =
      ((s.stubAway st a n r measured (measured.getD r.diameter)).accept addr .stubOff).evalCallOff st := by
  rw [State.stubOffExpired, if_neg h]

theorem State.not_stubBlocked (h : d ≤ (s.grade r.grade).threshold ∨ s.orderFree = true) : ¬ s.stubBlocked r d = true := by
  rw [State.stubBlocked_iff]
  rintro ⟨hlt, hnone⟩
  rcases h with hle | hfree
  · omega
  · rw [hfree] at hnone
    cases hnone

theorem State.stubOffExpired_gone (addr : Nat) (hr : s.roll n = some r) (hloc : r.loc = .arm st a) (hd : measured.getD r.diameter = d)
    (hfree : d ≤ (s.grade r.grade).threshold ∨ s.orderFree = true) :
    s.stubGone (s.stubOffExpired addr st a n r measured).finish st a n r d := by
  subst hd
  rw [State.stubOffExpired_free addr (State.not_stubBlocked hfree)]
  refine State.stubGone_finish (State.stubAway_gone hr hloc hfree rfl) (State.wr_evalCallOff (State.wr_accept .refl _ _) st) ?_
  rw [RollsAfter.evalCallOff, State.accept, State.send_rolls]

theorem State.stubOffExpired_ordered (addr : Nat) (hr : s.roll n = some r) (hd : measured.getD r.diameter = d)
    (hlt : (s.grade r.grade).threshold < d) (hfree : s.orderFree = true) :
    (s.stubOffExpired addr st a n r measured).passDue = true ∧
    (s.stubOffExpired addr st a n r measured).order s.nextOrderNumber =
      some (s.returnOrder st a ((s.stand st).loading.getD 0) n) := by
  subst hd
  rw [State.stubOffExpired_free addr (State.not_stubBlocked (.inr hfree))]
  obtain ⟨hdue, halone⟩ := State.stubAway_ordered (st := st) (a := a) (measured := measured) hr hlt hfree
  refine ⟨State.evalCallOff_passDue ((Law.accept_quiet ..).trans hdue), State.evalCallOff_order_live ?_⟩
  unfold State.order
  rw [State.accept, State.send_orders]
  exact halone.1

/-- The running roll made a STUB at the diameter of a run-out stand (R6). -/
def Roll.expired (r : Roll) (df : Option Nat) : Roll := { r with state := .stub, diameter := df.getD r.diameter }

theorem State.expire_live (hr : s.roll n = some r) (st : Nat) (a : Arm) (df : Option Nat) : s.expire n st a df =
    (s.putRoll n (some (r.expired df))).setArm st a { (s.stand st).arm a with state := .expired } := by
  rw [State.expire, State.modRoll_live hr]
  rfl

theorem State.loading_setArm (s : State) (st : Nat) (a : Arm) (x : ArmRec) (c : Nat) :
    ((s.setArm st a x).stand c).loading = (s.stand c).loading := by
  rw [State.setArm, Law.stand_mod]
  split
  · next h =>
    subst h
    cases a <;> rfl
  · rfl

theorem State.stubTwin_expire (hr : s.roll n = some r) (st : Nat) (a : Arm) (df : Option Nat) : s.StubTwin (s.expire n st a df) st := by
  rw [State.expire_live hr]
  exact ⟨rfl, rfl, rfl, rfl, rfl, State.loading_setArm ..⟩

theorem State.roll_expire (hr : s.roll n = some r) (st : Nat) (a : Arm) (df : Option Nat) :
    (s.expire n st a df).roll n = some (r.expired df) := by
  rw [State.expire_live hr]
  exact State.roll_putRoll_same s n (some (r.expired df))

theorem Stand.arm_rested (x : Stand) (a : Arm) : x.rested.arm a = x.arm a := by
  cases a <;> rfl

/-- The stub away from a run-out stand and the stand at rest. -/
def State.ranOut (s : State) (st : Nat) (a : Arm) (n : Nat) (r : Roll) (measured : Option Nat) (df : Option Nat) : State :=
  ((s.expire n st a df).stubAway st a n (r.expired df) measured (measured.getD (df.getD r.diameter))).modStand st Stand.rested

theorem State.stubOffRunout_blocked (addr : Nat) (h : s.stubBlocked r (measured.getD ((s.stand st).df.getD r.diameter)) = true) :
    s.stubOffRunout addr st a n r measured = s.stubFull addr st := by
  simp only [State.stubOffRunout, h, if_true]

theorem State.stubOffRunout_free (addr : Nat) (hr : s.roll n = some r)
    (h : ¬ s.stubBlocked r (measured.getD ((s.stand st).df.getD r.diameter)) = true) :
    s.stubOffRunout addr st a n r measured = ((s.ranOut st a n r measured (s.stand st).df).accept addr .stubOff).handTs st := by
  simp only [State.stubOffRunout, h, State.roll_expire hr]
  rfl

theorem State.ranOut_gone (hr : s.roll n = some r) (hloc : r.loc = .arm st a) {df : Option Nat} (hd : measured.getD (df.getD r.diameter) = d)
    (hfree : d ≤ (s.grade r.grade).threshold ∨ s.orderFree = true) :
    s.stubGone (s.ranOut st a n r measured df) st a n r d := by
  subst hd
  have twin := State.stubTwin_expire hr st a df
  have gone := twin.stubGone (State.stubAway_gone (measured := measured) (State.roll_expire hr st a df) hloc
    (by rw [twin.grade, twin.orderFree]; exact hfree) rfl)
  obtain ⟨hstate, hroll, hrest⟩ := gone
  rw [State.stubGone, State.ranOut, Law.stand_mod, if_pos rfl, Stand.arm_rested]
  exact ⟨hstate, hroll, hrest⟩

theorem State.stubOffRunout_gone (addr : Nat) (hr : s.roll n = some r) (hloc : r.loc = .arm st a)
    (hd : measured.getD ((s.stand st).df.getD r.diameter) = d) (hfree : d ≤ (s.grade r.grade).threshold ∨ s.orderFree = true) :
    s.stubGone (s.stubOffRunout addr st a n r measured).finish st a n r d := by
  have gone := State.ranOut_gone hr hloc hd hfree
  subst hd
  rw [State.stubOffRunout_free addr hr (State.not_stubBlocked hfree)]
  refine State.stubGone_finish gone (State.wr_handTs (State.wr_accept .refl _ _) st) ?_
  rw [RollsAfter.handTs, State.accept, State.send_rolls]

theorem State.stubOffRunout_ordered (addr : Nat) (hr : s.roll n = some r) (hd : measured.getD ((s.stand st).df.getD r.diameter) = d)
    (hlt : (s.grade r.grade).threshold < d) (hfree : s.orderFree = true) :
    (s.stubOffRunout addr st a n r measured).passDue = true ∧
    (s.stubOffRunout addr st a n r measured).order s.nextOrderNumber =
      some (s.returnOrder st a ((s.stand st).loading.getD 0) n) := by
  subst hd
  rw [State.stubOffRunout_free addr hr (State.not_stubBlocked (.inr hfree))]
  have twin := State.stubTwin_expire hr st a (s.stand st).df
  obtain ⟨hdue, halone⟩ := twin.stubOrdered (State.stubAway_ordered (st := st) (a := a) (measured := measured)
    (State.roll_expire hr st a (s.stand st).df) (by rw [twin.grade]; exact hlt) (by rw [twin.orderFree]; exact hfree))
  have sent : ((s.ranOut st a n r measured (s.stand st).df).accept addr .stubOff).orders =
      (s.ranOut st a n r measured (s.stand st).df).orders := by rw [State.accept, State.send_orders]
  refine ⟨State.handTs_passDue ((Law.accept_quiet ..).trans hdue), State.order_handTs ?_ (by simp [State.returnOrder, Order.pendingOf]) st⟩
  unfold State.standsAlone State.order at halone ⊢
  rw [sent]
  exact halone

/-- The run-out stand is IDLE and without a diameter after its stub-off. -/
theorem State.stubOffRunout_stand (addr : Nat) (hr : s.roll n = some r)
    (hfree : measured.getD ((s.stand st).df.getD r.diameter) ≤ (s.grade r.grade).threshold ∨ s.orderFree = true) :
    let x := (s.stubOffRunout addr st a n r measured).finish.stand st
    x.seq = .idle ∧ x.df = none ∧ x.runout = false ∧ x.late = false ∧ x.ts = 65535 := by
  rw [State.stubOffRunout_free addr hr (State.not_stubBlocked hfree)]
  have bare : Law.standBare st (((s.ranOut st a n r measured (s.stand st).df).accept addr .stubOff).handTs st).finish =
      Law.standBare st (s.ranOut st a n r measured (s.stand st).df) :=
    (BareStand.finish ..).trans ((BareStand.handTs ..).trans (BareStand.stands (State.send_stands ..) st))
  have rested : ∃ x : Stand, (s.ranOut st a n r measured (s.stand st).df).stand st = x.rested :=
    ⟨_, (Law.stand_mod ..).trans (if_pos rfl)⟩
  obtain ⟨x, hx⟩ := rested
  refine ⟨?_, ?_, ?_, ?_, ?_⟩
  · rw [Law.stand_field_bare Stand.seq (fun _ => rfl) bare, hx]; rfl
  · rw [Law.stand_field_bare Stand.df (fun _ => rfl) bare, hx]; rfl
  · rw [Law.stand_field_bare Stand.runout (fun _ => rfl) bare, hx]; rfl
  · rw [Law.stand_field_bare Stand.late (fun _ => rfl) bare, hx]; rfl
  · rw [Law.stand_field_bare Stand.ts (fun _ => rfl) bare, hx]; rfl

end

/-! ## STUB_OFF (R95) -/

theorem exec_stubOff (a : Arm) (measured : Option Nat) (more : Bool) (s : State) :
    exec (.stubOff a measured more) s = execStubOff a measured more s := rfl

section
variable {e : Exchange} {y : Station} {more : Bool}

theorem execStubOff_otherRole (h : s.hears e y) (hr : ∀ st, y.role ≠ .standNode st) (a : Arm) (measured : Option Nat) :
    exec (.stubOff a measured more) s = .next ((s.heard e more).refuse e.addr .stubOff .badArgument) := by
  rw [exec_stubOff, execStubOff]
  refine Law.report_refuse h ?_
  cases hx : y.role with
  | standNode st => exact absurd hx (hr st)
  | _ => rfl

theorem execStubOff_stand (h : s.hears e y) {st : Nat} (hr : y.role = .standNode st) (a : Arm) (measured : Option Nat) :
    exec (.stubOff a measured more) s = .next ((s.heard e more).stubOffAt e.addr st a measured).finish := by
  rw [exec_stubOff, execStubOff, report_heard h, hr]

/-- A report leaves the tables a stub's removal reads as they were. -/
theorem State.stubTwin_heard (s : State) (e : Exchange) (more : Bool) (st : Nat) : s.StubTwin (s.heard e more) st :=
  ⟨State.heard_grades, State.heard_jobs, State.heard_orders, State.heard_orderPointer, State.heard_orderSeq, by rw [Law.heard_stand]⟩

end

section
variable {st addr : Nat} {a : Arm} {measured : Option Nat}

/-- The roll an arm names, with its record. -/
def State.armRoll (s : State) (x : ArmRec) : Option (Nat × Roll) := x.roll.bind fun n => (s.roll n).map fun r => (n, r)

theorem State.stubOffAt_bad {r : Option Roll} (hl : (s.armRoll ((s.stand st).arm a)).map Prod.snd = r) (h : s.stubValueBad r measured = true) :
    s.stubOffAt addr st a measured = s.refuse addr .stubOff .badArgument := by
  subst hl
  exact if_pos h

/-- A stub comes off an EXPIRED arm, and off the ACTIVE arm of a run-out stand in BREAK. -/
def State.stubTaken (s : State) (st : Nat) (a : Arm) : Prop :=
  ((s.stand st).arm a).state = .expired ∨ (((s.stand st).arm a).state = .active ∧ s.runoutStub st = true)

theorem State.runoutStub_iff (s : State) (st : Nat) :
    s.runoutStub st = true ↔ (s.stand st).runout = true ∧ ∃ l, s.lineOf st = some l ∧ (s.line l).inBreak = true := by
  simp [State.runoutStub, Option.any_eq_true]

theorem State.stubOffAt_mismatch {r : Option Roll} (hl : (s.armRoll ((s.stand st).arm a)).map Prod.snd = r)
    (h : s.stubValueBad r measured = false) (hno : s.stubTaken st a → r = none) :
    s.stubOffAt addr st a measured = s.armMismatch addr .stubOff ((s.stand st).arm a) := by
  subst hl
  simp only [State.stubOffAt]
  rw [if_neg (by rw [← State.armRoll, h]; decide), ← State.armRoll]
  cases hroll : s.armRoll ((s.stand st).arm a) with
  | none => cases ((s.stand st).arm a).state <;> rfl
  | some p =>
    rw [hroll] at hno
    have untaken : ¬ s.stubTaken st a := fun ht => nomatch hno ht
    cases hs : ((s.stand st).arm a).state with
    | active =>
      have norun : ¬ s.runoutStub st = true := fun hr => untaken (.inr ⟨hs, hr⟩)
      exact if_neg norun
    | expired => exact absurd (.inl hs) untaken
    | _ => rfl

theorem State.stubOffAt_expired {n : Nat} {r : Roll} (hs : ((s.stand st).arm a).state = .expired)
    (hx : s.armRoll ((s.stand st).arm a) = some (n, r)) (h : s.stubValueBad (some r) measured = false) :
    s.stubOffAt addr st a measured = s.stubOffExpired addr st a n r measured := by
  rw [State.armRoll] at hx
  simp only [State.stubOffAt, hx, hs, Option.map_some, h, Bool.false_eq_true, if_false]

theorem State.stubOffAt_active {n : Nat} {r : Roll} (hs : ((s.stand st).arm a).state = .active) (hrun : s.runoutStub st = true)
    (hx : s.armRoll ((s.stand st).arm a) = some (n, r)) (h : s.stubValueBad (some r) measured = false) :
    s.stubOffAt addr st a measured = s.stubOffRunout addr st a n r measured := by
  rw [State.armRoll] at hx
  simp only [State.stubOffAt, hx, hs, hrun, Option.map_some, h, Bool.false_eq_true, if_false, if_true]

theorem State.stubFull_finish (h : s.passDue = false) (addr st : Nat) :
    (s.stubFull addr st).finish = (s.raise .storeFull ((s.stand st).loading.getD 0)).refuse addr .stubOff .full :=
  State.finish_idle ((Law.refuse_quiet ..).trans h)

/-- The diameter the record holds for a stub that is not measured (R95, R96). -/
def State.stubDiameter (s : State) (st : Nat) (a : Arm) (r : Roll) : Nat :=
  if ((s.stand st).arm a).state = .expired then r.diameter else (s.stand st).df.getD r.diameter

variable {n d : Nat} {r : Roll}

/-- A stub that is taken, at its diameter: refused while no order record can be had, else gone from its arm. -/
theorem State.stubOffAt_taken (hx : s.armRoll ((s.stand st).arm a) = some (n, r)) (hr : s.roll n = some r)
    (hok : s.stubValueBad (some r) measured = false) (ht : s.stubTaken st a) (hd : measured.getD (s.stubDiameter st a r) = d) :
    (s.stubBlocked r d = true → s.stubOffAt addr st a measured = s.stubFull addr st) ∧
    ((s.grade r.grade).threshold < d → s.orderFree = true →
      (s.stubOffAt addr st a measured).passDue = true ∧
      (s.stubOffAt addr st a measured).order s.nextOrderNumber = some (s.returnOrder st a ((s.stand st).loading.getD 0) n)) ∧
    ((d ≤ (s.grade r.grade).threshold ∨ s.orderFree = true) → r.loc = .arm st a →
      s.stubGone (s.stubOffAt addr st a measured).finish st a n r d ∧
      (((s.stand st).arm a).state = .active →
        let x := (s.stubOffAt addr st a measured).finish.stand st
        x.seq = .idle ∧ x.df = none ∧ x.runout = false ∧ x.late = false ∧ x.ts = 65535)) := by
  subst hd
  rcases ht with hs | ⟨hs, hrun⟩
  · rw [State.stubDiameter, if_pos hs, State.stubOffAt_expired hs hx hok]
    refine ⟨State.stubOffExpired_blocked addr, State.stubOffExpired_ordered addr hr rfl, fun hfree hloc => ?_⟩
    exact ⟨State.stubOffExpired_gone addr hr hloc rfl hfree, fun hact => by rw [hs] at hact; cases hact⟩
  · rw [State.stubDiameter, if_neg (by rw [hs]; decide), State.stubOffAt_active hs hrun hx hok]
    refine ⟨State.stubOffRunout_blocked addr, State.stubOffRunout_ordered addr hr rfl, fun hfree hloc => ?_⟩
    exact ⟨State.stubOffRunout_gone addr hr hloc rfl hfree, fun _ => State.stubOffRunout_stand addr hr hfree⟩

end

theorem State.stubValueBad_iff (s : State) (r : Option Roll) (measured : Option Nat) : s.stubValueBad r measured = true ↔
    ∃ d, measured = some d ∧ (15000 < d ∨ ∃ x, r = some x ∧ d < (s.grade x.grade).core) := by
  cases measured <;> cases r <;> simp [State.stubValueBad]

theorem State.stubValueBad_eq_false {r : Option Roll} {measured : Option Nat} (h : ∀ d, measured = some d → d ≤ 15000)
    (hr : ∀ d x, measured = some d → r = some x → (s.grade x.grade).core ≤ d) : s.stubValueBad r measured = false := by
  rw [Bool.eq_false_iff, Ne, State.stubValueBad_iff]
  rintro ⟨d, hd, hgt | ⟨x, hx, hlt⟩⟩
  · exact absurd (h d hd) (by omega)
  · exact absurd (hr d x hd hx) (by omega)

/-- Settles O39: each refusal by its case; both stub-offs end in the same removal of the stub, which what follows it leaves as it is. -/
theorem stubOffEmptiesTheArm : Obligations.StubOffEmptiesTheArm := by
  intro s e y a measured more hy
  refine ⟨fun hr => execStubOff_otherRole hy hr a measured, fun st hr => ?_⟩
  have quiet : (s.heard e more).passDue = false := by simp
  have stand : (s.heard e more).stand st = s.stand st := Law.heard_stand _
  have twin := s.stubTwin_heard e more st
  rw [execStubOff_stand hy hr]
  refine ⟨fun d hd hgt => ?_, fun hok hnone => ?_, fun n r hx hroll => ?_⟩
  · rw [State.stubOffAt_bad rfl ((State.stubValueBad_iff ..).2 ⟨d, hd, .inl hgt⟩), State.refuse_finish quiet]
  · have unlinked : (s.heard e more).armRoll (((s.heard e more).stand st).arm a) = none := by
      rw [stand, State.armRoll, hnone]
      rfl
    rw [State.stubOffAt_mismatch (r := none) (by rw [unlinked]; rfl) (State.stubValueBad_eq_false hok (fun _ _ _ h => nomatch h))
      (fun _ => rfl), State.armMismatch_finish quiet, stand]
  intro g out taken kept d
  have hroll' : (s.heard e more).roll n = some r := by rw [Law.heard_roll, hroll]
  have linked : (s.heard e more).armRoll (((s.heard e more).stand st).arm a) = some (n, r) := by
    rw [stand, State.armRoll, hx, Option.bind_some, hroll']
    rfl
  have snd : ((s.heard e more).armRoll (((s.heard e more).stand st).arm a)).map Prod.snd = some r := by rw [linked]; rfl
  have takes : (s.heard e more).stubTaken st a ↔ taken := by
    rw [State.stubTaken, State.runoutStub_iff, stand, State.lineOf_congr (t := s.heard e more) State.heard_lines]
    simp only [Law.heard_line]
    rfl
  refine ⟨fun hcore => ?_, fun hok => ?_⟩
  · obtain ⟨c, hc, hlt⟩ := hcore
    rw [State.stubOffAt_bad snd ((State.stubValueBad_iff ..).2 ⟨c, hc, .inr ⟨r, rfl, by rw [twin.grade]; exact hlt⟩⟩),
      State.refuse_finish quiet]
  have good : (s.heard e more).stubValueBad (some r) measured = false :=
    State.stubValueBad_eq_false (fun c hc => (hok c hc).2) (fun c x hc hx => by cases hx; rw [twin.grade]; exact (hok c hc).1)
  have diameter : measured.getD ((s.heard e more).stubDiameter st a r) = d := by
    rw [State.stubDiameter, stand]
  have done (ht : taken) := State.stubOffAt_taken (addr := e.addr) linked hroll' good (takes.2 ht) diameter
  refine ⟨fun hno => ?_, fun ht hlt hfull => ?_, fun ht hlt hfree hloc => ?_, fun ht hfree hloc => ?_⟩
  · rw [State.stubOffAt_mismatch snd good (fun ht => absurd (takes.1 ht) hno), State.armMismatch_finish quiet, stand]
  · obtain ⟨full, _⟩ := done ht
    rw [full (by rw [twin.stubBlocked, State.stubBlocked_iff]; exact ⟨hlt, hfull⟩), State.stubFull_finish quiet, stand]
  · obtain ⟨_, ordered, _⟩ := done ht
    obtain ⟨hdue, horder⟩ := ordered (by rw [twin.grade]; exact hlt) (by rw [twin.orderFree]; exact hfree)
    refine ⟨_, rfl, hdue, ?_⟩
    rw [twin.nextOrderNumber, twin.loading, State.returnOrder, twin.orders, twin.orderSeq] at horder
    exact horder
  · obtain ⟨_, _, gone⟩ := done ht
    obtain ⟨hgone, hstand⟩ := gone (by rw [twin.grade, twin.orderFree]; exact hfree) hloc
    obtain ⟨hstate, harm, hshort, hlong⟩ := twin.stubGone hgone
    refine ⟨_, rfl, hstate, harm, fun hact => hstand (by rw [stand]; exact hact), fun hle => ?_, hlong⟩
    obtain ⟨hnone, hjobs⟩ := hshort hle
    refine ⟨hnone, fun m j hm hj => ?_⟩
    have charged := State.chargeStub_job hm hj d
    unfold State.job at charged ⊢
    rw [hjobs]
    exact ⟨_, charged, rfl, rfl⟩

end Sys2Proof.Machine
end

section
/-! What a load, a delivery and the refusal of one leave of the vehicle, its roll and its order: the rules the proof about LOADED and UNLOADED
uses (R150). -/

namespace Sys2Proof.Machine

variable {s : State}

/-! ## Operations that write one table -/

theorem State.sendVehicle_only (s : State) (v : Nat) (c : Cmd) : ∃ t, s.sendVehicle v c = { s with stations := t } := by
  unfold State.sendVehicle State.sendVehicleKept State.sendKept State.modStation
  repeat' split
  · exact ⟨s.stations, rfl⟩
  · exact ⟨s.stations, rfl⟩
  · exact ⟨_, rfl⟩

theorem State.accept_only (s : State) (a : Nat) (k : Report) : ∃ t, s.accept a k = { s with stations := t } := by
  unfold State.accept State.send State.sendKept State.modStation
  split
  · exact ⟨s.stations, rfl⟩
  · exact ⟨_, rfl⟩

theorem State.refuse_only (s : State) (a : Nat) (k : Report) (x : Reason) : ∃ t, s.refuse a k x = { s with stations := t } := by
  unfold State.refuse State.send State.sendKept State.modStation
  split
  · exact ⟨s.stations, rfl⟩
  · exact ⟨_, rfl⟩

theorem State.sendTask_only (s : State) (n : Nat) : ∃ t, s.sendTask n = { s with stations := t } := by
  unfold State.sendTask
  repeat' split
  · exact s.sendVehicle_only ..
  · exact ⟨s.stations, rfl⟩
  · exact ⟨s.stations, rfl⟩
  · exact ⟨s.stations, rfl⟩

theorem State.clearMarks_only (s : State) (v : Nat) :
    ∃ b p, s.clearMarks v = { s with bays := b, passDue := p } ∧ (s.passDue = true → p = true) := by
  unfold State.clearMarks
  generalize (s.bays.filter (·.2.mark == some v)).map Prod.fst = ns
  induction ns generalizing s with
  | nil => exact ⟨s.bays, s.passDue, rfl, id⟩
  | cons n ns ih =>
    obtain ⟨b, p, heq, hp⟩ := ih (s.modBay n ({ · with mark := none })).notice
    exact ⟨b, p, heq, fun _ => hp rfl⟩

theorem State.modOrder_live {n : Nat} {o : Order} (h : s.order n = some o) (f : Order → Order) :
    s.modOrder n f = s.putOrder n (some (f o)) := by
  simp [State.modOrder, h]

/-! ## Pickup and drop (R120) -/

theorem State.pickup_congr {t : State} (h : ∀ b, (t.bay b).aisle = (s.bay b).aisle) (o : Order) : t.pickup o = s.pickup o := by
  unfold State.pickup
  congr 1
  funext src
  cases src with
  | node n => rfl
  | bay b => exact h b

theorem State.drop_congr {t : State} (h : ∀ b, (t.bay b).aisle = (s.bay b).aisle) (hs : t.stands = s.stands) (o : Order) :
    t.drop o = s.drop o := by
  unfold State.drop
  congr 1
  funext dst
  cases dst with
  | node n => rfl
  | bay b => exact h b
  | arm st a => simp only [State.destNode, State.stand, hs]

/-! ## The drop leg (R150) -/

/-- A vehicle that has ended its transfer at the pickup, with a roll on board. -/
def Vehicle.leaving (x : Vehicle) : Vehicle := { x with state := .toDrop, leg := none, nextRoute := none, transfer := .stopped }

/-- A vehicle given the first segment of its way. -/
def Vehicle.on (x : Vehicle) (way : Option Nat) : Vehicle := { x with leg := way.map (⟨·, 0⟩) }

section
variable {v n : Nat} {o : Order}

theorem State.beginDrop_way {a d : Nat} {way : Option Nat} (ha : s.pickup o = some a) (hd : s.drop o = some d)
    (hw : s.wayBetween a d = some way) : s.beginDrop v n o =
      ((s.modVehicle v Vehicle.leaving).modVehicle v (Vehicle.on · way)).restartProgress v := by
  unfold State.beginDrop
  rw [ha, hd]
  dsimp only
  rw [hw]
  rfl

/-- Beginning the drop leg leaves rolls and bays as they are, and leads to no pass by itself. -/
theorem State.beginDrop_rest (s : State) (v n : Nat) (o : Order) : (s.beginDrop v n o).rolls = s.rolls ∧
    (s.beginDrop v n o).bays = s.bays ∧ (s.beginDrop v n o).passDue = s.passDue := by
  have tasked (t : State) : (t.sendTask n).rolls = t.rolls ∧ (t.sendTask n).bays = t.bays ∧ (t.sendTask n).passDue = t.passDue := by
    obtain ⟨st, hst⟩ := t.sendTask_only n
    rw [hst]
    exact ⟨rfl, rfl, rfl⟩
  unfold State.beginDrop
  dsimp only
  repeat' split
  · exact ⟨rfl, rfl, rfl⟩
  · obtain ⟨hrolls, hbays, hpass⟩ := tasked (((s.modVehicle v Vehicle.leaving).modOrder n ({ · with noRoute := true })).restartProgress v)
    have hpass' : (((s.modVehicle v Vehicle.leaving).modOrder n ({ · with noRoute := true })).restartProgress v).passDue = s.passDue := by
      rw [(VehicleLaw.restart_rest ..).2.2, State.modOrder_passDue]
      rfl
    refine ⟨hrolls.trans ?_, hbays.trans ?_, hpass.trans hpass'⟩
    · rw [RollsAfter.restartProgress, State.modOrder_rolls]
      rfl
    · rw [State.restartProgress, State.modVehicle_bays, State.modOrder_bays]
      rfl
  · exact ⟨rfl, rfl, rfl⟩

/-- At most the flag NO_ROUTE of the order is written. -/
theorem State.beginDrop_order {q : Order} (h : s.order n = some q) (v : Nat) (o : Order) :
    ∃ flag, (s.beginDrop v n o).order n = some { q with noRoute := flag } := by
  have h' : (s.modVehicle v Vehicle.leaving).order n = some q := h
  unfold State.beginDrop
  dsimp only
  repeat' split
  · exact ⟨q.noRoute, h⟩
  · refine ⟨true, ?_⟩
    obtain ⟨st, hst⟩ := (((s.modVehicle v Vehicle.leaving).modOrder n ({ · with noRoute := true })).restartProgress v).sendTask_only n
    refine (congrArg (State.order · n) hst).trans ((Law.order_mod (s.modVehicle v Vehicle.leaving) n n _).trans ?_)
    rw [if_pos rfl, h']
    rfl
  · exact ⟨q.noRoute, h⟩

/-- The vehicle on its way to the drop. -/
theorem State.beginDrop_vehicle (s : State) (v n : Nat) (o : Order) :
    ((s.beginDrop v n o).vehicle v).load = (s.vehicle v).load ∧ ((s.beginDrop v n o).vehicle v).state = .toDrop ∧
    ((s.beginDrop v n o).vehicle v).transfer = .stopped := by
  have restarted (t : State) : ((t.restartProgress v).vehicle v).load = (t.vehicle v).load ∧
      ((t.restartProgress v).vehicle v).state = (t.vehicle v).state ∧
      ((t.restartProgress v).vehicle v).transfer = (t.vehicle v).transfer := by
    rw [VehicleLaw.restart_vehicle, if_pos rfl]
    exact ⟨rfl, rfl, rfl⟩
  have left : (s.modVehicle v Vehicle.leaving).vehicle v = (s.vehicle v).leaving := (Law.vehicle_mod ..).trans (if_pos rfl)
  unfold State.beginDrop
  dsimp only
  split
  · split
    · next way _ =>
      have onWay : ((s.modVehicle v Vehicle.leaving).modVehicle v (Vehicle.on · way)).vehicle v = (s.vehicle v).leaving.on way := by
        rw [Law.vehicle_mod, if_pos rfl, left]
      obtain ⟨hload, hstate, htransfer⟩ := restarted ((s.modVehicle v Vehicle.leaving).modVehicle v (Vehicle.on · way))
      rw [onWay] at hload hstate htransfer
      exact ⟨hload, hstate, htransfer⟩
    · obtain ⟨st, hst⟩ := (((s.modVehicle v Vehicle.leaving).modOrder n ({ · with noRoute := true })).restartProgress v).sendTask_only n
      have same : ((s.modVehicle v Vehicle.leaving).modOrder n ({ · with noRoute := true })).vehicle v = (s.vehicle v).leaving := by
        unfold State.vehicle
        rw [State.modOrder_vehicles]
        exact left
      obtain ⟨hload, hstate, htransfer⟩ := restarted ((s.modVehicle v Vehicle.leaving).modOrder n ({ · with noRoute := true }))
      rw [same] at hload hstate htransfer
      have eq := congrArg (State.vehicle · v) hst
      refine ⟨(congrArg Vehicle.load eq).trans hload, (congrArg Vehicle.state eq).trans hstate, (congrArg Vehicle.transfer eq).trans htransfer⟩
  · obtain ⟨hload, hstate, htransfer⟩ := restarted (s.modVehicle v Vehicle.leaving)
    rw [left] at hload hstate htransfer
    exact ⟨hload, hstate, htransfer⟩

/-- The leg taken: none where pickup and drop are one node, else the route, and the progress timer started unless the vehicle waits. -/
theorem State.beginDrop_leg {a d : Nat} (ha : s.pickup o = some a) (hd : s.drop o = some d) :
    (a = d → ((s.beginDrop v n o).vehicle v).leg = none) ∧
    ∀ k, a ≠ d → s.routeBetween a d = some k → ((s.beginDrop v n o).vehicle v).leg = some ⟨k, 0⟩ ∧
      ((s.vehicle v).waiting = none → ((s.beginDrop v n o).vehicle v).progress = s.started s.progressTimeout) := by
  have vehicle {way : Option Nat} (hw : s.wayBetween a d = some way) : (s.beginDrop v n o).vehicle v =
      { (s.vehicle v).leaving.on way with
        progress := (if ((s.modVehicle v Vehicle.leaving).modVehicle v (Vehicle.on · way)).progressRuns ((s.vehicle v).leaving.on way)
          then s.started s.progressTimeout else .stopped) } := by
    have onWay : ((s.modVehicle v Vehicle.leaving).modVehicle v (Vehicle.on · way)).vehicle v = (s.vehicle v).leaving.on way := by
      rw [Law.vehicle_mod, if_pos rfl, Law.vehicle_mod, if_pos rfl]
    rw [State.beginDrop_way ha hd hw, VehicleLaw.restart_vehicle, if_pos rfl, onWay]
    rfl
  refine ⟨fun hsame => ?_, fun k hne hk => ?_⟩
  · rw [vehicle (way := none) (by rw [State.wayBetween, if_pos hsame])]
    rfl
  · have eq := vehicle (way := some k) (by rw [State.wayBetween, if_neg hne, hk]; rfl)
    rw [eq]
    refine ⟨rfl, fun hw => ?_⟩
    have runs : ((s.modVehicle v Vehicle.leaving).modVehicle v (Vehicle.on · (some k))).progressRuns ((s.vehicle v).leaving.on (some k)) = true := by
      simp [State.progressRuns, State.waitsForDrop, Vehicle.on, Vehicle.leaving, hw]
    exact if_pos runs

end

/-! ## A roll loaded (R150) -/

section
variable {v n : Nat} {o : Order}

/-- The marks cleared and the order CARRYING, before the drop leg begins. -/
def State.carryingFrom (s : State) (v n : Nat) (o : Order) : State :=
  (s.clearMarks v).putOrder n (some { o with state := .carrying })

theorem State.loadedAt_eq (h : s.order n = some o) (v : Nat) :
    s.loadedAt v n o = ((s.carryingFrom v n o).beginDrop v n o).sendVehicle v (.undock n) := by
  have h' : (s.clearMarks v).order n = some o := by
    unfold State.order
    rw [(VehicleLaw.clearMarks_rest s v).2.2.2.2]
    exact h
  rw [State.loadedAt, State.modOrder_live h']
  rfl

/-- What clearing the marks leaves as it is. -/
theorem State.carryingFrom_rest (s : State) (v n : Nat) (o : Order) : (s.carryingFrom v n o).vehicles = s.vehicles ∧
    (s.carryingFrom v n o).rolls = s.rolls ∧ (s.carryingFrom v n o).stands = s.stands ∧
    (s.carryingFrom v n o).routes = s.routes ∧ (s.carryingFrom v n o).halted = s.halted ∧
    (s.carryingFrom v n o).progressTimeout = s.progressTimeout := by
  obtain ⟨b, p, hb, _⟩ := s.clearMarks_only v
  rw [State.carryingFrom, hb]
  exact ⟨rfl, rfl, rfl, rfl, rfl, rfl⟩

theorem State.carryingFrom_passDue (h : s.passDue = true) (v n : Nat) (o : Order) : (s.carryingFrom v n o).passDue = true := by
  obtain ⟨b, p, hb, hp⟩ := s.clearMarks_only v
  rw [State.carryingFrom, hb]
  exact hp h

theorem State.carryingFrom_bay (s : State) (v n : Nat) (o : Order) (b : Nat) :
    ∃ k, (s.carryingFrom v n o).bay b = { s.bay b with mark := k } ∧ k ≠ some v := VehicleLaw.marks s v b

theorem State.loadedAt_rest (h : s.order n = some o) (v : Nat) : (s.loadedAt v n o).rolls = s.rolls ∧
    ∀ b, ((s.loadedAt v n o).bay b).stack = (s.bay b).stack ∧ ((s.loadedAt v n o).bay b).mark ≠ some v := by
  obtain ⟨st, hst⟩ := ((s.carryingFrom v n o).beginDrop v n o).sendVehicle_only v (.undock n)
  obtain ⟨hrolls, hbays, _⟩ := (s.carryingFrom v n o).beginDrop_rest v n o
  obtain ⟨_, crolls, _⟩ := s.carryingFrom_rest v n o
  have sent : (s.loadedAt v n o).bays = (s.carryingFrom v n o).bays := by
    rw [State.loadedAt_eq h, hst]
    exact hbays
  refine ⟨?_, fun b => ?_⟩
  · rw [State.loadedAt_eq h, hst]
    exact hrolls.trans crolls
  · obtain ⟨k, hk, hmark⟩ := s.carryingFrom_bay v n o b
    have bay : (s.loadedAt v n o).bay b = { s.bay b with mark := k } := by
      unfold State.bay at hk ⊢
      rw [sent, hk]
    rw [bay]
    exact ⟨rfl, hmark⟩

theorem State.loadedAt_passDue (h : s.order n = some o) (hp : s.passDue = true) (v : Nat) : (s.loadedAt v n o).passDue = true := by
  rw [State.loadedAt_eq h, VehicleLaw.sendVehicle_passDue, (State.beginDrop_rest ..).2.2]
  exact State.carryingFrom_passDue hp ..

theorem State.loadedAt_order (h : s.order n = some o) (v : Nat) :
    ∃ flag, (s.loadedAt v n o).order n = some { o with state := .carrying, noRoute := flag } := by
  obtain ⟨st, hst⟩ := ((s.carryingFrom v n o).beginDrop v n o).sendVehicle_only v (.undock n)
  have carrying : (s.carryingFrom v n o).order n = some { o with state := .carrying } := (Law.order_put ..).trans (if_pos rfl)
  obtain ⟨flag, hflag⟩ := State.beginDrop_order carrying v o
  rw [State.loadedAt_eq h, hst]
  exact ⟨flag, hflag⟩

theorem State.loadedAt_vehicle (h : s.order n = some o) (v : Nat) :
    ((s.loadedAt v n o).vehicle v).load = (s.vehicle v).load ∧ ((s.loadedAt v n o).vehicle v).state = .toDrop ∧
    ((s.loadedAt v n o).vehicle v).transfer = .stopped := by
  obtain ⟨st, hst⟩ := ((s.carryingFrom v n o).beginDrop v n o).sendVehicle_only v (.undock n)
  obtain ⟨hload, hstate, htransfer⟩ := (s.carryingFrom v n o).beginDrop_vehicle v n o
  have same : (s.carryingFrom v n o).vehicle v = s.vehicle v := by
    unfold State.vehicle
    rw [(s.carryingFrom_rest v n o).1]
  rw [State.loadedAt_eq h, hst]
  exact ⟨hload.trans (congrArg Vehicle.load same), hstate, htransfer⟩

theorem State.loadedAt_leg (h : s.order n = some o) (v : Nat) {a d : Nat} (ha : s.pickup o = some a) (hd : s.drop o = some d) :
    (a = d → ((s.loadedAt v n o).vehicle v).leg = none) ∧
    ∀ k, a ≠ d → s.routeBetween a d = some k → ((s.loadedAt v n o).vehicle v).leg = some ⟨k, 0⟩ ∧
      ((s.vehicle v).waiting = none → ((s.loadedAt v n o).vehicle v).progress = s.started s.progressTimeout) := by
  obtain ⟨st, hst⟩ := ((s.carryingFrom v n o).beginDrop v n o).sendVehicle_only v (.undock n)
  obtain ⟨hvehicles, _, hstands, hroutes, hhalted, htimeout⟩ := s.carryingFrom_rest v n o
  have aisles (b : Nat) : ((s.carryingFrom v n o).bay b).aisle = (s.bay b).aisle := by
    obtain ⟨k, hk, _⟩ := s.carryingFrom_bay v n o b
    rw [hk]
  have leg := State.beginDrop_leg (v := v) (n := n) ((State.pickup_congr aisles o).trans ha) ((State.drop_congr aisles hstands o).trans hd)
  simp only [State.routeBetween, State.started, State.vehicle, hvehicles, hroutes, hhalted, htimeout] at leg
  rw [State.loadedAt_eq h, hst]
  exact leg

end

/-! ## The load moves (R6) -/

section
variable {v n r : Nat} {z : Roll}

/-- A roll on a vehicle. -/
def Roll.aboard (z : Roll) (v : Nat) : Roll := { z with state := .inTransit, loc := .vehicle v, mount := none, job := none }

/-- The roll goes from its bay onto the vehicle. -/
theorem State.loadFromBay_some (hz : s.roll r = some z) {b l : Nat} (hs : z.state = .reserved) (hl : z.loc = .bay b l)
    (ht : (s.bay b).stack.getLast? = some r) (ho : z.order = some n) (hv : (s.vehicle v).load = none) :
    ∃ t, s.loadFromBay r b v n = some t ∧ t.roll r = some (z.aboard v) ∧ t.vehicle v = { s.vehicle v with load := some r } ∧
      t.orders = s.orders ∧ t.passDue = true ∧ (∀ c, t.bay c = if c = b then { s.bay b with stack := (s.bay b).stack.erase r } else s.bay c) ∧
      t.stands = s.stands ∧ t.routes = s.routes ∧ t.halted = s.halted ∧ t.progressTimeout = s.progressTimeout := by
  have cond : z.state = .reserved ∧ z.bay = some b ∧ s.top b = some r ∧ z.order = some n ∧ (s.vehicle v).load = none :=
    ⟨hs, by rw [Roll.bay, hl], ht, ho, hv⟩
  obtain ⟨level, hlevel⟩ := VehicleLaw.leave_roll s b r r z hz
  obtain ⟨hvehicles, horders, hroutes, hhalted, htimeout, hstands⟩ := VehicleLaw.leave s b r
  have same : (s.leaveBay b r).vehicle v = s.vehicle v := by
    unfold State.vehicle
    rw [hvehicles]
  have aboard : (s.leaveBay b r).modRoll r ({ · with state := .inTransit, loc := .vehicle v, mount := none, job := none }) =
      (s.leaveBay b r).putRoll r (some (z.aboard v)) := State.modRoll_live hlevel _
  simp only [State.loadFromBay, hz, cond, and_self, if_true]
  refine ⟨_, rfl, ?_⟩
  rw [aboard]
  refine ⟨State.roll_putRoll_same (s.leaveBay b r) r (some (z.aboard v)), (Law.vehicle_mod ..).trans ?_, horders,
    State.leaveBay_passDue s b r, ?_, hstands, hroutes, hhalted, htimeout⟩
  · rw [if_pos rfl]
    exact congrArg (fun x : Vehicle => { x with load := some r }) same
  · exact VehicleLaw.leave_bay s b r

/-- The roll goes from its node onto the vehicle. -/
theorem State.loadFromNode_some (hz : s.roll r = some z) {k : Nat} (hs : z.state = .announced) (hl : z.loc = .node k)
    (ho : z.order = some n) (hv : (s.vehicle v).load = none) :
    s.loadFromNode r k v n = some ((s.putRoll r (some (z.aboard v))).modVehicle v ({ · with load := some r })) := by
  have aboard : s.modRoll r ({ · with state := .inTransit, loc := .vehicle v, mount := none, job := none }) =
      s.putRoll r (some (z.aboard v)) := State.modRoll_live hz _
  rw [State.loadFromNode, hz]
  dsimp only
  rw [if_pos ⟨hs, hl, ho, hv⟩, aboard]

end

/-! ## A roll delivered (R131, R150) -/

/-- A roll has left its vehicle for the place its new record names; the orders are as they were. -/
structure State.SetsDown (s t : State) (v r : Nat) (z : Roll) : Prop where
  roll : t.roll r = some z
  vehicle : t.vehicle v = { s.vehicle v with load := none }
  orders : t.orders = s.orders
  orderSeq : t.orderSeq = s.orderSeq

section
variable {v n r : Nat} {z : Roll}

/-- A roll that no order carries any more. -/
def Roll.ashore (z : Roll) (st : RollState) (loc : Location) : Roll :=
  { z with state := st, loc := loc, mount := none, job := none, order := none }

theorem State.offVehicle_live (hz : s.roll r = some z) (v : Nat) :
    s.offVehicle r v = (s.modVehicle v ({ · with load := none })).putRoll r (some { z with order := none }) :=
  State.modRoll_live (s := s.modVehicle v ({ · with load := none })) hz _

theorem State.offVehicle_roll (hz : s.roll r = some z) (v : Nat) : (s.offVehicle r v).roll r = some { z with order := none } := by
  rw [State.offVehicle_live hz]
  exact State.roll_putRoll_same ..

theorem State.offVehicle_vehicle (hz : s.roll r = some z) (v : Nat) : (s.offVehicle r v).vehicle v = { s.vehicle v with load := none } := by
  rw [State.offVehicle_live hz]
  exact (Law.vehicle_mod s v v ({ · with load := none })).trans (if_pos rfl)

theorem State.offVehicle_rest (hz : s.roll r = some z) (v : Nat) : (s.offVehicle r v).orders = s.orders ∧
    (s.offVehicle r v).orderSeq = s.orderSeq ∧ (s.offVehicle r v).bays = s.bays ∧ (s.offVehicle r v).stands = s.stands := by
  rw [State.offVehicle_live hz]
  exact ⟨rfl, rfl, rfl, rfl⟩

theorem State.carries_iff (hz : s.roll r = some z) :
    s.carries r v n = true ↔ z.state = .inTransit ∧ z.loc = .vehicle v ∧ z.order = some n ∧ (s.vehicle v).load = some r := by
  simp [State.carries, hz, and_assoc]

/-- The carried roll joins its bay at the top. -/
theorem State.unloadIntoBay_some (hz : s.roll r = some z) (hc : s.carries r v n = true) {b : Nat}
    (hroom : (s.bay b).stack.length < (s.bay b).limit) :
    ∃ t, s.unloadIntoBay r b v n = some t ∧
      s.SetsDown t v r (z.ashore .stored (.bay b ((s.bay b).stack.length + 1))) ∧ (t.bay b).stack = (s.bay b).stack ++ [r] := by
  have off := State.offVehicle_roll hz v
  obtain ⟨horders, hseq, hbays, _⟩ := State.offVehicle_rest hz v
  have bay : (s.offVehicle r v).bay b = s.bay b := by
    unfold State.bay
    rw [hbays]
  refine ⟨(s.offVehicle r v).joinBay b r, by rw [State.unloadIntoBay, if_pos ⟨hc, hroom⟩], ?_⟩
  rw [State.joinBay_live off, bay]
  refine ⟨⟨?_, State.offVehicle_vehicle hz v, horders, hseq⟩, ?_⟩
  · exact State.roll_putRoll_same (s.offVehicle r v) r (some (z.ashore .stored (.bay b ((s.bay b).stack.length + 1))))
  · exact congrArg Bay.stack ((Law.bay_set (s.offVehicle r v) b b { s.bay b with stack := (s.bay b).stack ++ [r] }).trans (if_pos rfl))

theorem State.unloadIntoBay_none {b : Nat} (h : s.carries r v n = false ∨ (s.bay b).limit ≤ (s.bay b).stack.length) :
    s.unloadIntoBay r b v n = none := by
  rw [State.unloadIntoBay, if_neg]
  rintro ⟨hc, hroom⟩
  rcases h with hno | hfull
  · rw [hno] at hc
    cases hc
  · omega

/-- The carried roll is ANNOUNCED at its node. -/
theorem State.unloadAtNode_some (hz : s.roll r = some z) (hc : s.carries r v n = true) (k : Nat) :
    ∃ t, s.unloadAtNode r k v n = some t ∧ s.SetsDown t v r (z.ashore .announced (.node k)) := by
  have off := State.offVehicle_roll hz v
  obtain ⟨horders, hseq, _⟩ := State.offVehicle_rest hz v
  refine ⟨_, by rw [State.unloadAtNode, if_pos hc], ?_⟩
  rw [State.modRoll_live off]
  exact ⟨State.roll_putRoll_same (s.offVehicle r v) r (some (z.ashore .announced (.node k))), State.offVehicle_vehicle hz v, horders, hseq⟩

theorem State.unloadAtNode_none (h : s.carries r v n = false) (k : Nat) : s.unloadAtNode r k v n = none := by
  rw [State.unloadAtNode, h]
  rfl

/-- The carried roll is STAGED on its arm, and the delivery accepted. -/
theorem State.unloadAtArm_setsDown (hz : s.roll r = some z) (addr st : Nat) (a : Arm) :
    let t := (s.unloadAtArm r st a v).accept addr .unloaded
    s.SetsDown t v r (z.ashore .staged (.arm st a)) ∧ ((t.stand st).arm a).state = .staged ∧ ((t.stand st).arm a).roll = some r := by
  dsimp only
  have off := State.offVehicle_roll hz v
  obtain ⟨horders, hseq, _⟩ := State.offVehicle_rest hz v
  obtain ⟨ss, hss⟩ := (s.unloadAtArm r st a v).accept_only addr .unloaded
  have staged : s.unloadAtArm r st a v = _ := State.stage_live off st a
  have arm : ((s.unloadAtArm r st a v).stand st).arm a =
      { ((s.offVehicle r v).stand st).arm a with state := .staged, roll := some r, chan := .clear } := by
    rw [staged]
    exact (State.arm_setArm (s.offVehicle r v) ..).trans (if_pos ⟨rfl, rfl⟩)
  rw [hss]
  refine ⟨⟨?_, ?_, ?_, ?_⟩, congrArg ArmRec.state arm, congrArg ArmRec.roll arm⟩
  · rw [staged]
    exact State.roll_putRoll_same (s.offVehicle r v) r (some (z.ashore .staged (.arm st a)))
  · rw [staged]
    exact State.offVehicle_vehicle hz v
  · rw [staged]
    exact horders
  · rw [staged]
    exact hseq

end

/-- A delivery done: the vehicle IDLE and empty at the drop, its order freed, the roll in its place, and a pass due. -/
structure State.Delivers (s u : State) (v n r drop : Nat) (z : Roll) : Prop where
  passDue : u.passDue = true
  state : (u.vehicle v).state = .idle
  load : (u.vehicle v).load = none
  order : (u.vehicle v).order = none
  pos : (u.vehicle v).pos = some (.node drop)
  freed : ∀ q, u.order n = some q → q.kind = .callOff ∧ q.seq = s.orderSeq + 1
  roll : u.roll r = some z

section
variable {v n r drop : Nat} {o : Order} {z : Roll} {t : State}

/-- The bays' marks cleared and the order freed leave the stacks and the arms of the delivery. -/
theorem State.unloadedAt_places (ho : s.order n = some o) (hv : o.vehicle = some v) (hl : (s.vehicle v).order = some n) (drop : Nat) :
    (∀ b, ((s.unloadedAt v n drop).bay b).stack = (s.bay b).stack) ∧
    ∀ st a, (((s.unloadedAt v n drop).stand st).arm a).state = ((s.stand st).arm a).state ∧
      (((s.unloadedAt v n drop).stand st).arm a).roll = ((s.stand st).arm a).roll := by
  obtain ⟨bs, p, hc, _⟩ := s.clearMarks_only v
  obtain ⟨_, hbays, harms⟩ := VehicleLaw.freed (s.clearMarks v) n v o (by rw [hc]; exact ho) hv (by rw [hc]; exact hl)
  obtain ⟨ss, hsend⟩ := ((s.clearMarks v).freeOrder n).sendVehicle_only v (.undock n)
  obtain ⟨_, _, _, hmark, hstands, _⟩ := VehicleLaw.enterIdle (((s.clearMarks v).freeOrder n).sendVehicle v (.undock n)) v drop
  refine ⟨fun b => ?_, fun st a => ?_⟩
  · obtain ⟨k, hk⟩ := hmark b
    obtain ⟨k', hk', _⟩ := VehicleLaw.marks s v b
    have sent : (((s.clearMarks v).freeOrder n).sendVehicle v (.undock n)).bay b = (s.clearMarks v).bay b := by
      unfold State.bay
      rw [hsend, ← hbays]
    rw [State.unloadedAt, hk, sent, hk']
  · have stand : (s.unloadedAt v n drop).stand st = ((s.clearMarks v).freeOrder n).stand st := by
      rw [State.unloadedAt]
      unfold State.stand
      rw [hstands, hsend]
    have cleared : (s.clearMarks v).stand st = s.stand st := by
      rw [hc]
      rfl
    rw [stand, harms st a, cleared]
    exact ⟨rfl, rfl⟩

theorem State.unloadedAt_delivers (h : s.SetsDown t v r z) (ho : s.order n = some o) (hv : o.vehicle = some v)
    (hl : (s.vehicle v).order = some n) (hr : o.roll = some r) (hz : z.state ≠ .reserved ∧ z.order = none) (drop : Nat) :
    s.Delivers (t.unloadedAt v n drop) v n r drop z := by
  obtain ⟨bs, p, hc, _⟩ := t.clearMarks_only v
  have ho' : (t.clearMarks v).order n = some o := by
    unfold State.order
    rw [hc]
    exact (congrArg (Tbl.find · n) h.orders).trans ho
  have hvehicle : (t.clearMarks v).vehicle v = { s.vehicle v with load := none } := by
    rw [hc]
    exact h.vehicle
  have hroll : (t.clearMarks v).roll r = some z := by
    rw [hc]
    exact h.roll
  have hseq : (t.clearMarks v).orderSeq = s.orderSeq := by
    rw [hc]
    exact h.orderSeq
  obtain ⟨⟨prev, hfreed⟩, _, _⟩ := VehicleLaw.freed (t.clearMarks v) n v o ho' hv (by rw [hvehicle]; exact hl)
  obtain ⟨hcallOff, hunlinked⟩ := OrderLaw.free (t.clearMarks v) n o ho'
  obtain ⟨ss, hsend⟩ := ((t.clearMarks v).freeOrder n).sendVehicle_only v (.undock n)
  obtain ⟨⟨held, waiting, hidle⟩, hpass, hrolls, _, _, horders⟩ :=
    VehicleLaw.enterIdle (((t.clearMarks v).freeOrder n).sendVehicle v (.undock n)) v drop
  have vehicle : (((t.clearMarks v).freeOrder n).sendVehicle v (.undock n)).vehicle v =
      { s.vehicle v with load := none, order := none, prev := prev } := by
    rw [hsend]
    exact hfreed.trans (by rw [hvehicle])
  rw [vehicle] at hidle
  refine ⟨hpass, ?_, ?_, ?_, ?_, fun q hq => ?_, ?_⟩
  · rw [State.unloadedAt, hidle]
  · rw [State.unloadedAt, hidle]
  · rw [State.unloadedAt, hidle]
  · rw [State.unloadedAt, hidle]
  · have freed : ((t.clearMarks v).freeOrder n).order n = some q := by
      rw [State.unloadedAt] at hq
      unfold State.order at hq ⊢
      rw [horders, hsend] at hq
      exact hq
    rw [← hseq]
    exact hcallOff q freed
  · rw [State.unloadedAt]
    unfold State.roll
    rw [hrolls, hsend]
    refine (hunlinked r z hr hroll).trans ?_
    rw [if_neg hz.1, ← hz.2]

end

/-! ## A delivery refused by the plan check (R93, R135, R150) -/

/-- A vehicle that differs at most in its way and its progress timer. -/
def Vehicle.Rerouted (x y : Vehicle) : Prop := ∃ l k p, y = { x with leg := l, nextRoute := k, progress := p }

theorem Vehicle.Rerouted.refl (x : Vehicle) : x.Rerouted x := ⟨x.leg, x.nextRoute, x.progress, rfl⟩

theorem Vehicle.Rerouted.of_eq {x y : Vehicle} (h : y = x) : x.Rerouted y := h ▸ .refl y

section
variable {v n : Nat} {o : Order}

theorem State.steer_rerouted (s : State) (v : Nat) (way : Option Nat) (w : Nat) : (s.vehicle w).Rerouted ((s.steer v way).vehicle w) := by
  by_cases hw : w = v
  · subst hw
    rw [State.steer, VehicleLaw.sync_vehicle, if_pos rfl, Law.vehicle_mod, if_pos rfl]
    split <;> exact ⟨_, _, _, rfl⟩
  · rw [State.steer, VehicleLaw.sync_vehicle, if_neg hw, Law.vehicle_mod, if_neg hw]
    exact .refl _

theorem State.newDrop_rerouted (s : State) (v n : Nat) (o : Order) (way : Option Nat) (w : Nat) :
    (s.vehicle w).Rerouted ((s.newDrop v n o way).vehicle w) := by
  unfold State.newDrop
  split
  · obtain ⟨ss, hss⟩ := (s.steer v way).sendVehicle_only v (.task n ((s.reaches (s.vehicle v)).getD ((s.pickup o).getD 0))
      (((s.order n).filter (!·.noRoute)).bind s.drop) none way)
    rw [hss]
    exact s.steer_rerouted v way w
  · obtain ⟨ss, hss⟩ := s.sendTask_only n
    rw [hss]
    exact .refl _

theorem State.storeFull_vehicle (s : State) (o : Order) (w : Nat) : (s.storeFull o).vehicle w = s.vehicle w := by
  unfold State.storeFull
  split <;> rfl

theorem State.modOrder_vehicle (s : State) (n : Nat) (f : Order → Order) (w : Nat) : (s.modOrder n f).vehicle w = s.vehicle w := by
  unfold State.vehicle
  rw [State.modOrder_vehicles]

theorem State.redirect_rerouted (s : State) (n w : Nat) : (s.vehicle w).Rerouted ((s.redirect n).vehicle w) := by
  have dropped (t : State) (v : Nat) (o : Order) (way : Option Nat) (ht : t.vehicle w = s.vehicle w) :
      (s.vehicle w).Rerouted ((t.newDrop v n o way).vehicle w) := ht ▸ t.newDrop_rerouted v n o way w
  unfold State.redirect
  repeat' split
  · exact .refl _
  · exact .of_eq (State.modOrder_vehicle ..)
  · exact .of_eq ((State.storeFull_vehicle ..).trans (State.modOrder_vehicle ..))
  · exact dropped _ _ _ _ ((State.storeFull_vehicle ..).trans (State.modOrder_vehicle ..))
  · exact dropped _ _ _ _ (State.modOrder_vehicle ..)
  · exact dropped _ _ _ _ (State.modOrder_vehicle ..)

theorem State.convert_rerouted (s : State) (n w : Nat) : (s.vehicle w).Rerouted ((s.convert n).vehicle w) := by
  unfold State.convert
  split
  · exact .refl _
  · next o _ =>
    have same : ((s.withdrawBay n o).clearLink n o).vehicle w = s.vehicle w := by
      unfold State.vehicle
      rw [(OrderLaw.clear_rest _ n o).2.2.1, (OrderLaw.with_rest s n o).2.2.1]
    have rerouted := State.redirect_rerouted (((s.withdrawBay n o).clearLink n o).modOrder n fun x =>
      { x with kind := .ret, cls := .store, deadline := none, grade := none, width := none, named := none, namedDest := none,
               dest := none, noStock := false, noBay := false, noRoute := false, state := .carrying }) n w
    rw [State.modOrder_vehicle, same] at rerouted
    exact rerouted

theorem State.convert_rolls (s : State) (n : Nat) : (s.convert n).rolls = s.rolls := by
  unfold State.convert
  split
  · rfl
  · rw [RollsAfter.redirect, State.modOrder_rolls, RollsAfter.clearLink, RollsAfter.withdrawBay]

/-- The transfer ended with the roll on board, before the order becomes a RETURN. -/
def State.turnedAway (s : State) (a v n : Nat) : State :=
  (((s.refuse a .unloaded .badState).sendVehicle v (.undock n)).clearMarks v).modVehicle v Vehicle.leaving

theorem State.refuseDelivery_eq (s : State) (a v n : Nat) (o : Order) :
    s.refuseDelivery a v n o = (((s.turnedAway a v n).convert n).restartProgress v).reviewCallOff o := rfl

theorem State.turnedAway_rest (s : State) (a v n : Nat) : (s.turnedAway a v n).orders = s.orders ∧
    (s.turnedAway a v n).rolls = s.rolls ∧ (s.turnedAway a v n).vehicle v = (s.vehicle v).leaving := by
  obtain ⟨s1, h1⟩ := s.refuse_only a .unloaded .badState
  obtain ⟨s2, h2⟩ := (s.refuse a .unloaded .badState).sendVehicle_only v (.undock n)
  obtain ⟨b, p, h3, _⟩ := ((s.refuse a .unloaded .badState).sendVehicle v (.undock n)).clearMarks_only v
  rw [State.turnedAway, h3, h2, h1]
  exact ⟨rfl, rfl, (Law.vehicle_mod ..).trans (if_pos rfl)⟩

/-- The roll stays on its vehicle, whose order is a RETURN now. -/
theorem State.refuseDelivery_keeps (h : s.order n = some o) (a v : Nat) :
    (s.refuseDelivery a v n o).rolls = s.rolls ∧ ((s.refuseDelivery a v n o).vehicle v).state = .toDrop ∧
    ((s.refuseDelivery a v n o).vehicle v).load = (s.vehicle v).load ∧ ((s.refuseDelivery a v n o).vehicle v).transfer = .stopped ∧
    ∃ q, (s.refuseDelivery a v n o).order n = some q ∧ q.kind = .ret ∧ q.state = .carrying ∧ q.roll = o.roll ∧ q.seq = o.seq := by
  obtain ⟨horders, hrolls, hvehicle⟩ := s.turnedAway_rest a v n
  have h' : (s.turnedAway a v n).order n = some o := by
    unfold State.order
    rw [horders]
    exact h
  obtain ⟨q, hq, hkind, _, hstate, _, _, _, hroll, _, hseq, _⟩ := OrderLaw.conv0 (s.turnedAway a v n) n o h'
  obtain ⟨leg, next, progress, hrerouted⟩ := (s.turnedAway a v n).convert_rerouted n v
  have vehicle : (s.refuseDelivery a v n o).vehicle v =
      ((((s.turnedAway a v n).convert n).restartProgress v).vehicle v) := by
    unfold State.vehicle
    rw [State.refuseDelivery_eq, (VehicleLaw.review ..).1]
  rw [vehicle, VehicleLaw.restart_vehicle, if_pos rfl, hrerouted, hvehicle]
  refine ⟨?_, rfl, rfl, rfl, q, ?_, hkind, hstate, hroll, hseq⟩
  · rw [State.refuseDelivery_eq, RollsAfter.reviewCallOff, RollsAfter.restartProgress, State.convert_rolls, hrolls]
  · rw [State.refuseDelivery_eq]
    exact (Law.review_order (((s.turnedAway a v n).convert n).restartProgress v) o n).1 q hq

end

end Sys2Proof.Machine
end

section
/-! Proofs about LOADED and UNLOADED (R150): the refusals, the load from a bay or a node, and the delivery to a bay, a node or an arm. -/

namespace Sys2Proof.Machine

variable {s : State}

/-! ## The state a vehicle's report is taken in -/

/-- A report of a vehicle heard, its docked count at 0 (R149). -/
def State.reporting (s : State) (e : Exchange) (more : Bool) (v : Nat) : State := (s.heard e more).modVehicle v ({ · with docked := 0 })

section
variable {e : Exchange} {more : Bool} {v : Nat}

theorem State.reporting_order (n : Nat) : (s.reporting e more v).order n = s.order n := Law.heard_order (more := more) n
theorem State.reporting_roll (n : Nat) : (s.reporting e more v).roll n = s.roll n := Law.heard_roll (more := more) n
theorem State.reporting_stand (n : Nat) : (s.reporting e more v).stand n = s.stand n := Law.heard_stand (more := more) n
theorem State.reporting_bay (n : Nat) : (s.reporting e more v).bay n = s.bay n := Law.heard_bay (more := more) n

theorem State.reporting_passDue : (s.reporting e more v).passDue = false := State.heard_passDue (more := more)
theorem State.reporting_orderSeq : (s.reporting e more v).orderSeq = s.orderSeq := State.heard_orderSeq (more := more)
theorem State.reporting_lines : (s.reporting e more v).lines = s.lines := State.heard_lines (more := more)

theorem State.reporting_pickup (o : Order) : (s.reporting e more v).pickup o = s.pickup o :=
  State.pickup_congr (fun b => congrArg Bay.aisle (State.reporting_bay b)) o

theorem State.reporting_drop (o : Order) : (s.reporting e more v).drop o = s.drop o :=
  State.drop_congr (fun b => congrArg Bay.aisle (State.reporting_bay b)) (State.heard_stands (more := more)) o

theorem State.reporting_routeBetween (a b : Nat) : (s.reporting e more v).routeBetween a b = s.routeBetween a b :=
  congrArg (fun t : Tbl Route => t.first fun _ r => r.src == a && r.dst == b) (State.heard_routes (more := more))

theorem State.reporting_started : (s.reporting e more v).started (s.reporting e more v).progressTimeout = s.started s.progressTimeout := by
  have halted : (s.reporting e more v).halted = s.halted := State.heard_halted (more := more)
  have timeout : (s.reporting e more v).progressTimeout = s.progressTimeout := State.heard_progressTimeout (more := more)
  unfold State.started
  rw [halted, timeout]

theorem State.reporting_positionOf (st : Nat) : (s.reporting e more v).positionOf st = s.positionOf st := by
  unfold State.positionOf State.line
  rw [State.reporting_lines]

end

/-! ## The refusals (R7, R150) -/

section
variable {addr v m : Nat} {o : Order}

theorem State.resumeTransfer_same (hl : ¬ ((s.vehicle v).state = .stalled ∧ (s.vehicle v).prev = some .loading))
    (hu : ¬ ((s.vehicle v).state = .stalled ∧ (s.vehicle v).prev = some .unloading)) : s.resumeTransfer v = s := by
  unfold State.resumeTransfer
  dsimp only
  split
  · next h1 h2 => exact absurd ⟨h1, h2⟩ hl
  · next h1 h2 => exact absurd ⟨h1, h2⟩ hu
  · rfl

theorem State.orderOf_linked (h : (s.vehicle v).order = some m) (ho : s.order m = some o) : s.orderOf v = some (m, o) := by
  simp [State.orderOf, h, ho]

theorem State.movedRoll_linked (h : s.orderOf v = some (m, o)) : s.movedRoll v = o.roll.or (s.vehicle v).load := by
  simp [State.movedRoll, h]

theorem State.moveRefused_finish (hp : s.passDue = false) (h : s.orderOf v = some (m, o)) (k : Report) : (s.moveRefused addr v k).finish =
    (s.raise .rollDiscrepancy ((o.roll.or (s.vehicle v).load).getD 0)).refuse addr k .badState := by
  rw [State.moveRefused, State.movedRoll_linked h]
  exact State.finish_idle ((Law.refuse_quiet ..).trans hp)

theorem State.wrongState_linked (h : s.orderOf v = some (m, o)) (hm : (o.roll.or (s.vehicle v).load).isSome = true) (k : Report) :
    s.wrongState addr v k = s.moveRefused addr v k := by
  rw [State.wrongState, State.movedRoll_linked h, if_pos hm]

/-- A vehicle with neither an order nor a load moves no roll. -/
theorem State.wrongState_unlinked (h : (s.vehicle v).order = none) (hl : (s.vehicle v).load = none) (k : Report) :
    s.wrongState addr v k = s.refuse addr k .badState := by
  simp [State.wrongState, State.movedRoll, State.orderOf, h, hl]

end

/-! ## LOADED and UNLOADED from a vehicle in service -/

theorem exec_loaded (n : Nat) (more : Bool) (s : State) : exec (.loaded n more) s = execLoaded n more s := rfl

theorem exec_unloaded (n : Nat) (more : Bool) (s : State) : exec (.unloaded n more) s = execUnloaded n more s := rfl

/-- LOADED in the state it is taken in: a load from a vehicle in LOADING, else refused. -/
def State.loadedReport (s : State) (addr v : Nat) : State :=
  if (s.vehicle v).state = .loading then s.takeLoaded addr v else s.wrongState addr v .loaded

/-- UNLOADED in the state it is taken in. -/
def State.unloadedReport (s : State) (addr v : Nat) : State :=
  if (s.vehicle v).state = .unloading then s.takeUnloaded addr v else s.wrongState addr v .unloaded

section
variable {e : Exchange} {x : Station} {n v : Nat} {more : Bool} (hh : s.hears e x) (hr : x.role = .vehicle v)
  (hv : (s.vehicle v).state ≠ .outOfService) (hn : n = (s.workingOrder v).getD 0)
  (hl : ¬ ((s.vehicle v).state = .stalled ∧ (s.vehicle v).prev = some .loading))
  (hu : ¬ ((s.vehicle v).state = .stalled ∧ (s.vehicle v).prev = some .unloading))
include hh hr

theorem State.reporting_vehicle : (s.reporting e more v).vehicle v = { s.vehicle v with lastReport := some s.timeBase, docked := 0 } :=
  VehicleLaw.seen hh hr

include hl hu

theorem State.reporting_resume : (s.reporting e more v).resumeTransfer v = s.reporting e more v := by
  refine State.resumeTransfer_same ?_ ?_ <;> rw [State.reporting_vehicle hh hr]
  · exact hl
  · exact hu

include hv hn

theorem execLoaded_reports : exec (.loaded n more) s = .next ((s.reporting e more v).loadedReport e.addr v).finish := by
  rw [exec_loaded, execLoaded, VehicleLaw.taken hh hr hv (by decide) hn]
  dsimp only
  rw [← State.reporting, State.reporting_resume hh hr hl hu]
  rfl

theorem execUnloaded_reports : exec (.unloaded n more) s = .next ((s.reporting e more v).unloadedReport e.addr v).finish := by
  rw [exec_unloaded, execUnloaded, VehicleLaw.taken hh hr hv (by decide) hn]
  dsimp only
  rw [← State.reporting, State.reporting_resume hh hr hl hu]
  rfl

end

/-! ## LOADED (R150) -/

/-- The top roll of the source bay is reserved for the order, and the vehicle is empty (R6). -/
def State.bayHolds (s : State) (v m : Nat) (o : Order) (b r : Nat) (z : Roll) : Prop :=
  o.source = some (.bay b) ∧ (∃ l, z.loc = .bay b l) ∧ z.state = .reserved ∧ (s.bay b).stack.getLast? = some r ∧ z.order = some m ∧
    (s.vehicle v).load = none

/-- The roll at the source node is the order's, and the vehicle is empty (R6). -/
def State.nodeHolds (s : State) (v m : Nat) (o : Order) (k : Nat) (z : Roll) : Prop :=
  o.source = some (.node k) ∧ z.loc = .node k ∧ z.state = .announced ∧ z.order = some m ∧ (s.vehicle v).load = none

/-- The from-end of a load holds. -/
def State.sourceHolds (s : State) (v m : Nat) (o : Order) (r : Nat) (z : Roll) : Prop :=
  (∃ b, s.bayHolds v m o b r z) ∨ ∃ k, s.nodeHolds v m o k z

/-- The roll of an order has gone aboard its vehicle; a bay it lay in has lost it. -/
structure State.Loads (s t : State) (v r : Nat) (z : Roll) (o : Order) : Prop where
  roll : t.roll r = some (z.aboard v)
  vehicle : t.vehicle v = { s.vehicle v with load := some r }
  orders : t.orders = s.orders
  stands : t.stands = s.stands
  routes : t.routes = s.routes
  halted : t.halted = s.halted
  progressTimeout : t.progressTimeout = s.progressTimeout
  aisle : ∀ b, (t.bay b).aisle = (s.bay b).aisle
  source : ∀ b, o.source = some (.bay b) → (t.bay b).stack = (s.bay b).stack.erase r ∧ t.passDue = true

section
variable {addr v m r : Nat} {o : Order} {z : Roll}

theorem State.loadMove_some (hr : o.roll = some r) (hz : s.roll r = some z) (h : s.sourceHolds v m o r z) :
    ∃ t, s.loadMove v m o = some t ∧ s.Loads t v r z o := by
  rcases h with ⟨b, hsource, ⟨l, hloc⟩, hstate, htop, horder, hload⟩ | ⟨k, hsource, hloc, hstate, horder, hload⟩
  · obtain ⟨t, ht, hroll, hvehicle, horders, hpass, hbay, hstands, hroutes, hhalted, htimeout⟩ :=
      State.loadFromBay_some hz hstate hloc htop horder hload
    refine ⟨t, by rw [State.loadMove, hsource, hr]; exact ht, hroll, hvehicle, horders, hstands, hroutes, hhalted, htimeout,
      fun c => ?_, fun c hc => ?_⟩
    · rw [hbay]
      split
      · next h => rw [h]
      · rfl
    · rw [hsource] at hc
      cases hc
      exact ⟨by rw [hbay, if_pos rfl], hpass⟩
  · refine ⟨(s.putRoll r (some (z.aboard v))).modVehicle v ({ · with load := some r }),
      by rw [State.loadMove, hsource, hr]; exact State.loadFromNode_some hz hstate hloc horder hload, ?_, ?_,
      rfl, rfl, rfl, rfl, rfl, fun _ => rfl, fun c hc => ?_⟩
    · exact State.roll_putRoll_same s r (some (z.aboard v))
    · exact (Law.vehicle_mod (s.putRoll r (some (z.aboard v))) v v ({ · with load := some r })).trans (if_pos rfl)
    · rw [hsource] at hc
      cases hc

theorem State.loadMove_none (h : ∀ r z, o.roll = some r → s.roll r = some z → ¬ s.sourceHolds v m o r z) : s.loadMove v m o = none := by
  unfold State.loadMove
  split
  · next b r hs hr =>
    unfold State.loadFromBay
    split
    · next z hz =>
      refine if_neg ?_
      rintro ⟨hstate, hbay, htop, horder, hload⟩
      refine h r z hr hz (.inl ⟨b, hs, ?_, hstate, htop, horder, hload⟩)
      cases hloc : z.loc with
      | bay c l =>
        have same : some c = some b := by simpa [Roll.bay, hloc] using hbay
        cases same
        exact ⟨l, rfl⟩
      | _ => simp [Roll.bay, hloc] at hbay
    · rfl
  · next k r hs hr =>
    unfold State.loadFromNode
    split
    · next z hz =>
      refine if_neg ?_
      rintro ⟨hstate, hloc, horder, hload⟩
      exact h r z hr hz (.inr ⟨k, hs, hloc, hstate, horder, hload⟩)
    · rfl
  · rfl

theorem State.loadedReport_refused (hv : (s.vehicle v).state = .loading) (hlink : s.orderOf v = some (m, o))
    (h : ∀ r z, o.roll = some r → s.roll r = some z → ¬ s.sourceHolds v m o r z) : s.loadedReport addr v = s.moveRefused addr v .loaded := by
  simp only [State.loadedReport, hv, if_true, State.takeLoaded, hlink, State.loadMove_none h]

theorem State.loadedReport_loads (hv : (s.vehicle v).state = .loading) (hlink : s.orderOf v = some (m, o)) (hr : o.roll = some r)
    (hz : s.roll r = some z) (h : s.sourceHolds v m o r z) :
    ∃ t, s.loadedReport addr v = t.loadedAt v m o ∧ s.Loads t v r z o := by
  obtain ⟨t, ht, loads⟩ := State.loadMove_some hr hz h
  exact ⟨t, by simp only [State.loadedReport, hv, if_true, State.takeLoaded, hlink, ht], loads⟩

end

/-! ## UNLOADED (R150) -/

section
variable {addr v m r drop : Nat} {o : Order} {z : Roll}

theorem State.takeUnloaded_refused (hlink : s.orderOf v = some (m, o)) (h : ∀ r, o.roll = some r → s.carries r v m = false) :
    s.takeUnloaded addr v = s.moveRefused addr v .unloaded := by
  simp only [State.takeUnloaded, hlink]
  split
  · next r b hr _ => rw [State.unloadIntoBay_none (.inl (h r hr))]
  · next r k hr _ => rw [State.unloadAtNode_none (h r hr)]
  · next r st a hr _ =>
    simp only [State.unloadedAtArm, h r hr, Bool.false_eq_true, false_and, if_false]
  · rfl

theorem State.takeUnloaded_bay {t : State} (hlink : s.orderOf v = some (m, o)) (hr : o.roll = some r) {b : Nat}
    (hd : o.dest = some (.bay b)) (h : s.unloadIntoBay r b v m = some t) :
    s.takeUnloaded addr v = t.unloadedAt v m ((s.drop o).getD 0) := by
  simp only [State.takeUnloaded, hlink, hr, hd, h]

theorem State.takeUnloaded_fullBay (hlink : s.orderOf v = some (m, o)) (hr : o.roll = some r) {b : Nat} (hd : o.dest = some (.bay b))
    (hfull : (s.bay b).limit ≤ (s.bay b).stack.length) : s.takeUnloaded addr v = s.moveRefused addr v .unloaded := by
  simp only [State.takeUnloaded, hlink, hr, hd, State.unloadIntoBay_none (.inr hfull)]

theorem State.takeUnloaded_node {t : State} (hlink : s.orderOf v = some (m, o)) (hr : o.roll = some r) {k : Nat}
    (hd : o.dest = some (.node k)) (h : s.unloadAtNode r k v m = some t) :
    s.takeUnloaded addr v = t.unloadedAt v m ((s.drop o).getD 0) := by
  simp only [State.takeUnloaded, hlink, hr, hd, h]

theorem State.takeUnloaded_unawaited (hlink : s.orderOf v = some (m, o)) (hr : o.roll = some r) {st : Nat} {a : Arm}
    (hd : o.dest = some (.arm st a)) (hw : ¬ (((s.stand st).arm a).state = .empty ∧ ((s.stand st).arm a).callOff = some m)) :
    s.takeUnloaded addr v = s.moveRefused addr v .unloaded := by
  simp only [State.takeUnloaded, hlink, hr, hd, State.unloadedAtArm, hw, and_false, if_false]

theorem State.takeUnloaded_arm (hlink : s.orderOf v = some (m, o)) (hr : o.roll = some r) {st : Nat} {a : Arm} (hd : o.dest = some (.arm st a)) :
    s.takeUnloaded addr v = s.unloadedAtArm addr v m o r st a ((s.drop o).getD 0) := by
  simp only [State.takeUnloaded, hlink, hr, hd]

theorem State.planAccepts_iff (hz : s.roll r = some z) (st : Nat) :
    s.planAccepts st r = true ↔ ∃ l p, s.positionOf st = some (l, p) ∧ p.grade = z.grade ∧ p.width = z.width := by
  unfold State.planAccepts
  rw [hz]
  cases hp : s.positionOf st with
  | none => simp
  | some e =>
    obtain ⟨l, p⟩ := e
    dsimp only
    rw [Bool.and_eq_true, beq_iff_eq, beq_iff_eq]
    constructor
    · rintro ⟨hgrade, hwidth⟩
      exact ⟨l, p, rfl, hgrade.symm, hwidth.symm⟩
    · rintro ⟨_, _, heq, hgrade, hwidth⟩
      cases heq
      exact ⟨hgrade.symm, hwidth.symm⟩

variable (hlink : s.orderOf v = some (m, o)) (hr : o.roll = some r) (hz : s.roll r = some z) (hc : s.carries r v m = true)
  (hv : o.vehicle = some v) (hl : (s.vehicle v).order = some m) (ho : s.order m = some o)
include hlink hr hz hc hv hl ho

/-- A delivery into a bay with room. -/
theorem State.takeUnloaded_intoBay {b : Nat} (hd : o.dest = some (.bay b)) (hroom : (s.bay b).stack.length < (s.bay b).limit) :
    s.Delivers (s.takeUnloaded addr v) v m r ((s.drop o).getD 0) (z.ashore .stored (.bay b ((s.bay b).stack.length + 1))) ∧
    ((s.takeUnloaded addr v).bay b).stack = (s.bay b).stack ++ [r] := by
  obtain ⟨t, ht, down, hstack⟩ := State.unloadIntoBay_some hz hc hroom
  have ho' : t.order m = some o := (congrArg (Tbl.find · m) down.orders).trans ho
  obtain ⟨hstacks, _⟩ := State.unloadedAt_places ho' hv (by rw [down.vehicle]; exact hl) ((s.drop o).getD 0)
  rw [State.takeUnloaded_bay hlink hr hd ht]
  exact ⟨State.unloadedAt_delivers down ho hv hl hr ⟨nofun, rfl⟩ _, (hstacks b).trans hstack⟩

/-- A delivery at a node. -/
theorem State.takeUnloaded_atNode {k : Nat} (hd : o.dest = some (.node k)) :
    s.Delivers (s.takeUnloaded addr v) v m r ((s.drop o).getD 0) (z.ashore .announced (.node k)) := by
  obtain ⟨t, ht, down⟩ := State.unloadAtNode_some hz hc k
  rw [State.takeUnloaded_node hlink hr hd ht]
  exact State.unloadedAt_delivers down ho hv hl hr ⟨nofun, rfl⟩ _

/-- A delivery at the arm that awaits it, of a roll the plan takes. -/
theorem State.takeUnloaded_atArm {st : Nat} {a : Arm} (hd : o.dest = some (.arm st a))
    (hw : ((s.stand st).arm a).state = .empty ∧ ((s.stand st).arm a).callOff = some m) (hfits : s.planAccepts st r = true) :
    let u := s.takeUnloaded addr v
    s.Delivers u v m r ((s.drop o).getD 0) (z.ashore .staged (.arm st a)) ∧ ((u.stand st).arm a).state = .staged ∧
      ((u.stand st).arm a).roll = some r := by
  obtain ⟨down, hstate, harm⟩ := State.unloadAtArm_setsDown (v := v) hz addr st a
  have ho' : ((s.unloadAtArm r st a v).accept addr .unloaded).order m = some o := (congrArg (Tbl.find · m) down.orders).trans ho
  obtain ⟨_, harms⟩ := State.unloadedAt_places ho' hv (by rw [down.vehicle]; exact hl) ((s.drop o).getD 0)
  obtain ⟨kstate, karm⟩ := harms st a
  have taken : s.takeUnloaded addr v = ((s.unloadAtArm r st a v).accept addr .unloaded).unloadedAt v m ((s.drop o).getD 0) := by
    simp only [State.takeUnloaded_arm hlink hr hd, State.unloadedAtArm, hc, hw, and_self, hfits, if_true]
  intro u
  rw [show u = _ from taken]
  exact ⟨State.unloadedAt_delivers down ho hv hl hr ⟨nofun, rfl⟩ _, kstate.trans hstate, karm.trans harm⟩

omit hz hv hl ho in
/-- A delivery at the arm that awaits it, of a roll the plan does not take. -/
theorem State.takeUnloaded_unfit {st : Nat} {a : Arm} (hd : o.dest = some (.arm st a))
    (hw : ((s.stand st).arm a).state = .empty ∧ ((s.stand st).arm a).callOff = some m) (hfits : ¬ s.planAccepts st r = true) :
    s.takeUnloaded addr v = s.refuseDelivery addr v m o := by
  simp only [State.takeUnloaded_arm hlink hr hd, State.unloadedAtArm, hc, hw, and_self, hfits, if_true, if_false, Bool.false_eq_true]

end

/-! ## The obligation -/

/-- A vehicle without an order and a load that is not in a transfer is answered REFUSED alone. -/
theorem execLoaded_execUnloaded_unlinked {e : Exchange} {x : Station} {n v : Nat} {more : Bool} (hh : s.hears e x)
    (hr : x.role = .vehicle v) (hv : (s.vehicle v).state ≠ .outOfService) (hn : n = (s.workingOrder v).getD 0)
    (horder : (s.vehicle v).order = none) (hload : (s.vehicle v).load = none) (hl : (s.vehicle v).state ≠ .loading)
    (hu : (s.vehicle v).state ≠ .unloading) (hs : (s.vehicle v).state ≠ .stalled) :
    exec (.loaded n more) s = .next ((s.reporting e more v).refuse e.addr .loaded .badState) ∧
    exec (.unloaded n more) s = .next ((s.reporting e more v).refuse e.addr .unloaded .badState) := by
  have vehicle := State.reporting_vehicle (more := more) hh hr
  have back (st : VState) : ¬ ((s.vehicle v).state = .stalled ∧ (s.vehicle v).prev = some st) := fun h => hs h.1
  have unlinked (k : Report) : (s.reporting e more v).wrongState e.addr v k = (s.reporting e more v).refuse e.addr k .badState :=
    State.wrongState_unlinked (by rw [vehicle]; exact horder) (by rw [vehicle]; exact hload) k
  refine ⟨?_, ?_⟩
  · rw [execLoaded_reports hh hr hv hn (back _) (back _), State.loadedReport, vehicle, if_neg hl, unlinked,
      State.refuse_finish State.reporting_passDue]
  · rw [execUnloaded_reports hh hr hv hn (back _) (back _), State.unloadedReport, vehicle, if_neg hu, unlinked,
      State.refuse_finish State.reporting_passDue]

section
variable {e : Exchange} {x : Station} {v m : Nat} {o : Order} {more : Bool} (hh : s.hears e x) (hr : x.role = .vehicle v)
include hh hr

/-- The from-end of a load holds in the state the report is taken in as before it. -/
theorem State.reporting_sourceHolds (r : Nat) (z : Roll) :
    (s.reporting e more v).sourceHolds v m o r z ↔ s.sourceHolds v m o r z := by
  have vehicle := State.reporting_vehicle (more := more) hh hr
  simp only [State.sourceHolds, State.bayHolds, State.nodeHolds, vehicle, State.reporting_bay]

theorem State.reporting_carries (r n : Nat) : (s.reporting e more v).carries r v n = s.carries r v n := by
  have vehicle := State.reporting_vehicle (more := more) hh hr
  unfold State.carries
  rw [State.reporting_roll, vehicle]

/-- What a load leads to, in terms of the state before the report. -/
theorem State.reporting_loads {r : Nat} {z : Roll} (hv : (s.vehicle v).state = .loading) (horder : (s.vehicle v).order = some m)
    (ho : s.order m = some o) (hroll : o.roll = some r) (hz : s.roll r = some z) (hholds : s.sourceHolds v m o r z) :
    let u := (s.reporting e more v).loadedReport e.addr v
    (u.vehicle v).load = some r ∧ (u.vehicle v).state = .toDrop ∧ (u.vehicle v).transfer = .stopped ∧ u.roll r = some (z.aboard v) ∧
    (∃ q, u.order m = some q ∧ q.state = .carrying ∧ q.roll = some r ∧ q.dest = o.dest ∧ q.vehicle = o.vehicle) ∧
    (∀ b, o.source = some (.bay b) → (u.bay b).stack = (s.bay b).stack.erase r ∧ u.passDue = true) ∧
    (∀ b, (u.bay b).mark ≠ some v) ∧
    ∀ a d, s.pickup o = some a → s.drop o = some d → (a = d → (u.vehicle v).leg = none) ∧
      ∀ k, a ≠ d → s.routeBetween a d = some k → (u.vehicle v).leg = some ⟨k, 0⟩ ∧
        ((s.vehicle v).waiting = none → (u.vehicle v).progress = s.started s.progressTimeout) := by
  intro u
  have vehicle := State.reporting_vehicle (more := more) hh hr
  have hlink : (s.reporting e more v).orderOf v = some (m, o) :=
    State.orderOf_linked (by rw [vehicle]; exact horder) ((State.reporting_order m).trans ho)
  obtain ⟨t, ht, loads⟩ := State.loadedReport_loads (addr := e.addr) (by rw [vehicle]; exact hv) hlink hroll
    ((State.reporting_roll r).trans hz) ((State.reporting_sourceHolds hh hr r z).2 hholds)
  have ho' : t.order m = some o := (congrArg (Tbl.find · m) loads.orders).trans ((State.reporting_order m).trans ho)
  obtain ⟨hload, hstate, htransfer⟩ := State.loadedAt_vehicle ho' v
  obtain ⟨hrolls, hbays⟩ := State.loadedAt_rest ho' v
  obtain ⟨flag, hflag⟩ := State.loadedAt_order ho' v
  rw [show u = _ from ht]
  refine ⟨hload.trans (by rw [loads.vehicle]), hstate, htransfer, ?_, ⟨_, hflag, rfl, hroll, rfl, rfl⟩, fun b hb => ?_,
    fun b => (hbays b).2, fun a d ha hd => ?_⟩
  · unfold State.roll
    rw [hrolls]
    exact loads.roll
  · obtain ⟨hstack, hpass⟩ := loads.source b hb
    refine ⟨(hbays b).1.trans (hstack.trans ?_), State.loadedAt_passDue ho' hpass v⟩
    rw [State.reporting_bay]
  · have leg := State.loadedAt_leg ho' v ((State.pickup_congr loads.aisle o).trans ((State.reporting_pickup o).trans ha))
      ((State.drop_congr loads.aisle loads.stands o).trans ((State.reporting_drop o).trans hd))
    have routes (k : Nat) : t.routeBetween a d = some k ↔ s.routeBetween a d = some k := by
      rw [← State.reporting_routeBetween (s := s) (e := e) (more := more) (v := v), State.routeBetween, loads.routes, State.routeBetween]
    have started : t.started t.progressTimeout = s.started s.progressTimeout := by
      rw [← State.reporting_started (s := s) (e := e) (more := more) (v := v), State.started, loads.halted, loads.progressTimeout,
        State.started]
    rw [loads.vehicle, vehicle, started] at leg
    exact ⟨leg.1, fun k hne hk => leg.2 k hne ((routes k).2 hk)⟩

end

/-- Settles O52: a report that moves no roll is refused as it stands; a load and a delivery are each a move of the roll followed by the
same writes to marks, order and vehicle, and a delivery the plan does not take turns the order into a RETURN. -/
theorem loadedAndUnloadedMoveTheRoll : Obligations.LoadedAndUnloadedMoveTheRoll := by
  refine ⟨?_, fun s e x n v more hh hr hv hn horder hload hl hu hs =>
    execLoaded_execUnloaded_unlinked hh hr hv hn horder hload hl hu hs⟩
  intro s e x n v more hh hr hv hn m o horder ho y h refused back inBay atNode holds
  have vehicle := State.reporting_vehicle (more := more) hh hr
  have hlink : (s.reporting e more v).orderOf v = some (m, o) :=
    State.orderOf_linked (by rw [vehicle]; exact horder) ((State.reporting_order m).trans ho)
  have load : ((s.reporting e more v).vehicle v).load = y.load := by rw [vehicle]
  have refuses (k : Report) : ((s.reporting e more v).moveRefused e.addr v k).finish = refused k.toNat := by
    rw [State.moveRefused_finish State.reporting_passDue hlink, load]
    rfl
  have notBack {st : VState} (hs : y.state = st) (hne : st ≠ .stalled) (p : VState) : ¬ back p := fun hb => hne (hs.symm.trans hb.1)
  have sourced (r : Nat) (z : Roll) : (s.reporting e more v).sourceHolds v m o r z ↔ s.sourceHolds v m o r z :=
    State.reporting_sourceHolds hh hr r z
  refine ⟨fun hs hl hu hm => ?_, fun hs hl hu hm => ?_, fun hs hno => ?_, fun r z hs hroll hz hholds => ?_, ?_⟩
  · rw [execLoaded_reports hh hr hv hn hl hu, State.loadedReport, vehicle, if_neg hs,
      State.wrongState_linked hlink (by rw [load]; exact hm), refuses]
    rfl
  · rw [execUnloaded_reports hh hr hv hn hl hu, State.unloadedReport, vehicle, if_neg hs,
      State.wrongState_linked hlink (by rw [load]; exact hm), refuses]
    rfl
  · rw [execLoaded_reports hh hr hv hn (notBack hs (by decide) _) (notBack hs (by decide) _),
      State.loadedReport_refused (by rw [vehicle]; exact hs) hlink, refuses]
    · rfl
    · intro r z hroll hz hsource
      exact hno ⟨r, z, hroll, (State.reporting_roll r).symm.trans hz, (sourced r z).1 hsource⟩
  · exact ⟨_, execLoaded_reports hh hr hv hn (notBack hs (by decide) _) (notBack hs (by decide) _),
      State.reporting_loads hh hr hs horder ho hroll hz hholds⟩
  intro carried delivered
  have carries (r : Nat) (hroll : o.roll = some r) : (s.reporting e more v).carries r v m = true ↔ carried r := by
    rw [State.reporting_carries hh hr]
    cases hz : s.roll r with
    | none => simp [State.carries, hz, carried]
    | some z => simp [State.carries_iff hz, hroll, hz, carried, y]
  have reports (hs : y.state = .unloading) : exec (.unloaded n more) s = .next ((s.reporting e more v).takeUnloaded e.addr v).finish := by
    rw [execUnloaded_reports hh hr hv hn (notBack hs (by decide) _) (notBack hs (by decide) _), State.unloadedReport, vehicle, if_pos hs]
  refine ⟨fun hs hno => ?_, fun r z hs hcarried hz hvehicle hdrop => ?_⟩
  · rw [reports hs, State.takeUnloaded_refused hlink (fun r hroll => ?_), refuses]
    · rfl
    · rw [Bool.eq_false_iff]
      exact fun hc => hno r ((carries r hroll).1 hc)
  have hroll : o.roll = some r := hcarried.1
  have hc : (s.reporting e more v).carries r v m = true := (carries r hroll).2 hcarried
  have hz' : (s.reporting e more v).roll r = some z := (State.reporting_roll r).trans hz
  have ho' : (s.reporting e more v).order m = some o := (State.reporting_order m).trans ho
  have hl : ((s.reporting e more v).vehicle v).order = some m := by rw [vehicle]; exact horder
  have done {z' : Roll} (hd : (s.reporting e more v).Delivers ((s.reporting e more v).takeUnloaded e.addr v) v m r
      (((s.reporting e more v).drop o).getD 0) z') : delivered ((s.reporting e more v).takeUnloaded e.addr v) := by
    obtain ⟨hpass, hstate, hload, hnone, hpos, hfreed, _⟩ := hd
    refine ⟨reports hs, hpass, hstate, hload, hnone, hpos.trans ?_, fun q hq => ?_⟩
    · rw [State.reporting_drop]
      cases hd : s.drop o with
      | none => exact absurd hd hdrop
      | some d => rfl
    · rw [← State.reporting_orderSeq (s := s) (e := e) (more := more) (v := v)]
      exact hfreed q hq
  refine ⟨fun b hd hfull => ?_, fun b hd hroom => ?_, fun k hd => ?_, fun st a hd => ?_⟩
  · rw [reports hs, State.takeUnloaded_fullBay hlink hroll hd (by rw [State.reporting_bay]; exact hfull), refuses]
    rfl
  · obtain ⟨delivers, hstack⟩ := State.takeUnloaded_intoBay (addr := e.addr) hlink hroll hz' hc hvehicle hl ho' hd
      (by rw [State.reporting_bay]; exact hroom)
    have placed := delivers.roll
    rw [State.reporting_bay] at hstack placed
    exact ⟨_, done delivers, hstack, placed⟩
  · have delivers := State.takeUnloaded_atNode (addr := e.addr) hlink hroll hz' hc hvehicle hl ho' hd
    exact ⟨_, done delivers, delivers.roll⟩
  intro w awaited fits
  have plan : (s.reporting e more v).planAccepts st r = true ↔ fits := by
    rw [State.planAccepts_iff hz', State.reporting_positionOf]
  have await : awaited ↔ (((s.reporting e more v).stand st).arm a).state = .empty ∧
      (((s.reporting e more v).stand st).arm a).callOff = some m := by rw [State.reporting_stand]
  refine ⟨fun hno => ?_, fun hw hfits => ?_, fun hw hno => ?_⟩
  · rw [reports hs, State.takeUnloaded_unawaited hlink hroll hd (fun hw => hno (await.2 hw)), refuses]
    rfl
  · obtain ⟨delivers, hstate, harm⟩ := State.takeUnloaded_atArm (addr := e.addr) hlink hroll hz' hc hvehicle hl ho' hd
      (await.1 hw) (plan.2 hfits)
    exact ⟨_, done delivers, hstate, harm, delivers.roll⟩
  · obtain ⟨hrolls, hstate, hkept, htransfer, q, hq, hkind, hcarrying, hqroll, hseq⟩ :=
      State.refuseDelivery_keeps ho' e.addr v
    refine ⟨_, reports hs, ?_⟩
    rw [State.takeUnloaded_unfit hlink hroll hc hd (await.1 hw) (fun hfits => hno (plan.1 hfits))]
    refine ⟨?_, hstate, ?_, htransfer, q, hq, hkind, hcarrying, hqroll.trans hroll, hseq⟩
    · unfold State.roll
      rw [hrolls]
      exact hz'
    · obtain ⟨_, _, _, hload⟩ := (State.carries_iff hz').1 hc
      exact hkept.trans hload

end Sys2Proof.Machine
end

section
/-! Proofs about the Store Map's and the stands' laws: what a chain of writes keeps of the bays' heights and the ACTIVE arms (R27, R30, R81). -/

namespace Sys2Proof.Machine

variable {s t : State}

/-! ## Bays within their limits (R27, R30) -/

theorem Bay.inLimit_of_fits {x y : Bay} (hx : x.inLimit) (h : x.fits y) : y.inLimit := by
  obtain ⟨hstack, hlimit⟩ := hx
  rcases h with h | ⟨hkeep, hless | hfits⟩
  · exact h
  · exact ⟨by omega, by omega⟩
  · exact ⟨hfits, by omega⟩

theorem Bay.cold_inLimit : Bay.cold.inLimit := ⟨Nat.le_refl 0, by decide⟩

theorem State.baysInLimit_congr (h : t.bays = s.bays) (hs : s.baysInLimit) : t.baysInLimit := by
  unfold State.baysInLimit State.bay at *
  rwa [h]

theorem State.baysInLimit_setBay {n : Nat} {b : Bay} (hs : s.baysInLimit) (hb : b.inLimit) : (s.setBay n b).baysInLimit := by
  intro c
  rw [Law.bay_set]
  by_cases hc : c = n
  · rwa [if_pos hc]
  · rw [if_neg hc]; exact hs c

/-- A chain of writes keeps every bay within its limit: each write of a bay fits the record it replaces. -/
theorem Wr.baysInLimit (w : Wr 4 s t) (hs : s.baysInLimit) : t.baysInLimit := by
  induction w with
  | refl => exact hs
  | other _ _ ht ih => exact State.baysInLimit_congr ht.bays ih
  | bay _ _ hb ih => exact State.baysInLimit_setBay ih (Bay.inLimit_of_fits (ih _) hb)
  | cold _ _ _ => exact fun _ => Bay.cold_inLimit
  | small _ _ _ ih | roll _ _ _ ih | freeRoll _ _ _ ih | newRoll _ _ _ _ _ ih | grade _ _ _ _ ih | line _ _ _ ih | stand _ _ _ ih
  | job _ _ _ _ ih | putJob _ _ _ _ ih | order _ _ _ ih | freeOrder _ _ ih | newOrder _ _ _ _ _ ih | vehicle _ _ _ ih
  | segment _ _ _ ih | node _ _ _ _ ih | route _ _ _ _ ih | station _ _ _ ih | putStation _ _ _ _ ih | raised _ _ _ _ _ ih
  | attnClear _ _ ih =>
    exact State.baysInLimit_congr rfl ih

/-! ## One ACTIVE arm (R81) -/

theorem State.armsLawful_congr (h : t.stands = s.stands) (hs : s.armsLawful) : t.armsLawful := by
  unfold State.armsLawful State.stand at *
  rwa [h]

theorem State.armsLawful_setStand {n : Nat} {x : Stand} (hs : s.armsLawful) (hx : x.oneActive) : (s.setStand n x).armsLawful := by
  intro m
  show ((s.stands.set n .cold x).get m .cold).oneActive
  rw [Tbl.get_set]
  by_cases hm : m = n
  · rwa [if_pos hm]
  · rw [if_neg hm]; exact hs m

/-- After a cold start a stand is cold but for its pin's level. -/
theorem State.coldStart_stand (s : State) (n : Nat) : ∃ level, s.coldStart.stand n = { Stand.cold with webBreak := level } := by
  show ∃ level, Tbl.get _ n Stand.cold = _
  unfold Tbl.get
  cases hfind : Tbl.find s.coldStart.stands n with
  | none => exact ⟨false, rfl⟩
  | some x =>
    obtain ⟨e, _, he⟩ := List.mem_filterMap.mp (Tbl.mem_of_find hfind)
    split at he
    · cases he; exact ⟨true, rfl⟩
    · cases he

theorem State.coldStart_armsLawful (s : State) : s.coldStart.armsLawful := by
  intro n hactive
  obtain ⟨level, hcold⟩ := s.coldStart_stand n
  rw [hcold] at hactive
  cases hactive

/-- A chain of writes keeps at most one arm of each stand ACTIVE: no write of a stand makes a second one. -/
theorem Wr.armsLawful (w : Wr 4 s t) (hs : s.armsLawful) : t.armsLawful := by
  induction w with
  | refl => exact hs
  | other _ _ ht ih => exact State.armsLawful_congr ht.stands ih
  | stand _ _ ho ih => exact State.armsLawful_setStand ih (ho (ih _))
  | cold _ _ _ => exact State.coldStart_armsLawful _
  | small _ _ _ ih | roll _ _ _ ih | freeRoll _ _ _ ih | newRoll _ _ _ _ _ ih | grade _ _ _ _ ih | line _ _ _ ih | bay _ _ _ ih
  | job _ _ _ _ ih | putJob _ _ _ _ ih | order _ _ _ ih | freeOrder _ _ ih | newOrder _ _ _ _ _ ih | vehicle _ _ _ ih
  | segment _ _ _ ih | node _ _ _ _ ih | route _ _ _ _ ih | station _ _ _ ih | putStation _ _ _ _ ih | raised _ _ _ _ _ ih
  | attnClear _ _ ih =>
    exact State.armsLawful_congr rfl ih

/-- Settles O3: every step is a chain of writes, each of which keeps both laws. -/
theorem everyStepKeepsBaysInLimit : Obligations.EveryStepKeepsBaysInLimit :=
  ⟨fun _ _ hs h => (step_writes h).baysInLimit hs, fun _ _ hs h => (step_writes h).armsLawful hs⟩

end Sys2Proof.Machine
end

section
/-! Proofs about SET_BAY and RELEASE_BAY (R28, R44): their checks, and what an accepted request writes. -/

namespace Sys2Proof.Machine

/-! ## SET_BAY (R28) -/

section
variable {s : State} {b limit aisle : Nat} {h : Option HoldSetting} {k : HoldSetting}

theorem State.nodeIs_iff (s : State) (n : Nat) (role : NodeRole) :
    s.nodeIs n role = true ↔ 1 ≤ n ∧ n ≤ 48 ∧ ∃ x, s.node n = some x ∧ x.role = role := by
  cases hn : s.node n <;> simp [State.nodeIs, hn, and_assoc]

theorem State.setBayArgs_iff (s : State) (b limit aisle : Nat) (h : Option HoldSetting) :
    s.setBayArgs b limit aisle h = true ↔ 1 ≤ b ∧ b ≤ 120 ∧ limit ≤ 3 ∧ h ≠ none ∧
      (limit ≠ 0 → 1 ≤ aisle ∧ aisle ≤ 48 ∧ ∃ x, s.node aisle = some x ∧ x.role = .aisle) := by
  rw [← State.nodeIs_iff]
  cases h <;> simp [State.setBayArgs, and_assoc, imp_iff_not_or]

theorem State.bayInUse_iff (s : State) (b : Nat) : s.bayInUse b = true ↔
    (s.bay b).stack ≠ [] ∨ s.reservedHeight b ≠ 0 ∨ (s.bay b).mark ≠ none ∨ (s.bay b).hold = some .discrepancy := by
  simp [State.bayInUse, Option.isSome_iff_ne_none, or_assoc]

theorem Bay.settingRefused_iff (x : Bay) (limit : Nat) (k : HoldSetting) :
    x.settingRefused limit k = true ↔ k ≠ .keep ∧ (x.hold = some .discrepancy ∨ limit = 0) := by
  cases k <;> simp [Bay.settingRefused]

/-- A request that changes the bay's configuration (R28). -/
def Bay.reconfigured (x : Bay) (limit aisle : Nat) : Bool := x.limit != limit || x.aisle != aisleOf limit aisle

theorem Bay.reconfigured_iff (x : Bay) (limit aisle : Nat) :
    x.reconfigured limit aisle = true ↔ x.limit ≠ limit ∨ x.aisle ≠ aisleOf limit aisle := by
  simp [Bay.reconfigured]

theorem execSetBay_refused (ht : s.takes (.setBay b limit aisle h) = true) (hbad : s.setBayArgs b limit aisle h = false) :
    exec (.setBay b limit aisle h) s = .next (s.fresh.replied (.setBay b limit aisle h) .badArgument []) := by
  have args : s.fresh.setBayArgs b limit aisle h = false := hbad
  exact request_refused ht (by simp [State.setBayRequest, args])

/-- A pass that is due exactly on a condition. -/
theorem State.notice_if {p : Prop} [Decidable p] {t : State} (ht : t.passDue = false) :
    (if p then t.notice else t) = { t with passDue := decide p } := by
  by_cases hp : p
  · simp [hp, State.notice]
  · simp [hp, ← ht]

/-- A request with good arguments is judged by the in-use check, then by the operator-hold check. -/
theorem State.setBayRequest_fresh (hok : s.setBayArgs b limit aisle (some k) = true) : s.fresh.setBayRequest b limit aisle (some k) =
    if (s.bay b).reconfigured limit aisle && s.bayInUse b then s.fresh.no .badState
    else if (s.bay b).settingRefused limit k then s.fresh.no .badState
    else State.ok { s.fresh with
      bays := s.bays.set b .cold { s.bay b with limit := limit, aisle := aisleOf limit aisle, hold := (s.bay b).holdAfter limit k },
      passDue := decide (1 ≤ limit ∧ (s.bay b).holdAfter limit k = none ∧
        ((s.bay b).reconfigured limit aisle = true ∨ (s.bay b).hold ≠ none)) } := by
  have args : s.fresh.setBayArgs b limit aisle (some k) = true := hok
  simp only [State.setBayRequest, args, if_true]
  rw [State.notice_if (t := s.fresh.setBay b _) rfl]
  rfl

theorem execSetBay_conflict (ht : s.takes (.setBay b limit aisle (some k)) = true) (hok : s.setBayArgs b limit aisle (some k) = true)
    (hno : ((s.bay b).reconfigured limit aisle = true ∧ s.bayInUse b = true) ∨ (s.bay b).settingRefused limit k = true) :
    exec (.setBay b limit aisle (some k)) s = .next (s.fresh.replied (.setBay b limit aisle (some k)) .badState []) := by
  refine request_refused ht ?_
  rw [State.setBayRequest_fresh hok]
  rcases hno with hno | hno
  · rw [if_pos (Bool.and_eq_true_iff.mpr hno)]
  · rw [if_pos hno, ite_self]

theorem execSetBay_written (ht : s.takes (.setBay b limit aisle (some k)) = true) (hok : s.setBayArgs b limit aisle (some k) = true)
    (huse : (s.bay b).reconfigured limit aisle = true → s.bayInUse b = false) (hset : (s.bay b).settingRefused limit k = false) :
    exec (.setBay b limit aisle (some k)) s = .next (({ s.fresh with
      bays := s.bays.set b .cold { s.bay b with limit := limit, aisle := aisleOf limit aisle, hold := (s.bay b).holdAfter limit k },
      passDue := decide (1 ≤ limit ∧ (s.bay b).holdAfter limit k = none ∧
        ((s.bay b).reconfigured limit aisle = true ∨ (s.bay b).hold ≠ none)) }.replied (.setBay b limit aisle (some k)) .ok []).finish) := by
  have free : ((s.bay b).reconfigured limit aisle && s.bayInUse b) = false := by
    cases hc : (s.bay b).reconfigured limit aisle
    · rfl
    · rw [huse hc]; rfl
  refine request_eq (q := State.ok _) ht ?_ rfl
  rw [State.setBayRequest_fresh hok, free, hset]
  rfl

end

/-- Settles O19: each check by its case; what passes writes the bay's record, and its pass is due by the hold and the change. -/
theorem setBayWritesTheBay : Obligations.SetBayWritesTheBay := by
  intro s b limit aisle h ht
  refine ⟨fun hbad => execSetBay_refused ht ?_, ?_⟩
  · rw [Bool.eq_false_iff, Ne, State.setBayArgs_iff]
    rintro ⟨hlow, hhigh, hlimit, hset, hnode⟩
    rcases hbad with hbad | hbad | hbad | hbad | ⟨hpos, hbad⟩
    · omega
    · omega
    · omega
    · exact hset hbad
    · obtain ⟨hlow, hhigh, x, hx, hrole⟩ := hnode hpos
      rcases hbad with hbad | hbad | hbad
      · omega
      · omega
      · exact hbad x hx hrole
  · rintro k rfl hlow hhigh hlimit hnode
    have args : s.setBayArgs b limit aisle (some k) = true := (State.setBayArgs_iff ..).mpr ⟨hlow, hhigh, hlimit, nofun, hnode⟩
    refine ⟨fun hno => execSetBay_conflict ht args ?_, fun huse hset y hy => ?_⟩
    · rwa [Bay.reconfigured_iff, State.bayInUse_iff, Bay.settingRefused_iff]
    · have after : (s.bay b).holdAfter limit k = y := by rw [hy]; cases k <;> rfl
      rw [← after]
      have due : ((s.bay b).hold ≠ none ∨ (s.bay b).limit ≠ limit ∨ (s.bay b).aisle ≠ aisleOf limit aisle) ↔
          ((s.bay b).reconfigured limit aisle = true ∨ (s.bay b).hold ≠ none) := by
        rw [Bay.reconfigured_iff, or_comm]
      simp only [due]
      refine execSetBay_written ht args (fun hchange => ?_) ?_
      · obtain ⟨hstack, hres, hmark, hhold⟩ := huse ((Bay.reconfigured_iff ..).mp hchange)
        rw [Bool.eq_false_iff, Ne, State.bayInUse_iff]
        simp [hstack, hres, hmark, hhold]
      · rw [Bool.eq_false_iff, Ne, Bay.settingRefused_iff]
        rintro ⟨hkeep, hdisc | hzero⟩
        · exact (hset hkeep).1 hdisc
        · exact (hset hkeep).2 hzero

/-! ## RELEASE_BAY (R44) -/

section
variable {s : State} {b : Nat}

theorem State.heightSettled_iff (s : State) (b : Nat) : s.heightSettled b = true ↔ ∀ a, s.sensorOf b = some a →
    (∀ x, s.station a = some x → x.silent = false) ∧ (s.bay b).lastHeight = some (s.bay b).stack.length := by
  unfold State.heightSettled
  cases s.sensorOf b with
  | none => simp
  | some a => cases hx : s.station a <;> simp [hx]

theorem State.heightSettled_eq_false (s : State) (b : Nat) : s.heightSettled b = false ↔
    (∃ a x, s.sensorOf b = some a ∧ s.station a = some x ∧ x.silent = true) ∨
      (s.sensorOf b ≠ none ∧ (s.bay b).lastHeight ≠ some (s.bay b).stack.length) := by
  unfold State.heightSettled
  cases s.sensorOf b with
  | none => simp
  | some a => cases hx : s.station a <;> simp [hx, imp_iff_not_or]

theorem Roll.unheld_unheld (r : Roll) : r.unheld.unheld = r.unheld := by
  by_cases h : r.hold = some .discrepancy ∧ r.order = none <;> simp [Roll.unheld, h]

/-- A bay released, before its answer. -/
def State.bayReleased (s : State) (b : Nat) : State :=
  (((s.modBay b ({ · with hold := none, confirm := 0 })).each (s.bay b).stack fun n s => s.modRoll n Roll.unheld).notice)

theorem State.bayReleased_only (s : State) (b : Nat) : ∃ rolls, s.bayReleased b =
    { s with bays := s.bays.set b .cold { s.bay b with hold := none, confirm := 0 }, rolls := rolls, passDue := true } := by
  obtain ⟨rolls, h⟩ := Law.eachOnly (s.bay b).stack Roll.unheld (s.modBay b ({ · with hold := none, confirm := 0 }))
  exact ⟨rolls, by rw [State.bayReleased, h]; rfl⟩

theorem State.bayReleased_roll (s : State) (b n : Nat) :
    (s.bayReleased b).roll n = (s.roll n).map fun r => if n ∈ (s.bay b).stack then r.unheld else r := by
  obtain ⟨live, free⟩ := Law.mapEach Roll.unheld Roll.unheld_unheld (s.bay b).stack (s.modBay b ({ · with hold := none, confirm := 0 }))
  cases hr : s.roll n with
  | none => exact free n hr
  | some r => exact live n r hr

theorem execReleaseBay_range (ht : s.takes (.releaseBay b) = true) (hb : b < 1 ∨ 120 < b) :
    exec (.releaseBay b) s = .next (s.fresh.replied (.releaseBay b) .badArgument []) := by
  have range : ¬ (1 ≤ b ∧ b ≤ Config.bays) := fun ⟨_, hhigh⟩ => by change b ≤ 120 at hhigh; omega
  exact request_refused ht (by simp only [State.releaseBayRequest, if_neg range])

theorem State.releaseBayRequest_fresh (hlow : 1 ≤ b) (hhigh : b ≤ 120) : s.fresh.releaseBayRequest b =
    if (s.bay b).hold = some .discrepancy ∧ s.heightSettled b = true then (s.fresh.bayReleased b).ok else s.fresh.no .badState := by
  simp only [State.releaseBayRequest, if_pos (show 1 ≤ b ∧ b ≤ Config.bays from ⟨hlow, hhigh⟩)]
  rfl

theorem execReleaseBay_refused (ht : s.takes (.releaseBay b) = true) (hlow : 1 ≤ b) (hhigh : b ≤ 120)
    (hno : ¬ ((s.bay b).hold = some .discrepancy ∧ s.heightSettled b = true)) :
    exec (.releaseBay b) s = .next (s.fresh.replied (.releaseBay b) .badState []) :=
  request_refused ht (by rw [State.releaseBayRequest_fresh hlow hhigh, if_neg hno])

theorem execReleaseBay_released (ht : s.takes (.releaseBay b) = true) (hlow : 1 ≤ b) (hhigh : b ≤ 120)
    (hhold : (s.bay b).hold = some .discrepancy) (hset : s.heightSettled b = true) :
    exec (.releaseBay b) s = .next ((s.fresh.bayReleased b).replied (.releaseBay b) .ok []).finish := by
  obtain ⟨rolls, h⟩ := State.bayReleased_only s.fresh b
  have port : (s.fresh.bayReleased b).port = s.port := by rw [h]; rfl
  refine request_eq (q := (s.fresh.bayReleased b).ok) ht ?_ port
  rw [State.releaseBayRequest_fresh hlow hhigh, if_pos ⟨hhold, hset⟩]

end

/-- Settles O20: the checks by their cases; a released bay is rewritten, and its unlinked rolls lose their DISCREPANCY hold. -/
theorem releaseBayFreesItsRolls : Obligations.ReleaseBayFreesItsRolls := by
  intro s b ht
  refine ⟨execReleaseBay_range ht, fun hlow hhigh => ⟨fun hno => execReleaseBay_refused ht hlow hhigh ?_, fun hhold hset => ?_⟩⟩
  · rintro ⟨hhold, hset⟩
    rcases hno with hno | hno
    · exact hno hhold
    · rw [(s.heightSettled_eq_false b).mpr hno] at hset
      cases hset
  · refine ⟨_, execReleaseBay_released ht hlow hhigh hhold ((s.heightSettled_iff b).mpr hset), ?_⟩
    have inStack {n : Nat} {r : Roll} (hn : n ∈ (s.bay b).stack) (hr : s.roll n = some r) :
        (s.fresh.bayReleased b).roll n = some r.unheld := by
      rw [State.bayReleased_roll, show s.fresh.roll n = some r from hr]
      exact congrArg some (if_pos hn)
    have outside {n : Nat} (hn : n ∉ (s.bay b).stack) : (s.fresh.bayReleased b).roll n = s.roll n := by
      rw [State.bayReleased_roll]
      cases hr : s.roll n with
      | none => rw [show s.fresh.roll n = none from hr]; rfl
      | some r => rw [show s.fresh.roll n = some r from hr]; exact congrArg some (if_neg hn)
    obtain ⟨rolls, h⟩ := State.bayReleased_only s.fresh b
    exact ⟨by rw [h]; rfl, by rw [h], fun n r hn hr => inStack hn hr, fun n hn => outside hn, by rw [h]; rfl, by rw [h]; rfl, by rw [h]; rfl,
      by rw [h]; rfl, by rw [h]; rfl, by rw [h]; rfl⟩

end Sys2Proof.Machine
end

section
/-! Proofs about the Store Map's choices (R31, R32, R35): the roll selected for a call-off and the bay chosen for a roll. -/

namespace Sys2Proof.Machine

/-! ## Selection of a roll (R32) -/

theorem Bay.open_iff (x : Bay) : x.open_ = true ↔ 1 ≤ x.limit ∧ x.hold = none ∧ x.mark = none := by
  simp [Bay.open_, and_assoc]

/-- A roll lies on top of a bay open to selection, with no height reserved (R32). -/
def State.topOfOpenBay (s : State) (n : Nat) (r : Roll) : Prop :=
  ∃ b l, r.loc = .bay b l ∧ (s.bay b).stack.getLast? = some n ∧ 1 ≤ (s.bay b).limit ∧ (s.bay b).hold = none ∧
    (s.bay b).mark = none ∧ s.reservedHeight b = 0

theorem State.selectable_iff {s : State} {n : Nat} {r : Roll} (hr : s.roll n = some r) :
    s.selectable n = true ↔ r.state = .stored ∧ r.hold = none ∧ r.order = none ∧ s.topOfOpenBay n r := by
  unfold State.selectable State.topOfOpenBay State.top
  rw [hr]
  cases hl : r.loc with
  | bay b l =>
    simp only [Roll.bay, hl, Bool.and_eq_true, beq_iff_eq, Option.isNone_iff_eq_none, Bay.open_iff, Location.bay.injEq]
    constructor
    · rintro ⟨⟨⟨⟨⟨htop, hlimit, hhold, hmark⟩, hres⟩, hstate⟩, hfree⟩, horder⟩
      exact ⟨hstate, hfree, horder, b, l, ⟨rfl, rfl⟩, htop, hlimit, hhold, hmark, hres⟩
    · rintro ⟨hstate, hfree, horder, c, k, ⟨rfl, rfl⟩, htop, hlimit, hhold, hmark, hres⟩
      exact ⟨⟨⟨⟨⟨htop, hlimit, hhold, hmark⟩, hres⟩, hstate⟩, hfree⟩, horder⟩
  | node _ | vehicle _ | arm _ _ => simp [Roll.bay, hl]

/-- A live roll that a CALL_OFF of a grade and width may take (R32). -/
def State.fitsCallOff (s : State) (g w n : Nat) (r : Roll) : Prop :=
  r.grade = g ∧ r.width = w ∧ r.state = .stored ∧ r.hold = none ∧ r.order = none ∧ s.topOfOpenBay n r

theorem State.candidate_iff (s : State) (g w n : Nat) :
    s.candidate g w n = true ↔ ∃ r, s.roll n = some r ∧ s.fitsCallOff g w n r := by
  unfold State.candidate
  cases hr : s.roll n with
  | none => simp
  | some r =>
    simp only [Bool.and_eq_true, beq_iff_eq, State.selectable_iff hr, Option.some.injEq, exists_eq_left', State.fitsCallOff]
    tauto

theorem State.mem_candidates (s : State) (g w n : Nat) :
    n ∈ s.rolls.keys.filter (s.candidate g w) ↔ ∃ r, s.roll n = some r ∧ s.fitsCallOff g w n r := by
  rw [List.mem_filter, State.candidate_iff]
  exact ⟨fun ⟨_, h⟩ => h, fun ⟨r, hr, hfits⟩ => ⟨Law.mem_keys s n r hr, r, hr, hfits⟩⟩

theorem State.arrivalOf_live {s : State} {n : Nat} {r : Roll} (hr : s.roll n = some r) : s.arrivalOf n = r.arrival := by
  rw [State.arrivalOf, hr]

theorem State.selectRoll_oldest {s : State} {g w n : Nat} (h : s.selectRoll g w = some n) :
    ∃ r, s.roll n = some r ∧ s.fitsCallOff g w n r ∧
      ∀ m q, s.roll m = some q → s.fitsCallOff g w m q → r.arrival ≤ q.arrival := by
  obtain ⟨hmem, hleast⟩ := Law.leastBy_some _ _ _ h
  obtain ⟨r, hr, hfits⟩ := (s.mem_candidates g w n).mp hmem
  refine ⟨r, hr, hfits, fun m q hq hqfits => ?_⟩
  have := hleast m ((s.mem_candidates g w m).mpr ⟨q, hq, hqfits⟩)
  rwa [State.arrivalOf_live hr, State.arrivalOf_live hq] at this

theorem State.selectRoll_none (s : State) (g w : Nat) :
    s.selectRoll g w = none ↔ ∀ n r, s.roll n = some r → ¬ s.fitsCallOff g w n r := by
  rw [State.selectRoll, Law.leastBy_none, List.eq_nil_iff_forall_not_mem]
  simp only [State.mem_candidates, not_exists, not_and]

/-! ## The bay chosen (R31, R35) -/

/-- A bay open to put-away (R35). -/
def State.openBay (s : State) (b : Nat) : Prop :=
  1 ≤ b ∧ b ≤ 120 ∧ 1 ≤ (s.bay b).limit ∧ (s.bay b).hold = none ∧ (s.bay b).mark = none

/-- An open bay with room whose free top roll is of a grade and width (R35). -/
def State.holdsOwnKind (s : State) (g w b : Nat) : Prop :=
  s.openBay b ∧ (s.bay b).stack.length + s.reservedHeight b < (s.bay b).limit ∧
    ∃ n r, (s.bay b).stack.getLast? = some n ∧ s.roll n = some r ∧ r.grade = g ∧ r.width = w ∧ r.hold = none ∧ r.state ≠ .reserved

/-- An open bay with an empty stack and no height reserved (R35). -/
def State.openEmpty (s : State) (b : Nat) : Prop := s.openBay b ∧ (s.bay b).stack = [] ∧ s.reservedHeight b = 0

/-- The lowest number of a range that has a property is the one found by a test of it. -/
theorem find_span_lowest {p : Nat → Bool} {P : Nat → Prop} {lo hi b : Nat} (hp : ∀ c, lo ≤ c → c ≤ hi → (p c = true ↔ P c))
    (hlow : lo ≤ b) (hhigh : b ≤ hi) (h : P b) (hleast : ∀ c, lo ≤ c → c < b → ¬ P c) : (span lo hi).find? p = some b := by
  refine Law.find_span _ lo hi b hlow hhigh ((hp b hlow hhigh).mpr h) fun c hc hcb => ?_
  rw [Bool.eq_false_iff, Ne, hp c hc (by omega)]
  exact hleast c hc hcb

theorem find_span_none {p : Nat → Bool} {P : Nat → Prop} {lo hi : Nat} (hp : ∀ c, lo ≤ c → c ≤ hi → (p c = true ↔ P c))
    (h : ∀ c, lo ≤ c → c ≤ hi → ¬ P c) : (span lo hi).find? p = none := by
  rw [List.find?_eq_none]
  intro c hc
  obtain ⟨hlow, hhigh⟩ := (Law.mem_span ..).mp hc
  rw [hp c hlow hhigh]
  exact h c hlow hhigh

theorem State.matchingStack_iff (s : State) (g w b : Nat) (hlow : 1 ≤ b) (hhigh : b ≤ 120) :
    s.matchingStack g w b = true ↔ s.holdsOwnKind g w b := by
  unfold State.matchingStack State.holdsOwnKind State.openBay State.effectiveHeight State.top
  rw [Bool.and_eq_true, Bool.and_eq_true, Bay.open_iff, decide_eq_true_eq]
  cases (s.bay b).stack.getLast? with
  | none => simp
  | some n =>
    cases hr : s.roll n with
    | none => simp [hr]
    | some r => simp [hr]; tauto

theorem State.emptyBay_iff (s : State) (b : Nat) (hlow : 1 ≤ b) (hhigh : b ≤ 120) : s.emptyBay b = true ↔ s.openEmpty b := by
  unfold State.emptyBay State.openEmpty State.openBay
  simp only [Bool.and_eq_true, Bay.open_iff, List.isEmpty_iff, beq_iff_eq]
  tauto

theorem State.reservedHeight_eq (s : State) (b : Nat) : s.reservedHeight b = (s.orders.filter fun e =>
    decide (e.2.dest = some (.bay b)) && decide (e.2.state ∈ [.pending, .assigned, .loading, .carrying, .unloading])).length := by
  have live (o : Order) : (o.state != .failed) =
      decide (o.state ∈ [OrderState.pending, .assigned, .loading, .carrying, .unloading]) := by
    cases o.state <;> rfl
  unfold State.reservedHeight State.putAways
  rw [List.length_map]
  refine congrArg List.length (List.filter_congr fun e _ => ?_)
  rw [live e.2, beq_eq_decide]

/-- Settles O22: the candidates are the fitting rolls and the least of them is selected; the bays are searched upward in two steps. -/
theorem rollAndBayAreChosen : Obligations.RollAndBayAreChosen := by
  refine ⟨fun s g w => ⟨fun n => State.selectRoll_oldest, s.selectRoll_none g w⟩, fun s g w => ⟨?_, fun hnone => ⟨?_, ?_⟩, s.reservedHeight_eq⟩⟩
  · intro b hb hleast
    obtain ⟨hlow, hhigh, _⟩ := hb.1
    rw [State.chooseBay, find_span_lowest (s.matchingStack_iff g w) hlow hhigh hb fun c _ hc => hleast c hc]
  · intro b hb hleast
    obtain ⟨hlow, hhigh, _⟩ := hb.1
    rw [State.chooseBay, find_span_none (s.matchingStack_iff g w) fun c _ _ => hnone c]
    exact find_span_lowest s.emptyBay_iff hlow hhigh hb fun c _ hc => hleast c hc
  · intro hempty
    rw [State.chooseBay, find_span_none (s.matchingStack_iff g w) fun c _ _ => hnone c]
    exact find_span_none s.emptyBay_iff fun c _ _ => hempty c

end Sys2Proof.Machine
end

section
/-! Proofs about the requests that walk records upward (R29, R107, R138, R165): the record of the lowest number above the one named. -/

namespace Sys2Proof.Machine

/-! ## The first record above a number -/

section
variable {α : Type} {t : Tbl α} {j : Nat}

theorem Tbl.first_above (hrise : t.rising = true) {n : Nat} {x : α} (hn : t.find n = some x) (hj : j < n)
    (hbetween : ∀ k, j < k → k < n → t.find k = none) : (t.first fun m _ => decide (j < m)) = some n := by
  unfold Tbl.first
  cases hfind : List.find? (fun e : Nat × α => decide (j < e.1)) t with
  | none => exact absurd hj (by simpa using List.find?_eq_none.mp hfind _ (Tbl.mem_of_find hn))
  | some e =>
    obtain ⟨he, before, after, rfl, hbefore⟩ := List.find?_eq_some_iff_append.mp hfind
    have hmem : (n, x) ∈ before ++ e :: after := Tbl.mem_of_find hn
    have hje : j < e.1 := of_decide_eq_true he
    rcases List.mem_append.mp hmem with hmem | hmem
    · exact absurd hj (by simpa using hbefore _ hmem)
    · rcases List.mem_cons.mp hmem with heq | hmem
      · rw [← heq]; rfl
      · have hpair := (List.pairwise_append.mp (Tbl.rising_iff.mp hrise)).2.1
        have hlt : e.1 < n := (List.pairwise_cons.mp hpair).1 _ hmem
        have hfound := Law.find_rising hrise (List.mem_append_right before (List.mem_cons_self (a := e) (l := after)))
        rw [hbetween e.1 hje hlt] at hfound
        cases hfound

theorem Tbl.first_above_none (hrise : t.rising = true) (hnone : ∀ k, j < k → t.find k = none) :
    (t.first fun m _ => decide (j < m)) = none := by
  rw [Tbl.first_none]
  intro k x hmem
  by_cases hk : j < k
  · have hfound := (Tbl.mem_iff_find hrise).mp hmem
    rw [hnone k hk] at hfound
    cases hfound
  · exact decide_eq_false hk

end

/-! ## READ_BAY, next held bay (R29) -/

section
variable {s : State} {b : Nat}

theorem State.nextHeld_lowest {n : Nat} (hb : b < n) (hn : n ≤ 120) (hheld : (s.bay n).hold = some .discrepancy)
    (hbetween : ∀ c, b < c → c < n → (s.bay c).hold ≠ some .discrepancy) : s.nextHeld b = some n :=
  find_span_lowest (P := fun c => (s.bay c).hold = some .discrepancy) (fun _ _ _ => beq_iff_eq) hb hn hheld
    fun c hc => hbetween c hc

theorem State.nextHeld_none (hnone : ∀ c, b < c → c ≤ 120 → (s.bay c).hold ≠ some .discrepancy) : s.nextHeld b = none :=
  find_span_none (P := fun c => (s.bay c).hold = some .discrepancy) (fun _ _ _ => beq_iff_eq) fun c hc => hnone c hc

theorem execReadBayNextHeld_answers (ht : s.takes (.readBayNextHeld b) = true) :
    (120 < b → exec (.readBayNextHeld b) s = .next (s.fresh.replied (.readBayNextHeld b) .badArgument [])) ∧
    (b ≤ 120 → exec (.readBayNextHeld b) s = .next (s.fresh.replied (.readBayNextHeld b) .ok
      (((s.nextHeld b).map s.bayPayload).getD []))) := by
  refine ⟨fun hb => request_refused ht (if_neg fun h => Nat.not_lt.mpr h hb), fun hb => ?_⟩
  refine request_eq_quiet (q := s.fresh.okWith (((s.nextHeld b).map s.bayPayload).getD [])) ht ?_ rfl rfl
  have same : s.fresh.nextHeld b = s.nextHeld b := rfl
  simp only [State.readNextHeld, if_pos (show b ≤ Config.bays from hb), same]
  cases s.nextHeld b <;> rfl

end

/-! ## READ_JOB, READ_ORDER and READ_STATION, next record (R107, R138, R165) -/

/-- A request that walks a table upward: its owner answers the record of the first number above the one named. -/
theorem request_walks {α : Type} {s : State} {i : Instr} {owner : State → Reply} {t : Tbl α} {j top : Nat} {pay : Nat → α → List Byte}
    {empty : List Byte} (ht : s.takes i = true) (hrise : t.rising = true)
    (hreply : owner s.fresh = if j ≤ top then
        s.fresh.okWith (((t.first fun n _ => decide (j < n)).bind fun n => (t.find n).map (pay n)).getD empty)
      else s.fresh.no .badArgument) :
    (top < j → request i owner s = .next (s.fresh.replied i .badArgument [])) ∧
    (j ≤ top → (∀ k, j < k → t.find k = none) → request i owner s = .next (s.fresh.replied i .ok empty)) ∧
    ∀ n x, j ≤ top → j < n → t.find n = some x → (∀ k, j < k → k < n → t.find k = none) →
      request i owner s = .next (s.fresh.replied i .ok (pay n x)) := by
  refine ⟨fun hj => request_refused ht ?_, fun hj hnone => ?_, fun n x hj hjn hx hbetween => ?_⟩
  · rw [hreply, if_neg (Nat.not_le.mpr hj)]
  · refine request_eq_quiet (q := s.fresh.okWith empty) ht ?_ rfl rfl
    rw [hreply, if_pos hj, Tbl.first_above_none hrise hnone]
    rfl
  · refine request_eq_quiet (q := s.fresh.okWith (pay n x)) ht ?_ rfl rfl
    rw [hreply, if_pos hj, Tbl.first_above hrise hx hjn hbetween, Option.bind_some, hx]
    rfl

theorem State.readNextJob_eq (s : State) (j : Nat) : s.readNextJob j = if j ≤ 65535 then
    s.okWith (((s.jobs.first fun n _ => decide (j < n)).bind fun n => (s.jobs.find n).map (s.jobPayload n)).getD [])
    else s.no .badArgument := by
  unfold State.readNextJob State.job
  cases s.jobs.first fun n _ => decide (j < n) with
  | none => rfl
  | some n => dsimp only [Option.bind_some]; cases s.jobs.find n <;> rfl

theorem State.readNextOrder_eq (s : State) (j : Nat) : s.readNextOrder j = if j ≤ 255 then
    s.okWith (((s.orders.first fun n _ => decide (j < n)).bind fun n => (s.orders.find n).map (s.orderPayload n)).getD [])
    else s.no .badArgument := by
  unfold State.readNextOrder State.order
  cases s.orders.first fun n _ => decide (j < n) with
  | none => rfl
  | some n => dsimp only [Option.bind_some]; cases s.orders.find n <;> rfl

theorem State.readNextStation_eq (s : State) (j : Nat) : s.readNextStation j = if j ≤ 60 then
    s.okWith (((s.stations.first fun n _ => decide (j < n)).bind fun n => (s.stations.find n).map (s.stationPayload n)).getD
      s.noStationPayload)
    else s.no .badArgument := by
  unfold State.readNextStation State.station
  cases s.stations.first fun n _ => decide (j < n) with
  | none => rfl
  | some n => dsimp only [Option.bind_some]; cases s.stations.find n <;> rfl

/-- Settles O27: each request answers the first record above its number, and a canonical table's first such record is the lowest. -/
theorem readsOfTheNextRecordWalkUpward : Obligations.ReadsOfTheNextRecordWalkUpward := by
  intro s hs
  simp only [State.canonical, Bool.and_eq_true] at hs
  obtain ⟨⟨⟨⟨⟨⟨⟨⟨_, hjobs⟩, horders⟩, _⟩, _⟩, _⟩, _⟩, hstations⟩, _⟩ := hs
  refine ⟨fun b ht => ?_, fun j ht => request_walks ht hjobs (s.fresh.readNextJob_eq j),
    fun j ht => request_walks ht horders (s.fresh.readNextOrder_eq j),
    fun j ht => request_walks ht hstations (s.fresh.readNextStation_eq j)⟩
  obtain ⟨hbad, hok⟩ := execReadBayNextHeld_answers ht
  refine ⟨hbad, fun hb hnone => ?_, fun n hb hbn hn hheld hbetween => ?_⟩
  · rw [hok hb, State.nextHeld_none hnone]; rfl
  · rw [hok hb, State.nextHeld_lowest hbn hn hheld hbetween]; rfl

end Sys2Proof.Machine
end

section
/-! Proofs about payloads (R177, R178): the bytes and flags of each kind of field, and the flags gathered at a payload's end. -/

namespace Sys2Proof.Machine

/-! ## Flags gathered into bytes (R178) -/

theorem packBits_length (n : Nat) (bs : List Bool) (h : bs.length ≤ n) : (packBits n bs).length = (bs.length + 7) / 8 := by
  induction n generalizing bs with
  | zero => simp [packBits, List.length_eq_zero_iff.mp (Nat.le_zero.mp h)]
  | succ n ih =>
    cases bs with
    | nil => simp [packBits]
    | cons b bs =>
      have rest := ih ((b :: bs).drop 8) (by simp only [List.length_drop, List.length_cons] at h ⊢; omega)
      simp only [packBits, List.isEmpty_cons, Bool.false_eq_true, if_false, List.length_cons, rest, List.length_drop]
      omega

/-- The flags stand in their order from bit 0 of the first byte. -/
theorem packBits_bit (n : Nat) (bs : List Bool) (h : bs.length ≤ n) (i : Nat) (hi : i < bs.length) :
    ((packBits n bs)[i / 8]?).map (fun b => b.getLsbD (i % 8)) = bs[i]? := by
  induction n generalizing bs i with
  | zero => omega
  | succ n ih =>
    have hne : bs.isEmpty = false := by cases bs with
      | nil => exact absurd hi (Nat.not_lt_zero i)
      | cons => rfl
    simp only [packBits, hne, Bool.false_eq_true, if_false]
    by_cases h8 : i < 8
    · have first : i / 8 = 0 := by omega
      have bit : i % 8 = i := by omega
      rw [first, bit, List.getElem?_cons_zero, Option.map_some, BitVec.getLsbD_ofNat, bitsNat_testBit]
      simp [h8, hi]
    · have later : i / 8 = (i - 8) / 8 + 1 := by omega
      have bit : i % 8 = (i - 8) % 8 := by omega
      have rest := ih (bs.drop 8) (by rw [List.length_drop]; omega) (i - 8) (by rw [List.length_drop]; omega)
      rw [later, bit, List.getElem?_cons_succ, rest, List.getElem?_drop, Nat.add_sub_cancel' (by omega)]

/-- A payload carries fields, and behind them flags in whole bytes (R178). -/
def Carries (payload fields : List Byte) (flags : List Bool) : Prop := ∃ tail, payload = fields ++ tail ∧
  tail.length = (flags.length + 7) / 8 ∧ ∀ i, i < flags.length → (tail[i / 8]?).map (fun b => b.getLsbD (i % 8)) = flags[i]?

theorem Pay.build_carries {p : Pay} {fields : List Byte} {flags : List Bool} (hbytes : p.bytes = fields) (hflags : p.flags = flags) :
    Carries p.build fields flags := by
  subst hbytes hflags
  exact ⟨_, rfl, packBits_length _ _ (Nat.le_refl _), packBits_bit _ _ (Nat.le_refl _)⟩

theorem Pay.build_of_noFlags {p : Pay} (h : p.flags = []) : p.build = p.bytes := by
  rw [Pay.build, h, List.length_nil, packBits, List.append_nil]

/-! ## The bytes and flags of a field -/

@[simp] theorem Pay.num_bytes (w n : Nat) : (Pay.num w n).bytes = beBytes w n := rfl
@[simp] theorem Pay.num_flags (w n : Nat) : (Pay.num w n).flags = [] := rfl
@[simp] theorem Pay.opt_bytes (w : Nat) (o : Option Nat) : (Pay.opt w o).bytes = beBytes w (o.getD 0) := rfl
@[simp] theorem Pay.opt_flags (w : Nat) (o : Option Nat) : (Pay.opt w o).flags = [o.isSome] := rfl
@[simp] theorem Pay.flag_bytes (b : Bool) : (Pay.flag b).bytes = [] := rfl
@[simp] theorem Pay.flag_flags (b : Bool) : (Pay.flag b).flags = [b] := rfl
@[simp] theorem Pay.tag_bytes (t : Tag) : (Pay.tag t).bytes = beBytes 8 t.toNat := rfl
@[simp] theorem Pay.tag_flags (t : Tag) : (Pay.tag t).flags = [] := rfl
@[simp] theorem Pay.name_bytes {α : Type} [DecidableEq α] (values : List α) (v : α) :
    (Pay.name values v).bytes = beBytes 1 (values.idxOf v + 1) := rfl
@[simp] theorem Pay.name_flags {α : Type} [DecidableEq α] (values : List α) (v : α) : (Pay.name values v).flags = [] := rfl
@[simp] theorem Pay.optName_bytes {α : Type} [DecidableEq α] (values : List α) (v : Option α) :
    (Pay.optName values v).bytes = beBytes 1 ((v.map fun x => values.idxOf x + 1).getD 0) := by
  cases v <;> rfl
@[simp] theorem Pay.optName_flags {α : Type} [DecidableEq α] (values : List α) (v : Option α) :
    (Pay.optName values v).flags = [v.isSome] := rfl
@[simp] theorem Pay.yes_bytes (b : Bool) : (Pay.yes b).bytes = [if b then 1#8 else 2#8] := by cases b <;> rfl
@[simp] theorem Pay.yes_flags (b : Bool) : (Pay.yes b).flags = [] := rfl
@[simp] theorem Pay.all_nil_bytes : (Pay.all []).bytes = [] := rfl
@[simp] theorem Pay.all_nil_flags : (Pay.all []).flags = [] := rfl
@[simp] theorem Pay.all_cons_bytes (p : Pay) (ps : List Pay) : (Pay.all (p :: ps)).bytes = p.bytes ++ (Pay.all ps).bytes := rfl
@[simp] theorem Pay.all_cons_flags (p : Pay) (ps : List Pay) : (Pay.all (p :: ps)).flags = p.flags ++ (Pay.all ps).flags := rfl

theorem Pay.all_bytes (ps : List Pay) : (Pay.all ps).bytes = ps.flatMap Pay.bytes := by
  induction ps with
  | nil => rfl
  | cons p ps ih => simp [ih]

theorem Pay.all_flags (ps : List Pay) : (Pay.all ps).flags = ps.flatMap Pay.flags := by
  induction ps with
  | nil => rfl
  | cons p ps ih => simp [ih]

@[simp] theorem Pay.list_bytes (ps : List Pay) : (Pay.list ps).bytes = beBytes 1 ps.length ++ ps.flatMap Pay.bytes := by
  rw [Pay.list, Pay.all_cons_bytes, Pay.all_bytes]; rfl
@[simp] theorem Pay.list_flags (ps : List Pay) : (Pay.list ps).flags = ps.flatMap Pay.flags := by
  rw [Pay.list, Pay.all_cons_flags, Pay.all_flags]; rfl
@[simp] theorem Pay.form_bytes (n : Nat) (ps : List Pay) : (Pay.form n ps).bytes = beBytes 1 n ++ (Pay.all ps).bytes := rfl
@[simp] theorem Pay.form_flags (n : Nat) (ps : List Pay) : (Pay.form n ps).flags = (Pay.all ps).flags := rfl
@[simp] theorem Pay.optForm_bytes (o : Option Pay) : (Pay.optForm o).bytes = (o.map Pay.bytes).getD [0#8] := by cases o <;> rfl
@[simp] theorem Pay.optForm_flags (o : Option Pay) : (Pay.optForm o).flags = (o.map Pay.flags).getD [] ++ [o.isSome] := by
  cases o <;> rfl

end Sys2Proof.Machine
end

section
/-! Proofs about the requests that read one record by its number (R29, R46, R52, R79, R107, R138, R156, R165) and the bytes of what they
answer (R178): each payload is taken field by field. -/

namespace Sys2Proof.Machine

/-! ## Pieces of the payloads -/

theorem append_congr {α : Type} {a b c d : List α} (h : a = b) (k : c = d) : a ++ c = b ++ d := by rw [h, k]

theorem flatMap_plain (ns : List Nat) : (ns.flatMap fun _ => ([] : List Bool)) = [] := List.flatMap_eq_nil_iff.mpr fun _ _ => rfl

theorem State.numbered_length (s : State) (ns : List Nat) :
    (ns.flatMap fun n => s.numbered (some n)).length = (ns.filter fun n => (s.roll n).isSome).length := by
  induction ns with
  | nil => rfl
  | cons n ns ih => cases hr : s.roll n <;> simp [State.numbered, hr] at ih ⊢ <;> exact ih

theorem State.numbered_pieces {α : Type} (s : State) (ns : List Nat) (f : Nat × Roll → List α) :
    (ns.flatMap fun n => s.numbered (some n)).flatMap f = ns.flatMap fun n => ((s.roll n).map fun r => f (n, r)).getD [] := by
  rw [List.flatMap_assoc]
  refine List.flatMap_congr fun n _ => ?_
  cases hr : s.roll n <;> simp [State.numbered, hr]

/-! ### The pieces of several forms -/

theorem bayHold_bytes (h : Option BayHold) : (Pay.optName bayHolds h).bytes = [match h with
    | none => 0#8
    | some .discrepancy => 1#8
    | some .operator => 2#8] := by
  rcases h with _ | h
  · rfl
  · cases h <;> rfl

theorem rollHold_bytes (h : Option Hold) : (Pay.optName holds h).bytes = [match h with
    | none => 0#8
    | some .damaged => 1#8
    | some .discrepancy => 2#8
    | some .operator => 3#8] := by
  rcases h with _ | h
  · rfl
  · cases h <;> rfl

theorem lostCause_bytes (c : Option LostCause) : (Pay.optName [LostCause.lost, LostCause.suspect] c).bytes = [match c with
    | none => 0#8
    | some .lost => 1#8
    | some .suspect => 2#8] := by
  rcases c with _ | c
  · rfl
  · cases c <;> rfl

theorem breakState_bytes (x : Option Line) : (Pay.num 1 (nameByte breakStates (x.map Line.inBreak))).bytes = [match x with
    | none => 0#8
    | some l => if l.inBreak then 2#8 else 1#8] := by
  cases x with
  | none => rfl
  | some l =>
    show (Pay.num 1 (nameByte breakStates (some l.inBreak))).bytes = [if l.inBreak then 2#8 else 1#8]
    cases l.inBreak <;> rfl

theorem Cause.form_bytes (c : Option Cause) : (Pay.optForm (c.map Cause.pay)).bytes = match c with
    | none => [0#8]
    | some (.webBreak n) => 1#8 :: beBytes 1 n
    | some .folderJam => [2#8]
    | some (.runout n) => 3#8 :: beBytes 1 n
    | some .stopLine => [4#8]
    | some .console => [5#8]
    | some .warmStart => [6#8] := by
  rcases c with _ | c
  · rfl
  · cases c <;> rfl

/-- The web length of READ_STAND wants a line, a running grade and a measured diameter. -/
theorem State.webLength_eq (s : State) (st : Nat) (d : Option Nat) :
    ((s.runningGrade st).bind fun g => (s.lineOf st).bind fun _ => (s.stand st).df.bind fun _ => d.map g.length) =
      match s.lineOf st, s.runningGrade st, (s.stand st).df, d with
      | some _, some g, some _, some d => some (g.length d)
      | _, _, _, _ => none := by
  cases s.lineOf st <;> cases s.runningGrade st <;> cases (s.stand st).df <;> cases d <;> rfl

theorem Requester.pay_bytes (r : Requester) : r.pay.bytes = match r with
    | .node k => 1#8 :: beBytes 1 k
    | .arm st a => 2#8 :: beBytes 1 st ++ [if a = .A then 1#8 else 2#8]
    | .plant => [3#8] := by
  rcases r with _ | ⟨_, a⟩ | _
  · rfl
  · cases a <;> rfl
  · rfl

theorem Source.form_bytes (x : Option Source) : (Pay.optForm (x.map Source.pay)).bytes = match x with
    | none => [0#8]
    | some (.node k) => 1#8 :: beBytes 1 k
    | some (.bay b) => 2#8 :: beBytes 1 b := by
  rcases x with _ | x
  · rfl
  · cases x <;> rfl

theorem Dest.form_bytes (d : Option Dest) : (Pay.optForm (d.map Dest.pay)).bytes = match d with
    | none => [0#8]
    | some (.bay b) => 1#8 :: beBytes 1 b
    | some (.arm st a) => 2#8 :: beBytes 1 st ++ [if a = .A then 1#8 else 2#8]
    | some (.node k) => 3#8 :: beBytes 1 k := by
  rcases d with _ | _ | ⟨_, a⟩ | _
  · rfl
  · rfl
  · cases a <;> rfl
  · rfl

theorem Dest.namedForm_bytes (d : Option Dest) : (Pay.optForm (d.map Dest.namedPay)).bytes = match d with
    | none => [0#8]
    | some (.bay b) => 1#8 :: beBytes 1 b
    | some (.node k) => 2#8 :: beBytes 1 k
    | some (.arm st a) => 3#8 :: beBytes 1 st ++ [if a = .A then 1#8 else 2#8] := by
  rcases d with _ | _ | ⟨_, a⟩ | _
  · rfl
  · rfl
  · cases a <;> rfl
  · rfl

theorem spot_bytes (p : Option Spot) : (Pay.optForm (p.map spotPay)).bytes = match p with
    | none => [0#8]
    | some (.node k) => 1#8 :: beBytes 1 k
    | some (.segment g) => 2#8 :: beBytes 1 g := by
  rcases p with _ | p
  · rfl
  · cases p <;> rfl

theorem deck_bytes (d : Option Deck) : beBytes 1 ((d.map fun x => decks.idxOf x + 1).getD 0) = [match d with
    | none => 0#8
    | some .loaded => 1#8
    | some .empty => 2#8] := by
  rcases d with _ | d
  · rfl
  · cases d <;> rfl

theorem Segment.kindByte_bytes (g : Segment) : (Pay.num 1 g.kindByte).bytes = [match g.kind with
    | none => 0#8
    | some (.loop _) => 1#8
    | some (.siding ..) => 2#8] := by
  unfold Segment.kindByte
  rcases g.kind with _ | k
  · rfl
  · cases k <;> dsimp only <;> rfl

theorem Timer.pay_bytes (t : Timer) : (Pay.all t.pay).bytes = match t with
    | .running l => 1#8 :: beBytes 3 (l / 1000)
    | .suspended l => 2#8 :: beBytes 3 (l / 1000)
    | .stopped => 3#8 :: beBytes 3 0 := by cases t <;> rfl

theorem Timer.pay_flags (t : Timer) : (Pay.all t.pay).flags = [] := by cases t <;> rfl
theorem Cause.pay_flags (c : Cause) : c.pay.flags = [] := by cases c <;> rfl
theorem Requester.pay_flags (r : Requester) : r.pay.flags = [] := by cases r <;> rfl
theorem Source.pay_flags (x : Source) : x.pay.flags = [] := by cases x <;> rfl
theorem Dest.pay_flags (d : Dest) : d.pay.flags = [] := by cases d <;> rfl
theorem Dest.namedPay_flags (d : Dest) : d.namedPay.flags = [] := by cases d <;> rfl
theorem spotPay_flags (p : Spot) : (spotPay p).flags = [] := by cases p <;> rfl
theorem rolePay_flags (r : Role) : (rolePay r).flags = [] := by cases r <;> rfl
theorem Pay.all_append_bytes (ps qs : List Pay) : (Pay.all (ps ++ qs)).bytes = (Pay.all ps).bytes ++ (Pay.all qs).bytes := by
  simp only [Pay.all_bytes, List.flatMap_append]

theorem Pay.all_append_flags (ps qs : List Pay) : (Pay.all (ps ++ qs)).flags = (Pay.all ps).flags ++ (Pay.all qs).flags := by
  simp only [Pay.all_flags, List.flatMap_append]

/-! ## The requests -/

/-- A request that reads a record named by a number in a range. -/
theorem request_reads {s : State} {i : Instr} {owner : State → Reply} {ok : Prop} [Decidable ok] {payload : List Byte}
    (ht : s.takes i = true) (hreply : owner s.fresh = if ok then s.fresh.okWith payload else s.fresh.no .badArgument) :
    request i owner s = .next (if ok then s.fresh.replied i .ok payload else s.fresh.replied i .badArgument []) := by
  by_cases h : ok
  · rw [if_pos h] at hreply ⊢
    exact request_eq_quiet ht hreply rfl rfl
  · rw [if_neg h] at hreply ⊢
    exact request_refused ht hreply

/-- A request that reads a record that may not be there. -/
theorem request_finds {α : Type} {s : State} {i : Instr} {owner : State → Reply} {ok : Prop} [Decidable ok] (o : Option α)
    (pay : α → List Byte) (ht : s.takes i = true)
    (hreply : owner s.fresh = if ok then o.elim (s.fresh.no .notFound) (fun x => s.fresh.okWith (pay x)) else s.fresh.no .badArgument) :
    request i owner s = .next (if ok then o.elim (s.fresh.replied i .notFound []) fun x => s.fresh.replied i .ok (pay x)
      else s.fresh.replied i .badArgument []) := by
  by_cases h : ok
  · rw [if_pos h] at hreply ⊢
    cases o with
    | some x => exact request_eq_quiet ht hreply rfl rfl
    | none => exact request_refused ht hreply
  · rw [if_neg h] at hreply ⊢
    exact request_refused ht hreply

theorem within_iff {lo hi n : Nat} : within lo hi n = true ↔ lo ≤ n ∧ n ≤ hi := decide_eq_true_iff

theorem State.readPlanRequest_refuses {s : State} {l : Nat} {c : Option PlanSel} {p : Option PlanPart}
    (h : l < 1 ∨ 4 < l ∨ c = none ∨ p = none) : s.readPlanRequest l c p = s.no .badArgument := by
  unfold State.readPlanRequest
  by_cases hl : lineOk l = true
  · obtain ⟨h1, h4⟩ : 1 ≤ l ∧ l ≤ 4 := within_iff.mp hl
    rw [if_pos hl]
    rcases h with h | h | rfl | rfl
    · omega
    · omega
    · rfl
    · cases c <;> rfl
  · rw [if_neg hl]

theorem State.readJob_answers {s : State} {j : Nat} (ht : s.takes (.readJobByNumber j) = true) : exec (.readJobByNumber j) s = .next
    (if 1 ≤ j ∧ j ≤ 65535 then
      (s.job j).elim (s.fresh.replied (.readJobByNumber j) .notFound []) fun x => s.fresh.replied (.readJobByNumber j) .ok (s.jobPayload j x)
    else s.fresh.replied (.readJobByNumber j) .badArgument []) := by
  refine request_finds (s.job j) (s.jobPayload j) ht (if_congr within_iff ?_ rfl)
  rw [show s.fresh.job j = s.job j from rfl]
  cases s.job j <;> rfl

theorem State.readOrder_answers {s : State} {n : Nat} (ht : s.takes (.readOrderByNumber n) = true) : exec (.readOrderByNumber n) s = .next
    (if 1 ≤ n ∧ n ≤ 255 then
      (s.order n).elim (s.fresh.replied (.readOrderByNumber n) .notFound []) fun x => s.fresh.replied (.readOrderByNumber n) .ok (s.orderPayload n x)
    else s.fresh.replied (.readOrderByNumber n) .badArgument []) := by
  refine request_finds (s.order n) (s.orderPayload n) ht (if_congr within_iff ?_ rfl)
  rw [show s.fresh.order n = s.order n from rfl]
  cases s.order n <;> rfl

theorem State.readStation_answers {s : State} {a : Nat} (ht : s.takes (.readStationByAddress a) = true) : exec (.readStationByAddress a) s = .next
    (if 1 ≤ a ∧ a ≤ 60 then
      (s.station a).elim (s.fresh.replied (.readStationByAddress a) .notFound []) fun x => s.fresh.replied (.readStationByAddress a) .ok (s.stationPayload a x)
    else s.fresh.replied (.readStationByAddress a) .badArgument []) := by
  refine request_finds (s.station a) (s.stationPayload a) ht (if_congr within_iff ?_ rfl)
  rw [show s.fresh.station a = s.station a from rfl]
  cases s.station a <;> rfl

theorem State.gradePayload_bytes (s : State) (g : Nat) : s.gradePayload g = beBytes 1 (s.grade g).basis ++ beBytes 1 (s.grade g).caliper ++
    beBytes 2 (s.grade g).core ++ beBytes 2 (s.grade g).threshold ++ [if s.gradeInUse g then 1#8 else 0#8] := by
  have last : packBits 1 [s.gradeInUse g] = [if s.gradeInUse g then 1#8 else 0#8] := by cases s.gradeInUse g <;> rfl
  rw [← last]
  simp [State.gradePayload, Pay.build]

/-- Settles O26: each payload's bytes and flags are compared with its fields one by one, and the requests are read off their owners. -/
theorem readsByNumberAnswerTheRecord : Obligations.ReadsByNumberAnswerTheRecord := by
  unfold Obligations.ReadsByNumberAnswerTheRecord
  intro carries opt armByte hold
  refine ⟨fun s => ⟨fun b => Pay.build_carries ?_ ?_, fun l p => Pay.build_carries ?_ ?_, fun ps live => ?_, fun st => Pay.build_carries ?_ ?_,
    fun n j => Pay.build_carries ?_ ?_, fun n o => Pay.build_carries ?_ ?_, fun n => Pay.build_carries ?_ ?_,
    fun a x => Pay.build_carries ?_ ?_⟩, fun s => ?_⟩
  · simp only [Pay.all_cons_bytes, Pay.all_nil_bytes, Pay.list_bytes, List.length_map, List.flatMap_map, List.append_assoc, List.append_nil,
      State.numbered_length, State.numbered_pieces]
    repeat' refine append_congr ?_ ?_
    any_goals rfl
    · exact bayHold_bytes _
    · refine List.flatMap_congr fun n _ => ?_
      cases s.roll n with
      | none => rfl
      | some r =>
        exact append_congr rfl (append_congr rfl (append_congr rfl (rollHold_bytes r.hold)))
  · simp only [Pay.all_cons_flags, Pay.all_nil_flags, Pay.num_flags, Pay.opt_flags, Pay.optName_flags, Pay.list_flags, List.flatMap_map,
      State.numbered_pieces, Pay.tag_flags, Pay.name_flags, List.nil_append, List.append_nil, flatMap_plain]
    refine congrArg (_ :: _ :: _ :: _ :: _ :: ·) (List.flatMap_congr fun n _ => ?_)
    cases s.roll n <;> rfl
  · simp [opt, countings]
  · simp
  · rw [State.positionsPayload, Pay.build_of_noFlags]
    · simp only [Pay.list_bytes, List.length_map, List.flatMap_map]
      refine append_congr rfl (List.flatMap_congr fun p _ => ?_)
      cases live <;> simp
    · rw [Pay.list_flags, List.flatMap_map]
      refine List.flatMap_eq_nil_iff.mpr fun p _ => ?_
      cases live <;> rfl
  · simp only [Pay.all_cons_bytes, Pay.all_nil_bytes, Pay.flag_bytes, ArmRec.pay, List.append_assoc, List.append_nil, List.nil_append]
    repeat' refine append_congr ?_ ?_
    any_goals rfl
    · exact congrArg (beBytes 2 <| Option.getD · 0) (s.webLength_eq st _)
    · exact congrArg (beBytes 2 <| Option.getD · 0) (s.webLength_eq st _)
    · cases (s.stand st).run.dir <;> rfl
    · exact lostCause_bytes _
    · exact breakState_bytes _
    · exact Cause.form_bytes _
  · simp only [Pay.all_cons_flags, Pay.all_nil_flags, Pay.num_flags, Pay.opt_flags, Pay.optName_flags, Pay.name_flags, Pay.flag_flags,
      ArmRec.pay, List.nil_append, List.append_nil, List.cons_append, State.webLength_eq]
    rcases (Option.map s.line (s.lineOf st)).bind Line.cause with _ | c
    · rfl
    · cases c <;> rfl
  · by_cases live : j.state = .live
    · simp [live, opt, jobStates, countings]
    · simp [live, opt, jobStates]
  · by_cases live : j.state = .live <;> simp [live]
  · simp only [Pay.all_cons_bytes, Pay.all_nil_bytes, Pay.flag_bytes, List.append_assoc, List.append_nil, List.nil_append]
    repeat' refine append_congr ?_ ?_
    any_goals rfl
    · exact Requester.pay_bytes _
    · exact Source.form_bytes _
    · exact Dest.form_bytes _
    · exact Dest.namedForm_bytes _
  · have source : (o.source.map Source.pay |>.map Pay.flags).getD [] = [] := by cases o.source <;> simp [Source.pay_flags]
    have dest : (o.dest.map Dest.pay |>.map Pay.flags).getD [] = [] := by cases o.dest <;> simp [Dest.pay_flags]
    have named : (o.namedDest.map Dest.namedPay |>.map Pay.flags).getD [] = [] := by cases o.namedDest <;> simp [Dest.namedPay_flags]
    simp only [Pay.all_cons_flags, Pay.all_nil_flags, Pay.num_flags, Pay.opt_flags, Pay.name_flags, Pay.flag_flags, Pay.tag_flags,
      Pay.optForm_flags, Requester.pay_flags, source, dest, named, Option.isSome_map, List.nil_append, List.append_nil, List.cons_append]
  · simp only [Pay.all_append_bytes, Pay.all_cons_bytes, Pay.all_nil_bytes, Pay.list_bytes, Pay.flag_bytes, List.length_map,
      List.flatMap_map, List.append_assoc, List.append_nil, List.nil_append, Pay.optName_bytes, Timer.pay_bytes]
    repeat' refine append_congr ?_ ?_
    any_goals rfl
    · cases (s.vehicle n).inService <;> rfl
    · exact spot_bytes _
    · exact deck_bytes _
    · exact List.flatMap_congr fun g _ => append_congr (b := [_]) (Segment.kindByte_bytes _) rfl
  · have pos : ((s.vehicle n).pos.map spotPay |>.map Pay.flags).getD [] = [] := by cases (s.vehicle n).pos <;> simp [spotPay_flags]
    simp only [Pay.all_append_flags, Pay.all_cons_flags, Pay.all_nil_flags, Pay.num_flags, Pay.opt_flags, Pay.name_flags, Pay.flag_flags,
      Pay.optName_flags, Pay.optForm_flags, Pay.list_flags, Timer.pay_flags, pos, List.flatMap_map, flatMap_plain, Option.isSome_map,
      List.nil_append, List.append_nil, List.cons_append]
  · simp only [Pay.all_append_bytes, Pay.all_cons_bytes, Pay.all_nil_bytes, Pay.list_bytes, Pay.flag_bytes, State.lineSettings,
      List.length_map, List.flatMap_map, List.append_assoc, List.append_nil]
    repeat' refine append_congr ?_ ?_
    any_goals rfl
    · cases x.role <;> rfl
    · cases x.silent <;> rfl
    · refine List.flatMap_congr fun c _ => ?_
      cases c <;> simp only [Pay.form_bytes, Cmd.kind, Cmd.pay, Pay.all_cons_bytes, Pay.all_nil_bytes, List.append_nil] <;> rfl
  · simp only [State.lineSettings, rolePay_flags, Pay.all_append_flags, Pay.all_cons_flags, Pay.all_nil_flags, Pay.num_flags,
      Pay.name_flags, Pay.flag_flags, Pay.list_flags, List.flatMap_map, List.nil_append, List.append_nil]
    refine append_congr (List.flatMap_congr fun c _ => ?_) rfl
    cases c <;> rfl
  · refine ⟨fun b ht => request_reads ht ?_, fun g ht => request_reads ht ?_, fun l c p ht => ⟨fun h => request_refused ht ?_, fun h1 h4 copy hcopy => ⟨fun hp => ?_, fun hp => ?_⟩⟩,
      fun st ht => request_reads ht ?_, fun j ht => ?_, fun n ht => ?_, fun v ht => request_reads ht ?_, fun a ht => ?_⟩
    · rfl
    · exact congrArg (fun p => if g ≤ 15 then s.fresh.okWith p else s.fresh.no .badArgument) (s.gradePayload_bytes g)
    · exact State.readPlanRequest_refuses h
    · subst hp
      obtain ⟨sel, rfl, rfl⟩ : ∃ sel, c = some sel ∧ copy = (s.line l).planOf sel := by
        rcases hcopy with ⟨rfl, rfl⟩ | ⟨rfl, rfl⟩ <;> exact ⟨_, rfl, rfl⟩
      exact request_eq_quiet (q := s.fresh.okWith (s.headPayload l ((s.line l).planOf sel))) ht (if_pos (within_iff.mpr ⟨h1, h4⟩)) rfl rfl
    · subst hp
      obtain ⟨sel, rfl, rfl⟩ : ∃ sel, c = some sel ∧ copy = (s.line l).planOf sel := by
        rcases hcopy with ⟨rfl, rfl⟩ | ⟨rfl, rfl⟩ <;> exact ⟨_, rfl, rfl⟩
      exact request_eq_quiet (q := s.fresh.okWith (s.positionsPayload ((s.line l).planOf sel).positions (some sel == some .live))) ht
        (if_pos (within_iff.mpr ⟨h1, h4⟩)) rfl rfl
    · exact if_congr within_iff rfl rfl
    · rw [State.readJob_answers ht]
      cases s.job j <;> rfl
    · rw [State.readOrder_answers ht]
      cases s.order n <;> rfl
    · exact if_congr within_iff rfl rfl
    · rw [State.readStation_answers ht]
      cases s.station a <;> rfl

end Sys2Proof.Machine
end

section
/-! Proofs about the main-supply state cleared and the outputs dropped (R82, R179 to R182): what each table holds after it, and the edges
of the pins. -/

namespace Sys2Proof.Machine

/-! ## A step taken for every number of a list -/

section
variable {α : Type} {g : State → Nat → α} {f : Nat → State → State} {h : α → α}

/-- An update taken for some numbers, each changing its own record alone, where some law of the state is kept. -/
theorem State.each_reads_where {P : State → Prop} {k : Nat → α → α} (hg : ∀ s n m, P s → g (f n s) m = if m = n then k m (g s m) else g s m)
    (hP : ∀ n s, P s → P (f n s)) (hk : ∀ m x, k m (k m x) = k m x) (ns : List Nat) {s : State} (hs : P s) (m : Nat) :
    g (s.each ns f) m = if m ∈ ns then k m (g s m) else g s m := by
  induction ns generalizing s with
  | nil => rfl
  | cons n ns ih =>
    have step : g (s.each (n :: ns) f) m = if m ∈ ns then k m (g (f n s) m) else g (f n s) m := ih (hP n s hs)
    rw [step, hg s n m hs]
    by_cases hn : m = n <;> by_cases hm : m ∈ ns <;> simp [hn, hm, hk]

/-- An update taken for some numbers, each changing its own record alone. -/
theorem State.each_reads (hg : ∀ s n m, g (f n s) m = if m = n then h (g s m) else g s m) (hh : ∀ x, h (h x) = h x) (ns : List Nat)
    (s : State) (m : Nat) : g (s.each ns f) m = if m ∈ ns then h (g s m) else g s m :=
  State.each_reads_where (P := fun _ => True) (fun s n m _ => hg s n m) (fun _ _ _ => trivial) (fun _ => hh) ns trivial m

/-- An update taken for the numbers a table lists, where it leaves the records not listed as they are. -/
theorem State.each_reads_all (hg : ∀ s n m, g (f n s) m = if m = n then h (g s m) else g s m) (hh : ∀ x, h (h x) = h x) {ns : List Nat}
    {s : State} {m : Nat} (hout : m ∉ ns → h (g s m) = g s m) : g (s.each ns f) m = h (g s m) := by
  rw [State.each_reads hg hh]
  split
  · rfl
  · next hm => exact (hout hm).symm

end

theorem State.each_append (ns ms : List Nat) (f : Nat → State → State) (s : State) : s.each (ns ++ ms) f = (s.each ns f).each ms f :=
  List.foldl_append

/-- What holds before and is kept by each update holds after them all. -/
theorem State.each_keeps {P : State → Prop} {f : Nat → State → State} (hf : ∀ n s, P s → P (f n s)) (ns : List Nat) {s : State} (h : P s) :
    P (s.each ns f) := by
  induction ns generalizing s with
  | nil => exact h
  | cons n ns ih => exact ih (hf n s h)

theorem Tbl.find_unlisted {α : Type} {t : Tbl α} {n : Nat} (h : n ∉ t.keys) : t.find n = none := by
  cases hfind : t.find n with
  | none => rfl
  | some x => exact absurd (List.mem_map.mpr ⟨(n, x), Tbl.mem_of_find hfind, rfl⟩) h

theorem Tbl.get_unlisted {α : Type} {t : Tbl α} {n : Nat} (cold : α) (h : n ∉ t.keys) : t.get n cold = cold := by
  rw [Tbl.get, Tbl.find_unlisted h]; rfl

/-! ### One table changed -/

/-- Every listed record of a table changed once changes every record, where the unlisted value is unchanged. -/
theorem State.each_table {α : Type} [DecidableEq α] {table : State → Tbl α} {write : State → Tbl α → State} {cold : α} {h : α → α}
    (s : State) (hsame : write s (table s) = s) (hread : ∀ s t, table (write s t) = t) (hagain : ∀ s t u, write (write s t) u = write s u)
    (hh : ∀ x, h (h x) = h x) (hcold : h cold = cold) :
    ∃ t, (s.each (table s).keys fun n u => write u ((table u).set n cold (h ((table u).get n cold)))) = write s t ∧
      ∀ m, t.get m cold = h ((table s).get m cold) := by
  have read (m : Nat) := State.each_reads_all (g := fun u m => (table u).get m cold)
    (f := fun n u => write u ((table u).set n cold (h ((table u).get n cold)))) (h := h) (ns := (table s).keys) (s := s) (m := m)
    (fun u n m => by
      rw [hread, Tbl.get_set]
      split
      · next hm => rw [hm]
      · rfl) hh
  obtain ⟨t, ht⟩ : ∃ t, (s.each (table s).keys fun n u => write u ((table u).set n cold (h ((table u).get n cold)))) = write s t := by
    refine State.each_keeps (P := fun u => ∃ t, u = write s t) ?_ (table s).keys ⟨_, hsame.symm⟩
    rintro n _ ⟨t, rfl⟩
    exact ⟨_, hagain _ _ _⟩
  refine ⟨t, ht, fun m => ?_⟩
  rw [← read m fun hout => by rw [Tbl.get_unlisted cold hout, hcold], ht, hread]

section
variable (s : State)

theorem State.each_modLine (f : Line → Line) (hh : ∀ x, f (f x) = f x) (hcold : f .cold = .cold) :
    ∃ t, (s.each s.lines.keys fun n s => s.modLine n f) = { s with lines := t } ∧ ∀ l, t.get l .cold = f (s.line l) :=
  State.each_table (table := State.lines) (write := fun s t => { s with lines := t }) s rfl (fun _ _ => rfl) (fun _ _ _ => rfl) hh hcold

theorem State.each_modStand (f : Stand → Stand) (hh : ∀ x, f (f x) = f x) (hcold : f .cold = .cold) :
    ∃ t, (s.each s.stands.keys fun n s => s.modStand n f) = { s with stands := t } ∧ ∀ n, t.get n .cold = f (s.stand n) :=
  State.each_table (table := State.stands) (write := fun s t => { s with stands := t }) s rfl (fun _ _ => rfl) (fun _ _ _ => rfl) hh hcold

theorem State.each_modVehicle (f : Vehicle → Vehicle) (hh : ∀ x, f (f x) = f x) (hcold : f .cold = .cold) :
    ∃ t, (s.each s.vehicles.keys fun n s => s.modVehicle n f) = { s with vehicles := t } ∧ ∀ n, t.get n .cold = f (s.vehicle n) :=
  State.each_table (table := State.vehicles) (write := fun s t => { s with vehicles := t }) s rfl (fun _ _ => rfl) (fun _ _ _ => rfl) hh hcold

theorem State.each_modSegment (f : Segment → Segment) (hh : ∀ x, f (f x) = f x) (hcold : f .cold = .cold) :
    ∃ t, (s.each s.segments.keys fun n s => s.modSegment n f) = { s with segments := t } ∧ ∀ n, t.get n .cold = f (s.segment n) :=
  State.each_table (table := State.segments) (write := fun s t => { s with segments := t }) s rfl (fun _ _ => rfl) (fun _ _ _ => rfl) hh hcold

theorem State.each_modBay (f : Bay → Bay) (hh : ∀ x, f (f x) = f x) (hcold : f .cold = .cold) :
    ∃ t, (s.each s.bays.keys fun n s => s.modBay n f) = { s with bays := t } ∧ ∀ n, t.get n .cold = f (s.bay n) :=
  State.each_table (table := State.bays) (write := fun s t => { s with bays := t }) s rfl (fun _ _ => rfl) (fun _ _ _ => rfl) hh hcold

theorem State.each_modStation (f : Station → Station) (hh : ∀ x, f (f x) = f x) :
    ∃ t, (s.each s.stations.keys fun n s => s.modStation n f) = { s with stations := t } ∧ ∀ a, t.find a = (s.station a).map f := by
  have only : ∀ n u, (∃ t, u = { s with stations := t }) → ∃ t, u.modStation n f = { s with stations := t } := by
    rintro n u ⟨t, rfl⟩
    unfold State.modStation
    split
    · exact ⟨t, rfl⟩
    · exact ⟨_, rfl⟩
  obtain ⟨t, ht⟩ := State.each_keeps (P := fun u => ∃ t, u = { s with stations := t }) only s.stations.keys ⟨_, rfl⟩
  refine ⟨t, ht, fun a => ?_⟩
  have read := State.each_reads_all (g := State.station) (h := Option.map f) (s := s) (m := a)
    (fun s n m => (Law.station_mod s n m f).trans (by split <;> [(next hm => rw [hm]); rfl]))
    (fun x => by rw [Option.map_map]; exact congrArg (Option.map · x) (funext hh))
    fun hout => by rw [show s.station a = none from Tbl.find_unlisted hout]; rfl
  rwa [ht] at read

/-! ## The main-supply state cleared (R179, R181) -/

/-- Clearing the main-supply state changes the records of five tables, and settings of the main supply. -/
theorem State.mainCleared_eq : ∃ ls sts vs gs ss, s.mainCleared = { s with
      lines := ls, stands := sts, vehicles := vs, segments := gs, stations := ss, timeBase := 0, subMs := 0, micros := 0, halted := false,
      cycle := [], further := none, exchange := none, receiver := .hunting, pendingBroadcast := none, port := .cold, attn := [],
      shifted := [], lineOut := [], passDue := false } ∧
    (∀ l, ls.get l .cold = (s.line l).started) ∧ (∀ n, sts.get n .cold = (s.stand n).started) ∧
    (∀ v, vs.get v .cold = (s.vehicle v).started) ∧ (∀ g, gs.get g .cold = (s.segment g).started) ∧
    ∀ a, ss.find a = (s.station a).map Station.started := by
  obtain ⟨ls, hl, line⟩ := s.each_modLine Line.started (fun _ => rfl) rfl
  obtain ⟨sts, hst, stand⟩ := State.each_modStand { s with lines := ls } Stand.started (fun _ => rfl) rfl
  obtain ⟨vs, hv, vehicle⟩ := State.each_modVehicle { s with lines := ls, stands := sts } Vehicle.started (fun _ => rfl) rfl
  obtain ⟨gs, hg, segment⟩ := State.each_modSegment { s with lines := ls, stands := sts, vehicles := vs } Segment.started (fun _ => rfl) rfl
  obtain ⟨ss, hs, station⟩ := State.each_modStation { s with lines := ls, stands := sts, vehicles := vs, segments := gs }
    Station.started (fun _ => rfl)
  refine ⟨ls, sts, vs, gs, ss, ?_, line, stand, vehicle, segment, station⟩
  unfold State.mainCleared
  dsimp only
  rw [hl, hst, hv, hg, hs]

theorem State.mainCleared_line (l : Nat) : s.mainCleared.line l = (s.line l).started := by
  obtain ⟨_, _, _, _, _, heq, line, _⟩ := s.mainCleared_eq
  rw [heq]
  exact line l

theorem State.mainCleared_stand (n : Nat) : s.mainCleared.stand n = (s.stand n).started := by
  obtain ⟨_, _, _, _, _, heq, _, stand, _⟩ := s.mainCleared_eq
  rw [heq]
  exact stand n

theorem State.mainCleared_vehicle (v : Nat) : s.mainCleared.vehicle v = (s.vehicle v).started := by
  obtain ⟨_, _, _, _, _, heq, _, _, vehicle, _⟩ := s.mainCleared_eq
  rw [heq]
  exact vehicle v

theorem State.mainCleared_segment (g : Nat) : s.mainCleared.segment g = (s.segment g).started := by
  obtain ⟨_, _, _, _, _, heq, _, _, _, segment, _⟩ := s.mainCleared_eq
  rw [heq]
  exact segment g

theorem State.mainCleared_station (a : Nat) : s.mainCleared.station a = (s.station a).map Station.started := by
  obtain ⟨_, _, _, _, _, heq, _, _, _, _, station⟩ := s.mainCleared_eq
  rw [heq]
  exact station a

/-! ## The outputs dropped (R82, R182) -/

theorem State.drivePin_edges (p : Pin) (b : Bool) : (s.drivePin p b).edges = s.edges ++ if s.pinLevel p = b then [] else [⟨p, b⟩] := by
  unfold State.drivePin
  split
  · exact (List.append_nil _).symm
  · cases p <;> rfl

theorem State.drivePin_edges_prefix (p : Pin) (b : Bool) : s.edges <+: (s.drivePin p b).edges := by
  rw [State.drivePin_edges]
  exact List.prefix_append ..

theorem State.drivePin_fall (p : Pin) (h : s.pinLevel p = true) : (s.drivePin p false).edges = s.edges ++ [⟨p, false⟩] := by
  rw [State.drivePin_edges, if_neg (by rw [h]; decide)]

/-- Every edge of a step is a fall. -/
def State.onlyFalls (s : State) : Prop := ∀ e ∈ s.edges, e.up = false

theorem State.onlyFalls_drivePin {s : State} (p : Pin) (h : s.onlyFalls) : (s.drivePin p false).onlyFalls := by
  intro e he
  rw [State.drivePin_edges] at he
  rcases List.mem_append.mp he with he | he
  · exact h e he
  · split at he
    · cases he
    · rw [List.mem_singleton.mp he]

/-- A stand after a pin is driven. -/
def Stand.driven (x : Stand) (m : Nat) (b : Bool) : Pin → Stand
  | .drive n => if m = n then { x with drive := b } else x
  | .paste n => if m = n then { x with paste := b } else x
  | .brake n => if m = n then { x with brake := b } else x
  | .stop _ => x

/-- A line after a pin is driven. -/
def Line.driven (x : Line) (l : Nat) (b : Bool) : Pin → Line
  | .stop n => if l = n then { x with stop := b } else x
  | .drive _ | .paste _ | .brake _ => x

theorem State.drivePin_stand (p : Pin) (b : Bool) (m : Nat) : (s.drivePin p b).stand m = (s.stand m).driven m b p := by
  unfold State.drivePin
  split
  · next h =>
    subst h
    cases p with
    | stop n => rfl
    | drive n | paste n | brake n =>
      dsimp only [Stand.driven]
      split
      · next hm => subst hm; rfl
      · rfl
  · cases p with
    | stop n => rfl
    | drive n | paste n | brake n =>
      refine (Law.stand_mod _ n m _).trans ?_
      dsimp only [Stand.driven]
      split
      · next hm => subst hm; rfl
      · rfl

theorem State.drivePin_line (p : Pin) (b : Bool) (l : Nat) : (s.drivePin p b).line l = (s.line l).driven l b p := by
  unfold State.drivePin
  split
  · next h =>
    subst h
    cases p with
    | stop n =>
      dsimp only [Line.driven]
      split
      · next hm => subst hm; rfl
      · rfl
    | drive n | paste n | brake n => rfl
  · cases p with
    | stop n =>
      refine (Law.line_mod _ n l _).trans ?_
      dsimp only [Line.driven]
      split
      · next hm => subst hm; rfl
      · rfl
    | drive n | paste n | brake n => rfl

theorem State.drivePin_eq (p : Pin) (b : Bool) : ∃ ls sts es, s.drivePin p b = { s with lines := ls, stands := sts, edges := es } := by
  unfold State.drivePin
  split
  · exact ⟨_, _, _, rfl⟩
  · cases p <;> exact ⟨_, _, _, rfl⟩

/-- What is driven for one number of a list, the first time it comes. -/
theorem State.each_first {f : Nat → State → State} {ns : List Nat} {n : Nat} (hn : n ∈ ns) :
    ∃ before after, n ∉ before ∧ s.each ns f = (f n (s.each before f)).each after f := by
  obtain ⟨before, after, rfl, hbefore⟩ := List.eq_append_cons_of_mem hn
  exact ⟨before, after, hbefore, State.each_append ..⟩

theorem State.each_edges_prefix {f : Nat → State → State} (hf : ∀ n u, u.edges <+: (f n u).edges) (ns : List Nat) :
    s.edges <+: (s.each ns f).edges :=
  State.each_keeps (P := fun u => s.edges <+: u.edges) (fun n u h => h.trans (hf n u)) ns (List.prefix_refl _)
end

/-! ### PASTE and DRIVE -/

section
variable (s : State) (st : Nat)

theorem State.dropPasteDrive_stand (m : Nat) : (s.dropPasteDrive st).stand m =
    if m = st then { s.stand m with paste := false, drive := false } else s.stand m := by
  rw [State.dropPasteDrive, State.drivePin_stand, State.drivePin_stand]
  dsimp only [Stand.driven]
  split <;> rfl

theorem State.dropPasteDrive_line (l : Nat) : (s.dropPasteDrive st).line l = s.line l := by
  rw [State.dropPasteDrive, State.drivePin_line, State.drivePin_line]
  rfl

theorem State.dropPasteDrive_edges_prefix : s.edges <+: (s.dropPasteDrive st).edges :=
  (s.drivePin_edges_prefix _ _).trans (State.drivePin_edges_prefix _ _ _)

theorem State.dropPasteDrive_eq : ∃ ls sts es, s.dropPasteDrive st = { s with lines := ls, stands := sts, edges := es } := by
  obtain ⟨ls, sts, es, h⟩ := s.drivePin_eq (.paste st) false
  obtain ⟨ls', sts', es', h'⟩ := State.drivePin_eq { s with lines := ls, stands := sts, edges := es } (.drive st) false
  exact ⟨ls', sts', es', by rw [State.dropPasteDrive, h, h']⟩

variable {s st}

theorem State.paste_falls (h : (s.stand st).paste = true) : ⟨.paste st, false⟩ ∈ (s.dropPasteDrive st).edges := by
  refine (State.drivePin_edges_prefix _ (.drive st) false).subset ?_
  rw [s.drivePin_fall (.paste st) h]
  exact List.mem_append_right _ (List.mem_singleton_self _)

theorem State.drive_falls (h : (s.stand st).drive = true) : ⟨.drive st, false⟩ ∈ (s.dropPasteDrive st).edges := by
  have later : (s.drivePin (.paste st) false).pinLevel (.drive st) = true := by
    show ((s.drivePin (.paste st) false).stand st).drive = true
    rw [State.drivePin_stand, Stand.driven, if_pos rfl]
    exact h
  rw [State.dropPasteDrive, State.drivePin_fall _ _ later]
  exact List.mem_append_right _ (List.mem_singleton_self _)

/-- PASTE falls before DRIVE (R82). -/
theorem State.paste_falls_first (hp : (s.stand st).paste = true) (hd : (s.stand st).drive = true) :
    [⟨.paste st, false⟩, ⟨.drive st, false⟩].Sublist (s.dropPasteDrive st).edges := by
  have later : (s.drivePin (.paste st) false).pinLevel (.drive st) = true := by
    show ((s.drivePin (.paste st) false).stand st).drive = true
    rw [State.drivePin_stand, Stand.driven, if_pos rfl]
    exact hd
  rw [State.dropPasteDrive, State.drivePin_fall _ _ later, s.drivePin_fall (.paste st) hp, List.append_assoc]
  exact List.sublist_append_right ..

end

/-! ### Every output -/

/-- The outputs of a stand dropped. -/
def State.dropStand (st : Nat) (s : State) : State := (s.dropPasteDrive st).drivePin (.brake st) false

/-- The stands' part of the outputs dropped. -/
def State.dropStands (s : State) : State := s.each s.stands.keys State.dropStand

theorem State.dropOutputs_eq_each (s : State) :
    s.dropOutputs = s.dropStands.each s.dropStands.lines.keys fun l s => s.drivePin (.stop l) false := rfl

section
variable (s : State)

theorem State.dropStand_edges_prefix (st : Nat) : s.edges <+: (s.dropStand st).edges :=
  (s.dropPasteDrive_edges_prefix st).trans (State.drivePin_edges_prefix _ _ _)

theorem State.dropStand_stand (st m : Nat) : (s.dropStand st).stand m =
    if m = st then { s.stand m with paste := false, drive := false, brake := false } else s.stand m := by
  rw [State.dropStand, State.drivePin_stand, State.dropPasteDrive_stand]
  dsimp only [Stand.driven]
  split <;> rfl

theorem State.dropStands_stand (n : Nat) : s.dropStands.stand n = { s.stand n with paste := false, drive := false, brake := false } :=
  State.each_reads_all (g := State.stand) (h := fun x => { x with paste := false, drive := false, brake := false })
    (fun s n m => s.dropStand_stand n m) (fun _ => rfl) fun h => by rw [show s.stand n = Stand.cold from Tbl.get_unlisted _ h]; rfl

theorem State.dropStands_line (l : Nat) : s.dropStands.line l = s.line l :=
  RollsAfter.each (fun s => s.line l) State.dropStand (fun n u => by
    rw [State.dropStand, State.drivePin_line, State.dropPasteDrive_line]; rfl) _ s

theorem State.dropOutputs_stand (n : Nat) : s.dropOutputs.stand n = { s.stand n with paste := false, drive := false, brake := false } := by
  rw [State.dropOutputs_eq_each, RollsAfter.each (fun s => s.stand n) _ (fun l u => u.drivePin_stand (.stop l) false n),
    State.dropStands_stand]

theorem State.dropOutputs_line (l : Nat) : s.dropOutputs.line l = { s.line l with stop := false } := by
  have read := State.each_reads_all (g := State.line) (h := fun x => { x with stop := false })
    (f := fun l s => s.drivePin (.stop l) false) (ns := s.dropStands.lines.keys) (s := s.dropStands) (m := l)
    (fun s n m => s.drivePin_line (.stop n) false m) (fun _ => rfl)
    fun h => by rw [show s.dropStands.line l = Line.cold from Tbl.get_unlisted _ h]; rfl
  rw [State.dropOutputs_eq_each, read, State.dropStands_line]

theorem State.dropOutputs_eq : ∃ ls sts es, s.dropOutputs = { s with lines := ls, stands := sts, edges := es } := by
  refine State.each_keeps (P := fun u => ∃ ls sts es, u = { s with lines := ls, stands := sts, edges := es }) ?_ _
    (State.each_keeps (P := fun u => ∃ ls sts es, u = { s with lines := ls, stands := sts, edges := es }) ?_ _ ⟨_, _, _, rfl⟩)
  · rintro l _ ⟨ls, sts, es, rfl⟩
    obtain ⟨ls', sts', es', h⟩ := State.drivePin_eq { s with lines := ls, stands := sts, edges := es } (.stop l) false
    exact ⟨_, _, _, h⟩
  · rintro n _ ⟨ls, sts, es, rfl⟩
    obtain ⟨ls', sts', es', h⟩ := State.dropPasteDrive_eq { s with lines := ls, stands := sts, edges := es } n
    obtain ⟨ls'', sts'', es'', h'⟩ := State.drivePin_eq { s with lines := ls', stands := sts', edges := es' } (.brake n) false
    exact ⟨ls'', sts'', es'', (congrArg (State.drivePin · (.brake n) false) h).trans h'⟩

variable {s}

theorem State.dropOutputs_onlyFalls (h : s.onlyFalls) : s.dropOutputs.onlyFalls :=
  State.each_keeps (fun _ _ h => State.onlyFalls_drivePin _ h) _
    (State.each_keeps (fun _ _ h => State.onlyFalls_drivePin _ (State.onlyFalls_drivePin _ (State.onlyFalls_drivePin _ h))) _ h)

theorem State.dropOutputs_edges_stands : s.dropStands.edges <+: s.dropOutputs.edges :=
  State.each_edges_prefix _ (fun l u => u.drivePin_edges_prefix (.stop l) false) _

/-- The edges of a stand's own drop stand among the edges of every output's. -/
theorem State.dropStands_at {st : Nat} (h : s.stand st ≠ .cold) :
    ∃ u : State, u.stand st = s.stand st ∧ (u.dropStand st).edges <+: s.dropStands.edges := by
  have listed : st ∈ s.stands.keys := Classical.not_not.mp fun hout => h (Tbl.get_unlisted _ hout)
  obtain ⟨before, after, hbefore, split⟩ := s.each_first (f := State.dropStand) listed
  refine ⟨s.each before State.dropStand, ?_, ?_⟩
  · refine Law.each_other (fun s => s.stand st) State.dropStand before (fun n hn u => ?_) s
    exact (u.dropStand_stand n st).trans (if_neg fun heq => hbefore (by rwa [heq]))
  · rw [State.dropStands, split]
    exact State.each_edges_prefix _ (fun n u => u.dropStand_edges_prefix n) _

theorem State.dropOutputs_falls_stop {l : Nat} (h : (s.line l).stop = true) : ⟨.stop l, false⟩ ∈ s.dropOutputs.edges := by
  have stop : (s.dropStands.line l).stop = true := by rw [State.dropStands_line, h]
  have listed : l ∈ s.dropStands.lines.keys := Classical.not_not.mp fun hout => by
    rw [show s.dropStands.line l = Line.cold from Tbl.get_unlisted _ hout] at stop
    cases stop
  obtain ⟨before, after, hbefore, split⟩ := s.dropStands.each_first (f := fun l s => s.drivePin (.stop l) false) listed
  have still : (s.dropStands.each before fun l s => s.drivePin (.stop l) false).pinLevel (.stop l) = true := by
    refine Eq.trans (congrArg Line.stop (Law.each_other (fun s => s.line l) _ before (fun n hn u => ?_) s.dropStands)) stop
    refine (u.drivePin_line (.stop n) false l).trans (if_neg fun heq => hbefore (by rwa [heq]))
  rw [State.dropOutputs_eq_each, split]
  refine (State.each_edges_prefix _ (fun l u => u.drivePin_edges_prefix (.stop l) false) _).subset ?_
  rw [State.drivePin_fall _ _ still]
  exact List.mem_append_right _ (List.mem_singleton_self _)

end

end Sys2Proof.Machine
end

section
/-! Proofs about STANDBY, STANDBY_ENTRY and MAIN_POWER_LOSS (R180, R182, R183). -/

namespace Sys2Proof.Machine

/-! ## The outputs' edges -/

section
variable {s : State} {st : Nat}

theorem State.dropOutputs_falls_paste (h : (s.stand st).paste = true) : ⟨.paste st, false⟩ ∈ s.dropOutputs.edges := by
  obtain ⟨u, same, sub⟩ := State.dropStands_at (s := s) (st := st) fun hc => by rw [hc] at h; cases h
  exact State.dropOutputs_edges_stands.subset
    (sub.subset ((State.drivePin_edges_prefix _ _ _).subset (State.paste_falls (same ▸ h))))

theorem State.dropOutputs_falls_drive (h : (s.stand st).drive = true) : ⟨.drive st, false⟩ ∈ s.dropOutputs.edges := by
  obtain ⟨u, same, sub⟩ := State.dropStands_at (s := s) (st := st) fun hc => by rw [hc] at h; cases h
  exact State.dropOutputs_edges_stands.subset
    (sub.subset ((State.drivePin_edges_prefix _ _ _).subset (State.drive_falls (same ▸ h))))

theorem State.dropOutputs_falls_brake (h : (s.stand st).brake = true) : ⟨.brake st, false⟩ ∈ s.dropOutputs.edges := by
  obtain ⟨u, same, sub⟩ := State.dropStands_at (s := s) (st := st) fun hc => by rw [hc] at h; cases h
  refine State.dropOutputs_edges_stands.subset (sub.subset ?_)
  have still : (u.dropPasteDrive st).pinLevel (.brake st) = true := by
    show ((u.dropPasteDrive st).stand st).brake = true
    rw [State.dropPasteDrive_stand, if_pos rfl, same]
    exact h
  rw [State.dropStand, State.drivePin_fall _ _ still]
  exact List.mem_append_right _ (List.mem_singleton_self _)

theorem State.dropOutputs_falls_pasteDrive (hp : (s.stand st).paste = true) (hd : (s.stand st).drive = true) :
    [⟨.paste st, false⟩, ⟨.drive st, false⟩].Sublist s.dropOutputs.edges := by
  obtain ⟨u, same, sub⟩ := State.dropStands_at (s := s) (st := st) fun hc => by rw [hc] at hp; cases hp
  exact (State.paste_falls_first (same ▸ hp) (same ▸ hd)).trans
    ((State.drivePin_edges_prefix _ _ _).trans (sub.trans State.dropOutputs_edges_stands)).sublist

end

/-! ## STANDBY (R182) -/

theorem State.halt_eq (s : State) : ∃ vs, s.halt = { s with vehicles := vs, halted := true, pendingBroadcast := some .allHalt } := by
  obtain ⟨vs, h⟩ : ∃ vs, s.eachTimer Timer.suspend = { s with vehicles := vs } := by
    refine State.each_keeps (P := fun u => ∃ vs, u = { s with vehicles := vs }) ?_ _ ⟨_, rfl⟩
    rintro n _ ⟨vs, rfl⟩
    exact ⟨_, rfl⟩
  exact ⟨vs, by rw [State.halt, h]⟩

theorem VState.moves_iff (x : VState) : x.moves = true ↔ x ∈ [.toPickup, .loading, .toDrop, .unloading] := by
  cases x <;> decide

theorem State.standbyRefused_iff (s : State) : s.standbyRefused = true ↔ s.standby ≠ .running ∨
    (∃ v, 1 ≤ v ∧ v ≤ 12 ∧ (s.vehicle v).state ∈ [.toPickup, .loading, .toDrop, .unloading]) ∨
    (∃ l, 1 ≤ l ∧ l ≤ 4 ∧ 0 < (s.line l).v) ∨ ∃ n, 1 ≤ n ∧ n ≤ 16 ∧ (s.stand n).seq = .pasting := by
  simp only [State.standbyRefused, Bool.or_eq_true, bne_iff_ne, List.any_eq_true, Law.mem_span, VState.moves_iff, decide_eq_true_iff,
    beq_iff_eq, and_assoc, or_assoc]

theorem State.mayEnter_iff (s : State) : s.mayEnter = true ↔
    s.standby = .entering ∧ s.pendingBroadcast = none ∧ s.exchange = none ∧ s.port.state = .idle := by
  simp only [State.mayEnter, Bool.and_eq_true, beq_iff_eq, Option.isNone_iff_eq_none, and_assoc]

/-- The edges of the outputs' drop. -/
theorem State.dropOutputs_falls (s : State) (h : s.edges = []) : (∀ e ∈ s.dropOutputs.edges, e.up = false) ∧
    (∀ n, ((s.stand n).drive = true → ⟨.drive n, false⟩ ∈ s.dropOutputs.edges) ∧
      ((s.stand n).paste = true → ⟨.paste n, false⟩ ∈ s.dropOutputs.edges) ∧
      ((s.stand n).brake = true → ⟨.brake n, false⟩ ∈ s.dropOutputs.edges) ∧
      ((s.stand n).paste = true → (s.stand n).drive = true → [⟨.paste n, false⟩, ⟨.drive n, false⟩].Sublist s.dropOutputs.edges)) ∧
    ∀ l, (s.line l).stop = true → ⟨.stop l, false⟩ ∈ s.dropOutputs.edges :=
  ⟨State.dropOutputs_onlyFalls fun _ he => absurd (h ▸ he) (List.not_mem_nil),
    fun _ => ⟨State.dropOutputs_falls_drive, State.dropOutputs_falls_paste, State.dropOutputs_falls_brake,
      State.dropOutputs_falls_pasteDrive⟩,
    fun _ => State.dropOutputs_falls_stop⟩

/-- Settles O58: the outputs' drop and the clearing are read record by record. -/
theorem standbyAndPowerLossKeepTheRecords : Obligations.StandbyAndPowerLossKeepTheRecords := by
  unfold Obligations.StandbyAndPowerLossKeepTheRecords
  intro cleared falls
  have dropped (s : State) (p : Bool) (x : Standby) :
      cleared s { s.fresh.dropOutputs.mainCleared with powered := p, standby := x } ∧
      falls s { s.fresh.dropOutputs.mainCleared with powered := p, standby := x } := by
    obtain ⟨ls, sts, es, drop⟩ := s.fresh.dropOutputs_eq
    obtain ⟨_, _, _, _, _, clear, _⟩ := s.fresh.dropOutputs.mainCleared_eq
    have edges : s.fresh.dropOutputs.mainCleared.edges = s.fresh.dropOutputs.edges := by rw [clear]
    constructor
    · refine ⟨fun b => ?_, fun l => ?_, fun n => ?_, fun v => ?_, fun g => ?_, fun a => ?_, ?_⟩
      · rw [clear, drop]; rfl
      · refine (State.mainCleared_line _ l).trans ?_
        rw [State.dropOutputs_line]; rfl
      · refine (State.mainCleared_stand _ n).trans ?_
        rw [State.dropOutputs_stand]; rfl
      · refine (State.mainCleared_vehicle _ v).trans ?_
        rw [drop]; rfl
      · refine (State.mainCleared_segment _ g).trans ?_
        rw [drop]; rfl
      · refine (State.mainCleared_station _ a).trans ?_
        rw [drop]; rfl
      · rw [clear, drop]
        exact ⟨rfl, rfl, rfl, rfl, rfl, rfl, rfl, rfl, rfl, rfl, rfl, rfl, rfl, rfl, rfl, rfl, rfl, rfl, rfl⟩
    · simp only [falls, edges]
      exact s.fresh.dropOutputs_falls rfl
  refine ⟨fun s ht => ⟨fun h => ?_, fun h => ?_⟩, fun s hawake => ⟨fun h => ?_, fun h => ?_⟩, fun s => ⟨fun h => ?_, fun h => ?_⟩⟩
  · exact request_refused ht (if_pos ((State.standbyRefused_iff s.fresh).mpr h))
  · obtain ⟨vs, hhalt⟩ := s.fresh.halt_eq
    refine ⟨vs, ?_⟩
    have reply : s.fresh.standbyRequest = { s.fresh with vehicles := vs, halted := true, pendingBroadcast := some .allHalt, standby := .entering }.ok := by
      rw [State.standbyRequest, if_neg fun hr => h ((State.standbyRefused_iff s.fresh).mp hr), hhalt]
    exact request_eq_quiet ht reply rfl rfl
  · exact if_neg fun hm => h ((State.mayEnter_iff s).mp (Bool.and_eq_true_iff.mp hm).2)
  · have hpow : s.powered = true := (Bool.and_eq_true_iff.mp hawake).1
    obtain ⟨c, f⟩ := dropped s s.fresh.dropOutputs.mainCleared.powered .standby
    refine ⟨_, if_pos (Bool.and_eq_true_iff.mpr ⟨hawake, (State.mayEnter_iff s).mpr h⟩), rfl, ?_, c, f⟩
    obtain ⟨ls, sts, es, drop⟩ := s.fresh.dropOutputs_eq
    obtain ⟨_, _, _, _, _, clear, _⟩ := s.fresh.dropOutputs.mainCleared_eq
    rw [State.enterStandby, clear, drop]
    exact hpow
  · rw [show exec .mainPowerLoss s = execMainPowerLoss s from rfl, execMainPowerLoss, if_neg (by rw [h]; decide)]
  · obtain ⟨c, f⟩ := dropped s false .running
    exact ⟨_, if_pos h, rfl, c, f⟩

end Sys2Proof.Machine
end

section
/-! Proofs about the starts (R139, R179, R181, R183, R184): a warm start stage by stage, and the cold start. -/

namespace Sys2Proof.Machine

/-! ## The stages of a warm start -/

/-- PASTE and DRIVE dropped at every stand (R82). -/
def State.dropPastes (s : State) : State := s.each s.stands.keys fun st s => s.dropPasteDrive st

/-- The outputs, the main-supply state and the bays' sensor records at a start. -/
def State.startCleared (s : State) : State :=
  let t := s.fresh.dropPastes.mainCleared
  t.each t.bays.keys fun n s => s.modBay n Bay.started

/-- The orders at a warm start (R139). -/
def State.startOrders (s : State) : State := s.each s.orders.keys fun n s => s.orderAtStart n

/-- The stands and lines at a warm start (R68, R82, R97, R109). -/
def State.startBlocks (s : State) : State :=
  ((s.each (span 1 Config.stands) fun st s => s.standAtStart st).each (span 1 Config.lines) fun l s => s.lineAtStart l).each
    (span 1 Config.stands) fun st s => s.brakeAtStart st

/-- The deadlines and call-offs at a warm start (R92, R139). -/
def State.startDeadlines (s : State) : State :=
  (s.each s.orders.keys fun n s => s.deadlineAtStart n).each (span 1 Config.stands) fun st s => s.evalCallOff st

/-- The state after the stages of a warm start. -/
def State.restarted (s : State) : State := s.startCleared.startOrders.startBlocks.startDeadlines

/-- The settings written at the end of a warm start, and the bytes shifted out. -/
def State.inService (s : State) (c : StartCause) (shifted : List Byte) : State :=
  { s with powered := true, startKind := .warm, startCause := c, standby := .running, passDue := false,
           attn := [(2, ⟨c.subject, 1⟩)], shifted := shifted }

theorem State.warmStart_stages (s : State) (c : StartCause) : s.warmStart c =
    { s.restarted with
        powered := true, startKind := .warm, startCause := c, standby := .running, passDue := false, attn := [] }.raise
      .warmStart c.subject := rfl

theorem State.inService_raised (s : State) (c : StartCause) :
    { s with powered := true, startKind := .warm, startCause := c, standby := .running, passDue := false, attn := [] }.raise
      .warmStart c.subject = s.inService c s.shifted := rfl

theorem State.warmStart_eq (s : State) (c : StartCause) : s.warmStart c = s.restarted.inService c s.restarted.shifted :=
  (s.warmStart_stages c).trans (s.restarted.inService_raised c)

theorem State.restart_eq (s : State) (n : Nat) : s.restart n = s.restarted.inService .restart (clockedOut [] n) := by
  rw [State.restart, State.warmStart_eq]
  generalize s.restarted = t
  rfl

/-! ## The cleared state -/

section
variable (s : State)

theorem State.dropPastes_stand (n : Nat) : s.dropPastes.stand n = { s.stand n with paste := false, drive := false } :=
  State.each_reads_all (g := State.stand) (h := fun x => { x with paste := false, drive := false })
    (fun s n m => s.dropPasteDrive_stand n m) (fun _ => rfl) fun h => by rw [show s.stand n = Stand.cold from Tbl.get_unlisted _ h]; rfl

theorem State.dropPastes_line (l : Nat) : s.dropPastes.line l = s.line l :=
  RollsAfter.each (fun s => s.line l) _ (fun n u => u.dropPasteDrive_line n l) _ s

theorem State.dropPastes_eq : ∃ ls sts es, s.dropPastes = { s with lines := ls, stands := sts, edges := es } := by
  refine State.each_keeps (P := fun u => ∃ ls sts es, u = { s with lines := ls, stands := sts, edges := es }) ?_ _ ⟨_, _, _, rfl⟩
  rintro n _ ⟨ls, sts, es, rfl⟩
  obtain ⟨ls', sts', es', h⟩ := State.dropPasteDrive_eq { s with lines := ls, stands := sts, edges := es } n
  exact ⟨_, _, _, h⟩

theorem State.dropPastes_falls {n : Nat} (hp : (s.stand n).paste = true) (hd : (s.stand n).drive = true) :
    [⟨.paste n, false⟩, ⟨.drive n, false⟩].Sublist s.dropPastes.edges := by
  have listed : n ∈ s.stands.keys := Classical.not_not.mp fun hout => by
    rw [show s.stand n = Stand.cold from Tbl.get_unlisted _ hout] at hp
    cases hp
  obtain ⟨before, after, hbefore, split⟩ := s.each_first (f := fun st s => s.dropPasteDrive st) listed
  have same : (s.each before fun st s => s.dropPasteDrive st).stand n = s.stand n :=
    Law.each_other (fun s => s.stand n) _ before
      (fun m hm u => (u.dropPasteDrive_stand m n).trans (if_neg fun heq => hbefore (by rwa [heq]))) s
  rw [State.dropPastes, split]
  exact (State.paste_falls_first (same ▸ hp) (same ▸ hd)).trans
    (State.each_edges_prefix _ (fun n u => u.dropPasteDrive_edges_prefix n) _).sublist

/-- What the cleared state of a start keeps, and what it holds. -/
theorem State.startCleared_eq : ∃ bs ls sts vs gs ss es, s.startCleared = { s with
      bays := bs, lines := ls, stands := sts, vehicles := vs, segments := gs, stations := ss, edges := es, timeBase := 0, subMs := 0,
      micros := 0, halted := false, cycle := [], further := none, exchange := none, receiver := .hunting, pendingBroadcast := none,
      port := .cold, attn := [], shifted := [], lineOut := [], passDue := false } ∧
    (∀ b, s.startCleared.bay b = (s.bay b).started) ∧
    (∀ l, s.startCleared.line l = (s.line l).started) ∧
    (∀ n, s.startCleared.stand n = { s.stand n with paste := false, drive := false }.started) ∧
    (∀ v, s.startCleared.vehicle v = (s.vehicle v).started) ∧ (∀ g, s.startCleared.segment g = (s.segment g).started) ∧
    (∀ a, s.startCleared.station a = (s.station a).map Station.started) ∧ s.startCleared.edges = s.fresh.dropPastes.edges := by
  obtain ⟨ls, sts, es, drop⟩ := s.fresh.dropPastes_eq
  obtain ⟨ls', sts', vs, gs, ss, clear, line, stand, vehicle, segment, station⟩ := s.fresh.dropPastes.mainCleared_eq
  obtain ⟨bs, bays, bay⟩ := s.fresh.dropPastes.mainCleared.each_modBay Bay.started (fun _ => rfl) rfl
  have whole : s.startCleared = { s.fresh.dropPastes.mainCleared with bays := bs } := bays
  refine ⟨bs, ls', sts', vs, gs, ss, s.fresh.dropPastes.edges, ?_, fun b => ?_, fun l => ?_, fun n => ?_, fun v => ?_, fun g => ?_,
      fun a => ?_, ?_⟩
  · rw [whole, clear, drop]; rfl
  · rw [whole]
    refine (bay b).trans ?_
    rw [clear, drop]; rfl
  · rw [whole]
    exact (State.mainCleared_line _ l).trans (congrArg Line.started (s.fresh.dropPastes_line l))
  · rw [whole]
    exact (State.mainCleared_stand _ n).trans (congrArg Stand.started (s.fresh.dropPastes_stand n))
  · rw [whole]
    refine (State.mainCleared_vehicle _ v).trans ?_
    rw [drop]; rfl
  · rw [whole]
    refine (State.mainCleared_segment _ g).trans ?_
    rw [drop]; rfl
  · rw [whole]
    refine (State.mainCleared_station _ a).trans ?_
    rw [drop]; rfl
  · rw [whole, clear]

end
/-! ## What the orders' steps of a start keep -/

/-- An order that is to start is as it was, or an ASSIGNED or LOADING one is PENDING without a vehicle (R139). -/
def Order.startsAs (o q : Order) : Prop := q.kind = o.kind ∧ q.cls = o.cls ∧ q.roll = o.roll ∧ q.seq = o.seq ∧ q.abort = o.abort ∧
  ((q.state = o.state ∧ q.vehicle = o.vehicle) ∨ ((o.state = .assigned ∨ o.state = .loading) ∧ q.state = .pending ∧ q.vehicle = none))

theorem Order.startsAs_refl (o : Order) : o.startsAs o := ⟨rfl, rfl, rfl, rfl, rfl, .inl ⟨rfl, rfl⟩⟩

theorem Order.startsAs_trans {o p q : Order} (h : o.startsAs p) (g : p.startsAs q) : o.startsAs q := by
  obtain ⟨hk, hc, hr, hs, ha, hstate⟩ := h
  obtain ⟨gk, gc, gr, gs, ga, gstate⟩ := g
  refine ⟨gk.trans hk, gc.trans hc, gr.trans hr, gs.trans hs, ga.trans ha, ?_⟩
  rcases hstate with ⟨hp, hv⟩ | ⟨hwas, hp, hv⟩
  · rwa [hp, hv] at gstate
  · rcases gstate with ⟨gp, gv⟩ | ⟨gwas, _⟩
    · exact .inr ⟨hwas, gp.trans hp, gv.trans hv⟩
    · rw [hp] at gwas
      rcases gwas with gwas | gwas <;> cases gwas

/-- What a step on the orders keeps at a start. -/
structure StartStep (s t : State) : Prop where
  writes : Wr 0 s t
  edges : t.edges = s.edges
  stations : t.stations = s.stations
  bare : ∀ n, Law.standBare n t = Law.standBare n s
  vehicle : ∀ v, (t.vehicle v).state = (s.vehicle v).state ∧ (t.vehicle v).load = (s.vehicle v).load ∧
    (t.vehicle v).held = (s.vehicle v).held
  order : ∀ n o, s.order n = some o → o.abort = false → ∃ q, t.order n = some q ∧ o.startsAs q

theorem StartStep.refl (s : State) : StartStep s s :=
  ⟨.refl, rfl, rfl, fun _ => rfl, fun _ => ⟨rfl, rfl, rfl⟩, fun _ o h _ => ⟨o, h, o.startsAs_refl⟩⟩

theorem StartStep.trans {s t u : State} (h : StartStep s t) (g : StartStep t u) : StartStep s u where
  writes := h.writes.trans g.writes
  edges := g.edges.trans h.edges
  stations := g.stations.trans h.stations
  bare n := (g.bare n).trans (h.bare n)
  vehicle v := by
    obtain ⟨hs, hl, hh⟩ := h.vehicle v
    obtain ⟨gs, gl, gh⟩ := g.vehicle v
    exact ⟨gs.trans hs, gl.trans hl, gh.trans hh⟩
  order n o ho ha := by
    obtain ⟨p, hp, hop⟩ := h.order n o ho ha
    obtain ⟨q, hq, hpq⟩ := g.order n p hp (hop.2.2.2.2.1.trans ha)
    exact ⟨q, hq, Order.startsAs_trans hop hpq⟩

theorem StartStep.each {f : Nat → State → State} (hf : ∀ n s, StartStep s (f n s)) (ns : List Nat) (s : State) :
    StartStep s (s.each ns f) :=
  State.each_keeps (P := fun u => StartStep s u) (fun n u h => h.trans (hf n u)) ns (StartStep.refl s)

section
variable (s : State)

theorem State.evalCallOff_edges (st : Nat) : (s.evalCallOff st).edges = s.edges := by
  unfold State.evalCallOff
  split
  · rfl
  · dsimp only
    split
    · next h =>
      unfold State.createOrder at h
      split at h
      · cases h; rfl
      · cases h
    · rfl

theorem StartStep.evalCallOff (st : Nat) : StartStep s (s.evalCallOff st) where
  writes := State.wr_evalCallOff .refl st
  edges := s.evalCallOff_edges st
  stations := s.evalCallOff_stations st
  bare := BareStand.evalCallOff s st
  vehicle v := by
    unfold State.vehicle
    rw [s.evalCallOff_vehicles]
    exact ⟨rfl, rfl, rfl⟩
  order _ o ho _ := ⟨o, State.evalCallOff_order_live ho, o.startsAs_refl⟩

theorem StartStep.reviewCallOff (o : Order) : StartStep s (s.reviewCallOff o) := by
  unfold State.reviewCallOff
  split
  · exact StartStep.evalCallOff s _
  · exact StartStep.refl s

theorem StartStep.modOrder (n : Nat) (f : Order → Order) (hseq : ∀ o, (f o).seq = o.seq)
    (hf : ∀ o, s.order n = some o → o.abort = false → o.startsAs (f o)) : StartStep s (s.modOrder n f) where
  writes := State.wr_modOrder .refl n f hseq
  edges := by simp
  stations := by simp
  bare := BareStand.stands (by simp)
  vehicle v := by simp [State.vehicle]
  order m o ho ha := by
    rw [Law.order_mod]
    by_cases hm : m = n
    · subst hm
      rw [if_pos rfl, ho]
      exact ⟨f o, rfl, hf o ho ha⟩
    · rw [if_neg hm]
      exact ⟨o, ho, o.startsAs_refl⟩

theorem StartStep.modRoll (n : Nat) (f : Roll → Roll) (hf : ∀ r, Roll.same 0 r (f r)) : StartStep s (s.modRoll n f) where
  writes := State.wr_modRoll .refl n f hf
  edges := by simp
  stations := by simp
  bare := BareStand.stands (by simp)
  vehicle v := by simp [State.vehicle]
  order m o ho _ := ⟨o, by simpa [State.order] using ho, o.startsAs_refl⟩

theorem StartStep.notice : StartStep s s.notice where
  writes := State.wr_notice .refl
  edges := rfl
  stations := rfl
  bare _ := rfl
  vehicle _ := ⟨rfl, rfl, rfl⟩
  order _ o ho _ := ⟨o, ho, o.startsAs_refl⟩

theorem StartStep.withdrawBay (n : Nat) (o : Order) : StartStep s (s.withdrawBay n o) := by
  unfold State.withdrawBay
  split
  · exact (StartStep.modOrder s n ({ · with dest := none }) (fun _ => rfl) fun _ _ _ =>
      ⟨rfl, rfl, rfl, rfl, rfl, .inl ⟨rfl, rfl⟩⟩).trans (StartStep.notice _)
  · exact StartStep.refl s

theorem StartStep.freeVehicle (n : Nat) (o : Order) : StartStep s (s.freeVehicle n o) := by
  unfold State.freeVehicle
  split
  · next w _ =>
    split
    · refine ⟨State.wr_unlinkVehicle .refl w, rfl, rfl, fun _ => rfl, fun v => ?_, fun _ o ho _ => ⟨o, ho, o.startsAs_refl⟩⟩
      rw [State.unlinkVehicle, Law.vehicle_mod]
      split
      · next h => subst h; exact ⟨rfl, rfl, rfl⟩
      · exact ⟨rfl, rfl, rfl⟩
    · exact StartStep.refl s
  · exact StartStep.refl s

theorem StartStep.clearLink (n : Nat) (o : Order) : StartStep s (s.clearLink n o) where
  writes := State.wr_clearLink .refl n o
  edges := by unfold State.clearLink State.setCallOff; repeat' split
              all_goals rfl
  stations := (OrderLaw.clear_rest s n o).2.1
  bare := BareStand.clearLink s n o
  vehicle v := by
    unfold State.vehicle
    rw [(OrderLaw.clear_rest s n o).2.2.1]
    exact ⟨rfl, rfl, rfl⟩
  order m p hp _ := ⟨p, by rw [State.order, OrdersAfter.clearLink]; exact hp, p.startsAs_refl⟩

/-- A marked order frees its roll. -/
theorem StartStep.dropRoll (n : Nat) (o : Order) (hmarked : ∀ p, s.order n = some p → p.abort = true) : StartStep s (s.dropRoll n o) := by
  have unlinked (u : State) (hu : u.orders = s.orders) (f : Order → Order) (hseq : ∀ o, (f o).seq = o.seq) :
      StartStep u (u.modOrder n f) := StartStep.modOrder u n f hseq fun p hp ha => by
    rw [State.order, hu] at hp
    rw [hmarked p hp] at ha
    cases ha
  unfold State.dropRoll
  split
  · exact StartStep.refl s
  · next r _ =>
    split
    · split
      · exact ((StartStep.modRoll s r ({ · with state := .stored, order := none }) fun _ => ⟨rfl, rfl, rfl, rfl, fun _ =>
          ⟨rfl, rfl, rfl⟩⟩).trans (unlinked _ (State.modRoll_orders ..) ({ · with roll := none }) fun _ => rfl)).trans (StartStep.notice _)
      · exact (StartStep.modRoll s r ({ · with order := none }) fun _ => ⟨rfl, rfl, rfl, rfl, fun _ => ⟨rfl, rfl, rfl⟩⟩).trans
          (unlinked _ (State.modRoll_orders ..) ({ · with roll := none }) fun _ => rfl)
    · exact StartStep.refl s

theorem StartStep.putOrder_none (n : Nat) (hmarked : ∀ p, s.order n = some p → p.abort = true) : StartStep s (s.putOrder n none) where
  writes := .freeOrder .refl n
  edges := rfl
  stations := rfl
  bare _ := rfl
  vehicle _ := ⟨rfl, rfl, rfl⟩
  order m o ho ha := by
    have hm : m ≠ n := fun hm => by
      rw [hmarked o (hm ▸ ho)] at ha
      cases ha
    exact ⟨o, by rw [Law.order_put, if_neg hm]; exact ho, o.startsAs_refl⟩

/-- A marked order is freed at a start. -/
theorem StartStep.freeOrder {n : Nat} {o : Order} (ho : s.order n = some o) (hmark : o.abort = true) : StartStep s (s.freeOrder n) := by
  obtain ⟨p, hp, hpo, _⟩ := OrderLaw.drop_order s n o ho
  obtain ⟨q, hq, hqp, _⟩ := OrderLaw.with_order (s.dropRoll n o) n o p hp
  have marked : ∀ x, ((((s.dropRoll n o).withdrawBay n o).clearLink n o).freeVehicle n o).order n = some x → x.abort = true := by
    intro x hx
    rw [State.order, OrdersAfter.freeVehicle, OrdersAfter.clearLink] at hx
    obtain rfl : q = x := Option.some.inj (hq.symm.trans hx)
    rw [hqp, hpo]
    exact hmark
  rw [State.freeOrder_live ho]
  exact (((((StartStep.dropRoll s n o fun x hx => by rw [← Option.some.inj (ho.symm.trans hx)]; exact hmark).trans
    (StartStep.withdrawBay _ n o)).trans (StartStep.clearLink _ n o)).trans (StartStep.freeVehicle _ n o)).trans
    (StartStep.putOrder_none _ n marked)).trans (StartStep.reviewCallOff _ o)

variable {s} in
theorem State.returnToPending_keep {n : Nat} {o : Order} (ho : s.order n = some o) : s.returnToPending n true =
    (((s.freeVehicle n o).withdrawBay n o).modOrder n ({ · with state := .pending, vehicle := none })).notice := by
  rw [State.returnToPending, ho]
  rfl

/-- An ASSIGNED or LOADING order returns to PENDING at a start, its reservation kept. -/
theorem State.returnToPending_order {n : Nat} {o : Order} (ho : s.order n = some o) :
    ∃ d, (s.returnToPending n true).order n = some { o with dest := d, state := .pending, vehicle := none } := by
  obtain ⟨q, hq, hqo, _⟩ := OrderLaw.with_order (s.freeVehicle n o) n o o (by rw [State.order, OrdersAfter.freeVehicle]; exact ho)
  refine ⟨q.dest, ?_⟩
  rw [State.returnToPending_keep ho]
  refine (Law.order_mod _ n n _).trans ?_
  rw [if_pos rfl, hq, Option.map_some, hqo]

theorem StartStep.returnToPending {n : Nat} {o : Order} (ho : s.order n = some o) (hstate : o.state = .assigned ∨ o.state = .loading) :
    StartStep s (s.returnToPending n true) := by
  obtain ⟨q, hq, hqo, _⟩ := OrderLaw.with_order (s.freeVehicle n o) n o o (by rw [State.order, OrdersAfter.freeVehicle]; exact ho)
  rw [State.returnToPending_keep ho]
  refine (((StartStep.freeVehicle s n o).trans (StartStep.withdrawBay _ n o)).trans
    (StartStep.modOrder _ n ({ · with state := .pending, vehicle := none }) (fun _ => rfl) fun p hp _ => ?_)).trans (StartStep.notice _)
  obtain rfl : q = p := Option.some.inj (hq.symm.trans hp)
  refine ⟨rfl, rfl, rfl, rfl, rfl, .inr ⟨?_, rfl, rfl⟩⟩
  rw [hqo]
  exact hstate

theorem StartStep.orderAtStart (n : Nat) : StartStep s (s.orderAtStart n) := by
  unfold State.orderAtStart
  split
  · exact StartStep.refl s
  · next o ho =>
    split
    · next hmark => exact StartStep.freeOrder s ho hmark
    · split
      · next hstate => exact StartStep.returnToPending s ho (.inl hstate)
      · next hstate => exact StartStep.returnToPending s ho (.inr hstate)
      all_goals exact StartStep.refl s

theorem StartStep.deadlineAtStart (n : Nat) : StartStep s (s.deadlineAtStart n) := by
  have dated (f : Order → Option Nat) : StartStep s (s.modOrder n fun x => { x with deadline := f x }) :=
    StartStep.modOrder s n _ (fun _ => rfl) fun _ _ _ => ⟨rfl, rfl, rfl, rfl, rfl, .inl ⟨rfl, rfl⟩⟩
  unfold State.deadlineAtStart
  split
  · exact StartStep.refl s
  · split
    · split
      · split
        · exact dated fun x => x.deadline.map fun _ => s.now
        · exact dated fun _ => _
      · exact dated fun x => x.deadline.map fun _ => s.now
    · exact StartStep.refl s

/-- The orders' part of a start settles every order that is not marked. -/
theorem State.orderAtStart_settles {n : Nat} {o : Order} (ho : s.order n = some o) (ha : o.abort = false) :
    ∃ q, (s.orderAtStart n).order n = some q ∧ q.abort = false ∧ q.state ≠ .assigned ∧ q.state ≠ .loading := by
  have back (hstate : o.state = .assigned ∨ o.state = .loading) : s.orderAtStart n = s.returnToPending n true := by
    rw [State.orderAtStart, ho]
    dsimp only
    rw [if_neg (by rw [ha]; decide)]
    rcases hstate with h | h <;> rw [h]
  by_cases hstate : o.state = .assigned ∨ o.state = .loading
  · obtain ⟨d, hq⟩ := s.returnToPending_order ho
    rw [back hstate]
    exact ⟨_, hq, ha, nofun, nofun⟩
  · rw [not_or] at hstate
    obtain ⟨q, hq, _, _, _, _, hqa, hqs⟩ := (StartStep.orderAtStart s n).order n o ho ha
    refine ⟨q, hq, hqa.trans ha, ?_⟩
    rcases hqs with ⟨hqs, _⟩ | ⟨hwas, _⟩
    · rw [hqs]
      exact hstate
    · exact absurd hwas (not_or.mpr hstate)

theorem StartStep.startOrders : StartStep s s.startOrders := StartStep.each (fun n u => StartStep.orderAtStart u n) _ s

theorem StartStep.startDeadlines : StartStep s s.startDeadlines :=
  (StartStep.each (fun n u => StartStep.deadlineAtStart u n) _ s).trans (StartStep.each (fun n u => StartStep.evalCallOff u n) _ _)

theorem State.startOrders_settles {n : Nat} {o : Order} (ho : s.order n = some o) (ha : o.abort = false) :
    ∃ q, s.startOrders.order n = some q ∧ o.startsAs q ∧ q.state ≠ .assigned ∧ q.state ≠ .loading := by
  have listed : n ∈ s.orders.keys := List.mem_map.mpr ⟨(n, o), Tbl.mem_of_find ho, rfl⟩
  obtain ⟨before, after, _, split⟩ := s.each_first (f := fun n s => s.orderAtStart n) listed
  have first := StartStep.each (fun n u => StartStep.orderAtStart u n) before s
  obtain ⟨p, hp, hop⟩ := first.order n o ho ha
  have hpa : p.abort = false := hop.2.2.2.2.1.trans ha
  obtain ⟨q, hq, hqa, hq1, hq2⟩ := State.orderAtStart_settles _ hp hpa
  obtain ⟨q', hq', hpq⟩ := (StartStep.orderAtStart _ n).order n p hp hpa
  obtain rfl : q' = q := Option.some.inj (hq'.symm.trans hq)
  obtain ⟨r, hr, hqr⟩ := (StartStep.each (fun n u => StartStep.orderAtStart u n) after _).order n q' hq hqa
  refine ⟨r, by rw [State.startOrders, split]; exact hr, Order.startsAs_trans (Order.startsAs_trans hop hpq) hqr, ?_⟩
  obtain ⟨_, _, _, _, _, ⟨hs, _⟩ | ⟨hwas, _⟩⟩ := hqr
  · rw [hs]
    exact ⟨hq1, hq2⟩
  · rcases hwas with hwas | hwas
    · exact absurd hwas hq1
    · exact absurd hwas hq2

end

/-! ## Stands and lines at a start -/

/-- A stand but for its call-off links, its measured diameter and its BRAKE. -/
def Stand.core (x : Stand) : Stand := { Law.withoutCallOffs x with df := none, brake := false }

/-- The sequence of a stand at a start. -/
def Stand.sequenced (x : Stand) : Stand := if x.active.isSome then { x with seq := .running } else x

theorem Stand.sequenced_twice (x : Stand) : x.sequenced.sequenced = x.sequenced := by
  unfold Stand.sequenced
  by_cases h : x.active.isSome = true
  · rw [if_pos h, if_pos (show ({ x with seq := .running } : Stand).active.isSome = true from h)]
  · rw [if_neg h, if_neg h]

theorem Stand.core_active (x : Stand) : x.core.active = x.active := rfl

section
variable (s : State)

theorem State.standAtStart_core (st n : Nat) :
    ((s.standAtStart st).stand n).core = if n = st then (s.stand n).core.sequenced else (s.stand n).core := by
  unfold State.standAtStart
  by_cases h : (s.stand st).active.isSome = true
  · rw [if_pos h, Law.stand_mod]
    split
    · next hn => 
      subst hn
      rw [Stand.sequenced, if_pos (show (s.stand n).core.active.isSome = true from h)]
      rfl
    · rfl
  · rw [if_neg h]
    split
    · next hn =>
      subst hn
      rw [Stand.sequenced, if_neg (show ¬ (s.stand n).core.active.isSome = true from h)]
    · rfl

theorem State.lineAtStart_stand (l n : Nat) : (s.lineAtStart l).stand n = s.stand n := by
  refine (State.drivePin_stand _ (.stop l) _ n).trans ?_
  show State.stand (if _ then _ else _) n = _
  split <;> rfl

theorem State.brakeAtStart_core (st n : Nat) : ((s.brakeAtStart st).stand n).core = (s.stand n).core := by
  rw [State.brakeAtStart, State.drivePin_stand]
  dsimp only [Stand.driven]
  split <;> rfl

theorem State.startBlocks_core (n : Nat) (h1 : 1 ≤ n) (h16 : n ≤ 16) : (s.startBlocks.stand n).core = (s.stand n).core.sequenced := by
  rw [State.startBlocks, RollsAfter.each (fun s => (s.stand n).core) _ (fun st u => u.brakeAtStart_core st n),
    RollsAfter.each (fun s => (s.stand n).core) _ (fun l u => congrArg Stand.core (u.lineAtStart_stand l n)),
    State.each_reads (g := fun s n => (s.stand n).core) (fun s st n => s.standAtStart_core st n) Stand.sequenced_twice,
    if_pos ((Law.mem_span 1 16 n).mpr ⟨h1, h16⟩)]

/-- A line at a start, as it has a live job or not. -/
def Line.broken (x : Line) (live : Bool) : Line :=
  if live then { x with counting := .brk, inBreak := true, cause := some .warmStart, stop := true } else { x with stop := false }

theorem State.lineAtStart_line (l m : Nat) :
    (s.lineAtStart l).line m = if m = l then (s.line m).broken (s.liveJob l).isSome else s.line m := by
  refine (State.drivePin_line _ (.stop l) _ m).trans ?_
  cases hlive : (s.liveJob l).isSome with
  | true =>
    rw [if_pos rfl, Law.line_mod]
    dsimp only [Line.driven]
    split
    · next hm => subst hm; rfl
    · rfl
  | false =>
    dsimp only [Line.driven]
    split
    · next hm => subst hm; rfl
    · rfl

theorem State.lineAtStart_eq (l : Nat) : ∃ ls sts es, s.lineAtStart l = { s with lines := ls, stands := sts, edges := es } := by
  unfold State.lineAtStart
  dsimp only
  split
  · obtain ⟨ls, sts, es, h⟩ := State.drivePin_eq (s.modLine l ({ · with counting := .brk, inBreak := true, cause := some .warmStart }))
      (.stop l) (s.liveJob l).isSome
    exact ⟨ls, sts, es, h⟩
  · exact State.drivePin_eq ..

theorem State.standAtStart_eq (st : Nat) : ∃ sts, s.standAtStart st = { s with stands := sts } := by
  unfold State.standAtStart
  split <;> exact ⟨_, rfl⟩

theorem State.startBlocks_eq : ∃ ls sts es, s.startBlocks = { s with lines := ls, stands := sts, edges := es } := by
  refine State.each_keeps (P := fun u => ∃ ls sts es, u = { s with lines := ls, stands := sts, edges := es }) ?_ _
    (State.each_keeps (P := fun u => ∃ ls sts es, u = { s with lines := ls, stands := sts, edges := es }) ?_ _
      (State.each_keeps (P := fun u => ∃ ls sts es, u = { s with lines := ls, stands := sts, edges := es }) ?_ _ ⟨_, _, _, rfl⟩))
  · rintro n _ ⟨ls, sts, es, rfl⟩
    obtain ⟨_, _, _, h⟩ := State.drivePin_eq { s with lines := ls, stands := sts, edges := es } (.brake n) _
    exact ⟨_, _, _, h⟩
  · rintro l _ ⟨ls, sts, es, rfl⟩
    obtain ⟨_, _, _, h⟩ := State.lineAtStart_eq { s with lines := ls, stands := sts, edges := es } l
    exact ⟨_, _, _, h⟩
  · rintro n _ ⟨ls, sts, es, rfl⟩
    obtain ⟨_, h⟩ := State.standAtStart_eq { s with lines := ls, stands := sts, edges := es } n
    exact ⟨_, _, _, h⟩

theorem State.lineAtStart_edges_prefix (l : Nat) : s.edges <+: (s.lineAtStart l).edges := by
  unfold State.lineAtStart
  dsimp only
  split
  · exact State.drivePin_edges_prefix (s.modLine l ({ · with counting := .brk, inBreak := true, cause := some .warmStart })) (.stop l) _
  · exact State.drivePin_edges_prefix s (.stop l) _

theorem State.brakeAtStart_edges_prefix (st : Nat) : s.edges <+: (s.brakeAtStart st).edges := s.drivePin_edges_prefix (.brake st) _

theorem State.startBlocks_edges_prefix : s.edges <+: s.startBlocks.edges := by
  have stands : (s.each (span 1 Config.stands) fun st s => s.standAtStart st).edges = s.edges :=
    RollsAfter.each State.edges _ (fun n u => by obtain ⟨_, h⟩ := u.standAtStart_eq n; rw [h]) _ s
  rw [← stands]
  exact (State.each_edges_prefix _ (fun l u => u.lineAtStart_edges_prefix l) _).trans
    (State.each_edges_prefix _ (fun n u => u.brakeAtStart_edges_prefix n) _)

theorem State.brakeAtStart_line (st l : Nat) : (s.brakeAtStart st).line l = s.line l := s.drivePin_line (.brake st) _ l

theorem State.startBlocks_line (l : Nat) (h1 : 1 ≤ l) (h4 : l ≤ 4) : s.startBlocks.line l = (s.line l).broken (s.liveJob l).isSome := by
  have stands (u : State) := RollsAfter.each (fun s => s.line l) (fun st s => State.standAtStart s st)
    (fun n u => by obtain ⟨_, h⟩ := u.standAtStart_eq n; rw [h]; rfl) (span 1 Config.stands) u
  have jobs : (s.each (span 1 Config.stands) fun st s => s.standAtStart st).jobs = s.jobs :=
    RollsAfter.each State.jobs _ (fun n u => by obtain ⟨_, h⟩ := u.standAtStart_eq n; rw [h]) _ s
  rw [State.startBlocks, RollsAfter.each (fun s => s.line l) _ (fun st u => u.brakeAtStart_line st l),
    State.each_reads_where (g := State.line) (P := fun u => u.jobs = s.jobs) (k := fun m x => x.broken (s.liveJob m).isSome)
      (fun u n m hu => ?_) (fun n u hu => ?_) (fun m x => ?_) _ jobs, if_pos ((Law.mem_span 1 4 l).mpr ⟨h1, h4⟩), stands]
  · rw [State.lineAtStart_line]
    split
    · next hm => subst hm; rw [State.liveJob, hu]; rfl
    · rfl
  · obtain ⟨_, _, _, h⟩ := u.lineAtStart_eq n
    rw [h]
    exact hu
  · cases (s.liveJob m).isSome <;> rfl

end

/-! ## A line's live job -/

/-- A line has a live job. -/
def State.hasLiveJob (s : State) (l : Nat) : Prop := ∃ n j, s.jobs.find n = some j ∧ j.state = .live ∧ j.line = l

section
variable {s : State} {l : Nat}

theorem State.liveJob_of_hasLiveJob (h : s.hasLiveJob l) : (s.liveJob l).isSome = true := by
  obtain ⟨n, j, hj, hstate, hline⟩ := h
  cases hfirst : s.liveJob l with
  | some m => rfl
  | none =>
    have none := (Tbl.first_none.mp hfirst) n j (Tbl.mem_of_find hj)
    simp [hstate, hline] at none

theorem State.liveJob_none_of (hrise : s.jobs.rising = true) (h : ¬ s.hasLiveJob l) : (s.liveJob l).isSome = false := by
  cases hfirst : s.liveJob l with
  | none => rfl
  | some m =>
    obtain ⟨j, hj, hlive⟩ := Tbl.first_some hfirst
    simp only [Bool.and_eq_true, beq_iff_eq] at hlive
    exact absurd ⟨m, j, Law.find_rising hrise hj, hlive⟩ h

end

/-! ## A warm start, clause by clause -/

theorem Kept.trans {s t u : State} (h : Kept s t) (g : Kept t u) : Kept s u :=
  ⟨g.powered.trans h.powered, g.timeBase.trans h.timeBase, g.subMs.trans h.subMs, g.micros.trans h.micros, g.arrival.trans h.arrival,
    g.grades.trans h.grades, g.nodes.trans h.nodes, g.routes.trans h.routes, g.progressTimeout.trans h.progressTimeout,
    g.transferTimeout.trans h.transferTimeout, g.urgentMargin.trans h.urgentMargin, g.halted.trans h.halted, g.rate.trans h.rate,
    g.replyWindow.trans h.replyWindow, g.cycle.trans h.cycle, g.further.trans h.further, g.exchange.trans h.exchange,
    g.receiver.trans h.receiver, g.pendingBroadcast.trans h.pendingBroadcast, g.port.trans h.port, g.startKind.trans h.startKind,
    g.startCause.trans h.startCause, g.standby.trans h.standby, g.shifted.trans h.shifted, g.lineOut.trans h.lineOut,
    g.pending.trans h.pending⟩

section
variable (s : State)

/-- What every stage after the first keeps. -/
theorem State.restarted_kept : Kept s.startCleared s.restarted := by
  have orders := (StartStep.startOrders s.startCleared).writes.kept (by decide)
  have deadlines := (StartStep.startDeadlines s.startCleared.startOrders.startBlocks).writes.kept (by decide)
  obtain ⟨_, _, _, blocks⟩ := s.startCleared.startOrders.startBlocks_eq
  have written : Kept s.startCleared.startOrders s.startCleared.startOrders.startBlocks := by
    rw [blocks]
    constructor <;> rfl
  exact (orders.trans written).trans deadlines

theorem State.restarted_tables : s.restarted.jobs = s.jobs ∧ s.restarted.bays = s.startCleared.bays ∧
    s.restarted.segments = s.startCleared.segments ∧ s.restarted.stations = s.startCleared.stations := by
  have orders := StartStep.startOrders s.startCleared
  have deadlines := StartStep.startDeadlines s.startCleared.startOrders.startBlocks
  obtain ⟨ls, sts, es, blocks⟩ := s.startCleared.startOrders.startBlocks_eq
  obtain ⟨_, _, _, _, _, _, _, clear, _⟩ := s.startCleared_eq
  have jobs : s.startCleared.jobs = s.jobs := by rw [clear]
  refine ⟨?_, ?_, ?_, ?_⟩
  · rw [State.restarted, (deadlines.writes.kept_lines (by decide)).2, blocks, ← jobs]
    exact (orders.writes.kept_lines (by decide)).2
  · rw [State.restarted, (deadlines.writes.kept_bays (by decide)).1, blocks]
    exact (orders.writes.kept_bays (by decide)).1
  · rw [State.restarted, (deadlines.writes.kept_bays (by decide)).2, blocks]
    exact (orders.writes.kept_bays (by decide)).2
  · rw [State.restarted, deadlines.stations, blocks]
    exact orders.stations

theorem State.restarted_edges_prefix : s.fresh.dropPastes.edges <+: s.restarted.edges := by
  obtain ⟨_, _, _, _, _, _, _, _, _, _, _, _, _, _, edges⟩ := s.startCleared_eq
  rw [← edges, State.restarted, (StartStep.startDeadlines _).edges, ← (StartStep.startOrders s.startCleared).edges]
  exact s.startCleared.startOrders.startBlocks_edges_prefix

theorem State.restarted_vehicle (v : Nat) : (s.restarted.vehicle v).state = .outOfService ∧
    (s.restarted.vehicle v).load = (s.vehicle v).load ∧
    (s.restarted.vehicle v).held = [] := by
  obtain ⟨_, _, _, _, _, _, _, _, _, _, _, vehicle, _⟩ := s.startCleared_eq
  obtain ⟨_, _, _, blocks⟩ := s.startCleared.startOrders.startBlocks_eq
  obtain ⟨hs, hl, hh⟩ := (StartStep.startOrders s.startCleared).vehicle v
  obtain ⟨gs, gl, gh⟩ := (StartStep.startDeadlines s.startCleared.startOrders.startBlocks).vehicle v
  rw [blocks] at gs gl gh
  rw [vehicle v] at hs hl hh
  exact ⟨by rw [State.restarted, blocks]; exact gs.trans hs, by rw [State.restarted, blocks]; exact gl.trans hl,
    by rw [State.restarted, blocks]; exact gh.trans hh⟩

/-- The first stage keeps rolls, orders and jobs. -/
theorem State.startCleared_records : s.startCleared.rolls = s.rolls ∧ s.startCleared.orders = s.orders ∧ s.startCleared.jobs = s.jobs := by
  obtain ⟨_, _, _, _, _, _, _, clear, _⟩ := s.startCleared_eq
  rw [clear]
  exact ⟨rfl, rfl, rfl⟩

theorem State.restarted_roll {n : Nat} {r : Roll} (hr : s.roll n = some r) : ∃ q, s.restarted.roll n = some q ∧
    q.tag = r.tag ∧ q.arrival = r.arrival ∧ q.grade = r.grade ∧ q.width = r.width ∧ q.diameter = r.diameter ∧ q.consumed = r.consumed := by
  obtain ⟨_, _, _, blocks⟩ := s.startCleared.startOrders.startBlocks_eq
  obtain ⟨p, hp, pt, pa, pg, pw, prest⟩ := (StartStep.startOrders s.startCleared).writes.kept_roll (by decide) n r
    (by rw [State.roll, s.startCleared_records.1]; exact hr)
  obtain ⟨q, hq, qt, qa, qg, qw, qrest⟩ :=
      (StartStep.startDeadlines s.startCleared.startOrders.startBlocks).writes.kept_roll (by decide) n p
    (by rw [blocks]; exact hp)
  obtain ⟨pd, pc, _⟩ := prest (by decide)
  obtain ⟨qd, qc, _⟩ := qrest (by decide)
  exact ⟨q, hq, qt.trans pt, qa.trans pa, qg.trans pg, qw.trans pw, qd.trans pd, qc.trans pc⟩

theorem State.restarted_noRoll {n : Nat} (hr : s.roll n = none) : s.restarted.roll n = none := by
  obtain ⟨_, _, _, blocks⟩ := s.startCleared.startOrders.startBlocks_eq
  have orders := (StartStep.startOrders s.startCleared).writes.kept_free (by decide) n
    (by rw [State.roll, s.startCleared_records.1]; exact hr)
  exact (StartStep.startDeadlines s.startCleared.startOrders.startBlocks).writes.kept_free (by decide) n (by rw [blocks]; exact orders)

theorem State.restarted_order {n : Nat} {o : Order} (ho : s.order n = some o) (ha : o.abort = false) :
    ∃ q, s.restarted.order n = some q ∧ o.startsAs q ∧ q.state ≠ .assigned ∧ q.state ≠ .loading := by
  obtain ⟨_, _, _, blocks⟩ := s.startCleared.startOrders.startBlocks_eq
  obtain ⟨p, hp, hop, hp1, hp2⟩ := s.startCleared.startOrders_settles (by rw [State.order, s.startCleared_records.2.1]; exact ho) ha
  obtain ⟨q, hq, hpq⟩ := (StartStep.startDeadlines s.startCleared.startOrders.startBlocks).order n p (by rw [blocks]; exact hp)
    (hop.2.2.2.2.1.trans ha)
  refine ⟨q, hq, Order.startsAs_trans hop hpq, ?_⟩
  obtain ⟨_, _, _, _, _, ⟨hs, _⟩ | ⟨hwas | hwas, _⟩⟩ := hpq
  · rw [hs]
    exact ⟨hp1, hp2⟩
  · exact absurd hwas hp1
  · exact absurd hwas hp2

theorem Stand.core_of_bare {x y : Stand} (h : Law.withoutCallOffs x = Law.withoutCallOffs y) : x.core = y.core := by
  rw [Stand.core, h, Stand.core]

theorem State.restarted_stand {n : Nat} (h1 : 1 ≤ n) (h16 : n ≤ 16) :
    (s.restarted.stand n).core = ({ s.stand n with paste := false, drive := false } : Stand).started.core.sequenced := by
  obtain ⟨_, _, _, _, _, _, _, _, _, _, stand, _⟩ := s.startCleared_eq
  rw [State.restarted, Stand.core_of_bare ((StartStep.startDeadlines _).bare n), State.startBlocks_core _ n h1 h16,
    Stand.core_of_bare ((StartStep.startOrders _).bare n), stand]

theorem State.restarted_line {l : Nat} (h1 : 1 ≤ l) (h4 : l ≤ 4) :
    s.restarted.line l = (s.line l).started.broken (s.liveJob l).isSome := by
  obtain ⟨_, _, _, _, _, _, _, _, _, line, _⟩ := s.startCleared_eq
  have orders := (StartStep.startOrders s.startCleared).writes.kept_lines (by decide)
  have deadlines := (StartStep.startDeadlines s.startCleared.startOrders.startBlocks).writes.kept_lines (by decide)
  rw [State.restarted, State.line, deadlines.1]
  refine (State.startBlocks_line _ l h1 h4).trans ?_
  rw [State.liveJob, orders.2, s.startCleared_records.2.2, State.line, orders.1]
  exact congrArg (Line.broken · _) (line l)

end

theorem Stand.started_clauses {x y : Stand} (h : y.core = ({ x with paste := false, drive := false } : Stand).started.core.sequenced) :
    y.ts = 65535 ∧ y.drive = false ∧ y.paste = false ∧ y.late = false ∧ y.runout = false ∧ y.armA.state = x.armA.state ∧
      y.armA.roll = x.armA.roll ∧ y.armB.state = x.armB.state ∧ y.armB.roll = x.armB.roll ∧
      y.seq = (if x.armA.state = .active ∨ x.armB.state = .active then .running else .idle) := by
  generalize hz : ({ x with paste := false, drive := false } : Stand).started.core = z at h
  have active : z.active.isSome = true ↔ x.armA.state = .active ∨ x.armB.state = .active := by
    rw [← hz]
    show (if x.armA.state = .active then some Arm.A else if x.armB.state = .active then some .B else none).isSome = true ↔ _
    by_cases hA : x.armA.state = .active <;> by_cases hB : x.armB.state = .active <;> simp [hA, hB]
  by_cases hact : z.active.isSome = true
  · rw [Stand.sequenced, if_pos hact, ← hz] at h
    rw [if_pos (active.mp hact)]
    exact ⟨congrArg Stand.ts h, congrArg Stand.drive h, congrArg Stand.paste h, congrArg Stand.late h, congrArg Stand.runout h,
      congrArg (·.armA.state) h, congrArg (·.armA.roll) h, congrArg (·.armB.state) h, congrArg (·.armB.roll) h, congrArg Stand.seq h⟩
  · rw [Stand.sequenced, if_neg hact, ← hz] at h
    rw [if_neg fun hx => hact (active.mpr hx)]
    exact ⟨congrArg Stand.ts h, congrArg Stand.drive h, congrArg Stand.paste h, congrArg Stand.late h, congrArg Stand.runout h,
      congrArg (·.armA.state) h, congrArg (·.armA.roll) h, congrArg (·.armB.state) h, congrArg (·.armB.roll) h, congrArg Stand.seq h⟩

theorem Line.broken_clauses {s : State} {l : Nat} {x y : Line} (h : y = x.started.broken (s.liveJob l).isSome) :
    y.live = x.live ∧ y.working = x.working ∧ y.pending = false ∧ y.v = 0 ∧
      (s.hasLiveJob l → y.counting = .brk ∧ y.inBreak = true ∧ y.cause = some .warmStart ∧ y.stop = true) ∧
      (s.jobs.rising = true → ¬ s.hasLiveJob l → y.counting = .idle ∧ y.inBreak = false ∧ y.stop = false) := by
  cases hlive : (s.liveJob l).isSome with
  | true =>
    rw [hlive] at h
    subst h
    refine ⟨rfl, rfl, rfl, rfl, fun _ => ⟨rfl, rfl, rfl, rfl⟩, fun hrise hnone => ?_⟩
    rw [State.liveJob_none_of hrise hnone] at hlive
    cases hlive
  | false =>
    rw [hlive] at h
    subst h
    refine ⟨rfl, rfl, rfl, rfl, fun hjob => ?_, fun _ _ => ⟨rfl, rfl, rfl⟩⟩
    rw [State.liveJob_of_hasLiveJob hjob] at hlive
    cases hlive

/-! ## The cold start (R179) -/

theorem Tbl.not_mem_of_find_none {α : Type} {t : Tbl α} {n : Nat} (h : t.find n = none) (x : α) : (n, x) ∉ t := by
  induction t with
  | nil => exact List.not_mem_nil
  | cons d t ih =>
    rw [Tbl.find] at h
    split at h
    · cases h
    · next hd =>
      intro hm
      rcases List.mem_cons.mp hm with rfl | hm
      · exact hd rfl
      · exact ih h hm

/-- The records of a rising table that meet a test, each replaced by one value. -/
theorem Tbl.find_replaced {α : Type} {t : Tbl α} (hrise : t.rising = true) (p : α → Bool) (x : α) (n : Nat) :
    Tbl.find (t.filterMap fun e => if p e.2 then some (e.1, x) else none) n = if (t.find n).any p then some x else none := by
  cases hfind : Tbl.find (t.filterMap fun e => if p e.2 then some (e.1, x) else none) n with
  | some y =>
    obtain ⟨e, hmem, he⟩ := List.mem_filterMap.mp (Tbl.mem_of_find hfind)
    split at he
    · next hp =>
      cases he
      rw [Law.find_rising hrise hmem, if_pos (show (some e.2).any p = true from hp)]
    · cases he
  | none =>
    rw [if_neg]
    intro hany
    cases hv : t.find n with
    | none => rw [hv] at hany; cases hany
    | some v =>
      rw [hv] at hany
      refine Tbl.not_mem_of_find_none hfind x (List.mem_filterMap.mpr ⟨(n, v), Tbl.mem_of_find hv, ?_⟩)
      exact if_pos hany

theorem State.coldStart_line {s : State} (hrise : s.lines.rising = true) (l : Nat) :
    s.coldStart.line l = { Line.cold with jam := (s.line l).jam } := by
  have read := Tbl.find_replaced hrise Line.jam { Line.cold with jam := true } l
  unfold State.line Tbl.get
  refine (congrArg (Option.getD · Line.cold) read).trans ?_
  cases s.lines.find l with
  | none => rfl
  | some x => cases hj : x.jam <;> simp [hj, Line.cold]

theorem State.coldStart_standLevel {s : State} (hrise : s.stands.rising = true) (n : Nat) :
    s.coldStart.stand n = { Stand.cold with webBreak := (s.stand n).webBreak } := by
  have read := Tbl.find_replaced hrise Stand.webBreak { Stand.cold with webBreak := true } n
  unfold State.stand Tbl.get
  refine (congrArg (Option.getD · Stand.cold) read).trans ?_
  cases s.stands.find n with
  | none => rfl
  | some x => cases hj : x.webBreak <;> simp [hj, Stand.cold]

/-- Settles O59: a warm start is read clause by clause from its stages, and the cold start from its tables. -/
theorem startsReconcileTheRecords : Obligations.StartsReconcileTheRecords := by
  unfold Obligations.StartsReconcileTheRecords
  intro warm
  have started (s : State) (c : StartCause) (b : List Byte) : warm s (s.restarted.inService c b) c c.subject := by
    have kept := s.restarted_kept
    obtain ⟨jobs, bays, segments, stations⟩ := s.restarted_tables
    obtain ⟨_, _, _, _, _, _, _, clear, bay, line, stand, vehicle, segment, station, _⟩ := s.startCleared_eq
    rw [clear] at kept
    have falls (n : Nat) (hp : (s.stand n).paste = true) (hd : (s.stand n).drive = true) :=
      (s.fresh.dropPastes_falls hp hd).trans s.restarted_edges_prefix.sublist
    have roll (n : Nat) (r : Roll) := s.restarted_roll (n := n) (r := r)
    have noRoll (n : Nat) := s.restarted_noRoll (n := n)
    have vehicles := s.restarted_vehicle
    have order (n : Nat) (o : Order) := s.restarted_order (n := n) (o := o)
    have stands (n : Nat) := s.restarted_stand (n := n)
    have lines (l : Nat) := s.restarted_line (l := l)
    generalize s.restarted = t at *
    refine ⟨⟨rfl, rfl, rfl, rfl, rfl, kept.halted, kept.pendingBroadcast, kept.exchange, kept.port, kept.timeBase, kept.micros, rfl⟩,
      falls, ⟨kept.arrival, kept.grades, kept.nodes, kept.routes, jobs, kept.progressTimeout, kept.transferTimeout, kept.urgentMargin,
        kept.rate, kept.replyWindow⟩,
      roll, noRoll, fun b => ?_, fun g => ?_, fun a => ?_, vehicles, fun n o ho ha => ?_, fun n h1 h16 => ?_, fun l h1 h4 => ?_⟩
    · exact (congrArg (Tbl.get · b Bay.cold) bays).trans (bay b)
    · exact (congrArg (Tbl.get · g Segment.cold) segments).trans (segment g)
    · exact (congrArg (Tbl.find · a) stations).trans (station a)
    · obtain ⟨q, hq, ⟨hk, hc, hr, hs, _, hstate⟩, hq1, hq2⟩ := order n o ho ha
      refine ⟨q, hq, hk, hc, hr, hs, ?_⟩
      rcases hstate with ⟨hst, hv⟩ | ⟨hwas, hst, hv⟩
      · rw [if_neg (by rw [← hst]; exact not_or.mpr ⟨hq1, hq2⟩)]
        exact ⟨hst, hv⟩
      · rw [if_pos hwas]
        exact ⟨hst, hv⟩
    · exact Stand.started_clauses (stands n h1 h16)
    · exact Line.broken_clauses (lines l h1 h4)
  refine ⟨fun s => ⟨fun h => ?_, fun h => ?_, fun h => ?_⟩, fun s held h => if_pos h, fun s h => ⟨?_, ?_⟩, fun s => ⟨fun h => if_neg h,
      fun hp hs => ?_⟩⟩
  · obtain ⟨hawake, hport⟩ := h
    refine ⟨_, ?_, started s .restart [0, 0], rfl⟩
    rw [show exec .restartPart s = execRestartPart s from rfl, execRestartPart, if_pos hawake, hport]
    dsimp only
    rw [State.restart_eq, show clockedOut [] (frameLength .restartPart) = [0, 0] from rfl]
  · obtain ⟨hawake, hport⟩ := h
    refine ⟨clockedOut s.port.busyFrame (frameLength .restartPart), ?_⟩
    rw [show exec .restartPart s = execRestartPart s from rfl, execRestartPart, if_pos hawake]
    rcases hport with hport | hport <;> rw [hport] <;> rfl
  · rw [show exec .restartPart s = execRestartPart s from rfl, execRestartPart, if_neg (by rw [h]; decide)]
  · refine ⟨_, ?_, started s .power s.restarted.shifted⟩
    rw [show exec (.powerReturn true) s = execPowerReturn true s from rfl, execPowerReturn, if_neg (by rw [h]; decide), if_pos rfl,
      State.warmStart_eq]
  · refine ⟨s.coldStart, ?_, rfl, fun hr l => State.coldStart_line hr l, fun hr n => State.coldStart_standLevel hr n⟩
    rw [show exec (.powerReturn false) s = execPowerReturn false s from rfl, execPowerReturn, if_neg (by rw [h]; decide), if_neg nofun]
  · refine ⟨_, ?_, started s .wake s.restarted.shifted⟩
    rw [show exec .wake s = execWake s from rfl, execWake, if_pos ⟨hp, hs⟩, State.warmStart_eq]

end Sys2Proof.Machine
end

section
/-! Proofs about DOCKED (R39, R149, R153): what the report writes, when it counts, and the transfer it is given. -/

namespace Sys2Proof.Machine

/-! ## The parts of the report -/

section
variable {s : State} {v m : Nat} {o : Order}

theorem Vehicle.standsAt_iff {x : Vehicle} {k : Nat} : x.standsAt = some k ↔ x.pos = some (.node k) := by
  unfold Vehicle.standsAt
  split
  · next n hn => simp [hn]
  · next hn => exact ⟨nofun, fun h => absurd h (hn k)⟩

theorem Vehicle.standsAt_eq_iff {x : Vehicle} {p : Option Nat} :
    (x.standsAt.isSome = true ∧ x.standsAt = p) ↔ ∃ k, x.pos = some (.node k) ∧ p = some k := by
  constructor
  · rintro ⟨hsome, rfl⟩
    obtain ⟨k, hk⟩ := Option.isSome_iff_exists.mp hsome
    exact ⟨k, Vehicle.standsAt_iff.mp hk, hk⟩
  · rintro ⟨k, hk, rfl⟩
    have stands := Vehicle.standsAt_iff.mpr hk
    exact ⟨by rw [stands]; rfl, stands⟩

/-- A vehicle stands at its pickup, or at its drop, on its way there. -/
def State.docksFor (s : State) (v : Nat) (o : Order) : VState → Prop
  | .loading => (s.vehicle v).state = .toPickup ∧ ∃ k, (s.vehicle v).pos = some (.node k) ∧ s.pickup o = some k
  | .unloading => (s.vehicle v).state = .toDrop ∧ ∃ k, (s.vehicle v).pos = some (.node k) ∧ s.drop o = some k
  | _ => False

theorem State.dockState_iff {st : VState} : s.dockState v o = some st ↔ s.docksFor v o st := by
  unfold State.dockState
  dsimp only
  split
  · next h =>
    split
    · next hk => cases st <;> simp [State.docksFor, h, Vehicle.standsAt_eq_iff.mp hk]
    · next hk =>
      rw [Vehicle.standsAt_eq_iff] at hk
      cases st <;> simp only [State.docksFor, h, hk, reduceCtorEq, and_false, false_and]
  · next h =>
    split
    · next hk => cases st <;> simp [State.docksFor, h, Vehicle.standsAt_eq_iff.mp hk]
    · next hk =>
      rw [Vehicle.standsAt_eq_iff] at hk
      cases st <;> simp only [State.docksFor, h, hk, reduceCtorEq, and_false, false_and]
  · next hp hd =>
    cases st with
    | loading => exact ⟨nofun, fun h => absurd h.1 hp⟩
    | unloading => exact ⟨nofun, fun h => absurd h.1 hd⟩
    | _ => exact ⟨nofun, False.elim⟩

theorem State.orderOf_iff : s.orderOf v = some (m, o) ↔ (s.vehicle v).order = some m ∧ s.order m = some o := by
  simp only [State.orderOf, Option.bind_eq_some_iff, Option.map_eq_some_iff, Prod.mk.injEq]
  constructor
  · rintro ⟨_, hn, _, ho, rfl, rfl⟩
    exact ⟨hn, ho⟩
  · rintro ⟨hn, ho⟩
    exact ⟨m, hn, o, ho, rfl, rfl⟩

theorem State.resumeTransfer_moving (h : (s.vehicle v).state ≠ .stalled) : s.resumeTransfer v = s := by
  unfold State.resumeTransfer
  dsimp only
  split
  · next hs _ => exact absurd hs h
  · next hs _ => exact absurd hs h
  · rfl

theorem State.dock_away (h : ∀ m o st, (s.vehicle v).order = some m → s.order m = some o → ¬ s.docksFor v o st) : s.dock v = s := by
  unfold State.dock
  split
  · rfl
  · next n o ho =>
    obtain ⟨hn, ho⟩ := State.orderOf_iff.mp ho
    split
    · rfl
    · next st hst => exact absurd (State.dockState_iff.mp hst) (h n o st hn ho)

section
variable {st : VState} (hm : (s.vehicle v).order = some m) (ho : s.order m = some o) (hst : s.docksFor v o st)
include hm ho hst

theorem State.dock_counts (hd : (s.vehicle v).docked = 0) : s.dock v = s.modVehicle v ({ · with docked := 1 }) := by
  unfold State.dock
  rw [State.orderOf_iff.mpr ⟨hm, ho⟩]
  dsimp only
  rw [State.dockState_iff.mpr hst]
  exact if_pos hd

theorem State.dock_asks (hd : (s.vehicle v).docked ≠ 0) :
    s.dock v = if s.admits m o st = true ∧ s.halted = false then s.beginTransfer v m o st else s := by
  unfold State.dock
  rw [State.orderOf_iff.mpr ⟨hm, ho⟩]
  dsimp only
  rw [State.dockState_iff.mpr hst]
  dsimp only
  rw [if_neg hd]
  simp only [Bool.and_eq_true, Bool.not_eq_true']

end

/-- A bay neither marked nor held DISCREPANCY (R39). -/
def State.bayClear (s : State) (b : Nat) : Prop := (s.bay b).mark = none ∧ (s.bay b).hold ≠ some .discrepancy

/-- The source lets the order's roll go (R39, R149). -/
def State.letsGo (s : State) (m : Nat) (o : Order) : Prop := ∃ r z, o.roll = some r ∧ s.roll r = some z ∧ z.order = some m ∧
  ((∃ b, o.source = some (.bay b) ∧ (s.bay b).stack.getLast? = some r ∧ z.state = .reserved ∧ s.bayClear b) ∨
    ∃ k, o.source = some (.node k) ∧ z.state = .announced ∧ z.loc = .node k)

/-- The destination bay takes the order's roll (R39). -/
def State.takesIn (s : State) (o : Order) : Prop :=
  ∀ b, o.dest = some (.bay b) → (s.bay b).stack.length < (s.bay b).limit ∧ s.bayClear b

theorem State.admitsLoading_iff {b r : Nat} : s.admitsLoading b r m = true ↔ ∃ z, s.roll r = some z ∧ z.order = some m ∧
    (s.bay b).stack.getLast? = some r ∧ z.state = .reserved ∧ s.bayClear b := by
  unfold State.admitsLoading State.bayClear State.top
  cases s.roll r with
  | none => simp
  | some z => simp; tauto

theorem State.admits_loading_iff : s.admits m o .loading = true ↔ s.letsGo m o := by
  unfold State.admits State.letsGo
  dsimp only
  split
  · next b r hb hr =>
    rw [State.admitsLoading_iff]
    constructor
    · rintro ⟨z, hz, hm, htop, hres, hclear⟩
      exact ⟨r, z, hr, hz, hm, .inl ⟨b, hb, htop, hres, hclear⟩⟩
    · rintro ⟨r', z, hr', hz, hm, ⟨b', hb', htop, hres, hclear⟩ | ⟨k, hk, _⟩⟩
      · rw [hr] at hr'; rw [hb] at hb'
        cases hr'; cases hb'
        exact ⟨z, hz, hm, htop, hres, hclear⟩
      · rw [hb] at hk; cases hk
  · next k r hk hr =>
    constructor
    · intro h
      cases hz : s.roll r with
      | none => rw [hz] at h; cases h
      | some z =>
        rw [hz] at h
        simp only [Option.any_some, Bool.and_eq_true, beq_iff_eq] at h
        obtain ⟨⟨hann, hloc⟩, hm⟩ := h
        exact ⟨r, z, hr, hz, hm, .inr ⟨k, hk, hann, hloc⟩⟩
    · rintro ⟨r', z, hr', hz, hm, ⟨b', hb', _⟩ | ⟨k', hk', hann, hloc⟩⟩
      · rw [hk] at hb'; cases hb'
      · rw [hr] at hr'; rw [hk] at hk'
        cases hr'; cases hk'
        simp [hz, hann, hloc, hm]
  · next hb hk =>
    refine ⟨nofun, ?_⟩
    rintro ⟨r, z, hr, _, _, ⟨b, hsource, _⟩ | ⟨k, hsource, _⟩⟩
    · exact absurd hr (hb b r hsource)
    · exact absurd hr (hk k r hsource)

theorem State.admits_unloading_iff {k : Nat} (hdrop : s.drop o = some k) : s.admits m o .unloading = true ↔ s.takesIn o := by
  unfold State.admits State.takesIn State.bayClear
  dsimp only
  split
  · next b hb =>
    rw [hb]
    simp [State.admitsUnloading, and_assoc]
  · next d hnot hd =>
    exact ⟨fun _ b hb => (hnot b (Option.some.inj (hd.symm.trans hb))).elim, fun _ => rfl⟩
  · next hd =>
    rw [State.drop, hd] at hdrop
    cases hdrop

/-! ## The transfer begun (R149) -/

section
variable {st : VState}

/-- A vehicle in its transfer. -/
def Vehicle.transferring (x : Vehicle) (st : VState) (t : Timer) : Vehicle :=
  { x with state := st, progress := .stopped, transfer := t, docked := 0 }

theorem State.beginTransfer_eq : s.beginTransfer v m o st =
    (((s.modVehicle v (Vehicle.transferring · st (s.started s.transferTimeout))).markFor v o).modOrder m
      ({ · with state := transferOrderState st })).sendVehicle v (.transfer m) := rfl

theorem State.beginTransfer_vehicle : (s.beginTransfer v m o st).vehicle v =
    (s.vehicle v).transferring st (s.started s.transferTimeout) := by
  rw [State.beginTransfer_eq, State.vehicle, (VehicleLaw.send_rest _ v _).1, State.modOrder_vehicles, (VehicleLaw.mark_rest _ v o).1]
  exact (Law.vehicle_mod s v v _).trans (if_pos rfl)

theorem State.beginTransfer_order (ho : s.order m = some o) :
    (s.beginTransfer v m o st).order m = some { o with state := transferOrderState st } := by
  obtain ⟨t, ht⟩ := (((s.modVehicle v (Vehicle.transferring · st (s.started s.transferTimeout))).markFor v o).modOrder m
    ({ · with state := transferOrderState st })).sendVehicle_only v (.transfer m)
  rw [State.beginTransfer_eq, ht]
  refine (Law.order_mod _ m m _).trans ?_
  rw [if_pos rfl, State.order, (VehicleLaw.mark_rest _ v o).2.1]
  exact congrArg (Option.map _) ho

theorem State.beginTransfer_stations : (s.beginTransfer v m o st).stations = (s.sendVehicle v (.transfer m)).stations := by
  refine VehicleLaw.send_stations v _ ?_ ?_
  · rw [State.modOrder_stations, (VehicleLaw.mark_rest _ v o).2.2.1]; rfl
  · rw [State.modOrder_halted, (VehicleLaw.mark_rest _ v o).2.2.2.1]; rfl

theorem State.beginTransfer_passDue : (s.beginTransfer v m o st).passDue = s.passDue := by
  rw [State.beginTransfer, VehicleLaw.sendVehicle_passDue, State.modOrder_passDue, (VehicleLaw.mark_rest _ v o).2.2.2.2]
  rfl

theorem State.beginTransfer_bay {b : Nat} (hb : o.transferBay st = some b) :
    (s.beginTransfer v m o st).bay b = { s.bay b with mark := some v } := by
  obtain ⟨t, ht⟩ := (((s.modVehicle v (Vehicle.transferring · st (s.started s.transferTimeout))).markFor v o).modOrder m
    ({ · with state := transferOrderState st })).sendVehicle_only v (.transfer m)
  have state : ((s.modVehicle v (Vehicle.transferring · st (s.started s.transferTimeout))).vehicle v).state = st := by
    rw [Law.vehicle_mod, if_pos rfl]
    rfl
  rw [State.beginTransfer_eq, ht]
  exact (congrArg (Tbl.get · b Bay.cold) (State.modOrder_bays ..)).trans (VehicleLaw.mark_bay _ v b o st state hb)

end

/-! ## A stalled transfer resumed (R153) -/

section
variable {st : VState} (hs : (s.vehicle v).state = .stalled) (hp : (s.vehicle v).prev = some st) (hst : st = .loading ∨ st = .unloading)
  (hm : (s.vehicle v).order = some m) (ho : s.order m = some o)

/-- A vehicle back in its transfer. -/
def Vehicle.resumed (x : Vehicle) (st : VState) (t : Timer) : Vehicle := { x with state := st, prev := none, cause := none, transfer := t }

include hs hp hst hm ho in
theorem State.resumeTransfer_stalled : s.resumeTransfer v =
    (s.modVehicle v (Vehicle.resumed · st (s.started s.transferTimeout))).markFor v o := by
  have linked : (s.modVehicle v (Vehicle.resumed · st (s.started s.transferTimeout))).orderOf v = some (m, o) := by
    refine State.orderOf_iff.mpr ⟨?_, ho⟩
    rw [Law.vehicle_mod, if_pos rfl]
    exact hm
  unfold State.resumeTransfer
  rw [hs, hp]
  unfold Vehicle.resumed at *
  rcases hst with rfl | rfl <;> dsimp only <;> rw [linked]

end

end

/-! ## The report taken -/

/-- The state DOCKED is taken in, its deck written. -/
def State.docking (s : State) (e : Exchange) (more : Bool) (v : Nat) (d : Deck) : State :=
  (s.heard e more).modVehicle v ({ · with deck := some d })

section
variable {s : State} {e : Exchange} {x : Station} {v : Nat} {d : Deck} {more : Bool}

theorem execDocked_reports {n : Nat} (hh : s.hears e x) (hr : x.role = .vehicle v) (hv : (s.vehicle v).state ≠ .outOfService)
    (hn : n = (s.workingOrder v).getD 0) :
    exec (.docked n d more) s = .next (((s.docking e more v d).resumeTransfer v).dock v).finish := by
  rw [show exec (.docked n d more) s = taken .docked n more
    (fun _ v s => ((s.modVehicle v ({ · with deck := some d })).resumeTransfer v).dock v) s from rfl]
  unfold Sys2Proof.Machine.taken
  rw [vehicleReport_heard hh hr]
  dsimp only
  have inService : ((s.heard e more).vehicle v).inService = true := by
    rw [VehicleLaw.heardVeh hh hr]; unfold Vehicle.inService; simpa using hv
  rw [if_pos inService, if_pos rfl, VehicleLaw.working hh hr]
  unfold State.lostCommand
  rw [if_pos hn, State.docking]

theorem State.docking_vehicle (hh : s.hears e x) (hr : x.role = .vehicle v) : (s.docking e more v d).vehicle v =
    { s.vehicle v with lastReport := some s.timeBase, deck := some d } := by
  rw [State.docking, Law.vehicle_mod, if_pos rfl, VehicleLaw.heardVeh hh hr]

theorem State.docking_bay (b : Nat) : (s.docking e more v d).bay b = s.bay b := Law.heard_bay (more := more) b
theorem State.docking_roll (r : Nat) : (s.docking e more v d).roll r = s.roll r := Law.heard_roll (more := more) r
theorem State.docking_order (m : Nat) : (s.docking e more v d).order m = s.order m := Law.heard_order (more := more) m
theorem State.docking_halted : (s.docking e more v d).halted = s.halted := State.heard_halted (more := more)
theorem State.docking_passDue : (s.docking e more v d).passDue = false := State.heard_passDue (more := more)
theorem State.docking_pickup (o : Order) : (s.docking e more v d).pickup o = s.pickup o :=
  State.pickup_congr (fun b => congrArg Bay.aisle (State.docking_bay b)) o
theorem State.docking_drop (o : Order) : (s.docking e more v d).drop o = s.drop o :=
  State.drop_congr (fun b => congrArg Bay.aisle (State.docking_bay b)) (State.heard_stands (more := more)) o

theorem State.docking_docksFor (hh : s.hears e x) (hr : x.role = .vehicle v) (o : Order) (st : VState) :
    (s.docking e more v d).docksFor v o st ↔ s.docksFor v o st := by
  cases st <;> simp only [State.docksFor, State.docking_vehicle hh hr, State.docking_pickup, State.docking_drop]

theorem State.docking_letsGo (m : Nat) (o : Order) : (s.docking e more v d).letsGo m o ↔ s.letsGo m o := by
  simp only [State.letsGo, State.bayClear, State.docking_bay, State.docking_roll]

theorem State.docking_takesIn (o : Order) : (s.docking e more v d).takesIn o ↔ s.takesIn o := by
  simp only [State.takesIn, State.bayClear, State.docking_bay]

end

theorem Order.transferBay_loading {o : Order} {b : Nat} (h : o.source = some (.bay b)) : o.transferBay .loading = some b := by
  simp [Order.transferBay, h]

theorem Order.transferBay_unloading {o : Order} {b : Nat} (h : o.dest = some (.bay b)) : o.transferBay .unloading = some b := by
  simp [Order.transferBay, h]

section
variable {s : State} {e : Exchange} {x : Station} {n v m : Nat} {o : Order} {d : Deck} {more : Bool} {st : VState}
  (hh : s.hears e x) (hr : x.role = .vehicle v) (hv : (s.vehicle v).state ≠ .outOfService) (hn : n = (s.workingOrder v).getD 0)
include hh hr hv hn

theorem execDocked_moving (hs : (s.vehicle v).state ≠ .stalled) :
    exec (.docked n d more) s = .next ((s.docking e more v d).dock v).finish := by
  rw [execDocked_reports hh hr hv hn, State.resumeTransfer_moving (by rw [State.docking_vehicle hh hr]; exact hs)]

theorem execDocked_away (hs : (s.vehicle v).state ≠ .stalled)
    (hat : ∀ m o st, (s.vehicle v).order = some m → s.order m = some o → ¬ s.docksFor v o st) :
    exec (.docked n d more) s = .next (s.docking e more v d) := by
  rw [execDocked_moving hh hr hv hn hs, State.dock_away, State.finish_idle State.docking_passDue]
  intro m o st hm ho hp
  rw [State.docking_vehicle hh hr] at hm
  rw [State.docking_order] at ho
  exact hat m o st hm ho ((State.docking_docksFor hh hr o st).mp hp)

variable (hm : (s.vehicle v).order = some m) (ho : s.order m = some o) (hp : s.docksFor v o st)
include hm ho hp

omit hh hr hv hn hm ho in
theorem State.docksFor_moving : (s.vehicle v).state ≠ .stalled := by
  intro hs
  cases st with
  | loading => exact VState.noConfusion (hs.symm.trans hp.1)
  | unloading => exact VState.noConfusion (hs.symm.trans hp.1)
  | _ => exact hp

theorem execDocked_counts (hd : (s.vehicle v).docked = 0) :
    exec (.docked n d more) s = .next ((s.docking e more v d).modVehicle v ({ · with docked := 1 })) := by
  have vehicle := State.docking_vehicle (d := d) (more := more) hh hr
  rw [execDocked_moving hh hr hv hn (State.docksFor_moving hp), State.dock_counts (st := st) (by rw [vehicle]; exact hm)
    ((State.docking_order m).trans ho) ((State.docking_docksFor hh hr o st).mpr hp) (by rw [vehicle]; exact hd)]
  exact congrArg Host.Outcome.next (State.finish_idle (State.docking_passDue (v := v) (d := d) (more := more)))

theorem execDocked_asks (hd : (s.vehicle v).docked ≠ 0) :
    exec (.docked n d more) s = .next (if (s.docking e more v d).admits m o st = true ∧ s.halted = false then
      (s.docking e more v d).beginTransfer v m o st else s.docking e more v d) := by
  have vehicle := State.docking_vehicle (d := d) (more := more) hh hr
  rw [execDocked_moving hh hr hv hn (State.docksFor_moving hp), State.dock_asks (st := st) (by rw [vehicle]; exact hm)
    ((State.docking_order m).trans ho) ((State.docking_docksFor hh hr o st).mpr hp) (by rw [vehicle]; exact hd), State.docking_halted]
  refine congrArg Host.Outcome.next (State.finish_idle ?_)
  split
  · exact State.beginTransfer_passDue.trans State.docking_passDue
  · exact State.docking_passDue

theorem execDocked_refused (hd : (s.vehicle v).docked ≠ 0)
    (hno : s.halted = true ∨ ¬ (s.docking e more v d).admits m o st = true) :
    exec (.docked n d more) s = .next (s.docking e more v d) := by
  rw [execDocked_asks hh hr hv hn hm ho hp hd, if_neg]
  rintro ⟨hyes, hrun⟩
  rcases hno with hhalt | hno
  · rw [hhalt] at hrun
    cases hrun
  · exact hno hyes

theorem execDocked_given (hd : (s.vehicle v).docked ≠ 0) (hrun : s.halted = false)
    (hyes : (s.docking e more v d).admits m o st = true) : ∃ t : State, exec (.docked n d more) s = .next t ∧
      ((t.vehicle v).docked = 0 ∧ (t.vehicle v).progress = .stopped ∧
        (t.vehicle v).transfer = .running (s.transferTimeout * 1000000) ∧
        t.stations = ((s.docking e more v d).sendVehicle v (.transfer m)).stations) ∧
      (t.vehicle v).state = st ∧ t.order m = some { o with state := transferOrderState st } ∧
      ∀ b, o.transferBay st = some b → t.bay b = { s.bay b with mark := some v } := by
  have timer : (s.docking e more v d).started (s.docking e more v d).transferTimeout = .running (s.transferTimeout * 1000000) := by
    rw [State.started, State.docking_halted, hrun]
    exact congrArg (fun x => Timer.running (x * 1000000)) (State.heard_transferTimeout (more := more))
  refine ⟨_, by rw [execDocked_asks hh hr hv hn hm ho hp hd, if_pos ⟨hyes, hrun⟩], ⟨?_, ?_, ?_, State.beginTransfer_stations⟩, ?_,
    State.beginTransfer_order ((State.docking_order m).trans ho), fun b hb => ?_⟩
  · rw [State.beginTransfer_vehicle]; rfl
  · rw [State.beginTransfer_vehicle]; rfl
  · rw [State.beginTransfer_vehicle, timer]; rfl
  · rw [State.beginTransfer_vehicle]; rfl
  · rw [State.beginTransfer_bay hb, State.docking_bay]

end

section
variable {s : State} {e : Exchange} {x : Station} {n v m : Nat} {o : Order} {d : Deck} {more : Bool} {st : VState}
  (hh : s.hears e x) (hr : x.role = .vehicle v) (hv : (s.vehicle v).state ≠ .outOfService) (hn : n = (s.workingOrder v).getD 0)
include hh hr hv hn

/-- A vehicle stalled in a transfer is back in it. -/
theorem execDocked_resumes (hs : (s.vehicle v).state = .stalled) (hp : (s.vehicle v).prev = some st)
    (hst : st = .loading ∨ st = .unloading) (hm : (s.vehicle v).order = some m) (ho : s.order m = some o) :
    ∃ t : State, exec (.docked n d more) s = .next t ∧ t.vehicle v =
      Vehicle.resumed { s.vehicle v with lastReport := some s.timeBase, deck := some d } st (s.started s.transferTimeout) ∧
      t.stations = (s.docking e more v d).stations ∧ ∀ b, o.transferBay st = some b → t.bay b = { s.bay b with mark := some v } := by
  have vehicle := State.docking_vehicle (d := d) (more := more) hh hr
  have resumed := State.resumeTransfer_stalled (s := s.docking e more v d) (by rw [vehicle]; exact hs) (by rw [vehicle]; exact hp) hst
    (by rw [vehicle]; exact hm) ((State.docking_order m).trans ho)
  have timer : (s.docking e more v d).started (s.docking e more v d).transferTimeout = s.started s.transferTimeout := by
    rw [State.started, State.docking_halted, State.started]
    exact congrArg (fun x => if s.halted = true then Timer.suspended (x * 1000000) else .running (x * 1000000))
      (State.heard_transferTimeout (more := more))
  rw [timer] at resumed
  generalize hu : (s.docking e more v d).modVehicle v (Vehicle.resumed · st (s.started s.transferTimeout)) = u at resumed
  have back : u.vehicle v =
      Vehicle.resumed { s.vehicle v with lastReport := some s.timeBase, deck := some d } st (s.started s.transferTimeout) := by
    rw [← hu, Law.vehicle_mod, if_pos rfl, vehicle]
  obtain ⟨vehicles, _, stations, _, due⟩ := VehicleLaw.mark_rest u v o
  have marked : (u.markFor v o).vehicle v = u.vehicle v := congrArg (Tbl.get · v Vehicle.cold) vehicles
  have away : (u.markFor v o).dock v = u.markFor v o := by
    refine State.dock_away fun m' o' st' _ _ hp' => ?_
    have state : ((u.markFor v o).vehicle v).state = st := by rw [marked, back]; rfl
    cases st' with
    | loading =>
      have heq := state.symm.trans hp'.1
      rcases hst with rfl | rfl <;> cases heq
    | unloading =>
      have heq := state.symm.trans hp'.1
      rcases hst with rfl | rfl <;> cases heq
    | _ => exact hp'
  have quiet : (u.markFor v o).passDue = false := by
    rw [due, ← hu]
    exact State.docking_passDue (v := v) (d := d) (more := more)
  refine ⟨u.markFor v o, ?_, marked.trans back, ?_, fun b hb => ?_⟩
  · rw [execDocked_reports hh hr hv hn, resumed, away, State.finish_idle quiet]
  · rw [stations, ← hu]
    rfl
  · have state : (u.vehicle v).state = st := by rw [back]; rfl
    rw [VehicleLaw.mark_bay u v b o st state hb, ← hu]
    exact congrArg (fun x : Bay => { x with mark := some v }) (State.docking_bay (v := v) (d := d) (more := more) b)

end

/-- Settles O51: the report is read as a deck written, a stalled transfer resumed, and the dock's own cases. -/
theorem dockedAsksForTheTransfer : Obligations.DockedAsksForTheTransfer := by
  intro s e x n v d more hh hr hv hn i y h clear atPickup atDrop lets takes given
  refine ⟨fun hs hat => ?_, fun m o hat hd => ?_, fun m o ⟨hm, ho, hp⟩ hd hno => ?_, fun m o ⟨hm, ho, hp⟩ hd hno => ?_,
    fun m o ⟨hm, ho, hp⟩ hd hrun hlets => ?_, fun m o ⟨hm, ho, hp⟩ hd hrun htakes => ?_, fun m o st hs hp hst hm ho => ?_⟩
  · refine execDocked_away hh hr hv hn hs fun m o st hm ho hp => ?_
    cases st with
    | loading => exact (hat m o).1 ⟨hm, ho, hp⟩
    | unloading => exact (hat m o).2 ⟨hm, ho, hp⟩
    | _ => exact hp
  · rcases hat with ⟨hm, ho, hp⟩ | ⟨hm, ho, hp⟩
    · exact execDocked_counts (st := .loading) hh hr hv hn hm ho hp hd
    · exact execDocked_counts (st := .unloading) hh hr hv hn hm ho hp hd
  · refine execDocked_refused (st := .loading) hh hr hv hn hm ho hp hd (hno.imp_right fun hn => ?_)
    rwa [State.admits_loading_iff, State.docking_letsGo]
  · obtain ⟨_, k, _, hdrop⟩ := id hp
    refine execDocked_refused (st := .unloading) hh hr hv hn hm ho hp hd (hno.imp_right fun hn => ?_)
    rwa [State.admits_unloading_iff ((State.docking_drop o).trans hdrop), State.docking_takesIn]
  · obtain ⟨t, ht, hgiven, hstate, horder, hbay⟩ :=
      execDocked_given (st := .loading) (d := d) (more := more) hh hr hv hn hm ho hp hd hrun
        (State.admits_loading_iff.mpr ((State.docking_letsGo m o).mpr hlets))
    exact ⟨t, ht, hgiven, hstate, horder, fun b hb => hbay b (Order.transferBay_loading hb)⟩
  · obtain ⟨_, k, _, hdrop⟩ := id hp
    obtain ⟨t, ht, hgiven, hstate, horder, hbay⟩ :=
      execDocked_given (st := .unloading) (d := d) (more := more) hh hr hv hn hm ho hp hd hrun
        ((State.admits_unloading_iff ((State.docking_drop o).trans hdrop)).mpr ((State.docking_takesIn o).mpr htakes))
    exact ⟨t, ht, hgiven, hstate, horder, fun b hb => hbay b (Order.transferBay_unloading hb)⟩
  · obtain ⟨t, ht, vehicle, stations, hbay⟩ := execDocked_resumes (d := d) (more := more) hh hr hv hn hs hp hst hm ho
    refine ⟨t, ht, by rw [vehicle]; rfl, by rw [vehicle]; rfl, by rw [vehicle]; rfl, by rw [vehicle]; rfl, stations, ?_, ?_⟩
    · rintro rfl b hb
      exact hbay b (Order.transferBay_loading hb)
    · rintro rfl b hb
      exact hbay b (Order.transferBay_unloading hb)

end Sys2Proof.Machine
end

section
/-! Proofs about the bay sensors (R40 to R42): the heights of a report, and what a confirmed discrepancy holds, releases and withdraws. -/

namespace Sys2Proof.Machine

/-! ## A reservation given up (R42, R132) -/

section
variable (s : State) (n : Nat) (o : Order)

theorem State.giveUpReservation_roll (k : Nat) : (s.giveUpReservation n o).roll k =
    if o.roll = some k then (s.roll k).map fun x => if x.state = .reserved then { x with state := .stored, order := none } else x
    else s.roll k := by
  unfold State.giveUpReservation
  cases hroll : o.roll with
  | none => rfl
  | some r =>
    dsimp only
    by_cases hk : r = k
    · subst hk
      rw [if_pos rfl]
      cases hx : s.roll r with
      | none => exact hx
      | some x =>
        dsimp only [Option.map_some]
        split
        · refine (congrArg (Tbl.find · r) (State.modOrder_rolls ..)).trans ?_
          refine (congrArg (Tbl.find · r) (State.modOrder_rolls ..)).trans ?_
          refine (roll_modRoll s r r _).trans ?_
          rw [if_pos rfl, hx]
          rfl
        · exact hx
    · rw [if_neg fun h => hk (Option.some.inj h)]
      split
      · split
        · refine (congrArg (Tbl.find · k) (State.modOrder_rolls ..)).trans ?_
          refine (congrArg (Tbl.find · k) (State.modOrder_rolls ..)).trans ?_
          exact (roll_modRoll s r k _).trans (if_neg (Ne.symm hk))
        · rfl
      · rfl

/-- What giving up a reservation writes of the order: its roll, and the roll's record at its source and its name. -/
def Order.givenUp (p q : Order) : Prop := q = { p with roll := q.roll, source := q.source, named := q.named }

theorem State.release_only (r : Nat) : Law.changesOnly (fun p q => q = { p with roll := none }) n s (s.release r n) :=
  Law.changesOnly_then (Law.changesOnly_after (State.modRoll_orders ..)
    (Law.changesOnly_mod _ _ n ({ · with roll := none }) fun _ _ => rfl)) rfl

theorem State.giveUpReservation_only : Law.changesOnly Order.givenUp n s (s.giveUpReservation n o) := by
  have same : Law.changesOnly Order.givenUp n s s := Law.changesOnly_same Order.givenUp (fun _ => rfl) n rfl
  unfold State.giveUpReservation
  split
  · exact same
  · next r _ =>
    split
    · split
      · obtain ⟨others, dead, live⟩ := s.release_only n r
        refine Law.changesOnly_comp (fun a b c hab hbc => ?_) ⟨others, dead, fun p hp => ?_⟩
          (Law.changesOnly_mod Order.givenUp _ n _ fun _ _ => rfl)
        · unfold Order.givenUp at *
          rw [hbc, hab]
        · obtain ⟨q, hq, hpq⟩ := live p hp
          exact ⟨q, hq, by rw [hpq]; rfl⟩
      · exact same
    · exact same

variable {s n o} in
/-- The order whose reservation is given up names no roll. -/
theorem State.giveUpReservation_unrolled {p : Order} {r : Nat} {x : Roll} (hp : s.order n = some p) (hr : o.roll = some r)
    (hx : s.roll r = some x) (hstate : x.state = .reserved) :
    ∃ q, (s.giveUpReservation n o).order n = some q ∧ q.roll = none := by
  obtain ⟨q, hq, hpq⟩ := (s.release_only n r).2.2 p hp
  unfold State.giveUpReservation
  rw [hr]
  dsimp only
  rw [hx]
  dsimp only
  rw [if_pos hstate]
  refine ⟨_, (Law.order_mod ..).trans (by rw [if_pos rfl, hq]; rfl), ?_⟩
  rw [hpq]

/-! ## An order withdrawn from its bay (R37) -/

theorem State.withdrawBay_order (m : Nat) : (s.withdrawBay n o).order m =
    if m = n then (s.order n).map fun p => if o.dest.any Dest.isBay then { p with dest := none } else p else s.order m := by
  unfold State.withdrawBay
  split
  · exact Law.order_mod s n m _
  · simp only [Option.map_id']
    split
    · next hm => rw [hm]
    · rfl

theorem Order.isBay_false {o : Order} (h : ¬ o.dest.any Dest.isBay) (b : Nat) : o.dest ≠ some (.bay b) := fun hd => h (by rw [hd]; rfl)

/-! ## An order returned to PENDING without its roll (R42, R132) -/

theorem State.freeVehicle_unlinks {v : Nat} (hv : o.vehicle = some v) (hlink : (s.vehicle v).order = some n) :
    ((s.freeVehicle n o).vehicle v).order = none := by
  rw [State.freeVehicle, hv]
  dsimp only
  rw [if_pos hlink, State.unlinkVehicle, Law.vehicle_mod, if_pos rfl]

theorem State.giveUpReservation_vehicles : (s.giveUpReservation n o).vehicles = s.vehicles := by
  unfold State.giveUpReservation State.release
  repeat' split
  all_goals simp

theorem State.abortVehicle_vehicles : (s.abortVehicle n o).vehicles = s.vehicles := by
  unfold State.abortVehicle State.sendVehicleKept State.sendKept
  repeat' split
  all_goals simp

variable {s n o}

theorem State.returnToPending_live (ho : s.order n = some o) : s.returnToPending n false =
    (((((s.abortVehicle n o).giveUpReservation n o).freeVehicle n o).withdrawBay n o).modOrder n
      ({ · with state := .pending, vehicle := none })).notice := by
  rw [State.returnToPending, ho]
  rfl

theorem State.returnToPending_roll (ho : s.order n = some o) (k : Nat) : (s.returnToPending n false).roll k =
    if o.roll = some k then (s.roll k).map fun x => if x.state = .reserved then { x with state := .stored, order := none } else x
    else s.roll k := by
  have hrolls : (s.returnToPending n false).rolls = ((s.abortVehicle n o).giveUpReservation n o).rolls := by
    rw [State.returnToPending_live ho]
    exact (State.modOrder_rolls ..).trans ((RollsAfter.withdrawBay ..).trans (RollsAfter.freeVehicle ..))
  have htold (k : Nat) : (s.abortVehicle n o).roll k = s.roll k := congrArg (Tbl.find · k) (OrderLaw.tell_rest s n o).2
  rw [← htold, ← State.giveUpReservation_roll]
  exact congrArg (Tbl.find · k) hrolls

theorem State.returnToPending_other (ho : s.order n = some o) {m : Nat} (hm : m ≠ n) : (s.returnToPending n false).order m = s.order m := by
  rw [State.returnToPending_live ho]
  refine (Law.order_mod _ n m _).trans ?_
  rw [if_neg hm, State.withdrawBay_order, if_neg hm]
  refine (congrArg (Tbl.find · m) (OrdersAfter.freeVehicle ..)).trans ?_
  refine ((State.giveUpReservation_only _ n o).1 m hm).trans ?_
  exact congrArg (Tbl.find · m) (OrderLaw.tell_rest s n o).1

theorem State.returnToPending_own (ho : s.order n = some o) : ∃ q, (s.returnToPending n false).order n = some q ∧ q.state = .pending ∧
    q.vehicle = none ∧ q.seq = o.seq ∧ (∀ b, q.dest ≠ some (.bay b)) ∧
    ∀ r x, o.roll = some r → s.roll r = some x → x.state = .reserved → q.roll = none := by
  have told : (s.abortVehicle n o).order n = some o := (congrArg (Tbl.find · n) (OrderLaw.tell_rest s n o).1).trans ho
  obtain ⟨p, hp, hop⟩ := (State.giveUpReservation_only (s.abortVehicle n o) n o).2.2 o told
  have freed : (((s.abortVehicle n o).giveUpReservation n o).freeVehicle n o).order n = some p :=
    (congrArg (Tbl.find · n) (OrdersAfter.freeVehicle ..)).trans hp
  have unrolled (r : Nat) (x : Roll) (hr : o.roll = some r) (hx : s.roll r = some x) (hstate : x.state = .reserved) : p.roll = none := by
    obtain ⟨p', hp', hnone⟩ := State.giveUpReservation_unrolled (o := o) told hr
      ((congrArg (Tbl.find · r) (OrderLaw.tell_rest s n o).2).trans hx) hstate
    rwa [Option.some.inj (hp.symm.trans hp')]
  rw [State.returnToPending_live ho]
  refine ⟨_, (Law.order_mod _ n n _).trans (by rw [if_pos rfl, State.withdrawBay_order, if_pos rfl, freed]; rfl), rfl, rfl, ?_, fun b => ?_,
    fun r x hr hx hstate => ?_⟩
  · rw [hop]
    split <;> rfl
  · rw [hop]
    split
    · exact nofun
    · next h => exact Order.isBay_false h b
  · split <;> exact unrolled r x hr hx hstate

theorem State.returnToPending_unlinks (ho : s.order n = some o) {v : Nat} (hv : o.vehicle = some v) (hlink : (s.vehicle v).order = some n) :
    ((s.returnToPending n false).vehicle v).order = none := by
  have kept : (((s.abortVehicle n o).giveUpReservation n o).vehicle v) = s.vehicle v := by
    unfold State.vehicle
    rw [State.giveUpReservation_vehicles, State.abortVehicle_vehicles]
  rw [State.returnToPending_live ho]
  refine Eq.trans ?_ (State.freeVehicle_unlinks ((s.abortVehicle n o).giveUpReservation n o) n o hv (kept ▸ hlink))
  refine congrArg Vehicle.order ((State.modOrder_vehicle ..).trans ?_)
  unfold State.vehicle
  rw [(OrderLaw.with_rest ..).2.2.1]

end

/-! ## The top roll of a bay released (R42) -/

section
variable {s : State} {b n o : Nat} {r : Roll}

theorem State.releaseTop_reserved (htop : s.top b = some n) (hr : s.roll n = some r) (hstate : r.state = .reserved)
    (horder : r.order = some o) :
    s.releaseTop b = s.returnToPending o false := by
  simp only [State.releaseTop, htop, Option.bind_some, hr, hstate, horder]

/-- The release of the top roll does nothing, or returns the order the top roll is reserved for. -/
theorem State.releaseTop_cases (s : State) (b : Nat) : s.releaseTop b = s ∨
    ∃ n r o, s.top b = some n ∧ s.roll n = some r ∧ r.order = some o ∧ s.releaseTop b = s.returnToPending o false := by
  unfold State.releaseTop
  split
  · next r h =>
    obtain ⟨n, htop, hr⟩ := Option.bind_eq_some_iff.mp h
    split
    · next o _ horder => exact .inr ⟨n, r, o, htop, hr, horder, rfl⟩
    · exact .inl rfl
  · exact .inl rfl

theorem State.returnToPending_dead {keep : Bool} (ho : s.order o = none) : s.returnToPending o keep = s := by
  rw [State.returnToPending, ho]

theorem State.releaseTop_hold (b : Nat) (hr : s.roll n = some r) : ∃ x, (s.releaseTop b).roll n = some x ∧ x.hold = r.hold := by
  rcases s.releaseTop_cases b with h | ⟨_, _, o, _, _, _, h⟩ <;> rw [h]
  · exact ⟨r, hr, rfl⟩
  · cases ho : s.order o with
    | none => exact ⟨r, by rw [State.returnToPending_dead ho, hr], rfl⟩
    | some p =>
      rw [State.returnToPending_roll ho, hr]
      split
      · refine ⟨_, rfl, ?_⟩
        dsimp only
        split <;> rfl
      · exact ⟨r, rfl, rfl⟩

/-- An order the top roll is not linked to keeps its record. -/
theorem State.releaseTop_other {m : Nat} (h : ∀ n r, s.top b = some n → s.roll n = some r → r.order ≠ some m) :
    (s.releaseTop b).order m = s.order m := by
  rcases s.releaseTop_cases b with h' | ⟨n, r, o, htop, hr, horder, h'⟩ <;> rw [h']
  have hm : m ≠ o := fun e => h n r htop hr (e ▸ horder)
  cases ho : s.order o with
  | none => rw [State.returnToPending_dead ho]
  | some p => exact State.returnToPending_other ho hm

/-- After the release an order is as it was, or has no destination in a bay. -/
theorem State.releaseTop_order {m : Nat} {p : Order} (b : Nat) (hp : s.order m = some p) :
    (s.releaseTop b).order m = some p ∨ ∃ q, (s.releaseTop b).order m = some q ∧ ∀ c, q.dest ≠ some (.bay c) := by
  rcases s.releaseTop_cases b with h | ⟨_, _, o, _, _, _, h⟩ <;> rw [h]
  · exact .inl hp
  · cases ho : s.order o with
    | none => exact .inl (by rw [State.returnToPending_dead ho, hp])
    | some x =>
      by_cases hm : m = o
      · obtain ⟨q, hq, _, _, _, hdest, _⟩ := State.returnToPending_own ho
        exact .inr ⟨q, hm ▸ hq, hdest⟩
      · exact .inl ((State.returnToPending_other ho hm).trans hp)

/-! ## A put-away chosen anew (R35, R36, R37) -/

theorem Bay.open_held {x : Bay} (h : x.hold = some .discrepancy) : x.open_ = false := by
  rw [← Bool.not_eq_true, Bay.open_iff, h]
  rintro ⟨_, hnone, _⟩
  cases hnone

/-- The bay chosen for a roll is open. -/
theorem State.chooseBay_open {g w : Nat} (h : s.chooseBay g w = some b) : (s.bay b).open_ = true := by
  unfold State.chooseBay at h
  split at h
  · next c hc =>
    cases h
    have := List.find?_some hc
    rw [State.matchingStack, Bool.and_eq_true, Bool.and_eq_true] at this
    exact this.1.1
  · have := List.find?_some h
    rw [State.emptyBay, Bool.and_eq_true, Bool.and_eq_true] at this
    exact this.1.1

/-- An order whose destination is no bay held DISCREPANCY is given none such. -/
theorem State.choice_avoids {p : Order} (hb : (s.bay b).hold = some .discrepancy) (hp : p.dest ≠ some (.bay b)) :
    s.choice p ≠ some (.bay b) := by
  have closed := Bay.open_held hb
  unfold State.choice
  split
  · exact hp
  · split
    · next c _ =>
      split
      · next hadmit =>
        intro h
        cases h
        rw [State.admitsMove, closed] at hadmit
        cases hadmit
      · exact nofun
    · next hne => exact fun h => hne b h
  all_goals
    split
    · next d hd => rwa [← hd]
    · intro h
      obtain ⟨r, _, hr⟩ := Option.bind_eq_some_iff.mp h
      obtain ⟨c, hc, hcb⟩ := Option.map_eq_some_iff.mp hr
      cases hcb
      rw [State.chooseBay_open hc] at closed
      cases closed

/-- What a redirect leaves of its order's destination: the one it had, or the one chosen. -/
theorem State.redirect_dest {p : Order} (hp : s.order n = some p) :
    ∃ q, (s.redirect n).order n = some q ∧ (q.dest = p.dest ∨ q.dest = s.choice p) := by
  have written (f : Order → Order) {t : State} (ht : t.orders = (s.modOrder n f).orders) : t.order n = some (f p) := by
    refine (congrArg (Tbl.find · n) ht).trans ((Law.order_mod s n n f).trans ?_)
    rw [if_pos rfl, hp]
    rfl
  unfold State.redirect
  rw [hp]
  dsimp only
  split
  · split
    · next d hd => exact ⟨_, written ({ · with dest := some d, noBay := false }) rfl, .inr hd.symm⟩
    · exact ⟨_, written ({ · with noBay := true }) (OrdersAfter.storeFull ..), .inl rfl⟩
  · split
    · exact ⟨_, written ({ · with noBay := true, noRoute := false }) ((OrdersAfter.newDrop ..).trans (OrdersAfter.storeFull ..)), .inl rfl⟩
    · next d hd =>
      split
      · exact ⟨_, written ({ · with noBay := false, noRoute := true }) (OrdersAfter.newDrop ..), .inl rfl⟩
      · exact ⟨_, written ({ · with dest := some d, noBay := false, noRoute := false }) (OrdersAfter.newDrop ..), .inr hd.symm⟩

theorem State.rerouteFrom_live {p : Order} (hp : s.order n = some p) : s.rerouteFrom n = (s.withdrawBay n p).redirect n := by
  rw [State.rerouteFrom, hp]

theorem State.rerouteFrom_only (s : State) (n : Nat) : Law.changesOnly Law.newDestination n s (s.rerouteFrom n) := by
  cases hp : s.order n with
  | none =>
    rw [State.rerouteFrom, hp]
    exact Law.changesOnly_same _ Law.newDestination_refl n rfl
  | some p =>
    rw [State.rerouteFrom_live hp]
    refine Law.changesOnly_comp (fun a b c hab hbc => ?_) ⟨fun m hm => ?_, fun hdead => ?_, fun x hx => ?_⟩ (OrderLaw.redirect_only _ n)
    · unfold Law.newDestination at *
      rw [hbc, hab]
    · rw [State.withdrawBay_order, if_neg hm]
    · cases hp.symm.trans hdead
    · refine ⟨_, by rw [State.withdrawBay_order, if_pos rfl, hx]; rfl, ?_⟩
      split <;> rfl

theorem State.rerouteFrom_bays (s : State) (n : Nat) : (s.rerouteFrom n).bays = s.bays :=
  ((State.wr_rerouteFrom (k := 0) .refl n).kept_bays Nat.zero_lt_one).1

theorem State.rerouteFrom_bay (s : State) (n c : Nat) : (s.rerouteFrom n).bay c = s.bay c := by
  unfold State.bay
  rw [State.rerouteFrom_bays]

/-- An order chosen anew has no destination in a bay held DISCREPANCY. -/
theorem State.rerouteFrom_avoids {p : Order} (hb : (s.bay b).hold = some .discrepancy) (hp : s.order n = some p) :
    ∃ q, (s.rerouteFrom n).order n = some q ∧ q.dest ≠ some (.bay b) := by
  rw [State.rerouteFrom_live hp]
  have hq : (s.withdrawBay n p).order n = some (if p.dest.any Dest.isBay then { p with dest := none } else p) := by
    rw [State.withdrawBay_order, if_pos rfl, hp]
    rfl
  have hdest : (if p.dest.any Dest.isBay then { p with dest := none } else p).dest ≠ some (.bay b) := by
    split
    · exact nofun
    · next h => exact Order.isBay_false h b
  have held : ((s.withdrawBay n p).bay b).hold = some .discrepancy := by
    rwa [State.bay, ((State.wr_withdrawBay (k := 0) .refl n p).kept_bays Nat.zero_lt_one).1]
  obtain ⟨q, hq, h | h⟩ := State.redirect_dest hq
  · exact ⟨q, hq, h ▸ hdest⟩
  · exact ⟨q, hq, h ▸ State.choice_avoids held hdest⟩

/-- An order without a destination in a bay held DISCREPANCY has none there after any order is chosen anew. -/
theorem State.rerouteFrom_keeps_away {m : Nat} {p : Order} (k : Nat) (hb : (s.bay b).hold = some .discrepancy) (hp : s.order m = some p)
    (hdest : p.dest ≠ some (.bay b)) : ∃ q, (s.rerouteFrom k).order m = some q ∧ q.dest ≠ some (.bay b) := by
  by_cases hm : m = k
  · exact hm ▸ State.rerouteFrom_avoids hb hp
  · exact ⟨p, ((s.rerouteFrom_only k).1 m hm).trans hp, hdest⟩

theorem State.rerouteFrom_vehicle_order (s : State) (k v : Nat) : ((s.rerouteFrom k).vehicle v).order = (s.vehicle v).order := by
  cases hp : s.order k with
  | none => rw [State.rerouteFrom, hp]
  | some p =>
    rw [State.rerouteFrom_live hp]
    obtain ⟨l, j, t, h⟩ := State.redirect_rerouted (s.withdrawBay k p) k v
    rw [h]
    exact congrArg (fun t => Vehicle.order (Tbl.get t v .cold)) (OrderLaw.with_rest s k p).2.2.1

/-! ## A list of put-aways chosen anew -/

theorem State.rerouted_orders {m : Nat} {p : Order} (ns : List Nat) (hp : s.order m = some p) :
    ∃ q, (s.each ns fun n s => s.rerouteFrom n).order m = some q ∧ Law.newDestination p q := by
  refine State.each_keeps (P := fun u => ∃ q, u.order m = some q ∧ Law.newDestination p q) (fun k u ⟨q, hq, hpq⟩ => ?_) ns
    ⟨p, hp, Law.newDestination_refl p⟩
  by_cases hm : m = k
  · subst hm
    obtain ⟨q', hq', hqq⟩ := (u.rerouteFrom_only m).2.2 q hq
    refine ⟨q', hq', ?_⟩
    unfold Law.newDestination at *
    rw [hqq, hpq]
  · exact ⟨q, ((u.rerouteFrom_only k).1 m hm).trans hq, hpq⟩

theorem State.rerouted_unlisted {m : Nat} {ns : List Nat} (hm : m ∉ ns) :
    (s.each ns fun n s => s.rerouteFrom n).order m = s.order m :=
  Law.each_other (·.order m) _ ns (fun k hk u => (u.rerouteFrom_only k).1 m fun h => hm (h ▸ hk)) s

theorem State.rerouted_bays (s : State) (ns : List Nat) : (s.each ns fun n s => s.rerouteFrom n).bays = s.bays :=
  RollsAfter.each (·.bays) _ (fun n u => u.rerouteFrom_bays n) ns s

theorem State.rerouted_away {m : Nat} {p : Order} (ns : List Nat) (hb : (s.bay b).hold = some .discrepancy) (hp : s.order m = some p)
    (hdest : p.dest ≠ some (.bay b)) : ∃ q, (s.each ns fun n s => s.rerouteFrom n).order m = some q ∧ q.dest ≠ some (.bay b) := by
  have kept := State.each_keeps (f := fun n s => s.rerouteFrom n)
    (P := fun u => (u.bay b).hold = some .discrepancy ∧ ∃ q, u.order m = some q ∧ q.dest ≠ some (.bay b))
    (fun k u ⟨held, q, hq, hd⟩ => ⟨by rw [u.rerouteFrom_bay]; exact held, State.rerouteFrom_keeps_away k held hq hd⟩) ns ⟨hb, p, hp, hdest⟩
  exact kept.2

/-- An order of the list is chosen away from the bay held DISCREPANCY, whatever its destination was. -/
theorem State.rerouted_listed {m : Nat} {p : Order} {ns : List Nat} (hm : m ∈ ns) (hb : (s.bay b).hold = some .discrepancy)
    (hp : s.order m = some p) : ∃ q, (s.each ns fun n s => s.rerouteFrom n).order m = some q ∧ q.dest ≠ some (.bay b) := by
  obtain ⟨before, after, _, heach⟩ := State.each_first (s := s) (f := fun n s => s.rerouteFrom n) hm
  obtain ⟨x, hx, _⟩ := State.rerouted_orders (s := s) before hp
  have held : ((s.each before fun n s => s.rerouteFrom n).bay b).hold = some .discrepancy := by
    rwa [State.bay, State.rerouted_bays]
  obtain ⟨q, hq, hdest⟩ := State.rerouteFrom_avoids held hx
  rw [heach]
  exact State.rerouted_away after (by rwa [State.rerouteFrom_bay]) hq hdest

theorem State.mem_withdrawable (h : s.orders.rising = true) (b m : Nat) : m ∈ s.withdrawable b ↔
    ∃ p, s.order m = some p ∧ p.dest = some (.bay b) ∧ p.state ≠ .failed ∧ p.state ≠ .unloading := by
  unfold State.withdrawable
  rw [List.mem_map]
  constructor
  · rintro ⟨⟨k, p⟩, hmem, rfl⟩
    rw [Law.mem_ranked, List.mem_filter] at hmem
    simp only [Bool.and_eq_true, beq_iff_eq, bne_iff_ne, and_assoc] at hmem
    exact ⟨p, Law.find_rising h hmem.1, hmem.2⟩
  · rintro ⟨p, hp, hdest, hfailed, hunload⟩
    refine ⟨(m, p), ?_, rfl⟩
    rw [Law.mem_ranked, List.mem_filter]
    exact ⟨Tbl.mem_of_find hp, by simp [hdest, hfailed, hunload]⟩

end

/-! ## A confirmed discrepancy (R42) -/

section
variable {s : State} {b : Nat}

/-- The state in which the put-aways to a confirmed bay are withdrawn: the top roll released, the bay and its stack held. -/
def State.heldAt (s : State) (b : Nat) : State :=
  ((s.releaseTop b).modBay b ({ · with hold := some .discrepancy })).each (s.bay b).stack fun n s => s.holdDiscrepancy n

theorem State.confirmBay_steps (s : State) (b : Nat) : s.confirmBay b =
    ((s.heldAt b).each ((s.heldAt b).withdrawable b) fun n s => s.rerouteFrom n).raise .rollDiscrepancy
      ((s.bay b).stack.head?.getD 0) := rfl

theorem State.holdDiscrepancy_rest (s : State) (n : Nat) : (s.holdDiscrepancy n).bays = s.bays ∧ (s.holdDiscrepancy n).orders = s.orders ∧
    (s.holdDiscrepancy n).vehicles = s.vehicles ∧ (s.holdDiscrepancy n).attn = s.attn := by
  unfold State.holdDiscrepancy
  exact ⟨State.modRoll_bays .., State.modRoll_orders .., State.modRoll_vehicles .., State.modRoll_attn ..⟩

theorem State.heldAt_bay (s : State) (b c : Nat) :
    (s.heldAt b).bay c = if c = b then { s.bay b with hold := some .discrepancy } else s.bay c := by
  have kept (c : Nat) : (s.releaseTop b).bay c = s.bay c := by
    unfold State.bay
    rw [((State.wr_releaseTop (k := 0) .refl b).kept_bays Nat.zero_lt_one).1]
  unfold State.heldAt
  refine (congrArg (Tbl.get · c .cold) (RollsAfter.each (·.bays) _ (fun n u => (u.holdDiscrepancy_rest n).1) ..)).trans ?_
  refine (Law.bay_mod _ b c _).trans ?_
  rw [kept, kept]

theorem State.heldAt_order (s : State) (b m : Nat) : (s.heldAt b).order m = (s.releaseTop b).order m :=
  congrArg (Tbl.find · m) (RollsAfter.each (·.orders) _ (fun n u => (u.holdDiscrepancy_rest n).2.1) ..)

theorem State.heldAt_vehicle (s : State) (b v : Nat) : (s.heldAt b).vehicle v = (s.releaseTop b).vehicle v :=
  congrArg (fun t : Tbl Vehicle => t.get v .cold) (RollsAfter.each (·.vehicles) _ (fun n u => (u.holdDiscrepancy_rest n).2.2.1) ..)

theorem State.heldAt_discrepancy (s : State) (b : Nat) :
    (s.heldAt b).attn.find Cond.rollDiscrepancy.place = s.attn.find Cond.rollDiscrepancy.place :=
  (congrArg (Tbl.find · _) (RollsAfter.each (·.attn) _ (fun n u => (u.holdDiscrepancy_rest n).2.2.2) ..)).trans
    ((State.wr_releaseTop (k := 0) .refl b).kept_discrepancy Nat.zero_lt_one)

theorem State.heldAt_roll {n : Nat} {x : Roll} (hn : n ∈ (s.bay b).stack) (hx : (s.releaseTop b).roll n = some x) :
    (s.heldAt b).roll n = some { x with hold := some (x.hold.getD .discrepancy) } := by
  have held := (Law.mapEach (fun r => { r with hold := some (r.hold.getD .discrepancy) }) (fun _ => rfl) (s.bay b).stack
    ((s.releaseTop b).modBay b ({ · with hold := some .discrepancy }))).1 n x hx
  rwa [if_pos hn] at held

theorem State.heldAt_rising (h : s.orders.rising = true) : (s.heldAt b).orders.rising = true := by
  unfold State.heldAt
  rw [RollsAfter.each (·.orders) _ (fun n u => (u.holdDiscrepancy_rest n).2.1)]
  exact Law.rise (t := s.releaseTop b) (State.wr_releaseTop .refl b) h

theorem State.confirmBay_bay (s : State) (b c : Nat) :
    (s.confirmBay b).bay c = if c = b then { s.bay b with hold := some .discrepancy } else s.bay c := by
  rw [State.confirmBay_steps, ← s.heldAt_bay]
  exact congrArg (Tbl.get · c .cold) (State.rerouted_bays ..)

theorem State.confirmBay_attn (s : State) (b : Nat) : (s.confirmBay b).attn.find Cond.rollDiscrepancy.place =
    some (AttnEntry.raised (s.attn.find Cond.rollDiscrepancy.place) ((s.bay b).stack.head?.getD 0)) := by
  rw [State.confirmBay_steps, State.raise]
  dsimp only
  rw [Tbl.find_put_same, RollsAfter.each (fun u => u.attn.find Cond.rollDiscrepancy.place) _
    (fun n u => (State.wr_rerouteFrom (k := 0) .refl n).kept_discrepancy Nat.zero_lt_one), s.heldAt_discrepancy]

theorem State.confirmBay_roll {n : Nat} {x : Roll} (hn : n ∈ (s.bay b).stack) (hx : (s.releaseTop b).roll n = some x) :
    (s.confirmBay b).roll n = some { x with hold := some (x.hold.getD .discrepancy) } := by
  rw [State.confirmBay_steps, ← State.heldAt_roll hn hx]
  exact congrArg (Tbl.find · n) (RollsAfter.each (·.rolls) _ (fun n u => RollsAfter.rerouteFrom u n) ..)

theorem State.confirmBay_order (s : State) (b m : Nat) : (s.confirmBay b).order m =
    ((s.heldAt b).each ((s.heldAt b).withdrawable b) fun n s => s.rerouteFrom n).order m := rfl

theorem State.confirmBay_vehicle_order (s : State) (b v : Nat) :
    ((s.confirmBay b).vehicle v).order = ((s.releaseTop b).vehicle v).order := by
  rw [← s.heldAt_vehicle]
  exact RollsAfter.each (fun u => (u.vehicle v).order) (fun n u => u.rerouteFrom n) (fun n u => u.rerouteFrom_vehicle_order n v) ..

theorem State.confirmBay_holds {n : Nat} {r : Roll} (hn : n ∈ (s.bay b).stack) (hr : s.roll n = some r) :
    ∃ x, (s.confirmBay b).roll n = some x ∧ x.hold = some (r.hold.getD .discrepancy) := by
  obtain ⟨x, hx, hhold⟩ := State.releaseTop_hold b hr
  exact ⟨_, State.confirmBay_roll hn hx, by rw [hhold]⟩

/-- The reservation of the top roll is released, its order PENDING without it and its vehicle unlinked. -/
theorem State.confirmBay_releases {n o : Nat} {r : Roll} {p : Order} (htop : s.top b = some n) (hr : s.roll n = some r)
    (hstate : r.state = .reserved) (horder : r.order = some o) (hp : s.order o = some p) (hroll : p.roll = some n) :
    (s.confirmBay b).roll n = some { r with state := .stored, order := none, hold := some (r.hold.getD .discrepancy) } ∧
    (∃ q, (s.confirmBay b).order o = some q ∧ q.state = .pending ∧ q.vehicle = none ∧ q.roll = none ∧ q.seq = p.seq) ∧
    ∀ v, p.vehicle = some v → (s.vehicle v).order = some o → ((s.confirmBay b).vehicle v).order = none := by
  have released := State.releaseTop_reserved htop hr hstate horder
  refine ⟨?_, ?_, fun v hv hlink => ?_⟩
  · refine State.confirmBay_roll (x := { r with state := .stored, order := none }) (List.mem_of_getLast? htop) ?_
    rw [released, State.returnToPending_roll hp, if_pos hroll, hr, Option.map_some, if_pos hstate]
  · obtain ⟨x, hx, hpending, hvehicle, hseq, _, hnone⟩ := State.returnToPending_own hp
    rw [← released, ← s.heldAt_order] at hx
    obtain ⟨q, hq, hxq⟩ := State.rerouted_orders ((s.heldAt b).withdrawable b) hx
    refine ⟨q, hq, ?_⟩
    rw [hxq]
    exact ⟨hpending, hvehicle, hnone n r hroll hr hstate, hseq⟩
  · rw [State.confirmBay_vehicle_order, released]
    exact State.returnToPending_unlinks hp hv hlink

theorem State.heldAt_hold (s : State) (b : Nat) : ((s.heldAt b).bay b).hold = some .discrepancy := by
  rw [State.heldAt_bay, if_pos rfl]

/-- A put-away under way to the bay, not UNLOADING there, loses it. -/
theorem State.confirmBay_withdraws {m : Nat} {p : Order} (h : s.orders.rising = true) (hp : s.order m = some p)
    (hdest : p.dest = some (.bay b)) (hfailed : p.state ≠ .failed) (hunload : p.state ≠ .unloading) :
    ∃ q, (s.confirmBay b).order m = some q ∧ q.dest ≠ some (.bay b) := by
  rw [State.confirmBay_order]
  rcases State.releaseTop_order b hp with hx | ⟨x, hx, haway⟩ <;> rw [← s.heldAt_order] at hx
  · have listed := (State.mem_withdrawable (State.heldAt_rising h) b m).mpr ⟨p, hx, hdest, hfailed, hunload⟩
    exact State.rerouted_listed listed (s.heldAt_hold b) hx
  · exact State.rerouted_away _ (s.heldAt_hold b) hx (haway b)

/-- A put-away UNLOADING at the bay keeps it. -/
theorem State.confirmBay_keeps_unloading {m : Nat} {p : Order} (h : s.orders.rising = true) (hp : s.order m = some p)
    (hunload : p.state = .unloading) (hfree : ∀ n r, s.top b = some n → s.roll n = some r → r.order ≠ some m) :
    (s.confirmBay b).order m = some p := by
  have hx : (s.heldAt b).order m = some p := (s.heldAt_order b m).trans ((State.releaseTop_other hfree).trans hp)
  rw [State.confirmBay_order, State.rerouted_unlisted fun hm => ?_, hx]
  obtain ⟨q, hq, _, _, hnot⟩ := (State.mem_withdrawable (State.heldAt_rising h) b m).mp hm
  rw [hx] at hq
  exact hnot (Option.some.inj hq ▸ hunload)

end

/-! ## One height taken for its bay (R40, R41) -/

section
variable {s : State} {b h : Nat}

/-- The state in which a height has been written for its bay. -/
def State.heightWritten (s : State) (b h : Nat) : State := s.modBay b ({ · with lastHeight := some h })

theorem State.heightWritten_bay (s : State) (b h : Nat) : (s.heightWritten b h).bay b = { s.bay b with lastHeight := some h } :=
  (Law.bay_mod ..).trans (if_pos rfl)

theorem State.takeHeight_idle (hidle : (s.bay b).limit = 0 ∨ (s.bay b).hold = some .discrepancy) :
    s.takeHeight b h = s.heightWritten b h := if_pos hidle

section
variable (hlive : ¬ ((s.bay b).limit = 0 ∨ (s.bay b).hold = some .discrepancy))
include hlive

theorem State.takeHeight_matches (hmatch : s.heightMatches b h = true) :
    s.takeHeight b h = (s.heightWritten b h).modBay b ({ · with confirm := 0 }) :=
  (if_neg hlive).trans (if_pos hmatch)

section
variable (hmiss : ¬ s.heightMatches b h = true)
include hmiss

theorem State.takeHeight_marked (hmark : (s.bay b).mark.isSome = true) : s.takeHeight b h = s.heightWritten b h :=
  (if_neg hlive).trans ((if_neg hmiss).trans (if_pos hmark))

section
variable (hmark : ¬ (s.bay b).mark.isSome = true)
include hmark

theorem State.takeHeight_first (hcount : (s.bay b).confirm = 0) :
    s.takeHeight b h = (s.heightWritten b h).modBay b ({ · with confirm := 1 }) :=
  (if_neg hlive).trans ((if_neg hmiss).trans ((if_neg hmark).trans (if_pos hcount)))

theorem State.takeHeight_confirms (hcount : (s.bay b).confirm ≠ 0) :
    s.takeHeight b h = ((s.heightWritten b h).modBay b ({ · with confirm := 0 })).confirmBay b :=
  (if_neg hlive).trans ((if_neg hmiss).trans ((if_neg hmark).trans (if_neg hcount)))

end
end
end

/-- The state a confirmation starts from: the height written, the count cleared. -/
theorem State.modBay_heightWritten (s : State) (b h : Nat) (f : Bay → Bay) :
    (s.heightWritten b h).modBay b f = { s with bays := s.bays.set b .cold (f { s.bay b with lastHeight := some h }) } := by
  unfold State.modBay
  rw [s.heightWritten_bay]
  exact congrArg (fun t : Tbl Bay => { s with bays := t }) (Tbl.set_set ..)

theorem State.modBay_heightWritten_bay (s : State) (b h : Nat) (f : Bay → Bay) :
    ((s.heightWritten b h).modBay b f).bay b = f { s.bay b with lastHeight := some h } := by
  refine (Law.bay_mod ..).trans ?_
  rw [if_pos rfl, s.heightWritten_bay]

/-- A height other than the stack's length matches where the mark's vehicle is in the transfer that explains it. -/
theorem State.heightMatches_iff {v : Nat} (hmark : (s.bay b).mark = some v) (hne : h ≠ (s.bay b).stack.length) :
    s.heightMatches b h = true ↔ ((s.vehicle v).state = .loading ∧ h = (s.bay b).stack.length - 1) ∨
      ((s.vehicle v).state = .unloading ∧ h = (s.bay b).stack.length + 1) := by
  simp only [State.heightMatches, State.transferHeight, hmark, Option.isSome_some, Bool.and_true, Bool.or_eq_true, beq_iff_eq, hne,
    false_or]
  cases (s.vehicle v).state <;> simp [eq_comm]

theorem State.heightMatches_unmarked (hmark : (s.bay b).mark = none) : s.heightMatches b h = true ↔ h = (s.bay b).stack.length := by
  simp [State.heightMatches, hmark]

theorem State.takeHeight_other (s : State) (h : Nat) {b c : Nat} (hc : c ≠ b) : (s.takeHeight b h).bay c = s.bay c := by
  have written : (s.heightWritten b h).bay c = s.bay c := (Law.bay_mod ..).trans (if_neg hc)
  have twice (f : Bay → Bay) : ((s.heightWritten b h).modBay b f).bay c = s.bay c := ((Law.bay_mod ..).trans (if_neg hc)).trans written
  by_cases hidle : (s.bay b).limit = 0 ∨ (s.bay b).hold = some .discrepancy
  · rw [State.takeHeight_idle hidle, written]
  by_cases hmatch : s.heightMatches b h = true
  · rw [State.takeHeight_matches hidle hmatch, twice]
  by_cases hmark : (s.bay b).mark.isSome = true
  · rw [State.takeHeight_marked hidle hmatch hmark, written]
  by_cases hcount : (s.bay b).confirm = 0
  · rw [State.takeHeight_first hidle hmatch hmark hcount, twice]
  · rw [State.takeHeight_confirms hidle hmatch hmark hcount, State.confirmBay_bay, if_neg hc, twice]

theorem State.takeHeight_lastHeight (s : State) (b h : Nat) : ((s.takeHeight b h).bay b).lastHeight = some h := by
  by_cases hidle : (s.bay b).limit = 0 ∨ (s.bay b).hold = some .discrepancy
  · rw [State.takeHeight_idle hidle, State.heightWritten_bay]
  by_cases hmatch : s.heightMatches b h = true
  · rw [State.takeHeight_matches hidle hmatch, State.modBay_heightWritten_bay]
  by_cases hmark : (s.bay b).mark.isSome = true
  · rw [State.takeHeight_marked hidle hmatch hmark, State.heightWritten_bay]
  by_cases hcount : (s.bay b).confirm = 0
  · rw [State.takeHeight_first hidle hmatch hmark hcount, State.modBay_heightWritten_bay]
  · rw [State.takeHeight_confirms hidle hmatch hmark hcount, State.confirmBay_bay, if_pos rfl, State.modBay_heightWritten_bay]

/-- The bays outside the range of a report are as they were. -/
theorem State.takeHeights_other (hs : List Nat) {b f : Nat} (hb : b < f ∨ f + hs.length ≤ b) (s : State) :
    (State.takeHeights f hs s).bay b = s.bay b := by
  induction hs generalizing f s with
  | nil => rfl
  | cons h hs ih =>
    rw [List.length_cons] at hb
    exact (ih (by omega) (s.takeHeight f h)).trans (s.takeHeight_other h (by omega))

end

/-! ## The report (R40) -/

section
variable {s : State} {e : Exchange} {x : Station} {hs : List Nat} {more : Bool}

theorem execBayHeights_refused (hh : s.hears e x) (hno : ∀ f c, x.role = .bayNode f c → hs.length ≠ c) :
    execBayHeights hs more s = .next ((s.heard e more).refuse e.addr .bayHeights .badArgument) := by
  refine Law.report_refuse hh ?_
  split
  · next f c hr => exact if_neg fun h => hno f c hr h.1
  · rfl

theorem execBayHeights_taken {f c : Nat} (hh : s.hears e x) (hr : x.role = .bayNode f c) (hlen : hs.length = c) (hfit : ∀ h ∈ hs, h ≤ 15) :
    execBayHeights hs more s = .next (State.takeHeights f hs (s.heard e more)).finish := by
  rw [execBayHeights, report_heard hh, hr]
  dsimp only
  rw [if_pos ⟨hlen, List.all_eq_true.mpr fun h hmem => decide_eq_true (hfit h hmem)⟩]

end

/-- Settles O21: a report is read height by height, and a height by the comparison of R41; the confirmation's effects are those of
its steps. -/
theorem bayHeightsAreCompared : Obligations.BayHeightsAreCompared := by
  refine ⟨fun s e x hs more hh => ⟨execBayHeights_refused hh, fun f c hr hlen hfit => ?_⟩, fun s f h hs => ⟨rfl, rfl⟩, fun s b h => ?_⟩
  · refine ⟨execBayHeights_taken hh hr hlen hfit, fun b hb => ?_⟩
    rw [State.takeHeights_other hs (hlen ▸ hb), Law.heard_bay]
  intro t
  refine ⟨s.takeHeight_lastHeight b h, fun hidle => ?_, fun hlimit hhold => ?_⟩
  · exact (congrArg (State.bay · b) (State.takeHeight_idle hidle)).trans (s.heightWritten_bay b h)
  have hlive : ¬ ((s.bay b).limit = 0 ∨ (s.bay b).hold = some .discrepancy) := not_or.mpr ⟨hlimit, hhold⟩
  have matched (hmatch : s.heightMatches b h = true) : t.bay b = { s.bay b with lastHeight := some h, confirm := 0 } :=
    (congrArg (State.bay · b) (State.takeHeight_matches hlive hmatch)).trans (s.modBay_heightWritten_bay b h _)
  have miss (hmark : (s.bay b).mark = none) (hne : h ≠ (s.bay b).stack.length) : ¬ s.heightMatches b h = true :=
    fun hmatch => hne ((State.heightMatches_unmarked hmark).mp hmatch)
  have unmarked (hmark : (s.bay b).mark = none) : ¬ (s.bay b).mark.isSome = true := by simp [hmark]
  refine ⟨fun heq => matched (by simp [State.heightMatches, heq]), fun v hmark hne => ?_, fun hmark hne hcount => ?_,
    fun hmark hne hcount => ?_⟩
  · split
    · next hmoves => exact matched ((State.heightMatches_iff hmark hne).mpr hmoves)
    · next hrests =>
      have hmiss := mt (State.heightMatches_iff hmark hne).mp hrests
      exact (congrArg (State.bay · b) (State.takeHeight_marked hlive hmiss (by rw [hmark]; rfl))).trans (s.heightWritten_bay b h)
  · exact (State.takeHeight_first hlive (miss hmark hne) (unmarked hmark) hcount).trans (s.modBay_heightWritten b h _)
  · obtain ⟨u, hu⟩ : ∃ u, u = (s.heightWritten b h).modBay b ({ · with confirm := 0 }) := ⟨_, rfl⟩
    have ht : t = u.confirmBay b := hu ▸ State.takeHeight_confirms hlive (miss hmark hne) (unmarked hmark) hcount
    have hbay : u.bay b = { s.bay b with lastHeight := some h, confirm := 0 } := hu ▸ s.modBay_heightWritten_bay b h _
    have hstack : (u.bay b).stack = (s.bay b).stack := by rw [hbay]
    have hrest : u.roll = s.roll ∧ u.order = s.order ∧ u.vehicle = s.vehicle ∧ u.attn = s.attn ∧ u.orders = s.orders :=
      hu ▸ ⟨rfl, rfl, rfl, rfl, rfl⟩
    obtain ⟨hroll, horder, hvehicle, hattn, horders⟩ := hrest
    clear_value t
    subst ht
    rw [← hroll, ← horder, ← hvehicle, ← hattn, ← horders, ← hstack]
    refine ⟨by rw [State.confirmBay_bay, if_pos rfl, hbay], u.confirmBay_attn b, fun n r hn hr => State.confirmBay_holds hn hr,
      fun n r o p hn hr hstate ho hp hproll => State.confirmBay_releases hn hr hstate ho hp hproll,
      fun m p hrise hp hdest => ⟨fun hstate => ?_, ?_⟩⟩
    · have rests : p.state ≠ .failed ∧ p.state ≠ .unloading := by rcases hstate with h | h | h | h <;> simp [h]
      exact State.confirmBay_withdraws hrise hp hdest rests.1 rests.2
    · exact fun hunload hfree => ⟨p, State.confirmBay_keeps_unloading hrise hp hunload hfree, hdest, hunload⟩

end Sys2Proof.Machine
end

section
/-! Proofs about SET_GRADE (R45, R46): which grades are in use, the checks of both forms, and what an accepted request writes. -/

namespace Sys2Proof.Machine

/-! ## A grade in use (R45) -/

section
variable {s : State} {g : Nat}

theorem exists_mem_span {p : Nat → Prop} {lo hi : Nat} : (∃ n ∈ span lo hi, p n) ↔ ∃ n, lo ≤ n ∧ n ≤ hi ∧ p n := by
  simp only [Law.mem_span, and_assoc]

theorem State.gradeInUse_iff (s : State) (g : Nat) : s.gradeInUse g = true ↔
    (∃ e ∈ s.rolls, e.2.grade = g) ∨
    (∃ l, 1 ≤ l ∧ l ≤ 4 ∧ ((∃ p ∈ (s.line l).live.positions, p.grade = g) ∨
      ((s.line l).pending = true ∧ ∃ p ∈ (s.line l).working.positions, p.grade = g))) ∨
    ∃ e ∈ s.orders, e.2.kind = .callOff ∧ e.2.grade = some g := by
  simp only [State.gradeInUse, Bool.or_eq_true, Bool.and_eq_true, List.any_eq_true, beq_iff_eq, exists_mem_span, or_assoc, Config.lines]

theorem Grade.inRange_iff (x : Grade) : x.inRange = true ↔ 30 ≤ x.basis ∧ x.basis ≤ 120 ∧ 40 ≤ x.caliper ∧ x.caliper ≤ 200 ∧
    800 ≤ x.core ∧ x.core ≤ 1600 ∧ 1200 ≤ x.threshold ∧ x.threshold ≤ 6000 ∧ x.core < x.threshold := by
  simp only [Grade.inRange, Bool.and_eq_true, within_iff, decide_eq_true_eq, and_assoc]

/-! ## The record written (R46) -/

/-- A request that writes a grade's record once its arguments are good. -/
theorem request_writesGrade {i : Instr} {owner : State → Reply} {ok : Prop} [Decidable ok] {x : Grade} (ht : s.takes i = true)
    (howner : owner s.fresh = if ok then s.fresh.writeGrade g x else s.fresh.no .badArgument) :
    (¬ ok → request i owner s = .next (s.fresh.replied i .badArgument [])) ∧
    (ok → s.gradeInUse g = true → s.grade g ≠ x → request i owner s = .next (s.fresh.replied i .badState [])) ∧
    (ok → ¬ s.gradeInUse g = true ∨ s.grade g = x →
      request i owner s = .next ({ s.fresh with grades := s.grades.set g .cold x }.replied i .ok [])) := by
  refine ⟨fun hbad => request_refused ht (by rw [howner, if_neg hbad]), fun hok huse hne => request_refused ht ?_, fun hok hfree => ?_⟩
  · rw [howner, if_pos hok]
    exact if_pos ⟨huse, hne⟩
  · refine request_eq_quiet (q := State.ok _) ht ?_ rfl rfl
    rw [howner, if_pos hok]
    exact if_neg fun h => hfree.elim (· h.1) h.2

end

/-- Settles O23: both forms are one write of the grade's record behind their own range check. -/
theorem setGradeWritesTheGrade : Obligations.SetGradeWritesTheGrade := by
  intro s g
  simp only [← State.gradeInUse_iff]
  refine ⟨fun basis caliper core threshold ht => ?_, fun caliper ht => ?_⟩
  · simp only [← Grade.inRange_iff ⟨basis, caliper, core, threshold⟩]
    exact request_writesGrade ht rfl
  · obtain ⟨hbad, hused, hwritten⟩ := request_writesGrade (g := g) (ok := g ≤ 15 ∧ caliper = 0) (x := .cold) ht
      (owner := (·.clearGrade g caliper)) rfl
    exact ⟨fun h => hbad (by omega), fun hg hc => hused ⟨hg, hc⟩, fun hg hc => hwritten ⟨hg, hc⟩⟩

end Sys2Proof.Machine
end

section
/-! Proofs about WRITE_PLAN (R48, R50, R51, R58): the checks of both forms, the working copy written, and the follow-write of an IDLE line. -/

namespace Sys2Proof.Machine

/-! ## The argument checks (R48, R50) -/

theorem lineOk_iff {l : Nat} : lineOk l = true ↔ 1 ≤ l ∧ l ≤ 4 := within_iff

theorem headOk_iff (h : PlanHead) : headOk h = true ↔ 1 ≤ h.job ∧ h.job ≤ 65535 ∧ h.target ≤ 4294967295 ∧ h.allowance ≤ 65535 ∧
    h.window ≤ 500 ∧ 60 ≤ h.lead ∧ h.lead ≤ 3600 ∧ h.prep ≤ 1800 ∧ h.autoRestart ≠ none ∧ h.breakBrake ≠ none ∧ 20 ≤ h.restartSpeed ∧
    h.restartSpeed ≤ 300 ∧ h.margin ≤ 1000 := by
  simp only [headOk, Bool.and_eq_true, within_iff, Option.isSome_iff_ne_none, Nat.zero_le, true_and, and_assoc, Config.max32]

theorem standsDiffer_iff (ps : List Position) : standsDiffer ps = true ↔ (ps.map Position.stand).Nodup := by
  induction ps with
  | nil => simp [standsDiffer]
  | cons p ps ih => simp [standsDiffer, ih, List.mem_map]

theorem Grade.configured_iff (x : Grade) : x.configured = true ↔ x.caliper ≠ 0 := by simp [Grade.configured]

theorem State.positionOk_iff (s : State) (p : Position) : s.positionOk p = true ↔ 1 ≤ p.stand ∧ p.stand ≤ 16 ∧ p.grade ≤ 15 ∧
    300 ≤ p.width ∧ p.width ≤ 2200 ∧ 1200 ≤ p.dt ∧ p.dt ≤ 3000 ∧ (s.grade p.grade).caliper ≠ 0 ∧ (s.grade p.grade).core < p.dt := by
  simp only [State.positionOk, Bool.and_eq_true, within_iff, Grade.configured_iff, decide_eq_true_eq, Nat.zero_le, true_and, and_assoc,
    Config.stands]

theorem State.positionsOk_iff (s : State) (ps : List Position) : s.positionsOk ps = true ↔ 1 ≤ ps.length ∧ ps.length ≤ 8 ∧
    (ps.map Position.stand).Nodup ∧ ∀ p ∈ ps, s.positionOk p = true := by
  simp only [State.positionsOk, Bool.and_eq_true, within_iff, standsDiffer_iff, List.all_eq_true, and_assoc]
  exact and_congr_right fun _ => and_congr_right fun _ => and_comm

/-! ## A stand of another line, or of its pending changeover (R51, R53) -/

/-- Some stand of a position list belongs to another line, or appears in another line's pending changeover. -/
def State.standsTaken (s : State) (l : Nat) (ps : List Position) : Prop :=
  ∃ p ∈ ps, ∃ m q, 1 ≤ m ∧ m ≤ 4 ∧ m ≠ l ∧ q.stand = p.stand ∧
    (q ∈ (s.line m).live.positions ∨ ((s.line m).pending = true ∧ q ∈ (s.line m).working.positions))

theorem State.standElsewhere_iff (s : State) (l st : Nat) : s.standElsewhere l st = true ↔
    ∃ m, 1 ≤ m ∧ m ≤ 4 ∧ m ≠ l ∧ ∃ q ∈ (s.line m).live.positions, q.stand = st := by
  simp only [State.standElsewhere, List.any_eq_true, exists_mem_span, Bool.and_eq_true, bne_iff_ne, beq_iff_eq, Config.lines]

theorem State.standPendingElsewhere_iff (s : State) (l st : Nat) : s.standPendingElsewhere l st = true ↔
    ∃ m, 1 ≤ m ∧ m ≤ 4 ∧ m ≠ l ∧ (s.line m).pending = true ∧ ∃ q ∈ (s.line m).working.positions, q.stand = st := by
  simp only [State.standPendingElsewhere, List.any_eq_true, exists_mem_span, Bool.and_eq_true, bne_iff_ne, beq_iff_eq, Config.lines,
    and_assoc]

theorem State.standsFree_iff (s : State) (l : Nat) (ps : List Position) : s.standsFree l ps = true ↔ ¬ s.standsTaken l ps := by
  rw [← Bool.not_eq_false, not_iff_not, State.standsFree, List.all_eq_false]
  refine exists_congr fun p => and_congr_right fun _ => ?_
  rw [Bool.and_eq_true, Bool.not_eq_true', Bool.not_eq_true', not_and_or, Bool.not_eq_false, Bool.not_eq_false, State.standElsewhere_iff,
    State.standPendingElsewhere_iff]
  constructor
  · rintro (⟨m, h1, h4, hm, q, hq, hst⟩ | ⟨m, h1, h4, hm, hpend, q, hq, hst⟩)
    · exact ⟨m, q, h1, h4, hm, hst, .inl hq⟩
    · exact ⟨m, q, h1, h4, hm, hst, .inr ⟨hpend, hq⟩⟩
  · rintro ⟨m, q, h1, h4, hm, hst, hq | ⟨hpend, hq⟩⟩
    · exact .inl ⟨m, h1, h4, hm, q, hq, hst⟩
    · exact .inr ⟨m, h1, h4, hm, hpend, q, hq, hst⟩

/-! ## The working copy written (R51) -/

section
variable {s : State} {l : Nat} {i : Instr} {owner : State → Reply} {p : Plan}

/-- A request that writes a line's working copy alone. -/
theorem request_writesWorking (ht : s.takes i = true) (howner : owner s.fresh = s.fresh.writeWorking l p) :
    ((s.line l).pending = true → s.planPasses l p = false → request i owner s = .next (s.fresh.replied i .badState [])) ∧
    ((s.line l).pending = false ∨ s.planPasses l p = true → request i owner s =
      .next ({ s.fresh with lines := s.lines.set l .cold { s.line l with working := p } }.replied i .ok [])) := by
  refine ⟨fun hpend hfail => request_refused ht (howner.trans (if_pos ⟨hpend, Bool.eq_false_iff.mp hfail⟩)), fun hmay => ?_⟩
  refine request_eq_quiet (q := State.ok _) ht (howner.trans (if_neg ?_)) rfl rfl
  rintro ⟨hpend, hfail⟩
  rcases hmay with hmay | hmay
  · exact Bool.false_ne_true (hmay.symm.trans hpend)
  · exact hfail hmay

end

/-! ## The follow-write of an IDLE line (R58) -/

section
variable {s : State} {l : Nat}

theorem State.followHead_writes (s : State) (l : Nat) (h : PlanHead) : Wr 1 (s.followWrite l (·.withHead h)) (s.followHead l h) :=
  State.wr_each .refl _ _ fun n _ ht => State.wr_reevaluate ht (Nat.le_refl 1) n

theorem State.followPositions_writes (s : State) (l : Nat) (ps : List Position) :
    Wr 2 (s.followWrite l ({ · with positions := ps })) (s.followPositions l ps) :=
  State.wr_replan .refl (Nat.le_refl 2) _ _ _

/-- What a HEAD follow-write answers and writes of the lines, the jobs and the grades. -/
theorem State.followHead_answers {h : PlanHead} {i : Instr} {owner : State → Reply} (ht : s.takes i = true)
    (howner : owner s.fresh = (s.fresh.followHead l h).ok) : ∃ t, request i owner s = .next t ∧ t.answers i .ok [] ∧
      t.lines = s.lines.set l .cold { s.line l with working := (s.line l).live.withHead h, live := (s.line l).live.withHead h } ∧
      t.jobs = s.jobs ∧ t.grades = s.grades := by
  have hwr := s.fresh.followHead_writes l h
  obtain ⟨hlines, hjobs⟩ := hwr.kept_lines (by omega)
  obtain ⟨t, hreq, hans, hdone, -⟩ := Law.request_done ht howner (hwr.kept (by omega)).port
  obtain ⟨tlines, tjobs, -, -, tgrades, -⟩ := Law.request_done_lines hdone
  exact ⟨t, hreq, hans, tlines.trans hlines, tjobs.trans hjobs, tgrades.trans (hwr.kept (by omega)).grades⟩

/-- What a POSITIONS follow-write answers and writes of the plans and the jobs. -/
theorem State.followPositions_answers {ps : List Position} {i : Instr} {owner : State → Reply} (ht : s.takes i = true)
    (howner : owner s.fresh = (s.fresh.followPositions l ps).ok) : ∃ t, request i owner s = .next t ∧ t.answers i .ok [] ∧
      (t.line l).working = { (s.line l).live with positions := ps } ∧ (t.line l).live = { (s.line l).live with positions := ps } ∧
      (∀ m, m ≠ l → (t.line m).working = (s.line m).working ∧ (t.line m).live = (s.line m).live) ∧
      ∀ n j, s.job n = some j → ∃ k, t.job n = some k ∧ k.state = j.state := by
  have hwr := s.fresh.followPositions_writes l ps
  obtain ⟨t, hreq, hans, hdone, -⟩ := Law.request_done ht howner (hwr.kept (by omega)).port
  have plans (m : Nat) := (hwr.kept_line (by omega) m).2 (by omega)
  have written (m : Nat) : (s.fresh.followWrite l ({ · with positions := ps })).line m =
      if m = l then { s.line l with working := { (s.line l).live with positions := ps }, live := { (s.line l).live with positions := ps } }
      else s.line m := Law.line_mod ..
  have tlive (m : Nat) := (congrArg Line.live (Law.request_done_line hdone m)).trans (plans m).1
  have tworking (m : Nat) := (congrArg Line.working (Law.request_done_line hdone m)).trans (plans m).2.1
  refine ⟨t, hreq, hans, (tworking l).trans ?_, (tlive l).trans ?_, fun m hm => ⟨(tworking m).trans ?_, (tlive m).trans ?_⟩,
    fun n j hj => ?_⟩
  · rw [written, if_pos rfl]
  · rw [written, if_pos rfl]
  · rw [written, if_neg hm]
  · rw [written, if_neg hm]
  · obtain ⟨k, hk, -, -, hstate⟩ := hwr.kept_job (by omega) n j hj
    exact ⟨k, (Law.request_done_job hdone n).trans hk, (hstate (by omega)).1⟩

end

/-! ## WRITE_PLAN -/

section
variable {s : State} {l : Nat}

theorem State.writeHead_ok {h : PlanHead} (hfit : (lineOk l && headOk h) = true) : s.writeHead l h =
    if (s.line l).counting = .idle then (s.followHead l h).ok else s.writeWorking l ((s.line l).working.withHead h) := if_pos hfit

theorem State.writePositions_ok {ps : List Position} (hfit : (lineOk l && s.positionsOk ps) = true) : s.writePositions l ps =
    if (s.line l).counting = .idle then if s.standsFree l ps then (s.followPositions l ps).ok else s.no .badState
    else s.writeWorking l { (s.line l).working with positions := ps } := if_pos hfit

end

/-- Settles O24: both forms write the working copy of a line that prints, and both copies of one that is IDLE; the effects of a
follow-write on stands and call-offs reach no plan and no job's state. -/
theorem writePlanWritesTheCopies : Obligations.WritePlanWritesTheCopies := by
  refine ⟨fun s l h ht => ?_, fun s l ps ht => ?_⟩
  · intro fits
    have hfits : fits ↔ (lineOk l && headOk h) = true := by rw [Bool.and_eq_true, lineOk_iff, headOk_iff, and_assoc]
    clear_value fits
    simp only [hfits]
    refine ⟨fun hbad => request_refused ht (if_neg hbad), fun hfit hprint => ?_, fun hfit hidle => ?_, fun p a b ha hb => ?_⟩
    · exact request_writesWorking ht ((State.writeHead_ok (s := s.fresh) hfit).trans (if_neg hprint))
    · exact State.followHead_answers ht ((State.writeHead_ok (s := s.fresh) hfit).trans (if_pos hidle))
    · rw [Plan.withHead, ha, hb]
      rfl
  · intro fits taken
    have hfits : fits ↔ (lineOk l && s.positionsOk ps) = true := by
      simp only [fits, Bool.and_eq_true, lineOk_iff, State.positionsOk_iff, State.positionOk_iff, and_assoc]
    have hfree : s.standsFree l ps = true ↔ ¬ taken := s.standsFree_iff l ps
    clear_value fits taken
    simp only [hfits]
    refine ⟨fun hbad => request_refused ht (if_neg hbad), fun hfit hprint => ?_, fun hfit hidle htaken => ?_, fun hfit hidle hnone => ?_⟩
    · exact request_writesWorking ht ((State.writePositions_ok (s := s.fresh) hfit).trans (if_neg hprint))
    · have hreply := (State.writePositions_ok (s := s.fresh) hfit).trans (if_pos hidle)
      exact request_refused ht (hreply.trans (if_neg fun h => hfree.mp h htaken))
    · have hreply := (State.writePositions_ok (s := s.fresh) hfit).trans (if_pos hidle)
      exact State.followPositions_answers ht (hreply.trans (if_pos (hfree.mpr hnone)))

end Sys2Proof.Machine
end

section
/-! Proofs about CHANGEOVER (R53, R54, R55): the checks in their order, the pending changeover, and the one that takes effect at once. -/

namespace Sys2Proof.Machine

/-! ## The checks (R53) -/

section
variable {s : State} {l : Nat}

theorem Plan.complete_iff (p : Plan) : p.complete = true ↔ p.job ≠ none ∧ 1 ≤ p.positions.length ∧ p.positions.length ≤ 8 := by
  simp only [Plan.complete, Bool.and_eq_true, Option.isSome_iff_ne_none, Bool.not_eq_true', List.isEmpty_eq_false_iff, decide_eq_true_eq,
    and_assoc, Nat.one_le_iff_ne_zero, ne_eq, List.length_eq_zero_iff]

theorem State.jobOpen_iff (s : State) (l : Nat) (j : Option Nat) : s.jobOpen l j = true ↔
    ∃ n x, j = some n ∧ s.job n = some x ∧ x.state = .opened ∧ x.line = l := by
  cases j with
  | none => simp [State.jobOpen]
  | some n => cases hn : s.job n <;> simp [State.jobOpen, hn]

theorem State.gradesFit_iff (s : State) (ps : List Position) : s.gradesFit ps = true ↔
    ∀ p ∈ ps, (s.grade p.grade).caliper ≠ 0 ∧ (s.grade p.grade).core < p.dt := by
  simp only [State.gradesFit, List.all_eq_true, Bool.and_eq_true, Grade.configured_iff, decide_eq_true_eq]

theorem State.planPasses_iff (s : State) (l : Nat) (p : Plan) : s.planPasses l p = true ↔
    p.complete = true ∧ s.jobOpen l p.job = true ∧ s.gradesFit p.positions = true ∧ s.standsFree l p.positions = true := by
  simp only [State.planPasses, Bool.and_eq_true, and_assoc]

theorem State.changeoverRequest_badLine (h : ¬ lineOk l = true) : s.changeoverRequest l = s.no .badArgument := by
  simp [State.changeoverRequest, h]

theorem State.changeoverRequest_notReady (hl : lineOk l = true) (h : (s.line l).pending = true ∨ ¬ (s.line l).working.complete = true ∨
    ¬ s.jobOpen l (s.line l).working.job = true) : s.changeoverRequest l = s.no .badState := by
  rcases h with h | h | h <;> simp [State.changeoverRequest, hl, h]

/-- A request for a plan that is complete and names an OPEN job goes on to the grades and then to the stands. -/
theorem State.changeoverRequest_ready (hl : lineOk l = true) (hpend : (s.line l).pending = false)
    (hc : (s.line l).working.complete = true) (hj : s.jobOpen l (s.line l).working.job = true) : s.changeoverRequest l =
      if s.gradesFit (s.line l).working.positions then
        if s.standsFree l (s.line l).working.positions then s.startChangeover l else s.no .badState
      else s.no .badArgument := by
  cases hg : s.gradesFit (s.line l).working.positions with
  | false => simp [State.changeoverRequest, hl, hpend, hc, hj, hg]
  | true => cases hf : s.standsFree l (s.line l).working.positions <;> simp [State.changeoverRequest, hl, hpend, hc, hj, hg, hf]

/-! ## The start (R54) -/

theorem State.startChangeover_printing (hidle : (s.line l).counting ≠ .idle) (hbrk : (s.line l).counting ≠ .brk) :
    s.startChangeover l = (s.modLine l ({ · with pending := true })).okWith [2] := by
  unfold State.startChangeover
  split
  · contradiction
  · contradiction
  all_goals rfl

theorem State.startChangeover_stopped (h : (s.line l).counting = .idle ∨ (s.line l).counting = .brk) :
    s.startChangeover l = (s.takeChangeover l false).okWith [1] := by
  unfold State.startChangeover
  rcases h with h | h <;> rw [h]

/-! ## CHANGEOVER -/

/-- A changeover that takes effect at once: the answer, and the state after it but for the pass (R54). -/
theorem execChangeover_taken (ht : s.takes (.changeover l) = true) (hl : lineOk l = true) (hpend : (s.line l).pending = false)
    (hpass : s.planPasses l (s.line l).working = true) (hstop : (s.line l).counting = .idle ∨ (s.line l).counting = .brk) :
    exec (.changeover l) s = .next (((s.fresh.takeChangeover l false).replied (.changeover l) .ok [1#8]).finish) := by
  obtain ⟨hc, hj, hg, hf⟩ := (s.planPasses_iff l _).mp hpass
  have hreply : s.fresh.changeoverRequest l = (s.fresh.takeChangeover l false).okWith [1] := by
    rw [State.changeoverRequest_ready (s := s.fresh) hl hpend hc hj]
    exact ((if_pos hg).trans (if_pos hf)).trans (State.startChangeover_stopped hstop)
  exact request_eq (q := (s.fresh.takeChangeover l false).okWith [1]) ht hreply
    ((State.wr_takeChangeover (k := 3) .refl (Nat.le_refl 3) l false).kept (by omega)).port

end

/-- Settles O25: the checks by their order, and a changeover at once by what it does to the line, the plan's job and the job before it. -/
theorem changeoverTakesEffect : Obligations.ChangeoverTakesEffect := by
  intro s l ht p complete opened fits taken
  have hcomplete : complete ↔ p.complete = true := p.complete_iff.symm
  have hopened : opened ↔ s.jobOpen l p.job = true := (s.jobOpen_iff l p.job).symm
  have hfits : fits ↔ s.gradesFit p.positions = true := (s.gradesFit_iff p.positions).symm
  have hfree : ¬ taken ↔ s.standsFree l p.positions = true := (s.standsFree_iff l p.positions).symm
  clear_value complete opened fits taken
  refine ⟨fun hl => request_refused ht (State.changeoverRequest_badLine (by rw [lineOk_iff]; omega)), fun h1 h4 => ?_⟩
  have hl : lineOk l = true := lineOk_iff.mpr ⟨h1, h4⟩
  rw [hcomplete, hopened, hfits, hfree]
  refine ⟨fun hno => request_refused ht (State.changeoverRequest_notReady (s := s.fresh) hl hno), fun hpend hc hj hbad => ?_,
    fun hpend hc hj hg htaken => ?_, fun hpend hc hj hg hf => ⟨fun hidle hbrk => ?_, fun hstop => ?_⟩⟩
  · exact request_refused ht ((State.changeoverRequest_ready (s := s.fresh) hl hpend hc hj).trans (if_neg hbad))
  · have hbusy : ¬ s.standsFree l p.positions = true := fun hf => hfree.mpr hf htaken
    exact request_refused ht ((State.changeoverRequest_ready (s := s.fresh) hl hpend hc hj).trans ((if_pos hg).trans (if_neg hbusy)))
  · have hreply := (State.changeoverRequest_ready (s := s.fresh) hl hpend hc hj).trans ((if_pos hg).trans (if_pos hf))
    exact request_eq_quiet (q := (s.fresh.modLine l ({ · with pending := true })).okWith [2]) ht
      (hreply.trans (State.startChangeover_printing (s := s.fresh) hidle hbrk)) rfl rfl
  · have hpass : s.planPasses l p = true := (s.planPasses_iff l p).mpr ⟨hc, hj, hg, hf⟩
    have hdone := ((s.fresh.takeChangeover l false).replied (.changeover l) .ok [1#8]).finish_writes
    obtain ⟨hlive, hworking, hnone, hnew, hold⟩ := Law.takeChangeover s.fresh l
    obtain ⟨m, k, hm, hk, hopen, hline⟩ := (s.jobOpen_iff l p.job).mp hj
    refine ⟨_, execChangeover_taken ht hl hpend hpass hstop, (hdone.kept (by omega)).port, ?_⟩
    rw [Law.request_done_line hdone l]
    refine ⟨hlive, hworking, hnone, fun n hn => ?_, fun n j hn hjob hstate => ?_⟩
    · cases hm.symm.trans hn
      obtain ⟨x, hx, hxstate, hxline, hxrest⟩ := hnew m k hm hk
      exact ⟨x, (Law.request_done_job hdone m).trans hx, hxstate, hxline.trans hline, hxrest⟩
    · have hne : p.job ≠ some n := by
        rintro hpn
        cases hm.symm.trans hpn
        cases hk.symm.trans hjob
        exact absurd (hopen.symm.trans hstate) nofun
      obtain ⟨x, hx, hclosed⟩ := hold n j hn hjob hne
      exact ⟨x, (Law.request_done_job hdone n).trans hx, hclosed⟩

end Sys2Proof.Machine
end

section
/-! Proofs about COPY_PULSE on a line with no changeover pending (R110, R111, R114, R116): a copy in its category, and the copy limit. -/

namespace Sys2Proof.Machine

/-! ## A copy in its category (R110) -/

/-- A job passes its makeready allowance with one more copy (R111). -/
def Job.passesAllowance (j : Job) : Bool := j.allowance.any fun a => decide (a < j.makeready + 1)

/-- A job reaches its target with one more copy (R116). -/
def Job.reachesTarget (j : Job) : Bool := j.target.any fun a => decide (a = j.good + 1)

/-- A job with one more copy in the category of a counting state, and the flags the copy may set (R110, R111, R116). -/
def Job.counted (j : Job) : Counting → Job
  | .makeready => { j with makeready := j.makeready + 1, excess := j.excess || j.passesAllowance }
  | .good => { j with good := j.good + 1, targetMet := j.targetMet || j.reachesTarget }
  | .splice => { j with splice := j.splice + 1 }
  | .brk => { j with brk := j.brk + 1 }
  | .changeover => { j with changeover := j.changeover + 1 }
  | .idle => j

theorem Job.passesAllowance_iff (j : Job) : j.passesAllowance = true ↔ ∃ a, j.allowance = some a ∧ a < j.makeready + 1 := by
  cases h : j.allowance <;> simp [Job.passesAllowance, h]

theorem Job.reachesTarget_iff (j : Job) : j.reachesTarget = true ↔ j.target = some (j.good + 1) := by
  cases h : j.target <;> simp [Job.reachesTarget, h]

theorem Job.counted_total (j : Job) {c : Counting} (hc : c ≠ .idle) : (j.counted c).total = j.total + 1 := by
  cases c with
  | idle => contradiction
  | makeready | good | splice | brk | changeover => simp only [Job.counted, Job.total]; omega

theorem Job.counted_makeready_quiet {j : Job} (h : j.excess = true ∨ j.passesAllowance = false) :
    j.counted .makeready = { j with makeready := j.makeready + 1 } := by
  rcases h with h | h <;> simp [Job.counted, h]

theorem Job.counted_makeready_excess {j : Job} (h : j.passesAllowance = true) :
    j.counted .makeready = { j with makeready := j.makeready + 1, excess := true } := by
  simp [Job.counted, h]

theorem Job.counted_good_quiet {j : Job} (h : j.targetMet = true ∨ j.reachesTarget = false) :
    j.counted .good = { j with good := j.good + 1 } := by
  rcases h with h | h <;> simp [Job.counted, h]

theorem Job.counted_good_target {j : Job} (h : j.reachesTarget = true) :
    j.counted .good = { j with good := j.good + 1, targetMet := true } := by
  simp [Job.counted, h]

section
variable {s : State} {l n : Nat} {j : Job}

theorem satAdd_one {a : Nat} (h : a + 1 ≤ Config.max32) : satAdd a 1 = a + 1 := Nat.min_eq_right h

theorem State.countMakeready_eq (hmax : j.makeready + 1 ≤ Config.max32) : s.countMakeready l n j =
    if j.excess = false ∧ j.passesAllowance = true then (s.putJob n (some (j.counted .makeready))).raise .makereadyExcess l
    else s.putJob n (some (j.counted .makeready)) := by
  simp only [State.countMakeready, satAdd_one hmax]
  split
  · next h => rw [Job.counted_makeready_excess h.2, if_pos (show _ ∧ j.passesAllowance = true from h)]
  · next h =>
    rw [if_neg (show ¬ (_ ∧ j.passesAllowance = true) from h), Job.counted_makeready_quiet]
    rwa [not_and_or, Bool.not_eq_false, Bool.not_eq_true] at h

theorem State.countGood_eq (hmax : j.good + 1 ≤ Config.max32) : s.countGood l n j =
    if j.targetMet = false ∧ j.reachesTarget = true then
      ((s.putJob n (some (j.counted .good))).raise .targetReached l).tellTarget l n (j.good + 1)
    else s.putJob n (some (j.counted .good)) := by
  have hreach : (j.target.any fun t => decide (0 < t ∧ j.good + 1 = t)) = j.reachesTarget :=
    congrArg (Option.any · j.target) (funext fun t => decide_eq_decide.mpr (by omega))
  simp only [State.countGood, satAdd_one hmax, hreach]
  split
  · next h => rw [Job.counted_good_target h.2]
  · next h =>
    rw [Job.counted_good_quiet]
    rwa [not_and_or, Bool.not_eq_false, Bool.not_eq_true] at h

theorem State.countSplice_eq (hmax : j.splice + 1 ≤ Config.max32) : s.countSplice l n j =
    (s.putJob n (some (j.counted .splice))).modLine l fun x =>
      { x with window := x.window - 1, counting := if x.window ≤ 1 then .good else .splice } := by
  rw [State.countSplice, satAdd_one hmax]
  rfl

theorem State.tellTarget_jobs (s : State) (l n good : Nat) : (s.tellTarget l n good).jobs = s.jobs :=
  RollsAfter.each State.jobs _ (fun _ _ => by simp) _ _

theorem State.tellTarget_passDue (s : State) (l n good : Nat) : (s.tellTarget l n good).passDue = s.passDue :=
  RollsAfter.each State.passDue _ (fun _ _ => by simp) _ _

/-- A copy taken in its category writes the counted job, and of the other jobs none; it leads to no pass. -/
theorem State.countCategory_rest (hmax : j.total + 1 ≤ Config.max32) (hc : (s.line l).counting ≠ .idle) :
    (s.countCategory l n j).jobs = s.jobs.put n (some (j.counted (s.line l).counting)) ∧
    (s.countCategory l n j).passDue = s.passDue := by
  unfold Job.total at hmax
  unfold State.countCategory
  split
  · next h => exact absurd h hc
  · next h =>
    rw [h, State.countMakeready_eq (by omega)]
    split <;> exact ⟨rfl, rfl⟩
  · next h =>
    rw [h, State.countGood_eq (by omega)]
    split
    · exact ⟨State.tellTarget_jobs .., State.tellTarget_passDue ..⟩
    · exact ⟨rfl, rfl⟩
  · next h =>
    rw [h, State.countSplice_eq (by omega)]
    exact ⟨rfl, rfl⟩
  · next h =>
    rw [h, satAdd_one (by omega)]
    exact ⟨rfl, rfl⟩
  · next h =>
    rw [h, satAdd_one (by omega)]
    exact ⟨rfl, rfl⟩

/-- A waste copy of a break or of a changeover writes the job alone. -/
theorem State.countCategory_waste (hmax : j.total + 1 ≤ Config.max32)
    (hc : (s.line l).counting = .brk ∨ (s.line l).counting = .changeover) :
    s.countCategory l n j = s.putJob n (some (j.counted (s.line l).counting)) := by
  unfold Job.total at hmax
  unfold State.countCategory
  rcases hc with h | h
  all_goals
    rw [h]
    dsimp only
    rw [satAdd_one (by omega)]
    rfl

theorem State.countCategory_job (hmax : j.total + 1 ≤ Config.max32) (hc : (s.line l).counting ≠ .idle) :
    (s.countCategory l n j).job n = some (j.counted (s.line l).counting) := by
  rw [State.job, (State.countCategory_rest hmax hc).1, Tbl.find_put_same]

/-! ## A copy counted, and the copy limit (R110, R114) -/

theorem State.countCopy_uncounted (h : s.liveJob l = none ∨ (s.line l).counting = .idle) : s.countCopy l = s := by
  unfold State.countCopy
  split
  · rfl
  · next hn =>
    split
    · rfl
    · exact if_pos (h.resolve_left fun hnone => absurd (hnone.symm.trans hn) nofun)

/-- A copy counted to a live job is taken in its category, and closes the job when its total reaches the copy limit. -/
theorem State.countCopy_counted (hn : s.liveJob l = some n) (hj : s.job n = some j) (hc : (s.line l).counting ≠ .idle)
    (hmax : j.total + 1 ≤ Config.max32) : s.countCopy l =
      if j.total + 1 = Config.max32 then (s.countCategory l n j).closeLive l n else s.countCategory l n j := by
  rw [State.countCopy, hn]
  dsimp only
  rw [hj]
  dsimp only
  rw [if_neg hc, State.countCategory_job hmax hc]
  simp [Job.counted_total j hc]

theorem State.closeLive_job (s : State) (l n : Nat) : (s.closeLive l n).job n = (s.job n).map ({ · with state := .closed }) := by
  unfold State.job
  rw [State.closeLive, (Law.dropNotices_jobs _ _).1]
  exact (Law.job_mod s n n _).trans (if_pos rfl)

theorem State.closeLive_line (s : State) (l n : Nat) :
    (s.closeLive l n).line l = { s.line l with pending := false, counting := .idle, window := 0 } := by
  unfold State.line
  rw [State.closeLive, (Law.dropNotices_jobs _ _).2]
  refine (Law.line_mod _ l l _).trans (if_pos rfl |>.trans ?_)
  unfold State.line
  rw [State.modJob_lines]

/-! ## COPY_PULSE -/

theorem execCopyPulse_taken (hawake : s.awake = true) (hl : lineOk l = true) : exec (.copyPulse l) s = .next (s.fresh.copy l).finish :=
  eventIf_taken (p := fun _ => lineOk l) (f := (·.copy l)) hawake hl

theorem execCopyPulse_counting (hawake : s.awake = true) (hl : lineOk l = true) (hpend : (s.line l).pending = false) :
    exec (.copyPulse l) s = .next (s.fresh.countCopy l).finish := by
  rw [execCopyPulse_taken hawake hl, State.copy, if_neg (show ¬ (s.fresh.line l).pending = true from Bool.eq_false_iff.mp hpend)]

/-- A pulse that is counted below the copy limit. -/
theorem execCopyPulse_below (hawake : s.awake = true) (hl : lineOk l = true) (hpend : (s.line l).pending = false)
    (hn : s.liveJob l = some n) (hj : s.job n = some j) (hc : (s.line l).counting ≠ .idle) (hmax : j.total + 1 < Config.max32) :
    exec (.copyPulse l) s = .next (s.fresh.countCategory l n j) := by
  have hcopy := State.countCopy_counted (s := s.fresh) hn hj hc (Nat.le_of_lt hmax)
  rw [if_neg (Nat.ne_of_lt hmax)] at hcopy
  rw [execCopyPulse_counting hawake hl hpend, hcopy, State.finish_idle (State.countCategory_rest (s := s.fresh) (Nat.le_of_lt hmax) hc).2]

/-- What the category's copy leaves of a line's machine but for the counting state and the window. -/
theorem State.countCategory_uncounted (s : State) (l n : Nat) (j : Job) (m : Nat) :
    Law.lineUncounted (s.countCategory l n j) m = Law.lineUncounted s m := by
  unfold State.countCategory
  split
  · rfl
  · unfold State.countMakeready
    dsimp only
    split <;> rfl
  · unfold State.countGood
    dsimp only
    split
    · exact LineCore.wr (State.wr_tellTarget .refl l n _) (Nat.zero_lt_two) m
    · rfl
  · refine (LineCore.modLine _ l _ ?_ m).trans rfl
    exact fun _ => rfl
  · rfl
  · rfl

/-- A pulse that brings the job's total to the copy limit. -/
theorem execCopyPulse_limit (hawake : s.awake = true) (hl : lineOk l = true) (hpend : (s.line l).pending = false)
    (hn : s.liveJob l = some n) (hj : s.job n = some j) (hc : (s.line l).counting ≠ .idle) (hmax : j.total + 1 = Config.max32) :
    ∃ t, exec (.copyPulse l) s = .next t ∧ t.job n = some { j.counted (s.line l).counting with state := .closed } ∧
      t.line l = { s.line l with pending := false, counting := .idle, window := 0 } := by
  have hcopy := State.countCopy_counted (s := s.fresh) hn hj hc (Nat.le_of_eq hmax)
  rw [if_pos hmax] at hcopy
  obtain ⟨hlines, hjobs⟩ := (s.fresh.countCopy l).finish_writes.kept_lines Nat.zero_lt_two
  refine ⟨_, execCopyPulse_counting hawake hl hpend, ?_, ?_⟩
  · have hcat := State.countCategory_job (s := s.fresh) (n := n) (Nat.le_of_eq hmax) hc
    rw [State.job, hjobs, hcopy]
    exact (State.closeLive_job ..).trans (by rw [hcat]; rfl)
  · have hrest : Law.uncounted ((s.fresh.countCategory l n j).line l) = Law.uncounted (s.line l) :=
      State.countCategory_uncounted s.fresh l n j l
    rw [State.line, hlines, hcopy]
    exact (State.closeLive_line ..).trans (congrArg (fun x : Line => { x with pending := false }) hrest)

end

section
variable {s : State} {l n : Nat} {j : Job}

/-- A pulse counted as a makeready copy (R111). -/
theorem execCopyPulse_makeready (hawake : s.awake = true) (hl : lineOk l = true) (hpend : (s.line l).pending = false)
    (hn : s.liveJob l = some n) (hj : s.job n = some j) (hmax : j.total + 1 < Config.max32) (hc : (s.line l).counting = .makeready) :
    (j.excess = true ∨ (∀ a, j.allowance = some a → j.makeready + 1 ≤ a) → exec (.copyPulse l) s =
      .next { s.fresh with jobs := s.jobs.put n (some { j with makeready := j.makeready + 1 }) }) ∧
    (∀ a, j.excess = false → j.allowance = some a → a < j.makeready + 1 → exec (.copyPulse l) s =
      .next ({ s.fresh with
        jobs := s.jobs.put n (some { j with makeready := j.makeready + 1, excess := true }) }.raise .makereadyExcess l)) := by
  have hcat : s.fresh.countCategory l n j = s.fresh.countMakeready l n j := by
    rw [State.countCategory, show (s.fresh.line l).counting = .makeready from hc]
  have hless : j.makeready + 1 ≤ Config.max32 := by unfold Job.total at hmax; omega
  rw [execCopyPulse_below hawake hl hpend hn hj (by rw [hc]; nofun) hmax, hcat, State.countMakeready_eq hless]
  refine ⟨fun hquiet => ?_, fun a hexcess ha hover => ?_⟩
  · have hwithin : j.excess = true ∨ j.passesAllowance = false := hquiet.imp_right fun h => by
      rw [Bool.eq_false_iff, Ne, Job.passesAllowance_iff]
      rintro ⟨a, ha, hover⟩
      exact absurd (h a ha) (Nat.not_le.mpr hover)
    rw [if_neg (by rwa [not_and_or, Bool.not_eq_false, Bool.not_eq_true]), Job.counted_makeready_quiet hwithin]
    rfl
  · have hpass : j.passesAllowance = true := j.passesAllowance_iff.mpr ⟨a, ha, hover⟩
    rw [if_pos ⟨hexcess, hpass⟩, Job.counted_makeready_excess hpass]
    rfl

/-- A pulse counted as a good copy (R116). -/
theorem execCopyPulse_good (hawake : s.awake = true) (hl : lineOk l = true) (hpend : (s.line l).pending = false)
    (hn : s.liveJob l = some n) (hj : s.job n = some j) (hmax : j.total + 1 < Config.max32) (hc : (s.line l).counting = .good) :
    (j.targetMet = true ∨ (∀ a, j.target = some a → a = 0 ∨ j.good + 1 ≠ a) → exec (.copyPulse l) s =
      .next { s.fresh with jobs := s.jobs.put n (some { j with good := j.good + 1 }) }) ∧
    (j.targetMet = false → j.target = some (j.good + 1) → exec (.copyPulse l) s =
      .next (({ s.fresh with
        jobs := s.jobs.put n (some { j with good := j.good + 1, targetMet := true }) }.raise .targetReached l).tellTarget l n
          (j.good + 1))) := by
  have hcat : s.fresh.countCategory l n j = s.fresh.countGood l n j := by
    rw [State.countCategory, show (s.fresh.line l).counting = .good from hc]
  have hless : j.good + 1 ≤ Config.max32 := by unfold Job.total at hmax; omega
  rw [execCopyPulse_below hawake hl hpend hn hj (by rw [hc]; nofun) hmax, hcat, State.countGood_eq hless]
  refine ⟨fun hquiet => ?_, fun hmet htarget => ?_⟩
  · have hshort : j.targetMet = true ∨ j.reachesTarget = false := hquiet.imp_right fun h => by
      rw [Bool.eq_false_iff, Ne, Job.reachesTarget_iff]
      exact fun ht => (h _ ht).elim (Nat.succ_ne_zero _) (· rfl)
    rw [if_neg (by rwa [not_and_or, Bool.not_eq_false, Bool.not_eq_true]), Job.counted_good_quiet hshort]
    rfl
  · have hreach : j.reachesTarget = true := j.reachesTarget_iff.mpr htarget
    rw [if_pos ⟨hmet, hreach⟩, Job.counted_good_target hreach]
    rfl

/-- A pulse counted as a waste copy of the splice window, of a break or of a changeover (R110). -/
theorem execCopyPulse_waste (hawake : s.awake = true) (hl : lineOk l = true) (hpend : (s.line l).pending = false)
    (hn : s.liveJob l = some n) (hj : s.job n = some j) (hmax : j.total + 1 < Config.max32) :
    ((s.line l).counting = .splice → exec (.copyPulse l) s = .next { s.fresh with
      jobs := s.jobs.put n (some { j with splice := j.splice + 1 }),
      lines := s.lines.set l .cold { s.line l with
        window := (s.line l).window - 1, counting := if (s.line l).window ≤ 1 then .good else .splice } }) ∧
    ((s.line l).counting = .brk → exec (.copyPulse l) s =
      .next { s.fresh with jobs := s.jobs.put n (some { j with brk := j.brk + 1 }) }) ∧
    ((s.line l).counting = .changeover → exec (.copyPulse l) s =
      .next { s.fresh with jobs := s.jobs.put n (some { j with changeover := j.changeover + 1 }) }) := by
  have hless := hmax
  unfold Job.total at hless
  have below (c : Counting) (hc : (s.line l).counting = c) (hcount : c ≠ .idle) :=
    execCopyPulse_below hawake hl hpend hn hj (hc ▸ hcount) hmax
  refine ⟨fun hc => ?_, fun hc => ?_, fun hc => ?_⟩
  · rw [below _ hc nofun, State.countCategory, show (s.fresh.line l).counting = .splice from hc]
    dsimp only
    rw [State.countSplice_eq (by omega)]
    rfl
  · rw [below _ hc nofun, State.countCategory_waste (s := s.fresh) (Nat.le_of_lt hmax) (.inl hc), show (s.fresh.line l).counting = _ from hc]
    rfl
  · rw [below _ hc nofun, State.countCategory_waste (s := s.fresh) (Nat.le_of_lt hmax) (.inr hc), show (s.fresh.line l).counting = _ from hc]
    rfl

end

end Sys2Proof.Machine
end

section
/-! What the events of a changed live plan lead through (R56, R57, R89, R98): a law that each of their operations keeps is a law that the
change keeps. -/

namespace Sys2Proof.Machine

/-! ## The stages -/

section
variable {P : State → Prop} {s : State} {l : Nat}

/-- What holds before and is kept by each update for a number of the list holds after them all. -/
theorem State.each_keeps_mem {f : Nat → State → State} {ns : List Nat} (hf : ∀ n ∈ ns, ∀ u, P u → P (f n u)) (h : P s) : P (s.each ns f) := by
  induction ns generalizing s with
  | nil => exact h
  | cons n ns ih => exact ih (fun m hm => hf m (List.mem_cons_of_mem n hm)) (hf n List.mem_cons_self s h)

/-- The first step of the entry into BREAK: the line's break machine and its STOP output (R98 step 1). -/
def State.breakEntered (s : State) (l : Nat) (c : Cause) : State :=
  (s.modLine l ({ · with inBreak := true, cause := some c, lowMark := false })).drivePin (.stop l) true

/-- What the first step of the entry into BREAK sets up and the other steps keep holds after them (R98). -/
theorem State.breakSteps_keeps {c : Cause} (h : P (s.breakEntered l c)) (hcount : ∀ u, P u → P (u.countBreak l))
    (hdisarm : ∀ u v st, P u → st ∈ u.lineStands l → P v → P (v.disarm st))
    (hsplice : ∀ u v st, P u → (u.stand st).seq = .pasting → P v → P (v.splice st))
    (hbrake : ∀ u v st, P u → st ∈ u.lineStands l → P v → P (v.drivePin (.brake st) true))
    (hraise : ∀ u, P u → P (u.raise .lineBreak l)) : P (s.breakSteps l c) := by
  unfold State.breakSteps
  extract_lets s1 s2 s3 pasting s4 s5
  have h2 : P s2 := hcount s1 h
  have h3 : P s3 := State.each_keeps_mem (fun st hst v => hdisarm s2 v st h2 hst) h2
  have h4 : P s4 := State.each_keeps_mem (fun st hst v => hsplice s3 v st h3 (eq_of_beq (Bool.and_eq_true_iff.mp (List.mem_filter.mp hst).2).1)) h3
  have h5 : P s5 := by
    dsimp only [s5]
    split
    · exact State.each_keeps_mem (fun st hst v => hbrake s4 v st h4 hst) h4
    · exact h4
  exact hraise s5 h5

/-- A joining break source changes nothing, or a line in CLEAR enters BREAK (R56, R98). -/
theorem State.joinBreak_cases (s : State) (l : Nat) (joining : List Nat) : s.joinBreak l joining = s ∨
    ((s.line l).inBreak = false ∧ ∃ c, s.joinBreak l joining = s.breakSteps l c) := by
  unfold State.joinBreak
  split
  · exact .inl rfl
  · next hclear =>
    have hclear := Bool.eq_false_iff.mpr hclear
    split
    · exact .inr ⟨hclear, _, rfl⟩
    · split
      · exact .inr ⟨hclear, _, rfl⟩
      · exact .inl rfl

/-- The stands of a line's old positions that are not of the line any more. -/
def State.leavingStands (s : State) (l : Nat) (old : List Nat) : List Nat :=
  (span 1 Config.stands).filter fun st => old.contains st && !(s.lineStands l).contains st

/-- What holds once the leaving stands have left, and is kept by what the other stands and the call-offs take, holds after a changed
list of positions. -/
theorem State.replan_keeps {old : List Nat} {start : Bool} (h : P (s.each (s.leavingStands l old) fun st s => s.standLeaves st))
    (hjoin : ∀ u, ∀ st ∈ s.lineStands l, P u → P (u.standJoins l st))
    (hbrake : ∀ u, ∀ st ∈ s.lineStands l, P u → P (u.brakeByPlan l st)) (hdeal : ∀ u n, P u → P (u.dealCallOff l n))
    (heval : ∀ u st, P u → P (u.evalCallOff st)) (hbreak : ∀ u joining, P u → P (u.joinBreak l joining))
    (hstart : ∀ u, ∀ st ∈ s.lineStands l, P u → P (u.firstStart st))
    (hreeval : ∀ u, ∀ st ∈ s.lineStands l, P u → P (u.reevaluate st)) : P (s.replan l old start) := by
  unfold State.replan
  extract_lets new leaving joining staying s1 s2 s3 s4 s5 s6 starting s7
  have h2 : P s2 := State.each_keeps_mem (fun st hst u => hjoin u st (List.mem_of_mem_filter hst)) h
  have h3 : P s3 := State.each_keeps_mem (fun st hst u => hbrake u st (List.mem_of_mem_filter hst)) h2
  have h4 : P s4 := State.each_keeps (fun n u => hdeal u n) _ h3
  have h5 : P s5 := State.each_keeps (fun st u => heval u st) _ h4
  have h7 : P s7 := by
    dsimp only [s7]
    split
    · exact State.each_keeps_mem (fun st hst u => hstart u st hst) (hbreak s5 joining h5)
    · exact hbreak s5 joining h5
  exact State.each_keeps_mem (fun st hst u => hreeval u st hst) h7

end

/-! ## A splice (R89) -/

section
variable (s : State) (st : Nat)

/-- The arms of a splice swapped, before its splice event (R89). -/
def State.armsSwapped (a b : Arm) (old new : Nat) (job : Option Nat) : State :=
  ((((s.dropPasteDrive st).expire old st a (s.stand st).df).startMove new st b job).seedDiameter st new).modStand st
    ({ · with seq := .running, matchCount := 0, pasteLeft := none, pasteLine := none, lastVs := none })

/-- A splice that finds its rolls swaps the arms, sends its splice event if it has a paste line, and goes on as a start does. -/
theorem State.splice_cases : s.splice st = s ∨ ∃ a b old new job u, (u = s.armsSwapped st a b old new job ∨
    ∃ m, u = (s.armsSwapped st a b old new job).spliceEvent m) ∧
    s.splice st = (u.modStand st ({ · with late := false, runout := false })).afterStart st := by
  unfold State.splice
  extract_lets x
  split
  · next a b _ _ =>
    split
    · next old new _ _ =>
      extract_lets job s1 s2 s3
      refine .inr ⟨a, b, old, new, job, s3, ?_, rfl⟩
      dsimp only [s3]
      split
      · exact .inr ⟨_, rfl⟩
      · exact .inl rfl
    · exact .inl rfl
  · exact .inl rfl

theorem State.armsSwapped_tables (a b : Arm) (old new : Nat) (job : Option Nat) : (s.armsSwapped st a b old new job).lines = s.lines ∧
    (s.armsSwapped st a b old new job).jobs = s.jobs := by
  obtain ⟨hlines, hjobs⟩ := (State.wr_dropPasteDrive (k := 0) (s := s) .refl st).kept_lines Nat.zero_lt_two
  rw [← hlines, ← hjobs]
  simp [State.armsSwapped, State.seedDiameter, State.startMove, State.expire, State.setArm]

end

end Sys2Proof.Machine
end

section
/-! Proofs about COPY_PULSE on a line with a changeover pending (R54, R55, R110): the outgoing job closed, the pulse counted to the plan's
job, and what the stands and call-offs may change of both after it. -/

namespace Sys2Proof.Machine

/-! ## Jobs and counting while stands and call-offs settle (R113, R115) -/

/-- A job but for its splice and break counts, which are a LIVE job's alone to change. -/
def Job.recounted (j x : Job) : Prop :=
  x = { j with spliceCount := x.spliceCount, breakCount := x.breakCount } ∧ (j.state ≠ .live → x = j)

/-- What the events of a changed plan may change of the jobs and of a line's counting: a line that counts BREAK copies goes on with it, and
one that counts CHANGEOVER copies does too unless it enters BREAK. -/
structure State.Settles (s : State) (l : Nat) (u : State) : Prop where
  rising : u.jobs.rising = true
  jobs : ∀ n j, s.job n = some j → ∃ x, u.job n = some x ∧ j.recounted x
  inBreak : (s.line l).inBreak = true → (u.line l).inBreak = true
  brk : (s.line l).counting = .brk → (u.line l).counting = .brk
  changeover : (s.line l).counting = .changeover → (u.line l).counting = .changeover ∨
    (u.line l).counting = .brk ∧ (u.line l).inBreak = true ∧ (s.line l).inBreak = false

section
variable {s u t : State} {l : Nat}

theorem State.Settles.refl (h : s.jobs.rising = true) : s.Settles l s :=
  ⟨h, fun _ j hj => ⟨j, hj, rfl, fun _ => rfl⟩, id, id, .inl⟩

theorem State.Settles.of_line (h : s.Settles l u) (hline : t.line l = u.line l) (rising : t.jobs.rising = true)
    (jobs : ∀ n j, s.job n = some j → ∃ x, t.job n = some x ∧ j.recounted x) : s.Settles l t :=
  ⟨rising, jobs, hline ▸ h.inBreak, hline ▸ h.brk, hline ▸ h.changeover⟩

theorem State.Settles.of_tables (h : s.Settles l u) (htables : t.lines = u.lines ∧ t.jobs = u.jobs) : s.Settles l t := by
  obtain ⟨hlines, hjobs⟩ := htables
  refine h.of_line (congrArg (Tbl.get · l Line.cold) hlines) (hjobs ▸ h.rising) fun n j hj => ?_
  rw [State.job, hjobs]
  exact h.jobs n j hj

theorem State.Settles.wr (h : s.Settles l u) (w : Wr 1 u t) : s.Settles l t := h.of_tables (w.kept_lines (by omega))

theorem State.liveJob_some {m n : Nat} (hrise : u.jobs.rising = true) (h : u.liveJob m = some n) :
    ∃ j, u.job n = some j ∧ j.state = .live ∧ j.line = m := by
  obtain ⟨j, hmem, hlive⟩ := Tbl.first_some h
  rw [Bool.and_eq_true, beq_iff_eq, beq_iff_eq] at hlive
  exact ⟨j, Law.find_rising hrise hmem, hlive⟩

/-- The splice or break count of some line's LIVE job written. -/
theorem State.Settles.recount (h : s.Settles l u) (m : Nat) (f : Job → Job) (hf : ∀ j : Job, f j =
    { j with spliceCount := (f j).spliceCount, breakCount := (f j).breakCount }) : s.Settles l (u.modJobAt (u.liveJob m) f) := by
  cases hlive : u.liveJob m with
  | none => exact h
  | some n =>
    obtain ⟨q, hq, hstate, -⟩ := State.liveJob_some h.rising hlive
    show s.Settles l (u.modJob n f)
    refine h.of_line (congrArg (Tbl.get · l Line.cold) (State.modJob_lines u n f)) ?_ fun k j hj => ?_
    · rw [State.modJob, hq]
      exact Tbl.rising_put n (some (f q)) h.rising
    · obtain ⟨x, hx, hsame, hkept⟩ := h.jobs k j hj
      rw [Law.job_mod]
      split
      · next hk =>
        subst hk
        cases hx.symm.trans hq
        have hjlive : j.state = .live := by rw [hsame] at hstate; exact hstate
        exact ⟨f q, by rw [hx]; rfl, by rw [hf q, hsame], fun hno => absurd hjlive hno⟩
      · exact ⟨x, hx, hsame, hkept⟩

/-- A line's counting written where the line counts neither BREAK nor CHANGEOVER copies. -/
theorem State.Settles.modLine (h : s.Settles l u) (m : Nat) (f : Line → Line) (hf : ∀ x, (f x).inBreak = x.inBreak)
    (hbrk : (u.line m).counting ≠ .brk) (hchange : (u.line m).counting ≠ .changeover) : s.Settles l (u.modLine m f) := by
  by_cases hm : l = m
  · subst hm
    refine ⟨h.rising, h.jobs, fun hin => ?_, fun hc => absurd (h.brk hc) hbrk, fun hc => ?_⟩
    · rw [Law.line_mod, if_pos rfl, hf]
      exact h.inBreak hin
    · exact (h.changeover hc).elim (absurd · hchange) fun hb => absurd hb.1 hbrk
  · have hline : (u.modLine m f).line l = u.line l := by rw [Law.line_mod, if_neg hm]
    exact ⟨h.rising, h.jobs, hline ▸ h.inBreak, hline ▸ h.brk, hline ▸ h.changeover⟩

theorem State.Settles.spliceEvent (h : s.Settles l u) (m : Nat) : s.Settles l (u.spliceEvent m) := by
  have counted : s.Settles l (u.modJobAt (u.liveJob m) fun j => { j with spliceCount := satCount j.spliceCount }) :=
    h.recount m _ fun _ => rfl
  have hline : (u.modJobAt (u.liveJob m) fun j => { j with spliceCount := satCount j.spliceCount }).line m = u.line m := by
    obtain ⟨_, hjobs⟩ := u.modJobAt_only (u.liveJob m) fun j => { j with spliceCount := satCount j.spliceCount }
    rw [hjobs]
    rfl
  unfold State.spliceEvent
  dsimp only
  split
  · exact h
  · next hc =>
    split
    · exact counted
    · exact counted.modLine m _ (fun _ => rfl) (by rw [hline, hc]; nofun) (by rw [hline, hc]; nofun)
  · next hc => exact counted.modLine m _ (fun _ => rfl) (by rw [hline, hc]; nofun) (by rw [hline, hc]; nofun)
  · exact counted
  · exact counted
  · exact counted

theorem State.Settles.splice (h : s.Settles l u) (st : Nat) : s.Settles l (u.splice st) := by
  rcases u.splice_cases st with hnone | ⟨a, b, old, new, job, v, hv, hsplice⟩
  · rwa [hnone]
  · have swapped := h.of_tables (u.armsSwapped_tables st a b old new job)
    have sent : s.Settles l v := by
      rcases hv with rfl | ⟨m, rfl⟩
      · exact swapped
      · exact swapped.spliceEvent m
    rw [hsplice]
    exact (sent.of_tables (t := v.modStand st _) ⟨rfl, rfl⟩).wr (State.wr_afterStart .refl (Nat.le_refl 1) st)

/-- The counting of a break entry on the line itself (R98 step 2). -/
theorem State.Settles.countBreak (h : s.Settles l u) (hin : (u.line l).inBreak = true) (hclear : (s.line l).inBreak = false) :
    s.Settles l (u.countBreak l) ∧ ((u.countBreak l).line l).inBreak = true := by
  have counted := h.recount l (fun j => { j with breakCount := satCount j.breakCount }) fun _ => rfl
  unfold State.countBreak
  cases hlive : u.liveJob l with
  | none => exact ⟨h, hin⟩
  | some n =>
    rw [hlive] at counted
    have hline : (u.modJob n fun j => { j with breakCount := satCount j.breakCount }).line l = u.line l := by
      unfold State.line
      rw [State.modJob_lines]
    have written : ((u.modJob n fun j => { j with breakCount := satCount j.breakCount }).modLine l
        ({ · with counting := .brk, window := 0 })).line l = { u.line l with counting := .brk, window := 0 } := by
      rw [Law.line_mod, if_pos rfl, hline]
    dsimp only
    refine ⟨⟨counted.rising, counted.jobs, ?_, ?_, ?_⟩, ?_⟩
    all_goals rw [written]
    · exact fun _ => hin
    · exact fun _ => rfl
    · exact fun _ => .inr ⟨rfl, hin, hclear⟩
    · exact hin

theorem State.breakEntered_line (s : State) (l : Nat) (c : Cause) :
    (s.breakEntered l c).line l = { s.line l with inBreak := true, cause := some c, lowMark := false, stop := true } := by
  rw [State.breakEntered, State.drivePin_line, Law.line_mod, if_pos rfl]
  simp [Line.driven]

theorem State.breakEntered_jobs (s : State) (l : Nat) (c : Cause) : (s.breakEntered l c).jobs = s.jobs := by
  obtain ⟨_, _, _, h⟩ := State.drivePin_eq (s := s.modLine l ({ · with inBreak := true, cause := some c, lowMark := false })) (.stop l) true
  rw [State.breakEntered, h]
  rfl

theorem State.Settles.joinBreak (h : s.Settles l u) (joining : List Nat) : s.Settles l (u.joinBreak l joining) := by
  rcases u.joinBreak_cases l joining with hsame | ⟨hclear, c, hbreak⟩
  · rwa [hsame]
  · have sclear : (s.line l).inBreak = false := Bool.eq_false_iff.mpr fun hin => Bool.false_ne_true (hclear.symm.trans (h.inBreak hin))
    have hline := u.breakEntered_line l c
    have hjobs := u.breakEntered_jobs l c
    have entered : s.Settles l (u.breakEntered l c) := by
      refine ⟨hjobs ▸ h.rising, ?_, ?_, ?_, ?_⟩
      · unfold State.job
        exact hjobs ▸ h.jobs
      all_goals rw [hline]
      · exact fun _ => rfl
      · exact h.brk
      · exact fun hc => (h.changeover hc).imp_right fun hb => ⟨hb.1, rfl, hb.2.2⟩
    rw [hbreak]
    refine (State.breakSteps_keeps (P := fun v => s.Settles l v ∧ (v.line l).inBreak = true) ⟨entered, by rw [hline]⟩
      (fun v hv => hv.1.countBreak hv.2 sclear) ?_ ?_ ?_ ?_).1
    · exact fun _ v st _ _ hv => ⟨hv.1.wr (State.wr_disarm .refl st),
        (congrArg Line.inBreak (LineCore.wr (State.wr_disarm (k := 0) .refl st) Nat.zero_lt_two l)).trans hv.2⟩
    · exact fun _ v st _ _ hv => ⟨hv.1.splice st, (congrArg Line.inBreak (LineCore.splice v st l)).trans hv.2⟩
    · exact fun _ v st _ _ hv => ⟨hv.1.wr (State.wr_brake .refl (Nat.le_refl 1) st true),
        (congrArg Line.inBreak (LineCore.drivePin v (.brake st) true nofun l)).trans hv.2⟩
    · exact fun v hv => ⟨hv.1.of_tables ⟨rfl, rfl⟩, hv.2⟩

theorem State.Settles.standJoins (h : s.Settles l u) (m st : Nat) : s.Settles l (u.standJoins m st) := by
  have cleared : s.Settles l ((u.modStand st Stand.clearChannels).restartMark st) :=
    (h.of_tables (t := u.modStand st _) ⟨rfl, rfl⟩).wr (State.wr_restartMark .refl (Nat.le_refl 1) st)
  have joined := cleared.wr (State.wr_brakeByPlan .refl (Nat.le_refl 1) m st)
  unfold State.standJoins
  dsimp only
  split
  · exact joined.splice st
  · exact joined

/-- A changed list of positions changes of jobs and counting what its events may. -/
theorem State.replan_settles (hrise : s.jobs.rising = true) (old : List Nat) (start : Bool) : s.Settles l (s.replan l old start) := by
  refine State.replan_keeps ?_ (fun u st _ h => h.standJoins l st) (fun u st _ h => h.wr (State.wr_brakeByPlan .refl (Nat.le_refl 1) l st))
    (fun u n h => h.wr (State.wr_dealCallOff .refl l n)) (fun u st h => h.wr (State.wr_evalCallOff .refl st))
    (fun u joining h => h.joinBreak joining) (fun u st _ h => h.wr (State.wr_firstStart .refl (Nat.le_refl 1) st))
    (fun u st _ h => h.wr (State.wr_reevaluate .refl (Nat.le_refl 1) st))
  exact State.each_keeps (fun st u h => h.wr (State.wr_standLeaves .refl (Nat.le_refl 1) st)) _ (.refl hrise)

end

/-! ## The plan taken (R55 steps 1 and 2) -/

/-- The first two steps of a changeover: the job before it closed, the plan's job LIVE, and the plan live on the line. -/
def State.planTaken (s : State) (l : Nat) : State :=
  ((s.closeOutgoing l).makeLive (s.line l).working.job (s.line l).working).modLine l fun y =>
    { y with live := y.working, pending := false, counting := y.counting.changed, window := 0 }

/-- A job made LIVE by a plan (R55 step 1, R103). -/
def Job.madeLive (k : Job) (p : Plan) : Job :=
  { k with state := .live, target := some p.target, allowance := some p.allowance, excess := false, targetMet := false }

section
variable {s : State} {l n m : Nat} {j k : Job}

theorem State.closeOutgoing_tables (s : State) (l : Nat) : (s.closeOutgoing l).lines = s.lines ∧ (s.closeOutgoing l).stands = s.stands := by
  unfold State.closeOutgoing
  split
  · exact ⟨(Law.dropNotices_jobs ..).2.trans (State.modJob_lines ..),
      (RollsAfter.each State.stands _ (fun _ _ => by simp) _ _).trans (State.modJob_stands ..)⟩
  · exact ⟨rfl, rfl⟩

theorem State.closeOutgoing_jobs (hn : s.liveJob l = some n) (hj : s.job n = some j) :
    (s.closeOutgoing l).jobs = s.jobs.put n (some { j with state := .closed }) := by
  rw [State.closeOutgoing, hn]
  dsimp only
  rw [(Law.dropNotices_jobs _ _).1, State.modJob, hj]
  rfl

theorem State.makeLive_only (s : State) (o : Option Nat) (p : Plan) : ∃ t, s.makeLive o p = { s with jobs := t } := s.modJobAt_only o _

theorem State.planTaken_line (s : State) (l c : Nat) : (s.planTaken l).line c =
    if c = l then { s.line l with
      live := (s.line l).working, pending := false, counting := (s.line l).counting.changed, window := 0 } else s.line c := by
  obtain ⟨_, h⟩ := (s.closeOutgoing l).makeLive_only (s.line l).working.job (s.line l).working
  have hline (c : Nat) : ((s.closeOutgoing l).makeLive (s.line l).working.job (s.line l).working).line c = s.line c := by
    rw [h]
    exact congrArg (Tbl.get · c Line.cold) (s.closeOutgoing_tables l).1
  rw [State.planTaken, Law.line_mod, hline, hline]

theorem State.planTaken_stands (s : State) (l : Nat) : (s.planTaken l).stands = s.stands := by
  obtain ⟨_, h⟩ := (s.closeOutgoing l).makeLive_only (s.line l).working.job (s.line l).working
  rw [State.planTaken, h]
  exact (s.closeOutgoing_tables l).2

/-- A line's live job is the one job LIVE on it. -/
theorem State.liveJob_unique (hrise : s.jobs.rising = true) (hj : s.job m = some k) (hstate : k.state = .live) (hline : k.line = l)
    (hone : ∀ x y, s.job x = some y → y.state = .live → y.line = l → x = m) : s.liveJob l = some m := by
  obtain ⟨c, hc⟩ := Option.isSome_iff_exists.mp (State.liveJob_of_hasLiveJob (l := l) ⟨m, k, hj, hstate, hline⟩)
  obtain ⟨y, hy, hlive, hl⟩ := State.liveJob_some hrise hc
  rw [hc, hone c y hy hlive hl]

theorem Counting.changed_printing {c : Counting} (h : c ≠ .idle) : c.changed = if c = .brk then .brk else .changeover := by
  cases c with
  | idle => contradiction
  | makeready | good | splice | brk | changeover => rfl

/-- A changeover at a copy pulse on a line that counts: the plan taken, the pulse counted, then the stands and call-offs. -/
theorem State.takeChangeover_pulse (h : (s.line l).counting ≠ .idle) : s.takeChangeover l true =
    ((s.planTaken l).countCopy l).replan l ((s.line l).live.positions.map Position.stand) true := by
  unfold State.takeChangeover
  dsimp only
  rw [if_pos rfl, if_neg fun hidle => h hidle.1]
  rfl

end

section
variable {s : State} {l n m : Nat} {j k : Job}

/-- A changeover from a line's one LIVE job to an OPEN job of the line, which its working plan names. -/
structure State.HandsOver (s : State) (l n m : Nat) (j k : Job) : Prop where
  rising : s.jobs.rising = true
  outgoing : s.liveJob l = some n
  outgoingJob : s.job n = some j
  one : ∀ x y, s.job x = some y → y.state = .live → y.line = l → x = n
  incoming : (s.line l).working.job = some m
  incomingJob : s.job m = some k
  opened : k.state = .opened
  onLine : k.line = l

theorem State.HandsOver.ne (h : s.HandsOver l n m j k) : m ≠ n := by
  rintro rfl
  obtain ⟨q, hq, hlive, -⟩ := State.liveJob_some h.rising h.outgoing
  cases hq.symm.trans h.incomingJob
  exact absurd (h.opened.symm.trans hlive) nofun

/-- The jobs after the first step of the changeover. -/
theorem State.HandsOver.jobs (h : s.HandsOver l n m j k) : (s.planTaken l).jobs =
    (s.jobs.put n (some { j with state := .closed })).put m (some (k.madeLive (s.line l).working)) := by
  have hjobs := State.closeOutgoing_jobs h.outgoing h.outgoingJob
  have hk : (s.closeOutgoing l).job m = some k := by
    rw [State.job, hjobs, Tbl.find_put, if_neg h.ne]
    exact h.incomingJob
  rw [State.planTaken, h.incoming, ← hjobs]
  show ((s.closeOutgoing l).modJob m _).jobs = _
  rw [State.modJob, hk]
  rfl

theorem State.HandsOver.job (h : s.HandsOver l n m j k) (x : Nat) : (s.planTaken l).job x =
    if x = m then some (k.madeLive (s.line l).working) else if x = n then some { j with state := .closed } else s.job x := by
  rw [State.job, h.jobs, Tbl.find_put, Tbl.find_put]
  rfl

theorem State.HandsOver.risingAfter (h : s.HandsOver l n m j k) : (s.planTaken l).jobs.rising = true :=
  h.jobs ▸ Tbl.rising_put _ _ (Tbl.rising_put _ _ h.rising)

theorem State.HandsOver.liveJob (h : s.HandsOver l n m j k) : (s.planTaken l).liveJob l = some m := by
  refine State.liveJob_unique h.risingAfter ((h.job m).trans (if_pos rfl)) rfl h.onLine fun x y hx hlive hline => ?_
  rw [h.job] at hx
  split at hx
  · next hm => exact hm
  · split at hx
    · cases hx
      exact absurd hlive nofun
    · next hn => exact absurd (h.one x y hx hlive hline) hn

/-- The category of the copy a changeover takes effect at: BREAK on a line in that state, else CHANGEOVER (R55 step 2). -/
def Line.takenCounting (x : Line) : Counting := if x.counting = .brk then .brk else .changeover

/-- A job made LIVE by a line's plan, with the copy the changeover takes effect at. -/
def Job.withFirstCopy (k : Job) (x : Line) : Job := (k.madeLive x.working).counted x.takenCounting

theorem Job.withFirstCopy_eq (k : Job) (x : Line) : k.withFirstCopy x = { k with
    state := .live, target := some x.working.target, allowance := some x.working.allowance, excess := false, targetMet := false
    brk := if x.counting = .brk then k.brk + 1 else k.brk
    changeover := if x.counting = .brk then k.changeover else k.changeover + 1 } := by
  unfold Job.withFirstCopy Line.takenCounting
  split <;> rfl

theorem State.planTaken_counting (hc : (s.line l).counting ≠ .idle) : ((s.planTaken l).line l).counting = (s.line l).takenCounting := by
  rw [State.planTaken_line, if_pos rfl]
  exact Counting.changed_printing hc

/-- The copy a changeover takes effect at is the first of the plan's job. -/
theorem State.HandsOver.countCopy (h : s.HandsOver l n m j k) (hc : (s.line l).counting ≠ .idle) (hmax : k.total + 1 < Config.max32) :
    (s.planTaken l).countCopy l =
      (s.planTaken l).putJob m (some (k.withFirstCopy (s.line l))) := by
  have counting := State.planTaken_counting hc
  have waste : ((s.planTaken l).line l).counting = .brk ∨ ((s.planTaken l).line l).counting = .changeover := by
    rw [counting, Line.takenCounting]
    exact ite_eq_or_eq _ _ _
  have total : (k.madeLive (s.line l).working).total + 1 < Config.max32 := hmax
  rw [State.countCopy_counted h.liveJob ((h.job m).trans (if_pos rfl)) (by rcases waste with h | h <;> rw [h] <;> nofun)
    (Nat.le_of_lt total), if_neg (Nat.ne_of_lt total), State.countCategory_waste (Nat.le_of_lt total) waste, counting]
  rfl

/-- A changeover that takes effect at a copy pulse: the line's plan and counting, and the jobs before and after it (R55, R110). -/
theorem State.HandsOver.takeChangeover (h : s.HandsOver l n m j k) (hc : (s.line l).counting ≠ .idle) (hmax : k.total + 1 < Config.max32) :
    let t := s.takeChangeover l true
    ((t.line l).live = (s.line l).working ∧ (t.line l).working = (s.line l).working ∧ (t.line l).pending = false) ∧
    t.job n = some { j with state := .closed } ∧
    (∃ x, t.job m = some x ∧ (k.withFirstCopy (s.line l)).recounted x) ∧
    ((s.line l).counting = .brk → (t.line l).counting = .brk) ∧
    ((s.line l).counting ≠ .brk → (t.line l).inBreak = (s.line l).inBreak → (t.line l).counting = .changeover) := by
  obtain ⟨u, hu⟩ : ∃ u, u = (s.planTaken l).countCopy l := ⟨_, rfl⟩
  have counted := hu.trans (h.countCopy hc hmax)
  have line : u.line l = (s.planTaken l).line l := by rw [counted]; rfl
  have job (x : Nat) : u.job x = if x = m then some (k.withFirstCopy (s.line l)) else (s.planTaken l).job x := by
    rw [counted]
    exact Law.job_put ..
  have rising : u.jobs.rising = true := by rw [counted]; exact Tbl.rising_put m (some (k.withFirstCopy (s.line l))) h.risingAfter
  have counting : (u.line l).counting = (s.line l).takenCounting := line ▸ State.planTaken_counting hc
  have plan := State.planTaken_line s l l
  rw [if_pos rfl] at plan
  intro t
  have ht : t = u.replan l ((s.line l).live.positions.map Position.stand) true := hu ▸ State.takeChangeover_pulse hc
  have settles : u.Settles l t := ht ▸ u.replan_settles rising _ true
  have kept : Wr 2 u t := ht ▸ State.wr_replan .refl (Nat.le_refl 2) ..
  obtain ⟨hlive, hworking, hpend⟩ := (kept.kept_line (by omega) l).2 (by omega)
  clear_value t
  rw [line, plan] at hlive hworking hpend
  refine ⟨⟨hlive, hworking, hpend⟩, ?_, ?_, fun hbrk => settles.brk ?_, fun hbrk hin => ?_⟩
  · obtain ⟨x, hx, -, hclosed⟩ := settles.jobs n { j with state := .closed } (by rw [job, if_neg h.ne.symm, h.job, if_neg h.ne.symm, if_pos rfl])
    rw [hx, hclosed nofun]
  · exact settles.jobs m _ ((job m).trans (if_pos rfl))
  · rw [counting, Line.takenCounting, if_pos hbrk]
  · refine (settles.changeover ?_).resolve_right ?_
    · rw [counting, Line.takenCounting, if_neg hbrk]
    · rintro ⟨-, hbroken, hclear⟩
      rw [line, plan] at hclear
      exact Bool.false_ne_true (hclear.symm.trans (hin.symm.trans hbroken))

end

/-! ## COPY_PULSE -/

/-- Settles O29: on a line with no changeover pending the pulse is a copy in the category of the counting state; on one with a changeover
pending the plan is taken, the pulse counted to its job, and what the stands then take leaves plan, jobs and counting as said. -/
theorem copyPulseCounts : Obligations.CopyPulseCounts := by
  refine ⟨fun s l n j hawake h1 h4 hpend => ?_, fun s l n m j k hawake h1 h4 hpend hc hrise hn hj hone hm hk hopened hline hmax => ?_⟩
  · have hl : lineOk l = true := lineOk_iff.mpr ⟨h1, h4⟩
    refine ⟨fun hno => ?_, fun hn hj hmax => ?_, fun hn hj hc hmax => ?_⟩
    · rw [execCopyPulse_counting hawake hl hpend, State.countCopy_uncounted (s := s.fresh) hno]
      rfl
    · exact ⟨execCopyPulse_makeready hawake hl hpend hn hj hmax, execCopyPulse_good hawake hl hpend hn hj hmax,
        execCopyPulse_waste hawake hl hpend hn hj hmax⟩
    · intro counted
      have hcounted : counted = j.counted (s.line l).counting := by
        dsimp only [counted]
        cases (s.line l).counting <;> rfl
      rw [hcounted]
      exact execCopyPulse_limit hawake hl hpend hn hj hc hmax
  · intro p
    have hover : s.fresh.HandsOver l n m j k := ⟨hrise, hn, hj, hone, hm, hk, hopened, hline⟩
    obtain ⟨⟨hlive, hworking, hnone⟩, hclosed, ⟨x, hx, hnew, -⟩, hbrk, hprint⟩ := hover.takeChangeover hc hmax
    obtain ⟨hlines, hjobs⟩ := (s.fresh.takeChangeover l true).finish_writes.kept_lines Nat.zero_lt_two
    have hexec : exec (.copyPulse l) s = .next (s.fresh.takeChangeover l true).finish := by
      rw [execCopyPulse_taken hawake (lineOk_iff.mpr ⟨h1, h4⟩), State.copy, if_pos (show (s.fresh.line l).pending = true from hpend)]
    refine ⟨_, x, hexec, ?_⟩
    unfold State.line State.job at *
    rw [hlines, hjobs]
    refine ⟨hlive, hworking, hnone, hclosed, hx, ?_, hbrk, hprint⟩
    rw [hnew, Job.withFirstCopy_eq]
    rfl

end Sys2Proof.Machine
end

section
/-! Proofs about the stands a changed list of live positions lets go and takes in (R56, R78). -/

namespace Sys2Proof.Machine

section
variable {s : State} {l st c : Nat}

/-! ## A stand that leaves -/

/-- A stand disarmed: back to RUNNING with DRIVE dropped where it was ARMED or MATCHED (R77, R85). -/
def Stand.disarmed (x : Stand) : Stand :=
  if x.seq = .armed ∨ x.seq = .matched then { x with seq := .running, matchCount := 0, lastVs := none, drive := false } else x

/-- A stand that has left its line. -/
def Stand.left (x : Stand) : Stand := { x.disarmed.clearChannels with brake := false, markLeft := none, ts := 65535 }

theorem State.disarm_stand (s : State) (st c : Nat) : (s.disarm st).stand c = if c = st then (s.stand c).disarmed else s.stand c := by
  unfold State.disarm
  dsimp only
  split
  · next h =>
    rw [State.drivePin_stand, Law.stand_mod]
    split
    · next hc =>
      subst hc
      simp [Stand.driven, Stand.disarmed, h]
    · next hc => simp [Stand.driven, hc]
  · next h =>
    split
    · next hc =>
      subst hc
      exact (if_neg h).symm
    · rfl

theorem State.standLeaves_stand (s : State) (st c : Nat) : (s.standLeaves st).stand c = if c = st then (s.stand c).left else s.stand c := by
  rw [State.standLeaves, Law.stand_mod, State.drivePin_stand, State.drivePin_stand, State.disarm_stand, State.disarm_stand]
  split
  · next hc =>
    subst hc
    simp only [Stand.driven, if_true]
    rfl
  · next hc => simp [Stand.driven, hc]

theorem Stand.left_eq (x : Stand) : x.left =
    let armed := x.seq = .armed ∨ x.seq = .matched
    { x with
      seq := if armed then .running else x.seq, matchCount := if armed then 0 else x.matchCount
      lastVs := if armed then none else x.lastVs, drive := if armed then false else x.drive, brake := false
      armA := { x.armA with chan := ⟨0, none⟩ }, armB := { x.armB with chan := ⟨0, none⟩ }, markLeft := none, ts := 65535 } := by
  unfold Stand.left Stand.disarmed
  split
  · next h => simp only [h, if_true]; rfl
  · next h => simp only [h, if_false]; rfl

theorem Stand.left_seq (x : Stand) (h : x.seq ≠ .pasting) : x.left.seq ≠ .pasting := by
  unfold Stand.left Stand.disarmed
  split
  · exact nofun
  · exact h

/-! ## A stand that joins -/

theorem State.brakeByPlan_stand (s : State) (l st c : Nat) : (s.brakeByPlan l st).stand c =
    if c = st ∧ (s.line l).inBreak = true then { s.stand c with brake := (s.line l).live.breakBrake } else s.stand c := by
  unfold State.brakeByPlan
  split
  · next h => simp [State.drivePin_stand, Stand.driven, h]
  · next h => simp [h]

theorem State.restartMark_stand (s : State) (st c : Nat) : (s.restartMark st).stand c =
    if c = st then { s.stand c with markLeft := if s.markRuns c then some Config.markTime else none } else s.stand c := by
  rw [State.restartMark, Law.stand_mod]
  split
  · next hc => rw [hc]
  · rfl

theorem State.markRuns_iff (s : State) (st : Nat) : s.markRuns st = true ↔
    (s.stand st).active ≠ none ∧ ∃ m, s.lineOf st = some m ∧ 20 ≤ (s.line m).v := by
  unfold State.markRuns
  cases s.lineOf st <;> simp [State.measuring, Config.measuringThreshold, Option.isSome_iff_ne_none]

theorem State.markRuns_cleared (s : State) (st : Nat) : (s.modStand st Stand.clearChannels).markRuns st = s.markRuns st := by
  unfold State.markRuns
  rw [Law.stand_mod, if_pos rfl]
  rfl

/-- A stand that has joined a line, before a paste under way is completed. -/
def State.joined (s : State) (l st : Nat) : State := ((s.modStand st Stand.clearChannels).restartMark st).brakeByPlan l st

theorem State.joined_stand (s : State) (l st : Nat) : (s.joined l st).stand st = { (s.stand st).clearChannels with
    markLeft := if s.markRuns st then some 4000000 else none
    brake := if (s.line l).inBreak then (s.line l).live.breakBrake else (s.stand st).brake } := by
  have marked : ((s.modStand st Stand.clearChannels).restartMark st).stand st =
      { (s.stand st).clearChannels with markLeft := if s.markRuns st then some 4000000 else none } := by
    rw [State.restartMark_stand, if_pos rfl, State.markRuns_cleared, Law.stand_mod, if_pos rfl]
  have hline : ((s.modStand st Stand.clearChannels).restartMark st).line l = s.line l := rfl
  rw [State.joined, State.brakeByPlan_stand, marked, hline]
  cases h : (s.line l).inBreak <;> simp [Stand.clearChannels]

theorem State.joined_line (s : State) (l st m : Nat) : (s.joined l st).line m = s.line m := by
  unfold State.joined State.brakeByPlan
  split
  · exact State.drivePin_line ..
  · rfl

theorem State.standJoins_cases (s : State) (l st : Nat) : s.standJoins l st =
    if (s.line l).inBreak = true ∧ (s.stand st).seq = .pasting then (s.joined l st).splice st else s.joined l st := by
  have hseq : ((s.joined l st).stand st).seq = (s.stand st).seq := by rw [State.joined_stand]; rfl
  rw [← s.joined_line l st l, ← hseq]
  rfl

end

end Sys2Proof.Machine
end

section
/-! Proofs about the call-offs a changed list of live positions deals with (R57). -/

namespace Sys2Proof.Machine

section
variable {s : State} {l n st : Nat} {a : Arm} {o : Order} {p : Position}

/-! ## The cases of R57 -/

/-- The position on a line of the stand a call-off is for. -/
theorem State.positionOn_arm (hr : o.requester = .arm st a) :
    (o.requester.stand.bind fun st => (s.positionOf st).filter fun e => e.1 == l) = (s.positionOf st).filter fun e => e.1 == l := by
  rw [hr]
  rfl

/-- A call-off whose stand has a position on the line. -/
theorem State.dealCallOff_placed (ho : s.order n = some o) (hr : o.requester = .arm st a) (hpos : s.positionOf st = some (l, p)) :
    (o.grade = some p.grade ∧ o.width = some p.width → s.dealCallOff l n = s) ∧
    (o.state = .unloading ∨ o.state = .failed → s.dealCallOff l n = s) ∧
    (¬ (o.grade = some p.grade ∧ o.width = some p.width) →
      (o.state = .pending ∨ o.state = .assigned ∨ o.state = .loading → s.dealCallOff l n = s.retarget n p) ∧
      (o.state = .carrying → s.dealCallOff l n = s.convert n)) := by
  have hstand : ((s.positionOf st).filter fun e => e.1 == l) = some (l, p) := by simp [hpos]
  unfold State.dealCallOff
  rw [ho]
  dsimp only
  rw [State.positionOn_arm hr, hstand]
  dsimp only
  refine ⟨fun hsame => if_pos hsame, fun hrest => ?_, fun hdiff => ?_⟩
  · rcases hrest with h | h <;> rw [h] <;> exact ite_self s
  · rw [if_neg hdiff]
    refine ⟨fun hearly => ?_, fun h => by rw [h]⟩
    rcases hearly with h | h | h <;> rw [h]

/-- A call-off whose stand has no position on the line. -/
theorem State.dealCallOff_left (ho : s.order n = some o) (hr : o.requester = .arm st a) (hpos : ∀ p, s.positionOf st ≠ some (l, p)) :
    (o.state = .unloading ∨ o.state = .failed → s.dealCallOff l n = s) ∧
    (o.state = .pending → s.dealCallOff l n = s.freeOrder n) ∧
    (o.state = .assigned ∨ o.state = .loading → s.dealCallOff l n = s.markAbort n) ∧
    (o.state = .carrying → s.dealCallOff l n = s.convert n) := by
  have hstand : ((s.positionOf st).filter fun e => e.1 == l) = none := by
    rw [Option.filter_eq_none_iff]
    rintro ⟨m, q⟩ hq hm
    exact hpos q (eq_of_beq hm ▸ hq)
  unfold State.dealCallOff
  rw [ho]
  dsimp only
  rw [State.positionOn_arm hr, hstand]
  dsimp only
  refine ⟨fun h => ?_, fun h => by rw [h], fun h => ?_, fun h => by rw [h]⟩
  · rcases h with h | h <;> rw [h]
  · rcases h with h | h <;> rw [h]

/-! ## An order returned to PENDING keeps its content (R132) -/

theorem State.returnToPending_same (ho : s.order n = some o) : ∃ q, (s.returnToPending n false).order n = some q ∧ q = { o with
    state := .pending, vehicle := none, roll := q.roll, source := q.source, named := q.named, dest := q.dest } := by
  have told : (s.abortVehicle n o).order n = some o := (congrArg (Tbl.find · n) (OrderLaw.tell_rest s n o).1).trans ho
  obtain ⟨p, hp, hop⟩ := (State.giveUpReservation_only (s.abortVehicle n o) n o).2.2 o told
  have freed : (((s.abortVehicle n o).giveUpReservation n o).freeVehicle n o).order n = some p :=
    (congrArg (Tbl.find · n) (OrdersAfter.freeVehicle ..)).trans hp
  obtain ⟨q, hq, hpq, -⟩ := OrderLaw.with_order _ n o p freed
  rw [State.returnToPending_live ho]
  refine ⟨_, (Law.order_mod _ n n _).trans (by rw [if_pos rfl, hq]; rfl), ?_⟩
  rw [hpq, hop]

/-- A call-off re-targeted is PENDING with the new grade and width, without vehicle or reserved roll. -/
theorem State.retarget_order (ho : s.order n = some o) (p : Position) : ∃ q, (s.retarget n p).order n = some q ∧
    q.grade = some p.grade ∧ q.width = some p.width ∧ q.state = .pending ∧ q.vehicle = none ∧ q.kind = o.kind ∧ q.seq = o.seq ∧
    ∀ r x, o.roll = some r → s.roll r = some x → x.state = .reserved →
      q.roll = none ∧ (s.retarget n p).roll r = some { x with state := .stored, order := none } := by
  obtain ⟨u, hu⟩ : ∃ u, u = s.modOrder n ({ · with grade := some p.grade, width := some p.width }) := ⟨_, rfl⟩
  have uorder : u.order n = some { o with grade := some p.grade, width := some p.width } := by
    rw [hu, Law.order_mod, if_pos rfl, ho]
    rfl
  have uroll (r : Nat) : u.roll r = s.roll r := congrArg (Tbl.find · r) (hu ▸ State.modOrder_rolls ..)
  obtain ⟨q, hq, hsame⟩ := State.returnToPending_same uorder
  obtain ⟨q', hq', -, -, -, -, hgiven⟩ := State.returnToPending_own uorder
  cases hq.symm.trans hq'
  have hret : s.retarget n p = u.returnToPending n false := by rw [hu]; rfl
  rw [hret]
  refine ⟨q, hq, by rw [hsame], by rw [hsame], by rw [hsame], by rw [hsame], by rw [hsame], by rw [hsame], fun r x hr hx hstate => ?_⟩
  refine ⟨hgiven r x hr ((uroll r).trans hx) hstate, ?_⟩
  rw [State.returnToPending_roll uorder, if_pos hr, uroll, hx, Option.map_some, if_pos hstate]

/-! ## An order marked for ABORT (R133) -/

theorem State.markAbort_order (ho : s.order n = some o) : ∃ q, (s.markAbort n).order n = some q ∧ q.abort = true ∧ q.state = o.state ∧
    q.vehicle = o.vehicle ∧ q.seq = o.seq := by
  obtain ⟨p, hp, hop, -⟩ := OrderLaw.drop_order s n o ho
  obtain ⟨q, hq, hpq, -⟩ := OrderLaw.with_order _ n o p hp
  obtain ⟨u, hu⟩ : ∃ u, u = (((s.dropRoll n o).withdrawBay n o).clearLink n o).abortVehicle n o := ⟨_, rfl⟩
  have uorders : u.orders = ((s.dropRoll n o).withdrawBay n o).orders := by
    rw [hu, (OrderLaw.tell_rest ..).1, OrdersAfter.clearLink]
  have marked : (u.modOrder n ({ · with abort := true })).order n = some { q with abort := true } := by
    rw [Law.order_mod, if_pos rfl, State.order, uorders, show Tbl.find _ n = some q from hq]
    rfl
  have hmark : s.markAbort n = (u.modOrder n ({ · with abort := true })).reviewCallOff o := by
    rw [hu, State.markAbort, ho]
  rw [hmark]
  refine ⟨_, (Law.review_order _ o n).1 _ marked, rfl, ?_⟩
  rw [hpq, hop]
  exact ⟨rfl, rfl, rfl⟩

end

end Sys2Proof.Machine
end

section
/-! Proofs about a stand that a changeover lets go (R55, R56): what the other stands, the call-offs and a break entry take leaves it, but
for its call-off links. -/

namespace Sys2Proof.Machine

/-! ## What an operation at one stand leaves of another -/

section
variable {s : State} {n st : Nat}

theorem BareStand.of_stand {t : State} (h : t.stand n = s.stand n) : Law.standBare n t = Law.standBare n s := congrArg Law.withoutCallOffs h

theorem State.modStand_other (s : State) (f : Stand → Stand) (h : n ≠ st) : (s.modStand st f).stand n = s.stand n :=
  (Law.stand_mod ..).trans (if_neg h)

theorem State.drive_other (s : State) (b : Bool) (h : n ≠ st) : (s.drivePin (.drive st) b).stand n = s.stand n :=
  (State.drivePin_stand ..).trans (if_neg h)

theorem State.paste_other (s : State) (b : Bool) (h : n ≠ st) : (s.drivePin (.paste st) b).stand n = s.stand n :=
  (State.drivePin_stand ..).trans (if_neg h)

theorem State.brake_other (s : State) (b : Bool) (h : n ≠ st) : (s.drivePin (.brake st) b).stand n = s.stand n :=
  (State.drivePin_stand ..).trans (if_neg h)

theorem State.lateTest_other (s : State) (h : n ≠ st) : (s.lateTest st).stand n = s.stand n := by
  unfold State.lateTest
  dsimp only
  split
  · exact (congrArg (Tbl.get · n Stand.cold) (State.raise_stands ..)).trans (s.modStand_other _ h)
  · rfl

theorem State.tryArm_other (s : State) (h : n ≠ st) : (s.tryArm st).stand n = s.stand n := by
  unfold State.tryArm
  split
  · rw [State.lateTest_other _ h, State.drive_other _ _ h, State.modStand_other _ _ h]
  · rfl

theorem BareStand.afterStart_other (s : State) (h : n ≠ st) : Law.standBare n (s.afterStart st) = Law.standBare n s := by
  rw [State.afterStart, BareStand.of_stand (State.tryArm_other _ h), BareStand.handTs]
  exact BareStand.of_stand ((State.modStand_other _ _ h).trans (State.modStand_other _ _ h))

theorem State.startMove_other (s : State) (m : Nat) (a : Arm) (job : Option Nat) (h : n ≠ st) :
    (s.startMove m st a job).stand n = s.stand n :=
  (State.modStand_other _ _ h).trans (congrArg (Tbl.get · n Stand.cold) (State.modRoll_stands ..))

theorem State.expire_other (s : State) (m : Nat) (a : Arm) (df : Option Nat) (h : n ≠ st) : (s.expire m st a df).stand n = s.stand n :=
  (State.modStand_other _ _ h).trans (congrArg (Tbl.get · n Stand.cold) (State.modRoll_stands ..))

theorem State.armsSwapped_other (s : State) (a b : Arm) (old new : Nat) (job : Option Nat) (h : n ≠ st) :
    (s.armsSwapped st a b old new job).stand n = s.stand n := by
  rw [State.armsSwapped, State.modStand_other _ _ h, State.seedDiameter, State.modStand_other _ _ h, State.startMove_other _ _ _ _ h,
    State.expire_other _ _ _ _ h, State.dropPasteDrive, State.drive_other _ _ h, State.paste_other _ _ h]

theorem State.modJobAt_stands (s : State) (j : Option Nat) (f : Job → Job) : (s.modJobAt j f).stands = s.stands := by
  obtain ⟨_, h⟩ := s.modJobAt_only j f
  rw [h]

theorem State.spliceEvent_stands (s : State) (m : Nat) : (s.spliceEvent m).stands = s.stands := by
  unfold State.spliceEvent
  dsimp only
  repeat' split
  all_goals simp [State.modJobAt_stands]

theorem State.countBreak_stands (s : State) (m : Nat) : (s.countBreak m).stands = s.stands := by
  unfold State.countBreak
  split <;> simp

theorem BareStand.splice_other (s : State) (h : n ≠ st) : Law.standBare n (s.splice st) = Law.standBare n s := by
  rcases s.splice_cases st with hnone | ⟨a, b, old, new, job, u, hu, hsplice⟩
  · rw [hnone]
  · have swapped := BareStand.of_stand (s.armsSwapped_other a b old new job h)
    have sent : Law.standBare n u = Law.standBare n s := by
      rcases hu with rfl | ⟨m, rfl⟩
      · exact swapped
      · exact (BareStand.stands (State.spliceEvent_stands ..) n).trans swapped
    rw [hsplice, BareStand.afterStart_other _ h, BareStand.of_stand (State.modStand_other _ _ h), sent]

theorem BareStand.firstStart_other (s : State) (h : n ≠ st) : Law.standBare n (s.firstStart st) = Law.standBare n s := by
  unfold State.firstStart
  dsimp only
  split
  · split
    · rw [BareStand.afterStart_other _ h]
      exact BareStand.of_stand ((State.modStand_other _ _ h).trans ((State.modStand_other _ _ h).trans (State.startMove_other _ _ _ _ h)))
    · rfl
  · rfl

theorem State.writeTs_other (s : State) (h : n ≠ st) : (s.writeTs st).stand n = s.stand n := s.modStand_other _ h

theorem BareStand.reevaluate_other (s : State) (h : n ≠ st) : Law.standBare n (s.reevaluate st) = Law.standBare n s := by
  unfold State.reevaluate
  dsimp only
  rw [BareStand.handTs, BareStand.of_stand (State.lateTest_other _ h), BareStand.of_stand (State.tryArm_other _ h)]
  split
  · exact BareStand.of_stand (s.writeTs_other h)
  · rfl

theorem State.brakeByPlan_other (s : State) (l : Nat) (h : n ≠ st) : (s.brakeByPlan l st).stand n = s.stand n :=
  (s.brakeByPlan_stand l st n).trans (if_neg fun hc => h hc.1)

theorem State.joined_other (s : State) (l : Nat) (h : n ≠ st) : (s.joined l st).stand n = s.stand n := by
  rw [State.joined, State.brakeByPlan_other _ _ h, State.restartMark, State.modStand_other _ _ h, State.modStand_other _ _ h]

theorem BareStand.standJoins_other (s : State) (l : Nat) (h : n ≠ st) : Law.standBare n (s.standJoins l st) = Law.standBare n s := by
  rw [State.standJoins_cases]
  split
  · rw [BareStand.splice_other _ h, BareStand.of_stand (s.joined_other l h)]
  · exact BareStand.of_stand (s.joined_other l h)

/-! ## What a call-off dealt with leaves of a stand (R57) -/

theorem State.abortVehicle_stands (s : State) (k : Nat) (o : Order) : (s.abortVehicle k o).stands = s.stands := by
  unfold State.abortVehicle State.sendVehicleKept State.sendKept
  repeat' split
  all_goals simp

theorem State.giveUpReservation_stands (s : State) (k : Nat) (o : Order) : (s.giveUpReservation k o).stands = s.stands := by
  unfold State.giveUpReservation State.release
  repeat' split
  all_goals simp

theorem State.dropRoll_stands (s : State) (k : Nat) (o : Order) : (s.dropRoll k o).stands = s.stands := by
  unfold State.dropRoll State.release State.unlink
  repeat' split
  all_goals simp

theorem State.returnToPending_stands (s : State) (k : Nat) : (s.returnToPending k false).stands = s.stands := by
  cases ho : s.order k with
  | none => rw [State.returnToPending_dead ho]
  | some o =>
    rw [State.returnToPending_live ho]
    refine (State.modOrder_stands ..).trans ?_
    rw [StandsAfter.withdrawBay, StandsAfter.freeVehicle, State.giveUpReservation_stands, State.abortVehicle_stands]

theorem BareStand.freeOrder (s : State) (k : Nat) : Law.standBare n (s.freeOrder k) = Law.standBare n s := by
  unfold State.freeOrder
  split
  · rfl
  · next o _ =>
    rw [BareStand.reviewCallOff]
    refine (BareStand.stands (StandsAfter.freeVehicle _ k o) n).trans ?_
    rw [BareStand.clearLink, BareStand.stands (StandsAfter.withdrawBay ..), BareStand.stands (State.dropRoll_stands ..)]

theorem BareStand.markAbort (s : State) (k : Nat) : Law.standBare n (s.markAbort k) = Law.standBare n s := by
  unfold State.markAbort
  split
  · rfl
  · rw [BareStand.reviewCallOff, BareStand.stands (State.modOrder_stands ..), BareStand.stands (State.abortVehicle_stands ..),
      BareStand.clearLink, BareStand.stands (StandsAfter.withdrawBay ..), BareStand.stands (State.dropRoll_stands ..)]

theorem BareStand.convert (s : State) (k : Nat) : Law.standBare n (s.convert k) = Law.standBare n s := by
  unfold State.convert
  split
  · rfl
  · rw [BareStand.stands (StandsAfter.redirect ..), BareStand.stands (State.modOrder_stands ..), BareStand.clearLink,
      BareStand.stands (StandsAfter.withdrawBay ..)]

theorem BareStand.retarget (s : State) (k : Nat) (p : Position) : Law.standBare n (s.retarget k p) = Law.standBare n s :=
  BareStand.stands ((State.returnToPending_stands ..).trans (State.modOrder_stands ..)) n

theorem BareStand.dealCallOff (s : State) (l k : Nat) : Law.standBare n (s.dealCallOff l k) = Law.standBare n s := by
  unfold State.dealCallOff
  split
  · rfl
  · split
    · split
      · rfl
      · split
        · exact BareStand.retarget ..
        · exact BareStand.retarget ..
        · exact BareStand.retarget ..
        · exact BareStand.convert ..
        · rfl
        · rfl
    · split
      · exact BareStand.freeOrder ..
      · exact BareStand.markAbort ..
      · exact BareStand.markAbort ..
      · exact BareStand.convert ..
      · rfl
      · rfl

end

end Sys2Proof.Machine
end

section
/-! The stands and call-offs of a changed list of live positions (R56, R57, R78): the stand that a changeover lets go, and the statement. -/

namespace Sys2Proof.Machine

/-! ## The stands of a line are those of its live plan (R49) -/

section
variable {s t : State} {l st : Nat}

theorem State.lineOf_of_live (h : ∀ m, (t.line m).live = (s.line m).live) (st : Nat) : t.lineOf st = s.lineOf st := by
  unfold State.lineOf State.positionOf
  simp only [h]

theorem State.lineStands_of_live (h : ∀ m, (t.line m).live = (s.line m).live) (l : Nat) : t.lineStands l = s.lineStands l := by
  unfold State.lineStands
  simp only [State.lineOf_of_live h]

theorem State.lineOf_none (h : ∀ m, 1 ≤ m → m ≤ 4 → ∀ p ∈ (s.line m).live.positions, p.stand ≠ st) : s.lineOf st = none := by
  rw [State.lineOf, State.positionOf, List.findSome?_eq_none_iff.mpr, Option.map_none]
  intro m hm
  obtain ⟨h1, h4⟩ := (Law.mem_span 1 4 m).mp hm
  rw [Option.map_eq_none_iff, List.find?_eq_none]
  exact fun p hp hst => h m h1 h4 p hp (eq_of_beq hst)

theorem State.mem_leavingStands (h1 : 1 ≤ st) (h16 : st ≤ 16) {old : List Nat} (hold : st ∈ old) (hnone : s.lineOf st = none) :
    st ∈ s.leavingStands l old := by
  refine List.mem_filter.mpr ⟨(Law.mem_span 1 16 st).mpr ⟨h1, h16⟩, ?_⟩
  simp [hold, State.lineStands, hnone]

theorem Wr.kept_live (h : Wr 2 s t) (m : Nat) : (t.line m).live = (s.line m).live :=
  ((h.kept_line (by omega) m).2 (by omega)).1

/-! ## A stand that leaves its line at a changed list of positions (R56) -/

theorem Stand.left_left (x : Stand) : x.left.left = x.left := by
  unfold Stand.left Stand.disarmed
  by_cases h : x.seq = .armed ∨ x.seq = .matched
  · simp only [h, if_true]
    rfl
  · simp only [h, if_false]
    exact congrArg (fun y : Stand => { y.clearChannels with brake := false, markLeft := none, ts := 65535 }) (if_neg h)

/-- What the changed list of positions has written so far, and the stand that has left, but for its call-off links. -/
def State.leftBehind (s : State) (st : Nat) (u : State) : Prop :=
  Wr 2 s u ∧ Law.standBare st u = Law.withoutCallOffs (s.stand st).left

section
variable {u v : State}

theorem State.leftBehind.step (h : s.leftBehind st u) (hw : Wr 2 u v) (hb : Law.standBare st v = Law.standBare st u) : s.leftBehind st v :=
  ⟨h.1.trans hw, hb.trans h.2⟩

theorem State.leftBehind.lineStands (h : s.leftBehind st u) (l : Nat) : u.lineStands l = s.lineStands l :=
  State.lineStands_of_live h.1.kept_live l

theorem State.leftBehind.seq (h : s.leftBehind st u) (hseq : (s.stand st).seq ≠ .pasting) : (u.stand st).seq ≠ .pasting := by
  have hsame := congrArg Stand.seq h.2
  have hleft := Stand.left_seq _ hseq
  exact fun hp => hleft (hsame.symm.trans hp)

theorem State.breakEntered_writes (s : State) (l : Nat) (c : Cause) : Wr 2 s (s.breakEntered l c) := by
  refine State.wr_stop (State.wr_modLine .refl (Nat.le_refl 2) l _ fun x => ?_) (Nat.le_refl 2) l true
  exact ⟨fun _ => ⟨rfl, rfl, rfl, rfl, rfl, rfl, rfl⟩, fun _ => ⟨rfl, rfl, rfl⟩⟩

/-- A break entry of the line leaves the stand that has left it. -/
theorem State.leftBehind.joinBreak (h : s.leftBehind st u) (hno : st ∉ s.lineStands l) (hseq : (s.stand st).seq ≠ .pasting)
    (joining : List Nat) : s.leftBehind st (u.joinBreak l joining) := by
  rcases u.joinBreak_cases l joining with hsame | ⟨-, c, hbreak⟩
  · rwa [hsame]
  · have away (w : State) (hw : s.leftBehind st w) (m : Nat) (hm : m ∈ w.lineStands l) : st ≠ m := by
      rintro rfl
      exact hno (hw.lineStands l ▸ hm)
    rw [hbreak]
    refine State.breakSteps_keeps ?_ (fun w hw => ?_) (fun w x m hw hm hx => ?_) (fun w x m hw hm hx => ?_) (fun w x m hw hm hx => ?_)
      (fun w hw => ?_)
    · exact h.step (State.breakEntered_writes u l c) (BareStand.of_stand (State.drivePin_stand ..))
    · exact hw.step (State.wr_countBreak .refl (Nat.le_refl 2) l) (BareStand.stands (State.countBreak_stands w l) st)
    · exact hx.step (State.wr_disarm .refl m) (BareStand.of_stand ((x.disarm_stand m st).trans (if_neg (away w hw m hm))))
    · have hne : st ≠ m := by
        rintro rfl
        exact hw.seq hseq hm
      exact hx.step (State.wr_splice .refl (Nat.le_refl 2) m) (BareStand.splice_other x hne)
    · exact hx.step (State.wr_brake .refl (by omega) m true) (BareStand.of_stand (x.brake_other true (away w hw m hm)))
    · exact hw.step (.raised .refl .lineBreak l (by omega) nofun) rfl

/-- A changed list of positions leaves of a stand that leaves the line what leaving makes of it, but for its call-off links. -/
theorem State.replan_left {old : List Nat} {start : Bool} (hleave : st ∈ s.leavingStands l old) (hseq : (s.stand st).seq ≠ .pasting) :
    s.leftBehind st (s.replan l old start) := by
  have hno : st ∉ s.lineStands l := by
    have hout := (List.mem_filter.mp hleave).2
    simp only [Bool.and_eq_true, Bool.not_eq_true', List.contains_eq_mem, decide_eq_false_iff_not] at hout
    exact hout.2
  have away (m : Nat) (hm : m ∈ s.lineStands l) : st ≠ m := fun h => hno (h ▸ hm)
  refine State.replan_keeps ⟨?_, ?_⟩ (fun u m hm h => ?_) (fun u m hm h => ?_) (fun u n h => ?_) (fun u m h => ?_)
    (fun u joining h => h.joinBreak hno hseq joining) (fun u m hm h => ?_) (fun u m hm h => ?_)
  · exact State.wr_each .refl _ _ fun n t ht => State.wr_standLeaves ht (by omega) n
  · have left := State.each_reads (g := State.stand) (fun s n m => s.standLeaves_stand n m) Stand.left_left (s.leavingStands l old) s st
    rw [if_pos hleave] at left
    exact congrArg Law.withoutCallOffs left
  · exact h.step (State.wr_standJoins .refl (Nat.le_refl 2) l m) (BareStand.standJoins_other u l (away m hm))
  · exact h.step (State.wr_brakeByPlan .refl (by omega) l m) (BareStand.of_stand (u.brakeByPlan_other l (away m hm)))
  · exact h.step (State.wr_dealCallOff .refl l n) (BareStand.dealCallOff u l n)
  · exact h.step (State.wr_evalCallOff .refl m) (BareStand.evalCallOff u m st)
  · exact h.step (State.wr_firstStart .refl (by omega) m) (BareStand.firstStart_other u (away m hm))
  · exact h.step (State.wr_reevaluate .refl (by omega) m) (BareStand.reevaluate_other u (away m hm))

end

/-! ## A changeover at once (R54, R55) -/

/-- The state a changeover at once hands to the stands: the plan taken, and an IDLE line in BREAK counted as a break entry is (R55). -/
def State.planCounted (s : State) (l : Nat) : State :=
  if (s.line l).counting = .idle ∧ (s.line l).inBreak = true then (s.planTaken l).countBreak l else s.planTaken l

theorem State.takeChangeover_stopped (s : State) (l : Nat) : s.takeChangeover l false =
    (s.planCounted l).replan l ((s.line l).live.positions.map Position.stand) true := rfl

theorem State.planCounted_stands (s : State) (l : Nat) : (s.planCounted l).stands = s.stands := by
  unfold State.planCounted
  split
  · rw [State.countBreak_stands, State.planTaken_stands]
  · exact s.planTaken_stands l

theorem State.planCounted_live (s : State) (l m : Nat) : ((s.planCounted l).line m).live =
    if m = l then (s.line l).working else (s.line m).live := by
  have taken : ((s.planTaken l).line m).live = if m = l then (s.line l).working else (s.line m).live := by
    rw [State.planTaken_line]
    split <;> rfl
  rw [← taken]
  unfold State.planCounted
  split
  · have hsame := congrArg Line.live (LineCore.countBreak (s.planTaken l) l m)
    exact hsame
  · rfl

theorem Stand.eq_of_bare {x y : Stand} (h : Law.withoutCallOffs x = Law.withoutCallOffs y) : x = { y with
    armA := { y.armA with callOff := x.armA.callOff }, armB := { y.armB with callOff := x.armB.callOff } } := congrArg (fun z : Stand => { z with
    armA := { z.armA with callOff := x.armA.callOff }, armB := { z.armB with callOff := x.armB.callOff } }) h

theorem Stand.left_arms (x : Stand) : x.left.armA = { x.armA with chan := ⟨0, none⟩ } ∧ x.left.armB = { x.armB with chan := ⟨0, none⟩ } := by
  rw [Stand.left_eq]
  exact ⟨rfl, rfl⟩

/-- A changeover at once lets go a stand that its plan does not name (R56). -/
theorem execChangeover_letsGo (ht : s.takes (.changeover l) = true) (hl : lineOk l = true) (hpend : (s.line l).pending = false)
    (hpass : s.planPasses l (s.line l).working = true) (hstop : (s.line l).counting = .idle ∨ (s.line l).counting = .brk)
    (h1 : 1 ≤ st) (h16 : st ≤ 16) (hold : ∃ p ∈ (s.line l).live.positions, p.stand = st)
    (hnew : ∀ p ∈ (s.line l).working.positions, p.stand ≠ st)
    (hother : ∀ m, 1 ≤ m → m ≤ 4 → m ≠ l → ∀ p ∈ (s.line m).live.positions, p.stand ≠ st) (hseq : (s.stand st).seq ≠ .pasting) :
    ∃ t, exec (.changeover l) s = .next t ∧ t.lineOf st = none ∧ Law.standBare st t = Law.withoutCallOffs (s.stand st).left := by
  obtain ⟨u, hu⟩ : ∃ u, u = s.fresh.planCounted l := ⟨_, rfl⟩
  have live (m : Nat) : (u.line m).live = if m = l then (s.line l).working else (s.line m).live := hu ▸ s.fresh.planCounted_live l m
  have stand : u.stand st = s.stand st := congrArg (Tbl.get · st Stand.cold) (hu ▸ s.fresh.planCounted_stands l)
  have gone : u.lineOf st = none := by
    refine State.lineOf_none fun m h1 h4 => ?_
    rw [live]
    split
    · exact hnew
    · next hm => exact hother m h1 h4 hm
  have leaving : st ∈ u.leavingStands l ((s.line l).live.positions.map Position.stand) :=
    State.mem_leavingStands h1 h16 (List.mem_map.mpr hold) gone
  have left := State.replan_left (start := true) leaving (stand ▸ hseq)
  have hexec := execChangeover_taken ht hl hpend hpass hstop
  rw [State.takeChangeover_stopped, ← hu] at hexec
  refine ⟨_, hexec, ?_, ?_⟩
  · have done := State.finish_writes ((u.replan l ((s.line l).live.positions.map Position.stand) true).replied (.changeover l) .ok [1#8])
    exact (State.lineOf_of_live (fun m => (congrArg Line.live (Law.request_done_line done m)).trans (left.1.kept_live m)) st).trans gone
  · rw [BareStand.finish]
    exact left.2.trans (by rw [stand])

end

/-! ## The statement -/

/-- The RETURN a CARRYING call-off becomes, with its roll (R57, R135). -/
theorem State.convert_returns {n : Nat} {o : Order} {s : State} (ho : s.order n = some o) : ∃ q, (s.convert n).order n = some q ∧ q.kind = .ret ∧
    q.cls = .store ∧ q.state = .carrying ∧ q.deadline = none ∧ q.grade = none ∧ q.width = none ∧ q.roll = o.roll ∧
    q.vehicle = o.vehicle ∧ q.seq = o.seq := by
  obtain ⟨q, hq, hkind, hcls, hstate, hdeadline, hgrade, hwidth, hroll, hvehicle, hseq, -⟩ := OrderLaw.conv0 s n o ho
  exact ⟨q, hq, hkind, hcls, hstate, hdeadline, hgrade, hwidth, hroll, hvehicle, hseq⟩

/-- Settles O60: what a stand takes when it leaves or joins, the cases of R57 by the stand's position, and a changeover at once, whose other
effects leave the stand that has left. -/
theorem changedPlanMovesStandsAndOrders : Obligations.ChangedPlanMovesStandsAndOrders := by
  unfold Obligations.ChangedPlanMovesStandsAndOrders
  intro left
  have hleft (x : Stand) : left x = x.left := x.left_eq.symm
  clear_value left
  refine ⟨fun s st => ⟨?_, fun c hc => ?_⟩, fun s l st h => ?_, fun s l n st a o ho hr => ?_,
    fun s l st ht h1 h4 hpend hpass hstop hst1 hst16 hold hnew hother hseq => ?_⟩
  · rw [State.standLeaves_stand, if_pos rfl, hleft]
  · rw [State.standLeaves_stand, if_neg hc]
  · intro x runs
    have hruns : runs ↔ s.markRuns st = true := (s.markRuns_iff st).symm
    have hquiet : ¬ ((s.line l).inBreak = true ∧ (s.stand st).seq = .pasting) := by
      rwa [not_and_or, Bool.not_eq_true]
    rw [State.standJoins_cases, if_neg hquiet, State.joined_stand]
    by_cases hr : runs
    · rw [if_pos hr, if_pos (hruns.mp hr)]
      rfl
    · rw [if_neg hr, if_neg (mt hruns.mpr hr)]
      rfl
  · intro t returned
    have carries (h : t = s.convert n) : returned := by
      obtain ⟨q, hq⟩ := State.convert_returns ho
      exact ⟨q, h ▸ hq⟩
    by_cases hpos : ∃ p, s.positionOf st = some (l, p)
    · obtain ⟨p, hp⟩ := hpos
      obtain ⟨hsame, hrest, hdiff⟩ := State.dealCallOff_placed ho hr hp
      refine ⟨hrest, fun p' hp' => ?_, fun hno => absurd hp (hno p)⟩
      cases hp.symm.trans hp'
      refine ⟨fun hg hw => hsame ⟨hg, hw⟩, fun hne => ⟨fun hearly => ?_, fun hstate => carries ((hdiff hne).2 hstate)⟩⟩
      have ht : t = s.retarget n p := (hdiff hne).1 hearly
      exact ht ▸ State.retarget_order ho p
    · have hno (p : Position) : s.positionOf st ≠ some (l, p) := fun hp => hpos ⟨p, hp⟩
      obtain ⟨hrest, hpending, hearly, hcarrying⟩ := State.dealCallOff_left ho hr hno
      refine ⟨hrest, fun p hp => absurd hp (hno p), fun _ => ⟨fun hstate q hq => ?_, fun hstate => ?_, fun hstate => carries (hcarrying hstate)⟩⟩
      · exact (OrderLaw.free s n o ho).1 q (hpending hstate ▸ hq)
      · have ht : t = s.markAbort n := hearly hstate
        exact ht ▸ State.markAbort_order ho
  · obtain ⟨t, hexec, hgone, hbare⟩ :=
      execChangeover_letsGo ht (lineOk_iff.mpr ⟨h1, h4⟩) hpend hpass hstop hst1 hst16 hold hnew hother hseq
    obtain ⟨harmA, harmB⟩ := (s.stand st).left_arms
    refine ⟨t, (t.stand st).armA.callOff, (t.stand st).armB.callOff, hexec, hgone, (Stand.eq_of_bare hbare).trans ?_⟩
    rw [hleft, harmA, harmB]

end Sys2Proof.Machine
end

section
/-! Proofs about the remaining length of a roll (R65). -/

namespace Sys2Proof.Machine

section
variable {g : Grade} {d e : Nat}

theorem Grade.length_at_core (h : d ≤ g.core) : g.length d = 0 := if_pos h

/-- The formula of R65 above the core, and its clamp. -/
theorem Grade.length_above_core (h : g.core < d) :
    g.length d = min 65535 (355 * (d * d - g.core * g.core) / (45200 * g.caliper)) := by
  rw [Grade.length, if_neg (Nat.not_le.mpr h), Nat.pow_two, Nat.pow_two]

theorem Grade.length_le (g : Grade) (d : Nat) : g.length d ≤ 65535 := by
  rcases le_or_gt d g.core with h | h
  · rw [Grade.length_at_core h]; exact Nat.zero_le _
  · rw [Grade.length_above_core h]; exact Nat.min_le_left ..

/-- A smaller diameter never gives a longer length. -/
theorem Grade.length_mono (g : Grade) (h : d ≤ e) : g.length d ≤ g.length e := by
  rcases le_or_gt d g.core with hd | hd
  · rw [Grade.length_at_core hd]; exact Nat.zero_le _
  · rw [Grade.length_above_core hd, Grade.length_above_core (Nat.lt_of_lt_of_le hd h)]
    have square : d * d - g.core * g.core ≤ e * e - g.core * g.core := Nat.sub_le_sub_right (Nat.mul_le_mul h h) _
    exact min_le_min le_rfl (Nat.div_le_div_right (Nat.mul_le_mul_left 355 square))

/-- The thinnest paper on the smallest core, at the largest diameter, is the longest. -/
theorem Grade.length_le_longest (hcaliper : 40 ≤ g.caliper) (hcore : 800 ≤ g.core) (hd : d ≤ 15000) : g.length d ≤ 44052 := by
  rcases le_or_gt d g.core with h | h
  · rw [Grade.length_at_core h]; exact Nat.zero_le _
  · rw [Grade.length_above_core h]
    have square : d * d - g.core * g.core ≤ 15000 * 15000 - 800 * 800 :=
      tsub_le_tsub (Nat.mul_le_mul hd hd) (Nat.mul_le_mul hcore hcore)
    have quotient : 355 * (d * d - g.core * g.core) / (45200 * g.caliper) ≤ 355 * (15000 * 15000 - 800 * 800) / (45200 * 40) :=
      Nat.div_le_div (Nat.mul_le_mul_left 355 square) (Nat.mul_le_mul_left 45200 hcaliper) (by decide)
    exact (Nat.min_le_right ..).trans quotient

end

/-- Settles O31: the formula, its clamp, its monotony, and the widest range. -/
theorem remainingLength : Obligations.RemainingLength := by
  intro g d
  refine ⟨Grade.length_at_core, fun h hfit => ?_, fun e => g.length_mono, g.length_le d, Grade.length_le_longest, fun hcaliper hcore => ?_⟩
  · rw [Grade.length_above_core h, Nat.min_eq_right hfit]
  · rw [Grade.length_above_core (by omega), hcaliper, hcore]
    decide

end Sys2Proof.Machine
end

section
/-! Proofs about one microsecond of the part's own time: what is counted, and what comes due (R61, R63; notes/assumptions/2.md). -/

namespace Sys2Proof.Machine

/-! ## A step taken once for every record of a table -/

/-- The numbers of a table whose records pass a test. -/
def numbersWhere {α : Type} (t : Tbl α) (p : α → Bool) : List Nat := (t.filter fun e => p e.2).map Prod.fst

theorem mem_numbersWhere {α : Type} {t : Tbl α} {p : α → Bool} {cold : α} (hrise : t.rising = true) (hcold : p cold = false) (n : Nat) :
    n ∈ numbersWhere t p ↔ p (t.get n cold) = true := by
  constructor
  · intro hn
    obtain ⟨⟨k, x⟩, he, rfl⟩ := List.mem_map.mp hn
    obtain ⟨hmem, hp⟩ := List.mem_filter.mp he
    rwa [Tbl.get, Law.find_rising hrise hmem]
  · intro hp
    cases hfind : t.find n with
    | none =>
      rw [Tbl.get, hfind] at hp
      exact absurd (hcold.symm.trans hp) Bool.false_ne_true
    | some x =>
      rw [Tbl.get, hfind] at hp
      exact List.mem_map.mpr ⟨(n, x), List.mem_filter.mpr ⟨Tbl.mem_of_find hfind, hp⟩, rfl⟩

theorem numbersWhere_ascend {α : Type} {t : Tbl α} (hrise : t.rising = true) (p : α → Bool) : (numbersWhere t p).Pairwise (· < ·) :=
  List.pairwise_map.mpr ((Tbl.rising_iff.mp hrise).filter _)

theorem keys_nodup {α : Type} {t : Tbl α} (hrise : t.rising = true) : t.keys.Nodup :=
  List.pairwise_map.mpr ((Tbl.rising_iff.mp hrise).imp Nat.ne_of_lt)

/-- An update taken once for each of some numbers, each changing its own record alone. -/
theorem State.each_once {α : Type} {g : State → Nat → α} {f : Nat → State → State} {h : α → α}
    (hg : ∀ s n m, g (f n s) m = if m = n then h (g s m) else g s m) {ns : List Nat} (hns : ns.Nodup) (s : State) (m : Nat) :
    g (s.each ns f) m = if m ∈ ns then h (g s m) else g s m := by
  induction ns generalizing s with
  | nil => rfl
  | cons n ns ih =>
    obtain ⟨hout, hns⟩ := List.nodup_cons.mp hns
    have step : g (s.each (n :: ns) f) m = if m ∈ ns then h (g (f n s) m) else g (f n s) m := ih hns (f n s)
    rw [step, hg]
    by_cases hm : m = n
    · subst hm; simp [hout]
    · simp [hm]

/-- Every listed record of a table changed once: the state is as it was but for the table, and a table in canonical order has every record
changed, where the unlisted value is unchanged. -/
theorem State.each_record {α : Type} [DecidableEq α] {table : State → Tbl α} {write : State → Tbl α → State} {cold : α} {h : α → α}
    (s : State) (hsame : write s (table s) = s) (hread : ∀ s t, table (write s t) = t) (hagain : ∀ s t u, write (write s t) u = write s u)
    (hcold : h cold = cold) :
    ∃ t, (s.each (table s).keys fun n u => write u ((table u).set n cold (h ((table u).get n cold)))) = write s t ∧
      ((table s).rising = true → ∀ m, t.get m cold = h ((table s).get m cold)) := by
  obtain ⟨t, ht⟩ : ∃ t, (s.each (table s).keys fun n u => write u ((table u).set n cold (h ((table u).get n cold)))) = write s t := by
    refine State.each_keeps (P := fun u => ∃ t, u = write s t) ?_ (table s).keys ⟨_, hsame.symm⟩
    rintro n _ ⟨t, rfl⟩
    exact ⟨_, hagain _ _ _⟩
  refine ⟨t, ht, fun hrise m => ?_⟩
  have read := State.each_once (g := fun u m => (table u).get m cold)
    (f := fun n u => write u ((table u).set n cold (h ((table u).get n cold)))) (h := h)
    (fun u n m => by
      rw [hread, Tbl.get_set]
      split
      · next hm => rw [hm]
      · rfl) (keys_nodup hrise) s m
  rw [ht, hread] at read
  rw [read]
  split
  · rfl
  · next hout => rw [Tbl.get_unlisted cold hout, hcold]

/-! ## Timers counted down -/

/-- A stand with one µs less on its timers. -/
def Stand.countedDown (x : Stand) : Stand := { x with markLeft := countDown x.markLeft, pasteLeft := countDown x.pasteLeft }

/-- A vehicle with one µs less on its running timers. -/
def Vehicle.countedDown (x : Vehicle) : Vehicle := { x with progress := x.progress.countDown, transfer := x.transfer.countDown }

section
variable {s : State}

/-- What a µs counts down: the timers of stands and vehicles and the reply window. -/
theorem State.countTimers_eq (s : State) : ∃ sts vs, s.countTimers =
      { s with stands := sts, vehicles := vs, exchange := s.exchange.map fun e => { e with left := e.left - 1 } } ∧
    (s.stands.rising = true → ∀ st, sts.get st .cold = (s.stand st).countedDown) ∧
    (s.vehicles.rising = true → ∀ v, vs.get v .cold = (s.vehicle v).countedDown) := by
  obtain ⟨sts, hsts, stand⟩ := State.each_record (table := State.stands) (write := fun s t => { s with stands := t })
    (h := Stand.countedDown) (cold := .cold) s rfl (fun _ _ => rfl) (fun _ _ _ => rfl) rfl
  obtain ⟨vs, hvs, vehicle⟩ := State.each_record (table := State.vehicles) (write := fun s t => { s with vehicles := t })
    (h := Vehicle.countedDown) (cold := .cold) { s with stands := sts } rfl (fun _ _ => rfl) (fun _ _ _ => rfl) rfl
  refine ⟨sts, vs, ?_, stand, vehicle⟩
  unfold State.countTimers
  extract_lets s1 s2
  have hs1 : s1 = { s with stands := sts } := hsts
  have hs2 : s2 = { s with stands := sts, vehicles := vs } := by
    dsimp only [s2]
    rw [hs1]
    exact hvs
  rw [hs2]

theorem ends_iff {left : Option Nat} : ends left = true ↔ left = some 0 ∨ left = some 1 := by
  cases left <;> simp [ends, Nat.le_one_iff_eq_zero_or_eq_one]

theorem Timer.ends_iff {x : Timer} : ends x.left = true ↔ x = .running 0 ∨ x = .running 1 := by
  cases x <;> simp [Timer.left, ends, Nat.le_one_iff_eq_zero_or_eq_one]

theorem windowEnds_iff {o : Option Exchange} : ends ((o.filter Exchange.windowOpen).map Exchange.left) = true ↔
    ∃ e, o = some e ∧ e.windowOpen = true ∧ e.left ≤ 1 := by
  cases o with
  | none => simp [ends]
  | some e => cases h : e.windowOpen <;> simp [ends, Option.filter, h]

/-! ## What comes due -/

theorem State.dueTimers_eq (s : State) : s.dueTimers =
    (numbersWhere s.stands (ends ·.markLeft)).map .markTimerExpiry ++ (numbersWhere s.stands (ends ·.pasteLeft)).map .pasteTimerExpiry ++
    (numbersWhere s.vehicles (ends ·.progress.left)).map .progressTimeout ++
    (numbersWhere s.vehicles (ends ·.transfer.left)).map .transferTimeout ++
    (if ends ((s.exchange.filter Exchange.windowOpen).map Exchange.left) then [.replyWindowExpiry] else []) := by
  simp only [State.dueTimers, numbersWhere, List.map_map]
  rfl

/-- The time base after a µs (chapter 0). -/
def State.nextTimeBase (s : State) : Nat := if s.subMs = 999 then min Config.timeBaseMax (s.timeBase + 1) else s.timeBase

/-- The µs of the running millisecond after a µs. -/
def State.nextSubMs (s : State) : Nat := if s.subMs = 999 then 0 else s.subMs + 1

theorem State.advance_eq (s : State) :
    s.advance = { s with micros := s.micros + 1, subMs := s.nextSubMs, timeBase := s.nextTimeBase } := by
  unfold State.advance State.nextSubMs State.nextTimeBase
  split <;> rfl

theorem State.advance_every (s : State) (period : Nat) :
    s.advance.every period = true ↔ s.subMs = 999 ∧ s.nextTimeBase % period = 0 := by
  rw [State.advance_eq, State.every]
  by_cases h : s.subMs = 999 <;> simp [State.nextSubMs, State.nextTimeBase, h]

/-- The state after a µs, but for its clocks, its timers and its queue. -/
theorem State.tick_eq (h : s.awake = true) : ∃ sts vs, s.tick =
      { s with micros := s.micros + 1, subMs := s.nextSubMs, timeBase := s.nextTimeBase, stands := sts, vehicles := vs,
               exchange := s.exchange.map (fun e => { e with left := e.left - 1 }),
               expiring := s.dueTimers, pending := s.pending ++ (s.dueTimers ++ s.duePeriods) } ∧
    (s.stands.rising = true → ∀ st, sts.get st .cold = (s.stand st).countedDown) ∧
    (s.vehicles.rising = true → ∀ v, vs.get v .cold = (s.vehicle v).countedDown) := by
  obtain ⟨sts, vs, hcount, hstand, hvehicle⟩ := s.advance.countTimers_eq
  rw [State.advance_eq] at hcount hstand hvehicle
  refine ⟨sts, vs, ?_, hstand, hvehicle⟩
  rw [State.tick, if_pos h, State.advance_eq, hcount]

theorem step_idle (h : s.pending = []) : step s = .next s.tick := by
  unfold step
  rw [h]

end

/-- Settles O12: an idle part counts one µs and queues what comes due in it. -/
theorem emptyQueueIsOneMicrosecond : Obligations.EmptyQueueIsOneMicrosecond := by
  refine ⟨fun s hq hasleep => ?_, fun s hq hawake => ?_⟩
  · rw [step_idle hq, State.tick, if_neg (Bool.eq_false_iff.mp hasleep)]
  · obtain ⟨sts, vs, htick, hstand, hvehicle⟩ := State.tick_eq hawake
    refine ⟨s.tick, step_idle hq, ?_⟩
    rw [htick, hq]
    refine ⟨rfl, fun h => ⟨if_pos h, if_pos h⟩, fun h => ⟨if_neg h, if_neg h⟩, ?_, ?_⟩
    · intro hrise hvrise count endsIn due
      refine ⟨fun st => hstand hrise st, fun v => ?_, numbersWhere s.stands (ends ·.markLeft), numbersWhere s.stands (ends ·.pasteLeft),
        numbersWhere s.vehicles (ends ·.progress.left), numbersWhere s.vehicles (ends ·.transfer.left), ?_, ?_⟩
      · have hcount (x : Timer) : count x = x.countDown := by cases x <;> rfl
        rw [hcount, hcount]
        exact hvehicle hvrise v
      · exact s.dueTimers_eq.trans (congrArg _ (if_congr windowEnds_iff rfl rfl))
      · exact ⟨fun st => (mem_numbersWhere (cold := .cold) hrise rfl st).trans ends_iff, numbersWhere_ascend hrise _,
          fun st => (mem_numbersWhere (cold := .cold) hrise rfl st).trans ends_iff, numbersWhere_ascend hrise _,
          fun v => (mem_numbersWhere (cold := .cold) hvrise rfl v).trans Timer.ends_iff, numbersWhere_ascend hvrise _,
          fun v => (mem_numbersWhere (cold := .cold) hvrise rfl v).trans Timer.ends_iff, numbersWhere_ascend hvrise _⟩
    · rw [List.nil_append, State.duePeriods, List.append_assoc]
      exact congrArg (s.dueTimers ++ ·) (congrArg₂ (· ++ ·) (if_congr (s.advance_every 250) rfl rfl) (if_congr (s.advance_every 1000) rfl rfl))

end Sys2Proof.Machine
end

section
/-! Rules about the operations of one stand (R76, R84 to R90): what each writes, and when. -/

namespace Sys2Proof.Machine

/-! ## One stand's record -/

section
variable {s : State} {st l : Nat} {x y : Stand}

theorem State.modStand_eq_setStand (s : State) (st : Nat) (f : Stand → Stand) : s.modStand st f = s.setStand st (f (s.stand st)) := rfl

@[simp] theorem State.setStand_twice (s : State) (st : Nat) (x y : Stand) : (s.setStand st x).setStand st y = s.setStand st y := by
  simp [State.setStand]

@[simp] theorem State.stand_setStand_same (s : State) (st : Nat) (x : Stand) : (s.setStand st x).stand st = x := Tbl.get_set_same ..

theorem State.modStand_twice (s : State) (st : Nat) (f g : Stand → Stand) :
    (s.modStand st f).modStand st g = s.setStand st (g (f (s.stand st))) := by
  rw [State.modStand_eq_setStand, State.modStand_eq_setStand, State.stand_setStand_same, State.setStand_twice]

@[simp] theorem State.line_setStand (s : State) (st l : Nat) (x : Stand) : (s.setStand st x).line l = s.line l := rfl

@[simp] theorem State.positionOf_setStand (s : State) (st c : Nat) (x : Stand) : (s.setStand st x).positionOf c = s.positionOf c := rfl

@[simp] theorem State.lineOf_setStand (s : State) (st c : Nat) (x : Stand) : (s.setStand st x).lineOf c = s.lineOf c := rfl

theorem State.lineOf_of_position {p : Position} (h : s.positionOf st = some (l, p)) : s.lineOf st = some l := by
  rw [State.lineOf, h]; rfl

/-- DRIVE driven right after the stand's record is written: a change of level is an edge. -/
theorem State.setStand_drive (s : State) (st : Nat) (x : Stand) (b : Bool) : (s.setStand st x).drivePin (.drive st) b =
    { s with stands := s.stands.set st .cold { x with drive := b }, edges := if x.drive = b then s.edges else s.edges ++ [⟨.drive st, b⟩] } := by
  have hlevel : (s.setStand st x).pinLevel (.drive st) = x.drive := by rw [State.pinLevel, State.stand_setStand_same]
  by_cases h : x.drive = b
  · rw [State.drivePin, if_pos (hlevel.trans h), if_pos h, ← h]; rfl
  · rw [State.drivePin, if_neg (hlevel ▸ h), if_neg h]
    refine (State.modStand_eq_setStand _ _ _).trans ?_
    show State.setStand { s.setStand st x with edges := _ } st { (s.setStand st x).stand st with drive := b } = _
    rw [State.stand_setStand_same]
    simp [State.setStand]

/-! ## At or below the splice diameter (R49, R66) -/

theorem atOrBelow_iff {a b : Option Nat} : atOrBelow a b = true ↔ ∃ m n, a = some m ∧ b = some n ∧ m ≤ n := by
  cases a <;> cases b <;> simp [atOrBelow]

/-- A stand whose D_f is at or below its splice diameter D_t. -/
def State.atEnd (s : State) (st : Nat) : Prop := ∃ df l p, (s.stand st).df = some df ∧ s.positionOf st = some (l, p) ∧ df ≤ p.dt

theorem State.atOrBelow_spliceAt (s : State) (st : Nat) : atOrBelow (s.stand st).df (s.spliceAt st) = true ↔ s.atEnd st := by
  unfold State.atEnd State.spliceAt
  rcases s.positionOf st with _ | ⟨l, p⟩ <;> cases (s.stand st).df <;> simp [atOrBelow]

theorem State.atEnd_setStand (h : x.df = (s.stand st).df) : (s.setStand st x).atEnd st ↔ s.atEnd st := by
  unfold State.atEnd
  rw [State.stand_setStand_same, State.positionOf_setStand, h]

/-! ## Lateness and the paste (R87, R90) -/

theorem State.lateTest_late (hseq : (s.stand st).seq = .armed) (hend : s.atEnd st) (hlate : (s.stand st).late = false) :
    s.lateTest st = (s.setStand st { s.stand st with late := true }).raise .spliceLate st :=
  if_pos ⟨hseq, (s.atOrBelow_spliceAt st).mpr hend, hlate⟩

theorem State.lateTest_quiet (h : ¬ s.atEnd st ∨ (s.stand st).late = true) : s.lateTest st = s := by
  refine if_neg fun ⟨_, hend, hlate⟩ => ?_
  rcases h with h | h
  · exact h ((s.atOrBelow_spliceAt st).mp hend)
  · exact absurd (hlate.symm.trans h) Bool.false_ne_true

theorem State.firePaste_eq (s : State) (st : Nat) : s.firePaste st = (s.setStand st { s.stand st with
    seq := .pasting, pasteLeft := some ((s.stand st).pulse * 1000), pasteLine := s.lineOf st }).drivePin (.paste st) true := rfl

theorem State.pasteTest_fires (hseq : (s.stand st).seq = .matched) (hend : s.atEnd st) : s.pasteTest st = s.firePaste st :=
  if_pos ⟨hseq, (s.atOrBelow_spliceAt st).mpr hend⟩

theorem State.pasteTest_waits (h : (s.stand st).seq ≠ .matched ∨ ¬ s.atEnd st) : s.pasteTest st = s := by
  refine if_neg fun ⟨hseq, hend⟩ => ?_
  rcases h with h | h
  · exact h hseq
  · exact h ((s.atOrBelow_spliceAt st).mp hend)

/-! ## A standby sample matched (R86) -/

/-- A standby sample is within the stand's tolerance of its line's speed. -/
abbrev Stand.nearSpeed (x : Stand) (v vs : Nat) : Prop := vs ≤ v + x.tol ∧ v ≤ vs + x.tol

theorem Stand.nearSpeed_iff (x : Stand) (v vs : Nat) : (if vs ≤ v then v - vs else vs - v) ≤ x.tol ↔ x.nearSpeed v vs := by
  unfold Stand.nearSpeed
  split <;> omega

/-- What a standby sample does to an ARMED stand of a line. -/
theorem State.standbySample_armed (vs : Nat) (hl : s.lineOf st = some l) (hseq : (s.stand st).seq = .armed) : s.standbySample st vs =
    if (s.stand st).nearSpeed (s.line l).v vs then
      if (s.stand st).matchCount = 0 then s.setStand st { s.stand st with lastVs := some vs, matchCount := 1 }
      else (s.setStand st { s.stand st with lastVs := some vs, seq := .matched, matchCount := 0 }).pasteTest st
    else s.setStand st { s.stand st with lastVs := some vs, matchCount := 0 } := by
  rw [State.standbySample, hl]
  dsimp only
  rw [hseq]
  simp only [State.modStand_twice, hseq]
  exact if_congr (decide_eq_true_iff.trans (Stand.nearSpeed_iff ..)) rfl rfl

/-- What a standby sample does to a MATCHED stand of a line. -/
theorem State.standbySample_matched (vs : Nat) (hl : s.lineOf st = some l) (hseq : (s.stand st).seq = .matched) : s.standbySample st vs =
    if (s.stand st).nearSpeed (s.line l).v vs then s.setStand st { s.stand st with lastVs := some vs }
    else (s.setStand st { s.stand st with lastVs := some vs, seq := .armed, matchCount := 0 }).lateTest st := by
  rw [State.standbySample, hl]
  dsimp only
  rw [hseq]
  simp only [State.modStand_eq_setStand, State.stand_setStand_same, State.setStand_twice, hseq]
  exact if_congr (decide_eq_true_iff.trans (Stand.nearSpeed_iff ..)) rfl rfl

/-! ## Arming (R84) -/

/-- The conditions of arming a stand that has a position. -/
def State.mayArm (s : State) (st l : Nat) (p : Position) : Prop :=
  let x := s.stand st
  x.seq = .running ∧ x.measureLost = none ∧ (∃ a, x.active = some a ∧ (x.arm a.other).state = .ready) ∧
    (∃ df, x.df = some df ∧ df ≤ p.dt + (s.line l).live.margin) ∧ (s.line l).inBreak = false ∧ 20 ≤ (s.line l).v

theorem State.armable_iff {p : Position} (hp : s.positionOf st = some (l, p)) : s.armable st = true ↔ s.mayArm st l p := by
  simp only [State.armable, State.mayArm, hp, Bool.and_eq_true, beq_iff_eq, Option.isNone_iff_eq_none, Option.any_eq_true, atOrBelow_iff,
    Bool.not_eq_true', State.measuring, decide_eq_true_eq, Config.measuringThreshold, and_assoc, Option.some.injEq]
  simp only [exists_eq_left', exists_and_left]

theorem State.tryArm_refused (h : s.armable st = false) : s.tryArm st = s := if_neg (Bool.eq_false_iff.mp h)

/-- A stand armed, before it is tested for lateness: DRIVE is asserted. -/
def State.armed (s : State) (st : Nat) : State :=
  { s with
    stands := s.stands.set st .cold { s.stand st with seq := .armed, matchCount := 0, lastVs := none, drive := true }
    edges := if (s.stand st).drive = true then s.edges else s.edges ++ [⟨.drive st, true⟩] }

theorem State.tryArm_arms (h : s.armable st = true) : s.tryArm st = (s.armed st).lateTest st := by
  rw [State.tryArm, if_pos h, State.modStand_eq_setStand, State.setStand_drive]
  rfl

theorem State.armed_stand (s : State) (st : Nat) :
    (s.armed st).stand st = { s.stand st with seq := .armed, matchCount := 0, lastVs := none, drive := true } := Tbl.get_set_same ..

theorem State.atEnd_armed (s : State) (st : Nat) : (s.armed st).atEnd st ↔ s.atEnd st := by
  unfold State.atEnd
  rw [State.armed_stand]
  rfl

end

end Sys2Proof.Machine
end

section
/-! Proofs about arming, matching and SPLICE_NOW (R84, R86, R88, R90). -/

namespace Sys2Proof.Machine

section
variable {s : State} {st l : Nat}

/-! ## Matching (R86) -/

/-- A match confirmed in ARMED at or below D_t fires the paste at once. -/
theorem State.matched_fires (hl : s.lineOf st = some l) (x : Stand) (hseq : x.seq = .matched) (hdf : x.df = (s.stand st).df)
    (hend : s.atEnd st) : (s.setStand st x).pasteTest st = (s.setStand st { x with
      seq := .pasting, pasteLeft := some (x.pulse * 1000), pasteLine := some l }).drivePin (.paste st) true := by
  rw [State.pasteTest_fires (by rwa [State.stand_setStand_same]) ((State.atEnd_setStand hdf).mpr hend), State.firePaste_eq,
    State.stand_setStand_same, State.setStand_twice, State.lineOf_setStand, hl]

theorem State.standbySample_armed_confirmed (hl : s.lineOf st = some l) {vs : Nat} (hseq : (s.stand st).seq = .armed)
    (hcount : (s.stand st).matchCount ≠ 0) (hin : (s.stand st).nearSpeed (s.line l).v vs) :
    let y := { s.stand st with lastVs := some vs }
    (¬ s.atEnd st → s.standbySample st vs = s.setStand st { y with seq := .matched, matchCount := 0 }) ∧
    (s.atEnd st → s.standbySample st vs = (s.setStand st { y with
      seq := .pasting, matchCount := 0, pasteLeft := some (y.pulse * 1000), pasteLine := some l }).drivePin (.paste st) true) := by
  intro y
  rw [State.standbySample_armed vs hl hseq, if_pos hin, if_neg hcount]
  refine ⟨fun hend => ?_, fun hend => ?_⟩
  · exact State.pasteTest_waits (.inr (mt (State.atEnd_setStand (by rfl)).mp hend))
  · exact State.matched_fires hl { y with seq := .matched, matchCount := 0 } rfl rfl hend

theorem State.standbySample_matched_lost (hl : s.lineOf st = some l) {vs : Nat} (hseq : (s.stand st).seq = .matched)
    (hout : ¬ (s.stand st).nearSpeed (s.line l).v vs) :
    let y := { s.stand st with lastVs := some vs }
    (¬ s.atEnd st ∨ y.late = true → s.standbySample st vs = s.setStand st { y with seq := .armed, matchCount := 0 }) ∧
    (s.atEnd st → y.late = false →
      s.standbySample st vs = (s.setStand st { y with seq := .armed, matchCount := 0, late := true }).raise .spliceLate st) := by
  intro y
  rw [State.standbySample_matched vs hl hseq, if_neg hout]
  refine ⟨fun h => State.lateTest_quiet ?_, fun hend hlate => ?_⟩
  · rwa [State.atEnd_setStand (by rfl), State.stand_setStand_same]
  · rw [State.lateTest_late (by rw [State.stand_setStand_same]) ((State.atEnd_setStand (by rfl)).mpr hend)
      (by rwa [State.stand_setStand_same]), State.stand_setStand_same, State.setStand_twice]

/-! ## Arming (R84) -/

theorem State.tryArm_armed {p : Position} (hp : s.positionOf st = some (l, p)) (hmay : s.mayArm st l p) :
    (¬ s.atEnd st ∨ (s.stand st).late = true → s.tryArm st = s.armed st) ∧
    (s.atEnd st → (s.stand st).late = false → s.tryArm st = { s.armed st with
      stands := s.stands.set st .cold { s.stand st with seq := .armed, matchCount := 0, lastVs := none, drive := true, late := true }
      }.raise .spliceLate st) := by
  rw [State.tryArm_arms ((State.armable_iff hp).mpr hmay)]
  refine ⟨fun h => State.lateTest_quiet ?_, fun hend hlate => ?_⟩
  · rwa [State.atEnd_armed, State.armed_stand]
  · rw [State.lateTest_late (by rw [State.armed_stand]) ((s.atEnd_armed st).mpr hend) (by rwa [State.armed_stand]), State.armed_stand]
    simp only [State.setStand, State.armed, Tbl.set_set]

/-! ## SPLICE_NOW (R88) -/

/-- The stations that may name a stand in SPLICE_NOW: its own node, and the console of its line. -/
theorem State.maySplice_iff (s : State) (role : Role) (st : Nat) :
    s.maySplice role st = true ↔ role = .standNode st ∨ ∃ l, role = .console l ∧ s.lineOf st = some l := by
  cases role <;> simp [State.maySplice]

theorem exec_spliceNow (s : State) (st : Nat) (more : Bool) :
    exec (.spliceNow st more) s = report more (fun a role s => s.spliceNowAt a role st) s := rfl

theorem execSpliceNow_answers {e : Exchange} {a : Station} {more : Bool} (h : s.hears e a) :
    (s.maySplice a.role st = false → exec (.spliceNow st more) s = .next ((s.heard e more).refuse e.addr .spliceNow .badArgument)) ∧
    (s.maySplice a.role st = true → (s.stand st).seq ≠ .matched →
      exec (.spliceNow st more) s = .next ((s.heard e more).refuse e.addr .spliceNow .badState)) ∧
    (s.maySplice a.role st = true → (s.stand st).seq = .matched →
      exec (.spliceNow st more) s = .next (((s.heard e more).firePaste st).accept e.addr .spliceNow)) := by
  have hmay : (s.heard e more).maySplice a.role st = s.maySplice a.role st := by
    unfold State.maySplice
    rw [State.lineOf_congr State.heard_lines]
  rw [exec_spliceNow]
  refine ⟨fun hno => ?_, fun hok hseq => ?_, fun hok hseq => ?_⟩
  · refine Law.report_refuse h ?_
    rw [State.spliceNowAt, hmay, if_neg (Bool.eq_false_iff.mp hno)]
  · refine Law.report_refuse h ?_
    rw [State.spliceNowAt, hmay, if_pos hok, Law.heard_stand, if_neg hseq]
  · refine Law.report_accept h ?_ ?_
    · rw [State.spliceNowAt, hmay, if_pos hok, Law.heard_stand, if_pos hseq]
    · rw [State.firePaste_eq]
      simp

end

/-- Settles O36: the branches of a standby sample, of the arming test and of SPLICE_NOW. -/
theorem matchAndSpliceNow : Obligations.MatchAndSpliceNow := by
  refine ⟨fun s st l vs hl => ?_, fun s st l p hp => ?_, fun s e a st more h => ?_⟩
  · intro x within y
    refine ⟨fun hseq hcount hin => ?_, fun hseq hout => ?_, fun hseq hcount hin df l' p hdf hp hlt => ?_,
      fun hseq hcount hin df l' p hdf hp hle => ?_, fun hseq hin => ?_, ?_⟩
    · exact (State.standbySample_armed vs hl hseq).trans ((if_pos hin).trans (if_pos hcount))
    · exact (State.standbySample_armed vs hl hseq).trans (if_neg hout)
    · refine (State.standbySample_armed_confirmed hl hseq hcount hin).1 ?_
      rintro ⟨df', m, q, hdf', hq, hle⟩
      cases hdf.symm.trans hdf'
      cases hp.symm.trans hq
      exact absurd hle (Nat.not_le.mpr hlt)
    · exact (State.standbySample_armed_confirmed hl hseq hcount hin).2 ⟨df, l', p, hdf, hp, hle⟩
    · exact (State.standbySample_matched vs hl hseq).trans (if_pos hin)
    · intro atEnd
      exact ⟨fun hseq hout => (State.standbySample_matched_lost hl hseq hout).1,
        fun hseq hout => (State.standbySample_matched_lost hl hseq hout).2⟩
  · intro x may y u
    refine ⟨fun hno => State.tryArm_refused (Bool.eq_false_iff.mpr (mt (State.armable_iff hp).mp hno)), fun df hmay hdf => ?_⟩
    obtain ⟨hquiet, hlate⟩ := State.tryArm_armed hp hmay
    refine ⟨fun h => hquiet (h.imp_left ?_), fun hle hfalse => hlate ⟨df, l, p, hdf, hp, hle⟩ hfalse⟩
    rintro hlt ⟨df', m, q, hdf', hq, hle⟩
    cases hdf.symm.trans hdf'
    cases hp.symm.trans hq
    exact absurd hle (Nat.not_le.mpr hlt)
  · intro owner
    have howner : s.maySplice a.role st = true ↔ owner := s.maySplice_iff a.role st
    obtain ⟨hno, hwait, hfire⟩ := execSpliceNow_answers (st := st) (more := more) h
    refine ⟨fun h => hno (Bool.eq_false_iff.mpr (mt howner.mp h)), fun h => hwait (howner.mpr h), fun h hseq => ?_⟩
    rw [hfire (howner.mpr h) hseq, State.firePaste_eq, Law.heard_stand, State.lineOf_congr State.heard_lines]

end Sys2Proof.Machine
end

section
/-! Proofs about MARK_EDGE and MARK_TIMER_EXPIRY (R63, R64, R75 to R77, R85): the capture of a mark edge, what its pair is used for, and the
mark timer's end. -/

namespace Sys2Proof.Machine

/-! ## A timer's end (notes/assumptions/2.md) -/

section
variable {s : State} {st l : Nat} {a : Arm}

/-- An expiry acts at the end of a timer that runs; one that the part's own time queued, only while the timer still stands at its end. -/
theorem expiry_acts {c : Instr} {left : Option Nat} {n : Nat} {f : State → State} (h : s.awake = true) (hleft : left = some n)
    (hn : n = 0 ∨ c ∉ s.expiring) : expiry c left f s = .next (f s.fresh).finish := by
  refine eventIf_taken h ?_
  subst hleft
  simpa using hn

theorem expiry_stale {c : Instr} {left : Option Nat} {f : State → State}
    (h : s.awake = false ∨ ¬ ∃ n, left = some n ∧ (n = 0 ∨ c ∉ s.expiring)) : expiry c left f s = .next s := by
  refine if_neg fun hboth => ?_
  obtain ⟨hawake, hany⟩ := Bool.and_eq_true_iff.mp hboth
  rcases h with h | h
  · exact absurd (h.symm.trans hawake) Bool.false_ne_true
  · exact h (by simpa [Option.any_eq_true] using hany)

/-! ## MEASURE_LOST (R76, R85) -/

/-- A stand written and then disarmed: DRIVE falls where the stand was ARMED or MATCHED and drove it. -/
theorem State.setStand_disarm (s : State) (st : Nat) (x : Stand) : (s.setStand st x).disarm st =
    { s with
      stands := s.stands.set st .cold x.disarmed
      edges := if (x.seq = .armed ∨ x.seq = .matched) ∧ x.drive = true then s.edges ++ [⟨.drive st, false⟩] else s.edges } := by
  unfold State.disarm Stand.disarmed
  rw [State.stand_setStand_same]
  dsimp only
  by_cases h : x.seq = .armed ∨ x.seq = .matched
  · rw [if_pos h, if_pos h, State.modStand_eq_setStand, State.stand_setStand_same, State.setStand_twice, State.setStand_drive]
    cases hdrive : x.drive <;> simp [h]
  · rw [if_neg h, if_neg h, if_neg fun hc => h hc.1]
    rfl

theorem State.raise_disarm (s : State) (c : Cond) (n st : Nat) : (s.raise c n).disarm st = (s.disarm st).raise c n := by
  unfold State.disarm State.drivePin
  dsimp only
  by_cases h : (s.stand st).seq = .armed ∨ (s.stand st).seq = .matched
  · rw [if_pos h, if_pos (show ((s.raise c n).stand st).seq = .armed ∨ ((s.raise c n).stand st).seq = .matched from h)]
    by_cases hlevel : State.pinLevel (s.modStand st ({ · with seq := .running, matchCount := 0, lastVs := none })) (.drive st) = false
    · rw [if_pos hlevel]
      exact if_pos hlevel
    · rw [if_neg hlevel]
      exact if_neg hlevel
  · rw [if_neg h]
    exact if_neg h

/-- MEASURE_LOST set on a stand just written: a clear flag raises its condition, and the stand is disarmed. -/
theorem State.setStand_setLost (s : State) (st : Nat) (x : Stand) (c : LostCause) : (s.setStand st x).setLost st c =
    let t := (s.setStand st { x with measureLost := some c }).disarm st
    if x.measureLost = none then t.raise .measureLost st else t := by
  unfold State.setLost
  simp only [State.modStand_eq_setStand, State.stand_setStand_same, State.setStand_twice, Option.isNone_iff_eq_none]
  split
  · exact State.raise_disarm ..
  · rfl

/-! ## A capture (R63) -/

theorem standOk_iff : standOk st = true ↔ 1 ≤ st ∧ st ≤ 16 := within_iff

theorem execMarkEdge_taken (h : s.awake = true) (h1 : 1 ≤ st) (h16 : st ≤ 16) (a : Arm) :
    exec (.markEdge st a) s = .next (s.fresh.markEdge st a).finish :=
  eventIf_taken (p := fun _ => standOk st) (f := (·.markEdge st a)) h (standOk_iff.mpr ⟨h1, h16⟩)

theorem Stand.withArm_k (x : Stand) (a : Arm) (r : ArmRec) : (x.withArm a r).k = x.k ∧ (x.withArm a r).m = x.m ∧
    (x.withArm a r).seq = x.seq := by cases a <;> exact ⟨rfl, rfl, rfl⟩

theorem Stand.active_isSome {x : Stand} (h : (x.arm a).state = .active) : x.active.isSome = true := by
  cases a with
  | A => exact congrArg Option.isSome (if_pos h)
  | B =>
    unfold Stand.active Stand.armIn
    split
    · rfl
    · exact congrArg Option.isSome (if_pos h)

/-- A stand whose arm's channel has taken a capture. -/
def Stand.withReference (x : Stand) (a : Arm) (cap : Capture) : Stand := x.withArm a { x.arm a with chan := ⟨0, some cap⟩ }

/-- The state after a capture, before its pair is used. -/
def State.captured (s : State) (st : Nat) (a : Arm) : State :=
  let t := s.setStand st ((s.stand st).withReference a (s.captureAt st))
  if ((s.stand st).arm a).state = .active then t.restartMark st else t

theorem State.markEdge_counts (h : ((s.stand st).arm a).chan.count + 1 < (s.stand st).k) : s.markEdge st a =
    s.setStand st ((s.stand st).withArm a { (s.stand st).arm a with
      chan := ⟨((s.stand st).arm a).chan.count + 1, ((s.stand st).arm a).chan.ref⟩ }) := if_pos h

/-- The first capture of a channel has no pair. -/
theorem State.markEdge_first (h : (s.stand st).k ≤ ((s.stand st).arm a).chan.count + 1) (href : ((s.stand st).arm a).chan.ref = none) :
    s.markEdge st a = s.captured st a := by
  rw [State.markEdge, if_neg (Nat.not_lt.mpr h), State.capture]
  dsimp only
  rw [href]
  rfl

theorem State.markEdge_pair {ref : Capture} (h : (s.stand st).k ≤ ((s.stand st).arm a).chan.count + 1)
    (href : ((s.stand st).arm a).chan.ref = some ref) :
    s.markEdge st a = (s.captured st a).usePair st ((s.stand st).arm a) ref (s.captureAt st) := by
  rw [State.markEdge, if_neg (Nat.not_lt.mpr h), State.capture]
  dsimp only
  rw [href]
  rfl

theorem State.captured_inactive (h : ((s.stand st).arm a).state ≠ .active) :
    s.captured st a = s.setStand st ((s.stand st).withReference a (s.captureAt st)) := if_neg h

/-- A capture of the ACTIVE arm restarts the mark timer where the line is at the measuring threshold (R75). -/
theorem State.captured_active (h : ((s.stand st).arm a).state = .active) (hl : s.lineOf st = some l) : s.captured st a =
    s.setStand st { (s.stand st).withReference a (s.captureAt st) with markLeft := if 20 ≤ (s.line l).v then some 4000000 else none } := by
  have hruns : (s.setStand st ((s.stand st).withReference a (s.captureAt st))).markRuns st = true ↔ 20 ≤ (s.line l).v := by
    rw [State.markRuns_iff, State.stand_setStand_same, State.lineOf_setStand, hl]
    have hactive : ((s.stand st).withReference a (s.captureAt st)).active ≠ none := by
      rw [← Option.isSome_iff_ne_none]
      exact Stand.active_isSome (a := a) (by rw [Stand.withReference, Stand.arm_withArm, if_pos rfl]; exact h)
    simp [hactive]
  rw [State.captured, if_pos h, State.restartMark, State.modStand_eq_setStand, State.stand_setStand_same, State.setStand_twice]
  simp only [hruns, Config.markTime]

/-! ## The use of a pair (R64, R77) -/

variable {r : ArmRec} {ref cap : Capture}

theorem State.usePair_active (h : r.state = .active) : s.usePair st r ref cap = s.diameterSample st ref cap := by
  rw [State.usePair, h]

theorem State.usePair_other (hactive : r.state ≠ .active) (hready : r.state ≠ .ready) : s.usePair st r ref cap = s := by
  unfold State.usePair
  cases h : r.state
  case active => exact absurd h hactive
  case ready => exact absurd h hready
  all_goals rfl

theorem State.usePair_unarmed (h : r.state = .ready) (harmed : (s.stand st).seq ≠ .armed) (hmatched : (s.stand st).seq ≠ .matched) :
    s.usePair st r ref cap = s := by
  unfold State.usePair
  rw [h]
  dsimp only
  split
  · next hseq _ => exact absurd hseq harmed
  · next hseq _ => exact absurd hseq hmatched
  · rfl

theorem State.usePair_ready {n : Nat} (h : r.state = .ready) (hseq : (s.stand st).seq = .armed ∨ (s.stand st).seq = .matched)
    (hn : r.roll = some n) : s.usePair st r ref cap = s.standbyPair st n ref cap := by
  rw [State.usePair, h, hn]
  rcases hseq with hseq | hseq <;> rw [hseq]

theorem State.standbyPair_eq {n : Nat} {p : Roll} (hp : s.roll n = some p) : s.standbyPair st n ref cap =
    let t := (cap.us - ref.us).toNat
    if t = 0 ∨ 4000000 < t then s else s.standbySample st (surfaceSpeed p.diameter (s.stand st).quarters t) := by
  rw [State.standbyPair, hp]

end

/-! ## MARK_EDGE (R63, R64) -/

section
variable {s : State} {st l : Nat} {a : Arm}

/-- A pair on a READY arm (R64, R77). -/
theorem execMarkEdge_standby (h : s.awake = true) (h1 : 1 ≤ st) (h16 : st ≤ 16) {ref : Capture}
    (hk : (s.stand st).k ≤ ((s.stand st).arm a).chan.count + 1) (hready : ((s.stand st).arm a).state = .ready)
    (href : ((s.stand st).arm a).chan.ref = some ref) :
    let u := { s.fresh with stands := s.stands.set st .cold ((s.stand st).withReference a (s.captureAt st)) }
    let t := (s.micros - ref.us).toNat
    let q := 4 * (s.stand st).k / (s.stand st).m
    ((s.stand st).seq ≠ .armed → (s.stand st).seq ≠ .matched → exec (.markEdge st a) s = .next u) ∧
    ∀ n p, (s.stand st).seq = .armed ∨ (s.stand st).seq = .matched → ((s.stand st).arm a).roll = some n → s.roll n = some p →
      (t = 0 ∨ 4000000 < t → exec (.markEdge st a) s = .next u) ∧
      (0 < t → t ≤ 4000000 → exec (.markEdge st a) s =
        .next (u.standbySample st (min 1200 ((2 * (p.diameter * q * 532500) + 113 * t) / (2 * (113 * t))))).finish) := by
  intro u t q
  have hpair : s.fresh.markEdge st a = u.usePair st ((s.stand st).arm a) ref (s.captureAt st) := by
    have hinactive : ((s.stand st).arm a).state ≠ .active := by rw [hready]; decide
    rw [State.markEdge_pair (s := s.fresh) hk href, State.captured_inactive (s := s.fresh) hinactive]
    rfl
  have hstand : u.stand st = (s.stand st).withReference a (s.captureAt st) := Tbl.get_set_same ..
  obtain ⟨hk', hm', hseq'⟩ := (s.stand st).withArm_k a { (s.stand st).arm a with chan := ⟨0, some (s.captureAt st)⟩ }
  rw [execMarkEdge_taken h h1 h16, hpair]
  refine ⟨fun harmed hmatched => ?_, fun n p hseq hn hp => ?_⟩
  · rw [State.usePair_unarmed hready (by rwa [hstand, Stand.withReference, hseq']) (by rwa [hstand, Stand.withReference, hseq'])]
    exact congrArg _ (State.finish_idle rfl)
  · have hquarters : (u.stand st).quarters = q := by rw [hstand, Stand.withReference, Stand.quarters, hk', hm']
    rw [State.usePair_ready hready (by rwa [hstand, Stand.withReference, hseq']) hn, State.standbyPair_eq (s := u) hp, hquarters]
    refine ⟨fun hno => ?_, fun hpos hle => ?_⟩
    · exact congrArg _ ((congrArg State.finish (if_pos hno)).trans (State.finish_idle rfl))
    · have hin : ¬ (t = 0 ∨ 4000000 < t) := by omega
      exact congrArg (fun v => Host.Outcome.next (State.finish v)) (if_neg hin)

end

/-! ## MARK_TIMER_EXPIRY (R75, R76) -/

theorem exec_markTimerExpiry (s : State) (st : Nat) : exec (.markTimerExpiry st) s = expiry (.markTimerExpiry st) (s.stand st).markLeft
    (fun s => (s.modStand st ({ · with markLeft := none })).setLost st .lost) s := rfl

/-- What the end of the mark timer writes (R75, R76, R85). -/
theorem State.markTimerEnds (s : State) (st : Nat) : ((s.modStand st ({ · with markLeft := none })).setLost st .lost) =
    let x := s.stand st
    let y := { x with markLeft := none, measureLost := some .lost }
    let u := { s with
      stands := s.stands.set st .cold y.disarmed
      edges := if (x.seq = .armed ∨ x.seq = .matched) ∧ x.drive = true then s.edges ++ [⟨.drive st, false⟩] else s.edges }
    if x.measureLost = none then u.raise .measureLost st else u := by
  rw [State.modStand_eq_setStand, State.setStand_setLost, State.setStand_disarm]

/-- Settles O34: the captures and their pairs by the state of the arm, and the end of the mark timer. -/
theorem markTimerMeasures : Obligations.MarkTimerMeasures := by
  refine ⟨fun s st a h h1 h16 => ?_, fun s st left h hleft => ?_⟩
  · intro x r cap taken
    have hexec := execMarkEdge_taken h h1 h16 a
    refine ⟨fun hk => ?_, fun hk hinactive hfirst => ?_, fun hk hactive l hl => ?_, fun hk hready ref href =>
      execMarkEdge_standby h h1 h16 hk hready href⟩
    · rw [hexec, State.markEdge_counts (s := s.fresh) hk]
      exact congrArg _ (State.finish_idle rfl)
    · have hcap : s.fresh.markEdge st a = s.fresh.captured st a := by
        cases href : r.chan.ref with
        | none => exact State.markEdge_first (s := s.fresh) hk href
        | some ref =>
          refine (State.markEdge_pair (s := s.fresh) hk href).trans (State.usePair_other hinactive fun hready => ?_)
          exact absurd ((hfirst hready).symm.trans href) nofun
      rw [hexec, hcap, State.captured_inactive (s := s.fresh) hinactive]
      exact congrArg _ (State.finish_idle rfl)
    · intro u
      have hcap : s.fresh.captured st a = u := State.captured_active (s := s.fresh) hactive hl
      refine ⟨fun href => ?_, fun ref href => ?_⟩
      · rw [hexec, State.markEdge_first (s := s.fresh) hk href, hcap]
        exact congrArg _ (State.finish_idle rfl)
      · rw [hexec, State.markEdge_pair (s := s.fresh) hk href, hcap]
        exact congrArg (fun v => Host.Outcome.next (State.finish v)) (State.usePair_active hactive)
  · intro x armed y u
    rw [exec_markTimerExpiry]
    refine ⟨fun hn => ?_, fun hn hmem => expiry_stale (.inr ?_)⟩
    · rw [expiry_acts h hleft hn, State.markTimerEnds s.fresh st]
      refine congrArg _ ((State.finish_idle ?_).trans ?_)
      · dsimp only
        split <;> rfl
      · rfl
    · rintro ⟨n, hn', hor⟩
      cases hleft.symm.trans hn'
      exact hor.elim hn (absurd hmem)

end Sys2Proof.Machine
end

section
/-! Proofs about PASTE_TIMER_EXPIRY (R89, R113): the arms and rolls of a splice, its splice event, and the start that follows it. -/

namespace Sys2Proof.Machine

/-! ## The two arms of a stand -/

section
variable {x : Stand} {a b : Arm}

theorem Stand.active_state (h : x.active = some a) : (x.arm a).state = .active := by
  unfold Stand.active Stand.armIn at h
  split at h
  · next hA => cases h; exact hA
  · split at h
    · next hB => cases h; exact hB
    · cases h

/-- Beside its ACTIVE arm, a stand's READY arm is the other one. -/
theorem Stand.armIn_ready (h : x.active = some a) (hready : (x.arm a.other).state = .ready) : x.armIn .ready = some a.other := by
  have hactive := Stand.active_state h
  unfold Stand.armIn
  cases a with
  | A =>
    have hA : x.armA.state ≠ .ready := by
      rw [show x.armA.state = .active from hactive]; decide
    rw [if_neg hA]
    exact if_pos hready
  | B => exact if_pos hready

theorem Arm.eq_other (h : b ≠ a) : b = a.other :=
  match a, b, h with
  | .A, .B, _ | .B, .A, _ => rfl
  | .A, .A, h | .B, .B, h => absurd rfl h

@[simp] theorem Arm.other_other (a : Arm) : a.other.other = a := by cases a <;> rfl

end

section
variable {s : State} {st : Nat} {a b : Arm}

/-- A stand arms beside a READY arm, so not while an arm is EXPIRED (R84). -/
theorem State.armable_expired (h : ((s.stand st).arm a).state = .expired) : s.armable st = false := by
  rw [Bool.eq_false_iff]
  intro harm
  have hbeside : ((s.stand st).active.any fun a => ((s.stand st).arm a.other).state == .ready) = true := by
    simp only [State.armable, Bool.and_eq_true] at harm
    exact harm.1.2
  obtain ⟨b, hb, hready⟩ := Option.any_eq_true _ _ |>.mp hbeside
  have hne : b ≠ a := by
    rintro rfl
    exact absurd (h.symm.trans (Stand.active_state hb)) (by decide)
  rw [Arm.eq_other hne, Arm.other_other, h] at hready
  exact absurd hready (by decide)

/-! ## The swap (R89) -/

/-- A stand whose arms have been swapped by a splice. -/
def Stand.swapped (x : Stand) (a : Arm) (mount : Option Nat) : Stand :=
  { (x.withArm a { x.arm a with state := .expired, chan := .clear }).withArm a.other
      { x.arm a.other with state := .active, chan := .clear } with
    paste := false, drive := false, df := mount, run := .clear, measureLost := none, seq := .running, matchCount := 0, pasteLeft := none
    pasteLine := none, lastVs := none }

/-- What a splice leaves of a stand, where its call-off links, its mark timer and its T_s may be others. -/
theorem Stand.swapped_clauses {x y : Stand} {mount left : Option Nat} {ts : Nat} (h : Law.withoutCallOffs y = Law.withoutCallOffs
      { x.swapped a mount with late := false, runout := false, markLeft := left, ts := ts }) :
    ((y.arm a).state = .expired ∧ (y.arm a).roll = (x.arm a).roll ∧
      (y.arm a.other).state = .active ∧ (y.arm a.other).roll = (x.arm a.other).roll) ∧
    y.seq = .running ∧ y.matchCount = 0 ∧ y.pasteLeft = none ∧ y.pasteLine = none ∧ y.drive = false ∧ y.paste = false ∧
    y.late = false ∧ y.runout = false ∧ y.lastVs = none ∧ y.df = mount ∧ y.run.count = 0 ∧ y.measureLost = none := by
  refine ⟨?_, congrArg Stand.seq h, congrArg Stand.matchCount h, congrArg Stand.pasteLeft h, congrArg Stand.pasteLine h,
    congrArg Stand.drive h, congrArg Stand.paste h, congrArg Stand.late h, congrArg Stand.runout h, congrArg Stand.lastVs h,
    congrArg Stand.df h, congrArg (RejectRun.count ∘ Stand.run) h, congrArg Stand.measureLost h⟩
  have stateA := congrArg (ArmRec.state ∘ Stand.armA) h
  have rollA := congrArg (ArmRec.roll ∘ Stand.armA) h
  have stateB := congrArg (ArmRec.state ∘ Stand.armB) h
  have rollB := congrArg (ArmRec.roll ∘ Stand.armB) h
  cases a
  · exact ⟨stateA, rollA, stateB, rollB⟩
  · exact ⟨stateB, rollB, stateA, rollA⟩

variable {old new : Nat} {job : Option Nat} {p q : Roll}

theorem State.roll_modStand (s : State) (st n : Nat) (f : Stand → Stand) : (s.modStand st f).roll n = s.roll n := rfl

theorem State.expire_roll (s : State) (n st : Nat) (a : Arm) (df : Option Nat) (m : Nat) : (s.expire n st a df).roll m =
    if m = n then (s.roll m).map fun r => { r with state := .stub, diameter := df.getD r.diameter } else s.roll m := by
  rw [State.expire, State.setArm, State.roll_modStand, roll_modRoll]
  split
  · next h => rw [h]
  · rfl

theorem State.startMove_roll (s : State) (n st : Nat) (a : Arm) (job : Option Nat) (m : Nat) : (s.startMove n st a job).roll m =
    if m = n then (s.roll m).map ({ · with state := .running, job := job, hold := none }) else s.roll m := by
  rw [State.startMove, State.setArm, State.roll_modStand, roll_modRoll]
  split
  · next h => rw [h]
  · rfl

theorem State.stand_modRoll (s : State) (n c : Nat) (f : Roll → Roll) : (s.modRoll n f).stand c = s.stand c :=
  congrArg (Tbl.get · c Stand.cold) (State.modRoll_stands ..)

theorem State.expire_stand (s : State) (n st : Nat) (a : Arm) (df : Option Nat) : (s.expire n st a df).stand st =
    (s.stand st).withArm a { (s.stand st).arm a with state := .expired, chan := .clear } := by
  rw [State.expire, State.setArm, Law.stand_mod, if_pos rfl, State.stand_modRoll]

theorem State.startMove_stand (s : State) (n st : Nat) (a : Arm) (job : Option Nat) : (s.startMove n st a job).stand st =
    (s.stand st).withArm a { (s.stand st).arm a with state := .active, chan := .clear } := by
  rw [State.startMove, State.setArm, Law.stand_mod, if_pos rfl, State.stand_modRoll]

theorem State.armsSwapped_roll (s : State) (st : Nat) (a b : Arm) (old new : Nat) (job : Option Nat) (n : Nat) :
    (s.armsSwapped st a b old new job).roll n =
      if n = new then (if n = old then (s.roll n).map fun r => { r with state := .stub, diameter := (s.stand st).df.getD r.diameter }
        else s.roll n).map ({ · with state := .running, job := job, hold := none })
      else if n = old then (s.roll n).map fun r => { r with state := .stub, diameter := (s.stand st).df.getD r.diameter } else s.roll n := by
  have hdrop (m : Nat) : (s.dropPasteDrive st).roll m = s.roll m := by
    obtain ⟨ls, sts, es, h⟩ := s.dropPasteDrive_eq st
    rw [h]; rfl
  rw [State.armsSwapped, State.roll_modStand, State.seedDiameter, State.roll_modStand, State.startMove_roll, State.expire_roll, hdrop]

theorem State.armsSwapped_stand (hne : old ≠ new) (hq : s.roll new = some q) :
    (s.armsSwapped st a a.other old new job).stand st = (s.stand st).swapped a q.mount := by
  have hmount : ((((s.dropPasteDrive st).expire old st a (s.stand st).df).startMove new st a.other job).roll new).bind Roll.mount =
      q.mount := by
    have hroll := s.armsSwapped_roll st a a.other old new job new
    rw [State.armsSwapped, State.roll_modStand, State.seedDiameter, State.roll_modStand, if_pos rfl, if_neg (Ne.symm hne), hq] at hroll
    rw [hroll]; rfl
  rw [State.armsSwapped, Law.stand_mod, if_pos rfl, State.seedDiameter, Law.stand_mod, if_pos rfl, hmount, State.startMove_stand,
    State.expire_stand, State.dropPasteDrive_stand, if_pos rfl]
  cases a <;> rfl

/-! ## The splice event (R113) -/

/-- A line's counting record after a splice event. -/
def Line.spliced (x : Line) : Line :=
  match x.counting with
  | .good => if x.live.window = 0 then x else { x with counting := .splice, window := x.live.window }
  | .splice => { x with counting := .splice, window := max x.window x.live.window }
  | .idle | .makeready | .brk | .changeover => x

theorem State.spliceEvent_line (s : State) (l m : Nat) : (s.spliceEvent l).line m = if m = l then (s.line m).spliced else s.line m := by
  have counted (f : Job → Job) (k : Nat) : (s.modJobAt (s.liveJob l) f).line k = s.line k := by
    obtain ⟨_, h⟩ := s.modJobAt_only (s.liveJob l) f
    rw [h]; rfl
  unfold State.spliceEvent Line.spliced
  dsimp only
  by_cases hm : m = l
  · subst hm
    rw [if_pos rfl]
    cases hc : (s.line m).counting <;> dsimp only
    case good =>
      split
      · exact counted _ m
      · rw [Law.line_mod, if_pos rfl, counted]
    case splice => rw [Law.line_mod, if_pos rfl, counted, hc]
    all_goals exact counted _ m
  · rw [if_neg hm]
    cases hc : (s.line l).counting <;> dsimp only
    case good =>
      split
      · exact counted _ m
      · rw [Law.line_mod, if_neg hm, counted]
    case splice => rw [Law.line_mod, if_neg hm, counted]
    all_goals exact counted _ m

theorem State.spliceEvent_job {l n : Nat} {j : Job} (hc : (s.line l).counting ≠ .idle) (hn : s.liveJob l = some n) (hj : s.job n = some j) :
    (s.spliceEvent l).job n = some { j with spliceCount := min 65535 (j.spliceCount + 1) } := by
  have counted : (s.modJobAt (s.liveJob l) fun j => { j with spliceCount := satCount j.spliceCount }).job n =
      some { j with spliceCount := min 65535 (j.spliceCount + 1) } := by
    rw [hn, State.job_modJobAt_some, hj]; rfl
  unfold State.spliceEvent
  dsimp only
  cases h : (s.line l).counting <;> dsimp only
  case idle => exact absurd h hc
  case good =>
    split
    · exact counted
    · exact counted
  all_goals exact counted

theorem State.spliceEvent_rolls (s : State) (l : Nat) : (s.spliceEvent l).rolls = s.rolls := by
  have counted (f : Job → Job) : (s.modJobAt (s.liveJob l) f).rolls = s.rolls := by
    obtain ⟨_, h⟩ := s.modJobAt_only (s.liveJob l) f
    rw [h]
  unfold State.spliceEvent
  dsimp only
  repeat' split
  all_goals simp [counted]

/-- A splice event sent to the paste line, if there is one. -/
def State.spliceEventAt (s : State) : Option Nat → State
  | some l => s.spliceEvent l
  | none => s

theorem State.spliceEventAt_stands (s : State) (o : Option Nat) : (s.spliceEventAt o).stands = s.stands := by
  cases o with
  | none => rfl
  | some l => exact State.spliceEvent_stands s l

theorem State.spliceEventAt_rolls (s : State) (o : Option Nat) : (s.spliceEventAt o).rolls = s.rolls := by
  cases o with
  | none => rfl
  | some l => exact State.spliceEvent_rolls s l

theorem State.spliceEventAt_line (s : State) (o : Option Nat) (m : Nat) :
    (s.spliceEventAt o).line m = if o = some m then (s.line m).spliced else s.line m := by
  cases o with
  | none => rfl
  | some l =>
    refine (State.spliceEvent_line s l m).trans ?_
    simp only [Option.some.injEq, eq_comm]

/-! ## After the swap (R83, R89) -/

theorem State.afterStart_rolls (s : State) (st : Nat) : (s.afterStart st).rolls = s.rolls := by
  rw [State.afterStart, State.tryArm_rolls, RollsAfter.handTs]
  rfl

theorem State.handTs_arms (s : State) (st c : Nat) (b : Arm) : (((s.handTs st).stand c).arm b).state = ((s.stand c).arm b).state :=
  ((State.wr_handTs (k := 0) .refl st).kept_arm c b).1

/-- What follows the start of a stand with an EXPIRED arm writes the mark timer and T_s of it, and hands T_s on. -/
theorem State.afterStart_expired (h : ((s.stand st).arm a).state = .expired) :
    ∃ left ts, Law.standBare st (s.afterStart st) = Law.withoutCallOffs { s.stand st with markLeft := left, ts := ts } := by
  have hquiet : (((s.restartMark st).writeTs st).handTs st).armable st = false := by
    refine State.armable_expired (a := a) ?_
    rw [State.handTs_arms, State.writeTs, Law.stand_mod, if_pos rfl, State.restartMark, Law.stand_mod, if_pos rfl]
    cases a <;> exact h
  refine ⟨if s.markRuns st then some Config.markTime else none, (s.restartMark st).timeToSplice st, ?_⟩
  rw [State.afterStart, State.tryArm_refused hquiet, BareStand.handTs, Law.standBare, State.writeTs, Law.stand_mod, if_pos rfl,
    State.restartMark, Law.stand_mod, if_pos rfl]

/-- A splice of a stand with a READY arm: the swap, the splice event, and what follows a start (R89). -/
theorem State.splice_swaps (ha : (s.stand st).active = some a) (hready : ((s.stand st).arm a.other).state = .ready)
    (hold : ((s.stand st).arm a).roll = some old) (hnew : ((s.stand st).arm a.other).roll = some new) : s.splice st =
      ((((s.armsSwapped st a a.other old new ((((s.stand st).pasteLine.bind s.liveJob)).or ((s.roll old).bind Roll.job))).spliceEventAt
        (s.stand st).pasteLine).modStand st ({ · with late := false, runout := false })).afterStart st) := by
  rw [State.splice]
  dsimp only
  rw [ha, Stand.armIn_ready ha hready]
  dsimp only
  rw [hold, hnew]
  dsimp only [State.armsSwapped]
  cases (s.stand st).pasteLine <;> rfl

end

/-! ## PASTE_TIMER_EXPIRY -/

section
variable {s : State} {st old new : Nat} {a : Arm} {p q : Roll}

/-- The hypotheses of a splice: an ACTIVE and a READY arm, each with its live roll. -/
structure State.Splices (s : State) (st : Nat) (a : Arm) (old new : Nat) (p q : Roll) : Prop where
  active : (s.stand st).active = some a
  ready : ((s.stand st).arm a.other).state = .ready
  oldLink : ((s.stand st).arm a).roll = some old
  newLink : ((s.stand st).arm a.other).roll = some new
  differ : old ≠ new
  oldRoll : s.roll old = some p
  newRoll : s.roll new = some q

/-- The stand a splice leaves, but for its mark timer, T_s and call-off links. -/
theorem State.Splices.stand (h : s.Splices st a old new p q) : ∃ left ts, Law.standBare st (s.splice st) =
    Law.withoutCallOffs { (s.stand st).swapped a q.mount with late := false, runout := false, markLeft := left, ts := ts } := by
  rw [State.splice_swaps h.active h.ready h.oldLink h.newLink]
  generalize hu : State.modStand _ st _ = u
  have hstand : u.stand st = { (s.stand st).swapped a q.mount with late := false, runout := false } := by
    rw [← hu, Law.stand_mod, if_pos rfl, State.stand, State.spliceEventAt_stands]
    exact congrArg (fun x : Stand => { x with late := false, runout := false }) (State.armsSwapped_stand h.differ h.newRoll)
  have hexpired : ((u.stand st).arm a).state = .expired := by
    rw [hstand]
    cases a <;> rfl
  obtain ⟨left, ts, hbare⟩ := State.afterStart_expired hexpired
  exact ⟨left, ts, by rw [hbare, hstand]⟩

theorem State.Splices.rolls (h : s.Splices st a old new p q) :
    (s.splice st).roll old = some { p with state := .stub, diameter := (s.stand st).df.getD p.diameter } ∧
    (s.splice st).roll new =
      some { q with state := .running, job := (((s.stand st).pasteLine.bind s.liveJob)).or p.job, hold := none } := by
  have hroll (n : Nat) : (s.splice st).roll n = (s.armsSwapped st a a.other old new
      ((((s.stand st).pasteLine.bind s.liveJob)).or ((s.roll old).bind Roll.job))).roll n := by
    rw [State.splice_swaps h.active h.ready h.oldLink h.newLink, State.roll, State.afterStart_rolls, State.modStand_rolls,
      State.spliceEventAt_rolls]
    rfl
  rw [hroll, hroll, State.armsSwapped_roll, State.armsSwapped_roll, if_neg h.differ, if_pos rfl, if_pos rfl, if_neg (Ne.symm h.differ),
    h.oldRoll, h.newRoll]
  exact ⟨rfl, rfl⟩

/-- The lines and jobs of a splice are those of its splice event. -/
theorem State.Splices.tables (h : s.Splices st a old new p q) (l : Nat) :
    (s.splice st).line l = (s.spliceEventAt (s.stand st).pasteLine).line l ∧
    ∀ n j, (s.stand st).pasteLine = some l → (s.line l).counting ≠ .idle → s.liveJob l = some n → s.job n = some j →
      (s.splice st).job n = some { j with spliceCount := min 65535 (j.spliceCount + 1) } := by
  generalize hu : s.armsSwapped st a a.other old new ((((s.stand st).pasteLine.bind s.liveJob)).or ((s.roll old).bind Roll.job)) = u
  obtain ⟨hlines, hjobs⟩ : u.lines = s.lines ∧ u.jobs = s.jobs := hu ▸ s.armsSwapped_tables st ..
  have hline (m : Nat) : u.line m = s.line m := congrArg (Tbl.get · m Line.cold) hlines
  have hsplice : s.splice st = ((u.spliceEventAt (s.stand st).pasteLine).modStand st
      ({ · with late := false, runout := false })).afterStart st := by
    rw [State.splice_swaps h.active h.ready h.oldLink h.newLink, hu]
  obtain ⟨hlines', hjobs'⟩ : (s.splice st).lines = (u.spliceEventAt (s.stand st).pasteLine).lines ∧
      (s.splice st).jobs = (u.spliceEventAt (s.stand st).pasteLine).jobs := by
    rw [hsplice]
    exact (State.wr_afterStart .refl (Nat.le_refl 1) st).kept_lines (by decide)
  refine ⟨?_, fun n j hl hc hn hj => ?_⟩
  · rw [State.line, hlines']
    show (u.spliceEventAt (s.stand st).pasteLine).line l = _
    rw [State.spliceEventAt_line, State.spliceEventAt_line, hline]
  · rw [State.job, hjobs', hl]
    refine State.spliceEvent_job (s := u) ?_ ?_ ?_
    · rwa [hline]
    · rwa [State.liveJob_congr hjobs]
    · rwa [State.job, hjobs]

theorem exec_pasteTimerExpiry (s : State) (st : Nat) : exec (.pasteTimerExpiry st) s = expiry (.pasteTimerExpiry st)
    (if (s.stand st).seq = .pasting then (s.stand st).pasteLeft else none) (·.splice st) s := rfl

/-- The event and its pass keep what a splice leaves. -/
theorem State.Splices.finished (h : s.Splices st a old new p q) : let t := (s.splice st).finish
    (∃ left ts, Law.standBare st t =
      Law.withoutCallOffs { (s.stand st).swapped a q.mount with late := false, runout := false, markLeft := left, ts := ts }) ∧
    t.roll old = some { p with state := .stub, diameter := (s.stand st).df.getD p.diameter } ∧
    t.roll new = some { q with state := .running, job := (((s.stand st).pasteLine.bind s.liveJob)).or p.job, hold := none } ∧
    (∀ l, t.line l = (s.splice st).line l) ∧ ∀ n, t.job n = (s.splice st).job n := by
  intro t
  obtain ⟨hold, hnew⟩ := h.rolls
  obtain ⟨hlines, hjobs⟩ := (State.finish_writes (s.splice st)).kept_lines (by decide)
  refine ⟨?_, Law.onlyStoredRollsChange_finish _ _ _ hold nofun, Law.onlyStoredRollsChange_finish _ _ _ hnew nofun,
    fun l => congrArg (Tbl.get · l Line.cold) hlines, fun n => congrArg (Tbl.find · n) hjobs⟩
  rw [BareStand.finish]
  exact h.stand

end

/-- Settles O37: the swap of the arms and rolls, and the splice event of the paste line. -/
theorem spliceSwapsTheArms : Obligations.SpliceSwapsTheArms := by
  unfold Obligations.SpliceSwapsTheArms
  intro due
  refine ⟨fun s st h => ?_, fun s st old new a p q hawake => ?_⟩
  · rw [exec_pasteTimerExpiry]
    refine expiry_stale (h.imp_right (mt ?_))
    rintro ⟨left, hleft, hend⟩
    split at hleft
    · next hseq => exact ⟨hseq, left, hleft, hend⟩
    · cases hleft
  · intro x hdue ha hready hold hnew hne hp hq
    obtain ⟨hseq, left, hleft, hend⟩ := hdue
    have h : s.fresh.Splices st a old new p q := ⟨ha, hready, hold, hnew, hne, hp, hq⟩
    obtain ⟨⟨mark, ts, hbare⟩, hroll, hroll', hline, hjob⟩ := h.finished
    refine ⟨_, (exec_pasteTimerExpiry s st).trans (expiry_acts hawake ((if_pos hseq).trans hleft) hend), ?_⟩
    generalize (s.fresh.splice st).finish = t at *
    obtain ⟨⟨hexpired, holdLink, hactive, hnewLink⟩, hrunning, hcount, hpaste, hpline, hdrive, hpin, hlate, hrunout, hvs, hdf, hrun, hlost⟩ :=
      Stand.swapped_clauses hbare
    refine ⟨hexpired, holdLink.trans hold, hactive, hnewLink.trans hnew, hrunning, hcount, hpaste, hpline, hdrive, hpin, hlate, hrunout, hvs,
      hdf, hrun, hlost, hroll, hroll', fun l hl => ?_, fun l hl => ?_⟩
    · rw [hline, (h.tables l).1, State.spliceEventAt_line]
      exact if_neg hl
    · have hspliced : t.line l = (s.line l).spliced := by
        rw [hline, (h.tables l).1, State.spliceEventAt_line]
        exact if_pos hl
      refine ⟨fun n j hc hn hj => ⟨_, (hjob n).trans ((h.tables l).2 n j hl hc hn hj), rfl⟩, fun hc hw => ?_, fun hc => ?_, fun hg hs => ?_⟩
      · rw [hspliced, Line.spliced, hc]
        dsimp only
        rw [if_neg hw]
        exact ⟨rfl, rfl⟩
      · rw [hspliced, Line.spliced, hc]
        exact ⟨rfl, rfl⟩
      · rw [hspliced, Line.spliced]
        cases hc : (s.line l).counting
        case good => exact absurd hc hg
        case splice => exact absurd hc hs
        all_goals rfl

end Sys2Proof.Machine
end

section
/-! Proofs about SET_STAND and SET_LINE (R59, R62, R80, R97): the checks in their order, the settings, the channels cleared and the break
source made active. -/

namespace Sys2Proof.Machine

/-! ## SET_STAND (R62, R80) -/

section
variable {s : State} {st m k offset tol pulse loading : Nat}

theorem State.setStandArgs_iff (s : State) (st m k offset tol pulse loading : Nat) : s.setStandArgs st m k offset tol pulse loading = true ↔
    (1 ≤ st ∧ st ≤ 16) ∧ (m = 1 ∨ m = 2 ∨ m = 4) ∧ (k = 1 ∨ k = 4 ∨ k = 16) ∧ (100 ≤ offset ∧ offset ≤ 800) ∧ (1 ≤ tol ∧ tol ≤ 20) ∧
      (50 ≤ pulse ∧ pulse ≤ 500) ∧ 1 ≤ loading ∧ loading ≤ 48 ∧ ∃ g, s.node loading = some ⟨g, .stand⟩ := by
  have hnode : (∃ x, s.node loading = some x ∧ x.role = .stand) ↔ ∃ g, s.node loading = some ⟨g, .stand⟩ :=
    ⟨fun ⟨⟨g, role⟩, hx, hrole⟩ => ⟨g, by rw [hx, show role = .stand from hrole]⟩, fun ⟨g, hg⟩ => ⟨_, hg, rfl⟩⟩
  simp only [State.setStandArgs, Bool.and_eq_true, standOk_iff, within_iff, State.nodeIs_iff, hnode, List.contains_eq_mem, decide_eq_true_eq,
    List.mem_cons, List.not_mem_nil, or_false, and_assoc]

theorem Stand.inSequence_iff (x : Stand) : x.inSequence = true ↔ x.seq = .armed ∨ x.seq = .matched ∨ x.seq = .pasting := by
  simp [Stand.inSequence, or_assoc]

theorem State.standTurns_iff (s : State) (st : Nat) : s.standTurns st = true ↔ ∃ l, s.lineOf st = some l ∧ 0 < (s.line l).v := by
  simp [State.standTurns, Option.any_eq_true]

theorem Requester.atStand_iff (st : Nat) (q : Requester) : q.atStand st = true ↔ ∃ a, q = .arm st a := by
  cases q <;> simp [Requester.atStand]

theorem State.callOffLive_iff (s : State) (st : Nat) :
    s.callOffLive st = true ↔ ∃ e ∈ s.orders, e.2.kind = .callOff ∧ ∃ a, e.2.requester = .arm st a := by
  simp only [State.callOffLive, List.any_eq_true, Bool.and_eq_true, beq_iff_eq, Requester.atStand_iff]

theorem State.setStandConflict_iff (s : State) (st m k offset tol pulse loading : Nat) :
    s.setStandConflict st m k offset tol pulse loading = true ↔
      (((s.stand st).m ≠ m ∨ (s.stand st).k ≠ k) ∧ (((s.stand st).seq = .armed ∨ (s.stand st).seq = .matched ∨ (s.stand st).seq = .pasting) ∨
        ∃ l, s.lineOf st = some l ∧ 0 < (s.line l).v)) ∨
      (((s.stand st).offset ≠ offset ∨ (s.stand st).tol ≠ tol ∨ (s.stand st).pulse ≠ pulse) ∧
        ((s.stand st).seq = .armed ∨ (s.stand st).seq = .matched ∨ (s.stand st).seq = .pasting)) ∨
      ((s.stand st).loading ≠ some loading ∧ ∃ e ∈ s.orders, e.2.kind = .callOff ∧ ∃ a, e.2.requester = .arm st a) := by
  simp only [State.setStandConflict, Bool.or_eq_true, Bool.and_eq_true, bne_iff_ne, Stand.inSequence_iff, State.standTurns_iff,
    State.callOffLive_iff, or_assoc]

/-- The state SET_STAND leaves before its answer: the settings, and what a changed offset and a changed loading node lead to. -/
def State.standSet (s : State) (st m k offset tol pulse loading : Nat) : State :=
  let s1 := s.setStand st ((s.stand st).configured m k offset tol pulse loading)
  let s2 := if (s.stand st).offset ≠ offset then s1.runoutTest st else s1
  if (s.stand st).loading ≠ some loading then s2.evalCallOff st else s2

theorem State.setStandRequest_eq (s : State) (st m k offset tol pulse loading : Nat) : s.setStandRequest st m k offset tol pulse loading =
    if s.setStandArgs st m k offset tol pulse loading then
      if s.setStandConflict st m k offset tol pulse loading then s.no .badState else (s.standSet st m k offset tol pulse loading).ok
    else s.no .badArgument := rfl

theorem Wr.standSet (s : State) (st m k offset tol pulse loading : Nat) :
    Wr 3 (s.setStand st ((s.stand st).configured m k offset tol pulse loading)) (s.standSet st m k offset tol pulse loading) := by
  unfold State.standSet
  dsimp only
  split
  · refine State.wr_evalCallOff ?_ st
    split
    · exact State.wr_runoutTest .refl (Nat.le_refl 3) st
    · exact .refl
  · split
    · exact State.wr_runoutTest .refl (Nat.le_refl 3) st
    · exact .refl

theorem Stand.configured_same (x : Stand) (m k tol pulse : Nat) : x.configured m k x.offset tol pulse loading = { x with
    m := m, k := k, tol := tol, pulse := pulse, loading := some loading,
    armA := if x.m = m ∧ x.k = k then x.armA else { x.armA with chan := ⟨0, none⟩ },
    armB := if x.m = m ∧ x.k = k then x.armB else { x.armB with chan := ⟨0, none⟩ } } := by
  unfold Stand.configured
  by_cases h : x.m = m ∧ x.k = k
  · rw [if_neg (by simp [h.1, h.2]), if_pos h, if_pos h]
  · rw [if_pos (by rwa [ne_eq, ne_eq, ← not_and_or]), if_neg h, if_neg h]
    rfl

/-- The settings of a stand after SET_STAND; the other stands keep theirs. -/
theorem State.standSet_settings (s : State) (st m k offset tol pulse loading c : Nat) :
    let y := (s.standSet st m k offset tol pulse loading).stand c
    let x := if c = st then (s.stand st).configured m k offset tol pulse loading else s.stand c
    y.m = x.m ∧ y.k = x.k ∧ y.offset = x.offset ∧ y.tol = x.tol ∧ y.pulse = x.pulse ∧ y.loading = x.loading := by
  obtain ⟨hm, hk, hoffset, htol, hpulse, hloading, -⟩ := ((Wr.standSet s st m k offset tol pulse loading).kept_stand (by decide) c).1 (by decide)
  have hstand : (s.setStand st ((s.stand st).configured m k offset tol pulse loading)).stand c =
      if c = st then (s.stand st).configured m k offset tol pulse loading else s.stand c := Tbl.get_set ..
  rw [hstand] at hm hk hoffset htol hpulse hloading
  exact ⟨hm, hk, hoffset, htol, hpulse, hloading⟩

end

/-! ## SET_LINE (R59, R97) -/

section
variable {s : State} {l : Nat}

/-- Clearing the channels of a line's stands changes those stands alone. -/
theorem State.clearLineChannels_only (s : State) (l : Nat) : s.clearLineChannels l = { s with stands := (s.clearLineChannels l).stands } := by
  obtain ⟨sts, h⟩ := State.each_keeps (P := fun u => ∃ sts, u = { s with stands := sts }) (f := fun st u => u.modStand st Stand.clearChannels)
    (by rintro n u ⟨sts, rfl⟩; exact ⟨_, rfl⟩) (s.lineStands l) ⟨s.stands, rfl⟩
  rw [State.clearLineChannels, h]

theorem State.clearLineChannels_stand (s : State) (l c : Nat) :
    (s.clearLineChannels l).stand c = if c ∈ s.lineStands l then (s.stand c).clearChannels else s.stand c :=
  State.each_reads (g := State.stand) (h := Stand.clearChannels) (fun u st m => by rw [Law.stand_mod]; split <;> simp [*])
    (fun _ => rfl) _ s c

/-- What keeps a line's enabled pin or runout source active. -/
theorem State.standingSource_isSome (s : State) (l : Nat) : (s.standingSource l).isSome = true ↔
    ((s.line l).enables.webBreak = true ∧ ∃ st ∈ s.lineStands l, (s.stand st).webBreak = true) ∨
    ((s.line l).enables.jam = true ∧ (s.line l).jam = true) ∨
    ((s.line l).enables.runout = true ∧ ∃ st ∈ s.lineStands l, (s.stand st).runout = true) := by
  have hfound (e : Bool) (g : Stand → Bool) : ((s.lineStands l).find? fun st => e && g (s.stand st)).isSome = true ↔
      e = true ∧ ∃ st ∈ s.lineStands l, g (s.stand st) = true := by
    simp only [List.find?_isSome, Bool.and_eq_true]
    exact ⟨fun ⟨st, hst, he, hg⟩ => ⟨he, st, hst, hg⟩, fun ⟨he, st, hst, hg⟩ => ⟨st, hst, he, hg⟩⟩
  rw [← hfound _ Stand.webBreak, ← hfound _ Stand.runout, State.standingSource]
  cases hpin : (s.lineStands l).find? fun st => (s.line l).enables.webBreak && (s.stand st).webBreak with
  | some st => simp
  | none =>
    by_cases hjam : ((s.line l).enables.jam && (s.line l).jam) = true
    · simp [Bool.and_eq_true_iff.mp hjam]
    · simp only [hjam, ← Bool.and_eq_true]
      simp

/-- The settings of a line and the channels of its stands written. -/
def State.lineSet (s : State) (l lam w : Nat) (e : Enables) : State :=
  let s1 := s.modLine l ({ · with lam := lam, w := w, enables := e })
  if (s.line l).lam ≠ lam then s1.clearLineChannels l else s1

variable {lam w : Nat} {e : Enables}

theorem State.setLineRequest_eq (s : State) (l lam w : Nat) (e : Enables) : s.setLineRequest l lam w e =
    if lineOk l && within 50 2000 lam && within 10 200 w then
      if (s.line l).lam ≠ lam ∧ 0 < (s.line l).v then s.no .badState
      else match (s.lineSet l lam w e).standingSource l with
        | some c => ((s.lineSet l lam w e).sourceActive l c).ok
        | none => (s.lineSet l lam w e).ok
    else s.no .badArgument := rfl

theorem State.lineSet_only (s : State) (l lam w : Nat) (e : Enables) : s.lineSet l lam w e = { s with
    lines := s.lines.set l .cold { s.line l with lam := lam, w := w, enables := e }, stands := (s.lineSet l lam w e).stands } := by
  unfold State.lineSet
  dsimp only
  split
  · exact State.clearLineChannels_only _ l
  · rfl

theorem State.lineSet_line (s : State) (l lam w : Nat) (e : Enables) (m : Nat) :
    (s.lineSet l lam w e).line m = if m = l then { s.line l with lam := lam, w := w, enables := e } else s.line m := by
  rw [State.lineSet_only]
  exact Tbl.get_set ..

theorem State.modLine_lineStands (s : State) (l m lam w : Nat) (e : Enables) :
    (s.modLine l ({ · with lam := lam, w := w, enables := e })).lineStands m = s.lineStands m := by
  refine State.lineStands_of_live (fun n => ?_) m
  rw [Law.line_mod]
  split
  · next h => rw [h]
  · rfl

theorem State.lineSet_lineStands (s : State) (l lam w : Nat) (e : Enables) (m : Nat) :
    (s.lineSet l lam w e).lineStands m = s.lineStands m := by
  rw [State.lineSet_only]
  exact s.modLine_lineStands l m lam w e

theorem State.lineSet_stand (s : State) (l lam w : Nat) (e : Enables) (c : Nat) : (s.lineSet l lam w e).stand c =
    if (s.line l).lam ≠ lam ∧ c ∈ s.lineStands l then (s.stand c).clearChannels else s.stand c := by
  unfold State.lineSet
  dsimp only
  by_cases h : (s.line l).lam ≠ lam
  · rw [if_pos h, State.clearLineChannels_stand, State.modLine_lineStands]
    simp only [h, ne_eq, not_false_eq_true, true_and]
    rfl
  · rw [if_neg h, if_neg fun hc => h hc.1]
    rfl

/-- The sources a line's new settings leave active are those of its stands and pins before, as newly enabled. -/
theorem State.lineSet_source (s : State) (l lam w : Nat) (e : Enables) : ((s.lineSet l lam w e).standingSource l).isSome = true ↔
    (e.webBreak = true ∧ ∃ st ∈ s.lineStands l, (s.stand st).webBreak = true) ∨ (e.jam = true ∧ (s.line l).jam = true) ∨
    (e.runout = true ∧ ∃ st ∈ s.lineStands l, (s.stand st).runout = true) := by
  have hpin (c : Nat) : ((s.lineSet l lam w e).stand c).webBreak = (s.stand c).webBreak ∧
      ((s.lineSet l lam w e).stand c).runout = (s.stand c).runout := by
    rw [State.lineSet_stand]
    split <;> exact ⟨rfl, rfl⟩
  rw [State.standingSource_isSome, State.lineSet_lineStands, State.lineSet_line, if_pos rfl]
  simp only [hpin]

/-- A line with an enabled pin or runout source active enters BREAK, when it is in CLEAR. -/
def State.sourced (s : State) (l : Nat) : State :=
  match s.standingSource l with
  | some c => s.sourceActive l c
  | none => s

theorem Wr.sourced (s : State) (l : Nat) : Wr 3 s (s.sourced l) := by
  unfold State.sourced
  split
  · exact State.wr_sourceActive .refl (Nat.le_refl 3) l _
  · exact .refl

theorem State.sourced_enters (hclear : (s.line l).inBreak = false) (hactive : (s.standingSource l).isSome = true) :
    ((s.sourced l).line l).inBreak = true := by
  obtain ⟨c, hc⟩ := Option.isSome_iff_exists.mp hactive
  rw [State.sourced, hc]
  dsimp only
  rw [State.sourceActive, hclear, if_neg Bool.false_ne_true]
  exact (Law.enterBreak s l c).1

theorem State.sourced_quiet (h : (s.line l).inBreak = true ∨ ¬ (s.standingSource l).isSome = true) : s.sourced l = s := by
  unfold State.sourced
  split
  · next c hc =>
    rw [hc] at h
    exact if_pos (h.resolve_right (not_not_intro rfl))
  · rfl

/-- SET_LINE with arguments in range, at a λ that is kept or on a line that stands. -/
theorem State.setLineRequest_taken (hok : (lineOk l && within 50 2000 lam && within 10 200 w) = true)
    (h : (s.line l).lam = lam ∨ (s.line l).v = 0) : s.setLineRequest l lam w e = ((s.lineSet l lam w e).sourced l).ok := by
  rw [State.setLineRequest_eq, if_pos hok, if_neg (by omega), State.sourced]
  cases (s.lineSet l lam w e).standingSource l <;> rfl

end

/-! ## The obligation -/

/-- Settles O32: the checks of SET_STAND and SET_LINE in their order, and what each leaves. -/
theorem standAndLineSettingsAreWritten : Obligations.StandAndLineSettingsAreWritten := by
  unfold Obligations.StandAndLineSettingsAreWritten
  refine ⟨?_, ?_⟩
  · rintro s st m k offset tol pulse loading i rfl htakes x bad sequence conflict
    have hbad : s.fresh.setStandArgs st m k offset tol pulse loading = false ↔ bad := by
      rw [Bool.eq_false_iff, ne_eq, State.setStandArgs_iff]
      simp only [not_and_or, not_or, not_le, not_exists, or_assoc]
      rfl
    have hconflict : s.fresh.setStandConflict st m k offset tol pulse loading = true ↔ conflict := State.setStandConflict_iff ..
    have hrequest := State.setStandRequest_eq s.fresh st m k offset tol pulse loading
    refine ⟨fun hb => ?_, fun hb hc => ?_, fun hb hc => ?_⟩
    · rw [hbad.mpr hb] at hrequest
      exact request_refused htakes hrequest
    · rw [Bool.eq_true_of_not_eq_false (mt hbad.mp hb), hconflict.mpr hc] at hrequest
      exact request_refused htakes hrequest
    · rw [Bool.eq_true_of_not_eq_false (mt hbad.mp hb), Bool.eq_false_iff.mpr (mt hconflict.mp hc)] at hrequest
      refine ⟨fun hoffset hloading => ?_, ?_⟩
      · have hset : s.fresh.standSet st m k offset tol pulse loading =
            s.fresh.setStand st (x.configured m k offset tol pulse loading) := by
          unfold State.standSet
          exact (if_neg (not_not_intro hloading)).trans (if_neg (not_not_intro hoffset))
        rw [hset] at hrequest
        refine (request_eq_quiet htakes hrequest rfl rfl).trans ?_
        rw [← hoffset, Stand.configured_same, ← hloading]
        rfl
      · have hport := ((Wr.standSet s.fresh st m k offset tol pulse loading).kept (by decide)).port
        obtain ⟨t, hexec, hanswer, hwr, -⟩ :=
          Law.request_done (h := (·.setStandRequest st m k offset tol pulse loading)) (x := .ok) (p := []) htakes hrequest hport
        have hkept (c : Nat) := (hwr.kept_stand (by decide) c).1 (by decide)
        have hset (c : Nat) := s.fresh.standSet_settings st m k offset tol pulse loading c
        obtain ⟨hm, hk, hoffset, htol, hpulse, hloading, -⟩ := hkept st
        obtain ⟨hm', hk', hoffset', htol', hpulse', hloading'⟩ := hset st
        rw [if_pos rfl] at hm' hk' hoffset' htol' hpulse' hloading'
        refine ⟨t, hexec, hanswer, hm.trans hm', hk.trans hk', hoffset.trans hoffset', htol.trans htol', hpulse.trans hpulse',
          hloading.trans hloading', fun c hc => ?_⟩
        obtain ⟨hm, hk, hoffset, htol, hpulse, hloading, -⟩ := hkept c
        obtain ⟨hm', hk', hoffset', htol', hpulse', hloading'⟩ := hset c
        rw [if_neg hc] at hm' hk' hoffset' htol' hpulse' hloading'
        exact ⟨hm.trans hm', hk.trans hk', hoffset.trans hoffset', htol.trans htol', hpulse.trans hpulse', hloading.trans hloading'⟩
  · rintro s l lam w e i rfl htakes x bad active
    have hbad : (lineOk l && within 50 2000 lam && within 10 200 w) = false ↔ bad := by
      rw [Bool.eq_false_iff, ne_eq, Bool.and_eq_true, Bool.and_eq_true, lineOk_iff, within_iff, within_iff]
      simp only [not_and_or, not_le, or_assoc]
      rfl
    refine ⟨fun hb => ?_, fun hb hlam hv => ?_, fun hb hmay => ?_⟩
    · refine request_refused htakes ?_
      rw [State.setLineRequest_eq, hbad.mpr hb]
      rfl
    · refine request_refused htakes ?_
      rw [State.setLineRequest_eq, if_pos (Bool.eq_true_of_not_eq_false (mt hbad.mp hb))]
      exact if_pos ⟨hlam, hv⟩
    · have hrequest := State.setLineRequest_taken (s := s.fresh) (e := e) (Bool.eq_true_of_not_eq_false (mt hbad.mp hb)) hmay
      have hsource : ((s.fresh.lineSet l lam w e).standingSource l).isSome = true ↔ active := State.lineSet_source s.fresh l lam w e
      have hline : (s.fresh.lineSet l lam w e).line l = { x with lam := lam, w := w, enables := e } :=
        (State.lineSet_line s.fresh l lam w e l).trans (if_pos rfl)
      have hstand := State.lineSet_stand s.fresh l lam w e
      have honly := State.lineSet_only s.fresh l lam w e
      generalize s.fresh.lineSet l lam w e = u at *
      have hsettings := Wr.sourced u l
      have hport : u.port = s.port := (congrArg State.port honly :)
      obtain ⟨t, hexec, hanswer, hwr, -⟩ :=
        Law.request_done (h := (·.setLineRequest l lam w e)) (x := .ok) (p := []) htakes hrequest ((hsettings.kept (by decide)).port.trans hport)
      have htline : t.line l = (u.sourced l).line l := Law.request_done_line hwr l
      obtain ⟨hlam, hw, he, -⟩ := (hsettings.kept_line (by decide) l).1 (by decide)
      rw [← htline, hline] at hlam hw he
      refine ⟨t, hexec, hanswer, hlam, hw, he, fun hclear hactive => ?_, fun hquiet => ?_⟩
      · rw [htline]
        exact State.sourced_enters ((congrArg Line.inBreak hline).trans hclear) (hsource.mpr hactive)
      · have hsame : u.sourced l = u := State.sourced_quiet (hquiet.imp (congrArg Line.inBreak hline).trans (mt hsource.mp))
        rw [hsame] at hrequest
        have ht : t = u.replied (.setLine l lam w e) .ok [] :=
          Host.Outcome.next.inj (hexec.symm.trans
            (request_eq_quiet (h := (·.setLineRequest l lam w e)) (q := u.ok) htakes hrequest hport (congrArg State.passDue honly :)))
        refine ⟨?_, fun st => ?_⟩
        · rw [ht, honly]
          rfl
        · rw [ht]
          exact hstand st

end Sys2Proof.Machine
end

section
/-! Proofs about WEB_PULSE and GATE_EXPIRY (R60, R61, R66, R67, R75, R85, R99): the speed of a gate, T_s of the line's stands, disarming below
the threshold, and the break machine. -/

namespace Sys2Proof.Machine

/-! ## The speed (R61) -/

/-- The number a quotient rounds to, half up. -/
theorem roundHalfUp_eq {a b n : Nat} (hle : 2 * n * b ≤ 2 * a + b) (hlt : 2 * a + b < 2 * (n + 1) * b) : roundHalfUp a b = n := by
  unfold roundHalfUp
  refine Nat.div_eq_of_lt_le ?_ ?_
  · calc n * (2 * b) = 2 * n * b := by ring
      _ ≤ 2 * a + b := hle
  · calc 2 * a + b < 2 * (n + 1) * b := hlt
      _ = (n + 1) * (2 * b) := by ring

/-! ## What stays of lines and stands -/

section
variable {s t : State} {st l k : Nat}

theorem State.line_of_lines (h : t.lines = s.lines) (m : Nat) : t.line m = s.line m := congrArg (Tbl.get · m Line.cold) h

theorem Wr.lines_kept (h : Wr 1 s t) : t.lines = s.lines := (h.kept_lines (by decide)).1

theorem State.lineOf_of_mem (h : st ∈ s.lineStands l) : s.lineOf st = some l := eq_of_beq (List.mem_filter.mp h).2

theorem Wr.lineOf (h : Wr 2 s t) (c : Nat) : t.lineOf c = s.lineOf c := State.lineOf_of_live h.kept_live c

theorem Wr.lineStands (h : Wr 2 s t) (m : Nat) : t.lineStands m = s.lineStands m := State.lineStands_of_live h.kept_live m

theorem Wr.measuring (h : Wr 2 s t) (m : Nat) : t.measuring m = s.measuring m := by
  obtain ⟨-, -, -, -, -, hv, -⟩ := (h.kept_line (by decide) m).1 (by decide)
  rw [State.measuring, State.measuring, hv]

/-- A stand neither ARMED nor MATCHED. -/
def Stand.unarmed (x : Stand) : Prop := x.seq ≠ .armed ∧ x.seq ≠ .matched

theorem Stand.unarmed_of_seq {x y : Stand} (h : y.seq = x.seq) (hx : x.unarmed) : y.unarmed := by rwa [Stand.unarmed, h]

theorem Stand.disarmed_unarmed (x : Stand) : x.disarmed.unarmed := by
  unfold Stand.disarmed Stand.unarmed
  split
  · exact ⟨nofun, nofun⟩
  · next h => exact not_or.mp h

theorem Stand.disarmed_disarmed (x : Stand) : x.disarmed.disarmed = x.disarmed := if_neg (not_or.mpr x.disarmed_unarmed)

/-- The states of the arms decide which is ACTIVE. -/
theorem Stand.active_congr {x y : Stand} (hA : y.armA.state = x.armA.state) (hB : y.armB.state = x.armB.state) : y.active = x.active := by
  unfold Stand.active Stand.armIn
  rw [hA, hB]

theorem Wr.active (h : Wr 0 s t) (c : Nat) : (t.stand c).active = (s.stand c).active :=
  Stand.active_congr (h.kept_arm c .A).1 (h.kept_arm c .B).1

/-! ## No arming below the measuring threshold (R84) -/

theorem State.tryArm_still (hl : s.lineOf st = some l) (hm : s.measuring l = false) : s.tryArm st = s := by
  refine State.tryArm_refused ?_
  obtain ⟨⟨m, p⟩, hp, rfl⟩ := Option.map_eq_some_iff.mp hl
  rw [State.armable, hp]
  dsimp only
  rw [hm, Bool.and_false, Bool.and_false]

theorem State.afterStart_still (hl : s.lineOf st = some l) (hm : s.measuring l = false) (c : Nat) :
    ((s.afterStart st).stand c).seq = (s.stand c).seq := by
  have hwr : Wr 2 s (((s.restartMark st).writeTs st).handTs st) :=
    State.wr_handTs (State.wr_writeTs (State.wr_restartMark .refl (by decide) st) (by decide) st) st
  rw [State.afterStart, State.tryArm_still ((hwr.lineOf st).trans hl) ((hwr.measuring l).trans hm),
    Law.stand_field_bare Stand.seq (fun _ => rfl) (BareStand.handTs ..), Law.stand_field_ts Stand.seq _ _ _ fun _ _ => rfl,
    Law.stand_field_mark Stand.seq _ _ _ fun _ _ => rfl]

/-- A first start made below the measuring threshold does not arm its stand. -/
theorem State.firstStart_unarmed (hl : s.lineOf st = some l) (hm : s.measuring l = false) (c : Nat) (h : (s.stand c).unarmed) :
    ((s.firstStart st).stand c).unarmed := by
  by_cases hc : c = st
  · subst hc
    unfold State.firstStart
    dsimp only
    split
    · split
      · next n _ =>
        generalize hu : State.modStand _ c _ = u
        have hlines : u.lines = s.lines := by
          rw [← hu]
          exact State.modRoll_lines ..
        refine Stand.unarmed_of_seq (x := { s.stand c with seq := .running }) ?_ ⟨nofun, nofun⟩
        have hmeasuring : u.measuring l = s.measuring l := by rw [State.measuring, State.measuring, State.line_of_lines hlines]
        rw [State.afterStart_still ((State.lineOf_congr hlines c).trans hl) (hmeasuring.trans hm), ← hu, Law.stand_mod, if_pos rfl]
      · exact h
    · exact h
  · exact Stand.unarmed_of_seq (Law.stand_field_bare Stand.seq (fun _ => rfl) (BareStand.firstStart_other s hc)) h

/-- A stand with an ACTIVE arm has no first start to make (R83). -/
theorem State.firstStart_started (h : (s.stand st).active.isSome = true) : s.firstStart st = s := by
  obtain ⟨a, ha⟩ := Option.isSome_iff_exists.mp h
  unfold State.firstStart
  dsimp only
  rw [ha]
  split
  · next hactive _ => cases hactive
  · rfl

end

/-! ## T_s at a gate (R66, R67) -/

section
variable {s t : State} {st l : Nat}

/-- A stand but for its call-off links and T_s. -/
def Stand.untimed (x : Stand) : Stand := { Law.withoutCallOffs x with ts := 0 }

theorem State.runningRoll_congr (hrolls : t.rolls = s.rolls) (h : (t.stand st).untimed = (s.stand st).untimed) :
    t.runningRoll st = s.runningRoll st := by
  have hactive : (t.stand st).active = (s.stand st).active :=
    Stand.active_congr (congrArg (ArmRec.state ∘ Stand.armA) h :) (congrArg (ArmRec.state ∘ Stand.armB) h :)
  have harm (a : Arm) : ((t.stand st).arm a).roll = ((s.stand st).arm a).roll := by
    cases a
    · exact (congrArg (ArmRec.roll ∘ Stand.armA) h :)
    · exact (congrArg (ArmRec.roll ∘ Stand.armB) h :)
  simp only [State.runningRoll, State.roll, hactive, harm, hrolls]

/-- The time to splice reads the lines, the rolls, the grades and its own stand alone. -/
theorem State.timeToSplice_congr (hlines : t.lines = s.lines) (hrolls : t.rolls = s.rolls) (hgrades : t.grades = s.grades)
    (h : (t.stand st).untimed = (s.stand st).untimed) : t.timeToSplice st = s.timeToSplice st := by
  have hposition : t.positionOf st = s.positionOf st := by simp only [State.positionOf, State.line, hlines]
  have hgrade : t.runningGrade st = s.runningGrade st := by
    simp only [State.runningGrade, State.runningRoll_congr hrolls h, State.grade, hgrades]
  have hdf : (t.stand st).df = (s.stand st).df := (congrArg Stand.df h :)
  simp only [State.timeToSplice, State.lineOf_congr hlines, State.runLength, hposition, hgrade, hdf, State.measuring,
    State.line_of_lines hlines]
  rfl

/-- T_s of some stands written and handed on. -/
def State.timed (s : State) (ns : List Nat) : State := s.each ns fun st u => (u.writeTs st).handTs st

theorem State.timeStep_stand (s : State) (st c : Nat) : Law.standBare c ((s.writeTs st).handTs st) =
    if c = st then { Law.standBare c s with ts := s.timeToSplice c } else Law.standBare c s := by
  rw [BareStand.handTs, Law.standBare, State.writeTs, Law.stand_mod]
  split
  · next h => subst h; rfl
  · rfl

/-- What a written T_s leaves of the figures it is computed from. -/
structure State.sameFigures (s t : State) : Prop where
  lines : t.lines = s.lines
  rolls : t.rolls = s.rolls
  grades : t.grades = s.grades
  stand : ∀ c, (t.stand c).untimed = (s.stand c).untimed

theorem State.sameFigures.timeStep (h : s.sameFigures t) (st : Nat) : s.sameFigures ((t.writeTs st).handTs st) := by
  have hwr : Wr 1 t ((t.writeTs st).handTs st) := State.wr_handTs (State.wr_writeTs .refl (by decide) st) st
  refine ⟨hwr.lines_kept.trans h.lines, (RollsAfter.handTs ..).trans h.rolls, (hwr.kept (by decide)).grades.trans h.grades, fun c => ?_⟩
  refine Eq.trans ?_ (h.stand c)
  have hstep : (((t.writeTs st).handTs st).stand c).untimed = { Law.standBare c ((t.writeTs st).handTs st) with ts := 0 } := rfl
  rw [hstep, State.timeStep_stand]
  split <;> rfl

theorem State.timed_stand (s : State) (ns : List Nat) (c : Nat) : Law.standBare c (s.timed ns) =
    if c ∈ ns then { Law.standBare c s with ts := s.timeToSplice c } else Law.standBare c s :=
  State.each_reads_where (g := fun u c => Law.standBare c u) (P := s.sameFigures) (k := fun c x => { x with ts := s.timeToSplice c })
    (fun u st c h => by rw [State.timeStep_stand, State.timeToSplice_congr h.lines h.rolls h.grades (h.stand c)])
    (fun st u h => h.timeStep st) (fun _ _ => rfl) ns ⟨rfl, rfl, rfl, fun _ => rfl⟩ c

end

/-! ## The stages of a gate before the break machine (R61, R75, R85) -/

section
variable {s : State} {l st : Nat}

/-- The speed of a gate and its reference written. -/
def State.gateTaken (s : State) (l : Nat) : State :=
  s.modLine l fun x => { x with v := gateSpeed (x.web - x.gateWeb).toNat x.lam, gateWeb := x.web }

/-- A gate up to the disarming below the threshold. -/
def State.gateMeasured (s : State) (l : Nat) : State :=
  let s1 := s.gateTaken l
  let s3 := (s1.timed (s1.lineStands l)).gateMarks l (s.measuring l)
  if s3.measuring l then s3 else s3.each (s3.lineStands l) fun st u => u.disarm st

theorem State.gate_eq (s : State) (l : Nat) : s.gate l =
    ((s.gateMeasured l).gateBreak l).each (((s.gateMeasured l).gateBreak l).lineStands l) fun st u => u.tryArm st := rfl

theorem State.gateTaken_line (s : State) (l m : Nat) : (s.gateTaken l).line m = if m = l then
    { s.line l with v := gateSpeed ((s.line l).web - (s.line l).gateWeb).toNat (s.line l).lam, gateWeb := (s.line l).web } else s.line m :=
  Law.line_mod ..

theorem State.gateTaken_live (s : State) (l m : Nat) : ((s.gateTaken l).line m).live = (s.line m).live := by
  rw [State.gateTaken_line]
  split
  · next h => rw [h]
  · rfl

theorem Wr.timed {k : Nat} (hk : 1 ≤ k) (s : State) (ns : List Nat) : Wr k s (s.timed ns) :=
  State.wr_each .refl ns _ fun st _ h => State.wr_handTs (State.wr_writeTs h hk st) st

theorem Wr.gateMarked {k : Nat} (hk : 1 ≤ k) (s : State) (l : Nat) (was : Bool) :
    Wr k s ((s.timed (s.lineStands l)).gateMarks l was) := State.wr_gateMarks (Wr.timed hk ..) hk l was

theorem Wr.gateMeasured {k : Nat} (hk : 1 ≤ k) (s : State) (l : Nat) : Wr k (s.gateTaken l) (s.gateMeasured l) := by
  unfold State.gateMeasured
  dsimp only
  split
  · exact Wr.gateMarked hk ..
  · exact State.wr_each (Wr.gateMarked hk ..) _ _ fun st _ h => State.wr_disarm h st

theorem State.gateMarks_field {α : Type} (g : Stand → α) (hmark : ∀ (x : Stand) o, g { x with markLeft := o } = g x) (s : State) (l : Nat)
    (was : Bool) (c : Nat) : g ((s.gateMarks l was).stand c) = g (s.stand c) := by
  unfold State.gateMarks
  split
  · rfl
  · exact Law.stand_field_each g c _ (fun st u => Law.stand_field_mark g u st c hmark) _ s

theorem State.disarm_field {α : Type} (g : Stand → α) (hdisarm : ∀ x : Stand, g x.disarmed = g x) (s : State) (st c : Nat) :
    g ((s.disarm st).stand c) = g (s.stand c) := by
  rw [State.disarm_stand]
  split
  · exact hdisarm _
  · rfl

/-- A field that a gate's mark timers and its disarming leave alone is that of the stand with T_s written. -/
theorem State.gateMeasured_field {α : Type} (g : Stand → α) (hlinks : ∀ x, g (Law.withoutCallOffs x) = g x)
    (hmark : ∀ (x : Stand) o, g { x with markLeft := o } = g x) (hdisarm : ∀ x : Stand, g x.disarmed = g x) (s : State) (l c : Nat) :
    g ((s.gateMeasured l).stand c) = if c ∈ s.lineStands l then g { s.stand c with ts := (s.gateTaken l).timeToSplice c } else g (s.stand c) := by
  have hmarked : g ((s.gateMeasured l).stand c) = g (((s.gateTaken l).timed ((s.gateTaken l).lineStands l)).stand c) := by
    unfold State.gateMeasured
    dsimp only
    split
    · exact State.gateMarks_field g hmark ..
    · exact (Law.stand_field_each g c _ (fun st u => State.disarm_field g hdisarm u st c) _ _).trans (State.gateMarks_field g hmark ..)
  rw [hmarked, ← hlinks]
  refine (congrArg g (State.timed_stand ..)).trans ?_
  rw [State.lineStands_of_live (s.gateTaken_live l)]
  split
  · exact hlinks { s.stand c with ts := (s.gateTaken l).timeToSplice c }
  · exact hlinks (s.stand c)

/-- Below the threshold no stand of the line stays ARMED or MATCHED (R85). -/
theorem State.gateMeasured_unarmed (hm : (s.gateTaken l).measuring l = false) (h : st ∈ s.lineStands l) :
    ((s.gateMeasured l).stand st).unarmed := by
  have hmarked := Wr.gateMarked (Nat.le_refl 1) (s.gateTaken l) l (s.measuring l)
  unfold State.gateMeasured
  dsimp only
  generalize ((s.gateTaken l).timed ((s.gateTaken l).lineStands l)).gateMarks l (s.measuring l) = u at hmarked
  have hmeasuring : u.measuring l = false := by
    rw [State.measuring, State.line_of_lines hmarked.lines_kept]
    exact hm
  have hstands : u.lineStands l = s.lineStands l :=
    State.lineStands_of_live (fun m => (congrArg Line.live (State.line_of_lines hmarked.lines_kept m)).trans (s.gateTaken_live l m)) l
  have hread := State.each_reads (g := State.stand) (h := Stand.disarmed) (fun u st m => State.disarm_stand u st m) Stand.disarmed_disarmed
    (u.lineStands l) u st
  rw [if_neg (by rw [hmeasuring]; exact Bool.false_ne_true), hread, if_pos (hstands ▸ h)]
  exact Stand.disarmed_unarmed _

end

/-! ## The break machine at a gate (R99) -/

section
variable {s : State} {l st : Nat}

/-- The first steps of leaving BREAK: the break machine, STOP and the BRAKEs, and the counting state. -/
def State.breakLeft (s : State) (l : Nat) : State :=
  let s1 := (s.modLine l ({ · with inBreak := false, cause := none })).drivePin (.stop l) false
  let s2 := s1.each (s1.lineStands l) fun st s => s.drivePin (.brake st) false
  if (s2.liveJob l).isSome then s2.modLine l ({ · with counting := .makeready }) else s2

theorem State.leaveBreak_eq (s : State) (l : Nat) : s.leaveBreak l =
    let s4 := (s.breakLeft l).each ((s.breakLeft l).lineStands l) fun st u => u.firstStart st
    s4.each (s4.lineStands l) fun st u => u.tryArm st := rfl

theorem State.breakLeft_line (s : State) (l m : Nat) : ∃ k, (s.breakLeft l).line m =
    if m = l then { s.line l with inBreak := false, cause := none, stop := false, counting := k } else s.line m := by
  unfold State.breakLeft
  extract_lets s1 s2
  have h1 : s1.line m = if m = l then { s.line l with inBreak := false, cause := none, stop := false } else s.line m := by
    rw [State.drivePin_line, Law.line_mod]
    dsimp only [Line.driven]
    split <;> rfl
  have h2 : s2.line m = s1.line m :=
    Law.each_other (State.line · m) _ _ (fun st _ u => State.drivePin_line (s := u) (Pin.brake st) false m) s1
  split
  · refine ⟨.makeready, ?_⟩
    rw [Law.line_mod]
    split
    · next h =>
      subst h
      rw [h2, h1, if_pos rfl]
    · next h => rw [h2, h1, if_neg h]
  · refine ⟨(s.line l).counting, ?_⟩
    rw [h2, h1]

theorem State.breakLeft_stand (s : State) (l c : Nat) : ∃ b, (s.breakLeft l).stand c = { s.stand c with brake := b } := by
  unfold State.breakLeft
  extract_lets s1 s2
  have h2 : ∃ b, s2.stand c = { s.stand c with brake := b } := by
    refine State.each_keeps (P := fun u => ∃ b, u.stand c = { s.stand c with brake := b }) (fun st u ⟨b, hb⟩ => ?_) _
      ⟨(s.stand c).brake, State.drivePin_stand (s := s.modLine l _) (Pin.stop l) false c⟩
    rw [State.drivePin_stand, hb]
    dsimp only [Stand.driven]
    split
    · exact ⟨false, rfl⟩
    · exact ⟨b, rfl⟩
  split <;> exact h2

theorem Wr.breakLeft (s : State) (l : Nat) : Wr 2 s (s.breakLeft l) := by
  unfold State.breakLeft
  extract_lets s1 s2
  have h1 : Wr 2 s s1 := State.wr_stop (State.wr_modLine .refl (Nat.le_refl 2) l ({ · with inBreak := false, cause := none }) fun x =>
    ⟨fun _ => ⟨rfl, rfl, rfl, rfl, rfl, rfl, rfl⟩, fun _ => ⟨rfl, rfl, rfl⟩⟩) (Nat.le_refl 2) l false
  have h2 : Wr 2 s s2 := State.wr_each h1 _ _ fun st _ h => State.wr_brake h (by decide) st false
  split
  · exact State.wr_modLine h2 (Nat.le_refl 2) l _ fun x => ⟨fun _ => ⟨rfl, rfl, rfl, rfl, rfl, rfl, rfl⟩, fun _ => ⟨rfl, rfl, rfl⟩⟩
  · exact h2

theorem Wr.firstStarts (s : State) (ns : List Nat) : Wr 1 s (s.each ns fun st u => u.firstStart st) :=
  State.wr_each .refl ns _ fun st _ h => State.wr_firstStart h (by decide) st

theorem Wr.tryArms (s : State) (ns : List Nat) : Wr 0 s (s.each ns fun st u => u.tryArm st) :=
  State.wr_each .refl ns _ fun st _ h => State.wr_tryArm h st

theorem Wr.tryArms_line (s : State) (ns : List Nat) (m : Nat) : (s.each ns fun st u => u.tryArm st).line m = s.line m :=
  State.line_of_lines ((Wr.tryArms s ns).kept_lines (by decide)).1 m

/-- A line after it has left BREAK; the others are as before. -/
theorem State.leaveBreak_line (s : State) (l m : Nat) : ∃ k, (s.leaveBreak l).line m =
    if m = l then { s.line l with inBreak := false, cause := none, stop := false, counting := k } else s.line m := by
  obtain ⟨k, h⟩ := s.breakLeft_line l m
  refine ⟨k, ?_⟩
  rw [State.leaveBreak_eq, Wr.tryArms_line, State.line_of_lines (Wr.firstStarts ..).lines_kept, h]

/-- The break machine of a gate touches its own line alone. -/
theorem State.gateBreak_other {m : Nat} (h : m ≠ l) : (s.gateBreak l).line m = s.line m := by
  have hleft : (s.leaveBreak l).line m = s.line m := by
    obtain ⟨k, hk⟩ := s.leaveBreak_line l m
    rw [hk, if_neg h]
  unfold State.gateBreak
  dsimp only
  split
  · split
    · exact (Law.line_mod ..).trans (if_neg h)
    · split
      · exact hleft
      · rfl
  · rfl

theorem State.gateBreak_low (hbreak : (s.line l).inBreak = true) (hv : (s.line l).v < (s.line l).live.restartSpeed) :
    (s.gateBreak l).line l = { s.line l with lowMark := true } := by
  rw [State.gateBreak]
  dsimp only
  rw [if_pos hbreak, if_pos hv, Law.line_mod, if_pos rfl]

theorem State.gateBreak_leaves (hbreak : (s.line l).inBreak = true) (hv : (s.line l).live.restartSpeed ≤ (s.line l).v)
    (hauto : (s.line l).live.autoRestart = true) (hlow : (s.line l).lowMark = true) (hmay : s.mayLeave l = true) :
    s.gateBreak l = s.leaveBreak l := by
  rw [State.gateBreak, if_pos hbreak, if_neg (Nat.not_lt.mpr hv), hauto, hlow, hmay]
  rfl

/-- A property of a stand that the BRAKE output does not touch and that first starts and arming tests keep holds after a line has left
BREAK. -/
theorem State.leaveBreak_keeps {P : Stand → Prop} {c : Nat} (h : ∀ b, P { s.stand c with brake := b })
    (hfirst : ∀ u st, Wr 2 s u → st ∈ s.lineStands l → P (u.stand c) → P ((u.firstStart st).stand c))
    (harm : ∀ u st, Wr 2 s u → st ∈ s.lineStands l → P (u.stand c) → P ((u.tryArm st).stand c)) : P ((s.leaveBreak l).stand c) := by
  obtain ⟨b, hb⟩ := s.breakLeft_stand l c
  have hstarted : (fun u : State => Wr 2 s u ∧ P (u.stand c)) ((s.breakLeft l).each ((s.breakLeft l).lineStands l) fun st u => u.firstStart st) :=
    State.each_keeps_mem (P := fun u => Wr 2 s u ∧ P (u.stand c))
      (fun st hst u hu => ⟨State.wr_firstStart hu.1 (by decide) st, hfirst u st hu.1 ((Wr.breakLeft s l).lineStands l ▸ hst) hu.2⟩)
      ⟨Wr.breakLeft s l, hb ▸ h b⟩
  rw [State.leaveBreak_eq]
  exact (State.each_keeps_mem (P := fun u => Wr 2 s u ∧ P (u.stand c))
    (fun st hst u hu => ⟨State.wr_tryArm hu.1 st, harm u st hu.1 (hstarted.1.lineStands l ▸ hst) hu.2⟩) hstarted).2

theorem State.gateBreak_keeps {P : Stand → Prop} {c : Nat} (h : ∀ b, P { s.stand c with brake := b }) (hleave : P ((s.leaveBreak l).stand c)) :
    P ((s.gateBreak l).stand c) := by
  have hkept : P (s.stand c) := h (s.stand c).brake
  unfold State.gateBreak
  dsimp only
  split
  · split
    · exact hkept
    · split
      · exact hleave
      · exact hkept
  · exact hkept

end

/-! ## What a gate leaves -/

section
variable {s : State} {l st : Nat}

theorem Wr.gateBreak (s : State) (l : Nat) : Wr 2 s (s.gateBreak l) := State.wr_gateBreak .refl (Nat.le_refl 2) l

theorem Wr.gateMeasured_gate (s : State) (l : Nat) : Wr 2 (s.gateMeasured l) (s.gate l) :=
  State.wr_each (Wr.gateBreak ..) _ _ fun st _ h => State.wr_tryArm h st

theorem Wr.gate (s : State) (l : Nat) : Wr 2 (s.gateTaken l) (s.gate l) :=
  (Wr.gateMeasured (by decide) s l).trans (Wr.gateMeasured_gate s l)

/-- What the gate's first stages leave of a stand, and first starts and arming tests keep, holds after the gate. -/
theorem State.gate_keeps {P : Stand → Prop} {c : Nat} (h : P ((s.gateMeasured l).stand c)) (hbrake : ∀ x b, P x → P { x with brake := b })
    (hfirst : ∀ u st, Wr 2 (s.gateTaken l) u → st ∈ s.lineStands l → P (u.stand c) → P ((u.firstStart st).stand c))
    (harm : ∀ u st, Wr 2 (s.gateTaken l) u → st ∈ s.lineStands l → P (u.stand c) → P ((u.tryArm st).stand c)) : P ((s.gate l).stand c) := by
  have hwr : Wr 2 (s.gateTaken l) (s.gateMeasured l) := Wr.gateMeasured (by decide) s l
  have hstands {u : State} (hu : Wr 2 (s.gateTaken l) u) : u.lineStands l = s.lineStands l :=
    (hu.lineStands l).trans (State.lineStands_of_live (s.gateTaken_live l) l)
  have hbroken : P (((s.gateMeasured l).gateBreak l).stand c) := by
    have hpins (b : Bool) := hbrake _ b h
    refine State.gateBreak_keeps hpins (State.leaveBreak_keeps hpins (fun u st hu hst => ?_) fun u st hu hst => ?_)
    · exact hfirst u st (hwr.trans hu) (hstands hwr ▸ hst)
    · exact harm u st (hwr.trans hu) (hstands hwr ▸ hst)
  have hgate : Wr 2 (s.gateTaken l) ((s.gateMeasured l).gateBreak l) := hwr.trans (Wr.gateBreak ..)
  rw [State.gate_eq]
  exact (State.each_keeps_mem (P := fun u => Wr 2 (s.gateTaken l) u ∧ P (u.stand c))
    (fun st hst u hu => ⟨State.wr_tryArm hu.1 st, harm u st hu.1 (hstands hgate ▸ hst) hu.2⟩) ⟨hgate, hbroken⟩).2

/-- At a speed below the threshold a gate leaves no stand of its line ARMED or MATCHED (R85). -/
theorem State.gate_unarmed (hm : (s.gateTaken l).measuring l = false) (h : st ∈ s.lineStands l) : ((s.gate l).stand st).unarmed := by
  have hlow {u : State} {c : Nat} (hu : Wr 2 (s.gateTaken l) u) (hc : c ∈ s.lineStands l) : u.lineOf c = some l ∧ u.measuring l = false :=
    ⟨(hu.lineOf c).trans ((State.lineOf_of_live (s.gateTaken_live l) c).trans (State.lineOf_of_mem hc)), (hu.measuring l).trans hm⟩
  refine State.gate_keeps (P := Stand.unarmed) (State.gateMeasured_unarmed hm h) (fun _ _ hx => hx) (fun u c hu hc hx => ?_) fun u c hu hc hx => ?_
  · obtain ⟨hline, hstill⟩ := hlow hu hc
    exact State.firstStart_unarmed hline hstill st hx
  · obtain ⟨hline, hstill⟩ := hlow hu hc
    rwa [State.tryArm_still hline hstill]

/-- T_s of a running stand of the line is what the gate's new v makes of it (R66, R67). -/
theorem State.gate_ts (hactive : (s.stand st).active.isSome = true) (h : st ∈ s.lineStands l) :
    ((s.gate l).stand st).ts = (s.gateTaken l).timeToSplice st := by
  have hts : ((s.gateMeasured l).stand st).ts = (s.gateTaken l).timeToSplice st := by
    refine (State.gateMeasured_field Stand.ts (fun _ => rfl) (fun _ _ => rfl) (fun x => ?_) s l st).trans (if_pos h)
    unfold Stand.disarmed
    split <;> rfl
  have hrunning : ((s.gateMeasured l).stand st).active = (s.stand st).active := by
    refine (State.gateMeasured_field Stand.active (fun _ => rfl) (fun _ _ => rfl) (fun x => ?_) s l st).trans (ite_self _)
    unfold Stand.disarmed
    split <;> rfl
  refine (State.gate_keeps (P := fun x => x.ts = (s.gateTaken l).timeToSplice st ∧ x.active.isSome = true)
    ⟨hts, (congrArg Option.isSome hrunning).trans hactive⟩ (fun _ _ hx => hx) (fun u c _ _ hx => ?_) fun u c _ _ hx => ?_).1
  · by_cases hc : st = c
    · subst hc
      rwa [State.firstStart_started hx.2]
    · have hbare := BareStand.firstStart_other u hc
      rw [Law.stand_field_bare Stand.ts (fun _ => rfl) hbare, Law.stand_field_bare Stand.active (fun _ => rfl) hbare]
      exact hx
  · have hwr : Wr 0 u (u.tryArm c) := State.wr_tryArm .refl c
    obtain ⟨-, -, hts, -⟩ := (hwr.kept_stand (by decide) st).2 (by decide)
    rw [hts, hwr.active]
    exact hx

theorem State.gateMeasured_line (s : State) (l m : Nat) : (s.gateMeasured l).line m = (s.gateTaken l).line m :=
  State.line_of_lines (Wr.gateMeasured (Nat.le_refl 1) s l).lines_kept m

theorem State.gate_line (s : State) (l m : Nat) : (s.gate l).line m = ((s.gateMeasured l).gateBreak l).line m := by
  rw [State.gate_eq, Wr.tryArms_line]

theorem State.gate_other {m : Nat} (h : m ≠ l) : (s.gate l).line m = s.line m := by
  rw [State.gate_line, State.gateBreak_other h, State.gateMeasured_line, State.gateTaken_line, if_neg h]

theorem State.gateMeasured_mayLeave (s : State) (l : Nat) : (s.gateMeasured l).mayLeave l = s.mayLeave l := by
  have hline : ((s.gateMeasured l).line l).enables = (s.line l).enables ∧ ((s.gateMeasured l).line l).jam = (s.line l).jam := by
    rw [State.gateMeasured_line, State.gateTaken_line, if_pos rfl]
    exact ⟨rfl, rfl⟩
  have hwr : Wr 2 (s.gateTaken l) (s.gateMeasured l) := Wr.gateMeasured (by decide) s l
  have hstands : (s.gateMeasured l).lineStands l = s.lineStands l :=
    (hwr.lineStands l).trans (State.lineStands_of_live (s.gateTaken_live l) l)
  have hweb (c : Nat) : ((s.gateMeasured l).stand c).webBreak = (s.stand c).webBreak := by
    refine (State.gateMeasured_field Stand.webBreak (fun _ => rfl) (fun _ _ => rfl) (fun x => ?_) s l c).trans (ite_self _)
    unfold Stand.disarmed
    split <;> rfl
  have hrunout (c : Nat) : ((s.gateMeasured l).stand c).runout = (s.stand c).runout := by
    refine (State.gateMeasured_field Stand.runout (fun _ => rfl) (fun _ _ => rfl) (fun x => ?_) s l c).trans (ite_self _)
    unfold Stand.disarmed
    split <;> rfl
  simp only [State.mayLeave, State.pinActive, State.runoutActive, hline, hstands, hweb, hrunout]

/-- T_s of a stand with a running roll, as the gate's v makes it (R66). -/
theorem State.gateTaken_timeToSplice {n d : Nat} {r : Roll} {p : Position} (hr : s.runningRoll st = some (n, r)) (hd : (s.stand st).df = some d)
    (hp : s.positionOf st = some (l, p)) : (s.gateTaken l).timeToSplice st = if ((s.gateTaken l).line l).v < 20 then 65535
      else min 65535 (((s.grade r.grade).length d - (s.grade r.grade).length p.dt) * 60 / ((s.gateTaken l).line l).v) := by
  have hposition : (s.gateTaken l).positionOf st = some (l, p) := by
    rw [← hp]
    simp only [State.positionOf, s.gateTaken_live l]
  have hgrade : (s.gateTaken l).runningGrade st = some (s.grade r.grade) :=
    (congrArg (Option.map fun e : Nat × Roll => s.grade e.2.grade) hr :)
  have hdf : ((s.gateTaken l).stand st).df = some d := hd
  have hlength : (s.gateTaken l).runLength st = some ((s.grade r.grade).length d - (s.grade r.grade).length p.dt) := by
    rw [State.runLength, hposition, hgrade, hdf]
  rw [State.timeToSplice, State.lineOf_of_position hposition, hlength]
  dsimp only
  rw [State.measuring]
  by_cases hv : ((s.gateTaken l).line l).v < 20
  · rw [if_pos hv, if_neg (by simpa [Config.measuringThreshold] using hv)]
  · rw [if_neg hv, if_pos (by simpa [Config.measuringThreshold] using hv)]

end

/-- Settles O33: the web counter, the speed of a gate, T_s, and what a new speed does to stands and break. -/
theorem gateExpiryMeasuresTheSpeed : Obligations.GateExpiryMeasuresTheSpeed := by
  unfold Obligations.GateExpiryMeasuresTheSpeed
  refine ⟨fun s l hawake hlow hhigh => ?_, fun s l v hawake hlow hhigh hle hlt => ?_⟩
  · refine (eventIf_taken (p := fun _ => lineOk l) (f := fun u => u.modLine l fun x => { x with web := x.web + 1 }) hawake
      (lineOk_iff.mpr ⟨hlow, hhigh⟩)).trans ?_
    rw [State.finish_idle rfl]
    rfl
  · have hexec : exec (.gateExpiry l) s = .next (s.fresh.gate l).finish :=
      eventIf_taken (p := fun _ => lineOk l) (f := fun u => u.gate l) hawake (lineOk_iff.mpr ⟨hlow, hhigh⟩)
    have htaken : (s.fresh.gateTaken l).line l = { s.line l with v := min 1200 v, gateWeb := (s.line l).web } := by
      rw [State.gateTaken_line, if_pos rfl, gateSpeed]
      exact congrArg (fun n => { s.line l with v := min 1200 n, gateWeb := (s.line l).web }) (roundHalfUp_eq hle hlt)
    have hline (m : Nat) : ((s.fresh.gate l).finish).line m = (s.fresh.gate l).line m :=
      State.line_of_lines ((State.finish_writes _).kept_lines (by decide)).1 m
    have hfield {α : Type} (g : Stand → α) (hg : ∀ x, g (Law.withoutCallOffs x) = g x) (c : Nat) :
        g (((s.fresh.gate l).finish).stand c) = g ((s.fresh.gate l).stand c) := Law.stand_field_bare g hg (BareStand.finish ..)
    obtain ⟨-, -, -, hweb, hgate, hv, -⟩ := ((Wr.gate s.fresh l).kept_line (by decide) l).1 (by decide)
    rw [htaken] at hweb hgate hv
    have hmeasured : (s.fresh.gateMeasured l).line l = { s.line l with v := min 1200 v, gateWeb := (s.line l).web } :=
      (State.gateMeasured_line ..).trans htaken
    refine ⟨_, hexec, ?_, ?_, ?_, fun m hm => ?_, fun hv st hst => ?_, fun st hst n r d m p hr hd hp => ?_, fun hb hv => ?_,
      fun hb hv ha hl hmay => ?_⟩
    · rw [hline, hv]
    · rw [hline, hweb]
    · rw [hline, hgate]
    · rw [hline, State.gate_other hm]
      rfl
    · have hm : (s.fresh.gateTaken l).measuring l = false := by
        rw [State.measuring, htaken]
        exact decide_eq_false (by show ¬ 20 ≤ min 1200 v; omega)
      exact Stand.unarmed_of_seq (hfield Stand.seq (fun _ => rfl) st) (State.gate_unarmed hm hst)
    · have hm : m = l := Option.some.inj ((State.lineOf_of_position hp).symm.trans (State.lineOf_of_mem hst))
      subst hm
      have hactive : (s.stand st).active.isSome = true := by
        obtain ⟨a, ha, -⟩ := Option.bind_eq_some_iff.mp hr
        rw [ha]
        rfl
      rw [hfield Stand.ts (fun _ => rfl) st, State.gate_ts (s := s.fresh) hactive hst, State.gateTaken_timeToSplice (s := s.fresh) hr hd hp, htaken]
      by_cases hv : v < 20
      · rw [if_pos hv, if_pos (by show min 1200 v < 20; omega)]
      · rw [if_neg hv, if_neg (by show ¬ min 1200 v < 20; omega)]
        rfl
    · rw [hline, State.gate_line, State.gateBreak_low (by rwa [hmeasured]) (by rwa [hmeasured]), hmeasured]
      exact ⟨rfl, hb⟩
    · have hleaves : (s.fresh.gateMeasured l).gateBreak l = (s.fresh.gateMeasured l).leaveBreak l :=
        State.gateBreak_leaves (by rwa [hmeasured]) (by rwa [hmeasured]) (by rwa [hmeasured]) (by rwa [hmeasured])
          ((State.gateMeasured_mayLeave ..).trans hmay)
      obtain ⟨k, hk⟩ := (s.fresh.gateMeasured l).leaveBreak_line l l
      rw [hline, State.gate_line, hleaves, hk, if_pos rfl]
      exact ⟨rfl, rfl, rfl⟩

end Sys2Proof.Machine
end

section
/-! What the break machine and the splice sequence leave of an URGENT order (R91, R126): the order of a call-off stays URGENT through
arming, a splice, an entry into BREAK and a new T_s. -/

namespace Sys2Proof.Machine

/-! ## Operations that write no order -/

section
variable (s : State) (st l : Nat)

theorem State.lateTest_orders : (s.lateTest st).orders = s.orders := by
  unfold State.lateTest
  dsimp only
  split
  · exact State.raise_orders ..
  · rfl

theorem State.tryArm_orders : (s.tryArm st).orders = s.orders := by
  unfold State.tryArm
  split
  · rw [State.lateTest_orders, State.drivePin_orders]
    rfl
  · rfl

theorem State.disarm_orders : (s.disarm st).orders = s.orders := by
  unfold State.disarm
  dsimp only
  split
  · exact State.drivePin_orders ..
  · rfl

theorem State.modJobAt_orders (j : Option Nat) (f : Job → Job) : (s.modJobAt j f).orders = s.orders := by
  obtain ⟨t, ht⟩ := s.modJobAt_only j f
  rw [ht]

theorem State.spliceEvent_orders : (s.spliceEvent l).orders = s.orders := by
  unfold State.spliceEvent
  dsimp only
  split
  · rfl
  · split <;> exact State.modJobAt_orders ..
  all_goals exact State.modJobAt_orders ..

theorem State.countBreak_orders : (s.countBreak l).orders = s.orders := by
  unfold State.countBreak
  split
  · exact State.modJob_orders ..
  · rfl

theorem State.armsSwapped_orders (a b : Arm) (old new : Nat) (job : Option Nat) : (s.armsSwapped st a b old new job).orders = s.orders := by
  simp [State.armsSwapped, State.seedDiameter, State.startMove, State.expire, State.setArm, State.dropPasteDrive]

end

/-! ## An URGENT order stays URGENT (R126) -/

section
variable {s t : State} {n m st l : Nat}

/-- An order is live and URGENT. -/
def State.urgentOrder (s : State) (n : Nat) : Prop := ∃ q, s.order n = some q ∧ q.cls = .urgent

theorem State.urgentOrder.of_orders (h : s.urgentOrder n) (ho : t.orders = s.orders) : t.urgentOrder n := by
  rwa [State.urgentOrder, State.order, ho]

theorem State.urgentOrder.modOrder (h : s.urgentOrder n) (f : Order → Order) (hf : ∀ q, q.cls = .urgent → (f q).cls = .urgent) :
    (s.modOrder m f).urgentOrder n := by
  obtain ⟨q, hq, hcls⟩ := h
  by_cases hn : n = m
  · subst hn
    exact ⟨f q, by rw [Law.order_mod, if_pos rfl, hq]; rfl, hf q hcls⟩
  · exact ⟨q, by rw [Law.order_mod, if_neg hn, hq], hcls⟩

theorem State.urgentOrder.makeUrgent (h : s.urgentOrder n) (m : Nat) : (s.makeUrgent m).urgentOrder n := by
  unfold State.makeUrgent
  split
  · split
    · dsimp only
      split
      · exact h.modOrder _ fun _ _ => rfl
      · exact h.modOrder _ fun _ _ => rfl
    · exact h
  · exact h

theorem State.urgentOrder.testUrgent (h : s.urgentOrder n) (m : Nat) : (s.testUrgent m).urgentOrder n := by
  unfold State.testUrgent
  split
  · split
    · exact h.makeUrgent m
    · exact h
  · exact h

theorem State.urgentOrder.recomputeDeadlines (h : s.urgentOrder n) (st : Nat) : (s.recomputeDeadlines st).urgentOrder n := by
  unfold State.recomputeDeadlines
  split
  · refine State.each_keeps (P := (·.urgentOrder n)) (fun m u hu => ?_) _ h
    split
    · split
      · exact hu
      · refine State.urgentOrder.testUrgent (hu.modOrder _ ?_) m
        exact fun _ hq => hq
    · exact hu
  · exact h

theorem State.urgentOrder.handTs (h : s.urgentOrder n) (st : Nat) : (s.handTs st).urgentOrder n := by
  obtain ⟨q, hq, hcls⟩ := h
  exact State.urgentOrder.recomputeDeadlines ⟨q, State.evalCallOff_order_live hq, hcls⟩ st

theorem State.urgentOrder.afterStart (h : s.urgentOrder n) (st : Nat) : (s.afterStart st).urgentOrder n :=
  State.urgentOrder.of_orders (State.urgentOrder.handTs (s := (s.restartMark st).writeTs st) h st) (State.tryArm_orders ..)

theorem State.urgentOrder.splice (h : s.urgentOrder n) (st : Nat) : (s.splice st).urgentOrder n := by
  rcases s.splice_cases st with hnone | ⟨a, b, old, new, job, u, hu, hsplice⟩
  · rwa [hnone]
  · rw [hsplice]
    have hswapped : u.orders = s.orders := by
      rcases hu with rfl | ⟨m, rfl⟩
      · exact State.armsSwapped_orders ..
      · rw [State.spliceEvent_orders, State.armsSwapped_orders]
    exact State.urgentOrder.afterStart (s := u.modStand st _) (h.of_orders hswapped) st

/-- A call-off of the other arm is URGENT once its stand has run out (R91). -/
theorem State.urgentOrder_makeUrgent {q : Order} (hq : s.order n = some q) (hkind : q.kind = .callOff) (habort : q.abort = false)
    (hstate : q.state ≠ .failed) : (s.makeUrgent n).urgentOrder n := by
  unfold State.makeUrgent
  rw [hq]
  dsimp only
  by_cases hcls : q.cls = .urgent
  · rw [if_neg fun hc => hc.2.1 hcls]
    exact ⟨q, hq, hcls⟩
  · rw [if_pos ⟨hkind, hcls, habort, hstate⟩]
    have hmade : (s.modOrder n ({ · with cls := .urgent })).urgentOrder n :=
      ⟨{ q with cls := .urgent }, by rw [Law.order_mod, if_pos rfl, hq]; rfl, rfl⟩
    split
    · exact hmade
    · exact hmade

theorem State.urgentOrder.breakSteps (h : s.urgentOrder n) (l : Nat) (c : Cause) : (s.breakSteps l c).urgentOrder n := by
  refine State.breakSteps_keeps (P := (·.urgentOrder n)) ?_ (fun u hu => hu.of_orders (u.countBreak_orders l))
    (fun u v st _ _ hv => hv.of_orders (v.disarm_orders st)) (fun u v st _ _ hv => hv.splice st)
    (fun u v st _ _ hv => hv.of_orders (State.drivePin_orders ..)) (fun u hu => hu.of_orders (State.raise_orders ..))
  rw [State.breakEntered]
  exact h.of_orders (State.drivePin_orders ..)

/-! ## A stand that has run out stays so through the entry into BREAK (R91, R98) -/

/-- A stand that has run out at a diameter, and does not paste. -/
def Stand.ranOut (d : Nat) (x : Stand) : Prop := x.df = some d ∧ x.runout = true ∧ x.seq ≠ .pasting

variable {d : Nat}

theorem Stand.ranOut.disarmed {x : Stand} (h : x.ranOut d) : x.disarmed.ranOut d := by
  unfold Stand.disarmed
  split
  · exact ⟨h.1, h.2.1, nofun⟩
  · exact h

theorem Stand.ranOut_of_bare (hs : (s.stand st).ranOut d) (h : Law.standBare st t = Law.standBare st s) : (t.stand st).ranOut d := by
  rw [Stand.ranOut, Law.stand_field_bare Stand.df (fun _ => rfl) h, Law.stand_field_bare Stand.runout (fun _ => rfl) h,
    Law.stand_field_bare Stand.seq (fun _ => rfl) h]
  exact hs

theorem State.breakSteps_ranOut (h : (s.stand st).ranOut d) (l : Nat) (c : Cause) : ((s.breakSteps l c).stand st).ranOut d := by
  refine State.breakSteps_keeps (P := fun u => (u.stand st).ranOut d) ?_ (fun u hu => ?_) (fun u v k _ _ hv => ?_) (fun u v k hu hk hv => ?_)
    (fun u v k _ _ hv => ?_) (fun u hu => hu)
  · rw [State.breakEntered, State.drivePin_stand]
    exact h
  · exact Stand.ranOut_of_bare hu (BareStand.stands (u.countBreak_stands l) st)
  · rw [State.disarm_stand]
    split
    · exact hv.disarmed
    · exact hv
  · by_cases hst : st = k
    · exact absurd (hst ▸ hk) hu.2.2
    · exact Stand.ranOut_of_bare hv (BareStand.splice_other v hst)
  · rw [State.drivePin_stand]
    dsimp only [Stand.driven]
    split
    · exact hv
    · exact hv

end

end Sys2Proof.Machine
end

section
/-! Proofs about the diameter filter (R69 to R74): the measured diameter, the rejects, and what an accepted sample writes. -/

namespace Sys2Proof.Machine

/-! ## The measured diameter and the filter's step (R69, R70) -/

theorem roundHalfUp_ge {a b n : Nat} (hb : 0 < b) (h : 2 * n * b ≤ 2 * a + b) : n ≤ roundHalfUp a b := by
  refine (Nat.le_div_iff_mul_le (Nat.mul_pos Nat.two_pos hb)).mpr ?_
  calc n * (2 * b) = 2 * n * b := by ring
    _ ≤ 2 * a + b := h

/-- The diameter of a pair is the quotient rounded half up, at most 15000. -/
theorem measuredDiameter_eq {w lam q new : Nat} (hq : 0 < q) (hmax : new ≤ 15000)
    (hlt : new < 15000 → 2 * (w * lam * 452) + q * 35500 < 2 * (new + 1) * (q * 35500))
    (hle : 2 * new * (q * 35500) ≤ 2 * (w * lam * 452) + q * 35500) : measuredDiameter w lam q = new := by
  unfold measuredDiameter
  rcases Nat.lt_or_eq_of_le hmax with hnew | hnew
  · rw [roundHalfUp_eq hle (hlt hnew)]
    exact Nat.min_eq_right hmax
  · rw [hnew] at hle
    rw [hnew]
    exact Nat.min_eq_left (roundHalfUp_ge (by omega) hle)

/-- The excess over four, rounded up, taken off D_f. -/
theorem filtered_eq {df new core k : Nat} (hlt : 4 * k < df - new + 4) (hle : df - new ≤ 4 * k) : filtered df new core = max core (df - k) := by
  rw [filtered, show (df - new + 3) / 4 = k by omega]

/-! ## Classifying a sample (R69 to R72) -/

section
variable {s : State} {st l n df new : Nat} {r : Roll} {c d : Capture} {a b : BitVec 24}

theorem State.diameterSample_eq (hl : s.lineOf st = some l) (hc : c.web = some a) (hd : d.web = some b) : s.diameterSample st c d =
    if s.measuring l ∧ 16 ≤ (b - a).toNat then
      s.classify st l (measuredDiameter (b - a).toNat (s.line l).lam (4 * (s.stand st).k / (s.stand st).m))
    else s := by
  rw [State.diameterSample, hl, hc, hd]
  rfl

theorem State.classify_eq (hr : s.runningRoll st = some (n, r)) (hdf : (s.stand st).df = some df) : s.classify st l new =
    if df < new then s.rejectUp st
    else if df ≤ new + (s.line l).w then s.acceptDiameter st l df (filtered df new (s.grade r.grade).core)
    else s.rejectDown st l df new (s.grade r.grade).core := by
  have hg : s.runningGrade st = some (s.grade r.grade) := by rw [State.runningGrade, hr]; rfl
  rw [State.classify, hdf, hg]

/-- A run of no rejects counts the first one as a new run does. -/
theorem RejectRun.count_next (x : RejectRun) (dir : Dir) (top : Nat → Nat) (htop : top 1 = 1) :
    (if x.dir = dir ∧ 0 < x.count then top (x.count + 1) else 1) = if x.dir = dir then top (x.count + 1) else 1 := by
  by_cases hzero : x.count = 0
  · simp [hzero, htop]
  · simp [Nat.pos_of_ne_zero hzero]

theorem State.rejectUp_eq (s : State) (st : Nat) : s.rejectUp st =
    let up := if (s.stand st).run.dir = .up then min 3 ((s.stand st).run.count + 1) else 1
    let t := s.setStand st { s.stand st with run := ⟨.up, up⟩ }
    if up = 3 then t.setLost st .suspect else t := by
  rw [← RejectRun.count_next _ _ (min 3) rfl]
  rfl

theorem State.rejectDown_eq (s : State) (st l before new core : Nat) : s.rejectDown st l before new core =
    let down := if (s.stand st).run.dir = .down then (s.stand st).run.count + 1 else 1
    if 3 ≤ down then s.acceptDiameter st l before (max new core) else s.setStand st { s.stand st with run := ⟨.down, down⟩ } := by
  have hcount := RejectRun.count_next (s.stand st).run .down id rfl
  dsimp only [id] at hcount
  rw [← hcount]
  rfl

/-- The third upward reject in a row sets MEASURE_LOST SUSPECT; D_f and the run stay. -/
theorem State.setStand_setLost_stand (s : State) (st : Nat) (x : Stand) (k : LostCause) :
    ((s.setStand st x).setLost st k).stand st = Stand.disarmed { x with measureLost := some k } := by
  have hdisarmed : ((s.setStand st { x with measureLost := some k }).disarm st).stand st = Stand.disarmed { x with measureLost := some k } := by
    rw [State.disarm_stand, if_pos rfl, State.stand_setStand_same]
  rw [State.setStand_setLost]
  dsimp only
  split <;> exact hdisarmed

end

/-! ## What an accepted sample writes (R73, R74) -/

section
variable {s : State} {st l n before after : Nat} {r : Roll}

/-- An accepted sample written in one update: D_f, the run, the roll's diameter, the charge, MEASURE_LOST and T_s. -/
def State.accepted (s : State) (st l n : Nat) (r : Roll) (before after : Nat) : State :=
  let s2 := (s.modStand st ({ · with df := some after, run := .clear })).modRoll n ({ · with diameter := after })
  let s3 := if after = before then s2 else s2.chargeConsumption l n r before after
  (s3.modStand st ({ · with measureLost := none })).writeTs st

/-- The tests of the splice sequence after a new D_f (R84, R87, R90). -/
def State.tested (s : State) (st : Nat) : State := ((s.tryArm st).pasteTest st).lateTest st

theorem State.acceptDiameter_eq (hr : s.runningRoll st = some (n, r)) : s.acceptDiameter st l before after =
    (((s.accepted st l n r before after).tested st).runoutTest st).handTs st := by
  rw [State.acceptDiameter, hr]
  rfl

/-- A charge of consumption writes rolls and jobs alone. -/
theorem State.chargeConsumption_only (s : State) (l n : Nat) (r : Roll) (before after : Nat) :
    ∃ rolls jobs, s.chargeConsumption l n r before after = { s with rolls := rolls, jobs := jobs } := by
  obtain ⟨rolls, hrolls⟩ := s.modRoll_only n fun x =>
    { x with consumed := min Config.max16 (x.consumed + ((s.grade r.grade).length before - (s.grade r.grade).length after)) }
  unfold State.chargeConsumption
  dsimp only
  rw [hrolls]
  obtain ⟨jobs, hjobs⟩ := State.modJobAt_only { s with rolls := rolls } (s.liveJob l) (Job.chargeConsumed
    ((s.grade r.grade).length before - (s.grade r.grade).length after)
    ((s.grade r.grade).grams ((s.grade r.grade).length before - (s.grade r.grade).length after) r.width))
  exact ⟨rolls, jobs, hjobs⟩

theorem State.modJobAt_rolls (s : State) (j : Option Nat) (f : Job → Job) : (s.modJobAt j f).rolls = s.rolls := by
  obtain ⟨t, ht⟩ := s.modJobAt_only j f
  rw [ht]

theorem State.chargeConsumption_roll (s : State) (l n : Nat) (r : Roll) (before after m : Nat) :
    (s.chargeConsumption l n r before after).roll m = if m = n then (s.roll n).map fun x => { x with
      consumed := min 65535 (x.consumed + ((s.grade r.grade).length before - (s.grade r.grade).length after)) } else s.roll m := by
  unfold State.chargeConsumption
  dsimp only
  rw [State.roll, State.modJobAt_rolls]
  exact roll_modRoll ..

theorem State.chargeConsumption_job {j : Job} {m : Nat} (hm : s.liveJob l = some m) (hj : s.job m = some j) :
    (s.chargeConsumption l n r before after).job m = some (j.chargeConsumed ((s.grade r.grade).length before - (s.grade r.grade).length after)
      ((s.grade r.grade).grams ((s.grade r.grade).length before - (s.grade r.grade).length after) r.width)) := by
  unfold State.chargeConsumption
  dsimp only
  rw [hm, State.job_modJobAt_some, State.job, State.modRoll_jobs]
  exact congrArg (Option.map _) hj

/-- D_f and the roll's diameter written, and the fall charged. -/
def State.charged (s : State) (st l n : Nat) (r : Roll) (before after : Nat) : State :=
  let s2 := (s.modStand st ({ · with df := some after, run := .clear })).modRoll n ({ · with diameter := after })
  if after = before then s2 else s2.chargeConsumption l n r before after

theorem State.accepted_eq (s : State) (st l n : Nat) (r : Roll) (before after : Nat) :
    s.accepted st l n r before after = ((s.charged st l n r before after).modStand st ({ · with measureLost := none })).writeTs st := rfl

theorem State.charged_only (s : State) (st l n : Nat) (r : Roll) (before after : Nat) : ∃ rolls jobs, s.charged st l n r before after =
    { s.setStand st { s.stand st with df := some after, run := .clear } with rolls := rolls, jobs := jobs } := by
  unfold State.charged
  dsimp only
  obtain ⟨rolls, hrolls⟩ := State.modRoll_only (s.modStand st ({ · with df := some after, run := .clear })) n ({ · with diameter := after })
  rw [hrolls]
  split
  · exact ⟨rolls, _, rfl⟩
  · obtain ⟨rolls', jobs, hcharge⟩ := State.chargeConsumption_only
      { s.modStand st ({ · with df := some after, run := .clear }) with rolls := rolls } l n r before after
    exact ⟨rolls', jobs, hcharge⟩

theorem State.accepted_tables (s : State) (st l n : Nat) (r : Roll) (before after : Nat) : (s.accepted st l n r before after).lines = s.lines ∧
    (s.accepted st l n r before after).orders = s.orders ∧ (s.accepted st l n r before after).grades = s.grades := by
  obtain ⟨rolls, jobs, h⟩ := s.charged_only st l n r before after
  rw [State.accepted_eq, h]
  exact ⟨rfl, rfl, rfl⟩

/-- The stand of an accepted sample (R73). -/
theorem State.accepted_stand (s : State) (st l n : Nat) (r : Roll) (before after : Nat) : ∃ ts, (s.accepted st l n r before after).stand st =
    { s.stand st with df := some after, run := .clear, measureLost := none, ts := ts } := by
  obtain ⟨rolls, jobs, h⟩ := s.charged_only st l n r before after
  have hcharged : (s.charged st l n r before after).stand st = { s.stand st with df := some after, run := .clear } := by
    rw [h]
    exact State.stand_setStand_same ..
  rw [State.accepted_eq]
  generalize s.charged st l n r before after = u at hcharged
  refine ⟨(u.modStand st ({ · with measureLost := none })).timeToSplice st, ?_⟩
  rw [State.writeTs, Law.stand_mod, if_pos rfl, Law.stand_mod, if_pos rfl, hcharged]

/-- The rolls of an accepted sample: its own at the new diameter, with the fall of length charged (R73, R74). -/
theorem State.accepted_roll (hroll : s.roll n = some r) (m : Nat) : (s.accepted st l n r before after).roll m =
    if m = n then some { r with
      diameter := after,
      consumed := if after = before then r.consumed
        else min 65535 (r.consumed + ((s.grade r.grade).length before - (s.grade r.grade).length after)) }
    else s.roll m := by
  have hset (k : Nat) : ((s.modStand st ({ · with df := some after, run := .clear })).modRoll n ({ · with diameter := after })).roll k =
      if k = n then some { r with diameter := after } else s.roll k := by
    rw [roll_modRoll, State.roll_modStand, hroll]
    rfl
  have hgrades : ((s.modStand st ({ · with df := some after, run := .clear })).modRoll n ({ · with diameter := after })).grades = s.grades :=
    State.modRoll_grades ..
  show (s.charged st l n r before after).roll m = _
  unfold State.charged
  dsimp only
  generalize State.modRoll _ n _ = u at hset hgrades
  by_cases hsame : after = before
  · rw [if_pos hsame, if_pos hsame, hset]
  · rw [if_neg hsame, if_neg hsame, State.chargeConsumption_roll, hset, hset, if_pos rfl, State.grade, hgrades]
    by_cases hm : m = n
    · rw [if_pos hm, if_pos hm]
      rfl
    · rw [if_neg hm, if_neg hm, if_neg hm]

/-- The live job of the line is charged the fall of length and its grams (R74). -/
theorem State.accepted_job {j : Job} {m : Nat} (hm : s.liveJob l = some m) (hj : s.job m = some j) :
    (s.accepted st l n r before after).job m = some (if after = before then j
      else j.chargeConsumed ((s.grade r.grade).length before - (s.grade r.grade).length after)
        ((s.grade r.grade).grams ((s.grade r.grade).length before - (s.grade r.grade).length after) r.width)) := by
  obtain ⟨rolls, hset⟩ := State.modRoll_only (s.modStand st ({ · with df := some after, run := .clear })) n ({ · with diameter := after })
  show (s.charged st l n r before after).job m = _
  unfold State.charged
  dsimp only
  rw [hset]
  by_cases hsame : after = before
  · rw [if_pos hsame, if_pos hsame]
    exact hj
  · rw [if_neg hsame, if_neg hsame]
    exact State.chargeConsumption_job (s := { s.modStand st ({ · with df := some after, run := .clear }) with rolls := rolls }) hm hj

end

end Sys2Proof.Machine
end

section
/-! Proofs about what a new D_f leads to (R84, R87, R90, R91): the tests of the splice sequence, the runout, and the statement about the
diameter filter. -/

namespace Sys2Proof.Machine

/-! ## The tests of the splice sequence -/

section
variable {s : State} {st l n : Nat}

theorem Wr.tested (s : State) (st : Nat) : Wr 0 s (s.tested st) := State.wr_lateTest (State.wr_pasteTest (State.wr_tryArm .refl st) st) st

theorem State.pasteTest_rolls (s : State) (st : Nat) : (s.pasteTest st).rolls = s.rolls := by
  unfold State.pasteTest
  split
  · exact State.drivePin_rolls ..
  · rfl

theorem State.pasteTest_orders (s : State) (st : Nat) : (s.pasteTest st).orders = s.orders := by
  unfold State.pasteTest
  split
  · exact State.drivePin_orders ..
  · rfl

theorem State.tested_rolls (s : State) (st : Nat) : (s.tested st).rolls = s.rolls := by
  rw [State.tested, State.lateTest_rolls, State.pasteTest_rolls, State.tryArm_rolls]

theorem State.tested_orders (s : State) (st : Nat) : (s.tested st).orders = s.orders := by
  rw [State.tested, State.lateTest_orders, State.pasteTest_orders, State.tryArm_orders]

/-- What the runout test reads of a stand beside its state: D_f, the runout flag, the offset and the arms. -/
def Stand.runoutView (x : Stand) : Option Nat × Bool × Nat × ArmRec × ArmRec := (x.df, x.runout, x.offset, x.armA, x.armB)

theorem State.lateTest_field {α : Type} (g : Stand → α) (hlate : ∀ x : Stand, g { x with late := true } = g x) (s : State) (st : Nat) :
    g ((s.lateTest st).stand st) = g (s.stand st) := by
  unfold State.lateTest
  dsimp only
  split
  · exact Law.stand_field_mod g s st st ({ · with late := true }) hlate
  · rfl

theorem State.tested_view (s : State) (st : Nat) : ((s.tested st).stand st).runoutView = (s.stand st).runoutView := by
  have hpin (u : State) (p : Pin) (b : Bool) : ((u.drivePin p b).stand st).runoutView = (u.stand st).runoutView :=
    Law.stand_field_pin Stand.runoutView u p b st (fun _ => rfl) (fun _ => rfl) fun _ => rfl
  have harm : ((s.tryArm st).stand st).runoutView = (s.stand st).runoutView := by
    unfold State.tryArm
    split
    · rw [State.lateTest_field Stand.runoutView fun _ => rfl, hpin]
      exact Law.stand_field_mod Stand.runoutView s st st _ fun _ => rfl
    · rfl
  have hpaste (u : State) : ((u.pasteTest st).stand st).runoutView = (u.stand st).runoutView := by
    unfold State.pasteTest
    split
    · exact (hpin ..).trans (Law.stand_field_mod Stand.runoutView u st st _ fun _ => rfl)
    · rfl
  rw [State.tested, State.lateTest_field Stand.runoutView fun _ => rfl, hpaste, harm]

/-- A stand in RUNNING or ARMED is so after the tests. -/
theorem State.tested_seq (h : (s.stand st).seq = .running ∨ (s.stand st).seq = .armed) :
    ((s.tested st).stand st).seq = .running ∨ ((s.tested st).stand st).seq = .armed := by
  have harm : ((s.tryArm st).stand st).seq = .running ∨ ((s.tryArm st).stand st).seq = .armed := by
    unfold State.tryArm
    split
    · rw [State.lateTest_field Stand.seq fun _ => rfl, State.drivePin_stand, Law.stand_mod, if_pos rfl]
      dsimp only [Stand.driven]
      split
      · exact .inr rfl
      · exact .inr rfl
    · exact h
  have hwait : ((s.tryArm st).stand st).seq ≠ .matched := by rcases harm with h | h <;> rw [h] <;> nofun
  rw [State.tested, State.pasteTest_waits (.inl hwait), State.lateTest_field Stand.seq fun _ => rfl]
  exact harm

end

/-! ## The runout (R91) -/

section
variable {s : State} {st l n d : Nat}

/-- A stand marked run out, with the call-off of its other arm made URGENT. -/
def State.runOut (s : State) (st : Nat) : State := (s.modStand st ({ · with runout := true })).urgentAtRunout st

theorem State.runoutTest_eq (hl : s.lineOf st = some l) : s.runoutTest st =
    if ((s.stand st).seq = .running ∨ (s.stand st).seq = .armed ∨ (s.stand st).seq = .matched) ∧
        atOrBelow (s.stand st).df (s.dMin st) ∧ (s.stand st).runout = false then
      if ((s.runOut st).line l).enables.runout then (s.runOut st).sourceActive l (.runout st) else s.runOut st
    else s := by
  rw [State.runoutTest, hl]
  rfl

theorem State.urgentAtRunout_stands (s : State) (st : Nat) : (s.urgentAtRunout st).stands = s.stands := by
  unfold State.urgentAtRunout
  dsimp only
  split
  · exact StandsAfter.makeUrgent ..
  · rfl

theorem State.urgentAtRunout_rolls (s : State) (st : Nat) : (s.urgentAtRunout st).rolls = s.rolls := by
  unfold State.urgentAtRunout
  dsimp only
  split
  · exact RollsAfter.makeUrgent ..
  · rfl

theorem State.runOut_stand (s : State) (st : Nat) : (s.runOut st).stand st = { s.stand st with runout := true } := by
  rw [State.runOut, State.stand, State.urgentAtRunout_stands]
  exact (Law.stand_mod ..).trans (if_pos rfl)

theorem State.runOut_rolls (s : State) (st : Nat) : (s.runOut st).rolls = s.rolls := State.urgentAtRunout_rolls ..

theorem State.runOut_tables (s : State) (st : Nat) : (s.runOut st).lines = s.lines ∧ (s.runOut st).jobs = s.jobs :=
  (State.wr_urgentAtRunout (k := 0) .refl st).kept_lines (by decide)

/-- The live call-off of the other arm is URGENT at a runout (R91, R126). -/
theorem State.runOut_urgent {a : Arm} {o : Nat} {q : Order} (ha : (s.stand st).active = some a)
    (ho : ((s.stand st).arm a.other).callOff = some o) (hq : s.order o = some q) (hkind : q.kind = .callOff) (habort : q.abort = false)
    (hstate : q.state ≠ .failed) : (s.runOut st).urgentOrder o := by
  have hstand : (s.modStand st ({ · with runout := true })).stand st = { s.stand st with runout := true } :=
    (Law.stand_mod ..).trans (if_pos rfl)
  have hlink : (((s.modStand st ({ · with runout := true })).stand st).active.bind
      fun b => (((s.modStand st ({ · with runout := true })).stand st).arm b.other).callOff) = some o := by
    rw [hstand]
    exact (congrArg (Option.bind · fun b : Arm => ((s.stand st).arm b.other).callOff) ha).trans ho
  rw [State.runOut, State.urgentAtRunout, hlink]
  exact State.urgentOrder_makeUrgent (s := s.modStand st ({ · with runout := true })) hq hkind habort hstate

/-- A line with no changeover pending enters BREAK by the steps of R98 alone. -/
theorem State.enterBreak_plain {c : Cause} (h : (s.line l).pending = false) : s.enterBreak l c = s.breakSteps l c := by
  have hkept : ((s.breakSteps l c).line l).pending = (s.line l).pending :=
    (((State.wr_breakSteps (k := 2) .refl (Nat.le_refl 2) l c).kept_line (by decide) l).2 (by decide)).2.2
  unfold State.enterBreak
  dsimp only
  rw [if_neg (by rw [hkept, h]; exact Bool.false_ne_true)]

/-- What the entry into BREAK by its steps alone keeps, a runout that is an enabled source or not keeps too. -/
theorem State.runoutTest_keeps {P : State → Prop} (hl : s.lineOf st = some l) (hpending : (s.line l).pending = false)
    (hseq : (s.stand st).seq = .running ∨ (s.stand st).seq = .armed) (hmin : atOrBelow (s.stand st).df (s.dMin st) = true)
    (hout : (s.stand st).runout = false) (h : P (s.runOut st)) (hbreak : ∀ c, P ((s.runOut st).breakSteps l c)) : P (s.runoutTest st) := by
  rw [State.runoutTest_eq hl, if_pos ⟨hseq.imp_right .inl, hmin, hout⟩]
  have hline : (s.runOut st).line l = s.line l := State.line_of_lines (s.runOut_tables st).1 l
  split
  · unfold State.sourceActive
    split
    · exact h
    · rw [State.enterBreak_plain (by rw [hline, hpending])]
      exact hbreak _
  · exact h

theorem State.runoutTest_enters (hl : s.lineOf st = some l) (hseq : (s.stand st).seq = .running ∨ (s.stand st).seq = .armed)
    (hmin : atOrBelow (s.stand st).df (s.dMin st) = true) (hout : (s.stand st).runout = false)
    (henabled : (s.line l).enables.runout = true) (hclear : (s.line l).inBreak = false) :
    let x := (s.runoutTest st).line l
    x.inBreak = true ∧ x.cause = some (.runout st) ∧ x.stop = true := by
  have hline : (s.runOut st).line l = s.line l := State.line_of_lines (s.runOut_tables st).1 l
  rw [State.runoutTest_eq hl, if_pos ⟨hseq.imp_right .inl, hmin, hout⟩, hline, if_pos henabled, State.sourceActive, hline, hclear,
    if_neg Bool.false_ne_true]
  obtain ⟨hbreak, hcause, hstop, -⟩ := Law.enterBreak (s.runOut st) l (.runout st)
  exact ⟨hbreak, hcause, hstop⟩

/-- A runout test that leads to no entry into BREAK changes nothing, or marks the stand run out. -/
theorem State.runoutTest_quiet (hl : s.lineOf st = some l) (h : atOrBelow (s.stand st).df (s.dMin st) = false ∨ (s.stand st).runout = true ∨
    (s.line l).enables.runout = false ∨ (s.line l).inBreak = true) : s.runoutTest st = s ∨ s.runoutTest st = s.runOut st := by
  have hline : (s.runOut st).line l = s.line l := State.line_of_lines (s.runOut_tables st).1 l
  rw [State.runoutTest_eq hl, hline]
  split
  · next hfires =>
    obtain ⟨-, hmin, hout⟩ := hfires
    right
    split
    · next henabled =>
      rw [hmin, hout, henabled] at h
      exact if_pos (by simpa [hline] using h)
    · rfl
  · exact .inl rfl

end

/-! ## A new D_f (R73, R74, R91) -/

section
variable {s : State} {st l n before after : Nat} {r : Roll}

theorem State.runningRoll_iff : s.runningRoll st = some (n, r) ↔
    ∃ a, (s.stand st).active = some a ∧ ((s.stand st).arm a).roll = some n ∧ s.roll n = some r := by
  simp only [State.runningRoll, Option.bind_eq_some_iff, Option.map_eq_some_iff, Prod.mk.injEq]
  constructor
  · rintro ⟨a, ha, m, hm, q, hq, rfl, rfl⟩
    exact ⟨a, ha, hm, hq⟩
  · rintro ⟨a, ha, hm, hq⟩
    exact ⟨a, ha, n, hm, r, hq, rfl, rfl⟩

/-- The state the runout test of an accepted sample is made in. -/
def State.filteredTo (s : State) (st l n : Nat) (r : Roll) (before after : Nat) : State := (s.accepted st l n r before after).tested st

theorem State.filteredTo_lines (s : State) (st l n : Nat) (r : Roll) (before after : Nat) : (s.filteredTo st l n r before after).lines = s.lines :=
  ((Wr.tested ..).kept_lines (by decide)).1.trans (s.accepted_tables st l n r before after).1

theorem State.filteredTo_orders (s : State) (st l n : Nat) (r : Roll) (before after : Nat) :
    (s.filteredTo st l n r before after).orders = s.orders :=
  (State.tested_orders ..).trans (s.accepted_tables st l n r before after).2.1

theorem State.filteredTo_view (s : State) (st l n : Nat) (r : Roll) (before after : Nat) :
    let x := (s.filteredTo st l n r before after).stand st
    x.runout = (s.stand st).runout ∧ x.offset = (s.stand st).offset ∧ x.armA = (s.stand st).armA ∧ x.armB = (s.stand st).armB := by
  obtain ⟨ts, h⟩ := s.accepted_stand st l n r before after
  have hview := State.tested_view (s.accepted st l n r before after) st
  rw [h] at hview
  simp only [Stand.runoutView, Prod.mk.injEq] at hview
  exact hview.2

theorem State.filteredTo_measure (s : State) (st l n : Nat) (r : Roll) (before after : Nat) :
    let x := (s.filteredTo st l n r before after).stand st
    x.df = some after ∧ x.run = .clear ∧ x.measureLost = none := by
  obtain ⟨hdf, hrun, -, hlost, -⟩ := ((Wr.tested (s.accepted st l n r before after) st).kept_stand (by decide) st).2 (by decide)
  obtain ⟨ts, h⟩ := s.accepted_stand st l n r before after
  rw [h] at hdf hrun hlost
  exact ⟨hdf, hrun, hlost⟩

theorem State.filteredTo_roll (hroll : s.roll n = some r) (m : Nat) : (s.filteredTo st l n r before after).roll m =
    if m = n then some { r with
      diameter := after,
      consumed := if after = before then r.consumed
        else min 65535 (r.consumed + ((s.grade r.grade).length before - (s.grade r.grade).length after)) }
    else s.roll m := by
  rw [State.filteredTo, State.roll, State.tested_rolls]
  exact State.accepted_roll hroll m

/-- The arms of the stand are as before the sample. -/
theorem State.filteredTo_arms (s : State) (st l n : Nat) (r : Roll) (before after : Nat) :
    ((s.filteredTo st l n r before after).stand st).active = (s.stand st).active ∧
      ∀ a, ((s.filteredTo st l n r before after).stand st).arm a = (s.stand st).arm a := by
  obtain ⟨-, -, hA, hB⟩ := s.filteredTo_view st l n r before after
  refine ⟨Stand.active_congr (congrArg ArmRec.state hA) (congrArg ArmRec.state hB), fun a => ?_⟩
  cases a
  · exact hA
  · exact hB

/-- D_min after the sample is the core of the running roll's grade plus the minimum offset (R80). -/
theorem State.filteredTo_dMin (hr : s.runningRoll st = some (n, r)) :
    (s.filteredTo st l n r before after).dMin st = some ((s.grade r.grade).core + (s.stand st).offset) := by
  obtain ⟨a, ha, hlink, hroll⟩ := State.runningRoll_iff.mp hr
  obtain ⟨hactive, harm⟩ := s.filteredTo_arms st l n r before after
  have hrunning : (s.filteredTo st l n r before after).runningRoll st = some (n, { r with
      diameter := after,
      consumed := if after = before then r.consumed
        else min 65535 (r.consumed + ((s.grade r.grade).length before - (s.grade r.grade).length after)) }) :=
    State.runningRoll_iff.mpr ⟨a, hactive.trans ha, (congrArg ArmRec.roll (harm a)).trans hlink,
      (State.filteredTo_roll hroll n).trans (if_pos rfl)⟩
  have hgrades : (s.filteredTo st l n r before after).grades = s.grades :=
    ((Wr.tested ..).kept (by decide)).grades.trans (s.accepted_tables st l n r before after).2.2
  obtain ⟨-, hoffset, -, -⟩ := s.filteredTo_view st l n r before after
  rw [State.dMin, State.runningGrade, hrunning, hoffset]
  simp only [Option.map_some, State.grade, hgrades]

theorem State.filteredTo_lineOf (s : State) (st l n : Nat) (r : Roll) (before after c : Nat) :
    (s.filteredTo st l n r before after).lineOf c = s.lineOf c := State.lineOf_congr (s.filteredTo_lines ..) c

/-- A sample that brings a stand in RUNNING or ARMED to its D_min: it has run out, the call-off of its other arm is URGENT, and its line in
CLEAR enters BREAK where the runout source is enabled. -/
theorem State.acceptDiameter_runsOut (hl : s.lineOf st = some l) (hr : s.runningRoll st = some (n, r)) (hout : (s.stand st).runout = false)
    (hseq : (s.stand st).seq = .running ∨ (s.stand st).seq = .armed) (hle : after ≤ (s.grade r.grade).core + (s.stand st).offset)
    (hpending : (s.line l).pending = false) : let t := s.acceptDiameter st l before after
    (t.stand st).df = some after ∧ (t.stand st).runout = true ∧
    (∀ a o q, (s.stand st).active = some a → ((s.stand st).arm a.other).callOff = some o → s.order o = some q → q.kind = .callOff →
      q.abort = false → q.state ≠ .failed → t.urgentOrder o) ∧
    ((s.line l).enables.runout = true → (s.line l).inBreak = false →
      (t.line l).inBreak = true ∧ (t.line l).cause = some (.runout st) ∧ (t.line l).stop = true) := by
  intro t
  obtain ⟨hactive, harm⟩ := s.filteredTo_arms st l n r before after
  obtain ⟨hdf, -, -⟩ := s.filteredTo_measure st l n r before after
  have hline : (s.filteredTo st l n r before after).line l = s.line l := State.line_of_lines (s.filteredTo_lines ..) l
  have hl' := (s.filteredTo_lineOf st l n r before after st).trans hl
  have hseq' : ((s.filteredTo st l n r before after).stand st).seq = .running ∨
      ((s.filteredTo st l n r before after).stand st).seq = .armed := by
    obtain ⟨ts, h⟩ := s.accepted_stand st l n r before after
    exact State.tested_seq (by rwa [h])
  have hout' : ((s.filteredTo st l n r before after).stand st).runout = false := (s.filteredTo_view st l n r before after).1.trans hout
  have hmin : atOrBelow ((s.filteredTo st l n r before after).stand st).df ((s.filteredTo st l n r before after).dMin st) = true :=
    atOrBelow_iff.mpr ⟨_, _, hdf, State.filteredTo_dMin hr, hle⟩
  have horders := s.filteredTo_orders st l n r before after
  have ht : t = ((s.filteredTo st l n r before after).runoutTest st).handTs st := State.acceptDiameter_eq hr
  clear_value t
  generalize s.filteredTo st l n r before after = v at *
  have hran : ((v.runOut st).stand st).ranOut after := by
    rw [State.runOut_stand]
    refine ⟨hdf, rfl, ?_⟩
    show (v.stand st).seq ≠ .pasting
    rcases hseq' with h | h <;> rw [h] <;> nofun
  have hkeeps {P : State → Prop} := State.runoutTest_keeps (P := P) hl' (by rwa [hline]) hseq' hmin hout'
  have hranT : (t.stand st).ranOut after := by
    rw [ht]
    exact Stand.ranOut_of_bare (hkeeps (P := fun u => (u.stand st).ranOut after) hran fun c => State.breakSteps_ranOut hran l c)
      (BareStand.handTs ..)
  refine ⟨hranT.1, hranT.2.1, fun a o q ha ho hq hkind habort hstate => ?_, fun henabled hclear => ?_⟩
  · have hurgent : (v.runOut st).urgentOrder o :=
      State.runOut_urgent (hactive.trans ha) ((congrArg ArmRec.callOff (harm a.other)).trans ho)
        ((congrArg (Tbl.find · o) horders).trans hq) hkind habort hstate
    rw [ht]
    exact (hkeeps (P := (·.urgentOrder o)) hurgent fun c => hurgent.breakSteps l c).handTs st
  · have hlines : t.line l = (v.runoutTest st).line l := by
      rw [ht]
      exact State.line_of_lines ((State.wr_handTs (k := 0) .refl st).kept_lines (by decide)).1 l
    rw [hlines]
    exact State.runoutTest_enters hl' hseq' hmin hout' (by rwa [hline]) (by rwa [hline])

/-- A sample that leads to no entry into BREAK: the measurement, the roll and the live job it writes. -/
theorem State.acceptDiameter_charges (hl : s.lineOf st = some l) (hr : s.runningRoll st = some (n, r))
    (hquiet : (s.grade r.grade).core + (s.stand st).offset < after ∨ (s.stand st).runout = true ∨ (s.line l).enables.runout = false ∨
      (s.line l).inBreak = true) : let t := s.acceptDiameter st l before after
    ((t.stand st).df = some after ∧ (t.stand st).run = .clear ∧ (t.stand st).measureLost = none) ∧
    (∀ m, t.roll m = (s.filteredTo st l n r before after).roll m) ∧ ∀ m, t.job m = (s.accepted st l n r before after).job m := by
  intro t
  have hline : (s.filteredTo st l n r before after).line l = s.line l := State.line_of_lines (s.filteredTo_lines ..) l
  obtain ⟨hdf, hrun, hlost⟩ := s.filteredTo_measure st l n r before after
  obtain ⟨hout, -, -, -⟩ := s.filteredTo_view st l n r before after
  have hdMin := State.filteredTo_dMin (l := l) (before := before) (after := after) hr
  have hl' := (s.filteredTo_lineOf st l n r before after st).trans hl
  have hjobs : (s.filteredTo st l n r before after).jobs = (s.accepted st l n r before after).jobs :=
    ((Wr.tested ..).kept_lines (by decide)).2
  have ht : t = ((s.filteredTo st l n r before after).runoutTest st).handTs st := State.acceptDiameter_eq hr
  clear_value t
  generalize s.filteredTo st l n r before after = v at *
  have htest : v.runoutTest st = v ∨ v.runoutTest st = v.runOut st := by
    refine State.runoutTest_quiet hl' (hquiet.imp (fun hlt => ?_) ?_)
    · rw [hdf, hdMin]
      exact decide_eq_false (Nat.not_le.mpr hlt)
    · rw [hout, hline]
      exact id
  have hbare : ∃ b, (v.runoutTest st).stand st = { v.stand st with runout := b } := by
    rcases htest with h | h
    · exact ⟨(v.stand st).runout, congrArg (State.stand · st) h⟩
    · exact ⟨true, (congrArg (State.stand · st) h).trans (v.runOut_stand st)⟩
  have hrolls : (v.runoutTest st).rolls = v.rolls := by
    rcases htest with h | h <;> rw [h]
    exact v.runOut_rolls st
  have htests : (v.runoutTest st).jobs = v.jobs := by
    rcases htest with h | h <;> rw [h]
    exact (v.runOut_tables st).2
  obtain ⟨b, hb⟩ := hbare
  generalize v.runoutTest st = w at *
  have hwr : Wr 0 w t := ht ▸ State.wr_handTs .refl st
  obtain ⟨hdf', hrun', -, hlost', -⟩ := (hwr.kept_stand (by decide) st).2 (by decide)
  rw [hb] at hdf' hrun' hlost'
  refine ⟨⟨hdf'.trans hdf, hrun'.trans hrun, hlost'.trans hlost⟩, fun m => ?_, fun m => ?_⟩
  · exact congrArg (Tbl.find · m) ((ht ▸ RollsAfter.handTs w st : t.rolls = w.rolls).trans hrolls)
  · exact congrArg (Tbl.find · m) ((hwr.kept_lines (by decide)).2.trans (htests.trans hjobs))

end

/-! ## The obligation -/

/-- Settles O35: the classes of a diameter sample, what an accepted one charges, and the runout. -/
theorem diameterFilter : Obligations.DiameterFilter := by
  unfold Obligations.DiameterFilter
  intro s st l n df new r c d a b hl hr hdf hc hd x run g w q up down t
  have ht : t = if s.measuring l ∧ 16 ≤ w then s.classify st l (measuredDiameter w (s.line l).lam q) else s :=
    State.diameterSample_eq hl hc hd
  refine ⟨fun hfew => ?_, fun hv hw hq hmax hlt hle => ?_⟩
  · rw [ht]
    refine if_neg fun ⟨hm, hmany⟩ => ?_
    have hv : 20 ≤ (s.line l).v := of_decide_eq_true hm
    omega
  have hclass : t = s.classify st l new := by
    rw [ht, if_pos ⟨decide_eq_true hv, hw⟩, measuredDiameter_eq hq hmax hlt hle]
  rw [State.classify_eq hr hdf] at hclass
  have hup (h : df < new) : t = if up = 3 then (s.setStand st { x with run := ⟨.up, up⟩ }).setLost st .suspect
      else s.setStand st { x with run := ⟨.up, up⟩ } := hclass.trans ((if_pos h).trans (s.rejectUp_eq st))
  have hdown (h : new + (s.line l).w < df) : t = if 3 ≤ down then s.acceptDiameter st l df (max new g.core)
      else s.setStand st { x with run := ⟨.down, down⟩ } :=
    hclass.trans ((if_neg (by omega)).trans ((if_neg (by omega)).trans (s.rejectDown_eq st l df new g.core)))
  refine ⟨fun hnew hcount => ?_, fun hnew hcount => ?_, fun hnew hcount => ?_, fun after hafter => ?_⟩
  · exact (hup hnew).trans (if_neg (by omega))
  · have hlost : t = (s.setStand st { x with run := ⟨.up, up⟩ }).setLost st .suspect := (hup hnew).trans (if_pos hcount)
    have hstand := (congrArg (State.stand · st) hlost).trans (State.setStand_setLost_stand ..)
    have hdisarmed (y : Stand) : y.disarmed.run = y.run ∧ y.disarmed.measureLost = y.measureLost ∧ y.disarmed.df = y.df := by
      unfold Stand.disarmed
      split <;> exact ⟨rfl, rfl, rfl⟩
    obtain ⟨hrun, hsuspect, hsame⟩ := hdisarmed { x with run := ⟨.up, up⟩, measureLost := some .suspect }
    exact ⟨(congrArg Stand.run hstand).trans (hrun.trans (congrArg (RejectRun.mk .up) hcount)),
      (congrArg Stand.measureLost hstand).trans hsuspect, (congrArg Stand.df hstand).trans (hsame.trans hdf)⟩
  · exact (hdown hnew).trans (if_neg (by omega))
  · have haccept : t = s.acceptDiameter st l df after := by
      rcases hafter with ⟨hle, hin, k, hklt, hkle, rfl⟩ | ⟨hlow, hthird, rfl⟩
      · refine hclass.trans ((if_neg (by omega)).trans ((if_pos hin).trans ?_))
        rw [filtered_eq hklt hkle]
      · exact (hdown hlow).trans (if_pos hthird)
    clear_value t
    subst haccept
    refine ⟨fun hout hseq hend hpending => State.acceptDiameter_runsOut hl hr hout hseq hend hpending, fun hquiet => ?_⟩
    obtain ⟨⟨hdf', hrun, hlost⟩, hrolls, hjobs⟩ := State.acceptDiameter_charges (before := df) hl hr hquiet
    obtain ⟨a, -, -, hroll⟩ := State.runningRoll_iff.mp hr
    refine ⟨hdf', congrArg RejectRun.count hrun, hlost, ⟨_, (hrolls n).trans ((State.filteredTo_roll hroll n).trans (if_pos rfl)), rfl, rfl⟩,
      fun m j hm hj => ⟨_, (hjobs m).trans (State.accepted_job hm hj), ?_, ?_⟩, fun m hm p hp => ?_⟩
    · split <;> rfl
    · split <;> rfl
    · exact ⟨p, (hrolls m).trans ((State.filteredTo_roll hroll m).trans ((if_neg hm).trans hp)), rfl, rfl⟩

end Sys2Proof.Machine
end

section
/-! Proofs about RETIRE_ORDER, SECOND_TICK and the call-offs of a stand (R92, R125, R126, R138): the order freed, the classes tested, the
call-off created, and the deadlines recomputed. -/

namespace Sys2Proof.Machine

/-! ## RETIRE_ORDER (R138) -/

section
variable {s : State} {n : Nat} {o : Order}

theorem exec_retireOrder (s : State) (n : Nat) : exec (.retireOrder n) s = request (.retireOrder n) (·.retireOrderRequest n) s := rfl

theorem orderOk_iff : orderOk n = true ↔ 1 ≤ n ∧ n ≤ 255 := within_iff

theorem State.retireOrderRequest_failed (hn : orderOk n = true) (ho : s.order n = some o) (hstate : o.state = .failed) :
    s.retireOrderRequest n = ((s.dropRoll n o).putOrder n none).ok := by
  rw [State.retireOrderRequest, if_pos hn, ho]
  exact if_pos hstate

/-- A roll that is not RESERVED is unlinked and its order's record removed. -/
theorem State.dropRoll_putOrder {r : Nat} {x : Roll} (ho : s.order n = some o) (hr : o.roll = some r) (hx : s.roll r = some x)
    (hstate : x.state ≠ .reserved) : (s.dropRoll n o).putOrder n none =
      { s with orders := s.orders.put n none, rolls := s.rolls.put r (some { x with order := none }) } := by
  have horder : (s.putRoll r (some { x with order := none })).order n = some o := ho
  rw [State.dropRoll, hr]
  dsimp only
  rw [hx]
  dsimp only
  rw [if_neg hstate, State.unlink, State.modRoll_live hx, State.modOrder_live horder]
  simp [State.putOrder, State.putRoll]

end

/-! ## The class test (R126) -/

section
variable {s : State} {n m limit : Nat} {o : Order}

/-- An order after the class test: a live CALL_OFF with a deadline at or before a limit is URGENT. -/
def Order.tested (o : Order) (limit : Nat) : Order :=
  if o.kind = .callOff ∧ o.abort = false ∧ o.state ≠ .failed ∧ o.deadline.any (fun d => decide (d ≤ limit)) then { o with cls := .urgent }
  else o

theorem Order.tested_tested (o : Order) (limit : Nat) : (o.tested limit).tested limit = o.tested limit := by
  by_cases h : o.kind = .callOff ∧ o.abort = false ∧ o.state ≠ .failed ∧ o.deadline.any (fun d => decide (d ≤ limit))
  · have ht : o.tested limit = { o with cls := .urgent } := if_pos h
    rw [ht]
    exact if_pos h
  · have ht : o.tested limit = o := if_neg h
    rw [ht, ht]

/-- The latest deadline that is within the urgent margin. -/
def State.urgentLimit (s : State) : Nat := s.now + s.urgentMargin

theorem Wr.urgentLimit {t : State} (h : Wr 0 s t) : t.urgentLimit = s.urgentLimit := by
  have hkept := h.kept (by decide)
  rw [State.urgentLimit, State.urgentLimit, State.now, State.now, hkept.timeBase, hkept.urgentMargin]

theorem State.makeUrgent_order (h : s.order n = some o) : (s.makeUrgent n).order n = some
    (if o.kind = .callOff ∧ o.abort = false ∧ o.state ≠ .failed then { o with cls := .urgent } else o) := by
  have written : (s.modOrder n ({ · with cls := .urgent })).order n = some { o with cls := .urgent } := by
    rw [Law.order_mod, if_pos rfl, h]
    rfl
  unfold State.makeUrgent
  rw [h]
  dsimp only
  by_cases hlive : o.kind = .callOff ∧ o.abort = false ∧ o.state ≠ .failed
  · rw [if_pos hlive]
    by_cases hcls : o.cls = .urgent
    · rw [if_neg fun hc => hc.2.1 hcls, h, ← hcls]
    · rw [if_pos ⟨hlive.1, hcls, hlive.2⟩]
      split
      · exact written
      · exact written
  · rw [if_neg hlive, if_neg fun hc => hlive ⟨hc.1, hc.2.2⟩, h]

theorem State.testUrgent_order (s : State) (n m : Nat) :
    (s.testUrgent n).order m = if m = n then (s.order m).map (·.tested s.urgentLimit) else s.order m := by
  by_cases hm : m = n
  · subst hm
    rw [if_pos rfl]
    unfold State.testUrgent
    cases ho : s.order m with
    | none => exact ho
    | some o =>
      dsimp only
      by_cases hdue : s.urgentAt o.deadline = true
      · rw [if_pos hdue, State.makeUrgent_order ho, Option.map_some, Order.tested]
        refine congrArg some (if_congr ?_ rfl rfl)
        exact ⟨fun ⟨hk, ha, hs⟩ => ⟨hk, ha, hs, hdue⟩, fun ⟨hk, ha, hs, _⟩ => ⟨hk, ha, hs⟩⟩
      · rw [if_neg hdue, ho]
        exact congrArg some (if_neg fun hc => hdue hc.2.2.2).symm
  · rw [if_neg hm, State.order_testUrgent_other s hm]

/-! ## SECOND_TICK (R126) -/

theorem State.secondTick_order (h : s.order n = some o) : s.secondTick.order n = some (o.tested s.urgentLimit) := by
  have read := State.each_reads_where (g := State.order) (f := fun n u => u.testUrgent n) (P := fun u => u.urgentLimit = s.urgentLimit)
    (k := fun _ => Option.map (·.tested s.urgentLimit))
    (fun u n m hu => by rw [State.testUrgent_order, hu])
    (fun n u hu => (Wr.urgentLimit (State.wr_testUrgent .refl n)).trans hu)
    (fun _ x => by cases x <;> simp [Order.tested_tested]) s.orders.keys rfl n
  have listed : n ∈ s.orders.keys := List.mem_map.mpr ⟨(n, o), Tbl.mem_of_find h, rfl⟩
  rw [State.secondTick, read, if_pos listed, h]
  rfl

theorem Order.tested_cls (o : Order) (limit : Nat) :
    let due := o.kind = .callOff ∧ o.abort = false ∧ o.state ≠ .failed ∧ ∃ d, o.deadline = some d ∧ d ≤ limit
    (due → (o.tested limit).cls = .urgent) ∧ (¬ due → (o.tested limit).cls = o.cls) := by
  intro due
  have hdue : (o.kind = .callOff ∧ o.abort = false ∧ o.state ≠ .failed ∧ o.deadline.any (fun d => decide (d ≤ limit)) = true) ↔ due := by
    simp only [Option.any_eq_true, decide_eq_true_eq, due]
  refine ⟨fun h => congrArg Order.cls (if_pos (hdue.mpr h)), fun h => congrArg Order.cls (if_neg (mt hdue.mp h))⟩

end

/-! ## The call-off created (R92, R121, R122) -/

section
variable {s : State} {st l : Nat} {p : Position} {b : Arm} {d : Option Nat}

theorem State.callOffDue_beside {a : Arm} (hp : s.positionOf st = some (l, p)) (hload : (s.stand st).loading ≠ none)
    (ha : (s.stand st).active = some a) : s.callOffDue st =
      if ((s.stand st).arm a.other).state = .empty ∧ ((s.stand st).arm a.other).callOff = none ∧ (s.stand st).ts ≤ (s.line l).live.lead then
        some (a.other, some (s.deadlineAt l st), p)
      else none := by
  rw [State.callOffDue, hp]
  refine (if_neg fun h => hload (Option.isNone_iff_eq_none.mp h)).trans ?_
  rw [ha]

theorem State.callOffDue_stopped (hp : s.positionOf st = some (l, p)) (hload : (s.stand st).loading ≠ none)
    (ha : (s.stand st).active = none) : s.callOffDue st =
      if (s.stand st).armA.state = .empty ∧ (s.stand st).armB.state = .empty ∧ (s.stand st).armA.callOff = none ∧
        (s.stand st).armB.callOff = none then some (.A, none, p) else none := by
  rw [State.callOffDue, hp]
  refine (if_neg fun h => hload (Option.isNone_iff_eq_none.mp h)).trans ?_
  rw [ha]

theorem State.evalCallOff_none (h : s.callOffDue st = none) : s.evalCallOff st = s := by
  rw [State.evalCallOff, h]

theorem State.evalCallOff_full (h : s.orderFree = false) : s.evalCallOff st = s := by
  have hnone (o : Order) : s.createOrder o = none := if_neg (Bool.eq_false_iff.mp h)
  unfold State.evalCallOff
  split
  · rfl
  · dsimp only
    rw [hnone]

/-- The call-off an arm's stand creates: its record, the counters, the arm's link, and the pass that follows. -/
theorem State.evalCallOff_creates (hdue : s.callOffDue st = some (b, d, p)) (hfree : s.orderFree = true) : s.evalCallOff st =
    { s with
      orders := s.orders.put s.nextOrderNumber (some
        { Order.pendingOf .callOff (.arm st b) (if s.urgentAt d then .urgent else .callOff) with
          place := (lowestFree 40 (s.orders.map fun e : Nat × Order => e.2.place)).getD 1, seq := s.orderSeq + 1
          dest := some (.arm st b), grade := some p.grade, width := some p.width, deadline := d })
      orderSeq := s.orderSeq + 1, orderPointer := s.nextOrderNumber % 255 + 1, passDue := true
      stands := s.stands.set st .cold ((s.stand st).withArm b { (s.stand st).arm b with callOff := some s.nextOrderNumber }) } := by
  unfold State.evalCallOff
  rw [hdue]
  dsimp only
  rw [State.createOrder, if_pos hfree]
  rfl

theorem State.urgentAt_iff (s : State) (d : Option Nat) : s.urgentAt d = true ↔ ∃ e, d = some e ∧ e ≤ s.timeBase / 1000 + s.urgentMargin := by
  refine (Option.any_eq_true ..).trans ?_
  simp only [decide_eq_true_eq]
  rfl

end

/-! ## The deadlines of a stand's call-offs (R125, R126) -/

section
variable {s : State} {st l n : Nat} {o : Order}

/-- A call-off given a deadline and tested; one UNLOADING or with the abort mark is left. -/
def Order.redated (o : Order) (d limit : Nat) : Order :=
  if o.state = .unloading ∨ o.abort = true then o else { o with deadline := some d }.tested limit

theorem Order.redated_redated (o : Order) (d limit : Nat) : (o.redated d limit).redated d limit = o.redated d limit := by
  by_cases h : o.state = .unloading ∨ o.abort = true
  · have hsame : o.redated d limit = o := if_pos h
    rw [hsame, hsame]
  · have hdated : o.redated d limit = { o with deadline := some d }.tested limit := if_neg h
    rw [hdated]
    unfold Order.tested
    split
    · next hdue =>
      refine (if_neg h).trans ?_
      exact if_pos hdue
    · next hdue =>
      refine (if_neg h).trans ?_
      exact if_neg hdue

theorem Order.redated_due (hkind : o.kind = .callOff) (hunload : o.state ≠ .unloading) (hfailed : o.state ≠ .failed) (habort : o.abort = false)
    (d limit : Nat) : o.redated d limit = { o with deadline := some d, cls := if d ≤ limit then .urgent else o.cls } := by
  refine (if_neg (not_or.mpr ⟨hunload, by rw [habort]; exact Bool.false_ne_true⟩)).trans ?_
  unfold Order.tested
  by_cases hd : d ≤ limit
  · rw [if_pos hd, if_pos ⟨hkind, habort, hfailed, decide_eq_true hd⟩]
  · rw [if_neg hd, if_neg fun h => hd (of_decide_eq_true h.2.2.2)]

/-- The figures a recomputed deadline is made of. -/
def State.datesAs (s : State) (l st d limit : Nat) : Prop := s.deadlineAt l st = d ∧ s.urgentLimit = limit

theorem State.datesAs.testUrgent {d limit : Nat} (h : s.datesAs l st d limit) (n : Nat) : (s.testUrgent n).datesAs l st d limit := by
  have hwr : Wr 0 s (s.testUrgent n) := State.wr_testUrgent .refl n
  have hstand : (s.testUrgent n).stand st = s.stand st := congrArg (Tbl.get · st Stand.cold) (StandsAfter.testUrgent s n)
  refine ⟨Eq.trans ?_ h.1, hwr.urgentLimit.trans h.2⟩
  rw [State.deadlineAt, State.deadlineAt, State.now, State.now, (hwr.kept (by decide)).timeBase, hstand,
    State.line_of_lines (hwr.kept_lines (by decide)).1]

/-- A call-off's turn in the recomputation. -/
def State.redate (s : State) (l st n : Nat) : State :=
  match s.order n with
  | some o =>
    if o.state = .unloading ∨ o.abort then s else (s.modOrder n ({ · with deadline := some (s.deadlineAt l st) })).testUrgent n
  | none => s

theorem State.recomputeDeadlines_dates {a : Arm} (hl : s.lineOf st = some l) (ha : (s.stand st).active = some a) :
    s.recomputeDeadlines st = s.each (s.callOffsOf st) fun n u => u.redate l st n := by
  rw [State.recomputeDeadlines, hl, ha]
  rfl

theorem State.redate_order (s : State) (l st n m : Nat) : (s.redate l st n).order m =
    if m = n then (s.order m).map (·.redated (s.deadlineAt l st) s.urgentLimit) else s.order m := by
  unfold State.redate
  cases ho : s.order n with
  | none =>
    dsimp only
    split
    · next hm => rw [hm, ho]; rfl
    · rfl
  | some o =>
    dsimp only
    by_cases hleft : o.state = .unloading ∨ o.abort = true
    · rw [if_pos hleft]
      split
      · next hm =>
        rw [hm, ho]
        exact congrArg some (if_pos hleft).symm
      · rfl
    · have hlimit : (s.modOrder n ({ · with deadline := some (s.deadlineAt l st) })).urgentLimit = s.urgentLimit := by
        simp [State.urgentLimit, State.now]
      rw [if_neg hleft, State.testUrgent_order, Law.order_mod, hlimit]
      split
      · next hm =>
        rw [hm, ho]
        exact congrArg some (if_neg hleft).symm
      · rfl

theorem State.datesAs.redate {d limit : Nat} (h : s.datesAs l st d limit) (n : Nat) : (s.redate l st n).datesAs l st d limit := by
  unfold State.redate
  split
  · split
    · exact h
    · refine State.datesAs.testUrgent ?_ n
      refine ⟨Eq.trans ?_ h.1, Eq.trans ?_ h.2⟩
      · simp [State.deadlineAt, State.now, State.stand, State.line]
      · simp [State.urgentLimit, State.now]
  · exact h

theorem State.recomputeDeadlines_order {a : Arm} (hl : s.lineOf st = some l) (ha : (s.stand st).active = some a) (n : Nat) :
    (s.recomputeDeadlines st).order n =
      if n ∈ s.callOffsOf st then (s.order n).map (·.redated (s.deadlineAt l st) s.urgentLimit) else s.order n := by
  rw [State.recomputeDeadlines_dates hl ha]
  exact State.each_reads_where (g := State.order) (P := fun u => u.datesAs l st (s.deadlineAt l st) s.urgentLimit)
    (k := fun _ => Option.map (·.redated (s.deadlineAt l st) s.urgentLimit))
    (fun u n m hu => by rw [State.redate_order, hu.1, hu.2]) (fun n u hu => hu.redate n)
    (fun _ x => by cases x <;> simp [Order.redated_redated]) (s.callOffsOf st) ⟨rfl, rfl⟩ n

theorem State.mem_callOffsOf (hrise : s.orders.rising = true) (ho : s.order n = some o) :
    n ∈ s.callOffsOf st ↔ o.kind = .callOff ∧ (∃ b, o.requester = .arm st b) ∧ o.state ≠ .failed := by
  have htest : (o.kind == .callOff && o.requester.atStand st && o.state != .failed) = true ↔
      o.kind = .callOff ∧ (∃ b, o.requester = .arm st b) ∧ o.state ≠ .failed := by
    simp only [Bool.and_eq_true, beq_iff_eq, bne_iff_ne, Requester.atStand_iff, and_assoc]
  rw [State.callOffsOf, List.mem_map, ← htest]
  refine ⟨?_, fun h => ⟨(n, o), List.mem_filter.mpr ⟨Tbl.mem_of_find ho, h⟩, rfl⟩⟩
  rintro ⟨⟨m, q⟩, hmem, rfl⟩
  obtain ⟨hentry, hq⟩ := List.mem_filter.mp hmem
  cases (Law.find_rising hrise hentry).symm.trans ho
  exact hq

end

/-! ## The obligation -/

/-- Settles O44: the checks of RETIRE_ORDER, the class test of every order, the call-off condition by the stand's arms, and the recomputation
order by order. -/
theorem retireOrderAndSecondTick : Obligations.RetireOrderAndSecondTick := by
  unfold Obligations.RetireOrderAndSecondTick
  refine ⟨fun s n htakes => ?_, fun s hawake => ?_, fun s st => ?_, fun s st => ⟨fun h => ?_, fun l a hl ha hrise n o ho => ?_⟩⟩
  · intro i
    have hexec : exec i s = request i (·.retireOrderRequest n) s := exec_retireOrder s n
    rw [hexec]
    refine ⟨fun hn => ?_, fun h1 h255 hnone => ?_, fun o h1 h255 ho => ⟨fun hstate => ?_, fun hstate hr => ?_, fun r x hstate hr hx hres => ?_⟩⟩
    · have hbad : ¬ orderOk n = true := by rw [orderOk_iff]; omega
      exact request_refused htakes (if_neg hbad)
    · refine request_refused htakes ?_
      rw [State.retireOrderRequest, if_pos (orderOk_iff.mpr ⟨h1, h255⟩), show s.fresh.order n = none from hnone]
    · refine request_refused htakes ?_
      rw [State.retireOrderRequest, if_pos (orderOk_iff.mpr ⟨h1, h255⟩), show s.fresh.order n = some o from ho]
      exact if_neg hstate
    · have hrequest := State.retireOrderRequest_failed (s := s.fresh) (orderOk_iff.mpr ⟨h1, h255⟩) ho hstate
      rw [State.dropRoll, hr] at hrequest
      exact request_eq_quiet (h := (·.retireOrderRequest n)) htakes hrequest rfl rfl
    · have hrequest := State.retireOrderRequest_failed (s := s.fresh) (orderOk_iff.mpr ⟨h1, h255⟩) ho hstate
      rw [State.dropRoll_putOrder (s := s.fresh) ho hr hx hres] at hrequest
      exact request_eq_quiet (h := (·.retireOrderRequest n)) htakes hrequest rfl rfl
  · refine ⟨_, event_awake hawake, fun n o ho => ?_⟩
    obtain ⟨q, hq, -, hcls, -⟩ := (Law.ordersStay_finish s.fresh.secondTick n).2 _ (State.secondTick_order (s := s.fresh) ho)
    obtain ⟨hdue, hnot⟩ := o.tested_cls s.fresh.urgentLimit
    exact ⟨q, hq, fun h => hcls.trans (hdue h), fun h => hcls.trans (hnot h)⟩
  · intro x now created beside bothEmpty
    have hcreated {b : Arm} {d : Option Nat} {p : Position} (hdue : s.callOffDue st = some (b, d, p)) (hfree : s.orderFree = true) :
        s.evalCallOff st = created b d p := by
      rw [State.evalCallOff_creates hdue hfree]
      dsimp only [created]
      rw [if_congr (s.urgentAt_iff d) rfl rfl]
    refine ⟨fun h => ?_, fun l p hp hload hfree => ?_⟩
    · rcases h with hp | hload | hfull
      · exact State.evalCallOff_none (by rw [State.callOffDue, hp])
      · refine State.evalCallOff_none ?_
        unfold State.callOffDue
        split
        · rfl
        · exact if_pos (Option.isNone_iff_eq_none.mpr hload)
      · exact State.evalCallOff_full hfull
    · have hbeside {a : Arm} (ha : x.active = some a) := State.callOffDue_beside hp hload ha
      have hstopped (ha : x.active = none) := State.callOffDue_stopped hp hload ha
      refine ⟨fun a ⟨ha, hdue⟩ => hcreated ((hbeside ha).trans (if_pos hdue)) hfree, fun hboth => ?_, fun hnot hnotBoth =>
        State.evalCallOff_none ?_⟩
      · have hnone : x.active = none := by
          unfold Stand.active Stand.armIn
          rw [hboth.1, hboth.2.1]
          rfl
        exact hcreated ((hstopped hnone).trans (if_pos hboth)) hfree
      · cases ha : x.active with
        | none => exact (hstopped ha).trans (if_neg hnotBoth)
        | some a => exact (hbeside ha).trans (if_neg fun h => hnot a ⟨ha, h⟩)
  · unfold State.recomputeDeadlines
    split
    · next hl ha => rcases h with h | h <;> simp [h] at hl ha
    · rfl
  · intro now d served
    have hlisted := State.mem_callOffsOf (st := st) hrise ho
    rw [State.recomputeDeadlines_order hl ha, ho]
    refine ⟨fun ⟨hkind, hreq, hfailed, hunload, habort⟩ => ?_, fun hnot => ?_⟩
    · rw [if_pos (hlisted.mpr ⟨hkind, hreq, hfailed⟩)]
      exact congrArg some (Order.redated_due hkind hunload hfailed habort ..)
    · by_cases hcall : o.kind = .callOff ∧ (∃ b, o.requester = .arm st b) ∧ o.state ≠ .failed
      · obtain ⟨hkind, hreq, hfailed⟩ := hcall
        have hleft : o.state = .unloading ∨ o.abort = true := by
          by_contra hgo
          obtain ⟨hunload, habort⟩ := not_or.mp hgo
          exact hnot ⟨hkind, hreq, hfailed, hunload, Bool.eq_false_iff.mpr habort⟩
        rw [if_pos (hlisted.mpr ⟨hkind, hreq, hfailed⟩)]
        exact congrArg some (if_pos hleft)
      · rw [if_neg (mt hlisted.mp hcall)]

end Sys2Proof.Machine
end


section
/-! What the entry into BREAK makes of its line, its live job and its stands (R98): a splice completed, the break counted, and the steps of
the entry one by one. -/

namespace Sys2Proof.Machine

/-! ## A turn for every number of a list -/

section
variable {P Q : State → Prop} {f : Nat → State → State} {ns : List Nat} {m : Nat} {s : State}

/-- What the turn of one number of a list brings about, where the other turns keep what it needs and what it does. -/
theorem State.each_turn (hnodup : ns.Nodup) (hm : m ∈ ns) (hP : ∀ n ∈ ns, n ≠ m → ∀ u, P u → P (f n u)) (hturn : ∀ u, P u → Q (f m u))
    (hQ : ∀ n ∈ ns, n ≠ m → ∀ u, Q u → Q (f n u)) (h : P s) : Q (s.each ns f) := by
  induction ns generalizing s with
  | nil => cases hm
  | cons n ns ih =>
    obtain ⟨hout, hnodup⟩ := List.nodup_cons.mp hnodup
    have hlater : ∀ k ∈ ns, k ∈ n :: ns := fun k hk => List.mem_cons_of_mem n hk
    by_cases hn : n = m
    · subst hn
      exact State.each_keeps_mem (P := Q) (s := f n s) (fun k hk => hQ k (hlater k hk) fun h => hout (h ▸ hk)) (hturn s h)
    · refine ih (s := f n s) hnodup ?_ (fun k hk => hP k (hlater k hk)) (fun k hk => hQ k (hlater k hk)) (hP n List.mem_cons_self hn s h)
      exact (List.mem_cons.mp hm).resolve_left (Ne.symm hn)

theorem State.lineStands_nodup (s : State) (l : Nat) : (s.lineStands l).Nodup := List.Nodup.filter _ List.nodup_range'

end

/-! ## A splice completed (R89) -/

section
variable {s : State} {st l old new : Nat} {a : Arm} {x y : Stand}

/-- A stand with an ACTIVE and a READY arm, each with its roll link. -/
def Stand.maySplice (x : Stand) (a : Arm) (old new : Nat) : Prop :=
  x.active = some a ∧ x.armIn .ready = some a.other ∧ (x.arm a).roll = some old ∧ (x.arm a.other).roll = some new

/-- A stand whose splice is done: it is RUNNING without PASTE and DRIVE, the arm it ran on EXPIRED and the other ACTIVE (R89). -/
def Stand.splicedTo (y : Stand) (a : Arm) (old new : Nat) : Prop :=
  y.seq = .running ∧ y.paste = false ∧ y.drive = false ∧ y.pasteLine = none ∧ (y.arm a).state = .expired ∧ (y.arm a).roll = some old ∧
  (y.arm a.other).state = .active ∧ (y.arm a.other).roll = some new

theorem Stand.maySplice_withoutCallOffs (x : Stand) (a : Arm) (old new : Nat) :
    (Law.withoutCallOffs x).maySplice a old new = x.maySplice a old new := by
  cases a <;> rfl

theorem Stand.splicedTo_withoutCallOffs (x : Stand) (a : Arm) (old new : Nat) :
    (Law.withoutCallOffs x).splicedTo a old new = x.splicedTo a old new := by
  cases a <;> rfl

theorem Stand.armIn_state {k : ArmState} (h : x.armIn k = some a) : (x.arm a).state = k := by
  unfold Stand.armIn at h
  split at h
  · next hA => cases h; exact hA
  · split at h
    · next hB => cases h; exact hB
    · cases h

theorem State.armsSwapped_stand_mount (s : State) (st : Nat) (a : Arm) (old new : Nat) (job : Option Nat) :
    ∃ mount, (s.armsSwapped st a a.other old new job).stand st = (s.stand st).swapped a mount := by
  rw [State.armsSwapped, Law.stand_mod, if_pos rfl, State.seedDiameter, Law.stand_mod, if_pos rfl, State.startMove_stand,
    State.expire_stand, State.dropPasteDrive_stand, if_pos rfl]
  generalize Option.bind _ Roll.mount = mount
  exact ⟨mount, by cases a <;> rfl⟩

/-- A splice of a stand whose arms are as it needs them. -/
theorem State.splice_splicedTo (h : (s.stand st).maySplice a old new) : ((s.splice st).stand st).splicedTo a old new := by
  obtain ⟨hactive, hready, hold, hnew⟩ := h
  rw [State.splice_swaps hactive (Stand.armIn_state hready) hold hnew]
  obtain ⟨mount, hswapped⟩ := s.armsSwapped_stand_mount st a old new
    ((((s.stand st).pasteLine.bind s.liveJob)).or ((s.roll old).bind Roll.job))
  generalize hu : State.modStand _ st _ = u
  have hstand : u.stand st = { (s.stand st).swapped a mount with late := false, runout := false } := by
    rw [← hu, Law.stand_mod, if_pos rfl, State.stand, State.spliceEventAt_stands]
    exact congrArg (fun x : Stand => { x with late := false, runout := false }) hswapped
  have hexpired : ((u.stand st).arm a).state = .expired := by
    rw [hstand]
    cases a <;> rfl
  obtain ⟨left, ts, hbare⟩ := State.afterStart_expired hexpired
  rw [hstand] at hbare
  obtain ⟨⟨hA, hroll, hB, hroll'⟩, hseq, -, -, hline, hdrive, hpaste, -⟩ := Stand.swapped_clauses hbare
  exact ⟨hseq, hpaste, hdrive, hline, hA, hroll.trans hold, hB, hroll'.trans hnew⟩

/-- In BREAK no stand arms (R84). -/
theorem State.tryArm_broken (hl : s.lineOf st = some l) (hb : (s.line l).inBreak = true) : s.tryArm st = s := by
  refine State.tryArm_refused ?_
  obtain ⟨⟨m, p⟩, hp, rfl⟩ := Option.map_eq_some_iff.mp hl
  rw [State.armable, hp]
  dsimp only
  rw [hb, Bool.not_true, Bool.and_false, Bool.false_and, Bool.and_false]

/-- A start made in BREAK leaves the sequence state. -/
theorem State.afterStart_broken (hl : s.lineOf st = some l) (hb : (s.line l).inBreak = true) (c : Nat) :
    ((s.afterStart st).stand c).seq = (s.stand c).seq := by
  have hwr : Wr 1 s (((s.restartMark st).writeTs st).handTs st) :=
    State.wr_handTs (State.wr_writeTs (State.wr_restartMark .refl (by decide) st) (by decide) st) st
  rw [State.afterStart, State.tryArm_broken ((State.lineOf_congr hwr.lines_kept st).trans hl) (by rwa [State.line_of_lines hwr.lines_kept]),
    Law.stand_field_bare Stand.seq (fun _ => rfl) (BareStand.handTs ..), Law.stand_field_ts Stand.seq _ _ _ fun _ _ => rfl,
    Law.stand_field_mark Stand.seq _ _ _ fun _ _ => rfl]

theorem State.lineOf_uncounted {t : State} (h : ∀ m, Law.lineUncounted t m = Law.lineUncounted s m) (st : Nat) : t.lineOf st = s.lineOf st :=
  State.lineOf_of_live (fun m => (congrArg Line.live (h m) :)) st

/-- A splice in BREAK leaves no stand of the line ARMED or MATCHED that was neither. -/
theorem State.splice_unarmed (hl : s.lineOf st = some l) (hb : (s.line l).inBreak = true) (h : (s.stand st).unarmed) (c : Nat) :
    ((s.splice c).stand st).unarmed := by
  by_cases hc : st = c
  · subst hc
    rcases s.splice_cases st with hnone | ⟨a, b, old, new, job, u, hu, hsplice⟩
    · rwa [hnone]
    · have hlines (m : Nat) : Law.lineUncounted u m = Law.lineUncounted s m := by
        have hswapped := LineCore.lines (s.armsSwapped_tables st a b old new job).1 m
        rcases hu with rfl | ⟨k, rfl⟩
        · exact hswapped
        · exact (LineCore.spliceEvent _ k m).trans hswapped
      have hseq : (u.stand st).seq = .running := by
        have hswapped : ((s.armsSwapped st a b old new job).stand st).seq = .running := by
          rw [State.armsSwapped, Law.stand_mod, if_pos rfl]
        rcases hu with rfl | ⟨k, rfl⟩
        · exact hswapped
        · exact (congrArg (fun t : Tbl Stand => (t.get st .cold).seq) (State.spliceEvent_stands ..)).trans hswapped
      generalize hv : u.modStand st ({ · with late := false, runout := false }) = v at hsplice
      have hvseq : (v.stand st).seq = .running := by rw [← hv, Law.stand_mod, if_pos rfl]; exact hseq
      have hvlines (m : Nat) : Law.lineUncounted v m = Law.lineUncounted s m := by rw [← hv]; exact hlines m
      have hrunning : ((s.splice st).stand st).seq = .running := by
        rw [hsplice, State.afterStart_broken ((State.lineOf_uncounted hvlines st).trans hl)
          ((congrArg Line.inBreak (hvlines l)).trans hb), hvseq]
      rw [Stand.unarmed, hrunning]
      exact ⟨nofun, nofun⟩
  · exact Stand.unarmed_of_seq (Law.stand_field_bare Stand.seq (fun _ => rfl) (BareStand.splice_other s hc)) h

end

/-! ## What counting and splices leave of the LINE_BREAK condition -/

section
variable (s : State) (st l : Nat)

theorem State.modJobAt_attn (o : Option Nat) (f : Job → Job) : (s.modJobAt o f).attn = s.attn := by
  obtain ⟨_, h⟩ := s.modJobAt_only o f
  rw [h]

theorem State.countBreak_attn : (s.countBreak l).attn = s.attn := by
  unfold State.countBreak
  split <;> simp

theorem State.spliceEvent_attn : (s.spliceEvent l).attn = s.attn := by
  unfold State.spliceEvent
  dsimp only
  split
  · rfl
  · split <;> exact State.modJobAt_attn ..
  all_goals exact State.modJobAt_attn ..

theorem State.armsSwapped_attn (a b : Arm) (old new : Nat) (job : Option Nat) : (s.armsSwapped st a b old new job).attn = s.attn := by
  simp [State.armsSwapped, State.seedDiameter, State.startMove, State.expire, State.setArm, State.dropPasteDrive]

theorem State.splice_lineBreak : (s.splice st).attn.find Cond.lineBreak.place = s.attn.find Cond.lineBreak.place := by
  rcases s.splice_cases st with hnone | ⟨a, b, old, new, job, u, hu, hsplice⟩
  · rw [hnone]
  · have hattn : u.attn = s.attn := by
      rcases hu with rfl | ⟨m, rfl⟩
      · exact s.armsSwapped_attn ..
      · exact (State.spliceEvent_attn ..).trans (s.armsSwapped_attn ..)
    rw [hsplice, (State.wr_afterStart .refl (Nat.le_refl 1) st).kept_break (by decide), State.modStand_attn, hattn]

end

/-! ## The break counted (R98 step 2, R115) -/

section
variable {s t : State} {st l n c : Nat}

/-- A line counts BREAK copies, and a job has some number of breaks. -/
def State.countsBreak (s : State) (l n c : Nat) : Prop := (s.line l).counting = .brk ∧ ∃ k, s.job n = some k ∧ k.breakCount = c

theorem State.countsBreak.of_tables (h : s.countsBreak l n c) (ht : t.lines = s.lines ∧ t.jobs = s.jobs) : t.countsBreak l n c := by
  unfold State.countsBreak State.job at *
  rwa [State.line_of_lines ht.1, ht.2]

theorem State.countBreak_countsBreak {j : Job} (hn : s.liveJob l = some n) (hj : s.job n = some j) :
    (s.countBreak l).countsBreak l n (min 65535 (j.breakCount + 1)) := by
  rw [State.countBreak, hn]
  dsimp only
  refine ⟨?_, { j with breakCount := satCount j.breakCount }, ?_, rfl⟩
  · rw [Law.line_mod, if_pos rfl]
  · show State.job (State.modJob s n _) n = _
    rw [Law.job_mod, if_pos rfl, hj]
    rfl

theorem State.spliceEvent_breakCount {k : Job} (m : Nat) (h : s.job n = some k) :
    ∃ q, (s.spliceEvent m).job n = some q ∧ q.breakCount = k.breakCount := by
  have counted : ∃ q, (s.modJobAt (s.liveJob m) fun j => { j with spliceCount := satCount j.spliceCount }).job n = some q ∧
      q.breakCount = k.breakCount := by
    cases s.liveJob m with
    | none => exact ⟨k, h, rfl⟩
    | some i =>
      rw [State.modJobAt, Law.job_mod]
      split
      · next hi => exact ⟨{ k with spliceCount := satCount k.spliceCount }, by rw [← hi, h]; rfl, rfl⟩
      · exact ⟨k, h, rfl⟩
  unfold State.spliceEvent
  dsimp only
  split
  · exact ⟨k, h, rfl⟩
  · split <;> exact counted
  all_goals exact counted

theorem State.countsBreak.spliceEvent (h : s.countsBreak l n c) (m : Nat) : (s.spliceEvent m).countsBreak l n c := by
  obtain ⟨hcount, k, hk, rfl⟩ := h
  refine ⟨?_, State.spliceEvent_breakCount m hk⟩
  rw [State.spliceEvent_line]
  split
  · rw [Line.spliced, hcount]
    exact hcount
  · exact hcount

theorem State.countsBreak.splice (h : s.countsBreak l n c) (st : Nat) : (s.splice st).countsBreak l n c := by
  rcases s.splice_cases st with hnone | ⟨a, b, old, new, job, u, hu, hsplice⟩
  · rwa [hnone]
  · have swapped := h.of_tables (s.armsSwapped_tables st a b old new job)
    have sent : u.countsBreak l n c := by
      rcases hu with rfl | ⟨m, rfl⟩
      · exact swapped
      · exact swapped.spliceEvent m
    rw [hsplice]
    exact State.countsBreak.of_tables (s := u.modStand st _) sent ((State.wr_afterStart .refl (Nat.le_refl 1) st).kept_lines (by decide))

end

end Sys2Proof.Machine
end
section
/-! Proofs about the entry into BREAK (R97, R98, R100): the steps of the entry, a pending changeover that takes effect, and the four sources
that STOP_LINE, a console and the pins are. -/

namespace Sys2Proof.Machine

/-! ## The steps of the entry (R98) -/

section
variable {s : State} {l st : Nat} {c : Cause}

/-- The entry into BREAK up to its break count. -/
def State.breakCounted (s : State) (l : Nat) (c : Cause) : State := (s.breakEntered l c).countBreak l

/-- The entry into BREAK up to the disarming of the line's stands. -/
def State.breakDisarmed (s : State) (l : Nat) (c : Cause) : State :=
  (s.breakCounted l c).each ((s.breakCounted l c).lineStands l) fun st s => s.disarm st

/-- The PASTING stands whose splice belongs to a line: its own stands, and those that paste for it. -/
def State.pastingFor (s : State) (l : Nat) : List Nat := (span 1 Config.stands).filter fun st =>
  (s.stand st).seq == .pasting && (s.lineOf st == some l || (s.stand st).pasteLine == some l)

/-- The entry into BREAK up to the splices completed. -/
def State.breakSpliced (s : State) (l : Nat) (c : Cause) : State :=
  (s.breakDisarmed l c).each ((s.breakDisarmed l c).pastingFor l) fun st s => s.splice st

/-- The entry into BREAK but for its condition. -/
def State.breakBraked (s : State) (l : Nat) (c : Cause) : State :=
  let u := s.breakSpliced l c
  if (u.line l).live.breakBrake then u.each (u.lineStands l) fun st s => s.drivePin (.brake st) true else u

theorem State.breakSteps_eq (s : State) (l : Nat) (c : Cause) : s.breakSteps l c = (s.breakBraked l c).raise .lineBreak l := by
  unfold State.breakSteps State.breakBraked State.breakSpliced State.breakDisarmed State.breakCounted State.breakEntered State.pastingFor
  rfl

theorem Wr.breakCounted (s : State) (l : Nat) (c : Cause) : Wr 2 s (s.breakCounted l c) :=
  State.wr_countBreak (State.breakEntered_writes s l c) (Nat.le_refl 2) l

theorem Wr.breakDisarmed (s : State) (l : Nat) (c : Cause) : Wr 2 s (s.breakDisarmed l c) :=
  State.wr_each (Wr.breakCounted s l c) _ _ fun st _ h => State.wr_disarm h st

theorem Wr.breakSpliced (s : State) (l : Nat) (c : Cause) : Wr 2 s (s.breakSpliced l c) :=
  State.wr_each (Wr.breakDisarmed s l c) _ _ fun st _ h => State.wr_splice h (Nat.le_refl 2) st

/-- The disarming writes no line and no job. -/
theorem State.breakDisarmed_tables (s : State) (l : Nat) (c : Cause) :
    (s.breakDisarmed l c).lines = (s.breakCounted l c).lines ∧ (s.breakDisarmed l c).jobs = (s.breakCounted l c).jobs :=
  (State.wr_each (k := 0) .refl _ _ fun st _ h => State.wr_disarm h st).kept_lines (by decide)

/-- Nor does BRAKE. -/
theorem Wr.breakBraked (s : State) (l : Nat) (c : Cause) : Wr 1 (s.breakSpliced l c) (s.breakBraked l c) := by
  unfold State.breakBraked
  dsimp only
  split
  · exact State.wr_each .refl _ _ fun st _ h => State.wr_brake h (Nat.le_refl 1) st true
  · exact .refl

/-! ### The stands -/

theorem State.breakCounted_stand (s : State) (l : Nat) (c : Cause) (st : Nat) : (s.breakCounted l c).stand st = s.stand st :=
  (congrArg (Tbl.get · st Stand.cold) (State.countBreak_stands ..)).trans (State.drivePin_stand ..)

theorem State.breakDisarmed_stand (s : State) (l : Nat) (c : Cause) (st : Nat) :
    (s.breakDisarmed l c).stand st = if st ∈ s.lineStands l then (s.stand st).disarmed else s.stand st := by
  have read := State.each_reads (g := State.stand) (h := Stand.disarmed) (fun u n m => State.disarm_stand u n m) Stand.disarmed_disarmed
    ((s.breakCounted l c).lineStands l) (s.breakCounted l c) st
  rw [(Wr.breakCounted s l c).lineStands, State.breakCounted_stand] at read
  rw [State.breakDisarmed, (Wr.breakCounted s l c).lineStands]
  exact read

/-- A PASTING stand is not disarmed. -/
theorem State.breakDisarmed_pasting (h : (s.stand st).seq = .pasting) : (s.breakDisarmed l c).stand st = s.stand st := by
  rw [State.breakDisarmed_stand]
  split
  · exact if_neg (by rw [h]; nofun)
  · rfl

theorem State.breakDisarmed_inBreak (s : State) (l : Nat) (c : Cause) : ((s.breakDisarmed l c).line l).inBreak = true := by
  rw [State.line_of_lines (s.breakDisarmed_tables l c).1]
  refine (congrArg Line.inBreak (LineCore.countBreak (s.breakEntered l c) l l) :).trans ?_
  show ((s.breakEntered l c).line l).inBreak = true
  rw [State.breakEntered_line]

theorem State.breakSpliced_unarmed (h : st ∈ s.lineStands l) : ((s.breakSpliced l c).stand st).unarmed := by
  refine (State.each_keeps (P := fun u => u.lineOf st = some l ∧ (u.line l).inBreak = true ∧ (u.stand st).unarmed)
    (fun n u ⟨hl, hb, hx⟩ => ?_) _ ⟨?_, s.breakDisarmed_inBreak l c, ?_⟩).2.2
  · exact ⟨(State.lineOf_uncounted (fun m => LineCore.splice u n m) st).trans hl,
      (congrArg Line.inBreak (LineCore.splice u n l) :).trans hb, State.splice_unarmed hl hb hx n⟩
  · exact ((Wr.breakDisarmed s l c).lineOf st).trans (State.lineOf_of_mem h)
  · rw [State.breakDisarmed_stand, if_pos h]
    exact Stand.disarmed_unarmed _

/-- The splice of a PASTING stand of the line is completed at its turn, and the other turns leave the stand. -/
theorem State.breakSpliced_splicedTo {a : Arm} {old new : Nat} (h1 : 1 ≤ st) (h16 : st ≤ 16)
    (hline : s.lineOf st = some l ∨ (s.stand st).pasteLine = some l) (hseq : (s.stand st).seq = .pasting)
    (hmay : (s.stand st).maySplice a old new) : ((s.breakSpliced l c).stand st).splicedTo a old new := by
  have hstand : (s.breakDisarmed l c).stand st = s.stand st := State.breakDisarmed_pasting hseq
  have hmem : st ∈ (s.breakDisarmed l c).pastingFor l := by
    refine List.mem_filter.mpr ⟨(Law.mem_span 1 16 st).mpr ⟨h1, h16⟩, ?_⟩
    rw [hstand, (Wr.breakDisarmed s l c).lineOf]
    simpa [hseq] using hline
  refine State.each_turn (P := fun u => (u.stand st).maySplice a old new) (Q := fun u => (u.stand st).splicedTo a old new)
    (List.Nodup.filter _ List.nodup_range') hmem (fun n _ hn u hu => ?_) (fun u hu => State.splice_splicedTo hu) (fun n _ hn u hu => ?_)
    (hstand ▸ hmay)
  · rwa [Law.stand_field_bare (Stand.maySplice · a old new) (fun x => x.maySplice_withoutCallOffs a old new)
      (BareStand.splice_other u (Ne.symm hn))]
  · rwa [Law.stand_field_bare (Stand.splicedTo · a old new) (fun x => x.splicedTo_withoutCallOffs a old new)
      (BareStand.splice_other u (Ne.symm hn))]

/-- BRAKE is asserted at the line's stands where its live plan says so, and nothing else of a stand changes. -/
theorem State.breakBraked_stand (s : State) (l : Nat) (c : Cause) (st : Nat) : (s.breakBraked l c).stand st =
    if (s.line l).live.breakBrake = true ∧ st ∈ s.lineStands l then { (s.breakSpliced l c).stand st with brake := true }
    else (s.breakSpliced l c).stand st := by
  have hwr := Wr.breakSpliced s l c
  unfold State.breakBraked
  dsimp only
  rw [hwr.kept_live, hwr.lineStands]
  split
  · next hbrake =>
    have read := State.each_reads (g := State.stand) (f := fun st u => u.drivePin (.brake st) true) (h := ({ · with brake := true }))
      (fun u n m => State.drivePin_stand u (.brake n) true m) (fun _ => rfl) (s.lineStands l) (s.breakSpliced l c) st
    simpa [hbrake] using read
  · next hbrake => rw [if_neg fun h => hbrake h.1]

/-! ### The count and the condition -/

theorem State.breakBraked_countsBreak {n : Nat} {j : Job} (hn : s.liveJob l = some n) (hj : s.job n = some j) :
    (s.breakBraked l c).countsBreak l n (min 65535 (j.breakCount + 1)) := by
  have hjobs := s.breakEntered_jobs l c
  have counted : (s.breakCounted l c).countsBreak l n (min 65535 (j.breakCount + 1)) :=
    State.countBreak_countsBreak ((State.liveJob_congr hjobs l).trans hn) ((congrArg (Tbl.find · n) hjobs).trans hj)
  have spliced : (s.breakSpliced l c).countsBreak l n (min 65535 (j.breakCount + 1)) :=
    State.each_keeps (P := (·.countsBreak l n (min 65535 (j.breakCount + 1)))) (fun st u hu => hu.splice st) _
      (counted.of_tables (s.breakDisarmed_tables l c))
  exact spliced.of_tables ((Wr.breakBraked s l c).kept_lines (by decide))

theorem State.breakBraked_lineBreak (s : State) (l : Nat) (c : Cause) :
    (s.breakBraked l c).attn.find Cond.lineBreak.place = s.attn.find Cond.lineBreak.place := by
  have disarmed : Wr 0 (s.breakCounted l c) (s.breakDisarmed l c) := State.wr_each .refl _ _ fun st _ h => State.wr_disarm h st
  have spliced : (s.breakSpliced l c).attn.find Cond.lineBreak.place = (s.breakDisarmed l c).attn.find Cond.lineBreak.place :=
    RollsAfter.each (fun u => u.attn.find Cond.lineBreak.place) _ (fun st u => u.splice_lineBreak st) _ _
  rw [(Wr.breakBraked s l c).kept_break (by decide), spliced, disarmed.kept_break (by decide), State.breakCounted, State.countBreak_attn,
    State.breakEntered, State.drivePin_attn, State.modLine_attn]

theorem State.breakSteps_lineBreak (s : State) (l : Nat) (c : Cause) : (s.breakSteps l c).attn.find Cond.lineBreak.place =
    some (AttnEntry.raised (s.attn.find Cond.lineBreak.place) l) := by
  rw [State.breakSteps_eq, State.raise]
  dsimp only
  rw [Tbl.find_put_same, State.breakBraked_lineBreak]

end

/-! ## What an entry with no changeover pending makes of the line's job and stands -/

section
variable {s t u : State} {l : Nat} {c : Cause}

/-- The live job's break is counted, no stand of the line waits to paste, BRAKE is as the live plan says, and the pastes of the line are
done (R98 steps 2 to 5). -/
def State.breakServed (s t : State) (l : Nat) : Prop :=
  (∀ n j, s.liveJob l = some n → s.job n = some j → (t.line l).counting = .brk ∧ ∃ k, t.job n = some k ∧
    k.breakCount = min 65535 (j.breakCount + 1)) ∧
  (∀ st ∈ s.lineStands l, (t.stand st).unarmed) ∧
  ((s.line l).live.breakBrake = true → ∀ st ∈ s.lineStands l, (t.stand st).brake = true) ∧
  ∀ st a old new, 1 ≤ st → st ≤ 16 → (s.lineOf st = some l ∨ (s.stand st).pasteLine = some l) → (s.stand st).seq = .pasting →
    (s.stand st).active = some a → (s.stand st).armIn .ready = some a.other → ((s.stand st).arm a).roll = some old →
    ((s.stand st).arm a.other).roll = some new → (t.stand st).splicedTo a old new

theorem State.breakBraked_served (s : State) (l : Nat) (c : Cause) : s.breakServed (s.breakBraked l c) l := by
  refine ⟨fun n j hn hj => State.breakBraked_countsBreak hn hj, fun st hst => ?_, fun hbrake st hst => ?_,
    fun st a old new h1 h16 hline hseq hactive hready hold hnew => ?_⟩
  · have unarmed := State.breakSpliced_unarmed (c := c) hst
    rw [State.breakBraked_stand]
    generalize (s.breakSpliced l c).stand st = y at unarmed ⊢
    split
    · exact unarmed
    · exact unarmed
  · rw [State.breakBraked_stand, if_pos ⟨hbrake, hst⟩]
  · have spliced := State.breakSpliced_splicedTo (c := c) h1 h16 hline hseq ⟨hactive, hready, hold, hnew⟩
    rw [State.breakBraked_stand]
    generalize (s.breakSpliced l c).stand st = y at spliced ⊢
    split
    · exact spliced
    · exact spliced

/-- What leaves the lines, the jobs and, but for their call-off links, the stands leaves what the entry has done. -/
theorem State.breakServed.settled (h : s.breakServed t l) (hlines : u.lines = t.lines) (hjobs : u.jobs = t.jobs)
    (hbare : ∀ st, Law.standBare st u = Law.standBare st t) : s.breakServed u l := by
  obtain ⟨hcount, hwait, hbrake, hsplice⟩ := h
  refine ⟨?_, fun st hst => ?_, fun hplan st hst => ?_, fun st a old new h1 h16 hline hseq ha hb hold hnew => ?_⟩
  · unfold State.job at hcount ⊢
    rwa [State.line_of_lines hlines, hjobs]
  · exact Stand.unarmed_of_seq (Law.stand_field_bare Stand.seq (fun _ => rfl) (hbare st)) (hwait st hst)
  · exact (Law.stand_field_bare Stand.brake (fun _ => rfl) (hbare st)).trans (hbrake hplan st hst)
  · rw [Law.stand_field_bare (Stand.splicedTo · a old new) (fun x => x.splicedTo_withoutCallOffs a old new) (hbare st)]
    exact hsplice st a old new h1 h16 hline hseq ha hb hold hnew

theorem State.breakSteps_served (s : State) (l : Nat) (c : Cause) : s.breakServed (s.breakSteps l c) l := by
  rw [State.breakSteps_eq]
  exact (s.breakBraked_served l c).settled (State.raise_lines ..) (State.raise_jobs ..) fun st => BareStand.stands (State.raise_stands ..) st

end

/-! ## A pending changeover that takes effect (R98, R55) -/

section
variable {s t u : State} {l n : Nat} {c : Cause}

/-- Below level 4 the jobs' table keeps its form, and no job appears. -/
theorem Wr.kept_jobTable {k : Nat} (h : Wr k s t) (hk : k < 4) :
    (s.jobs.rising = true → t.jobs.rising = true) ∧ ∀ n, s.job n = none → t.job n = none := by
  induction h with
  | refl => exact ⟨id, fun _ => id⟩
  | @job u _ _ m j j' hj _ ih =>
    refine ⟨fun hs => Tbl.rising_put m (some j') (ih.1 hs), fun n hn => ?_⟩
    rw [Law.job_put, if_neg, ih.2 n hn]
    rintro rfl
    exact absurd ((ih.2 n hn).symm.trans hj) nofun
  | small _ _ _ ih | roll _ _ _ ih | bay _ _ _ ih | order _ _ _ ih | freeOrder _ _ ih | newOrder _ _ _ _ _ ih | vehicle _ _ _ ih
  | segment _ _ _ ih | station _ _ _ ih | raised _ _ _ _ _ ih | freeRoll _ _ _ ih | stand _ _ _ ih | line _ _ _ ih => exact ih
  | other _ h4 | newRoll _ h4 | grade _ h4 | putJob _ h4 | node _ h4 | route _ h4 | putStation _ h4 | attnClear _ h4 | cold _ h4 => omega

/-- The first record of a rising table that meets a test is the one of the lowest number. -/
theorem Tbl.first_iff_least {α : Type} {r : Tbl α} {p : Nat → α → Bool} (hrise : r.rising = true) : r.first p = some n ↔
    (∃ x, r.find n = some x ∧ p n x = true) ∧ ∀ m < n, ∀ x, r.find m = some x → p m x = false := by
  have least {k : Nat} (hk : r.first p = some k) :
      (∃ x, r.find k = some x ∧ p k x = true) ∧ ∀ m < k, ∀ x, r.find m = some x → p m x = false := by
    obtain ⟨⟨_, x⟩, hfound, rfl⟩ := Option.map_eq_some_iff.mp hk
    obtain ⟨hx, before, after, hsplit, hbefore⟩ := List.find?_eq_some_iff_append.mp hfound
    refine ⟨⟨x, Law.find_rising hrise (hsplit ▸ List.mem_append_right before List.mem_cons_self), hx⟩, fun m hm y hy => ?_⟩
    have hmem := Tbl.mem_of_find hy
    have hpair := Tbl.rising_iff.mp hrise
    rw [hsplit] at hmem hpair
    rcases List.mem_append.mp hmem with hmem | hmem
    · simpa using hbefore _ hmem
    · have hup := (List.pairwise_append.mp hpair).2.1
      rcases List.mem_cons.mp hmem with heq | hmem
      · cases heq
        exact absurd hm (Nat.lt_irrefl _)
      · exact absurd hm (Nat.lt_asymm ((List.pairwise_cons.mp hup).1 _ hmem))
  refine ⟨least, fun ⟨⟨x, hx, hpx⟩, hleast⟩ => ?_⟩
  cases hk : r.first p with
  | none => exact absurd (Tbl.first_none.mp hk n x (Tbl.mem_of_find hx)) (by rw [hpx]; nofun)
  | some k =>
    obtain ⟨⟨y, hy, hpy⟩, hbelow⟩ := least hk
    rcases Nat.lt_trichotomy k n with hlt | heq | hlt
    · exact absurd (hleast k hlt y hy) (by rw [hpy]; nofun)
    · rw [heq]
    · exact absurd (hbelow n hlt x hx) (by rw [hpx]; nofun)

/-- Below level 3 a line's live job stays the same. -/
theorem Wr.liveJob {k : Nat} (h : Wr k s t) (hk : k < 3) (hrise : s.jobs.rising = true) (hn : s.liveJob l = some n) :
    t.liveJob l = some n := by
  obtain ⟨⟨j, hj, hlive⟩, hleast⟩ := (Tbl.first_iff_least hrise).mp hn
  obtain ⟨htable, hnone⟩ := h.kept_jobTable (by omega)
  have alike (m : Nat) (q : Job) (hq : s.job m = some q) : ∃ x, t.job m = some x ∧ x.state = q.state ∧ x.line = q.line := by
    obtain ⟨x, hx, hline, -, hsame⟩ := h.kept_job (by omega) m q hq
    exact ⟨x, hx, (hsame hk).1, hline⟩
  refine (Tbl.first_iff_least (htable hrise)).mpr ⟨?_, fun m hm x hx => ?_⟩
  · obtain ⟨x, hx, hstate, hline⟩ := alike n j hj
    exact ⟨x, hx, by rwa [hstate, hline]⟩
  · cases hq : s.job m with
    | none => exact absurd ((hnone m hq).symm.trans hx) nofun
    | some q =>
      obtain ⟨y, hy, hstate, hline⟩ := alike m q hq
      cases hy.symm.trans hx
      rw [hstate, hline]
      exact hleast m hm q hq

/-- The waiting plan is live, the job it names LIVE with its figures, and the job before it CLOSED. -/
def State.planTakesOver (s t : State) (l : Nat) : Prop :=
  (t.line l).live = (s.line l).working ∧ (t.line l).working = (s.line l).working ∧
  ∀ n j, s.jobs.rising = true → s.liveJob l = some n → s.job n = some j → (s.line l).working.job ≠ some n →
    (∃ k, t.job n = some k ∧ k.state = .closed) ∧
    ∀ m k, (s.line l).working.job = some m → s.job m = some k → ∃ x, t.job m = some x ∧ x.state = .live ∧
      x.target = some (s.line l).working.target ∧ x.allowance = some (s.line l).working.allowance

theorem Wr.takeChangeover_planTakesOver (h : Wr 2 s u) : s.planTakesOver (u.takeChangeover l false) l := by
  obtain ⟨hlive, hworking, -, hmade, hclosed⟩ := Law.takeChangeover u l
  have hplan : (u.line l).working = (s.line l).working := ((h.kept_line (by decide) l).2 (by decide)).2.1
  rw [hplan] at hlive hworking hmade hclosed
  refine ⟨hlive, hworking, fun n j hrise hn hj hother => ⟨?_, fun m k hm hk => ?_⟩⟩
  · obtain ⟨x, hx, -⟩ := h.kept_job (by decide) n j hj
    exact hclosed n x (h.liveJob (by decide) hrise hn) hx hother
  · obtain ⟨x, hx, -⟩ := h.kept_job (by decide) m k hk
    obtain ⟨q, hq, hstate, -, htarget, hallowance⟩ := hmade m x hm hx
    exact ⟨q, hq, hstate, htarget, hallowance⟩

theorem State.closeOutgoing_attn (s : State) (l : Nat) : (s.closeOutgoing l).attn = s.attn := by
  unfold State.closeOutgoing
  split
  · exact (RollsAfter.each State.attn _ (fun _ _ => by simp) _ _).trans (State.modJob_attn ..)
  · rfl

theorem State.planCounted_attn (s : State) (l : Nat) : (s.planCounted l).attn = s.attn := by
  have taken : (s.planTaken l).attn = s.attn := by
    obtain ⟨_, h⟩ := (s.closeOutgoing l).makeLive_only (s.line l).working.job (s.line l).working
    rw [State.planTaken, h]
    exact s.closeOutgoing_attn l
  unfold State.planCounted
  split
  · rw [State.countBreak_attn, taken]
  · exact taken

/-- A line in BREAK whose LINE_BREAK entry is some value. -/
def State.brokenWith (s : State) (l : Nat) (o : Option AttnEntry) : Prop :=
  (s.line l).inBreak = true ∧ s.attn.find Cond.lineBreak.place = o

theorem State.brokenWith.wr {o : Option AttnEntry} (h : s.brokenWith l o) (w : Wr 1 s t) : t.brokenWith l o := by
  rw [State.brokenWith, State.line_of_lines w.lines_kept, w.kept_break (by decide)]
  exact h

theorem State.brokenWith.splice {o : Option AttnEntry} (h : s.brokenWith l o) (st : Nat) : (s.splice st).brokenWith l o :=
  ⟨(congrArg Line.inBreak (LineCore.splice s st l) :).trans h.1, (s.splice_lineBreak st).trans h.2⟩

theorem State.brokenWith.standJoins {o : Option AttnEntry} (h : s.brokenWith l o) (m st : Nat) : (s.standJoins m st).brokenWith l o := by
  have cleared : ((s.modStand st Stand.clearChannels).restartMark st).brokenWith l o :=
    State.brokenWith.wr (s := s.modStand st _) h (State.wr_restartMark .refl (Nat.le_refl 1) st)
  have joined : (s.joined m st).brokenWith l o := cleared.wr (State.wr_brakeByPlan .refl (Nat.le_refl 1) m st)
  rw [State.standJoins_cases]
  split
  · exact joined.splice st
  · exact joined

/-- A changed list of positions of a line in BREAK raises no LINE_BREAK. -/
theorem State.brokenWith.replan {o : Option AttnEntry} (h : s.brokenWith l o) (old : List Nat) (start : Bool) :
    (s.replan l old start).brokenWith l o := by
  refine State.replan_keeps (P := (·.brokenWith l o)) ?_ (fun u st _ hu => hu.standJoins l st)
    (fun u st _ hu => hu.wr (State.wr_brakeByPlan .refl (Nat.le_refl 1) l st)) (fun u n hu => hu.wr (State.wr_dealCallOff .refl l n))
    (fun u st hu => hu.wr (State.wr_evalCallOff .refl st)) (fun u joining hu => ?_)
    (fun u st _ hu => hu.wr (State.wr_firstStart .refl (Nat.le_refl 1) st))
    (fun u st _ hu => hu.wr (State.wr_reevaluate .refl (Nat.le_refl 1) st))
  · exact State.each_keeps (P := (·.brokenWith l o)) (fun st u hu => hu.wr (State.wr_standLeaves .refl (Nat.le_refl 1) st)) _ h
  · rwa [LineCore.joinBreak _ _ _ hu.1]

theorem State.planCounted_inBreak (s : State) (l : Nat) : ((s.planCounted l).line l).inBreak = (s.line l).inBreak := by
  have taken : ((s.planTaken l).line l).inBreak = (s.line l).inBreak := by rw [State.planTaken_line, if_pos rfl]
  unfold State.planCounted
  split
  · exact (congrArg Line.inBreak (LineCore.countBreak (s.planTaken l) l l) :).trans taken
  · exact taken

theorem State.takeChangeover_lineBreak (h : (s.line l).inBreak = true) :
    (s.takeChangeover l false).attn.find Cond.lineBreak.place = s.attn.find Cond.lineBreak.place := by
  rw [State.takeChangeover_stopped]
  refine (State.brokenWith.replan ⟨(s.planCounted_inBreak l).trans h, ?_⟩ _ true).2
  rw [State.planCounted_attn]

end
/-! ## The entry as a whole -/

section
variable {s b t u : State} {l : Nat} {c : Cause}

/-- What a line's entry into BREAK leads to (R98). -/
def State.entersBreak (s t : State) (l : Nat) (c : Cause) : Prop :=
  (t.line l).inBreak = true ∧ (t.line l).cause = some c ∧ (t.line l).stop = true ∧ (t.line l).lowMark = false ∧ (t.line l).pending = false ∧
  t.attn.find Cond.lineBreak.place = some (AttnEntry.raised (s.attn.find Cond.lineBreak.place) l) ∧
  ((s.line l).pending = false → s.breakServed t l) ∧ ((s.line l).pending = true → s.planTakesOver t l)

theorem State.breakSteps_inBreak (s : State) (l : Nat) (c : Cause) : ((s.breakSteps l c).line l).inBreak = true := by
  have hline := Law.breakSteps s l l c
  rw [if_pos rfl] at hline
  generalize s.breakSteps l c = u at hline ⊢
  exact (congrArg Line.inBreak hline :)

theorem State.enterBreak_enters (s : State) (l : Nat) (c : Cause) : s.entersBreak (s.enterBreak l c) l c := by
  have hsteps : Wr 2 s (s.breakSteps l c) := State.wr_breakSteps .refl (Nat.le_refl 2) l c
  have hpending : ((s.breakSteps l c).line l).pending = (s.line l).pending := ((hsteps.kept_line (by decide) l).2 (by decide)).2.2
  have hbroken := s.breakSteps_inBreak l c
  have hraised := s.breakSteps_lineBreak l c
  have hserved := s.breakSteps_served l c
  obtain ⟨hin, hcause, hstop, hlow, hclear⟩ := Law.enterBreak s l c
  have henter : s.enterBreak l c =
      if ((s.breakSteps l c).line l).pending then (s.breakSteps l c).takeChangeover l false else s.breakSteps l c := by
    unfold State.enterBreak
    dsimp only
  generalize s.breakSteps l c = u at *
  refine ⟨hin, hcause, hstop, hlow, hclear, ?_, fun hno => ?_, fun hyes => ?_⟩
  · rw [henter]
    split
    · exact (State.takeChangeover_lineBreak hbroken).trans hraised
    · exact hraised
  · rw [henter, hpending, hno]
    exact hserved
  · rw [henter, hpending, hyes]
    exact hsteps.takeChangeover_planTakesOver

/-- What leaves the lines, the jobs, the LINE_BREAK entry and, but for their call-off links, the stands leaves what the entry has led to. -/
theorem State.entersBreak.settled (h : s.entersBreak t l c) (hlines : u.lines = t.lines) (hjobs : u.jobs = t.jobs)
    (hattn : u.attn.find Cond.lineBreak.place = t.attn.find Cond.lineBreak.place) (hbare : ∀ st, Law.standBare st u = Law.standBare st t) :
    s.entersBreak u l c := by
  obtain ⟨hin, hcause, hstop, hlow, hclear, hraised, hserved, hplan⟩ := h
  unfold State.entersBreak State.planTakesOver at *
  rw [State.line_of_lines hlines, hattn]
  refine ⟨hin, hcause, hstop, hlow, hclear, hraised, fun hno => (hserved hno).settled hlines hjobs hbare, fun hyes => ?_⟩
  unfold State.job at hplan ⊢
  rw [hjobs]
  exact hplan hyes

theorem State.entersBreak.finish (h : s.entersBreak t l c) : s.entersBreak t.finish l c := by
  have hwr := State.finish_writes t
  obtain ⟨hlines, hjobs⟩ := hwr.kept_lines (by decide)
  exact h.settled hlines hjobs (hwr.kept_break (by decide)) (BareStand.finish t)

/-- Two states of a press that differ in the levels of its break pins alone. -/
structure State.differInPins (s b : State) : Prop where
  attn : b.attn = s.attn
  jobs : b.jobs = s.jobs
  line : ∀ m, ∃ jam, b.line m = { s.line m with jam := jam }
  stand : ∀ st, ∃ web, b.stand st = { s.stand st with webBreak := web }

/-- The levels of the pins do not matter to what an entry leads to. -/
theorem State.entersBreak.of_pins (h : b.entersBreak t l c) (hpins : s.differInPins b) : s.entersBreak t l c := by
  have hlive (m : Nat) : (b.line m).live = (s.line m).live := by
    obtain ⟨jam, hm⟩ := hpins.line m
    rw [hm]
  have hplan : (b.line l).pending = (s.line l).pending ∧ (b.line l).working = (s.line l).working := by
    obtain ⟨jam, hl⟩ := hpins.line l
    rw [hl]
    exact ⟨rfl, rfl⟩
  have hstand (st : Nat) : (b.stand st).seq = (s.stand st).seq ∧ (b.stand st).pasteLine = (s.stand st).pasteLine ∧
      (b.stand st).active = (s.stand st).active ∧ (b.stand st).armIn .ready = (s.stand st).armIn .ready ∧
      (b.stand st).arm = (s.stand st).arm := by
    obtain ⟨web, hst⟩ := hpins.stand st
    rw [hst]
    exact ⟨rfl, rfl, rfl, rfl, funext fun a => by cases a <;> rfl⟩
  unfold State.entersBreak State.breakServed State.planTakesOver State.job State.liveJob at h ⊢
  simp only [hpins.attn, hpins.jobs, hlive, hplan, hstand, State.lineStands_of_live hlive, State.lineOf_of_live hlive] at h
  exact h

end

/-! ## The sources (R97) -/

section
variable {s : State} {l st : Nat} {c : Cause} {e : Exchange} {y : Station} {more : Bool}

theorem State.sourceActive_broken (h : (s.line l).inBreak = true) (c : Cause) : s.sourceActive l c = s := if_pos h

theorem State.sourceActive_clear (h : (s.line l).inBreak = false) (c : Cause) : s.sourceActive l c = s.enterBreak l c :=
  if_neg (by rw [h]; exact Bool.false_ne_true)

theorem State.differInPins_fresh (s : State) : s.differInPins s.fresh := ⟨rfl, rfl, fun _ => ⟨_, rfl⟩, fun _ => ⟨_, rfl⟩⟩

theorem State.differInPins_heard (s : State) (e : Exchange) (more : Bool) : s.differInPins (s.heard e more) :=
  ⟨State.heard_attn, State.heard_jobs, fun m => ⟨_, Law.heard_line m⟩, fun st => ⟨_, Law.heard_stand st⟩⟩

theorem State.differInPins_web (s : State) (st : Nat) : s.differInPins (s.fresh.modStand st ({ · with webBreak := true })) := by
  refine ⟨rfl, rfl, fun _ => ⟨_, rfl⟩, fun c => ?_⟩
  rw [Law.stand_mod]
  split
  · next hc => exact ⟨true, by rw [hc]; rfl⟩
  · exact ⟨_, rfl⟩

theorem State.differInPins_jam (s : State) (l : Nat) : s.differInPins (s.fresh.modLine l ({ · with jam := true })) := by
  refine ⟨rfl, rfl, fun m => ?_, fun _ => ⟨_, rfl⟩⟩
  rw [Law.line_mod]
  split
  · next hm => exact ⟨true, by rw [hm]; rfl⟩
  · exact ⟨_, rfl⟩

/-! ### STOP_LINE (R100) -/

theorem exec_stopLine (l : Nat) (s : State) : exec (.stopLine l) s = request (.stopLine l) (·.stopLineRequest l) s := rfl

theorem State.stopLineRequest_enabled (hl : lineOk l = true) (henabled : (s.line l).enables.stopLine = true) :
    s.stopLineRequest l = (s.sourceActive l .stopLine).ok := by
  rw [State.stopLineRequest, if_pos hl, if_pos henabled]

theorem execStopLine_enters (htakes : s.takes (.stopLine l) = true) (hl : lineOk l = true) (henabled : (s.line l).enables.stopLine = true)
    (hclear : (s.line l).inBreak = false) :
    ∃ t, exec (.stopLine l) s = .next t ∧ t.answers (.stopLine l) .ok [] ∧ s.entersBreak t l .stopLine := by
  have hrequest : s.fresh.stopLineRequest l = (s.fresh.enterBreak l .stopLine).ok := by
    rw [State.stopLineRequest_enabled (s := s.fresh) hl henabled, State.sourceActive_clear (s := s.fresh) hclear]
  have hport : (s.fresh.enterBreak l .stopLine).port = s.port :=
    ((State.wr_enterBreak (k := 3) .refl (Nat.le_refl 3) l .stopLine).kept (by decide)).port
  have enters := (s.fresh.enterBreak_enters l .stopLine).of_pins s.differInPins_fresh
  generalize s.fresh.enterBreak l .stopLine = u at hrequest hport enters
  have replied : s.entersBreak (u.replied (.stopLine l) .ok []) l .stopLine := enters.settled rfl rfl rfl fun _ => rfl
  refine ⟨_, request_eq (h := (·.stopLineRequest l)) htakes hrequest hport, ?_, replied.finish⟩
  exact ((State.finish_writes _).kept (by decide)).port

/-! ### Console STOP (R100) -/

theorem exec_consoleStop (more : Bool) (s : State) : exec (.consoleStop more) s = execConsoleStop more s := rfl

theorem execConsoleStop_otherRole (h : s.hears e y) (hr : ∀ l, y.role ≠ .console l) :
    exec (.consoleStop more) s = .next ((s.heard e more).refuse e.addr .consoleEvent .badArgument) := by
  rw [exec_consoleStop, execConsoleStop]
  refine Law.report_refuse h ?_
  cases hx : y.role with
  | console l => exact absurd hx (hr l)
  | _ => rfl

theorem execConsoleStop_console (h : s.hears e y) (hr : y.role = .console l) :
    exec (.consoleStop more) s = .next ((s.heard e more).consoleStopAt e.addr l).finish := by
  rw [exec_consoleStop, execConsoleStop, report_heard h, hr]

theorem execConsoleStop_enters (h : s.hears e y) (hr : y.role = .console l) (henabled : (s.line l).enables.console = true)
    (hclear : (s.line l).inBreak = false) : ∃ t, exec (.consoleStop more) s = .next t ∧ s.entersBreak t l .console := by
  have hstop : (s.heard e more).consoleStopAt e.addr l = ((s.heard e more).enterBreak l .console).accept e.addr .consoleEvent := by
    rw [State.consoleStopAt, Law.heard_line, if_pos henabled, State.sourceActive_clear ((congrArg Line.inBreak (Law.heard_line l)).trans hclear)]
  have enters := ((s.heard e more).enterBreak_enters l .console).of_pins (s.differInPins_heard e more)
  generalize (s.heard e more).enterBreak l .console = u at hstop enters
  obtain ⟨sts, haccept⟩ := u.accept_only e.addr .consoleEvent
  refine ⟨_, execConsoleStop_console h hr, State.entersBreak.finish ?_⟩
  rw [hstop, haccept]
  exact enters.settled rfl rfl rfl fun _ => rfl

/-! ### The pins (R97) -/

theorem execWebBreakPin_awake (hawake : s.awake = true) (hst : standOk st = true) (hlow : (s.stand st).webBreak = false) :
    exec (.webBreakPin st) s = .next (s.fresh.webBreak st).finish := by
  show execWebBreakPin st s = _
  rw [execWebBreakPin, hst, hlow]
  exact if_pos hawake

theorem execWebBreakPin_high (h : (s.stand st).webBreak = true) : exec (.webBreakPin st) s = .next s := by
  show execWebBreakPin st s = _
  rw [execWebBreakPin, h, Bool.not_true, Bool.and_false]
  rfl

/-- A web-break pin that is no enabled source, or whose line is in BREAK, changes its level alone. -/
theorem State.webBreak_quiet (h : ∀ l, s.lineOf st = some l → (s.line l).enables.webBreak = false ∨ (s.line l).inBreak = true) :
    s.webBreak st = s.modStand st ({ · with webBreak := true }) := by
  unfold State.webBreak
  dsimp only
  split
  · next l hl =>
    rcases h l hl with henabled | hbroken
    · exact if_neg (by rw [henabled]; exact Bool.false_ne_true)
    · rw [State.sourceActive_broken (s := s.modStand st _) hbroken]
      exact ite_self _
  · rfl

theorem State.webBreak_enters (hl : s.lineOf st = some l) (henabled : (s.line l).enables.webBreak = true) (hclear : (s.line l).inBreak = false) :
    s.webBreak st = (s.modStand st ({ · with webBreak := true })).enterBreak l (.webBreak st) := by
  rw [State.webBreak, hl]
  dsimp only
  rw [if_pos henabled, State.sourceActive_clear (s := s.modStand st _) hclear]

theorem execFolderJam_awake (hawake : s.awake = true) (hl : lineOk l = true) (hlow : (s.line l).jam = false) :
    exec (.folderJam l) s = .next (s.fresh.folderJam l).finish := by
  show execFolderJam l s = _
  rw [execFolderJam, hl, hlow]
  exact if_pos hawake

theorem execFolderJam_high (h : (s.line l).jam = true) : exec (.folderJam l) s = .next s := by
  show execFolderJam l s = _
  rw [execFolderJam, h, Bool.not_true, Bool.and_false]
  rfl

theorem State.jammed_line (s : State) (l : Nat) :
    (s.modLine l ({ · with jam := true })).line l = { s.line l with jam := true } := (Law.line_mod ..).trans (if_pos rfl)

theorem State.folderJam_quiet (h : (s.line l).enables.jam = false ∨ (s.line l).inBreak = true) :
    s.folderJam l = s.modLine l ({ · with jam := true }) := by
  unfold State.folderJam
  dsimp only
  rcases h with henabled | hbroken
  · exact if_neg (by rw [henabled]; exact Bool.false_ne_true)
  · rw [State.sourceActive_broken (by rw [State.jammed_line]; exact hbroken)]
    exact ite_self _

theorem State.folderJam_enters (henabled : (s.line l).enables.jam = true) (hclear : (s.line l).inBreak = false) :
    s.folderJam l = (s.modLine l ({ · with jam := true })).enterBreak l .folderJam := by
  rw [State.folderJam, if_pos henabled, State.sourceActive_clear (by rw [State.jammed_line]; exact hclear)]

/-- A pin's level stays through an entry into BREAK and the pass after it. -/
theorem State.enterBreak_finish_pins (s : State) (l : Nat) (c : Cause) (st : Nat) :
    (((s.enterBreak l c).finish).stand st).webBreak = (s.stand st).webBreak ∧ (((s.enterBreak l c).finish).line l).jam = (s.line l).jam := by
  have hwr : Wr 3 s (s.enterBreak l c).finish := State.wr_finish (State.wr_enterBreak .refl (Nat.le_refl 3) l c)
  obtain ⟨-, -, -, -, -, -, hweb⟩ := (hwr.kept_stand (by decide) st).1 (by decide)
  obtain ⟨-, -, -, -, -, -, hjam⟩ := (hwr.kept_line (by decide) l).1 (by decide)
  exact ⟨hweb, hjam⟩

end

/-- Settles O40: each source's refusals and its entry; what an entry leads to is read off the steps of R98, and off the changeover where one
is pending. -/
theorem breakEntry : Obligations.BreakEntry := by
  unfold Obligations.BreakEntry
  intro entered
  have entry {s t : State} {l : Nat} {c : Cause} (h : s.entersBreak t l c) : entered s t l c := h
  clear_value entered
  refine ⟨fun s l htakes => ⟨fun hl => ?_, fun h1 h4 hoff => ?_, fun h1 h4 hon hbroken => ?_, fun h1 h4 hon hclear => ?_⟩,
    fun s e y more h => ⟨execConsoleStop_otherRole h, fun l hr => ⟨fun hoff => ?_, fun hon hbroken => ?_, fun hon hclear => ?_⟩⟩,
    fun s st hawake h1 h16 => ⟨execWebBreakPin_high, fun hlow hquiet => ?_, fun l hlow hl hon hclear => ?_⟩,
    fun s l hawake h1 h4 => ⟨execFolderJam_high, fun hlow hquiet => ?_, fun hlow hon hclear => ?_⟩⟩
  · refine request_refused htakes (if_neg ?_)
    rw [lineOk_iff]
    omega
  · refine request_refused htakes ?_
    rw [State.stopLineRequest, if_pos (lineOk_iff.mpr ⟨h1, h4⟩)]
    exact if_neg (by rw [show (s.fresh.line l).enables.stopLine = false from hoff]; exact Bool.false_ne_true)
  · have hrequest := State.stopLineRequest_enabled (s := s.fresh) (lineOk_iff.mpr ⟨h1, h4⟩) hon
    rw [State.sourceActive_broken (s := s.fresh) hbroken] at hrequest
    exact request_eq_quiet (h := (·.stopLineRequest l)) htakes hrequest rfl rfl
  · obtain ⟨t, hexec, hanswers, henters⟩ := execStopLine_enters htakes (lineOk_iff.mpr ⟨h1, h4⟩) hon hclear
    exact ⟨t, hexec, hanswers, entry henters⟩
  · have hstop : (s.heard e more).consoleStopAt e.addr l = (s.heard e more).refuse e.addr .consoleEvent .badState := by
      rw [State.consoleStopAt, Law.heard_line, hoff]
      rfl
    rw [execConsoleStop_console h hr, hstop, State.refuse_finish State.heard_passDue]
  · have hstop : (s.heard e more).consoleStopAt e.addr l = (s.heard e more).accept e.addr .consoleEvent := by
      rw [State.consoleStopAt, Law.heard_line, if_pos hon, State.sourceActive_broken (by rwa [Law.heard_line])]
    rw [execConsoleStop_console h hr, hstop, State.accept_finish State.heard_passDue]
  · obtain ⟨t, hexec, henters⟩ := execConsoleStop_enters (more := more) h hr hon hclear
    exact ⟨t, hexec, entry henters⟩
  · rw [execWebBreakPin_awake hawake (standOk_iff.mpr ⟨h1, h16⟩) hlow, State.webBreak_quiet (s := s.fresh) hquiet, State.finish_idle rfl]
    rfl
  · have hexec := execWebBreakPin_awake hawake (standOk_iff.mpr ⟨h1, h16⟩) hlow
    rw [State.webBreak_enters (s := s.fresh) hl hon hclear] at hexec
    refine ⟨_, hexec, entry (State.entersBreak.finish ((State.enterBreak_enters _ l _).of_pins (s.differInPins_web st))), fun _ => ?_⟩
    rw [(State.enterBreak_finish_pins ..).1, Law.stand_mod, if_pos rfl]
  · rw [execFolderJam_awake hawake (lineOk_iff.mpr ⟨h1, h4⟩) hlow, State.folderJam_quiet (s := s.fresh) hquiet, State.finish_idle rfl]
    rfl
  · have hexec := execFolderJam_awake hawake (lineOk_iff.mpr ⟨h1, h4⟩) hlow
    rw [State.folderJam_enters (s := s.fresh) hon hclear] at hexec
    refine ⟨_, hexec, entry (State.entersBreak.finish ((State.enterBreak_enters _ l _).of_pins (s.differInPins_jam l))), fun _ => ?_⟩
    rw [(State.enterBreak_finish_pins _ l .folderJam 0).2, State.jammed_line]

end Sys2Proof.Machine
end

section
/-! Proofs about leaving BREAK (R83, R99): when a line may leave, what leaving makes of the line and of the stands that start, and the pins
gone inactive. -/

namespace Sys2Proof.Machine

/-! ## When a line may leave BREAK (R99) -/

section
variable {s t : State} {l : Nat}

/-- A line is in BREAK, and of its enabled sources no pin is active and no stand run out. -/
def State.freeToLeave (s : State) (l : Nat) : Prop := (s.line l).inBreak = true ∧
  ¬ ((s.line l).enables.webBreak = true ∧ ∃ st ∈ s.lineStands l, (s.stand st).webBreak = true) ∧
  ¬ ((s.line l).enables.jam = true ∧ (s.line l).jam = true) ∧
  ¬ ((s.line l).enables.runout = true ∧ ∃ st ∈ s.lineStands l, (s.stand st).runout = true)

theorem State.pinActive_iff (s : State) (l : Nat) : s.pinActive l = true ↔
    ((s.line l).enables.webBreak = true ∧ ∃ st ∈ s.lineStands l, (s.stand st).webBreak = true) ∨
    ((s.line l).enables.jam = true ∧ (s.line l).jam = true) := by
  rw [State.pinActive, Bool.or_eq_true, Bool.and_eq_true, Bool.and_eq_true, List.any_eq_true]

theorem State.runoutActive_iff (s : State) (l : Nat) : s.runoutActive l = true ↔
    (s.line l).enables.runout = true ∧ ∃ st ∈ s.lineStands l, (s.stand st).runout = true := by
  rw [State.runoutActive, Bool.and_eq_true, List.any_eq_true]

theorem State.mayRestart_iff (s : State) (l : Nat) : s.mayRestart l = true ↔ s.freeToLeave l := by
  rw [State.mayRestart, State.mayLeave, Bool.and_eq_true, Bool.and_eq_true, Bool.not_eq_true', Bool.not_eq_true', ← Bool.not_eq_true,
    ← Bool.not_eq_true, State.pinActive_iff, State.runoutActive_iff, not_or, and_assoc]
  rfl

theorem State.mayRestart_of_tables (hlines : t.lines = s.lines) (hstands : t.stands = s.stands) (l : Nat) :
    t.mayRestart l = s.mayRestart l := by
  have hline := State.line_of_lines hlines
  have hstand (st : Nat) : t.stand st = s.stand st := congrArg (Tbl.get · st Stand.cold) hstands
  simp only [State.mayRestart, State.mayLeave, State.pinActive, State.runoutActive, hline, hstand,
    State.lineStands_of_live fun m => congrArg Line.live (hline m)]

end

/-! ## A first start (R83) -/

section
variable {s u : State} {l j st n c : Nat} {b : Arm}

/-- A stand with a READY arm, its roll linked, and no ACTIVE one. -/
def Stand.mayStart (x : Stand) (b : Arm) (n : Nat) : Prop := x.active = none ∧ x.armIn .ready = some b ∧ (x.arm b).roll = some n

/-- A stand that runs on an arm's roll. -/
def Stand.runsOn (x : Stand) (b : Arm) (n : Nat) : Prop := (x.arm b).state = .active ∧ (x.arm b).roll = some n

theorem Stand.mayStart_withoutCallOffs (b : Arm) (n : Nat) (x : Stand) : (Law.withoutCallOffs x).mayStart b n = x.mayStart b n := by
  cases b <;> rfl

theorem Stand.runsOn_withoutCallOffs (b : Arm) (n : Nat) (x : Stand) : (Law.withoutCallOffs x).runsOn b n = x.runsOn b n := by
  cases b <;> rfl

theorem State.afterStart_runsOn (s : State) (st : Nat) (b : Arm) (n : Nat) :
    ((s.afterStart st).stand st).runsOn b n ↔ (s.stand st).runsOn b n := by
  have harm : (((((s.restartMark st).writeTs st).handTs st).stand st).runsOn b n) = (s.stand st).runsOn b n := by
    rw [Law.stand_field_bare (Stand.runsOn · b n) (Stand.runsOn_withoutCallOffs b n) (BareStand.handTs ..),
      Law.stand_field_ts (Stand.runsOn · b n) _ _ _ fun _ _ => by cases b <;> rfl,
      Law.stand_field_mark (Stand.runsOn · b n) _ _ _ fun _ _ => by cases b <;> rfl]
  obtain ⟨hstate, hroll⟩ := (State.wr_tryArm (Wr.refl (k := 0) (s₀ := ((s.restartMark st).writeTs st).handTs st)) st).kept_arm st b
  rw [← harm, State.afterStart, Stand.runsOn, Stand.runsOn, hstate, hroll]

/-- The first start of a stand whose line has a live job. -/
theorem State.firstStart_runsOn (hl : s.lineOf st = some l) (hj : s.liveJob l = some j) (h : (s.stand st).mayStart b n) :
    ((s.firstStart st).stand st).runsOn b n := by
  obtain ⟨hactive, hready, hroll⟩ := h
  unfold State.firstStart
  dsimp only
  rw [hl, Option.bind_some, hj, hactive, hready]
  dsimp only
  rw [hroll]
  dsimp only
  rw [State.afterStart_runsOn, Law.stand_mod, if_pos rfl, State.seedDiameter, Law.stand_mod, if_pos rfl, State.startMove_stand]
  cases b with
  | A => exact ⟨rfl, hroll⟩
  | B => exact ⟨rfl, hroll⟩

theorem State.tryArms_runsOn {ns : List Nat} (h : (s.stand st).runsOn b n) : ((s.each ns fun c u => u.tryArm c).stand st).runsOn b n := by
  obtain ⟨hstate, hroll⟩ := (Wr.tryArms s ns).kept_arm st b
  rw [Stand.runsOn, hstate, hroll]
  exact h

/-- The first starts of a line's stands start each that may. -/
theorem State.firstStarts_runsOn (hj : s.liveJob l = some j) (hst : st ∈ s.lineStands l) (h : (s.stand st).mayStart b n) :
    ((s.each (s.lineStands l) fun c u => u.firstStart c).stand st).runsOn b n := by
  refine State.each_turn (P := fun u => Wr 1 s u ∧ (u.stand st).mayStart b n) (Q := fun u => (u.stand st).runsOn b n)
    (s.lineStands_nodup l) hst (fun c _ hc u hu => ?_) (fun u hu => ?_) (fun c _ hc u hu => ?_) ⟨.refl, h⟩
  · refine ⟨State.wr_firstStart hu.1 (Nat.le_refl 1) c, ?_⟩
    rw [Law.stand_field_bare (Stand.mayStart · b n) (Stand.mayStart_withoutCallOffs b n) (BareStand.firstStart_other u (Ne.symm hc))]
    exact hu.2
  · obtain ⟨hlines, hjobs⟩ := hu.1.kept_lines (by decide)
    exact State.firstStart_runsOn ((State.lineOf_congr hlines st).trans (State.lineOf_of_mem hst)) ((State.liveJob_congr hjobs l).trans hj) hu.2
  · show Stand.runsOn _ b n
    rw [Law.stand_field_bare (Stand.runsOn · b n) (Stand.runsOn_withoutCallOffs b n) (BareStand.firstStart_other u (Ne.symm hc))]
    exact hu

end

/-! ## A line that leaves BREAK (R99) -/

section
variable {s t u : State} {l st : Nat}

theorem State.brakesDropped_jobs (s : State) (ns : List Nat) : (s.each ns fun st u => u.drivePin (.brake st) false).jobs = s.jobs :=
  Law.each_other State.jobs _ _ (fun st _ u => u.drivePin_jobs (.brake st) false) s

theorem State.breakLeft_jobs (s : State) (l : Nat) : (s.breakLeft l).jobs = s.jobs := by
  unfold State.breakLeft
  extract_lets s1 s2
  have h2 : s2.jobs = s.jobs := (State.brakesDropped_jobs ..).trans (State.drivePin_jobs ..)
  split <;> exact h2

theorem State.breakLeft_counting (s : State) (l : Nat) :
    ((s.breakLeft l).line l).counting = if (s.liveJob l).isSome then .makeready else (s.line l).counting := by
  unfold State.breakLeft
  extract_lets s1 s2
  have hjobs : s2.jobs = s.jobs := (State.brakesDropped_jobs ..).trans (State.drivePin_jobs ..)
  have hline : (s2.line l).counting = (s.line l).counting := by
    rw [Law.each_other (State.line · l) _ _ (fun st _ u => State.drivePin_line (s := u) (Pin.brake st) false l) s1, State.drivePin_line,
      Law.line_mod, if_pos rfl]
    dsimp only [Line.driven]
    split <;> rfl
  rw [State.liveJob_congr hjobs]
  split
  · rw [Law.line_mod, if_pos rfl]
  · exact hline

/-- What leaving BREAK leads to. -/
def State.leavesBreak (s t : State) (l : Nat) : Prop :=
  (t.line l).inBreak = false ∧ (t.line l).cause = none ∧ (t.line l).stop = false ∧
  (s.liveJob l ≠ none → (t.line l).counting = .makeready) ∧ (s.liveJob l = none → (t.line l).counting = (s.line l).counting) ∧
  (∀ m, m ≠ l → t.line m = s.line m) ∧ t.jobs = s.jobs ∧
  ∀ st b n j, s.liveJob l = some j → st ∈ s.lineStands l → (s.stand st).active = none → (s.stand st).armIn .ready = some b →
    ((s.stand st).arm b).roll = some n → ((t.stand st).arm b).state = .active ∧ ((t.stand st).arm b).roll = some n

theorem State.breakLeft_mayStart {b : Arm} {n : Nat} (h : (s.stand st).mayStart b n) : ((s.breakLeft l).stand st).mayStart b n := by
  obtain ⟨brake, hbrake⟩ := s.breakLeft_stand l st
  rw [hbrake]
  cases b <;> exact h

theorem State.leaveBreak_runsOn {b : Arm} {n j : Nat} (hj : s.liveJob l = some j) (hst : st ∈ s.lineStands l)
    (h : (s.stand st).mayStart b n) : ((s.leaveBreak l).stand st).runsOn b n := by
  have hlive : (s.breakLeft l).liveJob l = some j := (State.liveJob_congr (s.breakLeft_jobs l) l).trans hj
  have hmem : st ∈ (s.breakLeft l).lineStands l := by rwa [(Wr.breakLeft s l).lineStands]
  have hstarted := State.firstStarts_runsOn hlive hmem (State.breakLeft_mayStart h)
  rw [State.leaveBreak_eq]
  exact State.tryArms_runsOn hstarted

theorem State.leaveBreak_leaves (s : State) (l : Nat) : s.leavesBreak (s.leaveBreak l) l := by
  have hline := s.leaveBreak_line l
  have hfirst := Wr.firstStarts (s.breakLeft l) ((s.breakLeft l).lineStands l)
  have hjobs : (s.leaveBreak l).jobs = s.jobs := by
    rw [State.leaveBreak_eq]
    exact ((Wr.tryArms ..).kept_lines (by decide)).2.trans ((hfirst.kept_lines (by decide)).2.trans (s.breakLeft_jobs l))
  have hcounting : ((s.leaveBreak l).line l).counting = if (s.liveJob l).isSome then .makeready else (s.line l).counting := by
    rw [State.leaveBreak_eq, Wr.tryArms_line, State.line_of_lines hfirst.lines_kept, State.breakLeft_counting]
  have hstarts {st j n : Nat} {b : Arm} (hj : s.liveJob l = some j) (hst : st ∈ s.lineStands l) (h : (s.stand st).mayStart b n) :=
    State.leaveBreak_runsOn hj hst h
  generalize s.leaveBreak l = t at *
  obtain ⟨k, hleft⟩ := hline l
  rw [if_pos rfl] at hleft
  refine ⟨by rw [hleft], by rw [hleft], by rw [hleft], fun hlive => ?_, fun hidle => ?_, fun m hm => ?_, hjobs,
    fun st b n j hj hst hactive hready hroll => hstarts hj hst ⟨hactive, hready, hroll⟩⟩
  · rw [hcounting, if_pos (Option.isSome_iff_ne_none.mpr hlive)]
  · rw [hcounting, hidle]
    rfl
  · obtain ⟨_, hother⟩ := hline m
    rw [hother, if_neg hm]

/-- What leaves the lines, the jobs and, but for their call-off links, the stands leaves what leaving BREAK has led to. -/
theorem State.leavesBreak.settled (h : s.leavesBreak t l) (hlines : u.lines = t.lines) (hjobs : u.jobs = t.jobs)
    (hbare : ∀ st, Law.standBare st u = Law.standBare st t) : s.leavesBreak u l := by
  obtain ⟨hin, hcause, hstop, hlive, hidle, hother, hkept, hstarts⟩ := h
  have hline := State.line_of_lines hlines
  unfold State.leavesBreak
  simp only [hline, hjobs]
  refine ⟨hin, hcause, hstop, hlive, hidle, hother, hkept, fun st b n j hj hst hactive hready hroll => ?_⟩
  show (u.stand st).runsOn b n
  rw [Law.stand_field_bare (Stand.runsOn · b n) (Stand.runsOn_withoutCallOffs b n) (hbare st)]
  exact hstarts st b n j hj hst hactive hready hroll

theorem State.leavesBreak.finish (h : s.leavesBreak t l) : s.leavesBreak t.finish l := by
  obtain ⟨hlines, hjobs⟩ := (State.finish_writes t).kept_lines (by decide)
  exact h.settled hlines hjobs (BareStand.finish t)

/-- Leaving BREAK reads the lines, the jobs and the stands alone. -/
theorem State.leavesBreak.of_tables (h : u.leavesBreak t l) (hlines : u.lines = s.lines) (hjobs : u.jobs = s.jobs)
    (hstands : u.stands = s.stands) : s.leavesBreak t l := by
  have hline := State.line_of_lines hlines
  have hstand (st : Nat) : u.stand st = s.stand st := congrArg (Tbl.get · st Stand.cold) hstands
  unfold State.leavesBreak at h ⊢
  simpa only [hline, hstand, hjobs, State.liveJob_congr hjobs, State.lineStands_of_live fun m => congrArg Line.live (hline m)] using h

end

/-! ## RESTART_LINE and console RESTART (R99) -/

section
variable {s : State} {l st : Nat} {e : Exchange} {y : Station} {more : Bool}

theorem exec_restartLine (l : Nat) (s : State) : exec (.restartLine l) s = request (.restartLine l) (·.restartLineRequest l) s := rfl

theorem execRestartLine_leaves (htakes : s.takes (.restartLine l) = true) (hl : lineOk l = true) (hmay : s.mayRestart l = true) :
    ∃ t, exec (.restartLine l) s = .next t ∧ t.answers (.restartLine l) .ok [] ∧ s.leavesBreak t l := by
  have hrequest : s.fresh.restartLineRequest l = (s.fresh.leaveBreak l).ok := by
    rw [State.restartLineRequest, if_pos hl]
    exact if_pos ((State.mayRestart_of_tables rfl rfl l).trans hmay)
  have hport : (s.fresh.leaveBreak l).port = s.port := ((State.wr_leaveBreak (k := 2) .refl (Nat.le_refl 2) l).kept (by decide)).port
  have leaves : s.leavesBreak (s.fresh.leaveBreak l) l := (s.fresh.leaveBreak_leaves l).of_tables rfl rfl rfl
  generalize s.fresh.leaveBreak l = u at hrequest hport leaves
  have replied : s.leavesBreak (u.replied (.restartLine l) .ok []) l := leaves.settled rfl rfl fun _ => rfl
  refine ⟨_, request_eq (h := (·.restartLineRequest l)) htakes hrequest hport, ?_, replied.finish⟩
  exact ((State.finish_writes _).kept (by decide)).port

theorem execConsoleRestart_otherRole (h : s.hears e y) (hr : ∀ l, y.role ≠ .console l) :
    exec (.consoleRestart more) s = .next ((s.heard e more).refuse e.addr .consoleEvent .badArgument) := by
  show execConsoleRestart more s = _
  rw [execConsoleRestart]
  refine Law.report_refuse h ?_
  cases hx : y.role with
  | console l => exact absurd hx (hr l)
  | _ => rfl

theorem execConsoleRestart_console (h : s.hears e y) (hr : y.role = .console l) :
    exec (.consoleRestart more) s = .next ((s.heard e more).consoleRestartAt e.addr l).finish := by
  show execConsoleRestart more s = _
  rw [execConsoleRestart, report_heard h, hr]

theorem State.heard_mayRestart (s : State) (e : Exchange) (more : Bool) (l : Nat) : (s.heard e more).mayRestart l = s.mayRestart l :=
  State.mayRestart_of_tables State.heard_lines State.heard_stands l

theorem execConsoleRestart_refused (h : s.hears e y) (hr : y.role = .console l) (hmay : s.mayRestart l = false) :
    exec (.consoleRestart more) s = .next ((s.heard e more).refuse e.addr .consoleEvent .badState) := by
  have hrestart : (s.heard e more).consoleRestartAt e.addr l = (s.heard e more).refuse e.addr .consoleEvent .badState := by
    rw [State.consoleRestartAt, State.heard_mayRestart, hmay]
    rfl
  rw [execConsoleRestart_console h hr, hrestart, State.refuse_finish State.heard_passDue]

theorem execConsoleRestart_leaves (h : s.hears e y) (hr : y.role = .console l) (hmay : s.mayRestart l = true) :
    ∃ t, exec (.consoleRestart more) s = .next t ∧ s.leavesBreak t l := by
  have hrestart : (s.heard e more).consoleRestartAt e.addr l = ((s.heard e more).leaveBreak l).accept e.addr .consoleEvent := by
    rw [State.consoleRestartAt, State.heard_mayRestart, if_pos hmay]
  have leaves := ((s.heard e more).leaveBreak_leaves l).of_tables State.heard_lines State.heard_jobs State.heard_stands
  generalize (s.heard e more).leaveBreak l = u at hrestart leaves
  obtain ⟨sts, haccept⟩ := u.accept_only e.addr .consoleEvent
  refine ⟨_, execConsoleRestart_console h hr, State.leavesBreak.finish ?_⟩
  rw [hrestart, haccept]
  exact leaves.settled rfl rfl fun _ => rfl

/-! ## The pins gone inactive (R99) -/

theorem execWebBreakPinInactive_awake (hawake : s.awake = true) (hst : standOk st = true) : exec (.webBreakPinInactive st) s =
    .next (s.fresh.modStand st ({ · with webBreak := false })) := by
  show execWebBreakPinInactive st s = _
  rw [execWebBreakPinInactive, if_pos hst, if_pos hawake]

theorem execFolderJamInactive_awake (hawake : s.awake = true) (hl : lineOk l = true) : exec (.folderJamInactive l) s =
    .next (s.fresh.modLine l ({ · with jam := false })) := by
  show execFolderJamInactive l s = _
  rw [execFolderJamInactive, if_pos hl, if_pos hawake]

end

/-- Settles O41: the two restarts read `State.mayRestart` and lead to `State.leaveBreak`, whose steps give the clauses; the pins gone inactive
write one level. -/
theorem breakExit : Obligations.BreakExit := by
  unfold Obligations.BreakExit
  intro may left
  have may_iff (s : State) (l : Nat) : s.mayRestart l = true ↔ may s l := s.mayRestart_iff l
  have may_not {s : State} {l : Nat} (h : ¬ may s l) : s.mayRestart l = false := Bool.eq_false_iff.mpr (mt (may_iff s l).mp h)
  have leaves {s t : State} {l : Nat} (h : s.leavesBreak t l) : left s t l := h
  clear_value may left
  refine ⟨fun s l htakes => ⟨fun hl => ?_, fun h1 h4 hno => ?_, fun h1 h4 hmay => ?_⟩,
    fun s e y more h => ⟨execConsoleRestart_otherRole h, fun l hr => ⟨fun hno => ?_, fun hmay => ?_⟩⟩,
    fun s st hawake h1 h16 => execWebBreakPinInactive_awake hawake (standOk_iff.mpr ⟨h1, h16⟩),
    fun s l hawake h1 h4 => execFolderJamInactive_awake hawake (lineOk_iff.mpr ⟨h1, h4⟩)⟩
  · refine request_refused htakes (if_neg ?_)
    rw [lineOk_iff]
    omega
  · refine request_refused htakes ?_
    rw [State.restartLineRequest, if_pos (lineOk_iff.mpr ⟨h1, h4⟩)]
    exact if_neg (by rw [State.mayRestart_of_tables (t := s.fresh) (s := s) rfl rfl l, may_not hno]; exact Bool.false_ne_true)
  · obtain ⟨t, hexec, hanswers, hleaves⟩ := execRestartLine_leaves htakes (lineOk_iff.mpr ⟨h1, h4⟩) ((may_iff s l).mpr hmay)
    exact ⟨t, hexec, hanswers, leaves hleaves⟩
  · exact execConsoleRestart_refused h hr (may_not hno)
  · obtain ⟨t, hexec, hleaves⟩ := execConsoleRestart_leaves (more := more) h hr ((may_iff s l).mpr hmay)
    exact ⟨t, hexec, leaves hleaves⟩

end Sys2Proof.Machine
end

section
/-! Proofs about the counts of jobs, stations and the attention set: what a chain of writes keeps of them (R108, R161, R174). -/

namespace Sys2Proof.Machine

variable {s t : State}

/-- What every record a table reads meets, every record read after a write of one that meets it does too. -/
theorem Tbl.find_put_keeps {α : Type} {P : α → Prop} {t : Tbl α} {n : Nat} {o : Option α} (ht : ∀ m x, t.find m = some x → P x)
    (ho : ∀ x, o = some x → P x) (m : Nat) (x : α) (h : (t.put n o).find m = some x) : P x := by
  rw [Tbl.find_put] at h
  split at h
  · exact ho x h
  · exact ht m x h

/-! ## Tallies of jobs (R108) -/

theorem State.talliesBounded_congr (h : t.jobs = s.jobs) (hs : s.talliesBounded) : t.talliesBounded := by
  unfold State.talliesBounded State.job at *
  rwa [h]

theorem State.talliesBounded_putJob {n : Nat} {o : Option Job} (hs : s.talliesBounded) (ho : ∀ j, o = some j → j.bounded) :
    (s.putJob n o).talliesBounded := Tbl.find_put_keeps hs ho

/-- A chain of writes keeps every tally at or below its maximum: a job is rewritten within its bounds or entered within them. -/
theorem Wr.talliesBounded (w : Wr 4 s t) (hs : s.talliesBounded) : t.talliesBounded := by
  induction w with
  | refl => exact hs
  | other _ _ ht ih => exact State.talliesBounded_congr ht.jobs ih
  | job _ _ hj hsame ih =>
    obtain ⟨_, hbounded, _⟩ := hsame
    exact State.talliesBounded_putJob ih fun k hk => by cases hk; exact hbounded (ih _ _ hj)
  | putJob _ _ _ ho ih => exact State.talliesBounded_putJob ih ho
  | cold _ _ _ => exact fun _ _ h => nomatch h
  | small _ _ _ ih | roll _ _ _ ih | freeRoll _ _ _ ih | newRoll _ _ _ _ _ ih | bay _ _ _ ih | grade _ _ _ _ ih | line _ _ _ ih
  | stand _ _ _ ih | order _ _ _ ih | freeOrder _ _ ih | newOrder _ _ _ _ _ ih | vehicle _ _ _ ih | segment _ _ _ ih
  | node _ _ _ _ ih | route _ _ _ _ ih | station _ _ _ ih | putStation _ _ _ _ ih | raised _ _ _ _ _ ih | attnClear _ _ ih =>
    exact State.talliesBounded_congr rfl ih

/-! ## Counters and out-lists of stations (R161) -/

theorem State.stationsBounded_congr (h : t.stations = s.stations) (hs : s.stationsBounded) : t.stationsBounded := by
  unfold State.stationsBounded State.station at *
  rwa [h]

theorem State.stationsBounded_putStation {n : Nat} {o : Option Station} (hs : s.stationsBounded) (ho : ∀ x, o = some x → x.bounded) :
    (s.putStation n o).stationsBounded := Tbl.find_put_keeps hs ho

/-- A chain of writes keeps every station in range: a station is rewritten within its ranges or entered within them. -/
theorem Wr.stationsBounded (w : Wr 4 s t) (hs : s.stationsBounded) : t.stationsBounded := by
  induction w with
  | refl => exact hs
  | other _ _ ht ih => exact State.stationsBounded_congr ht.stations ih
  | station _ hx hsame ih =>
    obtain ⟨hbounded, _⟩ := hsame
    exact State.stationsBounded_putStation ih fun y hy => by cases hy; exact hbounded (ih _ _ hx)
  | putStation _ _ _ hb ih => exact State.stationsBounded_putStation ih hb
  | cold _ _ _ => exact fun _ _ h => nomatch h
  | small _ _ _ ih | roll _ _ _ ih | freeRoll _ _ _ ih | newRoll _ _ _ _ _ ih | bay _ _ _ ih | grade _ _ _ _ ih | line _ _ _ ih
  | stand _ _ _ ih | job _ _ _ _ ih | putJob _ _ _ _ ih | order _ _ _ ih | freeOrder _ _ ih | newOrder _ _ _ _ _ ih | vehicle _ _ _ ih
  | segment _ _ _ ih | node _ _ _ _ ih | route _ _ _ _ ih | raised _ _ _ _ _ ih | attnClear _ _ ih =>
    exact State.stationsBounded_congr rfl ih

/-! ## The attention set (R174) -/

theorem Cond.place_range (c : Cond) : 1 ≤ c.place ∧ c.place ≤ 13 := by cases c <;> decide

/-- A raise count begins at 1 and saturates at 255. -/
theorem AttnEntry.raised_count (o : Option AttnEntry) (n : Nat) :
    1 ≤ (AttnEntry.raised o n).count ∧ (AttnEntry.raised o n).count ≤ 255 := by
  cases o with
  | none => exact ⟨Nat.le_refl 1, Nat.le_add_left 1 254⟩
  | some e => exact ⟨Nat.le_min.mpr ⟨Nat.le_add_left 1 _, by decide⟩, Nat.min_le_right ..⟩

theorem State.attentionBounded_congr (h : t.attn = s.attn) (hs : s.attentionBounded) : t.attentionBounded := by
  unfold State.attentionBounded at *
  rwa [h]

theorem State.attentionBounded_raise (hs : s.attentionBounded) (c : Cond) (n : Nat) : (s.raise c n).attentionBounded := by
  intro e he
  rw [State.raise_attn] at he
  rcases Tbl.mem_put.mp he with ⟨x, hx, rfl⟩ | ⟨hold, _⟩
  · cases hx
    obtain ⟨hplace, hlast⟩ := c.place_range
    exact ⟨hplace, hlast, AttnEntry.raised_count _ n⟩
  · exact hs e hold

theorem State.coldStart_attentionBounded (s : State) : s.coldStart.attentionBounded := by
  obtain ⟨_, _, _, _, _, _, _, hreset⟩ := resetMeetsTheLaws
  exact State.attentionBounded_congr rfl hreset

/-- A chain of writes keeps the attention set: it is raised into, emptied, or set as a cold start sets it. -/
theorem Wr.attentionBounded (w : Wr 4 s t) (hs : s.attentionBounded) : t.attentionBounded := by
  induction w with
  | refl => exact hs
  | other _ _ ht ih => exact State.attentionBounded_congr ht.attn ih
  | raised _ c n _ _ ih => exact State.attentionBounded_raise ih c n
  | attnClear _ _ _ => exact fun _ he => nomatch he
  | cold _ _ _ => exact State.coldStart_attentionBounded _
  | small _ _ _ ih | roll _ _ _ ih | freeRoll _ _ _ ih | newRoll _ _ _ _ _ ih | bay _ _ _ ih | grade _ _ _ _ ih | line _ _ _ ih
  | stand _ _ _ ih | job _ _ _ _ ih | putJob _ _ _ _ ih | order _ _ _ ih | freeOrder _ _ ih | newOrder _ _ _ _ _ ih | vehicle _ _ _ ih
  | segment _ _ _ ih | node _ _ _ _ ih | route _ _ _ _ ih | station _ _ _ ih | putStation _ _ _ _ ih =>
    exact State.attentionBounded_congr rfl ih

/-- Settles O4: every step is a chain of writes, each of which keeps the three laws. -/
theorem everyStepKeepsCountsInRange : Obligations.EveryStepKeepsCountsInRange :=
  ⟨fun _ _ hs h => (step_writes h).talliesBounded hs, fun _ _ hs h => (step_writes h).stationsBounded hs,
    fun _ _ hs h => (step_writes h).attentionBounded hs⟩

end Sys2Proof.Machine
end

section
/-! Proofs about the Spoilage Counter's requests: OPEN_JOB, CLOSE_JOB and RETIRE_JOB (R104 to R106). -/

namespace Sys2Proof.Machine

/-! ## The lowest free place -/

section
variable {p hi : Nat} {used : List Nat}

theorem lowestFree_eq_some (hlow : 1 ≤ p) (hhigh : p ≤ hi) (hfree : p ∉ used) (hless : ∀ q, 1 ≤ q → q < p → q ∈ used) :
    lowestFree hi used = some p :=
  find_span_lowest (P := (· ∉ used)) (fun c _ _ => by simp) hlow hhigh hfree fun q h1 hq hnot => hnot (hless q h1 hq)

theorem lowestFree_eq_none (h : ∀ q, 1 ≤ q → q ≤ hi → q ∈ used) : lowestFree hi used = none :=
  find_span_none (P := (· ∉ used)) (fun c _ _ => by simp) fun q h1 hq hnot => hnot (h q h1 hq)

theorem State.mem_jobPlaces (s : State) (p : Nat) : p ∈ (s.jobs.map fun e => e.2.place) ↔ ∃ e ∈ s.jobs, e.2.place = p := List.mem_map

end

/-! ## The job number's range -/

theorem jobOk_iff {j : Nat} : jobOk j = true ↔ 1 ≤ j ∧ j ≤ 65535 := within_iff

theorem jobOk_not {j : Nat} (h : j < 1 ∨ 65535 < j) : ¬ jobOk j = true := by
  rw [jobOk_iff]
  omega

section
variable {s : State} {j l p : Nat} {x : Job}

/-! ## OPEN_JOB (R104) -/

theorem State.openJobRequest_badArgument (h : ¬ (jobOk j && lineOk l) = true) : s.openJobRequest j l = s.no .badArgument := if_neg h

theorem State.openJobRequest_duplicate (hok : (jobOk j && lineOk l) = true) (hj : s.job j ≠ none) :
    s.openJobRequest j l = s.no .duplicate := by
  rw [State.openJobRequest, if_pos hok, if_pos (Option.isSome_iff_ne_none.mpr hj)]

/-- A job not known yet is opened in the lowest free place, if there is one. -/
theorem State.openJobRequest_new (hok : (jobOk j && lineOk l) = true) (hj : s.job j = none) : s.openJobRequest j l =
    (lowestFree Config.jobPlaces (s.jobs.map fun e => e.2.place)).elim (s.no .full) fun p => (s.putJob j (some (.opened p l))).ok := by
  rw [State.openJobRequest, if_pos hok, hj]
  cases lowestFree Config.jobPlaces (s.jobs.map fun e => e.2.place) <;> rfl

theorem State.openJobRequest_full (hok : (jobOk j && lineOk l) = true) (hj : s.job j = none)
    (hfull : ∀ p, 1 ≤ p → p ≤ 24 → ∃ e ∈ s.jobs, e.2.place = p) : s.openJobRequest j l = s.no .full := by
  rw [State.openJobRequest_new hok hj, lowestFree_eq_none fun q h1 hq => (s.mem_jobPlaces q).mpr (hfull q h1 hq), Option.elim_none]

theorem State.openJobRequest_opened (hok : (jobOk j && lineOk l) = true) (hj : s.job j = none) (hlow : 1 ≤ p) (hhigh : p ≤ 24)
    (hfree : ∀ e ∈ s.jobs, e.2.place ≠ p) (hless : ∀ q, 1 ≤ q → q < p → ∃ e ∈ s.jobs, e.2.place = q) :
    s.openJobRequest j l = (s.putJob j (some (.opened p l))).ok := by
  have hfree' : p ∉ s.jobs.map fun e => e.2.place := fun hmem =>
    have ⟨e, he, hp⟩ := (s.mem_jobPlaces p).mp hmem
    hfree e he hp
  rw [State.openJobRequest_new hok hj, lowestFree_eq_some hlow hhigh hfree' fun q h1 hq => (s.mem_jobPlaces q).mpr (hless q h1 hq),
    Option.elim_some]

/-! ## CLOSE_JOB (R105) -/

theorem State.closeJobRequest_badArgument (h : ¬ jobOk j = true) : s.closeJobRequest j = s.no .badArgument := if_neg h

theorem State.closeJobRequest_notFound (hok : jobOk j = true) (hj : s.job j = none) : s.closeJobRequest j = s.no .notFound := by
  rw [State.closeJobRequest, if_pos hok, hj]

theorem State.closeJobRequest_found (hok : jobOk j = true) (hj : s.job j = some x) :
    s.closeJobRequest j = if x.state = .live then (s.closeLive x.line j).ok else s.no .badState := by
  rw [State.closeJobRequest, if_pos hok, hj]

theorem Cmd.isTarget_iff (c : Cmd) (l : Nat) : c.isTarget l = true ↔ ∃ n g, c = .target l n g := by
  cases c <;> simp [Cmd.isTarget]

/-- A station's offer order without the target notices of a line (R105, R116). -/
def Station.withoutTargets (l : Nat) (y : Station) : Station := { y with offer := y.offer.filter fun k => !k.cmd.isTarget l }

theorem Station.mem_withoutTargets (l : Nat) (y : Station) (k : KeptItem) :
    k ∈ (y.withoutTargets l).offer ↔ k ∈ y.offer ∧ ∀ n g, k.cmd ≠ .target l n g := by
  rw [Station.withoutTargets, List.mem_filter, Bool.not_eq_true', ← Bool.not_eq_true, Cmd.isTarget_iff]
  simp only [not_exists, ne_eq]

theorem Station.withoutTargets_twice (l : Nat) (y : Station) : (y.withoutTargets l).withoutTargets l = y.withoutTargets l := by
  simp [Station.withoutTargets]

/-- Dropping a line's target notices rewrites the station records alone, each without those notices. -/
theorem State.dropNotices_eq (s : State) (l : Nat) :
    ∃ t, s.dropNotices l = { s with stations := t } ∧ ∀ a, t.find a = (s.station a).map (Station.withoutTargets l) :=
  State.each_modStation s (Station.withoutTargets l) (Station.withoutTargets_twice l)

/-- A live job closed: its state, its line's machine, and the line's target notices (R105 steps 1 to 4). -/
theorem State.closeLive_eq (hj : s.job j = some x) (l : Nat) : ∃ t, s.closeLive l j = { s with
      jobs := s.jobs.put j (some { x with state := .closed }),
      lines := s.lines.set l .cold { s.line l with pending := false, counting := .idle, window := 0 },
      stations := t } ∧ ∀ a, t.find a = (s.station a).map (Station.withoutTargets l) := by
  have hmod : s.modJob j ({ · with state := .closed }) = s.putJob j (some { x with state := .closed }) := by rw [State.modJob, hj]
  rw [State.closeLive, hmod]
  exact State.dropNotices_eq _ l

/-! ## RETIRE_JOB (R106) -/

theorem State.retireJobRequest_badArgument (h : ¬ jobOk j = true) : s.retireJobRequest j = s.no .badArgument := if_neg h

theorem State.retireJobRequest_notFound (hok : jobOk j = true) (hj : s.job j = none) : s.retireJobRequest j = s.no .notFound := by
  rw [State.retireJobRequest, if_pos hok, hj]

/-- A job that RETIRE_JOB refuses: LIVE, named by a pending changeover of its line, or linked by a roll (R106). -/
def State.jobUsed (s : State) (j : Nat) (x : Job) : Prop :=
  x.state = .live ∨ ((s.line x.line).pending = true ∧ (s.line x.line).working.job = some j) ∨ ∃ e ∈ s.rolls, e.2.job = some j

theorem State.jobUsed_iff (s : State) (j : Nat) (x : Job) :
    (x.state == .live || s.jobPending j x.line || s.rolls.any fun e => e.2.job == some j) = true ↔ s.jobUsed j x := by
  simp only [State.jobPending, Bool.or_eq_true, Bool.and_eq_true, beq_iff_eq, List.any_eq_true, or_assoc, State.jobUsed]

theorem State.retireJobRequest_used (hok : jobOk j = true) (hj : s.job j = some x) (h : s.jobUsed j x) :
    s.retireJobRequest j = s.no .badState := by
  rw [State.retireJobRequest, if_pos hok, hj]
  exact if_pos ((s.jobUsed_iff j x).mpr h)

theorem State.retireJobRequest_unused (hok : jobOk j = true) (hj : s.job j = some x) (h : ¬ s.jobUsed j x) :
    s.retireJobRequest j = (s.putJob j none).ok := by
  rw [State.retireJobRequest, if_pos hok, hj]
  exact if_neg (mt (s.jobUsed_iff j x).mp h)

/-! ## The three requests as the port takes them -/

theorem exec_openJob (j l : Nat) (s : State) : exec (.openJob j l) s = request (.openJob j l) (·.openJobRequest j l) s := rfl

theorem exec_closeJob (j : Nat) (s : State) : exec (.closeJob j) s = request (.closeJob j) (·.closeJobRequest j) s := rfl

theorem exec_retireJob (j : Nat) (s : State) : exec (.retireJob j) s = request (.retireJob j) (·.retireJobRequest j) s := rfl

theorem execCloseJob_live (ht : s.takes (.closeJob j) = true) (hok : jobOk j = true) (hj : s.job j = some x) (hlive : x.state = .live) :
    ∃ notices, exec (.closeJob j) s = .next ({ s.fresh with
        jobs := s.jobs.put j (some { x with state := .closed }),
        lines := s.lines.set x.line .cold { s.line x.line with pending := false, counting := .idle, window := 0 },
        stations := notices }.replied (.closeJob j) .ok []) ∧
      ∀ a, Tbl.find notices a = (s.station a).map (Station.withoutTargets x.line) := by
  obtain ⟨notices, hclose, hfind⟩ := State.closeLive_eq (s := s.fresh) hj x.line
  have hrequest := State.closeJobRequest_found (s := s.fresh) hok hj
  rw [if_pos hlive, hclose] at hrequest
  exact ⟨notices, request_eq_quiet (h := (·.closeJobRequest j)) ht hrequest rfl rfl, hfind⟩

end

/-- Settles O28: each request's checks are its owner's, in their order; what passes writes the records named. -/
theorem jobsOpenCloseAndRetire : Obligations.JobsOpenCloseAndRetire := by
  refine ⟨fun s j l ht => ⟨fun hbad => ?_, fun h1 h2 h3 h4 => ?_⟩, fun s j ht => ⟨fun hbad => ?_, fun h1 h2 hj => ?_, fun x h1 h2 hj => ?_⟩,
    fun s j ht => ⟨fun hbad => ?_, fun h1 h2 hj => ?_, fun x h1 h2 hj => ?_⟩⟩
  · refine request_refused ht (State.openJobRequest_badArgument ?_)
    rw [Bool.and_eq_true, jobOk_iff, lineOk_iff]
    omega
  · have hok : (jobOk j && lineOk l) = true := Bool.and_eq_true_iff.mpr ⟨jobOk_iff.mpr ⟨h1, h2⟩, lineOk_iff.mpr ⟨h3, h4⟩⟩
    exact ⟨fun hj => request_refused ht (State.openJobRequest_duplicate (s := s.fresh) hok hj),
      fun hj hfull => request_refused ht (State.openJobRequest_full (s := s.fresh) hok hj hfull),
      fun p hj hlow hhigh hfree hless => request_eq_quiet (h := (·.openJobRequest j l)) ht
        (State.openJobRequest_opened (s := s.fresh) hok hj hlow hhigh hfree hless) rfl rfl⟩
  · exact request_refused ht (State.closeJobRequest_badArgument (jobOk_not hbad))
  · exact request_refused ht (State.closeJobRequest_notFound (s := s.fresh) (jobOk_iff.mpr ⟨h1, h2⟩) hj)
  · have hok : jobOk j = true := jobOk_iff.mpr ⟨h1, h2⟩
    refine ⟨fun hstate => request_refused ht ((State.closeJobRequest_found (s := s.fresh) hok hj).trans (if_neg hstate)), fun hlive => ?_⟩
    obtain ⟨notices, hexec, hfind⟩ := execCloseJob_live ht hok hj hlive
    exact ⟨notices, hexec, fun a y hy => ⟨_, (hfind a).trans (congrArg (Option.map _) hy), y.mem_withoutTargets x.line⟩⟩
  · exact request_refused ht (State.retireJobRequest_badArgument (jobOk_not hbad))
  · exact request_refused ht (State.retireJobRequest_notFound (s := s.fresh) (jobOk_iff.mpr ⟨h1, h2⟩) hj)
  · have hok : jobOk j = true := jobOk_iff.mpr ⟨h1, h2⟩
    exact ⟨fun hused => request_refused ht (State.retireJobRequest_used (s := s.fresh) hok hj hused),
      fun hfree => request_eq_quiet (h := (·.retireJobRequest j)) ht (State.retireJobRequest_unused (s := s.fresh) hok hj hfree) rfl rfl⟩

end Sys2Proof.Machine
end

section
/-! Proofs about CONSOLE_EVENT GOOD (R112): who is refused, and when the count of good copies starts. -/

namespace Sys2Proof.Machine

section
variable {s : State} {a l : Nat} {e : Exchange} {x : Station} {more : Bool}

theorem State.consoleGoodAt_starts (h : (s.line l).counting = .makeready ∨ (s.line l).counting = .changeover) :
    s.consoleGoodAt a l = (s.modLine l ({ · with counting := .good })).accept a .consoleEvent := by
  rcases h with h | h <;> rw [State.consoleGoodAt, h]

theorem State.consoleGoodAt_refused (hm : (s.line l).counting ≠ .makeready) (hc : (s.line l).counting ≠ .changeover) :
    s.consoleGoodAt a l = s.refuse a .consoleEvent .badState := by
  unfold State.consoleGoodAt
  split
  · next h => exact absurd h hm
  · next h => exact absurd h hc
  all_goals rfl

/-- A line's record written in the course of a report. -/
theorem State.heard_modLine (f : Line → Line) :
    (s.heard e more).modLine l f = { s.heard e more with lines := s.lines.set l .cold (f (s.line l)) } := by
  rw [State.modLine, State.setLine, Law.heard_line, State.heard_lines]

theorem exec_consoleGood (more : Bool) (s : State) : exec (.consoleGood more) s = execConsoleGood more s := rfl

theorem execConsoleGood_otherRole (h : s.hears e x) (hr : ∀ l, x.role ≠ .console l) :
    exec (.consoleGood more) s = .next ((s.heard e more).refuse e.addr .consoleEvent .badArgument) := by
  rw [exec_consoleGood, execConsoleGood]
  refine Law.report_refuse h ?_
  cases hx : x.role with
  | console l => exact absurd hx (hr l)
  | _ => rfl

theorem execConsoleGood_console (h : s.hears e x) (hr : x.role = .console l) :
    exec (.consoleGood more) s = .next ((s.heard e more).consoleGoodAt e.addr l).finish := by
  rw [exec_consoleGood, execConsoleGood, report_heard h, hr]

end

/-- Settles O30: a station of another role is refused; a console's report is taken by the counting state of its line. -/
theorem consoleGoodStartsTheCount : Obligations.ConsoleGoodStartsTheCount := by
  refine fun s e x more h => ⟨execConsoleGood_otherRole h, fun l hr => ⟨fun hstarts => ?_, fun hm hc => ?_⟩⟩
  · rw [execConsoleGood_console h hr, State.consoleGoodAt_starts (by rwa [Law.heard_line]),
      State.accept_finish ((State.modLine_passDue ..).trans State.heard_passDue), State.heard_modLine]
  · rw [execConsoleGood_console h hr, State.consoleGoodAt_refused (by rwa [Law.heard_line]) (by rwa [Law.heard_line]),
      State.refuse_finish State.heard_passDue]

end Sys2Proof.Machine
end

section
/-! Proofs about PROGRESS_TIMEOUT and TRANSFER_TIMEOUT (R137, R151, R152, R153): when an expiry is of effect, the stall it leads to, and the
LOADING order that fails in place. -/

namespace Sys2Proof.Machine

/-! ## The end of a vehicle's timer (R151, R152) -/

section
variable {s : State} {v l : Nat}

theorem exec_progressTimeout (s : State) (v : Nat) : exec (.progressTimeout v) s =
    expiry (.progressTimeout v) (s.vehicle v).progress.left (·.stall v .progress none) s := rfl

theorem exec_transferTimeout (s : State) (v : Nat) : exec (.transferTimeout v) s =
    expiry (.transferTimeout v) (s.vehicle v).transfer.left (·.transferExpires v) s := rfl

theorem Timer.left_eq_some {t : Timer} : t.left = some l ↔ t = .running l := by
  cases t <;> simp [Timer.left]

/-- The end of a timer that does not run, or that was restarted since its end was queued, changes nothing. -/
theorem expiry_calledOff {c : Instr} {t : Timer} {f : State → State}
    (h : s.awake = false ∨ ∀ l, t = .running l → l ≠ 0 ∧ c ∈ s.expiring) : expiry c t.left f s = .next s := by
  refine expiry_stale (h.imp_right fun hoff ⟨l, hleft, hend⟩ => ?_)
  obtain ⟨hne, hmem⟩ := hoff l (Timer.left_eq_some.mp hleft)
  exact hend.elim hne (fun hnot => hnot hmem)

end

/-! ## The stall a timeout leads to (R151, R152, R153) -/

section
variable {s u : State} {v : Nat} {c : StallCause}

/-- A state whose vehicle has stalled by a cause and keeps what it holds and carries; its transfer marks are gone. -/
def State.stallsInto (s u : State) (v : Nat) (c : StallCause) (p : VState) : Prop :=
  (u.vehicle v).state = .stalled ∧ (u.vehicle v).prev = some p ∧ (u.vehicle v).cause = some c ∧
  (u.vehicle v).progress = .stopped ∧ (u.vehicle v).transfer = .stopped ∧ (u.vehicle v).docked = 0 ∧
  (u.vehicle v).held = (s.vehicle v).held ∧ (u.vehicle v).load = (s.vehicle v).load ∧ ∀ b, (u.bay b).mark ≠ some v

/-- A vehicle on its way or at a transfer stalls. -/
theorem State.stallsInto_stall (hstalled : (u.vehicle v).state ≠ .stalled) (hservice : (u.vehicle v).state ≠ .outOfService)
    (hheld : (u.vehicle v).held = (s.vehicle v).held) (hload : (u.vehicle v).load = (s.vehicle v).load) (c : StallCause)
    (p : Option VState) : s.stallsInto (u.stall v c p) v c (p.getD (u.vehicle v).state) := by
  obtain ⟨hvehicle, -, -, -, hmarks⟩ := VehicleLaw.stall u v c p hstalled hservice
  unfold State.stallsInto
  rw [hvehicle]
  exact ⟨rfl, rfl, rfl, rfl, rfl, rfl, hheld, hload, hmarks⟩

theorem State.stall_order_link (hstalled : (u.vehicle v).state ≠ .stalled) (hservice : (u.vehicle v).state ≠ .outOfService)
    (c : StallCause) (p : Option VState) : ((u.stall v c p).vehicle v).order = (u.vehicle v).order := by
  rw [(VehicleLaw.stall u v c p hstalled hservice).1]

/-- What a stall leaves: the vehicle's state above, the orders and the vehicle's link as they were, and the condition raised. -/
theorem State.stall_leaves (hstalled : (s.vehicle v).state ≠ .stalled) (hservice : (s.vehicle v).state ≠ .outOfService)
    (c : StallCause) (p : Option VState) : s.stallsInto (s.stall v c p) v c (p.getD (s.vehicle v).state) ∧
      (s.stall v c p).orders = s.orders ∧ ((s.stall v c p).vehicle v).order = (s.vehicle v).order ∧
      (s.stall v c p).attn = (s.raise .vehicleStalled v).attn := by
  obtain ⟨-, hattn, horders, -, -⟩ := VehicleLaw.stall s v c p hstalled hservice
  exact ⟨State.stallsInto_stall hstalled hservice rfl rfl c p, horders, State.stall_order_link hstalled hservice c p, hattn⟩

/-- A raise reads and writes the attention set alone. -/
theorem State.raise_attn_congr {t : State} (h : t.attn = u.attn) (k : Cond) (n : Nat) : (t.raise k n).attn = (u.raise k n).attn := by
  unfold State.raise
  rw [h]

/-! ## A transfer expiry by the vehicle's order (R152) -/

theorem State.transferExpires_unlinked (h : s.workingOrder v = none) : s.transferExpires v = s.stall v .transfer (some .idle) := by
  rw [State.transferExpires, h]
  rfl

theorem State.transferExpires_stalls {m : Nat} {o : Order} (h : s.workingOrder v = some m) (ho : s.order m = some o)
    (hkeep : ¬ ((s.vehicle v).state = .loading ∧ (s.vehicle v).deck = some .empty)) :
    s.transferExpires v = s.stall v .transfer none := by
  rw [State.transferExpires, h, Option.bind_some, ho]
  exact if_neg hkeep

theorem State.transferExpires_fails {m : Nat} {o : Order} (h : s.workingOrder v = some m) (ho : s.order m = some o)
    (hloading : (s.vehicle v).state = .loading) (hempty : (s.vehicle v).deck = some .empty) :
    s.transferExpires v = s.failLoading v m o := by
  rw [State.transferExpires, h, Option.bind_some, ho]
  exact if_pos ⟨hloading, hempty⟩

end

/-! ## A LOADING order that fails with its roll not loaded (R137, R152) -/

section
variable {s : State} {v m : Nat} {o : Order}

theorem State.failInPlace_only (s : State) (n : Nat) : ∃ t p, s.failInPlace n = { s with rolls := t, passDue := p } := by
  unfold State.failInPlace
  split
  · exact ⟨s.rolls, s.passDue, rfl⟩
  · dsimp only
    split
    · exact ⟨_, true, rfl⟩
    · exact ⟨_, s.passDue, rfl⟩

theorem State.failInPlace_roll {n : Nat} {x : Roll} (h : s.roll n = some x) : (s.failInPlace n).roll n =
    some { x with state := if x.state = .reserved then .stored else x.state, hold := some (x.hold.getD .discrepancy) } := by
  have written (y : Roll) : (s.putRoll n (some y)).roll n = some y := by rw [roll_put, if_pos rfl]
  unfold State.failInPlace
  rw [h]
  dsimp only
  split
  · exact written _
  · exact written _

/-- The roll an order links failed in place. -/
def State.failRoll (s : State) (o : Order) : State := o.roll.elim s s.failInPlace

theorem State.failLoading_eq (s : State) (v m : Nat) (o : Order) : s.failLoading v m o =
    (((s.failRoll o).failOrder m).sendVehicle v (.abort m)).stall v .transfer (some .idle) := by
  unfold State.failLoading State.failRoll
  cases o.roll <;> rfl

theorem State.failRoll_only (s : State) (o : Order) : ∃ t p, s.failRoll o = { s with rolls := t, passDue := p } := by
  unfold State.failRoll
  cases o.roll with
  | none => exact ⟨s.rolls, s.passDue, rfl⟩
  | some r => exact s.failInPlace_only r

theorem State.failRoll_roll {r : Nat} {x : Roll} (hr : o.roll = some r) (hx : s.roll r = some x) : (s.failRoll o).roll r =
    some { x with state := if x.state = .reserved then .stored else x.state, hold := some (x.hold.getD .discrepancy) } := by
  unfold State.failRoll
  rw [hr]
  exact State.failInPlace_roll hx

/-- What the failure of a LOADING order leaves: the vehicle stalled without its order, the order FAILED with its roll and vehicle, both
conditions raised, and the roll held where it lies. -/
theorem State.failLoading_leaves (ho : s.order m = some o) (hv : o.vehicle = some v) (hlink : (s.vehicle v).order = some m)
    (hloading : (s.vehicle v).state = .loading) :
    s.stallsInto (s.failLoading v m o) v .transfer .idle ∧ ((s.failLoading v m o).vehicle v).order = none ∧
    (∃ q, (s.failLoading v m o).order m = some q ∧ q.state = .failed ∧ q.deadline = none ∧ q.roll = o.roll ∧ q.vehicle = some v) ∧
    (s.failLoading v m o).attn = ((s.raise .orderFailed m).raise .vehicleStalled v).attn ∧
    (s.failLoading v m o).rolls = (s.failRoll o).rolls := by
  obtain ⟨rolls, due, hfailRoll⟩ := s.failRoll_only o
  obtain ⟨f, hf⟩ : ∃ f, f = s.failRoll o := ⟨_, rfl⟩
  have fvehicle : f.vehicle v = s.vehicle v := by rw [hf, hfailRoll]; rfl
  have fattn : f.attn = s.attn := by rw [hf, hfailRoll]
  obtain ⟨q, hq, hstate, hdeadline, hroll, hvehicle, -, ⟨p, hfailed⟩, hattn⟩ :=
    VehicleLaw.fail f m v o (by rw [hf, hfailRoll]; exact ho) hv (by rw [fvehicle]; exact hlink)
  obtain ⟨stations, hsend⟩ := (f.failOrder m).sendVehicle_only v (.abort m)
  obtain ⟨u, hu⟩ : ∃ u, u = (f.failOrder m).sendVehicle v (.abort m) := ⟨_, rfl⟩
  have uvehicle : u.vehicle v = { s.vehicle v with order := none, prev := p } := by
    rw [hu, hsend, ← fvehicle]
    exact hfailed
  have hstalled : (u.vehicle v).state ≠ .stalled := by rw [uvehicle]; simp [hloading]
  have hservice : (u.vehicle v).state ≠ .outOfService := by rw [uvehicle]; simp [hloading]
  obtain ⟨-, sattn, sorders, srolls, -⟩ := VehicleLaw.stall u v .transfer (some .idle) hstalled hservice
  rw [State.failLoading_eq, ← hf, ← hu]
  refine ⟨State.stallsInto_stall hstalled hservice (by rw [uvehicle]) (by rw [uvehicle]) .transfer (some .idle), ?_,
    ⟨q, ?_, hstate, hdeadline, hroll, hvehicle⟩, ?_, ?_⟩
  · rw [State.stall_order_link hstalled hservice, uvehicle]
  · rw [State.order, sorders, hu, hsend]
    exact hq
  · rw [sattn]
    refine State.raise_attn_congr ?_ .vehicleStalled v
    rw [hu, hsend]
    exact hattn.trans (State.raise_attn_congr fattn .orderFailed m)
  · rw [srolls, hu, hsend]
    exact RollsAfter.failOrder f m

end

/-! ## The obligation -/

/-- Settles O54: an expiry called off changes nothing; one of effect stalls the vehicle, by the table of R152 at a transfer, where a LOADING
vehicle with an empty deck has its order failed first. -/
theorem timeoutsStallTheVehicle : Obligations.TimeoutsStallTheVehicle := by
  unfold Obligations.TimeoutsStallTheVehicle
  intro s v y works stalled
  rw [exec_progressTimeout, exec_transferTimeout]
  refine ⟨expiry_calledOff, expiry_calledOff, fun l hawake hrun hend hstalled hservice => ?_, fun l hawake hrun hend hmoving => ?_⟩
  · obtain ⟨hinto, horders, hlink, hattn⟩ := State.stall_leaves (s := s.fresh) hstalled hservice .progress none
    exact ⟨_, expiry_acts hawake (Timer.left_eq_some.mpr hrun) hend, hinto, horders, hlink, hattn⟩
  · have hexec := expiry_acts (f := (·.transferExpires v)) hawake (Timer.left_eq_some.mpr hrun) hend
    have hstalled : y.state ≠ .stalled := by rcases hmoving with h | h <;> rw [h] <;> decide
    have hservice : y.state ≠ .outOfService := by rcases hmoving with h | h <;> rw [h] <;> decide
    have hstall := State.stall_leaves (s := s.fresh) hstalled hservice .transfer
    refine ⟨fun hidle => ?_, fun m o ⟨hlink, ho, habort⟩ => ?_⟩
    · obtain ⟨hinto, horders, -, hattn⟩ := hstall (some .idle)
      rw [State.transferExpires_unlinked (VehicleLaw.noWork (s := s.fresh) hidle)] at hexec
      exact ⟨_, hexec, hinto, horders, hattn⟩
    · have hworking : s.fresh.workingOrder v = some m := VehicleLaw.works hlink ho habort
      refine ⟨fun hkeep => ?_, fun hloading hempty hvehicle => ?_⟩
      · have hnot : ¬ (y.state = .loading ∧ y.deck = some .empty) := by
          rintro ⟨hl, he⟩
          rcases hkeep with h | h
          · cases h.symm.trans hl
          · exact h he
        obtain ⟨hinto, horders, hkept, hattn⟩ := hstall none
        rw [State.transferExpires_stalls hworking ho hnot] at hexec
        exact ⟨_, hexec, hinto, horders, hkept, hattn⟩
      · obtain ⟨hinto, hgone, ⟨q, hq, hfailed, hdeadline, hroll, hkept⟩, hattn, hrolls⟩ :=
          State.failLoading_leaves (s := s.fresh) ho hvehicle hlink hloading
        rw [State.transferExpires_fails hworking ho hloading hempty] at hexec
        refine ⟨_, q, hexec, hinto, hgone, hq, hfailed, hdeadline, hroll, hkept, hattn, fun r x hr hx => ?_⟩
        rw [State.roll, hrolls]
        exact State.failRoll_roll (s := s.fresh) hr hx

end Sys2Proof.Machine
end

section
/-! Proofs about ORDER_MOVE (R121, R122, R136): the checks in their order, and the MOVE order created for a roll in a bay or at a node. -/

namespace Sys2Proof.Machine

section
variable {s : State} {r : RollRef} {d : MoveDest} {n : Nat} {x : Roll}

/-! ## The checks (R136) -/

theorem exec_orderMove (s : State) (r : RollRef) (d : MoveDest) :
    exec (.orderMove r d) s = request (.orderMove r d) (·.orderMoveRequest r d) s := rfl

theorem State.moveDestOk_bay {b : Nat} : s.moveDestOk (.bay b) = true ↔ 1 ≤ b ∧ b ≤ 120 := within_iff

theorem State.moveDestOk_node {y : Nat} : s.moveDestOk (.node y) = true ↔
    1 ≤ y ∧ y ≤ 48 ∧ ∀ z, s.node y = some z → z.role ≠ .dock ∧ z.role ≠ .stub := by
  rw [State.moveDestOk, Bool.and_eq_true, within_iff, Bool.not_eq_true', Bool.or_eq_false_iff, and_assoc]
  refine and_congr_right fun hlow => and_congr_right fun hhigh => ?_
  cases hy : s.node y <;> simp [State.nodeIs, hy, hlow, show y ≤ Config.nodes from hhigh]

theorem Roll.isAt_bay {b : Nat} : x.isAt (.bay b) = true ↔ ∃ l, x.loc = .bay b l := by
  cases hx : x.loc <;> simp [Roll.isAt, Roll.bay, hx]

theorem Roll.isAt_node {y : Nat} : x.isAt (.node y) = true ↔ x.loc = .node y := by
  simp [Roll.isAt]

theorem Roll.movable_iff : x.movable = true ↔ (x.state = .stored ∨ x.state = .announced) ∧ x.hold = none ∧ x.order = none := by
  simp [Roll.movable, and_assoc]

theorem State.moveBayOk_iff : s.moveBayOk d = true ↔ ∀ b, d = .bay b → 1 ≤ (s.bay b).limit := by
  cases d <;> simp [State.moveBayOk]

theorem State.orderMoveRequest_badArgument (h : ¬ (r.ok = true ∧ s.moveDestOk d = true)) :
    s.orderMoveRequest r d = s.no .badArgument := if_neg (mt Bool.and_eq_true_iff.mp h)

theorem State.orderMoveRequest_notFound (hok : r.ok = true) (hd : s.moveDestOk d = true) (hres : s.resolve r = none) :
    s.orderMoveRequest r d = s.no .notFound := by
  rw [State.orderMoveRequest, if_pos (Bool.and_eq_true_iff.mpr ⟨hok, hd⟩), hres]

theorem State.orderMoveRequest_atPlace (hok : r.ok = true) (hd : s.moveDestOk d = true) (hres : s.resolve r = some (n, x))
    (hhere : x.isAt d = true) : s.orderMoveRequest r d = s.no .badArgument := by
  rw [State.orderMoveRequest, if_pos (Bool.and_eq_true_iff.mpr ⟨hok, hd⟩), hres]
  exact if_pos hhere

theorem State.orderMoveRequest_badState (hok : r.ok = true) (hd : s.moveDestOk d = true) (hres : s.resolve r = some (n, x))
    (hhere : ¬ x.isAt d = true) (hmove : ¬ (x.movable = true ∧ s.moveBayOk d = true)) : s.orderMoveRequest r d = s.no .badState := by
  have hbad : (!x.movable || !s.moveBayOk d) = true := by
    rwa [← Bool.not_and, Bool.not_eq_true', ← Bool.not_eq_true, Bool.and_eq_true]
  rw [State.orderMoveRequest, if_pos (Bool.and_eq_true_iff.mpr ⟨hok, hd⟩), hres]
  exact (if_neg hhere).trans (if_pos hbad)

/-- A roll that passes the checks has its MOVE order created, if an order record can be had. -/
theorem State.orderMoveRequest_create (hok : r.ok = true) (hd : s.moveDestOk d = true) (hres : s.resolve r = some (n, x))
    (hhere : ¬ x.isAt d = true) (hmovable : x.movable = true) (hbay : s.moveBayOk d = true) :
    s.orderMoveRequest r d = (s.createMove n x d).elim (s.no .full) fun e => e.2.okWith (beBytes 1 e.1) := by
  have hpass : ¬ (!x.movable || !s.moveBayOk d) = true := by rw [hmovable, hbay]; decide
  rw [State.orderMoveRequest, if_pos (Bool.and_eq_true_iff.mpr ⟨hok, hd⟩), hres]
  refine ((if_neg hhere).trans (if_neg hpass)).trans ?_
  cases s.createMove n x d <;> rfl

/-! ## The MOVE order (R121, R122) -/

/-- The content of every MOVE order as it is created: the next sequence, the lowest free place and the destination named. -/
def State.newMove (s : State) (d : MoveDest) : Order :=
  { Order.pendingOf .move .plant .plant with
    place := (lowestFree 40 (s.orders.map fun e : Nat × Order => e.2.place)).getD 1, seq := s.orderSeq + 1
    namedDest := some (MoveDest.toDest d) }

/-- The state with an order created under the next number, and the pass that follows due. -/
def State.withNewOrder (s : State) (o : Order) : State :=
  { s with
    orders := s.orders.put s.nextOrderNumber (some o), orderSeq := s.orderSeq + 1, orderPointer := s.nextOrderNumber % 255 + 1
    passDue := true }

theorem State.withNewOrder_order (s : State) (o : Order) : (s.withNewOrder o).order s.nextOrderNumber = some o := by
  simp [State.order, State.withNewOrder]

theorem State.createOrder_free (h : s.orderFree = true) (o : Order) : s.createOrder o = some (s.nextOrderNumber, s.withNewOrder
    { o with place := (lowestFree 40 (s.orders.map fun e : Nat × Order => e.2.place)).getD 1, seq := s.orderSeq + 1 }) := if_pos h

theorem State.createMove_full (h : s.orderFree = false) : s.createMove n x d = none := by
  have hnone : s.createOrder (Order.move n x d) = none := if_neg (Bool.eq_false_iff.mp h)
  rw [State.createMove, hnone]

theorem State.createMove_bay {b l : Nat} (h : s.orderFree = true) (hx : x.loc = .bay b l) : s.createMove n x d =
    some (s.nextOrderNumber, s.withNewOrder { s.newMove d with source := some (.bay b), named := some (n, x.tag) }) := by
  have hinBay : x.bay.isSome = true := by rw [Roll.bay, hx]; rfl
  rw [State.createMove, State.createOrder_free h]
  dsimp only
  rw [if_pos hinBay, Order.move, hx]
  rfl

/-- The link of an order that names the roll already writes the roll's side. -/
theorem State.link_linked {m : Nat} {o : Order} (hroll : s.roll n = some x) (ho : s.order m = some o) (hr : o.roll = some n) :
    s.link n m = { s with rolls := s.rolls.put n (some { x with order := some m }), orders := s.orders.put m (some o) } := by
  have hsame : { o with roll := some n } = o := by rw [← hr]
  have ho' : (s.putRoll n (some { x with order := some m })).order m = some o := ho
  rw [State.link, State.modRoll_live hroll, State.modOrder_live ho', hsame]
  rfl

/-- A roll at a node and its MOVE order are linked on both sides. -/
theorem State.createMove_node {y : Nat} (h : s.orderFree = true) (hroll : s.roll n = some x) (hx : x.loc = .node y) :
    s.createMove n x d = some (s.nextOrderNumber,
      { s.withNewOrder { s.newMove d with source := some (.node y), roll := some n } with
        rolls := s.rolls.put n (some { x with order := some s.nextOrderNumber }) }) := by
  have hnotBay : ¬ x.bay.isSome = true := by rw [Roll.bay, hx]; exact Bool.false_ne_true
  have hmove : Order.move n x d = { Order.pendingOf .move .plant .plant with
      namedDest := some (MoveDest.toDest d), source := some (.node y), roll := some n } := by rw [Order.move, hx]
  obtain ⟨o, ho⟩ : ∃ o, o = { s.newMove d with source := some (.node y), roll := some n } := ⟨_, rfl⟩
  have hlink : (s.withNewOrder o).link n s.nextOrderNumber =
      { s.withNewOrder o with rolls := s.rolls.put n (some { x with order := some s.nextOrderNumber }) } := by
    rw [State.link_linked (s := s.withNewOrder o) hroll (s.withNewOrder_order o) (by rw [ho])]
    simp [State.withNewOrder]
  rw [State.createMove, State.createOrder_free h, hmove, ← ho, ← hlink, ho]
  exact congrArg some (Prod.ext rfl (if_neg hnotBay))

end

/-! ## The obligation -/

/-- Settles O42: the checks are the owner's in their order; what passes them is the order created, linked where the roll is at a node. -/
theorem orderMoveCreatesTheOrder : Obligations.OrderMoveCreatesTheOrder := by
  unfold Obligations.OrderMoveCreatesTheOrder
  intro s r d htakes i fits named made m base
  have hexec : exec i s = request i (·.orderMoveRequest r d) s := exec_orderMove s r d
  have hfits : s.fresh.moveDestOk d = true ↔ fits := by
    cases d with
    | bay b => exact State.moveDestOk_bay
    | node y => exact State.moveDestOk_node
  have hmade : made = s.fresh.newMove d := by cases d <;> rfl
  rw [hexec]
  refine ⟨fun hbad => ?_, fun hok hfit hres => ?_, ?_⟩
  · refine request_refused htakes (State.orderMoveRequest_badArgument fun ⟨hok, hd⟩ => ?_)
    rcases hbad with h | h
    · exact absurd (h.symm.trans hok) Bool.false_ne_true
    · exact h (hfits.mp hd)
  · exact request_refused htakes (State.orderMoveRequest_notFound hok (hfits.mpr hfit) ((resolve_fresh s r).trans hres))
  · intro n x hok hfit hres here movable
    have hd : s.fresh.moveDestOk d = true := hfits.mpr hfit
    have hfresh : s.fresh.resolve r = some (n, x) := (resolve_fresh s r).trans hres
    have hhere : x.isAt d = true ↔ here := by
      cases d with
      | bay b => exact Roll.isAt_bay
      | node y => exact Roll.isAt_node
    have hmovable : (x.movable = true ∧ s.fresh.moveBayOk d = true) ↔ movable := by
      rw [Roll.movable_iff, State.moveBayOk_iff, and_assoc, and_assoc]
      rfl
    refine ⟨fun h => ?_, fun hnot hstay => ?_, fun hnot hmove hfull => ?_, fun hnot hmove hfree => ?_⟩
    · exact request_refused htakes (State.orderMoveRequest_atPlace hok hd hfresh (hhere.mpr h))
    · exact request_refused htakes (State.orderMoveRequest_badState hok hd hfresh (mt hhere.mp hnot) (mt hmovable.mp hstay))
    all_goals
      obtain ⟨hmov, hbay⟩ := hmovable.mpr hmove
      have hcreate := State.orderMoveRequest_create hok hd hfresh (mt hhere.mp hnot) hmov hbay
    · refine request_refused htakes (hcreate.trans ?_)
      rw [State.createMove_full (s := s.fresh) hfull]
      rfl
    · rw [hmade]
      refine ⟨fun b l hx => ?_, fun y hx => ?_⟩
      · rw [State.createMove_bay (s := s.fresh) hfree hx] at hcreate
        exact request_eq (h := (·.orderMoveRequest r d)) htakes hcreate rfl
      · rw [State.createMove_node (s := s.fresh) hfree (State.roll_of_resolve hfresh) hx] at hcreate
        exact request_eq (h := (·.orderMoveRequest r d)) htakes hcreate rfl

end Sys2Proof.Machine
end

section
/-! Proofs about CANCEL_ORDER (R133, R134, R135): what it makes of an order by its kind and state, and what the pass after it leaves. -/

namespace Sys2Proof.Machine

section
variable {s u : State} {n : Nat} {o : Order}

/-! ## CANCEL_ORDER by the order's kind and state (R134) -/

theorem exec_cancelOrder (s : State) (n : Nat) : exec (.cancelOrder n) s = request (.cancelOrder n) (·.cancelRequest n) s := rfl

theorem State.cancelRequest_badArgument (h : ¬ orderOk n = true) : s.cancelRequest n = s.no .badArgument := if_neg h

theorem State.cancelRequest_notFound (hn : orderOk n = true) (ho : s.order n = none) : s.cancelRequest n = s.no .notFound := by
  rw [State.cancelRequest, if_pos hn, ho]

theorem State.cancelRequest_live (hn : orderOk n = true) (ho : s.order n = some o) : s.cancelRequest n = s.cancelLive n o := by
  rw [State.cancelRequest, if_pos hn, ho]

/-- An order that CANCEL_ORDER refuses: marked for abort, at its delivery, FAILED, or a RETURN under way. -/
def Order.cancelRefused (o : Order) : Prop :=
  o.abort = true ∨ o.state = .unloading ∨ o.state = .failed ∨
    (o.kind = .ret ∧ (o.state = .assigned ∨ o.state = .loading ∨ o.state = .carrying))

theorem State.cancelLive_refused (h : o.cancelRefused) : s.cancelLive n o = s.no .badState := by
  unfold State.cancelLive
  split
  · rfl
  · next hmark =>
    rcases h with habort | hstate | hstate | ⟨hkind, hstate | hstate | hstate⟩
    · exact absurd habort hmark
    · rw [hstate]
    · rw [hstate]
    all_goals rw [hstate, hkind]

theorem State.cancelLive_pending (habort : o.abort = false) (hstate : o.state = .pending)
    (hret : o.kind = .ret → s.rollAtNode o = true) : s.cancelLive n o = (s.freeOrder n).ok := by
  rw [State.cancelLive, if_neg (Bool.eq_false_iff.mp habort), hstate]
  cases hkind : o.kind with
  | ret => exact if_pos (hret hkind)
  | _ => rfl

theorem State.cancelLive_underWay (habort : o.abort = false) (hstate : o.state = .assigned ∨ o.state = .loading) (hkind : o.kind ≠ .ret) :
    s.cancelLive n o = (s.markAbort n).ok := by
  rw [State.cancelLive, if_neg (Bool.eq_false_iff.mp habort)]
  rcases hstate with h | h
  all_goals
    rw [h]
    cases hk : o.kind with
    | ret => exact absurd hk hkind
    | _ => rfl

theorem State.cancelLive_carrying (habort : o.abort = false) (hstate : o.state = .carrying) (hkind : o.kind ≠ .ret) :
    s.cancelLive n o = ((s.convert n).reviewCallOff o).ok := by
  rw [State.cancelLive, if_neg (Bool.eq_false_iff.mp habort), hstate]
  cases hk : o.kind with
  | ret => exact absurd hk hkind
  | _ => rfl

theorem State.rollAtNode_of {r y : Nat} {x : Roll} (hr : o.roll = some r) (hx : s.roll r = some x) (hloc : x.loc = .node y) :
    s.rollAtNode o = true := by
  rw [State.rollAtNode, hr, Option.bind_some, hx, Option.bind_some, Roll.node, hloc]
  rfl

/-! ## The request completed -/

/-- A cancellation taken: what its owner makes of the state is answered OK, and the pass it led to follows. -/
theorem execCancelOrder_ok (htakes : s.takes (.cancelOrder n) = true) (hn : orderOk n = true) (ho : s.order n = some o)
    (hlive : s.fresh.cancelLive n o = u.ok) (hwr : Wr 0 s.fresh u) :
    exec (.cancelOrder n) s = .next (u.replied (.cancelOrder n) .ok []).finish ∧
      (u.replied (.cancelOrder n) .ok []).finish.answers (.cancelOrder n) .ok [] := by
  have hrequest : s.fresh.cancelRequest n = u.ok := (State.cancelRequest_live (s := s.fresh) hn ho).trans hlive
  refine ⟨request_eq (h := (·.cancelRequest n)) htakes hrequest (hwr.kept (by decide)).port, ?_⟩
  exact ((State.finish_writes _).kept (by decide)).port

/-- While transport is halted no pass follows a request (R154). -/
theorem State.finish_replied_halted (h : u.halted = true) (i : Instr) (x : Status) (payload : List Byte) :
    (u.replied i x payload).finish = { u.replied i x payload with passDue := false } := State.finish_halted h

/-- An order after the pass was live before it, with the same kind, class and sequence. -/
theorem State.order_of_finish {q : Order} (h : u.finish.order n = some q) : ∃ p, u.order n = some p ∧ Law.sameRank p q := by
  obtain ⟨hnone, hsome⟩ := Law.ordersStay_finish u n
  cases hp : u.order n with
  | none => cases (hnone hp).symm.trans h
  | some p =>
    obtain ⟨q', hq', hrank⟩ := hsome p hp
    cases hq'.symm.trans h
    exact ⟨p, rfl, hrank⟩

/-! ## An order marked for abort (R133) -/

theorem State.markAbort_live (ho : s.order n = some o) : s.markAbort n =
    (((((s.dropRoll n o).withdrawBay n o).clearLink n o).abortVehicle n o).modOrder n ({ · with abort := true })).reviewCallOff o := by
  rw [State.markAbort, ho]

/-- The order loses its roll and a destination bay. -/
theorem State.markAbort_gives_up (ho : s.order n = some o) : ∃ q, (s.markAbort n).order n = some q ∧
    (∀ r x, o.roll = some r → s.roll r = some x → q.roll = none) ∧ ∀ b, o.dest = some (.bay b) → q.dest = none := by
  obtain ⟨p, hp, -, hroll⟩ := OrderLaw.drop_order s n o ho
  obtain ⟨q, hq, hpq, hdest⟩ := OrderLaw.with_order _ n o p hp
  have hsent : ((((s.dropRoll n o).withdrawBay n o).clearLink n o).abortVehicle n o).order n = some q := by
    rw [State.order, (OrderLaw.tell_rest ..).1, OrdersAfter.clearLink]
    exact hq
  rw [State.markAbort_live ho, State.modOrder_live hsent]
  refine ⟨{ q with abort := true }, (Law.review_order _ o n).1 _ ((Law.order_put ..).trans (if_pos rfl)), fun r x hr hx => ?_, hdest⟩
  rw [hpq]
  exact hroll r x hr hx

/-- Its vehicle, if in service, is sent the Dispatch Unit's ABORT. -/
theorem State.markAbort_station {v a : Nat} {x : Station} (ho : s.order n = some o) (hv : o.vehicle = some v)
    (hservice : (s.vehicle v).inService = true) (ha : s.vehicleStation v = some a) (hx : s.station a = some x) :
    (s.markAbort n).station a = some (x.placed s.halted ⟨.dsp, .abort n⟩) := by
  obtain ⟨-, dstations, dvehicles, dhalted, -⟩ := OrderLaw.drop_rest s n o
  obtain ⟨-, wstations, wvehicles, -, whalted⟩ := OrderLaw.with_rest (s.dropRoll n o) n o
  obtain ⟨-, cstations, cvehicles, -, -, chalted⟩ := OrderLaw.clear_rest ((s.dropRoll n o).withdrawBay n o) n o
  obtain ⟨t, ht⟩ : ∃ t, t = ((s.dropRoll n o).withdrawBay n o).clearLink n o := ⟨_, rfl⟩
  have tstations : t.stations = s.stations := by rw [ht, cstations, wstations, dstations]
  have tvehicle : (t.vehicle v).inService = true := by rw [State.vehicle, ht, cvehicles, wvehicles, dvehicles]; exact hservice
  have thalted : t.halted = s.halted := by rw [ht, chalted, whalted, dhalted]
  have taddr : t.vehicleStation v = some a := by rw [State.vehicleStation, tstations]; exact ha
  have tstation : t.station a = some x := by rw [State.station, tstations]; exact hx
  have hsend : t.abortVehicle n o = t.sendKept a ⟨.dsp, .abort n⟩ := by
    rw [State.abortVehicle, hv]
    refine (if_pos tvehicle).trans ?_
    rw [State.sendVehicleKept, taddr]
  rw [State.markAbort_live ho, ← ht, State.station, OrderLaw.review_stations, State.modOrder_stations, hsend]
  refine (Law.station_mod ..).trans ((if_pos rfl).trans ?_)
  rw [tstation, thalted]
  rfl

end

/-! ## The obligation -/

/-- Settles O43: the owner's answer by the order's kind and state; the pass that follows leaves a freed number to a new call-off at most,
an order with the abort mark as it is, and of a carried RETURN all but its destination. -/
theorem cancelOrderByState : Obligations.CancelOrderByState := by
  unfold Obligations.CancelOrderByState
  intro s n htakes i
  refine ⟨fun hn => ?_, fun hlow hhigh ho => ?_, fun o hlow hhigh ho => ?_⟩
  · have hbad : ¬ orderOk n = true := by rw [orderOk_iff]; omega
    exact request_refused htakes (State.cancelRequest_badArgument hbad)
  · exact request_refused htakes (State.cancelRequest_notFound (s := s.fresh) (orderOk_iff.mpr ⟨hlow, hhigh⟩) ho)
  · have hn : orderOk n = true := orderOk_iff.mpr ⟨hlow, hhigh⟩
    have hfresh : s.fresh.order n = some o := ho
    refine ⟨fun hrefused => ?_, fun habort hstate hret => ?_, fun hrise habort hstate hkind => ?_, fun hrise habort hstate hkind => ?_⟩
    · exact request_refused htakes ((State.cancelRequest_live hn hfresh).trans (State.cancelLive_refused hrefused))
    · have hwr : Wr 0 s.fresh (s.fresh.freeOrder n) := State.wr_freeOrder .refl n
      have hlive := State.cancelLive_pending (s := s.fresh) (n := n) habort hstate fun hk =>
        have ⟨r, x, y, hr, hx, hloc⟩ := hret hk
        State.rollAtNode_of hr hx hloc
      obtain ⟨hexec, hanswer⟩ := execCancelOrder_ok htakes hn ho hlive hwr
      obtain ⟨hfreed, hroll⟩ := OrderLaw.free s.fresh n o hfresh
      refine ⟨_, hexec, hanswer, fun q hq => ?_, fun hhalted r x hr hx => ?_⟩
      · obtain ⟨p, hp, hkind, -, hseq⟩ := State.order_of_finish hq
        obtain ⟨hcallOff, hnext⟩ := hfreed p hp
        exact ⟨hkind.trans hcallOff, hseq.trans hnext⟩
      · rw [State.finish_replied_halted ((hwr.kept (by decide)).halted.trans hhalted)]
        exact hroll r x hr hx
    · have hwr : Wr 0 s.fresh (s.fresh.markAbort n) := State.wr_markAbort .refl n
      have hrising : (s.fresh.markAbort n).orders.rising = true := Law.rise hwr hrise
      obtain ⟨hexec, hanswer⟩ := execCancelOrder_ok htakes hn ho (State.cancelLive_underWay habort hstate hkind) hwr
      obtain ⟨q, hq, hmark, hqstate, hvehicle, hseq⟩ := State.markAbort_order hfresh
      obtain ⟨q', hq', hroll, hdest⟩ := State.markAbort_gives_up hfresh
      cases hq.symm.trans hq'
      obtain ⟨p, hp, -, hsame⟩ := Law.fin_order ((s.fresh.markAbort n).replied i .ok []) n q hrising hq
        fun h => absurd (h.2.symm.trans hmark) Bool.false_ne_true
      have hstays : q.waitsForDest = false := by rw [Order.waitsForDest, hmark]; simp
      rw [hsame hstays] at hp
      refine ⟨_, q, hexec, hanswer, hp, hmark, hqstate, hvehicle, hseq, hroll, hdest, fun hhalted v a x hv hin ha hx => ?_⟩
      have hstation := State.markAbort_station hfresh hv hin ha hx
      rw [State.finish_replied_halted ((hwr.kept (by decide)).halted.trans hhalted), ← hhalted]
      exact hstation
    · have hwr : Wr 0 s.fresh ((s.fresh.convert n).reviewCallOff o) := State.wr_reviewCallOff (State.wr_convert .refl n) o
      have hrising : ((s.fresh.convert n).reviewCallOff o).orders.rising = true := Law.rise hwr hrise
      obtain ⟨hexec, hanswer⟩ := execCancelOrder_ok htakes hn ho (State.cancelLive_carrying habort hstate hkind) hwr
      obtain ⟨q, hq, hret, hcls, hcarrying, hdeadline, hgrade, hwidth, hroll, hvehicle, hseq, -⟩ := OrderLaw.conv s.fresh n o hfresh
      obtain ⟨p, hp, hnew, -⟩ := Law.fin_order (((s.fresh.convert n).reviewCallOff o).replied i .ok []) n q hrising hq
        fun h => by rw [hcarrying] at h; cases h.1
      refine ⟨_, p, hexec, hanswer, hp, ?_⟩
      rw [hnew]
      exact ⟨hret, hcls, hcarrying, hdeadline, hgrade, hwidth, hroll, hvehicle, hseq⟩

end Sys2Proof.Machine
end

section
/-! Proofs about the assignment pass (R124, R128, R129): the rank of orders in the dispatch queue, the nearest eligible vehicle, and what the
pairing of an order writes. -/

namespace Sys2Proof.Machine

/-! ## The rank of an order (R124) -/

/-- A deadline as a rank: no deadline comes after every deadline. -/
def deadlineRank (d : Option Nat) : WithTop Nat := d.elim ⊤ fun a => (a : WithTop Nat)

theorem deadlineRank_inj {c d : Option Nat} : deadlineRank c = deadlineRank d ↔ c = d := by
  cases c <;> cases d <;> simp [deadlineRank]

theorem deadlineBefore_iff_rank {c d : Option Nat} : deadlineBefore c d = true ↔ deadlineRank c < deadlineRank d := by
  cases c <;> cases d <;> simp [deadlineRank, deadlineBefore]

theorem deadlineBefore_iff {c d : Option Nat} : deadlineBefore c d = true ↔ ∃ a, c = some a ∧ ∀ b, d = some b → a < b := by
  cases c <;> cases d <;> simp [deadlineBefore]

/-- An order's place in the ranking: by class, then by deadline, then by sequence. -/
def Order.rank (o : Order) : Nat ×ₗ WithTop Nat ×ₗ Nat := toLex (o.cls.rank, toLex (deadlineRank o.deadline, o.seq))

theorem Order.before_iff_rank (o p : Order) : o.before p = true ↔ o.rank < p.rank := by
  simp [Order.before, Order.rank, Prod.Lex.toLex_lt_toLex, deadlineBefore_iff_rank, deadlineRank_inj]

theorem Order.rank_le_iff (o p : Order) : o.rank ≤ p.rank ↔ o.cls.rank < p.cls.rank ∨ (o.cls.rank = p.cls.rank ∧
    ((∃ a, o.deadline = some a ∧ ∀ b, p.deadline = some b → a < b) ∨ (o.deadline = p.deadline ∧ o.seq ≤ p.seq))) := by
  rw [← deadlineBefore_iff, deadlineBefore_iff_rank, ← deadlineRank_inj]
  simp [Order.rank, Prod.Lex.toLex_le_toLex]

theorem Class.rank_eq_idxOf (c : Class) : c.rank = [Class.urgent, .callOff, .plant, .store].idxOf c := by
  cases c <;> rfl

theorem Class.rank_inj {c d : Class} : c.rank = d.rank ↔ c = d := by
  cases c <;> cases d <;> simp [Class.rank]

/-! ## The dispatch queue (R124) -/

section
variable {s : State}

theorem rankIn_pairwise {lt : Order → Order → Bool} (hlt : ∀ o p, lt o p = true ↔ o.rank < p.rank) (e : Nat × Order)
    {l : List (Nat × Order)} (h : l.Pairwise fun a b => a.2.rank ≤ b.2.rank) :
    (rankIn lt e l).Pairwise fun a b => a.2.rank ≤ b.2.rank := by
  induction l with
  | nil => exact List.pairwise_singleton ..
  | cons d ds ih =>
    obtain ⟨hhead, htail⟩ := List.pairwise_cons.mp h
    unfold rankIn
    split
    · next hfirst =>
      have hle : e.2.rank ≤ d.2.rank := ((hlt ..).mp hfirst).le
      refine List.pairwise_cons.mpr ⟨fun b hb => ?_, h⟩
      rcases List.mem_cons.mp hb with rfl | hb
      · exact hle
      · exact hle.trans (hhead b hb)
    · next hlater =>
      refine List.pairwise_cons.mpr ⟨fun b hb => ?_, ih htail⟩
      rcases (Law.mem_rankIn ..).mp hb with rfl | hb
      · exact not_lt.mp (mt (hlt ..).mpr hlater)
      · exact hhead b hb

theorem ranked_pairwise {lt : Order → Order → Bool} (hlt : ∀ o p, lt o p = true ↔ o.rank < p.rank) (l : List (Nat × Order)) :
    (ranked lt l).Pairwise fun a b => a.2.rank ≤ b.2.rank := by
  induction l with
  | nil => exact .nil
  | cons e l ih => exact rankIn_pairwise hlt e ih

/-- Of two orders in the queue the earlier does not rank after the later. -/
theorem State.queue_pairwise (hrise : s.orders.rising = true) :
    s.queue.Pairwise fun m n => ∀ o p, s.order m = some o → s.order n = some p → o.rank ≤ p.rank := by
  have hlive {e : Nat × Order} {o : Order}
      (he : e ∈ ranked Order.before (s.orders.filter fun e => e.2.state == .pending && !e.2.abort)) (ho : s.order e.1 = some o) :
      e.2 = o := by
    have hentry := List.mem_of_mem_filter ((Law.mem_ranked ..).mp he)
    exact Option.some.inj ((Law.find_rising hrise hentry).symm.trans ho)
  refine List.pairwise_map.mpr ((ranked_pairwise Order.before_iff_rank _).imp_of_mem fun ha hb hle o p ho hp => ?_)
  rwa [hlive ha ho, hlive hb hp] at hle

/-! ## The vehicle of least travel time (R128) -/

theorem State.wayBetween_isSome (s : State) (a b : Nat) :
    (s.wayBetween a b).isSome = true ↔ a = b ∨ ∃ n, s.routeBetween a b = some n := by
  unfold State.wayBetween
  split
  · next h => simp [h]
  · next h => simp [h, Option.isSome_iff_exists]

theorem State.eligible_iff (s : State) (pickup v : Nat) : s.eligible pickup v = true ↔
    (s.vehicle v).state = .idle ∧ (s.vehicle v).order = none ∧ (s.vehicle v).load = none ∧
      ∃ a, (s.vehicle v).pos = some (.node a) ∧ (a = pickup ∨ ∃ n, s.routeBetween a pickup = some n) := by
  simp only [← Vehicle.standsAt_iff, ← State.wayBetween_isSome]
  unfold State.eligible
  cases hat : (s.vehicle v).standsAt <;> simp [hat, and_assoc]

/-- The least of an ascending list is the lowest number of least value. -/
theorem leastBy_lowest {f : Nat → Nat} {l : List Nat} (hl : l.Pairwise (· < ·)) {n : Nat} (h : leastBy f l = some n) :
    ∀ m ∈ l, f n < f m ∨ (f n = f m ∧ n ≤ m) := by
  induction l generalizing n with
  | nil => cases h
  | cons a l ih =>
    obtain ⟨hhead, htail⟩ := List.pairwise_cons.mp hl
    rw [leastBy] at h
    intro b hb
    cases hleast : leastBy f l with
    | none =>
      rw [hleast] at h
      cases h
      rw [(Law.leastBy_none f l).mp hleast] at hb
      cases List.mem_singleton.mp hb
      exact .inr ⟨rfl, le_rfl⟩
    | some m =>
      rw [hleast] at h
      dsimp only at h
      split at h
      · next hless =>
        cases h
        rcases List.mem_cons.mp hb with rfl | hb
        · exact .inl hless
        · exact ih htail hleast b hb
      · next hleq =>
        cases h
        rcases List.mem_cons.mp hb with rfl | hb
        · exact .inr ⟨rfl, le_rfl⟩
        · have hm := ih htail hleast b hb
          have hab := hhead b hb
          omega

theorem State.mem_eligible {pickup v : Nat} :
    v ∈ (span 1 Config.vehicles).filter (s.eligible pickup) ↔ (1 ≤ v ∧ v ≤ 12) ∧ s.eligible pickup v = true := by
  rw [List.mem_filter, Law.mem_span]

theorem State.nearest_some {pickup v : Nat} (h : s.nearest pickup = some v) : 1 ≤ v ∧ v ≤ 12 ∧ s.eligible pickup v = true ∧
    ∀ w, 1 ≤ w → w ≤ 12 → s.eligible pickup w = true → s.travel pickup v < s.travel pickup w ∨
      (s.travel pickup v = s.travel pickup w ∧ v ≤ w) := by
  obtain ⟨hmem, -⟩ := Law.leastBy_some _ _ _ h
  obtain ⟨⟨hlow, hhigh⟩, hel⟩ := State.mem_eligible.mp hmem
  have hascending : ((span 1 Config.vehicles).filter (s.eligible pickup)).Pairwise (· < ·) := 
    List.Pairwise.filter _ List.pairwise_lt_range'
  exact ⟨hlow, hhigh, hel, fun w h1 h12 hw => leastBy_lowest hascending h w (State.mem_eligible.mpr ⟨⟨h1, h12⟩, hw⟩)⟩

theorem State.nearest_none {pickup w : Nat} (h : s.nearest pickup = none) (h1 : 1 ≤ w) (h12 : w ≤ 12) : s.eligible pickup w = false := by
  have hempty := (Law.leastBy_none ..).mp h
  refine Bool.eq_false_iff.mpr fun hw => ?_
  have hmem := State.mem_eligible.mpr ⟨⟨h1, h12⟩, hw⟩
  rw [hempty] at hmem
  cases hmem

end

/-! ## What a pairing writes (R129) -/

section
variable {s : State} {n r v x y : Nat} {o : Order} {d : Dest}

/-- The flags of an order that has a roll, a destination and a route between them are cleared. -/
def Order.unflagged (o : Order) : Order := { o with noStock := false, noBay := false, noRoute := false }

theorem State.passOne_pairs (ho : s.order n = some o) (hgone : s.namedGone o = false) (hr : s.rollToFetch o = some r)
    (hd : s.choice o = some d) (hx : s.pickupFor o r = some x) (hy : s.destNode d = some y)
    (hway : x = y ∨ ∃ k, s.routeBetween x y = some k) (hv : s.nearest x = some v) :
    s.passOne n = (s.putOrder n (some o.unflagged)).pair n o r d x v := by
  have hroute : (s.wayBetween x y).isNone = false := by
    rw [← Option.not_isSome, (s.wayBetween_isSome x y).mpr hway]
    rfl
  have hmod : s.modOrder n ({ · with noStock := false, noBay := false, noRoute := false }) = s.putOrder n (some o.unflagged) :=
    State.modOrder_live ho _
  rw [State.passOne, ho, ← hmod]
  dsimp only
  simp [hgone, hr, hd, hx, hy, hroute, hv]

theorem State.reserve_order (ho : s.order n = some o) : (s.reserve r n).order n = some { o with roll := some r, named := none } := by
  have hlive : (s.modRoll r fun x => { x with state := .reserved, order := some n, hold := none }).order n = some o := by
    rw [State.order, State.modRoll_orders]
    exact ho
  rw [State.reserve, Law.order_mod, if_pos rfl, hlive]
  rfl

theorem State.reserve_roll {z : Roll} (hz : s.roll r = some z) :
    (s.reserve r n).roll r = some { z with state := .reserved, order := some n, hold := none } := by
  rw [State.reserve, State.roll, State.modOrder_rolls]
  refine (roll_modRoll ..).trans ?_
  rw [if_pos rfl, hz]
  rfl

/-- The state in which an order has its roll: a roll selected is RESERVED first (R129). -/
def State.withRoll (s : State) (n : Nat) (o : Order) (r : Nat) : State := if o.roll.isNone then s.reserve r n else s

theorem State.withRoll_selected (h : o.roll = none) : s.withRoll n o r = s.reserve r n := if_pos (Option.isNone_iff_eq_none.mpr h)

theorem State.withRoll_own (h : o.roll = some r) : s.withRoll n o r = s := by
  refine if_neg ?_
  rw [h]
  exact Bool.false_ne_true

theorem State.pair_orders (s : State) (n : Nat) (o : Order) (r : Nat) (d : Dest) (x v : Nat) :
    (s.pair n o r d x v).orders = ((s.withRoll n o r).modOrder n fun q => { q with
      source := s.sourceFor o r, dest := some d, vehicle := some v, state := .assigned, noStock := false, noBay := false
      noRoute := false }).orders := by
  rw [State.pair, OrdersAfter.sendTask, OrdersAfter.restartProgress, State.modVehicle_orders]
  rfl

theorem State.pair_rolls (s : State) (n : Nat) (o : Order) (r : Nat) (d : Dest) (x v : Nat) :
    (s.pair n o r d x v).rolls = (s.withRoll n o r).rolls := by
  rw [State.pair, RollsAfter.sendTask, RollsAfter.restartProgress, State.modVehicle_rolls, State.modOrder_rolls]
  rfl

theorem State.putOrder_same (s : State) (n : Nat) (p : Option Order) : (s.putOrder n p).order n = p :=
  (Law.order_put ..).trans (if_pos rfl)

/-- The order paired is ASSIGNED to the vehicle with its roll and destination. -/
theorem State.pair_order {p : Order} (hp : s.order n = some p) (hroll : p.roll = o.roll) (hr : o.roll = none ∨ o.roll = some r) :
    ∃ q, (s.pair n o r d x v).order n = some q ∧ q.state = .assigned ∧ q.vehicle = some v ∧ q.dest = some d ∧ q.roll = some r ∧
      q.noStock = false ∧ q.noBay = false ∧ q.noRoute = false ∧ q.seq = p.seq := by
  rw [State.order, State.pair_orders]
  rcases hr with hnone | hown
  · rw [State.withRoll_selected hnone, State.modOrder_live (State.reserve_order hp)]
    exact ⟨_, State.putOrder_same .., rfl, rfl, rfl, rfl, rfl, rfl, rfl, rfl⟩
  · rw [State.withRoll_own hown, State.modOrder_live hp]
    exact ⟨_, State.putOrder_same .., rfl, rfl, rfl, hroll.trans hown, rfl, rfl, rfl, rfl⟩

/-- The vehicle paired goes to the pickup with the order. -/
theorem State.pair_vehicle (s : State) (n : Nat) (o : Order) (r : Nat) (d : Dest) (x v : Nat) :
    ((s.pair n o r d x v).vehicle v).state = .toPickup ∧ ((s.pair n o r d x v).vehicle v).order = some n := by
  unfold State.pair
  dsimp only
  generalize State.modOrder _ n _ = t
  obtain ⟨stations, hsend⟩ := State.sendTask_only (State.restartProgress _ v) n
  rw [hsend]
  show (State.vehicle (State.restartProgress _ v) v).state = _ ∧ (State.vehicle (State.restartProgress _ v) v).order = _
  rw [VehicleLaw.restart_vehicle, if_pos rfl, Law.vehicle_mod, if_pos rfl]
  exact ⟨rfl, rfl⟩

/-- The roll an order would fetch is its own, if it has one. -/
theorem State.rollToFetch_own {k : Nat} (hr : s.rollToFetch o = some r) (hk : o.roll = some k) : k = r := by
  rw [State.rollToFetch, hk] at hr
  dsimp only at hr
  split at hr
  · cases hr
  · split at hr
    · split at hr
      · split at hr
        · exact Option.some.inj hr
        · cases hr
      · cases hr
    · exact Option.some.inj hr

theorem State.rollToFetch_link (hr : s.rollToFetch o = some r) : o.roll = none ∨ o.roll = some r := by
  cases hk : o.roll with
  | none => exact .inl rfl
  | some k => exact .inr (congrArg some (State.rollToFetch_own hr hk))

end

/-! ## The obligation -/

/-- Settles O45: the queue is the PENDING orders sorted by rank, the nearest vehicle is the least of the eligible ones, and one order's turn
in the pass pairs it where nothing stands in the way. -/
theorem assignmentPass : Obligations.AssignmentPass := by
  unfold Obligations.AssignmentPass
  intro s
  refine ⟨⟨Law.mem_queue, fun hrise => ?_⟩, s.eligible_iff, fun pickup v => State.nearest_some, fun pickup h w => State.nearest_none h, ?_⟩
  · refine (State.queue_pairwise hrise).imp fun hrank o p ho hp => ?_
    have hle := (o.rank_le_iff p).mp (hrank o p ho hp)
    rwa [Class.rank_inj, Class.rank_eq_idxOf, Class.rank_eq_idxOf] at hle
  · intro n o r d x y v ho hgone hr hd hx hy hway hv
    have hput : (s.putOrder n (some o.unflagged)).order n = some o.unflagged := s.putOrder_same ..
    rw [State.passOne_pairs ho hgone hr hd hx hy hway hv]
    obtain ⟨q, hq, hstate, hvehicle, hdest, hroll, hstock, hbay, hroute, hseq⟩ :=
      State.pair_order (o := o) (d := d) (x := x) (v := v) hput rfl (State.rollToFetch_link hr)
    obtain ⟨hmoves, hlink⟩ := State.pair_vehicle (s.putOrder n (some o.unflagged)) n o r d x v
    refine ⟨q, hq, hstate, hvehicle, hdest, hroll, hstock, hbay, hroute, hseq, hmoves, hlink, fun z hnone hz => ?_⟩
    rw [State.roll, State.pair_rolls, State.withRoll_selected hnone]
    exact State.reserve_roll hz

end Sys2Proof.Machine
end

section
/-! Proofs about SET_SEGMENT, SET_NODE and SET_ROUTE (R141, R142): the checks in their order, and the record written or cleared. -/

namespace Sys2Proof.Machine

variable {s : State} {n : Nat}

/-! ## SET_SEGMENT (R142) -/

section
variable {k : Option SegKind}

theorem Segment.isLoop_iff (x : Segment) : x.isLoop = true ↔ ∃ next, x.kind = some (.loop next) := by
  unfold Segment.isLoop
  split
  · next m hm => simp [hm]
  · next hno => exact ⟨nofun, fun ⟨m, hm⟩ => absurd hm (hno m)⟩

theorem segmentOk_iff {g : Nat} : segmentOk g = true ↔ 1 ≤ g ∧ g ≤ 64 := within_iff

theorem State.otherLoop_iff (s : State) (n g : Nat) : s.otherLoop n g = true ↔
    1 ≤ g ∧ g ≤ 64 ∧ g ≠ n ∧ ∃ next, (s.segment g).kind = some (.loop next) := by
  rw [State.otherLoop, Bool.and_eq_true, Bool.and_eq_true, segmentOk_iff, Segment.isLoop_iff, bne_iff_ne, and_assoc, and_assoc]

theorem State.segKindOk_iff (s : State) (n : Nat) (k : Option SegKind) : s.segKindOk n k = true ↔
    (∀ next, k = some (.loop next) → 1 ≤ next ∧ next ≤ 64 ∧ next ≠ n) ∧
      ∀ branch next, k = some (.siding branch next) → s.otherLoop n branch = true ∧ s.otherLoop n next = true := by
  rcases k with _ | ⟨next⟩ | ⟨branch, next⟩
  · simp [State.segKindOk]
  · simp [State.segKindOk, segmentOk_iff, and_assoc]
  · simp [State.segKindOk]

theorem State.segmentBusy_iff (s : State) (n : Nat) (k : Option SegKind) : s.segmentBusy n k = true ↔
    ((s.segment n).kind ≠ k ∧ s.segmentInUse n = true) ∨
      ((s.segment n).kind ≠ none ∧ sameKind (s.segment n).kind k = false ∧ s.segmentNamed n = true) := by
  simp [State.segmentBusy, Option.isSome_iff_ne_none, and_assoc]

/-- A LOOP kind is kept exactly by another LOOP kind. -/
theorem sameKind_loop {next : Nat} : sameKind (some (.loop next)) k = false ↔ ∀ m, k ≠ some (.loop m) := by
  rcases k with _ | ⟨m⟩ | ⟨b, m⟩ <;> simp [sameKind]

theorem State.loopNeeded_iff (s : State) (n : Nat) (k : Option SegKind) : s.loopNeeded n k = true ↔
    (∃ next, (s.segment n).kind = some (.loop next)) ∧ (∀ next, k ≠ some (.loop next)) ∧ 0 < s.inServiceCount ∧
      s.loopCount - 1 ≤ s.inServiceCount := by
  rw [State.loopNeeded, Bool.and_eq_true, Bool.and_eq_true, Segment.isLoop_iff, Bool.not_eq_true', decide_eq_true_eq, and_assoc]
  refine and_congr_right fun ⟨next, hnext⟩ => ?_
  rw [hnext, sameKind_loop]

/-- A segment's fields in range, its kind well formed (R142 step 1). -/
def State.segmentFits (s : State) (n : Nat) (k : Option SegKind) : Prop := segmentOk n = true ∧ s.segKindOk n k = true

theorem execSetSegment_unfit (ht : s.takes (.setSegment n k) = true) (hno : ¬ s.segmentFits n k) :
    exec (.setSegment n k) s = .next (s.fresh.replied (.setSegment n k) .badArgument []) :=
  request_refused (h := (·.segmentRequest n k)) ht (if_neg fun h => hno (Bool.and_eq_true_iff.mp h))

theorem State.segmentRequest_fits (h : s.segmentFits n k) : s.fresh.segmentRequest n k =
    if s.segmentBusy n k then s.fresh.no .badState else if s.loopNeeded n k then s.fresh.no .limit
    else (s.fresh.modSegment n ({ · with kind := k })).ok := if_pos (Bool.and_eq_true_iff.mpr h)

theorem execSetSegment_busy (ht : s.takes (.setSegment n k) = true) (h : s.segmentFits n k) (hbusy : s.segmentBusy n k = true) :
    exec (.setSegment n k) s = .next (s.fresh.replied (.setSegment n k) .badState []) :=
  request_refused (h := (·.segmentRequest n k)) ht (by rw [State.segmentRequest_fits h, if_pos hbusy])

theorem execSetSegment_needed (ht : s.takes (.setSegment n k) = true) (h : s.segmentFits n k) (hfree : ¬ s.segmentBusy n k = true)
    (hneed : s.loopNeeded n k = true) : exec (.setSegment n k) s = .next (s.fresh.replied (.setSegment n k) .limit []) :=
  request_refused (h := (·.segmentRequest n k)) ht (by rw [State.segmentRequest_fits h, if_neg hfree, if_pos hneed])

theorem execSetSegment_written (ht : s.takes (.setSegment n k) = true) (h : s.segmentFits n k) (hfree : ¬ s.segmentBusy n k = true)
    (hspare : ¬ s.loopNeeded n k = true) : exec (.setSegment n k) s =
      .next ((s.fresh.modSegment n ({ · with kind := k })).replied (.setSegment n k) .ok []) :=
  request_eq_quiet (h := (·.segmentRequest n k)) (q := (s.fresh.modSegment n ({ · with kind := k })).ok) ht
    (by rw [State.segmentRequest_fits h, if_neg hfree, if_neg hspare]) rfl rfl

end

/-! ## SET_NODE (R142) -/

section
variable {c : Option (Nat × Option NodeRole)}

/-- A segment that bears a node of a role: it is configured, and a LOOP segment bears PARK nodes alone (R141). -/
theorem State.roleSuits_iff (s : State) (g : Nat) (r : NodeRole) : s.roleSuits g r = true ↔
    (s.segment g).kind ≠ none ∧ (r ≠ .park → ∀ next, (s.segment g).kind ≠ some (.loop next)) := by
  have notLoop : (!(s.segment g).isLoop) = true ↔ ∀ next, (s.segment g).kind ≠ some (.loop next) := by
    rw [Bool.not_eq_true', ← Bool.not_eq_true, Segment.isLoop_iff, not_exists]
  cases r <;> simp [State.roleSuits, Option.isSome_iff_ne_none, notLoop, -Bool.not_eq_eq_eq_not]

theorem State.nodeFields_iff (s : State) (c : Option (Nat × Option NodeRole)) (x : Option Node) : s.nodeFields c = some x ↔
    (c = none ∧ x = none) ∨ ∃ g r, c = some (g, some r) ∧ (segmentOk g = true ∧ s.roleSuits g r = true) ∧ x = some ⟨g, r⟩ := by
  rcases c with _ | ⟨g, _ | r⟩
  · simp [State.nodeFields, eq_comm (b := x)]
  · simp [State.nodeFields]
  · simp [State.nodeFields, and_assoc, eq_comm (b := x)]

theorem execSetNode_unfit (ht : s.takes (.setNode n c) = true) (hno : ∀ x, ¬ (within 1 48 n = true ∧ s.nodeFields c = some x)) :
    exec (.setNode n c) s = .next (s.fresh.replied (.setNode n c) .badArgument []) := by
  have unread : (if within 1 Config.nodes n then s.fresh.nodeFields c else none) = none := by
    rw [Option.eq_none_iff_forall_ne_some]
    intro x hx
    rw [Option.ite_none_right_eq_some] at hx
    exact hno x hx
  exact request_refused (h := (·.nodeRequest n c)) ht (by rw [State.nodeRequest, unread])

theorem execSetNode_fits (ht : s.takes (.setNode n c) = true) (hn : within 1 48 n = true) {x : Option Node} (hx : s.nodeFields c = some x) :
    exec (.setNode n c) s = .next (if s.node n ≠ x ∧ s.nodeInUse n = true then s.fresh.replied (.setNode n c) .badState []
      else (s.fresh.putNode n x).replied (.setNode n c) .ok []) := by
  have read : (if within 1 Config.nodes n then s.fresh.nodeFields c else none) = some x := by rw [if_pos hn]; exact hx
  have owner : s.fresh.nodeRequest n c =
      if s.node n ≠ x ∧ s.nodeInUse n = true then s.fresh.no .badState else (s.fresh.putNode n x).ok := by
    rw [State.nodeRequest, read]
    rfl
  by_cases huse : s.node n ≠ x ∧ s.nodeInUse n = true
  · rw [if_pos huse] at owner ⊢
    exact request_refused (h := (·.nodeRequest n c)) ht owner
  · rw [if_neg huse] at owner ⊢
    exact request_eq_quiet (h := (·.nodeRequest n c)) (q := State.ok _) ht owner rfl rfl

end

/-! ## SET_ROUTE (R142) -/

/-- A segment follows another in a route: as its next segment, or as a SIDING that branches from it (R141). -/
def State.follows (s : State) (a b : Nat) : Prop :=
  (s.segment a).kind = some (.loop b) ∨
    (∃ next, (s.segment a).kind = some (.loop next) ∧ ∃ z, (s.segment b).kind = some (.siding a z)) ∨
    ∃ z, (s.segment a).kind = some (.siding z b)

theorem State.mayFollow_iff (s : State) (a b : Nat) : s.mayFollow a b = true ↔ s.follows a b := by
  unfold State.mayFollow State.follows
  rcases (s.segment a).kind with _ | ⟨next⟩ | ⟨branch, next⟩
  · simp
  · rcases (s.segment b).kind with _ | ⟨m⟩ | ⟨z, m⟩ <;> simp [eq_comm (a := b)]
  · simp [eq_comm (a := b)]

theorem State.chained_iff (s : State) (segs : List Nat) : s.chained segs = true ↔ List.IsChain s.follows segs := by
  induction segs with
  | nil => simp [State.chained]
  | cons a rest ih =>
    cases rest with
    | nil => simp [State.chained]
    | cons b rest => rw [State.chained, Bool.and_eq_true, State.mayFollow_iff, ih, List.isChain_cons_cons]

/-- A route's fields are in range, its segments follow each other, and it leads from its node of departure to its destination (R141). -/
theorem State.routeOk_iff (s : State) (r : Route) : s.routeOk r = true ↔
    1 ≤ r.src ∧ r.src ≤ 48 ∧ 1 ≤ r.dst ∧ r.dst ≤ 48 ∧ r.src ≠ r.dst ∧ 1 ≤ r.segs.length ∧ r.segs.length ≤ 12 ∧
      (∀ g ∈ r.segs, 1 ≤ g ∧ g ≤ 64) ∧ 1 ≤ r.time ∧ r.time ≤ 1200 ∧ List.IsChain s.follows r.segs ∧
      r.segs.head? = (s.node r.src).map Node.seg ∧ r.segs.getLast? = (s.node r.dst).map Node.seg := by
  have opens : 1 ≤ r.segs.length → r.segs.head?.isSome = true := fun h =>
    List.isSome_head?.mpr (List.ne_nil_of_length_pos h)
  simp only [State.routeOk, Bool.and_eq_true, within_iff, bne_iff_ne, List.all_eq_true, segmentOk_iff, beq_iff_eq, State.chained_iff]
  constructor
  · rintro ⟨⟨⟨⟨⟨⟨⟨⟨⟨⟨hs1, hs2⟩, hd1, hd2⟩, hne⟩, hl1, hl2⟩, hsegs⟩, ht1, ht2⟩, hchain⟩, _⟩, hhead⟩, hlast⟩
    exact ⟨hs1, hs2, hd1, hd2, hne, hl1, hl2, hsegs, ht1, ht2, hchain, hhead, hlast⟩
  · rintro ⟨hs1, hs2, hd1, hd2, hne, hl1, hl2, hsegs, ht1, ht2, hchain, hhead, hlast⟩
    exact ⟨⟨⟨⟨⟨⟨⟨⟨⟨⟨hs1, hs2⟩, hd1, hd2⟩, hne⟩, hl1, hl2⟩, hsegs⟩, ht1, ht2⟩, hchain⟩, opens hl1⟩, hhead⟩, hlast⟩

theorem State.routeOk_fresh (s : State) : s.fresh.routeOk = s.routeOk :=
  funext fun r => Bool.eq_iff_iff.mpr ((s.fresh.routeOk_iff r).trans (s.routeOk_iff r).symm)

section
variable {c : Option Route}

/-- A route record's number in range and its fields well formed (R142 step 1). -/
def State.routeFits (s : State) (n : Nat) (c : Option Route) : Prop := within 1 160 n = true ∧ ∀ r, c = some r → s.routeOk r = true

theorem State.routeFits_iff (s : State) (n : Nat) (c : Option Route) :
    (within 1 Config.routes n && c.all s.fresh.routeOk) = true ↔ s.routeFits n c := by
  rw [State.routeOk_fresh]
  cases c <;> simp [State.routeFits, Config.routes]

theorem execSetRoute_unfit (ht : s.takes (.setRoute n c) = true) (hno : ¬ s.routeFits n c) :
    exec (.setRoute n c) s = .next (s.fresh.replied (.setRoute n c) .badArgument []) :=
  request_refused (h := (·.routeRequest n c)) ht (if_neg fun h => hno ((s.routeFits_iff n c).mp h))

theorem State.routeRequest_fits (h : s.routeFits n c) : s.fresh.routeRequest n c =
    if c.any (s.routeDouble n) then s.fresh.no .duplicate
    else if s.route n ≠ c ∧ s.routeInUse n = true then s.fresh.no .badState else ((s.fresh.putRoute n c).notice).ok :=
  if_pos ((s.routeFits_iff n c).mpr h)

theorem execSetRoute_double (ht : s.takes (.setRoute n c) = true) (h : s.routeFits n c) (hdouble : c.any (s.routeDouble n) = true) :
    exec (.setRoute n c) s = .next (s.fresh.replied (.setRoute n c) .duplicate []) :=
  request_refused (h := (·.routeRequest n c)) ht (by rw [State.routeRequest_fits h, if_pos hdouble])

theorem execSetRoute_used (ht : s.takes (.setRoute n c) = true) (h : s.routeFits n c) (hone : ¬ c.any (s.routeDouble n) = true)
    (huse : s.route n ≠ c ∧ s.routeInUse n = true) : exec (.setRoute n c) s = .next (s.fresh.replied (.setRoute n c) .badState []) :=
  request_refused (h := (·.routeRequest n c)) ht (by rw [State.routeRequest_fits h, if_neg hone, if_pos huse])

theorem execSetRoute_written (ht : s.takes (.setRoute n c) = true) (h : s.routeFits n c) (hone : ¬ c.any (s.routeDouble n) = true)
    (hfree : ¬ (s.route n ≠ c ∧ s.routeInUse n = true)) :
    exec (.setRoute n c) s = .next ((s.fresh.putRoute n c).notice.replied (.setRoute n c) .ok []).finish :=
  request_eq (h := (·.routeRequest n c)) (q := (s.fresh.putRoute n c).notice.ok) ht
    (by rw [State.routeRequest_fits h, if_neg hone, if_neg hfree]) rfl

end

/-! ## The obligation -/

/-- Settles O47: each check's rule is what its part of the request tests, and the record is written where none refuses. -/
theorem trackRecordsAreWritten : Obligations.TrackRecordsAreWritten := by
  unfold Obligations.TrackRecordsAreWritten
  refine ⟨?_, ?_, ?_⟩
  · intro s n k ht i loop fields used needed
    have fits : fields ↔ s.segmentFits n k := by
      simp only [fields, loop, State.segmentFits, segmentOk_iff, State.segKindOk_iff, State.otherLoop_iff, and_assoc]
    have busy : used ↔ s.segmentBusy n k = true := (s.segmentBusy_iff n k).symm
    have need : needed ↔ s.loopNeeded n k = true := (s.loopNeeded_iff n k).symm
    rw [fits, busy, need]
    exact ⟨execSetSegment_unfit ht, execSetSegment_busy ht, execSetSegment_needed ht, execSetSegment_written ht⟩
  · intro s n c ht i suits
    have suit (g : Nat) (r : NodeRole) : suits g r ↔ segmentOk g = true ∧ s.roleSuits g r = true := by
      rw [segmentOk_iff, State.roleSuits_iff, and_assoc]
    refine ⟨fun hbad => execSetNode_unfit ht ?_, fun hlow hhigh x hx => ?_⟩
    · rintro x ⟨hn, hx⟩
      obtain ⟨hlow, hhigh⟩ := within_iff.mp hn
      rcases hbad with hbad | hbad | ⟨g, rfl⟩ | ⟨g, r, rfl, hno⟩
      · omega
      · omega
      · cases hx
      · rcases (s.nodeFields_iff _ x).mp hx with ⟨hc, _⟩ | ⟨g', r', hc, hsuit, _⟩
        · cases hc
        · cases hc
          exact hno ((suit g r).mpr hsuit)
    · refine execSetNode_fits ht (within_iff.mpr ⟨hlow, hhigh⟩) ((s.nodeFields_iff c x).mpr ?_)
      simpa only [suit, and_assoc] using hx
  · intro s n c ht i follows fits
    have fit (r : Route) : fits r ↔ s.routeOk r = true := (s.routeOk_iff r).symm
    have double : (∃ r, c = some r ∧ s.routeDouble n r = true) ↔ c.any (s.routeDouble n) = true := by cases c <;> simp
    have one : (∀ r, c = some r → s.routeDouble n r = false) ↔ ¬ c.any (s.routeDouble n) = true := by cases c <;> simp
    simp only [fit, double, one]
    refine ⟨fun hbad => execSetRoute_unfit ht ?_, fun hlow hhigh hok => ?_⟩
    · rintro ⟨hn, hok⟩
      obtain ⟨hlow, hhigh⟩ := within_iff.mp hn
      rcases hbad with hbad | hbad | ⟨r, hr, hno⟩
      · omega
      · omega
      · exact hno (hok r hr)
    · have route : s.routeFits n c := ⟨within_iff.mpr ⟨hlow, hhigh⟩, hok⟩
      refine ⟨execSetRoute_double ht route, fun hone => ⟨fun hne huse => execSetRoute_used ht route hone ⟨hne, huse⟩, fun hfree =>
        execSetRoute_written ht route hone ?_⟩⟩
      rintro ⟨hne, huse⟩
      rcases hfree with hsame | hidle
      · exact hne hsame
      · rw [huse] at hidle
        cases hidle

end Sys2Proof.Machine
end

section
/-! Proofs about HALT_TRANSPORT and RESUME_TRANSPORT (R154): both timers of every vehicle, the mark, and the broadcast. -/

namespace Sys2Proof.Machine

/-! ## The timers of every vehicle -/

/-- A vehicle with both timers changed. -/
def Vehicle.timed (x : Vehicle) (f : Timer → Timer) : Vehicle := { x with progress := f x.progress, transfer := f x.transfer }

/-- Changing the timers writes the vehicles' table alone, and there the two timers of the twelve vehicles. -/
theorem State.eachTimer_eq (s : State) (f : Timer → Timer) : ∃ vs, s.eachTimer f = { s with vehicles := vs } ∧
    ∀ v, vs.get v .cold = if 1 ≤ v ∧ v ≤ 12 then (s.vehicle v).timed f else s.vehicle v := by
  obtain ⟨vs, hvs⟩ : ∃ vs, s.eachTimer f = { s with vehicles := vs } := by
    refine State.each_keeps (P := fun u => ∃ vs, u = { s with vehicles := vs }) ?_ _ ⟨_, rfl⟩
    rintro n _ ⟨vs, rfl⟩
    exact ⟨_, rfl⟩
  refine ⟨vs, hvs, fun v => ?_⟩
  have once : (s.eachTimer f).vehicle v = if v ∈ span 1 Config.vehicles then (s.vehicle v).timed f else s.vehicle v := by
    refine State.each_once (g := State.vehicle) (h := (Vehicle.timed · f)) (fun u n m => ?_) List.nodup_range' s v
    rw [Law.vehicle_mod]
    split
    · next hm => rw [hm]; rfl
    · rfl
  rw [hvs] at once
  simp only [Law.mem_span] at once
  exact once

/-! ## The two requests -/

section
variable {s : State}

theorem execHaltTransport_halts (ht : s.takes .haltTransport = true) :
    exec .haltTransport s = .next (s.fresh.halt.replied .haltTransport .ok []) := by
  obtain ⟨vs, hvs, _⟩ := s.fresh.eachTimer_eq Timer.suspend
  refine request_eq_quiet (h := fun s => s.halt.ok) (q := s.fresh.halt.ok) ht rfl ?_ ?_
  · rw [State.halt, hvs]; rfl
  · rw [State.halt, hvs]; rfl

/-- A halted part set going again, before its answer. -/
def State.resumed (s : State) : State :=
  { s.eachTimer Timer.resume with halted := false, pendingBroadcast := some .resume }.notice

theorem execResumeTransport_running (ht : s.takes .resumeTransport = true) (h : s.halted = false) :
    exec .resumeTransport s = .next (s.fresh.replied .resumeTransport .badState []) := by
  have running : ¬ s.fresh.halted = true := by rw [show s.fresh.halted = s.halted from rfl, h]; nofun
  exact request_refused (h := State.resumeRequest) ht (if_neg running)

theorem execResumeTransport_resumes (ht : s.takes .resumeTransport = true) (h : s.halted = true) :
    exec .resumeTransport s = .next (s.fresh.resumed.replied .resumeTransport .ok []).finish := by
  obtain ⟨vs, hvs, _⟩ := s.fresh.eachTimer_eq Timer.resume
  have halted : s.fresh.halted = true := h
  refine request_eq (h := State.resumeRequest) (q := s.fresh.resumed.ok) ht (if_pos halted) ?_
  rw [State.resumed, hvs]
  rfl

end

/-- Settles O48: each request writes its mark and its broadcast, and every vehicle's timers as the update of one vehicle after the other
leaves them. -/
theorem haltAndResumeTransport : Obligations.HaltAndResumeTransport := by
  unfold Obligations.HaltAndResumeTransport
  intro timers suspend resume
  have suspends : suspend = Timer.suspend := by funext t; cases t <;> rfl
  have resumes : resume = Timer.resume := by funext t; cases t <;> rfl
  rw [suspends, resumes]
  refine ⟨fun s ht => ⟨_, execHaltTransport_halts ht, ?_⟩, fun s ht => ⟨execResumeTransport_running ht, fun h =>
    ⟨_, execResumeTransport_resumes ht h, ?_⟩⟩⟩
  · obtain ⟨vs, hvs, changed⟩ := s.fresh.eachTimer_eq Timer.suspend
    rw [State.halt, hvs]
    exact ⟨rfl, rfl, rfl, changed, rfl, rfl⟩
  · obtain ⟨vs, hvs, changed⟩ := s.fresh.eachTimer_eq Timer.resume
    rw [State.resumed, hvs]
    exact ⟨rfl, rfl, rfl, changed, rfl, rfl⟩

end Sys2Proof.Machine
end

section
/-! Proofs about CLAIM (R143): the segments a vehicle may claim, and the answers and writes of the table of R143. -/

namespace Sys2Proof.Machine

/-! ## The segment claimed -/

/-- What follows the first place of an element in a list. -/
theorem followsFirst_iff {segs : List Nat} {a g : Nat} : (segs.contains a && segs[segs.idxOf a + 1]? == some g) = true ↔
    ∃ front back, segs = front ++ a :: g :: back ∧ a ∉ front := by
  have after {front rest : List Nat} (h : a ∉ front) : (front ++ a :: rest)[(front ++ a :: rest).idxOf a + 1]? = rest.head? := by
    rw [List.idxOf_append_of_notMem h, List.idxOf_cons_self, Nat.add_zero, List.getElem?_append_right (Nat.le_add_right _ 1),
      Nat.add_sub_cancel_left, List.getElem?_cons_succ, List.head?_eq_getElem?]
  rw [Bool.and_eq_true, beq_iff_eq, List.contains_iff_mem]
  constructor
  · rintro ⟨hmem, hnext⟩
    obtain ⟨front, rest, rfl, hfirst⟩ := List.eq_append_cons_of_mem hmem
    rw [after hfirst] at hnext
    obtain ⟨back, rfl⟩ := List.head?_eq_some_iff.mp hnext
    exact ⟨front, back, rfl, hfirst⟩
  · rintro ⟨front, back, rfl, hfirst⟩
    exact ⟨by simp, by rw [after hfirst]; rfl⟩

section
variable {s : State} {v g : Nat}

theorem State.claimable_unrouted (h : (s.vehicle v).leg = none) : s.claimable v g = false := by
  simp [State.claimable, h]

/-- The last held segment, or the one that follows it in the rest of the route (R143). -/
theorem State.claimable_iff {l : Leg} {r : Route} {a : Nat} (hl : (s.vehicle v).leg = some l) (hr : s.route l.route = some r)
    (ha : (s.vehicle v).held.getLast? = some a) : s.claimable v g = true ↔
      g = a ∨ ∃ front back, r.segs.drop l.progress = front ++ a :: g :: back ∧ a ∉ front := by
  have read : s.claimable v g = (g == a || ((r.segs.drop l.progress).contains a &&
      (r.segs.drop l.progress)[(r.segs.drop l.progress).idxOf a + 1]? == some g)) := by
    simp only [State.claimable, hl, ha, hr, Option.map_some, Option.getD_some]
  rw [read, Bool.or_eq_true, beq_iff_eq, followsFirst_iff]

end

/-! ## A segment taken, and a segment waited for -/

section
variable (s : State) (v g : Nat)

theorem State.hold_writes : ((s.hold v g).segment g).holder = some v ∧ ((s.hold v g).vehicle v).held = (s.vehicle v).held ++ [g] ∧
    ((s.hold v g).vehicle v).waiting = none ∧ (s.hold v g).stations = (s.sendVehicle v (.grant g)).stations ∧
    (s.hold v g).passDue = s.passDue := by
  generalize ht : ((s.leaveList v).modSegment g ({ · with holder := some v })).modVehicle v (fun x => { x with held := x.held ++ [g] }) = t
  have eq : s.hold v g = (t.sendVehicle v (.grant g)).syncProgress v := by rw [← ht]; rfl
  obtain ⟨leftStations, leftDue, leftHalted⟩ := VehicleLaw.leave_rest s v
  have stations : t.stations = s.stations := by rw [← ht]; exact leftStations
  have halted : t.halted = s.halted := by rw [← ht]; exact leftHalted
  have due : t.passDue = s.passDue := by rw [← ht]; exact leftDue
  have vehicle : t.vehicle v = { s.vehicle v with waiting := none, held := (s.vehicle v).held ++ [g] } := by
    rw [← ht, Law.vehicle_mod, if_pos rfl, VehicleLaw.veh_ms, VehicleLaw.leave_vehicle, if_pos rfl]
  have holder : (t.segment g).holder = some v := by rw [← ht, VehicleLaw.seg_mv, Law.segment_mod, if_pos rfl]
  obtain ⟨syncStations, syncDue, _, syncSegments⟩ := VehicleLaw.sync_rest (t.sendVehicle v (.grant g)) v
  obtain ⟨sentVehicles, sentSegments, _⟩ := VehicleLaw.send_rest t v (.grant g)
  have sent : (t.sendVehicle v (.grant g)).vehicle v = t.vehicle v := congrArg (Tbl.get · v Vehicle.cold) sentVehicles
  rw [eq, VehicleLaw.sync_vehicle, if_pos rfl, sent, vehicle]
  refine ⟨?_, rfl, rfl, ?_, ?_⟩
  · exact (congrArg (fun t : Tbl Segment => (t.get g .cold).holder) (syncSegments.trans sentSegments)).trans holder
  · exact syncStations.trans (VehicleLaw.send_stations v _ stations halted)
  · exact syncDue.trans ((VehicleLaw.sendVehicle_passDue t v _).trans due)

theorem State.await_again (h : v ∈ (s.segment g).waiters) : s.await v g = s.sendVehicle v (.wait g) := by
  unfold State.await
  rw [if_pos (List.contains_iff_mem.mpr h)]

theorem State.await_joins (h : v ∉ (s.segment g).waiters) : ((s.await v g).segment g).holder = (s.segment g).holder ∧
    ((s.await v g).segment g).waiters = (s.segment g).waiters ++ [v] ∧ ((s.await v g).vehicle v).waiting = some g ∧
    ((s.await v g).vehicle v).held = (s.vehicle v).held ∧ ((s.await v g).vehicle v).progress = .stopped ∧
    (s.await v g).stations = (s.sendVehicle v (.wait g)).stations ∧ (s.await v g).passDue = s.passDue := by
  generalize ht : ((s.leaveList v).modSegment g (fun x => { x with waiters := x.waiters ++ [v] })).modVehicle v
    ({ · with waiting := some g }) = t
  have eq : s.await v g = (t.syncProgress v).sendVehicle v (.wait g) := by
    rw [← ht, State.await, if_neg (fun hc => h (List.contains_iff_mem.mp hc))]
  obtain ⟨leftStations, leftDue, leftHalted⟩ := VehicleLaw.leave_rest s v
  have stations : t.stations = s.stations := by rw [← ht]; exact leftStations
  have halted : t.halted = s.halted := by rw [← ht]; exact leftHalted
  have due : t.passDue = s.passDue := by rw [← ht]; exact leftDue
  have vehicle : t.vehicle v = { s.vehicle v with waiting := some g } := by
    rw [← ht, Law.vehicle_mod, if_pos rfl, VehicleLaw.veh_ms, VehicleLaw.leave_vehicle, if_pos rfl]
  have left : (s.leaveList v).segment g = s.segment g := by
    rw [VehicleLaw.leave_segment, List.erase_of_not_mem h, ite_self]
  have segment : t.segment g = { s.segment g with waiters := (s.segment g).waiters ++ [v] } := by
    rw [← ht, VehicleLaw.seg_mv, Law.segment_mod, if_pos rfl, left]
  have stops : t.progressRuns (t.vehicle v) = false := by simp [State.progressRuns, vehicle]
  obtain ⟨syncStations, syncDue, syncHalted, syncSegments⟩ := VehicleLaw.sync_rest t v
  obtain ⟨sentVehicles, sentSegments, _⟩ := VehicleLaw.send_rest (t.syncProgress v) v (.wait g)
  have after : (s.await v g).vehicle v = { s.vehicle v with waiting := some g, progress := .stopped } := by
    refine (congrArg (State.vehicle · v) eq).trans ((congrArg (Tbl.get · v Vehicle.cold) sentVehicles).trans ?_)
    refine (VehicleLaw.sync_vehicle t v v).trans ?_
    rw [if_pos rfl, stops, vehicle]
    rfl
  have place : (s.await v g).segment g = t.segment g := by
    rw [eq]
    exact congrArg (Tbl.get · g Segment.cold) (sentSegments.trans syncSegments)
  rw [place, segment, after, eq]
  refine ⟨rfl, rfl, rfl, rfl, rfl, ?_, ?_⟩
  · exact VehicleLaw.send_stations v _ (syncStations.trans stations) (syncHalted.trans halted)
  · exact (VehicleLaw.sendVehicle_passDue _ v _).trans (syncDue.trans due)

end

/-! ## The table of R143 -/

section
variable {s : State} {v g : Nat}

theorem State.takeClaim_own (h : (s.segment g).holder = some v) : s.takeClaim v g = s.sendVehicle v (.grant g) := by
  simp [State.takeClaim, h]

theorem State.takeClaim_full (h : (s.segment g).holder ≠ some v) (hfull : (s.vehicle v).held.length = 2) :
    s.takeClaim v g = s.sendVehicle v (.wait g) := by
  unfold State.takeClaim
  split
  · next w hw => rw [if_neg fun hv : w = v => h (hv ▸ hw), if_pos hfull]
  · rw [if_pos hfull]

theorem State.takeClaim_free (h : (s.segment g).holder = none) (hroom : (s.vehicle v).held.length ≠ 2) : s.takeClaim v g = s.hold v g := by
  simp [State.takeClaim, h, hroom]

theorem State.takeClaim_held {w : Nat} (h : (s.segment g).holder = some w) (hw : w ≠ v) (hroom : (s.vehicle v).held.length ≠ 2) :
    s.takeClaim v g = s.await v g := by
  simp [State.takeClaim, h, hw, hroom]

end

/-! ## The report -/

theorem State.reporting_segment {s : State} {e : Exchange} {more : Bool} {v : Nat} (g : Nat) :
    (s.reporting e more v).segment g = s.segment g := Law.heard_segment (more := more) g

theorem State.reporting_route {s : State} {e : Exchange} {more : Bool} {v : Nat} (k : Nat) : (s.reporting e more v).route k = s.route k :=
  congrArg (Tbl.find · k) (State.heard_routes (more := more))

section
variable {s : State} {e : Exchange} {x : Station} {n g v : Nat} {more : Bool} (hh : s.hears e x) (hr : x.role = .vehicle v)
  (hv : (s.vehicle v).state ≠ .outOfService) (hn : n = (s.workingOrder v).getD 0)
include hh hr hv hn

theorem execClaim_reports : exec (.claim n g more) s = .next (if (s.reporting e more v).claimable v g then
    (s.reporting e more v).takeClaim v g else (s.reporting e more v).refuse e.addr .claim .badState).finish := by
  rw [show exec (.claim n g more) s = execClaim n g more s from rfl, execClaim, VehicleLaw.taken hh hr hv (by decide) hn]
  rfl

theorem execClaim_refused (hno : (s.reporting e more v).claimable v g = false) :
    exec (.claim n g more) s = .next ((s.reporting e more v).refuse e.addr .claim .badState) := by
  rw [execClaim_reports hh hr hv hn, hno, if_neg nofun, State.refuse_finish State.reporting_passDue]

/-- A claim that passes is taken, and leads to no pass. -/
theorem execClaim_taken (hyes : (s.reporting e more v).claimable v g = true) {t : State} (ht : (s.reporting e more v).takeClaim v g = t)
    (hdue : t.passDue = (s.reporting e more v).passDue) : exec (.claim n g more) s = .next t := by
  rw [execClaim_reports hh hr hv hn, if_pos hyes, ht, State.finish_idle (hdue.trans State.reporting_passDue)]

end

/-- Settles O49: a claim is refused unless its segment is the last held one or follows it, and then taken by the case of R143's table that
the segment's holder, the room for a second segment and the waiting list choose. -/
theorem claimsFollowTheTable : Obligations.ClaimsFollowTheTable := by
  unfold Obligations.ClaimsFollowTheTable
  intro s e x n g v more hh hr hv hn i y h
  have vehicle : (s.reporting e more v).vehicle v = { y with lastReport := some s.timeBase, docked := 0 } := State.reporting_vehicle hh hr
  have segment : (s.reporting e more v).segment g = s.segment g := State.reporting_segment g
  have sent (c : Cmd) : ((s.reporting e more v).sendVehicle v c).passDue = (s.reporting e more v).passDue :=
    VehicleLaw.sendVehicle_passDue ..
  refine ⟨fun hl => execClaim_refused hh hr hv hn (State.claimable_unrouted (by rw [vehicle]; exact hl)), ?_⟩
  intro l r a hl hroute ha follows
  have claimable : (s.reporting e more v).claimable v g = true ↔ follows :=
    State.claimable_iff (by rw [vehicle]; exact hl) ((State.reporting_route _).trans hroute) (by rw [vehicle]; exact ha)
  refine ⟨fun hno => ?_, fun hyes hown => ?_, fun hyes hother hfull => ?_, fun hyes hfree hroom => ?_,
    fun w hyes hw hne hroom => ⟨fun hin => ?_, fun hout => ?_⟩⟩
  · exact execClaim_refused hh hr hv hn (Bool.eq_false_iff.mpr fun hc => hno (claimable.mp hc))
  · exact execClaim_taken hh hr hv hn (claimable.mpr hyes) (State.takeClaim_own (by rw [segment]; exact hown)) (sent _)
  · exact execClaim_taken hh hr hv hn (claimable.mpr hyes)
      (State.takeClaim_full (by rw [segment]; exact hother) (by rw [vehicle]; exact hfull)) (sent _)
  · obtain ⟨holder, held, waiting, stations, due⟩ := (s.reporting e more v).hold_writes v g
    rw [vehicle] at held
    exact ⟨_, execClaim_taken hh hr hv hn (claimable.mpr hyes)
      (State.takeClaim_free (by rw [segment]; exact hfree) (by rw [vehicle]; exact hroom)) due, holder, held, waiting, stations⟩
  · exact execClaim_taken hh hr hv hn (claimable.mpr hyes) ((State.takeClaim_held (by rw [segment]; exact hw) hne
      (by rw [vehicle]; exact hroom)).trans (State.await_again _ v g (by rw [segment]; exact hin))) (sent _)
  · obtain ⟨holder, waiters, waiting, held, progress, stations, due⟩ :=
      (s.reporting e more v).await_joins v g (by rw [segment]; exact hout)
    rw [segment] at holder waiters
    rw [vehicle] at held
    exact ⟨_, execClaim_taken hh hr hv hn (claimable.mpr hyes)
      (State.takeClaim_held (by rw [segment]; exact hw) hne (by rw [vehicle]; exact hroom)) due, holder.trans hw, waiters, waiting, held,
      progress, stations⟩

end Sys2Proof.Machine
end

section
/-! Proofs about POSITION (R144, R151, R153): the stages of a consistent report, the segment released, and the stall of an inconsistent one. -/

namespace Sys2Proof.Machine

/-! ## The stages of a consistent report -/

/-- The vehicle returned by a position-changing report and set to its spot (R144, R153). -/
def State.spotted (s : State) (v : Nat) (p : Spot) (changing : Bool) : State :=
  (if changing then s.modVehicle v Vehicle.returned else s).modVehicle v ({ · with pos := some p })

/-- The first of two held segments released at a PASSED report (R144). -/
def State.passing (s : State) (v : Nat) (p : Spot) (passed : Bool) : State := if passed then s.pass2 v p else s

/-- The progress timer restarted by a position-changing report, and brought into agreement with R151 by another. -/
def State.progressed (s : State) (v : Nat) (changing : Bool) : State := if changing then s.restartProgress v else s.syncProgress v

/-- A report changes the position: it is PASSED, or names another spot (R151). -/
def Vehicle.changes (x : Vehicle) (p : Spot) (passed : Bool) : Bool := passed || x.pos != some p

theorem Vehicle.changes_iff (x : Vehicle) (p : Spot) (passed : Bool) : x.changes p passed = true ↔ passed = true ∨ x.pos ≠ some p := by
  simp [Vehicle.changes]

section
variable {s : State} {v : Nat} {p : Spot} {passed changing : Bool}

/-! ### The vehicle returned and set to its spot -/

theorem Vehicle.returned_state (x : Vehicle) : x.returned.state = (if x.state = .stalled ∧ x.prev = some .toPickup then .toPickup
    else if x.state = .stalled ∧ x.prev = some .toDrop then .toDrop else x.state) := by
  unfold Vehicle.returned
  split
  · next hs hp => simp [hs, hp]
  · next hs hp => simp [hs, hp]
  · next hpickup hdrop => rw [if_neg fun h => hpickup h.1 h.2, if_neg fun h => hdrop h.1 h.2]

/-- A vehicle that differs at most in what a stall left it. -/
theorem Vehicle.returned_only (x : Vehicle) : ∃ st pr c, x.returned = { x with state := st, prev := pr, cause := c } := by
  unfold Vehicle.returned
  split <;> exact ⟨_, _, _, rfl⟩

theorem State.spotted_only (s : State) (v : Nat) (p : Spot) (changing : Bool) :
    ∃ vs, s.spotted v p changing = { s with vehicles := vs } := by
  unfold State.spotted
  split <;> exact ⟨_, rfl⟩

theorem State.spotted_own (s : State) (v : Nat) (p : Spot) (changing : Bool) : (s.spotted v p changing).vehicle v =
    { (if changing then (s.vehicle v).returned else s.vehicle v) with pos := some p } := by
  unfold State.spotted
  rw [Law.vehicle_mod, if_pos rfl]
  split
  · rw [Law.vehicle_mod, if_pos rfl]
  · rfl

theorem State.spotted_other {w : Nat} (hw : w ≠ v) : (s.spotted v p changing).vehicle w = s.vehicle w := by
  unfold State.spotted
  rw [Law.vehicle_mod, if_neg hw]
  split
  · rw [Law.vehicle_mod, if_neg hw]
  · rfl

/-! ### A segment passed -/

theorem State.passing_not (h : ∀ a b, ¬ (passed = true ∧ (s.vehicle v).held = [a, b] ∧ s.segmentOf p = some b)) :
    s.passing v p passed = s := by
  unfold State.passing
  split
  · next hp => exact VehicleLaw.pass2_no s v p fun a b hheld hb => h a b ⟨hp, hheld, hb⟩
  · rfl

section
variable {a b : Nat} (hp : passed = true) (hheld : (s.vehicle v).held = [a, b]) (hb : s.segmentOf p = some b)
include hp hheld hb

/-- PASSED at the second of two held segments keeps that one and releases the first. -/
theorem State.passing_releases : ∃ f : Option Leg → Option Leg, s.passing v p passed =
    (s.modVehicle v fun x => { x with held := [b], leg := f x.leg }).releaseSegment a := by
  unfold State.passing State.pass2
  rw [if_pos hp, hheld]
  dsimp only
  rw [if_pos hb]
  exact ⟨_, rfl⟩

theorem State.passing_own (hout : v ∉ (s.segment a).waiters) : ((s.passing v p passed).vehicle v).held = [b] := by
  obtain ⟨f, hf⟩ := State.passing_releases hp hheld hb
  rw [hf, VehicleLaw.release_vehicle, VehicleLaw.seg_mv, if_neg fun h => hout (List.mem_of_head? h), Law.vehicle_mod, if_pos rfl]

theorem State.passing_segment : (s.passing v p passed).segment a =
    { s.segment a with holder := (s.segment a).waiters.head?, waiters := (s.segment a).waiters.tail } := by
  obtain ⟨f, hf⟩ := State.passing_releases hp hheld hb
  rw [hf, VehicleLaw.release_segment, if_pos rfl, VehicleLaw.seg_mv]

theorem State.passing_head {w : Nat} (hw : (s.segment a).waiters.head? = some w) (hne : w ≠ v) :
    ((s.passing v p passed).vehicle w).held = (s.vehicle w).held ++ [a] ∧ ((s.passing v p passed).vehicle w).waiting = none := by
  obtain ⟨f, hf⟩ := State.passing_releases hp hheld hb
  rw [hf, VehicleLaw.release_vehicle, VehicleLaw.seg_mv, if_pos hw, Law.vehicle_mod, if_neg hne]
  exact ⟨rfl, rfl⟩

end

/-- What passing a segment keeps of the vehicle and of the state. -/
theorem State.passing_keeps (s : State) (v : Nat) (p : Spot) (passed : Bool) :
    ((s.passing v p passed).vehicle v).pos = (s.vehicle v).pos ∧ ((s.passing v p passed).vehicle v).docked = (s.vehicle v).docked ∧
    ((s.passing v p passed).vehicle v).state = (s.vehicle v).state ∧
    ((s.passing v p passed).vehicle v).leg.map Leg.route = (s.vehicle v).leg.map Leg.route ∧
    ((s.passing v p passed).vehicle v).nextRoute = (s.vehicle v).nextRoute ∧ (s.passing v p passed).orders = s.orders ∧
    (s.passing v p passed).routes = s.routes ∧ (s.passing v p passed).passDue = s.passDue ∧
    (s.passing v p passed).halted = s.halted ∧ (s.passing v p passed).progressTimeout = s.progressTimeout := by
  unfold State.passing
  split
  · exact VehicleLaw.pass2_vehicle s v p
  · exact ⟨rfl, rfl, rfl, rfl, rfl, rfl, rfl, rfl, rfl, rfl⟩

/-! ### A route completed -/

theorem State.completeRoute_only (s : State) (v : Nat) (p : Spot) : ∃ l k, (s.completeRoute v p).vehicle v =
    { s.vehicle v with leg := l, nextRoute := k } := by
  rw [VehicleLaw.complete_vehicle, if_pos rfl]
  repeat' split
  all_goals exact ⟨_, _, rfl⟩

theorem State.completeRoute_other {w : Nat} (hw : w ≠ v) : (s.completeRoute v p).vehicle w = s.vehicle w := by
  rw [VehicleLaw.complete_vehicle, if_neg hw]

section
variable {k : Nat} {r : Route} (hl : (s.vehicle v).leg.map Leg.route = some k) (hr : s.route k = some r)
include hl hr

theorem State.completeRoute_there (hp : p = .node r.dst) : ((s.completeRoute v p).vehicle v).leg = (s.vehicle v).nextRoute.map (⟨·, 0⟩) ∧
    ((s.completeRoute v p).vehicle v).nextRoute = none := by
  obtain ⟨l, hleg, rfl⟩ := Option.map_eq_some_iff.mp hl
  have there : p = .node (((s.route l.route).map Route.dst).getD 0) := by rw [hr]; exact hp
  rw [VehicleLaw.complete_vehicle, if_pos rfl, hleg]
  simp only [if_pos there, and_self]

theorem State.completeRoute_away (hp : p ≠ .node r.dst) : (s.completeRoute v p).vehicle v = s.vehicle v := by
  obtain ⟨l, hleg, rfl⟩ := Option.map_eq_some_iff.mp hl
  have away : p ≠ .node (((s.route l.route).map Route.dst).getD 0) := by rw [hr]; exact hp
  rw [VehicleLaw.complete_vehicle, if_pos rfl, hleg]
  simp only [if_neg away]

end

/-! ### The progress timer -/

theorem State.progressed_own (s : State) (v : Nat) (changing : Bool) : ∃ t, (s.progressed v changing).vehicle v =
    { s.vehicle v with progress := t } := by
  unfold State.progressed
  split
  · rw [VehicleLaw.restart_vehicle, if_pos rfl]; exact ⟨_, rfl⟩
  · rw [VehicleLaw.sync_vehicle, if_pos rfl]; exact ⟨_, rfl⟩

theorem State.progressed_other {w : Nat} (hw : w ≠ v) : (s.progressed v changing).vehicle w = s.vehicle w := by
  unfold State.progressed
  split
  · rw [VehicleLaw.restart_vehicle, if_neg hw]
  · rw [VehicleLaw.sync_vehicle, if_neg hw]

theorem State.progressed_rest (s : State) (v : Nat) (changing : Bool) : (s.progressed v changing).orders = s.orders ∧
    (s.progressed v changing).segments = s.segments ∧ (s.progressed v changing).passDue = s.passDue := by
  unfold State.progressed
  split
  · exact VehicleLaw.restart_rest s v
  · obtain ⟨_, due, _, segments⟩ := VehicleLaw.sync_rest s v
    exact ⟨VehicleLaw.sync_orders s v, segments, due⟩

/-- Whether the progress timer runs is read from the orders and the rest of the vehicle's record (R151). -/
theorem State.progressRuns_congr {t : State} (h : t.orders = s.orders) (x : Vehicle) (q : Timer) :
    t.progressRuns { x with progress := q } = s.progressRuns x := by
  have order : t.order = s.order := funext fun n => congrArg (Tbl.find · n) h
  unfold State.progressRuns State.waitsForDrop
  rw [order]

theorem State.progressed_changing (s : State) (v : Nat) : ((s.progressed v true).vehicle v).progress =
    if (s.progressed v true).progressRuns ((s.progressed v true).vehicle v) then s.started s.progressTimeout else .stopped := by
  have restarted := VehicleLaw.restart_vehicle s v v
  rw [if_pos rfl] at restarted
  rw [show s.progressed v true = s.restartProgress v from rfl, restarted, State.progressRuns_congr (OrdersAfter.restartProgress s v)]

end

/-! ## What a consistent report makes of the state -/

/-- The report's stages before the progress timer. -/
def State.moving (s : State) (v : Nat) (p : Spot) (passed : Bool) : State :=
  ((s.spotted v p ((s.vehicle v).changes p passed)).passing v p passed).completeRoute v p

theorem State.takePosition_moving (s : State) (v : Nat) (p : Spot) (passed : Bool) : s.takePosition v p passed =
    (s.moving v p passed).progressed v ((s.vehicle v).changes p passed) := rfl

section
variable {s : State} {v : Nat} {p : Spot} {passed : Bool}

/-- The vehicle set to its spot has the held segments, the route and the docked count it had. -/
theorem State.spotted_keeps (s : State) (v : Nat) (p : Spot) (changing : Bool) :
    ((s.spotted v p changing).vehicle v).held = (s.vehicle v).held ∧ ((s.spotted v p changing).vehicle v).leg = (s.vehicle v).leg ∧
    ((s.spotted v p changing).vehicle v).nextRoute = (s.vehicle v).nextRoute ∧
    ((s.spotted v p changing).vehicle v).docked = (s.vehicle v).docked := by
  obtain ⟨_, _, _, hreturned⟩ := (s.vehicle v).returned_only
  rw [State.spotted_own, hreturned]
  split <;> exact ⟨rfl, rfl, rfl, rfl⟩

theorem State.moving_rest (s : State) (v : Nat) (p : Spot) (passed : Bool) : (s.moving v p passed).orders = s.orders ∧
    (s.moving v p passed).passDue = s.passDue ∧ (s.moving v p passed).halted = s.halted ∧
    (s.moving v p passed).progressTimeout = s.progressTimeout := by
  obtain ⟨vs, hvs⟩ := s.spotted_only v p ((s.vehicle v).changes p passed)
  obtain ⟨_, _, _, _, _, orders, _, due, halted, timeout⟩ :=
    (s.spotted v p ((s.vehicle v).changes p passed)).passing_keeps v p passed
  obtain ⟨orders', _, due', halted', timeout'⟩ :=
    VehicleLaw.complete_rest ((s.spotted v p ((s.vehicle v).changes p passed)).passing v p passed) v p
  rw [State.moving, orders', orders, due', due, halted', halted, timeout', timeout, hvs]
  exact ⟨rfl, rfl, rfl, rfl⟩

theorem State.moving_own (s : State) (v : Nat) (p : Spot) (passed : Bool) : ((s.moving v p passed).vehicle v).pos = some p ∧
    ((s.moving v p passed).vehicle v).docked = (s.vehicle v).docked ∧ ((s.moving v p passed).vehicle v).state =
      (if (s.vehicle v).changes p passed then (s.vehicle v).returned else s.vehicle v).state := by
  obtain ⟨pos, docked, state, _⟩ := (s.spotted v p ((s.vehicle v).changes p passed)).passing_keeps v p passed
  obtain ⟨_, _, hcomplete⟩ := ((s.spotted v p ((s.vehicle v).changes p passed)).passing v p passed).completeRoute_only v p
  obtain ⟨_, _, _, spottedDocked⟩ := s.spotted_keeps v p ((s.vehicle v).changes p passed)
  rw [State.moving, hcomplete]
  refine ⟨pos.trans ?_, docked.trans spottedDocked, state.trans ?_⟩
  · rw [State.spotted_own]
  · rw [State.spotted_own]

theorem State.spotted_segmentOf (changing : Bool) : (s.spotted v p changing).segmentOf p = s.segmentOf p := by
  obtain ⟨vs, hvs⟩ := s.spotted_only v p changing
  rw [hvs]
  rfl

theorem State.spotted_segment (changing : Bool) (g : Nat) : (s.spotted v p changing).segment g = s.segment g := by
  obtain ⟨vs, hvs⟩ := s.spotted_only v p changing
  rw [hvs]
  rfl

/-- Two held segments of which the report passes the first (R144). -/
def State.releases (s : State) (v : Nat) (p : Spot) (passed : Bool) (a b : Nat) : Prop :=
  passed = true ∧ (s.vehicle v).held = [a, b] ∧ s.segmentOf p = some b

theorem State.moving_unreleased (h : ∀ a b, ¬ s.releases v p passed a b) :
    ((s.moving v p passed).vehicle v).held = (s.vehicle v).held ∧ (s.moving v p passed).segments = s.segments := by
  obtain ⟨held, _⟩ := s.spotted_keeps v p ((s.vehicle v).changes p passed)
  obtain ⟨vs, hvs⟩ := s.spotted_only v p ((s.vehicle v).changes p passed)
  have same : (s.spotted v p ((s.vehicle v).changes p passed)).passing v p passed = s.spotted v p ((s.vehicle v).changes p passed) := by
    refine State.passing_not fun a b hab => h a b ?_
    rwa [held, State.spotted_segmentOf] at hab
  obtain ⟨_, _, hcomplete⟩ := (s.spotted v p ((s.vehicle v).changes p passed)).completeRoute_only v p
  rw [State.moving, same, hcomplete, (VehicleLaw.complete_rest ..).2.1]
  exact ⟨held, by rw [hvs]⟩

theorem State.moving_released {a b : Nat} (h : s.releases v p passed a b) (hout : v ∉ (s.segment a).waiters) :
    ((s.moving v p passed).vehicle v).held = [b] ∧ (s.moving v p passed).segment a =
      { s.segment a with holder := (s.segment a).waiters.head?, waiters := (s.segment a).waiters.tail } ∧
    ∀ w, (s.segment a).waiters.head? = some w → ((s.moving v p passed).vehicle w).held = (s.vehicle w).held ++ [a] ∧
      ((s.moving v p passed).vehicle w).waiting = none := by
  obtain ⟨hp, hheld, hb⟩ := h
  have segment := s.spotted_segment (v := v) (p := p) ((s.vehicle v).changes p passed) a
  obtain ⟨held, _⟩ := s.spotted_keeps v p ((s.vehicle v).changes p passed)
  rw [hheld] at held
  rw [← s.spotted_segmentOf (v := v) ((s.vehicle v).changes p passed)] at hb
  obtain ⟨_, _, hcomplete⟩ := ((s.spotted v p ((s.vehicle v).changes p passed)).passing v p passed).completeRoute_only v p
  refine ⟨?_, ?_, fun w hw => ?_⟩
  · rw [State.moving, hcomplete]
    exact State.passing_own hp held hb (by rw [segment]; exact hout)
  · have passed := State.passing_segment hp held hb
    rw [segment] at passed
    exact (congrArg (Tbl.get · a Segment.cold) (VehicleLaw.complete_rest _ v p).2.1).trans passed
  · have hne : w ≠ v := fun hwv => hout (hwv ▸ List.mem_of_head? hw)
    have head := State.passing_head hp held hb (by rw [segment]; exact hw) hne
    rw [State.spotted_other hne] at head
    rw [State.moving, State.completeRoute_other hne]
    exact head

theorem State.moving_leg {l : Leg} {r : Route} (hl : (s.vehicle v).leg = some l) (hr : s.route l.route = some r) :
    (p = .node r.dst → ((s.moving v p passed).vehicle v).leg = (s.vehicle v).nextRoute.map (⟨·, 0⟩) ∧
      ((s.moving v p passed).vehicle v).nextRoute = none) ∧
    (p ≠ .node r.dst → ((s.moving v p passed).vehicle v).leg.map Leg.route = some l.route ∧
      ((s.moving v p passed).vehicle v).nextRoute = (s.vehicle v).nextRoute) := by
  obtain ⟨_, spottedLeg, spottedNext, _⟩ := s.spotted_keeps v p ((s.vehicle v).changes p passed)
  obtain ⟨_, _, _, leg, next, _, routes, _⟩ := (s.spotted v p ((s.vehicle v).changes p passed)).passing_keeps v p passed
  obtain ⟨vs, hvs⟩ := s.spotted_only v p ((s.vehicle v).changes p passed)
  rw [spottedLeg, hl] at leg
  rw [spottedNext] at next
  have route : ((s.spotted v p ((s.vehicle v).changes p passed)).passing v p passed).route l.route = some r := by
    rw [State.route, routes, hvs]
    exact hr
  rw [State.moving]
  refine ⟨fun hp => ?_, fun hp => ?_⟩
  · rw [← next]
    exact State.completeRoute_there leg route hp
  · rw [State.completeRoute_away leg route hp]
    exact ⟨leg, next⟩

end

/-! ## The report -/

section
variable {s : State} {e : Exchange} {x : Station} {n v : Nat} {p : Spot} {passed more : Bool} (hh : s.hears e x) (hr : x.role = .vehicle v)
include hh hr

theorem State.reporting_vehicle_other {w : Nat} (hw : w ≠ v) : (s.reporting e more v).vehicle w = s.vehicle w := by
  rw [State.reporting, Law.vehicle_mod, if_neg hw, State.vehicle, State.heard_vehicles hh, hr]
  exact Tbl.get_set_other _ _ _ hw

omit hh hr in
theorem State.reporting_segmentOf : (s.reporting e more v).segmentOf p = s.segmentOf p := by
  cases p with
  | segment g => rfl
  | node k => exact congrArg (fun t : Tbl Node => (t.find k).map Node.seg) (State.heard_nodes (more := more))

theorem State.reporting_consistent : (s.reporting e more v).consistent v p = true ↔ ∃ g ∈ (s.vehicle v).held, s.segmentOf p = some g := by
  rw [State.consistent, State.reporting_vehicle hh hr, State.reporting_segmentOf]
  simp [Option.any_eq_true, and_comm]

variable (hv : (s.vehicle v).state ≠ .outOfService) (hn : n = (s.workingOrder v).getD 0)
include hv hn

theorem execPosition_reports : exec (.position n p passed more) s = .next (if (s.reporting e more v).consistent v p then
    (s.reporting e more v).takePosition v p passed
    else ((s.reporting e more v).stall v .position none).refuse e.addr .position .badState).finish := by
  rw [show exec (.position n p passed more) s = execPosition n p passed more s from rfl, execPosition,
    VehicleLaw.taken hh hr hv (by decide) hn]
  rfl

theorem execPosition_inconsistent (hno : ¬ (s.reporting e more v).consistent v p = true) : exec (.position n p passed more) s =
    .next (((s.reporting e more v).stall v .position none).refuse e.addr .position .badState).finish := by
  rw [execPosition_reports hh hr hv hn, if_neg hno]

theorem execPosition_consistent (hyes : (s.reporting e more v).consistent v p = true) : exec (.position n p passed more) s =
    .next ((s.reporting e more v).takePosition v p passed) := by
  have due : ((s.reporting e more v).takePosition v p passed).passDue = false := by
    rw [State.takePosition_moving, (State.progressed_rest ..).2.2, (State.moving_rest ..).2.1, State.reporting_passDue]
  rw [execPosition_reports hh hr hv hn, if_pos hyes, State.finish_idle due]

end

/-- A vehicle stalled (R153). -/
def Vehicle.stalledBy (x : Vehicle) (c : StallCause) : Vehicle :=
  { x with state := .stalled, prev := some x.state, cause := some c, progress := .stopped, transfer := .stopped, docked := 0 }

/-- A stall in the state a report is taken in: nothing changes where the vehicle is STALLED already (R153). -/
theorem State.reporting_stall {s : State} {e : Exchange} {x : Station} {v : Nat} {more : Bool} (hh : s.hears e x) (hr : x.role = .vehicle v)
    (hv : (s.vehicle v).state ≠ .outOfService) (c : StallCause) : ((s.vehicle v).state ≠ .stalled →
      ((s.reporting e more v).stall v c none).vehicle v = { (s.vehicle v).stalledBy c with lastReport := some s.timeBase } ∧
      ((s.reporting e more v).stall v c none).attn = (s.raise .vehicleStalled v).attn) ∧
    ((s.vehicle v).state = .stalled → (s.reporting e more v).stall v c none = s.reporting e more v) := by
  have vehicle := State.reporting_vehicle (more := more) hh hr
  have attn : (s.reporting e more v).attn = s.attn := State.heard_attn (more := more)
  refine ⟨fun hmoves => ?_, fun hstalled => ?_⟩
  · obtain ⟨stalled, raised, _⟩ := VehicleLaw.stall (s.reporting e more v) v c none (by rw [vehicle]; exact hmoves)
      (by rw [vehicle]; exact hv)
    rw [stalled, raised, vehicle]
    refine ⟨rfl, ?_⟩
    unfold State.raise
    rw [attn]
  · unfold State.stall
    exact if_pos (.inl (by rw [vehicle]; exact hstalled))

/-- Settles O50: an inconsistent report is a stall and a REFUSED; a consistent one returns the vehicle, moves it, releases a segment, completes
a route and restarts the timer, in that order. -/
theorem positionMovesTheVehicle : Obligations.PositionMovesTheVehicle := by
  unfold Obligations.PositionMovesTheVehicle
  intro s e x n v p passed more hh hr hv hn i y seg consistent changing released
  have vehicle : (s.reporting e more v).vehicle v = { y with lastReport := some s.timeBase, docked := 0 } := State.reporting_vehicle hh hr
  have segmentOf : s.segmentOf p = seg := by cases p <;> rfl
  have consistency : (s.reporting e more v).consistent v p = true ↔ consistent := by
    rw [State.reporting_consistent hh hr, segmentOf]
  refine ⟨fun hno => ⟨_, execPosition_inconsistent hh hr hv hn (fun h => hno (consistency.mp h)), ?_⟩,
    fun hyes => ⟨_, execPosition_consistent hh hr hv hn (consistency.mpr hyes), ?_⟩⟩
  · obtain ⟨moves, stays⟩ := State.reporting_stall (more := more) hh hr hv .position
    by_cases hs : y.state = .stalled
    · rw [stays hs, vehicle]
      exact ⟨hs, fun hmoves => absurd hs hmoves, fun _ => ⟨rfl, rfl, State.heard_attn (more := more)⟩⟩
    · obtain ⟨stalled, raised⟩ := moves hs
      rw [stalled]
      exact ⟨rfl, fun _ => ⟨rfl, rfl, rfl, rfl, raised⟩, fun hstalled => absurd hstalled hs⟩
  · have release (a b : Nat) : (s.reporting e more v).releases v p passed a b ↔ released a b := by
      rw [State.releases, vehicle, State.reporting_segmentOf, segmentOf]
    have changes : ((s.reporting e more v).vehicle v).changes p passed = true ↔ changing := by
      rw [vehicle]
      exact Vehicle.changes_iff y p passed
    obtain ⟨pos, docked, state⟩ := (s.reporting e more v).moving_own v p passed
    obtain ⟨orders, _, halted, timeout⟩ := (s.reporting e more v).moving_rest v p passed
    obtain ⟨timedOrders, timedSegments, _⟩ := ((s.reporting e more v).moving v p passed).progressed_rest v
      (((s.reporting e more v).vehicle v).changes p passed)
    obtain ⟨timer, own⟩ := ((s.reporting e more v).moving v p passed).progressed_own v
      (((s.reporting e more v).vehicle v).changes p passed)
    rw [State.takePosition_moving, own, timedOrders, timedSegments]
    refine ⟨pos, docked.trans (by rw [vehicle]), orders.trans (State.heard_orders (more := more)), fun hno => ?_, fun a b hrel hne hout => ?_,
      fun l r hl hroute => ?_, ?_, fun hchanging => ?_⟩
    · obtain ⟨held, segments⟩ := State.moving_unreleased fun a b h => hno a b ((release a b).mp h)
      exact ⟨held.trans (by rw [vehicle]), segments.trans (State.heard_segments (more := more))⟩
    · have segment : (s.reporting e more v).segment a = s.segment a := State.reporting_segment a
      obtain ⟨held, passed, head⟩ := State.moving_released ((release a b).mpr hrel) (by rw [segment]; exact hout)
      rw [segment] at passed head
      refine ⟨held, (congrArg (Tbl.get · a Segment.cold) timedSegments).trans passed, fun w hw => ?_⟩
      have hwv : w ≠ v := fun hwv => hout (hwv ▸ List.mem_of_head? hw)
      rw [State.progressed_other hwv, ← State.reporting_vehicle_other (more := more) hh hr hwv]
      exact head w hw
    · have leg := State.moving_leg (p := p) (passed := passed) (by rw [vehicle]; exact hl)
        ((State.reporting_route (e := e) (more := more) (v := v) l.route).trans hroute)
      rw [vehicle] at leg
      exact leg
    · refine state.trans ?_
      rw [vehicle]
      by_cases hchanging : changing
      · rw [if_pos (by rw [vehicle] at changes; exact changes.mpr hchanging), Vehicle.returned_state]
        simp only [hchanging, true_and]
      · rw [if_neg (by rw [vehicle] at changes; exact fun h => hchanging (changes.mp h))]
        simp only [hchanging, false_and, if_false]
    · have restarted := ((s.reporting e more v).moving v p passed).progressed_changing v
      have timer : ((s.reporting e more v).moving v p passed).started ((s.reporting e more v).moving v p passed).progressTimeout =
          s.started s.progressTimeout := by
        rw [← State.reporting_started (s := s) (e := e) (more := more) (v := v), State.started, halted, timeout, State.started]
      rw [timer] at restarted
      rw [changes.mpr hchanging] at own ⊢
      rw [own] at restarted
      exact restarted

end Sys2Proof.Machine
end

section
/-! Proofs about IDLE, FAULT and NONE (R148, R149, R153), and the reports of a vehicle out of service (R146). -/

namespace Sys2Proof.Machine

/-! ## A command that was lost (R148) -/

section
variable {s : State} {v n m : Nat}

theorem State.sendTask_passDue (s : State) (m : Nat) : (s.sendTask m).passDue = s.passDue := by
  obtain ⟨t, ht⟩ := s.sendTask_only m
  rw [ht]

theorem State.lostCommand_none {link : Option Nat} (h : n = link.getD 0) : s.lostCommand v n link = s := if_pos h

theorem State.lostCommand_abort (h : n ≠ 0) : s.lostCommand v n none = s.sendVehicle v (.abort n) := if_neg h

theorem State.lostCommand_task (h : n ≠ m) (hm : s.workingOrder v = some m) : s.lostCommand v n (some m) = s.sendTask m :=
  (if_neg h).trans (if_pos hm)

end

/-! ## A vehicle out of service (R146) -/

section
variable {s : State} {e : Exchange} {z : Station} {v : Nat} {more : Bool} (hh : s.hears e z) (hr : z.role = .vehicle v)
include hh hr

theorem State.heard_inService : ((s.heard e more).vehicle v).inService = (s.vehicle v).inService := by
  rw [VehicleLaw.heardVeh hh hr]
  rfl

theorem State.heard_outOfService (hout : (s.vehicle v).state = .outOfService) : ¬ ((s.heard e more).vehicle v).inService = true := by
  rw [State.heard_inService hh hr, Vehicle.inService, hout]
  nofun

theorem exec_outOfService (hout : (s.vehicle v).state = .outOfService) {i : Instr} {k : Report} {n : Nat}
    {body : Nat → Nat → State → State} (hi : exec i s = taken k n more body s) :
    exec i s = .next ((s.heard e more).refuse e.addr k .badState) := by
  rw [hi, Sys2Proof.Machine.taken, vehicleReport_heard hh hr]
  dsimp only
  rw [if_neg (State.heard_outOfService hh hr hout), State.refuse_finish State.heard_passDue]

theorem execIdle_outOfService (hout : (s.vehicle v).state = .outOfService) (n x : Nat) :
    exec (.idle n x more) s = .next (s.heard e more) := by
  rw [show exec (.idle n x more) s = execIdle n x more s from rfl, execIdle, vehicleReport_heard hh hr]
  dsimp only
  rw [if_neg (State.heard_outOfService hh hr hout), State.finish_idle State.heard_passDue]

/-! ## NONE (R148, R149) -/

theorem execNoneReply_reports (n : Nat) : exec (.noneReply n more) s = .next (if (s.vehicle v).inService then
    (s.reporting e more v).lostCommand v n (s.workingOrder v) else s.heard e more).finish := by
  rw [show exec (.noneReply n more) s = execNoneReply n more s from rfl, execNoneReply, report_heard hh, hr]
  dsimp only
  rw [State.heard_inService hh hr, VehicleLaw.working hh hr]
  rfl

theorem State.reporting_workingOrder : (s.reporting e more v).workingOrder v = s.workingOrder v := by
  have order : (s.reporting e more v).order = s.order := funext State.reporting_order
  rw [State.workingOrder, State.reporting_vehicle hh hr, order]
  rfl

theorem execNoneReply_outOfService (hout : (s.vehicle v).state = .outOfService) (n : Nat) :
    exec (.noneReply n more) s = .next (s.heard e more) := by
  have out : ¬ (s.vehicle v).inService = true := by
    rw [Vehicle.inService, hout]
    nofun
  rw [execNoneReply_reports hh hr, if_neg out, State.finish_idle State.heard_passDue]

section
variable (hv : (s.vehicle v).state ≠ .outOfService)
include hv

omit hh hr in
theorem State.inService_of : (s.vehicle v).inService = true := by simpa [Vehicle.inService] using hv

theorem execNoneReply_agrees {n : Nat} (hn : n = (s.workingOrder v).getD 0) :
    exec (.noneReply n more) s = .next (s.reporting e more v) := by
  rw [execNoneReply_reports hh hr, if_pos (State.inService_of hv), State.lostCommand_none hn, State.finish_idle State.reporting_passDue]

/-- A report that names an order to a vehicle that works none shows a lost ABORT. -/
theorem execNoneReply_lostAbort {n : Nat} (hn : n ≠ 0) (hnone : s.workingOrder v = none) :
    exec (.noneReply n more) s = .next ((s.reporting e more v).sendVehicle v (.abort n)) := by
  rw [execNoneReply_reports hh hr, if_pos (State.inService_of hv), hnone, State.lostCommand_abort hn,
    State.finish_idle ((VehicleLaw.sendVehicle_passDue ..).trans State.reporting_passDue)]

/-- A report that names another order than the vehicle works shows a lost TASK. -/
theorem execNoneReply_lostTask {n m : Nat} (hn : n ≠ m) (hm : s.workingOrder v = some m) :
    exec (.noneReply n more) s = .next ((s.reporting e more v).sendTask m) := by
  rw [execNoneReply_reports hh hr, if_pos (State.inService_of hv), hm,
    State.lostCommand_task hn ((State.reporting_workingOrder hh hr).trans hm),
    State.finish_idle ((State.sendTask_passDue ..).trans State.reporting_passDue)]

/-! ## FAULT (R153) -/

theorem execFault_reports {n : Nat} (hn : n = (s.workingOrder v).getD 0) (f : Nat) :
    exec (.fault n f more) s = .next ((s.reporting e more v).stall v .fault none).finish := by
  rw [show exec (.fault n f more) s = execFault n f more s from rfl, execFault, VehicleLaw.taken hh hr hv (by decide) hn]
  rfl

/-! ## IDLE (R148) -/

theorem execIdle_reports (n x : Nat) : exec (.idle n x more) s = .next (if (s.reporting e more v).consistent v (.node x) then
    (s.reporting e more v).takeIdle v x
    else ((s.reporting e more v).stall v .position none).refuse e.addr .idle .badState).finish := by
  have inService : ((s.heard e more).vehicle v).inService = true := (State.heard_inService hh hr).trans (State.inService_of hv)
  rw [show exec (.idle n x more) s = execIdle n x more s from rfl, execIdle, vehicleReport_heard hh hr]
  dsimp only
  rw [if_pos inService]
  rfl

end

end

/-! ### What IDLE leads to -/

section
variable {s : State} {v x n : Nat} {o : Order}

theorem State.takeIdle_idle (h : (s.vehicle v).state = .idle) : s.takeIdle v x = s := by
  simp [State.takeIdle, h]

theorem State.takeIdle_unworked (hi : (s.vehicle v).state ≠ .idle) (hv : (s.vehicle v).state ≠ .outOfService)
    (hw : s.workingOrder v = none) : s.takeIdle v x = s.idleAt v x := by
  unfold State.takeIdle
  dsimp only
  split
  · next h => exact absurd h hi
  · next h => exact absurd h hv
  · rw [hw]

theorem State.takeIdle_back (hs : (s.vehicle v).state = .stalled) (hp : (s.vehicle v).prev = some .idle) (hw : s.workingOrder v = some n) :
    s.takeIdle v x = s.enterIdle v x := by
  simp [State.takeIdle, hs, hp, hw]

/-- A vehicle in its transfer, or stalled elsewhere than in IDLE, is not told anew. -/
theorem State.takeIdle_busy (hs : (s.vehicle v).state = .loading ∨ (s.vehicle v).state = .unloading ∨
    ((s.vehicle v).state = .stalled ∧ (s.vehicle v).prev ≠ some .idle)) (hw : s.workingOrder v = some n) : s.takeIdle v x = s := by
  rcases hs with hs | hs | ⟨hs, hp⟩
  · simp [State.takeIdle, hs, hw]
  · simp [State.takeIdle, hs, hw]
  · simp [State.takeIdle, hs, hp, hw]

theorem State.takeIdle_moving (hs : (s.vehicle v).state = .toPickup ∨ (s.vehicle v).state = .toDrop) (hw : s.workingOrder v = some n)
    (ho : s.order n = some o) : s.takeIdle v x = s.retask v x n o := by
  rcases hs with hs | hs <;> simp [State.takeIdle, hs, hw, ho]

/-- The node a vehicle on its way goes to: its order's pickup, and after the load its drop (R148). -/
def State.headsFor (s : State) (v : Nat) (o : Order) (d : Nat) : Prop :=
  ((s.vehicle v).state = .toPickup ∧ s.pickup o = some d) ∨ ((s.vehicle v).state = .toDrop ∧ o.noRoute = false ∧ s.drop o = some d)

/-- A vehicle set at a node with a way from it. -/
def Vehicle.setOut (y : Vehicle) (x : Nat) (way : Option Nat) : Vehicle :=
  { y with pos := some (.node x), leg := way.map (⟨·, 0⟩), nextRoute := none }

/-- A vehicle told its order anew with the way found, and stalled without one. -/
def State.sentOn (s : State) (v x n : Nat) : Option (Option Nat) → State
  | some way => ((s.modVehicle v (Vehicle.setOut · x way)).syncProgress v).sendTask n
  | none => s.stall v .position none

theorem State.retask_eq {d : Nat} (h : s.headsFor v o d) : s.retask v x n o = s.sentOn v x n (s.wayBetween x d) := by
  have target : (if (s.vehicle v).state = .toPickup then s.pickup o else if o.noRoute then none else s.drop o) = some d := by
    rcases h with ⟨hs, hd⟩ | ⟨hs, hroute, hd⟩
    · rw [if_pos hs, hd]
    · rw [if_neg (by rw [hs]; nofun), if_neg (by rw [hroute]; nofun), hd]
  unfold State.retask
  dsimp only
  rw [target]
  dsimp only
  cases s.wayBetween x d <;> rfl

theorem State.setOut_vehicle (s : State) (v x : Nat) (way : Option Nat) :
    ∃ t, ((s.modVehicle v (Vehicle.setOut · x way)).syncProgress v).vehicle v = { (s.vehicle v).setOut x way with progress := t } := by
  rw [VehicleLaw.sync_vehicle, if_pos rfl, Law.vehicle_mod, if_pos rfl]
  exact ⟨_, rfl⟩

/-! ### The entry into IDLE (R148) -/

/-- A vehicle IDLE at a node. -/
def Vehicle.idled (y : Vehicle) (x : Nat) : Vehicle :=
  { y with state := .idle, prev := none, cause := none, pos := some (.node x), leg := none, nextRoute := none, progress := .stopped,
           transfer := .stopped, docked := 0 }

/-- A vehicle whose segments and marks are given up is put in IDLE. -/
def State.settled (s : State) (v x : Nat) : State := (s.modVehicle v (Vehicle.idled · x)).notice

theorem State.settled_vehicle (s : State) (v x : Nat) : (s.settled v x).vehicle v = (s.vehicle v).idled x :=
  (Law.vehicle_mod s v v (Vehicle.idled · x)).trans (if_pos rfl)

theorem State.settled_bay (s : State) (v x b : Nat) : (s.settled v x).bay b = s.bay b := rfl

theorem State.enterIdle_eq (s : State) (v x : Nat) : s.enterIdle v x =
    (((s.leaveList v).releaseHeld v (· == ((s.node x).map Node.seg).getD 0)).clearMarks v).settled v x := by
  unfold State.enterIdle State.settled
  rfl

/-- Segments released with a vehicle in none of their lists leave that vehicle as it is. -/
theorem State.releases_unlisted (hout : ∀ g, v ∉ (s.segment g).waiters) (ns : List Nat) :
    (s.each ns fun g s => s.releaseSegment g).vehicle v = s.vehicle v := by
  refine (State.each_keeps (P := fun u => (∀ g, v ∉ (u.segment g).waiters) ∧ u.vehicle v = s.vehicle v) ?_ ns ⟨hout, rfl⟩).2
  rintro a u ⟨hout, same⟩
  refine ⟨fun g => ?_, ?_⟩
  · rw [VehicleLaw.release_segment]
    split
    · exact fun h => hout a (List.mem_of_mem_tail h)
    · exact hout g
  · rw [VehicleLaw.release_vehicle, if_neg fun h => hout a (List.mem_of_head? h), same]

theorem State.releaseHeld_unlisted (hout : ∀ g, v ∉ (s.segment g).waiters) (kept : Nat → Bool) :
    (s.releaseHeld v kept).vehicle v = { s.vehicle v with held := (s.vehicle v).held.filter kept } := by
  unfold State.releaseHeld
  dsimp only
  rw [State.releases_unlisted (fun g => by rw [VehicleLaw.seg_mv]; exact hout g), Law.vehicle_mod, if_pos rfl]

theorem State.leaveList_unlisted (hout : ∀ g, v ∉ (s.segment g).waiters) (g : Nat) : v ∉ ((s.leaveList v).segment g).waiters := by
  rw [VehicleLaw.leave_segment]
  split
  · exact fun h => hout g (List.mem_of_mem_erase h)
  · exact hout g

/-- The state in which a vehicle that stands in no waiting list has entered IDLE holds the node's segment alone. -/
theorem State.enterIdle_held (hout : ∀ g, v ∉ (s.segment g).waiters) {k : Nat} (hk : (s.node x).map Node.seg = some k) :
    ((s.enterIdle v x).vehicle v).held = (s.vehicle v).held.filter (· == k) ∧ ((s.enterIdle v x).vehicle v).waiting = none := by
  have held := State.releaseHeld_unlisted (State.leaveList_unlisted hout) (· == k)
  have cleared := (VehicleLaw.clearMarks_rest ((s.leaveList v).releaseHeld v (· == k)) v).1
  rw [State.enterIdle_eq, hk, Option.getD_some, State.settled_vehicle, State.vehicle, cleared, ← State.vehicle, held,
    VehicleLaw.leave_vehicle, if_pos rfl]
  exact ⟨rfl, rfl⟩

theorem State.enterIdle_marks (s : State) (v x b : Nat) : ((s.enterIdle v x).bay b).mark ≠ some v := by
  obtain ⟨m, hm, hne⟩ := VehicleLaw.marks ((s.leaveList v).releaseHeld v (· == ((s.node x).map Node.seg).getD 0)) v b
  rw [State.enterIdle_eq, State.settled_bay, hm]
  exact hne

/-- A vehicle whose marked order is freed, or that has none (R133). -/
def State.unworked (s : State) (v : Nat) : State :=
  match (s.vehicle v).order with
  | some n => s.freeOrder n
  | none => s

theorem State.idleAt_eq (s : State) (v x : Nat) : s.idleAt v x = (s.unworked v).enterIdle v x := rfl

theorem State.unworked_writes (s : State) (v : Nat) : Wr 0 s (s.unworked v) := by
  unfold State.unworked
  split
  · exact State.wr_freeOrder .refl _
  · exact .refl

/-- A vehicle that loses at most its order, and with it the state it stalled in. -/
theorem State.unworked_vehicle (s : State) (v : Nat) : ∃ o p, (s.unworked v).vehicle v = { s.vehicle v with order := o, prev := p } := by
  unfold State.unworked
  split
  · next n _ =>
    cases ho : s.order n with
    | none =>
      rw [show s.freeOrder n = s by rw [State.freeOrder, ho]]
      exact ⟨_, _, rfl⟩
    | some o =>
      rw [State.freeOrder_vehicle ho]
      split <;> exact ⟨_, _, rfl⟩
  · exact ⟨_, _, rfl⟩

theorem State.unworked_order {m : Nat} (hm : (s.vehicle v).order = some m) (ho : s.order m = some o) (hv : o.vehicle = some v) :
    ((s.unworked v).vehicle v).order = none ∧
      ∀ q, (s.unworked v).order m = some q → q.kind = .callOff ∧ q.seq = s.orderSeq + 1 := by
  have eq : s.unworked v = s.freeOrder m := by rw [State.unworked, hm]
  rw [eq, State.freeOrder_vehicle ho, if_pos ⟨hv, hm⟩]
  exact ⟨rfl, (OrderLaw.free s m o ho).1⟩

/-- A vehicle has entered IDLE at a node and has given up its other segments and its marks (R148). -/
def State.idles (s u : State) (v x : Nat) : Prop := u.passDue = true ∧ (u.vehicle v).state = .idle ∧ (u.vehicle v).pos = some (.node x) ∧
  (u.vehicle v).leg = none ∧ (u.vehicle v).nextRoute = none ∧ (u.vehicle v).progress = .stopped ∧ (u.vehicle v).transfer = .stopped ∧
  ((∀ g, v ∉ (s.segment g).waiters) →
    (u.vehicle v).held = (s.vehicle v).held.filter (fun g => some g = (s.node x).map Node.seg) ∧ (u.vehicle v).waiting = none) ∧
  ∀ b, (u.bay b).mark ≠ some v

/-- The entry into IDLE, taken in a state with the segments, nodes and held segments of an earlier one. -/
theorem State.idles_enterIdle {t : State} {k : Nat} (hk : (s.node x).map Node.seg = some k) (hseg : t.segments = s.segments)
    (hnode : t.nodes = s.nodes) (hheld : (t.vehicle v).held = (s.vehicle v).held) : s.idles (t.enterIdle v x) v x := by
  obtain ⟨⟨held, waiting, vehicle⟩, due, _⟩ := VehicleLaw.enterIdle t v x
  have segment (g : Nat) : t.segment g = s.segment g := congrArg (Tbl.get · g Segment.cold) hseg
  have node : (t.node x).map Node.seg = some k := (congrArg (fun n : Tbl Node => (n.find x).map Node.seg) hnode).trans hk
  refine ⟨due, by rw [vehicle], by rw [vehicle], by rw [vehicle], by rw [vehicle], by rw [vehicle], by rw [vehicle], fun hout => ?_,
    State.enterIdle_marks t v x⟩
  obtain ⟨own, listed⟩ := State.enterIdle_held (fun g => by rw [segment]; exact hout g) node
  refine ⟨own.trans ?_, listed⟩
  rw [hheld, hk]
  exact List.filter_congr fun g _ => Bool.eq_iff_iff.mpr (by simp)

end

/-! ## The reports in service, case by case -/

section
variable {s : State} {e : Exchange} {z : Station} {v x m n : Nat} {o : Order} {more : Bool}

/-- A vehicle of the reported state that enters IDLE, there or after its order is freed. -/
theorem State.reporting_idles {t : State} (w : Wr 0 (s.reporting e more v) t) (hheld : (t.vehicle v).held = (s.vehicle v).held)
    (hseg : ∃ k, (s.node x).map Node.seg = some k) : s.idles (t.enterIdle v x) v x := by
  obtain ⟨k, hk⟩ := hseg
  refine State.idles_enterIdle hk ?_ ?_ hheld
  · exact (w.kept_bays (by decide)).2.trans (State.heard_segments (more := more))
  · exact (w.kept (by decide)).nodes.trans (State.heard_nodes (more := more))

/-- A vehicle that was not STALLED is so for a cause, with the order and the segments it had (R153). -/
def State.stalls (s u : State) (v : Nat) (c : StallCause) : Prop := (u.vehicle v).state = .stalled ∧
  (u.vehicle v).prev = some (s.vehicle v).state ∧ (u.vehicle v).cause = some c ∧ (u.vehicle v).progress = .stopped ∧
  (u.vehicle v).transfer = .stopped ∧ (u.vehicle v).docked = 0 ∧ u.attn = (s.raise .vehicleStalled v).attn ∧
  (u.vehicle v).order = (s.vehicle v).order ∧ (u.vehicle v).held = (s.vehicle v).held

variable (hh : s.hears e z) (hr : z.role = .vehicle v) (hv : (s.vehicle v).state ≠ .outOfService)
include hh hr hv

theorem State.reporting_stalls (hs : (s.vehicle v).state ≠ .stalled) (c : StallCause) :
    s.stalls ((s.reporting e more v).stall v c none) v c := by
  obtain ⟨vehicle, attn⟩ := (State.reporting_stall (more := more) hh hr hv c).1 hs
  unfold State.stalls
  rw [vehicle]
  exact ⟨rfl, rfl, rfl, rfl, rfl, rfl, attn, rfl, rfl⟩

theorem execFault_stalled (hs : (s.vehicle v).state = .stalled) (hn : n = (s.workingOrder v).getD 0) (f : Nat) :
    exec (.fault n f more) s = .next (s.reporting e more v) := by
  rw [execFault_reports hh hr hv hn, (State.reporting_stall hh hr hv .fault).2 hs, State.finish_idle State.reporting_passDue]

theorem execIdle_inconsistent (hno : ¬ ∃ g ∈ (s.vehicle v).held, (s.node x).map Node.seg = some g) : exec (.idle n x more) s =
    .next (((s.reporting e more v).stall v .position none).refuse e.addr .idle .badState).finish := by
  rw [execIdle_reports hh hr hv, if_neg fun h => hno ((State.reporting_consistent (p := .node x) hh hr).mp h)]

variable (here : ∃ g ∈ (s.vehicle v).held, (s.node x).map Node.seg = some g)
include here

theorem execIdle_consistent : exec (.idle n x more) s = .next ((s.reporting e more v).takeIdle v x).finish := by
  rw [execIdle_reports hh hr hv, if_pos ((State.reporting_consistent (p := .node x) hh hr).mpr here)]

theorem execIdle_stays (h : (s.reporting e more v).takeIdle v x = s.reporting e more v) :
    exec (.idle n x more) s = .next (s.reporting e more v) := by
  rw [execIdle_consistent hh hr hv here, h, State.finish_idle State.reporting_passDue]

/-- A vehicle that works no unmarked order enters IDLE (R148). -/
theorem execIdle_unworked (hi : (s.vehicle v).state ≠ .idle) (hw : s.workingOrder v = none) :
    exec (.idle n x more) s = .next (((s.reporting e more v).unworked v).enterIdle v x).finish ∧
    s.idles (((s.reporting e more v).unworked v).enterIdle v x) v x := by
  have vehicle := State.reporting_vehicle (more := more) hh hr
  obtain ⟨k, _, hk⟩ := id here
  refine ⟨?_, State.reporting_idles (State.unworked_writes _ v) ?_ ⟨k, hk⟩⟩
  · rw [execIdle_consistent hh hr hv here, State.takeIdle_unworked (by rw [vehicle]; exact hi) (by rw [vehicle]; exact hv)
      ((State.reporting_workingOrder hh hr).trans hw), State.idleAt_eq]
  · obtain ⟨_, _, unworked⟩ := (s.reporting e more v).unworked_vehicle v
    rw [unworked, vehicle]

/-- A vehicle stalled in IDLE is back in it (R153). -/
theorem execIdle_back (hs : (s.vehicle v).state = .stalled) (hp : (s.vehicle v).prev = some .idle) :
    ∃ u, exec (.idle n x more) s = .next (State.finish u) ∧ s.idles u v x := by
  have vehicle := State.reporting_vehicle (more := more) hh hr
  cases hw : s.workingOrder v with
  | none => exact ⟨_, execIdle_unworked hh hr hv here (by rw [hs]; nofun) hw⟩
  | some k =>
    obtain ⟨g, _, hg⟩ := id here
    refine ⟨(s.reporting e more v).enterIdle v x, ?_, State.reporting_idles .refl (by rw [vehicle]) ⟨g, hg⟩⟩
    rw [execIdle_consistent hh hr hv here, State.takeIdle_back (by rw [vehicle]; exact hs) (by rw [vehicle]; exact hp)
      ((State.reporting_workingOrder hh hr).trans hw)]

variable {d : Nat} (hw : s.workingOrder v = some m) (ho : s.order m = some o) (hd : s.headsFor v o d)
include hw ho hd

/-- A vehicle on its way is told its order anew, with the way from the node it reports, or stalls for want of one (R148, R153). -/
theorem execIdle_retasks : exec (.idle n x more) s = .next ((s.reporting e more v).sentOn v x m (s.wayBetween x d)).finish := by
  have vehicle := State.reporting_vehicle (more := more) hh hr
  have heads : (s.reporting e more v).headsFor v o d := by
    unfold State.headsFor
    rw [vehicle, State.reporting_pickup, State.reporting_drop]
    exact hd
  have way : (s.reporting e more v).wayBetween x d = s.wayBetween x d := by
    unfold State.wayBetween
    rw [State.reporting_routeBetween]
  rw [execIdle_consistent hh hr hv here, State.takeIdle_moving ?_ ((State.reporting_workingOrder hh hr).trans hw)
    ((State.reporting_order m).trans ho), State.retask_eq heads, way]
  rw [vehicle]
  exact hd.imp (fun h => h.1) fun h => h.1

theorem execIdle_way {way : Option Nat} (hway : s.wayBetween x d = some way) :
    ∃ u, exec (.idle n x more) s = .next (State.sendTask u m) ∧ u.orders = s.orders ∧ (u.vehicle v).state = (s.vehicle v).state ∧
      (u.vehicle v).pos = some (.node x) ∧ (u.vehicle v).leg = way.map (⟨·, 0⟩) ∧ (u.vehicle v).nextRoute = none := by
  obtain ⟨t, vehicle⟩ := (s.reporting e more v).setOut_vehicle v x way
  obtain ⟨_, due, _⟩ := VehicleLaw.sync_rest ((s.reporting e more v).modVehicle v (Vehicle.setOut · x way)) v
  have orders := VehicleLaw.sync_orders ((s.reporting e more v).modVehicle v (Vehicle.setOut · x way)) v
  rw [State.modVehicle_passDue, State.reporting_passDue] at due
  rw [State.modVehicle_orders] at orders
  rw [execIdle_retasks hh hr hv here hw ho hd, hway, State.sentOn]
  generalize ((s.reporting e more v).modVehicle v (Vehicle.setOut · x way)).syncProgress v = u at vehicle due orders
  refine ⟨u, ?_, orders.trans (State.heard_orders (more := more)), ?_⟩
  · rw [State.finish_idle ((u.sendTask_passDue m).trans due)]
  · rw [vehicle, State.reporting_vehicle hh hr]
    exact ⟨rfl, rfl, rfl, rfl⟩

theorem execIdle_lost (hway : s.wayBetween x d = none) :
    exec (.idle n x more) s = .next ((s.reporting e more v).stall v .position none).finish := by
  have reports := execIdle_retasks (n := n) (more := more) hh hr hv here hw ho hd
  rw [hway] at reports
  exact reports

end

/-! ## The obligation -/

/-- Settles O53: out of service a report is refused or heard alone; in service NONE shows a lost command, FAULT stalls, and IDLE stalls the
vehicle, enters IDLE, or has the TASK placed again, by what the vehicle's record and its order say. -/
theorem idleFaultAndNone : Obligations.IdleFaultAndNone := by
  unfold Obligations.IdleFaultAndNone
  intro s e z v n more hh hr y h h0 works stalled idleAt
  have working {m : Nat} {o : Order} (hw : works m o) : s.workingOrder v = some m := by
    obtain ⟨hm, ho, habort⟩ := hw
    exact VehicleLaw.works hm ho habort
  refine ⟨fun hout => ?_, fun hv => ⟨execNoneReply_agrees hh hr hv, fun hn hno => ?_, fun m o hw hne => ?_, fun f hn => ⟨fun hs => ?_,
    fun hs => ?_⟩, fun x => ?_⟩⟩
  · exact ⟨execNoneReply_outOfService hh hr hout n, fun x => execIdle_outOfService hh hr hout n x,
      fun f => exec_outOfService hh hr hout (k := .fault) (show execFault n f more s = _ from rfl),
      fun p b => exec_outOfService hh hr hout (k := .position) (show execPosition n p b more s = _ from rfl),
      fun g => exec_outOfService hh hr hout (k := .claim) (show execClaim n g more s = _ from rfl),
      fun d => exec_outOfService hh hr hout (k := .docked) (show execDocked n d more s = _ from rfl),
      exec_outOfService hh hr hout (k := .loaded) (show execLoaded n more s = _ from rfl),
      exec_outOfService hh hr hout (k := .unloaded) (show execUnloaded n more s = _ from rfl)⟩
  · exact execNoneReply_lostAbort hh hr hv hn (VehicleLaw.noWork hno)
  · exact execNoneReply_lostTask hh hr hv hne (working hw)
  · exact execFault_stalled hh hr hv hs hn f
  · exact ⟨_, execFault_reports hh hr hv hn f, State.reporting_stalls hh hr hv hs .fault⟩
  intro here i
  have vehicle : (s.reporting e more v).vehicle v = { y with lastReport := some s.timeBase, docked := 0 } := State.reporting_vehicle hh hr
  refine ⟨fun hno hs => ?_, fun hat hs => ?_, fun hat hs hnone => ?_, fun m o hat hs hm ho habort hown => ?_,
    fun hat hs hp => execIdle_back hh hr hv hat hs hp, fun m o hat hw => ⟨fun hs => ?_, fun d hd => ⟨fun hx => ?_, fun k hx hk => ?_,
      fun hx hk => ?_⟩⟩⟩
  · exact ⟨_, execIdle_inconsistent hh hr hv hno, State.reporting_stalls hh hr hv hs .position⟩
  · exact execIdle_stays hh hr hv hat (State.takeIdle_idle (by rw [vehicle]; exact hs))
  · refine ⟨_, execIdle_unworked hh hr hv hat hs (VehicleLaw.noWork ?_)⟩
    rintro m o ⟨hm, _⟩
    cases hnone.symm.trans hm
  · obtain ⟨reports, idles⟩ := execIdle_unworked (n := n) (more := more) hh hr hv hat hs (VehicleLaw.noWork (by
      rintro m' o' ⟨hm', ho', habort'⟩
      cases hm.symm.trans hm'
      cases ho.symm.trans ho'
      cases habort.symm.trans habort'))
    obtain ⟨unlinked, freed⟩ := State.unworked_order (s := s.reporting e more v) (by rw [vehicle]; exact hm)
      ((State.reporting_order m).trans ho) hown
    obtain ⟨⟨_, _, idle⟩, _, _, _, _, orders⟩ := VehicleLaw.enterIdle ((s.reporting e more v).unworked v) v x
    refine ⟨_, reports, idles, by rw [idle]; exact unlinked, fun q hq => ?_⟩
    rw [State.order, orders] at hq
    rw [← State.reporting_orderSeq (s := s) (e := e) (more := more) (v := v)]
    exact freed q hq
  · refine execIdle_stays hh hr hv hat (State.takeIdle_busy ?_ ((State.reporting_workingOrder hh hr).trans (working hw)))
    rw [vehicle]
    exact hs
  all_goals have heads : s.headsFor v o d := hd
  · exact execIdle_way hh hr hv hat (working hw) hw.2.1 heads (if_pos hx)
  · exact execIdle_way hh hr hv hat (working hw) hw.2.1 heads (by rw [State.wayBetween, if_neg hx, hk]; rfl)
  · have hs : y.state ≠ .stalled := by rcases hd with ⟨hs, _⟩ | ⟨hs, _⟩ <;> rw [hs] <;> nofun
    refine ⟨_, execIdle_lost hh hr hv hat (working hw) hw.2.1 heads (by rw [State.wayBetween, if_neg hx, hk]; rfl),
      State.reporting_stalls hh hr hv hs .position, ?_⟩
    rw [((State.reporting_stall (more := more) hh hr hv .position).1 hs).1]
    exact ⟨rfl, rfl, rfl⟩

end Sys2Proof.Machine
end

section
/-! Proofs about SET_SERVICE (R145, R146): the settings, a vehicle brought in with its order or without one, and a vehicle taken out. -/

namespace Sys2Proof.Machine

variable {s : State} {v x n : Nat} {o : Order}

/-! ## SETTINGS (R145) -/

theorem execSetServiceSettings_eq {p t m : Nat} (ht : s.takes (.setServiceSettings p t m) = true) :
    exec (.setServiceSettings p t m) s = .next (if 10 ≤ p ∧ p ≤ 250 ∧ 20 ≤ t ∧ t ≤ 250 ∧ 30 ≤ m ∧ m ≤ 600 then
      { s.fresh with progressTimeout := p, transferTimeout := t, urgentMargin := m }.replied (.setServiceSettings p t m) .ok []
    else s.fresh.replied (.setServiceSettings p t m) .badArgument []) := by
  have range : (within 10 250 p && within 20 250 t && within 30 600 m) = true ↔
      10 ≤ p ∧ p ≤ 250 ∧ 20 ≤ t ∧ t ≤ 250 ∧ 30 ≤ m ∧ m ≤ 600 := by
    simp only [Bool.and_eq_true, within_iff, and_assoc]
  by_cases h : 10 ≤ p ∧ p ≤ 250 ∧ 20 ≤ t ∧ t ≤ 250 ∧ 30 ≤ m ∧ m ≤ 600
  · rw [if_pos h]
    exact request_eq_quiet (h := (·.serviceSettings p t m))
      (q := State.ok { s.fresh with progressTimeout := p, transferTimeout := t, urgentMargin := m }) ht (if_pos (range.mpr h)) rfl rfl
  · rw [if_neg h]
    exact request_refused (h := (·.serviceSettings p t m)) ht (if_neg fun hr => h (range.mp hr))

/-! ## IN: a kept order goes on (R145, R147) -/

/-- A vehicle with its roll on board that has no way yet. -/
def Vehicle.toDropFrom (y : Vehicle) : Vehicle := { y with state := .toDrop, leg := none, nextRoute := none }

/-- An order whose transfer at the drop was broken off carries its roll again. -/
def Order.carriedOn (q : Order) : Order := { q with state := if q.state = .unloading then .carrying else q.state }

/-- The vehicle and its order set on their way, before the drop is looked up. -/
def State.onward (s : State) (v n : Nat) : State := (s.modVehicle v Vehicle.toDropFrom).modOrder n Order.carriedOn

/-- The drop looked up and the way to it, before the progress timer and the TASK. -/
def State.routed (s : State) (v x n : Nat) : Option Nat → State
  | none => s.modOrder n ({ · with noBay := true })
  | some d =>
    match s.wayBetween x d with
    | none => s.modOrder n ({ · with noRoute := true })
    | some way => (s.modOrder n ({ · with noBay := false, noRoute := false })).modVehicle v (Vehicle.on · way)

theorem State.onward_bays (s : State) (v n : Nat) : (s.onward v n).bays = s.bays ∧ (s.onward v n).stands = s.stands ∧
    (s.onward v n).routes = s.routes := by
  simp [State.onward]

theorem State.onward_drop : (s.onward v n).drop o = s.drop o := by
  obtain ⟨bays, stands, _⟩ := s.onward_bays v n
  exact State.drop_congr (fun b => congrArg (fun t : Tbl Bay => (t.get b .cold).aisle) bays) stands o

theorem State.onward_wayBetween (a b : Nat) : (s.onward v n).wayBetween a b = s.wayBetween a b := by
  rw [State.wayBetween, State.routeBetween, (s.onward_bays v n).2.2, State.wayBetween, State.routeBetween]

theorem State.resumeOrder_eq (s : State) (v x n : Nat) (o : Order) : s.resumeOrder v x n o =
    (((s.onward v n).routed v x n (s.drop o)).restartProgress v).sendTask n := by
  rw [← State.onward_drop (v := v) (n := n)]
  unfold State.resumeOrder State.routed
  rfl

theorem State.routed_rest (s : State) (v x n : Nat) (d : Option Nat) : (s.routed v x n d).segments = s.segments ∧
    (s.routed v x n d).passDue = s.passDue ∧ (s.routed v x n d).port = s.port := by
  unfold State.routed
  repeat' split
  all_goals simp

/-- Setting a kept order on its way leaves the segments, leads to no pass and answers nothing. -/
theorem State.resumeOrder_rest (s : State) (v x n : Nat) (o : Order) : (s.resumeOrder v x n o).segments = s.segments ∧
    (s.resumeOrder v x n o).passDue = s.passDue ∧ (s.resumeOrder v x n o).port = s.port := by
  obtain ⟨hseg, hpass, hport⟩ := (s.onward v n).routed_rest v x n (s.drop o)
  rw [State.resumeOrder_eq]
  obtain ⟨st, hst⟩ := (((s.onward v n).routed v x n (s.drop o)).restartProgress v).sendTask_only n
  rw [hst]
  obtain ⟨_, hseg', hpass'⟩ := VehicleLaw.restart_rest ((s.onward v n).routed v x n (s.drop o)) v
  refine ⟨hseg'.trans (hseg.trans ?_), hpass'.trans (hpass.trans ?_), ?_⟩
  · simp [State.onward]
  · simp [State.onward]
  · show (((s.onward v n).routed v x n (s.drop o)).restartProgress v).port = s.port
    rw [State.restartProgress, State.modVehicle_port, hport, State.onward, State.modOrder_port, State.modVehicle_port]

/-- A kept order and its vehicle after SET_SERVICE IN, up to the progress timer: those of the routed state. -/
theorem State.resumeOrder_records (s : State) (v x n : Nat) (o : Order) :
    (s.resumeOrder v x n o).order n = ((s.onward v n).routed v x n (s.drop o)).order n ∧
    ∀ p, { (s.resumeOrder v x n o).vehicle v with progress := p } =
      { ((s.onward v n).routed v x n (s.drop o)).vehicle v with progress := p } := by
  rw [State.resumeOrder_eq]
  generalize (s.onward v n).routed v x n (s.drop o) = t
  obtain ⟨st, hst⟩ := (t.restartProgress v).sendTask_only n
  rw [hst]
  refine ⟨congrArg (fun u : Tbl Order => u.find n) (VehicleLaw.restart_rest t v).1, fun p => ?_⟩
  show { (t.restartProgress v).vehicle v with progress := p } = _
  rw [VehicleLaw.restart_vehicle, if_pos rfl]

theorem State.onward_order (ho : s.order n = some o) : (s.onward v n).order n = some o.carriedOn := by
  rw [State.onward, Law.order_mod, if_pos rfl]
  show (s.order n).map Order.carriedOn = _
  rw [ho, Option.map_some]

theorem State.onward_vehicle (s : State) (v n : Nat) : (s.onward v n).vehicle v = (s.vehicle v).toDropFrom := by
  rw [State.onward, State.modOrder_vehicle, Law.vehicle_mod, if_pos rfl]

/-- Without a drop the order is marked NO_BAY (R145). -/
theorem State.resumeOrder_noDrop (ho : s.order n = some o) (hd : s.drop o = none) :
    (s.resumeOrder v x n o).order n = some { o.carriedOn with noBay := true } := by
  rw [(s.resumeOrder_records v x n o).1, hd]
  show ((s.onward v n).modOrder n ({ · with noBay := true })).order n = _
  rw [Law.order_mod, if_pos rfl, State.onward_order ho, Option.map_some]

/-- Without a route to its drop the order is marked NO_ROUTE (R145). -/
theorem State.resumeOrder_noWay {d : Nat} (ho : s.order n = some o) (hd : s.drop o = some d) (hw : s.wayBetween x d = none) :
    (s.resumeOrder v x n o).order n = some { o.carriedOn with noRoute := true } := by
  have marked : (s.onward v n).routed v x n (some d) = (s.onward v n).modOrder n ({ · with noRoute := true }) := by
    rw [State.routed, State.onward_wayBetween, hw]
  rw [(s.resumeOrder_records v x n o).1, hd, marked, Law.order_mod, if_pos rfl, State.onward_order ho, Option.map_some]

/-- With a way to its drop the order has no mark and the vehicle goes that way (R145). -/
theorem State.resumeOrder_way {d : Nat} {way : Option Nat} (ho : s.order n = some o) (hd : s.drop o = some d)
    (hw : s.wayBetween x d = some way) :
    (s.resumeOrder v x n o).order n = some { o.carriedOn with noBay := false, noRoute := false } ∧
    ∀ p, { (s.resumeOrder v x n o).vehicle v with progress := p } = { (s.vehicle v).toDropFrom.on way with progress := p } := by
  have routed : (s.onward v n).routed v x n (some d) =
      ((s.onward v n).modOrder n ({ · with noBay := false, noRoute := false })).modVehicle v (Vehicle.on · way) := by
    rw [State.routed, State.onward_wayBetween, hw]
  obtain ⟨horder, hvehicle⟩ := s.resumeOrder_records v x n o
  rw [hd, routed] at horder hvehicle
  refine ⟨horder.trans ?_, fun p => (hvehicle p).trans ?_⟩
  · show ((s.onward v n).modOrder n _).order n = _
    rw [Law.order_mod, if_pos rfl, State.onward_order ho, Option.map_some]
  · rw [Law.vehicle_mod, if_pos rfl, State.modOrder_vehicle, State.onward_vehicle]

/-! ## IN: the checks and the outcome (R145) -/

/-- The checks on the state before an accepted SET_SERVICE IN: the vehicle out of service, its station set, the segment free. -/
abbrev State.idleFor (s : State) (v seg : Nat) : Prop :=
  (s.vehicle v).state = .outOfService ∧ s.vehicleStation v ≠ none ∧ (s.segment seg).holder = none

theorem State.serviceIn_badArgument (h : v < 1 ∨ 12 < v ∨ x < 1 ∨ 48 < x ∨ s.node x = none) : s.serviceIn v x = s.no .badArgument := by
  have noNode : (if (vehicleOk v && within 1 Config.nodes x) = true then s.node x else none) = none := by
    by_cases hr : (vehicleOk v && within 1 Config.nodes x) = true
    · rw [if_pos hr]
      simp only [vehicleOk, Bool.and_eq_true, within_iff, Config.vehicles, Config.nodes] at hr
      rcases h with h | h | h | h | h
      · omega
      · omega
      · omega
      · omega
      · exact h
    · exact if_neg hr
  rw [State.serviceIn, noNode]

theorem State.serviceIn_at {y : Node} (hv : 1 ≤ v ∧ v ≤ 12) (hx : 1 ≤ x ∧ x ≤ 48) (hy : s.node x = some y) : s.serviceIn v x =
    if s.idleFor v y.seg then if s.loopCount ≤ s.inServiceCount + 1 then s.no .limit else (s.bringIn v x y.seg).ok
    else s.no .badState := by
  have inRange : (vehicleOk v && within 1 Config.nodes x) = true := by
    simp only [vehicleOk, Bool.and_eq_true, within_iff, Config.vehicles, Config.nodes]
    exact ⟨hv, hx⟩
  have absent : ((s.vehicle v).inService || (s.vehicleStation v).isNone) = true ↔
      ¬ ((s.vehicle v).state = .outOfService ∧ s.vehicleStation v ≠ none) := by
    simp only [Vehicle.inService, Bool.or_eq_true, bne_iff_ne, Option.isNone_iff_eq_none, not_and_or, ne_eq, not_not]
  rw [State.serviceIn, inRange, if_pos rfl, hy]
  dsimp only
  by_cases hout : (s.vehicle v).state = .outOfService ∧ s.vehicleStation v ≠ none
  · rw [if_neg fun h => absent.mp h hout]
    by_cases hfree : (s.segment y.seg).holder = none
    · have free : ¬ (s.segment y.seg).holder.isSome = true := by simp [hfree]
      have hidle : s.idleFor v y.seg := ⟨hout.1, hout.2, hfree⟩
      rw [if_neg free, if_pos hidle]
    · rw [if_pos (Option.isSome_iff_ne_none.mpr hfree), if_neg fun h => hfree h.2.2]
  · rw [if_pos (absent.mpr hout), if_neg fun h => hout ⟨h.1, h.2.1⟩]

/-- Without an order the vehicle is IDLE at the node and a pass follows. -/
theorem State.bringIn_free {seg : Nat} (h : (s.vehicle v).order = none) : s.bringIn v x seg = (s.putOnTrack v x seg).notice := by
  rw [State.bringIn, h]

/-- With a kept order the vehicle goes on from the node. -/
theorem State.bringIn_ordered {seg : Nat} (h : (s.vehicle v).order = some n) (ho : s.order n = some o) :
    s.bringIn v x seg = (s.putOnTrack v x seg).resumeOrder v x n o := by
  have horder : (s.putOnTrack v x seg).order n = some o := ho
  rw [State.bringIn, h]
  dsimp only
  rw [horder]

/-- The vehicle's record at the node, before any order. -/
theorem State.putOnTrack_vehicle (s : State) (v x seg : Nat) : (s.putOnTrack v x seg).vehicle v =
    { s.vehicle v with state := .idle, pos := some (.node x), held := [seg], docked := 0 } :=
  (Law.vehicle_mod ..).trans (if_pos rfl)

theorem State.putOnTrack_drop (s : State) (v x seg : Nat) (o : Order) : (s.putOnTrack v x seg).drop o = s.drop o := by
  refine State.drop_congr (fun b => ?_) ?_ o
  · rfl
  · rfl

/-! ## SET_SERVICE IN answered -/

section
variable {y : Node}

theorem execSetServiceIn_badArgument (ht : s.takes (.setServiceIn v x) = true) (h : v < 1 ∨ 12 < v ∨ x < 1 ∨ 48 < x ∨ s.node x = none) :
    exec (.setServiceIn v x) s = .next (s.fresh.replied (.setServiceIn v x) .badArgument []) :=
  request_refused (h := (·.serviceIn v x)) ht (State.serviceIn_badArgument (s := s.fresh) h)

theorem execSetServiceIn_badState (ht : s.takes (.setServiceIn v x) = true) (hv : 1 ≤ v ∧ v ≤ 12) (hx : 1 ≤ x ∧ x ≤ 48)
    (hy : s.node x = some y) (hidle : ¬ s.idleFor v y.seg) :
    exec (.setServiceIn v x) s = .next (s.fresh.replied (.setServiceIn v x) .badState []) :=
  request_refused (h := (·.serviceIn v x)) ht ((State.serviceIn_at (s := s.fresh) hv hx hy).trans (if_neg hidle))

theorem execSetServiceIn_limit (ht : s.takes (.setServiceIn v x) = true) (hv : 1 ≤ v ∧ v ≤ 12) (hx : 1 ≤ x ∧ x ≤ 48)
    (hy : s.node x = some y) (hidle : s.idleFor v y.seg) (hfull : s.loopCount ≤ s.inServiceCount + 1) :
    exec (.setServiceIn v x) s = .next (s.fresh.replied (.setServiceIn v x) .limit []) :=
  request_refused (h := (·.serviceIn v x)) ht
    ((State.serviceIn_at (s := s.fresh) hv hx hy).trans ((if_pos hidle).trans (if_pos hfull)))

theorem State.serviceIn_ok (hv : 1 ≤ v ∧ v ≤ 12) (hx : 1 ≤ x ∧ x ≤ 48) (hy : s.node x = some y) (hidle : s.idleFor v y.seg)
    (hroom : s.inServiceCount + 1 < s.loopCount) : s.serviceIn v x = (s.bringIn v x y.seg).ok :=
  (State.serviceIn_at hv hx hy).trans ((if_pos hidle).trans (if_neg (Nat.not_le.mpr hroom)))

theorem execSetServiceIn_free (ht : s.takes (.setServiceIn v x) = true) (hv : 1 ≤ v ∧ v ≤ 12) (hx : 1 ≤ x ∧ x ≤ 48)
    (hy : s.node x = some y) (hidle : s.idleFor v y.seg) (hroom : s.inServiceCount + 1 < s.loopCount)
    (horder : (s.vehicle v).order = none) :
    exec (.setServiceIn v x) s = .next ((s.fresh.putOnTrack v x y.seg).notice.replied (.setServiceIn v x) .ok []).finish := by
  refine request_eq (h := (·.serviceIn v x)) (q := (s.fresh.putOnTrack v x y.seg).notice.ok) ht ?_ rfl
  rw [State.serviceIn_ok (s := s.fresh) hv hx hy hidle hroom, State.bringIn_free (s := s.fresh) horder]

theorem execSetServiceIn_ordered (ht : s.takes (.setServiceIn v x) = true) (hv : 1 ≤ v ∧ v ≤ 12) (hx : 1 ≤ x ∧ x ≤ 48)
    (hy : s.node x = some y) (hidle : s.idleFor v y.seg) (hroom : s.inServiceCount + 1 < s.loopCount)
    (horder : (s.vehicle v).order = some n) (ho : s.order n = some o) :
    exec (.setServiceIn v x) s =
      .next (((s.fresh.putOnTrack v x y.seg).resumeOrder v x n o).replied (.setServiceIn v x) .ok []) := by
  obtain ⟨_, hpass, hport⟩ := (s.fresh.putOnTrack v x y.seg).resumeOrder_rest v x n o
  refine request_eq_quiet (h := (·.serviceIn v x)) (q := ((s.fresh.putOnTrack v x y.seg).resumeOrder v x n o).ok) ht ?_ hport hpass
  rw [State.serviceIn_ok (s := s.fresh) hv hx hy hidle hroom, State.bringIn_ordered (s := s.fresh) horder ho]

end

end Sys2Proof.Machine
end

section
/-! Proofs about SET_SERVICE OUT (R146): what the vehicle held, what its record becomes, and what becomes of its order. -/

namespace Sys2Proof.Machine

variable {s : State} {v n g : Nat} {o : Order}

/-! ## Leaving the track (R146 steps 1 to 3) -/

/-- A vehicle's segments released, its waiting list left and its bay marks removed. -/
def State.offTrack (s : State) (v : Nat) : State := ((s.releaseHeld v fun _ => false).leaveList v).clearMarks v

/-- What the vehicle holds after its segments were released: nothing, unless it heads a waiting list of its own segment. -/
def State.regranted (s : State) (v : Nat) : List Nat := ((s.releaseHeld v fun _ => false).vehicle v).held

theorem State.offTrack_vehicle (s : State) (v : Nat) : ∃ p, (s.offTrack v).vehicle v =
    { s.vehicle v with held := s.regranted v, waiting := none, progress := p } := by
  obtain ⟨⟨held, waiting, p, hrel⟩, _⟩ := VehicleLaw.relHeld s v fun _ => false
  refine ⟨p, ?_⟩
  have cleared (t : State) : (t.clearMarks v).vehicle v = t.vehicle v := by
    rw [State.vehicle, (VehicleLaw.clearMarks_rest t v).1, State.vehicle]
  rw [State.offTrack, cleared, VehicleLaw.leave_vehicle, if_pos rfl, State.regranted, hrel]

theorem State.offTrack_rest (s : State) (v : Nat) :
    (s.offTrack v).orders = s.orders ∧ (s.offTrack v).rolls = s.rolls := by
  obtain ⟨_, hrolls, _, _, horders⟩ := VehicleLaw.relHeld s v fun _ => false
  have marks (t : State) : (t.clearMarks v).rolls = t.rolls := by
    obtain ⟨b, p, heq, _⟩ := t.clearMarks_only v
    rw [heq]
  have left (t : State) : (t.leaveList v).orders = t.orders ∧ (t.leaveList v).rolls = t.rolls := by
    unfold State.leaveList
    split <;> simp
  refine ⟨(VehicleLaw.clearMarks_rest _ v).2.2.2.2.trans ((left _).1.trans horders), (marks _).trans ((left _).2.trans hrolls)⟩

theorem State.wr_offTrack (s : State) (v : Nat) : Wr 1 s (s.offTrack v) :=
  State.wr_clearMarks (State.wr_leaveList (State.wr_releaseHeld .refl (by decide) v _) (by decide) v) (by decide) v

/-! ## The vehicle's order (R132, R133, R146 step 4) -/

/-- A marked order is freed. -/
theorem State.orderAtOut_marked (ho : s.order n = some o) (h : o.abort = true) : s.orderAtOut n = s.freeOrder n := by
  rw [State.orderAtOut, ho]
  exact if_pos h

/-- An ASSIGNED or LOADING order returns to PENDING and keeps its reservation. -/
theorem State.orderAtOut_back (ho : s.order n = some o) (h : o.abort = false) (hstate : o.state = .assigned ∨ o.state = .loading) :
    s.orderAtOut n = s.returnToPending n true := by
  rw [State.orderAtOut, ho]
  dsimp only
  rw [h, if_neg Bool.false_ne_true]
  rcases hstate with hstate | hstate <;> rw [hstate]

/-- An order in no such state stays. -/
theorem State.orderAtOut_kept (ho : s.order n = some o) (h : o.abort = false) (hassigned : o.state ≠ .assigned)
    (hloading : o.state ≠ .loading) : s.orderAtOut n = s := by
  rw [State.orderAtOut, ho]
  dsimp only
  rw [h, if_neg Bool.false_ne_true]
  split
  · next q => exact absurd q hassigned
  · next q => exact absurd q hloading
  all_goals rfl

theorem State.orderAtOut_none (ho : s.order n = none) : s.orderAtOut n = s := by rw [State.orderAtOut, ho]

theorem State.returnToPending_vehicles (ho : s.order n = some o) :
    (s.returnToPending n true).vehicles = (s.freeVehicle n o).vehicles ∧ (s.returnToPending n true).stations = s.stations ∧
    (s.returnToPending n true).rolls = s.rolls ∧ (s.returnToPending n true).passDue = true := by
  obtain ⟨_, hstations, hvehicles, _⟩ := OrderLaw.with_rest (s.freeVehicle n o) n o
  rw [State.returnToPending_keep ho]
  simp only [State.notice_vehicles, State.notice_stations, State.notice_rolls, State.notice_passDue, State.modOrder_vehicles,
    State.modOrder_stations, State.modOrder_rolls, hvehicles, hstations, (OrderLaw.freeV_rest s n o).2.1, RollsAfter.withdrawBay,
    RollsAfter.freeVehicle, and_self]

/-- What happens to a vehicle's order writes at most the vehicle's link to it and its previous state. -/
theorem State.orderAtOut_vehicle (s : State) (n w : Nat) :
    ∃ link prev, (s.orderAtOut n).vehicle w = { s.vehicle w with order := link, prev := prev } := by
  cases ho : s.order n with
  | none => rw [State.orderAtOut_none ho]; exact ⟨_, _, rfl⟩
  | some o =>
    by_cases hmark : o.abort = true
    · rw [State.orderAtOut_marked ho hmark, State.freeOrder_vehicle ho]
      split
      · exact ⟨_, _, rfl⟩
      · exact ⟨_, _, rfl⟩
    · rw [Bool.not_eq_true] at hmark
      by_cases hstate : o.state = .assigned ∨ o.state = .loading
      · rw [State.orderAtOut_back ho hmark hstate, State.vehicle, (State.returnToPending_vehicles ho).1]
        show ∃ link prev, (s.freeVehicle n o).vehicle w = _
        unfold State.freeVehicle
        split
        · split
          · rw [State.unlinkVehicle, Law.vehicle_mod]
            split
            · next q => subst q; exact ⟨_, _, rfl⟩
            · exact ⟨_, _, rfl⟩
          · exact ⟨_, _, rfl⟩
        · exact ⟨_, _, rfl⟩
      · obtain ⟨hassigned, hloading⟩ := not_or.mp hstate
        rw [State.orderAtOut_kept ho hmark hassigned hloading]
        exact ⟨_, _, rfl⟩

/-- What happens to a vehicle's order sends nothing: the vehicle is out of service (R146). -/
theorem State.orderAtOut_stations (s : State) (n : Nat) : (s.orderAtOut n).stations = s.stations := by
  cases ho : s.order n with
  | none => rw [State.orderAtOut_none ho]
  | some o =>
    by_cases hmark : o.abort = true
    · rw [State.orderAtOut_marked ho hmark, State.freeOrder_stations]
    · rw [Bool.not_eq_true] at hmark
      by_cases hstate : o.state = .assigned ∨ o.state = .loading
      · rw [State.orderAtOut_back ho hmark hstate, (State.returnToPending_vehicles ho).2.1]
      · obtain ⟨hassigned, hloading⟩ := not_or.mp hstate
        rw [State.orderAtOut_kept ho hmark hassigned hloading]

/-! ## The vehicle taken out (R146) -/

/-- The state before the vehicle's record is closed: its order dealt with. -/
def State.settledOut (s : State) (v : Nat) : State := (s.vehicle v).order.elim (s.offTrack v) (s.offTrack v).orderAtOut

theorem State.takeOut_eq (s : State) (v : Nat) : s.takeOut v = (s.settledOut v).modVehicle v Vehicle.outed := by
  unfold State.takeOut State.settledOut State.offTrack
  cases (s.vehicle v).order <;> rfl

theorem State.settledOut_vehicle (s : State) (v w : Nat) :
    ∃ link prev, (s.settledOut v).vehicle w = { (s.offTrack v).vehicle w with order := link, prev := prev } := by
  unfold State.settledOut
  generalize s.offTrack v = t
  cases (s.vehicle v).order with
  | none => exact ⟨(t.vehicle w).order, (t.vehicle w).prev, rfl⟩
  | some n => exact State.orderAtOut_vehicle _ n w

theorem State.settledOut_stations (s : State) (v : Nat) : (s.settledOut v).stations = (s.offTrack v).stations := by
  unfold State.settledOut
  cases (s.vehicle v).order with
  | none => rfl
  | some n => exact State.orderAtOut_stations _ n

theorem State.wr_settledOut (s : State) (v : Nat) : Wr 0 (s.offTrack v) (s.settledOut v) := by
  unfold State.settledOut
  cases (s.vehicle v).order with
  | none => exact .refl
  | some n => exact State.wr_orderAtOut .refl n

/-- The vehicle's record: out of service, with its load and last-report time. -/
theorem State.takeOut_vehicle (s : State) (v : Nat) :
    ∃ link, (s.takeOut v).vehicle v = { (s.vehicle v).outed with held := s.regranted v, order := link } := by
  obtain ⟨link, prev, hsettled⟩ := s.settledOut_vehicle v v
  obtain ⟨p, hoff⟩ := s.offTrack_vehicle v
  refine ⟨link, ?_⟩
  rw [State.takeOut_eq, Law.vehicle_mod, if_pos rfl, hsettled, hoff]
  rfl

theorem State.takeOut_port (s : State) (v : Nat) : (s.takeOut v).port = s.port := by
  rw [State.takeOut_eq, State.modVehicle_port, ((s.wr_settledOut v).kept (by decide)).port, ((s.wr_offTrack v).kept (by decide)).port]

/-! ## One segment held -/

theorem State.releaseHeld_one (h : (s.vehicle v).held = [g]) :
    (s.releaseHeld v fun _ => false) = (s.modVehicle v ({ · with held := [] })).releaseSegment g := by
  unfold State.releaseHeld
  rw [h]
  rfl

/-- A vehicle on no waiting list of its segment holds nothing after the release. -/
theorem State.regranted_one (h : (s.vehicle v).held = [g]) (hv : v ∉ (s.segment g).waiters) : s.regranted v = [] := by
  have notHead : ((s.modVehicle v ({ · with held := [] })).segment g).waiters.head? ≠ some v := by
    rw [VehicleLaw.seg_mv]
    exact fun hhead => hv (List.mem_of_mem_head? hhead)
  rw [State.regranted, State.releaseHeld_one h, VehicleLaw.release_vehicle, if_neg notHead, Law.vehicle_mod, if_pos rfl]

/-- The head of the segment's waiting list holds it. -/
theorem State.takeOut_holder (h : (s.vehicle v).held = [g]) : ((s.takeOut v).segment g).holder = (s.segment g).waiters.head? := by
  have left (t : State) : (((t.leaveList v).clearMarks v).segment g).holder = (t.segment g).holder := by
    rw [State.segment, (VehicleLaw.clearMarks_rest _ v).2.2.2.1]
    show ((t.leaveList v).segment g).holder = _
    rw [VehicleLaw.leave_segment]
    split <;> rfl
  rw [State.takeOut_eq, VehicleLaw.seg_mv, State.segment, ((s.wr_settledOut v).kept_bays (by decide)).2]
  show ((s.offTrack v).segment g).holder = _
  rw [State.offTrack, left, State.releaseHeld_one h, VehicleLaw.release_segment, if_pos rfl, VehicleLaw.seg_mv]

/-- The station of a vehicle is no other vehicle's. -/
theorem State.vehicleStation_inj {w a : Nat} (hs : s.stations.rising = true) (hv : s.vehicleStation v = some a)
    (hw : s.vehicleStation w = some a) : v = w := by
  obtain ⟨x, hx, hxrole⟩ := Tbl.first_some hv
  obtain ⟨y, hy, hyrole⟩ := Tbl.first_some hw
  have same : x = y := Option.some.inj (((Tbl.mem_iff_find hs).mp hx).symm.trans ((Tbl.mem_iff_find hs).mp hy))
  subst same
  exact Role.vehicle.inj ((beq_iff_eq.mp hxrole).symm.trans (beq_iff_eq.mp hyrole))

theorem State.sendVehicle_station_other {w a : Nat} (hs : s.stations.rising = true) (hv : s.vehicleStation v = some a) (hw : w ≠ v)
    (c : Cmd) : (s.sendVehicle w c).station a = s.station a := by
  unfold State.sendVehicle State.sendVehicleKept
  split
  · rfl
  · next b hb =>
    have other : a ≠ b := fun q => hw (State.vehicleStation_inj hs hb (q ▸ hv))
    rw [State.sendKept, Law.station_mod, if_neg other]

/-- The grant of a released segment goes to another vehicle's station. -/
theorem State.releaseSegment_station {a : Nat} (hs : s.stations.rising = true) (hv : s.vehicleStation v = some a)
    (hwait : v ∉ (s.segment g).waiters) : (s.releaseSegment g).station a = s.station a := by
  unfold State.releaseSegment
  split
  · rfl
  · next w ws hw =>
    have other : w ≠ v := fun q => hwait (hw ▸ q ▸ List.mem_cons_self)
    rw [State.station, (VehicleLaw.sync_rest _ w).1]
    exact State.sendVehicle_station_other (s := (s.modSegment g _).modVehicle w _) hs hv other (.grant g)

/-- A vehicle taken out of service is sent nothing. -/
theorem State.takeOut_station {a : Nat} (h : (s.vehicle v).held = [g]) (hwait : v ∉ (s.segment g).waiters)
    (hs : s.stations.rising = true) (hv : s.vehicleStation v = some a) : (s.takeOut v).station a = s.station a := by
  have left (t : State) : ((t.leaveList v).clearMarks v).stations = t.stations :=
    (VehicleLaw.clearMarks_rest _ v).2.2.1.trans (VehicleLaw.leave_rest t v).1
  rw [State.takeOut_eq, State.station, State.modVehicle_stations, State.settledOut_stations, State.offTrack, left,
    State.releaseHeld_one h]
  exact State.releaseSegment_station (s := s.modVehicle v _) hs hv hwait

/-! ## What the record links (R132, R146 step 4) -/

/-- An ASSIGNED or LOADING order is PENDING again, without its vehicle and with its roll, and a pass follows. -/
theorem State.takeOut_back (hlink : (s.vehicle v).order = some n) (ho : s.order n = some o) (h : o.abort = false)
    (hstate : o.state = .assigned ∨ o.state = .loading) :
    ∃ q, (s.takeOut v).order n = some q ∧ q.state = .pending ∧ q.vehicle = none ∧ q.roll = o.roll ∧ (s.takeOut v).rolls = s.rolls ∧
      (s.takeOut v).passDue = true := by
  obtain ⟨horders, hrolls⟩ := s.offTrack_rest v
  have ho' : (s.offTrack v).order n = some o := (congrArg (fun t : Tbl Order => t.find n) horders).trans ho
  have settled : s.settledOut v = (s.offTrack v).returnToPending n true := by
    rw [State.settledOut, hlink, Option.elim_some, State.orderAtOut_back ho' h hstate]
  obtain ⟨d, hq⟩ := (s.offTrack v).returnToPending_order ho'
  obtain ⟨_, _, hkept, hpass⟩ := State.returnToPending_vehicles ho'
  rw [State.takeOut_eq, settled, State.modVehicle_rolls, State.modVehicle_passDue, hkept, hrolls, hpass]
  refine ⟨_, (congrArg (fun t : Tbl Order => t.find n) (State.modVehicle_orders ..)).trans hq, rfl, rfl, rfl, rfl, rfl⟩

/-- A CARRYING or UNLOADING order stays the vehicle's. -/
theorem State.takeOut_kept (hlink : (s.vehicle v).order = some n) (ho : s.order n = some o) (h : o.abort = false)
    (hstate : o.state = .carrying ∨ o.state = .unloading) :
    (s.takeOut v).order n = some o ∧ ((s.takeOut v).vehicle v).order = some n := by
  have ho' : (s.offTrack v).order n = some o := (congrArg (fun t : Tbl Order => t.find n) (s.offTrack_rest v).1).trans ho
  have settled : s.settledOut v = s.offTrack v := by
    have hassigned : o.state ≠ .assigned := by rcases hstate with q | q <;> simp [q]
    have hloading : o.state ≠ .loading := by rcases hstate with q | q <;> simp [q]
    rw [State.settledOut, hlink, Option.elim_some, State.orderAtOut_kept ho' h hassigned hloading]
  obtain ⟨p, hoff⟩ := s.offTrack_vehicle v
  rw [State.takeOut_eq, settled]
  refine ⟨ho', ?_⟩
  rw [Law.vehicle_mod, if_pos rfl, hoff]
  exact hlink

/-! ## SET_SERVICE OUT answered -/

theorem vehicleOk_iff : vehicleOk v = true ↔ 1 ≤ v ∧ v ≤ 12 := within_iff

theorem State.onLoop_iff (s : State) (v : Nat) :
    s.onLoop v = true ↔ ∃ g ∈ (s.vehicle v).held, ∃ next, (s.segment g).kind = some (.loop next) := by
  simp only [State.onLoop, List.any_eq_true, Segment.isLoop_iff]

/-- A vehicle that SET_SERVICE OUT does not take: out of service already, or on the LOOP and not STALLED. -/
theorem State.mayNotLeave_iff (s : State) (v : Nat) :
    (!(s.vehicle v).inService || (s.onLoop v && (s.vehicle v).state != .stalled)) = true ↔ (s.vehicle v).state = .outOfService ∨
      ((∃ g ∈ (s.vehicle v).held, ∃ next, (s.segment g).kind = some (.loop next)) ∧ (s.vehicle v).state ≠ .stalled) := by
  simp only [Bool.or_eq_true, Bool.and_eq_true, State.onLoop_iff, bne_iff_ne, ne_eq, Vehicle.inService, Bool.not_eq_true', bne_eq_false_iff_eq]

theorem execSetServiceOut_badArgument (ht : s.takes (.setServiceOut v) = true) (h : v < 1 ∨ 12 < v) :
    exec (.setServiceOut v) s = .next (s.fresh.replied (.setServiceOut v) .badArgument []) := by
  have hv : ¬ vehicleOk v = true := fun q => by
    obtain ⟨_, _⟩ := vehicleOk_iff.mp q
    omega
  exact request_refused (h := (·.serviceOut v)) ht (if_neg hv)

theorem execSetServiceOut_badState (ht : s.takes (.setServiceOut v) = true) (hv : 1 ≤ v ∧ v ≤ 12)
    (h : (s.vehicle v).state = .outOfService ∨
      ((∃ g ∈ (s.vehicle v).held, ∃ next, (s.segment g).kind = some (.loop next)) ∧ (s.vehicle v).state ≠ .stalled)) :
    exec (.setServiceOut v) s = .next (s.fresh.replied (.setServiceOut v) .badState []) :=
  request_refused (h := (·.serviceOut v)) ht ((if_pos (vehicleOk_iff.mpr hv)).trans (if_pos ((s.fresh.mayNotLeave_iff v).mpr h)))

theorem execSetServiceOut_ok (ht : s.takes (.setServiceOut v) = true) (hv : 1 ≤ v ∧ v ≤ 12) (hin : (s.vehicle v).state ≠ .outOfService)
    (hloop : ¬ ((∃ g ∈ (s.vehicle v).held, ∃ next, (s.segment g).kind = some (.loop next)) ∧ (s.vehicle v).state ≠ .stalled)) :
    exec (.setServiceOut v) s = .next ((s.fresh.takeOut v).replied (.setServiceOut v) .ok []).finish := by
  refine request_eq (h := (·.serviceOut v)) (q := (s.fresh.takeOut v).ok) ht ?_ (s.fresh.takeOut_port v)
  refine (if_pos (vehicleOk_iff.mpr hv)).trans (if_neg fun h => ?_)
  rcases (s.fresh.mayNotLeave_iff v).mp h with hout | hon
  · exact hin hout
  · exact hloop hon

/-! ## O46 -/

/-- IN with a kept order: the order's and the vehicle's records (R145). -/
theorem execSetServiceIn_resumes {x : Nat} {y : Node} (ht : s.takes (.setServiceIn v x) = true) (hv : 1 ≤ v ∧ v ≤ 12)
    (hx : 1 ≤ x ∧ x ≤ 48) (hy : s.node x = some y) (hidle : s.idleFor v y.seg) (hroom : s.inServiceCount + 1 < s.loopCount)
    (hlink : (s.vehicle v).order = some n) (ho : s.order n = some o) :
    let onTrack := fun (leg : Option Leg) => { s.vehicle v with
      state := .toDrop, pos := some (.node x), held := [y.seg], docked := 0, leg := leg, nextRoute := none }
    ∃ (t : State) (q : Order), exec (.setServiceIn v x) s = .next t ∧ t.answers (.setServiceIn v x) .ok [] ∧
      t.segments = s.segments.set y.seg .cold { s.segment y.seg with holder := some v } ∧ t.order n = some q ∧
      q.state = (if o.state = .unloading then .carrying else o.state) ∧ (s.drop o = none → q.noBay = true) ∧
      (s.drop o = some x → q.noRoute = false ∧ { t.vehicle v with progress := (s.vehicle v).progress } = onTrack none) ∧
      ∀ d, s.drop o = some d → d ≠ x → (s.routeBetween x d = none → q.noRoute = true) ∧
        ∀ k, s.routeBetween x d = some k → q.noRoute = false ∧
          { t.vehicle v with progress := (s.vehicle v).progress } = onTrack (some ⟨k, 0⟩) := by
  intro onTrack
  have hexec := execSetServiceIn_ordered ht hv hx hy hidle hroom hlink ho
  have ho' : (s.fresh.putOnTrack v x y.seg).order n = some o := ho
  have hdrop : (s.fresh.putOnTrack v x y.seg).drop o = s.drop o := s.fresh.putOnTrack_drop v x y.seg o
  have hvehicle := s.fresh.putOnTrack_vehicle v x y.seg
  have hsegments := ((s.fresh.putOnTrack v x y.seg).resumeOrder_rest v x n o).1
  have going (way : Option Nat) :
      { ((s.fresh.putOnTrack v x y.seg).vehicle v).toDropFrom.on way with progress := (s.vehicle v).progress } =
        onTrack (way.map (⟨·, 0⟩)) := by
    rw [hvehicle]
    rfl
  cases hd : s.drop o with
  | none =>
    exact ⟨_, _, hexec, rfl, hsegments, State.resumeOrder_noDrop ho' (hdrop.trans hd), rfl, fun _ => rfl, nofun, nofun⟩
  | some d =>
    have dropIs {e : Nat} (he : some d = some e) : e = d := (Option.some.inj he).symm
    cases hw : s.wayBetween x d with
    | none =>
      have noRoute : x ≠ d ∧ s.routeBetween x d = none := by
        rw [State.wayBetween] at hw
        split at hw
        · exact nomatch hw
        · next hne => exact ⟨hne, Option.map_eq_none_iff.mp hw⟩
      refine ⟨_, _, hexec, rfl, hsegments, State.resumeOrder_noWay ho' (hdrop.trans hd) hw, rfl, nofun, fun he => ?_, fun e he _ => ?_⟩
      · exact absurd (dropIs he) noRoute.1
      · rw [dropIs he]
        exact ⟨fun _ => rfl, fun k hk => nomatch noRoute.2.symm.trans hk⟩
    | some way =>
      obtain ⟨horder, hgone⟩ := State.resumeOrder_way ho' (hdrop.trans hd) hw
      have gone := (hgone (s.vehicle v).progress).trans (going way)
      refine ⟨_, _, hexec, rfl, hsegments, horder, rfl, nofun, fun he => ⟨rfl, ?_⟩, fun e he hne => ?_⟩
      · have here : way = none := by
          rw [← dropIs he, State.wayBetween, if_pos rfl] at hw
          exact (Option.some.inj hw).symm
        rw [here] at gone
        exact gone
      · rw [dropIs he] at hne ⊢
        rw [State.wayBetween, if_neg hne.symm] at hw
        obtain ⟨k, hk, hway⟩ := Option.map_eq_some_iff.mp hw
        refine ⟨fun hnone => absurd (hnone.symm.trans hk) nofun, fun j hj => ⟨rfl, ?_⟩⟩
        obtain rfl : k = j := Option.some.inj (hk.symm.trans hj)
        rw [← hway] at gone
        exact gone

/-- Settles O46: a vehicle's record is followed through SET_SERVICE IN, with its order or without, and through OUT. -/
theorem setServiceMovesVehicles : Obligations.SetServiceMovesVehicles := by
  unfold Obligations.SetServiceMovesVehicles
  refine ⟨fun s p t m ht => execSetServiceSettings_eq ht, fun s v x ht => ⟨execSetServiceIn_badArgument ht, ?_⟩, fun s v ht => ?_⟩
  · intro y hv1 hv2 hx1 hx2 hy
    have hv := And.intro hv1 hv2
    have hx := And.intro hx1 hx2
    exact ⟨execSetServiceIn_badState ht hv hx hy, execSetServiceIn_limit ht hv hx hy,
      fun hidle hroom horder => execSetServiceIn_free ht hv hx hy hidle hroom horder,
      fun n o hidle hroom hlink ho => execSetServiceIn_resumes ht hv hx hy hidle hroom hlink ho⟩
  · refine ⟨execSetServiceOut_badArgument ht, fun hv1 hv2 => execSetServiceOut_badState ht ⟨hv1, hv2⟩, fun hv1 hv2 hin hloop => ?_⟩
    obtain ⟨link, hvehicle⟩ := s.fresh.takeOut_vehicle v
    refine ⟨_, execSetServiceOut_ok ht ⟨hv1, hv2⟩ hin hloop, ?_⟩
    refine ⟨congrArg Vehicle.state hvehicle, congrArg Vehicle.pos hvehicle, congrArg Vehicle.leg hvehicle,
      congrArg Vehicle.nextRoute hvehicle, congrArg Vehicle.waiting hvehicle, congrArg Vehicle.prev hvehicle,
      congrArg Vehicle.deck hvehicle, congrArg Vehicle.docked hvehicle, congrArg Vehicle.progress hvehicle,
      congrArg Vehicle.transfer hvehicle, (congrArg Vehicle.load hvehicle).trans rfl,
      (congrArg Vehicle.lastReport hvehicle).trans rfl,
      fun g hheld hwait => ⟨?_, State.takeOut_holder (s := s.fresh) hheld, fun a hs ha =>
        State.takeOut_station (s := s.fresh) hheld hwait hs ha⟩, fun n o hlink ho => ⟨?_, ?_⟩⟩
    · exact (congrArg Vehicle.held hvehicle).trans (State.regranted_one (s := s.fresh) hheld hwait)
    · exact State.takeOut_back (s := s.fresh) hlink ho
    · exact State.takeOut_kept (s := s.fresh) hlink ho

end Sys2Proof.Machine
end
